-- ==== Sys2Proof/Word.lean ====
section
/-!
DEFINITION. The byte, and the plain data that the commands of `Syntax.lean` carry: what an outside agent (host
software, firmware, a sensor, a link partner, a physical fault) hands the block together with a command.
-/

namespace Sys2Proof

/-- One byte. -/
abbrev Byte := BitVec 8

/-- A run of bytes, the lowest address first (R12). -/
abbrev Bytes := List Byte

/-- A map kept as a list of entries in strictly rising key order. -/
abbrev KMap (α : Type) := List (Nat × α)

/-- A submitted command: function `f` (0 the physical function, 1 to 16 a virtual function), queue pair `q` of that
function, and `k`, the ordinal of its fetch on the pair, counted from 0 at the pair's creation (R339, R344). -/
structure CmdRef where
  f : Nat
  q : Nat
  k : Nat
  deriving DecidableEq, Repr

/-- What a read of host memory over PCIe returned (R343, R375, R388). -/
inductive HostRead where
  | ok (bytes : Bytes)
  | failed
  | poisoned
  deriving DecidableEq, Repr

/-- What memory did while a step used it (R280, R281, R310): sectors (stack, offset of the sector) that read with one bad
byte and were corrected, sectors that read uncorrectable, sectors with three or more bad bytes that pass for good or for
correctable ones, with the bytes that they read as, a crock access that failed or came late, and a host-memory
access that failed on PCIe. `stall` is the array cycles that a tile pass waited for weights, scoreboards and finishing
passes (R66, R134); `expired` says that the command's time limit ran out while the step worked (R110). -/
structure Env where
  corrected : List (Nat × Nat) := []
  uncorrectable : List (Nat × Nat) := []
  silent : List (Nat × Nat × Bytes) := []
  crockFailed : Bool := false
  crockLate : Bool := false
  hostFailed : Bool := false
  stall : Nat := 0
  expired : Bool := false
  deriving DecidableEq, Repr

/-- Nothing went wrong in memory. -/
def Env.clean : Env := {}

/-- A hardware fault that strikes a core while it runs a tile pass; a checker of R468 detects it or does not. -/
inductive PassFault where
  | residue (passes : Nat)  -- the array datapath: residue mismatches in so many passes of the piece of work (R79)
  | sramWeight         -- a double-bit error in the weight buffer (R83)
  | sramAct (row block : Nat)  -- a double-bit error in the activation buffer: block `block` of the K tile in band row `row`
  | sramStage (img y x : Nat)  -- a double-bit error in a staging region: the word of grid element (y, x) of an image (R211)
  | sramAcc (row : Nat)  -- a double-bit error in the accumulator memory: row `row` of the band's slot groups, 256 a group (R114)
  | prologue           -- the duplicated prologue pair diverged
  | epilogue           -- the duplicated epilogue pair diverged
  | vector             -- a shadow lane of the vector or scan unit diverged
  | sequencer          -- the duplicated sequencer control diverged
  | distance (col : Nat) (delta : Int)  -- column `col` of a distance pass came out wrong by `delta` in every row (R81)
  | duplicate (col : Nat) (delta : Int) -- the same on the second core of a distance-duplicate pair (R82)
  | sigStep (gen : Nat) (delta : Nat) -- an address generator issued an offset wrong by `delta` (R97)
  deriving DecidableEq, Repr

/-- A posted write the host port could not transmit (R572). -/
inductive PostedWrite where
  | completion (f q : Nat)
  | eventRecord (f : Nat)
  | dmaWriteback (c : Nat)
  | signalStore (r : CmdRef)
  deriving DecidableEq, Repr

/-- What a crock request belonged to (R311). -/
inductive CrockUser where
  | command (r : CmdRef)
  | run (run : Nat)
  | channel (c : Nat)
  | migration (part page : Nat)
  | fabric (src msg : Nat)
  deriving DecidableEq, Repr

/-- What a patrol read of one sector found (R281, R284). -/
inductive SectorRead where
  | clean
  | oneByte
  | uncorrectable
  deriving DecidableEq, Repr

/-- The temperature sensors of R460, by the die they sit on. -/
inductive Sensor where
  | skillet (s : Nat)
  | stack (s : Nat)
  | trivet (s : Nat)
  | iod (i : Nat)
  | jd (j : Nat)
  | control
  deriving DecidableEq, Repr

/-- The units that a fence names (R472). -/
inductive FenceUnit where
  | core (c : Nat)
  | skillet (s : Nat)
  | stackCtl (s : Nat)
  | engine (s : Nat)
  | jd (j : Nat)
  | iod (i : Nat)
  | crockPort (i : Nat)
  | fabPort (p : Nat)
  deriving DecidableEq, Repr

/-- The mechanisms that firmware tests (R480). -/
inductive Mechanism where
  | stackDecoder (s : Nat)
  | crossbarLink (die : Nat)
  | junctionCompare (j : Nat)
  | lockstep
  | monitors (die : Nat)
  | engineResidue (s : Nat)
  deriving DecidableEq, Repr

/-- The content of a pod management message (R433 to R437). The manual gives no wire layout for it. -/
inductive MgmtMsg where
  | enrol (job : Nat) (spec : Bytes)
  | admitted (job vf : Nat)
  | admitRefused (job status : Nat)
  | reclaim (job : Nat)
  | reclaimed (job : Nat)
  deriving DecidableEq, Repr

/-- What a heartbeat reports (R433), and the virtual functions with their JOBs (R437). -/
structure Beat where
  freeCores : List Nat
  freeRows : List Nat
  freeRecords : Nat
  freeQuota : Nat
  freeCrock : Nat
  inService : Nat
  jobs : List (Nat × Nat)
  deriving DecidableEq, Repr

/-- Work that firmware submits to a first-and-last-layer engine (R217): the program image, the tile program, the instance
record, the test data that it places at stack offsets first, and the pieces of work in which the residue check mismatches
(R220). -/
structure EngineJob where
  image : Bytes
  layer : Nat := 0
  index : Nat := 0
  inst : Bytes := []
  data : List (Nat × Bytes) := []
  mismatch : List Nat := []
  deriving DecidableEq, Repr

/-- A core's self-test (R478, R479): the core, and the work of its references. -/
structure CoreTest where
  core : Nat
  work : List EngineJob := []
  deriving DecidableEq, Repr

/-- What the crock ports found (R295, R296): the capacity behind each expander in GiB, and the width and speed of each link. -/
structure CrockFound where
  caps : List Nat
  links : List (Nat × Nat)
  deriving DecidableEq, Repr

/-- The copy of a stack's repair is done (R291), and the pieces of which a sector could not be read. -/
structure RepairCopy where
  stack : Nat
  lost : List Nat := []
  deriving DecidableEq, Repr

/-- How a bring-up went (R507, R510): what the sequence finds out about the part. -/
structure BringUp where
  mrec : Bool := false                        -- MREC# is low at device step 1 (R533)
  identityOk : Bool := true
  stopAt : Option (Nat × Nat × Nat) := none   -- step, die code, unit index: bring-up stops there
  badMicrocode : List Nat := []               -- skillets whose microcode fails verification
  fenced : List FenceUnit := []               -- units whose rail, clock or temperature failed
  badChannels : List (Nat × Nat) := []        -- (stack, channel) that failed training twice
  badEngines : List Nat := []                 -- engines whose known answer differs
  badCores : List Nat := []                   -- cores that fail the self-test
  layers : List (Nat × EngineJob) := []       -- the first and last layers of the known-answer model, by engine (R217)
  deriving DecidableEq, Repr

/-- A bring-up in which no unit fails. -/
def BringUp.good : BringUp := {}

end Sys2Proof
end

