-- ==== Sys2Proof/Syntax.lean ====
section
/-!
DEFINITION. The commands of the block: one constructor per row of spec/opcode_table.json, each one whole, indivisible
step of the device (file 95). A command carries what its row needs from outside: a register value, the identity of a
ring command, what a read of host memory returned, what a sensor measured, what a link delivered.
-/

namespace Sys2Proof

/-- A step of the device: a row of the operation and event table. -/
inductive Instr where
  /-- QP_CREATE (R356). -/
  | qpCreate (r : CmdRef)
  /-- QP_DELETE (R356). -/
  | qpDelete (r : CmdRef)
  /-- QP_FLUSH (R356). -/
  | qpFlush (r : CmdRef)
  /-- PART_CREATE (R330, R357: `spec` is what the read of SPEC returned). -/
  | partCreate (r : CmdRef) (spec : HostRead)
  /-- PART_SUSPEND (R332). -/
  | partSuspend (r : CmdRef)
  /-- PART_RESUME (R333: `saved` is what the read of SUSPEND_REC returned). -/
  | partResume (r : CmdRef) (saved : HostRead)
  /-- PART_RECLAIM (R334, stage Quiesce). -/
  | partReclaim (r : CmdRef)
  /-- SCRUB (R334: partition `p`). -/
  | scrub (p : Nat)
  /-- RE_CARVE (R334: partition `p`). -/
  | reCarve (p : Nat)
  /-- HAND_OVER (R334, R514: partition `p`). -/
  | handOver (p : Nat)
  /-- FW_WRITE (R500: the image as read; whether flash programmed and verified). -/
  | fwWrite (r : CmdRef) (img : HostRead) (flashOk : Bool)
  /-- FW_ACTIVATE (R500). -/
  | fwActivate (r : CmdRef)
  /-- MICROCODE_LOAD (R502: the image as read; the cores that fail their self-test). -/
  | microcodeLoad (r : CmdRef) (img : HostRead) (failed : List Nat)
  /-- ATTEST_REPORT (R497). -/
  | attestReport (r : CmdRef) (nonce : HostRead)
  /-- CERT_READ (R498). -/
  | certRead (r : CmdRef)
  /-- PROGRAM_LOAD (R358, R112). -/
  | programLoad (r : CmdRef) (e : Env)
  /-- PROGRAM_UNLOAD (R358). -/
  | programUnload (r : CmdRef)
  /-- PACK (R255 to R261). -/
  | pack (r : CmdRef) (e : Env)
  /-- GRAPH_RUN (R360). -/
  | graphRun (r : CmdRef)
  /-- ROLLOUT_STEP (R361, R362). -/
  | rolloutStep (r : CmdRef)
  /-- CTX_CREATE (R326, R364). -/
  | ctxCreate (r : CmdRef)
  /-- CTX_RETIRE (R327, R364). -/
  | ctxRetire (r : CmdRef)
  /-- COPY (R365). -/
  | copy (r : CmdRef) (e : Env)
  /-- FILL (R367). -/
  | fill (r : CmdRef)
  /-- FENCE (R351). -/
  | fence (r : CmdRef)
  /-- SIGNAL (R353). -/
  | signal (r : CmdRef)
  /-- WAIT (R352). -/
  | wait (r : CmdRef) (e : Env)
  /-- TIER_HINT (R370). -/
  | tierHint (r : CmdRef)
  /-- QUERY (R371). -/
  | query (r : CmdRef)
  /-- QUERY_TIME (R372: PTM host time in ns or 0, and the always-on cycles that a sample request and its reply travel). -/
  | queryTime (r : CmdRef) (ptm : Nat) (out back : Nat)
  /-- SQ_TAIL (R342: function, pair, value; whether the write is an aligned 32-bit one). -/
  | sqTail (f q v : Nat) (word32 : Bool)
  /-- CQ_HEAD (R342). -/
  | cqHead (f q v : Nat) (word32 : Bool)
  /-- DMA_CH_TAIL (R379: function, channel, value). -/
  | dmaChTail (f c v : Nat) (word32 : Bool)
  /-- DMA_CH_CTL_STOP (R389). -/
  | dmaChCtlStop (f c : Nat) (stop : Bool)
  /-- DMA_CH_CTL_RESET (R380). -/
  | dmaChCtlReset (f c : Nat)
  /-- DMA_CH_RING_SIZE (R556). -/
  | dmaChRingSize (f c log2 : Nat)
  /-- DMA_CH_OWNER (R378). -/
  | dmaChOwner (c fn : Nat)
  /-- EVT_RING_HEAD (R554). -/
  | evtRingHead (f v : Nat) (word32 : Bool)
  /-- EVT_RING_SIZE_EN (R554). -/
  | evtRingSizeEn (f log2 : Nat) (en : Bool)
  /-- EVT_INT_CLAIM (R394: function, vector). -/
  | evtIntClaim (f v : Nat)
  /-- EVT_INT_COMPLETE (R395: function, vector, source). -/
  | evtIntComplete (f v src : Nat)
  /-- EVT_INT_ENABLE (R393: word `w` of the enables). -/
  | evtIntEnable (f w mask : Nat)
  /-- EVT_INT_SENSE (R393). -/
  | evtIntSense (f src mode : Nat)
  /-- EVT_INT_VECTOR (R396). -/
  | evtIntVector (f src v : Nat)
  /-- EVT_INT_PRIO (R396). -/
  | evtIntPrio (f src prio : Nat)
  /-- EVT_INT_THRESHOLD (R396). -/
  | evtIntThreshold (f t : Nat)
  /-- CTL_FUNC_CTL_EN (R549). -/
  | ctlFuncCtlEn (f : Nat) (en : Bool)
  /-- CTL_DEV_RESET (R558, R511: the bring-up that follows goes as `b` says). -/
  | ctlDevReset (key : Nat) (go : Bool) (b : BringUp)
  /-- SCH_BUCKET_START (R551: the write of word 3). -/
  | schBucketStart (f v : Nat)
  /-- PWR_CAP (R453). -/
  | pwrCap (w : Nat)
  /-- PWR_MODE (R454). -/
  | pwrMode (m : Nat)
  /-- PWR_CUP_DATA (R560). -/
  | pwrCupData (v : Nat)
  /-- MEM_REPAIR_CTL_START (R517). -/
  | memRepairCtlStart (stack channel : Nat)
  /-- MEM_RETRAIN_CTL_REQUEST (R518). -/
  | memRetrainCtlRequest (stack pch : Nat)
  /-- MEM_CROCK_CTL_RETRAIN (R519). -/
  | memCrockCtlRetrain (mask : Nat)
  /-- FAB_PORT_CTL_RETRAIN (R519). -/
  | fabPortCtlRetrain (p : Nat)
  /-- FAB_POD_TAIL (R434). -/
  | fabPodTail (v : Nat) (word32 : Bool)
  /-- FAB_POD_CTL_RESET (R434). -/
  | fabPodCtlReset
  /-- FAB_WIN_CFG (R564: window, value written). -/
  | fabWinCfg (h v : Nat)
  /-- FAB_INJ_COUNT (R565). -/
  | fabInjCount (p v : Nat)
  /-- SCH_SKILLET_DRAIN (R515). -/
  | schSkilletDrain (mask : Nat)
  /-- REGISTER_WRITE (R542, R543: function, BAR0 offset, width in bytes, value). -/
  | registerWrite (f off width v : Nat)
  /-- DESCRIPTOR_FETCH (R344: what the read of the descriptor returned). -/
  | descriptorFetch (f q : Nat) (d : HostRead)
  /-- COMMAND_START (R112, R354). -/
  | commandStart (r : CmdRef)
  /-- TILE_PASS (R66 and the chapters on the core: core `c`). -/
  | tilePass (c : Nat) (flt : Option PassFault) (e : Env)
  /-- JUNCTION_SET (R109: the oldest SET of partition `p` whose writes are visible). -/
  | junctionSet (p : Nat)
  /-- COMMAND_END (R97). -/
  | commandEnd (run : Nat)
  /-- COMMAND_TIME_LIMIT (R110). -/
  | commandTimeLimit (run : Nat)
  /-- COMPLETION_RELEASE (R467, R345). -/
  | completionRelease (r : CmdRef)
  /-- MSIX_UNMASK (R397). -/
  | msixUnmask (f v : Nat)
  /-- SUBSCRIBE (R104). -/
  | subscribe (c : Nat)
  /-- MULTICAST_TILE_ARRIVE (R104, R105: the key, and the cores whose copy fails its link check). -/
  | multicastTileArrive (j part prog tile : Nat) (badLink : List Nat)
  /-- MULTICAST_ENTRY_FREE (R104). -/
  | multicastEntryFree (j part prog tile : Nat)
  /-- DMA_DESCRIPTOR (R382: the descriptor as read, and the host source data as read). -/
  | dmaDescriptor (c : Nat) (d data : HostRead)
  /-- DMA_WRITEBACK (R386). -/
  | dmaWriteback (c : Nat) (e : Env)
  /-- DMA_STOPPED (R389: destination bytes moved at the boundary). -/
  | dmaStopped (c bytes : Nat) (e : Env)
  /-- POSTED_WRITE_FAILED (R572). -/
  | postedWriteFailed (w : PostedWrite)
  /-- CONTEXT_JOIN (R325: record index). -/
  | contextJoin (idx : Nat)
  /-- BATCH_WINDOW (R130: partition, batch). -/
  | batchWindow (p b : Nat)
  /-- PASS_START (R173: partition, batch). -/
  | passStart (p b : Nat)
  /-- PASS_COMPLETE (R319). -/
  | passComplete (run : Nat)
  /-- DEFERRED_COMPLETION (R346). -/
  | deferredCompletion (f q : Nat)
  /-- RESIDENCY_DECISION (R322). -/
  | residencyDecision (p parity : Nat)
  /-- SWAP (R322). -/
  | swap (p parity : Nat)
  /-- AGING_PERIOD (R302). -/
  | agingPeriod (p : Nat)
  /-- TIER_PROMOTION (R302). -/
  | tierPromotion (p page : Nat)
  /-- TIER_DEMOTION (R302). -/
  | tierDemotion (p : Nat)
  /-- MIGRATION_CHUNK (R303). -/
  | migrationChunk (p page : Nat) (ok : Bool)
  /-- CROCK_REQUEST_LATE (R309). -/
  | crockRequestLate (u : CrockUser) (addr : Nat)
  /-- CROCK_ACCESS_FAILED (R310). -/
  | crockAccessFailed (u : CrockUser) (addr : Nat)
  /-- CROCK_LINK_DOWN (R313). -/
  | crockLinkDown (i : Nat)
  /-- CROCK_PORT_RETRAINED (R313). -/
  | crockPortRetrained (i : Nat) (ok : Bool) (width speed : Nat)
  /-- CROCK_PRESENT (R296: capacity in GiB of the expander on each port, 0 where the port did not train or its media is not ready; R295:
  the width and the speed code that each port trained to). -/
  | crockPresent (found : CrockFound)
  /-- PATROL (R284). -/
  | patrol (stack sector : Nat) (got : SectorRead)
  /-- RETRAIN_START (R286). -/
  | retrainStart (stack pch : Nat)
  /-- RETRAIN_END (R288). -/
  | retrainEnd (stack : Nat) (ok : Bool)
  /-- CHANNEL_RETIRE (R289). -/
  | channelRetire (stack channel : Nat)
  /-- REPAIR_COPY_DONE (R291: stack offsets of sectors that read uncorrectable during the copy). -/
  | repairCopyDone (copy : RepairCopy)
  /-- FLIT_RECEIVE (R416). -/
  | flitReceive (port : Nat) (flit : Bytes)
  /-- REPLAY_TIMER (R417). -/
  | replayTimer (port : Nat)
  /-- PORT_TRAINING_DONE (R418: the partner's initial credits per class). -/
  | portTrainingDone (port : Nat) (ok : Bool) (credits : List Nat)
  /-- WRITE (R423: source module, MSGID). -/
  | write (src msg : Nat)
  /-- READ_REQ (R427). -/
  | readReq (src msg : Nat)
  /-- READ_RESP (R427). -/
  | readResp (src msg : Nat)
  /-- FABRIC_SIGNAL (R423). -/
  | fabricSignal (src msg : Nat)
  /-- ACK (R423). -/
  | ack (src msg : Nat)
  /-- REFUSE (R425). -/
  | refuse (src msg : Nat)
  /-- E2E_TIMEOUT (R425). -/
  | e2eTimeout (dst msg : Nat)
  /-- READ_TAG_TIMEOUT (R427). -/
  | readTagTimeout (tag : Nat)
  /-- UNREACHABLE_PROBE (R425). -/
  | unreachableProbe (dst : Nat)
  /-- HEARTBEAT_SEND (R433). -/
  | heartbeatSend
  /-- HEARTBEAT (R433). -/
  | heartbeat (src msg : Nat) (b : Beat)
  /-- MGMT (R435, R436). -/
  | mgmt (src msg : Nat) (m : MgmtMsg)
  /-- HEARTBEAT_TIMEOUT (R433). -/
  | heartbeatTimeout (m : Nat)
  /-- MANAGER_HEARTBEAT_TIMEOUT (R437). -/
  | managerHeartbeatTimeout
  /-- STANDBY_TAKEOVER (R437). -/
  | standbyTakeover
  /-- ADMIT (R435: the ring entry, the specification and the preferred-module mask as read). -/
  | podAdmit (entry spec prefer : HostRead)
  /-- RECLAIM (R436: the ring entry as read). -/
  | reclaim (entry : HostRead)
  /-- POD_RECLAIM_TIMEOUT (R436). -/
  | podReclaimTimeout (job m : Nat)
  /-- CUP_PERIOD_BOUNDARY (R444: die code). -/
  | cupPeriodBoundary (die : Nat)
  /-- POWER_LOOP (R453: demand of each class at full rate, in 0.01 W). -/
  | powerLoop (arrays periph pots mem io : Nat)
  /-- CALIBRATION (R457: fitted gains in 1/1,000 and device offset in 0.1 W). -/
  | calibration (gains : List Nat) (offset : Int)
  /-- DISAGREE_TIMEOUT (R458: 0.1 W). -/
  | disagreeTimeout (est meas : Nat)
  /-- AGREE_TIMEOUT (R458). -/
  | agreeTimeout (est meas : Nat)
  /-- INPUT_SAMPLE (R525: 10 mV, 10 mA). -/
  | inputSample (v i : Nat)
  /-- INPUT_SENSE_TIMEOUT (R459: the estimate, 0.1 W). -/
  | inputSenseTimeout (est : Nat)
  /-- TRIVET_TELEMETRY_TIMEOUT (R459). -/
  | trivetTelemetryTimeout (k : Nat)
  /-- INPUT_OUT_OF_RANGE (R534: 10 mV). -/
  | inputOutOfRange (v : Nat)
  /-- THERMAL_SAMPLE (R460: 0.1 degC). -/
  | thermalSample (temps : List (Sensor × Int))
  /-- COOLANT_SAMPLE (R540: 0.1 degC). -/
  | coolantSample (inlet outlet : Int)
  /-- COOLANT_RISE (R540). -/
  | coolantRise
  /-- CORE_IDLE_COOL (R462). -/
  | coreIdleCool (c : Nat)
  /-- CORE_IDLE_COLD (R462). -/
  | coreIdleCold (c : Nat)
  /-- CORE_WAKE (R463). -/
  | coreWake (c : Nat)
  /-- CLOCK_MONITOR_FAULT (R468, R483). -/
  | clockMonitorFault (die domain mhz : Nat)
  /-- RAIL_MONITOR_FAULT (R468, R483). -/
  | railMonitorFault (die rail mv : Nat)
  /-- LOCKSTEP_MISMATCH (R474). -/
  | lockstepMismatch
  /-- JUNCTION_COMPARE_MISMATCH (R28). -/
  | junctionCompareMismatch (j : Nat)
  /-- UNIT_RETURN (R473). -/
  | unitReturn (u : FenceUnit)
  /-- SELFTEST_IDLE (R478). -/
  | selftestIdle (test : CoreTest)
  /-- SELFTEST_RESERVE (R478). -/
  | selftestReserve (test : CoreTest)
  /-- SELFTEST_END (R479: core, outcome, step that failed). -/
  | selftestEnd (c : Nat) (ok : Bool) (step : Nat)
  /-- SELFTEST_DEADLINE (R481). -/
  | selftestDeadline (c : Nat)
  /-- MECHANISM_TEST (R480). -/
  | mechanismTest (m : Mechanism) (ok : Bool)
  /-- SUSPECT_ENTRY_EXPIRY (R404: junction die, suspect unit identity). -/
  | suspectEntryExpiry (j suspect : Nat)
  /-- HS_EN_MATE (R523). -/
  | hsEnMate
  /-- HS_EN_BREAK (R523). -/
  | hsEnBreak
  /-- INPUT_RISE (R522). -/
  | inputRise
  /-- INPUT_FALL (R522: 10 mV). -/
  | inputFall (v : Nat)
  /-- OVERVOLTAGE (R522: 10 mV). -/
  | overvoltage (v : Nat)
  /-- OVERVOLTAGE_RESTART (R522). -/
  | overvoltageRestart
  /-- BREAKER_OPEN (R524). -/
  | breakerOpen
  /-- BREAKER_CLOSE (R524). -/
  | breakerClose
  /-- POWER_ON_RESET (R507). -/
  | powerOnReset (b : BringUp)
  /-- MRST_LOW (R532). -/
  | mrstLow
  /-- MRST_RISE (R532). -/
  | mrstRise (b : BringUp)
  /-- CONVENTIONAL_RESET (R512). -/
  | conventionalReset
  /-- FUNCTION_LEVEL_RESET (R377). -/
  | functionLevelReset (f : Nat)
  /-- HOST_LINK_RETRAIN (R519: speed code and lanes of R558). -/
  | hostLinkRetrain (speed width : Nat)
  /-- TRIAL_COMMIT (R500). -/
  | trialCommit
  /-- I3C_DYNAMIC_ADDRESS (R535). -/
  | i3cDynamicAddress (a : Nat)
  /-- GET_STATUS (R536). -/
  | getStatus
  /-- CLEAR_ALERT (R534). -/
  | clearAlert (mask : Nat)
  /-- SET_CAP (R536). -/
  | setCap (w : Nat)
  /-- GET_CAP (R536). -/
  | getCap
  /-- IMAGE_WRITE (R536). -/
  | imageWrite (off : Nat) (data : Bytes)
  /-- IMAGE_COMMIT (R536; `b` is the bring-up of the reset that ends a recovery image, R537). -/
  | imageCommit (target len : Nat) (flashOk : Bool) (b : BringUp)
  /-- RECOVERY_WRITE (R537). -/
  | recoveryWrite (off : Nat) (data : Bytes)
  /-- RECOVERY_RUN (R537). -/
  | recoveryRun (len : Nat)
  /-- GET_VERSION (R495: transport (0 PCIe, 1 I3C), request bytes). -/
  | getVersion (t : Nat) (req : Bytes)
  /-- GET_CAPABILITIES (R495). -/
  | getCapabilities (t : Nat) (req : Bytes)
  /-- NEGOTIATE_ALGORITHMS (R495). -/
  | negotiateAlgorithms (t : Nat) (req : Bytes)
  /-- GET_DIGESTS (R495). -/
  | getDigests (t : Nat)
  /-- GET_CERTIFICATE (R495). -/
  | getCertificate (t slot off len : Nat)
  /-- CHALLENGE (R495). -/
  | challenge (t : Nat) (nonce : Bytes)
  /-- GET_MEASUREMENTS (R496). -/
  | getMeasurements (t idx : Nat)
  /-- VENDOR_DEFINED_REQUEST (R497). -/
  | vendorDefinedRequest (t : Nat) (nonce : Bytes)
  /-- PERST_DEASSERTION (R512: speed code and lanes of R558). -/
  | perstDeassertion (speed width : Nat)
  /-- SRIOV_REENABLE (R512). -/
  | sriovReenable
  /-- PACKAGE_RAIL_OUT_OF_WINDOW (R531). -/
  | packageRailOutOfWindow
  deriving DecidableEq, Repr

end Sys2Proof
end

