-- ==== Sys2Proof/Decode.lean ====
section
/-!
DEFINITION. Words to commands. The table of operations and events gives no row any bits: its steps are descriptors in
host memory, register writes, messages and physical happenings, and no word spells one.
-/

namespace Sys2Proof

/-- The command that a word of `nbits` bits spells: none, since no row of the table has bits. -/
def decodeTableWord (_nbits _w : Nat) : Option Instr := none

end Sys2Proof
end

