-- ==== Sys2Proof/Machine/Bits.lean ====
section
/-!
DEFINITION. Bytes, fields and keyed maps: the little-endian reading and writing of fields (R11, R12), bit fields of a
word, two's complement, and the operations on a `KMap`.
-/

namespace Sys2Proof.Machine

/-- The number that little-endian bytes spell (R12). -/
def leNat : Bytes → Nat
  | [] => 0
  | b :: bs => b.toNat + 256 * leNat bs

/-- The `n` little-endian bytes of `v`, reduced modulo 2^(8n) (R12). -/
def leBytes : Nat → Nat → Bytes
  | 0, _ => []
  | n + 1, v => BitVec.ofNat 8 v :: leBytes n (v / 256)

/-- Bits [hi:lo] of `v` (R11). -/
def bits (v hi lo : Nat) : Nat := v / 2 ^ lo % 2 ^ (hi + 1 - lo)

/-- Bit `n` of `v` (R11). -/
def bit (v n : Nat) : Bool := v / 2 ^ n % 2 == 1

/-- 1 for true, 0 for false. -/
def b2n (b : Bool) : Nat := if b then 1 else 0

/-- Byte `i` of a run, 0 beyond its end. -/
def byteAt (bs : Bytes) (i : Nat) : Nat := (bs.getD i 0).toNat

/-- The little-endian field of `n` bytes at offset `off`. -/
def field (bs : Bytes) (off n : Nat) : Nat := leNat ((bs.drop off).take n)

/-- `n` bytes from offset `off`. -/
def slice (bs : Bytes) (off n : Nat) : Bytes := (bs.drop off).take n

/-- Every byte of the range is 0: the test for a reserved field (R14). -/
def zeroAt (bs : Bytes) (off n : Nat) : Bool := (slice bs off n).all (· == 0)

/-- The two's-complement value of the low `w` bits of `v`. -/
def signed (w v : Nat) : Int :=
  let m := v % 2 ^ w
  if m < 2 ^ (w - 1) then (m : Int) else (m : Int) - (2 ^ w : Nat)

/-- The `w`-bit two's-complement pattern of an integer. -/
def unsigned (w : Nat) (v : Int) : Nat := (v % (2 ^ w : Nat)).toNat

/-- `n` copies of a byte. -/
def repByte (n : Nat) (b : Byte) : Bytes := List.replicate n b

/-- The positions of the bits set in `v`, below `n`, rising. -/
def setBits (n v : Nat) : List Nat := (List.range n).filter (bit v ·)

/-- The word whose set bits are the listed positions. -/
def ofBits (l : List Nat) (n : Nat) : Nat := (List.range n).foldl (fun a i => if l.contains i then a + 2 ^ i else a) 0

/-- a / b rounded up. -/
def ceilDiv (a b : Nat) : Nat := (a + b - 1) / b

/-- The first `n` bytes of `bs`, padded with zeros. -/
def padTo (n : Nat) (bs : Bytes) : Bytes := bs.take n ++ List.replicate (n - bs.length) 0

/-- `v` as a power of two exponent: the greatest k with 2^k at most `v`, for `v` at most 2^fuel. -/
def log2Of (v : Nat) : Nat := Nat.log2 v

/-- Serial-number comparison (R406): `a` lies ahead of `b` modulo 2^n. -/
def ahead (n a b : Nat) : Bool :=
  let d := (a + 2 ^ n - b % 2 ^ n) % 2 ^ n
  decide (1 ≤ d) && decide (d ≤ 2 ^ (n - 1) - 1)

/-- The entry of key `k`. -/
def kfind {α : Type} : KMap α → Nat → Option α
  | [], _ => none
  | (j, x) :: m, k => if j = k then some x else kfind m k

/-- The entry of key `k`, or `d` where there is none. -/
def kget {α : Type} (m : KMap α) (k : Nat) (d : α) : α := (kfind m k).getD d

/-- The map with `x` at key `k`. -/
def kset {α : Type} : KMap α → Nat → α → KMap α
  | [], k, x => [(k, x)]
  | (j, y) :: m, k, x =>
    if k < j then (k, x) :: (j, y) :: m
    else if k = j then (k, x) :: m
    else (j, y) :: kset m k x

/-- The map without key `k`. -/
def kdel {α : Type} (m : KMap α) (k : Nat) : KMap α := m.filter (fun e => e.1 != k)

/-- The map with the entry of `k`, or `d`, changed by `f`. -/
def kmod {α : Type} (m : KMap α) (k : Nat) (d : α) (f : α → α) : KMap α := kset m k (f (kget m k d))

/-- The keys of a map, rising. -/
def kkeys {α : Type} (m : KMap α) : List Nat := m.map (·.1)

/-- Insert into a strictly rising list of numbers. -/
def insertSorted (n : Nat) : List Nat → List Nat
  | [] => [n]
  | x :: xs => if n < x then n :: x :: xs else if n = x then x :: xs else x :: insertSorted n xs

/-- Run `f` over a list, threading a value. -/
def sweep {α β : Type} (f : β → α → β) (b : β) (l : List α) : β := l.foldl f b

/-- The least number below `n` that `p` accepts. -/
def leastBelow (n : Nat) (p : Nat → Bool) : Option Nat := (List.range n).find? p

/-- `a - b` as counted in numbers, clamped to a 16-bit sticking count (R406, error class). -/
def stick16 (n : Nat) : Nat := min n 0xFFFF

/-- A 64-bit sticking count (R406, statistics class). -/
def stick64 (n : Nat) : Nat := min n (2 ^ 64 - 1)

end Sys2Proof.Machine
end

