-- ==== Sys2Proof/Machine/Operands.lean ====
section
/-!
DEFINITION. The operands of a program: the program image (R85 to R87), its tile programs with their loops, generators,
predicates, stages, scoreboard operations and descriptors (R89 to R107, R137, R157, R179, R198, R223), layout
descriptors (R205, R215, R231), instance records (R359) and pointer lists (R121), read from their bytes; and the map
from a linear offset to an address (R207, R215, R232).
-/

namespace Sys2Proof.Machine

/-- A loop descriptor (R90). Roles: 0 plain, 1 band, 2 N tile, 3 K tile, 4 pointer-list entry. -/
structure LoopD where
  count : Nat
  bound : Nat
  extent : Nat
  role : Nat
  len : Bool
  deriving DecidableEq, Repr

/-- An address generator (R93). -/
structure GenD where
  base : Nat
  strides : List Int
  space : Nat
  grole : Nat
  fmt : Nat
  wr : Bool
  sel : Nat
  layout : Nat
  rows : Nat
  cols : Nat
  deriving DecidableEq, Repr

/-- A predicate (R98). -/
structure PredD where
  kind : Nat
  ploop : Nat
  pgen : Nat
  deriving DecidableEq, Repr

/-- A prologue or epilogue stage (R137). -/
structure StageD where
  kind : Nat
  ifmt : Nat
  src : Nat
  sgen : Nat
  func : Nat
  sflags : Nat
  p0 : Nat
  p1 : Nat
  deriving DecidableEq, Repr

/-- A scoreboard operation (R107): OP 1 WAIT, 2 SET; SCOPE 0 core, 1 junction. -/
structure SbD where
  op : Nat
  scope : Nat
  sloop : Nat
  whn : Nat
  entry : Nat
  value : Nat
  deriving DecidableEq, Repr

/-- What a tile program is (R156, R178, R198). -/
inductive ProgKind where
  | dot | scan | attention | vector
  deriving DecidableEq, Repr

/-- A tile program (R89), with the bytes of its descriptor where it has one, and where it ends. -/
structure TileProg where
  off : Nat
  arrayOp : Nat
  width : Nat
  product : Nat
  lenLoop : Option Nat
  bandRows : Nat
  qband : Nat
  pot : Nat
  loops : List LoopD
  gens : List GenD
  preds : List PredD
  pro : List StageD
  epi : List StageD
  sbs : List SbD
  check : List (List Int)
  desc : Bytes
  fin : Nat
  deriving DecidableEq, Repr

def parseLoop (b : Bytes) (o : Nat) : LoopD :=
  { count := field b o 4, bound := field b (o + 4) 4, extent := field b (o + 8) 2, role := byteAt b (o + 10),
    len := bit (byteAt b (o + 11)) 0 }

def parseGen (b : Bytes) (o : Nat) : GenD :=
  { base := field b o 8, strides := (List.range 6).map (fun i => signed 32 (field b (o + 8 + 4 * i) 4)),
    space := byteAt b (o + 0x20), grole := byteAt b (o + 0x21), fmt := byteAt b (o + 0x22),
    wr := bit (byteAt b (o + 0x23)) 0, sel := byteAt b (o + 0x24), layout := field b (o + 0x28) 4,
    rows := field b (o + 0x2C) 2, cols := field b (o + 0x2E) 2 }

def parsePred (b : Bytes) (o : Nat) : PredD :=
  { kind := byteAt b o, ploop := byteAt b (o + 1), pgen := byteAt b (o + 2) }

def parseStage (b : Bytes) (o : Nat) : StageD :=
  { kind := byteAt b o, ifmt := byteAt b (o + 1), src := byteAt b (o + 2), sgen := byteAt b (o + 3),
    func := byteAt b (o + 4), sflags := byteAt b (o + 5), p0 := field b (o + 8) 4, p1 := field b (o + 12) 4 }

def parseSb (b : Bytes) (o : Nat) : SbD :=
  { op := byteAt b o, scope := byteAt b (o + 1), sloop := byteAt b (o + 2), whn := byteAt b (o + 3),
    entry := field b (o + 4) 2, value := field b (o + 6) 2 }

/-- The sections of a tile program, from the end of its header: where each begins, and where the check section does. -/
structure Sections where
  gen : Nat
  pred : Nat
  pro : Nat
  epi : Nat
  sb : Nat
  check : Nat

def sectionsOf (b : Bytes) (o : Nat) : Sections :=
  let g := o + 64 + 16 * byteAt b (o + 3)
  let p := g + 64 * byteAt b (o + 4)
  let r := p + 16 * byteAt b (o + 5)
  let e := r + 16 * byteAt b (o + 6)
  let s := e + 16 * byteAt b (o + 7)
  { gen := g, pred := p, pro := r, epi := e, sb := s, check := s + 8 * byteAt b (o + 8) }

/-- The kind that the generators' roles give. -/
def kindOf (gens : List GenD) : ProgKind :=
  if gens.any (fun g => g.grole == 5) then .attention
  else if gens.any (fun g => g.grole == 4) then .scan
  else if gens.any (fun g => g.grole == 1) then .dot
  else .vector

/-- `n` records of `w` bytes from `o`. -/
def recordsAt {α : Type} (f : Nat → α) (o w n : Nat) : List α := (List.range n).map (fun i => f (o + w * i))

/-- The tile program at an offset of the image (R89). -/
def parseTile (b : Bytes) (o : Nat) : TileProg :=
  let s := sectionsOf b o
  let ng := byteAt b (o + 4)
  let gens := recordsAt (parseGen b) s.gen 64 ng
  let dOff := s.check + 24 * ng
  { off := o, arrayOp := byteAt b o % 8, width := byteAt b (o + 1) % 16, product := byteAt b (o + 2)
    lenLoop := if bit (byteAt b (o + 9)) 7 then some (byteAt b (o + 9) % 8) else none
    bandRows := field b (o + 10) 2, qband := byteAt b (o + 12), pot := field b (o + 0x10) 4
    loops := recordsAt (parseLoop b) (o + 64) 16 (byteAt b (o + 3)), gens := gens
    preds := recordsAt (parsePred b) s.pred 16 (byteAt b (o + 5))
    pro := recordsAt (parseStage b) s.pro 16 (byteAt b (o + 6))
    epi := recordsAt (parseStage b) s.epi 16 (byteAt b (o + 7))
    sbs := recordsAt (parseSb b) s.sb 8 (byteAt b (o + 8))
    check := recordsAt (fun a => (List.range 6).map (fun i => signed 32 (field b (a + 4 * i) 4))) s.check 24 ng
    desc := if kindOf gens = .dot then [] else padTo 64 (slice b dOff 64)
    fin := dOff + (if kindOf gens = .dot then 0 else 64) }

def TileProg.kind (t : TileProg) : ProgKind := kindOf t.gens

/-- The program image's header (R85). -/
structure ImageD where
  ftLevel : Nat
  tolerant : Bool
  dup : Bool
  layers : Nat
  size : Nat
  table : Nat
  rollout : Nat
  deriving DecidableEq, Repr

def parseImage (b : Bytes) : ImageD :=
  { ftLevel := field b 6 2, tolerant := bit (field b 8 4) 0, dup := bit (field b 8 4) 1, layers := field b 0xC 2,
    size := field b 0x10 8, table := field b 0x18 8, rollout := field b 0x20 8 }

/-- A layer-table entry (R86). -/
structure LayerD where
  layer : Nat
  mode : Nat
  g : Nat
  t : Nat
  limit : Nat
  escalate : Bool
  sround : Bool
  wide : Bool
  progs : Nat
  slot : Nat
  prog : Nat
  fallback : Nat
  deriving DecidableEq, Repr

def parseLayer (b : Bytes) (i : Nat) : LayerD :=
  let o := (parseImage b).table + 32 * i
  { layer := field b o 2, mode := byteAt b (o + 2) % 4, g := byteAt b (o + 2) / 4 % 4, t := byteAt b (o + 3),
    limit := field b (o + 4) 2 % 2048, escalate := bit (field b (o + 4) 2) 15, sround := bit (field b (o + 6) 2) 0,
    wide := bit (field b (o + 6) 2) 1, progs := field b (o + 8) 4, slot := field b (o + 0xC) 4,
    prog := field b (o + 0x10) 8, fallback := field b (o + 0x18) 2 }

/-- The rollout table (R87). -/
structure RolloutD where
  feedback : Nat
  input : Bool
  inputLayer : Nat
  rows : Nat
  ioSlots : Nat
  ioStep : Nat
  stateBytes : Nat
  deriving DecidableEq, Repr

def parseRollout (b : Bytes) : RolloutD :=
  let o := (parseImage b).rollout
  { feedback := byteAt b (o + 4), input := bit (byteAt b (o + 5)) 0, inputLayer := field b (o + 6) 2,
    rows := field b (o + 8) 2, ioSlots := field b (o + 0xA) 2, ioStep := field b (o + 0xC) 4,
    stateBytes := field b (o + 0x10) 8 }

/-- Tile programs one after another (R86). -/
def tilesFrom (b : Bytes) : Nat → Nat → List TileProg
  | 0, _ => []
  | n + 1, o => let t := parseTile b o; t :: tilesFrom b n t.fin

/-- The tile programs of a layer; the count is bounded by what an image of these bytes can hold. -/
def layerProgs (b : Bytes) (i : Nat) : List TileProg :=
  let l := parseLayer b i
  tilesFrom b (min l.progs (b.length / 64 + 1)) l.prog

/-- Tile program `k` of layer `i`. -/
def tileAt (b : Bytes) (i k : Nat) : TileProg := (layerProgs b i).getD k (parseTile b 0)

/-- A layer that some layer names as its fallback runs by escalation alone (R50). -/
def isFallback (b : Bytes) (i : Nat) : Bool :=
  (List.range (parseImage b).layers).any (fun k => (parseLayer b k).fallback == i)

/-! Element formats (R93). -/

/-- Bytes of an element; A4 counts a byte for two, and packed weights have none. -/
def fmtBytes (f : Nat) : Nat :=
  match f with
  | 0 => 4 | 1 => 2 | 2 => 2 | 3 => 1 | 4 => 1 | 5 => 1 | 6 => 1 | 7 => 1 | 8 => 4 | 9 => 2 | _ => 1

/-- A format that holds floating values. -/
def fmtFloat (f : Nat) : Bool := decide (f ≤ 4)

/-- An A-format (R41). -/
def fmtA (f : Nat) : Bool := f == 5 || f == 6 || f == 7

/-! Layout descriptors. -/

/-- A window layout (R205). -/
structure WindowD where
  padMode : Nat
  kh : Nat
  kw : Nat
  sh : Nat
  sw : Nat
  dh : Nat
  dw : Nat
  pt : Nat
  pb : Nat
  pl : Nat
  pr : Nat
  rg : Nat
  gp : Nat
  stage : Nat
  h : Nat
  w : Nat
  cg : Nat
  ng : Nat
  groups : Nat
  nimg : Nat
  pix : Nat
  row : Nat
  img : Nat
  padVal : Nat
  deriving DecidableEq, Repr

/-- A regroup layout (R215). -/
structure RegroupD where
  rg : Nat
  hg : Nat
  wg : Nat
  craw : Nat
  pix : Nat
  row : Nat
  img : Nat
  deriving DecidableEq, Repr

/-- A strided layout (R231). -/
structure StridedD where
  ndim : Nat
  src : Nat
  dst : Nat
  wid : Nat
  dims : List Nat
  strides : List Int
  deriving DecidableEq, Repr

/-- A layout descriptor (R229). -/
inductive LayoutD where
  | dense
  | strided (x : StridedD)
  | window (x : WindowD)
  | regroup (x : RegroupD)
  | other
  deriving DecidableEq, Repr

def parseWindow (b : Bytes) (o : Nat) : WindowD :=
  { padMode := byteAt b (o + 1), kh := byteAt b (o + 2), kw := byteAt b (o + 3), sh := byteAt b (o + 4),
    sw := byteAt b (o + 5), dh := byteAt b (o + 6), dw := byteAt b (o + 7), pt := byteAt b (o + 8),
    pb := byteAt b (o + 9), pl := byteAt b (o + 10), pr := byteAt b (o + 11), rg := byteAt b (o + 12),
    gp := byteAt b (o + 13), stage := field b (o + 14) 2, h := field b (o + 0x10) 2, w := field b (o + 0x12) 2,
    cg := field b (o + 0x14) 2, ng := field b (o + 0x16) 2, groups := field b (o + 0x18) 4,
    nimg := field b (o + 0x1C) 4, pix := field b (o + 0x20) 4, row := field b (o + 0x24) 4,
    img := field b (o + 0x28) 8, padVal := field b (o + 0x30) 4 }

def parseRegroup (b : Bytes) (o : Nat) : RegroupD :=
  { rg := byteAt b (o + 1), hg := field b (o + 4) 2, wg := field b (o + 6) 2, craw := field b (o + 8) 2,
    pix := field b (o + 0x10) 4, row := field b (o + 0x14) 4, img := field b (o + 0x18) 8 }

def parseStrided (b : Bytes) (o : Nat) : StridedD :=
  { ndim := byteAt b (o + 1), src := byteAt b (o + 2), dst := byteAt b (o + 3), wid := byteAt b (o + 4),
    dims := (List.range 5).map (fun i => field b (o + 8 + 4 * i) 4),
    strides := (List.range 4).map (fun i => signed 64 (field b (o + 0x20 + 8 * i) 8)) }

/-- The layout that a LAYOUT field names; 0 selects dense row-major (R229). -/
def layoutAt (b : Bytes) (o : Nat) : LayoutD :=
  if o = 0 then .dense
  else match byteAt b o with
    | 1 => .strided (parseStrided b o)
    | 2 => .window (parseWindow b o)
    | 3 => .regroup (parseRegroup b o)
    | _ => .other

/-- The mixed-radix digits of R232: all but the last dimension wrap, and the last one is 32 bits (R21). -/
def stridedDigits : List Nat → Nat → List Nat
  | [], _ => []
  | [_], e => [e % 2 ^ 32]
  | n :: ds, e => e % n :: stridedDigits ds (e / n)

/-- The swizzle of R232, on the 64-bit pattern. -/
def StridedD.swizzle (x : StridedD) (off : Int) : Nat :=
  let v := unsigned 64 off
  if x.wid = 0 then v else v ^^^ (v / 2 ^ x.src % 2 ^ x.wid * 2 ^ x.dst)

/-- The byte offset of a linear offset under a strided layout (R232), modulo 2^64. -/
def StridedD.map (x : StridedD) (es o : Nat) : Nat :=
  let i := stridedDigits (x.dims.take x.ndim) (o / es)
  x.swizzle (((i.headD 0) * es : Nat) + (((i.drop 1).zip x.strides).map (fun z => (z.1 : Int) * z.2)).foldl (· + ·) 0)

/-- The grid of a window layout (R207, R208). -/
def WindowD.hg (x : WindowD) : Nat := x.h / 2 ^ x.rg
def WindowD.wg (x : WindowD) : Nat := x.w / 2 ^ x.rg
def WindowD.oh (x : WindowD) : Nat :=
  let e : Int := ((x.hg + x.pt + x.pb : Nat) : Int) - (x.dh * (x.kh - 1) + 1 : Nat)
  if e < 0 then 0 else e.toNat / x.sh + 1
def WindowD.ow (x : WindowD) : Nat :=
  let e : Int := ((x.wg + x.pl + x.pr : Nat) : Int) - (x.dw * (x.kw - 1) + 1 : Nat)
  if e < 0 then 0 else e.toNat / x.sw + 1

/-- Groups of one iteration of the group loop (R206): a program whose groups fit one tile has no group loop. -/
def WindowD.gpv (x : WindowD) (it : Nat) : Nat := if x.groups ≤ x.gp then x.groups else min x.gp (x.groups - it * x.gp)

/-- The reduction length of a group iteration (R206). -/
def WindowD.kBound (x : WindowD) (it : Nat) : Nat := x.gpv it * x.kh * x.kw * x.cg

/-- A coordinate after the padding mode: `none` for a constant padding tap (R209). -/
def padCoord (mode n : Nat) (i : Int) : Option Nat :=
  if 0 ≤ i ∧ i < n then some i.toNat
  else
    match mode with
    | 1 => some (if i < 0 then (-i).toNat else (2 * ((n : Int) - 1) - i).toNat)
    | 2 => some (if i < 0 then 0 else n - 1)
    | _ => none

/-- The grid row and column of a tap of unrolled element (m, k), and its channel within the cell (R207). -/
def WindowD.tap (x : WindowD) (m k : Nat) : Nat × Option Nat × Option Nat × Nat × Nat :=
  let n := m / (x.oh * x.ow)
  let oy := m / x.ow % x.oh
  let ox := m % x.ow
  let c := k % x.cg
  let tp := k / x.cg
  let kx := tp % x.kw
  let ky := tp / x.kw % x.kh
  let gl := tp / (x.kw * x.kh)
  (n, padCoord x.padMode x.hg (((oy * x.sh + ky * x.dh : Nat) : Int) - x.pt),
      padCoord x.padMode x.wg (((ox * x.sw + kx * x.dw : Nat) : Int) - x.pl), gl, c)

/-- The byte offset of an unrolled element from base and extra, or `none` for a constant padding tap (R207, R209). -/
def WindowD.elem (x : WindowD) (es m k : Nat) : Option Nat :=
  match x.tap m k with
  | (n, some iy, some ix, gl, c) =>
    if x.rg = 0 then some (n * x.img + iy * x.row + ix * x.pix + (gl * x.cg + c) * es)
    else
      let craw := x.cg / 2 ^ (2 * x.rg)
      let r := 2 ^ x.rg
      some (n * x.img + (iy * r + c / (r * craw)) * x.row + (ix * r + c / craw % r) * x.pix + c % craw * es)
  | _ => none

/-- The byte offset of an element of a regrouped virtual matrix (R215). -/
def RegroupD.elem (x : RegroupD) (es m j : Nat) : Nat :=
  let r := 2 ^ x.rg
  let n := m / (x.hg * x.wg)
  let y := m / x.wg % x.hg
  let w := m % x.wg
  n * x.img + (y * r + j / (r * x.craw)) * x.row + (w * r + j / x.craw % r) * x.pix + j % x.craw * es

/-! Instance records and pointer lists. -/

/-- An instance record (R359). -/
def instBase (b : Bytes) (sel : Nat) : Nat := field b (8 * sel) 8
def instLen (b : Bytes) : Nat := field b 0x40 8
def instEpoch (b : Bytes) : Nat := field b 0x48 4

/-- A pointer-list entry (R121). -/
structure EntryD where
  a : Nat
  b : Nat
  c : Nat
  m : Nat
  n : Nat
  k : Nat
  deriving DecidableEq, Repr

def parseEntry (l : Bytes) (i : Nat) : EntryD :=
  { a := field l (32 * i) 8, b := field l (32 * i + 8) 8, c := field l (32 * i + 16) 8, m := field l (32 * i + 24) 2,
    n := field l (32 * i + 26) 2, k := field l (32 * i + 28) 4 }

/-! Loops by role. -/

/-- The index of the loop of a role. -/
def TileProg.loopIdx (t : TileProg) (role : Nat) : Nat := (t.loops.findIdx? (fun l => l.role == role)).getD 0

/-- The loop of a role. -/
def TileProg.loop (t : TileProg) (role : Nat) : LoopD :=
  t.loops.getD (t.loopIdx role) { count := 1, bound := 1, extent := 1, role := role, len := false }

/-- Indices of the loops outside the band loop (R91). -/
def TileProg.outer (t : TileProg) : List Nat := List.range (t.loopIdx 1)

/-- A generator's stride on the loop of a role. -/
def TileProg.strideOn (t : TileProg) (g : GenD) (role : Nat) : Int := g.strides.getD (t.loopIdx role) 0

/-- The row pitch of a generator's tile access (R94). -/
def TileProg.pitch (t : TileProg) (g : GenD) : Int :=
  let s := t.strideOn g 1
  if s ≠ 0 then s / (t.bandRows : Int) else t.strideOn g 3 / 256

/-- What a band row adds to a linear offset (R94). A stride of 0 on the band loop and one row to an access: every band row
reads that row. -/
def TileProg.rowOff (t : TileProg) (g : GenD) (row : Nat) : Int :=
  if t.strideOn g 1 ≠ 0 ∨ fmtA g.fmt then (row : Int) * t.pitch g
  else if g.rows ≤ 1 then 0
  else ((row % t.bandRows : Nat) : Int) * t.pitch g

/-- What a column adds, `axis` the role of the loop along the columns (R94). One column to an access and a stride of 0 along
the axis: every column reads that element. -/
def TileProg.colOff (t : TileProg) (g : GenD) (axis tile col : Nat) : Int :=
  let s := t.strideOn g axis
  (tile : Int) * s + (if s = 0 ∧ g.cols = 1 then 0 else ((col * fmtBytes g.fmt : Nat) : Int))

/-- The window layout of a program, if it has one (R205). -/
def TileProg.window (t : TileProg) (img : Bytes) : Option WindowD :=
  (t.gens.filterMap (fun g => match layoutAt img g.layout with
    | .window x => some x
    | _ => none)).head?

/-- The group iteration of a window program's loop indices: its one plain loop, where it has one (R206). -/
def TileProg.groupIdx (t : TileProg) (idx : List Nat) : Nat :=
  match t.loops.findIdx? (fun l => l.role == 0) with
  | some i => idx.getD i 0
  | none => 0

/-- Generators of a role, with their indices. -/
def TileProg.byRole (t : TileProg) (role : Nat) : List (Nat × GenD) :=
  (t.gens.zipIdx.map (fun x => (x.2, x.1))).filter (fun x => x.2.grole == role)

/-- Planes of a product (R263). -/
def planesOf (product : Nat) : Nat := if product ≤ 1 then 1 else if product = 6 then 3 else 2

/-- The stored width of a program's packed weights: one more than WIDTH for the three-pass form, whose planes PACK widens
(R73, R256; DEDUCED, log 22). -/
def TileProg.storedWidth (t : TileProg) : Nat := if t.product = 6 then t.width + 1 else t.width

/-- A multi-word product (R70). -/
def TileProg.multiWord (t : TileProg) : Bool := decide (1 ≤ t.product) && decide (t.product ≤ 4)

/-- A complex product (R72, R73). -/
def TileProg.complex (t : TileProg) : Bool := t.product == 5 || t.product == 6

/-- The piece length (R68). -/
def TileProg.pieceLen (t : TileProg) : Nat := if t.arrayOp = 4 then 16384 else 65536

/-- Rows of a slot group (R114). -/
def TileProg.groupRows (t : TileProg) : Nat := if t.complex then 128 else 256

/-- Stockpot bytes of the spill records of the largest band (R117, R120). -/
def TileProg.spillBytes (t : TileProg) : Nat :=
  let s := ceilDiv t.bandRows t.groupRows
  if t.kind = .dot ∧ 4 < s then (s - 2) * 393280 else 0

/-- Row-closing stage kinds (R136). -/
def rowClosing (k : Nat) : Bool := k == 8 || k == 9 || k == 10

/-- Passes of a product in order (R71 to R73): activation word (0 first, 1 second, 2 the sum of both parts), weight
plane, shift, and the accumulator sets with their signs. -/
structure PassD where
  act : Nat
  plane : Nat
  shift : Nat
  sets : List (Nat × Int)
  deriving DecidableEq, Repr

def passesOf (product : Nat) : List PassD :=
  let p (a w s : Nat) : PassD := { act := a, plane := w, shift := s, sets := [(0, 1)] }
  match product with
  | 1 => [p 0 0 8, p 1 0 0]
  | 2 => [p 0 0 8, p 0 1 0]
  | 3 => [p 0 0 16, p 0 1 8, p 1 0 8, p 1 1 0]
  | 4 => [p 0 0 16, p 0 1 8, p 1 0 8]
  | 5 => [{ act := 0, plane := 0, shift := 0, sets := [(0, 1)] }, { act := 1, plane := 1, shift := 0, sets := [(0, -1)] },
          { act := 0, plane := 1, shift := 0, sets := [(1, 1)] }, { act := 1, plane := 0, shift := 0, sets := [(1, 1)] }]
  | 6 => [{ act := 2, plane := 0, shift := 0, sets := [(0, 1), (1, 1)] },
          { act := 0, plane := 1, shift := 0, sets := [(1, 1)] }, { act := 1, plane := 2, shift := 0, sets := [(0, -1)] }]
  | _ => [p 0 0 0]

/-- Descriptors of the other kinds, by field. -/
def TileProg.d8 (t : TileProg) (o : Nat) : Nat := byteAt t.desc o
def TileProg.d16 (t : TileProg) (o : Nat) : Nat := field t.desc o 2
def TileProg.d32 (t : TileProg) (o : Nat) : Nat := field t.desc o 4

/-- A generator by index; an absent one reaches nothing. -/
def TileProg.gen (t : TileProg) (i : Nat) : Option GenD := t.gens[i]?

end Sys2Proof.Machine
end

