-- ==== Sys2Proof/Machine/KvRing.lean ====
section
/-!
DEFINITION. Key/value rings (R180 to R183) and the sparse pattern of an attention program (R179, R186 to R188), as
functions of the ring header, the descriptor and the step.
-/

namespace Sys2Proof.Machine

/-- A ring header (R180). -/
structure RingD where
  log2 : Nat
  fmt : Nat
  heads : Nat
  anchors : Nat
  hd : Nat
  g : Nat
  policy : Nat
  gh : Nat
  gw : Nat
  period : Nat
  slot : Nat
  deriving DecidableEq, Repr

def parseRing (b : Bytes) : RingD :=
  { log2 := byteAt b 4, fmt := byteAt b 5, heads := byteAt b 6, anchors := byteAt b 7, hd := field b 8 2,
    g := byteAt b 10, policy := byteAt b 11, gh := field b 12 2, gw := field b 14 2, period := field b 16 2,
    slot := field b 0x18 8 }

def RingD.tokens (r : RingD) : Nat := r.gh * r.gw + r.g
def RingD.es (r : RingD) : Nat := fmtBytes r.fmt

/-- Bytes of a plane of a frame slot (R181). -/
def RingD.kp (r : RingD) : Nat := 256 * ceilDiv (r.heads * r.tokens * r.hd * r.es) 256

/-- The header's own rules (R180, R181). -/
def ringOk (b : Bytes) : Bool :=
  let r := parseRing b
  field b 0 4 == 0x474E4952 && decide (4 ≤ r.log2) && decide (r.log2 ≤ 8) && (r.fmt == 1 || r.fmt == 3 || r.fmt == 4)
    && decide (1 ≤ r.heads) && decide (r.heads ≤ 64) && decide (r.anchors ≤ 8) && decide (32 ≤ r.hd)
    && decide (r.hd ≤ 256) && r.hd % 32 == 0 && decide (r.g ≤ 64) && decide (r.policy ≤ 1) && decide (1 ≤ r.gh)
    && decide (1 ≤ r.gw) && decide (1 ≤ r.period) && zeroAt b 0x12 6 && zeroAt b 0x20 32 && decide (r.tokens ≤ 4096)
    && r.slot == 2 * r.kp

/-- The recent slot and the anchor slot of a frame, as offsets from the ring pointer (R181, R182). -/
def RingD.recentAt (r : RingD) (f : Nat) : Nat := 256 + f % 2 ^ r.log2 * r.slot
def RingD.anchorAt (r : RingD) (f : Nat) : Nat :=
  let j := if r.policy = 0 then f / r.period % r.anchors else f
  256 + (2 ^ r.log2 + j) * r.slot

/-- The recent frames present at step `t` (R182). -/
def RingD.recent (r : RingD) (t : Nat) : List Nat :=
  let lo := t + 1 - 2 ^ r.log2
  (List.range (t + 1 - lo)).map (lo + ·)

/-- The anchor frames present at step `t`, rising (R182). -/
def RingD.anchorFrames (r : RingD) (t : Nat) : List Nat :=
  if r.policy = 0 then
    let last := t / r.period
    let lo := last + 1 - r.anchors
    (List.range (last + 1 - lo)).map (fun i => (lo + i) * r.period)
  else List.range (min (t + 1) r.anchors)

/-- Frame `t` is an anchor at step `t` (R183). -/
def RingD.isAnchor (r : RingD) (t : Nat) : Bool := (r.anchorFrames t).contains t

/-! The pattern (R179). -/

/-- The attention descriptor. -/
structure AttnD where
  winH : Nat
  winW : Nat
  qbH : Nat
  qbW : Nat
  tWin : Nat
  globals : Bool
  anchors : Bool
  globalQ : Bool
  heads : Nat
  qGen : Nat
  hd : Nat
  ringGen : Nat
  outGen : Nat
  spillGen : Nat
  scale : Nat
  maxKeys : Nat
  deriving DecidableEq, Repr

def parseAttn (b : Bytes) : AttnD :=
  { winH := byteAt b 0, winW := byteAt b 1, qbH := byteAt b 2, qbW := byteAt b 3, tWin := byteAt b 4,
    globals := bit (byteAt b 5) 0, anchors := bit (byteAt b 5) 1, globalQ := bit (byteAt b 5) 2, heads := byteAt b 6,
    qGen := byteAt b 7, hd := field b 8 2, ringGen := byteAt b 10, outGen := byteAt b 11, spillGen := byteAt b 12,
    scale := field b 0x10 4, maxKeys := field b 0x14 4 }

/-- The recent frames of the temporal window (R187 item 2). -/
def AttnD.window (a : AttnD) (r : RingD) (t : Nat) : List Nat :=
  (r.recent t).filter (fun f => a.tWin == 0 || decide (t < f + a.tWin))

/-- The attended frames in list order, with whether each is taken from its anchor slot (R187). -/
def AttnD.frames (a : AttnD) (r : RingD) (t : Nat) : List (Nat × Bool) :=
  let w := a.window r t
  (if a.anchors then ((r.anchorFrames t).filter (fun f => !w.contains f)).map (fun f => (f, true)) else [])
    ++ w.map (fun f => (f, false))

/-- The history length h (R196, R197). -/
def AttnD.history (a : AttnD) (r : RingD) (t : Nat) : Nat := (a.frames r t).length

/-- A query block: its first row and column, and its height and width; the global block has `none` (R186). -/
def AttnD.blocks (a : AttnD) (r : RingD) : List (Option (Nat × Nat × Nat × Nat)) :=
  if a.globalQ then [none]
  else (List.range (ceilDiv r.gh a.qbH)).flatMap (fun i => (List.range (ceilDiv r.gw a.qbW)).map (fun j =>
    some (i * a.qbH, j * a.qbW, min a.qbH (r.gh - i * a.qbH), min a.qbW (r.gw - j * a.qbW))))

/-- The tokens of a query block in row order (R186). -/
def blockTokens (r : RingD) : Option (Nat × Nat × Nat × Nat) → List Nat
  | none => (List.range r.g).map (r.gh * r.gw + ·)
  | some (y, x, h, w) => (List.range h).flatMap (fun i => (List.range w).map (fun j => (y + i) * r.gw + x + j))

/-- The rows or columns of the window of a query coordinate, clipped (R187): first and past-the-last. -/
def winSpan (win n c : Nat) : Nat × Nat :=
  if win = 0 then (0, n) else (c - (win - 1) / 2, min n (c + win / 2 + 1))

/-- The union rectangle of a block (R187): rows and columns. -/
def AttnD.union (a : AttnD) (r : RingD) (y x h w : Nat) : (Nat × Nat) × (Nat × Nat) :=
  (((winSpan a.winH r.gh y).1, (winSpan a.winH r.gh (y + h - 1)).2),
   ((winSpan a.winW r.gw x).1, (winSpan a.winW r.gw (x + w - 1)).2))

/-- One key: frame, whether read from the anchor slot, token. -/
abbrev Key := Nat × Bool × Nat

/-- The spatial tokens that a block lists of a frame. -/
def AttnD.spatial (a : AttnD) (r : RingD) (t : Nat) (blk : Option (Nat × Nat × Nat × Nat)) (f : Nat) : List Nat :=
  match blk with
  | none => if f = t then List.range (r.gh * r.gw) else []
  | some (y, x, h, w) =>
    let u := a.union r y x h w
    (List.range (u.1.2 - u.1.1)).flatMap (fun i => (List.range (u.2.2 - u.2.1)).map (fun j =>
      (u.1.1 + i) * r.gw + u.2.1 + j))

/-- The key list of a unit (R187). -/
def AttnD.keys (a : AttnD) (r : RingD) (t : Nat) (blk : Option (Nat × Nat × Nat × Nat)) : List Key :=
  (a.frames r t).flatMap (fun f =>
    ((a.spatial r t blk f.1) ++ (if a.globals || blk.isNone then (List.range r.g).map (r.gh * r.gw + ·) else [])).map
      (fun n => (f.1, f.2, n)))

/-- Key `k` is present for the query of token `q` (R188). -/
def AttnD.present (a : AttnD) (r : RingD) (q : Nat) (k : Key) : Bool :=
  let s := r.gh * r.gw
  if s ≤ k.2.2 ∨ s ≤ q then true
  else
    let y := winSpan a.winH r.gh (q / r.gw)
    let x := winSpan a.winW r.gw (q % r.gw)
    let ky := k.2.2 / r.gw
    let kx := k.2.2 % r.gw
    decide (y.1 ≤ ky) && decide (ky < y.2) && decide (x.1 ≤ kx) && decide (kx < x.2)

/-- What a context's ring header must satisfy for an attention program at step `t` (R185). -/
def AttnD.ringFits (a : AttnD) (b : Bytes) (fmt t : Nat) : Bool :=
  let r := parseRing b
  ringOk b && r.heads == a.heads && r.hd == a.hd && r.fmt == fmt && decide (a.tWin ≤ 2 ^ r.log2)
    && (a.blocks r).all (fun blk => decide ((a.keys r t blk).length ≤ a.maxKeys))

/-- Bytes of a score block (R193). -/
def scoreBytes (bandRows maxKeys : Nat) : Nat := bandRows * (256 * ceilDiv maxKeys 256) * 4

/-- The byte of an element within a plane (R181). -/
def RingD.elem (r : RingD) (h n c : Nat) : Nat := ((h * r.tokens + n) * r.hd + c) * r.es

/-- Where a key's frame slot begins, from the ring pointer. -/
def RingD.slotOf (r : RingD) (k : Key) : Nat := if k.2.1 then r.anchorAt k.1 else r.recentAt k.1

end Sys2Proof.Machine
end

