-- ==== Sys2Proof/Config.lean ====
section
/-!
DEFINITION. What the manual leaves open or leaves to another standard: every constant here has NO BODY, so no proof can
see a value of it, and a statement holds for every one.
-/

namespace Sys2Proof.Config

/-- A byte the manual leaves undefined (R5, R110, R142, R366, R386, R388): DESIGN CHOICE, log 7. Its argument is the
counter `State.free`, which a step that takes a free value advances. -/
opaque freeByte : Nat → BitVec 8

/-- The function table of level `level` at function code `code` (R143, R144) where the function does not fall: places of the
FP32 order, never falling. -/
opaque funcOrder : (level code : Nat) → (Nat →o Nat)

/-- The same where the function falls, for an FP32 input. -/
opaque funcTable : (level code : Nat) → BitVec 32 → BitVec 32

/-- ln of the function table, FP32 (R201). -/
opaque lnTable : (level : Nat) → BitVec 32 → BitVec 32

/-- cos of the function table, FP32 (R201). -/
opaque cosTable : (level : Nat) → BitVec 32 → BitVec 32

/-- SHA-512 (R486, R487), a published standard. -/
opaque sha512 : Bytes → Bytes

/-- RFC 8032 Ed25519 verification: public key, message, signature (R486). -/
opaque edVerify : Bytes → Bytes → Bytes → Bool

/-- FIPS 204 ML-DSA-65 verification: public key, message, signature (R486). -/
opaque mldsaVerify : Bytes → Bytes → Bytes → Bool

/-- The SHA-512 digest of root key pair `i` in the boot ROM (R488). -/
opaque romKeyDigest : Nat → Bytes

/-- Signing key pair `i` that a manifest body lists: Ed25519 key, ML-DSA-65 key and TYPE mask (R488 gives no byte
layout of the list). -/
opaque manifestKey : Bytes → Nat → Option (Bytes × Bytes × Nat)

/-- The measurement of the boot ROM, fixed at manufacture (R496). -/
opaque romMeasurement : Bytes

/-- Signature of a digest under an alias key: the salt of R493, algorithm 0 Ed25519 or 1 ML-DSA-65, the digest. -/
opaque aliasSign : Bytes → Nat → Bytes → Bytes

/-- The certificate chain of one algorithm, as CERT_READ returns it; its alias level follows from the measurements of
R493 (R494, R498). -/
opaque certChain : (chain : Nat) → Bytes → Bytes

/-- The SPDM 1.3 answer to a request whose content the standard gives: transport state, request code, request bytes
(R495). -/
opaque spdmAnswer : Nat → Nat → Bytes → Bytes

/-- One step of the 31-bit LFSR of the fault injector, whose polynomial R439 does not give. -/
opaque lfsrNext : BitVec 31 → BitVec 31

/-- Whether a draw of the LFSR selects a flit at rate 2^-k (R439). -/
opaque lfsrSelects : BitVec 31 → Nat → Bool

/-- The flit with `flips` bits flipped at LFSR-chosen positions (R439). -/
opaque lfsrFlip : BitVec 31 → Nat → Bytes → Bytes

/-- The bytes of a pod management message, whose wire layout R433 to R436 do not give. -/
opaque mgmtWire : MgmtMsg → Bytes

/-- The bytes of a heartbeat (R433). -/
opaque beatWire : Beat → Bytes

/-- The firmware version of a slot's firmware set (R371 item 0). -/
opaque firmwareVersion : Bytes → Nat

end Sys2Proof.Config
end

