-- ==== Sys2Proof/Machine/Mem.lean ====
section
/-!
DEFINITION. Byte memory as plain data: a list of (address, byte) pairs in one canonical form, addresses strictly
rising and no entry equal to what an unlisted address reads as.
-/

namespace Sys2Proof.Machine

/-- A byte memory. -/
abbrev Mem := List Host.Cell

/-- What an unlisted address reads as: 0. DESIGN CHOICE, log 2: the manual gives the fill of bring-up, of a scrub and of
a fresh tier frame no value but R300's "returns zeros". -/
def memDefault : Byte := 0

/-- The byte at an address. -/
def mget : Mem → Nat → Byte
  | [], _ => memDefault
  | (k, b) :: m, a => if a = k then b else mget m a

/-- Store one byte, keeping the canonical form. -/
def mset : Mem → Nat → Byte → Mem
  | [], a, b => if b = memDefault then [] else [(a, b)]
  | (k, c) :: m, a, b =>
    if a < k then (if b = memDefault then (k, c) :: m else (a, b) :: (k, c) :: m)
    else if a = k then (if b = memDefault then m else (a, b) :: m)
    else (k, c) :: mset m a b

/-- `n` bytes from an address. -/
def mread (m : Mem) (a n : Nat) : Bytes := (List.range n).map (fun i => mget m (a + i))

/-- Store bytes from an address. -/
def mwrite : Mem → Nat → Bytes → Mem
  | m, _, [] => m
  | m, a, b :: bs => mwrite (mset m a b) (a + 1) bs

/-- Fill mode (R285) over [lo, hi): every byte becomes the fill, what an unlisted address reads as. -/
def mclear (m : Mem) (lo hi : Nat) : Mem := m.filter (fun e => decide (e.1 < lo) || decide (hi ≤ e.1))

/-- Every key of the list lies above `a`. -/
def mabove (a : Nat) : Mem → Bool
  | [] => true
  | (k, _) :: _ => decide (a < k)

/-- The canonical form: addresses strictly rising, no entry equal to the default. -/
def Memory.wf : Mem → Bool
  | [] => true
  | (k, b) :: m => (b != memDefault) && mabove k m && Memory.wf m

end Sys2Proof.Machine
end

