-- ==== Sys2Proof/Machine/Components.lean ====
section
/-!
DEFINITION. The pieces of the device's state, one structure per unit or table that the manual names. Every field with
`:= v` holds `v` at reset; a field marked (model) is the model's own and belongs to no manual table.
-/

namespace Sys2Proof.Machine

/-- How far a fetched command has come (R344, R332): fetched and not started; held by PART_SUSPEND; started; its result
known, not yet released (R467). -/
inductive CmdPhase where
  | waiting | held | running | ended
  deriving DecidableEq, Repr

/-- What went wrong with a command or a pass: cause codes of class C, and status codes of class E other than POISONED
(R375). -/
structure Marks where
  causes : List Nat := []
  fails : List Nat := []
  deriving DecidableEq, Repr

/-- The boxes of a halo COPY in flight (R246, R247): whether they lie in the stockpot, the runs (address, bytes) of each
entry's box, the entries that failed, and the runs that several boxes share. -/
structure Halo where
  pot : Bool
  boxes : List (List (Nat × Nat))
  lost : List Nat := []
  shared : List (Nat × Nat) := []
  deriving DecidableEq, Repr

/-- A fetched command of a queue pair (R344): its ordinal, its descriptor, and what its completion will carry. -/
structure Cmd where
  k : Nat
  desc : Bytes
  phase : CmdPhase := .waiting
  status : Nat := 0
  detail : Nat := 0
  result0 : Nat := 0
  result1 : Nat := 0
  marks : Marks := {}
  await : List (Nat × Nat) := []   -- messages (destination, MSGID) sent and not yet acknowledged (R423)
  tags : List Nat := []            -- outstanding read tags (R427)
  retiring : List Nat := []        -- contexts that a CTX_RETIRE still waits for (R327)
  halo : Option Halo := none
  dies : List (Nat × Nat) := []    -- dies on which it ran, with each die's count at its last write (R467)
  deriving DecidableEq, Repr

/-- A queue pair (R339 to R346). -/
structure Qp where
  num : Nat                        -- device-wide number (R339)
  given : Bool := false            -- the number is given up: the pair's partition is reclaimed (R339)
  sqBase : Nat
  cqBase : Nat
  sqSize : Nat
  cqSize : Nat
  sqHead : Nat := 0
  sqTail : Nat := 0
  cqHead : Nat := 0
  cqTail : Nat := 0
  phase : Bool := true
  err : Bool := false
  fetchStopped : Bool := false     -- deletion, function reset or EN cleared: nothing more is fetched
  discard : Bool := false          -- completions are discarded (R343, R356, R377, R549)
  nextK : Nat := 0
  cmds : List Cmd := []            -- fetched, not completed, in fetch order
  done : List (Nat × Nat) := []    -- (ordinal, status) of completed commands that a later SIGNAL may judge (R353)
  sigFrom : Nat := 0               -- the ordinal after the last completed SIGNAL
  deferred : List Nat := []        -- record indices with a deferred context completion (R346)
  deriving DecidableEq, Repr

/-- One source of an interrupt controller (R393). -/
structure IntSrc where
  en : Bool := false
  sense : Nat := 0
  prio : Nat := 0
  prioNew : Nat := 0               -- written, takes effect at the next claim (R396)
  vec : Nat := 0
  pend : Bool := false
  insv : Bool := false
  line : Bool := false
  deriving DecidableEq, Repr

/-- One MSI-X vector of a function (R394, R397). -/
structure IntVec where
  sent : Bool := false
  mask : Bool := true             -- PCI Express resets a vector masked (PRESUMED, log 12)
  pend : Bool := false
  deriving DecidableEq, Repr

/-- The interrupt controller of a function (R391 to R397). -/
structure IntCtl where
  thr : Nat := 0
  thrNew : Nat := 0
  srcs : KMap IntSrc := []
  vecs : KMap IntVec := []
  deriving DecidableEq, Repr

/-- The event ring of a function (R398, R552, R554). -/
structure EvtRing where
  base : Nat := 0
  log2 : Nat := 0
  en : Bool := false
  head : Nat := 0
  tail : Nat := 0
  phase : Bool := true
  headRej : Bool := false
  cfgRej : Bool := false
  lostFlag : Bool := false         -- records were lost before the next one (R401)
  deriving DecidableEq, Repr

/-- The scheduler settings of a function (R550, R551). -/
structure SchRegs where
  limitMs : Nat := 50
  windowUs : Nat := 20
  limitRej : Bool := false
  windowRej : Bool := false
  bucketRej : Bool := false
  buckets : List Nat := [1, 2, 4, 8, 16, 32, 64, 128]
  staged : List Nat := [0x20001, 0x80004, 0x200010]
  deriving DecidableEq, Repr

/-- The function view of one PCIe function (R547 to R553). -/
structure FnView where
  en : Bool := false
  ready : Bool := false
  cfgErr : Bool := false
  adminErr : Bool := false
  sqLog2 : Nat := 0
  cqLog2 : Nat := 0
  sqBase : Nat := 0
  cqBase : Nat := 0
  sch : SchRegs := {}
  evt : EvtRing := {}
  int : IntCtl := {}
  thr : KMap Nat := []             -- EVT_CNT_THRESHOLD, key 16 * kind + index
  lowHeld : KMap Nat := []         -- low halves written and held (R542), by offset
  highLatch : KMap Nat := []       -- high halves latched by a low-half read (R542), by offset
  deriving DecidableEq, Repr

/-- The state of a page of the tiered range (R300): `moving` holds the frames of the migration in flight, its direction
(true: promotion) and the chunks copied (R303). -/
inductive PageSt where
  | zero
  | stack (frame : Nat)
  | crock (frame : Nat)
  | moving (tierFrame crockFrame : Nat) (promote : Bool) (chunk : Nat)
  deriving DecidableEq, Repr

/-- The tier of a partition (R299 to R308). -/
structure Tier where
  f : Nat := 0                     -- tier frames F
  c : Nat := 0                     -- crock frames C, after losses (R308)
  base : Nat := 0                  -- base of the tiered range
  pages : Nat := 0                 -- V
  region : Nat := 0                -- region entry that holds the frames
  page : KMap PageSt := []         -- tier map; a page not listed is ZERO
  frames : List Nat := []          -- free tier frames
  cframes : List Nat := []         -- free crock frames (device-wide numbers)
  accessed : List Nat := []        -- accessed marks
  twice : List Nat := []           -- pages accessed twice in the aging period
  pinned : List Nat := []
  pointer : Nat := 0               -- rotating pointer of the demotion sweep
  queue : List Nat := []           -- pages whose promotion a prefetch queued (R306)
  demote : List Nat := []          -- pages whose demotion a TIER_HINT queued
  window : List Nat := []          -- protected window (R306)
  hints : List Nat := []           -- pages whose promotion a TIER_HINT asked for
  deriving DecidableEq, Repr

/-- A prefetch schedule (R305): depth and entries (layer-table index, pages, address). -/
structure Sched where
  depth : Nat
  entries : List (Nat × Nat × Nat)
  deriving DecidableEq, Repr

/-- A stage of a registered stage table (R361): each core of its group with the address of its instance record. -/
structure Stage where
  first : Nat
  last : Nat
  cores : List (Nat × Nat)
  deriving DecidableEq, Repr

/-- A loaded program (R358): where its image lies, and the image as validated. -/
structure Prog where
  addr : Nat
  size : Nat
  image : Bytes
  stages : List Stage := []
  sched : Option Sched := none
  deriving DecidableEq, Repr

/-- One step of a batch (R130): the contexts in join order and, once closed, in batch order. A batch that pipelines its own
steps (R173, R174) has an entry for each step that is not complete, all under the number of the first, `root`. -/
structure Batch where
  prog : Nat
  point : Nat
  bucket : Nat
  ctxs : List Nat := []            -- record indices
  closed : Bool := false
  running : Bool := false          -- a pass of it is in flight
  root : Nat := 0
  ord : Nat := 0                   -- steps after that of the first entry
  deriving DecidableEq, Repr

/-- A swap of context records (R322): the parity, the context that moves in, the victim that moves out. -/
structure Move where
  parity : Nat
  cand : Option Nat
  victim : Option Nat
  deriving DecidableEq, Repr

/-- A pending junction-scoreboard SET whose writes are visible (R109). -/
structure JSet where
  idx : Nat
  value : Nat
  deriving DecidableEq, Repr

/-- The stages of a reclaim (R334). -/
inductive Reclaim where
  | none | quiesce | scrubbed | carved
  deriving DecidableEq, Repr

/-- A partition: what PART_CREATE reserved (R330), and the rollout state that belongs to it. -/
structure Part where
  job : Nat := 0
  cores : List Nat := []
  recBase : Nat := 0
  recCount : Nat := 0
  recAddr : Nat := 0               -- partition address of the record region
  quota : Nat := 0                 -- Q
  qps : Nat := 0
  regions : List Nat := []         -- region entries of kind user
  pot : List (Nat × Nat × Nat) := []  -- stockpot shares: skillet, base MiB, MiB
  cups : KMap Nat := []            -- cup entries in force, by offset in CUPS (R443)
  cupsNew : List (Nat × Nat) := [] -- accepted, not yet in force: offset, entry (R450)
  suspended : Bool := false
  suspendRec : Nat := 0
  reclaim : Reclaim := .none
  reclaimBy : Option CmdRef := none
  recipient : Nat := 0
  tier : Tier := {}
  progs : KMap Prog := []
  nextHandle : Nat := 1
  jsb : KMap Nat := []             -- junction scoreboard (R109)
  jsets : List JSet := []
  parked : List (Nat × Nat) := []  -- parked RUNNABLE contexts in order: parity, record index (R322)
  starve : List Nat := []          -- parities whose PIN_STARVE condition has been reported
  batches : KMap Batch := []
  nextBatch : Nat := 0
  hist : KMap (List Nat) := []     -- last two batches that each stage started (R173), by program * 8 + stage
  moves : List Move := []          -- residency swaps on their way, oldest first (R322)
  deriving DecidableEq, Repr

/-- A context record (R314), and what the record's layout does not show: the flags of R361, what R172 holds back, and the time
of R322. -/
structure Ctx where
  gen : Nat := 0
  cstate : Nat := 0
  block : Nat := 0
  bucket : Nat := 0
  pinned : Bool := false
  retire : Bool := false
  resident : Bool := false
  prog : Nat := 0
  point : Nat := 0
  home : Nat := 0
  step : Nat := 0
  target : Nat := 0
  seed : Nat := 0
  statePtr : Nat := 0
  ringPtr : Nat := 0
  ioPtr : Nat := 0
  blockTime : Nat := 0
  lastStatus : Nat := 0
  qp : Nat := 0
  tag : Nat := 0
  inputSem : Nat := 0
  inputBase : Nat := 0
  report : Bool := false           -- report every step
  hold : Bool := false             -- HOST_HOLD at the next step boundary
  normHold : Bool := false         -- NORM_HOLD at the next step boundary (R172)
  readyAt : Nat := 0               -- always-on count of the owning junction die when it last became RUNNABLE (R322)
  deriving DecidableEq, Repr

/-- A region (R273, R274, R562). -/
structure Region where
  part : Nat
  base : Nat
  size : Nat
  mask : Nat
  rowBase : Nat
  sector : Bool                    -- MAP
  kind : Nat                       -- 0 user, 1 record region, 2 tier frames and map, 3 firmware
  deriving DecidableEq, Repr

/-- A poison-table entry (R282): address in the stack, and log2 of its size. -/
structure PoisonEnt where
  addr : Nat
  log2 : Nat
  deriving DecidableEq, Repr

/-- A stack and its controller (R271 to R292). The check bytes of R280 are a function of the data that no access shows: what
they find comes with the step that reads. Moved pieces stand under their stack offsets (R290). -/
structure Stack where
  poison : List PoisonEnt := []
  repairPoison : List Nat := []    -- repair poison map, 256 B pieces by stack offset (R291)
  hot : Bool := false              -- refresh doubled (R278)
  lost : Bool := false
  fenced : Bool := false
  repairing : Bool := false
  repaired : Option Nat := none    -- the channel
  retrain : Option Nat := none     -- pseudo-channel that retrains now
  retrainTries : Nat := 0
  queued : Option Nat := none      -- retraining queued by MEM_RETRAIN_CTL (R518)
  marked : List Nat := []          -- channels marked for repair (R288)
  badRows : List (Nat × Nat × Nat × Nat) := []  -- rows of uncorrectable reads (R289): pseudo-channel, bank, row, and when
  temp : Int := 0                  -- temperature of the last sample, 0.1 degC
  trained : KMap (Nat × Int) := [] -- training results (R271, R286): when each pseudo-channel was trained last, and at which
                                   -- temperature
  shaky : List (Nat × Nat) := []   -- corrected errors of the last 10 ms (R286): pseudo-channel, and when
  deriving DecidableEq, Repr

/-- Clock state of a core (R462). -/
inductive ClkState where
  | hot | warm | cool | cold
  deriving DecidableEq, Repr

/-- A core between commands, and its safety bookkeeping (R81, R472 to R481). -/
structure Core where
  clk : ClkState := .cold
  fenced : Bool := false
  retired : Bool := false
  reserved : Bool := false
  testing : Bool := false
  overdue : Bool := false
  lastFault : Option Nat := none   -- AO of the skillet
  lastTest : Nat := 0
  colIdx : Nat := 0                -- distance-check column (R81)
  deriving DecidableEq, Repr

/-- A skillet die: its fences, its engine and its microcode (R472, R489, R502). -/
structure Skillet where
  fenced : Bool := false
  ctlFenced : Bool := false
  engineFenced : Bool := false
  engineOk : Bool := true
  refs : List Nat := []            -- how the engine's last work ended, in order (R217, R218, R220)
  microcodeBad : Bool := false
  measure : Bytes := []            -- measurement 6 + s
  clk : Nat := 19                  -- array clock under thermal throttling, 100 MHz
  duty : Nat := 100
  deriving DecidableEq, Repr

/-- An entry of a suspect table (R403, R404). -/
structure Suspect where
  unit : Nat
  count : Nat
  reporters : List Nat
  deriving DecidableEq, Repr

/-- A subscription of the multicast engine (R104): key, subscribers, whether the tile is whole. -/
structure Mcast where
  part : Nat
  prog : Nat
  tile : Nat
  subs : List Nat
  bytes : Nat
  arrived : Bool := false
  served : List Nat := []
  deriving DecidableEq, Repr

/-- A junction die: suspect tables (its own half, and the fenced die's half), multicast engine (R403, R104). -/
structure Jd where
  fenced : Bool := false
  own : List Suspect := []
  other : List Suspect := []
  mcast : List Mcast := []
  deriving DecidableEq, Repr

/-- A DMA transfer in progress (R381): the descriptor, its ring index, the host source data as read, the destination
bytes moved so far, and how it ends: `status` where a check or an access ended it. -/
structure Xfer where
  desc : Bytes
  idx : Nat
  data : HostRead
  whisk : Bytes := []
  moved : Nat := 0
  status : Nat := 0
  bad : Bool := false
  done : Bool := false             -- nothing more is moved
  snap : List (Bytes × List (Nat × Nat)) := []  -- (model) where source and destination overlap in the partition: what each
                                   -- piece's source held at the start, with its poisoned ranges (R243)
  deriving DecidableEq, Repr

/-- A DMA channel (R378 to R389, R555). -/
structure Dma where
  owner : Nat := 0x1F
  base : Nat := 0
  log2 : Nat := 0
  head : Nat := 0
  tail : Nat := 0
  stop : Bool := false
  stopped : Bool := false
  held : Bool := false             -- stopped by PART_SUSPEND or a reclaim
  err : Bool := false
  source : Nat := 0
  posIdx : Nat := 0
  posOff : Nat := 0
  xfer : Option Xfer := none
  deriving DecidableEq, Repr

/-- Fault injection of a fabric port (R438, R439, R565). -/
structure Inj where
  mode : Nat := 0
  pattern : Nat := 0
  matchKind : Nat := 0
  matchVal : Nat := 0
  flips : Nat := 0
  k : Nat := 0
  n : Nat := 1
  seed : Nat := 1
  lfsr : Nat := 1
  limit : Nat := 0
  injected : Nat := 0
  burst : Nat := 0                 -- flits left of the burst
  swap : Option Bytes := none      -- flit held back by a reorder
  deriving DecidableEq, Repr

/-- A fabric port (R410, R416 to R419). -/
structure Port where
  st : Nat := 0                    -- 0 down, 1 training, 2 up
  fails : Nat := 0
  fenced : Bool := false
  expect : Nat := 0
  nakSent : Bool := false          -- one NAK per gap
  next : Nat := 0                  -- next LSEQ
  replay : List Bytes := []        -- unacknowledged flits, oldest first
  replays : Nat := 0               -- replays of the oldest flit
  credits : List Nat := []         -- per class, the sender's count
  lastCredit : List Nat := [0, 0, 0, 0]
  returned : List Nat := [0, 0, 0, 0]  -- cumulative credits returned per class
  waiting : List Bytes := []       -- transport parts that wait for credit or buffer space
  inj : Inj := {}
  deriving DecidableEq, Repr

/-- A message sent and not acknowledged (R422, R425). -/
structure Msg where
  dst : Nat
  id : Nat
  op : Nat
  window : Nat
  woff : Nat
  job : Nat
  data : Bytes
  poison : List Nat := []          -- flits marked poisoned
  expiries : Nat := 0
  cmd : Option CmdRef := none
  sent : Bool := true              -- false: held by R426
  deriving DecidableEq, Repr

/-- What a module keeps per destination (R422, R425). -/
structure Dest where
  nextId : Nat := 0
  unreachable : Bool := false
  deriving DecidableEq, Repr

/-- What a module keeps per source (R424): lowest uncommitted MSGID, the committed MSGIDs above it, the flits received
of messages not yet committed. -/
structure Src where
  low : Nat := 0
  done : List Nat := []
  flits : List Bytes := []         -- transport parts, in arrival order
  deriving DecidableEq, Repr

/-- An outstanding read tag (R427): the request's message, where the data goes, bytes outstanding. -/
structure ReadTag where
  tag : Nat
  dst : Nat
  msg : Nat
  part : Nat
  addr : Nat
  len : Nat
  landed : Nat := 0
  pot : Bool := false              -- the region lies in the partition's stockpot share
  entry : Nat := 0                 -- halo entry (R246)
  cmd : Option CmdRef := none
  deriving DecidableEq, Repr

/-- An export window (R421, R564). -/
structure Window where
  base : Nat := 0
  size : Nat := 0
  part : Nat := 0
  read : Bool := false
  write : Bool := false
  signal : Bool := false
  reject : Bool := false
  job : Nat := 0
  deriving DecidableEq, Repr

/-- A pod request in progress at the manager (R434 to R436). -/
structure PodReq where
  reclaim : Bool
  job : Nat
  want : Nat
  spec : Bytes
  result : Nat
  slot : Nat                       -- ring index of the entry
  todo : List Nat                  -- candidates not yet asked, or modules not yet confirmed
  asked : Option Nat := none
  got : List (Nat × Nat) := []     -- (module, virtual function)
  last : Nat := 0                  -- last refusal's status
  deriving DecidableEq, Repr

/-- The pod registers and management state (R432 to R437, R563). -/
structure Pod where
  acting : Bool := false
  base : Nat := 0
  log2 : Nat := 0
  head : Nat := 0
  tail : Nat := 0
  err : Bool := false
  beats : KMap Beat := []          -- last heartbeat of each live module
  lostMods : List Nat := []
  mgrLost : Bool := false
  curMgr : Option Nat := none      -- the acting manager heard last, where it is not the configured one
  jobs : KMap (List (Nat × Nat)) := []  -- job: (module, virtual function)
  req : Option PodReq := none
  owed : List (Nat × Nat) := []    -- (job, module) reclaimed while the module was lost (R436)
  locals : List (Nat × Nat) := []  -- reclaims of this module's own partitions for a job: (job, requester)
  deriving DecidableEq, Repr

/-- The fabric (R410 to R440). -/
structure Fab where
  ports : List Port := []
  e2eUs : Nat := 100
  dests : KMap Dest := []
  srcs : KMap Src := []
  msgs : List Msg := []
  tags : List ReadTag := []
  nextTag : Nat := 0
  wins : KMap Window := []
  rr : Nat := 0                    -- port that takes the next flit (R422)
  pod : Pod := {}
  deriving DecidableEq, Repr

/-- A crock port (R295, R313, R561). -/
structure CrockPort where
  st : Nat := 0                    -- 0 down, 1 training, 2 up
  width : Nat := 0
  speed : Nat := 0
  fenced : Bool := false
  deriving DecidableEq, Repr

/-- The crock (R296, R307). -/
structure Crock where
  ports : List CrockPort := []
  present : Bool := false
  capGib : Nat := 0
  free : List Nat := []            -- crock frames freed again
  fresh : Nat := 0                 -- frames from here on never reserved
  frames : Nat := 0                -- frames in all, less the spare
  spare : List Nat := []           -- the device spare
  bad : List Nat := []
  asked : Bool := false            -- the bring-up has looked for the expanders (R296)
  due : List (Nat × Nat) := []     -- (model) crock sectors whose next access fails, with its status (R309, R310; log 95)
  periodMs : Nat := 10
  timeoutUs : Nat := 32
  deriving DecidableEq, Repr

/-- The cup counters of one die (R442 to R451), key 16 * (offset / 2) + partition - 1. -/
structure CupCnt where
  units : KMap Nat := []           -- units left in the period
  drawn : KMap Nat := []            -- overdraft
  empty : KMap Nat := []           -- periods exhausted since the last record
  ranDry : List Nat := []          -- cups that ran empty in this period
  lastRec : KMap Nat := []         -- AO of the last CUP_EXHAUSTED
  period : Nat := 8                -- P in force on the die
  deriving DecidableEq, Repr

/-- The power and budget controller (R452 to R465, R559). -/
structure Pwr where
  cap : Nat := 1200
  capMgmt : Nat := 1200
  mode : Nat := 0
  cupPeriod : Nat := 8
  selPart : Nat := 0
  selOff : Nat := 0
  cupResult : Nat := 0
  idleCool : Nat := 10
  idleCold : Nat := 100
  clk : Nat := 19
  mem : Nat := 100
  link : Nat := 100
  duty : Nat := 100
  limitedAt : Option Nat := none   -- AO of the last POWER_LIMITED
  withhold : Bool := false         -- starts withheld (R455)
  disagree : Bool := false
  inputLost : Bool := false
  guard : Bool := false
  energyEst : Bool := false
  trivetLost : Nat := 0
  avg : Nat := 0
  energyPart : Nat := 0            -- (model) part of a mJ not yet counted, in 0.01 uJ
  deriving DecidableEq, Repr

/-- What the sensors gave last (R457, R460, R525, R540). -/
structure Sense where
  inputV : Nat := 0
  inputI : Nat := 0
  inlet : Int := 0
  outlet : Int := 0
  energy : Nat := 0                -- PWR_ENERGY_IN, mJ
  trivetP : List Nat := []
  gains : List Nat := []           -- 1/1,000
  offset : Int := 0
  warned : List Nat := []          -- sensor codes above their warning limit
  throttled : List Nat := []
  critical : List Nat := []        -- sensor codes at their critical limit
  hist : List Nat := []            -- input power of the last 100 samples, 0.1 mW
  deriving DecidableEq, Repr

/-- A firmware slot in flash (R498, R500), or a copy of the configuration record. `factory` marks the images that the part
was made with: the manual gives none of their bytes, and they verify (DESIGN CHOICE, log 25). -/
structure Slot where
  valid : Bool := false
  factory : Bool := false
  data : Bytes := []
  used : Bool := false             -- a configuration record that a boot has used (R492, R506)
  deriving DecidableEq, Repr

/-- Flash: what survives a reset (R491, R492, R500, R505, R511). -/
structure Flash where
  slotA : Slot := { valid := true, factory := true }
  slotB : Slot := {}
  active : Nat := 0                -- committed slot
  pending : Option Nat := none
  trialFail : Bool := false
  trialStarted : Bool := false     -- the pending slot has been booted once
  rec0 : Slot := { valid := true, factory := true, used := true }
  rec1 : Slot := {}
  fwCtr : Nat := 0
  recCtr : Nat := 0
  seq : Nat := 0                   -- health-log sequence
  retired : List Nat := []
  repaired : List (Nat × Nat) := []  -- (stack, channel)
  lost : List Nat := []
  bootCount : Nat := 0
  deriving DecidableEq, Repr

/-- What the boot took from the configuration record (R504, R432). -/
structure Conf where
  rflags : Nat := 0
  podId : Nat := 0
  module : Nat := 0
  role : Nat := 0
  manager : Nat := 0
  standby : Nat := 0xFF
  floors : List Nat := []
  deriving DecidableEq, Repr

/-- Boot, identity and update state (R489 to R503, R558, R566). -/
structure Trust where
  step : Nat := 0                  -- last device step completed
  failDie : Nat := 0xFF
  failUnit : Nat := 0xFFFF
  recovery : Bool := false
  stage : Nat := 0
  cause : Nat := 0
  reason : Nat := 0
  bootSlot : Nat := 0
  trial : Bool := false
  ftLevel : Nat := 0
  measures : KMap Bytes := []      -- indices 1 to 5
  imageRunning : Bool := false     -- a recovery image runs (R490)
  staged : Bytes := []             -- IMAGE_WRITE
  recStaged : Bytes := []          -- RECOVERY_WRITE
  spdm : List Nat := [0, 0]        -- SPDM state of the two transports (R495)
  deriving DecidableEq, Repr

/-- The module's pins, input and management header (R521 to R540). -/
structure Mod where
  converter : Bool := true
  hsEn : Bool := true
  overvolt : Bool := false         -- shut down by overvoltage
  breaker : Bool := false          -- open, latched
  breakerFree : Bool := false      -- what lets it close again has happened (R524)
  breakerSeen : Bool := false      -- to be reported at the next device step 3
  pwrgd : Bool := false
  mrstLow : Bool := false
  perst : Bool := true
  alert : Nat := 0                 -- alert-reason word
  dynAddr : Nat := 0
  linkSpeed : Nat := 0
  linkWidth : Nat := 0
  flit : Bool := false
  ptm : Bool := false
  sriov : Bool := false
  deriving DecidableEq, Repr

/-- Safe stop and the fences that no other table holds (R472, R474). -/
structure Safety where
  safeStop : Bool := false
  safeReason : Nat := 0
  iodFenced : List Nat := []
  railBad : List Nat := []         -- dies whose rail or clock has left its window: their clean marks stand still
  dramBad : List Nat := []         -- skillets fenced for their DRAM rail (R473)
  clean : KMap Nat := []           -- clean mark of each die (R467)
  deriving DecidableEq, Repr

/-- The device registers that no table above holds (R561, R566). -/
structure DevRegs where
  repairStack : Nat := 0
  repairCh : Nat := 0
  repairStatus : Nat := 0
  retrainStack : Nat := 0
  retrainPch : Nat := 0
  retrainIgnored : Bool := false
  drain : Nat := 0
  deriving DecidableEq, Repr

/-- What leaves the device: host-memory writes (R345, R398, R386, R353), MSI-X messages (R397), flits (R413), PCIe
poisoned writes (R388), answers over I3C (R536) and SPDM (R495), and the in-band interrupt of R535. -/
inductive Out where
  | hostWrite (addr : Nat) (data : Bytes)
  | hostPoison (addr : Nat) (len : Nat)
  | msix (f v : Nat)
  | flit (port : Nat) (data : Bytes)
  | i3c (outcome : Nat) (data : Bytes)
  | spdm (transport : Nat) (data : Bytes)
  | ibi
  | regRead (value : Nat)
  deriving DecidableEq, Repr

end Sys2Proof.Machine
end

