-- ==== Sys2Proof/Machine/RunState.lean ====
section
/-!
DEFINITION. What a running command or pass holds on its cores (R84, R112, R173, R332): the work that is left, the
quantized band, the accumulator memory, the buffers, the signatures of the address generators and the core scoreboard.
Nothing of it outlives the run.
-/

namespace Sys2Proof.Machine

/-- A row as the array takes it (R46, R48): block exponents, which blocks are A4, elements, the row's Fa, whether a
block is non-finite, and whether the row is poisoned. -/
structure QRow where
  x : List Nat := []
  a4 : List Bool := []
  q : List Int := []
  fl : Nat := 0
  nan : Bool := false
  bad : Bool := false
  deriving DecidableEq, Repr

/-- One piece of work of a core: a pass of a tile program at one position of its loops, or a scoreboard operation. -/
structure Work where
  layer : Nat                      -- layer-table index
  prog : Nat                       -- tile program within the layer
  sb : Option Nat := none          -- the scoreboard operation
  entry : Nat := 0                 -- list entry (R122)
  idx : List Nat := []             -- index of every loop
  pass : Nat := 0                  -- pass of R71 to R73
  only : Option Nat := none        -- a fallback run covers this context of the batch alone (R50)
  deriving DecidableEq, Repr

/-- A value of a chain (R138): its format by the codes of R93, and its pattern. -/
structure Val where
  fmt : Nat
  w : Nat
  deriving DecidableEq, Repr

/-- A tile record as the weight buffer holds it (R65, R251), with the rows and columns that hold weights: zeros where it is
poisoned (R266), with the cause. -/
structure Tile where
  elems : Bytes := []
  exps : Bytes := []
  sums : Bytes := []
  rows : Nat := 256
  cols : Nat := 256
  bad : Option Nat := none
  deriving DecidableEq, Repr

/-- A core's share of a run (R84). Row keys count the rows of the command; a second plane's rows stand at 2^32 on. -/
structure CoreRun where
  core : Nat
  rank : Nat
  inst : Bytes := []               -- instance record (R359)
  len : Nat := 0                   -- actual length (R100)
  pot : Nat := 0                   -- offset of its stockpot space in the share (R120)
  potBytes : Nat := 0
  boxes : KMap Bytes := []         -- box lists (R224), by layer * 2^16 + program
  todo : List Work := []
  rows : List Nat := []            -- valid rows of the band
  q : KMap QRow := []              -- quantized band
  raw : KMap (List Nat) := []      -- FP32 rows of a distance operation (R75)
  acc : KMap (List (Option Int)) := []  -- accumulator rows (R67), by set * 2^32 + row; none in a column never written
  accBad : List Nat := []          -- poison bits of accumulator rows (R67, R79), keyed as `acc`
  held : KMap Tile := []           -- weight tiles that the array holds, by plane (R65)
  fw : List Nat := []              -- Fw of the columns of the N tile (R49)
  masks : KMap (Nat × Bool) := []  -- column masks of the N tile by row, with whether the mask word was poison (R99)
  stage : KMap (Option Nat) := []  -- staged input elements of a window (R211), by address
  slots : List (Nat × Bytes) := [] -- the expander's two table slots, the last used one first (R267)
  cyc : Nat := 0                   -- array cycles of the N tile's passes so far (R66)
  cyc1 : Nat := 0                  -- those of its first pass
  prevM : Option Nat := none       -- valid rows of the N tile before (R115, R116)
  hold : KMap (List (Option Val)) := []  -- rows held for a row-closing stage (R146)
  holdBad : List Nat := []
  hdrs : KMap Bytes := []          -- pack headers read in this command or entry (R263), by address
  buf : KMap Byte := []            -- SPACE 2 to 4, by space * 2^32 + offset
  sigs : KMap Nat := []            -- address signatures (R97), by (layer * 2^16 + program) * 8 + generator
  want : KMap Nat := []            -- what the separate checker expects of them (R97)
  sb : KMap Nat := []              -- core scoreboard (R108)
  subs : List Nat := []            -- weight tiles subscribed to and not yet here (R104)
  got : List Nat := []             -- weight tiles in the expander's queue; 2^40 on: missed, fetched by the core itself
  done : Bool := false
  deriving DecidableEq, Repr

/-- A run: a GRAPH_RUN, or a pass of a batch on a stage (R173, R332). -/
structure Run where
  part : Nat
  prog : Nat
  layer : Nat                      -- first layer-table index
  last : Nat                       -- last layer-table index
  index : Nat := 0                 -- tile program of a GRAPH_RUN
  cmd : Option CmdRef := none      -- the GRAPH_RUN; none for a pass
  batch : Nat := 0
  stage : Nat := 0
  limitMs : Nat := 50              -- time limit it started with (R110)
  seed : Nat := 0                  -- seed of a GRAPH_RUN (R53)
  list : Bytes := []               -- pointer list (R123)
  cores : List CoreRun := []
  ctxs : List Nat := []            -- record indices, in batch order (R133)
  steps : List Nat := []           -- their steps at the start
  marks : Marks := {}
  empty : Bool := false            -- EMPTY_OUTPUT
  prom : KMap (Nat × Nat) := []    -- promotions and blocks (R50), by layer * 2^16 + context
  judged : List Nat := []          -- layers whose escalation has been decided
  escalated : Bool := false        -- the command's ESCALATION event is out
  norms : List (Nat × Nat × Nat × Nat) := []  -- tile sums (R171): ((layer * 2^16 + program) * 2^32 + rank) * 2^32 + context,
                                   -- write-back, order, FP32; outside a rollout a row counts as a context, in a pass the
                                   -- rank as 0
  held : List Nat := []            -- contexts that end in NORM_HOLD at their boundary (R172)
  reported : List Nat := []        -- causes already reported (R402)
  counted : List (Nat × Nat) := [] -- faults already counted (R475): core, cause
  allBad : Bool := false           -- every output is poisoned
  written : List (Nat × Nat × Nat × Nat) := []  -- output runs: place, elements, FORMAT, and
                                   -- program + 2^32 * (list entry + 1) + 2^64 * generator. A place is the address in device
                                   -- memory, and (space * 256 + core) * 2^72 + offset in another space
  reads : List (Nat × Nat × Nat) := []  -- operand runs: place, bytes, program
  was : List (Nat × Nat × List (Option Byte)) := []  -- what output runs held before they were written, the last first:
                                   -- program, place, bytes with none for poison (R142, R214, R226)
  foreign : List (Nat × Nat) := [] -- runs of device memory that other commands wrote meanwhile: address, bytes
  late : List (Nat × Nat × Nat) := []  -- those that a core has not waited for since: core, address, bytes
  opens : KMap Nat := []           -- how often the multicast engine opened an entry for a tile (R105)
  asked : KMap Nat := []           -- the last opening that a core has seen of a tile, by tile * 2^8 + core
  waits : Bool := false            -- it waits for stockpot space (R120)
  need : Nat := 0                  -- stockpot bytes that each core takes
  ended : Bool := false
  release : List (Nat × Nat) := []   -- dies of an ended pass, with each die's count at its last write (R467)
  deriving DecidableEq, Repr

/-- A core's share of a run; the second core of a distance-duplicate pair (R82) has rank 65,536 or more and no work. -/
def Run.coreAt (x : Run) (g : Nat) : Option CoreRun := x.cores.find? (fun c => c.core == g && decide (c.rank < 65536))

def Run.putCore (x : Run) (c : CoreRun) : Run := { x with cores := x.cores.map (fun k => if k.rank = c.rank then c else k) }

/-- It has not begun to work: its stockpot space is not granted (R120), and nothing has ended it. -/
def Run.stalled (x : Run) : Bool := x.waits && x.cores.any (fun c => !c.done)

/-- The cores that work, P of R124 and R133. -/
def Run.workers (x : Run) : List CoreRun := x.cores.filter (fun c => decide (c.rank < 65536))

end Sys2Proof.Machine
end

