-- ==== Sys2Proof/Machine/State.lean ====
section
/-!
DEFINITION. The state of the device, its state at reset, and the reasons to stop.
-/

namespace Sys2Proof.Machine

/-- Why the device comes to a stop that the manual describes no continuation of: it has no such stop, so that there is no
reason to name and nothing raises one. -/
inductive Fault where
  deriving DecidableEq, Repr

/-- Why the model declines a command. -/
inductive Refusal where
  /-- A command the model gives no meaning yet: raised by the arms of `exec` alone. Safe. -/
  | notModelled (mnemonic : String)
  deriving DecidableEq, Repr

/-- The device. Key spaces of `mem`: a byte of stack t at stack offset o is t * 2^37 + o; a byte of the stockpot of
skillet s at offset o is 2^41 + s * 2^27 + o; a byte at crock address a is 2^44 + a. -/
structure Dev where
  ao : KMap Nat := []              -- always-on count of each die (R349), by die code
  fns : KMap FnView := []
  qps : KMap Qp := []              -- by 128 * function + pair
  parts : KMap Part := []
  ctxs : KMap Ctx := []            -- by record index: the context tables of both junction dies. A change of an entry and of its
                                   -- mirror (R27) is one step, so that this stands for table and mirror (log 94)
  regions : KMap Region := []
  runs : KMap Run := []
  nextRun : Nat := 0
  cores : KMap Core := []
  skillets : KMap Skillet := []
  dram : KMap Stack := []
  jds : KMap Jd := []
  dmas : KMap Dma := []
  crock : Crock := {}
  fab : Fab := {}
  cups : KMap CupCnt := []         -- by die code
  pwr : Pwr := {}
  sense : Sense := {}
  saf : Safety := {}
  flash : Flash := {}
  conf : Conf := {}
  trust : Trust := {}
  mod : Mod := {}
  regs : DevRegs := {}
  cnt : KMap Nat := []             -- counters (R409), by 32 * unit identity + index
  ovf : List Nat := []             -- overflow bits of statistics counters, same key
  mem : Mem := []
  potBad : List (Nat × Nat) := []  -- poisoned stockpot words (R471): [from, to) in memory keys
  out : List Out := []             -- what left the device, oldest first
  free : Nat := 0                  -- (model) index of the next free value, log 7
  deriving DecidableEq, Repr

/-- The machine: the device, and the commands that wait, first in, first out. -/
structure State where
  pending : List Instr := []
  dev : Dev := {}
  deriving DecidableEq, Repr

/-- Right after a power-on reset: device step 0, the converter on, every register at its reset value, no command
waiting. -/
def State.reset : State := {}

/-- A command whose effect on the device is `f`: the queue stays as it is. -/
def State.onDev (s : State) (f : Dev → Dev) : State := { s with dev := f s.dev }

/-- Field updates, one per field of the device. -/
def Dev.setAo (d : Dev) (x : KMap Nat) : Dev := { d with ao := x }
def Dev.setFns (d : Dev) (x : KMap FnView) : Dev := { d with fns := x }
def Dev.setQps (d : Dev) (x : KMap Qp) : Dev := { d with qps := x }
def Dev.setParts (d : Dev) (x : KMap Part) : Dev := { d with parts := x }
def Dev.setCtxs (d : Dev) (x : KMap Ctx) : Dev := { d with ctxs := x }
def Dev.setRegions (d : Dev) (x : KMap Region) : Dev := { d with regions := x }
def Dev.setRuns (d : Dev) (x : KMap Run) : Dev := { d with runs := x }
def Dev.setCores (d : Dev) (x : KMap Core) : Dev := { d with cores := x }
def Dev.setSkillets (d : Dev) (x : KMap Skillet) : Dev := { d with skillets := x }
def Dev.setDram (d : Dev) (x : KMap Stack) : Dev := { d with dram := x }
def Dev.setJds (d : Dev) (x : KMap Jd) : Dev := { d with jds := x }
def Dev.setDmas (d : Dev) (x : KMap Dma) : Dev := { d with dmas := x }
def Dev.setCrock (d : Dev) (x : Crock) : Dev := { d with crock := x }
def Dev.setFab (d : Dev) (x : Fab) : Dev := { d with fab := x }
def Dev.setCups (d : Dev) (x : KMap CupCnt) : Dev := { d with cups := x }
def Dev.setPwr (d : Dev) (x : Pwr) : Dev := { d with pwr := x }
def Dev.setSense (d : Dev) (x : Sense) : Dev := { d with sense := x }
def Dev.setSaf (d : Dev) (x : Safety) : Dev := { d with saf := x }
def Dev.setFlash (d : Dev) (x : Flash) : Dev := { d with flash := x }
def Dev.setConf (d : Dev) (x : Conf) : Dev := { d with conf := x }
def Dev.setTrust (d : Dev) (x : Trust) : Dev := { d with trust := x }
def Dev.setMod (d : Dev) (x : Mod) : Dev := { d with mod := x }
def Dev.setRegs (d : Dev) (x : DevRegs) : Dev := { d with regs := x }
def Dev.setCnt (d : Dev) (x : KMap Nat) : Dev := { d with cnt := x }
def Dev.setOvf (d : Dev) (x : List Nat) : Dev := { d with ovf := x }
def Dev.setMem (d : Dev) (x : Mem) : Dev := { d with mem := x }
def Dev.setPotBad (d : Dev) (x : List (Nat × Nat)) : Dev := { d with potBad := x }
def Dev.setOut (d : Dev) (x : List Out) : Dev := { d with out := x }
def Dev.setFree (d : Dev) (x : Nat) : Dev := { d with free := x }

end Sys2Proof.Machine
end

