-- ==== Sys2Proof/Machine/Flags.lean ====
section
/-!
DEFINITION. Status and cause codes (R374), their precedence (R375), event codes (R402, R440, R465, R482), and the unit
identities of R400.
-/

namespace Sys2Proof.Machine

/-! Status codes of R374. -/
abbrev stSuccess : Nat := 0x0000
abbrev stEmptyOutput : Nat := 0x0001
abbrev stInvalidOpcode : Nat := 0x0101
abbrev stInvalidField : Nat := 0x0102
abbrev stNotPermitted : Nat := 0x0103
abbrev stNotOwned : Nat := 0x0104
abbrev stQpState : Nat := 0x0105
abbrev stProgFormat : Nat := 0x0110
abbrev stFuncTableLevel : Nat := 0x0111
abbrev stProgLimit : Nat := 0x0112
abbrev stLoopOrder : Nat := 0x0113
abbrev stBufferOverflow : Nat := 0x0114
abbrev stScoreboardUnbound : Nat := 0x0115
abbrev stProgUnknown : Nat := 0x0116
abbrev stProgBusy : Nat := 0x0117
abbrev stStageFormat : Nat := 0x0118
abbrev stDistCore : Nat := 0x0120
abbrev stDistDupCores : Nat := 0x0121
abbrev stListLimit : Nat := 0x0122
abbrev stReductionLimit : Nat := 0x0123
abbrev stAddrRange : Nat := 0x0124
abbrev stPadReflect : Nat := 0x0125
abbrev stChainRowstatSpace : Nat := 0x0126
abbrev stLengthRange : Nat := 0x0127
abbrev stWhiskFormat : Nat := 0x0128
abbrev stPieceFormat : Nat := 0x0129
abbrev stWeightFormat : Nat := 0x012A
abbrev stPackSpace : Nat := 0x012B
abbrev stPrefetchFormat : Nat := 0x012C
abbrev stPoisoned : Nat := 0x0201
abbrev stTierError : Nat := 0x0202
abbrev stTierTimeout : Nat := 0x0203
abbrev stTimeLimit : Nat := 0x0204
abbrev stScoreboardOverflow : Nat := 0x0205
abbrev stHostAccess : Nat := 0x0206
abbrev stRingFormat : Nat := 0x0207
abbrev stStepLimit : Nat := 0x0208
abbrev stAborted : Nat := 0x0209
abbrev stDepFailed : Nat := 0x020A
abbrev stCoreBusy : Nat := 0x0301
abbrev stMemSpace : Nat := 0x0302
abbrev stCtxSpace : Nat := 0x0303
abbrev stCrockSpace : Nat := 0x0304
abbrev stStockpotSpace : Nat := 0x0305
abbrev stQpSpace : Nat := 0x0306
abbrev stCupRange : Nat := 0x0307
abbrev stProgSpace : Nat := 0x0308
abbrev stTierPinLimit : Nat := 0x0309
abbrev stCtxPinLimit : Nat := 0x030A
abbrev stCtxStale : Nat := 0x0401
abbrev stCtxProgram : Nat := 0x0402
abbrev stNoPartition : Nat := 0x0403

/-! Cause codes of R374. -/
abbrev caResidue : Nat := 0x0801
abbrev caSramEcc : Nat := 0x0802
abbrev caMemPoison : Nat := 0x0803
abbrev caAddrSig : Nat := 0x0804
abbrev caRange : Nat := 0x0805
abbrev caDecode : Nat := 0x0806
abbrev caDecodeTable : Nat := 0x0807
abbrev caPackHeader : Nat := 0x0808
abbrev caDup : Nat := 0x0809
abbrev caFenced : Nat := 0x080A
abbrev caDistance : Nat := 0x080B

/-- A status that R375 and R353 count as good. -/
def stOk (st : Nat) : Bool := st == stSuccess || st == stEmptyOutput

/-- The least number of a list, or `d`. -/
def minOr (d : Nat) : List Nat → Nat
  | [] => d
  | x :: xs => min x (minOr x xs)

/-- No mark. -/
def Marks.none : Marks := {}

def Marks.cause (c : Nat) : Marks := { causes := [c] }
def Marks.fail (f : Nat) : Marks := { fails := [f] }

/-- Marks of two sources together. -/
def Marks.join (a b : Marks) : Marks := { causes := a.causes ++ b.causes, fails := a.fails ++ b.fails }

/-- Nothing went wrong. -/
def Marks.clear (m : Marks) : Bool := m.causes.isEmpty && m.fails.isEmpty

/-- The single status of a command and its DETAIL (R375): POISONED with the lowest cause first, then the others in
the order of R375, then `base`. -/
def Marks.final (m : Marks) (base : Nat) : Nat × Nat :=
  if !m.causes.isEmpty then (stPoisoned, minOr 0 m.causes)
  else if m.fails.contains stTierError then (stTierError, 0)
  else if m.fails.contains stTierTimeout then (stTierTimeout, 0)
  else if m.fails.contains stTimeLimit then (stTimeLimit, 0)
  else if m.fails.contains stScoreboardOverflow then (stScoreboardOverflow, 0)
  else if m.fails.contains stHostAccess then (stHostAccess, 0)
  else if m.fails.contains stAborted then (stAborted, 0)
  else (base, 0)

/-! Event codes. -/
abbrev evFault : Nat := 0x1001
abbrev evSummary : Nat := 0x1002
abbrev evMemUncorr : Nat := 0x1003
abbrev evCrockAccess : Nat := 0x1004
abbrev evCoreRetired : Nat := 0x1010
abbrev evSelftestFail : Nat := 0x1011
abbrev evSelftestOverdue : Nat := 0x1012
abbrev evFence : Nat := 0x1013
abbrev evRestored : Nat := 0x1014
abbrev evClockFault : Nat := 0x1015
abbrev evRailFault : Nat := 0x1016
abbrev evThermalCritical : Nat := 0x1017
abbrev evSafeStop : Nat := 0x1018
abbrev evLinkReplay : Nat := 0x1101
abbrev evLinkRetrain : Nat := 0x1102
abbrev evLinkDown : Nat := 0x1103
abbrev evLinkUp : Nat := 0x1104
abbrev evE2eCheck : Nat := 0x1105
abbrev evMsgFailed : Nat := 0x1106
abbrev evWindowRefused : Nat := 0x1107
abbrev evModuleLost : Nat := 0x1108
abbrev evManagerLost : Nat := 0x1109
abbrev evManagerTakeover : Nat := 0x110A
abbrev evRetrainFail : Nat := 0x2001
abbrev evRepairDone : Nat := 0x2002
abbrev evStackLost : Nat := 0x2003
abbrev evMigrateFail : Nat := 0x2004
abbrev evSpareEmpty : Nat := 0x2005
abbrev evStateNorm : Nat := 0x3001
abbrev evPinStarve : Nat := 0x3002
abbrev evEscalation : Nat := 0x3003
abbrev evCupExhausted : Nat := 0x4001
abbrev evPowerLimited : Nat := 0x4002
abbrev evEstimateDisagree : Nat := 0x4003
abbrev evCalResumed : Nat := 0x4004
abbrev evInputLost : Nat := 0x4005
abbrev evInputRestored : Nat := 0x4006
abbrev evTrivetLost : Nat := 0x4007
abbrev evThermalWarn : Nat := 0x4008
abbrev evThermalThrottle : Nat := 0x4009
abbrev evCapChanged : Nat := 0x400A
abbrev evCounterOverflow : Nat := 0x5001
abbrev evCounterThreshold : Nat := 0x5002
abbrev evQpError : Nat := 0x6001
abbrev evDmaRingError : Nat := 0x6002
abbrev evDmaDescBad : Nat := 0x6003

/-- The records that R482 has written directly, without the suspect table. -/
def evDirect (code : Nat) : Bool :=
  [evCoreRetired, evSelftestFail, evSelftestOverdue, evFence, evRestored, evSafeStop, evSummary].contains code

/-! Die codes (R349) and unit indices (R400). -/
abbrev dieIod (i : Nat) : Nat := 16 + i
abbrev dieJd (j : Nat) : Nat := 20 + j
abbrev dieCd : Nat := 22
abbrev uiPch (p : Nat) : Nat := 0x0100 + p
abbrev uiStackCtl : Nat := 0x01FF
abbrev uiDma (c : Nat) : Nat := 0x0200 + c
abbrev uiCrock : Nat := 0x0300
abbrev uiLink (s l : Nat) : Nat := 0x0400 + 2 * s + l
abbrev uiPart (p : Nat) : Nat := 0x0600 + p
abbrev uiAgg : Nat := 0x0700
abbrev uiFab (k : Nat) : Nat := 0x0800 + k
abbrev uiWhisk : Nat := 0x0900
abbrev uiEngine : Nat := 0x0A00
abbrev uiQp (n : Nat) : Nat := 0x1000 + n
abbrev uiDie : Nat := 0xFFFF

/-- A unit's die code and index in bits [23:0] (R400, R407). -/
def unit24 (die idx : Nat) : Nat := die * 0x10000 + idx

def unitCore (g : Nat) : Nat := unit24 (g / 8) (g % 8)
def unitDma (c : Nat) : Nat := unit24 (dieIod (c / 32)) (uiDma (c % 32))
def unitPart (p : Nat) : Nat := unit24 dieCd (uiPart p)
def unitFab (p : Nat) : Nat := unit24 (dieIod (p / 2)) (uiFab (p % 2))

/-- The counter kind of a unit (R547, R409): 0 core, 1 stack controller, 2 DMA channel, 3 partition, 4 aggregator;
5 for a unit without counters. -/
def unitKind (u : Nat) : Nat :=
  let die := u / 0x10000
  let idx := u % 0x10000
  if die < 16 ∧ idx < 8 then 0
  else if die < 16 ∧ idx = uiStackCtl then 1
  else if 16 ≤ die ∧ die < 20 ∧ 0x200 ≤ idx ∧ idx < 0x220 then 2
  else if die = dieCd ∧ 0x600 ≤ idx ∧ idx ≤ 0x610 then 3
  else if (die = 20 ∨ die = 21) ∧ idx = uiAgg then 4
  else 5

/-- The number of counters of a kind (R409). -/
def kindCounters (k : Nat) : Nat :=
  match k with
  | 0 => 13 | 1 => 2 | 2 => 1 | 3 => 2 | 4 => 2 | _ => 0

/-- A counter of the statistics class (R409). -/
def isStat (k i : Nat) : Bool :=
  match k with
  | 0 => i < 8
  | 3 => i < 2
  | 4 => i < 2
  | _ => false

/-! Counter indices of a core (R409). -/
abbrev ctSat : Nat := 0
abbrev ctProm : Nat := 1
abbrev ctSpan : Nat := 2
abbrev ctEscal : Nat := 3
abbrev ctStall : Nat := 4
abbrev ctMiss : Nat := 5
abbrev ctNorm : Nat := 6
abbrev ctSample : Nat := 7
abbrev ctResidue : Nat := 8
abbrev ctSig : Nat := 9
abbrev ctDecode : Nat := 10
abbrev ctSram : Nat := 11
abbrev ctDist : Nat := 12

end Sys2Proof.Machine
end

