-- ==== Sys2Proof/Machine/Interrupt.lean ====
section
/-!
DEFINITION. The interrupt controller of a function (R391 to R397), as a function of its own state: what each change
does to pending bits, and which messages it sends.
-/

namespace Sys2Proof.Machine

/-- A source that can become pending (R391, R553). -/
def srcValid (n : Nat) : Bool := 1 ≤ n && n ≤ 263

/-- The reset settings of a source (R391, R552). -/
def IntSrc.at (n : Nat) : IntSrc := { sense := if 1 ≤ n ∧ n ≤ 128 then 0 else 1 }

def IntCtl.src (c : IntCtl) (n : Nat) : IntSrc := kget c.srcs n (IntSrc.at n)
def IntCtl.vecOf (c : IntCtl) (v : Nat) : IntVec := kget c.vecs v {}

/-- Level pending is recomputed every cycle (R393). -/
def IntSrc.settle (x : IntSrc) : IntSrc :=
  if x.sense = 0 then { x with pend := x.en && x.line && !x.insv } else x

/-- Store a source, settled; a reserved source keeps nothing. -/
def IntCtl.setSrc (c : IntCtl) (n : Nat) (x : IntSrc) : IntCtl :=
  if srcValid n then { c with srcs := kset c.srcs n x.settle } else c

/-- A source is deliverable when pending and its priority is at least T (R393). -/
def IntCtl.deliverable (c : IntCtl) (x : IntSrc) : Bool := x.pend && decide (c.thr ≤ x.prio)

/-- Some source mapped to `v` is deliverable (R397). -/
def IntCtl.hot (c : IntCtl) (v : Nat) : Bool := c.srcs.any (fun e => e.2.vec == v && c.deliverable e.2)

/-- The vectors that some source of the list maps to, without repeats. -/
def vecsOf (l : KMap IntSrc) : List Nat := l.foldl (fun a e => insertSorted e.2.vec a) []

/-- What R397 does on vector `v` when the controller goes from `old` to `c`: the controller, and whether a message is
sent. -/
def IntCtl.edge (old : IntCtl) (c : IntCtl) (v : Nat) : IntCtl × Bool :=
  let x := c.vecOf v
  if !old.hot v && c.hot v then
    (if x.mask then ({ c with vecs := kset c.vecs v { x with pend := true } }, false)
     else ({ c with vecs := kset c.vecs v { x with sent := true } }, true))
  else if x.pend && !c.hot v then ({ c with vecs := kset c.vecs v { x with pend := false } }, false)
  else (c, false)

/-- The controller after the messages of a change are accounted for, and the vectors to send on, rising. -/
def IntCtl.commit (old new : IntCtl) : IntCtl × List Nat :=
  ((vecsOf (new.srcs ++ old.srcs)).foldl
    (fun (acc : IntCtl × List Nat) v =>
      let r := old.edge acc.1 v
      (r.1, if r.2 then acc.2 ++ [v] else acc.2)) (new, []))

/-- A line changes level (R392, R393). -/
def IntCtl.setLine (c : IntCtl) (n : Nat) (hi : Bool) : IntCtl :=
  let x := c.src n
  if x.line == hi then c
  else
    let fires := x.en && (x.sense == 3 || (hi && x.sense == 1) || (!hi && x.sense == 2))
    c.setSrc n { x with line := hi, pend := x.pend || fires }

/-- The enable of a source is written (R393): disabling clears its pending bit. -/
def IntCtl.setEnable (c : IntCtl) (n : Nat) (en : Bool) : IntCtl :=
  let x := c.src n
  c.setSrc n { x with en := en, pend := x.pend && en }

/-- The sensing mode is written (R393): a change clears the pending bit. -/
def IntCtl.setSense (c : IntCtl) (n mode : Nat) : IntCtl :=
  let x := c.src n
  if x.sense = mode then c else c.setSrc n { x with sense := mode, pend := false }

/-- The vector is written: pending and in-service bits move with it (R396). -/
def IntCtl.setVector (c : IntCtl) (n v : Nat) : IntCtl := c.setSrc n { c.src n with vec := v }

/-- The priority is written: it takes effect at the next claim (R396). -/
def IntCtl.setPrio (c : IntCtl) (n p : Nat) : IntCtl := c.setSrc n { c.src n with prioNew := p }

/-- Written priorities and threshold take effect (R396). -/
def IntCtl.apply (c : IntCtl) : IntCtl :=
  { c with thr := c.thrNew, srcs := c.srcs.map (fun e => (e.1, { e.2 with prio := e.2.prioNew })) }

/-- The deliverable source of `v` with the highest priority, ties to the lowest number (R394). -/
def IntCtl.best (c : IntCtl) (v : Nat) : Option Nat :=
  (c.srcs.foldl (fun (a : Option (Nat × Nat)) e =>
    if e.2.vec == v && c.deliverable e.2 then
      match a with
      | none => some (e.1, e.2.prio)
      | some (n, p) => if p < e.2.prio then some (e.1, e.2.prio) else some (n, p)
    else a) none).map (·.1)

/-- The claim itself, priorities already applied (R394): the controller and the number read. -/
def IntCtl.take (c : IntCtl) (v : Nat) : IntCtl × Nat :=
  let x := c.vecOf v
  let c' := { c with vecs := kset c.vecs v { x with sent := false } }
  match c.best v with
  | some n => (c'.setSrc n { c'.src n with pend := false, insv := true }, n)
  | none => (c', if x.sent then 1023 else 0)

/-- A completion (R395). -/
def IntCtl.complete (c : IntCtl) (v n : Nat) : IntCtl :=
  let x := c.src n
  if x.insv && x.vec == v then c.setSrc n { x with insv := false } else c

/-- Unmasking a vector sends its held message (R397): the controller, and whether a message leaves. -/
def IntCtl.unmask (c : IntCtl) (v : Nat) : IntCtl × Bool :=
  let x := c.vecOf v
  if x.pend then ({ c with vecs := kset c.vecs v { x with mask := false, pend := false, sent := true } }, true)
  else ({ c with vecs := kset c.vecs v { x with mask := false } }, false)

end Sys2Proof.Machine
end

