-- ==== Sys2Proof/Machine/Ops.lean ====
section
/-!
DEFINITION. The shared operations on the device's tables: reading and writing one entry, what leaves the device, the
always-on counts, interrupt lines and messages, event records and the suspect tables, and the counters.
-/

namespace Sys2Proof.Machine

/-! Entries of tables. -/
def Dev.fn (d : Dev) (f : Nat) : FnView := kget d.fns f {}
def Dev.putFn (d : Dev) (f : Nat) (x : FnView) : Dev := d.setFns (kset d.fns f x)
def Dev.modFn (d : Dev) (f : Nat) (g : FnView → FnView) : Dev := d.putFn f (g (d.fn f))
def Dev.part (d : Dev) (p : Nat) : Option Part := kfind d.parts p
def Dev.putPart (d : Dev) (p : Nat) (x : Part) : Dev := d.setParts (kset d.parts p x)
def Dev.modPart (d : Dev) (p : Nat) (g : Part → Part) : Dev :=
  match d.part p with
  | some x => d.putPart p (g x)
  | none => d
def Dev.core (d : Dev) (g : Nat) : Core := kget d.cores g {}
def Dev.putCore (d : Dev) (g : Nat) (x : Core) : Dev := d.setCores (kset d.cores g x)
def Dev.modCore (d : Dev) (g : Nat) (h : Core → Core) : Dev := d.putCore g (h (d.core g))
def Dev.skillet (d : Dev) (s : Nat) : Skillet := kget d.skillets s {}
def Dev.putSkillet (d : Dev) (s : Nat) (x : Skillet) : Dev := d.setSkillets (kset d.skillets s x)
def Dev.modSkillet (d : Dev) (s : Nat) (g : Skillet → Skillet) : Dev := d.putSkillet s (g (d.skillet s))
def Dev.stack (d : Dev) (t : Nat) : Stack := kget d.dram t {}
def Dev.putStack (d : Dev) (t : Nat) (x : Stack) : Dev := d.setDram (kset d.dram t x)
def Dev.modStack (d : Dev) (t : Nat) (g : Stack → Stack) : Dev := d.putStack t (g (d.stack t))
def Dev.jd (d : Dev) (j : Nat) : Jd := kget d.jds j {}
def Dev.putJd (d : Dev) (j : Nat) (x : Jd) : Dev := d.setJds (kset d.jds j x)
/-- The end-of-count source of a channel resets to 129 + c (R555). -/
def Dma.at (c : Nat) : Dma := { source := 129 + c }
def Dev.dma (d : Dev) (c : Nat) : Dma := kget d.dmas c (Dma.at c)
def Dev.putDma (d : Dev) (c : Nat) (x : Dma) : Dev := d.setDmas (kset d.dmas c x)
def Dev.ctx (d : Dev) (i : Nat) : Ctx := kget d.ctxs i {}
def qpKey (f q : Nat) : Nat := 128 * f + q
def Dev.qp (d : Dev) (f q : Nat) : Option Qp := kfind d.qps (qpKey f q)
def Dev.putQp (d : Dev) (f q : Nat) (x : Qp) : Dev := d.setQps (kset d.qps (qpKey f q) x)
def Dev.modQp (d : Dev) (f q : Nat) (g : Qp → Qp) : Dev :=
  match d.qp f q with
  | some x => d.putQp f q (g x)
  | none => d
def Dev.run (d : Dev) (r : Nat) : Option Run := kfind d.runs r
def Dev.putRun (d : Dev) (r : Nat) (x : Run) : Dev := d.setRuns (kset d.runs r x)
def Dev.dropRun (d : Dev) (r : Nat) : Dev := d.setRuns (kdel d.runs r)
def Dev.cupsOf (d : Dev) (die : Nat) : CupCnt := kget d.cups die {}
def Dev.putCups (d : Dev) (die : Nat) (x : CupCnt) : Dev := d.setCups (kset d.cups die x)

/-- A fabric port (8 of them). -/
def Dev.port (d : Dev) (p : Nat) : Port := d.fab.ports.getD p {}
def Dev.putPort (d : Dev) (p : Nat) (x : Port) : Dev :=
  d.setFab { d.fab with ports := ((d.fab.ports ++ List.replicate (8 - d.fab.ports.length) ({} : Port)).set p x) }

/-- A crock port (4 of them). -/
def Dev.cport (d : Dev) (i : Nat) : CrockPort := d.crock.ports.getD i {}
def Dev.putCport (d : Dev) (i : Nat) (x : CrockPort) : Dev :=
  d.setCrock { d.crock with ports := ((d.crock.ports ++ List.replicate (4 - d.crock.ports.length) ({} : CrockPort)).set i x) }

/-- Something leaves the device. -/
def Dev.emitOut (d : Dev) (o : Out) : Dev := d.setOut (d.out ++ [o])

/-- The always-on count of a die (R349). -/
def Dev.aoOf (d : Dev) (die : Nat) : Nat := kget d.ao die 0

/-- The junction die that serves parity `j`, and whether it stands in for the fenced one (R28). -/
def Dev.jdFor (d : Dev) (j : Nat) : Nat × Bool :=
  if (d.jd (j % 2)).fenced then (1 - j % 2, true) else (j % 2, false)

/-- The always-on count of the junction die that owns parity `j`. -/
def Dev.jdAo (d : Dev) (j : Nat) : Nat := d.aoOf (dieJd (d.jdFor j).1)

/-- The AO_COUNT field of R348: the die code above 59 bits of count. -/
def aoField (die count : Nat) : Nat := die * 2 ^ 59 + count % 2 ^ 59

/-- A count stamped by the junction die of parity `j` (R349, R399). -/
def Dev.stamp (d : Dev) (j : Nat) : Nat :=
  let k := (d.jdFor j).1
  aoField (dieJd k) (d.aoOf (dieJd k))

/-- A unit identity of this module (R400). -/
def Dev.unit (d : Dev) (u24 : Nat) : Nat := d.conf.module * 0x1000000 + u24

/-- Registers respond: the host port is there from device step 4 on (R507), and in recovery mode only the five registers
of R546 do. -/
def Dev.regsLive (d : Dev) : Bool := !d.trust.recovery && decide (4 ≤ d.trust.step)

/-- A function that exists: a virtual one while SR-IOV is enabled (R376, R512). -/
def Dev.fnThere (d : Dev) (f : Nat) : Bool := f == 0 || (decide (f ≤ 16) && d.mod.sriov)

/-- A function whose registers and doorbells respond. -/
def Dev.fnLive (d : Dev) (f : Nat) : Bool := d.regsLive && d.fnThere f

/-- A write to a register of the device blocks. -/
def State.onReg (s : State) (g : Dev → Dev) : State := s.onDev (fun d => if d.regsLive then g d else d)

/-- A write to a register or a doorbell of function `f`. -/
def State.onFn (s : State) (f : Nat) (g : Dev → Dev) : State := s.onDev (fun d => if d.fnLive f then g d else d)

/-! Interrupts. -/

/-- A change `g` of the controller of function `f`, with the messages it sends (R397). -/
def Dev.withInt (d : Dev) (f : Nat) (g : IntCtl → IntCtl) : Dev :=
  let old := (d.fn f).int
  let r := old.commit (g old)
  (d.modFn f (fun v => { v with int := r.1 })).setOut (d.out ++ r.2.map (fun v => Out.msix f v))

/-- A state line changes level (R392). -/
def Dev.setLine (d : Dev) (f n : Nat) (hi : Bool) : Dev := d.withInt f (fun c => c.setLine n hi)

/-- A pulse line is high for one cycle (R392). -/
def Dev.pulse (d : Dev) (f n : Nat) : Dev := (d.setLine f n true).setLine f n false

/-! Events. -/

/-- An event record before it is stamped (R399); `unit` holds bits [23:0] of the unit identity. -/
structure EvRec where
  code : Nat
  part : Nat := 0
  unit : Nat
  tag : Nat := 0
  cause : Nat := 0
  count : Nat := 1
  payload : Bytes := []
  unsup : Bool := false
  deriving DecidableEq, Repr

/-- The 64 bytes of a record (R399). -/
def EvRec.bytes (e : EvRec) (unit stamp : Nat) (lost phase : Bool) : Bytes :=
  leBytes 2 e.code ++ leBytes 1 e.part ++ leBytes 1 (b2n lost + 2 * b2n e.unsup + 128 * b2n phase)
    ++ leBytes 4 unit ++ leBytes 8 stamp ++ leBytes 4 e.tag ++ leBytes 2 e.cause ++ leBytes 2 (min e.count 0xFFFF)
    ++ padTo 40 e.payload

/-- A counter (R409). -/
def Dev.counter (d : Dev) (u i : Nat) : Nat := kget d.cnt (32 * u + i) 0

/-- The counters of a unit and their overflow bits are zeroed (R407). -/
def Dev.zeroUnit (d : Dev) (u : Nat) : Dev :=
  (d.setCnt (d.cnt.filter (fun e => e.1 / 32 != u))).setOvf (d.ovf.filter (fun n => n / 32 != u))

/-- The function whose thresholds govern a unit (R408, R553). -/
def Dev.unitOwner (d : Dev) (u : Nat) : Nat :=
  match unitKind u with
  | 0 => ((d.parts.find? (fun e => e.2.cores.contains (u / 0x10000 * 8 + u % 0x10000))).map (·.1)).getD 0
  | 2 => let o := (d.dma ((u / 0x10000 - 16) * 32 + (u % 0x10000 - 0x200))).owner
         if o ≤ 16 then o else 0
  | 3 => u % 0x10000 - 0x600
  | _ => 0

/-- Add `n` to a counter (R406, R408): the device, and the events that follow. -/
def Dev.addCount (d : Dev) (u i n : Nat) : Dev × List EvRec :=
  let old := d.counter u i
  if isStat (unitKind u) i then
    let new := stick64 (old + n)
    let above := new = 2 ^ 64 - 1 ∧ !d.ovf.contains (32 * u + i)
    let f := d.unitOwner u
    let thr := kget (d.fn f).thr (16 * unitKind u + i) 0
    let d1 := d.setCnt (kset d.cnt (32 * u + i) new)
    let d2 := if above then d1.setOvf (insertSorted (32 * u + i) d1.ovf) else d1
    let ev (code : Nat) (pl : Bytes) : EvRec := { code := code, part := f, unit := u, payload := leBytes 1 i ++ pl }
    (d2, (if above then [ev evCounterOverflow []] else [])
         ++ (if thr ≠ 0 ∧ old < thr ∧ thr ≤ new then [ev evCounterThreshold (leBytes 8 thr)] else []))
  else (d.setCnt (kset d.cnt (32 * u + i) (stick16 (old + n))), [])

/-- Write one record to the ring of function `f`, or lose it (R398, R401, R554): the device, and the events that the
records-lost counter raises. -/
def Dev.writeRec (d : Dev) (f : Nat) (e : EvRec) : Dev × List EvRec :=
  let r := (d.fn f).evt
  let size := 2 ^ r.log2
  if !r.en then d.addCount (unitPart f) 1 1
  else if (r.tail + 1) % size = r.head then
    let a := (d.modFn f (fun v => { v with evt := { v.evt with lostFlag := true } })).addCount (unitPart f) 1 1
    (a.1.pulse f 263, a.2)
  else
    let b := e.bytes (d.unit e.unit) (d.stamp (e.unit % 2)) r.lostFlag r.phase
    let tail := (r.tail + 1) % size
    let d1 := d.emitOut (.hostWrite (r.base + 64 * r.tail) b)
    let d2 := d1.modFn f (fun v => { v with evt := { v.evt with
      tail := tail, phase := if tail = 0 then !v.evt.phase else v.evt.phase, lostFlag := false } })
    (d2.pulse f (256 + e.code / 0x1000), [])

/-- Write a record to the physical function's ring, and to the ring of the partition it concerns (R398). The fuel bounds
the events about lost records that a lost record can raise. -/
def Dev.record : Nat → Dev → EvRec → Dev
  | 0, d, _ => d
  | n + 1, d, e =>
    let a := d.writeRec 0 e
    let b := if e.part = 0 then (a.1, []) else a.1.writeRec e.part e
    (a.2 ++ b.2).foldl (Dev.record n) b.1

/-- A record, written (four levels of counter events suffice: each needs its own threshold or overflow). A record whose
unit is a partition's core or DMA channel concerns that partition (R398, R399). -/
def Dev.event (d : Dev) (e : EvRec) : Dev :=
  Dev.record 5 d (if e.part = 0 then { e with part := d.unitOwner e.unit } else e)

/-- Count, and raise what the counter raises. -/
def Dev.count (d : Dev) (u i n : Nat) : Dev :=
  if n = 0 then d
  else
    let r := d.addCount u i n
    r.2.foldl Dev.event r.1

/-- The suspect table that handles suspects of a parity (R403). -/
def Dev.suspects (d : Dev) (j : Nat) : List Suspect :=
  let k := d.jdFor j
  if k.2 then (d.jd k.1).other else (d.jd k.1).own

def Dev.putSuspects (d : Dev) (j : Nat) (l : List Suspect) : Dev :=
  let k := d.jdFor j
  d.putJd k.1 (if k.2 then { d.jd k.1 with other := l } else { d.jd k.1 with own := l })

/-- Up to 8 distinct reporters (R403). -/
def addReporter (l : List Nat) (r : Nat) : List Nat :=
  if l.contains r ∨ 8 ≤ l.length then l else l ++ [r]

/-- A class-1 report (R403 to R405). -/
def Dev.suspectReport (d : Dev) (e : EvRec) (reporter : Nat) : Dev :=
  let j := e.unit % 2
  let d := d.count (unit24 (dieJd (d.jdFor j).1) uiAgg) 0 1
  let l := d.suspects j
  let u := d.unit e.unit
  if l.any (fun x => x.unit == u) then
    d.putSuspects j (l.map (fun x => if x.unit = u then
      { x with count := stick16 (x.count + 1), reporters := addReporter x.reporters reporter } else x))
  else if l.length < 256 then
    (d.putSuspects j (l ++ [{ unit := u, count := 1, reporters := [reporter] }])).event e
  else
    (d.count (unit24 (dieJd (d.jdFor j).1) uiAgg) 1 1).event { e with unsup := true }

/-- Report an event: class 1 through the suspect table, the others and the direct safety records as they are (R403,
R482). -/
def Dev.raise (d : Dev) (e : EvRec) (reporter : Nat := e.unit) : Dev :=
  if e.code / 0x1000 = 1 ∧ !evDirect e.code then d.suspectReport e (d.unit reporter) else d.event e

/-! Alerts (R534). -/

/-- A bit of the alert-reason word is set; ALERT# falling in-band interrupts once (R535). -/
def Dev.alert (d : Dev) (b : Nat) : Dev :=
  if bit d.mod.alert b then d
  else
    let d1 := d.setMod { d.mod with alert := d.mod.alert + 2 ^ b }
    if d.mod.alert = 0 then d1.emitOut .ibi else d1

/-! Cups (R442 to R451): a charge takes its units from the cup's counter. -/

/-- The counter of the cup of partition `p` with index `k` (half its offset in CUPS; 49 is the host link outward). -/
def cupKey (p k : Nat) : Nat := 16 * k + p - 1

/-- A charge of `n` units on a die (R445): what a step needs beyond the units left waits for later boundaries, or is
drawn (R447), within the step (log 13). -/
def Dev.charge (d : Dev) (p die k n : Nat) : Dev :=
  if p = 0 ∨ n = 0 then d
  else
    let c := d.cupsOf die
    let u := kget c.units (cupKey p k) 0
    d.putCups die { c with units := kset c.units (cupKey p k) (u - n),
                           ranDry := if u ≤ n then insertSorted (cupKey p k) c.ranDry else c.ranDry }

/-- A charge that must not wait (R448). -/
def Dev.chargeNow (d : Dev) (p die k n : Nat) : Dev :=
  if p = 0 ∨ n = 0 then d
  else
    let u := kget (d.cupsOf die).units (cupKey p k) 0
    let d1 := d.charge p die k n
    let c := d1.cupsOf die
    if u < n then d1.putCups die { c with drawn := kset c.drawn (cupKey p k) (kget c.drawn (cupKey p k) 0 + (n - u)) } else d1

/-- The entry accepted last for an offset of CUPS (R450). -/
def Part.cupLast (x : Part) (off : Nat) : Nat :=
  match x.cupsNew.find? (fun e => e.1 == off) with
  | some e => e.2
  | none => kget x.cups off 0

/-- An entry that serves nothing: SHARE 0 and DRAW clear (R449). -/
def cupClosed (e : Nat) : Bool := e % 2048 == 0 && !bit e 15

/-- A cup that is never served (R449): closed now, and closed still once the accepted entry is in force. -/
def Dev.cupShut (d : Dev) (p k : Nat) : Bool :=
  match d.part p with
  | some x => p != 0 && cupClosed (kget x.cups (2 * k) 0) && cupClosed (x.cupLast (2 * k))
  | none => false

/-! Free values. -/

/-- `n` fresh free bytes (log 7). -/
def Dev.freeBytes (d : Dev) (n : Nat) : Bytes × Dev :=
  ((List.range n).map (fun i => Config.freeByte (d.free + i)), d.setFree (d.free + n))

/-- A read-only view: the partition that owns a core. -/
def Dev.coreOwner (d : Dev) (g : Nat) : Option Nat := (d.parts.find? (fun e => e.2.cores.contains g)).map (·.1)

/-- A core is out of action: fenced alone, or with its skillet (R472). -/
def Dev.coreFenced (d : Dev) (g : Nat) : Bool := (d.core g).fenced || (d.skillet (g / 8)).fenced

end Sys2Proof.Machine
end

