-- ==== Sys2Proof/Machine/Reads.lean ====
section
/-!
DEFINITION. Where bytes lie and how one sector is read and written: region placement (R274), the stack address maps (R276),
the spare region (R290), the poison table (R281 to R283), fill mode (R285), the crock's ports (R297, R309 to R311).
-/

namespace Sys2Proof.Machine

/-! Physical keys (see `Dev.mem`). -/
def stackKey (t off : Nat) : Nat := t * 2 ^ 37 + off
def potBase : Nat := 2 ^ 41
def potKeyAt (s off : Nat) : Nat := potBase + s * 2 ^ 27 + off

/-- The port that a crock address selects, and the address on its expander (R297). -/
def crockPort (a : Nat) : Nat := a / 256 % 4
def expanderAddr (a : Nat) : Nat := a / 1024 * 256 + a % 256
def crockKey (a : Nat) : Nat := 2 ^ 44 + crockPort a * 2 ^ 42 + expanderAddr a

/-- 2 MiB, a tier page (R299). -/
abbrev pageBytes : Nat := 2097152

/-- Usable bytes of a stack (R272). -/
abbrev stackBytes : Nat := 128849018880

/-- A place within a region (R274): stack and stack offset. -/
def Region.place (g : Region) (r : Nat) : Nat × Nat :=
  let gs := if g.sector then 256 else 2048
  let st := setBits 16 g.mask
  let n := r / gs
  (st.getD (n % st.length) 0, g.rowBase * 2 ^ 22 + n / st.length * gs + r % gs)

/-- Pseudo-channel, bank, row and column of a stack offset (R276). -/
def stackDecode (sector : Bool) (o : Nat) : Nat × Nat × Nat × Nat :=
  let row := o / 2 ^ 22
  if sector then
    let pch := bits o 10 8 + 8 * bits o 13 11
    let bg := bits o 16 14 ^^^ (row % 8)
    let sec := bits o 7 6 + 4 * bits o 19 19 + 8 * bits o 21 20
    (pch, bg * 4 + bits o 18 17, row, sec * 64 + o % 64)
  else
    let pch := bits o 13 11 + 8 * bits o 16 14
    let bg := (bits o 18 17 + 4 * bits o 19 19) ^^^ (row % 8)
    let sec := bits o 7 6 + 4 * bits o 10 8
    (pch, bg * 4 + bits o 21 20, row, sec * 64 + o % 64)

/-- The stack offset of a pseudo-channel, bank, row and column: the inverse of `stackDecode`. -/
def stackEncode (sector : Bool) (x : Nat × Nat × Nat × Nat) : Nat :=
  let bg := (x.2.1 / 4) ^^^ (x.2.2.1 % 8)
  let sec := x.2.2.2 / 64
  let low := x.2.2.1 * 2 ^ 22 + x.2.2.2 % 64 + sec % 4 * 64
  if sector then
    low + x.1 % 8 * 2 ^ 8 + x.1 / 8 * 2 ^ 11 + bg * 2 ^ 14 + x.2.1 % 4 * 2 ^ 17 + sec / 4 % 2 * 2 ^ 19 + sec / 8 * 2 ^ 20
  else low + sec / 4 * 2 ^ 8 + x.1 % 8 * 2 ^ 11 + x.1 / 8 * 2 ^ 14 + bg * 2 ^ 17 + x.2.1 % 4 * 2 ^ 20

/-- Where the check bytes of a sector lie (R280): bank, row and column of its pseudo-channel. -/
def checkPlace (x : Nat × Nat × Nat × Nat) : Nat × Nat × Nat :=
  ((x.2.1 + 16) % 32, 31744 + x.2.2.1 / 32, x.2.2.1 % 32 * 64 + 2 * (x.2.2.2 / 64))

/-- The piece of a retired channel that holds a place (R290), and where a piece of retired channel `c` has moved. -/
def pieceIndex (x : Nat × Nat × Nat × Nat) : Nat := ((x.2.2.1 * 32 + x.2.1) * 2 + x.1 % 2) * 8 + x.2.2.2 / 256
def sparePlace (c j : Nat) : Nat × Nat × Nat × Nat :=
  let k := j % 62
  let o := j / 62 * 256
  (if k < 2 * c then k else k + 2, o / 2048 % 32, 30720 + o / 65536, o % 2048)

/-- The piece that a place of the spare region holds after the repair of channel `c` (R290). -/
def spareHolds (c : Nat) (x : Nat × Nat × Nat × Nat) : Option Nat :=
  let o := ((x.2.2.1 - 30720) * 32 + x.2.1) * 2048 + x.2.2.2
  let j := o / 256 * 62 + (if x.1 < 2 * c then x.1 else x.1 - 2)
  if x.2.2.1 < 30720 ∨ x.1 / 2 = c ∨ 15728640 ≤ j then none else some j

/-- The place in the stack that a stack offset has: under the remap once its channel's repair is done (R290). -/
def Stack.placeOf (k : Stack) (sector : Bool) (off : Nat) : Nat × Nat × Nat × Nat :=
  let x := stackDecode sector off
  match k.repaired with
  | some c => if x.1 / 2 = c ∧ !k.repairing then
                let y := sparePlace c (pieceIndex x)
                (y.1, y.2.1, y.2.2.1, y.2.2.2 + x.2.2.2 % 256)
              else x
  | none => x

/-- A stack offset lies in a piece that a repair has moved. -/
def Stack.moved (k : Stack) (sector : Bool) (off : Nat) : Bool :=
  !k.repairing && k.repaired == some ((stackDecode sector off).1 / 2)

/-- Where a byte of a partition's address space lies. -/
inductive Loc where
  | none
  | stack (t off : Nat) (sector : Bool)
  | zero (page : Nat)
  | crock (a : Nat)
  deriving DecidableEq, Repr

/-- The region of partition `p` that holds an address (R275); tier frames and firmware regions are not addressed
directly. -/
def Dev.regionAt (d : Dev) (p a : Nat) : Option Region :=
  (d.regions.find? (fun e => e.2.part == p && decide (e.2.kind ≤ 1) && decide (e.2.base ≤ a)
    && decide (a < e.2.base + e.2.size))).map (·.2)

/-- A byte of a tier frame (R299). -/
def Dev.frameLoc (d : Dev) (x : Tier) (frame off : Nat) : Loc :=
  match kfind d.regions x.region with
  | some g => let w := g.place (frame * pageBytes + off); .stack w.1 w.2 g.sector
  | none => .none

/-- The page of the tiered range that holds an address. -/
def Tier.pageOf (x : Tier) (a : Nat) : Option Nat :=
  if x.base ≤ a ∧ a < x.base + x.pages * pageBytes then some ((a - x.base) / pageBytes) else none

def Tier.st (x : Tier) (pg : Nat) : PageSt := kget x.page pg .zero

/-- Where a read of an address is served from (R274, R300, R303). -/
def Dev.locate (d : Dev) (p a : Nat) : Loc :=
  match d.regionAt p a with
  | some g => let w := g.place (a - g.base); .stack w.1 w.2 g.sector
  | none =>
    match d.part p with
    | none => .none
    | some x =>
      match x.tier.pageOf a with
      | none => .none
      | some pg =>
        let off := (a - x.tier.base) % pageBytes
        match x.tier.st pg with
        | .zero => .zero pg
        | .stack f => d.frameLoc x.tier f off
        | .crock f => .crock (f * pageBytes + off)
        | .moving tf cf promote _ => if promote then .crock (cf * pageBytes + off) else d.frameLoc x.tier tf off

/-- An address lies in the partition's reserved memory (R95, R112). -/
def Dev.owned (d : Dev) (p a : Nat) : Bool := d.locate p a != .none

/-- Every byte of [a, a + n) lies in the partition's reserved memory, checked at 256 B steps: regions and pages are
multiples of 256 B. -/
def Dev.ownedRange (d : Dev) (p a n : Nat) : Bool :=
  (n == 0) || (d.owned p a && d.owned p (a + n - 1)
    && (List.range (n / 256 + 1)).all (fun i => d.owned p (min (a + 256 * i) (a + n - 1))))

/-! The poison table (R282). -/

def PoisonEnt.covers (e : PoisonEnt) (o : Nat) : Bool := decide (e.addr ≤ o) && decide (o < e.addr + 2 ^ e.log2)

/-- The smallest aligned range that holds two entries. -/
def PoisonEnt.merge (a b : PoisonEnt) : PoisonEnt :=
  let top := max (a.addr + 2 ^ a.log2) (b.addr + 2 ^ b.log2) - 1
  let lo := min a.addr b.addr
  let k := ((List.range 27).find? (fun k => 6 ≤ k && lo / 2 ^ k == top / 2 ^ k)).getD 26
  { addr := lo / 2 ^ k * 2 ^ k, log2 := k }

/-- Insert in rising address order. -/
def poisonInsert (e : PoisonEnt) : List PoisonEnt → List PoisonEnt
  | [] => [e]
  | x :: xs => if e.addr < x.addr then e :: x :: xs else x :: poisonInsert e xs

/-- The neighbours whose merge is smallest, ties to the lowest address. -/
def bestPair : List PoisonEnt → Option (PoisonEnt × PoisonEnt)
  | a :: b :: l =>
    match bestPair (b :: l) with
    | none => some (a, b)
    | some (c, e) => if (a.merge b).log2 ≤ (c.merge e).log2 then some (a, b) else some (c, e)
  | _ => none

/-- Enter a poisoned sector (R282). Neighbours in address order suffice: the merge of any pair holds everything between
the two. -/
def poisonAdd (l : List PoisonEnt) (sector : Nat) : List PoisonEnt :=
  if l.any (fun e => e.covers sector) then l
  else
    let all := poisonInsert { addr := sector, log2 := 6 } l
    if l.length < 4096 then all
    else
      match bestPair all with
      | none => all
      | some (a, b) => let m := a.merge b; poisonInsert m (all.filter (fun e => !m.covers e.addr))

/-- A stack is served as R292 states: lost, or fenced with its controller or its skillet (R472). -/
def Dev.stackOut (d : Dev) (t : Nat) : Bool :=
  (d.stack t).lost || (d.stack t).fenced || (d.skillet t).fenced || (d.skillet t).ctlFenced

/-- A stack offset reads as poison. -/
def Stack.bad (x : Stack) (o : Nat) : Bool :=
  x.poison.any (fun e => e.covers o) || x.repairPoison.contains (o / 256 * 256)

/-- 10 ms and 24 h of a 50 MHz clock. -/
abbrev shakyWindow : Nat := 500000
abbrev rowWindow : Nat := 4320000000000

/-- A fresh uncorrectable sector (R281): entered, in the repair poison map where its piece has moved (R291), counted,
reported. -/
def Dev.uncorrectable (d : Dev) (p t off : Nat) (sector : Bool) : Dev :=
  let o := off / 64 * 64
  let x := (d.stack t).placeOf sector o
  let d1 := d.modStack t (fun k =>
    { k with poison := if k.moved sector o then k.poison else poisonAdd k.poison o,
             repairPoison := if k.moved sector o then insertSorted (o / 256 * 256) k.repairPoison else k.repairPoison,
             badRows := k.badRows ++ [(x.1, x.2.1, x.2.2.1, d.aoOf t)] })
  (d1.count (unit24 t uiStackCtl) 1 1).raise
    { code := evMemUncorr, part := p, unit := unit24 t (uiPch x.1), cause := caMemPoison,
      payload := leBytes 1 x.2.1 ++ leBytes 2 x.2.2.1 }

/-- A corrected sector (R281): counted, and noted for its pseudo-channel (R286). -/
def Dev.corrected (d : Dev) (t off : Nat) (sector : Bool) : Dev :=
  let x := (d.stack t).placeOf sector off
  (d.modStack t (fun k =>
    { k with shaky := (k.shaky.filter (fun e => decide (d.aoOf t ≤ e.2 + shakyWindow))) ++ [(x.1, d.aoOf t)] })).count
      (unit24 t uiStackCtl) 0 1

/-- What a sector with three or more bad bytes reads as (R280). -/
def silentAt (e : Env) (t so : Nat) : Option Bytes := (e.silent.find? (fun z => z.1 == t && z.2.1 == so)).map (·.2.2)

/-- The bytes that a sector of a stack delivers, from offset `off` on. -/
def Dev.deliver64 (d : Dev) (e : Env) (t off n : Nat) : Bytes :=
  match silentAt e t (off / 64 * 64) with
  | some b => (List.range n).map (fun i => b.getD (off % 64 + i) 0)
  | none => mread d.mem (stackKey t off) n

/-- A sector is rewritten as it was delivered: a correction (R281), or the merge of a partial write (R238). -/
def Dev.rewrite (d : Dev) (e : Env) (t off : Nat) : Dev :=
  match silentAt e t (off / 64 * 64) with
  | some _ => d.setMem (mwrite d.mem (stackKey t (off / 64 * 64)) (d.deliver64 e t (off / 64 * 64) 64))
  | none => d

/-- A read of part of a sector that its controller corrects or takes for good. -/
def Dev.settleSector (d : Dev) (e : Env) (t off : Nat) (sector : Bool) : Dev :=
  if e.corrected.contains (t, off / 64 * 64) then (d.rewrite e t off).corrected t off sector else d

/-- What a read gave: the bytes, the ranges (offset, length) under a poison or tier mark, whose bytes nothing looks at,
and what went wrong. -/
structure Rd where
  bytes : Bytes
  bad : List (Nat × Nat) := []
  marks : Marks := {}
  deriving DecidableEq, Repr

/-- The run [a, a + n) cut at 64 B boundaries. -/
def sectors : Nat → Nat → Nat → List (Nat × Nat)
  | 0, _, _ => []
  | fuel + 1, a, n =>
    if n = 0 then []
    else
      let m := min n (64 - a % 64)
      (a, m) :: sectors fuel (a + m) (n - m)

def sectorsOf (a n : Nat) : List (Nat × Nat) := sectors (n / 64 + 2) a n

/-- The event of a failed or late crock access (R311). -/
def Dev.crockEvent (d : Dev) (p a st : Nat) : Dev :=
  (d.setCrock { d.crock with due := d.crock.due.filter (fun e => e.1 / 64 != a / 64) }).raise
    { code := evCrockAccess, part := p, unit := unit24 (dieIod (crockPort a)) uiCrock, payload := leBytes 8 a ++ leBytes 2 st }

/-- How a crock access of partition `p` ends (R309, R310, R449): `none` where it succeeds. -/
def Dev.crockOutcome (d : Dev) (p : Nat) (e : Env) (a : Nat) : Option Nat :=
  if d.cupShut p (36 + crockPort a) then some stTimeLimit
  else if (d.cport (crockPort a)).st ≠ 2 ∨ e.crockFailed then some stTierError
  else if e.crockLate then some stTierTimeout
  else (d.crock.due.find? (fun z => z.1 / 64 == a / 64)).map (·.2)

/-- Read a piece of one sector. -/
def Dev.readPiece (d : Dev) (p : Nat) (e : Env) (a n : Nat) : Rd × Dev :=
  match d.locate p a with
  | .none => ({ bytes := repByte n 0, bad := [(0, n)], marks := .cause caRange }, d)
  | .zero _ => ({ bytes := repByte n 0 }, d)
  | .stack t off sector =>
    let so := off / 64 * 64
    if d.stackOut t then ({ bytes := repByte n 0, bad := [(0, n)], marks := .cause caMemPoison }, d)
    else if (d.stack t).bad off then ({ bytes := repByte n 0, bad := [(0, n)], marks := .cause caMemPoison }, d)
    else if e.uncorrectable.contains (t, so) then
      ({ bytes := repByte n 0, bad := [(0, n)], marks := .cause caMemPoison }, d.uncorrectable p t off sector)
    else
      ({ bytes := d.deliver64 e t off n }, d.settleSector e t off sector)
  | .crock c =>
    match d.crockOutcome p e c with
    | some st => ({ bytes := repByte n 0, bad := [(0, n)], marks := .fail st },
                  if st = stTimeLimit then d else d.crockEvent p c st)
    | none => ({ bytes := mread d.mem (crockKey c) n }, d)

/-- Accessed marks of the pages that a run touches (R302): a second access within the aging period makes a CROCK page
due for promotion. -/
def Tier.touch (x : Tier) (a n : Nat) : Tier :=
  match x.pageOf a with
  | none => x
  | some lo =>
    (List.range ((a - x.base + n - 1) / pageBytes + 1 - lo)).foldl (fun (x : Tier) i =>
      let pg := lo + i
      { x with accessed := insertSorted pg x.accessed,
               twice := if x.accessed.contains pg then insertSorted pg x.twice else x.twice }) x

/-- The tier of a partition notes an access. -/
def Dev.touch (d : Dev) (p a n : Nat) : Dev :=
  match d.part p with
  | some x => if x.tier.pages = 0 ∨ n = 0 then d
              else if (x.tier.pageOf a).isNone then d
              else d.putPart p { x with tier := x.tier.touch a n }
  | none => d

/-- The cups that a run of sectors is charged to: memory on its stack, crock on its port (R279, R298, R442). -/
def Dev.chargeRun (d : Dev) (p a n : Nat) : Dev :=
  (sectorsOf a n).foldl (fun d s =>
    match d.locate p s.1 with
    | .stack t _ _ => d.charge p t t 1
    | .crock c => d.charge p (dieIod (crockPort c)) (36 + crockPort c) 1
    | _ => d) d

/-- Join the reads of two runs, the second at offset `k`. -/
def Rd.append (x y : Rd) : Rd :=
  { bytes := x.bytes ++ y.bytes, bad := x.bad ++ y.bad.map (fun b => (b.1 + x.bytes.length, b.2)),
    marks := x.marks.join y.marks }

/-- Read `n` bytes of partition `p` from address `a`. -/
def Dev.read (d : Dev) (p : Nat) (e : Env) (a n : Nat) : Rd × Dev :=
  (sectorsOf a n).foldl (fun (acc : Rd × Dev) s =>
    let r := acc.2.readPiece p e s.1 s.2
    (acc.1.append r.1, r.2)) ({ bytes := [] }, (d.touch p a n).chargeRun p a n)

/-! Fill mode (R285). -/

/-- Remove every poison entry that lies wholly in [lo, hi) of a stack (R283, R285). -/
def Stack.clearPoison (x : Stack) (lo hi : Nat) : Stack :=
  { x with poison := x.poison.filter (fun e => !(decide (lo ≤ e.addr) && decide (e.addr + 2 ^ e.log2 ≤ hi))),
           repairPoison := x.repairPoison.filter (fun o => !(decide (lo ≤ o) && decide (o + 256 ≤ hi))) }

/-- Fill [lo, hi) of a stack: what the fill leaves is what an unlisted byte reads as. -/
def Dev.fillStack (d : Dev) (t lo hi : Nat) : Dev :=
  if d.stackOut t then d
  else (d.modStack t (fun x => x.clearPoison lo hi)).setMem (mclear d.mem (stackKey t lo) (stackKey t hi))

/-- The stack rows of one granule run: the granules of [r, r + n) of a region, as (stack, from, to). -/
def Region.granules (g : Region) (r n : Nat) : List (Nat × Nat × Nat) :=
  let gs := if g.sector then 256 else 2048
  (List.range (ceilDiv (r % gs + n) gs)).map (fun i =>
    let a := max r (r / gs * gs + i * gs)
    let b := min (r + n) (r / gs * gs + (i + 1) * gs)
    let w := g.place a
    (w.1, w.2, w.2 + (b - a)))

/-- Fill a tier frame (R300). -/
def Dev.fillFrame (d : Dev) (x : Tier) (frame : Nat) : Dev :=
  match kfind d.regions x.region with
  | some g => (g.granules (frame * pageBytes) pageBytes).foldl (fun d w => d.fillStack w.1 w.2.1 w.2.2) d
  | none => d

/-! Writes. -/

/-- Write a piece of one sector of a stack (R283): a whole sector clears its 64 B entry; a part of a poisoned sector is
dropped. -/
def Dev.writeStack (d : Dev) (p : Nat) (e : Env) (t off : Nat) (sector : Bool) (bs : Bytes) : Marks × Dev :=
  let n := bs.length
  let so := off / 64 * 64
  if d.stackOut t then (.cause caMemPoison, d)
  else if off % 64 = 0 ∧ n = 64 then
    ({}, (d.modStack t (fun x => { x with poison := x.poison.filter (fun y => !(y.log2 == 6 && y.addr == so)) })).setMem
      (mwrite d.mem (stackKey t off) bs))
  else if (d.stack t).bad off then (.cause caMemPoison, d)
  else if e.uncorrectable.contains (t, so) then (.cause caMemPoison, d.uncorrectable p t off sector)
  else
    let d1 := (if e.corrected.contains (t, so) then d.corrected t off sector else d).rewrite e t off
    ({}, d1.setMem (mwrite d1.mem (stackKey t off) bs))

/-- Write to the crock (R300, R311). -/
def Dev.writeCrock (d : Dev) (p : Nat) (e : Env) (c : Nat) (bs : Bytes) : Marks × Dev :=
  match d.crockOutcome p e c with
  | some st => (.fail st, if st = stTimeLimit then d else d.crockEvent p c st)
  | none => ({}, d.setMem (mwrite d.mem (crockKey c) bs))

end Sys2Proof.Machine
end

