-- ==== Sys2Proof/Machine/Tiering.lean ====
section
/-!
DEFINITION. The tier engine's moves of pages between tier frames and crock frames (R300 to R304, R308), which writes to the
tiered range need: chunks, the sweep, the end of a migration, and the frame of a ZERO page.
-/

namespace Sys2Proof.Machine

def Tier.moving (x : Tier) : Bool :=
  x.page.any (fun e => match e.2 with
    | .moving _ _ _ _ => true
    | _ => false)

/-- A migration is in flight: the engine moves one page at a time (R302). -/
def Dev.tierBusy (d : Dev) : Bool := d.parts.any (fun e => e.2.tier.moving)

def Dev.modTier (d : Dev) (p : Nat) (g : Tier → Tier) : Dev := d.modPart p (fun x => { x with tier := g x.tier })

/-- A tier frame holds a sector entered in the poison table (R304). -/
def Dev.framePoisoned (d : Dev) (t : Tier) (f : Nat) : Bool :=
  match kfind d.regions t.region with
  | none => false
  | some g =>
    (g.granules (f * pageBytes) pageBytes).any (fun w =>
      let x := d.stack w.1
      x.poison.any (fun e => decide (e.addr < w.2.2) && decide (w.2.1 < e.addr + 2 ^ e.log2))
        || x.repairPoison.any (fun o => decide (w.2.1 ≤ o) && decide (o < w.2.2)))

/-- A STACK page may be demoted (R302, R304, R306). -/
def Dev.demotable (d : Dev) (t : Tier) (pg f : Nat) : Bool :=
  !t.pinned.contains pg && !t.window.contains pg && !d.framePoisoned t f

/-- The STACK pages and their frames in sweep order from the rotating pointer, twice over (R302). -/
def Tier.sweepOrder (t : Tier) : List (Nat × Nat) :=
  let l := t.page.filterMap (fun e => match e.2 with
    | .stack f => some (e.1, f)
    | _ => none)
  let r := l.filter (fun e => decide (t.pointer ≤ e.1)) ++ l.filter (fun e => decide (e.1 < t.pointer))
  r ++ r

/-- The sweep (R302): marks are cleared on the way; the first unmarked demotable page is the victim. -/
def Dev.sweepTier (d : Dev) (t : Tier) : Tier × Option (Nat × Nat) :=
  t.sweepOrder.foldl (fun (acc : Tier × Option (Nat × Nat)) e =>
    match acc.2 with
    | some _ => acc
    | none =>
      if acc.1.accessed.contains e.1 then ({ acc.1 with accessed := acc.1.accessed.filter (· != e.1) }, none)
      else if d.demotable t e.1 e.2 then ({ acc.1 with pointer := e.1 + 1 }, some e)
      else acc) (t, none)

/-- A migration is abandoned: the page keeps its source state (R303). Where the write of a demotion failed (`wr`), the crock frame is
bad and is replaced from the device spare (R308). -/
def Dev.abandon (d : Dev) (p pg : Nat) (wr : Bool) : Dev :=
  match d.part p with
  | none => d
  | some x =>
    let t := x.tier
    match t.st pg with
    | .moving tf cf promote _ =>
      let fail (d : Dev) : Dev := d.raise { code := evMigrateFail, part := p, unit := unitPart p,
                                            payload := leBytes 8 (t.base + pg * pageBytes) }
      if promote then
        fail (d.putPart p { x with tier := { t with page := kset t.page pg (.crock cf), frames := t.frames ++ [tf] } })
      else if !wr then
        fail (d.putPart p { x with tier := { t with page := kset t.page pg (.stack tf), cframes := t.cframes ++ [cf] } })
      else
        let t1 := { t with page := kset t.page pg (.stack tf) }
        match d.crock.spare with
        | sf :: rest =>
          fail ((d.putPart p { x with tier := { t1 with cframes := t1.cframes ++ [sf] } }).setCrock
            { d.crock with spare := rest, bad := insertSorted cf d.crock.bad })
        | [] =>
          let d1 := fail ((d.putPart p { x with tier := { t1 with c := t1.c - 1 } }).setCrock
            { d.crock with bad := insertSorted cf d.crock.bad })
          d1.raise { code := evSpareEmpty, part := p, unit := unitPart p }
    | _ => d

/-- A write that holds the whole of a piece of a stack clears the piece's repair mark (R291). A chunk starts every piece at
its first sector. -/
def Dev.clearPiece (d : Dev) (t o : Nat) : Dev :=
  if o % 256 = 0 ∧ (d.stack t).repairPoison.contains o ∧ !d.stackOut t then
    d.modStack t (fun x => { x with repairPoison := x.repairPoison.filter (· != o) })
  else d

/-- Bytes of a tier frame's chunk, and whether none of them is poison. -/
def Dev.frameBytes (d : Dev) (t : Tier) (f off n : Nat) : Bytes × Bool :=
  (sectorsOf off n).foldl (fun (acc : Bytes × Bool) s =>
    match d.frameLoc t f s.1 with
    | .stack k o _ => (acc.1 ++ mread d.mem (stackKey k o) s.2, acc.2 && !d.stackOut k && !(d.stack k).bad o)
    | _ => (acc.1 ++ repByte s.2 0, false)) ([], true)

/-- Store a chunk into a tier frame: whole pieces clear their repair marks. -/
def Dev.putFrame (d : Dev) (p : Nat) (t : Tier) (f off : Nat) (b : Bytes) : Marks × Dev :=
  (sectorsOf off b.length).foldl (fun (acc : Marks × Dev) s =>
    match acc.2.frameLoc t f s.1 with
    | .stack k o sec => let r := (acc.2.clearPiece k o).writeStack p Env.clean k o sec (slice b (s.1 - off) s.2)
                        (acc.1.join r.1, r.2)
    | _ => (acc.1.join (.cause caRange), acc.2)) ({}, d)

/-- All four ports are up: a chunk touches each (R297). -/
def Dev.crockUp (d : Dev) : Bool := (List.range 4).all (fun i => (d.cport i).st == 2)

/-- A run of the crock, and a write of one: the granules lie on the ports in turn (R297). -/
def crockGet (m : Mem) (c n : Nat) : Bytes := (sectorsOf c n).flatMap (fun s => mread m (crockKey s.1) s.2)
def crockPut (m : Mem) (c : Nat) (b : Bytes) : Mem :=
  (sectorsOf c b.length).foldl (fun m s => mwrite m (crockKey s.1) (slice b (s.1 - c) s.2)) m

/-- A chunk is charged to the partition's crock cups, a quarter to each port, and to its memory cups (R279, R298). -/
def Dev.chargeChunk (d : Dev) (p : Nat) (t : Tier) (f off : Nat) : Dev :=
  let d1 := (List.range 4).foldl (fun d i => d.charge p (dieIod i) (36 + i) 16) d
  (sectorsOf off 4096).foldl (fun d s =>
    match d.frameLoc t f s.1 with
    | .stack k _ _ => d.charge p k k 1
    | _ => d) d1

/-- The next 4 KiB chunk of a migration is copied; the last commits the page (R303). A page that goes to the crock has lost the
mark of its earlier accesses. -/
def Dev.moveChunk (d : Dev) (p pg : Nat) : Dev :=
  match d.part p with
  | none => d
  | some x =>
    let t := x.tier
    match t.st pg with
    | .moving tf cf promote k =>
      let off := 4096 * k
      let d0 := d.chargeChunk p t tf off
      let r : Marks × Dev :=
        if promote then d0.putFrame p t tf off (crockGet d.mem (cf * pageBytes + off) 4096)
        else
          let b := d.frameBytes t tf off 4096
          if b.2 then ({}, d0.setMem (crockPut d.mem (cf * pageBytes + off) b.1)) else (.cause caMemPoison, d0)
      if !r.1.clear then r.2.abandon p pg false
      else
        r.2.modTier p (fun t =>
          if k + 1 < 512 then { t with page := kset t.page pg (.moving tf cf promote (k + 1)) }
          else if promote then { t with page := kset t.page pg (.stack tf), cframes := t.cframes ++ [cf] }
          else { t with page := kset t.page pg (.crock cf), frames := t.frames ++ [tf] })
    | _ => d

/-- The demotion of a page begins. -/
def Tier.demoting (t : Tier) (pg tf cf : Nat) (rest : List Nat) : Tier :=
  { t with page := kset t.page pg (.moving tf cf false 0), cframes := rest, demote := t.demote.filter (· != pg),
           accessed := t.accessed.filter (· != pg), twice := t.twice.filter (· != pg) }

/-- A migration of the partition to the crock that is under way, or else the sweep's victim on its way. -/
def Dev.outgoing (d : Dev) (p : Nat) (x : Part) : Option (Nat × Dev) :=
  match x.tier.page.find? (fun e => match e.2 with
      | .moving _ _ false _ => true
      | _ => false) with
  | some e => some (e.1, d)
  | none =>
    match x.tier.cframes, d.sweepTier x.tier with
    | cf :: rest, (t1, some (pg, tf)) => some (pg, d.putPart p { x with tier := t1.demoting pg tf cf rest })
    | _, _ => none

/-- A page always has a frame to go to (R307): where a write needs a tier frame and none is free, it waits for a demotion,
which runs to its end here (DESIGN CHOICE, log 96). -/
def Dev.makeRoom (d : Dev) (p : Nat) : Dev :=
  match d.part p with
  | none => d
  | some x =>
    if !x.tier.frames.isEmpty || !d.crockUp then d
    else
      match d.outgoing p x with
      | none => d
      | some z => (List.range 512).foldl (fun d _ => d.moveChunk p z.1) z.2

/-- Pages of a tier that hold data (R308). -/
def Tier.held (x : Tier) : Nat := (x.page.filter (fun e => e.2 != .zero)).length

/-- A ZERO page becomes STACK in a free tier frame written in fill mode (R300); `none` where no frame may be taken (R308), or
none comes free because nothing can be demoted. -/
def Dev.openZero (d : Dev) (p pg : Nat) : Option Dev :=
  match d.part p with
  | none => none
  | some x0 =>
    if x0.tier.f - 8 + x0.tier.c ≤ x0.tier.held then none
    else
      let d1 := d.makeRoom p
      match d1.part p with
      | none => none
      | some x =>
        match x.tier.frames with
        | [] => none
        | f :: fs =>
          let y := { x.tier with frames := fs, page := kset x.tier.page pg (.stack f) }
          some ((d1.putPart p { x with tier := y }).fillFrame y f)

end Sys2Proof.Machine
end

