-- ==== Sys2Proof/Machine/Access.lean ====
section
/-!
DEFINITION. Reads and writes of runs of bytes by a partition's addresses (R238, R274 to R311), and of the stockpot.
-/

namespace Sys2Proof.Machine

/-- A write of whole 256 B pieces clears their repair marks (R291). -/
def Dev.clearPieces (d : Dev) (p a n : Nat) : Dev :=
  let lo := ceilDiv a 256
  (List.range ((a + n) / 256 - lo)).foldl (fun d i =>
    match d.locate p (256 * (lo + i)) with
    | .stack t off _ => d.clearPiece t off
    | _ => d) d

/-- The page and the place of the other frame that a write reaches as well: its chunk of a MOVING page is copied (R303). -/
def Dev.secondAt (d : Dev) (p a : Nat) : Option (Nat × Loc) :=
  match d.part p with
  | none => none
  | some x =>
    match x.tier.pageOf a with
    | none => none
    | some pg =>
      let off := (a - x.tier.base) % pageBytes
      match x.tier.st pg with
      | .moving tf cf promote chunk =>
        if off / 4096 < chunk then some (pg, if promote then d.frameLoc x.tier tf off else .crock (cf * pageBytes + off))
        else none
      | _ => none

/-- Write a piece of one sector to a frame. -/
def Dev.writeAt (d : Dev) (p : Nat) (e : Env) (l : Loc) (bs : Bytes) : Marks × Dev :=
  match l with
  | .stack t off sector => d.writeStack p e t off sector bs
  | .crock c => d.writeCrock p e c bs
  | _ => (.cause caRange, d)

/-- A piece of one sector goes to where it is read from, and to the other frame of a MOVING page. A write that fails there
abandons the migration (R303, R308). -/
def Dev.writeBoth (d : Dev) (p : Nat) (e : Env) (a : Nat) (l : Loc) (bs : Bytes) : Marks × Dev :=
  let r := d.writeAt p e l bs
  match d.secondAt p a with
  | none => r
  | some (pg, m) =>
    let q := r.2.writeAt p e m bs
    if r.1.clear && q.1.clear then q
    else
      (r.1.join q.1, q.2.abandon p pg (!q.1.clear && (match m with
        | .crock _ => true
        | _ => false)))

/-- Write a piece of one sector. -/
def Dev.writePiece (d : Dev) (p : Nat) (e : Env) (a : Nat) (bs : Bytes) : Marks × Dev :=
  match d.locate p a with
  | .zero pg =>
    (match d.openZero p pg with
     | none => (.fail stTierError, d)
     | some d1 =>
       match d1.locate p a with
       | .stack t off sector => d1.writeStack p e t off sector bs
       | _ => (.fail stTierError, d1))
  | l => d.writeBoth p e a l bs

/-- Write bytes of partition `p` from address `a`, already charged. -/
def Dev.store (d : Dev) (p : Nat) (e : Env) (a : Nat) (bs : Bytes) : Marks × Dev :=
  (sectorsOf a bs.length).foldl (fun (acc : Marks × Dev) s =>
    let r := acc.2.writePiece p e s.1 (slice bs (s.1 - a) s.2)
    (acc.1.join r.1, r.2)) ({}, (d.touch p a bs.length).clearPieces p a bs.length)

/-- What a written sector is charged to, with its units: a part of a sector of a stack costs a read as well (R238, R279), and the
other frame of a MOVING page is charged too (R298). -/
def Dev.writeCharges (d : Dev) (p : Nat) (s : Nat × Nat) : List (Nat × Nat × Nat) :=
  let at_ (l : Loc) : List (Nat × Nat × Nat) := match l with
    | .stack t _ _ => [(t, t, if s.2 < 64 then 2 else 1)]
    | .crock c => [(dieIod (crockPort c), 36 + crockPort c, 1)]
    | _ => []
  at_ (d.locate p s.1) ++ (match d.secondAt p s.1 with
    | some z => at_ z.2
    | none => [])

/-- The cups that a written run is charged to. -/
def Dev.chargeWrite (d : Dev) (p a n : Nat) : Dev :=
  (sectorsOf a n).foldl (fun d s => (d.writeCharges p s).foldl (fun d z => d.charge p z.1 z.2.1 z.2.2) d) d

/-- Write bytes of partition `p` from address `a`. -/
def Dev.write (d : Dev) (p : Nat) (e : Env) (a : Nat) (bs : Bytes) : Marks × Dev :=
  (d.chargeWrite p a bs.length).store p e a bs

/-- Land bytes from the fabric: charged without waiting (R429, R448). -/
def Dev.landBytes (d : Dev) (p : Nat) (e : Env) (a : Nat) (bs : Bytes) : Marks × Dev :=
  ((sectorsOf a bs.length).foldl (fun d s => (d.writeCharges p s).foldl (fun d z => d.chargeNow p z.1 z.2.1 z.2.2) d) d).store
    p e a bs

/-- A sector of a stack is marked poisoned: in the repair poison map where its piece has moved (R282, R291). -/
def Dev.poisonSector (d : Dev) (t off : Nat) (sector : Bool) : Dev :=
  d.modStack t (fun x =>
    if x.moved sector off then { x with repairPoison := insertSorted (off / 256 * 256) x.repairPoison }
    else { x with poison := poisonAdd x.poison (off / 64 * 64) })

/-- Mark the sectors of [a, a + n) poisoned (R282, R388, R428, R471). A ZERO page becomes STACK first (R300). -/
def Dev.poisonRange (d : Dev) (p a n : Nat) : Dev :=
  (sectorsOf a n).foldl (fun d s =>
    match d.locate p s.1 with
    | .stack t off sector => d.poisonSector t off sector
    | .zero pg =>
      (match d.openZero p pg with
       | some d1 => (match d1.locate p s.1 with
                     | .stack t off sector => d1.poisonSector t off sector
                     | _ => d1)
       | none => d)
    | _ => d) d

/-- A little-endian word of device memory. -/
def Dev.readNat (d : Dev) (p : Nat) (e : Env) (a n : Nat) : Nat × Marks × Dev :=
  let r := d.read p e a n
  (leNat r.1.bytes, r.1.marks, r.2)

/-! The stockpot (R330, R365). -/

/-- The extents of a partition's share on a skillet, as (base, bytes): more than one after a hand-over (R514). -/
def Part.share (x : Part) (s : Nat) : List (Nat × Nat) :=
  (x.pot.filter (fun e => e.1 == s)).map (fun e => (e.2.1 * 1048576, e.2.2 * 1048576))

/-- The run [off, off + n) of a chain of extents, as (base, bytes) pieces. -/
def inExtents : List (Nat × Nat) → Nat → Nat → List (Nat × Nat)
  | [], _, _ => []
  | (b, m) :: l, off, n =>
    if n = 0 then []
    else if off < m then (b + off, min n (m - off)) :: inExtents l 0 (n - min n (m - off))
    else inExtents l (off - m) n

/-- The bytes of a partition's share on a skillet. -/
def Part.potSize (x : Part) (s : Nat) : Nat := ((x.share s).map (·.2)).foldl (· + ·) 0

/-- Remove [lo, hi) from a list of ranges. -/
def cutRanges (l : List (Nat × Nat)) (lo hi : Nat) : List (Nat × Nat) :=
  l.flatMap (fun r =>
    (if r.1 < min r.2 lo then [(r.1, min r.2 lo)] else []) ++ (if max r.1 hi < r.2 then [(max r.1 hi, r.2)] else []))

def inRanges (l : List (Nat × Nat)) (k : Nat) : Bool := l.any (fun r => decide (r.1 ≤ k) && decide (k < r.2))

/-- Read stockpot bytes by key (R471): a poisoned word reads back as poison. -/
def Dev.potRead (d : Dev) (key n : Nat) : Rd :=
  let bad := (List.range (n / 8 + 2)).filterMap (fun i =>
    let w := key / 8 * 8 + 8 * i
    let lo := max key w
    let hi := min (key + n) (w + 8)
    if lo < hi ∧ inRanges d.potBad w then some (lo - key, hi - lo) else none)
  { bytes := mread d.mem key n, bad := bad, marks := if bad.isEmpty then {} else .cause caSramEcc }

/-- Write stockpot bytes: a whole word of good data clears its poison (R471); a part of a poisoned word is dropped with
it. -/
def Dev.potWrite (d : Dev) (key : Nat) (bs : Bytes) : Dev :=
  let lo := ceilDiv key 8 * 8
  let hi := (key + bs.length) / 8 * 8
  (d.setPotBad (if lo < hi then cutRanges d.potBad lo hi else d.potBad)).setMem (mwrite d.mem key bs)

/-- Read `n` bytes of a partition's stockpot share from an offset (R95: all of it must lie in the share). -/
def Dev.potGet (d : Dev) (x : Part) (s off n : Nat) : Rd :=
  let l := inExtents (x.share s) off n
  let r := l.foldl (fun (a : Rd) e => a.append (d.potRead (potKeyAt s e.1) e.2)) { bytes := [] }
  if r.bytes.length = n then r else { bytes := repByte n 0, bad := [(0, n)], marks := .cause caRange }

/-- Write to a partition's stockpot share from an offset. -/
def Dev.potPut (d : Dev) (x : Part) (s off : Nat) (bs : Bytes) : Marks × Dev :=
  if x.potSize s < off + bs.length then (.cause caRange, d)
  else
    ({}, ((inExtents (x.share s) off bs.length).foldl (fun (a : Dev × Bytes) e =>
      (a.1.potWrite (potKeyAt s e.1) (a.2.take e.2), a.2.drop e.2)) (d, bs)).1)

/-- Mark the words of a key range poisoned. -/
def Dev.potPoison (d : Dev) (key n : Nat) : Dev :=
  if n = 0 then d else d.setPotBad (d.potBad ++ [(key / 8 * 8, ceilDiv (key + n) 8 * 8)])

end Sys2Proof.Machine
end

