-- ==== Sys2Proof/Machine/Queues.lean ====
section
/-!
DEFINITION. Queue pairs: doorbells, fetching, the life of a fetched command, completions and their release, FENCE, and
the queue-pair commands (R339 to R356, R377, R549, R572).
-/

namespace Sys2Proof.Machine

/-! One fetched command. -/

/-- The descriptor's fields (R347). -/
def Cmd.op (c : Cmd) : Nat := byteAt c.desc 0
def Cmd.tag (c : Cmd) : Nat := field c.desc 4 4
def Cmd.opflags (c : Cmd) : Nat := byteAt c.desc 2
def Cmd.f (c : Cmd) (off n : Nat) : Nat := field c.desc off n

def Dev.cmd (d : Dev) (r : CmdRef) : Option Cmd := (d.qp r.f r.q).bind (fun x => x.cmds.find? (fun c => c.k == r.k))

def Dev.modCmd (d : Dev) (r : CmdRef) (g : Cmd → Cmd) : Dev :=
  d.modQp r.f r.q (fun x => { x with cmds := x.cmds.map (fun c => if c.k = r.k then g c else c) })

/-- The current count of each die of a list (R467). -/
def Dev.stamps (d : Dev) (dies : List Nat) : List (Nat × Nat) := dies.map (fun x => (x, d.aoOf x + 1))

/-- A command ends with `st`, unless its marks say worse (R375). -/
def Dev.finish (d : Dev) (r : CmdRef) (st : Nat) (r0 : Nat := 0) (r1 : Nat := 0) (detail : Nat := 0)
    (dies : List Nat := []) : Dev :=
  d.modCmd r (fun c =>
    let z := c.marks.final st
    { c with phase := .ended, status := z.1, detail := if z.1 = stPoisoned then z.2 else detail,
             result0 := if z.1 = st then r0 else 0, result1 := if z.1 = st then r1 else 0,
             dies := c.dies ++ d.stamps dies })

/-- A command collects marks. -/
def Dev.mark (d : Dev) (r : CmdRef) (m : Marks) : Dev := d.modCmd r (fun c => { c with marks := c.marks.join m })

/-- Opcodes of R355 by ring. -/
def opAdmin : List Nat := [1, 2, 3, 4, 5, 6, 7, 0x10, 0x11, 0x12, 0x13, 0x14, 0x30, 0x31]
def opIo : List Nat := [0x20, 0x21, 0x22, 0x23, 0x24, 0x25, 0x26, 0x27, 0x28, 0x29, 0x2A, 0x2B, 0x2C, 0x30, 0x31]
/-- Admin opcodes of the physical function alone. -/
def opPfAdmin : List Nat := [4, 5, 6, 7, 0x10, 0x11, 0x12, 0x13, 0x14]
/-- What the physical function's I/O pairs permit (R354). -/
def opPfIo : List Nat := [0x29, 0x2A, 0x2B, 0x30, 0x31]

/-- Why a command is turned away by R354 or R338, if it is. -/
def Dev.rejectStatus (d : Dev) (r : CmdRef) (c : Cmd) : Option Nat :=
  if r.q = 0 then
    if !opAdmin.contains c.op then some stInvalidOpcode
    else if r.f ≠ 0 ∧ opPfAdmin.contains c.op then some stNotPermitted
    else if r.f ≠ 0 ∧ (d.part r.f).isNone ∧ c.op ≠ 0x30 then some stNoPartition
    else none
  else if !opIo.contains c.op then some stInvalidOpcode
  else if r.f = 0 ∧ !opPfIo.contains c.op then some stNotPermitted
  else if r.f ≠ 0 ∧ (d.part r.f).isNone then some stNoPartition
  else none

/-- A FENCE or a WAIT (R350). -/
def Cmd.barrier (c : Cmd) : Bool := c.op == 0x29 || c.op == 0x2B

/-- No FENCE or WAIT fetched before ordinal `k` is still there (R350 to R352). -/
def Qp.depsMet (x : Qp) (k : Nat) : Bool := !x.cmds.any (fun c => decide (c.k < k) && c.barrier)

/-- Every command fetched before `k` has completed (R351, R353). -/
def Qp.earlierDone (x : Qp) (k : Nat) : Bool := !x.cmds.any (fun c => decide (c.k < k))

/-- The partition of a function is suspended, or in reclaim (R332, R334). -/
def Dev.halted (d : Dev) (f : Nat) : Bool :=
  match d.part f with
  | some p => p.suspended || p.reclaim != .none
  | none => false

/-- The command of a reference, when it may start: fetched, not started, its dependences met, its partition neither
suspended nor in reclaim (R332, R334, R350). -/
def Dev.startable (d : Dev) (r : CmdRef) : Option Cmd :=
  match d.qp r.f r.q, d.cmd r with
  | some x, some c => if c.phase = .waiting ∧ x.depsMet r.k ∧ !d.halted r.f then some c else none
  | _, _ => none

/-- Run the body of an opcode's row on a command that may start. R354's refusals by function, ring and partition come before
R571's INVALID_FIELD: the spec does not order the two (DESIGN CHOICE, log 94). -/
def Dev.withCmd (d : Dev) (r : CmdRef) (op : Nat) (body : Cmd → Dev) : Dev :=
  match d.startable r with
  | some c =>
    if c.op = op then
      match d.rejectStatus r c with
      | some st => d.finish r st
      | none => body c
    else d
  | none => d

/-- A started command of an opcode that has not ended. -/
def Dev.runningCmd (d : Dev) (r : CmdRef) (op : Nat) : Option Cmd :=
  match d.cmd r with
  | some c => if c.phase = .running ∧ c.op = op then some c else none
  | none => none

/-- The reserved parts of the header (R347, R14): `opf` is the mask of OPFLAGS bits that the command defines, `used`
the body bytes it defines, as (offset, length). -/
def hdrOk (desc : Bytes) (opf : Nat) (used : List (Nat × Nat)) : Bool :=
  byteAt desc 1 < 2 && byteAt desc 2 &&& opf == byteAt desc 2 && byteAt desc 3 == 0 &&
  (List.range 56).all (fun i =>
    let o := 8 + i
    used.any (fun u => decide (u.1 ≤ o) && decide (o < u.1 + u.2)) || byteAt desc o == 0)

/-! Posting (R345, R348). -/

/-- The 32 bytes of a completion entry. -/
def entryBytes (r0 tag st sqHead stamp r1 detail flags : Nat) : Bytes :=
  leBytes 8 r0 ++ leBytes 4 tag ++ leBytes 2 st ++ leBytes 2 sqHead ++ leBytes 8 stamp ++ leBytes 4 r1
    ++ leBytes 2 detail ++ leBytes 2 flags

/-- Entries posted that the host has not consumed. -/
def Qp.posted (x : Qp) : Nat := (x.cqTail + x.cqSize - x.cqHead) % x.cqSize

/-- Completion slots reserved or full (R344). -/
def Qp.load (x : Qp) : Nat := x.cmds.length + x.posted

/-- Post an entry on a pair: the write, the tail, the phase and the interrupt line (R345, R392). In safe stop every
entry carries POISONED with cause UNIT_FENCED (R474). -/
def Dev.post (d : Dev) (f q : Nat) (r0 tag st r1 detail : Nat) (flags : Nat) (noInt : Bool) : Dev :=
  match d.qp f q with
  | none => d
  | some x =>
    if x.err || x.discard then d
    else
      let st' := if d.saf.safeStop then stPoisoned else st
      let det := if d.saf.safeStop then caFenced else detail
      let fl := flags + 32768 * b2n x.phase
      let b := entryBytes r0 tag st' x.sqHead (d.stamp (x.num % 2)) r1 det fl
      let tail := (x.cqTail + 1) % x.cqSize
      let d1 := (d.putQp f q { x with cqTail := tail, phase := if tail = 0 then !x.phase else x.phase }).emitOut
        (.hostWrite (x.cqBase + 32 * x.cqTail) b)
      if noInt then d1 else d1.setLine f (q + 1) true

/-- The pair is ready to go: nothing fetched is left, and its deletion or its function's reset has been asked for. -/
def Dev.dropPair (d : Dev) (f q : Nat) : Dev :=
  (d.setQps (kdel d.qps (qpKey f q))).setLine f (q + 1) false

/-- Remove a completed command; a pair that only waited for it goes too. -/
def Dev.retireCmd (d : Dev) (r : CmdRef) (c : Cmd) : Dev :=
  let d1 := d.modQp r.f r.q (fun x =>
    let sig := c.op == 0x2A
    { x with cmds := x.cmds.filter (fun y => y.k != r.k),
             sigFrom := if sig then r.k + 1 else x.sigFrom,
             done := if sig then x.done.filter (fun z => decide (r.k < z.1)) else x.done ++ [(r.k, c.status)] })
  match d1.qp r.f r.q with
  | some x =>
    if x.discard ∧ x.fetchStopped ∧ x.cmds.isEmpty then
      let d2 := d1.dropPair r.f r.q
      if r.q = 0 ∧ !(d2.fn r.f).en then d2.modFn r.f (fun v => { v with ready := false }) else d2
    else d1
  | none => d1

/-- Last writes that a clean mark will not pass (R467): the mark of the die stands still before them. The command that
releases is the event of the other marks having passed, log 24. -/
def Dev.stuck (d : Dev) (l : List (Nat × Nat)) : Bool :=
  l.any (fun x => decide (kget d.saf.clean x.1 0 < x.2) && d.saf.railBad.contains x.1)

/-- A result may be released: no write of it is stuck, or it reports no success. -/
def Dev.cleared (d : Dev) (c : Cmd) : Bool := !d.stuck c.dies || c.status == stPoisoned

/-- COMPLETION_RELEASE on the device (R467, R345). -/
def Dev.release (d : Dev) (r : CmdRef) : Dev :=
  match d.cmd r with
  | some c =>
    if c.phase = .ended ∧ c.await.isEmpty ∧ c.tags.isEmpty ∧ d.cleared c then
      (d.post r.f r.q c.result0 c.tag c.status c.result1 c.detail 0 (bit (byteAt c.desc 1) 0)).retireCmd r
        (if d.saf.safeStop then { c with status := stPoisoned } else c)
    else d
  | none => d

/-- COMPLETION_RELEASE (R467). -/
def execCompletionRelease (r : CmdRef) (s : State) : Host.Outcome State Fault Refusal :=
  .next (s.onDev (fun d => d.release r))

/-! Errors, doorbells and fetching. -/

/-- A pair enters its error state (R343): cause 0 index value, 1 descriptor read, 2 completion write. -/
def Dev.qpError (d : Dev) (f q cause : Nat) : Dev :=
  match d.qp f q with
  | none => d
  | some x =>
    if x.err then d
    else
      let d1 := d.putQp f q { x with err := true }
      let d2 := if q = 0 then d1.modFn f (fun v => { v with adminErr := true }) else d1
      d2.raise { code := evQpError, part := f, unit := unit24 16 (uiQp x.num), payload := leBytes 1 cause }

/-- The partition ignores doorbells from the quiesce of its reclaim on (R334). -/
def Dev.deaf (d : Dev) (f : Nat) : Bool :=
  match d.part f with
  | some p => p.reclaim != .none
  | none => false

/-- SQ_TAIL on the device (R342, R343). -/
def Dev.sqTail (d : Dev) (f q v : Nat) (word32 : Bool) : Dev :=
  match d.qp f q with
  | none => d
  | some x =>
    if !word32 || d.deaf f || v == x.sqTail then d
    else if x.sqSize ≤ v then d.qpError f q 0
    else d.putQp f q { x with sqTail := v }

/-- SQ_TAIL (R342). -/
def execSqTail (f q v : Nat) (word32 : Bool) (s : State) : Host.Outcome State Fault Refusal :=
  .next (s.onFn f (fun d => d.sqTail f q v word32))

/-- CQ_HEAD on the device (R342, R343, R392). -/
def Dev.cqHead (d : Dev) (f q v : Nat) (word32 : Bool) : Dev :=
  match d.qp f q with
  | none => d
  | some x =>
    if !word32 || d.deaf f || v == x.cqHead then d
    else if x.cqSize ≤ v ∨ x.posted < (v + x.cqSize - x.cqHead) % x.cqSize then d.qpError f q 0
    else
      let d1 := d.putQp f q { x with cqHead := v }
      if v = x.cqTail then d1.setLine f (q + 1) false else d1

/-- CQ_HEAD (R342). -/
def execCqHead (f q v : Nat) (word32 : Bool) (s : State) : Host.Outcome State Fault Refusal :=
  .next (s.onFn f (fun d => d.cqHead f q v word32))

/-- A pair may fetch (R343, R344, R332, R334, R474). -/
def Dev.mayFetch (d : Dev) (f : Nat) (x : Qp) : Bool :=
  !x.err && !x.fetchStopped && !d.saf.safeStop && !d.halted f && x.sqHead != x.sqTail
    && decide (x.cmds.length < 256) && decide (x.load < x.cqSize - 1)

/-- DESCRIPTOR_FETCH on the device (R344). -/
def Dev.fetch (d : Dev) (f q : Nat) (rd : HostRead) : Dev :=
  match d.qp f q with
  | none => d
  | some x =>
    if !d.mayFetch f x then d
    else
      match rd with
      | .ok b =>
        d.putQp f q { x with sqHead := (x.sqHead + 1) % x.sqSize, nextK := x.nextK + 1,
                             cmds := x.cmds ++ [{ k := x.nextK, desc := padTo 64 b }] }
      | _ => d.qpError f q 1

/-- DESCRIPTOR_FETCH (R344). -/
def execDescriptorFetch (f q : Nat) (rd : HostRead) (s : State) : Host.Outcome State Fault Refusal :=
  .next (s.onDev (fun d => d.fetch f q rd))

/-! FENCE (R351). -/

/-- FENCE on the device: it completes when every command fetched before it has. -/
def Dev.fence (d : Dev) (r : CmdRef) : Dev :=
  d.withCmd r 0x29 (fun c =>
    if !hdrOk c.desc 0 [] then d.finish r stInvalidField
    else
      match d.qp r.f r.q with
      | some x => if x.earlierDone r.k then d.finish r stSuccess else d
      | none => d)

/-- FENCE (R351). -/
def execFence (r : CmdRef) (s : State) : Host.Outcome State Fault Refusal := .next (s.onDev (fun d => d.fence r))

/-! Queue-pair commands (R356). -/

/-- The lowest device-wide number from 8 up that no pair holds (R339). -/
def Dev.freeQpNum (d : Dev) : Nat :=
  ((List.range 1016).find? (fun i => !d.qps.any (fun e => !e.2.given && e.2.num == i + 8))).map (· + 8) |>.getD 1024

/-- Pairs of a function that exist. -/
def Dev.pairsOf (d : Dev) (f : Nat) : List (Nat × Qp) :=
  (d.qps.filter (fun e => e.1 / 128 == f)).map (fun e => (e.1 % 128, e.2))

/-- QP_CREATE on the device (R339, R356, R393). -/
def Dev.qpCreate (d : Dev) (r : CmdRef) : Dev :=
  d.withCmd r 0x01 (fun c =>
    let q := c.f 0x08 2
    let sl := byteAt c.desc 0x0A
    let cl := byteAt c.desc 0x0B
    let v := c.f 0x0C 2
    let sb := c.f 0x10 8
    let cb := c.f 0x18 8
    if !hdrOk c.desc 0 [(8, 6), (0x10, 16)] ∨ q = 0 ∨ 127 < q ∨ sl < 6 ∨ 16 < sl ∨ cl < 6 ∨ 16 < cl ∨ 2047 < v
        ∨ sb % 4096 ≠ 0 ∨ cb % 4096 ≠ 0 then d.finish r stInvalidField
    else if (d.qp r.f q).isSome then d.finish r stQpState
    else
      let quota := match d.part r.f with
        | some p => p.qps
        | none => 8
      let above := if r.f = 0 then decide (7 < q) else decide (quota ≤ (d.pairsOf r.f).length)
      if above then d.finish r stQpSpace
      else
        let num := if r.f = 0 then q else d.freeQpNum
        let d1 := d.putQp r.f q { num := num, sqBase := sb, cqBase := cb, sqSize := 2 ^ sl, cqSize := 2 ^ cl }
        (d1.withInt r.f (fun i => (i.setVector (q + 1) v).setEnable (q + 1) true)).finish r stSuccess)

/-- QP_CREATE (R356). -/
def execQpCreate (r : CmdRef) (s : State) : Host.Outcome State Fault Refusal := .next (s.onDev (fun d => d.qpCreate r))

/-- Every fetched command of a pair that has not started ends with ABORTED (R356, R334, R377, R549): the pair, and how
many they were. -/
def Qp.abortWaiting (x : Qp) : Qp × Nat :=
  let n := (x.cmds.filter (fun c => c.phase == .waiting || c.phase == .held)).length
  ({ x with cmds := x.cmds.map (fun c =>
      if c.phase == .waiting || c.phase == .held then { c with phase := .ended, status := stAborted } else c) }, n)

/-- A pair stops: nothing more is fetched, what has not started is aborted, every completion is discarded; commands that
ended are gone (R356, R377, R549). -/
def Qp.shut (x : Qp) : Qp :=
  let y := x.abortWaiting.1
  { y with discard := true, fetchStopped := true, cmds := y.cmds.filter (fun c => c.phase == .running) }

/-- Shut a pair, and remove it when nothing of it still runs. -/
def Dev.shutPair (d : Dev) (f q : Nat) : Dev :=
  match d.qp f q with
  | none => d
  | some x => let y := x.shut
              if y.cmds.isEmpty then d.dropPair f q else d.putQp f q y

/-- QP_DELETE on the device (R356). A first issue flushes the pair; the command ends once nothing of the pair runs. -/
def Dev.qpDelete (d : Dev) (r : CmdRef) : Dev :=
  match d.runningCmd r 0x02 with
  | some c => if (d.qp r.f (c.f 0x08 2)).isNone then d.finish r stSuccess else d
  | none =>
    d.withCmd r 0x02 (fun c =>
      let q := c.f 0x08 2
      if !hdrOk c.desc 0 [(8, 2)] ∨ q = 0 ∨ 127 < q then d.finish r stInvalidField
      else if (d.qp r.f q).isNone then d.finish r stQpState
      else
        let d1 := d.shutPair r.f q
        if (d1.qp r.f q).isNone then d1.finish r stSuccess else d1.modCmd r (fun c => { c with phase := .running }))

/-- QP_DELETE (R356). -/
def execQpDelete (r : CmdRef) (s : State) : Host.Outcome State Fault Refusal := .next (s.onDev (fun d => d.qpDelete r))

/-- QP_FLUSH on the device (R356). -/
def Dev.qpFlush (d : Dev) (r : CmdRef) : Dev :=
  d.withCmd r 0x03 (fun c =>
    let q := c.f 0x08 2
    if !hdrOk c.desc 0 [(8, 2)] ∨ q = 0 ∨ 127 < q then d.finish r stInvalidField
    else
      match d.qp r.f q with
      | none => d.finish r stQpState
      | some x => let y := x.abortWaiting
                  (d.putQp r.f q y.1).finish r stSuccess y.2)

/-- QP_FLUSH (R356). -/
def execQpFlush (r : CmdRef) (s : State) : Host.Outcome State Fault Refusal := .next (s.onDev (fun d => d.qpFlush r))

/-! Function control (R549) and function-level reset (R377, R545). -/

/-- The device accepts the enable bit from device step 13 on (R507), and never in recovery mode (R490). -/
def Dev.up (d : Dev) : Bool := d.trust.step == 13 && !d.trust.recovery

/-- A write of EN (R549). -/
def Dev.setEn (d : Dev) (f : Nat) (en : Bool) : Dev :=
  let v := d.fn f
  if !d.up then d
  else if en then
    if v.en then d
    else if v.sqLog2 = 0 ∨ v.cqLog2 = 0 ∨ v.sqBase = 0 ∨ v.cqBase = 0 then
      d.putFn f { v with cfgErr := true }
    else
      let k := match d.qp f 0 with
        | some x => x.nextK
        | none => 0
      let num := if f = 0 then 0 else match d.qp f 0 with
        | some x => if x.given then d.freeQpNum else x.num
        | none => d.freeQpNum
      (d.putFn f { v with en := true, ready := true, cfgErr := false, adminErr := false }).putQp f 0
        { num := num, sqBase := v.sqBase, cqBase := v.cqBase, sqSize := 2 ^ v.sqLog2, cqSize := 2 ^ v.cqLog2,
          nextK := k, sigFrom := k }
  else if !v.en then d
  else
    let d1 := (d.putFn f { v with en := false }).shutPair f 0
    if (d1.qp f 0).isNone then d1.modFn f (fun v => { v with ready := false }) else d1

/-- CTL_FUNC_CTL_EN (R549). -/
def execCtlFuncCtlEn (f : Nat) (en : Bool) (s : State) : Host.Outcome State Fault Refusal :=
  .next (s.onFn f (fun d => d.setEn f en))

/-- A channel whose owner is reset: the descriptor in progress ends with ABORTED, the ring is empty, and the window's
registers are at reset (R389, R545). -/
def Dev.resetChannel (d : Dev) (c : Nat) : Dev :=
  let x := d.dma c
  let y := { Dma.at c with owner := x.owner, held := x.held }
  match x.xfer with
  | none => d.putDma c y
  | some _ =>
    (d.putDma c y).emitOut (.hostWrite (x.base + 64 * ((x.head + 2 ^ x.log2 - 1) % 2 ^ x.log2) + 0x38)
      (leBytes 2 stAborted ++ leBytes 1 3 ++ leBytes 1 0 ++ leBytes 4 0))

/-- A function-level reset (R377, R396, R545); the view is at reset first, so that no line change sends a message. -/
def Dev.flr (d : Dev) (f : Nat) : Dev :=
  let d1 := (d.pairsOf f).foldl (fun d e => d.shutPair f e.1) (d.putFn f {})
  (List.range 128).foldl (fun d c => if (d.dma c).owner = f ∧ f ≠ 0x1F then d.resetChannel c else d) d1

/-- FUNCTION_LEVEL_RESET (R377). -/
def execFunctionLevelReset (f : Nat) (s : State) : Host.Outcome State Fault Refusal :=
  .next (s.onDev (fun d => if d.fnThere f then d.flr f else d))

/-! Context completions (R346). -/

/-- The partition whose record range holds an index (R315). -/
def Dev.ctxPart (d : Dev) (i : Nat) : Option (Nat × Part) :=
  d.parts.find? (fun e => decide (e.2.recBase ≤ i) && decide (i < e.2.recBase + e.2.recCount))

/-- A context's handle (R315). -/
def Ctx.handle (x : Ctx) (i : Nat) : Nat := x.gen % 4096 * 1048576 + i

/-- Post a context completion (R346, R348). -/
def Dev.postCtx (d : Dev) (f i : Nat) (deferred : Bool) : Dev :=
  let x := d.ctx i
  d.post f x.qp x.step x.tag x.lastStatus (x.handle i) (x.cstate + 256 * x.block) (2 + 4 * b2n deferred) false

/-- A context's completion: posted where a slot is free, else its bit in the deferred bitmap (R346). -/
def Dev.ctxCompletion (d : Dev) (i : Nat) : Dev :=
  match d.ctxPart i with
  | none => d
  | some (f, _) =>
    match d.qp f (d.ctx i).qp with
    | none => d
    | some x =>
      if x.load < x.cqSize - 1 ∧ x.deferred.isEmpty then d.postCtx f i false
      else d.putQp f (d.ctx i).qp { x with deferred := insertSorted i x.deferred }

/-- DEFERRED_COMPLETION on the device (R346). -/
def Dev.postDeferred (d : Dev) (f q : Nat) : Dev :=
  match d.qp f q with
  | none => d
  | some x =>
    match x.deferred with
    | [] => d
    | i :: l =>
      if x.load < x.cqSize - 1 then (d.putQp f q { x with deferred := l }).postCtx f i true else d

/-- DEFERRED_COMPLETION (R346). -/
def execDeferredCompletion (f q : Nat) (s : State) : Host.Outcome State Fault Refusal :=
  .next (s.onDev (fun d => d.postDeferred f q))

end Sys2Proof.Machine
end

