-- ==== Sys2Proof/Machine/Races.lean ====
section
/-!
DEFINITION. Writes that race with the work of runs: what the runs that work meanwhile note of them, and the ring elements that a
command other than a context's own step writes (R142, R168, R184, R226, R262).
-/

namespace Sys2Proof.Machine

/-- The bytes at an address as the memory holds them: no access, no charge. -/
def Dev.peek (d : Dev) (p a n : Nat) : Bytes :=
  (sectorsOf a n).flatMap (fun s =>
    match d.locate p s.1 with
    | .stack t o _ => mread d.mem (stackKey t o) s.2
    | .crock c => mread d.mem (crockKey c) s.2
    | _ => repByte s.2 0)

/-- A step of a context is in flight: its batch has begun it and the last stage has not ended. -/
def Dev.stepFlies (d : Dev) (p i : Nat) : Bool :=
  (d.ctx i).cstate == 3 && (match d.part p with
    | some x => x.batches.any (fun b => b.2.ctxs.contains i && (b.2.running || decide (0 < b.2.point)))
    | none => false)

/-- Elements of the rings of contexts with a step in flight that a write of `n` bytes at `a` reaches (R184): runs of whole
elements. `own` says which contexts the writer steps itself. -/
def Dev.ringHits (d : Dev) (p : Nat) (own : Nat → Bool) (a n : Nat) : List (Nat × Nat) :=
  match d.part p with
  | none => []
  | some x =>
    ((x.batches.flatMap (·.2.ctxs)).eraseDups).filterMap (fun i =>
      let b := d.peek p (d.ctx i).ringPtr 64
      let r := parseRing b
      let base := (d.ctx i).ringPtr + 256
      let lo := max a base
      let hi := min (a + n) (base + (2 ^ r.log2 + r.anchors) * r.slot)
      if own i || !d.stepFlies p i || (d.ctx i).ringPtr == 0 || !ringOk b || decide (hi ≤ lo) then none
      else
        let first := base + (lo - base) / r.es * r.es
        some (first, base + ceilDiv (hi - base) r.es * r.es - first))

/-- A run has written `n` bytes at `a`, or a command that is no run has (none): the runs of the partition that work
meanwhile note it, and ring elements of other contexts' steps hold free values. -/
def Dev.raced (d : Dev) (p : Nat) (by_ : Option Nat) (a n : Nat) : Dev :=
  let live (e : Nat × Run) : Bool := e.2.part == p && !e.2.ended && by_ != some e.1
  let d1 :=
    if n = 0 ∨ !d.runs.any live then d
    else d.setRuns (d.runs.map (fun e =>
      if live e then
        (e.1, { e.2 with foreign := (a, n) :: e.2.foreign
                         late := e.2.cores.map (fun c => (c.core, a, n)) ++ e.2.late })
      else e))
  let own (i : Nat) : Bool := match by_.bind d.run with
    | some x => x.ctxs.contains i
    | none => false
  (d.ringHits p own a n).foldl (fun d r => let f := d.freeBytes r.2; (f.2.store p Env.clean r.1 f.1).2) d1

/-- A write of a partition by a command that is no run, or by a message. -/
def Dev.writeRaced (d : Dev) (p : Nat) (e : Env) (a : Nat) (b : Bytes) : Marks × Dev :=
  let r := d.write p e a b
  (r.1, r.2.raced p none a b.length)

end Sys2Proof.Machine
end

