-- ==== Sys2Proof/Machine/Whisk.lean ====
section
/-!
DEFINITION. Data in motion: the whisk (R239 to R241), the reshuffle maps of the DMA channels (R381 to R384), and moving
runs of bytes with the poison of their sources (R243, R388).
-/

namespace Sys2Proof.Machine

/-! The whisk. -/

/-- A checked whisk descriptor. -/
structure WhiskD where
  es : Nat
  perm : List Nat
  sdim : List Nat
  sstride : List Int               -- dimensions 1 to 4
  dstride : List Int
  deriving DecidableEq, Repr

/-- Read a whisk descriptor (R239): reserved fields first (R14, R571), a dimension beyond NDIM among them, then R241. -/
def parseWhisk (b : Bytes) : WhiskD ⊕ Nat :=
  let nd := byteAt b 0
  let esl := byteAt b 1
  let perm := field b 2 2
  let dims := (List.range 5).map (fun i => field b (8 + 4 * i) 4)
  let ps := (List.range 5).map (fun i => bits perm (3 * i + 2) (3 * i))
  if bit perm 15 || !zeroAt b 4 4 || !zeroAt b 0x1C 4 || (nd != 0 && !((dims.drop nd).all (· == 0))) then .inr stInvalidField
  else if nd = 0 ∨ 5 < nd ∨ 3 < esl then .inr stWhiskFormat
  else if !((List.range nd).all (fun k => (ps.take nd).contains k)) || !((ps.drop nd).all (· == 0))
      || (dims.take nd).any (· == 0) then .inr stWhiskFormat
  else .inl { es := 2 ^ esl, perm := ps.take nd, sdim := dims.take nd,
              sstride := (List.range 4).map (fun i => signed 32 (field b (0x20 + 4 * i) 4)),
              dstride := (List.range 4).map (fun i => signed 32 (field b (0x30 + 4 * i) 4)) }

/-- The index vectors of extents, dimension 0 innermost. -/
def indices : List Nat → List (List Nat)
  | [] => [[]]
  | n :: ds => (indices ds).flatMap (fun t => (List.range n).map (fun i => i :: t))

/-- Σ over d of i[d] * stride[d], with es in dimension 0. -/
def stridedOff (es : Nat) (strides : List Int) (i : List Nat) : Int :=
  match i with
  | [] => 0
  | i0 :: rest => (i0 * es : Nat) + ((rest.zip strides).map (fun x => (x.1 : Int) * x.2)).foldl (· + ·) 0

/-- One element move: source and destination offsets (R240). -/
def WhiskD.moves (w : WhiskD) : List (Int × Int) :=
  (indices w.sdim).map (fun i =>
    let j := w.perm.map (fun p => i.getD p 0)
    (stridedOff w.es w.sstride i, stridedOff w.es w.dstride j))

/-- An address moved by a signed offset, modulo 2^64. -/
def addrAdd (a : Nat) (o : Int) : Nat := (((a : Int) + o) % (2 ^ 64 : Nat)).toNat

/-! Pieces of a transfer. -/

/-- How a piece's destination bytes come from its source bytes (R383, R384): copied; bit `p` of each `es`-byte element,
8 elements a byte; or elements of `es` bytes put together from `n` planes. -/
inductive PieceKind where
  | copy
  | split (es p w : Nat)
  | merge (es n w : Nat)
  deriving DecidableEq, Repr

/-- A destination run, and the source runs that make it. -/
structure Piece where
  dst : Nat
  len : Nat
  srcs : List (Nat × Nat)
  kind : PieceKind := .copy
  unit : Nat := 1                  -- bytes of an element of it
  deriving DecidableEq, Repr

def Piece.srcLen (p : Piece) : Nat := (p.srcs.map (·.2)).foldl (· + ·) 0

/-- The destination bytes of a piece (R384). -/
def Piece.build (p : Piece) (b : Bytes) : Bytes :=
  match p.kind with
  | .copy => b
  | .split es pl w =>
    (List.range (ceilDiv w 8)).map (fun k =>
      BitVec.ofNat 8 (((List.range 8).map (fun i =>
        let x := 8 * k + i
        if x < w ∧ bit (field b (x * es) es) pl then 2 ^ i else 0)).foldl (· + ·) 0))
  | .merge es n w =>
    let pw := ceilDiv w 8
    (List.range w).flatMap (fun x =>
      leBytes es (((List.range n).map (fun pl =>
        if bit (byteAt b (pl * pw + x / 8)) (x % 8) then 2 ^ pl else 0)).foldl (· + ·) 0))

/-- The pieces of a whisk from `s` to `t`. -/
def WhiskD.pieces (w : WhiskD) (s t : Nat) : List Piece :=
  w.moves.map (fun m => { dst := addrAdd t m.2, len := w.es, srcs := [(addrAdd s m.1, w.es)], unit := w.es })

/-- Fields of a DMA descriptor (R381). -/
structure DmaD where
  map : Nat
  srcPart : Bool
  dstPart : Bool
  su : Nat
  du : Nat
  es : Nat
  ch : Nat
  bits : Nat
  src : Nat
  dst : Nat
  bytes : Nat
  aux : Nat
  w : Nat
  h : Nat
  sp : Nat
  dp : Nat
  plane : Nat
  deriving DecidableEq, Repr

def parseDma (b : Bytes) : DmaD :=
  { map := byteAt b 0 % 8, srcPart := bit (byteAt b 1) 0, dstPart := bit (byteAt b 1) 1,
    su := byteAt b 2 % 8, du := byteAt b 2 / 16 % 8, es := byteAt b 3 % 2 + 1, ch := byteAt b 3 / 2 % 8,
    bits := byteAt b 4, src := field b 8 8, dst := field b 0x10 8, bytes := field b 0x18 8, aux := field b 0x20 8,
    w := field b 0x28 2, h := field b 0x2A 2, sp := field b 0x2C 4, dp := field b 0x30 4, plane := field b 0x34 4 }

/-- A reserved field or code of a DMA descriptor (R381, R382 item 1). -/
def dmaReserved (b : Bytes) : Bool :=
  let m := byteAt b 0
  let elem := byteAt b 3
  let es := elem % 2 + 1
  let ch := elem / 2 % 8
  let bt := byteAt b 4
  let u := byteAt b 2
  decide (7 < m) || byteAt b 1 % 4 == 0 || decide (3 < byteAt b 1)
    || (m != 0 && u != 0) || decide (4 < u % 8) || decide (4 < u / 16 % 8) || bit u 3 || bit u 7
    || decide (15 < elem) || (m < 2 && elem != 0) || ((m == 2 || m == 3) && (ch < 2 || 4 < ch))
    || (decide (4 ≤ m) && ch != 0)
    || ((m == 6 || m == 7) && (bt == 0 || 8 * es < bt)) || (m < 6 && bt != 0)
    || !zeroAt b 5 3 || (m != 0 && !zeroAt b 0x18 8)
    || (m != 1 && m != 4 && m != 5 && !zeroAt b 0x20 8) || (m == 1 && field b 0x20 8 % 64 != 0)
    || (m < 2 && !zeroAt b 0x28 16)

/-- The width of a unit code of R381; 0 for bulk. -/
def unitBytes (u : Nat) : Nat := if u = 0 then 0 else 2 ^ (u - 1)

/-- A fixed unit does not divide its address or BYTES (R382 item 2). -/
def unitBreaks (u a n : Nat) : Bool := u != 0 && (a % unitBytes u != 0 || n % unitBytes u != 0)

/-- A row beyond the row buffer (R382 item 4). -/
def DmaD.rowTooLong (x : DmaD) : Bool :=
  match x.map with
  | 2 => decide (32768 < x.w * x.ch * x.es)
  | 3 => decide (32768 < x.w * x.ch * x.es)
  | 4 => decide (32768 < x.w * x.es)
  | 5 => decide (32768 < x.w * x.es)
  | 6 => decide (32768 < x.w * x.es)
  | 7 => decide (32768 < x.w * x.es)
  | _ => false

/-- The pieces of a DMA descriptor in destination order (R383, R384); `wk` is its whisk descriptor, if any. -/
def DmaD.pieces (x : DmaD) (wk : Option WhiskD) : List Piece :=
  let grid (f : Nat → Nat → List Piece) (h w : Nat) : List Piece :=
    (List.range h).flatMap (fun y => (List.range w).flatMap (fun i => f y i))
  let mv (d s : Nat) : List Piece := [{ dst := d, len := x.es, srcs := [(s, x.es)], unit := x.es }]
  match x.map with
  | 0 => [{ dst := x.dst, len := x.bytes, srcs := [(x.src, x.bytes)] }]
  | 1 => match wk with
         | some w => w.pieces x.src x.dst
         | none => []
  | 2 => (List.range x.ch).flatMap (fun c => grid (fun y i =>
           mv (x.dst + c * x.plane + y * x.dp + i * x.es) (x.src + y * x.sp + (i * x.ch + c) * x.es)) x.h x.w)
  | 3 => grid (fun y i => (List.range x.ch).flatMap (fun c =>
           mv (x.dst + y * x.dp + (i * x.ch + c) * x.es) (x.src + c * x.plane + y * x.sp + i * x.es))) x.h x.w
  | 4 =>
    let cp := x.aux % 2 ^ 32
    let vo := x.aux / 2 ^ 32
    let ch := x.src + x.h * x.sp
    grid (fun y i => mv (x.dst + y * x.dp + i * x.es) (x.src + y * x.sp + i * x.es)) x.h x.w
      ++ grid (fun j i => mv (x.dst + x.plane + j * cp + i * x.es) (ch + j * x.sp + 2 * i * x.es)) (x.h / 2) (x.w / 2)
      ++ grid (fun j i => mv (x.dst + x.plane + vo + j * cp + i * x.es) (ch + j * x.sp + (2 * i + 1) * x.es))
           (x.h / 2) (x.w / 2)
  | 5 =>
    let cp := x.aux % 2 ^ 32
    let vo := x.aux / 2 ^ 32
    let ch := x.dst + x.h * x.dp
    grid (fun y i => mv (x.dst + y * x.dp + i * x.es) (x.src + y * x.sp + i * x.es)) x.h x.w
      ++ grid (fun j i =>
           mv (ch + j * x.dp + 2 * i * x.es) (x.src + x.plane + j * cp + i * x.es)
             ++ mv (ch + j * x.dp + (2 * i + 1) * x.es) (x.src + x.plane + vo + j * cp + i * x.es))
           (x.h / 2) (x.w / 2)
  | 6 => (List.range x.bits).flatMap (fun p => (List.range x.h).map (fun y =>
           { dst := x.dst + p * x.plane + y * x.dp, len := ceilDiv x.w 8, srcs := [(x.src + y * x.sp, x.w * x.es)],
             kind := .split x.es p x.w }))
  | _ => (List.range x.h).map (fun y =>
           { dst := x.dst + y * x.dp, len := x.w * x.es,
             srcs := (List.range x.bits).map (fun p => (x.src + p * x.plane + y * x.sp, ceilDiv x.w 8)),
             kind := .merge x.es x.bits x.w, unit := x.es })

/-! Moving. -/

/-- The bytes of several source runs of a partition, joined (R383). -/
def Dev.readRuns (d : Dev) (p : Nat) (e : Env) (l : List (Nat × Nat)) : Rd × Dev :=
  l.foldl (fun (acc : Rd × Dev) x =>
    let r := acc.2.read p e x.1 x.2
    (acc.1.append r.1, r.2)) ({ bytes := [] }, d)

/-- A byte address lies in one of the runs. -/
def inRuns (l : List (Nat × Nat)) (a : Nat) : Bool := l.any (fun r => decide (r.1 ≤ a) && decide (a < r.1 + r.2))

/-- [0, n) cut at the bad ranges (offset, length) of a read: offset, length, whether bad. -/
def segments (n : Nat) (bad : List (Nat × Nat)) : List (Nat × Nat × Bool) :=
  let r := bad.foldl (fun (acc : List (Nat × Nat × Bool) × Nat) b =>
    let lo := max acc.2 (min n b.1)
    let hi := min n (b.1 + b.2)
    if hi ≤ lo then acc
    else (acc.1 ++ (if acc.2 < lo then [(acc.2, lo - acc.2, false)] else []) ++ [(lo, hi - lo, true)], hi)) ([], 0)
  r.1 ++ (if r.2 < n then [(r.2, n - r.2, false)] else [])

/-- The bad ranges of a read as seen from offset `off` on, `n` bytes long. -/
def shiftBad (bad : List (Nat × Nat)) (off n : Nat) : List (Nat × Nat) :=
  bad.filterMap (fun b =>
    let lo := max off b.1
    let hi := min (off + n) (b.1 + b.2)
    if lo < hi then some (lo - off, hi - lo) else none)

/-- The bad ranges of a piece's destination: those of the source for a copy, the whole run otherwise. -/
def Piece.badOf (p : Piece) (bad : List (Nat × Nat)) (off n : Nat) : List (Nat × Nat) :=
  match p.kind with
  | .copy => shiftBad bad off n
  | _ => if bad.isEmpty then [] else [(0, n)]

/-- Write a run of a partition of which some ranges are poison (R243, R388, R428). -/
def Dev.writeMarked (d : Dev) (p : Nat) (e : Env) (a : Nat) (b : Bytes) (bad : List (Nat × Nat)) : Marks × Dev :=
  (segments b.length bad).foldl (fun (acc : Marks × Dev) g =>
    if g.2.2 then (acc.1, acc.2.poisonRange p (a + g.1) g.2.1)
    else
      let r := acc.2.write p e (a + g.1) (slice b g.1 g.2.1)
      (acc.1.join r.1, r.2)) ({}, d)

/-- Elements of `u` bytes of a run, of which some byte's address the sources of the same transfer also hold, are undefined (R243,
R366, R386): their bytes become free values. The run begins `skip` bytes after the first of an element. -/
def Dev.blurOverlap (d : Dev) (srcs : List (Nat × Nat)) (u skip a : Nat) (b : Bytes) : Bytes × Dev :=
  let hit (i : Nat) : Bool := (List.range u).any (fun k => inRuns srcs (a + (skip + i) / u * u + k - skip))
  if !(List.range b.length).any hit then (b, d)
  else
    ((List.range b.length).map (fun i => if hit i then Config.freeByte (d.free + i) else b.getD i 0),
      d.setFree (d.free + b.length))

/-! Sides of a COPY (R365): device memory, or the partition's stockpot share on a skillet. -/

/-- Skillet and offset of a stockpot address; its other bits are 0. -/
def potOf (a : Nat) : Option (Nat × Nat) := if bits a 59 27 = 0 ∧ a < 2 ^ 64 then some (a / 2 ^ 60, a % 2 ^ 27) else none

/-- A run of the stockpot lies in the partition's share (R95). -/
def Dev.potOwned (d : Dev) (p a n : Nat) : Bool :=
  match potOf a, d.part p with
  | some (s, o), some x => decide (o + n ≤ x.potSize s)
  | _, _ => false

/-- Read a run of one side. -/
def Dev.sideRead (d : Dev) (p : Nat) (e : Env) (pot : Bool) (a n : Nat) : Rd × Dev :=
  if !pot then d.read p e a n
  else
    match potOf a, d.part p with
    | some (s, o), some x => (d.potGet x s o n, d)
    | _, _ => ({ bytes := repByte n 0, bad := [(0, n)], marks := .cause caRange }, d)

/-- Write a run of the stockpot of which some ranges are poison (R471). -/
def Dev.potMarked (d : Dev) (p a : Nat) (b : Bytes) (bad : List (Nat × Nat)) : Marks × Dev :=
  match potOf a, d.part p with
  | some (s, o), some x =>
    (segments b.length bad).foldl (fun (acc : Marks × Dev) g =>
      if g.2.2 then
        (acc.1, (inExtents (x.share s) (o + g.1) g.2.1).foldl (fun d r => d.potPoison (potKeyAt s r.1) r.2) acc.2)
      else
        let r := acc.2.potPut x s (o + g.1) (slice b g.1 g.2.1)
        (acc.1.join r.1, r.2)) ({}, d)
  | _, _ => (.cause caRange, d)

/-- Write a run of one side of which some ranges are poison. -/
def Dev.sideWrite (d : Dev) (p : Nat) (e : Env) (pot : Bool) (a : Nat) (b : Bytes) (bad : List (Nat × Nat)) : Marks × Dev :=
  if pot then d.potMarked p a b bad
  else
    let r := d.writeMarked p e a b bad
    (r.1, r.2.raced p none a b.length)

/-- Runs of one side that end undefined: every byte a free value. -/
def Dev.blurSide (d : Dev) (p : Nat) (pot : Bool) (l : List (Nat × Nat)) : Dev :=
  l.foldl (fun d r =>
    let f := d.freeBytes r.2
    if pot then (f.2.potMarked p r.1 f.1 []).2 else (f.2.store p Env.clean r.1 f.1).2.raced p none r.1 r.2) d

/-- A destination byte lies in the record region or in a loaded program image (R318, R358). -/
def Part.protected (x : Part) (a n : Nat) : Bool :=
  let hit (b m : Nat) : Bool := decide (a < b + m) && decide (b < a + n) && n != 0
  hit x.recAddr (256 * x.recCount) || x.progs.any (fun e => hit e.2.addr e.2.size)

/-- A run of a partition may be written by a command: reserved memory, and not protected (R112, R318, R358). -/
def Dev.writable (d : Dev) (p a n : Nat) : Bool :=
  (n == 0) || (d.ownedRange p a n && (match d.part p with
    | some x => !x.protected a n
    | none => false))

end Sys2Proof.Machine
end

