-- ==== Sys2Proof/Machine/Dma.lean ====
section
/-!
DEFINITION. The DMA channels (R378 to R390, R555, R556, R566).
-/

namespace Sys2Proof.Machine

/-- The 8 bytes of a writeback (R381). -/
def wbBytes (st flags moved : Nat) : Bytes := leBytes 2 st ++ leBytes 1 flags ++ leBytes 1 0 ++ leBytes 4 moved

/-- Write the descriptor in progress back (R386), with the end of count where the ring is empty (R387). In safe stop it
carries POISONED (R474). -/
def Dev.dmaWriteBack (d : Dev) (c : Nat) (t : Xfer) (endCount : Bool) : Dev :=
  let x := d.dma c
  let st := if d.saf.safeStop then stPoisoned else t.status
  let bad := t.bad || d.saf.safeStop
  let eoc := endCount && x.head == x.tail
  let d1 := (d.putDma c { x with xfer := none }).emitOut
    (.hostWrite (x.base + 64 * t.idx + 0x38)
      (wbBytes st (1 + 2 * b2n bad + 4 * b2n eoc) (if bad then 0 else t.moved % 2 ^ 32)))
  if eoc ∧ x.source ≠ 0 ∧ x.owner ≤ 16 then d1.pulse x.owner x.source else d1

/-- The descriptor in progress ends with a status, if there is one (R380, R389, R472). -/
def Dev.dmaAbort (d : Dev) (c st : Nat) : Dev :=
  match (d.dma c).xfer with
  | some t => d.dmaWriteBack c { t with status := st, bad := true } false
  | none => d

/-- The partition that a channel serves; 0 for none (R378). -/
def Dma.part (x : Dma) : Nat := if x.owner ≤ 16 then x.owner else 0

/-- A channel enters its error state (R380). -/
def Dev.dmaError (d : Dev) (c : Nat) : Dev :=
  if (d.dma c).err then d
  else
    let d1 := d.dmaAbort c stAborted
    (d1.putDma c { d1.dma c with err := true }).raise
      { code := evDmaRingError, part := (d.dma c).part, unit := unitDma c }

/-- A window responds only to the function that owns its channel (R555). -/
def Dev.dmaSees (d : Dev) (f c : Nat) : Bool := c < 128 && (d.dma c).owner == f && f ≤ 16

/-- DMA_CH_TAIL on the device (R379, R380, R556). -/
def Dev.dmaTail (d : Dev) (f c v : Nat) (word32 : Bool) : Dev :=
  let x := d.dma c
  if !d.dmaSees f c || !word32 || d.deaf f || x.err || v == x.tail then d
  else if 2 ^ x.log2 ≤ v then d.dmaError c
  else d.putDma c { x with tail := v }

/-- DMA_CH_TAIL (R379). -/
def execDmaChTail (f c v : Nat) (word32 : Bool) (s : State) : Host.Outcome State Fault Refusal :=
  .next (s.onFn f (fun d => d.dmaTail f c v word32))

/-- The STOP bit (R389): an idle channel halts at once. -/
def Dev.dmaStop (d : Dev) (f c : Nat) (stop : Bool) : Dev :=
  let x := d.dma c
  if !d.dmaSees f c then d
  else if stop then
    if x.xfer.isNone then d.putDma c { x with stop := true, stopped := true, posIdx := x.head, posOff := 0 }
    else d.putDma c { x with stop := true }
  else d.putDma c { x with stop := false, stopped := x.held && x.stopped }

/-- DMA_CH_CTL_STOP (R389). -/
def execDmaChCtlStop (f c : Nat) (stop : Bool) (s : State) : Host.Outcome State Fault Refusal :=
  .next (s.onFn f (fun d => d.dmaStop f c stop))

/-- The RESET bit (R380): the error state ends, the ring is empty, STOP stays (R556). -/
def Dev.dmaReset (d : Dev) (f c : Nat) : Dev :=
  if !d.dmaSees f c then d
  else
    let d1 := d.dmaAbort c stAborted
    d1.putDma c { d1.dma c with err := false, head := 0, tail := 0, posIdx := 0, posOff := 0 }

/-- DMA_CH_CTL_RESET (R380). -/
def execDmaChCtlReset (f c : Nat) (s : State) : Host.Outcome State Fault Refusal :=
  .next (s.onFn f (fun d => d.dmaReset f c))

/-- The channel accepts a new base or size (R556). -/
def Dma.accepts (x : Dma) : Bool := x.stopped || x.err || (x.xfer.isNone && x.head == x.tail)

/-- A size write (R556). -/
def Dev.dmaSize (d : Dev) (f c log2 : Nat) : Dev :=
  let x := d.dma c
  if !d.dmaSees f c ∨ !x.accepts ∨ log2 < 6 ∨ 16 < log2 then d
  else d.putDma c { x with log2 := log2, head := 0, tail := 0 }

/-- DMA_CH_RING_SIZE (R556). -/
def execDmaChRingSize (f c log2 : Nat) (s : State) : Host.Outcome State Fault Refusal :=
  .next (s.onFn f (fun d => d.dmaSize f c log2))

/-- Binding a channel (R378, R566): only while nothing is in progress and the ring is empty; rebinding returns its
window to reset. -/
def Dev.dmaOwner (d : Dev) (c fn : Nat) : Dev :=
  let x := d.dma c
  if 128 ≤ c ∨ (16 < fn ∧ fn ≠ 0x1F) ∨ x.xfer.isSome ∨ x.head ≠ x.tail ∨ x.owner = fn then d
  else d.putDma c { Dma.at c with owner := fn }

/-- DMA_CH_OWNER (R378). -/
def execDmaChOwner (c fn : Nat) (s : State) : Host.Outcome State Fault Refusal :=
  .next (s.onReg (fun d => d.dmaOwner c fn))

/-- The checks of R382 that need no memory: items 1 to 4. -/
def dmaCheck1 (b : Bytes) : Option Nat :=
  let x := parseDma b
  if dmaReserved b then some stInvalidField
  else if x.map = 0 ∧ (unitBreaks x.su x.src x.bytes ∨ unitBreaks x.du x.dst x.bytes) then some stInvalidField
  else if (x.map = 4 ∨ x.map = 5) ∧ (x.w % 2 = 1 ∨ x.h % 2 = 1) then some stInvalidField
  else if x.rowTooLong then some stInvalidField
  else none

/-- Items 6 and 7 of R382, on the pieces. -/
def Dev.dmaCheck2 (d : Dev) (p : Nat) (x : DmaD) (l : List Piece) : Option Nat :=
  if (x.srcPart && l.any (fun k => k.srcs.any (fun r => !d.ownedRange p r.1 r.2)))
      || (x.dstPart && l.any (fun k => !d.writable p k.dst k.len)) then some stAddrRange
  else if (x.map = 0 ∧ x.bytes = 0) ∨ (2 ≤ x.map ∧ (x.w = 0 ∨ x.h = 0)) then some stEmptyOutput
  else none

/-- The whisk descriptor of a descriptor with map 1, read and checked (R382 item 5). -/
def Dev.dmaWhisk (d : Dev) (p : Nat) (x : DmaD) : (Bytes ⊕ Nat) × Dev :=
  if x.map ≠ 1 then (.inl [], d)
  else if !d.ownedRange p x.aux 64 then (.inr stAddrRange, d)
  else
    let r := d.read p Env.clean x.aux 64
    if !r.1.marks.clear then (.inr (r.1.marks.final stSuccess).1, r.2)
    else
      match parseWhisk r.1.bytes with
      | .inr st => (.inr st, r.2)
      | .inl _ => (.inl r.1.bytes, r.2)

/-- The pieces of a transfer. -/
def Xfer.pieces (t : Xfer) : List Piece :=
  let wk := match parseWhisk t.whisk with
    | .inl w => some w
    | .inr _ => none
  (parseDma t.desc).pieces wk

/-- The event and the count of a descriptor that an access failed (R388). -/
def Dev.dmaBad (d : Dev) (c idx st : Nat) : Dev :=
  (d.count (unitDma c) 0 1).raise
    { code := evDmaDescBad, part := (d.dma c).part, unit := unitDma c, payload := leBytes 4 idx ++ leBytes 2 st }

/-- A channel may fetch its next descriptor (R379, R380, R389, R474, R332, R334); a channel of a fenced I/O die does, and
ends it with POISONED (R472). -/
def Dev.dmaMayFetch (d : Dev) (c : Nat) : Bool :=
  let x := d.dma c
  c < 128 && x.owner ≤ 16 && !x.err && !x.stop && !x.held && !x.stopped && x.xfer.isNone && x.head != x.tail
    && !d.saf.safeStop

/-- DMA_DESCRIPTOR on the device: the fetch, the checks, the start (R380, R382). -/
def Dev.dmaDescriptor (d : Dev) (c : Nat) (rd data : HostRead) : Dev :=
  if !d.dmaMayFetch c then d
  else
    match rd with
    | .ok raw =>
      let b := padTo 64 raw
      let x := d.dma c
      let d0 := d.putDma c { x with head := (x.head + 1) % 2 ^ x.log2 }
      let start (d : Dev) (t : Xfer) : Dev := d.putDma c { d.dma c with xfer := some t }
      let t : Xfer := { desc := b, idx := x.head, data := data }
      let fail (d : Dev) (st : Nat) : Dev := start d { t with status := st, bad := st != stEmptyOutput, done := true }
      if d.saf.iodFenced.contains (c / 32) then fail d0 stPoisoned
      else if x.owner = 0 then fail d0 stNotOwned
      else
        match dmaCheck1 b with
        | some st => fail d0 st
        | none =>
          let y := parseDma b
          let w := d0.dmaWhisk x.owner y
          match w.1 with
          | .inr st => fail w.2 st
          | .inl wb =>
            let t := { t with whisk := wb }
            match w.2.dmaCheck2 x.owner y t.pieces with
            | some st => fail w.2 st
            | none =>
              match y.srcPart, data with
              | false, .failed =>
                (start w.2 { t with status := stHostAccess, bad := true }).dmaBad c x.head stHostAccess
              | false, .poisoned =>
                (start w.2 { t with status := stPoisoned, bad := true }).dmaBad c x.head stPoisoned
              | _, _ => start w.2 t
    | _ => d.dmaError c

/-- DMA_DESCRIPTOR (R382). -/
def execDmaDescriptor (c : Nat) (rd data : HostRead) (s : State) : Host.Outcome State Fault Refusal :=
  .next (s.onDev (fun d => d.dmaDescriptor c rd data))

/-- What the source of a piece gives: from the partition, or from the host data at offset `so`; a failed host read
gives free bytes (R388). -/
def Dev.dmaSource (d : Dev) (p : Nat) (e : Env) (t : Xfer) (host : Bool) (i : Nat) (k : Piece) (so : Nat) : Rd × Dev :=
  if !t.snap.isEmpty then
    let z := t.snap.getD i ([], [])
    ({ bytes := z.1, bad := z.2 }, d)
  else if host then
    match t.data with
    | .ok b => ({ bytes := padTo k.srcLen (slice b so k.srcLen) }, d)
    | .failed => let f := d.freeBytes k.srcLen; ({ bytes := f.1 }, f.2)
    | .poisoned => ({ bytes := repByte k.srcLen 0, bad := [(0, k.srcLen)] }, d)
  else d.readRuns p e k.srcs

/-- A destination byte of a transfer within the partition lies in its source. -/
def Xfer.overlaps (t : Xfer) : Bool :=
  let y := parseDma t.desc
  let l := t.pieces
  let srcs := l.flatMap (·.srcs)
  y.srcPart && y.dstPart && l.any (fun k => srcs.any (fun s => decide (s.1 < k.dst + k.len) && decide (k.dst < s.1 + s.2)))

/-- Where source and destination overlap, every source is read before anything is written, so that elements outside the overlap
get what they should (R243). -/
def Dev.dmaSnap (d : Dev) (p : Nat) (e : Env) (t : Xfer) : Xfer × Marks × Dev :=
  if !t.snap.isEmpty || !t.overlaps then (t, {}, d)
  else
    let z := t.pieces.foldl (fun (acc : List (Bytes × List (Nat × Nat)) × Marks × Dev) k =>
      let r := acc.2.2.readRuns p e k.srcs
      (acc.1 ++ [(r.1.bytes, r.1.bad)], acc.2.1.join r.1.marks, r.2)) ([], {}, d)
    ({ t with snap := z.1 }, z.2.1, z.2.2)

/-- Write one destination run: to the partition or to host memory; poisoned source data stays marked (R388). -/
def Dev.dmaSink (d : Dev) (p : Nat) (e : Env) (toPart : Bool) (a : Nat) (b : Bytes) (bad : List (Nat × Nat)) :
    Marks × Dev :=
  if b.isEmpty then ({}, d)
  else if toPart then d.sideWrite p e false a b bad
  else if e.hostFailed then (.fail stHostAccess, d)
  else
    ({}, (segments b.length bad).foldl (fun d g =>
      d.emitOut (if g.2.2 then .hostPoison (a + g.1) g.2.1 else .hostWrite (a + g.1) (slice b g.1 g.2.1))) d)

/-- Move the destination bytes from `lo` up to `hi` of a transfer, piece by piece. Once an access has failed, what is
written is undefined (R388). The accumulator holds the marks, the device, the destination offset and the source offset
of the next piece. -/
def Dev.dmaMove (d : Dev) (p : Nat) (e : Env) (t : Xfer) (lo hi : Nat) : Marks × Dev :=
  let y := parseDma t.desc
  let l := t.pieces
  let srcs := if y.srcPart && y.dstPart then l.flatMap (·.srcs) else []
  let r := l.zipIdx.foldl (fun (acc : (Marks × Dev) × Nat × Nat) w =>
    let k := w.1
    let a := max lo acc.2.1
    let b := min hi (acc.2.1 + k.len)
    let nxt := (acc.2.1 + k.len, acc.2.2 + k.srcLen)
    if b ≤ a then (acc.1, nxt)
    else
      let g := acc.1.2.dmaSource p e t (!y.srcPart) w.2 k acc.2.2
      let off := a - acc.2.1
      let lost := t.bad || !acc.1.1.clear
      let bytes := if lost then g.2.freeBytes (b - a) else (slice (k.build g.1.bytes) off (b - a), g.2)
      let q := bytes.2.blurOverlap srcs k.unit (off % k.unit) (k.dst + off) bytes.1
      let w := q.2.dmaSink p e y.dstPart (k.dst + off) q.1 (k.badOf g.1.bad off (b - a))
      (((acc.1.1.join g.1.marks).join w.1, w.2), nxt)) (({}, d), 0, 0)
  r.1

/-- Destination bytes of a transfer. -/
def Xfer.total (t : Xfer) : Nat := (t.pieces.map (·.len)).foldl (· + ·) 0

/-- The cups of a transfer of `n` destination bytes (R442): the channel's I/O die, and the host link for the side that
lies in host memory. -/
def Dev.dmaCharge (d : Dev) (c : Nat) (y : DmaD) (n : Nat) : Dev :=
  let p := (d.dma c).part
  let u := ceilDiv n 64
  let d1 := d.charge p (dieIod (c / 32)) (40 + c / 32) u
  let d2 := if y.srcPart then d1 else d1.charge p (dieIod 0) 44 u
  if y.dstPart then d2 else d2.charge p (dieIod 0) 49 u

/-- A transfer whose cup is never served stays where it is (R449). -/
def Dev.dmaShut (d : Dev) (c : Nat) (y : DmaD) : Bool :=
  d.cupShut (d.dma c).part (40 + c / 32) || (!(y.srcPart && y.dstPart) && d.cupShut (d.dma c).part 44)

/-- The transfer of a channel goes on to destination byte `hi` (R388): a failed access marks it bad, once. -/
def Dev.dmaAdvance (d : Dev) (c : Nat) (e : Env) (t : Xfer) (hi : Nat) : Dev :=
  let x := d.dma c
  let s := (d.dmaCharge c (parseDma t.desc) (hi - t.moved)).dmaSnap x.owner e t
  let q := s.2.2.dmaMove x.owner e s.1 t.moved hi
  let r := (s.2.1.join q.1, q.2)
  let z := r.1.final stSuccess
  let bad := !r.1.clear
  let t1 := { s.1 with moved := max t.moved hi, status := if t.bad then t.status else z.1, bad := t.bad || bad }
  let d1 := r.2.putDma c { r.2.dma c with xfer := some t1 }
  if bad && !t.bad then d1.dmaBad c t.idx z.1 else d1

/-- DMA_WRITEBACK on the device (R386): what is left moves, and the writeback is posted. -/
def Dev.dmaWriteback (d : Dev) (c : Nat) (e : Env) : Dev :=
  let x := d.dma c
  match x.xfer with
  | none => d
  | some t =>
    if x.stopped || (!t.done && d.dmaShut c (parseDma t.desc)) then d
    else
      let d1 := if t.done then d else d.dmaAdvance c e t t.total
      match (d1.dma c).xfer with
      | some t1 => d1.dmaWriteBack c t1 true
      | none => d1

/-- DMA_WRITEBACK (R386). -/
def execDmaWriteback (c : Nat) (e : Env) (s : State) : Host.Outcome State Fault Refusal :=
  .next (s.onDev (fun d => d.dmaWriteback c e))

/-- DMA_STOPPED on the device (R389): a channel asked to halt does so at a 4 KiB boundary of destination. -/
def Dev.dmaStopped (d : Dev) (c bytes : Nat) (e : Env) : Dev :=
  let x := d.dma c
  if !(x.stop || x.held) || x.stopped then d
  else
    match x.xfer with
    | none => d.putDma c { x with stopped := true, posIdx := x.head, posOff := 0 }
    | some t =>
      if t.done || d.dmaShut c (parseDma t.desc) then d
      else if bytes % 4096 ≠ 0 ∨ bytes < t.moved ∨ t.total < bytes then d
      else
        let d1 := d.dmaAdvance c e t bytes
        d1.putDma c { d1.dma c with stopped := true, posIdx := t.idx, posOff := bytes }

/-- DMA_STOPPED (R389). -/
def execDmaStopped (c bytes : Nat) (e : Env) (s : State) : Host.Outcome State Fault Refusal :=
  .next (s.onDev (fun d => d.dmaStopped c bytes e))

/-- The channels of a function. -/
def Dev.channelsOf (d : Dev) (f : Nat) : List Nat := (List.range 128).filter (fun c => (d.dma c).owner == f)

/-- PART_SUSPEND step 4 and the quiesce of a reclaim halt the function's channels (R332, R334, R389). -/
def Dev.holdChannels (d : Dev) (f : Nat) : Dev :=
  (d.channelsOf f).foldl (fun d c =>
    let x := d.dma c
    if x.xfer.isNone then d.putDma c { x with held := true, stopped := true, posIdx := x.head, posOff := 0 }
    else d.putDma c { x with held := true }) d

/-- PART_RESUME lets them go on (R333). -/
def Dev.freeChannels (d : Dev) (f : Nat) : Dev :=
  (d.channelsOf f).foldl (fun d c =>
    let x := d.dma c
    d.putDma c { x with held := false, stopped := x.stop && x.stopped }) d

/-- Every channel of the function has halted. -/
def Dev.channelsHalted (d : Dev) (f : Nat) : Bool := (d.channelsOf f).all (fun c => (d.dma c).stopped)

end Sys2Proof.Machine
end

