-- ==== Sys2Proof/Machine/EventRows.lean ====
section
/-!
DEFINITION. The commands on the interrupt controllers, the event rings, the suspect tables, and failed posted writes
(R393 to R398, R404, R554, R572).
-/

namespace Sys2Proof.Machine

/-- A function number of the device (R376). -/
def fnOk (f : Nat) : Bool := decide (f ≤ 16)

/-- EVT_INT_CLAIM on the device (R394, R396): written priorities and threshold apply first; the number read leaves the
device. -/
def Dev.claim (d : Dev) (f v : Nat) : Dev :=
  let d1 := d.withInt f IntCtl.apply
  let n := ((d1.fn f).int.take v).2
  (d1.withInt f (fun c => (c.take v).1)).emitOut (.regRead n)

/-- EVT_INT_CLAIM (R394). -/
def execEvtIntClaim (f v : Nat) (s : State) : Host.Outcome State Fault Refusal :=
  .next (s.onDev (fun d => if d.fnLive f then d.claim f v else d.emitOut (.regRead 0)))

/-- EVT_INT_COMPLETE (R395). -/
def execEvtIntComplete (f v src : Nat) (s : State) : Host.Outcome State Fault Refusal :=
  .next (s.onFn f (fun d => d.withInt f (fun c => c.complete v src)))

/-- EVT_INT_ENABLE on the device (R393): word `w` holds the enables of sources 32w to 32w + 31. -/
def Dev.intEnable (d : Dev) (f w mask : Nat) : Dev :=
  (List.range 32).foldl (fun d b =>
    let n := 32 * w + b
    if srcValid n && ((d.fn f).int.src n).en != bit mask b then d.withInt f (fun c => c.setEnable n (bit mask b)) else d) d

/-- EVT_INT_ENABLE (R393). -/
def execEvtIntEnable (f w mask : Nat) (s : State) : Host.Outcome State Fault Refusal :=
  .next (s.onFn f (fun d => d.intEnable f w mask))

/-- EVT_INT_SENSE (R393). -/
def execEvtIntSense (f src mode : Nat) (s : State) : Host.Outcome State Fault Refusal :=
  .next (s.onFn f (fun d => if mode < 4 then d.withInt f (fun c => c.setSense src mode) else d))

/-- EVT_INT_VECTOR (R396). -/
def execEvtIntVector (f src v : Nat) (s : State) : Host.Outcome State Fault Refusal :=
  .next (s.onFn f (fun d => if v < 2048 then d.withInt f (fun c => c.setVector src v) else d))

/-- EVT_INT_PRIO (R396). -/
def execEvtIntPrio (f src prio : Nat) (s : State) : Host.Outcome State Fault Refusal :=
  .next (s.onFn f (fun d => if prio < 8 then d.withInt f (fun c => c.setPrio src prio) else d))

/-- EVT_INT_THRESHOLD (R396). -/
def execEvtIntThreshold (f t : Nat) (s : State) : Host.Outcome State Fault Refusal :=
  .next (s.onFn f (fun d => if t < 8 then d.withInt f (fun c => { c with thrNew := t }) else d))

/-- MSIX_UNMASK on the device (R397). -/
def Dev.unmask (d : Dev) (f v : Nat) : Dev :=
  let r := (d.fn f).int.unmask v
  let d1 := d.modFn f (fun x => { x with int := r.1 })
  if r.2 then d1.emitOut (.msix f v) else d1

/-- MSIX_UNMASK (R397). -/
def execMsixUnmask (f v : Nat) (s : State) : Host.Outcome State Fault Refusal :=
  .next (s.onFn f (fun d => d.unmask f v))

/-- A change of a function's event ring. -/
def Dev.modEvt (d : Dev) (f : Nat) (g : EvtRing → EvtRing) : Dev := d.modFn f (fun v => { v with evt := g v.evt })

/-- A head write (R398, R554). -/
def EvtRing.setHead (r : EvtRing) (v : Nat) : EvtRing :=
  let size := 2 ^ r.log2
  if v = r.head then r
  else if size ≤ v ∨ (r.tail + size - r.head) % size < (v + size - r.head) % size then { r with headRej := true }
  else { r with head := v }

/-- EVT_RING_HEAD (R554). -/
def execEvtRingHead (f v : Nat) (word32 : Bool) (s : State) : Host.Outcome State Fault Refusal :=
  .next (s.onFn f (fun d => if word32 then d.modEvt f (fun r => r.setHead v) else d))

/-- A write of EVT_RING_SIZE (R554). -/
def EvtRing.setSize (r : EvtRing) (log2 : Nat) (en : Bool) : EvtRing :=
  let ok := decide (6 ≤ log2) && decide (log2 ≤ 16)
  if r.en then { r with en := en }
  else
    let r1 := if ok then { r with log2 := log2 } else r
    if !en then r1
    else if !ok || r.base == 0 then { r1 with cfgRej := true }
    else { r1 with en := true, tail := 0, head := 0, phase := true }

/-- EVT_RING_SIZE_EN (R554). -/
def execEvtRingSizeEn (f log2 : Nat) (en : Bool) (s : State) : Host.Outcome State Fault Refusal :=
  .next (s.onFn f (fun d => d.modEvt f (fun r => r.setSize log2 en)))

/-- SUSPECT_SUMMARY of an entry whose time is over (R404). -/
def Dev.summary (d : Dev) (x : Suspect) : Dev :=
  if x.count ≤ 1 then d
  else d.event { code := evSummary, unit := x.unit % 0x1000000, count := x.count,
                 payload := x.reporters.flatMap (leBytes 4) }

/-- SUSPECT_ENTRY_EXPIRY on the device (R404). -/
def Dev.suspectExpiry (d : Dev) (j u : Nat) : Dev :=
  let x := d.jd j
  let hit := (x.own ++ x.other).find? (fun e => e.unit == u)
  match hit with
  | none => d
  | some e =>
    (d.putJd j { x with own := x.own.filter (·.unit != u), other := x.other.filter (·.unit != u) }).summary e

/-- SUSPECT_ENTRY_EXPIRY (R404). -/
def execSuspectEntryExpiry (j suspect : Nat) (s : State) : Host.Outcome State Fault Refusal :=
  .next (s.onDev (fun d => if j < 2 then d.suspectExpiry j suspect else d))

/-- The ring takes back the record whose write failed (R572): the tail does not stand past it. -/
def EvtRing.takeBack (r : EvtRing) : EvtRing :=
  if r.tail = r.head then r
  else
    let size := 2 ^ r.log2
    { r with tail := (r.tail + size - 1) % size, phase := if r.tail = 0 then !r.phase else r.phase, lostFlag := true }

/-- POSTED_WRITE_FAILED on the device (R572). -/
def Dev.postedFailed (d : Dev) (w : PostedWrite) : Dev :=
  match w with
  | .completion f q => d.qpError f q 2
  | .eventRecord f =>
    if !(d.fn f).evt.en then d
    else ((d.modEvt f EvtRing.takeBack).pulse f 263).count (unitPart f) 1 1
  | .dmaWriteback c => if c < 128 then d.dmaError c else d
  | .signalStore r =>
    match d.cmd r with
    | some c => if c.op = 0x2A ∧ byteAt c.desc 0x18 = 1 ∧ c.phase = .ended ∧ c.status = stSuccess then
                  d.modCmd r (fun c => { c with status := stHostAccess }) else d
    | none => d

/-- POSTED_WRITE_FAILED (R572). -/
def execPostedWriteFailed (w : PostedWrite) (s : State) : Host.Outcome State Fault Refusal :=
  .next (s.onDev (fun d => d.postedFailed w))

end Sys2Proof.Machine
end

