-- ==== Sys2Proof/Machine/StackRows.lean ====
section
/-!
DEFINITION. The stacked memory's own events: patrol, retraining, channel repair, and the loss of a stack (R284 to R292,
R505, R517, R518).
-/

namespace Sys2Proof.Machine

def stackOk (t : Nat) : Bool := decide (t < 16)

/-- The region that holds a row of a stack. -/
def Dev.regionOfRow (d : Dev) (t row : Nat) : Option Region :=
  (d.regions.find? (fun e =>
    let n := (setBits 16 e.2.mask).length
    bit e.2.mask t && decide (e.2.rowBase ≤ row) && decide (row < e.2.rowBase + e.2.size / (n * 4194304)))).map (·.2)

/-- The health log takes an entry: the sequence advances (R505). -/
def Dev.logHealth (d : Dev) (g : Flash → Flash) : Dev := d.setFlash (g { d.flash with seq := d.flash.seq + 1 })

/-- A stack leaves service (R292). -/
def Dev.loseStack (d : Dev) (t : Nat) : Dev :=
  if (d.stack t).lost then d
  else
    let d1 := (d.modStack t (fun x => { x with lost := true, repairing := false, retrain := none })).logHealth
      (fun f => { f with lost := insertSorted t f.lost })
    let d2 := if d1.regs.repairStatus = 1 ∧ d1.regs.repairStack = t then d1.setRegs { d1.regs with repairStatus := 3 }
              else d1
    d2.raise { code := evStackLost, unit := unit24 t uiStackCtl }

/-- The partition that holds a row of a stack, and the map of the row: the device's own rows count as streamed. -/
def Dev.mapOfRow (d : Dev) (t row : Nat) : Nat × Bool :=
  match d.regionOfRow t row with
  | some g => (g.part, g.sector)
  | none => (0, false)

/-- The stack offset whose data a patrolled sector holds (R284, R290): the sector's own, none for a retired channel's, and for a
spare row that of the piece moved there. -/
def Dev.patrolled (d : Dev) (t off : Nat) : Option Nat :=
  let row := off / 4194304
  if row < 30720 then
    if (d.stack t).moved (d.mapOfRow t row).2 off then none else some off
  else
    match (d.stack t).repaired, (d.stack t).repairing with
    | some c, false =>
      let x := stackDecode false off
      (spareHolds c x).map (fun j =>
        let r := j / 512
        stackEncode (d.mapOfRow t r).2 (2 * c + j / 8 % 2, j / 16 % 32, r, j % 8 * 256 + x.2.2.2 % 256))
    | _, _ => none

/-- PATROL on the device (R284): sector `n` of the stack, counted from its first row. -/
def Dev.patrol (d : Dev) (t n : Nat) (got : SectorRead) : Dev :=
  if !stackOk t || d.stackOut t then d
  else
    match d.patrolled t (64 * n) with
    | none => d
    | some off =>
      let m := d.mapOfRow t (off / 4194304)
      if (d.stack t).bad off then d
      else
        match got with
        | .clean => d
        | .oneByte => d.corrected t off m.2
        | .uncorrectable => d.uncorrectable m.1 t off m.2

/-- PATROL (R284). -/
def execPatrol (stack sector : Nat) (got : SectorRead) (s : State) : Host.Outcome State Fault Refusal :=
  .next (s.onDev (fun d => d.patrol stack sector got))

/-- 1 s of a 50 MHz clock. -/
abbrev trainPeriod : Nat := 50000000

/-- Firmware has grounds to retrain a pseudo-channel (R286, R518): its stack is more than 8 degC from where it was trained last, 1 s
has passed, 16 of its sectors were corrected within 10 ms, or a request waits. -/
def Dev.trainDue (d : Dev) (t p : Nat) : Bool :=
  let x := d.stack t
  let last := kget x.trained p (0, 0)
  let mine := (x.shaky.filter (fun e => e.1 == p)).map (·.2)
  decide (80 < x.temp - last.2) || decide (80 < last.2 - x.temp) || decide (last.1 + trainPeriod ≤ d.aoOf t)
    || mine.any (fun a => decide (16 ≤ (mine.filter (fun b => decide (a ≤ b) && decide (b ≤ a + shakyWindow))).length))
    || x.queued == some p

/-- RETRAIN_START on the device (R286, R517, R518): one pseudo-channel of a stack at a time, never one of a channel that
is being retired or has been. -/
def Dev.retrainStart (d : Dev) (t p : Nat) : Dev :=
  let x := d.stack t
  if !stackOk t || decide (64 ≤ p) || d.stackOut t || x.retrain.isSome || x.repaired == some (p / 2) || !d.trainDue t p
  then d
  else d.putStack t { x with retrain := some p, retrainTries := 0,
                             queued := if x.queued = some p then none else x.queued }

/-- RETRAIN_START (R286). -/
def execRetrainStart (stack pch : Nat) (s : State) : Host.Outcome State Fault Refusal :=
  .next (s.onDev (fun d => d.retrainStart stack pch))

/-- A channel of a stack fails for good (R288, R292): the stack's first is marked for repair, a second after or during
its repair loses the stack. -/
def Dev.channelFails (d : Dev) (t c : Nat) : Dev :=
  let x := d.stack t
  match x.repaired with
  | some r => if r = c then d else d.loseStack t
  | none => d.putStack t { x with marked := insertSorted c x.marked }

/-- RETRAIN_END on the device (R271, R286, R288): the result is kept; a first failure is repeated once. -/
def Dev.retrainEnd (d : Dev) (t : Nat) (ok : Bool) : Dev :=
  let x := d.stack t
  match x.retrain with
  | none => d
  | some p =>
    let res := kset x.trained p (d.aoOf t, x.temp)
    if ok then d.putStack t { x with retrain := none, retrainTries := 0, trained := res, shaky := x.shaky.filter (·.1 != p) }
    else if x.retrainTries = 0 then d.putStack t { x with retrainTries := 1 }
    else
      let d1 := (d.putStack t { x with retrain := none, retrainTries := 0, trained := res }).raise
        { code := evRetrainFail, unit := unit24 t (uiPch p) }
      d1.channelFails t (p / 2)

/-- RETRAIN_END (R288). -/
def execRetrainEnd (stack : Nat) (ok : Bool) (s : State) : Host.Outcome State Fault Refusal :=
  .next (s.onDev (fun d => if stackOk stack then d.retrainEnd stack ok else d))

/-- The repair of R290 and R291 begins: logged first (R517). -/
def Dev.startRepair (d : Dev) (t c : Nat) : Dev :=
  (d.logHealth (fun f => { f with repaired := f.repaired ++ [(t, c)] })).modStack t
    (fun x => { x with repairing := true, repaired := some c, marked := x.marked.filter (· != c) })

/-- Uncorrectable reads of a channel fell in 4 distinct rows within 24 h (R289). -/
def Stack.worn (x : Stack) (c : Nat) : Bool :=
  let l := x.badRows.filter (fun e => e.1 / 2 == c)
  l.any (fun a => decide (4 ≤ ((l.filter (fun b => decide (a.2.2.2 ≤ b.2.2.2) && decide (b.2.2.2 ≤ a.2.2.2 + rowWindow))).map
    (fun b => (b.1, b.2.1, b.2.2.1))).eraseDups.length))

/-- Firmware has grounds to retire a channel (R289). -/
def Stack.due (x : Stack) (c : Nat) : Bool := x.marked.contains c || x.worn c

/-- CHANNEL_RETIRE on the device (R289, R292). -/
def Dev.channelRetire (d : Dev) (t c : Nat) : Dev :=
  let x := d.stack t
  if !stackOk t || decide (32 ≤ c) || d.stackOut t || !x.due c then d
  else if x.repaired.isSome then (if x.repaired = some c then d else d.loseStack t)
  else d.startRepair t c

/-- CHANNEL_RETIRE (R289). -/
def execChannelRetire (stack channel : Nat) (s : State) : Host.Outcome State Fault Refusal :=
  .next (s.onDev (fun d => d.channelRetire stack channel))

/-- A sector of the retired channel's pieces. -/
def Dev.inChannel (d : Dev) (t c off : Nat) : Bool :=
  (stackDecode (d.mapOfRow t (off / 4194304)).2 off).1 / 2 == c

/-- REPAIR_COPY_DONE on the device (R291): sectors that read uncorrectable during the copy were found on the way (R281), and the
poison of the moved pieces goes on in the repair poison map. -/
def Dev.repairDone (d0 : Dev) (t : Nat) (lost : List Nat) : Dev :=
  let x0 := d0.stack t
  let found : List Nat := (lost.map (fun o => o / 64 * 64)).filter (fun o =>
    x0.repairing && (match x0.repaired with
      | some c => d0.inChannel t c o && decide (o < stackBytes)
      | none => false))
  let d := found.foldl (fun d o =>
    if (d.stack t).bad o then d else d.uncorrectable (d.mapOfRow t (o / 4194304)).1 t o (d.mapOfRow t (o / 4194304)).2) d0
  let x := d.stack t
  match x.repairing, x.repaired with
  | true, some c =>
    let mine (e : PoisonEnt) : Bool := e.log2 == 6 && d.inChannel t c e.addr
    let moved := (x.poison.filter mine).foldl (fun l y => insertSorted (y.addr / 256 * 256) l) x.repairPoison
    let kept := x.poison.filter (fun y => !mine y)
    let d1 := d.putStack t { x with repairing := false, poison := kept, repairPoison := moved }
    let d2 := if d1.regs.repairStatus = 1 ∧ d1.regs.repairStack = t then d1.setRegs { d1.regs with repairStatus := 2 }
              else d1
    d2.raise { code := evRepairDone, unit := unit24 t uiStackCtl, payload := leBytes 1 c }
  | _, _ => d

/-- REPAIR_COPY_DONE (R291). -/
def execRepairCopyDone (copy : RepairCopy) (s : State) : Host.Outcome State Fault Refusal :=
  .next (s.onDev (fun d => if stackOk copy.stack then d.repairDone copy.stack copy.lost else d))

/-- A repair request (R517, R561). -/
def Dev.repairRequest (d : Dev) (t c : Nat) : Dev :=
  let x := d.stack t
  let set (d : Dev) (st : Nat) : Dev :=
    d.setRegs { d.regs with repairStack := t, repairCh := c, repairStatus := st }
  if !stackOk t || decide (32 ≤ c) then d
  else if d.stackOut t then set d 3
  else if x.repairing then set d 5
  else if x.repaired.isSome then set d 4
  else (set d 1).startRepair t c

/-- MEM_REPAIR_CTL_START (R517). -/
def execMemRepairCtlStart (stack channel : Nat) (s : State) : Host.Outcome State Fault Refusal :=
  .next (s.onReg (fun d => d.repairRequest stack channel))

/-- A retraining request (R518, R561): a stack holds one. -/
def Dev.retrainRequest (d : Dev) (t p : Nat) : Dev :=
  if !stackOk t || decide (64 ≤ p) then d
  else
    let busy := (d.stack t).queued.isSome
    let d1 := d.setRegs { d.regs with retrainStack := t, retrainPch := p, retrainIgnored := busy }
    if busy then d1 else d1.modStack t (fun x => { x with queued := some p })

/-- MEM_RETRAIN_CTL_REQUEST (R518). -/
def execMemRetrainCtlRequest (stack pch : Nat) (s : State) : Host.Outcome State Fault Refusal :=
  .next (s.onReg (fun d => d.retrainRequest stack pch))

end Sys2Proof.Machine
end

