-- ==== Sys2Proof/Machine/TierRows.lean ====
section
/-!
DEFINITION. The crock ports and the rows of the tier engine (R295 to R313, R519).
-/

namespace Sys2Proof.Machine

def iodOk (i : Nat) : Bool := decide (i < 4)

/-! Ports. -/

/-- What a port may train to (R295): x16 or x8, 64 or 32 GT/s. -/
def crockLinkOk (width speed : Nat) : Bool := (width == 16 || width == 8) && (speed == 6 || speed == 5)

/-- CROCK_PRESENT on the device (R295, R296, R297, R307): the capacity of the smallest expander counts on each port; 64 frames
are the device spare. Once per boot, from device step 7 on: where a port is missing then, the crock stays absent. -/
def Dev.crockPresent (d : Dev) (caps : List Nat) (links : List (Nat × Nat)) : Dev :=
  if d.crock.present || decide (d.trust.step < 7) || d.crock.asked || caps.length != 4 then d
  else
    let link (i : Nat) : Nat × Nat := links.getD i (16, 6)
    let up (i : Nat) (x : CrockPort) : Bool := caps.getD i 0 != 0 && !x.fenced && crockLinkOk (link i).1 (link i).2
    let go (i : Nat) (x : CrockPort) : CrockPort :=
      if up i x then { x with st := 2, width := (link i).1, speed := (link i).2 } else { x with st := 0 }
    let d0 := d.setCrock { d.crock with asked := true }
    let d1 := (List.range 4).foldl (fun d i => d.putCport i (go i (d.cport i))) d0
    if (List.range 4).any (fun i => !up i (d.cport i)) then d1
    else
      let cap := minOr 0 caps
      let total := 4 * cap * 512
      d1.setCrock { d1.crock with present := true, capGib := cap, frames := total - 64, fresh := 0,
                                  spare := (List.range 64).map (fun i => total - 64 + i) }

/-- CROCK_PRESENT (R296). -/
def execCrockPresent (found : CrockFound) (s : State) : Host.Outcome State Fault Refusal :=
  .next (s.onDev (fun d => d.crockPresent found.caps found.links))

/-- The migrations in flight fail when a port goes down: each has requests outstanding on every port (R297, R303, R313). -/
def Dev.dropMoves (d : Dev) : Dev :=
  (d.parts.flatMap (fun e => e.2.tier.page.map (fun z => (e.1, z)))).foldl (fun d w =>
    match w.2.2 with
    | .moving _ cf promote k => (d.crockEvent w.1 (cf * pageBytes + 4096 * k) stTierError).abandon w.1 w.2.1 (!promote)
    | _ => d) d

/-- CROCK_LINK_DOWN on the device (R313): what is outstanding fails, firmware retrains the port, and every access to its
granules fails meanwhile. -/
def Dev.crockDown (d : Dev) (i : Nat) : Dev :=
  if iodOk i && (d.cport i).st == 2 then (d.putCport i { d.cport i with st := 1 }).dropMoves else d

/-- CROCK_LINK_DOWN (R313). -/
def execCrockLinkDown (i : Nat) (s : State) : Host.Outcome State Fault Refusal := .next (s.onDev (fun d => d.crockDown i))

/-- CROCK_PORT_RETRAINED on the device (R313, R519). -/
def Dev.crockRetrained (d : Dev) (i : Nat) (ok : Bool) (width speed : Nat) : Dev :=
  let x := d.cport i
  if !(iodOk i && x.st == 1 && !x.fenced) then d
  else if ok && crockLinkOk width speed then d.putCport i { x with st := 2, width := width, speed := speed }
  else d.putCport i { x with st := 0 }

/-- CROCK_PORT_RETRAINED (R313). -/
def execCrockPortRetrained (i : Nat) (ok : Bool) (width speed : Nat) (s : State) : Host.Outcome State Fault Refusal :=
  .next (s.onDev (fun d => d.crockRetrained i ok width speed))

/-- MEM_CROCK_CTL_RETRAIN on the device (R519): bit i retrains the port of IOD i. -/
def Dev.crockRetrain (d : Dev) (mask : Nat) : Dev :=
  (setBits 4 mask).foldl (fun d i =>
    let x := d.cport i
    if x.fenced then d
    else
      let d1 := d.putCport i { x with st := 1 }
      if x.st = 2 then d1.dropMoves else d1) d

/-- MEM_CROCK_CTL_RETRAIN (R519). -/
def execMemCrockCtlRetrain (mask : Nat) (s : State) : Host.Outcome State Fault Refusal :=
  .next (s.onReg (fun d => d.crockRetrain mask))

/-! Migration (R302, R303). -/

/-- TIER_PROMOTION on the device (R302, R306): the page must be CROCK and due: named by a hint or a prefetch, or accessed
twice in the aging period. A prefetch that finds no free frame is dropped and counted. -/
def Dev.tierPromotion (d : Dev) (p pg : Nat) : Dev :=
  match d.part p with
  | none => d
  | some x =>
    let t := x.tier
    match t.st pg with
    | .crock cf =>
      let pre := t.queue.contains pg
      if d.tierBusy || !(pre || t.hints.contains pg || t.twice.contains pg) then d
      else
        match t.frames with
        | [] => if pre then (d.putPart p { x with tier := { t with queue := t.queue.filter (· != pg) } }).count
                              (unitPart p) 0 1
                else d
        | tf :: rest =>
          d.putPart p { x with tier := { t with
            frames := rest, page := kset t.page pg (.moving tf cf true 0), queue := t.queue.filter (· != pg),
            hints := t.hints.filter (· != pg), twice := t.twice.filter (· != pg) } }
    | _ => if t.queue.contains pg ∨ t.hints.contains pg then
             d.putPart p { x with tier := { t with queue := t.queue.filter (· != pg),
                                                   hints := t.hints.filter (· != pg) } }
           else d

/-- TIER_PROMOTION (R302). -/
def execTierPromotion (p page : Nat) (s : State) : Host.Outcome State Fault Refusal :=
  .next (s.onDev (fun d => d.tierPromotion p page))

/-- TIER_DEMOTION on the device (R302): a page that a hint named, or, while fewer than 8 frames are free, the sweep's
victim. -/
def Dev.tierDemotion (d : Dev) (p : Nat) : Dev :=
  match d.part p with
  | none => d
  | some x =>
    let t := x.tier
    match t.cframes with
    | [] => d
    | cf :: crest =>
      if d.tierBusy then d
      else
        let go (t : Tier) (pg tf : Nat) : Dev := d.putPart p { x with tier := t.demoting pg tf cf crest }
        let hinted := t.demote.findSome? (fun pg => match t.st pg with
          | .stack f => if d.demotable t pg f then some (pg, f) else none
          | _ => none)
        match hinted with
        | some (pg, f) => go t pg f
        | none =>
          if 8 ≤ t.frames.length then d
          else
            match d.sweepTier t with
            | (t1, some (pg, f)) => go t1 pg f
            | (t1, none) => d.putPart p { x with tier := t1 }

/-- TIER_DEMOTION (R302). -/
def execTierDemotion (p : Nat) (s : State) : Host.Outcome State Fault Refusal :=
  .next (s.onDev (fun d => d.tierDemotion p))

/-- AGING_PERIOD on the device (R302): the accesses of CROCK pages are counted afresh. -/
def Dev.agingPeriod (d : Dev) (p : Nat) : Dev :=
  d.modTier p (fun t => { t with
    twice := []
    accessed := t.accessed.filter (fun pg => match t.st pg with
      | .crock _ => false
      | _ => true) })

/-- AGING_PERIOD (R302). -/
def execAgingPeriod (p : Nat) (s : State) : Host.Outcome State Fault Refusal :=
  .next (s.onDev (fun d => d.agingPeriod p))

/-- MIGRATION_CHUNK on the device (R303): a chunk whose read or write fails abandons the migration, with the event of the crock
access that failed (R308, R311). A cup that is never served keeps the engine waiting (R304, R449). -/
def Dev.migrationChunk (d : Dev) (p pg : Nat) (ok : Bool) : Dev :=
  match d.part p with
  | none => d
  | some x =>
    match x.tier.st pg with
    | .moving _ cf promote k =>
      if (List.range 4).any (fun i => d.cupShut p (36 + i)) then d
      else if !ok || !d.crockUp then
        (d.crockEvent p (cf * pageBytes + 4096 * k) stTierError).abandon p pg (!promote)
      else d.moveChunk p pg
    | _ => d

/-- MIGRATION_CHUNK (R303). -/
def execMigrationChunk (p page : Nat) (ok : Bool) (s : State) : Host.Outcome State Fault Refusal :=
  .next (s.onDev (fun d => d.migrationChunk p page ok))

/-! Failed and late requests (R309 to R312). -/

/-- The partition of a crock request's user. -/
def Dev.userPart (d : Dev) (u : CrockUser) : Nat :=
  match u with
  | .command r => r.f
  | .run k => match d.run k with
              | some x => x.part
              | none => 0
  | .channel c => (d.dma c).part
  | .migration p _ => p
  | .fabric _ _ => 0

/-- A crock request of a user ends with a tier status (R311): its own command carries it; a migration is abandoned. -/
def Dev.crockFails (d : Dev) (u : CrockUser) (a st : Nat) : Dev :=
  let d1 := d.crockEvent (d.userPart u) a st
  match u with
  | .command r =>
    (match d1.cmd r with
     | some c => if c.phase = .running then d1.mark r (.fail st) else d1
     | none => d1)
  | .run _ => d1
  | .channel c =>
    (match (d1.dma c).xfer with
     | some t => if t.bad then d1
                 else (d1.putDma c { d1.dma c with xfer := some { t with status := st, bad := true } }).dmaBad c t.idx st
     | none => d1)
  | .fabric _ _ => d1
  | .migration p pg => d1.abandon p pg (match d1.part p with
    | some x => (match x.tier.st pg with
      | .moving _ _ promote _ => !promote
      | _ => false)
    | none => false)

/-- The user of a request has it on its way: its command runs, its channel moves, its page migrates. -/
def Dev.userLive (d : Dev) (u : CrockUser) : Bool :=
  match u with
  | .command r => match d.cmd r with
                  | some c => c.phase == .running
                  | none => false
  | .run _ => false
  | .channel c => (d.dma c).xfer.isSome
  | .migration p pg => match d.part p with
                       | some x => match x.tier.st pg with
                                   | .moving _ _ _ _ => true
                                   | _ => false
                       | none => false
  | .fabric _ _ => false

/-- The user will make its request in the row that does its work: a command that waits, a run that works, a message whose parts
have come. -/
def Dev.userComing (d : Dev) (u : CrockUser) : Bool :=
  match u with
  | .command r => match d.cmd r with
                  | some c => c.phase == .waiting
                  | none => false
  | .run k => match d.run k with
              | some x => !x.ended
              | none => false
  | .fabric src _ => (kfind d.fab.srcs src).isSome
  | _ => false

/-- A crock request ends with a tier status: at once, or where the row that makes it comes later, in that row, at the next access
to the sector (DESIGN CHOICE, log 95). -/
def Dev.crockMiss (d : Dev) (u : CrockUser) (a st : Nat) : Dev :=
  if d.userLive u then d.crockFails u a st
  else if d.userComing u then d.setCrock { d.crock with due := d.crock.due ++ [(a, st)] }
  else d

/-- CROCK_REQUEST_LATE (R309). -/
def execCrockRequestLate (u : CrockUser) (addr : Nat) (s : State) : Host.Outcome State Fault Refusal :=
  .next (s.onDev (fun d => d.crockMiss u addr stTierTimeout))

/-- CROCK_ACCESS_FAILED (R310). -/
def execCrockAccessFailed (u : CrockUser) (addr : Nat) (s : State) : Host.Outcome State Fault Refusal :=
  .next (s.onDev (fun d => d.crockMiss u addr stTierError))

end Sys2Proof.Machine
end

