-- ==== Sys2Proof/Machine/SafetyRows.lean ====
section
/-!
DEFINITION. The safety monitor: fences, safe stop, fault counting, retirement, the self-test rotation, and the sleep of
cores (R28, R462, R463, R466 to R483).
-/

namespace Sys2Proof.Machine

def coreOk (g : Nat) : Bool := decide (g < 128)

/-! Runs that meet a fault. -/

/-- A run ends where it stands: no core of it does anything more. -/
def Run.kill (x : Run) (m : Marks) : Run :=
  { x with marks := x.marks.join m, cores := x.cores.map (fun c => { c with todo := [], done := true }) }

/-- Kill the runs of a kind. -/
def Dev.killRuns (d : Dev) (sel : Run → Bool) (m : Marks) : Dev :=
  d.setRuns (d.runs.map (fun e => if sel e.2 && !e.2.ended then (e.1, e.2.kill m) else e))

def Run.onCore (x : Run) (g : Nat) : Bool := x.cores.any (fun c => c.core == g)
def Run.onSkillet (x : Run) (k : Nat) : Bool := x.cores.any (fun c => c.core / 8 == k)

/-- A core has nothing to run. -/
def Dev.coreIdle (d : Dev) (g : Nat) : Bool := !d.runs.any (fun e => !e.2.ended && e.2.onCore g)

/-- A command that has ended and whose last write on the die its clean mark has not passed turns POISONED (R467), and so
does one that is still moving data there (R472). -/
def Cmd.catch (c : Cmd) (die mark : Nat) : Cmd :=
  if c.phase = .running ∧ c.dies.any (fun x => x.1 == die) then { c with marks := c.marks.join (.cause caFenced) }
  else if c.phase = .ended ∧ c.dies.any (fun x => x.1 == die && decide (mark < x.2)) then
    { c with status := stPoisoned, detail := if c.status = stPoisoned then min c.detail caFenced else caFenced,
             result0 := 0, result1 := 0 }
  else c

/-- A pass that has ended, likewise. -/
def Run.catch (x : Run) (die mark : Nat) : Run :=
  if x.ended ∧ x.release.any (fun z => z.1 == die && decide (mark < z.2)) then x.kill (.cause caFenced) else x

/-- The held completions of a die meet its fault. -/
def Dev.catchHeld (d : Dev) (die : Nat) : Dev :=
  let m : Nat := kget d.saf.clean die 0
  (d.setQps (d.qps.map (fun e => (e.1, { e.2 with cmds := e.2.cmds.map (fun c => c.catch die m) })))).setRuns
    (d.runs.map (fun e => (e.1, e.2.catch die m)))

/-! Retirement (R475 to R477). -/

/-- A core leaves its partition's core set and every registered stage table (R477). -/
def Part.dropCore (x : Part) (g : Nat) : Part :=
  { x with cores := x.cores.filter (· != g),
           progs := x.progs.map (fun e =>
             (e.1, { e.2 with stages := e.2.stages.map (fun k => { k with cores := k.cores.filter (fun c => c.1 != g) }) })) }

/-- Retire a core: reason 0 two faults, 1 self-test (R477, R482, R505, R534). -/
def Dev.retireCore (d : Dev) (g reason cause : Nat) : Dev :=
  if (d.core g).retired then d
  else
    let owner := (d.coreOwner g).getD 0
    let d1 := d.modCore g (fun c => { c with retired := true, clk := .cold, reserved := false, testing := false })
    let d2 := d1.logHealth (fun f => { f with retired := insertSorted g f.retired })
    let d3 := (d2.killRuns (fun x => x.onCore g) (if cause = 0 then .cause caFenced else .cause cause)).modPart owner
      (fun x => x.dropCore g)
    (d3.raise { code := evCoreRetired, part := owner, unit := unitCore g, cause := cause,
                payload := leBytes 1 g ++ leBytes 1 reason ++ leBytes 2 cause }).alert 6

/-- 3,600 s of a 50 MHz clock. -/
abbrev faultWindow : Nat := 180000000000

/-- A counted fault of a core (R475): the second within 3,600 s retires it. -/
def Dev.countFault (d : Dev) (g cause : Nat) : Dev :=
  let now := d.aoOf (g / 8)
  match (d.core g).lastFault with
  | some t =>
    if now ≤ t + faultWindow then
      (d.modCore g (fun c => { c with lastFault := some now })).retireCore g 0 cause
    else d.modCore g (fun c => { c with lastFault := some now })
  | none => d.modCore g (fun c => { c with lastFault := some now })

/-! Safe stop (R474). -/

/-- Safe stop, with its reason of R482. -/
def Dev.safeStopNow (d : Dev) (reason : Nat) : Dev :=
  if d.saf.safeStop then d
  else
    let d1 := (d.setSaf { d.saf with safeStop := true, safeReason := reason }).alert 0
    d1.raise { code := evSafeStop, unit := unit24 dieCd uiDie, payload := leBytes 1 reason }

/-! Fences (R472). -/

/-- The FENCE record, and the alert of a fenced unit (R482, R534): reason 0 clock, 1 rail, 2 temperature, 3 compare,
4 self-test. -/
def Dev.fenceRec (d : Dev) (die idx reason : Nat) : Dev :=
  (d.raise { code := evFence, unit := unit24 die idx,
             payload := leBytes 1 die ++ leBytes 2 idx ++ leBytes 1 reason }).alert 1

/-- A core alone: the fence counts as a fault of the core (R475). -/
def Dev.fenceCore (d : Dev) (g reason : Nat) : Dev :=
  if (d.core g).fenced then d
  else
    let d1 := d.modCore g (fun c => { c with fenced := true, clk := .cold, testing := false })
    ((d1.killRuns (fun x => x.onCore g) (.cause caFenced)).fenceRec (g / 8) (g % 8) reason).countFault g caFenced

/-- A skillet: its cores, its stockpot contents, its whisk and its engine; the stack is served as lost meanwhile. -/
def Dev.fenceSkillet (d : Dev) (k reason : Nat) : Dev :=
  if (d.skillet k).fenced then d
  else
    let d1 := d.modSkillet k (fun x => { x with fenced := true })
    let d2 := (List.range 8).foldl (fun d i => d.modCore (8 * k + i) (fun c => { c with clk := .cold, testing := false })) d1
    (((d2.killRuns (fun x => x.onSkillet k) (.cause caFenced)).potPoison (potKeyAt k 0) 134217728).catchHeld k).fenceRec
      k uiDie reason

def Dev.fenceStackCtl (d : Dev) (k reason : Nat) : Dev :=
  if (d.skillet k).ctlFenced then d
  else (d.modSkillet k (fun x => { x with ctlFenced := true })).fenceRec k uiStackCtl reason

def Dev.fenceEngine (d : Dev) (k reason : Nat) : Dev :=
  if (d.skillet k).engineFenced then d
  else (d.modSkillet k (fun x => { x with engineFenced := true })).fenceRec k uiEngine reason

/-- A fabric port goes down: its replay buffer is discarded (R418). -/
def Dev.portDown (d : Dev) (p : Nat) : Dev :=
  let x := d.port p
  d.putPort p { x with st := 0, replay := [], replays := 0, waiting := [] }

def Dev.fenceFabPort (d : Dev) (p reason : Nat) : Dev :=
  if (d.port p).fenced then d
  else
    let d1 := d.portDown p
    (d1.putPort p { d1.port p with fenced := true }).fenceRec (dieIod (p / 2)) (uiFab (p % 2)) reason

def Dev.fenceCrockPort (d : Dev) (i reason : Nat) : Dev :=
  if (d.cport i).fenced then d
  else (d.putCport i { d.cport i with fenced := true, st := 0 }).fenceRec (dieIod i) uiCrock reason

/-- IOD1 to IOD3: fabric ports and crock port down, DMA channels end with POISONED. IOD0 is a safe stop. -/
def Dev.fenceIod (d : Dev) (i reason : Nat) : Dev :=
  if i = 0 then d.safeStopNow 4
  else if d.saf.iodFenced.contains i then d
  else
    let d1 := d.setSaf { d.saf with iodFenced := insertSorted i d.saf.iodFenced }
    let d2 := (d1.portDown (2 * i)).portDown (2 * i + 1)
    let d3 := (d2.putCport i { d2.cport i with st := 0 })
    let d4 := (List.range 32).foldl (fun d c => d.dmaAbort (32 * i + c) stPoisoned) d3
    (d4.catchHeld (dieIod i)).fenceRec (dieIod i) uiDie reason

/-- Commands under junction die `j` (R28): passes of programs of its parity (R131), and GRAPH_RUNs of pairs whose
entries it stamps (R349). -/
def Dev.underJd (d : Dev) (j : Nat) (x : Run) : Bool :=
  match x.cmd with
  | some r => match d.qp r.f r.q with
              | some q => q.num % 2 == j
              | none => false
  | none => x.prog % 2 == j

/-- Commands of I/O pairs that execute under junction die `j` and are no runs, a halo COPY or a CTX_RETIRE, fail (R28). -/
def Dev.markJd (d : Dev) (j : Nat) : Dev :=
  d.setQps (d.qps.map (fun e =>
    if e.1 % 128 ≠ 0 ∧ e.2.num % 2 = j then
      (e.1, { e.2 with cmds := e.2.cmds.map (fun c =>
        if c.phase = .running then { c with marks := c.marks.join (.cause caFenced) } else c) })
    else e))

/-- A subscriber misses a tile (R105): the core counts it and fetches the tile itself. -/
def Dev.missTile (d : Dev) (part prog tile g : Nat) : Dev :=
  let d1 := d.setRuns (d.runs.map (fun e =>
    if e.2.part = part ∧ e.2.prog = prog ∧ !e.2.ended then
      (e.1, { e.2 with cores := e.2.cores.map (fun c =>
        if c.core = g ∧ c.subs.contains tile then { c with subs := c.subs.erase tile, got := c.got ++ [tile + 2 ^ 40] } else c) })
    else e))
  d1.count (unitCore g) ctMiss 1

/-- A junction die (R28); the second one is a safe stop (R472). Subscribers of its multicast entries miss (R106). -/
def Dev.fenceJd (d : Dev) (j reason : Nat) : Dev :=
  if (d.jd j).fenced then d
  else if (d.jd (1 - j)).fenced then d.safeStopNow 5
  else
    let lost := (d.jd j).mcast
    let d0 := d.putJd j { d.jd j with fenced := true, own := [], other := [], mcast := [] }
    let d1 := lost.foldl (fun d m => m.subs.foldl (fun d g => d.missTile m.part m.prog m.tile g) d) d0
    (((d1.killRuns (fun x => d1.underJd j x) (.cause caFenced)).markJd j).catchHeld (dieJd j)).fenceRec (dieJd j) uiDie reason

/-- The fence of a whole die; the control dies make a safe stop. -/
def Dev.fenceDie (d : Dev) (die reason : Nat) : Dev :=
  if die < 16 then d.fenceSkillet die reason
  else if die < 20 then d.fenceIod (die - 16) reason
  else if die < 22 then d.fenceJd (die - 20) reason
  else d.safeStopNow (if reason = 2 then 3 else if reason = 1 then 2 else if reason = 0 then 1 else 0)

/-- A die's rail or its own clock leaves its window: its clean mark stands still (R467). A fault of one unit's clock takes
that unit out of service, and the mark of the die goes on (DEDUCED, log 24). -/
def Dev.soil (d : Dev) (die : Nat) : Dev := d.setSaf { d.saf with railBad := insertSorted die d.saf.railBad }

/-- The unit index that a clock domain belongs to (R483). -/
def clockUnit (die dom : Nat) : Nat :=
  if die < 16 then
    if dom < 8 then dom else if dom = 9 then uiStackCtl else if dom = 10 then uiEngine else uiDie
  else if die < 20 then
    if dom = 2 then uiCrock else if dom = 3 then uiFab 0 else if dom = 4 then uiFab 1 else uiDie
  else uiDie

/-- The domains of R483. -/
def clockDomOk (die dom : Nat) : Bool :=
  if die < 16 then decide (dom ≤ 10)
  else if die = 16 then decide (dom ≤ 4)
  else if die < 20 then decide (dom ≤ 4) && dom != 1
  else if die < 22 then dom == 0
  else if die = 22 then decide (dom ≤ 1)
  else false

/-- CLOCK_MONITOR_FAULT on the device (R468, R472, R483). -/
def Dev.clockFault (d : Dev) (die dom mhz : Nat) : Dev :=
  if !clockDomOk die dom then d
  else
    let d1 := (d.raise { code := evClockFault, unit := unit24 die (clockUnit die dom), cause := caFenced,
                         payload := leBytes 1 die ++ leBytes 1 dom ++ leBytes 2 mhz }).catchHeld die
    if die < 16 then
      if dom < 8 then d1.fenceCore (8 * die + dom) 0
      else if dom = 8 then (d1.soil die).fenceSkillet die 0
      else if dom = 9 then d1.fenceStackCtl die 0
      else d1.fenceEngine die 0
    else if die < 20 then
      if dom < 2 then (d1.soil die).fenceIod (die - 16) 0
      else if dom = 2 then d1.fenceCrockPort (die - 16) 0
      else d1.fenceFabPort (2 * (die - 16) + (dom - 3)) 0
    else (d1.soil die).fenceDie die 0

/-- CLOCK_MONITOR_FAULT (R468). -/
def execClockMonitorFault (die domain mhz : Nat) (s : State) : Host.Outcome State Fault Refusal :=
  .next (s.onDev (fun d => d.clockFault die domain mhz))

/-- The rails of R483. -/
def railOk (die rail : Nat) : Bool :=
  if die < 16 then decide (rail ≤ 2)
  else if die < 20 then decide (rail ≤ 1)
  else if die < 22 then rail == 0
  else if die = 22 then decide (rail ≤ 1)
  else false

/-- RAIL_MONITOR_FAULT on the device (R468, R472, R483). -/
def Dev.railFault (d : Dev) (die rail mv : Nat) : Dev :=
  if !railOk die rail then d
  else
    let d1 := (d.soil die).raise { code := evRailFault, unit := unit24 die uiDie, cause := caFenced,
                                   payload := leBytes 1 die ++ leBytes 1 rail ++ leBytes 2 mv }
    let d2 := if die < 16 ∧ rail = 2 then d1.setSaf { d1.saf with dramBad := insertSorted die d1.saf.dramBad } else d1
    d2.fenceDie die 1

/-- RAIL_MONITOR_FAULT (R468). -/
def execRailMonitorFault (die rail mv : Nat) (s : State) : Host.Outcome State Fault Refusal :=
  .next (s.onDev (fun d => d.railFault die rail mv))

/-- LOCKSTEP_MISMATCH (R474). -/
def execLockstepMismatch (s : State) : Host.Outcome State Fault Refusal :=
  .next (s.onDev (fun d => d.safeStopNow 0))

/-- JUNCTION_COMPARE_MISMATCH (R28). -/
def execJunctionCompareMismatch (j : Nat) (s : State) : Host.Outcome State Fault Refusal :=
  .next (s.onDev (fun d => if j < 2 then d.fenceJd j 3 else d))

/-! Return to service (R473). -/

def Dev.restored (d : Dev) (die idx : Nat) : Dev :=
  (d.setSaf { d.saf with railBad := d.saf.railBad.filter (· != die) }).raise
    { code := evRestored, unit := unit24 die idx, payload := leBytes 1 die ++ leBytes 2 idx }

/-- The whole usable range as 1,920 entries of 64 MiB (R473). -/
def poisonAll : List PoisonEnt := (List.range 1920).map (fun i => { addr := 67108864 * i, log2 := 26 })

/-- UNIT_RETURN on the device (R473): a fenced junction die stays fenced. -/
def Dev.unitReturn (d : Dev) (u : FenceUnit) : Dev :=
  match u with
  | .core g =>
    if coreOk g && (d.core g).fenced then
      (d.modCore g (fun c => { c with fenced := false, lastTest := d.aoOf (g / 8), overdue := false })).restored
        (g / 8) (g % 8)
    else d
  | .skillet k =>
    if (d.skillet k).fenced ∧ k < 16 ∧ !(d.skillet k).microcodeBad then
      let d1 := d.modSkillet k (fun x => { x with fenced := false })
      let d2 := if d.saf.dramBad.contains k then
          (d1.modStack k (fun x => { x with poison := poisonAll })).setSaf
            { d1.saf with dramBad := d1.saf.dramBad.filter (· != k) } else d1
      ((List.range 8).foldl (fun d i => d.modCore (8 * k + i) (fun c =>
        { c with lastTest := d.aoOf k, overdue := false })) d2).restored k uiDie
    else d
  | .stackCtl k =>
    if (d.skillet k).ctlFenced then (d.modSkillet k (fun x => { x with ctlFenced := false })).restored k uiStackCtl
    else d
  | .engine k =>
    if (d.skillet k).engineFenced then (d.modSkillet k (fun x => { x with engineFenced := false })).restored k uiEngine
    else d
  | .jd _ => d
  | .iod i =>
    if d.saf.iodFenced.contains i then
      let d1 := d.setSaf { d.saf with iodFenced := d.saf.iodFenced.filter (· != i) }
      let d2 := if (d1.cport i).fenced then d1 else d1.putCport i { d1.cport i with st := 1 }
      d2.restored (dieIod i) uiDie
    else d
  | .crockPort i =>
    if (d.cport i).fenced then (d.putCport i { d.cport i with fenced := false, st := 1 }).restored (dieIod i) uiCrock
    else d
  | .fabPort p =>
    if (d.port p).fenced then
      (d.putPort p { d.port p with fenced := false, st := 1 }).restored (dieIod (p / 2)) (uiFab (p % 2))
    else d

/-- UNIT_RETURN (R473). -/
def execUnitReturn (u : FenceUnit) (s : State) : Host.Outcome State Fault Refusal :=
  .next (s.onDev (fun d => d.unitReturn u))

/-! The self-test rotation (R478 to R481). -/

/-- A core can be tested: in service, idle, not fenced. -/
def Dev.testable (d : Dev) (g : Nat) : Bool :=
  coreOk g && !(d.core g).retired && !d.coreFenced g && d.coreIdle g

/-- A skillet that is being drained takes no core and no share (R515). -/
def Dev.draining (d : Dev) (k : Nat) : Bool := bit d.regs.drain k

/-- A first-and-last-layer engine that serves references: neither fenced nor drained, its answers right (R472, R480, R510, R515). -/
def Dev.engineUp (d : Dev) (k : Nat) : Bool :=
  !(d.skillet k).fenced && !(d.skillet k).engineFenced && (d.skillet k).engineOk && !d.draining k

/-- The engine that computes the references of a core's test (R479). -/
def Dev.refEngine (d : Dev) (g : Nat) : Option Nat :=
  let k := g / 8
  if d.engineUp (k ^^^ 1) then some (k ^^^ 1) else if d.engineUp (k ^^^ 2) then some (k ^^^ 2) else none

/-- A test can begin on a core: it is testable, and an engine supplies its references (R479, R481). -/
def Dev.testStarts (d : Dev) (g : Nat) : Bool := d.testable g && (d.refEngine g).isSome

/-- SELFTEST_END on the device (R479, R476). -/
def Dev.testEnd (d : Dev) (g : Nat) (ok : Bool) (step : Nat) : Dev :=
  if !(coreOk g && (d.core g).testing) then d
  else
    let d1 := d.modCore g (fun c => { c with testing := false, reserved := false })
    if ok then d1.modCore g (fun c => { c with lastTest := d.aoOf (g / 8), overdue := false })
    else
      (d1.raise { code := evSelftestFail, unit := unitCore g,
                  payload := leBytes 1 step ++ leBytes 4 (d.unit (unitCore g)) }).retireCore g 1 0

/-- SELFTEST_END (R479). -/
def execSelftestEnd (c : Nat) (ok : Bool) (step : Nat) (s : State) : Host.Outcome State Fault Refusal :=
  .next (s.onDev (fun d => d.testEnd c ok step))

/-- SELFTEST_DEADLINE (R481): no new work until a test passes. -/
def execSelftestDeadline (c : Nat) (s : State) : Host.Outcome State Fault Refusal :=
  .next (s.onDev (fun d =>
    if coreOk c && !(d.core c).retired && !(d.core c).overdue then
      (d.modCore c (fun x => { x with overdue := true })).raise
        { code := evSelftestOverdue, unit := unitCore c, payload := leBytes 1 c }
    else d))

/-- The unit that a mechanism test tests. -/
def mechUnit : Mechanism → Nat
  | .stackDecoder k => unit24 k uiStackCtl
  | .crossbarLink die => unit24 die uiDie
  | .junctionCompare j => unit24 (dieJd j) uiDie
  | .lockstep => unit24 dieCd uiDie
  | .monitors die => unit24 die uiDie
  | .engineResidue k => unit24 k uiEngine

/-- What R480 prescribes for a failed mechanism. -/
def Dev.mechFails (d : Dev) (m : Mechanism) : Dev :=
  match m with
  | .stackDecoder k => if stackOk k then d.loseStack k else d
  | .crossbarLink die => d.fenceDie die 4
  | .junctionCompare j => if j < 2 then d.fenceJd j 4 else d
  | .lockstep => d.safeStopNow 0
  | .monitors die => d.fenceDie die 4
  | .engineResidue k => d.modSkillet k (fun x => { x with engineOk := false })

/-- MECHANISM_TEST (R480). -/
def execMechanismTest (m : Mechanism) (ok : Bool) (s : State) : Host.Outcome State Fault Refusal :=
  .next (s.onDev (fun d =>
    if ok then d
    else (d.raise { code := evSelftestFail, unit := mechUnit m,
                    payload := leBytes 1 0 ++ leBytes 4 (d.unit (mechUnit m)) }).mechFails m))

/-! Sleep (R462, R463). -/

/-- CORE_IDLE_COOL (R462): Warm to Cool, unless Cold comes first (R559). -/
def execCoreIdleCool (c : Nat) (s : State) : Host.Outcome State Fault Refusal :=
  .next (s.onDev (fun d =>
    if coreOk c && d.coreIdle c && (d.core c).clk == .warm && decide (d.pwr.idleCool < d.pwr.idleCold) then
      d.modCore c (fun x => { x with clk := .cool })
    else d))

/-- CORE_IDLE_COLD (R462). -/
def execCoreIdleCold (c : Nat) (s : State) : Host.Outcome State Fault Refusal :=
  .next (s.onDev (fun d =>
    if coreOk c && d.coreIdle c && ((d.core c).clk == .warm || (d.core c).clk == .cool) then
      d.modCore c (fun x => { x with clk := .cold })
    else d))

/-- A core that may start work: in service, not fenced, not withheld for a test (R472, R477, R478, R481). -/
def Dev.coreReady (d : Dev) (g : Nat) : Bool :=
  !(d.core g).retired && !d.coreFenced g && !(d.core g).reserved && !(d.core g).testing && !(d.core g).overdue

/-- CORE_WAKE (R463). -/
def execCoreWake (c : Nat) (s : State) : Host.Outcome State Fault Refusal :=
  .next (s.onDev (fun d =>
    if coreOk c && !(d.core c).retired && !d.coreFenced c then d.modCore c (fun x => { x with clk := .hot }) else d))

end Sys2Proof.Machine
end

