-- ==== Sys2Proof/Machine/Power.lean ====
section
/-!
DEFINITION. Measuring cups, the power and budget controller, its sensors, and heat (R441 to R465, R525, R534, R540,
R560).
-/

namespace Sys2Proof.Machine

/-! Cups. -/

/-- The cups counted on a die: index (half the offset in CUPS; 49 is the host link outward) and 4 × R (R442, R443). -/
def cupsOn (die : Nat) : List (Nat × Nat) :=
  if die < 16 then [(die, 176000), (16 + die, 200000)]
  else if die < 20 then
    let i := die - 16
    [(32 + i, 200000), (36 + i, 14000), (40 + i, 16000), (45 + i, 3125)] ++ (if i = 0 then [(44, 8000), (49, 8000)] else [])
  else []

/-- The offset in CUPS of a cup's entry. -/
def cupOff (k : Nat) : Nat := if k = 49 then 0x58 else 2 * k

/-- The grant of a period (R444). -/
def cupGrant (share r4 p : Nat) : Nat := share * r4 * p / 4096

/-- One cup at its boundary: the counters, and the records of the period (R444, R448, R451). -/
def CupCnt.refill (c : CupCnt) (now p k g : Nat) : CupCnt × List EvRec :=
  let key := cupKey p k
  let dry := c.ranDry.contains key
  let empty := kget c.empty key 0 + b2n dry
  let due := dry && (match kfind c.lastRec key with
    | some t => decide (50000 ≤ now - t)
    | none => true)
  ({ c with units := kset c.units key (g - min g (kget c.drawn key 0))
            drawn := kset c.drawn key 0
            ranDry := c.ranDry.filter (· != key)
            empty := kset c.empty key (if due then 0 else empty)
            lastRec := if due then kset c.lastRec key now else c.lastRec },
    if due then [{ code := evCupExhausted, part := p, unit := 0, payload := leBytes 1 (cupOff k) ++ leBytes 4 empty }]
    else [])

/-- The accepted entries that a die counts come into force (R450). -/
def Part.cupsDue (x : Part) (die : Nat) : Part :=
  let mine (e : Nat × Nat) : Bool := (cupsOn die).any (fun k => cupOff k.1 == e.1)
  { x with cups := (x.cupsNew.filter mine).foldl (fun m e => kset m e.1 e.2) x.cups,
           cupsNew := x.cupsNew.filter (fun e => !mine e) }

/-- CUP_PERIOD_BOUNDARY on the device (R441, R444, R450, R451). -/
def Dev.cupBoundary (d : Dev) (die : Nat) : Dev :=
  if 20 ≤ die then d
  else
    let d1 := d.setParts (d.parts.map (fun e => (e.1, e.2.cupsDue die)))
    let c0 := { d.cupsOf die with period := d.pwr.cupPeriod }
    let r := d1.parts.foldl (fun (acc : CupCnt × List EvRec) e =>
      (cupsOn die).foldl (fun acc k =>
        let share := kget e.2.cups (cupOff k.1) 0 % 2048
        let z := acc.1.refill (d.aoOf die) e.1 k.1 (cupGrant share k.2 d.pwr.cupPeriod)
        (z.1, acc.2 ++ z.2)) acc) (c0, [])
    r.2.foldl (fun d e => d.event { e with unit := unit24 die uiDie }) (d1.putCups die r.1)

/-- CUP_PERIOD_BOUNDARY (R444). -/
def execCupPeriodBoundary (die : Nat) (s : State) : Host.Outcome State Fault Refusal :=
  .next (s.onDev (fun d => d.cupBoundary die))

/-- Rows that a partition holds on a stack. -/
def Dev.rowsOn (d : Dev) (p t : Nat) : Nat :=
  (d.regions.map (fun e =>
    if e.2.part = p ∧ bit e.2.mask t then e.2.size / ((setBits 16 e.2.mask).length * 4194304) else 0)).foldl (· + ·) 0

/-- The least memory SHARE of a partition that holds `rows` on a stack (R331, R449). -/
def memShareMin (rows : Nat) : Nat := ceilDiv (1024 * rows) 30720

/-- Sum of the accepted SHAREs of every partition but `p` at an offset. -/
def Dev.shareSum (d : Dev) (p off : Nat) : Nat :=
  (d.parts.map (fun e => if e.1 = p then 0 else e.2.cupLast off % 2048)).foldl (· + ·) 0

/-- The largest sum of SHAREs of a resource (R449). -/
def shareMax (off : Nat) : Nat := if off = 0x58 then 992 else 1024

/-- A valid entry offset of CUPS (R443). -/
def cupOffOk (off : Nat) : Bool := off % 2 == 0 && decide (off ≤ 0x60)

/-- PWR_CUP_DATA on the device (R450, R560). -/
def Dev.cupData (d : Dev) (v : Nat) : Dev :=
  let off := d.pwr.selOff
  let res (d : Dev) (n : Nat) : Dev := d.setPwr { d.pwr with cupResult := n }
  match d.part d.pwr.selPart with
  | none => res d 4
  | some x =>
    if !cupOffOk off || bits v 14 11 != 0 || decide (1024 < v % 2048) || decide (65535 < v) then res d 4
    else if shareMax off < d.shareSum d.pwr.selPart off + v % 2048 then res d 2
    else if off < 0x20 ∧ v % 2048 < memShareMin (d.rowsOn d.pwr.selPart (off / 2)) then res d 3
    else
      res (d.putPart d.pwr.selPart { x with cupsNew := x.cupsNew.filter (fun e => e.1 != off) ++ [(off, v)] }) 1

/-- PWR_CUP_DATA (R560). -/
def execPwrCupData (v : Nat) (s : State) : Host.Outcome State Fault Refusal :=
  .next (s.onReg (fun d => d.cupData v))

/-! The cap (R453). -/

/-- The effective cap in W (R453). -/
def Pwr.effCap (x : Pwr) : Nat := min (min x.cap x.capMgmt) (if x.mode = 3 then 700 else 1200)

/-- CAP_CHANGED (R465): the effective caps before and after, DEDUCED, log 14. -/
def Dev.capEvent (d : Dev) (x : Pwr) (source : Nat) : Dev :=
  (d.setPwr x).event {
    code := evCapChanged, unit := unit24 dieCd uiDie,
    payload := leBytes 2 d.pwr.effCap ++ leBytes 2 x.effCap ++ leBytes 1 x.mode ++ leBytes 1 source }

def capOk (w : Nat) : Bool := decide (400 ≤ w) && decide (w ≤ 1200)

/-- A write of the cap (R453): a value outside 400 W to 1,200 W leaves it (R543). -/
def Dev.writeCap (d : Dev) (w : Nat) : Dev := if capOk w then d.capEvent { d.pwr with cap := w } 0 else d

/-- PWR_CAP (R453). -/
def execPwrCap (w : Nat) (s : State) : Host.Outcome State Fault Refusal := .next (s.onReg (fun d => d.writeCap w))

/-- A write of the power mode (R454). -/
def Dev.writeMode (d : Dev) (m : Nat) : Dev := if m < 4 then d.capEvent { d.pwr with mode := m } 0 else d

/-- PWR_MODE (R454). -/
def execPwrMode (m : Nat) (s : State) : Host.Outcome State Fault Refusal := .next (s.onReg (fun d => d.writeMode m))

/-! The loop (R452 to R455). Powers in 0.01 W. -/

/-- Demand of each class. -/
structure Demand where
  arrays : Nat
  periph : Nat
  pots : Nat
  mem : Nat
  io : Nat
  deriving DecidableEq, Repr

/-- The levers: array clock in 100 MHz, memory rate, link rate and duty in %. -/
structure Levers where
  clk : Nat := 19
  mem : Nat := 100
  link : Nat := 100
  duty : Nat := 100
  deriving DecidableEq, Repr

def Levers.full : Levers := {}

/-- Compute power at a clock, full duty. -/
def Demand.compute (x : Demand) (f : Nat) : Nat := ceilDiv (x.arrays * f) 19 + x.periph + x.pots

/-- What memory and links hold; the rest of their demand is variable (R452). -/
def Demand.memVar (x : Demand) : Nat := x.mem - 25500
def Demand.ioVar (x : Demand) : Nat := x.io - 4500

/-- Demand of everything, control included. -/
def Demand.total (x : Demand) : Nat := x.compute 19 + x.mem + x.io + 1500

/-- Memory sheds what is needed, to its floor of 25% of 165 W: the lever, and what is still needed. -/
def Demand.shedMem (x : Demand) (l : Levers) (need : Nat) : Levers × Nat :=
  let give := min need (x.memVar - 4125)
  (if give = 0 then l else { l with mem := (x.memVar - give) * 100 / 16500 }, need - give)

/-- Links shed, to their floor of 25% of 40 W. -/
def Demand.shedIo (x : Demand) (l : Levers) (need : Nat) : Levers × Nat :=
  let give := min need (x.ioVar - 1000)
  (if give = 0 then l else { l with link := (x.ioVar - give) * 100 / 4000 }, need - give)

/-- Compute sheds: the highest array clock that fits at full duty, then duty at 1.0 GHz, to 50% (R454). -/
def Demand.shedCompute (x : Demand) (l : Levers) (need : Nat) : Levers × Nat :=
  if need = 0 then (l, 0)
  else
    let full := x.compute 19
    match (List.range 10).find? (fun i => need ≤ full - x.compute (19 - i)) with
    | some i => ({ l with clk := 19 - i }, 0)
    | none =>
      let low := x.compute 10
      let duty := max 50 (min 100 ((full - need) * 100 / max 1 low))
      ({ l with clk := 10, duty := duty }, need - (full - ceilDiv (low * duty) 100))

/-- Shedding in the order of a mode, lowest priority first (R454). -/
def Demand.shed (x : Demand) (mode need : Nat) : Levers × Nat :=
  match mode with
  | 1 => let a := x.shedMem Levers.full need
         let b := x.shedIo a.1 a.2
         x.shedCompute b.1 b.2
  | 2 => let a := x.shedCompute Levers.full need
         let b := x.shedIo a.1 a.2
         x.shedMem b.1 b.2
  | _ => let a := x.shedIo Levers.full need
         let b := x.shedMem a.1 a.2
         x.shedCompute b.1 b.2

/-- Delivered power that the cap allows, at 92% efficiency, and at 95% of the cap while R458 says so. -/
def Pwr.allowed (x : Pwr) : Nat := if x.guard then x.effCap * 92 * 95 / 100 else x.effCap * 92

def Pwr.levers (x : Pwr) : Levers := { clk := x.clk, mem := x.mem, link := x.link, duty := x.duty }

/-- A lever leaves its full setting. -/
def Levers.leaves (old new : Levers) : Bool :=
  (old.clk == 19 && new.clk != 19) || (old.mem == 100 && new.mem != 100) || (old.link == 100 && new.link != 100)
    || (old.duty == 100 && new.duty != 100)

/-- POWER_LOOP on the device (R453 to R455, R465). -/
def Dev.powerLoop (d : Dev) (x : Demand) : Dev :=
  let r := x.shed d.pwr.mode (x.total - d.pwr.allowed)
  let l := r.1
  let now := d.aoOf dieCd
  let due := d.pwr.levers.leaves l && (match d.pwr.limitedAt with
    | some t => decide (500000 ≤ now - t)
    | none => true)
  let d1 := d.setPwr { d.pwr with clk := l.clk, mem := l.mem, link := l.link, duty := l.duty,
                                  withhold := decide (0 < r.2),
                                  limitedAt := if due then some now else d.pwr.limitedAt }
  if due then
    d1.event { code := evPowerLimited, unit := unit24 dieCd uiDie,
               payload := leBytes 1 d.pwr.mode ++ leBytes 1 l.clk ++ leBytes 1 l.mem ++ leBytes 1 l.link
                 ++ leBytes 1 l.duty }
  else d1

/-- POWER_LOOP (R453). -/
def execPowerLoop (arrays periph pots mem io : Nat) (s : State) : Host.Outcome State Fault Refusal :=
  .next (s.onDev (fun d => d.powerLoop { arrays := arrays, periph := periph, pots := pots, mem := mem, io := io }))

/-! Knowing the power (R457 to R459, R464, R525). -/

/-- CALIBRATION on the device (R457): frozen while E and M disagree or a measurement is lost (R458, R459). -/
def Dev.calibrate (d : Dev) (gains : List Nat) (offset : Int) : Dev :=
  if d.pwr.disagree || d.pwr.inputLost then d
  else
    d.setSense { d.sense with
      gains := (List.range 16).map (fun k =>
        if bit d.pwr.trivetLost k then d.sense.gains.getD k 1000 else max 800 (min 1250 (gains.getD k 1000)))
      offset := offset }

/-- CALIBRATION (R457). -/
def execCalibration (gains : List Nat) (offset : Int) (s : State) : Host.Outcome State Fault Refusal :=
  .next (s.onDev (fun d => d.calibrate gains offset))

def absDiff (a b : Nat) : Nat := (a - b) + (b - a)

/-- DISAGREE_TIMEOUT on the device (R458). -/
def Dev.disagree (d : Dev) (e m : Nat) : Dev :=
  if d.pwr.disagree || d.pwr.inputLost || decide (20 * absDiff e m ≤ 3 * m) then d
  else
    (d.setPwr { d.pwr with disagree := true, guard := true }).event
      { code := evEstimateDisagree, unit := unit24 dieCd uiDie, payload := leBytes 2 e ++ leBytes 2 m }

/-- DISAGREE_TIMEOUT (R458). -/
def execDisagreeTimeout (est meas : Nat) (s : State) : Host.Outcome State Fault Refusal :=
  .next (s.onDev (fun d => d.disagree est meas))

/-- AGREE_TIMEOUT on the device (R458). -/
def Dev.agree (d : Dev) (e m : Nat) : Dev :=
  if !d.pwr.disagree || decide (m < 10 * absDiff e m) then d
  else
    (d.setPwr { d.pwr with disagree := false, guard := false }).event
      { code := evCalResumed, unit := unit24 dieCd uiDie }

/-- AGREE_TIMEOUT (R458). -/
def execAgreeTimeout (est meas : Nat) (s : State) : Host.Outcome State Fault Refusal :=
  .next (s.onDev (fun d => d.agree est meas))

/-- Energy and average power take `n` samples of 100 µs of power `p`, in 0.1 mW (R464). -/
def Dev.addPower (d : Dev) (p n : Nat) : Dev :=
  let e := d.pwr.energyPart + p * n
  let hist := (d.sense.hist ++ List.replicate n p).drop (d.sense.hist.length + n - 100)
  let mj := stick64 (d.sense.energy + e / 100000)
  let full := decide (mj = 2 ^ 64 - 1) && decide (d.sense.energy < 2 ^ 64 - 1)
  let d1 := (d.setSense { d.sense with energy := mj, hist := hist }).setPwr
    { d.pwr with energyPart := e % 100000, avg := hist.foldl (· + ·) 0 / max 1 hist.length / 1000 }
  if full then d1.event { code := evCounterOverflow, unit := unit24 dieCd uiDie, payload := leBytes 1 0 } else d1

/-- The measurement is lost (R459, R534). -/
def Dev.inputLoss (d : Dev) : Dev :=
  if d.pwr.inputLost then d
  else
    ((d.setPwr { d.pwr with inputLost := true }).event { code := evInputLost, unit := unit24 dieCd uiDie }).alert 4

/-- INPUT_SAMPLE on the device (R525, R459, R464): a sample outside 0 to 1,500 W is no valid one. -/
def Dev.inputSample (d : Dev) (v i : Nat) : Dev :=
  let d0 := d.setSense { d.sense with inputV := v, inputI := i }
  if 15000000 < v * i then d0.inputLoss
  else
    let d1 := if d0.pwr.inputLost then
        (d0.setPwr { d0.pwr with inputLost := false }).event { code := evInputRestored, unit := unit24 dieCd uiDie }
      else d0
    d1.addPower (v * i) 1

/-- INPUT_SAMPLE (R525). -/
def execInputSample (v i : Nat) (s : State) : Host.Outcome State Fault Refusal :=
  .next (s.onDev (fun d => d.inputSample v i))

/-- INPUT_SENSE_TIMEOUT on the device (R459, R464): the millisecond without a sample counts at 1.10 × E. -/
def Dev.senseTimeout (d : Dev) (est : Nat) : Dev :=
  let d1 := d.inputLoss
  (d1.setPwr { d1.pwr with energyEst := true }).addPower (est * 1100) 10

/-- INPUT_SENSE_TIMEOUT (R459). -/
def execInputSenseTimeout (est : Nat) (s : State) : Host.Outcome State Fault Refusal :=
  .next (s.onDev (fun d => d.senseTimeout est))

/-- TRIVET_TELEMETRY_TIMEOUT on the device (R459). -/
def Dev.trivetTimeout (d : Dev) (k : Nat) : Dev :=
  if 16 ≤ k ∨ bit d.pwr.trivetLost k then d
  else
    (d.setPwr { d.pwr with trivetLost := d.pwr.trivetLost + 2 ^ k }).event
      { code := evTrivetLost, unit := unit24 k uiDie, payload := leBytes 1 k }

/-- TRIVET_TELEMETRY_TIMEOUT (R459). -/
def execTrivetTelemetryTimeout (k : Nat) (s : State) : Host.Outcome State Fault Refusal :=
  .next (s.onDev (fun d => d.trivetTimeout k))

/-- INPUT_OUT_OF_RANGE (R534): outside 44 to 60 V for more than 1 ms. -/
def execInputOutOfRange (v : Nat) (s : State) : Host.Outcome State Fault Refusal :=
  .next (s.onDev (fun d => if v < 4400 ∨ 6000 < v then d.alert 3 else d))

/-! Heat (R278, R460, R468). Temperatures in 0.1 °C. -/

/-- A sensor of the device. -/
def sensOk : Sensor → Bool
  | .skillet k => decide (k < 16)
  | .stack k => decide (k < 16)
  | .trivet k => decide (k < 16)
  | .iod i => decide (i < 4)
  | .jd j => decide (j < 2)
  | .control => true

/-- The sensor's code in the lists of `Sense` (model). -/
def sensCode : Sensor → Nat
  | .skillet k => k
  | .iod i => 16 + i
  | .jd j => 20 + j
  | .control => 22
  | .stack k => 32 + k
  | .trivet k => 64 + k

/-- The die code that records name: a stack and a trivet go by their skillet's. -/
def sensDie : Sensor → Nat
  | .skillet k => k
  | .iod i => dieIod i
  | .jd j => dieJd j
  | .control => dieCd
  | .stack k => k
  | .trivet k => k

/-- Warning, throttle and critical limits (R460). -/
def sensLimits : Sensor → Int × Option Int × Int
  | .skillet _ => (950, some 1000, 1100)
  | .stack _ => (850, some 920, 1000)
  | .trivet _ => (1100, some 1150, 1250)
  | .iod _ => (950, some 1000, 1100)
  | .jd _ => (950, some 1000, 1100)
  | .control => (950, none, 1100)

/-- The unit of a sensor's records. -/
def sensUnit : Sensor → Nat
  | .stack k => unit24 k uiStackCtl
  | x => unit24 (sensDie x) uiDie

def thermPayload (die : Nat) (t : Int) : Bytes := leBytes 1 die ++ leBytes 2 (unsigned 16 t)

/-- The warning limit (R460). -/
def Dev.thermWarn (d : Dev) (x : Sensor) (t : Int) : Dev :=
  let was := d.sense.warned.contains (sensCode x)
  if (sensLimits x).1 < t then
    if was then d
    else
      (d.setSense { d.sense with warned := insertSorted (sensCode x) d.sense.warned }).event
        { code := evThermalWarn, unit := (sensUnit x), payload := thermPayload (sensDie x) t }
  else d.setSense { d.sense with warned := d.sense.warned.filter (· != (sensCode x)) }

/-- A throttling skillet's array clock falls 100 MHz a sample, down to 1.0 GHz, then its duty to 50% (R460). -/
def Skillet.cool (k : Skillet) : Skillet :=
  if 10 < k.clk then { k with clk := k.clk - 1 } else { k with duty := 50 }

def Dev.thermStep (d : Dev) (x : Sensor) : Dev :=
  match x with
  | .skillet k => d.modSkillet k Skillet.cool
  | _ => d

def Dev.thermEnd (d : Dev) (x : Sensor) : Dev :=
  match x with
  | .skillet k => d.modSkillet k (fun y => { y with clk := 19, duty := 100 })
  | _ => d

def Dev.thermEvent (d : Dev) (x : Sensor) (t : Int) (start : Bool) : Dev :=
  d.event { code := evThermalThrottle, unit := (sensUnit x), payload := thermPayload (sensDie x) t ++ leBytes 1 (b2n start) }

/-- The throttle limit, ended 3 °C below it (R460). -/
def Dev.thermThrottle (d : Dev) (x : Sensor) (t : Int) : Dev :=
  match (sensLimits x).2.1 with
  | none => d
  | some lim =>
    let was := d.sense.throttled.contains (sensCode x)
    if lim < t then
      let d1 := if was then d
        else (d.setSense { d.sense with throttled := insertSorted (sensCode x) d.sense.throttled }).thermEvent x t true
      d1.thermStep x
    else if was then
      if t ≤ lim - 30 then
        ((d.setSense { d.sense with throttled := d.sense.throttled.filter (· != (sensCode x)) }).thermEnd x).thermEvent x t false
      else d.thermStep x
    else d

/-- Refresh is doubled above 85 °C and normal again at or below 83 °C (R278). -/
def Dev.thermRefresh (d : Dev) (x : Sensor) (t : Int) : Dev :=
  match x with
  | .stack k => d.modStack k (fun y => { y with temp := t, hot := if 850 < t then true else if t ≤ 830 then false else y.hot })
  | _ => d

/-- What a critical temperature fences (R472): a stack goes with its controller (DEDUCED, log 15). -/
def Dev.thermFence (d : Dev) (x : Sensor) : Dev :=
  match x with
  | .stack k => d.fenceStackCtl k 2
  | x => d.fenceDie (sensDie x) 2

/-- The critical limit (R468, R482, R534). -/
def Dev.thermCritical (d : Dev) (x : Sensor) (t : Int) : Dev :=
  let was := d.sense.critical.contains (sensCode x)
  if (sensLimits x).2.2 ≤ t then
    if was then d
    else
      (((d.setSense { d.sense with critical := insertSorted (sensCode x) d.sense.critical }).raise
        { code := evThermalCritical, unit := (sensUnit x), cause := caFenced,
          payload := thermPayload (sensDie x) t }).alert 2).thermFence x
  else d.setSense { d.sense with critical := d.sense.critical.filter (· != (sensCode x)) }

/-- One sensor of a sample. -/
def Dev.thermOne (d : Dev) (x : Sensor) (t : Int) : Dev :=
  if (sensOk x) then (((d.thermRefresh x t).thermWarn x t).thermThrottle x t).thermCritical x t else d

/-- THERMAL_SAMPLE (R460). -/
def execThermalSample (temps : List (Sensor × Int)) (s : State) : Host.Outcome State Fault Refusal :=
  .next (s.onDev (fun d => temps.foldl (fun d e => d.thermOne e.1 e.2) d))

/-- COOLANT_SAMPLE (R540). -/
def execCoolantSample (inlet outlet : Int) (s : State) : Host.Outcome State Fault Refusal :=
  .next (s.onDev (fun d => d.setSense { d.sense with inlet := inlet, outlet := outlet }))

/-- COOLANT_RISE (R540): 5 s with the outlet more than 15 K above the inlet. -/
def execCoolantRise (s : State) : Host.Outcome State Fault Refusal :=
  .next (s.onDev (fun d => if 150 < d.sense.outlet - d.sense.inlet then d.alert 5 else d))

end Sys2Proof.Machine
end

