-- ==== Sys2Proof/Machine/Images.lean ====
section
/-!
DEFINITION. Signed images, the chain that verifies them, the update commands, attestation and SPDM (R486 to R503).
-/

namespace Sys2Proof.Machine

/-! Signed images (R486 to R488). -/

/-- Bytes of the signature block. -/
abbrev blockBytes : Nat := 3584

/-- A signed image. -/
structure Img where
  block : Bytes
  body : Bytes
  factory : Bool := false          -- of the set that the part was made with
  deriving DecidableEq, Repr

def Img.type (i : Img) : Nat := field i.block 4 2
def Img.svn (i : Img) : Nat := field i.block 6 2
def Img.advance (i : Img) : Bool := bit (field i.block 8 2) 0
def Img.ft (i : Img) : Nat := field i.block 0x0A 2
def Img.keyIndex (i : Img) : Nat := field i.block 0x0C 2
/-- The header digest: what the signatures sign, and what is measured (R487, R489). -/
def Img.digest (i : Img) : Bytes := Config.sha512 (i.block.take 0x58)

/-- The image at the front of a run of bytes, and the rest. -/
def parseImg (b : Bytes) : Option (Img × Bytes) :=
  let n := field b 0x10 8
  if b.length < blockBytes ∨ b.length - blockBytes < n then none
  else some ({ block := b.take blockBytes, body := slice b blockBytes n }, b.drop (blockBytes + n))

/-- A concatenation of images, at most `fuel` of them. -/
def parseSet : Nat → Bytes → Option (List Img)
  | 0, b => if b.isEmpty then some [] else none
  | fuel + 1, b =>
    if b.isEmpty then some []
    else
      match parseImg b with
      | none => none
      | some (i, rest) => (parseSet fuel rest).map (fun l => i :: l)

/-- A firmware set holds at most 64 images. -/
def imagesOf (b : Bytes) : Option (List Img) := parseSet 64 b

/-- The fields of a block that must hold whatever its key (R487). -/
def Img.blockOk (i : Img) : Bool :=
  field i.block 0 4 == 0x4E474953 && decide (1 ≤ i.type) && decide (i.type ≤ 6) && decide (i.svn ≤ 4095)
    && decide (field i.block 8 2 < 2) && (!([1, 2, 6].contains i.type) || i.ft == 0)
    && zeroAt i.block 0x0E 2 && zeroAt i.block 0x0D85 123
    && Config.sha512 i.body == slice i.block 0x18 64

/-- The key pair an image names (R488): a root key for a manifest, else a key of manifest body `m` whose mask has the
image's type. -/
def Img.keys (i : Img) (m : Bytes) : Option (Bytes × Bytes) :=
  if i.type = 1 then
    if i.keyIndex < 4 ∧ Config.sha512 (i.body.take 1984) = Config.romKeyDigest i.keyIndex then
      some (i.body.take 32, slice i.body 32 1952)
    else none
  else if 16 ≤ i.keyIndex then none
  else
    match Config.manifestKey m i.keyIndex with
    | some (e, l, mask) => if bit mask i.type then some (e, l) else none
    | none => none

/-- Both signatures verify, under manifest body `m` (R486). -/
def Img.signed (i : Img) (m : Bytes) : Bool :=
  i.factory || i.blockOk && (match i.keys m with
    | some (e, l) => Config.edVerify e i.digest (slice i.block 0x58 64)
                       && Config.mldsaVerify l i.digest (slice i.block 0x98 3309)
    | none => false)

/-- The rollback check (R491), with the counters of flash and the floors of the record in force. -/
def Img.fresh (i : Img) (f : Flash) (floors : List Nat) : Bool :=
  if i.type = 2 then decide (min f.recCtr 4095 ≤ i.svn)
  else decide (max (floors.getD i.type 0) (min f.fwCtr 4095) ≤ i.svn)

/-! The firmware slots. -/

def Flash.slot (f : Flash) (n : Nat) : Slot := if n = 0 then f.slotA else f.slotB
def Flash.putSlot (f : Flash) (n : Nat) (x : Slot) : Flash :=
  if n = 0 then { f with slotA := x } else { f with slotB := x }
def Flash.record (f : Flash) (n : Nat) : Slot := if n = 0 then f.rec0 else f.rec1
def Flash.putRecord (f : Flash) (n : Nat) (x : Slot) : Flash :=
  if n = 0 then { f with rec0 := x } else { f with rec1 := x }

/-- The function-table level of the firmware that the part was made with (DESIGN CHOICE, log 25). -/
abbrev factoryLevel : Nat := 1

/-- An image that the part was made with: SVN 0, and for a record the body of a module outside a pod, without test-enable
and IDE (DESIGN CHOICE, log 25). -/
def factoryImg (type : Nat) : Img :=
  { block := leBytes 4 0x4E474953 ++ leBytes 2 type ++ leBytes 2 0 ++ leBytes 2 0
      ++ leBytes 2 (if 3 ≤ type ∧ type ≤ 5 then factoryLevel else 0)
    body := if type = 2 then leBytes 2 0x00B0 ++ repByte 9 0 ++ [0xFF] ++ repByte 116 0 else []
    factory := true }

/-- The images of a slot. -/
def Slot.images (x : Slot) : List Img :=
  if x.factory then [1, 2, 3, 4, 5].map factoryImg else (imagesOf x.data).getD []

/-- The image of a type in a slot. -/
def Slot.image (x : Slot) (type : Nat) : Option Img :=
  if !x.valid then none else x.images.find? (fun i => i.type == type)

/-- The body of a slot's key manifest. -/
def Slot.manifest (x : Slot) : Bytes := ((x.image 1).map (·.body)).getD []

/-- The SVN of a record copy; none where the copy is not valid. -/
def Slot.svn (x : Slot) : Option Nat := (x.image 2).map (·.svn)

/-- The copy of the record that stage 0 uses (R500): the valid one with the higher SVN. -/
def Flash.recordUsed (f : Flash) : Option Nat :=
  match f.rec0.svn, f.rec1.svn with
  | none, none => none
  | some _, none => some 0
  | none, some _ => some 1
  | some a, some b => some (if a < b then 1 else 0)

/-- The copy that a new record overwrites: the one with the lower SVN, an invalid one first. -/
def Flash.recordSpare (f : Flash) : Nat :=
  match f.rec0.svn, f.rec1.svn with
  | none, _ => 0
  | some _, none => 1
  | some a, some b => if b < a then 1 else 0

/-- The manifest of the running firmware. -/
def Dev.manifest (d : Dev) : Bytes := (d.flash.slot d.trust.bootSlot).manifest

/-! Update operations (R498 to R503). -/

/-- The outcome of verifying a firmware set (R499, R500): signatures, then rollback, then the types of the set. -/
def Dev.setOutcome (d : Dev) (b : Bytes) : Nat :=
  match imagesOf b with
  | none => 1
  | some l =>
    let m := match l.find? (fun i => i.type == 1) with
      | some i => i.body
      | none => d.manifest
    if !l.all (fun i => i.signed m) then 1
    else if !l.all (fun i => i.fresh d.flash d.conf.floors) then 2
    else if !(l.all (fun i => [1, 3, 4, 5].contains i.type) && [1, 3, 4, 5].all (fun t => l.any (fun i => i.type == t)))
      then 3
    else 0

/-- The outcome of verifying a record (R499, R504). -/
def Dev.recordOutcome (d : Dev) (b : Bytes) : Nat :=
  match parseImg b with
  | none => 1
  | some (i, _) =>
    if !(i.signed d.manifest && (i.type != 2 || field i.body 0 2 == 0x00B0)) then 1
    else if !(i.fresh d.flash d.conf.floors) then 2
    else if i.type ≠ 2 then 3
    else 0

/-- FW_WRITE's work on flash, and its outcome (R499, R500): target 0 the inactive slot, 1 the record copy with the lower
SVN. -/
def Dev.fwStore (d : Dev) (target : Nat) (b : Bytes) (flashOk : Bool) : Dev × Nat :=
  let o := if target = 0 then d.setOutcome b else d.recordOutcome b
  if o ≠ 0 then (d, o)
  else if !flashOk then (d, 7)
  else
    let x : Slot := { valid := true, data := b }
    if target = 0 then (d.setFlash (d.flash.putSlot (1 - d.flash.active) x), 0)
    else (d.setFlash (d.flash.putRecord d.flash.recordSpare x), 0)

/-- Host data that a command reads (R375): the bytes, or the command's end. -/
def Dev.withHost (d : Dev) (r : CmdRef) (h : HostRead) (body : Bytes → Dev) : Dev :=
  match h with
  | .ok b => body b
  | .failed => (d.mark r (.fail stHostAccess)).finish r stSuccess
  | .poisoned => (d.mark r (.cause caMemPoison)).finish r stSuccess

/-- FW_WRITE on the device (R498, R500). -/
def Dev.fwWrite (d : Dev) (r : CmdRef) (img : HostRead) (flashOk : Bool) : Dev :=
  d.withCmd r 0x10 (fun c =>
    if !hdrOk c.desc 0 [(8, 17)] ∨ 67108864 < c.f 0x10 8 ∨ 1 < byteAt c.desc 0x18 then d.finish r stInvalidField
    else
      d.withHost r img (fun b =>
        let z := d.fwStore (byteAt c.desc 0x18) (b.take (c.f 0x10 8)) flashOk
        z.1.finish r stSuccess 0 z.2))

/-- FW_WRITE (R500). -/
def execFwWrite (r : CmdRef) (img : HostRead) (flashOk : Bool) (s : State) : Host.Outcome State Fault Refusal :=
  .next (s.onDev (fun d => d.fwWrite r img flashOk))

/-- FW_ACTIVATE on the device (R500). -/
def Dev.fwActivate (d : Dev) (r : CmdRef) : Dev :=
  d.withCmd r 0x11 (fun c =>
    let n := byteAt c.desc 8
    if !hdrOk c.desc 0 [(8, 1)] ∨ 1 < n then d.finish r stInvalidField
    else if !(d.flash.slot n).valid then d.finish r stSuccess 0 3
    else
      (d.setFlash { d.flash with pending := some n, trialFail := false, trialStarted := false }).finish r stSuccess)

/-- FW_ACTIVATE (R500). -/
def execFwActivate (r : CmdRef) (s : State) : Host.Outcome State Fault Refusal :=
  .next (s.onDev (fun d => d.fwActivate r))

/-- A DMA transfer with a whisk map whose destination lies on stack `k` uses that skillet's whisk (R242, R243). -/
def Dev.whiskBusy (d : Dev) (k : Nat) : Bool :=
  d.dmas.any (fun e => match e.2.xfer with
    | some t => (parseDma t.desc).map == 1 && (parseDma t.desc).dstPart && !t.done
        && t.pieces.any (fun p => match d.locate e.2.owner p.dst with
            | .stack s _ _ => s == k
            | _ => false)
    | none => false)

/-- A skillet is in use for R502. -/
def Dev.skilletInUse (d : Dev) (k : Nat) : Bool :=
  d.parts.any (fun e => e.2.cores.any (fun g => g / 8 == k) || e.2.pot.any (fun x => x.1 == k && x.2.2 != 0))
    || d.whiskBusy k

/-- The new microcode of one skillet (R502): it returns to service, and cores that fail their self-test are retired. -/
def Dev.loadMicrocode (d : Dev) (i : Img) (failed : List Nat) (k : Nat) : Dev :=
  let bad := (d.skillet k).microcodeBad
  let d1 := d.modSkillet k (fun x => { x with microcodeBad := false, measure := i.digest })
  let d2 := if bad then d1.unitReturn (.skillet k) else d1
  (List.range 8).foldl (fun d n =>
    let g := 8 * k + n
    if (d.core g).retired then d
    else if failed.contains g then
      (d.raise { code := evSelftestFail, unit := unitCore g,
                 payload := leBytes 1 0 ++ leBytes 4 (d.unit (unitCore g)) }).retireCore g 1 0
    else d.modCore g (fun c => { c with lastTest := d.aoOf k, overdue := false })) d2

/-- MICROCODE_LOAD on the device (R502, R503). -/
def Dev.microcodeLoad (d : Dev) (r : CmdRef) (img : HostRead) (failed : List Nat) : Dev :=
  d.withCmd r 0x12 (fun c =>
    let sk := setBits 16 (c.f 0x18 2)
    if !hdrOk c.desc 0 [(8, 18)] then d.finish r stInvalidField
    else
      d.withHost r img (fun b =>
        match parseImg (b.take (c.f 0x10 8)) with
        | none => d.finish r stSuccess 0 1
        | some (i, _) =>
          if !(i.signed d.manifest) then d.finish r stSuccess 0 1
          else if !(i.fresh d.flash d.conf.floors) then d.finish r stSuccess 0 2
          else if i.type ≠ 4 then d.finish r stSuccess 0 3
          else if sk.any d.skilletInUse then d.finish r stSuccess 0 5
          else if i.ft ≠ d.trust.ftLevel then d.finish r stSuccess 0 6
          else (sk.foldl (fun d k => d.loadMicrocode i failed k) d).finish r stSuccess))

/-- MICROCODE_LOAD (R502). -/
def execMicrocodeLoad (r : CmdRef) (img : HostRead) (failed : List Nat) (s : State) :
    Host.Outcome State Fault Refusal :=
  .next (s.onDev (fun d => d.microcodeLoad r img failed))

/-! Attestation (R493 to R498). -/

/-- Measurement `i` (R496). -/
def Dev.measurement (d : Dev) (i : Nat) : Bytes :=
  if i = 1 then padTo 64 Config.romMeasurement
  else if i ≤ 5 then padTo 64 (kget d.trust.measures i [])
  else if i ≤ 21 then
    let k := d.skillet (i - 6)
    if k.fenced then repByte 64 0 else padTo 64 k.measure
  else padTo 64 (leBytes 2 (min d.flash.fwCtr 4095) ++ leBytes 2 (min d.flash.recCtr 4095) ++ leBytes 2 d.trust.ftLevel)

/-- The salt of the alias keys (R493). -/
def Dev.aliasSalt (d : Dev) : Bytes := Config.sha512 ([2, 3, 4, 5].flatMap (fun i => d.measurement i))

/-- The body of an attestation report (R497). -/
def Dev.reportBody (d : Dev) (nonce : Bytes) : Bytes :=
  padTo 32 nonce ++ leBytes 8 d.flash.bootCount ++ (d.measurement 22).take 6 ++ leBytes 1 d.flash.active ++ leBytes 1 0
    ++ leBytes 16 (ofBits ((List.range 128).filter (fun g => (d.core g).retired)) 128)
    ++ (List.range 21).flatMap (fun i => d.measurement (i + 1))

/-- An attestation report: a signature block of TYPE 7 signed by the alias keys, and its body (R497). -/
def Dev.report (d : Dev) (nonce : Bytes) : Bytes :=
  let body := d.reportBody nonce
  let head := leBytes 4 0x4E474953 ++ leBytes 2 7 ++ leBytes 2 0 ++ leBytes 2 0 ++ leBytes 2 0 ++ leBytes 2 0xFFFF
    ++ leBytes 2 0 ++ leBytes 8 body.length ++ padTo 64 (Config.sha512 body)
  let dig := Config.sha512 head
  head ++ padTo 64 (Config.aliasSign d.aliasSalt 0 dig) ++ padTo 3309 (Config.aliasSign d.aliasSalt 1 dig)
    ++ repByte 123 0 ++ body

/-- ATTEST_REPORT on the device (R497, R498). -/
def Dev.attest (d : Dev) (r : CmdRef) (nonce : HostRead) : Dev :=
  d.withCmd r 0x13 (fun c =>
    if !hdrOk c.desc 0 [(8, 16)] then d.finish r stInvalidField
    else
      d.withHost r nonce (fun b =>
        (d.emitOut (.hostWrite (c.f 0x10 8) (d.report (padTo 32 b)))).finish r stSuccess))

/-- ATTEST_REPORT (R497). -/
def execAttestReport (r : CmdRef) (nonce : HostRead) (s : State) : Host.Outcome State Fault Refusal :=
  .next (s.onDev (fun d => d.attest r nonce))

/-- CERT_READ on the device (R494, R498): at most LEN bytes of the chain. -/
def Dev.certRead (d : Dev) (r : CmdRef) : Dev :=
  d.withCmd r 0x14 (fun c =>
    let n := c.f 0x18 4
    if !hdrOk c.desc 0 [(8, 1), (0x10, 12)] ∨ 1 < byteAt c.desc 8 ∨ 65536 < n then d.finish r stInvalidField
    else
      (d.emitOut (.hostWrite (c.f 0x10 8) ((Config.certChain (byteAt c.desc 8) d.aliasSalt).take n))).finish r stSuccess)

/-- CERT_READ (R498). -/
def execCertRead (r : CmdRef) (s : State) : Host.Outcome State Fault Refusal := .next (s.onDev (fun d => d.certRead r))

/-! SPDM (R495). The two transports keep separate state: 0 before a version, then 1, 2 and 3 as version, capabilities
and algorithms are settled. What the published standard lays out of an answer is `Config.spdmAnswer`; what it reports is
handed to it. -/

/-- The transport's state. -/
def Dev.spdmAt (d : Dev) (t : Nat) : Nat := d.trust.spdm.getD t 0

/-- An answer on a transport, which then stands in state `st`. -/
def Dev.spdmSay (d : Dev) (t st code : Nat) (data : Bytes) : Dev :=
  (d.setTrust { d.trust with spdm := d.trust.spdm.set t st }).emitOut (.spdm t (Config.spdmAnswer (d.spdmAt t) code data))

/-- SPDM runs once the alias keys exist (device step 6), on transports 0 and 1, never in recovery mode (R490, R493). -/
def Dev.spdmUp (d : Dev) (t : Nat) : Bool := decide (t < 2) && decide (6 ≤ d.trust.step) && !d.trust.recovery

/-- A request that needs algorithms settled. -/
def Dev.spdmAsk (d : Dev) (t code : Nat) (data : Bytes) : Dev :=
  if d.spdmUp t then d.spdmSay t (d.spdmAt t) code data else d

/-- GET_VERSION (R495): the connection starts again. -/
def execGetVersion (t : Nat) (req : Bytes) (s : State) : Host.Outcome State Fault Refusal :=
  .next (s.onDev (fun d => if d.spdmUp t then d.spdmSay t 1 0x84 req else d))

/-- GET_CAPABILITIES (R495). -/
def execGetCapabilities (t : Nat) (req : Bytes) (s : State) : Host.Outcome State Fault Refusal :=
  .next (s.onDev (fun d => if d.spdmUp t then d.spdmSay t (if d.spdmAt t = 1 then 2 else d.spdmAt t) 0xE1 req else d))

/-- NEGOTIATE_ALGORITHMS (R495). -/
def execNegotiateAlgorithms (t : Nat) (req : Bytes) (s : State) : Host.Outcome State Fault Refusal :=
  .next (s.onDev (fun d => if d.spdmUp t then d.spdmSay t (if d.spdmAt t = 2 then 3 else d.spdmAt t) 0xE3 req else d))

/-- GET_DIGESTS (R495): slot 0 holds the Ed25519 chain. -/
def execGetDigests (t : Nat) (s : State) : Host.Outcome State Fault Refusal :=
  .next (s.onDev (fun d => d.spdmAsk t 0x81 (Config.sha512 (Config.certChain 0 d.aliasSalt))))

/-- GET_CERTIFICATE (R495): slots 1 to 7 are empty. -/
def execGetCertificate (t slot off len : Nat) (s : State) : Host.Outcome State Fault Refusal :=
  .next (s.onDev (fun d => d.spdmAsk t 0x82
    (leBytes 1 slot ++ (if slot = 0 then slice (Config.certChain 0 d.aliasSalt) off len else []))))

/-- CHALLENGE (R495): signed with the Ed25519 alias key. -/
def execChallenge (t : Nat) (nonce : Bytes) (s : State) : Host.Outcome State Fault Refusal :=
  .next (s.onDev (fun d => d.spdmAsk t 0x83
    (nonce ++ Config.aliasSign d.aliasSalt 0 (Config.sha512 (nonce ++ (List.range 22).flatMap (fun i => d.measurement (i + 1)))))))

/-- GET_MEASUREMENTS (R496): index 0xFF asks for all. -/
def execGetMeasurements (t idx : Nat) (s : State) : Host.Outcome State Fault Refusal :=
  .next (s.onDev (fun d => d.spdmAsk t 0xE0
    (leBytes 1 idx ++ (if idx = 0xFF then (List.range 22).flatMap (fun i => d.measurement (i + 1))
                       else if 1 ≤ idx ∧ idx ≤ 22 then d.measurement idx else []))))

/-- VENDOR_DEFINED_REQUEST (R497): an attestation report. -/
def execVendorDefinedRequest (t : Nat) (nonce : Bytes) (s : State) : Host.Outcome State Fault Refusal :=
  .next (s.onDev (fun d => if d.spdmUp t then d.emitOut (.spdm t (d.report nonce)) else d))

end Sys2Proof.Machine
end

