-- ==== Sys2Proof/Machine/Reset.lean ====
section
/-!
DEFINITION. The input, the pins, power-up and the resets, and the management header's messages (R489, R490, R500, R504
to R512, R521 to R538).
-/

namespace Sys2Proof.Machine

/-! What a reset leaves (R511). -/

/-- The device with everything at reset but flash, the module's own pins and latches, and what has left the device. The
always-on counts start at a power-on reset only (R349; DEDUCED, log 16). -/
def Dev.wiped (d : Dev) (powerOn : Bool) : Dev :=
  { ao := if powerOn then [] else d.ao
    flash := d.flash
    mod := { converter := d.mod.converter, hsEn := d.mod.hsEn, overvolt := d.mod.overvolt, breaker := d.mod.breaker,
             breakerFree := d.mod.breakerFree, breakerSeen := d.mod.breakerSeen, mrstLow := d.mod.mrstLow,
             perst := d.mod.perst }
    saf := { clean := if powerOn then [] else d.saf.clean }
    out := d.out
    free := d.free }

/-- The package loses power. -/
def Dev.powerOff (d : Dev) : Dev :=
  let w := d.wiped true
  w.setMod { w.mod with converter := false }

/-! Bring-up (R489, R490, R500, R504 to R510). -/

/-- Which slot boots, whether on trial, and flash after the choice (R500). -/
def Flash.choose (f : Flash) : Nat × Bool × Flash :=
  match f.pending with
  | some p =>
    if f.trialStarted then (1 - p, false, { f with pending := none, trialFail := true, trialStarted := false })
    else (p, true, { f with trialStarted := true })
  | none => (f.active, false, f)

/-- What a configuration record sets (R504). -/
def confOf (b : Bytes) : Conf :=
  { rflags := field b 2 2, podId := field b 4 4, module := byteAt b 8, role := byteAt b 9, manager := byteAt b 0x0A,
    standby := byteAt b 0x0B, floors := (List.range 16).map (fun t => field b (0x10 + 2 * t) 2) }

/-- Recovery mode (R490, R534, R566): power-good is asserted, so that the host port can present the function. -/
def Dev.recover (d : Dev) (step cause reason : Nat) : Dev :=
  ((d.setTrust { d.trust with step := step, recovery := true, cause := cause, reason := reason }).setMod
    { d.mod with pwrgd := true }).alert 7

/-- Reinstatement (R506), at the first boot that uses a record. -/
def Flash.reinstate (f : Flash) (b : Bytes) : Flash :=
  if field b 0x0C 4 = f.seq then
    { f with retired := f.retired.filter (fun g => !bit (field b 0x30 16) g), seq := f.seq + 1 }
  else f

/-- The record takes effect (R492, R504, R506). -/
def Dev.applyRecord (d : Dev) (n : Nat) (i : Img) : Dev :=
  let f := d.flash
  let x := f.record n
  let f1 := if x.used then f
    else
      let g := (f.putRecord n { x with used := true }).reinstate i.body
      if i.advance then { g with recCtr := max g.recCtr i.svn } else g
  (d.setFlash f1).setConf (confOf i.body)

/-- A unit of a failed bring-up (R510). -/
def Dev.failUnit (d : Dev) (u24 : Nat) : Dev :=
  if d.trust.failDie = 0xFF then d.setTrust { d.trust with failDie := u24 / 0x10000, failUnit := u24 % 0x10000 } else d

/-- The unit identity of a fence unit. -/
def fenceUnit24 : FenceUnit → Nat
  | .core g => unitCore g
  | .skillet k => unit24 k uiDie
  | .stackCtl k => unit24 k uiStackCtl
  | .engine k => unit24 k uiEngine
  | .jd j => unit24 (dieJd j) uiDie
  | .iod i => unit24 (dieIod i) uiDie
  | .crockPort i => unit24 (dieIod i) uiCrock
  | .fabPort p => unitFab p

/-- A unit whose rail, clock or temperature fails bring-up is fenced (R510). -/
def Dev.bootFence (d : Dev) (u : FenceUnit) : Dev :=
  let d1 := match u with
    | .core g => if coreOk g then d.fenceCore g 1 else d
    | .skillet k => d.fenceDie (k % 16) 1
    | .stackCtl k => d.fenceStackCtl k 1
    | .engine k => d.fenceEngine k 1
    | .jd j => d.fenceJd (j % 2) 1
    | .iod i => d.fenceIod i 1
    | .crockPort i => d.fenceCrockPort i 1
    | .fabPort p => d.fenceFabPort p 1
  d1.failUnit (fenceUnit24 u)

/-- The microcode image of a skillet in a firmware set: the set's images of TYPE 4 in order, the last for the rest
(DESIGN CHOICE, log 17). -/
def Slot.microcode (x : Slot) (k : Nat) : Option Img :=
  let l := (x.images.filter (fun i => i.type == 4))
  match l[k]? with
  | some i => some i
  | none => l.getLast?

/-- Microcode of every skillet at boot (R489). -/
def Dev.bootMicrocode (d : Dev) (x : Slot) (bad : List Nat) : Dev :=
  (List.range 16).foldl (fun d k =>
    match x.microcode k with
    | some i =>
      if !bad.contains k && i.signed x.manifest && i.fresh d.flash d.conf.floors then
        d.modSkillet k (fun y => { y with measure := i.digest })
      else
        ((d.modSkillet k (fun y => { y with microcodeBad := true })).fenceSkillet k 4).failUnit (unit24 k uiDie)
    | none =>
      ((d.modSkillet k (fun y => { y with microcodeBad := true })).fenceSkillet k 4).failUnit (unit24 k uiDie)) d

/-- Steps 7 and 8: the health log's repairs and losses, and channels that fail training twice (R507, R510). -/
def Dev.bootStacks (d : Dev) (bad : List (Nat × Nat)) : Dev :=
  let d1 := d.flash.repaired.foldl (fun d e => d.modStack e.1 (fun x => { x with repaired := some e.2 })) d
  let d2 := d1.flash.lost.foldl (fun d t => d.modStack t (fun x => { x with lost := true })) d1
  bad.foldl (fun d e =>
    if (d.stack e.1).lost ∨ 16 ≤ e.1 then d
    else if (d.stack e.1).repaired.isSome then (d.loseStack e.1).failUnit (unit24 e.1 (uiPch (2 * e.2)))
    else
      let d1 := d.logHealth (fun f => { f with repaired := f.repaired ++ [(e.1, e.2)] })
      ((d1.modStack e.1 (fun x => { x with repaired := some e.2 })).raise
        { code := evRepairDone, unit := unit24 e.1 uiStackCtl, payload := leBytes 1 e.2 }).failUnit
          (unit24 e.1 (uiPch (2 * e.2)))) d2

/-- Ports begin training (R507 step 7). -/
def Dev.bootPorts (d : Dev) : Dev :=
  let d1 := (List.range 4).foldl (fun d i =>
    if (d.cport i).fenced || d.saf.iodFenced.contains i then d else d.putCport i { d.cport i with st := 1 }) d
  (List.range 8).foldl (fun d p =>
    if (d.port p).fenced || d.saf.iodFenced.contains (p / 2) then d else d.putPort p { d.port p with st := 1 }) d1

/-- Steps 10 to 12: engines, retired cores, self-tests. -/
def Dev.bootCores (d : Dev) (engines cores : List Nat) : Dev :=
  let d1 := engines.foldl (fun d k => if k < 16 then d.modSkillet k (fun x => { x with engineOk := false }) else d) d
  let d2 := d1.flash.retired.foldl (fun d g => d.modCore g (fun c => { c with retired := true })) d1
  let d3 := (List.range 128).foldl (fun d g => d.modCore g (fun c => { c with lastTest := d.aoOf (g / 8) })) d2
  cores.foldl (fun d g =>
    if coreOk g && !(d.core g).retired then
      ((d.raise { code := evSelftestFail, unit := unitCore g,
                  payload := leBytes 1 0 ++ leBytes 4 (d.unit (unitCore g)) }).retireCore g 1 0).failUnit (unitCore g)
    else d) d3

/-- The device step that stands after a step, and the power-good of step 4 (R531). -/
def Dev.atStep (d : Dev) (n : Nat) : Dev :=
  let d1 := d.setTrust { d.trust with step := n }
  if 4 ≤ n then d1.setMod { d1.mod with pwrgd := true } else d1

/-- Device step 3 reports an opening of the breaker (R534). -/
def Dev.breakerReport (d : Dev) : Dev :=
  if d.mod.breakerSeen then (d.setMod { d.mod with breakerSeen := false }).alert 8 else d

/-- Steps 5 to 13, once the I/O-die firmware is accepted too: units that fail are fenced, microcode, ports, stacks, cores. -/
def Dev.bootUnits (d : Dev) (b : BringUp) (x : Slot) (io : Img) : Dev :=
  let d2 := b.fenced.foldl Dev.bootFence d
  let d3 := (d2.setTrust { d2.trust with
    measures := kset d2.trust.measures 5 io.digest, stage := 1 }).bootMicrocode x b.badMicrocode
  let d4 := (d3.bootPorts.bootStacks b.badChannels).bootCores b.badEngines b.badCores
  let d5 := d4.atStep 13
  d5.setFab { d5.fab with pod := { d5.fab.pod with acting := d5.conf.role == 1 } }

/-- Once the management firmware is accepted: stage 1 (R489). I/O-die firmware that is rejected stops bring-up (DESIGN
CHOICE, log 17). -/
def Dev.bootStage1 (d : Dev) (b : BringUp) (x : Slot) (man rec fw : Img) : Dev :=
  let d1 := d.setTrust { d.trust with
    ftLevel := fw.ft, measures := [(2, man.digest), (3, rec.digest), (4, fw.digest)] }
  match x.image 5 with
  | none => ((d1.atStep 5).failUnit (unit24 (dieIod 0) uiDie)).alert 1
  | some io =>
    if !(io.signed man.body && io.fresh d1.flash d1.conf.floors) then
      ((d1.atStep 5).failUnit (unit24 (dieIod 0) uiDie)).alert 1
    else if b.fenced.contains (.jd 0) && b.fenced.contains (.jd 1) then
      ((d1.atStep 4).failUnit (unit24 (dieJd 0) uiDie)).alert 1
    else d1.bootUnits b x io

/-- Stage 0 and what follows (R489, R490), with flash after the slot was chosen. -/
def Dev.bootStage0 (d : Dev) (b : BringUp) (slot : Nat) : Dev :=
  let x := d.flash.slot slot
  match x.image 1, d.flash.recordUsed with
  | none, _ => d.recover 2 1 1
  | some man, none => if man.signed [] then d.recover 2 2 1 else d.recover 2 1 1
  | some man, some n =>
    match (d.flash.record n).image 2 with
    | none => d.recover 2 2 1
    | some rec =>
      let floors := (confOf rec.body).floors
      if !(man.signed []) then d.recover 2 1 1
      else if !(rec.signed man.body) then d.recover 2 2 1
      else if !(rec.fresh d.flash floors) then d.recover 2 2 2
      else if field rec.body 0 2 ≠ 0x00B0 then d.recover 2 2 3
      else if !(man.fresh d.flash floors) then d.recover 2 1 2
      else
        let d1 := (d.applyRecord n rec).breakerReport
        match x.image 3 with
        | none => d1.recover 4 3 1
        | some fw =>
          if !(fw.signed man.body) then d1.recover 4 3 1
          else if !(fw.fresh d1.flash floors) then d1.recover 4 3 2
          else d1.bootStage1 b x man rec fw

/-- The device sequence from step 1 (R507), on a device already wiped; held at step 1 while MRST# is low (R532). -/
def Dev.boot (d : Dev) (b : BringUp) : Dev :=
  if d.mod.mrstLow then d
  else
    let z := d.flash.choose
    let f := { z.2.2 with bootCount := z.2.2.bootCount + 1 }
    let d1 := (d.setFlash f).setTrust { d.trust with bootSlot := z.1, trial := z.2.1 }
    match b.stopAt with
    | some (step, die, idx) => (((d1.atStep (min step 12)).failUnit (unit24 die idx))).alert 1
    | none =>
      if b.mrec then d1.recover 1 5 0
      else if !b.identityOk then d1.recover 1 4 0
      else d1.bootStage0 b z.1

/-- A device reset (R511). -/
def Dev.deviceReset (d : Dev) (b : BringUp) : Dev := (d.wiped false).boot b

/-! The input (R521 to R525, R531). -/

/-- The hot-swap stage lets the converter run. -/
def Mod.mayRun (m : Mod) : Bool := m.hsEn && !m.breaker && !m.overvolt

/-- HS_EN_MATE (R523, R524). -/
def execHsEnMate (s : State) : Host.Outcome State Fault Refusal :=
  .next (s.onDev (fun d => d.setMod { d.mod with hsEn := true, breakerFree := d.mod.breakerFree || !d.mod.hsEn }))

/-- HS_EN_BREAK (R523). -/
def execHsEnBreak (s : State) : Host.Outcome State Fault Refusal :=
  .next (s.onDev (fun d => let p := d.powerOff
                           p.setMod { p.mod with hsEn := false }))

/-- INPUT_RISE (R522): through 44 V. -/
def execInputRise (s : State) : Host.Outcome State Fault Refusal :=
  .next (s.onDev (fun d => if d.mod.mayRun then d.setMod { d.mod with converter := true } else d))

/-- INPUT_FALL on the device (R522, R524): below 42 V power is lost; below 20 V the breaker may close again. -/
def Dev.inputFall (d : Dev) (v : Nat) : Dev :=
  let d1 := if v < 4200 then d.powerOff else d
  if v < 2000 then d1.setMod { d1.mod with breakerFree := true } else d1

/-- INPUT_FALL (R522). -/
def execInputFall (v : Nat) (s : State) : Host.Outcome State Fault Refusal := .next (s.onDev (fun d => d.inputFall v))

/-- OVERVOLTAGE (R522): above 62 V for 100 µs, at whatever voltage. -/
def execOvervoltage (v : Nat) (s : State) : Host.Outcome State Fault Refusal :=
  .next (s.onDev (fun d =>
    if 6200 < v then
      let p := d.powerOff
      p.setMod { p.mod with overvolt := true }
    else d))

/-- OVERVOLTAGE_RESTART (R522): 100 ms between 44 V and 60 V. -/
def execOvervoltageRestart (s : State) : Host.Outcome State Fault Refusal :=
  .next (s.onDev (fun d =>
    if d.mod.overvolt then
      let m := { d.mod with overvolt := false }
      d.setMod { m with converter := m.mayRun }
    else d))

/-- BREAKER_OPEN (R524). -/
def execBreakerOpen (s : State) : Host.Outcome State Fault Refusal :=
  .next (s.onDev (fun d => let p := d.powerOff
                           p.setMod { p.mod with breaker := true, breakerFree := false, breakerSeen := true }))

/-- BREAKER_CLOSE (R524): after the input fell below 20 V, or the enable pin broke and mated again. -/
def execBreakerClose (s : State) : Host.Outcome State Fault Refusal :=
  .next (s.onDev (fun d =>
    if d.mod.breaker && d.mod.breakerFree then d.setMod { d.mod with breaker := false, breakerFree := false } else d))

/-- PACKAGE_RAIL_OUT_OF_WINDOW (R531). -/
def execPackageRailOutOfWindow (s : State) : Host.Outcome State Fault Refusal :=
  .next (s.onDev (fun d => d.setMod { d.mod with pwrgd := false }))

/-! Resets (R511, R512, R532). -/

/-- MRST_LOW (R532): 250 samples low. -/
def execMrstLow (s : State) : Host.Outcome State Fault Refusal :=
  .next (s.onDev (fun d =>
    if d.mod.converter && !d.mod.mrstLow then
      let w := d.wiped false
      w.setMod { w.mod with mrstLow := true }
    else d))

/-- CONVENTIONAL_RESET on the device (R511, R512): every function as R377, virtual functions disabled, the link down. -/
def Dev.convReset (d : Dev) : Dev :=
  let d1 := (List.range 17).foldl Dev.flr d
  d1.setMod { d1.mod with perst := true, sriov := false, linkSpeed := 0, linkWidth := 0, flit := false, ptm := false }

/-- CONVENTIONAL_RESET (R512). -/
def execConventionalReset (s : State) : Host.Outcome State Fault Refusal := .next (s.onDev Dev.convReset)

/-- The host link trains to a speed code and a width (R376, R558); flit mode goes with 64 GT/s. -/
def Mod.trained (m : Mod) (speed width : Nat) : Mod :=
  { m with linkSpeed := speed, linkWidth := width, flit := speed == 6 }

/-- The host port presents itself: from device step 4 on, and in recovery mode (R490, R507). -/
def Dev.hostUp (d : Dev) : Bool := d.trust.recovery || decide (4 ≤ d.trust.step)

/-- PERST_DEASSERTION (R512). -/
def execPerstDeassertion (speed width : Nat) (s : State) : Host.Outcome State Fault Refusal :=
  .next (s.onDev (fun d =>
    let m := { d.mod with perst := false }
    d.setMod (if d.hostUp then m.trained speed width else m)))

/-- HOST_LINK_RETRAIN (R519). -/
def execHostLinkRetrain (speed width : Nat) (s : State) : Host.Outcome State Fault Refusal :=
  .next (s.onDev (fun d => if d.hostUp && !d.mod.perst then d.setMod (d.mod.trained speed width) else d))

/-- SRIOV_REENABLE (R512); no virtual function exists in recovery mode (R490). -/
def execSriovReenable (s : State) : Host.Outcome State Fault Refusal :=
  .next (s.onDev (fun d => if d.hostUp && !d.trust.recovery then d.setMod { d.mod with sriov := true } else d))

/-- The counter that a committed set advances (R492): the highest SVN of its images with SFLAGS[0], never down. -/
def Flash.advance (f : Flash) (n : Nat) : Flash :=
  { f with fwCtr := ((f.slot n).images.filter (·.advance)).foldl (fun a i => max a i.svn) f.fwCtr }

/-- TRIAL_COMMIT on the device (R492, R500). -/
def Dev.trialCommit (d : Dev) : Dev :=
  if d.trust.trial && d.trust.step == 13 then
    let f := { d.flash with active := d.trust.bootSlot, pending := none, trialStarted := false }
    (d.setFlash (f.advance d.trust.bootSlot)).setTrust { d.trust with trial := false }
  else d

/-- TRIAL_COMMIT (R500). -/
def execTrialCommit (s : State) : Host.Outcome State Fault Refusal := .next (s.onDev Dev.trialCommit)

/-! Management messages (R534 to R538). -/

/-- The I3C target answers while the package has power (R535). -/
def Dev.i3c (d : Dev) (outcome : Nat) (data : Bytes) : Dev :=
  if d.mod.converter then d.emitOut (.i3c outcome data) else d

/-- I3C_DYNAMIC_ADDRESS (R535). -/
def execI3cDynamicAddress (a : Nat) (s : State) : Host.Outcome State Fault Refusal :=
  .next (s.onDev (fun d => if d.mod.converter && decide (a < 128) then d.setMod { d.mod with dynAddr := a } else d))

/-- The answer to GET_STATUS (R536). -/
def Dev.statusBytes (d : Dev) : Bytes :=
  leBytes 4 d.mod.alert ++ leBytes 1 (b2n d.mod.pwrgd) ++ leBytes 1 d.trust.step ++ leBytes 2 d.sense.inputV
    ++ leBytes 2 d.sense.inputI ++ leBytes 2 d.pwr.avg ++ leBytes 2 (unsigned 16 d.sense.inlet)
    ++ leBytes 2 (unsigned 16 d.sense.outlet)

/-- GET_STATUS (R536). -/
def execGetStatus (s : State) : Host.Outcome State Fault Refusal :=
  .next (s.onDev (fun d => d.i3c 0 d.statusBytes))

/-- The alert word without the bits of a mask; bit 0 stays (R534). -/
def alertClear (w mask : Nat) : Nat := ofBits ((setBits 32 w).filter (fun b => b == 0 || !bit mask b)) 32

/-- CLEAR_ALERT (R534, R536). -/
def execClearAlert (mask : Nat) (s : State) : Host.Outcome State Fault Refusal :=
  .next (s.onDev (fun d =>
    if d.mod.converter then
      let w := alertClear d.mod.alert mask
      (d.setMod { d.mod with alert := w }).i3c 0 (leBytes 4 w)
    else d))

/-- SET_CAP on the device (R453, R536). -/
def Dev.setCap (d : Dev) (w : Nat) : Dev :=
  if d.trust.recovery then d.i3c 3 []
  else if !capOk w then d.i3c 1 []
  else
    let d1 := d.capEvent { d.pwr with capMgmt := w } 1
    d1.i3c 0 (leBytes 2 d1.pwr.effCap)

/-- SET_CAP (R536). -/
def execSetCap (w : Nat) (s : State) : Host.Outcome State Fault Refusal :=
  .next (s.onDev (fun d => if d.mod.converter then d.setCap w else d))

/-- GET_CAP (R536). -/
def execGetCap (s : State) : Host.Outcome State Fault Refusal :=
  .next (s.onDev (fun d =>
    if d.trust.recovery then d.i3c 3 []
    else d.i3c 0 (leBytes 2 d.pwr.cap ++ leBytes 2 d.pwr.capMgmt ++ leBytes 2 d.pwr.effCap ++ leBytes 1 d.pwr.mode)))

/-- A staged image after a write at an offset (R536, R537): a write at offset 0 starts a new one; bytes never written
are free values. -/
def Dev.stageBytes (d : Dev) (old : Bytes) (off : Nat) (b : Bytes) : Bytes × Dev :=
  let base := if off = 0 then [] else old
  let gap := d.freeBytes (off - base.length)
  let x := base ++ gap.1
  (x.take off ++ b ++ x.drop (off + b.length), gap.2)

def chunkOk (b : Bytes) : Bool := decide (1 ≤ b.length) && decide (b.length ≤ 240)

/-- IMAGE_WRITE on the device (R536, R537). -/
def Dev.imageWrite (d : Dev) (off : Nat) (b : Bytes) : Dev :=
  if d.trust.recovery && !d.trust.imageRunning then d.i3c 3 []
  else if !chunkOk b || decide (67108864 < off + b.length) then d.i3c 1 []
  else
    let z := d.stageBytes d.trust.staged off b
    (z.2.setTrust { z.2.trust with staged := z.1 }).i3c 0 []

/-- IMAGE_WRITE (R536). -/
def execImageWrite (off : Nat) (data : Bytes) (s : State) : Host.Outcome State Fault Refusal :=
  .next (s.onDev (fun d => if d.mod.converter then d.imageWrite off data else d))

/-- RECOVERY_WRITE on the device (R537): 4 MiB of staging. -/
def Dev.recoveryWrite (d : Dev) (off : Nat) (b : Bytes) : Dev :=
  if !d.trust.recovery || d.trust.imageRunning then d.i3c 3 []
  else if !chunkOk b || decide (4194304 < off + b.length) then d.i3c 1 []
  else
    let z := d.stageBytes d.trust.recStaged off b
    (z.2.setTrust { z.2.trust with recStaged := z.1 }).i3c 0 []

/-- RECOVERY_WRITE (R537). -/
def execRecoveryWrite (off : Nat) (data : Bytes) (s : State) : Host.Outcome State Fault Refusal :=
  .next (s.onDev (fun d => if d.mod.converter then d.recoveryWrite off data else d))

/-- RECOVERY_RUN on the device (R490, R537). -/
def Dev.recoveryRun (d : Dev) (len : Nat) : Dev :=
  if !d.trust.recovery || d.trust.imageRunning then d.i3c 3 []
  else if d.trust.recStaged.length < len then d.i3c 1 []
  else
    match parseImg (d.trust.recStaged.take len) with
    | none => d.i3c 1 []
    | some (i, _) =>
      if !(i.signed d.manifest) then d.i3c 1 []
      else if !(i.fresh d.flash d.conf.floors) then d.i3c 2 []
      else if i.type ≠ 6 then d.i3c 3 []
      else (d.setTrust { d.trust with imageRunning := true }).i3c 0 []

/-- RECOVERY_RUN (R537). -/
def execRecoveryRun (len : Nat) (s : State) : Host.Outcome State Fault Refusal :=
  .next (s.onDev (fun d => if d.mod.converter then d.recoveryRun len else d))

end Sys2Proof.Machine
end

