-- ==== Sys2Proof/Machine/Fabric.lean ====
section
/-!
DEFINITION. The fabric's link layer and message transport (R410 to R431, R438 to R440, R519, R564, R565).
-/

namespace Sys2Proof.Machine

/-! Checks (R414). -/

/-- Eight steps of a reflected CRC. -/
def crcBits (poly : Nat) : Nat → Nat → Nat
  | 0, x => x
  | n + 1, x => crcBits poly n (if x % 2 = 1 then (x / 2) ^^^ poly else x / 2)

/-- A reflected 32-bit CRC with initial value and final XOR of all ones. -/
def crc32 (poly : Nat) (b : Bytes) : Nat :=
  (b.foldl (fun x y => crcBits poly 8 (x ^^^ y.toNat)) 0xFFFFFFFF) ^^^ 0xFFFFFFFF

/-- LCRC, IEEE 802.3 (polynomial 0x04C11DB7, reflected). -/
def lcrc (b : Bytes) : Nat := crc32 0xEDB88320 b

/-- ECRC, CRC-32C (polynomial 0x1EDC6F41, reflected). -/
def ecrc (b : Bytes) : Nat := crc32 0x82F63B78 b

/-! Flits (R413, R415). -/

/-- Class of an operation (R420). -/
def opClass (op : Nat) : Nat :=
  match op with
  | 0 => 0 | 1 => 1 | 2 => 0 | 3 => 2 | _ => 3

/-- What a message says besides its data. -/
structure MsgHead where
  dst : Nat
  src : Nat
  op : Nat
  id : Nat
  window : Nat
  woff : Nat
  job : Nat
  deriving DecidableEq, Repr

/-- Flits of a message of `n` bytes. -/
def flitCount (n : Nat) : Nat := max 1 (ceilDiv n 220)

/-- The transport part of flit `i` (bytes 0x08 to 0xFB). -/
def flitPart (h : MsgHead) (data : Bytes) (i : Nat) (poison : Bool) : Bytes :=
  let n := flitCount data.length
  let pay := slice data (220 * i) 220
  let b := leBytes 1 h.dst ++ leBytes 1 h.src
    ++ leBytes 1 (opClass h.op + 4 * b2n (i == 0) + 8 * b2n (i + 1 == n) + 16 * h.op)
    ++ leBytes 1 (pay.length - 1) ++ leBytes 4 h.id ++ leBytes 2 (i + 32768 * b2n poison) ++ leBytes 2 h.window
    ++ leBytes 6 h.woff ++ leBytes 2 h.job ++ padTo 220 pay
  b ++ leBytes 4 (ecrc b)

/-! Fields of a transport part: offsets of R413 less 8. -/
def tpDst (b : Bytes) : Nat := byteAt b 0
def tpSrc (b : Bytes) : Nat := byteAt b 1
def tpClass (b : Bytes) : Nat := byteAt b 2 % 4
def tpLast (b : Bytes) : Bool := bit (byteAt b 2) 3
def tpOp (b : Bytes) : Nat := byteAt b 2 / 16
def tpLen (b : Bytes) : Nat := byteAt b 3 + 1
def tpId (b : Bytes) : Nat := field b 4 4
def tpIdx (b : Bytes) : Nat := field b 8 2 % 32768
def tpPoison (b : Bytes) : Bool := bit (byteAt b 9) 7
def tpWindow (b : Bytes) : Nat := field b 0x0A 2
def tpWoff (b : Bytes) : Nat := field b 0x0C 6
def tpJob (b : Bytes) : Nat := field b 0x12 2
def tpPayload (b : Bytes) : Bytes := slice b 0x14 (tpLen b)

/-- A whole flit of a port: the link header with the port's current LACK and CREDIT, the part, LCRC. -/
def Port.frame (x : Port) (ftype seq : Nat) (tp : Bytes) : Bytes :=
  let b := leBytes 2 (seq + 4096 * ftype) ++ leBytes 2 ((x.expect + 4095) % 4096)
    ++ (List.range 4).flatMap (fun c => leBytes 1 (x.returned.getD c 0)) ++ padTo 244 tp
  b ++ leBytes 4 (lcrc b)

/-! Injection (R438, R439). -/

/-- The part matches a match pattern, or the pattern is another. -/
def Inj.hits (i : Inj) (tp : Bytes) : Bool :=
  i.pattern != 2 || (if i.matchKind = 0 then tpClass tp == i.matchVal else tpOp tp == i.matchVal)

/-- One data flit passes the injector: the injector, and whether the flit is selected. -/
def Inj.select (i : Inj) (tp : Bytes) : Inj × Bool :=
  if i.mode = 0 ∨ (i.limit ≠ 0 ∧ i.limit ≤ i.injected) then (i, false)
  else if i.pattern = 1 ∧ 0 < i.burst then
    ({ i with burst := i.burst - 1, injected := stick16 (i.injected + 1) }, true)
  else
    let l := Config.lfsrNext (BitVec.ofNat 31 i.lfsr)
    let s := i.hits tp && Config.lfsrSelects l i.k
    ({ i with lfsr := l.toNat, burst := if s && i.pattern == 1 then i.n - 1 else i.burst
              injected := if s then stick16 (i.injected + 1) else i.injected }, s)

/-- Transmit a data flit through the injector: the port, and the flits that leave. -/
def Port.launch (x : Port) (seq : Nat) (tp : Bytes) : Port × List Bytes :=
  let r := x.inj.select tp
  let i := r.1
  let held := match i.swap with
    | some b => [b]
    | none => []
  let y := { x with inj := { i with swap := none } }
  if !r.2 then (y, x.frame 1 seq tp :: held)
  else
    match i.mode with
    | 1 => (y, held)
    | 2 => (y, Config.lfsrFlip (BitVec.ofNat 31 i.lfsr) (i.flips + 1) (x.frame 1 seq tp) :: held)
    | 3 => (y, x.frame 1 seq (padTo 240 (Config.lfsrFlip (BitVec.ofNat 31 i.lfsr) (i.flips + 1) (tp.take 240))
                 ++ tp.drop 240) :: held)
    | 4 => ({ x with inj := { i with swap := some (x.frame 1 seq tp) } }, held)
    | _ => (y, x.frame 1 seq tp :: held)

/-! Sending. In safe stop a port sends idle flits only (R474). -/

/-- Flits leave on a port. -/
def Dev.emitFlits (d : Dev) (p : Nat) (l : List Bytes) : Dev := l.foldl (fun d b => d.emitOut (.flit p b)) d

/-- The part of a stored replay entry: its LSEQ in 2 bytes, then the part. -/
def seqOf (b : Bytes) : Nat := field b 0 2

/-- A port sends a new data flit, or lets it wait for credit or replay space (R417, R419). -/
def Dev.portSend (d : Dev) (p : Nat) (tp : Bytes) : Dev :=
  let x := d.port p
  let c := tpClass tp
  if x.credits.getD c 0 = 0 ∨ 512 ≤ x.replay.length ∨ d.saf.safeStop then
    d.putPort p { x with waiting := x.waiting ++ [tp] }
  else
    let seq := x.next
    let r := x.launch seq tp
    (d.putPort p { r.1 with next := (seq + 1) % 4096, replay := x.replay ++ [leBytes 2 seq ++ tp],
                            credits := x.credits.set c (x.credits.getD c 0 - 1) }).emitFlits p r.2

/-- What waits at a port is offered again. -/
def Dev.portFlush (d : Dev) (p : Nat) : Dev :=
  let w := (d.port p).waiting
  w.foldl (fun d tp => d.portSend p tp) (d.putPort p { d.port p with waiting := [] })

/-- The ports that are up. -/
def Dev.upPorts (d : Dev) : List Nat := (List.range 8).filter (fun p => (d.port p).st == 2)

/-- Deal a part to the next port (R422), charged to partition `part` on the port's die (R429). -/
def Dev.deal (d : Dev) (part : Nat) (tp : Bytes) : Dev :=
  let ups := d.upPorts
  match ups[d.fab.rr % max 1 ups.length]? with
  | none => d
  | some p =>
    ((d.setFab { d.fab with rr := d.fab.rr + 1 }).charge part (dieIod (p / 2)) (45 + p / 2) 1).portSend p tp

/-- All flits of a message leave, in FIDX order. -/
def Dev.dealMsg (d : Dev) (part : Nat) (h : MsgHead) (data : Bytes) (poison : List Nat) : Dev :=
  (List.range (flitCount data.length)).foldl (fun d i => d.deal part (flitPart h data i (poison.contains i))) d

def Dev.dest (d : Dev) (m : Nat) : Dest := kget d.fab.dests m {}
def Dev.putDest (d : Dev) (m : Nat) (x : Dest) : Dev := d.setFab { d.fab with dests := kset d.fab.dests m x }
def Dev.srcOf (d : Dev) (m : Nat) : Src := kget d.fab.srcs m {}
def Dev.putSrc (d : Dev) (m : Nat) (x : Src) : Dev := d.setFab { d.fab with srcs := kset d.fab.srcs m x }

/-- The head of a message of this module. -/
def Dev.headOf (d : Dev) (m : Msg) : MsgHead :=
  { dst := m.dst, src := d.conf.module, op := m.op, id := m.id, window := m.window, woff := m.woff, job := m.job }

/-- The partition of a pod job on this module. -/
def Dev.partOfJob (d : Dev) (job : Nat) : Nat :=
  if job = 0 then 0 else ((d.parts.find? (fun e => e.2.job == job)).map (·.1)).getD 0

/-- The messages of a list that stand before a message: sent earlier to the same destination. -/
def beforeMsg (l : List Msg) (m : Msg) : List Msg := (l.takeWhile (fun x => !(x.dst == m.dst && x.id == m.id))).filter
  (fun x => x.dst == m.dst)

/-- A message may leave now (R422, R426). -/
def Dev.mayLeave (d : Dev) (m : Msg) : Bool :=
  let l := beforeMsg d.fab.msgs m
  decide (((d.fab.msgs.filter (fun x => x.dst == m.dst && x.sent)).length) < 1024)
    && (opClass m.op != 2 || !l.any (fun x => opClass x.op == 0))
    && (m.op != 6 || !l.any (fun x => x.op == 6))

/-- Transmit a message of the list. -/
def Dev.transmit (d : Dev) (m : Msg) : Dev :=
  (d.setFab { d.fab with msgs := d.fab.msgs.map (fun x =>
    if x.dst = m.dst ∧ x.id = m.id then { x with sent := true } else x) }).dealMsg (d.partOfJob m.job) (d.headOf m) m.data
      m.poison

/-- Held messages to a destination that may leave now do. -/
def Dev.sendHeld (d : Dev) (dst : Nat) : Dev :=
  d.fab.msgs.foldl (fun d m => if m.dst = dst ∧ !m.sent ∧ d.mayLeave m then d.transmit m else d) d

/-- The device says a control message that nobody acknowledges (ACK, REFUSE). -/
def Dev.sayCtl (d : Dev) (dst op : Nat) (data : Bytes) : Dev :=
  let x := d.dest dst
  (d.putDest dst { x with nextId := (x.nextId + 1) % 2 ^ 32 }).dealMsg 0
    { dst := dst, src := d.conf.module, op := op, id := x.nextId, window := 0, woff := 0, job := 0 } data []

/-- Put a message in flight: its number, and the device. -/
def Dev.sendMsg (d : Dev) (m : Msg) : Nat × Dev :=
  let x := d.dest m.dst
  let m := { m with id := x.nextId, sent := false }
  let d1 := d.putDest m.dst { x with nextId := (x.nextId + 1) % 2 ^ 32 }
  let d2 := d1.setFab { d1.fab with msgs := d1.fab.msgs ++ [m] }
  (m.id, if d2.mayLeave m then d2.transmit m else d2)

/-- The destination answers with an ACK (R423). -/
def Dev.sayAck (d : Dev) (src msg : Nat) : Dev := d.sayCtl src 4 (leBytes 4 msg)

/-- REFUSE with a cause (R421). -/
def Dev.sayRefuse (d : Dev) (src msg cause : Nat) : Dev := d.sayCtl src 5 (leBytes 4 msg ++ leBytes 2 cause)

/-! Fabric events (R440). -/

/-- A record whose suspect is a port; the payload begins with the injection mark. -/
def Dev.fabEvent (d : Dev) (code p cause : Nat) (payload : Bytes) : Dev :=
  d.raise { code := code, unit := unitFab p, cause := cause,
            payload := leBytes 1 (b2n ((d.port p).inj.mode != 0)) ++ payload }

/-! Commands that wait on messages (R423, R425). -/

/-- The boxes of a halo COPY that failed, and what several boxes share, hold undefined data (R247). -/
def Dev.haloEnd (d : Dev) (p : Nat) (c : Cmd) : Dev :=
  match c.halo with
  | none => d
  | some h => d.blurSide p h.pot (h.shared ++ h.lost.eraseDups.flatMap (fun k => h.boxes.getD k []))

/-- A running command that waits for nothing more ends. -/
def Dev.settleCmd (d : Dev) (r : CmdRef) : Dev :=
  match d.cmd r with
  | some c => if c.phase = .running ∧ c.await.isEmpty ∧ c.tags.isEmpty then (d.haloEnd r.f c).finish r stSuccess c.result0 0 0 (c.dies.map (·.1))
              else d
  | none => d

/-- An entry of a halo COPY fails (R247). -/
def Dev.haloLost (d : Dev) (r : CmdRef) (k : Nat) : Dev :=
  d.modCmd r (fun c => { c with halo := c.halo.map (fun h => { h with lost := h.lost ++ [k] }) })

/-- A command no longer waits for a message. -/
def Dev.unawait (d : Dev) (r : CmdRef) (dst id : Nat) : Dev :=
  d.modCmd r (fun c => { c with await := c.await.filter (fun x => !(x.1 == dst && x.2 == id)) })

/-- A read tag ends: its command no longer waits for it. -/
def Dev.dropTag (d : Dev) (t : ReadTag) : Dev :=
  let d1 := d.setFab { d.fab with tags := d.fab.tags.filter (fun x => x.tag != t.tag) }
  match t.cmd with
  | some r => (d1.modCmd r (fun c => { c with tags := c.tags.filter (· != t.tag) })).settleCmd r
  | none => d1

/-- A tag fails (R425, R427): the rest of its region is undefined. -/
def Dev.failTag (d : Dev) (t : ReadTag) (cause : Nat) : Dev :=
  let d1 := d.blurSide t.part t.pot [(t.addr + t.landed, t.len - t.landed)]
  let d2 := match t.cmd with
    | some r => (d1.mark r (.cause cause)).haloLost r t.entry
    | none => d1
  d2.dropTag t

/-- A message fails with a cause (R425). -/
def Dev.failMsg (d : Dev) (m : Msg) (cause : Nat) : Dev :=
  let d1 := d.setFab { d.fab with msgs := d.fab.msgs.filter (fun x => !(x.dst == m.dst && x.id == m.id)) }
  let d2 := d1.fabEvent evMsgFailed 0 cause (leBytes 1 m.dst ++ leBytes 4 m.id ++ leBytes 2 cause)
  let d3 := match d2.fab.tags.find? (fun t => m.op == 1 && t.dst == m.dst && t.msg == m.id) with
    | some t => d2.failTag t cause
    | none => d2
  let d4 := match m.cmd with
    | some r => ((d3.mark r (.cause cause)).unawait r m.dst m.id).settleCmd r
    | none => d3
  d4.sendHeld m.dst

/-- A command sends a message (R423, R425): to an unreachable destination it fails at once. -/
def Dev.cmdSend (d : Dev) (r : CmdRef) (m : Msg) : Nat × Dev :=
  if (d.dest m.dst).unreachable then (0, d.mark r (.cause caFenced))
  else
    let z := d.sendMsg { m with cmd := some r }
    (z.1, z.2.modCmd r (fun c => { c with await := c.await ++ [(m.dst, z.1)] }))

/-! Receiving (R416 to R420, R424). -/

/-- An idle or link-NAK flit leaves: it shows LACK and CREDIT (R415). The stream of idle flits stands as one flit where
what it shows has changed (DESIGN CHOICE, log 18). -/
def Dev.sayIdle (d : Dev) (p ftype : Nat) : Dev := d.emitOut (.flit p ((d.port p).frame ftype 0 []))

/-- What LACK and CREDIT of an arriving flit tell the sender side (R417, R419). -/
def Port.heard (x : Port) (b : Bytes) : Port :=
  let lack := field b 2 2 % 4096
  let rest := if x.replay.any (fun e => seqOf e == lack) then
      (x.replay.dropWhile (fun e => seqOf e != lack)).drop 1 else x.replay
  let cr := (List.range 4).map (fun c => byteAt b (4 + c))
  { x with replay := rest, replays := if rest.length = x.replay.length then x.replays else 0
           credits := (List.range 4).map (fun c =>
             x.credits.getD c 0 + (cr.getD c 0 + 256 - x.lastCredit.getD c 0) % 256)
           lastCredit := cr }

/-- A credit of a class goes back. -/
def Port.giveBack (x : Port) (c : Nat) : Port := { x with returned := x.returned.set c ((x.returned.getD c 0 + 1) % 256) }

/-- A port retrains: its replay buffer is discarded (R418). -/
def Dev.retrainPort (d : Dev) (p : Nat) : Dev :=
  (d.putPort p { d.port p with st := 1, replay := [], replays := 0 }).fabEvent evLinkRetrain p 0 (leBytes 1 p)

/-- A replay from the oldest unacknowledged flit (R417): the eighth of the same flit retrains the port (R418). The cause
is 0 LCRC, 1 gap, 2 timer. -/
def Dev.replayPort (d : Dev) (p cause : Nat) : Dev :=
  let x := d.port p
  match x.replay with
  | [] => d
  | o :: _ =>
    let d1 := d.fabEvent evLinkReplay p 0 (leBytes 1 p ++ leBytes 2 (seqOf o) ++ leBytes 1 cause)
    if 8 ≤ x.replays + 1 then d1.retrainPort p
    else
      let d2 := d1.putPort p { x with replays := x.replays + 1 }
      if d2.saf.safeStop then d2
      else
        x.replay.foldl (fun d e =>
          let r := (d.port p).launch (seqOf e) (e.drop 2)
          (d.putPort p r.1).emitFlits p r.2) d2

/-- A part that has passed its link (R420, R424): checked end to end, and kept for its message. -/
def Dev.takePart (d : Dev) (p : Nat) (tp : Bytes) : Dev :=
  if field tp 240 4 ≠ ecrc (tp.take 240) ∨ 6 < tpOp tp ∨ opClass (tpOp tp) ≠ tpClass tp then
    d.fabEvent evE2eCheck p 0 (leBytes 1 (tpSrc tp) ++ leBytes 4 (tpId tp) ++ leBytes 1 p)
  else if tpDst tp ≠ d.conf.module then d
  else
    let x := d.srcOf (tpSrc tp)
    if x.done.contains (tpId tp) || (tpId tp != x.low && !ahead 32 (tpId tp) x.low) then d
    else if x.flits.any (fun f => tpId f == tpId tp && tpIdx f == tpIdx tp) then d
    else d.putSrc (tpSrc tp) { x with flits := x.flits ++ [tp] }

/-- FLIT_RECEIVE on the device (R416). -/
def Dev.flitReceive (d : Dev) (p : Nat) (flit : Bytes) : Dev :=
  let b := padTo 256 flit
  let x := d.port p
  if 8 ≤ p ∨ x.st ≠ 2 then d
  else if field b 0xFC 4 ≠ lcrc (b.take 0xFC) then d.sayIdle p 2
  else
    let ftype := byteAt b 1 / 16
    let seq := field b 0 2 % 4096
    let c := byteAt b 0x0A % 4
    if 2 < ftype then d
    else
      let d1 := (d.putPort p (x.heard b)).portFlush p
      match ftype with
      | 0 => d1
      | 2 =>
        let f := d1.freeBytes 1
        f.2.replayPort p ((f.1.getD 0 0).toNat % 2)
      | _ =>
        let y := d1.port p
        if seq = y.expect then
          ((d1.putPort p ({ y with expect := (seq + 1) % 4096, nakSent := false }.giveBack c)).takePart p
            (slice b 8 244)).sayIdle p 0
        else if ahead 12 seq y.expect then
          let d2 := d1.putPort p ({ y with nakSent := true }.giveBack c)
          if y.nakSent then d2 else d2.sayIdle p 2
        else d1.putPort p (y.giveBack c)

/-- FLIT_RECEIVE (R416). -/
def execFlitReceive (port : Nat) (flit : Bytes) (s : State) : Host.Outcome State Fault Refusal :=
  .next (s.onDev (fun d => d.flitReceive port flit))

/-- REPLAY_TIMER (R417): LACK stood still for 2 µs. -/
def execReplayTimer (port : Nat) (s : State) : Host.Outcome State Fault Refusal :=
  .next (s.onDev (fun d => if port < 8 ∧ (d.port port).st = 2 then d.replayPort port 2 else d))

/-- PORT_TRAINING_DONE on the device (R418, R440). -/
def Dev.portTrained (d : Dev) (p : Nat) (ok : Bool) (credits : List Nat) : Dev :=
  let x := d.port p
  if 8 ≤ p ∨ x.st ≠ 1 ∨ x.fenced then d
  else if ok then
    ((d.putPort p { x with st := 2, fails := 0, expect := 0, nakSent := false, next := 0, replay := [], replays := 0
                           credits := (List.range 4).map (fun c => min 255 (credits.getD c 0))
                           lastCredit := [0, 0, 0, 0], returned := [0, 0, 0, 0] }).fabEvent evLinkUp p 0
      (leBytes 1 p)).portFlush p
  else if x.fails + 1 < 3 then d.putPort p { x with fails := x.fails + 1 }
  else
    let d1 := (d.putPort p { x with fails := 3 }).portDown p
    d1.fabEvent evLinkDown p 0 (leBytes 1 p)

/-- PORT_TRAINING_DONE (R418). -/
def execPortTrainingDone (port : Nat) (ok : Bool) (credits : List Nat) (s : State) :
    Host.Outcome State Fault Refusal :=
  .next (s.onDev (fun d => d.portTrained port ok credits))

/-- The RETRAIN bit of a fabric port (R519): also a restart of a port that is down. -/
def Dev.portRetrain (d : Dev) (p : Nat) : Dev :=
  if p < 8 ∧ !(d.port p).fenced then d.putPort p { d.port p with st := 1, replay := [], replays := 0 } else d

/-- FAB_PORT_CTL_RETRAIN (R519). -/
def execFabPortCtlRetrain (p : Nat) (s : State) : Host.Outcome State Fault Refusal :=
  .next (s.onReg (fun d => d.portRetrain p))

/-! Messages that have arrived whole (R421 to R429). -/

/-- The whole message of a source: its parts in FIDX order, where every one has arrived. -/
def Dev.arrived (d : Dev) (src msg op : Nat) : Option (List Bytes) :=
  let l := (d.srcOf src).flits.filter (fun f => tpId f == msg && tpOp f == op)
  match l.find? tpLast with
  | none => none
  | some z =>
    let n := tpIdx z + 1
    let parts := (List.range n).filterMap (fun i => l.find? (fun f => tpIdx f == i))
    if parts.length = n then some parts else none

/-- Its bytes, and the ranges under a poison mark. -/
def msgData (l : List Bytes) : Bytes × List (Nat × Nat) :=
  l.foldl (fun acc f => (acc.1 ++ tpPayload f, if tpPoison f then acc.2 ++ [(acc.1.length, tpLen f)] else acc.2)) ([], [])

/-- The lowest uncommitted number moves past committed ones (R424); at most 1,024 lie ahead. -/
def lowAfter : Nat → Nat → List Nat → Nat × List Nat
  | 0, low, l => (low, l)
  | n + 1, low, l => if l.contains low then lowAfter n ((low + 1) % 2 ^ 32) (l.filter (· != low)) else (low, l)

/-- A message of a source is done with: its parts go, and its number counts as committed (R424). -/
def Dev.commitMsg (d : Dev) (src msg : Nat) : Dev :=
  let x := d.srcOf src
  let r := lowAfter 1025 x.low (x.done ++ [msg])
  d.putSrc src { low := r.1, done := r.2, flits := x.flits.filter (fun f => tpId f != msg) }

/-- The window check of R421 on a message of `n` bytes. -/
def Window.passes (w : Window) (op job woff n : Nat) : Bool :=
  w.part != 0 && job != 0 && job == w.job
    && (match op with
        | 0 => w.write
        | 1 => w.read
        | 3 => w.signal
        | _ => false)
    && decide (woff + n ≤ w.size)

/-- A refused message (R421). -/
def Dev.refuseMsg (d : Dev) (src msg : Nat) (f : Bytes) : Dev :=
  ((d.commitMsg src msg).sayRefuse src msg caRange).fabEvent evWindowRefused 0 0
    (leBytes 1 src ++ leBytes 2 (tpWindow f) ++ leBytes 2 (tpJob f))

/-- Land bytes, with the poison of their ranges (R428). -/
def Dev.landMarked (d : Dev) (p a : Nat) (b : Bytes) (bad : List (Nat × Nat)) : Dev :=
  ((segments b.length bad).foldl (fun d g =>
    if g.2.2 then d.poisonRange p (a + g.1) g.2.1 else (d.landBytes p Env.clean (a + g.1) (slice b g.1 g.2.1)).2) d).raced
    p none a b.length

/-- A message to a window: `body` on the window, the first part, the data and its poison where the check passes. -/
def Dev.onWindow (d : Dev) (src msg op : Nat) (len : Bytes → Nat)
    (body : Window → Bytes → Bytes → List (Nat × Nat) → Dev) : Dev :=
  match d.arrived src msg op with
  | none => d
  | some l =>
    match l with
    | [] => d
    | f :: _ =>
      let w := kget d.fab.wins (tpWindow f) {}
      let z := msgData l
      if w.passes op (tpJob f) (tpWoff f) (len z.1) then body w f z.1 z.2 else d.refuseMsg src msg f

/-- WRITE (R423): the message lands whole, commits and is acknowledged. -/
def execWrite (src msg : Nat) (s : State) : Host.Outcome State Fault Refusal :=
  .next (s.onDev (fun d =>
    d.onWindow src msg 0 List.length (fun w f b bad =>
      ((d.landMarked w.part (w.base + tpWoff f) b bad).commitMsg src msg).sayAck src msg)))

/-- The flits of a response that hold a byte of a poisoned sector (R428). -/
def poisonFlits (n : Nat) (bad : List (Nat × Nat)) : List Nat :=
  (List.range (flitCount n)).filter (fun i => bad.any (fun b => decide (b.1 < 220 * (i + 1)) && decide (220 * i < b.1 + b.2)))

/-- The length that a READ_REQ asks for (R420); a length outside 1 to 65,536 passes no window. -/
def readLen (b : Bytes) : Nat := if 1 ≤ field b 0 4 ∧ field b 0 4 ≤ 65536 then field b 0 4 else 2 ^ 64

/-- READ_REQ (R427): the responder reads its window and sends the data in a response that carries the tag. -/
def execReadReq (src msg : Nat) (s : State) : Host.Outcome State Fault Refusal :=
  .next (s.onDev (fun d =>
    d.onWindow src msg 1 readLen (fun w f b _ =>
      let n := field b 0 4
      let r := d.read w.part Env.clean (w.base + tpWoff f) n
      ((((r.2.commitMsg src msg).sayAck src msg).sendMsg
        { dst := src, id := 0, op := 2, window := 0xFFFF, woff := field b 4 4 * 65536, job := tpJob f, data := r.1.bytes,
          poison := poisonFlits n r.1.bad })).2)))

/-- READ_RESP on the device (R427, R428). -/
def Dev.readResp (d : Dev) (src msg : Nat) : Dev :=
  match d.arrived src msg 2 with
  | none => d
  | some l =>
    let d1 := (d.commitMsg src msg).sayAck src msg
    match l with
    | [] => d
    | f :: _ =>
      match d1.fab.tags.find? (fun t => t.tag == tpWoff f / 65536) with
      | none => d1
      | some t =>
        let z := msgData l
        let b := z.1.take (t.len - t.landed)
        let d2 := if t.pot then (d1.potMarked t.part (t.addr + t.landed) b z.2).2
                  else d1.landMarked t.part (t.addr + t.landed) b z.2
        let d3 := match t.cmd with
          | some r => if z.2.isEmpty then d2 else d2.mark r (.cause caMemPoison)
          | none => d2
        let t1 := { t with landed := t.landed + b.length }
        if t1.len ≤ t1.landed then d3.dropTag t1
        else d3.setFab { d3.fab with tags := d3.fab.tags.map (fun x => if x.tag = t1.tag then t1 else x) }

/-- READ_RESP (R427). -/
def execReadResp (src msg : Nat) (s : State) : Host.Outcome State Fault Refusal :=
  .next (s.onDev (fun d => d.readResp src msg))

/-- One number of an ACK (R423, R425): its message is acknowledged, and an unreachable destination is reachable again
(its probe was acknowledged). -/
def Dev.acked (d : Dev) (dst id : Nat) : Dev :=
  match d.fab.msgs.find? (fun m => m.dst == dst && m.id == id) with
  | none => d
  | some m =>
    let d1 := d.setFab { d.fab with msgs := d.fab.msgs.filter (fun x => !(x.dst == dst && x.id == id)) }
    let d2 := if (d1.dest dst).unreachable then d1.putDest dst { d1.dest dst with unreachable := false } else d1
    let d3 := match m.cmd with
      | some r => (d2.unawait r dst id).settleCmd r
      | none => d2
    d3.sendHeld dst

/-- ACK on the device (R423). -/
def Dev.ackMsg (d : Dev) (src msg : Nat) : Dev :=
  match d.arrived src msg 4 with
  | none => d
  | some l =>
    let b := (msgData l).1
    (List.range (min 55 (b.length / 4))).foldl (fun d i => d.acked src (field b (4 * i) 4)) (d.commitMsg src msg)

/-- ACK (R423). -/
def execAck (src msg : Nat) (s : State) : Host.Outcome State Fault Refusal := .next (s.onDev (fun d => d.ackMsg src msg))

/-- REFUSE on the device (R425). -/
def Dev.refused (d : Dev) (src msg : Nat) : Dev :=
  match d.arrived src msg 5 with
  | none => d
  | some l =>
    let b := (msgData l).1
    let d1 := d.commitMsg src msg
    match d1.fab.msgs.find? (fun m => m.dst == src && m.id == field b 0 4) with
    | none => d1
    | some m => d1.failMsg m (field b 4 2)

/-- REFUSE (R425). -/
def execRefuse (src msg : Nat) (s : State) : Host.Outcome State Fault Refusal := .next (s.onDev (fun d => d.refused src msg))

/-- E2E_TIMEOUT on the device (R425): retransmit, or fail at the fourth expiry. -/
def Dev.e2eTimeout (d : Dev) (dst id : Nat) : Dev :=
  match d.fab.msgs.find? (fun m => m.dst == dst && m.id == id) with
  | none => d
  | some m =>
    if !m.sent then d
    else if m.expiries + 1 < 4 then
      (d.setFab { d.fab with msgs := d.fab.msgs.map (fun x =>
        if x.dst = dst ∧ x.id = id then { x with expiries := x.expiries + 1 } else x) }).dealMsg (d.partOfJob m.job)
          (d.headOf m) m.data m.poison
    else (d.putDest dst { d.dest dst with unreachable := true }).failMsg m caFenced

/-- E2E_TIMEOUT (R425). -/
def execE2eTimeout (dst msg : Nat) (s : State) : Host.Outcome State Fault Refusal :=
  .next (s.onDev (fun d => d.e2eTimeout dst msg))

/-- READ_TAG_TIMEOUT on the device (R427). -/
def Dev.tagTimeout (d : Dev) (tag : Nat) : Dev :=
  match d.fab.tags.find? (fun t => t.tag == tag) with
  | none => d
  | some t =>
    (d.fabEvent evMsgFailed 0 caFenced (leBytes 1 t.dst ++ leBytes 4 t.msg ++ leBytes 2 caFenced)).failTag t caFenced

/-- READ_TAG_TIMEOUT (R427). -/
def execReadTagTimeout (tag : Nat) (s : State) : Host.Outcome State Fault Refusal :=
  .next (s.onDev (fun d => d.tagTimeout tag))

/-- UNREACHABLE_PROBE (R425): a management probe; its bytes are those of no pod message. -/
def execUnreachableProbe (dst : Nat) (s : State) : Host.Outcome State Fault Refusal :=
  .next (s.onDev (fun d =>
    if (d.dest dst).unreachable then
      (d.sendMsg { dst := dst, id := 0, op := 6, window := 0, woff := 0, job := 0, data := leBytes 1 0 }).2
    else d))

/-! Windows and injection registers (R564, R565). -/

/-- FAB_WIN_CFG on the device (R564). -/
def Dev.winCfg (d : Dev) (h v : Nat) : Dev :=
  if 1024 ≤ h then d
  else
    let w := kget d.fab.wins h {}
    let put (x : Window) : Dev := d.setFab { d.fab with wins := kset d.fab.wins h x }
    let p := v % 32
    let w1 := { w with read := bit v 8, write := bit v 9, signal := bit v 10 }
    if p = 0 then put { w1 with part := 0, job := 0 }
    else
      match d.part p with
      | none => put { w1 with part := 0, reject := true }
      | some x =>
        if x.job = 0 ∨ w.size = 0 ∨ !d.ownedRange p w.base w.size then put { w1 with part := 0, reject := true }
        else put { w1 with part := p, reject := false, job := x.job }

/-- FAB_WIN_CFG (R564). -/
def execFabWinCfg (h v : Nat) (s : State) : Host.Outcome State Fault Refusal :=
  .next (s.onReg (fun d => d.winCfg h v))

/-- The windows of a partition close (R429, R564). -/
def Dev.closeWindows (d : Dev) (p : Nat) : Dev :=
  d.setFab { d.fab with wins := d.fab.wins.map (fun e =>
    if e.2.part = p then (e.1, { e.2 with part := 0, job := 0 }) else e) }

/-- The injection registers respond: test-enable of the configuration record (R438). -/
def Dev.injLive (d : Dev) : Bool := bit d.conf.rflags 0

/-- A change of a port's injection controls, where they respond. -/
def Dev.modInj (d : Dev) (p : Nat) (g : Inj → Inj) : Dev :=
  if d.injLive ∧ p < 8 then d.putPort p { d.port p with inj := g (d.port p).inj } else d

/-- FAB_INJ_COUNT (R565): the count is cleared. -/
def execFabInjCount (p v : Nat) (s : State) : Host.Outcome State Fault Refusal :=
  .next (s.onReg (fun d => d.modInj p (fun x => { x with limit := v % 65536, injected := 0 })))

end Sys2Proof.Machine
end

