-- ==== Sys2Proof/Machine/Partitions.lean ====
section
/-!
DEFINITION. Partitions: creation, suspension, resumption and reclaim (R330 to R338, R356, R357, R514, R515), and the
context records that they move (R314, R315).
-/

namespace Sys2Proof.Machine

/-! Context records (R314). -/

/-- The 256 bytes of a record. -/
def Ctx.bytes (x : Ctx) (i : Nat) : Bytes :=
  leBytes 4 (x.handle i) ++ leBytes 1 (x.cstate + 8 * b2n x.resident) ++ leBytes 1 x.block ++ leBytes 1 x.bucket
    ++ leBytes 1 (b2n x.pinned + 2 * b2n x.retire) ++ leBytes 4 x.prog ++ leBytes 2 x.point ++ leBytes 2 x.home
    ++ leBytes 8 x.step ++ leBytes 8 x.target ++ leBytes 8 x.seed ++ leBytes 8 x.statePtr ++ leBytes 8 x.ringPtr
    ++ leBytes 8 x.ioPtr ++ leBytes 8 x.blockTime ++ leBytes 2 x.lastStatus ++ leBytes 2 x.qp ++ leBytes 4 x.tag
    ++ leBytes 8 x.inputSem ++ leBytes 8 x.inputBase ++ repByte 160 0

/-- The address of a record in its partition's record region. -/
def Part.recordAt (x : Part) (i : Nat) : Nat := x.recAddr + 256 * (i - x.recBase)

/-- Store a context; the record region holds it while it is not resident. -/
def Dev.putCtx (d : Dev) (i : Nat) (c : Ctx) : Dev :=
  let d1 := d.setCtxs (kset d.ctxs i c)
  if c.resident then d1
  else
    match d.ctxPart i with
    | some (p, x) => (d1.store p Env.clean (x.recordAt i) (c.bytes i)).2
    | none => d1

def Dev.modCtx (d : Dev) (i : Nat) (g : Ctx → Ctx) : Dev := d.putCtx i (g (d.ctx i))

/-- Change every pair of a function. -/
def Dev.modPairs (d : Dev) (f : Nat) (g : Qp → Qp) : Dev :=
  d.setQps (d.qps.map (fun e => if e.1 / 128 = f then (e.1, g e.2) else e))

/-- A context leaves the parked queue. The condition of PIN_STARVE has ended for a parity whose queue is empty (R322). -/
def Part.unpark (x : Part) (i : Nat) : Part :=
  let l := x.parked.filter (fun e => e.2 != i)
  { x with parked := l, starve := x.starve.filter (fun j => l.any (fun e => e.1 == j)) }

/-- A context leaves its partition's queues (R323, R325): the parked queue, batches, residency swaps. -/
def Part.leave (x : Part) (i : Nat) : Part :=
  let out (o : Option Nat) : Option Nat := if o = some i then none else o
  { x.unpark i with
    batches := (x.batches.map (fun e => (e.1, { e.2 with ctxs := e.2.ctxs.filter (· != i) }))).filter (fun e =>
      e.2.running || !e.2.ctxs.isEmpty)
    moves := x.moves.map (fun m => { m with cand := out m.cand, victim := out m.victim }) }

/-- A CTX_RETIRE that waited for contexts, all FREE now, ends (R327). -/
def Cmd.retired (c : Cmd) (i : Nat) : Cmd :=
  let l := c.retiring.filter (· != i)
  if c.phase = .running ∧ c.op = 0x26 ∧ l.isEmpty then 
    let z := c.marks.final stSuccess
    { c with retiring := [], phase := .ended, status := z.1, detail := if z.1 = stPoisoned then z.2 else 0 }
  else { c with retiring := l }

/-- A context passes through RETIRING to FREE (R327). -/
def Dev.freeCtx (d : Dev) (i : Nat) : Dev :=
  let c := { d.ctx i with cstate := 0, block := 0, pinned := false, retire := false, resident := false, hold := false,
                          normHold := false, report := false }
  match d.ctxPart i with
  | none => d.putCtx i c
  | some (p, _) =>
    ((d.modPart p (fun x => x.leave i)).putCtx i c).modPairs p (fun q => { q with cmds := q.cmds.map (fun c => c.retired i) })

/-- Contexts whose retire is pending and whose step cannot complete, since no new pass starts, are freed (R174, R327). -/
def Dev.freeStuck (d : Dev) (p : Nat) : Dev :=
  match d.part p with
  | none => d
  | some x =>
    let flying (i : Nat) : Bool := x.batches.any (fun e => e.2.running && e.2.ctxs.contains i)
    (d.ctxs.filter (fun e => decide (x.recBase ≤ e.1) && decide (e.1 < x.recBase + x.recCount) && e.2.retire
      && !flying e.1)).foldl (fun d e => d.freeCtx e.1) d

/-- The resident contexts of a partition. -/
def Dev.residents (d : Dev) (x : Part) : List (Nat × Ctx) :=
  d.ctxs.filter (fun e => e.2.resident && decide (x.recBase ≤ e.1) && decide (e.1 < x.recBase + x.recCount))

/-! The specification (R357). -/

/-- A region that a specification asks for. -/
structure RegSpec where
  size : Nat
  mask : Nat
  sector : Bool
  deriving DecidableEq, Repr

/-- A partition specification. -/
structure PartSpec where
  cores : List Nat
  records : Nat
  quota : Nat
  qps : Nat
  tierF : Nat
  crockC : Nat
  regions : List RegSpec
  pot : List Nat
  cups : List (Nat × Nat)
  deriving DecidableEq, Repr

/-- The offsets of the cup entries of CUPS (R443). -/
def cupOffsets : List Nat := (List.range 49).map (2 * ·)

def parseSpec (b : Bytes) : PartSpec :=
  { cores := setBits 128 (field b 0 16), records := field b 0x10 4, quota := field b 0x14 2, qps := field b 0x16 2
    tierF := field b 0x18 4, crockC := field b 0x1C 4
    regions := (List.range (min 8 (byteAt b 0x20))).map (fun i =>
      { size := field b (0x80 + 16 * i) 8, mask := field b (0x88 + 16 * i) 2, sector := byteAt b (0x8A + 16 * i) == 1 })
    pot := (List.range 16).map (fun k => byteAt b (0x30 + k))
    cups := cupOffsets.map (fun o => (o, field b (0x100 + o) 2)) }

/-- Stacks of a region, and the rows it takes on each (R273). -/
def RegSpec.nstacks (r : RegSpec) : Nat := (setBits 16 r.mask).length
def RegSpec.rows (r : RegSpec) : Nat := r.size / (r.nstacks * 4194304)

/-- Every field in range, every reserved byte 0 (R357, R443). -/
def specOk (b : Bytes) : Bool :=
  let x := parseSpec b
  let n := byteAt b 0x20
  !x.cores.isEmpty && decide (2 ≤ x.records) && decide (x.records ≤ 1048576) && x.records % 2 == 0
    && decide (2 ≤ x.quota) && decide (x.quota ≤ 4096) && x.quota % 2 == 0 && decide (1 ≤ x.qps) && decide (x.qps ≤ 128)
    && (x.tierF == 0 || decide (16 ≤ x.tierF)) && (x.tierF != 0 || x.crockC == 0) && decide (1 ≤ n) && decide (n ≤ 8)
    && zeroAt b 0x21 15 && zeroAt b 0x40 64 && zeroAt b 0x162 158 && zeroAt b (0x80 + 16 * n) (128 - 16 * n)
    && (List.range n).all (fun i => decide (byteAt b (0x8A + 16 * i) < 2) && zeroAt b (0x8B + 16 * i) 5)
    && x.regions.all (fun r => r.mask != 0 && r.size != 0 && r.size % (r.nstacks * 4194304) == 0)
    && (List.range 16).all (fun k => decide (x.pot.getD k 0 ≤ 96)
          && (x.pot.getD k 0 == 0 || x.cores.any (fun g => g / 8 == k)))
    && x.cups.all (fun e => bits e.2 14 11 == 0 && decide (e.2 % 2048 ≤ 1024))

/-! Resources (R330). Firmware's choices, first fit throughout, stand in log 19. -/

/-- Rows [lo, lo + n) are free on a stack. -/
def Dev.rowsFree (d : Dev) (t lo n : Nat) : Bool :=
  d.regions.all (fun e => !bit e.2.mask t ||
    (let m := e.2.size / ((setBits 16 e.2.mask).length * 4194304)
     decide (lo + n ≤ e.2.rowBase) || decide (e.2.rowBase + m ≤ lo)))

/-- The lowest row base at which a region fits: 0, or the end of some region's rows. -/
def Dev.findRows (d : Dev) (r : RegSpec) : Option Nat :=
  let cands := (d.regions.map (fun e => e.2.rowBase + e.2.size / ((setBits 16 e.2.mask).length * 4194304))).foldl
    (fun a n => insertSorted n a) [0]
  cands.find? (fun lo => decide (lo + r.rows ≤ 30720)
    && (setBits 16 r.mask).all (fun t => !(d.stack t).lost && d.rowsFree t lo r.rows))

/-- The lowest free region entry. -/
def Dev.freeEntry (d : Dev) : Option Nat := leastBelow 256 (fun n => (kfind d.regions n).isNone)

/-- Create a region: its entry and the device, or nothing where no rows or no entry are free. -/
def Dev.newRegion (d : Dev) (p base : Nat) (r : RegSpec) (kind : Nat) : Option (Nat × Dev) :=
  match d.findRows r, d.freeEntry with
  | some lo, some n =>
    some (n, d.setRegions (kset d.regions n
      { part := p, base := base, size := r.size, mask := r.mask, rowBase := lo, sector := r.sector, kind := kind }))
  | _, _ => none

/-- Regions one after another from an address: their entries, the address after them, the device. -/
def Dev.newRegions (d : Dev) (p : Nat) : List RegSpec → Nat → Option (List Nat × Nat × Dev)
  | [], base => some ([], base, d)
  | r :: l, base =>
    match d.newRegion p base r 0 with
    | none => none
    | some (n, d1) => (Dev.newRegions d1 p l (base + r.size)).map (fun z => (n :: z.1, z.2))

/-- A size rounded up to whole rows on `n` stacks. -/
def roundRows (size n : Nat) : Nat := max 1 (ceilDiv size (n * 4194304)) * (n * 4194304)

/-- The lowest even record index from which `n` are free (R315, R330). -/
def Dev.findRecords (d : Dev) (n : Nat) : Option Nat :=
  let cands := (d.parts.map (fun e => e.2.recBase + e.2.recCount)).foldl (fun a x => insertSorted x a) [0]
  cands.find? (fun lo => decide (lo + n ≤ 1048576)
    && d.parts.all (fun e => decide (lo + n ≤ e.2.recBase) || decide (e.2.recBase + e.2.recCount ≤ lo)))

/-- The lowest MiB of a skillet's stockpot from which `n` are free (R330). -/
def Dev.findPot (d : Dev) (k n : Nat) : Option Nat :=
  leastBelow 97 (fun lo => decide (lo + n ≤ 96)
    && d.parts.all (fun e => e.2.pot.all (fun x => x.1 != k || decide (lo + n ≤ x.2.1) || decide (x.2.1 + x.2.2 ≤ lo))))

/-- Crock frames that a partition may still reserve. -/
def Dev.crockFree (d : Dev) : Nat := d.crock.free.length + (d.crock.frames - d.crock.fresh)

/-- Take `n` crock frames (R307). -/
def Crock.take (c : Crock) (n : Nat) : List Nat × Crock :=
  let a := c.free.take n
  let m := n - a.length
  (a ++ (List.range m).map (c.fresh + ·), { c with free := c.free.drop n, fresh := c.fresh + m })

/-- The first failure of an admission that needs no placing, in the order of R330. -/
def Dev.admitFails (d : Dev) (x : PartSpec) : Option Nat :=
  if x.cores.any (fun g => (d.core g).retired || d.draining (g / 8) || d.parts.any (fun e => e.2.cores.contains g))
  then some stCoreBusy
  else none

/-- The later failures: quotas, crock, stockpot, queue pairs, cups. -/
def Dev.admitFails2 (d : Dev) (p : Nat) (x : PartSpec) : Option Nat :=
  let sum (f : Part → Nat) : Nat := (d.parts.map (fun e => if e.1 = p then 0 else f e.2)).foldl (· + ·) 0
  if (d.findRecords x.records).isNone ∨ 2048 < sum (fun y => y.quota / 2) + x.quota / 2 then some stCtxSpace
  else if x.crockC ≠ 0 ∧ (!d.crock.present ∨ (List.range 4).any (fun i => (d.cport i).st != 2) ∨ d.crockFree < x.crockC)
  then some stCrockSpace
  else if (List.range 16).any (fun k => x.pot.getD k 0 != 0 && (d.draining k || (d.findPot k (x.pot.getD k 0)).isNone))
  then some stStockpotSpace
  else if 1016 < sum (fun y => y.qps) + x.qps then some stQpSpace
  else none

/-- The cup checks of R331 and R449. -/
def Dev.cupFails (d : Dev) (p : Nat) (x : PartSpec) : Bool :=
  x.cups.any (fun e => decide (shareMax e.1 < d.shareSum p e.1 + e.2 % 2048)
    || (decide (e.1 < 0x20) && decide (e.2 % 2048 < memShareMin (d.rowsOn p (e.1 / 2)))))

/-- The first partition address that firmware gives out. -/
abbrev partBase : Nat := 4194304

/-- Admit partition `p` (R330), with a pod job: the device, or the status of the failure. -/
def Dev.admitPart (d : Dev) (p : Nat) (b : Bytes) (job : Nat) : Dev ⊕ Nat :=
  let x := parseSpec b
  if !specOk b then .inr stInvalidField
  else
    match d.admitFails x with
    | some st => .inr st
    | none =>
      match Dev.newRegions d p x.regions partBase with
      | none => .inr stMemSpace
      | some (entries, after, d1) =>
        let mask := (x.regions.map (·.mask)).headD 1
        let n := (setBits 16 mask).length
        let rr : RegSpec := { size := roundRows (256 * x.records) n, mask := mask, sector := false }
        match d1.newRegion p after rr 1 with
        | none => .inr stMemSpace
        | some (_, d2) =>
          let pages := if x.crockC = 0 then 0 else x.tierF - 8 + x.crockC
          let tr : RegSpec := { size := roundRows (x.tierF * pageBytes + 8 * pages) n, mask := mask, sector := false }
          let tbase := ceilDiv (after + rr.size) pageBytes * pageBytes
          match (if x.tierF = 0 then some (0, d2) else d2.newRegion p tbase tr 2) with
          | none => .inr stMemSpace
          | some (tent, d3) =>
            match d.admitFails2 p x with
            | some st => .inr st
            | none =>
              if d3.cupFails p x then .inr stCupRange
              else
                let fr := d3.crock.take x.crockC
                let y : Part :=
                  { job := job, cores := x.cores, recBase := (d.findRecords x.records).getD 0, recCount := x.records
                    recAddr := after, quota := x.quota, qps := x.qps, regions := entries
                    pot := (List.range 16).filterMap (fun k =>
                      if x.pot.getD k 0 = 0 then none else some (k, (d.findPot k (x.pot.getD k 0)).getD 0, x.pot.getD k 0))
                    cupsNew := x.cups
                    tier := { f := x.tierF, c := x.crockC, base := tbase, pages := pages, region := tent
                              frames := List.range x.tierF, cframes := fr.1 } }
                let d4 := ((d3.setCrock fr.2).putPart p y).modFn p (fun v => { v with sch := {} })
                .inl (x.cores.foldl (fun d g => d.zeroUnit (unitCore g)) d4)

/-! PART_CREATE (R330, R356). -/

/-- PART_CREATE on the device. -/
def Dev.partCreate (d : Dev) (r : CmdRef) (spec : HostRead) : Dev :=
  d.withCmd r 0x04 (fun c =>
    let p := byteAt c.desc 8
    if !hdrOk c.desc 0 [(8, 1), (0x10, 8)] ∨ p = 0 ∨ 16 < p ∨ (d.part p).isSome then d.finish r stInvalidField
    else
      d.withHost r spec (fun b =>
        match d.admitPart p (padTo 512 b) 0 with
        | .inl d1 => d1.finish r stSuccess 0 p
        | .inr st => d.finish r st))

/-- PART_CREATE (R330). -/
def execPartCreate (r : CmdRef) (spec : HostRead) (s : State) : Host.Outcome State Fault Refusal :=
  .next (s.onDev (fun d => d.partCreate r spec))

/-! Suspension (R332, R333). -/

/-- Runs of a partition in flight: a pass is until its contexts have changed state. -/
def Dev.runsOf (d : Dev) (p : Nat) : Bool := d.runs.any (fun e => e.2.part == p)

/-- A SIGNAL whose earlier commands have all completed still stores its value (R332). -/
def Qp.signalDue (x : Qp) (c : Cmd) : Bool := c.op == 0x2A && x.earlierDone c.k

/-- Every other fetched command that has not started is held. -/
def Qp.hold (x : Qp) : Qp :=
  { x with cmds := x.cmds.map (fun c =>
      if c.phase == .waiting && !x.signalDue c then { c with phase := .held } else c) }

/-- Commands of a function are still on their way: running ones, and SIGNALs that are due. -/
def Dev.busyPairs (d : Dev) (f : Nat) : Bool :=
  d.qps.any (fun e => e.1 / 128 == f && e.2.cmds.any (fun c => c.phase == .running || c.phase == .waiting))

/-- Nothing of a partition is in flight (R332 steps 2 to 4). -/
def Dev.still (d : Dev) (p : Nat) : Bool := !d.runsOf p && !d.busyPairs p && d.channelsHalted p

/-- A pair's 16-byte entry of the suspend record: head, tail, phase (the layout is the model's choice, log 20). -/
def Qp.saved (x : Qp) : Bytes := leBytes 4 x.sqHead ++ leBytes 4 x.cqTail ++ leBytes 4 (b2n x.phase) ++ leBytes 4 0

/-- Entries of a parked queue in the order in which their contexts became runnable (R322), those of one time as they stand. -/
def Dev.byReady (d : Dev) (l : List (Nat × Nat)) : List (Nat × Nat) :=
  l.foldl (fun acc e =>
    let t := (d.ctx e.2).readyAt
    acc.filter (fun z => decide ((d.ctx z.2).readyAt ≤ t)) ++ e :: acc.filter (fun z => decide (t < (d.ctx z.2).readyAt))) []

/-- Step 5: the records of resident contexts go to the record region. Those that have a step to run, and pinned ones, wait
there for residence; a batch that has not run its next stage is formed anew after the resume. -/
def Dev.parkAll (d : Dev) (p : Nat) : Dev :=
  match d.part p with
  | none => d
  | some x =>
    let l := d.residents x
    let d1 := l.foldl (fun d e =>
      d.putCtx e.1 { e.2 with resident := false, cstate := if e.2.cstate = 3 then 2 else e.2.cstate }) d
    let back := x.moves.filterMap (fun m => m.cand.map (fun i => (m.parity, i)))
    let all := back ++ x.parked ++ (l.filter (fun e => e.2.cstate == 2 || e.2.cstate == 3 || e.2.pinned)).map
        (fun e => (e.1 % 2, e.1))
    d1.modPart p (fun y => { y with
      parked := d.byReady all, moves := [], batches := y.batches.filter (fun e => e.2.running) })

/-- Steps 5 and 6, once the partition stands still. -/
def Dev.suspendEnd (d : Dev) (r : CmdRef) (p addr : Nat) : Dev :=
  let d1 := d.parkAll p
  ((d1.pairsOf p).foldl (fun d e => d.emitOut (.hostWrite (addr + 16 * e.1) e.2.saved)) d1).finish r stSuccess

/-- PART_SUSPEND on the device: the first issue stops and holds; the command ends once nothing is in flight. -/
def Dev.partSuspend (d : Dev) (r : CmdRef) : Dev :=
  match d.runningCmd r 0x05 with
  | some c => if d.still (byteAt c.desc 8) then d.suspendEnd r (byteAt c.desc 8) (c.f 0x10 8) else d
  | none =>
    d.withCmd r 0x05 (fun c =>
      let p := byteAt c.desc 8
      if !hdrOk c.desc 0 [(8, 1), (0x10, 8)] ∨ p = 0 ∨ 16 < p then d.finish r stInvalidField
      else
        match d.part p with
        | none => d.finish r stNoPartition
        | some x =>
          if x.reclaim ≠ .none then d.finish r stNoPartition
          else
            let d1 := (((d.putPart p { x with suspended := true }).modPairs p Qp.hold).holdChannels p).freeStuck p
            if d1.still p then d1.suspendEnd r p (c.f 0x10 8)
            else d1.modCmd r (fun c => { c with phase := .running }))

/-- PART_SUSPEND (R332). -/
def execPartSuspend (r : CmdRef) (s : State) : Host.Outcome State Fault Refusal :=
  .next (s.onDev (fun d => d.partSuspend r))

/-- A pair takes its pointers back, and its held commands start again ahead of new ones (R333). -/
def Qp.resume (x : Qp) (b : Bytes) : Qp :=
  { x with sqHead := field b 0 4 % x.sqSize, cqTail := field b 4 4 % x.cqSize, phase := bit (byteAt b 8) 0
           cmds := x.cmds.map (fun c => if c.phase == .held then { c with phase := .waiting } else c) }

/-- PART_RESUME on the device (R333). -/
def Dev.partResume (d : Dev) (r : CmdRef) (saved : HostRead) : Dev :=
  d.withCmd r 0x06 (fun c =>
    let p := byteAt c.desc 8
    if !hdrOk c.desc 0 [(8, 1), (0x10, 8)] ∨ p = 0 ∨ 16 < p then d.finish r stInvalidField
    else
      match d.part p with
      | none => d.finish r stNoPartition
      | some x =>
        if x.reclaim ≠ .none then d.finish r stNoPartition
        else if !x.suspended then d.finish r stSuccess
        else
          d.withHost r saved (fun b =>
            let d1 := d.putPart p { x with suspended := false }
            let d2 := (d1.pairsOf p).foldl (fun d e => d.putQp p e.1 (e.2.resume (padTo 16 (slice b (16 * e.1) 16)))) d1
            (d2.freeChannels p).finish r stSuccess))

/-- PART_RESUME (R333). -/
def execPartResume (r : CmdRef) (saved : HostRead) (s : State) : Host.Outcome State Fault Refusal :=
  .next (s.onDev (fun d => d.partResume r saved))

/-! Reclaim (R334 to R338). -/

/-- Quiesce (R334): windows close first (R429), then fetch stops, what has not started is aborted, channels halt. -/
def Dev.quiesce (d : Dev) (p : Nat) (by' : Option CmdRef) (recipient : Nat) : Dev :=
  let d1 := (d.closeWindows p).modPart p (fun x =>
    { x with reclaim := .quiesce, reclaimBy := by', recipient := recipient })
  ((d1.modPairs p (fun x => (x.abortWaiting).1)).holdChannels p).freeStuck p

/-- PART_RECLAIM on the device, stage Quiesce; HAND_OVER ends the command. -/
def Dev.partReclaim (d : Dev) (r : CmdRef) : Dev :=
  d.withCmd r 0x07 (fun c =>
    let p := byteAt c.desc 8
    let q := byteAt c.desc 9
    if !hdrOk c.desc 0 [(8, 2)] ∨ p = 0 ∨ 16 < p ∨ 16 < q ∨ q = p then d.finish r stInvalidField
    else
      match d.part p with
      | none => d.finish r stNoPartition
      | some x =>
        if x.reclaim ≠ .none ∨ (q ≠ 0 ∧ (d.part q).isNone) then d.finish r stNoPartition
        else (d.quiesce p (some r) q).modCmd r (fun c => { c with phase := .running }))

/-- PART_RECLAIM (R334). -/
def execPartReclaim (r : CmdRef) (s : State) : Host.Outcome State Fault Refusal :=
  .next (s.onDev (fun d => d.partReclaim r))

/-- A quiesced partition: no run, no command that started, channels halted, no migration. -/
def Dev.quiet (d : Dev) (p : Nat) (x : Part) : Bool :=
  !d.runsOf p && d.channelsHalted p && !x.tier.moving
    && !d.qps.any (fun e => e.1 / 128 == p && e.2.cmds.any (fun c => c.phase == .running))

/-- Fill every row of a region (R285): a lost stack is left out (R337). -/
def Dev.fillRegion (d : Dev) (g : Region) : Dev :=
  let st := setBits 16 g.mask
  let rows := g.size / (st.length * 4194304)
  st.foldl (fun d t => d.fillStack t (g.rowBase * 4194304) ((g.rowBase + rows) * 4194304)) d

/-- The partition's stockpot shares are cleared. -/
def Dev.clearPots (d : Dev) (x : Part) : Dev :=
  x.pot.foldl (fun d e =>
    let lo := potKeyAt e.1 (e.2.1 * 1048576)
    let hi := lo + e.2.2 * 1048576
    (d.setPotBad (cutRanges d.potBad lo hi)).setMem (mclear d.mem lo hi)) d

/-- Its multicast entries are freed. -/
def Dev.clearMcast (d : Dev) (p : Nat) : Dev :=
  d.setJds (d.jds.map (fun e => (e.1, { e.2 with mcast := e.2.mcast.filter (fun m => m.part != p) })))

/-- The tier map is reset: every crock frame is free again (R301, R308). -/
def Tier.freed (t : Tier) : Tier :=
  { t with
    cframes := t.cframes ++ t.page.filterMap (fun e => match e.2 with
      | .crock f => some f
      | _ => none)
    page := [], pinned := [], queue := [], demote := [], hints := [] }

/-- SCRUB on the device (R334): the tier map is freed with everything else (R301). -/
def Dev.scrub (d : Dev) (p : Nat) : Dev :=
  match d.part p with
  | none => d
  | some x =>
    if x.reclaim ≠ .quiesce ∨ !d.quiet p x then d
    else
      let d1 := (d.regions.filter (fun e => e.2.part == p)).foldl (fun d e => d.fillRegion e.2) d
      ((d1.clearPots x).clearMcast p).putPart p
        { x with reclaim := .scrubbed, tier := x.tier.freed }

/-- SCRUB (R334). -/
def execScrub (p : Nat) (s : State) : Host.Outcome State Fault Refusal := .next (s.onDev (fun d => d.scrub p))

/-- RE_CARVE on the device (R334): context and scoreboard entries are cleared and the DMA channels unbound (R389); the
partition's programs and batches are gone. What it held returns at the hand-over of the same reclaim (log 19). -/
def Dev.reCarve (d : Dev) (p : Nat) : Dev :=
  match d.part p with
  | none => d
  | some x =>
    if x.reclaim ≠ .scrubbed then d
    else
      let d1 := d.setCtxs (d.ctxs.map (fun e =>
        if x.recBase ≤ e.1 ∧ e.1 < x.recBase + x.recCount then (e.1, { gen := e.2.gen }) else e))
      let d2 := (d.channelsOf p).foldl (fun d c =>
        let d1 := d.dmaAbort c stAborted
        d1.putDma c (Dma.at c)) d1
      (d2.modPairs p (fun q => { q with deferred := [] })).putPart p
        { x with reclaim := .carved, jsb := [], jsets := [], parked := [], starve := [], moves := [], batches := [], hist := [], progs := [] }

/-- RE_CARVE (R334). -/
def execReCarve (p : Nat) (s : State) : Host.Outcome State Fault Refusal := .next (s.onDev (fun d => d.reCarve p))

/-- Cup shares are added to the recipient's entries (R514), its own DRAW bit kept. -/
def Part.addCups (y x : Part) : Part :=
  { y with cupsNew := cupOffsets.filterMap (fun o =>
      let e := y.cupLast o
      let a := x.cupLast o % 2048
      if a = 0 then (y.cupsNew.find? (fun z => z.1 == o)) else some (o, e - e % 2048 + (e % 2048 + a))) }

/-- The reclaimed rows become regions of the recipient, after its highest one (R514). -/
def Dev.giveRegions (d : Dev) (p q : Nat) : Dev :=
  (d.regions.filter (fun e => e.2.part == p)).foldl (fun d e =>
    let top := (d.regions.map (fun r => if r.2.part = q then r.2.base + r.2.size else 0)).foldl max 0
    let tier := match d.part q with
      | some y => y.tier.base + y.tier.pages * pageBytes
      | none => 0
    let d1 := d.setRegions (kset d.regions e.1 { e.2 with part := q, base := max top tier, kind := 0 })
    d1.modPart q (fun y => { y with regions := y.regions ++ [e.1] })) d

/-- The pairs of a function give their numbers up when its partition is reclaimed (R339). -/
def Dev.giveNumbers (d : Dev) (p : Nat) : Dev :=
  d.setQps (d.qps.map (fun e => if e.1 / 128 = p then (e.1, { e.2 with given := true }) else e))

/-- Partition q takes over what is handed on: it exists, and no reclaim of it is under way. -/
def Dev.heir (d : Dev) (q : Nat) : Bool :=
  match d.part q with
  | some y => q != 0 && y.reclaim == Reclaim.none
  | none => false

/-- HAND_OVER's move of everything (R514): to the recipient, or to the free pool. -/
def Dev.handResources (d : Dev) (p : Nat) (x : Part) : Dev :=
  let d0 := d.giveNumbers p
  let d1 := d0.setCrock { d0.crock with free := d0.crock.free ++ (x.tier.cframes.filter (fun f => !d.crock.bad.contains f)) }
  if d.heir x.recipient then
    let given := x.cores.filter (fun g => !d.draining (g / 8))
    let d2 := (d1.giveRegions p x.recipient).modPart x.recipient (fun y =>
      { (y.addCups x) with
        cores := given.foldl (fun l g => insertSorted g l) y.cores
        pot := y.pot ++ x.pot.filter (fun e => !d.draining e.1) })
    let d3 := given.foldl (fun d g => d.zeroUnit (unitCore g)) d2
    d3.setParts (kdel d3.parts p)
  else (d1.setRegions (d1.regions.filter (fun e => e.2.part != p))).setParts (kdel d1.parts p)

end Sys2Proof.Machine
end

