-- ==== Sys2Proof/Machine/Pod.lean ====
section
/-!
DEFINITION. Pod management: heartbeats, admission and reclaim over modules, takeover, the pod request ring, and the
hand-over that ends every reclaim (R334, R432 to R437, R514).
-/

namespace Sys2Proof.Machine

/-! What a module reports (R433). -/

/-- Free rows of a stack. -/
def Dev.freeRowsOn (d : Dev) (t : Nat) : Nat :=
  30720 - (d.regions.map (fun e =>
    if bit e.2.mask t then e.2.size / ((setBits 16 e.2.mask).length * 4194304) else 0)).foldl (· + ·) 0

/-- Cores of the device in service. -/
def Dev.inService (d : Dev) : List Nat := (List.range 128).filter (fun g => !(d.core g).retired && !d.coreFenced g)

/-- This module's heartbeat. -/
def Dev.beat (d : Dev) : Beat :=
  { freeCores := d.inService.filter (fun g => (d.coreOwner g).isNone)
    freeRows := (List.range 16).map d.freeRowsOn
    freeRecords := 1048576 - (d.parts.map (fun e => e.2.recCount)).foldl (· + ·) 0
    freeQuota := 4096 - (d.parts.map (fun e => e.2.quota)).foldl (· + ·) 0
    freeCrock := d.crockFree
    inService := d.inService.length
    jobs := d.parts.map (fun e => (e.1, e.2.job)) }

/-- The acting manager this module answers to. -/
def Dev.manager (d : Dev) : Nat := d.fab.pod.curMgr.getD d.conf.manager

def Dev.setPod (d : Dev) (x : Pod) : Dev := d.setFab { d.fab with pod := x }

/-- Send a MGMT message: to an unreachable module it fails at once (R425). -/
def Dev.sayMgmt (d : Dev) (dst : Nat) (data : Bytes) : Dev :=
  if (d.dest dst).unreachable then d
  else (d.sendMsg { dst := dst, id := 0, op := 6, window := 0, woff := 0, job := 0, data := data }).2

/-- Heartbeats go out: the manager's to every module, another's to the manager (R433). -/
def Dev.heartbeatSend (d : Dev) : Dev :=
  if !d.up then d
  else if d.fab.pod.acting then
    (List.range 256).foldl (fun d m => if m = d.conf.module then d else d.sayMgmt m (Config.beatWire d.beat)) d
  else d.sayMgmt d.manager (Config.beatWire d.beat)

/-- HEARTBEAT_SEND (R433). -/
def execHeartbeatSend (s : State) : Host.Outcome State Fault Refusal := .next (s.onDev Dev.heartbeatSend)

/-! The pod ring (R434): it follows a DMA channel's (R379, R380). -/

/-- The lowest-numbered virtual function without a partition. -/
def Dev.freeVf (d : Dev) : Option Nat := ((List.range 16).map (· + 1)).find? (fun p => (d.part p).isNone)

/-- FAB_POD_TAIL on the device. -/
def Dev.podTail (d : Dev) (v : Nat) : Dev :=
  let x := d.fab.pod
  if !x.acting || x.err || v == x.tail then d
  else if 2 ^ x.log2 ≤ v then d.setPod { x with err := true }
  else d.setPod { x with tail := v }

/-- FAB_POD_TAIL (R434). -/
def execFabPodTail (v : Nat) (word32 : Bool) (s : State) : Host.Outcome State Fault Refusal :=
  .next (s.onReg (fun d => if word32 then d.podTail v else d))

/-- A request is written back (R434). -/
def Dev.podWrite (d : Dev) (slot st job : Nat) : Dev :=
  d.emitOut (.hostWrite (d.fab.pod.base + 64 * slot + 0x38)
    (leBytes 2 st ++ leBytes 1 1 ++ repByte 3 0 ++ leBytes 2 job))

/-- The RESET bit of the pod ring (R434): a request in progress ends with ABORTED. -/
def Dev.podReset (d : Dev) : Dev :=
  if !d.fab.pod.acting then d
  else
    let d1 := match d.fab.pod.req with
      | some q => d.podWrite q.slot stAborted 0
      | none => d
    d1.setPod { d1.fab.pod with err := false, head := 0, tail := 0, req := none }

/-- FAB_POD_CTL_RESET (R434). -/
def execFabPodCtlReset (s : State) : Host.Outcome State Fault Refusal := .next (s.onReg Dev.podReset)

/-- The bytes of RESULT. -/
def resultBytes (l : List (Nat × Nat)) : Bytes := l.flatMap (fun e => leBytes 1 e.1 ++ leBytes 1 e.2)

/-- A request in progress ends: RESULT where there is one, and the writeback. -/
def Dev.podEnd (d : Dev) (q : PodReq) (st : Nat) (result : Bool) : Dev :=
  let d1 := if result then d.emitOut (.hostWrite q.result (resultBytes q.got)) else d
  (d1.podWrite q.slot st (if q.reclaim || st != stSuccess then 0 else q.job)).setPod
    { d1.fab.pod with req := none }

/-! Reclaim (R436). -/

/-- A module has confirmed a reclaim, or is given up with virtual function 0. -/
def Dev.podConfirm (d : Dev) (job m vf : Nat) : Dev :=
  match d.fab.pod.req with
  | none => d
  | some q =>
    if !q.reclaim || q.job != job || !q.todo.contains m then d
    else
      let q1 := { q with todo := q.todo.filter (· != m), got := q.got ++ [(m, vf)] }
      let d1 := d.setPod { d.fab.pod with req := some q1,
                                          owed := if vf = 0 then d.fab.pod.owed ++ [(job, m)] else d.fab.pod.owed }
      if q1.todo.isEmpty then
        let d2 := d1.setPod { d1.fab.pod with jobs := kdel d1.fab.pod.jobs job }
        d2.podEnd q1 (if q1.got.any (fun e => e.2 == 0) then stPoisoned else stSuccess) true
      else d1

/-- The virtual function that a job holds on a module. -/
def Pod.vfOf (x : Pod) (job m : Nat) : Nat :=
  (((kget x.jobs job []).find? (fun e => e.1 == m)).map (·.2)).getD 0

/-- This module tells whoever asked that a job's partition is reclaimed. -/
def Dev.tellReclaimed (d : Dev) (job asker : Nat) : Dev :=
  if asker = d.conf.module then d.podConfirm job asker (d.fab.pod.vfOf job asker)
  else d.sayMgmt asker (Config.mgmtWire (.reclaimed job))

/-- This module reclaims a job's partition to the free pool. -/
def Dev.localReclaim (d : Dev) (job asker : Nat) : Dev :=
  match d.parts.find? (fun e => e.2.job == job && job != 0) with
  | none => d.tellReclaimed job asker
  | some (p, x) =>
    let d1 := if x.reclaim = .none then d.quiesce p none 0 else d
    d1.setPod { d1.fab.pod with locals := d1.fab.pod.locals ++ [(job, asker)] }

/-- A module of a job is asked to reclaim. -/
def Dev.askReclaim (d : Dev) (job m : Nat) : Dev :=
  if m = d.conf.module then d.localReclaim job m
  else if d.fab.pod.lostMods.contains m then d.podConfirm job m 0
  else d.sayMgmt m (Config.mgmtWire (.reclaim job))

/-- HAND_OVER on the device (R334, R514): the reclaim ends. -/
def Dev.handOver (d : Dev) (p : Nat) : Dev :=
  match d.part p with
  | none => d
  | some x =>
    if x.reclaim ≠ .carved then d
    else
      let d1 := d.handResources p x
      let d2 := match x.reclaimBy with
        | some r => d1.finish r stSuccess
        | none => d1
      let mine := d2.fab.pod.locals.filter (fun e => e.1 == x.job)
      let d3 := d2.setPod { d2.fab.pod with locals := d2.fab.pod.locals.filter (fun e => e.1 != x.job) }
      mine.foldl (fun d e => d.tellReclaimed e.1 e.2) d3

/-- HAND_OVER (R334). -/
def execHandOver (p : Nat) (s : State) : Host.Outcome State Fault Refusal := .next (s.onDev (fun d => d.handOver p))

/-! Admission (R435). -/

/-- Rows that a specification needs on a stack: its regions, the record region and the tier frames. -/
def PartSpec.rowsOn (x : PartSpec) (t : Nat) : Nat :=
  let mask := (x.regions.map (·.mask)).headD 1
  let n := (setBits 16 mask).length
  let extra := roundRows (256 * x.records) n / (n * 4194304)
    + (if x.tierF = 0 then 0 else roundRows (x.tierF * pageBytes + 8 * (x.tierF - 8 + x.crockC)) n / (n * 4194304))
  (x.regions.map (fun r => if bit r.mask t then r.rows else 0)).foldl (· + ·) 0 + (if bit mask t then extra else 0)

/-- A heartbeat shows enough for a specification. -/
def beatEnough (b : Beat) (x : PartSpec) : Bool :=
  x.cores.all (fun g => b.freeCores.contains g) && (List.range 16).all (fun t => decide (x.rowsOn t ≤ b.freeRows.getD t 0))
    && decide (x.records ≤ b.freeRecords) && decide (x.quota ≤ b.freeQuota) && decide (x.crockC ≤ b.freeCrock)

/-- The candidates of a request: preferred modules first, in rising number. -/
def Dev.candidates (d : Dev) (x : PartSpec) (prefer : Nat) : List Nat :=
  let live := (List.range 256).filter (fun m =>
    if m = d.conf.module then beatEnough d.beat x
    else match kfind d.fab.pod.beats m with
      | some b => !d.fab.pod.lostMods.contains m && beatEnough b x
      | none => false)
  live.filter (bit prefer ·) ++ live.filter (fun m => !bit prefer m)

/-- Admit a job's partition here: the virtual function, or a status. -/
def Dev.localAdmit (d : Dev) (job : Nat) (spec : Bytes) : (Nat ⊕ Nat) × Dev :=
  match d.freeVf with
  | none => (.inr stCoreBusy, d)
  | some p =>
    match d.admitPart p spec job with
    | .inl d1 => (.inl p, d1)
    | .inr st => (.inr st, d)

/-- The request goes on to its next candidate, or ends (R435 items 3 to 6). -/
def Dev.podNext : Nat → Dev → Dev
  | 0, d => d
  | n + 1, d =>
    match d.fab.pod.req with
    | none => d
    | some q =>
      if q.got.length = q.want then
        (d.setPod { d.fab.pod with jobs := kset d.fab.pod.jobs q.job q.got }).podEnd q stSuccess true
      else
        match q.todo with
        | [] =>
          let d1 := q.got.foldl (fun d e =>
            if e.1 = d.conf.module then
              (match d.part e.2 with
               | some x => if x.reclaim = .none then d.quiesce e.2 none 0 else d
               | none => d)
            else d.sayMgmt e.1 (Config.mgmtWire (.reclaim q.job))) d
          d1.podEnd q q.last false
        | m :: rest =>
          if m = d.conf.module then
            match d.localAdmit q.job q.spec with
            | (.inl p, d1) => Dev.podNext n (d1.setPod { d1.fab.pod with
                req := some { q with todo := rest, got := q.got ++ [(m, p)] } })
            | (.inr st, d1) => Dev.podNext n (d1.setPod { d1.fab.pod with req := some { q with todo := rest, last := st } })
          else
            (d.setPod { d.fab.pod with req := some { q with todo := rest, asked := some m } }).sayMgmt m
              (Config.mgmtWire (.enrol q.job q.spec))

/-- The lowest job from 1 to 65,534 that no live job holds. -/
def Dev.freeJob (d : Dev) : Nat :=
  ((List.range 65534).find? (fun i => (kfind d.fab.pod.jobs (i + 1)).isNone)).map (· + 1) |>.getD 0

/-- The ring may take its next entry. -/
def Dev.podReady (d : Dev) : Bool :=
  let x := d.fab.pod
  x.acting && !x.err && x.req.isNone && x.head != x.tail && !d.saf.safeStop

/-- The next entry is taken: its slot, and the device with the head moved on. -/
def Dev.podTake (d : Dev) : Nat × Dev :=
  (d.fab.pod.head, d.setPod { d.fab.pod with head := (d.fab.pod.head + 1) % 2 ^ d.fab.pod.log2 })

/-- The reserved bytes of an entry are 0, and the fields its operation does not use (R434). -/
def podEntryOk (b : Bytes) : Bool :=
  zeroAt b 4 4 && zeroAt b 0x20 32
    && (match byteAt b 0 with
        | 1 => zeroAt b 2 2
        | 2 => zeroAt b 1 1 && zeroAt b 8 16
        | _ => false)

/-- ADMIT on the device (R435). NMOD 0 stands for 256, which one byte does not hold (DEDUCED, log 21). -/
def Dev.podAdmit (d : Dev) (entry spec prefer : HostRead) : Dev :=
  if !d.podReady then d
  else
    match entry with
    | .ok raw =>
      let b := padTo 64 raw
      if byteAt b 0 = 2 then d
      else
        let t := d.podTake
        if !podEntryOk b then t.2.podWrite t.1 stInvalidField 0
        else
          match spec, (if field b 0x10 8 = 0 then HostRead.ok [] else prefer) with
          | .ok sp, .ok pr =>
            let x := padTo 512 sp
            let job := t.2.freeJob
            if !specOk x then t.2.podWrite t.1 stInvalidField 0
            else
              let q : PodReq :=
                { reclaim := false, job := job, want := if byteAt b 1 = 0 then 256 else byteAt b 1, spec := x
                  result := field b 0x18 8, slot := t.1, todo := t.2.candidates (parseSpec x) (field pr 0 32)
                  last := stCoreBusy }
              Dev.podNext 300 (t.2.setPod { t.2.fab.pod with req := some q })
          | .poisoned, _ => t.2.podWrite t.1 stPoisoned 0
          | _, .poisoned => t.2.podWrite t.1 stPoisoned 0
          | _, _ => t.2.podWrite t.1 stHostAccess 0
    | _ => d.setPod { d.fab.pod with err := true }

/-- ADMIT (R435). -/
def execPodAdmit (entry spec prefer : HostRead) (s : State) : Host.Outcome State Fault Refusal :=
  .next (s.onDev (fun d => d.podAdmit entry spec prefer))

/-- RECLAIM on the device (R436). -/
def Dev.podReclaim (d : Dev) (entry : HostRead) : Dev :=
  if !d.podReady then d
  else
    match entry with
    | .ok raw =>
      let b := padTo 64 raw
      if byteAt b 0 ≠ 2 then d
      else
        let t := d.podTake
        let job := field b 2 2
        if !podEntryOk b then t.2.podWrite t.1 stInvalidField 0
        else
          match kfind t.2.fab.pod.jobs job with
          | none => t.2.podWrite t.1 stNoPartition 0
          | some mods =>
            let l := mods.map (·.1)
            let q : PodReq :=
              { reclaim := true, job := job, want := l.length, spec := [], result := field b 0x18 8, slot := t.1, todo := l }
            l.foldl (fun d m => d.askReclaim job m) (t.2.setPod { t.2.fab.pod with req := some q })
    | _ => d.setPod { d.fab.pod with err := true }

/-- RECLAIM (R436). -/
def execReclaim (entry : HostRead) (s : State) : Host.Outcome State Fault Refusal :=
  .next (s.onDev (fun d => d.podReclaim entry))

/-- POD_RECLAIM_TIMEOUT (R436): 2 s without a confirmation. -/
def execPodReclaimTimeout (job m : Nat) (s : State) : Host.Outcome State Fault Refusal :=
  .next (s.onDev (fun d => d.podConfirm job m 0))

/-! Messages (R433, R435, R436). -/

/-- A management message that has arrived is committed and acknowledged, then acted on. -/
def Dev.onMgmt (d : Dev) (src msg : Nat) (body : Dev → Dev) : Dev :=
  match d.arrived src msg 6 with
  | none => d
  | some _ => body ((d.commitMsg src msg).sayAck src msg)

/-- A heartbeat at the manager: the module is live; its jobs fill the table (R437); what it still owes is reclaimed
(R436). -/
def Dev.beatAtManager (d : Dev) (src : Nat) (b : Beat) : Dev :=
  let x := d.fab.pod
  let owed := x.owed.filter (fun e => e.2 == src)
  let held := b.jobs.filter (fun e => e.2 != 0 && !owed.any (fun o => o.1 == e.2))
  let jobs := held.foldl (fun m e =>
    let l := kget m e.2 []
    if l.any (fun z => z.1 == src) then m else kset m e.2 (l ++ [(src, e.1)])) x.jobs
  let d1 := d.setPod { x with beats := kset x.beats src b, lostMods := x.lostMods.filter (· != src), jobs := jobs
                              owed := x.owed.filter (fun e => e.2 != src) }
  owed.foldl (fun d e => d.sayMgmt src (Config.mgmtWire (.reclaim e.1))) d1

/-- HEARTBEAT (R433, R437). -/
def execHeartbeat (src msg : Nat) (b : Beat) (s : State) : Host.Outcome State Fault Refusal :=
  .next (s.onDev (fun d => d.onMgmt src msg (fun d =>
    if d.fab.pod.acting then d.beatAtManager src b
    else d.setPod { d.fab.pod with mgrLost := false, curMgr := some src })))

/-- What a pod message makes the module do (R435, R436). -/
def Dev.podMsg (d : Dev) (src : Nat) (m : MgmtMsg) : Dev :=
  match m with
  | .enrol job spec =>
    (match d.localAdmit job (padTo 512 spec) with
     | (.inl p, d1) => d1.sayMgmt src (Config.mgmtWire (.admitted job p))
     | (.inr st, d1) => d1.sayMgmt src (Config.mgmtWire (.admitRefused job st)))
  | .admitted job vf =>
    (match d.fab.pod.req with
     | some q => if !q.reclaim && q.job == job && q.asked == some src then
                   Dev.podNext 300 (d.setPod { d.fab.pod with
                     req := some { q with asked := none, got := q.got ++ [(src, vf)] } })
                 else d
     | none => d)
  | .admitRefused job st =>
    (match d.fab.pod.req with
     | some q => if !q.reclaim && q.job == job && q.asked == some src then
                   Dev.podNext 300 (d.setPod { d.fab.pod with req := some { q with asked := none, last := st } })
                 else d
     | none => d)
  | .reclaim job => d.localReclaim job src
  | .reclaimed job => d.podConfirm job src (d.fab.pod.vfOf job src)

/-- MGMT (R435, R436). -/
def execMgmt (src msg : Nat) (m : MgmtMsg) (s : State) : Host.Outcome State Fault Refusal :=
  .next (s.onDev (fun d => d.onMgmt src msg (fun d => d.podMsg src m)))

/-- HEARTBEAT_TIMEOUT on the device (R433, R436). -/
def Dev.beatTimeout (d : Dev) (m : Nat) : Dev :=
  let x := d.fab.pod
  if !x.acting || (kfind x.beats m).isNone || x.lostMods.contains m then d
  else
    let d1 := (d.setPod { x with beats := kdel x.beats m, lostMods := insertSorted m x.lostMods }).fabEvent evModuleLost 0 0
      (leBytes 1 m)
    match d1.fab.pod.req with
    | some q => if q.reclaim && q.todo.contains m then d1.podConfirm q.job m 0
                else if !q.reclaim && q.asked == some m then
                  Dev.podNext 300 (d1.setPod { d1.fab.pod with req := some { q with asked := none } })
                else d1
    | none => d1

/-- HEARTBEAT_TIMEOUT (R433). -/
def execHeartbeatTimeout (m : Nat) (s : State) : Host.Outcome State Fault Refusal :=
  .next (s.onDev (fun d => d.beatTimeout m))

/-- MANAGER_HEARTBEAT_TIMEOUT (R437). -/
def execManagerHeartbeatTimeout (s : State) : Host.Outcome State Fault Refusal :=
  .next (s.onDev (fun d =>
    let x := d.fab.pod
    if !d.up || x.acting || x.mgrLost then d
    else (d.setPod { x with mgrLost := true }).fabEvent evManagerLost 0 0 (leBytes 1 d.manager)))

/-- STANDBY_TAKEOVER (R437): the job table is rebuilt from heartbeats; this module's own partitions are in it. -/
def execStandbyTakeover (s : State) : Host.Outcome State Fault Refusal :=
  .next (s.onDev (fun d =>
    let x := d.fab.pod
    if d.conf.role ≠ 2 ∨ !x.mgrLost ∨ x.acting then d
    else
      let own := (d.parts.filter (fun e => e.2.job != 0)).foldl (fun m e =>
        kset m e.2.job (kget m e.2.job [] ++ [(d.conf.module, e.1)])) []
      (d.setPod { x with acting := true, mgrLost := false, curMgr := none, beats := [], lostMods := [], jobs := own
                         req := none, owed := [] }).fabEvent evManagerTakeover 0 0 (leBytes 1 d.conf.module)))

end Sys2Proof.Machine
end

