-- ==== Sys2Proof/Machine/Float.lean ====
section
/-!
DEFINITION. Binary floating formats and their arithmetic (R42 to R45, R51, R52, R138, R139): a value is decoded to an
exact dyadic number, the operation is exact, and one rounding to nearest even encodes the result. Formats are named by
their exponent and fraction widths.
-/

namespace Sys2Proof.Machine

/-- A floating value: NaN, an infinity, or (-1)^neg * m * 2^e. -/
inductive FVal where
  | nan
  | inf (neg : Bool)
  | fin (neg : Bool) (m : Nat) (e : Int)
  deriving DecidableEq, Repr

/-- The storage formats of R93 that hold floating values. -/
inductive FFmt where
  | fp32 | bf16 | fp16 | e4m3 | e5m2
  deriving DecidableEq, Repr

/-- Exponent width of a format. -/
def FFmt.eb : FFmt → Nat
  | .fp32 => 8 | .bf16 => 8 | .fp16 => 5 | .e4m3 => 4 | .e5m2 => 5

/-- Fraction width of a format. -/
def FFmt.mb : FFmt → Nat
  | .fp32 => 23 | .bf16 => 7 | .fp16 => 10 | .e4m3 => 3 | .e5m2 => 2

/-- Element size in bytes. -/
def FFmt.size : FFmt → Nat
  | .fp32 => 4 | .bf16 => 2 | .fp16 => 2 | .e4m3 => 1 | .e5m2 => 1

/-- Exponent of the least subnormal bit. -/
def FFmt.emin (f : FFmt) : Int := 2 - (2 ^ (f.eb - 1) : Nat) - f.mb

/-- Decode an encoding; E4M3 has no infinity (R44). -/
def fdecode (f : FFmt) (w : Nat) : FVal :=
  let fr := w % 2 ^ f.mb
  let ex := w / 2 ^ f.mb % 2 ^ f.eb
  let neg := bit w (f.eb + f.mb)
  if f = .e4m3 then
    if ex = 15 ∧ fr = 7 then .nan
    else if ex = 0 then .fin neg fr f.emin
    else .fin neg (fr + 2 ^ f.mb) (f.emin + ex - 1)
  else if ex = 2 ^ f.eb - 1 then (if fr = 0 then .inf neg else .nan)
  else if ex = 0 then .fin neg fr f.emin
  else .fin neg (fr + 2 ^ f.mb) (f.emin + ex - 1)

/-- m / 2^k rounded to nearest even; `st` says that a further nonzero tail lies below m. -/
def rneShift (m k : Nat) (st : Bool) : Nat :=
  if k = 0 then m
  else
    let q := m / 2 ^ k
    let r := m % 2 ^ k
    let h := 2 ^ (k - 1)
    if r < h then q
    else if r = h && !st then (if q % 2 = 0 then q else q + 1)
    else q + 1

/-- The number of bits of `m`. -/
def bitLen (m : Nat) : Nat := if m = 0 then 0 else Nat.log2 m + 1

/-- The pattern of a NaN: the canonical quiet NaN (R43), and the FP8 codes of R45. -/
def fnan : FFmt → Nat
  | .fp32 => 0x7FC00000 | .bf16 => 0x7FC0 | .fp16 => 0x7E00 | .e4m3 => 0x7F | .e5m2 => 0x7E

/-- The magnitude pattern and whether it overflowed, of m * 2^e (and a tail `st`) rounded to nearest even (R51). -/
def fpackMag (f : FFmt) (m : Nat) (e : Int) (st : Bool) : Nat :=
  if m = 0 then 0
  else
    let q : Int := max (e + bitLen m - 1 - f.mb) f.emin
    let mm := if q ≤ e then m * 2 ^ (e - q).toNat else rneShift m (q - e).toNat st
    if mm < 2 ^ f.mb then mm
    else ((q - f.emin).toNat + 1) * 2 ^ f.mb + (mm - 2 ^ f.mb)

/-- The largest finite magnitude pattern. -/
def fmaxMag : FFmt → Nat
  | .fp32 => 0x7F7FFFFF | .bf16 => 0x7F7F | .fp16 => 0x7BFF | .e4m3 => 0x7E | .e5m2 => 0x7B

/-- The pattern of an infinity; E4M3 has none and holds its largest magnitude (R45). -/
def finfMag : FFmt → Nat
  | .fp32 => 0x7F800000 | .bf16 => 0x7F80 | .fp16 => 0x7C00 | .e4m3 => 0x7E | .e5m2 => 0x7C

/-- The sign bit of a format. -/
def fsign (f : FFmt) (neg : Bool) : Nat := b2n neg * 2 ^ (f.eb + f.mb)

/-- Encode with one rounding to nearest even and IEEE overflow; in FP8 a finite value beyond the largest magnitude
clamps and counts a saturation (R45). Answers the pattern and the saturations counted. -/
def fencode (f : FFmt) (v : FVal) (st : Bool := false) : Nat × Nat :=
  match v with
  | .nan => (fnan f, 0)
  | .inf neg => (fsign f neg + finfMag f, 0)
  | .fin neg m e =>
    let mag := fpackMag f m e st
    if mag > fmaxMag f then
      (match f with
       | .e4m3 | .e5m2 => (fsign f neg + fmaxMag f, 1)
       | _ => (fsign f neg + finfMag f, 0))
    else (fsign f neg + mag, 0)

/-- FP32 pattern. -/
abbrev F32 := Nat

def f32 (w : F32) : FVal := fdecode .fp32 w
def toF32 (v : FVal) (st : Bool := false) : F32 := (fencode .fp32 v st).1

/-- The canonical NaN of FP32 (R43). -/
def f32NaN : F32 := 0x7FC00000

def f32IsNaN (w : F32) : Bool := f32 w == .nan
def f32IsInf (w : F32) : Bool := match f32 w with | .inf _ => true | _ => false
def f32IsFinite (w : F32) : Bool := match f32 w with | .fin _ _ _ => true | _ => false
def f32Neg (w : F32) : Bool := bit w 31

/-- The signed mantissa of a finite value. -/
def smant (neg : Bool) (m : Nat) : Int := if neg then -(m : Int) else m

/-- The exact sum of two values; a zero sum of opposite signs is +0 (IEEE 754, to nearest even). -/
def fvAdd : FVal → FVal → FVal
  | .nan, _ => .nan
  | _, .nan => .nan
  | .inf a, .inf b => if a = b then .inf a else .nan
  | .inf a, _ => .inf a
  | _, .inf b => .inf b
  | .fin na ma ea, .fin nb mb eb =>
    let e := min ea eb
    let s : Int := smant na ma * (2 ^ (ea - e).toNat : Nat) + smant nb mb * (2 ^ (eb - e).toNat : Nat)
    if s = 0 then .fin (if ma = 0 ∧ mb = 0 then na && nb else false) 0 e
    else .fin (s < 0) s.natAbs e

/-- The exact product. -/
def fvMul : FVal → FVal → FVal
  | .nan, _ => .nan
  | _, .nan => .nan
  | .inf a, .inf b => .inf (a != b)
  | .inf a, .fin b m _ => if m = 0 then .nan else .inf (a != b)
  | .fin a m _, .inf b => if m = 0 then .nan else .inf (a != b)
  | .fin a m e, .fin b n d => .fin (a != b) (m * n) (e + d)

def fvNeg : FVal → FVal
  | .nan => .nan
  | .inf a => .inf (!a)
  | .fin a m e => .fin (!a) m e

/-- Each FP32 operation rounds once, to nearest even (R138). -/
def fadd (a b : F32) : F32 := toF32 (fvAdd (f32 a) (f32 b))
def fsub (a b : F32) : F32 := toF32 (fvAdd (f32 a) (fvNeg (f32 b)))
def fmul (a b : F32) : F32 := toF32 (fvMul (f32 a) (f32 b))
/-- a * b + c, rounded once (R160). -/
def ffma (a b c : F32) : F32 := toF32 (fvAdd (fvMul (f32 a) (f32 b)) (f32 c))
def fneg (a : F32) : F32 := toF32 (fvNeg (f32 a))

/-- Correctly rounded division (R147). -/
def fdiv (a b : F32) : F32 :=
  match f32 a, f32 b with
  | .nan, _ => f32NaN
  | _, .nan => f32NaN
  | .inf _, .inf _ => f32NaN
  | .inf x, .fin y _ _ => toF32 (.inf (x != y))
  | .fin x _ _, .inf y => toF32 (.fin (x != y) 0 0)
  | .fin x m e, .fin y n d =>
    if n = 0 then (if m = 0 then f32NaN else toF32 (.inf (x != y)))
    else
      let k : Nat := 64
      let num := m * 2 ^ k
      toF32 (.fin (x != y) (num / n) (e - d - k)) (num % n != 0)

/-- The integer square root, by bits: `n` bits of the root from the top. -/
def isqrtAux (v : Nat) : Nat → Nat → Nat
  | 0, r => r
  | i + 1, r => let t := r + 2 ^ i; isqrtAux v i (if t * t ≤ v then t else r)

def isqrt (v : Nat) : Nat := isqrtAux v (bitLen v / 2 + 1) 0

/-- Correctly rounded square root (R171). -/
def fsqrt (a : F32) : F32 :=
  match f32 a with
  | .nan => f32NaN
  | .inf neg => if neg then f32NaN else a
  | .fin neg m e =>
    if m = 0 then a
    else if neg then f32NaN
    else
      let k : Nat := if e % 2 = 0 then 64 else 65
      let v := m * 2 ^ k
      let r := isqrt v
      toF32 (.fin false r ((e - k) / 2)) (r * r != v)

/-- 1 / sqrt(a), correctly rounded to FP32 (R147). -/
def frsqrt (a : F32) : F32 :=
  match f32 a with
  | .nan => f32NaN
  | .inf neg => if neg then f32NaN else 0
  | .fin neg m e =>
    if m = 0 then toF32 (.inf neg)
    else if neg then f32NaN
    else
      -- 1/sqrt(m 2^e) = sqrt(2^k / m) * 2^(-(e + k) / 2), with e + k even
      let k : Nat := if e % 2 = 0 then 160 else 161
      let num := 2 ^ k
      let q := num / m
      let r := isqrt q
      toF32 (.fin false r (-((e + k) / 2))) (r * r * m != num)

/-- Numeric order of two FP32 values, neither NaN; +0 and -0 are equal. -/
def fvLt : FVal → FVal → Bool
  | .nan, _ => false
  | _, .nan => false
  | .inf a, .inf b => a && !b
  | .inf a, _ => a
  | _, .inf b => !b
  | .fin na ma ea, .fin nb mb eb =>
    let e := min ea eb
    decide (smant na ma * (2 ^ (ea - e).toNat : Nat) < smant nb mb * (2 ^ (eb - e).toNat : Nat))

def flt (a b : F32) : Bool := fvLt (f32 a) (f32 b)

/-- Maximum: the canonical NaN if either is NaN, and +0 above -0 (R55). -/
def fmax (a b : F32) : F32 :=
  if f32IsNaN a || f32IsNaN b then f32NaN
  else if flt a b then b
  else if flt b a then a
  else if f32Neg a then b else a

/-- Minimum, with the same rules (R55). -/
def fmin (a b : F32) : F32 :=
  if f32IsNaN a || f32IsNaN b then f32NaN
  else if flt a b then a
  else if flt b a then b
  else if f32Neg a then a else b

/-- Widen an element of a floating format to FP32, exactly (R44). -/
def widen (f : FFmt) (w : Nat) : F32 := toF32 (fdecode f w)

/-- Round an FP32 value to a format (R51, R45): pattern and saturations. -/
def narrow (f : FFmt) (w : F32) : Nat × Nat := fencode f (f32 w)

/-- A finite value rounded to an integer at the unit 2^u, to nearest even. -/
def fvRne : FVal → Int → Int
  | .fin neg m e, u =>
    let q := if u ≤ e then m * 2 ^ (e - u).toNat else rneShift m (u - e).toNat false
    smant neg q
  | _, _ => 0

/-- Rounding to a `w`-bit integer with clamping (R139): the value and the saturations; NaN is 0 and one saturation. -/
def toIntSat (w : Nat) (x : F32) : Int × Nat :=
  let hi : Int := (2 ^ (w - 1) : Nat) - 1
  let lo : Int := -(2 ^ (w - 1) : Nat)
  match f32 x with
  | .nan => (0, 1)
  | .inf neg => (if neg then lo else hi, 1)
  | v => let q := fvRne v 0
         if q > hi then (hi, 1) else if q < lo then (lo, 1) else (q, 0)

/-- An exact integer times 2^e as FP32, rounded once (R49). -/
def intToF32 (v : Int) (e : Int) : F32 := toF32 (.fin (v < 0) v.natAbs e)

/-- floor(log2 |x|) of a nonzero finite value, exact (R46). -/
def fFloorLog2 (x : F32) : Int :=
  match f32 x with
  | .fin _ m e => e + bitLen m - 1
  | _ => 0

/-- |x|. -/
def fabs (x : F32) : F32 := x % 2 ^ 31

/-- sr_bf16 of R52: `r` is the 16-bit random value. -/
def srBf16 (x : F32) (r : Nat) : Nat :=
  if f32IsNaN x then 0x7FC0
  else if f32IsInf x then x / 65536
  else
    let mag := x % 2 ^ 31 + r % 65536
    let hi := mag / 65536
    let hi := if hi ≥ 0x7F80 then 0x7F7F else hi
    b2n (bit x 31) * 32768 + hi

/-- floor of a nonnegative finite value. -/
def fFloorNat (x : F32) : Nat :=
  match f32 x with
  | .fin false m e => if 0 ≤ e then m * 2 ^ e.toNat else m / 2 ^ (-e).toNat
  | _ => 0

/-- A natural number as FP32, rounded once. -/
def natToF32 (n : Nat) : F32 := intToF32 n 0

/-- A node of the tree of R55: a missing child passes the other one on. -/
def treeNode (op : F32 → F32 → F32) : Option F32 → Option F32 → Option F32
  | none, b => b
  | a, none => a
  | some a, some b => some (op a b)

/-- One level of the tree: positions 2i and 2i + 1 combine. -/
def treeLevel (op : F32 → F32 → F32) : List (Option F32) → List (Option F32)
  | a :: b :: l => treeNode op a b :: treeLevel op l
  | [a] => [a]
  | [] => []

/-- `n` levels. -/
def treeLevels (op : F32 → F32 → F32) : Nat → List (Option F32) → List (Option F32)
  | 0, l => l
  | n + 1, l => treeLevels op n (treeLevel op l)

/-- The balanced binary tree over the positions of one tile; absent and masked positions are `none` (R55). -/
def treeReduce (op : F32 → F32 → F32) (l : List (Option F32)) : Option F32 :=
  match treeLevels op (Nat.log2 l.length + 1) l with
  | a :: _ => a
  | [] => none

/-- The list cut into tiles of `n`. -/
def tilesOf {α : Type} (n : Nat) (l : List α) : List (List α) :=
  (List.range (ceilDiv l.length n)).map (fun t => (l.drop (t * n)).take n)

/-- Tile results combined one at a time in increasing tile index (R55). -/
def acrossTiles (op : F32 → F32 → F32) (l : List (Option F32)) : Option F32 := l.foldl (treeNode op) none

/-- A fixed-order reduction along tiles of 256 (R55). -/
def reduce256 (op : F32 → F32 → F32) (l : List (Option F32)) : Option F32 :=
  acrossTiles op ((tilesOf 256 l).map (treeReduce op))

/-- Philox-4x32 with 10 rounds (R53). -/
def philoxRound (c : Nat × Nat × Nat × Nat) (k : Nat × Nat) : Nat × Nat × Nat × Nat :=
  let p0 := 0xD2511F53 * c.1
  let p1 := 0xCD9E8D57 * c.2.2.1
  ((p1 / 2 ^ 32) ^^^ c.2.1 ^^^ k.1, p1 % 2 ^ 32, (p0 / 2 ^ 32) ^^^ c.2.2.2 ^^^ k.2, p0 % 2 ^ 32)

def philoxN : Nat → Nat × Nat × Nat × Nat → Nat × Nat → Nat × Nat × Nat × Nat
  | 0, c, _ => c
  | n + 1, c, k =>
    philoxN n (philoxRound c k) ((k.1 + 0x9E3779B9) % 2 ^ 32, (k.2 + 0xBB67AE85) % 2 ^ 32)

/-- Output word 0 of the generator under the key of R53. -/
def philoxWord (seed step layer elem tag draw : Nat) : Nat :=
  (philoxN 10
    (elem % 2 ^ 32, step % 2 ^ 32, layer % 2 ^ 16 * 2 ^ 16 + step / 2 ^ 32 % 2 ^ 16, tag * 2 ^ 24 + draw % 2 ^ 24)
    (seed % 2 ^ 32, seed / 2 ^ 32 % 2 ^ 32)).1

/-- The random value of stochastic rounding (R54). -/
def philoxR16 (seed step layer elem tag draw : Nat) : Nat := philoxWord seed step layer elem tag draw % 65536

/-- The uniform variate of R54, as FP32. -/
def philoxU (seed step layer elem tag draw : Nat) : F32 :=
  intToF32 (philoxWord seed step layer elem tag draw / 256 : Nat) (-24)

end Sys2Proof.Machine
end

