-- ==== Sys2Proof/Machine/Quant.lean ====
section
/-!
DEFINITION. Quantizing a row (R40, R46 to R48, R70, R73, R75, R128), as functions of its values; and the conversions of
a chain's values (R138, R139, R141).
-/

namespace Sys2Proof.Machine

/-! Values. -/

/-- The floating format of a FORMAT code (R93). -/
def fmtOf (f : Nat) : FFmt :=
  match f with
  | 1 => .bf16 | 2 => .fp16 | 3 => .e4m3 | 4 => .e5m2 | _ => .fp32

/-- A NaN passes on as the canonical one (R43). -/
def canon (x : F32) : F32 := if f32IsNaN x then f32NaN else x

/-- A value widened to FP32 (R43, R44, R138). -/
def Val.widen (v : Val) : F32 :=
  match v.fmt with
  | 0 => canon v.w
  | 8 => intToF32 (signed 32 v.w) 0
  | 9 => intToF32 (signed 16 v.w) 0
  | f => Sys2Proof.Machine.widen (fmtOf f) v.w

/-- An FP32 value in a format of R93, and the saturations counted (R45, R51, R139). -/
def toFmt (f : Nat) (x : F32) : Val × Nat :=
  match f with
  | 0 => ({ fmt := 0, w := canon x }, 0)
  | 8 => let z := toIntSat 32 x; ({ fmt := 8, w := unsigned 32 z.1 }, z.2)
  | 9 => let z := toIntSat 16 x; ({ fmt := 9, w := unsigned 16 z.1 }, z.2)
  | _ => let z := narrow (fmtOf f) x; ({ fmt := f, w := z.1 }, z.2)

/-- A value converted to another format: nothing changes where it is in it already (R141), but a NaN is the canonical one
of its format (R43). -/
def Val.conv (v : Val) (f : Nat) : Val × Nat :=
  if v.fmt = f then (if f32IsNaN v.widen then (toFmt f v.widen).1 else v, 0) else toFmt f v.widen

/-- The poison fill of an element format (R141). -/
def poisonFill (f : Nat) : Nat :=
  match f with
  | 0 => 0x7FC00000 | 1 => 0x7FC0 | 2 => 0x7E00 | 3 => 0x7F | 4 => 0x7E | 8 => 0x80000000 | 9 => 0x8000
  | 11 => 0xFF | 12 => 0xFFFFFFFF | _ => 0

/-- Bytes of an element of an output run: 11 an exponent plane, 12 indices. -/
def runBytes (f : Nat) : Nat := if f = 11 then 1 else if f = 12 then 4 else fmtBytes f

/-- An integer divided by 2^k, to nearest even. -/
def intRne (v : Int) (k : Nat) : Int := smant (decide (v < 0)) (rneShift v.natAbs k false)

/-- Clamp to [-n, n]: the value and whether it was clamped. -/
def clampSym (n : Nat) (v : Int) : Int × Nat := if (n : Int) < v then (n, 1) else if v < -(n : Int) then (-(n : Int), 1) else (v, 0)

/-! The quantizer. -/

/-- Settings of the quantizer (R46, R86); `three` is the three-pass form of R73. -/
structure QuantP where
  mode : Nat
  g : Nat := 0
  t : Nat := 0
  three : Bool := false
  deriving DecidableEq, Repr

/-- What sweep 1 fixes of a block. -/
inductive Blk where
  | nonfinite
  | zero
  | fin (xb : Nat) (a4 : Bool)
  deriving DecidableEq, Repr

/-- Statistics of a quantization (R47, R48, R50). -/
structure QStat where
  sat : Nat := 0
  prom : Nat := 0
  blocks : Nat := 0
  raised : Nat := 0
  deriving DecidableEq, Repr

def QStat.add (a b : QStat) : QStat :=
  { sat := a.sat + b.sat, prom := a.prom + b.prom, blocks := a.blocks + b.blocks, raised := a.raised + b.raised }

/-- x / 2^e, to nearest even. -/
def rneAt (x : F32) (e : Int) : Int := fvRne (f32 x) e

/-- Sweep 1 on a block (R46), over the elements of all its parts. -/
def sweep1 (p : QuantP) (xs : List F32) : Blk × QStat :=
  if xs.any (fun x => !f32IsFinite x) then (.nonfinite, { blocks := 1 })
  else
    let nz := xs.filter (fun x => fabs x != 0)
    match nz with
    | [] => (.zero, { blocks := 1 })
    | y :: ys =>
      let m := ys.foldl (fun a x => max a (fFloorLog2 x)) (fFloorLog2 y)
      let e8 := m - 6 + (if p.three then 1 else 0)
      let e4 := e8 + 4 - p.g
      let s := (xs.filter (fun x => decide (7 < (rneAt x e4).natAbs))).length
      let a4 := !p.three && (p.mode == 2 || (p.mode == 0 && decide (s ≤ p.t)))
      let e := if a4 then e4 else e8
      let xb := min 254 (e + 128).toNat
      (.fin xb a4, { blocks := 1, sat := if p.mode = 2 ∧ !p.three then s else 0,
                     prom := b2n (!p.three && p.mode == 0 && !a4) })

/-- The floor of a row (R46). -/
def floorOf (l : List Blk) : Nat :=
  let xs := l.filterMap (fun b => match b with
    | .fin x _ => some x
    | _ => none)
  match xs with
  | [] => 0x80
  | x :: r => r.foldl max x - 8

/-- Sweep 2 on one part of a block: elements and saturations. -/
def sweep2 (three : Bool) (fl : Nat) (b : Blk) (xs : List F32) : List Int × Nat :=
  match b with
  | .fin xb a4 =>
    let e : Int := (max xb fl : Nat) - 128
    let z := xs.map (fun x => clampSym (if three then 63 else if a4 then 7 else 127) (rneAt x e))
    (z.map (·.1), (z.map (·.2)).foldl (· + ·) 0)
  | _ => (xs.map (fun _ => 0), 0)

def Blk.exp (fl : Nat) : Blk → Nat
  | .nonfinite => 0xFF
  | .zero => fl
  | .fin x _ => max x fl

def Blk.a4 : Blk → Bool
  | .fin _ p => p
  | _ => true

/-- Blocks of 32; the tail of the last one beyond the K bound holds no element (R128). -/
def blocksOf {α : Type} (l : List α) : List (List α) := tilesOf 32 l

/-- Quantize a row given as its parts: one, or the two planes of a complex operand, which share exponents (R46, R73). -/
def quantRow (p : QuantP) (parts : List (List F32)) : List QRow × QStat :=
  let bl := parts.map blocksOf
  let n := (bl.map List.length).foldl max 0
  let s1 := (List.range n).map (fun i => sweep1 p (bl.flatMap (fun b => b.getD i [])))
  let blks := s1.map (·.1)
  let fl := floorOf blks
  let st := (s1.map (·.2)).foldl QStat.add {}
  let rows := bl.map (fun b => (b.zip blks).map (fun z => sweep2 p.three fl z.2 z.1))
  let nan := blks.any (· == .nonfinite)
  (rows.map (fun r => { x := blks.map (Blk.exp fl), a4 := blks.map Blk.a4, q := r.flatMap (·.1), fl := fl, nan := nan }),
   { st with sat := st.sat + ((rows.flatMap (fun r => r.map (·.2))).foldl (· + ·) 0) })

/-! Stored operands (R48). -/

/-- A row stored in an A-format: its blocks' exponents and modes, and its elements as read. -/
structure StoredRow where
  x : List Nat
  a4 : List Bool
  q : List Int
  deriving DecidableEq, Repr

/-- The prologue on a stored operand, over the parts of a complex one. -/
def storedRow (parts : List StoredRow) : List QRow × QStat :=
  let x := (parts.map (·.x)).headD []
  let a4 := (parts.map (·.a4)).headD []
  let bl := parts.map (fun s => blocksOf s.q)
  let live (i : Nat) : Bool := bl.any (fun b => (b.getD i []).any (· != 0))
  let kinds := (x.zip a4).zipIdx.map (fun z =>
    if z.1.1 = 0xFF then Blk.nonfinite else if live z.2 then Blk.fin z.1.1 z.1.2 else Blk.zero)
  let fl := floorOf kinds
  let raised := (kinds.filter (fun b => match b with
    | .fin xb _ => decide (xb < fl)
    | _ => false)).length
  let nan := kinds.any (· == .nonfinite)
  (bl.map (fun b => { x := kinds.map (Blk.exp fl), a4 := kinds.map Blk.a4, fl := fl, nan := nan
                      q := (b.zip kinds).flatMap (fun z => match z.2 with
                        | .fin xb _ => z.1.map (fun v => intRne v (fl - xb))
                        | _ => z.1.map (fun _ => 0)) }),
   { blocks := kinds.length, raised := raised })

/-- A stored element as the prologue reads it (R40): the value, and a saturation for the codes no quantizer makes. -/
def readA (four : Bool) (w : Nat) : Int × Nat :=
  if four then (if w % 16 = 8 then (-7, 1) else (signed 4 w, 0))
  else if w % 256 = 0x80 then (-127, 1) else (signed 8 w, 0)

/-- An element in the byte of an adaptive slot: a block marked A4 holds sign-extended nibbles, so its 0b1000 is 0xF8. A byte
of such a block that is no sign-extended nibble is taken as the signed byte it is (DESIGN CHOICE, log 91). -/
def readSlot (a4 : Bool) (w : Nat) : Int × Nat := if a4 && w % 256 == 0xF8 then (-7, 1) else readA false w

/-! Multi-word operands (R70). -/

/-- A row of 16-bit integers, or of 8-bit ones: the words as the lanes take them, every exponent 0x80. -/
def wordRows (wide : Bool) (v : List Int) : List QRow :=
  let n := ceilDiv v.length 32
  let mk (q : List Int) : QRow := { x := List.replicate n 0x80, a4 := List.replicate n false, q := q, fl := 0x80 }
  if wide then [mk (v.map (fun x => x / 256)), mk (v.map (fun x => x % 256))] else [mk v]

end Sys2Proof.Machine
end

