-- ==== Sys2Proof/Machine/Weights.lean ====
section
/-!
DEFINITION. Packed weights: the tile record (R251), the side table and the codes of a compression block (R252 to R254,
R258, R265), the column sums (R77), and what PACK builds from a source (R255 to R259).
-/

namespace Sys2Proof.Machine

/-! The packed region. -/

/-- A pack header (R250). -/
structure PackD where
  magic : Nat
  width : Nat
  planes : Nat
  tables : Nat
  kt : Nat
  nt : Nat
  k : Nat
  n : Nat
  dataOff : Nat
  deriving DecidableEq, Repr

abbrev packMagic : Nat := 0x4B434150

def parsePack (b : Bytes) : PackD :=
  { magic := field b 0 4, width := byteAt b 4, planes := byteAt b 5, tables := byteAt b 7, k := field b 8 4, n := field b 0x0C 4
    kt := field b 0x10 4, nt := field b 0x14 4, dataOff := field b 0x18 8 }

/-- Bytes of a tile record of stored width `n` (R251). -/
def tileBytes (n : Nat) : Nat := 8192 * n + 3072

/-- The offset of the data for stored width `n` and `t` tiles (R250). -/
def dataOffset (n t : Nat) : Nat := 0x900 + 64 * ceilDiv (4 * n * t) 64

/-! Tile records. -/

/-- A poisoned tile. -/
def Tile.poison (c : Nat) : Tile := { bad := some c }

/-- Element `i` of a block of width `n` (R37). -/
def blockBits (b : Bytes) (n off i : Nat) : Nat := field b (off + n * i / 8) 2 / 2 ^ (n * i % 8) % 2 ^ n

/-- A weight's value as the cell uses it (R36, R61, R70). -/
def weightValue (n : Nat) (low : Bool) (w : Nat) : Int :=
  if low then w else if n = 1 then (if w = 1 then 1 else -1) else signed n w

/-- The raw element (k, j) of a tile (R251). -/
def Tile.raw (t : Tile) (n k j : Nat) : Nat := blockBits t.elems n ((k / 32 * 256 + j) * (4 * n)) (k % 32)

/-- The weight (k, j) of a tile: padding and a poisoned tile hold zeros (R126, R266). -/
def Tile.w (t : Tile) (n : Nat) (low : Bool) (k j : Nat) : Int :=
  if t.bad.isSome ∨ t.rows ≤ k ∨ t.cols ≤ j then 0 else weightValue n low (t.raw n k j)

def Tile.exp (t : Tile) (k j : Nat) : Nat := byteAt t.exps (k / 32 * 256 + j)
def Tile.sum (t : Tile) (k : Nat) : Int := signed 32 (field t.sums (4 * k) 4)

/-! Codes. -/

/-- The 256 code lengths of a table record (R254). -/
def tableLens (b : Bytes) : List Nat :=
  (List.range 256).map (fun s => if s % 2 = 0 then byteAt b (s / 2) % 16 else byteAt b (s / 2) / 16)

/-- A valid table record (R254). -/
def tableOk (l : List Nat) : Bool :=
  l.all (· ≤ 12) && l.any (· != 0)
    && decide ((l.map (fun n => if n = 0 then 0 else 2 ^ (12 - n))).foldl (· + ·) 0 ≤ 4096)

/-- Symbols in order of (length, symbol). -/
def codeOrder (l : List Nat) : List (Nat × Nat) :=
  (List.range 13).flatMap (fun n => if n = 0 then [] else
    (l.zipIdx.filter (fun x => x.1 == n)).map (fun x => (n, x.2)))

/-- Canonical codes (R258): length, code, symbol. -/
def canonCodes (l : List Nat) : List (Nat × Nat × Nat) :=
  (((codeOrder l).foldl (fun (acc : List (Nat × Nat × Nat) × Option (Nat × Nat)) x =>
    let code := match acc.2 with
      | none => 0
      | some (n, c) => (c + 1) * 2 ^ (x.1 - n)
    (acc.1 ++ [(x.1, code, x.2)], some (x.1, code))) ([], none))).1

/-- The bits of a stream, bit 0 of a byte first (R259). -/
def streamBits (b : Bytes) : List Bool := b.flatMap (fun x => (List.range 8).map (fun i => bit x.toNat i))

/-- One symbol from a stream: the symbol and the rest (R265): 12 bits without a match are damage. -/
def takeSym (codes : List (Nat × Nat × Nat)) : Nat → Nat → Nat → List Bool → Option (Nat × List Bool)
  | 0, _, _, _ => none
  | _ + 1, _, _, [] => none
  | fuel + 1, n, c, b :: bs =>
    let n' := n + 1
    let c' := 2 * c + b2n b
    match codes.find? (fun x => x.1 == n' && x.2.1 == c') with
    | some x => some (x.2.2, bs)
    | none => takeSym codes fuel n' c' bs

/-- `n` symbols from a stream, and the rest. -/
def takeSyms (codes : List (Nat × Nat × Nat)) : Nat → List Bool → Option (Bytes × List Bool)
  | 0, bs => some ([], bs)
  | n + 1, bs =>
    match takeSym codes 12 0 0 bs with
    | none => none
    | some (s, rest) => (takeSyms codes n rest).map (fun z => (BitVec.ofNat 8 s :: z.1, z.2))

/-- A coded block from its stored sectors (R265): none where it is damaged. -/
def decodeBlock (lens : List Nat) (stored : Bytes) : Option Bytes :=
  match takeSyms (canonCodes lens) 4096 (streamBits stored) with
  | none => none
  | some (b, rest) => if rest.length < 512 ∧ rest.all (· == false) then some b else none

/-- A side-table entry (R253). -/
structure SideD where
  len : Nat
  mode : Nat
  gen : Nat
  ok : Bool
  deriving DecidableEq, Repr

def parseSide (e : Nat) : SideD :=
  let len := e % 64
  let mode := e / 64 % 4
  let gen := e / 256 % 16
  let chk := e % 16 ^^^ (e / 16 % 16) ^^^ gen
  { len := len, mode := mode, gen := gen
    ok := chk == e / 4096 % 16 && (match mode with
      | 0 => len == 63 && gen == 0
      | 1 => len != 63
      | 2 => len == 0 && gen == 0
      | _ => false) }

/-- A side-table entry's bits. -/
def sideEntry (len mode gen : Nat) : Nat :=
  let lo := len + 64 * mode + 256 * gen
  lo + 4096 * (lo % 16 ^^^ (lo / 16 % 16) ^^^ gen)

/-! Building codes (R258). -/

/-- A node of the code tree: weight, key, and its leaves with their depths. -/
structure HNode where
  weight : Nat
  key : Nat
  leaves : List (Nat × Nat)
  deriving DecidableEq, Repr

def HNode.before (a b : HNode) : Bool := decide (a.weight < b.weight) || (a.weight == b.weight && decide (a.key < b.key))

/-- Nodes in rising order of (weight, key). -/
def insertNode (x : HNode) : List HNode → List HNode
  | [] => [x]
  | y :: ys => if x.before y then x :: y :: ys else y :: insertNode x ys

/-- Merge until one node remains; `n` merges have been made. -/
def mergeNodes : Nat → Nat → List HNode → List HNode
  | 0, _, l => l
  | fuel + 1, n, a :: b :: l =>
    let up (x : HNode) : List (Nat × Nat) := x.leaves.map (fun z => (z.1, z.2 + 1))
    mergeNodes fuel (n + 1) (insertNode { weight := a.weight + b.weight, key := 256 + n, leaves := up a ++ up b } l)
  | _ + 1, _, l => l

/-- The symbol whose length grows next (R258). -/
def growNext (hist lens : List Nat) : Option Nat :=
  ((List.range 256).filter (fun s => lens.getD s 0 != 0 && decide (lens.getD s 0 < 12))).foldl (fun (best : Option Nat) s =>
    match best with
    | none => some s
    | some t =>
      let ls := lens.getD s 0
      let lt := lens.getD t 0
      if lt < ls ∨ (ls = lt ∧ (hist.getD s 0 < hist.getD t 0 ∨ (hist.getD s 0 = hist.getD t 0 ∧ t < s))) then some s
      else some t) none

/-- Lengthen codes until the lengths fit (R258). -/
def fitLens (hist : List Nat) : Nat → Nat → List Nat → List Nat
  | 0, _, l => l
  | fuel + 1, kr, l =>
    if kr ≤ 4096 then l
    else match growNext hist l with
      | none => l
      | some s => fitLens hist fuel (kr - 2 ^ (11 - l.getD s 0)) (l.set s (l.getD s 0 + 1))

/-- Code lengths of a histogram (R258). -/
def codeLens (hist : List Nat) : List Nat :=
  let live := (List.range 256).filter (fun s => hist.getD s 0 != 0)
  match live with
  | [] => List.replicate 256 0
  | [s] => (List.range 256).map (fun i => if i = s then 1 else 0)
  | _ =>
    let nodes := live.foldl (fun l s => insertNode { weight := hist.getD s 0, key := s, leaves := [(s, 0)] } l) []
    let depth := ((mergeNodes live.length 0 nodes).map (·.leaves)).headD []
    let lens := (List.range 256).map (fun s => min 12 (((depth.find? (fun z => z.1 == s)).map (·.2)).getD 0))
    let kr := (lens.map (fun n => if n = 0 then 0 else 2 ^ (12 - n))).foldl (· + ·) 0
    fitLens hist 3072 kr lens

/-- A table record (R254). -/
def tableRecord (lens : List Nat) : Bytes :=
  (List.range 128).map (fun i => BitVec.ofNat 8 (lens.getD (2 * i) 0 + 16 * lens.getD (2 * i + 1) 0))

/-- The bits of a code, most significant first. -/
def codeBits (n c : Nat) : List Bool := (List.range n).map (fun i => bit c (n - 1 - i))

/-- Bytes of a bit stream, padded with zero bits to whole sectors (R259). -/
def packBits (l : List Bool) : Bytes :=
  (List.range (64 * ceilDiv l.length 512)).map (fun i =>
    BitVec.ofNat 8 (((List.range 8).map (fun k => b2n (l.getD (8 * i + k) false) * 2 ^ k)).foldl (· + ·) 0))

/-- A compression block encoded with a table. -/
def encodeBlock (lens : List Nat) (b : Bytes) : Bytes :=
  let codes := canonCodes lens
  packBits (b.flatMap (fun x => match codes.find? (fun z => z.2.2 == x.toNat) with
    | some z => codeBits z.1 z.2.1
    | none => []))

/-! Sources (R255, R256). -/

/-- A pack record. -/
structure PackRec where
  src : Nat
  srcExp : Nat
  srcIm : Nat
  dst : Nat
  k : Nat
  n : Nat
  sfmt : Nat
  width : Nat
  shared : Bool
  raw : Bool
  rawT : Nat
  spans : Nat
  dstBytes : Nat
  deriving DecidableEq, Repr

def parsePackRec (b : Bytes) : PackRec :=
  let sf := byteAt b 0x28
  { src := field b 0 8, srcExp := field b 8 8, srcIm := field b 16 8, dst := field b 24 8, k := field b 0x20 4
    n := field b 0x24 4, sfmt := sf, width := if sf = 1 then 4 else if sf = 2 then 16 else byteAt b 0x29
    shared := bit (byteAt b 0x2A) 0, raw := bit (byteAt b 0x2A) 1
    rawT := if byteAt b 0x2B = 0 then 8 else byteAt b 0x2B, spans := byteAt b 0x2C, dstBytes := field b 0x30 8 }

/-- Fields in range (R255, R571). -/
def packRecOk (b : Bytes) : Bool :=
  let x := parsePackRec b
  decide (1 ≤ x.k) && decide (x.k ≤ 16777216) && decide (1 ≤ x.n)
    && (x.sfmt == 1 || x.sfmt == 2 || (decide (1 ≤ byteAt b 0x29) && decide (byteAt b 0x29 ≤ 8)))
    && decide (byteAt b 0x2A < 4) && decide (byteAt b 0x2B ≤ 32) && decide (1 ≤ x.spans) && decide (x.spans ≤ 16)
    && zeroAt b 0x2D 3 && zeroAt b 0x38 8 && x.dst % 64 == 0
    && (x.sfmt != 2 || x.srcExp == 0) && (x.sfmt == 3 || x.sfmt == 4 || decide (5 ≤ x.sfmt) || x.srcIm == 0)

def PackRec.kb (x : PackRec) : Nat := ceilDiv x.k 32
def PackRec.kt (x : PackRec) : Nat := ceilDiv x.k 256
def PackRec.nt (x : PackRec) : Nat := ceilDiv x.n 256
def PackRec.planes (x : PackRec) : Nat := if x.sfmt ≤ 1 then 1 else if x.sfmt = 4 then 3 else 2

/-- Stored width (R256). -/
def PackRec.stored (x : PackRec) : Nat :=
  match x.sfmt with
  | 1 => 5 | 2 => 8 | 4 => x.width + 1 | _ => x.width

def PackRec.tiles (x : PackRec) : Nat := x.kt * x.nt * x.planes

/-- Bytes of an element plane of the source, and of its exponent plane. -/
def PackRec.srcBytes (x : PackRec) : Nat := if x.sfmt = 2 then x.n * x.k * 2 else x.n * x.kb * 4 * x.width
def PackRec.expBytes (x : PackRec) : Nat := if x.sfmt = 2 then 0 else x.n * x.kb

/-- A source as read: element plane, imaginary plane, exponents. -/
structure PackSrc where
  re : Bytes
  im : Bytes
  exp : Bytes
  deriving DecidableEq, Repr

/-- The exponent of block (kb, j) in the source. -/
def PackSrc.x (s : PackSrc) (r : PackRec) (kb j : Nat) : Nat := if r.sfmt = 2 then 0x80 else byteAt s.exp (j * r.kb + kb)

/-- The W5 value of an E2M1 code (R39). -/
def mxValue (c : Nat) : Int :=
  let m : Int := [0, 1, 2, 3, 4, 6, 8, 12].getD (c % 8) 0
  if 8 ≤ c then -m else m

/-- Element (k, j) of a source plane, as a value. -/
def PackSrc.elem (s : PackSrc) (r : PackRec) (im : Bool) (k j : Nat) : Int :=
  let b := if im then s.im else s.re
  match r.sfmt with
  | 2 => signed 16 (field b ((j * r.k + k) * 2) 2)
  | 1 => mxValue (blockBits b 4 ((j * r.kb + k / 32) * 16) (k % 32))
  | _ => weightValue r.width false (blockBits b r.width ((j * r.kb + k / 32) * 4 * r.width) (k % 32))

/-- The largest exponent of a column group (R38), and of a block position (R259). -/
def PackSrc.colMax (s : PackSrc) (r : PackRec) (j : Nat) : Nat := ((List.range r.kb).map (fun kb => s.x r kb j)).foldl max 0
def PackSrc.posMax (s : PackSrc) (r : PackRec) (kb : Nat) : Nat := ((List.range r.n).map (fun j => s.x r kb j)).foldl max 0

/-- R38: every exponent within 8 of its group's largest, none 0xFF. -/
def PackSrc.spanOk (s : PackSrc) (r : PackRec) : Bool :=
  (List.range r.n).all (fun j =>
    let m := s.colMax r j
    (List.range r.kb).all (fun kb => s.x r kb j != 0xFF && decide (m ≤ s.x r kb j + 8)))

/-- Blocks that the shared-exponent form raises (R259). -/
def PackSrc.raised (s : PackSrc) (r : PackRec) : Nat :=
  if !r.shared then 0
  else ((List.range r.kb).map (fun kb =>
    ((List.range r.n).filter (fun j => decide (s.x r kb j < s.posMax r kb))).length)).foldl (· + ·) 0

/-- The stored exponent of block (kb, j) of the padded tensor (R251, R259). -/
def PackSrc.stX (s : PackSrc) (r : PackRec) (kb j : Nat) : Nat :=
  if r.n ≤ j then 0x80
  else if r.kb ≤ kb then
    (if r.shared then ((List.range r.kb).map (s.posMax r)).foldl max 0 else s.colMax r j)
  else if r.shared then s.posMax r kb
  else s.x r kb j

/-- A source element raised to its stored exponent (R259). -/
def PackSrc.up (s : PackSrc) (r : PackRec) (im : Bool) (k j : Nat) : Int :=
  intRne (s.elem r im k j) (s.stX r (k / 32) j - s.x r (k / 32) j)

/-- The value of plane `p` at (k, j) (R256): the low word of an INT16 is unsigned. -/
def PackSrc.val (s : PackSrc) (r : PackRec) (p k j : Nat) : Int :=
  if r.k ≤ k ∨ r.n ≤ j then 0
  else
    match r.sfmt, p with
    | 2, 0 => s.elem r false k j / 256
    | 2, _ => s.elem r false k j % 256
    | 3, 0 => s.up r false k j
    | 3, _ => s.up r true k j
    | 4, 0 => s.up r false k j
    | 4, 1 => s.up r true k j - s.up r false k j
    | 4, _ => s.up r false k j + s.up r true k j
    | _, _ => s.up r false k j

/-- The element pattern of a value: W1 writes +1 as 1, and padding as 0 (R36, R251). -/
def weightBits (n : Nat) (v : Int) : Nat := if n = 1 then (if v = 1 then 1 else 0) else unsigned n v

/-- The element data of a tile (R37, R251). -/
def PackSrc.tileElems (s : PackSrc) (r : PackRec) (jt kt p : Nat) : Bytes :=
  let n := r.stored
  (List.range 8).flatMap (fun b => (List.range 256).flatMap (fun j =>
    leBytes (4 * n) (((List.range 32).map (fun i =>
      weightBits n (s.val r p (256 * kt + 32 * b + i) (256 * jt + j)) * 2 ^ (n * i))).foldl (· + ·) 0)))

def PackSrc.tileExps (s : PackSrc) (r : PackRec) (jt kt : Nat) : Bytes :=
  (List.range 8).flatMap (fun b => (List.range 256).map (fun j =>
    BitVec.ofNat 8 (s.stX r (8 * kt + b) (256 * jt + j))))

/-- Fw of a column of the padded tensor as the column sums take it (R49, R70, R75, R77). -/
def PackSrc.fw (s : PackSrc) (r : PackRec) (j : Nat) : Nat :=
  if r.n ≤ j then 0x78
  else if r.sfmt = 2 then 0x80
  else (if r.shared then ((List.range r.kb).map (s.posMax r)).foldl max 0 else s.colMax r j) - 8

/-- The column-sum vector of a tile (R77); padding holds 0. -/
def PackSrc.tileSums (s : PackSrc) (r : PackRec) (jt kt p : Nat) : Bytes :=
  (List.range 256).flatMap (fun k =>
    let c : Int := ((List.range 256).map (fun j =>
      s.val r p (256 * kt + k) (256 * jt + j)
        * (2 ^ (s.stX r (8 * kt + k / 32) (256 * jt + j) - s.fw r (256 * jt + j)) : Nat))).foldl (· + ·) 0
    leBytes 4 (unsigned 32 c))

/-- The compression blocks of a tile's element data (R252). -/
def comprBlocks (b : Bytes) : List Bytes := tilesOf 4096 b

/-- The table generation of a tile (R257). -/
def PackRec.gen (r : PackRec) (p u : Nat) : Nat := p * r.spans + u * r.spans / (r.kt * r.nt)

/-- Tiles in order: (N tile, K tile, plane). -/
def PackRec.order (r : PackRec) : List (Nat × Nat × Nat) :=
  (List.range r.nt).flatMap (fun jt => (List.range r.kt).flatMap (fun kt => (List.range r.planes).map (fun p => (jt, kt, p))))

def PackRec.genOf (r : PackRec) (t : Nat × Nat × Nat) : Nat := r.gen t.2.2 (t.1 * r.kt + t.2.1)

/-- Add the bytes of a block to a histogram. -/
def histAdd (h : List Nat) (b : Bytes) : List Nat := b.foldl (fun h x => h.set x.toNat (h.getD x.toNat 0 + 1)) h

/-- The code lengths of every generation (R257, R258). -/
def packTables (r : PackRec) (tiles : List ((Nat × Nat × Nat) × Bytes)) : List (List Nat) :=
  (List.range (r.planes * r.spans)).map (fun g =>
    codeLens ((tiles.filter (fun t => r.genOf t.1 == g)).foldl (fun h t =>
      (comprBlocks t.2).foldl (fun h b => if b.all (· == 0) then h else histAdd h b) h) (List.replicate 256 0)))

/-- A compression block as stored (R259): what is written to its slot, and its side-table entry. -/
def packBlock (r : PackRec) (g : Nat) (lens : List Nat) (b : Bytes) : Bytes × Nat :=
  if b.all (· == 0) then ([], sideEntry 0 2 0)
  else
    let c := encodeBlock lens b
    let sec := c.length / 64
    if sec ≤ 64 - r.rawT ∧ !r.raw then (c, sideEntry (sec - 1) 1 g) else (b, sideEntry 63 0 0)

/-- What PACK refuses with WEIGHT_FORMAT before it looks at exponents (R257). -/
def PackRec.formatOk (r : PackRec) : Bool :=
  decide (r.sfmt < 5) && !(r.sfmt == 4 && r.width == 8) && decide (r.planes * r.spans ≤ 16)

/-- The source's own checks (R38, R257). -/
def PackSrc.ok (s : PackSrc) (r : PackRec) : Bool :=
  s.spanOk r && !(r.shared && r.sfmt == 0 && r.width == 1 && s.raised r != 0)

/-- The header of a finished region (R250). -/
def packHeader (r : PackRec) (magic tables raised stored : Nat) : Bytes :=
  let n := r.stored
  leBytes 4 magic ++ leBytes 1 n ++ leBytes 1 r.planes ++ leBytes 1 (b2n r.shared) ++ leBytes 1 tables ++ leBytes 4 r.k
    ++ leBytes 4 r.n ++ leBytes 4 r.kt ++ leBytes 4 r.nt ++ leBytes 8 (dataOffset n r.tiles) ++ leBytes 4 raised
    ++ leBytes 4 0 ++ leBytes 8 stored ++ repByte 208 0

end Sys2Proof.Machine
end

