-- ==== Sys2Proof/Machine/CoreMem.lean ====
section
/-!
DEFINITION. What a core reaches while it works (R84, R88, R93 to R101, R122, R126 to R129, R142, R167, R183, R204, R363):
the bounds that govern a tile program, the address of an element, loads and stores of elements, masks, and the fault
reports of a core.
-/

namespace Sys2Proof.Machine

/-- One core at work: the device, the run and the core's share of it. -/
structure Ex where
  d : Dev
  x : Run
  c : CoreRun
  rid : Nat := 0                   -- the run's number
  deriving DecidableEq, Repr

abbrev CoreAct := StateM Ex

/-- What stays fixed during one piece of work. `rows` is ROWS of the rollout table in a pass, 0 in a GRAPH_RUN. -/
structure Job where
  g : Nat
  env : Env
  part : Nat
  prog : Nat
  img : Bytes
  w : Work
  lay : LayerD
  t : TileProg
  rows : Nat
  inst : Bytes
  entry : Option EntryD
  len : Nat
  total : Nat                      -- rows of the batch in a pass
  step : Nat := 0                  -- step within the time tile of a scan (R158)
  head : Nat := 0                  -- columns before the head of an attention unit (R192)
  shadow : Bool := false           -- the second core of a distance-duplicate pair, which stores nothing (R82)
  deriving DecidableEq, Repr

/-- A pass of a ROLLOUT_STEP. -/
def Job.roll (j : Job) : Bool := j.rows != 0

/-- Layer and tile program as one key. -/
def lpKey (layer prog : Nat) : Nat := layer * 2 ^ 16 + prog
def Job.key (j : Job) : Nat := lpKey j.w.layer j.w.prog

/-! Bounds (R90, R100, R122, R206, R363). -/

/-- The output of a window program is empty (R208). -/
def emptyWindow (t : TileProg) (img : Bytes) : Bool :=
  match t.window img with
  | some x => x.oh == 0 || x.ow == 0
  | none => false

/-- What limits a loop: the entry's shape, an attention unit's own (R178, R192), the batch's rows, a window's derived
bound, the actual length, or BOUND. -/
def boundOf (t : TileProg) (img : Bytes) (entry : Option EntryD) (roll : Bool) (total len it : Nat) (l : LoopD) : Nat :=
  match entry, l.role with
  | some e, 1 => e.m
  | some e, 2 => e.n
  | some e, 3 => e.k
  | _, r =>
    if t.kind = .attention ∧ 2 ≤ r ∧ r ≤ 3 then t.d16 8
    else if t.kind = .attention ∧ r = 1 then 2 ^ 32
    else if roll ∧ r = 1 then total
    else
      match t.window img, r with
      | some x, 1 => (if l.len then len else x.nimg) * (x.oh * x.ow)
      | some x, 2 => x.gpv it * x.ng
      | some x, 3 => x.kBound it
      | _, _ => if l.len then len else l.bound

def Job.loopBound (j : Job) (l : LoopD) : Nat :=
  boundOf j.t j.img j.entry j.roll j.total j.len (j.t.groupIdx j.w.idx) l

/-- The governing bound of a role. -/
def Job.bound (j : Job) (role : Nat) : Nat := j.loopBound (j.t.loop role)

def Job.mB (j : Job) : Nat := j.bound 1
def Job.nB (j : Job) : Nat := j.bound 2
def Job.kB (j : Job) : Nat := j.bound 3

/-- The loop indices of the work, by role. -/
def Job.at (j : Job) (role : Nat) : Nat := j.w.idx.getD (j.t.loopIdx role) 0
def Job.band (j : Job) : Nat := j.at 1
def Job.nt (j : Job) : Nat := j.at 2
def Job.kt (j : Job) : Nat := j.at 3

/-- The context, by its place in the batch, that owns a band row, and the row within it. -/
def Job.ctxOf (j : Job) (pos : Nat) : Nat := if j.rows = 0 then 0 else pos / j.rows
def Job.rowIn (j : Job) (pos : Nat) : Nat := if j.rows = 0 then pos else pos % j.rows

/-! Noting what went wrong. -/

/-- The counters and counts that a cause of the core's own touches (R409, R475). -/
def causeCounts (ca : Nat) : Bool :=
  ca == caResidue || ca == caSramEcc || ca == caDup || ca == caAddrSig || ca == caRange || ca == caDistance

/-- The tag of the run's command. -/
def Dev.runTag (d : Dev) (x : Run) : Nat :=
  match x.cmd with
  | some r => match d.cmd r with
              | some c => c.tag
              | none => 0
  | none => 0

/-- The run collects marks. -/
def noteMarks (m : Marks) : CoreAct Unit :=
  modify (fun e => if m.clear then e else { e with x := { e.x with marks := e.x.marks.join m } })

/-- A fault that a checker of core `g` reports: one event per command and cause, and one count per command and core. The work
of an engine (R220) reports to firmware alone. -/
def coreFault (j : Job) (ca : Nat) : CoreAct Unit := do
  noteMarks (.cause ca)
  modify (fun e =>
    if !coreOk j.g || e.x.reported.contains ca then e
    else
      { e with
        x := { e.x with reported := e.x.reported ++ [ca] }
        d := e.d.raise { code := evFault, part := j.part, unit := unitCore j.g, tag := e.d.runTag e.x, cause := ca,
                         payload := leBytes 2 ca } })
  modify (fun e =>
    if !coreOk j.g || !causeCounts ca || e.x.counted.any (fun z => z.1 == j.g) then e
    else { e with x := { e.x with counted := e.x.counted ++ [(j.g, ca)] } })

/-- A counter of the core (R409). -/
def countCore (j : Job) (i n : Nat) : CoreAct Unit :=
  modify (fun e => if coreOk j.g then { e with d := e.d.count (unitCore j.g) i n } else e)

/-- Marks of a memory access: a refused address is a fault of the core's range check (R95). -/
def memMarks (j : Job) (m : Marks) : CoreAct Unit := do
  noteMarks m
  if m.causes.contains caRange then
    coreFault j caRange
    modify (fun e => { e with x := { e.x with allBad := true } })

/-! Device memory from a core (R329, R442). -/

/-- The cross-package charge of a sector that does not lie on the core's own stack; whether its cup is never served. -/
def Dev.crossCharge (d : Dev) (p k a : Nat) : Bool × Dev :=
  match d.locate p a with
  | .stack t _ _ =>
    if t = k then (d.cupShut p t, d)
    else (d.cupShut p t || d.cupShut p (16 + k) || d.cupShut p (16 + t), (d.charge p k (16 + k) 1).charge p t (16 + t) 1)
  | .crock c =>
    let i := crockPort c
    (d.cupShut p (16 + k) || d.cupShut p (32 + i), (d.charge p k (16 + k) 1).charge p (dieIod i) (32 + i) 1)
  | _ => (false, d)

/-- The charges of a run: an access whose cup is never served lasts to the time limit (R449). -/
def coreCharge (j : Job) (a n : Nat) : CoreAct Unit :=
  modify (fun e =>
    let r := (sectorsOf a n).foldl (fun (acc : Bool × Dev) s =>
      let z := acc.2.crossCharge j.part (j.g / 8) s.1
      (acc.1 || z.1, z.2)) (false, e.d)
    { e with d := r.2, x := if r.1 then { e.x with marks := e.x.marks.join (.fail stTimeLimit) } else e.x })

/-- Read a run of device memory. -/
def devRead (j : Job) (a n : Nat) (charged : Bool := true) : CoreAct Rd := do
  if charged then coreCharge j a n
  let e ← get
  let d := if charged then (e.d.touch j.part a n).chargeRun j.part a n else e.d
  let r := (sectorsOf a n).foldl (fun (acc : Rd × Dev) s =>
    let r := acc.2.readPiece j.part j.env s.1 s.2
    (acc.1.append r.1, r.2)) ({ bytes := [] }, d)
  set { e with d := r.2 }
  memMarks j r.1.marks
  pure r.1

/-- Write a run of device memory. -/
def devWrite (j : Job) (a : Nat) (b : Bytes) : CoreAct Unit := do
  coreCharge j a b.length
  let e ← get
  let r := e.d.write j.part j.env a b
  set { e with d := r.2.raced j.part (some e.rid) a b.length }
  memMarks j r.1

/-! Addresses. -/

/-- What the generator's context pointer adds (R88, R167, R183, R363); the second address is the anchor slot of R183. -/
def Job.ctxBase (j : Job) (e : Ex) (g : GenD) (q : Nat) : Nat × Option Nat :=
  let i := e.x.ctxs.getD q 0
  let x := e.d.ctx i
  let s := e.x.steps.getD q 0
  match g.sel with
  | 5 =>
    let before := ((List.range j.w.layer).map (fun m => (parseLayer j.img m).slot)).foldl (· + ·) 0
    (x.statePtr + 2 * before + (s + b2n g.wr) % 2 * j.lay.slot, none)
  | 6 =>
    if g.wr then
      let r := parseRing (kget e.c.hdrs (2 ^ 64 + q) [])
      (x.ringPtr + r.recentAt s, if r.isAnchor s then some (x.ringPtr + r.anchorAt s) else none)
    else (x.ringPtr, none)
  | _ =>
    let o := parseRollout j.img
    (x.ioPtr + s % max 1 o.ioSlots * o.ioStep, none)

/-- A generator whose base follows the context of the row. -/
def Job.byCtx (j : Job) (g : GenD) : Bool := j.roll && decide (5 ≤ g.sel)

/-- The base that a row of the band sees: the entry's address, the context's pointer, or the instance base. -/
def Job.base (j : Job) (e : Ex) (g : GenD) (pos : Nat) : Nat × Option Nat :=
  match j.entry, g.grole with
  | some n, 0 => (n.a + g.base, none)
  | some n, 1 => (n.b + g.base, none)
  | some n, 2 => (n.c + g.base, none)
  | _, _ =>
    if j.byCtx g then
      let z := j.ctxBase e g (j.ctxOf pos)
      (z.1 + g.base, z.2.map (· + g.base))
    else (instBase j.inst g.sel + g.base, none)

/-- What the loops outside the band loop add. -/
def Job.outerOff (j : Job) (g : GenD) : Int :=
  (j.t.outer.map (fun l => (j.w.idx.getD l 0 : Int) * g.strides.getD l 0)).foldl (· + ·) 0

/-- What a band row adds. -/
def Job.rowOff (j : Job) (g : GenD) (row : Nat) : Int := j.t.rowOff g row

/-- What a column adds; the columns before a head of an attention unit count (R192; DEDUCED, log 67). -/
def Job.colOff (j : Job) (g : GenD) (axis tile col : Nat) : Int := j.t.colOff g axis tile (j.head + col)

/-- The other tile loop's contribution; the steps of a scan's time tile lie 1/256 of its stride apart (DESIGN CHOICE, log 66). -/
def Job.otherOff (j : Job) (g : GenD) (axis : Nat) : Int :=
  if axis = 3 then (j.nt : Int) * j.t.strideOn g 2
  else (j.kt : Int) * j.t.strideOn g 3 + (j.step : Int) * (j.t.strideOn g 3 / 256)

/-- A linear offset through the layout of a generator whose layout keeps linear offsets (R94, R232). -/
def Job.through (j : Job) (g : GenD) (base : Nat) (o : Int) : Nat :=
  match layoutAt j.img g.layout with
  | .strided x => addrAdd base (x.map (fmtBytes g.fmt) (unsigned 64 o) : Int)
  | _ => addrAdd base o

/-- The address of element (row, 256 tile + col) of a generator, `axis` the role of the loop along its columns: from a
base, through the layout; none for a constant padding tap (R94, R122, R204, R207, R215, R232). -/
def Job.addr (j : Job) (g : GenD) (base row axis tile col : Nat) : Option Nat :=
  let es := fmtBytes g.fmt
  let k := 256 * tile + col
  match layoutAt j.img g.layout with
  | .window x => (x.elem es row k).map (fun o => addrAdd base (j.outerOff g + (o : Int)))
  | .regroup x => some (addrAdd base (j.outerOff g + (x.elem es row k : Int)))
  | _ => some (j.through g base (j.outerOff g + j.rowOff g row + j.colOff g axis tile col + j.otherOff g axis))

/-! Elements. -/

/-- Element addresses as runs: (address, elements), neighbours joined. -/
def elemRuns (es : Nat) (l : List Nat) : List (Nat × Nat) :=
  (l.foldl (fun (acc : List (Nat × Nat)) a =>
    match acc with
    | (b, n) :: r => if a = b + n * es then (b, n + 1) :: r else (a, 1) :: (b, n) :: r
    | [] => [(a, 1)]) []).reverse

/-- Elements of a read; none where a byte of it is poison. -/
def Rd.elems (r : Rd) (es : Nat) : List (Option Nat) :=
  (List.range (r.bytes.length / es)).map (fun i =>
    if r.bad.any (fun b => decide (b.1 < es * (i + 1)) && decide (es * i < b.1 + b.2)) then none
    else some (field r.bytes (es * i) es))

/-- A byte of a core buffer; one that the command has not written holds a free value (R84). -/
def bufByte (sp a : Nat) : CoreAct Byte := do
  let e ← get
  match kfind e.c.buf (sp * 2 ^ 32 + a) with
  | some b => pure b
  | none =>
    let f := e.d.freeBytes 1
    set { e with d := f.2 }
    pure (f.1.getD 0 0)

/-- Read a run of a space. -/
def spaceRead (j : Job) (sp a n : Nat) (charged : Bool := true) : CoreAct Rd := do
  match sp with
  | 0 => devRead j a n charged
  | 1 =>
    let e ← get
    match e.d.part j.part with
    | some x =>
      let r := if a + n ≤ e.c.potBytes then e.d.potGet x (j.g / 8) (e.c.pot + a) n
               else { bytes := repByte n 0, bad := [(0, n)], marks := .cause caRange }
      memMarks j r.marks
      pure r
    | none => pure { bytes := repByte n 0 }
  | _ =>
    let l ← (List.range n).mapM (fun i => bufByte sp (a + i))
    pure { bytes := l }

/-- Write a run of a space. -/
def spaceWrite (j : Job) (sp a : Nat) (b : Bytes) : CoreAct Unit := do
  match sp with
  | 0 => devWrite j a b
  | 1 =>
    let e ← get
    match e.d.part j.part with
    | some x =>
      if a + b.length ≤ e.c.potBytes then
        let r := e.d.potPut x (j.g / 8) (e.c.pot + a) b
        set { e with d := r.2 }
        memMarks j r.1
      else memMarks j (.cause caRange)
    | none => pure ()
  | _ =>
    modify (fun e => { e with c := { e.c with
      buf := (b.zipIdx.foldl (fun m z => kset m (sp * 2 ^ 32 + a + z.2) z.1) e.c.buf) } })

/-! Operands and outputs (R125, R142, R168, R214, R226, R235): an operand is what the place held before the tile program
wrote it, an output that an operand overlaps ends undefined, and so does an element that another command writes while it is
read. -/

/-- Where a byte of a space lies among all spaces of the package. -/
def Job.place (j : Job) (sp a : Nat) : Nat := if sp = 0 then a else (sp * 256 + j.g) * 2 ^ 72 + a

/-- Two runs of bytes meet. -/
def meets (a n b m : Nat) : Bool := decide (a < b + m) && decide (b < a + n)

/-- The bytes of a read with its poison marked. -/
def Rd.options (r : Rd) : List (Option Byte) :=
  r.bytes.zipIdx.map (fun z => if r.bad.any (fun b => decide (b.1 ≤ z.2) && decide (z.2 < b.1 + b.2)) then none else some z.1)

/-- A read of given bytes. -/
def Rd.ofOptions (l : List (Option Byte)) (m : Marks) : Rd :=
  { bytes := l.map (·.getD 0), bad := (l.zipIdx.filter (fun z => z.1.isNone)).map (fun z => (z.2, 1)), marks := m }

/-- A read as the program `key` saw the place before it wrote there. -/
def Run.before (x : Run) (key place : Nat) (r : Rd) : Rd :=
  let ws := x.was.filter (fun w => w.1 == key && meets place r.bytes.length w.2.1 w.2.2.length)
  if ws.isEmpty then r
  else
    Rd.ofOptions (r.options.zipIdx.map (fun z => ws.foldl (fun v w =>
      let a := place + z.2
      if decide (w.2.1 ≤ a) && decide (a < w.2.1 + w.2.2.length) then (w.2.2[a - w.2.1]?).getD v else v) z.1)) r.marks

/-- What a run of a space holds, without an access: what an output run held before it was written. -/
def quietRead (j : Job) (sp a n : Nat) : CoreAct (List (Option Byte)) := do
  let e ← get
  match sp with
  | 0 => pure (((sectorsOf a n).foldl (fun (acc : Rd × Dev) s =>
      let r := acc.2.readPiece j.part Env.clean s.1 s.2
      (acc.1.append r.1, r.2)) ({ bytes := [] }, e.d)).1.options)
  | 1 =>
    match e.d.part j.part with
    | some x => pure (e.d.potGet x (j.g / 8) (e.c.pot + a) n).options
    | none => pure (List.replicate n none)
  | _ =>
    let l ← (List.range n).mapM (fun i => bufByte sp (a + i))
    pure (l.map some)

/-- A place of a run's outputs holds given bytes, without an access: device memory, or a core's stockpot space while it has it. -/
def Dev.putPlace (d : Dev) (x : Run) (place : Nat) (b : Bytes) : Dev :=
  let sp := place / 2 ^ 72 / 256
  let g := place / 2 ^ 72 % 256
  let a := place % 2 ^ 72
  if sp = 0 then (d.store x.part Env.clean a b).2
  else
    match d.part x.part, x.cores.find? (fun c => c.core == g) with
    | some p, some c => if sp = 1 ∧ a + b.length ≤ c.potBytes then (d.potPut p (g / 8) (c.pot + a) b).2 else d
    | _, _ => d

/-- The same from the core at work, whose own buffers are places too. -/
def Ex.put (e : Ex) (place : Nat) (b : Bytes) : Ex :=
  let sp := place / 2 ^ 72 / 256
  if 2 ≤ sp ∧ place / 2 ^ 72 % 256 = e.c.core then
    { e with c := { e.c with
      buf := b.zipIdx.foldl (fun m z => kset m (sp * 2 ^ 32 + place % 2 ^ 72 + z.2) z.1) e.c.buf } }
  else { e with d := e.d.putPlace e.x place b }

/-- Free values over a run of a place. -/
def Ex.blur (e : Ex) (place n : Nat) : Ex :=
  let f := e.d.freeBytes n
  { e with d := f.2 }.put place f.1

/-- The elements of an output run: place and bytes. -/
def outElems (w : Nat × Nat × Nat × Nat) : List (Nat × Nat) :=
  (List.range w.2.1).map (fun i => (w.1 + i * runBytes w.2.2.1, runBytes w.2.2.1))

/-- Elements that the run has written, of those runs that `sel` takes, which meet a run of a place. -/
def Run.wrote (x : Run) (sel : Nat → Bool) (place n : Nat) : List (Nat × Nat) :=
  (x.written.filter (fun w => sel w.2.2.2 && meets place n w.1 (w.2.1 * runBytes w.2.2.1))).flatMap (fun w =>
    (outElems w).filter (fun z => meets place n z.1 z.2))

/-- The program of an output run's key, the list entry of its run (0 for none), and its generator. -/
def outProg (k : Nat) : Nat := k % 2 ^ 32
def outEntry (k : Nat) : Nat := k / 2 ^ 32 % 2 ^ 32
def outGen (k : Nat) : Nat := k / 2 ^ 64

/-- The runs are operands: noted, and outputs of the same tile program that they overlap end undefined. -/
def noteOperands (j : Job) (sp : Nat) (runs : List (Nat × Nat)) : CoreAct Unit :=
  modify (fun e =>
    let ps := runs.map (fun r => (j.place sp r.1, r.2))
    let hit := ps.flatMap (fun r => e.x.wrote (fun k => outProg k == j.key) r.1 r.2)
    let e1 := hit.foldl (fun e z => e.blur z.1 z.2) e
    { e1 with x := { e1.x with reads := e1.x.reads ++ ps.map (fun r => (r.1, r.2, j.key)) } })

/-- A run of a space as an operand: what it held before the tile program wrote it; elements of `es` bytes that another
command has written since the core's last WAIT hold free values. -/
def operandRead (j : Job) (sp a n es : Nat) (charged : Bool := true) : CoreAct Rd := do
  let r0 ← spaceRead j sp a n charged
  let e ← get
  let r := e.x.before j.key (j.place sp a) r0
  let hit (a n : Nat) : Bool := e.x.late.any (fun z => z.1 == j.g && meets z.2.1 z.2.2 a n)
  let raced (i : Nat) : Bool := hit (a + i / es * es) es
  if sp == 0 && hit a n then
    let f := e.d.freeBytes n
    set { e with d := f.2 }
    pure (Rd.ofOptions (r.options.zipIdx.map (fun z => if raced z.2 then f.1[z.2]? else z.1)) r.marks)
  else pure r

/-- Load elements by address, in order; none where one is poison. `seen` says that they are operands: those of a second
tensor or a state that stand in the place of the output itself are not (R142, R168). -/
def loadElems (j : Job) (g : GenD) (l : List Nat) (seen : Bool := true) : CoreAct (List (Option Nat)) := do
  let es := fmtBytes g.fmt
  let runs := elemRuns es l
  if seen then noteOperands j g.space (runs.map (fun r => (r.1, r.2 * es)))
  let parts ← runs.mapM (fun r => do
    let rd ← (if seen then operandRead j g.space r.1 (r.2 * es) es else spaceRead j g.space r.1 (r.2 * es))
    pure (rd.elems es))
  pure parts.flatten

/-- The key of an output run. -/
def Job.outKey (j : Job) (g : GenD) : Nat :=
  j.key + 2 ^ 32 * (if j.entry.isSome then j.w.entry + 1 else 0) + 2 ^ 64 * j.t.gens.idxOf g

/-- Two running commands write one state region (R168): the elements that another has written are undefined. -/
def Ex.shared (e : Ex) (j : Job) (g : GenD) (a n : Nat) : Bool :=
  g.grole == 4 && g.space == 0 && (e.x.foreign.any (fun z => meets z.1 z.2 a n)
    || e.d.runs.any (fun r => r.1 != e.rid && r.2.part == j.part && !r.2.ended && !(r.2.wrote (fun _ => true) a n).isEmpty))

/-- An element that is stored ends undefined: an operand of the tile program or the output of another list entry overlaps
it, or another command writes the same state. -/
def Ex.openElem (e : Ex) (j : Job) (g : GenD) (a n : Nat) : Bool :=
  let place := j.place g.space a
  e.x.reads.any (fun r => r.2.2 == j.key && meets place n r.1 r.2.1)
    || (j.entry.isSome && !(e.x.wrote (fun k => outProg k == j.key && outEntry k != 0 && outEntry k != j.w.entry + 1) place n).isEmpty)
    || e.shared j g a n

/-- One element goes to its place. Where the layout has taken an element there before, either value stays (R235). -/
def storeElem (j : Job) (g : GenD) (es fmt : Nat) (z : Nat × Nat) : CoreAct Unit := do
  let e ← get
  let place := j.place g.space z.1
  let strided := match layoutAt j.img g.layout with
    | .strided _ => true
    | _ => false
  let again := strided && e.x.written.any (fun w => w.2.2.2 == j.outKey g && (outElems w).any (fun v => v.1 == place))
  let open_ := e.openElem j g z.1 es
  let f := e.d.freeBytes (if open_ then es else if again then 1 else 0)
  let keep := again && !open_ && bit (leNat f.1) 0
  let old ← quietRead j g.space z.1 es
  modify (fun e =>
    let others := e.x.wrote (fun k => outProg k == j.key && outEntry k != outEntry (j.outKey g) && outEntry k != 0) place es
    let e1 := (if j.entry.isSome then others else []).foldl (fun e v => e.blur v.1 v.2) { e with d := { e.d with free := f.2.free } }
    { e1 with x := { e1.x with
        was := (j.key, place, old) :: e1.x.was
        written := e1.x.written ++ [(place, 1, fmt, j.outKey g)] } })
  if !keep then spaceWrite j g.space z.1 (if open_ then f.1 else leBytes es z.2)

/-- Nothing about an output run needs a look at its elements one by one: no operand, other entry or other command meets it,
and its layout takes no two elements to one place. -/
def Ex.plainRun (e : Ex) (j : Job) (g : GenD) (a n : Nat) : Bool :=
  (match layoutAt j.img g.layout with
   | .strided _ => false
   | _ => true) && !e.openElem j g a n

/-- Store elements by address. The second core of a duplicate pair stores nothing (R82). -/
def storeElems (j : Job) (g : GenD) (es fmt : Nat) (l : List (Nat × Nat)) : CoreAct Unit := do
  if j.shadow then pure ()
  else
    let runs := elemRuns es (l.map (·.1))
    let _ ← runs.foldlM (fun (rest : List (Nat × Nat)) r => do
      let e ← get
      if e.plainRun j g r.1 (r.2 * es) then
        let old ← quietRead j g.space r.1 (r.2 * es)
        modify (fun e => { e with x := { e.x with
          was := (j.key, j.place g.space r.1, old) :: e.x.was
          written := e.x.written ++ [(j.place g.space r.1, r.2, fmt, j.outKey g)] } })
        spaceWrite j g.space r.1 ((rest.take r.2).flatMap (fun z => leBytes es z.2))
      else (rest.take r.2).forM (storeElem j g es fmt)
      pure (rest.drop r.2)) l

/-- Values of a generator along an axis for one row, `n` columns from the start of a tile: none marks poison, and a
constant padding tap has no address. -/
def rowElems (j : Job) (g : GenD) (pos axis tile n : Nat) : CoreAct (List (Option (Option Nat))) := do
  let e ← get
  let b := (j.base e g pos).1
  let row := if j.byCtx g then j.rowIn pos else pos
  let as := (List.range n).map (fun c => j.addr g b row axis tile c)
  let vs ← loadElems j g (as.filterMap id)
  pure ((as.foldl (fun (acc : List (Option (Option Nat)) × List (Option Nat)) a =>
    match a with
    | none => (acc.1 ++ [none], acc.2)
    | some _ => (acc.1 ++ [some (acc.2.headD none)], acc.2.drop 1)) ([], vs)).1)

/-! Masks (R98, R99). -/

/-- The 256-bit words of a mask access: `row` the band row, `w` the word; `axis` 1 for the band, 2 for the N tile. -/
def maskWord (j : Job) (g : GenD) (pos w : Nat) (rowMask : Bool) : CoreAct (Option Nat) := do
  let e ← get
  let b := (j.base e g pos).1
  let row := if j.byCtx g then j.rowIn pos else pos
  let o := j.outerOff g + ((row / j.t.bandRows : Nat) : Int) * j.t.strideOn g 1
    + (if rowMask then ((32 * w : Nat) : Int) else (j.nt : Int) * j.t.strideOn g 2 + (j.kt : Int) * j.t.strideOn g 3)
  let a := j.through g b o
  noteOperands j g.space [(a, 32)]
  let r ← operandRead j g.space a 32 32
  pure (if r.bad.isEmpty then some (leNat r.bytes) else none)

/-- The predicates of a kind, with their generators. -/
def Job.predsOf (j : Job) (kind : Nat) : List PredD := j.t.preds.filter (fun p => p.kind == kind)

/-- A row position passes the row-bound predicates (R98, R363). -/
def Job.rowBoundOk (j : Job) (pos : Nat) : Bool :=
  decide (pos < j.mB) && (j.predsOf 0).all (fun p =>
    match j.t.loops[p.ploop]? with
    | some l => decide (pos < j.loopBound l)
    | none => true)

/-- A column passes the column bounds. -/
def Job.colBoundOk (j : Job) (col : Nat) : Bool :=
  decide (col < j.nB) && (j.predsOf 1).all (fun p =>
    match j.t.loops[p.ploop]? with
    | some l => decide (col < j.loopBound l)
    | none => true)

/-- The rows of the band that a mask leaves; a poisoned mask word poisons the rows it governs (answered second). -/
def maskRows (j : Job) (g : GenD) (l : List Nat) : CoreAct (List Nat × List Nat) := do
  let r ← l.foldlM (fun (acc : (List Nat × List Nat) × KMap (Option Nat)) pos => do
    let row := if j.byCtx g then j.rowIn pos else pos
    let w := row % j.t.bandRows / 256
    let key := if j.byCtx g then j.ctxOf pos * 2 ^ 32 + row / j.t.bandRows * 16 + w else w
    let word ← match kfind acc.2 key with
      | some v => pure v
      | none => maskWord j g pos w true
    let z := kset acc.2 key word
    match word with
    | none => pure ((acc.1.1 ++ [pos], acc.1.2 ++ [pos]), z)
    | some v => pure ((if bit v (row % j.t.bandRows % 256) then acc.1.1 ++ [pos] else acc.1.1, acc.1.2), z)) (([], []), [])
  pure r.1

/-- The valid rows of the band, and those whose mask was poison. -/
def validRows (j : Job) : CoreAct (List Nat × List Nat) := do
  let l := ((List.range j.t.bandRows).map (j.band * j.t.bandRows + ·)).filter (fun pos =>
    j.rowBoundOk pos && (match j.w.only with
      | some q => j.ctxOf pos == q
      | none => true))
  (j.predsOf 2).foldlM (fun (acc : List Nat × List Nat) p => do
    match j.t.gen p.pgen with
    | some g =>
      let r ← maskRows j g acc.1
      pure (r.1, acc.2 ++ r.2)
    | none => pure acc) (l, [])

/-- The column mask of the N tile as row `pos` sees it; a poisoned word leaves every column and is reported. -/
def colMask (j : Job) (pos : Nat) : CoreAct (Nat × Bool) :=
  (j.predsOf 3).foldlM (fun (acc : Nat × Bool) p => do
    match j.t.gen p.pgen with
    | some g =>
      let w ← maskWord j g pos 0 false
      match w with
      | some v => pure (acc.1 &&& v, acc.2)
      | none => pure (acc.1, true)
    | none => pure acc) (2 ^ 256 - 1, false)

/-- The mask words of the rows of a band: one per row of a context-bound mask, one for all otherwise. -/
def colMasks (j : Job) (rows : List Nat) : CoreAct (Nat → Nat × Bool) := do
  if (j.predsOf 3).any (fun p => match j.t.gen p.pgen with
      | some g => j.byCtx g
      | none => false) then
    let l ← rows.mapM (fun pos => do
      let v ← colMask j pos
      pure (pos, v))
    pure (fun pos => kget l pos (2 ^ 256 - 1, false))
  else
    let v ← colMask j (rows.headD 0)
    pure (fun _ => v)

/-- The columns of the N tile that are valid under a mask, as offsets in the tile. -/
def Job.validCols (j : Job) (mask : Nat) : List Nat :=
  (List.range 256).filter (fun c => j.colBoundOk (256 * j.nt + c) && bit mask c)

end Sys2Proof.Machine
end

