-- ==== Sys2Proof/Machine/Elementary.lean ====
section
/-!
DEFINITION. The functions of the function table (R58, R143, R144, R201). The bits of a level are free values (`Config`);
the spec's error bounds hold all the same: an answer outside its bound is replaced by the nearest FP32 value of the exact
result. Exact results are enclosed by rationals whose own error is far below the bound (log 27).
-/

namespace Sys2Proof.Machine

/-- A rational enclosure of an exact result: (-1)^neg * num / den. -/
structure Approx where
  neg : Bool := false
  num : Nat
  den : Nat
  deriving DecidableEq, Repr

/-- ln 2 and the square root of 2/pi, times 2^160. -/
def ln2Fix : Nat := 1013035739299659071135698605846798551586536899366
def gelucFix : Nat := 1166109592014436081468383460887399764390691815008

/-- A dyadic number times 2^160. -/
def toFix (neg : Bool) (m : Nat) (e : Int) : Int :=
  let a : Nat := if 0 ≤ e + 160 then m * 2 ^ (e + 160).toNat else m / 2 ^ (-(e + 160)).toNat
  if neg then -(a : Int) else (a : Int)

/-- The sum of `term * r^i * n! / (n+i)!`, the Taylor terms from the n-th on, all times 2^160. -/
def taylor : Nat → (r term n acc : Nat) → Nat
  | 0, _, _, _, acc => acc
  | fuel + 1, r, term, n, acc => taylor fuel r (term * r / 2 ^ 160 / (n + 1)) (n + 1) (acc + term)

/-- e^y for a fixed-point y; below -512 it is 0, at which every use has long rounded to its limit. -/
def expApprox (y : Int) : Approx :=
  if y < -(512 * (2 ^ 160 : Nat) : Int) then { num := 0, den := 1 }
  else
    let k : Int := y / (ln2Fix : Int)
    let r : Nat := (y - k * (ln2Fix : Int)).toNat
    let p := taylor 40 r (2 ^ 160) 0 0
    if 160 ≤ k then { num := p * 2 ^ (k - 160).toNat, den := 1 } else { num := p, den := 2 ^ (160 - k).toNat }

/-- 1 / (1 + e^-y) times the dyadic m * 2^e of sign `neg`. -/
def sigmoidTimes (y : Int) (neg : Bool) (m : Nat) (e : Int) : Approx :=
  let ex := expApprox (if 0 ≤ y then -y else y)
  let top := if 0 ≤ y then ex.den else ex.num
  { neg := neg, num := top * m * 2 ^ e.toNat, den := (ex.den + ex.num) * 2 ^ (-e).toNat }

/-- The odd series 1 + z/3 + z^2/5 + ... , all times 2^160. -/
def oddSeries : Nat → (z term n acc : Nat) → Nat
  | 0, _, _, _, acc => acc
  | fuel + 1, z, term, n, acc => oddSeries fuel z (term * z / 2 ^ 160) (n + 2) (acc + term / n)

/-- ln(1 + p/d) for p at most d. -/
def ln1pApprox (p d : Nat) : Approx :=
  let q := 2 * d + p
  let s := oddSeries 64 (p * p * 2 ^ 160 / (q * q)) (2 ^ 160) 1 0
  { num := 2 * p * s, den := q * 2 ^ 160 }

/-- tanh of m * 2^e. -/
def tanhApprox (neg : Bool) (m : Nat) (e : Int) : Approx :=
  if (m : Int) * (2 ^ (e + 20).toNat : Nat) < (2 ^ (-(e + 20)).toNat : Nat) then
    let w := 3 * 2 ^ (-2 * e).toNat
    { neg := neg, num := m * (w - m * m), den := w * 2 ^ (-e).toNat }
  else
    let ex := expApprox (-2 * toFix false m e)
    { neg := neg, num := ex.den - ex.num, den := ex.den + ex.num }

/-- The functions of R143 by code, for (-1)^neg * m * 2^e. -/
def tableApprox (code : Nat) (neg : Bool) (m : Nat) (e : Int) : Approx :=
  let x := toFix neg m e
  match code with
  | 1 => sigmoidTimes x neg m e
  | 2 =>
    let a : Int := if (16 * (2 ^ 160 : Nat) : Int) < x then 16 * (2 ^ 160 : Nat)
                   else if x < -(16 * (2 ^ 160 : Nat) : Int) then -(16 * (2 ^ 160 : Nat)) else x
    let u := a + a * a * a * 44715 / ((1000000 * 2 ^ 320 : Nat) : Int)
    sigmoidTimes (2 * (gelucFix : Int) * u / ((2 ^ 160 : Nat) : Int)) neg m e
  | 3 => tanhApprox neg m e
  | 4 => sigmoidTimes x false 1 0
  | 6 =>
    let ex := expApprox (if 0 ≤ x then -x else x)
    let l := ln1pApprox ex.num ex.den
    if neg then l
    else { num := l.num * 2 ^ (-e).toNat + m * 2 ^ e.toNat * l.den, den := l.den * 2 ^ (-e).toNat }
  | _ => expApprox x

/-- The exponent of one FP32 unit in the last place of an exact result (R143). -/
def Approx.ulp (a : Approx) : Int :=
  let k : Int := (bitLen a.num : Int) - bitLen a.den
  let lead : Int := if a.den * 2 ^ k.toNat ≤ a.num * 2 ^ (-k).toNat then k else k - 1
  if a.num = 0 then -149 else max (lead - 23) (-149)

/-- Whether an FP32 pattern lies within `bound` units in the last place of an exact result. The slack of 2^-30 of the
bound covers the enclosure's own error. -/
def Approx.admits (a : Approx) (bound : Nat) (w : F32) : Bool :=
  let tol : Int := (bound * 2 ^ (a.ulp + 149).toNat * a.den : Nat)
  let ex : Int := smant a.neg (a.num * 2 ^ 149)
  match f32 w with
  | .nan => false
  | .inf neg => neg == a.neg && decide ((2 ^ 277 * a.den : Nat) ≤ (a.num * 2 ^ 149 : Nat) + tol)
  | .fin neg m e =>
    decide ((smant neg (m * 2 ^ (e + 149).toNat * a.den) - ex).natAbs * 2 ^ 30 ≤ tol * ((2 ^ 30 + 1 : Nat) : Int))

/-- The FP32 value nearest an exact result. -/
def Approx.nearest (a : Approx) : F32 :=
  let s := 64 + bitLen a.den - bitLen a.num
  toF32 (.fin a.neg (a.num * 2 ^ s / a.den) (-(s : Int))) (a.num * 2 ^ s % a.den != 0)

/-- The level's own answer `w` where its bound holds. -/
def Approx.settle (a : Approx) (bound : Nat) (w : F32) : F32 := if a.admits bound w then w else a.nearest

/-- The error bounds of R143. -/
def tableBound : Nat → Nat
  | 1 => 2 | 2 => 2 | 6 => 2 | _ => 1

/-- The place of an FP32 pattern in the order of the values; both zeros have the same. -/
def rankOf (w : F32) : Nat := if 2 ^ 31 ≤ w then 2 ^ 32 - w else 2 ^ 31 + w

/-- The pattern at a place of the order. -/
def ofRank (neg : Bool) (r : Nat) : F32 :=
  if r < 2 ^ 31 then 2 ^ 32 - r else if r = 2 ^ 31 then (if neg then 2 ^ 31 else 0) else r - 2 ^ 31

/-- An FP32 pattern lies at or below an exact result, and at or above it. -/
def Approx.sides (a : Approx) (w : F32) : Bool × Bool :=
  let ex : Int := smant a.neg (a.num * 2 ^ 149)
  match f32 w with
  | .nan => (false, false)
  | .inf neg => (neg, !neg)
  | .fin neg m e =>
    let v : Int := smant neg (m * 2 ^ (e + 149).toNat * a.den)
    (decide (v ≤ ex), decide (ex ≤ v))

/-- The first and the last place that the bound admits: counted from the values next to the exact result, so that neither falls
as the exact result rises. -/
def Approx.places (a : Approx) (bound : Nat) : Nat × Nat :=
  let r := rankOf a.nearest
  let z := a.sides a.nearest
  let lo := if z.1 then r else r - 1
  let hi := if z.2 then r else r + 1
  let steps (f : Nat → Nat) : Nat :=
    ((List.range (bound + 1)).filter (fun k => a.admits bound (ofRank a.neg (f k)))).foldl max 0
  (hi - steps (fun k => hi - k), lo + steps (fun k => lo + k))

/-- The places of the limits of a function of R143. -/
def tableLimits : Nat → Nat × Nat
  | 3 => (rankOf 0xBF800000, rankOf 0x3F800000)
  | 4 => (rankOf 0, rankOf 0x3F800000)
  | 6 => (rankOf 0, rankOf 0x7F800000)
  | 7 => (rankOf 0, rankOf 0x7F800000)
  | _ => (0, rankOf 0x7F800000)

/-- The function does not fall from `x` on (R143): SiLU and GELU-tanh fall up to their least value, at -1.2784645... and
-0.7524614.... -/
def rising (code : Nat) (x : F32) : Bool :=
  match code with
  | 1 => decide (x ≤ 0xBFA3A4B9)
  | 2 => decide (x ≤ 0xBF40A14F)
  | _ => true

/-- The level's own answer, `g` a non-decreasing function's place, where the function does not fall (R143). -/
def Approx.climb (a : Approx) (bound : Nat) (lim : Nat × Nat) (g : Nat) : F32 :=
  let z := a.places bound
  ofRank a.neg (max (max z.1 lim.1) (min g (min z.2 lim.2)))

/-- A function of the table of R143 at a function-table level: NaN and the infinities as the table gives them, ReLU
exact, exp +infinity above 88.72284, every other finite value the level's own (R144) within its bound, and not falling where
the exact function does not. -/
def funcTable (level code : Nat) (x : F32) : F32 :=
  match f32 x with
  | .nan => f32NaN
  | .inf true =>
    (match code with
     | 1 => 0x80000000 | 2 => 0x80000000 | 3 => 0xBF800000 | _ => 0)
  | .inf false =>
    (match code with
     | 3 => 0x3F800000 | 4 => 0x3F800000 | _ => 0x7F800000)
  | .fin neg m e =>
    if code = 5 then (if neg ∨ m = 0 then 0 else x)
    else if code = 7 ∧ !neg ∧ 0x42B17218 < x then 0x7F800000
    else
      let a := tableApprox code neg m e
      if rising code x then a.climb (tableBound code) (tableLimits code) (Config.funcOrder level code (rankOf x))
      else a.settle (tableBound code) (Config.funcTable level code (BitVec.ofNat 32 x)).toNat

/-- exp of the function table. -/
def fexp (level : Nat) (x : F32) : F32 := funcTable level 7 x

/-- ln of m * 2^e. -/
def lnApprox (m : Nat) (e : Int) : Approx :=
  let b := bitLen m - 1
  let k : Int := e + b
  let l := ln1pApprox (m - 2 ^ b) (2 ^ b)
  let s : Int := ((l.num * 2 ^ 160 / l.den : Nat) : Int) + k * (ln2Fix : Int)
  { neg := decide (s < 0), num := s.natAbs, den := 2 ^ 160 }

/-- ln of the function table (R201), within 2 units in the last place on the positive finite values. -/
def fln (level : Nat) (x : F32) : F32 :=
  let w := (Config.lnTable level (BitVec.ofNat 32 x)).toNat
  match f32 x with
  | .fin false m e => if m = 0 then w else (lnApprox m e).settle 2 w
  | _ => w

/-- The even Taylor terms of cos, alternating, all times 2^160. -/
def cosSeries : Nat → (z term n : Nat) → (acc : Int) → (neg : Bool) → Int
  | 0, _, _, _, acc, _ => acc
  | fuel + 1, z, term, n, acc, neg =>
    cosSeries fuel z (term * z / 2 ^ 160 / ((n + 1) * (n + 2))) (n + 2) (if neg then acc - term else acc + term) (!neg)

/-- cos of the function table (R201), within 2 units in the last place on [0, 8), which holds every argument of R201. -/
def fcos (level : Nat) (x : F32) : F32 :=
  let w := (Config.cosTable level (BitVec.ofNat 32 x)).toNat
  match f32 x with
  | .fin false m e =>
    if 0x41000000 ≤ x then w
    else
      let y := (toFix false m e).toNat
      let s := cosSeries 60 (y * y / 2 ^ 160) (2 ^ 160) 0 0 false
      Approx.settle { neg := decide (s < 0), num := s.natAbs, den := 2 ^ 160 } 2 w
  | _ => w

end Sys2Proof.Machine
end

