-- ==== Sys2Proof/Machine/Chain.lean ====
section
/-!
DEFINITION. Prologue and epilogue chains (R135 to R149): what one stage does to an element, ROWNORM, ARGSEL, the inputs
of the stages, and the random draws (R53, R145).
-/

namespace Sys2Proof.Machine

/-! Draws. -/

/-- Seed and step of the generator key for a row (R53, R145). -/
def Job.keyOf (j : Job) (e : Ex) (pos : Nat) : Nat × Nat :=
  if j.roll then
    let q := j.ctxOf pos
    ((e.d.ctx (e.x.ctxs.getD q 0)).seed, e.x.steps.getD q 0)
  else (e.x.seed, 0)

/-- Draw `n` of the element with index `el` of row `pos`, for stochastic rounding of a store (R145). -/
def Job.draw16 (j : Job) (e : Ex) (pos el n : Nat) : Nat :=
  let k := j.keyOf e pos
  philoxR16 k.1 k.2 j.lay.layer el 3 n

/-! One stage on one element (R138). -/

/-- The FP32 result of a stage. -/
def stageOne (ft : Nat) (st : StageD) (x p : F32) (r : Nat) : F32 :=
  match st.kind with
  | 1 => fmul x p
  | 2 => fadd x p
  | 3 => funcTable ft st.func x
  | 4 => fadd x p
  | 5 => fmul x (if st.func = 0 then p else funcTable ft st.func p)
  | 6 => if f32IsNaN x then f32NaN else fmin (fmax x st.p0) st.p1
  | 11 => srBf16 x r * 65536
  | _ => x

/-- A row of a chain: its values, absent ones `none`; the saturations so far; whether poison reached it. -/
structure ChainRow where
  vals : List (Option Val)
  sat : Nat := 0
  bad : Bool := false
  deriving DecidableEq, Repr

/-- One stage over a row; `ins` are the stage's second inputs, none where one is poison. -/
def ChainRow.stage (c : ChainRow) (ft : Nat) (st : StageD) (ins : List (Option F32)) (r : Nat → Nat) : ChainRow :=
  let z := c.vals.zipIdx.map (fun v =>
    match v.1 with
    | none => (none, 0, false)
    | some x =>
      match ins.getD v.2 (some 0) with
      | none => (some { fmt := st.ifmt, w := poisonFill st.ifmt : Val }, 0, true)
      | some p => let y := toFmt st.ifmt (stageOne ft st x.widen p (r v.2)); (some y.1, y.2, false))
  { vals := z.map (·.1), sat := c.sat + (z.map (fun v => v.2.1)).foldl (· + ·) 0, bad := c.bad || z.any (fun v => v.2.2) }

/-! ROWNORM (R146, R147). -/

/-- The row statistics and the normalised row, from the held values. -/
def rowNorm (st : StageD) (vals : List (Option Val)) : List (Option Val) :=
  let xs := vals.map (fun v => v.map Val.widen)
  let nv := natToF32 (xs.filterMap id).length
  let s1 := (reduce256 fadd xs).getD 0
  let s2 := (reduce256 fadd (xs.map (fun v => v.map (fun x => fmul x x)))).getD 0
  let layer := !bit st.sflags 0
  let mu := if layer then fdiv s1 nv else 0
  let ms := fdiv s2 nv
  let var := if layer then fmax (fsub ms (fmul mu mu)) 0 else ms
  let r := frsqrt (fadd var st.p0)
  xs.map (fun v => v.map (fun x => { fmt := 0, w := if layer then fmul (fsub x mu) r else fmul x r }))

/-- A row rounded to a row-closing stage's hold format (R146). -/
def ChainRow.toHold (c : ChainRow) (f : Nat) : ChainRow :=
  let z := c.vals.map (fun v => v.map (fun x => x.conv f))
  { c with vals := z.map (fun v => v.map (·.1)), sat := c.sat + (z.map (fun v => (v.map (·.2)).getD 0)).foldl (· + ·) 0 }

/-! ARGSEL (R148). -/

/-- Candidate `a` stands before `b`: value, then column. -/
def candBefore (mx : Bool) (a b : F32 × Nat) : Bool :=
  let na := f32IsNaN a.1
  let nb := f32IsNaN b.1
  if na || nb then (!na && nb) || (na && nb && decide (a.2 < b.2))
  else if (if mx then flt b.1 a.1 else flt a.1 b.1) then true
  else if (if mx then flt a.1 b.1 else flt b.1 a.1) then false
  else decide (a.2 < b.2)

/-- Insert a candidate into an ordered list of at most `k`. -/
def candInsert (mx : Bool) (k : Nat) (x : F32 × Nat) (l : List (F32 × Nat)) : List (F32 × Nat) :=
  ((l.takeWhile (fun y => candBefore mx y x)) ++ x :: l.dropWhile (fun y => candBefore mx y x)).take k

/-- The k best candidates of a row, best first. -/
def bestOf (mx : Bool) (k : Nat) (xs : List (Option F32)) : List (F32 × Nat) :=
  xs.zipIdx.foldl (fun l v => match v.1 with
    | some x => candInsert mx k (x, v.2) l
    | none => l) []

/-! The inputs of stages (R137, R140, R207). -/

/-- Elements as FP32. -/
def toF32s (f : Nat) (l : List (Option (Option Nat))) : List (Option F32) :=
  l.map (fun v => match v with
    | some (some w) => some (({ fmt := f, w := w } : Val).widen)
    | some none => none
    | none => some 0)

/-- Columns of each tile of an axis under a bound. -/
def tileCols (n : Nat) : List (Nat × Nat) := (List.range (ceilDiv n 256)).map (fun t => (t, min 256 (n - 256 * t)))

/-- Addresses at the live positions of a row. -/
def liveAddrs (live : List Bool) (l : List (Option Nat)) : List Nat := ((l.zip live).filter (·.2)).filterMap (·.1)

/-- Values back at the live positions, 0 elsewhere. -/
def spreadLive (live : List Bool) (l : List (Option F32)) : List (Option F32) :=
  ((live.foldl (fun (acc : List (Option F32) × List (Option F32)) b =>
    if b then (acc.2.headD none :: acc.1, acc.2.drop 1) else (some 0 :: acc.1, acc.2)) ([], l)).1).reverse

/-- The per-column vector of a stage over tiles, as the rows of a band from row `row0` of a base see it (R94): element k of a
window's prologue is that of its channel within the group iteration (R207). Nothing is read for a column that no row uses. -/
def vecElems (j : Job) (g : GenD) (pos axis : Nat) (tiles : List (Nat × Nat)) (live : List Bool) :
    CoreAct (List (Option F32)) := do
  let e ← get
  let b := (j.base e g pos).1
  let row := (if j.byCtx g then j.rowIn pos else pos) / max 1 j.t.bandRows * max 1 j.t.bandRows
  let as := tiles.flatMap (fun t => (List.range t.2).map (fun c =>
    match axis, j.t.window j.img with
    | 3, some x =>
      let k := 256 * t.1 + c
      some (j.through g b (j.outerOff g + j.rowOff g row
        + (((k / x.cg / (x.kw * x.kh) * x.cg + k % x.cg) * fmtBytes g.fmt : Nat) : Int)))
    | _, _ => j.addr g b row axis t.1 c))
  let vs ← loadElems j g (liveAddrs live as)
  pure (spreadLive live (toF32s g.fmt (vs.map some)))

/-- The vectors of stages by stage index, and for a base that follows the context by the context's place (R363). -/
abbrev StageVecs := KMap (KMap (List (Option F32)))

/-- The vectors of a list of stages: each read once for all rows of the band that share its base. -/
def stageVecs (j : Job) (sts : List (StageD × Nat)) (rows : List Nat) (axis : Nat) (tiles : List (Nat × Nat))
    (live : List Nat → List Bool) : CoreAct StageVecs :=
  sts.foldlM (fun (acc : StageVecs) s => do
    match s.1.src, j.t.gen s.1.sgen with
    | 1, some g =>
      let owner (pos : Nat) : Nat := if j.byCtx g then j.ctxOf pos else 0
      let v ← (rows.map owner).eraseDups.foldlM (fun (m : KMap (List (Option F32))) q => do
        let mine := rows.filter (fun pos => owner pos == q)
        let v ← vecElems j g (mine.headD 0) axis tiles (live mine)
        pure (kset m q v)) []
      pure (kset acc s.2 v)
    | _, _ => pure acc) []

/-- The vector of a stage as a row sees it. -/
def vecOf (j : Job) (vecs : StageVecs) (s : StageD × Nat) (pos : Nat) : List (Option F32) :=
  let byCtx := match j.t.gen s.1.sgen with
    | some g => j.byCtx g
    | none => false
  kget (kget vecs s.2 []) (if byCtx then j.ctxOf pos else 0) []

/-- Columns of a list of tiles. -/
def colsIn (tiles : List (Nat × Nat)) : Nat := (tiles.map (·.2)).foldl (· + ·) 0

/-- The second inputs of a stage for one row. `skip` are the output's own addresses: a second tensor may stand there
(R142). -/
def stageIns (j : Job) (s : StageD × Nat) (vecs : StageVecs) (pos axis : Nat) (tiles : List (Nat × Nat))
    (live : List Bool) (skip : List Nat) : CoreAct (List (Option F32)) := do
  let n := colsIn tiles
  match s.1.src, j.t.gen s.1.sgen with
  | 1, _ => pure (vecOf j vecs s pos)
  | 2, some g =>
    let v ← rowElems j g pos axis 0 1
    pure (List.replicate n ((toF32s g.fmt v).headD none))
  | 3, some g =>
    let e ← get
    let b := (j.base e g pos).1
    let row := if j.byCtx g then j.rowIn pos else pos
    let as := liveAddrs live (tiles.flatMap (fun t => (List.range t.2).map (fun c => j.addr g b row axis t.1 c)))
    let vs ← loadElems j g as (as != skip)
    pure (spreadLive live (toF32s g.fmt (vs.map some)))
  | _, _ => pure (List.replicate n (some s.1.p0))

/-- Run stages over a row whose columns are those of `tiles`; `el` numbers the element of a column for the draws. A ROWNORM of
the prologue holds nothing; it takes its input rounded to its IFMT, as a hold would give it (DESIGN CHOICE, log 91). -/
def runStages (j : Job) (ft : Nat) (sts : List (StageD × Nat)) (all : List StageD) (vecs : StageVecs)
    (pos axis : Nat) (tiles : List (Nat × Nat)) (skip : List Nat) (el : Nat → Nat) (c : ChainRow) : CoreAct ChainRow :=
  sts.foldlM (fun (c : ChainRow) s => do
    let ins ← stageIns j s vecs pos axis tiles (c.vals.map Option.isSome) skip
    let e ← get
    let draw := ((all.take s.2).filter (fun t => t.kind == 11)).length
    if s.1.kind = 9 then pure (let h := c.toHold s.1.ifmt; { h with vals := rowNorm s.1 h.vals })
    else pure (c.stage ft s.1 ins (fun i => if s.1.kind = 11 then j.draw16 e pos (el i) draw else 0))) c

end Sys2Proof.Machine
end

