-- ==== Sys2Proof/Machine/Dot.lean ====
section
/-!
DEFINITION. One pass of a weight tile over its band (R60 to R82, R113 to R118): the prologue of the band, the expander
(R263 to R267), the array and its checkers, and the accumulator.
-/

namespace Sys2Proof.Machine

/-! The prologue (R46 to R48, R70, R75, R101, R126 to R129, R135, R150, R209). -/

/-- The activation generators: one, or the real and the imaginary plane of a complex product in generator order. -/
def Job.acts (j : Job) : List GenD := ((j.t.byRole 0).map (·.2)).take (if j.t.complex then 2 else 1)

/-- Stages with their indices. -/
def numbered (l : List StageD) : List (StageD × Nat) := l.zipIdx

/-- The value of a constant padding tap (R209). -/
def Job.padVal (j : Job) (g : GenD) : F32 :=
  match layoutAt j.img g.layout with
  | .window x => x.padVal
  | _ => 0

/-- Elements of a window layout through the staging region (R211): each is fetched once for a band and group iteration. -/
def stagedElems (j : Job) (g : GenD) (l : List Nat) : CoreAct (List (Option Nat)) := do
  let e ← get
  let new := (l.filter (fun a => (kfind e.c.stage a).isNone)).foldl (fun m a => kset m a ()) ([] : KMap Unit)
  let vs ← loadElems j g (kkeys new)
  modify (fun e => { e with c := { e.c with stage := ((kkeys new).zip vs).foldl (fun m z => kset m z.1 z.2) e.c.stage } })
  let e ← get
  pure (l.map (fun a => kget e.c.stage a none))

/-- The elements of a band row over the whole reduction. -/
def actElems (j : Job) (g : GenD) (pos : Nat) : CoreAct (List (Option (Option Nat))) := do
  match layoutAt j.img g.layout with
  | .window _ =>
    let e ← get
    let b := (j.base e g pos).1
    let row := if j.byCtx g then j.rowIn pos else pos
    let as := (List.range j.kB).map (fun k => j.addr g b row 3 (k / 256) (k % 256))
    let vs ← stagedElems j g (as.filterMap id)
    pure ((as.foldl (fun (acc : List (Option (Option Nat)) × List (Option Nat)) a =>
      match a with
      | none => (none :: acc.1, acc.2)
      | some _ => (some (acc.2.headD none) :: acc.1, acc.2.drop 1)) ([], vs)).1.reverse)
  | _ =>
    let l ← (tileCols j.kB).mapM (fun t => rowElems j g pos 3 t.1 t.2)
    pure l.flatten

/-- One plane of a floating operand after the prologue stages: FP32 values, the saturations of the stages, poison. -/
def actSweep (j : Job) (g : GenD) (vecs : StageVecs) (pos : Nat) : CoreAct (List F32 × Nat × Bool) := do
  let l ← actElems j g pos
  let e ← get
  let vals := l.map (fun v => v.map (fun w => ({ fmt := g.fmt, w := w.getD (poisonFill g.fmt) } : Val)))
  let bad := l.any (fun v => v == some none)
  let c ← runStages j e.d.trust.ftLevel (numbered j.t.pro) j.t.pro vecs pos 3 (tileCols j.kB) [] (fun i => i) { vals := vals }
  pure (c.vals.map (fun v => match v with
    | some x => x.widen
    | none => j.padVal g), c.sat, bad || c.bad)

/-- The two sweeps of the prologue over a plane (R46): the second reads the operand and the second tensors again (R48, R140);
what it reads is quantized. -/
def actPlane (j : Job) (g : GenD) (vecs : StageVecs) (pos : Nat) : CoreAct (List F32 × Nat × Bool) := do
  let r1 ← actSweep j g vecs pos
  let r2 ← actSweep j g vecs pos
  pure (r2.1, r2.2.1, r1.2.2 || r2.2.2)

/-- A stored A-format run of a row of `total` elements: those from `first` on, `n` of them (blocks whole). Elements,
then the exponent of every block, then in the adaptive form the mode bits, all within the row's pitch (DESIGN CHOICE, log 65). -/
def storedRun (j : Job) (g : GenD) (pos total first n : Nat) : CoreAct (StoredRow × Nat × Bool) := do
  let e ← get
  let nb := ceilDiv total 32
  let four := g.fmt == 6
  let row := if j.byCtx g then j.rowIn pos else pos
  let b := addrAdd (j.base e g pos).1 (j.outerOff g + j.rowOff g row)
  let el := if four then 16 * nb else 32 * nb
  let k := ceilDiv n 32
  let planes := [(b + (if four then first / 2 else first), if four then 16 * k else n), (b + el + first / 32, k)]
    ++ (if g.fmt = 7 then [(b + el + nb + first / 256, ceilDiv (first / 32 % 8 + k) 8)] else [])
  noteOperands j g.space planes
  let rs ← planes.mapM (fun z => operandRead j g.space z.1 z.2 1)
  let by_ (i : Nat) : Bytes := ((rs[i]?).map (·.bytes)).getD []
  let modes := (List.range k).map (fun i =>
    let z := first / 32 % 8 + i
    four || (g.fmt == 7 && bit (byteAt (by_ 2) (z / 8)) (z % 8)))
  let vs := (List.range n).map (fun i =>
    if four then readA true (byteAt (by_ 0) (i / 2) / (if i % 2 = 0 then 1 else 16))
    else readSlot (modes.getD (i / 32) false) (byteAt (by_ 0) i))
  pure ({ x := (List.range k).map (fun i => byteAt (by_ 1) i), a4 := modes, q := vs.map (·.1) },
        (vs.map (·.2)).foldl (· + ·) 0, rs.any (fun r => !r.bad.isEmpty))

/-- One plane of a stored A-format operand. -/
def storedPlane (j : Job) (g : GenD) (pos : Nat) : CoreAct (StoredRow × Nat × Bool) := storedRun j g pos j.kB 0 j.kB

/-- An integer operand of a multi-word product (R70). -/
def wordPlane (j : Job) (g : GenD) (pos : Nat) : CoreAct (List Int × Nat × Bool) := do
  let l ← actElems j g pos
  let vs := l.map (fun v => match v with
    | some (some w) =>
      (match g.fmt with
       | 9 => (signed 16 w, 0)
       | 5 => readA false w
       | f => toIntSat (if j.t.product = 2 then 8 else 16) (({ fmt := f, w := w } : Val).widen))
    | _ => (0, 0))
  pure (vs.map (·.1), (vs.map (·.2)).foldl (· + ·) 0, l.any (fun v => v == some none))

/-- A context's own promotions (R50). -/
def notePromotions (j : Job) (pos : Nat) (st : QStat) : CoreAct Unit :=
  modify (fun e =>
    let m := kmod e.x.prom (lpKey j.w.layer (j.ctxOf pos)) (0, 0) (fun z => (z.1 + st.prom, z.2 + st.blocks))
    { e with x := { e.x with prom := m } })

/-- Count what a quantization counts (R47, R48). -/
def countQuant (j : Job) (st : QStat) : CoreAct Unit := do
  countCore j ctSat st.sat
  countCore j ctProm st.prom
  countCore j ctSpan st.raised

/-- Keep a row of the quantized band. -/
def keepRow (pos : Nat) (rows : List QRow) (bad : Bool) : CoreAct Unit :=
  modify (fun e => { e with c := { e.c with
    q := rows.zipIdx.foldl (fun m z => kset m (z.2 * 2 ^ 32 + pos) { z.1 with bad := bad }) e.c.q } })

/-- One row of the band through the prologue. A stored operand of a three-pass product keeps its elements, up to 127 in
magnitude (DESIGN CHOICE, log 91). -/
def prologueRow (j : Job) (vecs : StageVecs) (pos : Nat) : CoreAct Unit := do
  let gs := j.acts
  match gs with
  | [] => pure ()
  | g :: _ =>
    if j.t.multiWord then
      let r ← wordPlane j g pos
      countCore j ctSat r.2.1
      keepRow pos (wordRows (j.t.product != 2) r.1) r.2.2
    else if j.t.arrayOp ≠ 0 then
      let r ← (if fmtA g.fmt then do
          let s ← storedPlane j g pos
          pure (s.1.q.zipIdx.map (fun z =>
              let x := s.1.x.getD (z.2 / 32) 0
              if x = 0xFF then f32NaN else intToF32 z.1 ((x : Int) - 128)), s.2.1, s.2.2)
        else actSweep j g vecs pos)
      countCore j ctSat r.2.1
      keepRow pos [{ nan := r.1.any (fun x => !f32IsFinite x) }] r.2.2
      modify (fun e => { e with c := { e.c with raw := kset e.c.raw pos r.1 } })
    else if fmtA g.fmt then
      let parts ← gs.mapM (fun g => storedPlane j g pos)
      let z := storedRow (parts.map (·.1))
      countCore j ctSat ((parts.map (fun s => s.2.1)).foldl (· + ·) 0)
      countQuant j z.2
      notePromotions j pos z.2
      keepRow pos z.1 (parts.any (fun s => s.2.2))
    else
      let parts ← gs.mapM (fun g => actPlane j g vecs pos)
      let p : QuantP := { mode := if j.t.product = 6 then 1 else j.lay.mode, g := j.lay.g, t := j.lay.t
                          three := j.t.product == 6 }
      let z := quantRow p (parts.map (·.1))
      countCore j ctSat ((parts.map (fun s => s.2.1)).foldl (· + ·) 0)
      countQuant j z.2
      notePromotions j pos z.2
      keepRow pos z.1 (parts.any (fun s => s.2.2))

/-- The accumulator sets that a program writes: one, or the real and the imaginary one of a complex product. -/
def Job.sets (j : Job) : List Nat := if j.t.complex then [0, 1] else [0]

/-- Keys of rows in accumulator sets. -/
def setKeys (sets rows : List Nat) : List Nat := sets.flatMap (fun s => rows.map (s * 2 ^ 32 + ·))

/-- The prologue of a band: its valid rows, their quantized form, and empty accumulators. -/
def prologueBand (j : Job) : CoreAct Unit := do
  let v ← validRows j
  modify (fun e => { e with c := { e.c with
    rows := v.1, q := [], raw := [], acc := [], accBad := [], hold := [], stage := []
    holdBad := (setKeys j.sets v.2).foldl (fun l k => insertSorted k l) [] } })
  let vecs ← stageVecs j (numbered j.t.pro) v.1 3 (tileCols j.kB) (fun _ => List.replicate j.kB true)
  v.1.forM (prologueRow j vecs)

/-! The expander (R263 to R267). -/

/-- Where the region of the weights begins: the band, pointer-list and plain loops step it. -/
def Job.regionAt (j : Job) (e : Ex) (g : GenD) : Nat :=
  addrAdd (j.base e g (j.band * j.t.bandRows)).1 (j.outerOff g + (j.band : Int) * j.t.strideOn g 1)

/-- A read of a packed region: an operand of the tile program (R142). Bytes that another command has written meanwhile are
undefined weights (R262). -/
def weightRead (j : Job) (a n : Nat) (charged : Bool := true) : CoreAct Rd := do
  noteOperands j 0 [(a, n)]
  operandRead j 0 a n 1 charged

/-- The header of a region: read once per command, and per entry under a pointer list (R263). -/
def headerRead (j : Job) (a : Nat) : CoreAct Bytes := do
  let e ← get
  let key := a + 2 ^ 66 * (if j.entry.isSome then j.w.entry + 1 else 0)
  match kfind e.c.hdrs key with
  | some b => pure b
  | none =>
    let r ← weightRead j a 256
    let b := if r.bad.isEmpty then r.bytes else []
    modify (fun e => { e with c := { e.c with hdrs := kset e.c.hdrs key b } })
    pure b

/-- The header as it was read. -/
def Job.header (j : Job) (e : Ex) (g : GenD) : Bytes :=
  kget e.c.hdrs (j.regionAt e g + 2 ^ 66 * (if j.entry.isSome then j.w.entry + 1 else 0)) []

/-- The header of a region as the sequencer checks it (R263). -/
def Job.headerOk (j : Job) (p : PackD) : Bool :=
  p.magic == packMagic && p.width == j.t.storedWidth && p.planes == planesOf j.t.product && p.kt == ceilDiv j.kB 256
    && p.nt == ceilDiv j.nB 256

/-- A table record through the expander's two slots, keyed by region and generation (R267): none where the read gave poison.
Blocks decode one after another here, so every slot has count 0 when a table is loaded; the slot that was used longer ago is
taken (DESIGN CHOICE, log 92). -/
def tableRead (j : Job) (h gen : Nat) : CoreAct Bytes := do
  let e ← get
  let key := h * 16 + gen
  let keep (z : Nat × Bytes) : CoreAct Unit :=
    modify (fun e => { e with c := { e.c with slots := (z :: e.c.slots.filter (fun y => y.1 != key)).take 2 } })
  match e.c.slots.find? (fun z => z.1 == key) with
  | some z =>
    keep z
    pure z.2
  | none =>
    let r ← weightRead j (h + 0x100 + 128 * gen) 128
    let b := if r.bad.isEmpty then r.bytes else []
    keep (key, b)
    pure b

/-- The element data of one compression block: none, with its cause, where it is damaged (R264 to R266). -/
def expandBlock (j : Job) (h a : Nat) (tables entry : Nat) (charged : Bool) : CoreAct (Bytes × Option Nat) := do
  let s := parseSide entry
  if !s.ok then pure ([], some caDecode)
  else
    match s.mode with
    | 2 => pure (repByte 4096 0, none)
    | 0 =>
      let r ← weightRead j a 4096 charged
      pure (r.bytes, if r.bad.isEmpty then none else some caMemPoison)
    | _ =>
      let r ← weightRead j a (64 * (s.len + 1)) charged
      if tables ≤ s.gen then pure ([], some caDecodeTable)
      else
        let t ← tableRead j h s.gen
        let lens := tableLens t
        if t.isEmpty then pure ([], some caMemPoison)
        else if !tableOk lens then pure ([], some caDecodeTable)
        else if !r.bad.isEmpty then pure ([], some caMemPoison)
        else
          match decodeBlock lens r.bytes with
          | some b => if s.len + 1 = r.bytes.length / 64 then pure (b, none) else pure ([], some caDecode)
          | none => pure ([], some caDecode)

/-- A tile record from memory: where the header says that the data lies (R251). -/
def expandTile (j : Job) (h : Nat) (p : PackD) (idx : Nat) (charged : Bool) : CoreAct Tile := do
  let n := p.width
  let a := h + p.dataOff + idx * tileBytes n
  let side ← weightRead j (h + 0x900 + 2 * (idx * (2 * n))) (4 * n) charged
  if !side.bad.isEmpty then pure (.poison caMemPoison)
  else
    let bl ← (List.range (2 * n)).mapM (fun i =>
      expandBlock j h (a + 4096 * i) p.tables (field side.bytes (2 * i) 2) charged)
    let tr ← weightRead j (a + 8192 * n) 3072 charged
    match bl.findSome? (·.2) with
    | some c => pure (.poison c)
    | none =>
      if !tr.bad.isEmpty then pure (.poison caMemPoison)
      else pure { elems := bl.flatMap (·.1), exps := tr.bytes.take 2048, sums := tr.bytes.drop 2048,
                  rows := p.k - 256 * j.kt, cols := p.n - 256 * j.nt }

/-! Tile indices of the multicast (R104). -/

/-- Weight tiles that a tile program names within the image: the iterations of its loops from the image. -/
def mcastSpan (t : TileProg) : Nat :=
  match t.byRole 1 with
  | [] => 0
  | (_, g) :: _ =>
    ((t.loops.filter (fun l => l.role == 0)).map (·.count)).foldl (· * ·) 1
      * (if t.strideOn g 1 = 0 then 1 else (t.loop 1).count) * (t.loop 2).count * (t.loop 3).count * planesOf t.product

/-- Weight tiles of the tile programs before one. -/
def mcastBase (img : Bytes) (layer prog : Nat) : Nat :=
  (((List.range layer).flatMap (fun i => layerProgs img i) ++ (layerProgs img layer).take prog).map mcastSpan).foldl
    (· + ·) 0

/-- The tile index of a plane of the current tile. -/
def Job.mcastIdx (j : Job) (g : GenD) (plane : Nat) : Nat :=
  let outer := ((j.t.loops.zipIdx.filter (fun l => l.1.role == 0)).foldl (fun a l => a * l.1.count + j.w.idx.getD l.2 0) 0)
  let band := if j.t.strideOn g 1 = 0 then outer else outer * (j.t.loop 1).count + j.band
  mcastBase j.img j.w.layer j.w.prog
    + ((band * (j.t.loop 2).count + j.nt) * (j.t.loop 3).count + j.kt) * planesOf j.t.product + plane

/-- The weight tile that a pass uses (R65). Its first pass fetches it, unless the multicast brought it; later passes of the
same plane find it in the array. -/
def passTile (j : Job) (plane : Nat) : CoreAct Tile := do
  match j.t.byRole 1 with
  | [] => pure (.poison caPackHeader)
  | (_, g) :: _ =>
    let first := j.t.arrayOp != 0 || (passesOf j.t.product).findIdx (fun p => p.plane == plane) == j.w.pass
    let e ← get
    match first, kfind e.c.held plane with
    | false, some t => pure t
    | _, _ =>
      let h := j.regionAt e g
      let hd ← headerRead j h
      let p := parsePack hd
      let m := j.mcastIdx g plane
      let brought := j.entry.isNone && e.c.got.contains m
      modify (fun e => { e with c := { e.c with got := (e.c.got.erase m).erase (m + 2 ^ 40) } })
      let t ← (if j.headerOk p then expandTile j h p ((j.nt * p.kt + j.kt) * p.planes + plane) (!brought)
               else pure (.poison (if hd.isEmpty then caMemPoison else caPackHeader)))
      match t.bad with
      | some c => if c != caMemPoison then
                    countCore j ctDecode 1
                    coreFault j c
      | none => pure ()
      modify (fun e => { e with c := { e.c with held := kset (if j.w.pass = 0 then [] else e.c.held) plane t } })
      pure t

/-- Fw of the columns of the N tile (R49, R75), from the exponents of every K tile of the region. A multi-word product takes
every block exponent as 0x80 (R70). -/
def loadFw (j : Job) : CoreAct Unit := do
  match j.t.byRole 1 with
  | [] => pure ()
  | (_, g) :: _ =>
    let e ← get
    let h := j.regionAt e g
    let hd ← headerRead j h
    let p := parsePack hd
    let fw : List Nat :=
      if j.t.multiWord then List.replicate 256 0x80
      else if !j.headerOk p then []
      else
        let n := p.width
        let planes := (List.range p.kt).map (fun kt =>
          e.d.peek j.part (h + p.dataOff + ((j.nt * p.kt + kt) * p.planes) * tileBytes n + 8192 * n) 2048)
        (List.range 256).map (fun c =>
          (planes.flatMap (fun b => (List.range 8).map (fun i => byteAt b (256 * i + c)))).foldl max 0 - 8)
    modify (fun e => { e with c := { e.c with fw := fw } })

/-! The array (R61, R71 to R78). -/

/-- An activation row as a pass takes it. -/
def passRow (c : CoreRun) (act pos : Nat) : QRow :=
  let a := kget c.q pos {}
  let b := kget c.q (2 ^ 32 + pos) {}
  match act with
  | 0 => a
  | 1 => { b with fl := a.fl, x := a.x }
  | _ => { a with q := (List.range (max a.q.length b.q.length)).map (fun i => a.q.getD i 0 + b.q.getD i 0) }

/-- The delta of one row and column of a DOT pass (R61); `wsh` is the shift of the weight block. -/
def dotDelta (q : QRow) (t : Tile) (n : Nat) (low : Bool) (wsh : Nat → Nat) (kt c : Nat) : Int :=
  ((List.range 8).map (fun b =>
    let s : Int := ((List.range 32).map (fun i =>
      q.q.getD (256 * kt + 32 * b + i) 0 * t.w n low (32 * b + i) c)).foldl (· + ·) 0
    s * (2 ^ ((q.x.getD (8 * kt + b) q.fl - q.fl) + wsh b) : Nat))).foldl (· + ·) 0

/-- The shift of a weight block (R61): 0 in a multi-word product (R70). -/
def Job.wshift (j : Job) (t : Tile) (fw : List Nat) (c b : Nat) : Nat :=
  if j.t.multiWord then 0 else t.exp (32 * b) c - fw.getD c 0

/-- What the residue checker expects of a row (R78). -/
def residueOf (q : QRow) (t : Tile) (kt : Nat) : Int :=
  ((List.range 256).map (fun k =>
    q.q.getD (256 * kt + k) 0 * t.sum k * (2 ^ (q.x.getD (8 * kt + k / 32) q.fl - q.fl) : Nat))).foldl (· + ·) 0

/-- What the checker sums over the columns of a row (R78). The column sums of a region packed from single words carry its own
block shifts (R77), so a product of INT16 activations with W8 weights, whose deltas carry none (R70), is compared with them
put in (DEDUCED, log 93): an undisturbed tile never fails its check (R80). -/
def Job.actualOf (j : Job) (q : QRow) (t : Tile) (low : Bool) (dl : List Int) : Int :=
  if j.t.product = 1 then
    let m (c : Nat) : Nat := ((List.range 8).map (fun b => t.exp (32 * b) c)).foldl max 0 - 8
    ((List.range 256).map (fun c => dotDelta q t j.t.storedWidth low (fun b => t.exp (32 * b) c - m c) j.kt c)).foldl (· + ·) 0
  else dl.foldl (· + ·) 0

/-- One row and column of a distance pass over the valid reduction positions (R74 to R76): none where there is none. -/
def distDelta (op : Nat) (qa : List Int) (t : Tile) (n kt kB : Nat) (fw : List Nat) (c : Nat) : Option Int :=
  let ks := List.range (min 256 (kB - 256 * kt))
  let v := ks.map (fun k =>
    let dlt := qa.getD k 0 - t.w n false k c
    let sh := t.exp k c - fw.getD c 0
    match op with
    | 1 => (dlt.natAbs : Int) * (2 ^ sh : Nat)
    | 4 => dlt * dlt * (2 ^ (2 * sh) : Nat)
    | _ => dlt * (2 ^ sh : Nat))
  match v with
  | [] => none
  | x :: r => some (r.foldl (fun a b => if op = 2 then max a b else if op = 3 then min a b else a + b) x)

/-- A distance row of one K tile, quantized at the codebook's exponents (R75). -/
def distRow (raw : List F32) (t : Tile) (kt kB : Nat) : List Int × Nat :=
  let z := (List.range (min 256 (kB - 256 * kt))).map (fun k =>
    clampSym 127 (rneAt (raw.getD (256 * kt + k) 0) ((t.exp k 0 : Int) - 128)))
  (z.map (·.1), (z.map (·.2)).foldl (· + ·) 0)

/-- Add a row of deltas to an accumulator set, or combine it (R67, R76): masked columns are not written (R69). -/
def accRow (op : Nat) (key : Nat) (dl : List (Option Int)) : CoreAct Unit :=
  modify (fun e =>
    let old := kget e.c.acc key []
    let new := dl.zipIdx.map (fun z => match z.1, (old.getD z.2 none) with
      | some v, some w => some (if op = 2 then max w v else if op = 3 then min w v else w + v)
      | some v, none => some v
      | none, w => w)
    { e with c := { e.c with acc := kset e.c.acc key new } })

/-- Poison accumulator rows of given sets (R67, R79, R83). -/
def poisonSets (sets l : List Nat) : CoreAct Unit :=
  modify (fun e => { e with c := { e.c with accBad := (setKeys sets l).foldl (fun a r => insertSorted r a) e.c.accBad } })

/-- Poison band rows (R79, R83). -/
def poisonRows (j : Job) (l : List Nat) : CoreAct Unit := poisonSets j.sets l

/-- Poison the band. -/
def poisonBand (j : Job) : CoreAct Unit := do
  let e ← get
  poisonRows j e.c.rows

/-- A residue mismatch in `n` passes (R79): the poison bits of the rows in every slot that the pass writes. -/
def residueFault (j : Job) (sets : List Nat) (n : Nat) : CoreAct Unit := do
  let e ← get
  poisonSets sets e.c.rows
  countCore j ctResidue n
  coreFault j caResidue

/-! Time in the array (R63, R66, R115, R116, R119, R134): what the array stall counter counts. -/

/-- Rows of the band up to the row bound. -/
def Job.bandBound (j : Job) : Nat := ((List.range j.t.bandRows).filter (fun i => j.rowBoundOk (j.band * j.t.bandRows + i))).length

/-- Slot groups of the band (R114). -/
def Job.groups (j : Job) : Nat := ceilDiv j.bandBound j.t.groupRows

/-- The eight slices run a pair paired (R62, R63): a block beyond the K bound, and a block of a masked row, holds none back. -/
def Job.pairs (j : Job) (c : CoreRun) (a b : Nat) : Bool :=
  let p (pos i : Nat) : Bool := ((kfind c.q pos).map (fun q => q.a4.getD i true)).getD true
  !j.t.multiWord && j.t.product != 6 && (List.range 8).all (fun s =>
    let i := 8 * j.kt + s
    decide (j.kB ≤ 32 * i) || (p a i && p b i))

/-- Array cycles of the rows of slot group `g` in one pass. -/
def Job.groupCycles (j : Job) (c : CoreRun) (g : Nat) : Nat :=
  let lo := g * j.t.groupRows
  let m := min j.bandBound (lo + j.t.groupRows) - lo
  if j.t.arrayOp ≠ 0 then m * (if j.t.arrayOp = 4 then 10 else 2)
  else
    let row (i : Nat) : Nat := j.band * j.t.bandRows + lo + i
    let n := if j.t.multiWord then 8 else j.t.storedWidth
    n * (((List.range (m / 2)).map (fun p => if j.pairs c (row (2 * p)) (row (2 * p + 1)) then 1 else 2)).foldl (· + ·) 0 + m % 2)

/-- Array cycles of a pass over the band (R66, R119). -/
def Job.passCycles (j : Job) (c : CoreRun) : Nat :=
  let s := j.groups
  let a := (List.range s).map (j.groupCycles c)
  let t := if s ≤ 4 then a.foldl (· + ·) 0
    else (a.take 2).foldl (· + ·) 0 + ((a.drop 2).map (max 1536)).foldl (· + ·) 0
  max t 256 + 1

/-- One pass has run: its cycles, and the cycles that the array waited for weights, scoreboards and finishing passes, which are
the outside world's to say. -/
def noteCycles (j : Job) : CoreAct Unit := do
  let e ← get
  let n := j.passCycles e.c
  let first := j.kt == 0 && j.w.pass == 0
  modify (fun e => { e with c := { e.c with cyc := if first then n else e.c.cyc + n, cyc1 := if first then n else e.c.cyc1 } })
  countCore j ctStall j.env.stall

/-- The N tile's last pass has run: the cycles that it waited for the epilogue of the tile before (R115, R116, R134). -/
def noteWait (j : Job) : CoreAct Unit := do
  let e ← get
  match e.c.prevM with
  | some m => countCore j ctStall (if j.groups ≤ 2 then 4 * m - e.c.cyc else 4 * m + 1 - e.c.cyc1)
  | none => pure ()
  modify (fun e => { e with c := { e.c with prevM := some e.c.rows.length } })

/-! Spilled groups (R117, R118). -/

/-- Bytes of a spill record. -/
abbrev spillRecord : Nat := 393280

/-- The accumulator row, set and band row, that stands in row `r` of a record of group `g`. -/
def Job.spillKey (j : Job) (g r : Nat) : Nat :=
  let n := j.t.groupRows
  r / n * 2 ^ 32 + j.band * j.t.bandRows + g * n + r % n

/-- The record of a group, as it stands in the slot; a place that nothing has written holds a free value. -/
def spillBytes (j : Job) (c : CoreRun) (fr : Bytes) (g : Nat) : Bytes :=
  let row (r : Nat) : Bytes :=
    let l := kget c.acc (j.spillKey g r) []
    (List.range 256).flatMap (fun k => match l.getD k none with
      | some v => leBytes 6 (unsigned 48 v)
      | none => (fr.drop ((r * 256 + k) * 6)).take 6)
  (List.range 256).flatMap row
    ++ leBytes 32 (((List.range 256).map (fun r => b2n (c.accBad.contains (j.spillKey g r)) * 2 ^ r)).foldl (· + ·) 0) ++ repByte 32 0

/-- A rotating slot writes its group out. Record g - 2 of the core's stockpot space holds group g (DEDUCED, log 70). -/
def spillOut (j : Job) (g : Nat) : CoreAct Unit :=
  modify (fun e =>
    match e.d.part j.part with
    | some x =>
      let f := e.d.freeBytes 393216
      { e with d := (f.2.potPut x (j.g / 8) (e.c.pot + (g - 2) * spillRecord) (spillBytes j e.c f.1 g)).2 }
    | none => e)

/-- A group is read back into a rotating slot. -/
def spillIn (j : Job) (g : Nat) : CoreAct Unit := do
  let e ← get
  match e.d.part j.part with
  | some x =>
    let r := e.d.potGet x (j.g / 8) (e.c.pot + (g - 2) * spillRecord) spillRecord
    memMarks j r.marks
    let c := e.c
    let back (acc : KMap (List (Option Int))) (k : Nat) : KMap (List (Option Int)) :=
      let key := j.spillKey g k
      match kfind acc key with
      | some l => kset acc key (l.zipIdx.map (fun z => z.1.map (fun _ => signed 48 (field r.bytes ((k * 256 + z.2) * 6) 6))))
      | none => acc
    let bad := (List.range 256).filter (fun k => !r.bad.isEmpty || bit (field r.bytes 393216 32) k)
    modify (fun e => { e with c := { e.c with
      acc := (List.range 256).foldl back c.acc
      accBad := (bad.map (j.spillKey g)).foldl (fun l k => insertSorted k l) c.accBad } })
  | none => pure ()

/-- The groups of a band that take turns in the rotating slots. -/
def Job.turns (j : Job) : List Nat := if j.groups ≤ 4 ∨ j.shadow then [] else (List.range (j.groups - 2)).map (· + 2)

/-- Before the first pass of a K tile after the first: the group that the last turn left in its slot goes out, and each group
is read back for its turn. -/
def spillBegin (j : Job) : CoreAct Unit := do
  if j.kt ≠ 0 ∧ j.w.pass = 0 then
    match j.turns.getLast? with
    | some g => spillOut j g
    | none => pure ()
    j.turns.forM (spillIn j)

/-- After the last pass of a K tile but the last: every group but that of the last turn has gone out. -/
def spillEnd (j : Job) : CoreAct Unit := do
  if j.kt + 1 < ceilDiv j.kB 256 ∧ (j.t.arrayOp ≠ 0 ∨ (passesOf j.t.product).length ≤ j.w.pass + 1) then
    j.turns.dropLast.forM (spillOut j)

/-- The columns of the N tile that are valid for a row. -/
def Job.rowCols (j : Job) (c : CoreRun) (pos : Nat) : List Nat := j.validCols (kget c.masks pos (2 ^ 256 - 1, false)).1

/-- Keep only valid columns. -/
def onCols (cols : List Nat) (l : List Int) : List (Option Int) :=
  l.zipIdx.map (fun z => if cols.contains z.2 then some z.1 else none)

/-- The first pass of an N tile: Fw and the masks of its columns (R49, R99). -/
def tileBegin (j : Job) : CoreAct Unit := do
  loadFw j
  let e ← get
  let masks ← colMasks j e.c.rows
  modify (fun e => { e with c := { e.c with masks := e.c.rows.foldl (fun m pos => kset m pos (masks pos)) [] } })

/-- One DOT pass; `hurt` says that a fault in the datapath broke the residue identity. -/
def dotPass (j : Job) (p : PassD) (hurt : Bool) : CoreAct Unit := do
  let t ← passTile j p.plane
  let e ← get
  let n := j.t.storedWidth
  let low := decide (2 ≤ j.t.product) && decide (j.t.product ≤ 4) && p.plane == 1
  if t.bad.isSome then poisonSets (p.sets.map (·.1)) e.c.rows
  let oks ← e.c.rows.mapM (fun pos => do
    let q := passRow e.c p.act pos
    let dl := (List.range 256).map (fun c => dotDelta q t n low (j.wshift t e.c.fw c) j.kt c)
    let cols := j.rowCols e.c pos
    p.sets.forM (fun s => accRow 0 (s.1 * 2 ^ 32 + pos) (onCols cols (dl.map (fun v => s.2 * v * (2 ^ p.shift : Nat)))))
    pure (decide (residueOf q t j.kt = j.actualOf q t low dl)))
  if hurt || oks.any (fun b => !b) then residueFault j (p.sets.map (·.1)) 1

/-- One distance pass (R74 to R76). `wrong` is a column that comes out wrong in every row: the checker of R81 recomputes one
column of the pass, and finds it only there. -/
def distPass (j : Job) (wrong : Option (Nat × Int)) : CoreAct Unit := do
  let t ← passTile j 0
  let e ← get
  if t.bad.isSome then poisonBand j
  e.c.rows.forM (fun pos => do
    let z := distRow (kget e.c.raw pos []) t j.kt j.kB
    if j.nt = 0 then countCore j ctSat z.2
    let dl := (List.range 256).map (fun c => (distDelta j.t.arrayOp z.1 t j.t.width j.kt j.kB e.c.fw c).getD 0
      + (match wrong with
         | some w => if w.1 = c then w.2 else 0
         | none => 0))
    accRow j.t.arrayOp pos (onCols (j.rowCols e.c pos) dl))
  match wrong with
  | some w =>
    if w.1 = (e.d.core j.g).colIdx ∧ w.2 ≠ 0 ∧ !e.c.rows.isEmpty then
      poisonBand j
      countCore j ctDist 1
      coreFault j caDistance
  | none => pure ()
  modify (fun e => { e with d := e.d.modCore j.g (fun x => { x with colIdx := (x.colIdx + 1) % 256 }) })

/-- The FP32 value of an accumulated element (R49, R75); a multi-word product has the exponents 0x80 (R70). -/
def accValue (op : Nat) (v : Int) (fa fw : Nat) : F32 :=
  match op with
  | 0 => intToF32 v ((fa : Int) + fw - 256)
  | 4 => intToF32 v (2 * ((fw : Int) - 128))
  | _ => intToF32 v ((fw : Int) - 128)

/-- A row of an accumulator set as the epilogue takes it: FP32 in the valid columns (R49). -/
def Job.outRow (j : Job) (c : CoreRun) (cols : List Nat) (set pos : Nat) : List (Option Val) :=
  let q := kget c.q pos {}
  let a := kget c.acc (set * 2 ^ 32 + pos) []
  (List.range (min 256 (j.nB - 256 * j.nt))).map (fun i =>
    if cols.contains i then
      some { fmt := 0, w := if q.nan then f32NaN else accValue j.t.arrayOp ((a.getD i none).getD 0) q.fl (c.fw.getD i 0) }
    else none)

end Sys2Proof.Machine
end

