-- ==== Sys2Proof/Machine/Epi.lean ====
section
/-!
DEFINITION. The epilogue (R49, R79, R135, R139 to R149): output rows, row-closing stages, stores, and one tile pass of a
matrix program from its prologue to its last store.
-/

namespace Sys2Proof.Machine

/-- A generator, or one that reaches nothing. -/
def TileProg.genAt (t : TileProg) (i : Nat) : GenD :=
  t.gens.getD i { base := 0, strides := [], space := 0, grole := 0, fmt := 0, wr := false, sel := 0, layout := 0,
                  rows := 1, cols := 1 }

/-- The output generators: the one that the descriptor of a scan or an attention program names (R157, R192), else those of
role 2: one, or the real and the imaginary plane of a complex product in generator order. -/
def Job.outs (j : Job) (part : Nat) : List GenD :=
  let l := (j.t.byRole 2).map (·.2)
  match j.t.kind with
  | .scan => (j.t.gen (j.t.d8 12)).toList
  | .attention => [j.t.genAt (parseAttn j.t.desc).outGen]
  | _ => if j.t.complex then (l.drop part).take 1 else l

/-- A band row that ends as poison in a part of the result: a complex product keeps a poison bit for each part (R67). -/
def CoreRun.rowBad (c : CoreRun) (part pos : Nat) : Bool :=
  let k := part * 2 ^ 32 + pos
  c.accBad.contains k || c.holdBad.contains k || (kget c.q pos {}).bad || (kget c.q (2 ^ 32 + pos) {}).bad

/-- The addresses of a row of an output, column by column. -/
def Job.outAddrs (j : Job) (e : Ex) (g : GenD) (pos : Nat) (tiles : List (Nat × Nat)) : List Nat :=
  let b := (j.base e g pos).1
  let row := if j.byCtx g then j.rowIn pos else pos
  tiles.flatMap (fun t => (List.range t.2).map (fun c => (j.addr g b row 2 t.1 c).getD 0))

/-- The element index of a column of a row (R145). -/
def Job.elemOf (j : Job) (pos col : Nat) : Nat := j.rowIn pos * j.nB + col

/-- One value in the output format (R141, R145): its pattern and saturations. -/
def Job.outVal (j : Job) (e : Ex) (fmt pos el : Nat) (bad : Bool) (v : Val) : Nat × Nat :=
  if bad then (poisonFill fmt, 0)
  else if fmt = 1 ∧ j.lay.sround ∧ v.fmt ≠ 1 then
    (srBf16 v.widen (j.draw16 e pos el ((j.t.epi.filter (fun s => s.kind == 11)).length)), 0)
  else let z := v.conv fmt; (z.1.w, z.2)

/-- Where a generator writes a row: its base, and the anchor slot of R183. -/
def Job.outBases (j : Job) (e : Ex) (g : GenD) (pos : Nat) : List Nat :=
  let z := j.base e g pos
  z.1 :: z.2.toList

/-- Store the present columns of a row; `el` numbers the element of a column. -/
def storeRow (j : Job) (g : GenD) (pos : Nat) (tiles : List (Nat × Nat)) (el : Nat → Nat) (vals : List (Option Val))
    (bad : Bool) : CoreAct Unit := do
  let e ← get
  let row := if j.byCtx g then j.rowIn pos else pos
  let cols := tiles.flatMap (fun t => (List.range t.2).map (fun c => (t.1, c)))
  let zs := (vals.zip cols).zipIdx.filterMap (fun z => z.1.1.map (fun v =>
    (z.1.2, j.outVal e g.fmt pos (el z.2) (bad || e.x.allBad) v)))
  countCore j ctSat ((zs.map (fun z => z.2.2)).foldl (· + ·) 0)
  (j.outBases e g pos).forM (fun b =>
    storeElems j g (fmtBytes g.fmt) g.fmt
      (zs.filterMap (fun z => (j.addr g b row 2 z.1.1 z.1.2).map (fun a => (a, z.2.1)))))

/-- Bytes of a space that a store changes in part. -/
def mergeBytes (j : Job) (g : GenD) (fmt : Nat) (l : List (Nat × (Nat → Nat))) : CoreAct Unit := do
  let zs ← l.mapM (fun z => do
    let r ← spaceRead j g.space z.1 1 false
    pure (z.1, z.2 (leNat r.bytes)))
  storeElems j g 1 fmt zs

/-- A row in an A-format (R41, R149), laid out as `storedPlane` reads it; masked columns are not written. A poisoned block of
the adaptive form has mode bit 0 (DESIGN CHOICE, log 91). -/
def storeQuant (j : Job) (g : GenD) (pos : Nat) (q : QRow) (live : List Bool) (bad : Bool) : CoreAct Unit := do
  let e ← get
  let nb := ceilDiv live.length 32
  let row := if j.byCtx g then j.rowIn pos else pos
  let off := j.outerOff g + j.rowOff g row
  let four := g.fmt == 6
  let el := if four then 16 * nb else 32 * nb
  let bad := bad || e.x.allBad
  let v (i : Nat) : Nat := if bad then 0 else unsigned 8 (q.q.getD i 0)
  let on (i : Nat) : Bool := live.getD i false
  let blk := (List.range nb).filter (fun b => (List.range 32).any (fun i => on (32 * b + i)))
  (j.outBases e g pos).forM (fun base => do
    let b := addrAdd base off
    if four then
      mergeBytes j g 5 (((List.range (16 * nb)).filter (fun i => on (2 * i) || on (2 * i + 1))).map (fun i =>
        (b + i, fun old =>
          (if on (2 * i) then v (2 * i) % 16 else old % 16) + 16 * (if on (2 * i + 1) then v (2 * i + 1) % 16 else old / 16))))
    else
      storeElems j g 1 5 (((List.range live.length).filter on).map (fun i => (b + i, v i)))
    storeElems j g 1 11 (blk.map (fun k => (b + el + k, if bad then 0xFF else q.x.getD k 0)))
    if g.fmt = 7 then
      mergeBytes j g 5 (((List.range (ceilDiv nb 8)).filter (fun i => blk.any (fun k => k / 8 == i))).map (fun i =>
        (b + el + nb + i, fun old => ((List.range 8).map (fun k =>
          let z := 8 * i + k
          b2n (if blk.contains z then !bad && q.a4.getD z true else bit old k) * 2 ^ k)).foldl (· + ·) 0))))

/-- A last QUANT on a held row (R149). -/
def quantRowOut (j : Job) (part : Nat) (s : StageD) (pos : Nat) (vals : List (Option Val)) (bad : Bool) : CoreAct Unit := do
  let p : QuantP := { mode := s.p0 % 4, g := s.p0 / 4 % 4, t := s.p0 / 16 % 64 }
  let z := quantRow p [vals.map (fun v => (v.map Val.widen).getD 0)]
  countCore j ctSat z.2.sat
  countCore j ctProm z.2.prom
  (j.outs part).forM (fun g => storeQuant j g pos (z.1.headD {}) (vals.map Option.isSome) bad)

/-- A last ARGSEL on a held row (R148). -/
def argRowOut (j : Job) (part : Nat) (s : StageD) (pos : Nat) (vals : List (Option Val)) (bad : Bool) : CoreAct Unit := do
  let e ← get
  let bad := bad || e.x.allBad
  let best := bestOf (bit s.sflags 0) s.p0 (vals.map (fun v => v.map Val.widen))
  let put (g : GenD) (fmt : Nat) (f : Nat → Nat) : CoreAct Unit := do
    let e ← get
    let row := if j.byCtx g then j.rowIn pos else pos
    (j.outBases e g pos).forM (fun b =>
      storeElems j g 4 fmt ((List.range s.p0).filterMap (fun i => (j.addr g b row 2 0 i).map (fun a => (a, f i)))))
  (j.outs part).forM (fun g => put g 12 (fun i => if bad then 0xFFFFFFFF else ((best[i]?).map (·.2)).getD 0xFFFFFFFF))
  if bit s.sflags 1 then
    match j.t.byRole 7 with
    | (_, g) :: _ => put g 0 (fun i => if bad then f32NaN else ((best[i]?).map (·.1)).getD f32NaN)
    | [] => pure ()

/-- Values of an epilogue row: chain run, saturations counted. -/
def chainRow (j : Job) (sts : List (StageD × Nat)) (vecs : StageVecs) (part pos : Nat)
    (tiles : List (Nat × Nat)) (el : Nat → Nat) (vals : List (Option Val)) : CoreAct ChainRow := do
  let e ← get
  let skip := match j.outs part with
    | g :: _ => liveAddrs (vals.map Option.isSome) ((j.outAddrs e g pos tiles).map some)
    | [] => []
  let c ← runStages j e.d.trust.ftLevel sts j.t.epi vecs pos 2 tiles skip el { vals := vals }
  countCore j ctSat c.sat
  pure { c with sat := 0 }

/-- Hold a row for the row-closing stage that comes next (R146). -/
def holdRow (j : Job) (part pos : Nat) (f : Nat) (fresh : Bool) (c : ChainRow) (bad : Bool) : CoreAct Unit := do
  let h := c.toHold f
  countCore j ctSat h.sat
  modify (fun e =>
    let key := part * 2 ^ 32 + pos
    let old := if fresh then [] else kget e.c.hold key []
    { e with c := { e.c with hold := kset e.c.hold key (old ++ h.vals)
                             holdBad := if bad || c.bad then insertSorted key e.c.holdBad else e.c.holdBad } })

/-- The live columns of a band: those that some row uses. -/
def anyLive (l : List (List (Option Val))) : List Bool :=
  match l with
  | [] => []
  | x :: r => r.foldl (fun a y => (a.zip y).map (fun z => z.1 || z.2.isSome)) (x.map Option.isSome)

/-- The finishing passes of a band (R146, R152). -/
def finishBand (j : Job) (part : Nat) : Nat → List (StageD × Nat) → CoreAct Unit
  | 0, _ => pure ()
  | _ + 1, [] => pure ()
  | fuel + 1, s :: more => do
    let e ← get
    let rows := e.c.rows
    let held (e : Ex) (pos : Nat) : List (Option Val) := kget e.c.hold (part * 2 ^ 32 + pos) []
    if s.1.kind = 9 then
      let seg := more.takeWhile (fun z => !rowClosing z.1.kind)
      let rest := more.dropWhile (fun z => !rowClosing z.1.kind)
      let tiles := tileCols j.nB
      let vecs ← stageVecs j seg rows 2 tiles (fun l => anyLive (l.map (held e)))
      rows.forM (fun pos => do
        let e ← get
        let c ← chainRow j seg vecs part pos tiles (fun i => j.elemOf pos i) (rowNorm s.1 (held e pos))
        let bad := e.c.holdBad.contains (part * 2 ^ 32 + pos) || c.bad
        match rest with
        | [] => (j.outs part).forM (fun g => storeRow j g pos tiles (fun i => j.elemOf pos i) c.vals bad)
        | r :: _ => holdRow j part pos r.1.ifmt true c bad)
      finishBand j part fuel rest
    else
      rows.forM (fun pos => do
        let e ← get
        let bad := e.c.holdBad.contains (part * 2 ^ 32 + pos)
        if s.1.kind = 8 then quantRowOut j part s.1 pos (held e pos) bad
        else argRowOut j part s.1 pos (held e pos) bad)

/-- The parts of a result: one, or the real and the imaginary one. -/
def Job.parts (j : Job) : List Nat := if j.t.complex then [0, 1] else [0]

/-- The epilogue of one N tile on the rows that `vals` gives (R135); `vecs` are the vectors of the stages before the
first row-closing one. -/
def epilogueRows (j : Job) (vecs : StageVecs) (vals : Nat → Nat → List (Option Val)) (el : Nat → Nat → Nat) (bad : Nat → Nat → Bool) :
    CoreAct Unit := do
  let e ← get
  let rows := e.c.rows
  let sts := numbered j.t.epi
  let seg := sts.takeWhile (fun z => !rowClosing z.1.kind)
  let rest := sts.dropWhile (fun z => !rowClosing z.1.kind)
  let tiles := [(j.nt, min 256 (j.nB - 256 * j.nt))]
  j.parts.forM (fun part => rows.forM (fun pos => do
    let c ← chainRow j seg vecs part pos tiles (el pos) (vals part pos)
    match rest with
    | [] => (j.outs part).forM (fun g => storeRow j g pos tiles (el pos) c.vals (bad part pos || c.bad))
    | r :: _ => holdRow j part pos r.1.ifmt (j.nt == 0) c (bad part pos)))

/-- The vectors of the stages before the first row-closing one. -/
def tileVecs (j : Job) (vals : Nat → List (Option Val)) : CoreAct StageVecs := do
  let e ← get
  stageVecs j ((numbered j.t.epi).takeWhile (fun z => !rowClosing z.1.kind)) e.c.rows 2
    [(j.nt, min 256 (j.nB - 256 * j.nt))] (fun l => anyLive (l.map vals))

/-- The epilogue after the last K pass of an N tile, and the finishing passes after the last N tile. -/
def epilogueTile (j : Job) : CoreAct Unit := do
  let e ← get
  let c := e.c
  let vals (part pos : Nat) : List (Option Val) := j.outRow c (j.rowCols c pos) part pos
  let vecs ← tileVecs j (vals 0)
  epilogueRows j vecs vals
    (fun pos i => j.elemOf pos (256 * j.nt + i)) (fun part pos => c.rowBad part pos || (kget c.masks pos (0, false)).2)
  if ceilDiv j.nB 256 ≤ j.nt + 1 then
    j.parts.forM (fun part => finishBand j part 3 ((numbered j.t.epi).dropWhile (fun z => !rowClosing z.1.kind)))

/-! Faults of the core (R79, R81 to R83, R468). -/

/-- The row that a band row stands for: the rows of an attention unit are its tokens (R186). -/
def Job.bandPos (j : Job) (c : CoreRun) (row : Nat) : Nat :=
  if j.t.kind = .attention then c.rows.getD row (2 ^ 40) else j.band * j.t.bandRows + row

/-- The band rows that block `block` of the K tile in a row of the activation buffer feeds: the row, and its partner where the
lane carries both (R62, R83). -/
def Job.fedBy (j : Job) (c : CoreRun) (row block : Nat) : List Nat :=
  let pos := j.bandPos c row
  let twin := j.bandPos c (if row % 2 = 0 then row + 1 else row - 1)
  let p (r : Nat) : Bool := ((kfind c.q r).map (fun q => q.a4.getD (8 * j.kt + block) true)).getD true
  let paired := !j.t.multiWord && j.t.arrayOp == 0 && j.t.product != 6
    && decide (row / 2 * 2 + 1 < (if j.t.kind = .attention then c.rows.length else j.bandBound)) && p pos && p twin
  (if paired then [pos, twin] else [pos]).filter (fun r => c.rows.contains r)

/-- The rows of a window program's band whose taps read grid element (y, x) of an image (R83, R211). -/
def Job.stageFeeds (j : Job) (c : CoreRun) (img y x : Nat) : List Nat :=
  match j.t.window j.img with
  | none => []
  | some w => c.rows.filter (fun pos =>
      (List.range (w.kh * w.kw)).any (fun k =>
        let t := w.tap (if j.roll then j.rowIn pos else pos) (k * w.cg)
        t.1 == img && t.2.1 == some y && t.2.2.1 == some x))

/-- The accumulator row that row `row` of the band's slot groups holds (R114): its key. -/
def Job.slotKey (j : Job) (row : Nat) : Nat := j.spillKey (row / 256) (row % 256)

/-- A double-bit error in a memory of the core (R83). -/
def sramFault (j : Job) (rows keys : List Nat) : CoreAct Unit := do
  poisonRows j rows
  modify (fun e => { e with c := { e.c with accBad := keys.foldl (fun a r => insertSorted r a) e.c.accBad } })
  countCore j ctSram 1
  coreFault j caSramEcc

/-- A generator of the program lies in an SRAM space: a scan or a vector program holds its operands there (R83, R93). -/
def Job.uses (j : Job) (space : Nat) : Bool := j.t.gens.any (fun g => g.space == space)

/-- Passes through the array of one unit of an attention program: a score pass and a value pass for each 256 keys. -/
def unitPasses (keys : Nat) : Nat := 2 * ceilDiv keys 256

/-- What a detected fault does while the pass runs; one that the pass gives no occasion for does nothing. Faults of the
array of a matrix program act in the pass itself. -/
def applyFault (j : Job) (f : PassFault) (passes : Nat := 1) : CoreAct Unit := do
  let e ← get
  let arr := j.t.kind == .dot || j.t.kind == .attention
  match f with
  | .residue n => if j.t.kind = .attention ∧ n ≠ 0 then residueFault j [0] (min n passes)
  | .sramWeight => if arr || j.uses 3 then sramFault j e.c.rows []
  | .sramAct row block => if arr || j.uses 2 then sramFault j (j.fedBy e.c row block) []
  | .sramStage i y x => if j.t.kind = .dot ∧ (j.t.window j.img).isSome then sramFault j (j.stageFeeds e.c i y x) []
  | .sramAcc row =>
    if j.t.kind = .dot then sramFault j [] ([j.slotKey row].filter (fun k => e.c.rows.contains (k % 2 ^ 32)))
    else if arr || j.uses 4 then sramFault j ([j.bandPos e.c row].filter (fun r => e.c.rows.contains r)) []
  | .prologue =>
    if arr then
      poisonBand j
      coreFault j caDup
  | .epilogue =>
    if arr then
      poisonBand j
      coreFault j caDup
  | .vector =>
    modify (fun e => { e with x := { e.x with allBad := true } })
    coreFault j caDup
  | .sequencer =>
    modify (fun e => { e with x := { (e.x.kill {}) with allBad := true }, c := { e.c with todo := [], done := true } })
    coreFault j caDup
  | .distance _ _ => pure ()
  | .duplicate _ _ => pure ()
  | .sigStep gen delta =>
    if gen < j.t.gens.length then
      modify (fun e =>
        let m := kmod e.c.sigs (j.key * 8 + gen) 0 (fun v => (v + delta) % 2 ^ 64)
        { e with c := { e.c with sigs := m } })

/-! Duplicate distance runs (R82). -/

/-- The second core of the pair that a core belongs to. -/
def Run.twinOf (x : Run) (g : Nat) : Option CoreRun := x.cores.find? (fun c => decide (65536 ≤ c.rank) && c.core / 8 == g / 8)

/-- Work that the second core of the pair does with the same inputs; it stores nothing. -/
def onTwin (j : Job) (act : Job → CoreAct Unit) : CoreAct Unit := do
  let e ← get
  match e.x.twinOf j.g with
  | none => pure ()
  | some t =>
    set { e with c := t }
    act { j with g := t.core, shadow := true }
    modify (fun z => { z with
      x := { z.x with cores := z.x.cores.map (fun k => if k.rank = t.rank then z.c else k) }, c := e.c })

/-- The epilogue compares the two outputs of a pair before any write: a difference poisons the band, and both cores count. -/
def compareTwin (j : Job) : CoreAct Unit := do
  let e ← get
  match e.x.twinOf j.g with
  | none => pure ()
  | some t =>
    let out (c : CoreRun) (pos : Nat) : Bool × List (Option Val) :=
      let bad := c.rowBad 0 pos
      (bad, if bad then [] else j.outRow c (j.rowCols c pos) 0 pos)
    if e.c.rows.any (fun pos => out e.c pos != out t pos) then
      poisonBand j
      modify (fun e => { e with d := (e.d.count (unitCore j.g) ctDist 1).count (unitCore t.core) ctDist 1 })
      coreFault j caDup

/-- The array's part of one tile pass of a matrix program: the prologue of its band, the pass, and the spills around it. -/
def bandPass (j : Job) (flt : Option PassFault) : CoreAct Unit := do
  if j.kt = 0 ∧ j.w.pass = 0 then
    if j.nt = 0 then prologueBand j
    else modify (fun e => { e with c := { e.c with acc := [], accBad := [] } })
    tileBegin j
  spillBegin j
  if j.t.arrayOp = 0 then
    match (passesOf j.t.product)[j.w.pass]? with
    | some p => dotPass j p (match flt with
        | some (.residue n) => n != 0
        | _ => false)
    | none => pure ()
  else distPass j (match flt, j.shadow with
    | some (.distance c v), false => some (c, v)
    | some (.duplicate c v), true => some (c, v)
    | _, _ => none)
  spillEnd j

/-- One tile pass of a matrix program. -/
def dotWork (j : Job) (flt : Option PassFault) : CoreAct Unit := do
  bandPass j flt
  if j.t.arrayOp ≠ 0 then onTwin j (fun j => bandPass j flt)
  noteCycles j
  match flt with
  | some f => applyFault j f
  | none => pure ()
  if ceilDiv j.kB 256 ≤ j.kt + 1 ∧ (j.t.arrayOp ≠ 0 ∨ (passesOf j.t.product).length ≤ j.w.pass + 1) then
    noteWait j
    if j.t.arrayOp ≠ 0 then compareTwin j
    epilogueTile j

end Sys2Proof.Machine
end

