-- ==== Sys2Proof/Machine/Attn.lean ====
section
/-!
DEFINITION. Attention programs (R178 to R193): the ring quantizer, scores, the three sweeps, the value product, and
their stores. One piece of work is one unit: a head and a query block of a context.
-/

namespace Sys2Proof.Machine

/-- The ring header of a context of the batch, as read at the start. -/
def ringHeader (c : CoreRun) (q : Nat) : Bytes := kget c.hdrs (2 ^ 64 + q) []

/-- A quantized vector of one column group (R189): mode A8. -/
def ringVector (xs : List F32) : QRow := ((quantRow { mode := 1 } [xs]).1).headD {}

/-- The exact product of two quantized vectors (R49), one rounding. -/
def unitDot (a w : QRow) : F32 :=
  let v : Int := ((List.range a.x.length).map (fun b =>
    let s : Int := ((List.range 32).map (fun i => a.q.getD (32 * b + i) 0 * w.q.getD (32 * b + i) 0)).foldl (· + ·) 0
    s * (2 ^ ((a.x.getD b a.fl - a.fl) + (w.x.getD b w.fl - w.fl)) : Nat))).foldl (· + ·) 0
  intToF32 v ((a.fl : Int) + w.fl - 256)

/-- What the three sweeps make of a row of scores (R191): probabilities, or none for a row that is not a number. -/
def sweeps (ft : Nat) (scale : F32) (s : List F32) (present : List Bool) : Option (List F32) :=
  let x := (s.zip present).map (fun z => if z.2 then some (fmul z.1 scale) else none)
  if x.any (fun v => match v with
      | some w => !f32IsFinite w
      | none => false) then none
  else
    let m := (reduce256 fmax x).getD 0
    let e := x.map (fun v => v.map (fun w => fexp ft (fsub w m)))
    let z := (reduce256 fadd e).getD 0
    some (e.map (fun v => match v with
      | some w => fdiv w z
      | none => 0))

/-- One query row of a unit (R190, R191): its quantized head, poison. -/
def queryRow (j : Job) (a : AttnD) (h pos : Nat) : CoreAct (QRow × Bool) := do
  let g := j.t.gens.getD a.qGen (parseGen [] 0)
  if fmtA g.fmt then
    let r ← storedRun j g pos (a.heads * a.hd) (h * a.hd) a.hd
    let z := storedRow [r.1]
    countCore j ctSat r.2.1
    countQuant j z.2
    notePromotions j pos z.2
    pure (z.1.headD {}, r.2.2)
  else
    let v ← rowElems j g pos 3 0 a.hd
    let xs := toF32s g.fmt v
    let z := quantRow { mode := j.lay.mode, g := j.lay.g, t := j.lay.t } [xs.map (fun x => x.getD f32NaN)]
    countQuant j z.2
    notePromotions j pos z.2
    pure (z.1.headD {}, xs.any Option.isNone)

/-- One plane of the ring for the keys of a list: a vector per key; none where an element is poison. -/
def ringPlane (j : Job) (g : GenD) (base : Nat) (r : RingD) (h : Nat) (value : Bool) (keys : List Key) :
    CoreAct (List (List (Option F32))) :=
  keys.mapM (fun k => do
    let a := base + r.slotOf k + (if value then r.kp else 0) + r.elem h k.2.2 0
    let vs ← loadElems j g ((List.range r.hd).map (fun c => a + c * r.es))
    pure (toF32s g.fmt (vs.map some)))

/-- A score block in device memory (R193): what each sweep moves. -/
def spillRow (j : Job) (g : GenD) (npad i : Nat) (rows : List (List F32)) : CoreAct Bool := do
  let e ← get
  let b := addrAdd (j.base e g (j.w.entry * max 1 j.rows)).1 (j.outerOff g)
  let put (l : List F32) : CoreAct Unit :=
    storeElems j g 4 0 (l.zipIdx.map (fun z => (b + (i * npad + z.2) * 4, z.1)))
  let step (bad : Bool) (l : List F32) : CoreAct Bool := do
    let vs ← loadElems j { g with fmt := 0 } ((List.range l.length).map (fun k => b + (i * npad + k) * 4)) false
    put l
    pure (bad || vs.any Option.isNone)
  match rows with
  | [] => pure false
  | s :: rest => do
    put s
    rest.foldlM step false

/-- One unit of an attention program. Channel c of head h is column h * HEAD_DIM + c of a query or an output row, and of the
vectors of its stages, and numbers the draws as that column of a row of HEADS * HEAD_DIM (DESIGN CHOICE, log 67). A GRAPH_RUN has
no context and no step: every core runs every unit on the ring behind its own instance base at step 0 (DESIGN CHOICE, log 49). -/
def attnWork (j0 : Job) (flt : Option PassFault) : CoreAct Unit := do
  let a := parseAttn j0.t.desc
  let q := j0.w.entry
  let e ← get
  let r := parseRing (ringHeader e.c q)
  let t := e.x.steps.getD q 0
  let blks := a.blocks r
  let h := j0.w.pass / blks.length
  let blk := blks.getD (j0.w.pass % blks.length) none
  let j := { j0 with rows := if j0.rows = 0 then 0 else max j0.rows r.tokens, head := h * a.hd }
  let toks := blockTokens r blk
  let pos (n : Nat) : Nat := q * j.rows + n
  modify (fun e => { e with c := { e.c with rows := toks.map pos, accBad := [], holdBad := [], q := [], hold := [] } })
  let kept ← (j.predsOf 2).foldlM (fun (acc : List Nat × List Nat) p => do
    match j.t.gen p.pgen with
    | some g =>
      let m ← maskRows { j with rows := 0 } g (List.range toks.length)
      let good := acc.1.filter (fun n => m.1.contains (toks.idxOf n))
      pure (good, acc.2 ++ good.filter (fun n => m.2.contains (toks.idxOf n)))
    | none => pure acc) (toks, [])
  let rows := kept.1.map pos
  modify (fun e => { e with c := { e.c with rows := rows, holdBad := kept.2.map pos } })
  let keys := a.keys r t blk
  let g := j.t.gens.getD a.ringGen (parseGen [] 0)
  let base := addrAdd (j.base e g (pos 0)).1 (j.outerOff g)
  let kv ← ringPlane j g base r h false keys
  let vv ← ringPlane j g base r h true keys
  let val (x : Option F32) : F32 := x.getD 0
  let poisoned := (kv ++ vv).any (fun l => l.any Option.isNone)
  let nonfinite := (kv ++ vv).any (fun l => l.any (fun x => match x with
    | some w => !f32IsFinite w
    | none => false))
  if poisoned then poisonBand j
  let kq := kv.map (fun l => ringVector (l.map val))
  let vq := (List.range a.hd).map (fun c => ringVector (vv.map (fun l => val (l.getD c none))))
  let npad := 256 * ceilDiv a.maxKeys 256
  let spill := decide (8388608 < j.t.bandRows * npad * 4)
  let outs ← rows.zipIdx.mapM (fun z => do
    let n := j.rowIn z.1
    let qr ← queryRow j a h z.1
    if qr.2 then poisonRows j [z.1]
    let s := kq.map (fun k => if qr.1.nan then f32NaN else unitDot qr.1 k)
    let pres := keys.map (a.present r n)
    let e ← get
    let p := sweeps e.d.trust.ftLevel a.scale s pres
    let pr := p.getD (s.map (fun _ => f32NaN))
    (match spill, j.t.gen a.spillGen with
     | true, some g => do
       let bad ← spillRow j g npad z.2 [s, s, s, pr]
       if bad then poisonRows j [z.1]
     | _, _ => pure ())
    match p with
    | none => pure (List.replicate a.hd f32NaN)
    | some p =>
      if nonfinite then pure (List.replicate a.hd f32NaN)
      else
        let pq := ringVector p
        pure (vq.map (fun v => unitDot pq v)))
  countCore j ctStall j.env.stall
  match flt with
  | some f => applyFault j f (unitPasses keys.length)
  | none => pure ()
  let e ← get
  let masks ← colMasks { j with rows := 0 } [0]
  let m := masks 0
  let vals (_ p : Nat) : List (Option Val) :=
    let o := outs.getD (rows.idxOf p) []
    (List.range a.hd).map (fun c => if bit m.1 c then some { fmt := 0, w := o.getD c 0 } else none)
  let vecs ← tileVecs j (vals 0)
  epilogueRows j vecs vals (fun p c => j.rowIn p * (a.heads * a.hd) + h * a.hd + c) (fun part p => e.c.rowBad part p || m.2)

end Sys2Proof.Machine
end

