-- ==== Sys2Proof/Machine/Scan.lean ====
section
/-!
DEFINITION. Scan programs (R156 to R172): the coefficients, the prefix tree of a chunk, reset marks, state read and
write-back, and the sums of the state-norm monitor.
-/

namespace Sys2Proof.Machine

/-- A scan descriptor (R157). -/
structure ScanD where
  form : Nat
  len : Nat
  reverse : Bool
  perHead : Bool
  nearest : Bool
  norm : Bool
  hold : Bool
  hd : Nat
  aGen : Nat
  bGen : Nat
  sin : Nat
  sout : Nat
  yGen : Nat
  reset : Nat
  lam : Nat
  lo : Nat
  hi : Nat
  deriving DecidableEq, Repr

def parseScan (b : Bytes) : ScanD :=
  let f := byteAt b 2
  { form := byteAt b 0, len := 2 ^ byteAt b 1, reverse := bit f 0, perHead := bit f 1, nearest := bit f 2,
    norm := bit f 3, hold := bit f 4, hd := field b 4 2, aGen := byteAt b 8, bGen := byteAt b 9, sin := byteAt b 10,
    sout := byteAt b 11, yGen := byteAt b 12, reset := byteAt b 13, lam := byteAt b 14, lo := field b 0x10 4,
    hi := field b 0x14 4 }

/-- One position of a chunk: a, b and the reset flag. -/
abbrev ScanPos := F32 × F32 × Bool

/-- One level of the tree: position i takes in position i - d of the level before (R160). -/
def scanLevel (d : Nat) (l : List ScanPos) : List ScanPos :=
  l.zipIdx.map (fun z =>
    let x := z.1
    if z.2 < d ∨ x.2.2 then x
    else
      let p := l.getD (z.2 - d) (0, 0, false)
      (fmul x.1 p.1, ffma x.1 p.2.1 x.2.1, p.2.2))

/-- The levels of a chunk, from distance `d`. -/
def scanLevels : Nat → Nat → List ScanPos → List ScanPos
  | 0, _, l => l
  | fuel + 1, d, l => if d < l.length then scanLevels fuel (2 * d) (scanLevel d l) else l

/-- The states of a chunk's positions from the carry `h` (R160). -/
def chunkStates (h : F32) (l : List ScanPos) : List F32 :=
  (scanLevels 7 1 l).map (fun x => if x.2.2 then x.2.1 else ffma x.1 h x.2.1)

/-- Scan new positions after the pending ones of the current chunk: their states, the carry into the chunk that is open
at the end, and that chunk's positions. `n` bounds the chunks. -/
def scanOn (len : Nat) : Nat → F32 → List ScanPos → List ScanPos → List F32 × F32 × List ScanPos
  | 0, h, pend, _ => ([], h, pend)
  | n + 1, h, pend, new =>
    if new.isEmpty then ([], h, pend)
    else
      let k := len - pend.length
      let l := pend ++ new.take k
      let hs := chunkStates h l
      let r := if l.length < len then ([], h, l) else scanOn len n (hs.getLastD h) [] (new.drop k)
      (hs.drop pend.length ++ r.1, r.2)

/-- a and b of one position (R159). -/
def scanCoeff (ft form : Nat) (a b lam : F32) : F32 × F32 :=
  match form with
  | 1 => (a, fmul (fsub 0x3F800000 a) b)
  | 2 => (fexp ft (fneg (fmul a lam)), b)
  | _ => (a, b)

/-- The carry of a stream's channel as kept between time tiles. -/
def packCarry (h : F32) (l : List ScanPos) : List Nat := h :: l.flatMap (fun p => [p.1, p.2.1, b2n p.2.2])

/-- Positions kept by `packCarry`. -/
def carryPos : Nat → List Nat → List ScanPos
  | n + 1, a :: b :: f :: l => (a, b, f == 1) :: carryPos n l
  | _, _ => []

/-- Values of a generator at columns of the N tile, as FP32. -/
def scanElems (j : Job) (g : GenD) (pos : Nat) (cols : List Nat) (seen : Bool := true) : CoreAct (List (Option F32)) := do
  let e ← get
  let b := (j.base e g pos).1
  let row := if j.byCtx g then j.rowIn pos else pos
  let vs ← loadElems j g (cols.map (fun c => (j.addr g b row 2 j.nt c).getD 0)) seen
  pure (toF32s g.fmt (vs.map some))

/-- The reset word of a stream's time tile (R158): streams lie STRIDE / BAND_ROWS apart (DESIGN CHOICE, log 66). -/
def resetWord (j : Job) (s : ScanD) (pos : Nat) : CoreAct (Option Nat) := do
  match j.t.gen s.reset with
  | none => pure (some 0)
  | some g =>
    let e ← get
    let row := if j.byCtx g then j.rowIn pos else pos
    let o := j.outerOff g + (row : Int) * (j.t.strideOn g 1 / (j.t.bandRows : Int)) + (j.nt : Int) * j.t.strideOn g 2
      + (j.kt : Int) * j.t.strideOn g 3
    let a := addrAdd (j.base e g pos).1 o
    noteOperands j g.space [(a, 32)]
    let r ← operandRead j g.space a 32 32
    pure (if r.bad.isEmpty then some (leNat r.bytes) else none)

/-- Addresses of a stream's state for the channels of the tile. -/
def Job.stateAddrs (j : Job) (e : Ex) (g : GenD) (pos : Nat) (cols : List Nat) : List Nat :=
  let b := (j.base e g pos).1
  let row := if j.byCtx g then j.rowIn pos else pos
  cols.map (fun c => (j.addr g b row 2 j.nt c).getD 0)

/-- What a row's norm counts for (R171): its context, and outside a rollout the row itself, within its core and list entry. -/
def Job.normKey (j : Job) (rank pos : Nat) : Nat :=
  if j.roll then j.key * 2 ^ 96 + j.ctxOf pos
  else (j.key * 2 ^ 32 + rank) * 2 ^ 64 + (if j.entry.isSome then j.w.entry else 0) * 2 ^ 32 + pos

/-- The write-back that a piece of work belongs to: the iterations of the loops outside the band loop. -/
def Job.writeBack (j : Job) : Nat := (j.t.outer.map (fun l => j.w.idx.getD l 0)).foldl (fun a i => a * 2 ^ 32 + i) 0

/-- Write-back of a stream's final carry, and its tile sum (R166, R171). -/
def scanStore (j : Job) (s : ScanD) (pos : Nat) (cols : List Nat) (hs : List F32) (bad : Bool) : CoreAct Unit := do
  let e ← get
  let g := j.t.genAt s.sout
  let k := j.keyOf e pos
  let f (z : F32 × Nat) : Nat :=
    if bad || e.x.allBad then poisonFill g.fmt
    else if g.fmt = 0 then z.1
    else if s.nearest then (narrow .bf16 z.1).1
    else srBf16 z.1 (philoxR16 k.1 k.2 j.lay.layer (j.rowIn pos * j.nB + 256 * j.nt + z.2) 2 0)
  let ws := (hs.zip cols).map f
  storeElems j g (fmtBytes g.fmt) g.fmt ((j.stateAddrs e g pos cols).zip ws)
  if s.norm then
    let sq := (List.range 256).map (fun c => (cols.idxOf? c).map (fun i =>
      let v := ({ fmt := g.fmt, w := ws.getD i 0 } : Val).widen
      fmul v v))
    match treeReduce fadd sq with
    | some t =>
      modify (fun e =>
        let z := (j.normKey e.c.rank pos, j.writeBack, j.rowIn pos * ceilDiv j.nB 256 + j.nt, t)
        { e with x := { e.x with norms := e.x.norms ++ [z] } })
    | none => pure ()

/-- One stream over one time tile: the state of every present step, by step in scan order; and poison. -/
def scanStream (j : Job) (s : ScanD) (pos : Nat) (cols : List Nat) (steps : List Nat) (first : Bool) :
    CoreAct (List (List F32)) := do
  let e ← get
  let ft := e.d.trust.ftLevel
  let word ← resetWord j s pos
  let rst (st : Nat) : Bool := bit (word.getD 0) (st % 256)
  let heads := if s.perHead then cols.map (fun c => c / s.hd) else cols
  let ab ← steps.mapM (fun st => do
    let js := { j with step := st % 256 }
    let hs ← scanElems js (j.t.genAt s.aGen) pos heads.eraseDups
    let a := heads.map (fun h => hs.getD (heads.eraseDups.idxOf h) none)
    let b ← scanElems js (j.t.genAt s.bGen) pos cols
    pure (a, b))
  let lam ← (match j.t.gen s.lam with
    | some g => scanElems j g pos cols
    | none => pure (cols.map (fun _ => some 0)))
  let skip := rst (steps.headD 0)
  let out := j.stateAddrs e (j.t.genAt s.sout) pos cols
  let inA := j.stateAddrs e (j.t.genAt s.sin) pos cols
  let h0 ← (if first && !skip then scanElems j (j.t.genAt s.sin) pos cols (inA != out) else pure (cols.map (fun _ => some 0)))
  let bad := word.isNone || ab.any (fun z => z.1.any Option.isNone || z.2.any Option.isNone) || lam.any Option.isNone
    || h0.any Option.isNone
  if bad then poisonRows j [pos]
  let e ← get
  let zs := cols.zipIdx.map (fun c =>
    let old := kget e.c.raw (pos * 256 + c.1) []
    let h := if first then (h0.getD c.2 none).getD 0 else old.headD 0
    let new := (ab.zip steps).map (fun z =>
      let k := scanCoeff ft s.form ((z.1.1.getD c.2 none).getD 0) ((z.1.2.getD c.2 none).getD 0) ((lam.getD c.2 none).getD 0)
      (k.1, k.2, rst z.2))
    let r := scanOn s.len 17 h (if first then [] else carryPos 64 (old.drop 1)) new
    (pos * 256 + c.1, r.1, packCarry r.2.1 r.2.2))
  modify (fun e => { e with c := { e.c with raw := zs.foldl (fun m z => kset m z.1 z.2.2) e.c.raw } })
  pure (steps.zipIdx.map (fun st => zs.map (fun z => z.2.1.getD st.2 0)))

/-- One tile pass of a scan program: a tile of channels over a tile of time. -/
def scanWork (j : Job) (flt : Option PassFault) : CoreAct Unit := do
  let s := parseScan j.t.desc
  let tiles := ceilDiv j.kB 256
  let first := if s.reverse then j.kt + 1 == tiles else j.kt == 0
  let last := if s.reverse then j.kt == 0 else j.kt + 1 == tiles
  if first then
    if j.nt = 0 then
      let v ← validRows j
      modify (fun e => { e with c := { e.c with rows := v.1, raw := [], accBad := [], holdBad := v.2, q := [], hold := [] } })
    else modify (fun e => { e with c := { e.c with raw := [], accBad := [] } })
  match flt with
  | some f => applyFault j f
  | none => pure ()
  let e ← get
  let rows := e.c.rows
  let masks ← colMasks j rows
  let up := (List.range (min 256 (j.kB - 256 * j.kt))).map (256 * j.kt + ·)
  let steps := if s.reverse then up.reverse else up
  let ys ← rows.mapM (fun pos => do
    let cols := j.validCols (masks pos).1
    if (masks pos).2 then poisonRows j [pos]
    let h ← scanStream j s pos cols steps first
    pure (pos, cols, h))
  let w := min 256 (j.nB - 256 * j.nt)
  if s.yGen ≠ 0xFF then
    let row (pos : Nat) : List Nat × List (List F32) := ((ys.find? (fun y => y.1 == pos)).map (·.2)).getD ([], [])
    let vals (i pos : Nat) : List (Option Val) :=
      let y := row pos
      (List.range w).map (fun c => (y.1.idxOf? c).map (fun k => ({ fmt := 0, w := (y.2.getD i []).getD k 0 } : Val)))
    let vecs ← tileVecs j (vals 0)
    let e ← get
    steps.zipIdx.forM (fun st =>
      epilogueRows { j with step := st.1 % 256 } vecs (fun _ pos => vals st.2 pos)
        (fun pos i => (j.rowIn pos * j.kB + st.1) * j.nB + 256 * j.nt + i) (fun part pos => e.c.rowBad part pos))
  if last then
    ys.forM (fun y => do
      let e ← get
      scanStore j s y.1 y.2.1 (y.2.2.getLastD []) (e.c.rowBad 0 y.1))

end Sys2Proof.Machine
end

