-- ==== Sys2Proof/Machine/Validate.lean ====
section
/-!
DEFINITION. What PROGRAM_LOAD checks of an image, code by code in the order of R112, with the lists of the chapters that
cite it: R86 to R107, R153, R177, R195, R203, R204 to R216, R228 to R234, R263.
-/

namespace Sys2Proof.Machine

/-- The tile programs of an image, each with its layer-table entry. -/
def allProgs (b : Bytes) : List (LayerD × TileProg) :=
  (List.range (parseImage b).layers).flatMap (fun i => (layerProgs b i).map (fun t => (parseLayer b i, t)))

/-- A section [o, o + n) lies within the image. -/
def within (b : Bytes) (o n : Nat) : Bool := decide (o + n ≤ (parseImage b).size)

/-! PROG_FORMAT. -/

/-- A tile program is whole, and its offsets, counts and check strides are as R89, R90 and R96 say. -/
def tileFormat (b : Bytes) (t : TileProg) : Bool :=
  let s := sectionsOf b t.off
  within b t.off (t.fin - t.off) && t.off % 8 == 0 && field b (t.off + 0x14) 4 + t.off == s.check
    && t.check == t.gens.map (·.strides) && t.loops.all (fun l => l.count != 0)
    && t.gens.all (fun g => g.layout % 8 == 0 && (g.layout == 0 || within b g.layout 64))

/-- PROG_FORMAT does not hold against the image (R85, R87, R112); `size` is what PROGRAM_LOAD gave. -/
def imageFormat (b : Bytes) (size : Nat) : Bool :=
  let h := parseImage b
  decide (128 ≤ size) && field b 0 4 == 0x49464F57 && field b 4 2 == 1 && h.size == size && h.table % 64 == 0
    && h.rollout % 64 == 0 && within b h.table (32 * h.layers)
    && (h.rollout == 0 || (within b h.rollout 64 && field b h.rollout 4 == 0x4C4C4F52))
    && (List.range h.layers).all (fun i =>
      let l := parseLayer b i
      l.prog % 8 == 0 && decide (l.progs ≤ b.length / 64 + 1) && decide (l.prog ≤ h.size))
    && (allProgs b).all (fun x => tileFormat b x.2)

/-! INVALID_FIELD. -/

/-- Reserved parts of a stage (R136, R137), and what R571 counts with them: PARAM0 where the kind takes none, a promotion
threshold of QUANT above 32 (R86), and an SGEN that names no generator. -/
def stageFields (b : Bytes) (ngen o : Nat) : Bool :=
  let s := parseStage b o
  decide (1 ≤ s.kind) && decide (s.kind ≤ 11) && (s.ifmt ≤ 2 || s.ifmt == 8) && decide (s.src ≤ 3)
    && (s.src != 0 || s.sgen == 0) && decide (s.func ≤ 7) && (s.kind == 3 || s.kind == 5 || s.func == 0)
    && decide (s.sflags < 4) && (s.kind == 10 || (s.kind == 9 && decide (s.sflags < 2)) || s.sflags == 0)
    && zeroAt b (o + 6) 2 && (s.kind == 6 || s.p1 == 0) && (s.src == 0 || decide (s.sgen < ngen))
    && ((decide (s.kind ≤ 2) && s.src == 0) || [6, 8, 9, 10].contains s.kind || s.p0 == 0)
    && (s.kind != 8 || (decide (s.p0 < 1024) && s.p0 % 4 != 3 && decide (s.p0 / 16 ≤ 32)))

/-- The ranges of a strided layout's fields on a generator (R231, R233). They hold for a layout without a swizzle too
(DEDUCED, log 90). -/
def StridedD.ranged (x : StridedD) (g : GenD) : Bool :=
  decide (1 ≤ x.ndim) && decide (x.ndim ≤ 5) && decide (6 ≤ x.src) && decide (x.src ≤ 40) && decide (3 ≤ x.dst)
    && decide (x.dst ≤ 35) && decide (x.wid ≤ 5) && decide (x.dst + x.wid ≤ x.src) && (g.space != 0 || decide (6 ≤ x.dst))

/-- The LAYOUT of a generator (R205, R215, R229 to R231, R233): 0 where R230 asks it, and a descriptor whose reserved parts
are 0. -/
def layoutFields (b : Bytes) (g : GenD) : Bool :=
  let o := g.layout
  o == 0 ||
  (decide (g.space ≤ 2) && !fmtA g.fmt && g.fmt != 10 &&
  match byteAt b o with
  | 1 =>
    let x := parseStrided b o
    x.ranged g && zeroAt b (o + 5) 3 && zeroAt b (o + 0x1C) 4 && (x.dims.drop x.ndim).all (· == 0)
      && (x.strides.drop (x.ndim - 1)).all (· == 0)
  | 2 => decide (byteAt b (o + 1) ≤ 2) && zeroAt b (o + 0x34) 12
  | 3 => zeroAt b (o + 2) 2 && zeroAt b (o + 10) 6 && zeroAt b (o + 0x20) 32
  | _ => false)

/-- Reserved parts of the descriptor of a scan, attention or vector program (R157, R179, R198, R223). -/
def descFields (t : TileProg) : Bool :=
  let b := t.desc
  match t.kind with
  | .dot => true
  | .scan => decide (byteAt b 0 ≤ 2) && decide (byteAt b 2 < 32) && zeroAt b 3 1 && zeroAt b 6 2 && zeroAt b 15 1
               && zeroAt b 0x18 40
  | .attention => t.gens.any (·.grole == 4) || decide (byteAt b 5 < 8) && zeroAt b 13 3 && zeroAt b 0x18 40
  | .vector =>
    if byteAt b 0 = 1 then decide (byteAt b 1 ≤ 2) && zeroAt b 6 2 && zeroAt b 12 52
    else byteAt b 0 == 2 && decide (byteAt b 1 ≤ 1) && zeroAt b 5 1 && zeroAt b 0x28 24

/-- A generator index names a generator of a role. -/
def TileProg.roleAt (t : TileProg) (i role : Nat) : Bool :=
  match t.gen i with
  | some g => g.grole == role
  | none => false

/-- Reserved parts of a tile program (R89 to R107, R137), predicates that name no loop or no mask generator, and a PLOOP or
PGEN that the kind does not take (R98, R571). -/
def tileFields (b : Bytes) (t : TileProg) : Bool :=
  let o := t.off
  let s := sectionsOf b o
  decide (byteAt b o ≤ 4) && decide (byteAt b (o + 1) < 16) && decide (t.product ≤ 6) && bits (byteAt b (o + 9)) 6 3 == 0
    && zeroAt b (o + 13) 3 && zeroAt b (o + 0x18) 40
    && (List.range t.loops.length).all (fun i =>
      let a := o + 64 + 16 * i
      decide (byteAt b (a + 10) ≤ 4) && decide (byteAt b (a + 11) < 2) && zeroAt b (a + 12) 4)
    && (List.range t.gens.length).all (fun i =>
      let a := s.gen + 64 * i
      let g := parseGen b a
      (g.strides.drop t.loops.length).all (· == 0) && decide (g.space ≤ 4) && decide (g.grole ≤ 7)
        && decide (g.fmt ≤ 10) && decide (byteAt b (a + 0x23) < 2) && decide (g.sel ≤ 7) && zeroAt b (a + 0x25) 3
        && decide (1 ≤ g.rows) && decide (g.rows ≤ 1024) && decide (1 ≤ g.cols) && decide (g.cols ≤ 256) && zeroAt b (a + 0x30) 16
        && layoutFields b g)
    && (List.range t.preds.length).all (fun i =>
      let a := s.pred + 16 * i
      decide (byteAt b a ≤ 3) && zeroAt b (a + 3) 13
        && (if byteAt b a ≤ 1 then decide (byteAt b (a + 1) < t.loops.length) && byteAt b (a + 2) == 0
            else t.roleAt (byteAt b (a + 2)) 6 && byteAt b (a + 1) == 0))
    && (List.range (t.pro.length + t.epi.length)).all (fun i => stageFields b t.gens.length (s.pro + 16 * i))
    && t.sbs.all (fun x => (x.op == 1 || x.op == 2) && decide (x.scope ≤ 1))
    && descFields t

/-- The ranges of a layer-table entry's fields that no list gives PROG_LIMIT (R86, R571). -/
def LayerD.ranged (l : LayerD) : Bool :=
  decide (l.t ≤ 32) && decide (l.limit ≤ 1024) && decide (1 ≤ l.progs) && l.slot % 64 == 0

/-- Every reserved field and code of the image is 0, and its fields keep the ranges of R571 (R14, R85 to R87). -/
def imageFields (b : Bytes) : Bool :=
  let h := parseImage b
  decide (field b 8 4 < 4) && zeroAt b 14 2 && zeroAt b 0x28 88 && decide (1 ≤ h.layers) && decide (h.layers ≤ 4096)
    && (List.range h.layers).all (fun i =>
      let o := h.table + 32 * i
      decide (byteAt b (o + 2) < 16) && byteAt b (o + 2) % 4 != 3 && bits (field b (o + 4) 2) 14 11 == 0
        && decide (field b (o + 6) 2 < 4) && zeroAt b (o + 0x1A) 6 && (parseLayer b i).ranged)
    && (h.rollout == 0 || (decide (byteAt b (h.rollout + 5) < 2) && zeroAt b (h.rollout + 0x18) 40
          && ((parseRollout b).input || (parseRollout b).inputLayer == 0)))
    && (allProgs b).all (fun x => tileFields b x.2)

/-! PROG_LIMIT. -/

/-- FP32 patterns that are finite and positive. -/
def f32Pos (w : Nat) : Bool := f32IsFinite w && !f32Neg w && w != 0

def TileProg.fmtAt (t : TileProg) (i : Nat) (ok : Nat → Bool) : Bool :=
  match t.gen i with
  | some g => ok g.fmt
  | none => false

/-- A chain of stages (R136, R153); `pro` says that it is the prologue. -/
def chainOk (t : TileProg) (l : LayerD) (pro : Bool) (c : List StageD) : Bool :=
  let closing := c.filter (fun s => rowClosing s.kind)
  c.zipIdx.all (fun x =>
    let s := x.1
    let last := x.2 + 1 == c.length
    (if pro then s.kind ≤ 7 || s.kind == 9 else true)
      && (match s.kind with
          | 1 => decide (s.src ≤ 2)
          | 2 => decide (s.src ≤ 2)
          | 4 => s.src == 3
          | 5 => s.src == 3
          | _ => s.src == 0)
      && (s.src == 0 || (t.roleAt s.sgen 3 && t.fmtAt s.sgen fmtFloat))
      && (s.kind != 3 || s.func != 0)
      && !(s.ifmt == 8 && (pro || rowClosing s.kind))
      && (s.kind != 11 || (s.ifmt == 1 && l.sround))
      && (s.kind != 9 || f32Pos s.p0)
      && (s.kind != 6 || (!f32IsNaN s.p0 && !f32IsNaN s.p1 && !flt s.p1 s.p0))
      && (s.kind != 10 || (decide (1 ≤ s.p0) && decide (s.p0 ≤ 8)))
      && ((s.kind != 8 && s.kind != 10) || last))
    && (if pro then decide (closing.length ≤ 1) else decide (closing.length ≤ 2))
    && !(c.any (fun s => s.kind == 8) && c.any (fun s => s.kind == 10))

/-- The output format against the last stage (R153): QUANT's mode 0 adaptive, 1 A8, 2 A4. -/
def outputOk (t : TileProg) : Bool :=
  let last := t.epi.getLast?
  (t.byRole 2).all (fun x =>
    match last with
    | some s =>
      if s.kind = 8 then x.2.fmt == (match s.p0 % 4 with
                                     | 0 => 7
                                     | 1 => 5
                                     | _ => 6)
      else if s.kind = 10 then x.2.fmt == 8
      else !fmtA x.2.fmt
    | none => !fmtA x.2.fmt)

/-- A generator within the rules of R94 on row pitch, or in one of its fixed forms. -/
def pitchOk (t : TileProg) (g : GenD) : Bool :=
  fmtA g.fmt || g.fmt == 10 || g.space == 3 || g.space == 4 || g.grole == 6 ||
  (let sb := t.strideOn g 1
   let sk := t.strideOn g 3
   !(decide (1 < g.rows) && sb == 0 && sk == 0)
     && (if sb ≠ 0 then sb % (t.bandRows : Int) == 0 else sk % 256 == 0))

/-- The greatest linear offset of a generator (R234). -/
def TileProg.maxLinear (t : TileProg) (g : GenD) : Int :=
  ((t.loops.zip g.strides).map (fun x => if x.2 > 0 then ((x.1.count - 1 : Nat) : Int) * x.2 else 0)).foldl (· + ·) 0
    + ((g.rows - 1 : Nat) : Int) * max 0 (t.pitch g) + (((g.cols - 1) * fmtBytes g.fmt : Nat) : Int)

/-- Strides of a generator that addresses a virtual matrix of `kv` columns (R204). -/
def virtualStrides (t : TileProg) (g : GenD) (kv : Nat) : Bool :=
  let es := fmtBytes g.fmt
  let up := 256 * ceilDiv kv 256 * es
  let ax := if g.grole = 0 then 3 else 2
  t.strideOn g 1 == ((t.bandRows * up : Nat) : Int) && t.strideOn g ax == ((256 * es : Nat) : Int)
    && t.strideOn g (5 - ax) == 0

/-- Some tap of row `m` in filter column order lies inside the image or is moved into it along the rows (R209, R213). -/
def WindowD.tapsIn (x : WindowD) (m : Nat) : Bool :=
  (List.range x.kw).any (fun kx => ((x.tap m (kx * x.cg)).2.2.1).isSome)

/-- The most grid rows that a band of a window program touches (R213): a tap of constant padding touches none. -/
def WindowD.touched (x : WindowD) (bandRows : Nat) : Nat :=
  let m := x.nimg * x.oh * x.ow
  ((List.range (ceilDiv m bandRows)).map (fun b =>
    ((List.range (min bandRows (m - b * bandRows))).foldl (fun (a : List Nat) r =>
      if !x.tapsIn (b * bandRows + r) then a
      else
        (List.range x.kh).foldl (fun a ky =>
          match x.tap (b * bandRows + r) (ky * x.kw * x.cg) with
          | (n, some iy, _) => insertSorted (n * x.hg + iy) a
          | _ => a) a) []).length)).foldl max 0

/-- The strides of the group loop step the input, the weights, the outputs and the vectors of the prologue by GP groups
(R206). The packed region of an iteration lies where the host puts it, so its stride is any but 0 (DEDUCED, log 90). -/
def groupStrides (t : TileProg) (x : WindowD) : Bool :=
  let on (g : GenD) : Int := g.strides.getD (t.loopIdx 0) 0
  t.gens.all (fun g =>
    match g.grole with
    | 0 => on g == ((x.gp * x.cg * fmtBytes g.fmt : Nat) : Int)
    | 1 => on g != 0
    | 2 => fmtA g.fmt || on g == ((x.gp * x.ng * fmtBytes g.fmt : Nat) : Int)
    | _ => true)
  && t.pro.all (fun s => s.src != 1 || (match t.gen s.sgen with
      | some g => on g == ((x.gp * x.cg * fmtBytes g.fmt : Nat) : Int)
      | none => true))

/-- Ranges and rules of a window layout (R205, R206, R212, R213, R216). -/
def windowOk (t : TileProg) (x : WindowD) : Bool :=
  let r := 2 ^ x.rg
  let plain := t.loops.filter (fun l => l.role == 0)
  decide (1 ≤ x.kh) && decide (x.kh ≤ 64) && decide (1 ≤ x.kw) && decide (x.kw ≤ 64) && decide (1 ≤ x.sh)
    && decide (x.sh ≤ 64) && decide (1 ≤ x.sw) && decide (x.sw ≤ 64) && decide (1 ≤ x.dh) && decide (x.dh ≤ 16)
    && decide (1 ≤ x.dw) && decide (x.dw ≤ 16) && decide (x.rg ≤ 3) && decide (1 ≤ x.gp) && decide (1 ≤ x.stage)
    && decide (1 ≤ x.groups) && decide (1 ≤ x.cg) && f32IsFinite x.padVal
    && (x.rg == 0 || (x.gp == 1 && x.groups == 1 && x.h % r == 0 && x.w % r == 0 && x.cg % (r * r) == 0))
    && decide (x.gp * x.ng ≤ 256) && (x.gp ≤ 1 || decide (x.gp * x.kh * x.kw * x.cg ≤ 256))
    && (t.loop 1).count == 1 && (t.loop 1).bound == 1 && (t.loop 3).count == 1 && (t.loop 3).bound == 1
    && (t.loop 2).bound == x.gp * x.ng
    && (x.groups ≤ x.gp || (plain.length == 1 && plain.all (fun l => l.count == ceilDiv x.groups x.gp) && groupStrides t x))
    && decide (x.touched t.bandRows ≤ x.stage)

/-- The layout of a generator (R204, R215, R228, R234). -/
def genLayoutOk (b : Bytes) (t : TileProg) (g : GenD) : Bool :=
  match layoutAt b g.layout with
  | .dense => true
  | .other => false
  | .strided x =>
    decide (t.maxLinear g < ((fmtBytes g.fmt * (x.dims.take x.ndim).foldl (· * ·) 1 : Nat) : Int))
  | .window x =>
    g.grole == 0 && fmtFloat g.fmt && t.kind == .dot && t.arrayOp == 0 && t.product == 0
      && !t.loops.any (fun l => l.role == 4) && windowOk t x && virtualStrides t g (x.kBound 0)
      && t.pro.all (fun s => decide (s.src ≤ 1))
  | .regroup x =>
    let kv := 2 ^ (2 * x.rg) * x.craw
    (g.grole == 0 || g.grole == 2) && t.kind == .dot && (t.window b).isNone
      && decide (1 ≤ x.rg) && decide (x.rg ≤ 3) && decide (1 ≤ x.craw) && decide (x.craw ≤ 1024)
      && (t.loop (if g.grole = 0 then 3 else 2)).bound == kv && virtualStrides t g kv

/-- R177. -/
def scanOk (t : TileProg) (l : LayerD) : Bool :=
  let b := t.desc
  let fl := byteAt b 2
  let hd := field b 4 2
  let st := t.gens.filter (fun g => g.grole == 4)
  let opt (i role : Nat) : Bool := i == 0xFF || t.roleAt i role
  (st.filter (fun g => !g.wr)).length == 1 && (st.filter (fun g => g.wr)).length == 1
    && t.arrayOp == 0 && t.width == 1 && t.product == 0 && t.pro.isEmpty
    && decide (4 ≤ byteAt b 1) && decide (byteAt b 1 ≤ 6)
    && t.epi.all (fun s => !rowClosing s.kind) && (t.byRole 2).all (fun x => fmtFloat x.2.fmt)
    && t.roleAt (byteAt b 8) 0 && t.roleAt (byteAt b 9) 0 && t.roleAt (byteAt b 10) 4 && t.roleAt (byteAt b 11) 4
    && (match t.gen (byteAt b 10) with
        | some g => !g.wr && g.fmt == (if l.wide then 0 else 1)
        | none => false)
    && (match t.gen (byteAt b 11) with
        | some g => g.wr && g.fmt == (if l.wide then 0 else 1)
        | none => false)
    && opt (byteAt b 12) 2 && opt (byteAt b 13) 6
    && (if byteAt b 0 = 2 then t.roleAt (byteAt b 14) 7 && t.fmtAt (byteAt b 14) fmtFloat else byteAt b 14 == 0xFF)
    && t.fmtAt (byteAt b 8) fmtFloat && t.fmtAt (byteAt b 9) fmtFloat
    && (if bit fl 1 then (hd == 16 || hd == 32 || hd == 64 || hd == 128 || hd == 256)
            && (match t.gen (byteAt b 8) with
                | some g => g.cols * hd == 256
                | none => false)
        else hd == 0)
    && (!bit fl 3 || (!f32IsNaN (field b 0x10 4) && !f32IsNaN (field b 0x14 4) && !flt (field b 0x10 4) 0
            && !flt (field b 0x14 4) (field b 0x10 4)))
    && (!bit fl 4 || bit fl 3)

/-- R195. -/
def attnOk (t : TileProg) : Bool :=
  let a := parseAttn t.desc
  t.arrayOp == 0 && t.width == 8 && t.product == 0 && t.pro.isEmpty
    && [1, 2, 3].all (fun r => (t.loops.filter (fun l => l.role == r)).length == 1 && (t.loop r).count == 1)
    && !t.gens.any (fun g => g.grole == 4)
    && decide (a.winH ≤ 16) && decide (a.winW ≤ 16) && ((a.winH == 0) == (a.winW == 0)) && decide (1 ≤ a.qbH)
    && decide (a.qbH ≤ 16) && decide (1 ≤ a.qbW) && decide (a.qbW ≤ 16) && decide (a.tWin ≤ 16) && decide (1 ≤ a.heads)
    && decide (a.heads ≤ 64) && decide (32 ≤ a.hd) && decide (a.hd ≤ 256) && a.hd % 32 == 0
    && t.roleAt a.qGen 0 && t.roleAt a.ringGen 5 && t.roleAt a.outGen 2
    && (match t.gen a.ringGen with
        | some g => !g.wr && (g.fmt == 1 || g.fmt == 3 || g.fmt == 4)
        | none => false)
    && (a.spillGen == 0xFF || (match t.gen a.spillGen with
        | some g => g.grole == 7 && g.space == 0
        | none => false))
    && f32IsFinite a.scale && a.scale % 2 ^ 31 != 0 && decide (1 ≤ a.maxKeys) && decide (a.maxKeys ≤ 98304)
    && t.epi.all (fun s => !rowClosing s.kind)
    && !(a.spillGen == 0xFF && decide (8388608 < scoreBytes t.bandRows a.maxKeys))

/-- R203 and, for CROP, R228. -/
def vectorOk (t : TileProg) : Bool :=
  let b := t.desc
  t.arrayOp == 0 && t.width == 1 && t.product == 0 && t.pro.isEmpty && t.epi.isEmpty && (t.loop 3).count == 1 &&
  if byteAt b 0 = 1 then
    let mode := byteAt b 1
    decide (byteAt b 2 ≤ 64) && t.roleAt (byteAt b 3) 0 && t.fmtAt (byteAt b 3) fmtFloat
      && (if mode = 2 then t.roleAt (byteAt b 4) 3 && t.fmtAt (byteAt b 4) fmtFloat else byteAt b 4 == 0xFF)
      && t.roleAt (byteAt b 5) 2 && t.fmtAt (byteAt b 5) (fun f => if mode = 2 then f ≤ 2 else f == 8)
      && (mode == 1 || f32Pos (field b 8 4)) && decide ((t.loop 2).bound ≤ 65536)
  else
    t.roleAt (byteAt b 2) 0 && t.fmtAt (byteAt b 2) fmtFloat
      && (match t.gen (byteAt b 3) with
          | some g => g.grole == 7 && g.space == 0
          | none => false)
      && t.roleAt (byteAt b 4) 2 && t.fmtAt (byteAt b 4) (· ≤ 2)
      && decide (1 ≤ field b 6 2) && decide (field b 6 2 ≤ 256) && decide (1 ≤ field b 8 2) && decide (field b 8 2 ≤ 256)
      && decide (1 ≤ field b 10 2) && decide (field b 10 2 ≤ 4096) && decide (1 ≤ field b 12 2)
      && decide (1 ≤ field b 14 2)

/-- A tile program within the limits (R89, R94, R99, R107, R263, and the chapters' lists). -/
def tileLimit (b : Bytes) (l : LayerD) (t : TileProg) : Bool :=
  let ng := t.gens.length
  decide (1 ≤ t.loops.length) && decide (t.loops.length ≤ 6) && decide (1 ≤ ng) && decide (ng ≤ 8)
    && decide (t.preds.length ≤ 4) && decide (t.pro.length ≤ 4) && decide (t.epi.length ≤ 8)
    && decide (t.sbs.length ≤ 16) && decide (1 ≤ t.bandRows) && decide (t.bandRows ≤ 4096) && decide (1 ≤ t.qband)
    && decide (t.qband ≤ 2) && decide (1 ≤ t.width) && decide (t.width ≤ 8) && !(t.product == 6 && decide (7 < t.width))
    && t.gens.all (fun g => pitchOk t g && genLayoutOk b t g
          && (g.fmt != 10 || (t.strideOn g 2 == 0 && t.strideOn g 3 == 0))
          && (g.grole != 1 || (g.fmt == 10 && g.space == 0)))
    && t.preds.all (fun p => p.kind ≤ 1 || (match t.gen p.pgen with
            | some g => t.strideOn g 3 == 0 && (p.kind != 2 || t.strideOn g 2 == 0)
            | none => false))
    && t.sbs.all (fun x => (x.sloop == 0xFF || decide (x.sloop < t.loops.length)) && decide (x.whn ≤ 1)
          && decide (x.entry < (if x.scope = 0 then 64 else 32768)))
    && chainOk t l true t.pro && chainOk t l false t.epi
    && ((t.kind != .dot && t.kind != .attention) || outputOk t)
    && (t.pro.isEmpty || !(t.multiWord || (t.byRole 0).any (fun x => fmtA x.2.fmt)))
    && (match t.kind with
        | .dot => decide ((t.gens.filter (fun g => match layoutAt b g.layout with
                    | .window _ => true
                    | _ => false)).length ≤ 1)
        | .scan => scanOk t l
        | .attention => attnOk t
        | .vector => vectorOk t)

/-- The image within the limits (R86, R87). -/
def imageLimit (b : Bytes) : Bool :=
  let h := parseImage b
  let ls := (List.range h.layers).map (parseLayer b)
  ls.all (fun l => l.fallback == 0xFFFF || decide (l.fallback < h.layers))
    && (h.rollout == 0 ||
          (let r := parseRollout b
           decide (r.feedback ≤ 8) && (!r.input || decide (r.inputLayer < h.layers))
             && decide (1 ≤ r.rows) && decide (r.rows ≤ 4096) && decide (1 ≤ r.ioSlots) && decide (64 ≤ r.ioStep)
             && r.ioStep % 64 == 0 && r.stateBytes == 2 * (ls.map (·.slot)).foldl (· + ·) 0))
    && (allProgs b).all (fun x => tileLimit b x.1 x.2)

/-! LOOP_ORDER, BUFFER_OVERFLOW, SCOREBOARD_UNBOUND. -/

/-- R91, and LEN_LOOP against LOOPFLAGS (R112). -/
def loopOrder (t : TileProg) : Bool :=
  let n (r : Nat) := (t.loops.filter (fun l => l.role == r)).length
  n 1 == 1 && n 2 == 1 && n 3 == 1 && decide (t.loopIdx 1 < t.loopIdx 2) && decide (t.loopIdx 2 < t.loopIdx 3)
    && (t.loops.drop (t.loopIdx 1)).all (fun l => l.role != 0 && l.role != 4)
    && (t.loop 2).extent == 256 && (t.loop 3).extent == 256 && (t.loop 1).extent == t.bandRows
    && t.loops.all (fun l => l.len || (decide ((l.count - 1) * l.extent + 1 ≤ l.bound)
          && decide (l.bound ≤ l.count * l.extent)))
    && t.loops.zipIdx.all (fun x => x.1.len == (t.lenLoop == some x.2))
    && (match t.lenLoop with
        | some i => decide (i < t.loops.length)
        | none => true)

/-- The largest K bound that a program can take (R102). -/
def TileProg.maxK (t : TileProg) (b : Bytes) : Nat :=
  match t.window b with
  | some x => x.kBound 0
  | none => let l := t.loop 3
            if l.len || t.loops.any (fun x => x.role == 4) then l.count * l.extent else l.bound

/-- The least linear offset of a generator, from its strides, counts and tile shape (R102). -/
def TileProg.minLinear (t : TileProg) (g : GenD) : Int :=
  ((t.loops.zip g.strides).map (fun x => min 0 (((x.1.count - 1 : Nat) : Int) * x.2))).foldl (· + ·) 0
    + ((g.rows - 1 : Nat) : Int) * min 0 (t.pitch g)

/-- What the loops outside the band loop can add: least and greatest. -/
def TileProg.outerSpan (t : TileProg) (g : GenD) : Int × Int :=
  (t.outer.map (fun i => (((t.loops.getD i (t.loop 4)).count - 1 : Nat) : Int) * g.strides.getD i 0)).foldl
    (fun a v => (a.1 + min 0 v, a.2 + max 0 v)) (0, 0)

/-- The bytes of the box of a strided layout: least and past the greatest (R232). A swizzle moves an address within its
aligned 2^(SWZ_DST + SWZ_WID) bytes. -/
def StridedD.box (x : StridedD) (es : Nat) : Int × Int :=
  let terms := (x.dims.zipIdx.take x.ndim).map (fun z =>
    ((z.1 - 1 : Nat) : Int) * (if z.2 = 0 then (es : Int) else x.strides.getD (z.2 - 1) 0))
  let lo := (terms.map (min 0 ·)).foldl (· + ·) 0
  let hi := (terms.map (max 0 ·)).foldl (· + ·) 0 + (es : Int)
  if x.wid = 0 then (lo, hi)
  else
    let m : Int := (2 ^ (x.dst + x.wid) : Nat)
    (lo / m * m, (hi + m - 1) / m * m)

/-- The bytes of the images that a window layout reads, over all its groups: past the greatest. -/
def WindowD.size (x : WindowD) (es : Nat) : Nat :=
  (x.nimg - 1) * x.img + (x.h - 1) * x.row + (x.w - 1) * x.pix
    + (if x.rg = 0 then x.groups * x.cg else x.cg / 2 ^ (2 * x.rg)) * es

/-- The bytes that `n` images of a regroup layout take. -/
def RegroupD.size (x : RegroupD) (es n : Nat) : Nat :=
  (n - 1) * x.img + (x.hg * 2 ^ x.rg - 1) * x.row + (x.wg * 2 ^ x.rg - 1) * x.pix + x.craw * es

/-- The offsets that a generator of an SRAM space can reach from the image (R102): least and past the greatest. -/
def TileProg.reach (t : TileProg) (b : Bytes) (g : GenD) : Int × Int :=
  let es := fmtBytes g.fmt
  let o := t.outerSpan g
  let z : Int × Int := match layoutAt b g.layout with
    | .strided x => x.box es
    | .window x => if x.groups ≤ x.gp then (o.1, o.2 + (x.size es : Int)) else (0, (x.size es : Int))
    | .regroup x => (o.1, o.2 + (x.size es (ceilDiv ((t.loop 1).count * t.bandRows) (max 1 (x.hg * x.wg))) : Int))
    | _ => (t.minLinear g, t.maxLinear g + (if g.grole = 6 then 32 else (es : Int)))
  ((g.base : Int) + z.1, (g.base : Int) + z.2)

/-- The size of an SRAM space (R102). -/
def TileProg.spaceSize (t : TileProg) (sp : Nat) : Nat :=
  match sp with
  | 1 => t.pot
  | 3 => 1048576
  | _ => 1572864

/-- Bytes that a list of ranges covers, the ranges in rising order of their start. -/
def coverLen : Int → List (Int × Int) → Nat
  | _, [] => 0
  | top, r :: l => (r.2 - max top r.1).toNat + coverLen (max top r.2) l

def insertRange (r : Int × Int) : List (Int × Int) → List (Int × Int)
  | [] => [r]
  | x :: xs => if r.1 < x.1 then r :: x :: xs else x :: insertRange r xs

/-- Stockpot bytes of an attention program's score blocks: three where three fit in 8 MiB, one where one does (R193). -/
def TileProg.blockBytes (t : TileProg) : Nat :=
  if t.kind ≠ .attention then 0
  else
    let n := scoreBytes t.bandRows (parseAttn t.desc).maxKeys
    if 3 * n ≤ 8388608 then 3 * n else if n ≤ 8388608 then n else 0

/-- R102, R120, R193, R213. -/
def bufferFits (b : Bytes) (t : TileProg) : Bool :=
  let act := (t.gens.filter (fun g => g.space == 2)).map (fun g => t.reach b g)
  let span := coverLen 0 (act.foldl (fun l r => insertRange r l) [])
  let band := if t.kind = .dot then t.qband * t.bandRows * t.maxK b * 265 else 0
  let stage := match t.window b with
    | some x => x.stage * x.wg * x.gp * x.cg * ((t.byRole 0).map (fun g => fmtBytes g.2.fmt)).headD 4
    | none => 0
  decide (256 * (span + stage) + band ≤ 256 * 1572864)
    && t.gens.all (fun g => g.space == 0 ||
          (let r := t.reach b g
           decide (0 ≤ r.1) && decide (r.2 ≤ (t.spaceSize g.space : Int))))
    && decide (t.spillBytes + t.blockBytes ≤ t.pot)

/-- A core-scope WAIT whose entry some tile program of the image SETs (R112). -/
def scoreboardBound (b : Bytes) : Bool :=
  let ops := (allProgs b).flatMap (fun x => x.2.sbs)
  ops.all (fun w => w.op != 1 || w.scope != 0 || ops.any (fun s => s.op == 2 && s.scope == 0 && s.entry == w.entry))

/-- The status of PROGRAM_LOAD's validation (R112). -/
def validateImage (ft : Nat) (b : Bytes) (size : Nat) : Nat :=
  if !imageFormat b size then stProgFormat
  else if !imageFields b then stInvalidField
  else if (parseImage b).ftLevel ≠ ft ∧ !(parseImage b).tolerant then stFuncTableLevel
  else if !imageLimit b then stProgLimit
  else if !(allProgs b).all (fun x => loopOrder x.2) then stLoopOrder
  else if !(allProgs b).all (fun x => bufferFits b x.2) then stBufferOverflow
  else if !scoreboardBound b then stScoreboardUnbound
  else stSuccess

end Sys2Proof.Machine
end

