-- ==== Sys2Proof/Machine/Vector.lean ====
section
/-!
DEFINITION. Vector programs: SAMPLE (R198 to R201) and CROP (R223 to R226).
-/

namespace Sys2Proof.Machine

/-! Sampling. -/

/-- FP32 of -2 and of 2 pi. -/
def f32m2 : F32 := 0xC0000000
def f32TwoPi : F32 := 0x40C90FDB

/-- The last index with a positive value. -/
def lastPositive (e : List (Option F32)) : Option Nat :=
  (e.zipIdx.foldl (fun (a : Option Nat) z => match z.1 with
    | some w => if flt 0 w then some z.2 else a
    | none => a) none)

/-- The first index of a tile whose running sum passes tau (R200). -/
def walkTile (tau : F32) : F32 → List (Option F32 × Nat) → Option Nat
  | _, [] => none
  | r, (none, _) :: l => walkTile tau r l
  | r, (some w, i) :: l => let s := fadd r w; if flt tau s then some i else walkTile tau s l

/-- Categorical sampling over a row with the variate u (R200): none where the spec names no index, because no value is
above 0. -/
def categorical (ft topk : Nat) (temp u : F32) (logits : List (Option F32)) : Option Nat :=
  let x0 := logits.map (fun v => v.map (fun w => fdiv w temp))
  let x := if topk = 0 then x0
    else let keep := (bestOf true topk x0).map (·.2)
         x0.zipIdx.map (fun z => if keep.contains z.2 then z.1 else none)
  let m := (reduce256 fmax x).getD 0
  let e := x.map (fun v => v.map (fun w => fexp ft (fsub w m)))
  let q := (tilesOf 256 e).map (treeReduce fadd)
  let c := (q.foldl (fun (a : List F32 × Option F32) t =>
    let s := treeNode fadd a.2 t
    (a.1 ++ [s.getD 0], s)) ([], none)).1
  let tau := fmul u (c.getLastD 0)
  match c.findIdx? (fun v => flt tau v) with
  | none => lastPositive e
  | some k =>
    let tile := (e.zipIdx.drop (256 * k)).take 256
    match walkTile tau (if k = 0 then 0 else c.getD (k - 1) 0) tile with
    | some i => some i
    | none => (lastPositive (tile.map (·.1))).map (256 * k + ·)

/-- A row of logits that sampling does not accept (R200). -/
def logitsBad (l : List (Option F32)) : Bool :=
  l.any (fun v => match v with
    | some w => f32IsNaN w || (f32IsInf w && !f32Neg w)
    | none => false)

/-- A row's index: the modes of R198. -/
def sampleRow (j : Job) (pos : Nat) (xs : List (Option F32)) : CoreAct Nat := do
  let e ← get
  let k := j.keyOf e pos
  if logitsBad xs then
    countCore j ctSample 1
    pure 0xFFFFFFFF
  else if j.t.d8 1 = 1 then pure (((bestOf true 1 xs)[0]?).map (·.2) |>.getD 0xFFFFFFFF)
  else
    match categorical e.d.trust.ftLevel (j.t.d8 2) (j.t.d32 8) (philoxU k.1 k.2 j.lay.layer (j.rowIn pos) 1 0) xs with
    | some i => pure i
    | none =>
      let f := e.d.freeBytes 4
      set { e with d := f.2 }
      pure (leNat f.1)

/-- A Gaussian sample (R201); the element index is the row's position (R199). -/
def gaussian (j : Job) (e : Ex) (pos : Nat) (mu l : F32) : F32 :=
  let k := j.keyOf e pos
  let ft := e.d.trust.ftLevel
  let w := philoxWord k.1 k.2 j.lay.layer (j.rowIn pos) 1 0
  let u1 := intToF32 ((w / 256 + 1 : Nat) : Int) (-24)
  let u2 := philoxU k.1 k.2 j.lay.layer (j.rowIn pos) 1 1
  let n := fmul (fsqrt (fmul f32m2 (fln ft u1))) (fcos ft (fmul f32TwoPi u2))
  fadd mu (fmul (fmul (fexp ft l) (j.t.d32 8)) n)

/-- One N tile of a SAMPLE program: Gaussian rows are stored tile by tile, the others once the last tile is in. -/
def sampleTile (j : Job) : CoreAct Unit := do
  let e ← get
  let rows := e.c.rows
  let masks ← colMasks j rows
  let w := min 256 (j.nB - 256 * j.nt)
  let g := j.t.genAt (j.t.d8 3)
  let out := j.t.genAt (j.t.d8 5)
  rows.forM (fun pos => do
    let cols := j.validCols (masks pos).1
    let xs ← rowCols j g pos cols
    let ls ← (if j.t.d8 1 = 2 then rowCols j (j.t.genAt (j.t.d8 4)) pos cols else pure (cols.map (fun _ => some 0)))
    if (masks pos).2 || xs.any Option.isNone || ls.any Option.isNone then poisonRows j [pos]
    let e ← get
    let at_ (c : Nat) : Option Nat := cols.idxOf? c
    if j.t.d8 1 = 2 then
      storeRow j out pos [(j.nt, w)] (fun i => j.elemOf pos (256 * j.nt + i))
        ((List.range w).map (fun c => (at_ c).map (fun k =>
          ({ fmt := 0, w := gaussian j e pos ((xs.getD k none).getD 0) ((ls.getD k none).getD 0) } : Val)))) (e.c.rowBad 0 pos)
    else
      let new := (List.range w).map (fun c => (at_ c).map (fun k => ({ fmt := 0, w := (xs.getD k none).getD 0 } : Val)))
      let old := if j.nt = 0 then [] else kget e.c.hold pos []
      modify (fun e => { e with c := { e.c with hold := kset e.c.hold pos (old ++ new) } })
      if ceilDiv j.nB 256 ≤ j.nt + 1 then
        let e ← get
        let bad := e.c.rowBad 0 pos || e.x.allBad
        let i ← (if bad then pure (poisonFill 8)
                 else sampleRow j pos ((kget e.c.hold pos []).map (fun v => v.map (·.w))))
        let row := if j.byCtx out then j.rowIn pos else pos
        let j0 := { j with w := { j.w with idx := j.w.idx.set (j.t.loopIdx 2) 0 } }
        (j.outBases e out pos).forM (fun b =>
          match j0.addr out b row 2 0 0 with
          | some a => storeElems j out 4 8 [(a, i)]
          | none => pure ()))
where
  /-- Values of a generator at columns of the N tile, as FP32. -/
  rowCols (j : Job) (g : GenD) (pos : Nat) (cols : List Nat) : CoreAct (List (Option F32)) := do
    let e ← get
    let b := (j.base e g pos).1
    let row := if j.byCtx g then j.rowIn pos else pos
    let vs ← loadElems j g (cols.map (fun c => (j.addr g b row 2 j.nt c).getD 0))
    pure (toF32s g.fmt (vs.map some))

/-! Crops. -/

/-- A box (R224). -/
structure BoxD where
  y0 : F32
  x0 : F32
  y1 : F32
  x1 : F32
  img : Nat
  deriving DecidableEq, Repr

def parseBox (b : Bytes) (i : Nat) : BoxD :=
  { y0 := field b (32 * i) 4, x0 := field b (32 * i + 4) 4, y1 := field b (32 * i + 8) 4, x1 := field b (32 * i + 12) 4,
    img := field b (32 * i + 16) 4 }

/-- A sample coordinate (R225). -/
def cropCoord (a b : F32) (i n : Nat) : F32 :=
  if n = 1 then fmul (fadd a b) 0x3F000000
  else fadd a (fmul (fsub b a) (fdiv (natToF32 i) (natToF32 (n - 1))))

/-- Outside the map along one axis. -/
def cropOut (s : F32) (n : Nat) : Bool := flt s 0 || flt (natToF32 (n - 1)) s

/-- The taps of a sample: none outside the map (R225). -/
def cropTaps (nearest : Bool) (h w : Nat) (sy sx : F32) : Option (List (Nat × Nat)) :=
  if cropOut sy h || cropOut sx w then none
  else if nearest then
    some [(min (fFloorNat (fadd sy 0x3F000000)) (h - 1), min (fFloorNat (fadd sx 0x3F000000)) (w - 1))]
  else
    let ya := fFloorNat sy
    let xa := fFloorNat sx
    let yb := min (ya + 1) (h - 1)
    let xb := min (xa + 1) (w - 1)
    some [(ya, xa), (ya, xb), (yb, xa), (yb, xb)]

/-- The interpolation of four taps (R225). -/
def bilinear (sy sx : F32) (p : List F32) : F32 :=
  let fy := fsub sy (natToF32 (fFloorNat sy))
  let fx := fsub sx (natToF32 (fFloorNat sx))
  let mix (f a b : F32) : F32 := fadd a (fmul f (fsub b a))
  mix fy (mix fx (p.getD 0 0) (p.getD 1 0)) (mix fx (p.getD 2 0) (p.getD 3 0))

/-- The address of a map element. -/
def Job.mapAddr (j : Job) (e : Ex) (g : GenD) (pos img y x c : Nat) : Nat :=
  let es := fmtBytes g.fmt
  let b := (j.base e g pos).1
  let o := img * field j.t.desc 0x20 8 + y * j.t.d32 0x18 + x * j.t.d32 0x14 + c * es
  match layoutAt j.img g.layout with
  | .strided s => addrAdd b (s.map es (unsigned 64 (j.outerOff g + (o : Int))) : Int)
  | _ => addrAdd b (j.outerOff g + (o : Int))

/-- Where an element of sample `k` of a box is stored: the samples of a box share its row pitch evenly (DESIGN CHOICE, log 68). -/
def Job.cropAddr (j : Job) (g : GenD) (b row k n c : Nat) : Nat :=
  let o := j.outerOff g + j.rowOff g row + (k : Int) * (j.t.pitch g / (n : Int)) + j.colOff g 2 j.nt c
  match layoutAt j.img g.layout with
  | .strided s => addrAdd b (s.map (fmtBytes g.fmt) (unsigned 64 o) : Int)
  | _ => addrAdd b o

/-- One box over one N tile of channels. -/
def cropBox (j : Job) (pos : Nat) (cols : List Nat) (rowBad : Bool) : CoreAct Unit := do
  let e ← get
  let g := j.t.genAt (j.t.d8 2)
  let out := j.t.genAt (j.t.d8 4)
  let ch := j.t.d16 6
  let cw := j.t.d16 8
  let h := j.t.d16 12
  let w := j.t.d16 14
  let box := parseBox (kget e.c.boxes j.key []) pos
  let bad := !([box.y0, box.x0, box.y1, box.x1].all f32IsFinite) || decide (j.t.d32 0x10 ≤ box.img)
  if bad && j.nt == 0 then countCore j ctSample 1
  (List.range (ch * cw)).forM (fun k => do
    let sy := cropCoord box.y0 box.y1 (k / cw) ch
    let sx := cropCoord box.x0 box.x1 (k % cw) cw
    let near := j.t.d8 1 == 1
    let vs ← (if bad then pure (cols.map (fun _ => some f32NaN))
      else match cropTaps near h w sy sx with
        | none => pure (cols.map (fun _ => some (j.t.d32 0x1C)))
        | some taps => do
          let e ← get
          let ps ← taps.mapM (fun t =>
            loadElems j g (cols.map (fun c => j.mapAddr e g pos box.img t.1 t.2 (256 * j.nt + c))))
          pure ((List.range cols.length).map (fun i =>
            let p := ps.map (fun l => (toF32s g.fmt [some (l.getD i none)]).headD none)
            if p.any Option.isNone then none
            else if near then (p.headD none) else some (bilinear sy sx (p.map (fun v => v.getD 0))))))
    let e ← get
    let row := if j.byCtx out then j.rowIn pos else pos
    let el (c : Nat) : Nat := (j.rowIn pos * (ch * cw) + k) * j.nB + 256 * j.nt + c
    let zs := (cols.zip vs).map (fun z =>
      (z.1, j.outVal e out.fmt pos (el z.1) (rowBad || e.x.allBad || z.2.isNone) { fmt := 0, w := z.2.getD 0 }))
    countCore j ctSat ((zs.map (fun z => z.2.2)).foldl (· + ·) 0)
    (j.outBases e out pos).forM (fun b =>
      storeElems j out (fmtBytes out.fmt) out.fmt (zs.map (fun z => (j.cropAddr out b row k (ch * cw) z.1, z.2.1)))))

/-- One tile pass of a vector program. -/
def vectorWork (j : Job) (flt : Option PassFault) : CoreAct Unit := do
  if j.nt = 0 then
    let v ← validRows j
    modify (fun e => { e with c := { e.c with rows := v.1, accBad := [], holdBad := v.2, q := [], hold := [] } })
  match flt with
  | some f => applyFault j f
  | none => pure ()
  if j.t.d8 0 = 1 then sampleTile j
  else
    let e ← get
    let masks ← colMasks j e.c.rows
    e.c.rows.forM (fun pos => do
      let e ← get
      cropBox j pos (j.validCols (masks pos).1) ((masks pos).2 || e.c.rowBad 0 pos))

end Sys2Proof.Machine
end

