-- ==== Sys2Proof/Machine/Launch.lean ====
section
/-!
DEFINITION. Starting work on cores (R84, R97, R100, R107, R112, R120 to R124, R133, R151, R206, R224, R306, R360, R363):
the pieces of work of a core in order, what the signature checker expects, the checks at command start, and the stockpot
space.
-/

namespace Sys2Proof.Machine

/-! The work of a core (R91, R107, R122, R124, R133). -/

/-- What the enumeration of one tile program on one core needs. -/
structure Plan where
  layer : Nat
  prog : Nat
  img : Bytes
  t : TileProg
  roll : Bool
  total : Nat                      -- rows of the batch
  rank : Nat
  cores : Nat                      -- P
  len : Nat
  lenList : Nat                    -- the rank-0 core's word, which governs a length-driven pointer-list loop
  list : Bytes                     -- pointer list, empty for none
  units : List (Nat × Nat)         -- attention units: context place, units
  toks : List (Nat × Nat) := []    -- their tokens: context place, tokens of a frame
  rows : Nat := 0                  -- ROWS of the rollout table in a pass
  only : Option Nat := none
  deriving DecidableEq, Repr

def Plan.mk1 (p : Plan) (idx : List Nat) (entry pass : Nat) : Work :=
  { layer := p.layer, prog := p.prog, entry := entry, idx := idx, pass := pass, only := p.only }

/-- Scoreboard operations of a loop, by WHEN: the SETs of a cycle before its WAITs, each in rising index (R108). -/
def Plan.sbAt (p : Plan) (loop whn : Nat) (idx : List Nat) (entry : Nat) : List Work :=
  let l := p.t.sbs.zipIdx.filter (fun z => z.1.sloop == loop && z.1.whn == whn)
  (l.filter (fun z => z.1.op == 2) ++ l.filter (fun z => z.1.op != 2)).map (fun z =>
    { p.mk1 idx entry 0 with sb := some z.2 })

/-- The pieces of work at one position of all loops. -/
def Plan.leaf (p : Plan) (idx : List Nat) (entry : Nat) : List Work :=
  match p.t.kind with
  | .attention => p.units.flatMap (fun u => (List.range u.2).map (fun k => p.mk1 idx u.1 k))
  | .dot => if p.t.arrayOp ≠ 0 then [p.mk1 idx entry 0]
            else (List.range (passesOf p.t.product).length).map (p.mk1 idx entry)
  | _ => [p.mk1 idx entry 0]

/-- Entries of the pointer list. A length beyond COUNT x EXTENT ends the command before any of them runs (R100, R112). -/
def Plan.entries (p : Plan) (l : LoopD) : Nat := if l.len then min p.lenList (l.count * l.extent) else l.count

/-- Iterations of a loop, in order. -/
def Plan.steps (p : Plan) (l : LoopD) (idx : List Nat) (entry : Option EntryD) : List Nat :=
  if p.t.kind = .attention ∧ 1 ≤ l.role ∧ l.role ≤ 3 then [0]
  else if l.role = 4 ∧ !p.list.isEmpty then
    (List.range (p.entries l)).filter (fun e =>
      let x := parseEntry p.list e
      e % p.cores == p.rank && x.m != 0 && x.n != 0 && x.k != 0)
  else
    let n := ceilDiv (boundOf p.t p.img entry p.roll p.total p.len (p.t.groupIdx idx) l) (max 1 l.extent)
    let r := List.range n
    if l.role = 1 ∧ p.roll then r.filter (fun b => b % p.cores == p.rank)
    else if l.role = 3 ∧ p.t.kind = .scan ∧ (parseScan p.t.desc).reverse then r.reverse
    else r

/-- The loop nest. -/
def Plan.nest (p : Plan) : List (LoopD × Nat) → List Nat → Nat → List Work
  | [], idx, entry => p.leaf idx entry
  | (l, n) :: rest, idx, entry =>
    let listed := p.t.loops.any (fun z => z.role == 4) && !p.list.isEmpty && p.t.loopIdx 4 < n
    (p.steps l idx (if listed then some (parseEntry p.list entry) else none)).flatMap (fun i =>
      let e := if l.role = 4 ∧ !p.list.isEmpty then i else entry
      p.sbAt n 0 (idx ++ [i]) e ++ p.nest rest (idx ++ [i]) e ++ p.sbAt n 1 (idx ++ [i]) e)

/-- The whole work of a tile program on a core: WAITs at its start, then the loops. A core of length 0 runs none, and neither
does a window whose output is empty (R208). -/
def Plan.works (p : Plan) : List Work :=
  ((p.t.sbs.zipIdx.filter (fun z => z.1.sloop == 0xFF && z.1.op == 1)).map (fun z =>
    { p.mk1 [] 0 0 with sb := some z.2 }))
  ++ (if emptyWindow p.t p.img then []
      else if p.t.lenLoop.isSome ∧ p.len = 0 ∧ !(p.t.loops.any (fun l => l.role == 4 && l.len)) then []
      else p.nest p.t.loops.zipIdx [] 0)

/-- The SETs of a tile program with SLOOP 0xFF, where another tile program follows it in the same pass (R84, R107). -/
def Plan.sets (p : Plan) : List Work :=
  (p.t.sbs.zipIdx.filter (fun z => z.1.sloop == 0xFF && z.1.op == 2)).map (fun z =>
    { p.mk1 [] 0 0 with sb := some z.2 })

/-- The work of tile programs that run in sequence: such a SET acts at the end of its tile program, as R108 places a WAIT
at its start (DEDUCED, log 89). Those of the last one act at the end of the command. -/
def inSequence : List Plan → List Work
  | [] => []
  | [p] => p.works
  | p :: q :: l => p.works ++ p.sets ++ inSequence (q :: l)

/-! The address signature (R94, R97, R263). -/

/-- The loop at whose iterations a generator issues: the innermost one with a nonzero stride, the K tile loop for packed
weights. -/
def sigLoop (t : TileProg) (g : GenD) (strides : List Int) : Option Nat :=
  if g.fmt = 10 then some (t.loopIdx 3)
  else ((List.range t.loops.length).filter (fun l => strides.getD l 0 != 0)).getLast?

/-- What a generator adds to its signature at a piece of work: none where it issues nothing there. -/
def sigTerm (t : TileProg) (kt : Nat) (g : GenD) (strides : List Int) (w : Work) : Option Nat :=
  match sigLoop t g strides with
  | none => none
  | some li =>
    if w.sb.isSome ∨ w.only.isSome ∨ w.pass ≠ 0 ∨ (w.idx.drop (li + 1)).any (· != 0)
        ∨ (t.kind = .attention ∧ w.entry ≠ 0) then none
    else
      let off := (w.idx.zip strides).map (fun z => (z.1 : Int) * z.2)
      let p := planesOf t.product
      let tile := if g.fmt = 10 then
          (List.range p).map (fun i => (((w.idx.getD (t.loopIdx 2) 0 * kt + w.idx.getD (t.loopIdx 3) 0) * p + i : Nat) : Int))
        else []
      some (unsigned 64 ((off ++ tile).foldl (· + ·) 0))

/-- Add the terms of a piece of work, under given strides, to a signature map. -/
def sigAdd (t : TileProg) (kt : Nat) (strides : List (List Int)) (m : KMap Nat) (w : Work) : KMap Nat :=
  (t.gens.zip strides).zipIdx.foldl (fun m z =>
    match sigTerm t kt z.1.1 z.1.2 w with
    | some v => kmod m (lpKey w.layer w.prog * 8 + z.2) 0 (fun s => (s + v) % 2 ^ 64)
    | none => m) m

/-! Stockpot space (R120). -/

/-- Allocations in force on a skillet of a partition: offset, bytes. -/
def Dev.potTaken (d : Dev) (part k : Nat) : List (Nat × Nat) :=
  d.runs.flatMap (fun e => if e.2.part = part ∧ !e.2.ended then
    (e.2.cores.filter (fun c => c.core / 8 == k && c.potBytes != 0)).map (fun c => (c.pot, c.potBytes)) else [])

/-- The least offset of a share at which `n` bytes are free. -/
def potFit (size n : Nat) (taken : List (Nat × Nat)) : Option Nat :=
  ((0 :: taken.map (fun z => ceilDiv (z.1 + z.2) 64 * 64)).filter (fun a =>
    decide (a + n ≤ size) && taken.all (fun z => decide (a + n ≤ z.1) || decide (z.1 + z.2 ≤ a)))).foldl
      (fun (b : Option Nat) a => match b with
        | some v => some (min v a)
        | none => some a) none

/-- Space of `n` bytes for each core: none where a share cannot grant it now. -/
def Dev.takePots (d : Dev) (part n : Nat) (cores : List Nat) : Option (List Nat) :=
  match d.part part with
  | none => none
  | some x =>
    (cores.foldl (fun (acc : Option (List Nat × List (Nat × Nat × Nat))) g =>
      match acc with
      | none => none
      | some (l, t) =>
        if n = 0 then some (l ++ [0], t)
        else
          let own := (t.filter (fun z => z.1 == g / 8)).map (·.2)
          match potFit (x.potSize (g / 8)) n (d.potTaken part (g / 8) ++ own) with
          | some a => some (l ++ [a], t ++ [(g / 8, a, n)])
          | none => none) (some ([], []))).map (·.1)

/-- Stockpot space that the device uses for itself holds no stated bytes afterwards: every byte of it a free value. -/
def Dev.blurPot (d : Dev) (part g a n : Nat) : Dev :=
  match d.part part with
  | some x => let f := d.freeBytes n
              (f.2.potPut x (g / 8) a f.1).2
  | none => d

/-- A tile program that spills, splits, holds or scores in its stockpot space. -/
def TileProg.ownPot (t : TileProg) : Bool :=
  t.pot != 0 && (t.spillBytes != 0 || t.kind == .attention || t.epi.any (fun s => rowClosing s.kind)
    || (t.kind == .dot && decide (t.pieceLen < (t.loop 3).count * 256)))

/-! Prefetch (R306). -/

/-- The start of work on layer `l` of a program. -/
def Dev.prefetch (d : Dev) (part : Nat) (g : Prog) (l : Nat) : Dev :=
  match g.sched, d.part part with
  | some s, some x =>
    let n := max 1 (parseImage g.image).layers
    let lies (k : Nat) (lo : Nat) : Bool := (List.range (s.depth + 1)).any (fun i => decide (lo ≤ i) && (l + i) % n == k)
    let pages (lo : Nat) : List Nat := s.entries.flatMap (fun e =>
      if lies e.1 lo then
        match x.tier.pageOf e.2.2 with
        | some pg => (List.range e.2.1).map (pg + ·)
        | none => []
      else [])
    let crock (pg : Nat) : Bool := match x.tier.st pg with
      | .crock _ => true
      | _ => false
    let stk (pg : Nat) : Bool := match x.tier.st pg with
      | .stack _ => true
      | _ => false
    let win := pages 0
    let t := { x.tier with
               window := win
               queue := x.tier.queue ++ ((pages 1).filter (fun pg => crock pg && !x.tier.queue.contains pg)).eraseDups
               accessed := ((pages 1).filter stk).foldl (fun a pg => insertSorted pg a) x.tier.accessed }
    d.putPart part { x with tier := t }
  | _, _ => d

end Sys2Proof.Machine
end

