-- ==== Sys2Proof/Machine/Reach.lean ====
section
/-!
DEFINITION. How far a generator reaches over valid elements, and the checks of a command at its start (R102, R112, R123,
R129, R151, R210, R224).
-/

namespace Sys2Proof.Machine

/-! The elements that a generator addresses. -/

/-- What a tile program takes through a generator: along which axis its columns run, whether every row of a band is
addressed or its first alone, and how many columns (none: the bound of the axis). -/
structure GenUse where
  axis : Nat
  first : Bool := false
  cols : Option Nat := none
  deriving DecidableEq, Repr

/-- The uses of generator `i`: second inputs of stages, the columns of an ARGSEL or a sample, or the operand itself. -/
def TileProg.uses (t : TileProg) (i : Nat) (g : GenD) : List GenUse :=
  let stage (axis : Nat) (s : StageD) : List GenUse :=
    if s.sgen ≠ i then []
    else match s.src with
      | 1 => [{ axis := axis, first := true }]
      | 2 => [{ axis := axis, cols := some 1 }]
      | 3 => [{ axis := axis }]
      | _ => []
  let sts := t.pro.flatMap (stage 3) ++ t.epi.flatMap (stage 2)
  let arg := (t.epi.find? (fun s => s.kind == 10)).map (·.p0)
  if g.grole = 3 ∧ !sts.isEmpty then sts
  else if g.grole = 2 ∨ g.grole = 7 then
    [{ axis := 2, cols := match t.kind with
        | .vector => if t.d8 0 = 1 ∧ t.d8 1 ≠ 2 then some 1 else none
        | _ => arg }]
  else [{ axis := if g.grole = 0 ∧ (t.kind = .dot ∨ t.kind = .attention) then 3 else 2 }]

/-- Iterations and bound of every loop for one core, or one entry, in iteration `it` of a window's group loop. -/
def Plan.countsAt (p : Plan) (entry : Option EntryD) (it : Nat) : List (Nat × Nat) :=
  p.t.loops.map (fun l =>
    let b := boundOf p.t p.img entry p.roll p.total (min p.len (l.count * l.extent)) it l
    if p.t.kind = .attention ∧ 1 ≤ l.role ∧ l.role ≤ 3 then (1, b)
    else if l.role = 4 ∧ !p.list.isEmpty then (min 4096 (p.entries l), p.entries l)
    else (ceilDiv b (max 1 l.extent), b))

/-- Iterations of a window's group loop at which an end of the reach can lie: the first and the last two, or every one
under a strided layout; the first alone without one. -/
def Plan.groupEnds (p : Plan) (g : GenD) : List Nat :=
  match p.t.window p.img with
  | none => [0]
  | some x =>
    let n := ceilDiv x.groups x.gp
    if x.groups ≤ x.gp then [0]
    else match layoutAt p.img g.layout with
      | .strided _ => List.range n
      | _ => [0, n - 2, n - 1].eraseDups

/-- Row positions that a core takes, as intervals (first, past the last): all rows of a GRAPH_RUN, its own bands of a pass
(R133), the tokens of its contexts (R186). -/
def Plan.rowSpans (p : Plan) (cs : List (Nat × Nat)) : List (Nat × Nat) :=
  let m := (cs.getD (p.t.loopIdx 1) (1, 1)).2
  let br := max 1 p.t.bandRows
  if p.t.kind = .attention then p.toks.map (fun z => (z.1 * max p.rows z.2, z.1 * max p.rows z.2 + z.2))
  else if p.roll then
    ((List.range (ceilDiv m br)).filter (fun b => b % max 1 p.cores == p.rank)).map (fun b => (b * br, min m ((b + 1) * br)))
  else [(0, m)]

/-- The rows that a base serves: those of its context, counted within it (R363), or every position of the batch. -/
def Plan.rowsOf (p : Plan) (cs : List (Nat × Nat)) (ctx : Option Nat) : List (Nat × Nat) :=
  match ctx with
  | none => p.rowSpans cs
  | some q =>
    let n := if p.t.kind = .attention then max p.rows (kget p.toks q 0) else p.rows
    (p.rowSpans cs).filterMap (fun z =>
      let lo := max z.1 (q * n)
      let hi := min z.2 ((q + 1) * n)
      if lo < hi then some (lo - q * n, hi - q * n) else none)

/-- Least and greatest of a list of offsets; 0 for none. -/
def ends (l : List Int) : Int × Int :=
  match l with
  | [] => (0, 0)
  | x :: r => r.foldl (fun a v => (min a.1 v, max a.2 v)) (x, x)

/-- Rows at which an end of the row offsets lies: an interval's ends, and the end of its first band. -/
def rowEnds (br : Nat) (first : Bool) (l : List (Nat × Nat)) : List Nat :=
  l.flatMap (fun z =>
    if first then [z.1 / br * br, (z.2 - 1) / br * br]
    else [z.1, z.2 - 1, min (z.2 - 1) (z.1 / br * br + br - 1)])

/-- Columns, by tile, at which an end of the column offsets lies. -/
def colEnds (n : Nat) : List (Nat × Nat) :=
  let k := ceilDiv n 256
  [(0, 0), (0, min n 256 - 1), (k - 1, 0), (k - 1, (n - 1) % 256)] ++ (if 2 ≤ k then [(k - 2, 255)] else [])

/-- What the loops outside the band loop add: least and greatest, at one entry of a list and one group iteration. -/
def Plan.outerAt (p : Plan) (g : GenD) (cs : List (Nat × Nat)) (at_ : Option Nat) (it : Option Nat) : Int × Int :=
  p.t.outer.foldl (fun (a : Int × Int) l =>
    let s := g.strides.getD l 0
    let n := (cs.getD l (1, 1)).1 - 1
    let fixed := match (p.t.loops.getD l (p.t.loop 4)).role with
      | 4 => at_
      | _ => it
    match fixed with
    | some e => (a.1 + (e : Int) * s, a.2 + (e : Int) * s)
    | none => (a.1 + min 0 ((n : Int) * s), a.2 + max 0 ((n : Int) * s))) (0, 0)

/-- Bound of the columns of a use. -/
def Plan.useCols (p : Plan) (cs : List (Nat × Nat)) (u : GenUse) : Nat :=
  match u.cols with
  | some n => n
  | none => if p.t.kind = .attention then (parseAttn p.t.desc).heads * (parseAttn p.t.desc).hd
            else (cs.getD (p.t.loopIdx u.axis) (1, 1)).2

/-- Column offsets of a use. -/
def Plan.colsAt (p : Plan) (cs : List (Nat × Nat)) (u : GenUse) : List (Nat × Nat) :=
  let n := p.useCols cs u
  if p.t.kind = .attention then [(0, 0), (0, n - 1)] else colEnds n

/-- What the other tile loop adds: least and greatest. A scan's time steps lie 1/256 of the stride apart (log 66). -/
def Plan.otherAt (p : Plan) (g : GenD) (cs : List (Nat × Nat)) (u : GenUse) : Int × Int :=
  let r := if u.axis = 3 then 2 else 3
  let s := p.t.strideOn g r
  let c := cs.getD (p.t.loopIdx r) (1, 1)
  ends [0, if p.t.kind = .scan ∧ r = 3 then ((c.2 - 1 : Nat) : Int) * (s / 256) else ((c.1 - 1 : Nat) : Int) * s]

/-- Bytes of a stored A-format row of `n` elements (log 65). -/
def storedBytes (fmt n : Nat) : Nat :=
  let nb := ceilDiv n 32
  (if fmt = 6 then 16 * nb else 32 * nb) + nb + (if fmt = 7 then ceilDiv nb 8 else 0)

/-- Linear offsets of the valid elements of a use: least and greatest. -/
def Plan.linear (p : Plan) (g : GenD) (cs rows : List (Nat × Nat)) (at_ it : Option Nat) (u : GenUse) : Int × Int :=
  let o := p.outerAt g cs at_ it
  let r := ends ((rowEnds (max 1 p.t.bandRows) u.first rows).map (p.t.rowOff g))
  let c := ends ((p.colsAt cs u).map (fun z => p.t.colOff g u.axis z.1 z.2))
  let k := p.otherAt g cs u
  (o.1 + r.1 + c.1 + k.1, o.2 + r.2 + c.2 + k.2)

/-- Every linear offset of the valid elements of a use, folded: for a layout under which an end need not lie at an end. -/
def Plan.foldLinear (p : Plan) (g : GenD) (cs rows : List (Nat × Nat)) (at_ it : Option Nat) (u : GenUse) (f : Int × Int → Int → Int × Int)
    (z : Int × Int) : Int × Int :=
  let r := if u.axis = 3 then 2 else 3
  let s := p.t.strideOn g r
  let c := cs.getD (p.t.loopIdx r) (1, 1)
  let others : List Int := if p.t.kind = .scan ∧ r = 3 then (List.range c.2).map (fun (i : Nat) => (i : Int) * (s / 256))
    else (List.range c.1).map (fun (i : Nat) => (i : Int) * s)
  let outer := p.t.outer.foldl (fun (l : List Int) i =>
    let v := g.strides.getD i 0
    match (if (p.t.loops.getD i (p.t.loop 4)).role = 4 then at_ else it) with
    | some e => l.map (· + (e : Int) * v)
    | none => l.flatMap (fun x => (List.range (cs.getD i (1, 1)).1).map (fun (k : Nat) => x + (k : Int) * v))) [0]
  let n := p.useCols cs u
  outer.foldl (fun z o => rows.foldl (fun z sp => (List.range (sp.2 - sp.1)).foldl (fun z i =>
    if u.first ∧ (sp.1 + i) % max 1 p.t.bandRows ≠ 0 then z
    else
      let a := o + p.t.rowOff g (sp.1 + i)
      others.foldl (fun z k => (List.range n).foldl (fun z c =>
        f z (a + k + (if p.t.kind = .attention then p.t.colOff g u.axis 0 c else p.t.colOff g u.axis (c / 256) (c % 256)))) z) z) z) z) z

/-- Cells of a raster of `h` rows and `w` columns that rows 0 to m - 1 of a virtual matrix cover: full images, and the whole
lines and the last line of the image that is begun, each as (image, first line, past the last, columns). -/
def rasterParts (h w m : Nat) : List (Nat × Nat × Nat × Nat) :=
  let n := m / (h * w)
  let r := m % (h * w)
  (if n = 0 then [] else [(0, 0, h, w), (n - 1, 0, h, w)]) ++ (if r / w = 0 then [] else [(n, 0, r / w, w)])
    ++ (if r % w = 0 then [] else [(n, r / w, r / w + 1, r % w)])

/-- Offsets that a window layout reads for rows 0 to m - 1: least and past the greatest; none where every tap is constant
padding (R207, R209). -/
def WindowD.span (x : WindowD) (es m it : Nat) : Option (Int × Int) :=
  if x.oh = 0 ∨ x.ow = 0 then none
  else
    let taps (mode n pad s d k lo hi : Nat) : List Nat :=
      (List.range (hi - lo)).flatMap (fun o => (List.range k).filterMap (fun t =>
        padCoord mode n ((((lo + o) * s + t * d : Nat) : Int) - pad)))
    let r := 2 ^ x.rg
    let run := if x.rg = 0 then x.gpv it * x.cg else x.cg / (r * r)
    ((rasterParts x.oh x.ow m).filterMap (fun z =>
      let ys := taps x.padMode x.hg x.pt x.sh x.dh x.kh z.2.1 z.2.2.1
      let xs := taps x.padMode x.wg x.pl x.sw x.dw x.kw 0 z.2.2.2
      match ys, xs with
      | y :: ys, w :: ws =>
        let lo := z.1 * x.img + ys.foldl min y * r * x.row + ws.foldl min w * r * x.pix
        let hi := z.1 * x.img + (ys.foldl max y * r + (r - 1)) * x.row + (ws.foldl max w * r + (r - 1)) * x.pix + run * es
        some ((lo : Int), (hi : Int))
      | _, _ => none)).foldl (fun (b : Option (Int × Int)) v => match b with
        | some a => some (min a.1 v.1, max a.2 v.2)
        | none => some v) none

/-- Offsets that a regroup layout reaches for rows 0 to m - 1: least and past the greatest (R215). -/
def RegroupD.span (x : RegroupD) (es m : Nat) : Option (Int × Int) :=
  let r := 2 ^ x.rg
  ((rasterParts x.hg x.wg m).map (fun z =>
    (((z.1 * x.img + z.2.1 * r * x.row : Nat) : Int),
     ((z.1 * x.img + (z.2.2.1 * r - 1) * x.row + (z.2.2.2 * r - 1) * x.pix + x.craw * es : Nat) : Int)))).foldl
      (fun (b : Option (Int × Int)) v => match b with
        | some a => some (min a.1 v.1, max a.2 v.2)
        | none => some v) none

/-- Join two reaches. -/
def joinSpan (a b : Option (Int × Int)) : Option (Int × Int) :=
  match a, b with
  | some x, some y => some (min x.1 y.1, max x.2 y.2)
  | some x, none => some x
  | none, y => y

/-- Offsets of a mask generator's words, or of a reset plane's: least and past the greatest (R99, R158). -/
def Plan.maskSpan (p : Plan) (i : Nat) (g : GenD) (cs rows : List (Nat × Nat)) (at_ : Option Nat) : Int × Int :=
  let br := max 1 p.t.bandRows
  let o := p.outerAt g cs at_ none
  let sb := p.t.strideOn g 1
  let words := if p.t.preds.any (fun q => q.kind == 2 && q.pgen == i) then (min br ((rows.map (fun z => z.2 - z.1)).foldl max 1) - 1) / 256 else 0
  let r := if p.t.kind = .scan ∧ !p.t.preds.any (fun q => 2 ≤ q.kind && q.pgen == i) then
      ends ((rowEnds br false rows).map (fun (n : Nat) => (n : Int) * (sb / (br : Int))))
    else ends ((rowEnds br true rows).map (fun (n : Nat) => ((n / br : Nat) : Int) * sb))
  let k (role : Nat) : Int × Int := ends [0, (((cs.getD (p.t.loopIdx role) (1, 1)).1 - 1 : Nat) : Int) * p.t.strideOn g role]
  (o.1 + r.1 + (k 2).1 + (k 3).1, o.2 + r.2 + (k 2).2 + (k 3).2 + ((32 * words + 32 : Nat) : Int))

/-- Offsets of a crop's map and of its output rows: least and past the greatest (R223). -/
def Plan.cropSpan (p : Plan) (g : GenD) (cs rows : List (Nat × Nat)) (at_ : Option Nat) (out : Bool) : Int × Int :=
  let es := fmtBytes g.fmt
  let t := p.t
  let o := p.outerAt g cs at_ none
  let n := t.d16 6 * t.d16 8
  let z : Int × Int :=
    if out then
      let r := ends ((rowEnds (max 1 t.bandRows) false rows).flatMap (fun r =>
        [t.rowOff g r, t.rowOff g r + ((n - 1 : Nat) : Int) * (t.pitch g / (n : Int))]))
      let c := ends ((colEnds (cs.getD (t.loopIdx 2) (1, 1)).2).map (fun z => t.colOff g 2 z.1 z.2))
      (r.1 + c.1, r.2 + c.2 + (es : Int))
    else
      (0, (((t.d32 0x10 - 1) * field t.desc 0x20 8 + (t.d16 12 - 1) * t.d32 0x18 + (t.d16 14 - 1) * t.d32 0x14
            + (cs.getD (t.loopIdx 2) (1, 1)).2 * es : Nat) : Int))
  match layoutAt p.img g.layout with
  | .strided x => x.box es
  | _ => (o.1 + z.1, o.2 + z.2)

/-- Offsets of one group iteration: least and past the greatest. -/
def Plan.spanAt (p : Plan) (i : Nat) (g : GenD) (entry : Option EntryD) (at_ ctx : Option Nat) (it : Nat) :
    Option (Int × Int) :=
  let t := p.t
  let cs := p.countsAt entry it
  let rows := p.rowsOf cs ctx
  let es := fmtBytes g.fmt
  let grouped := match t.window p.img with
    | some x => if x.groups ≤ x.gp then none else some it
    | none => none
  let o := p.outerAt g cs at_ grouped
  let m := (rows.map (·.2)).foldl max 0
  if cs.any (fun c => c.1 == 0) || rows.isEmpty then none
  else if g.grole = 6 then some (p.maskSpan i g cs rows at_)
  else if g.fmt = 10 then
    let r := ends ((rowEnds (max 1 t.bandRows) true rows).map (fun (n : Nat) => ((n / max 1 t.bandRows : Nat) : Int) * t.strideOn g 1))
    some (o.1 + r.1, o.2 + r.2 + 256)
  else if g.grole = 5 then some (o.1, o.2 + 64)
  else if t.kind = .attention ∧ i = (parseAttn t.desc).spillGen then
    some (o.1, o.2 + (scoreBytes t.bandRows (parseAttn t.desc).maxKeys : Int))
  else if t.kind = .vector ∧ t.d8 0 = 2 ∧ i = t.d8 3 then none
  else if t.kind = .vector ∧ t.d8 0 = 2 ∧ (i = t.d8 2 ∨ i = t.d8 4) then some (p.cropSpan g cs rows at_ (i == t.d8 4))
  else
    match layoutAt p.img g.layout with
    | .window x => (x.span es m it).map (fun z => (o.1 + z.1, o.2 + z.2))
    | .regroup x => (x.span es m).map (fun z => (o.1 + z.1, o.2 + z.2))
    | .strided x =>
      (t.uses i g).foldl (fun (a : Option (Int × Int)) u =>
        let first := (p.linear g cs rows at_ grouped u).1
        let z := (x.map es (unsigned 64 first) : Int)
        joinSpan a (some (let w := p.foldLinear g cs rows at_ grouped u (fun b v =>
            let y := signed 64 (x.map es (unsigned 64 v))
            (min b.1 y, max b.2 y)) (signed 64 z.toNat, signed 64 z.toNat)
          (w.1, w.2 + (es : Int))))) none
    | _ =>
      (t.uses i g).foldl (fun (a : Option (Int × Int)) u =>
        let z := p.linear g cs rows at_ grouped u
        let size := if fmtA g.fmt then storedBytes g.fmt (p.useCols cs u) else es
        let z' := if fmtA g.fmt then
            let r := ends ((rowEnds (max 1 t.bandRows) u.first rows).map (t.rowOff g))
            (o.1 + r.1, o.2 + r.2)
          else z
        joinSpan a (some (z'.1, z'.2 + (size : Int)))) none

/-- The least and past-the-greatest byte that a generator reaches from its base over valid elements; none where it
reaches nothing (R112, R129). `ctx` is the context whose pointer is the base. -/
def Plan.reach (p : Plan) (i : Nat) (g : GenD) (entry : Option EntryD) (at_ ctx : Option Nat) : Option (Int × Int) :=
  (((p.groupEnds g).map (p.spanAt i g entry at_ ctx)).foldl joinSpan none).map (fun z =>
    ((g.base : Int) + z.1, (g.base : Int) + z.2))

/-! The checks of R112 at command start. -/

/-- A range check of one generator: device memory against the partition and its record region (R318), SRAM against its
space by the reach from the image (R102). -/
def Dev.genFits (d : Dev) (part : Nat) (p : Plan) (i : Nat) (g : GenD) (base : Nat × Option Nat) (entry : Option EntryD)
    (at_ : Option Nat) : Option Nat :=
  if g.space = 0 then
    match p.reach i g entry at_ base.2 with
    | none => none
    | some (lo, hi) =>
      let a := (base.1 : Int) + lo
      let b := (base.1 : Int) + hi
      let hit : Bool := match d.part part with
        | some x => g.wr && x.protected a.toNat (b - a).toNat
        | none => true
      if decide (a < 0) || hit || !d.owned part a.toNat || !d.owned part (b - 1).toNat then some stAddrRange else none
  else
    let r := p.t.reach p.img g
    if 0 ≤ (base.1 : Int) + r.1 ∧ (base.1 : Int) + r.2 ≤ (p.t.spaceSize g.space : Int) then none else some stBufferOverflow

/-- Bytes of a row-closing chain, and of a split reduction (R151). -/
def Plan.rowSpace (p : Plan) (entry : Option EntryD) : Nat × Nat :=
  let b (r : Nat) : Nat := boundOf p.t p.img entry p.roll p.total (min p.len 16777216) 0 (p.t.loop r)
  let rows := match entry with
    | some e => e.m
    | none => p.t.bandRows
  let npad := 256 * ceilDiv (b 2) 256
  (((p.t.epi.map (fun s => if s.kind = 9 ∨ s.kind = 8 then rows * (npad * fmtBytes s.ifmt + 16)
      else if s.kind = 10 then rows * 64 else 0)).foldl (· + ·) 0),
   if p.t.kind = .dot ∧ p.t.pieceLen < b 3 then rows * 2 * (256 * 8 + 8) else 0)

/-- The entries of a pointer list. -/
def Plan.allEntries (p : Plan) : List (Nat × EntryD) :=
  match p.t.loops.find? (fun l => l.role == 4) with
  | some l => if p.list.isEmpty then [] else (List.range (min 4096 (p.entries l))).map (fun e => (e, parseEntry p.list e))
  | none => []

/-- Those that are not skipped (R123). -/
def Plan.liveEntries (p : Plan) : List (Nat × EntryD) :=
  p.allEntries.filter (fun z => z.2.m != 0 && z.2.n != 0 && z.2.k != 0)

/-- The shapes that a core's command takes: every entry of the list, or the one without. -/
def Plan.shapes (p : Plan) : List (Option Nat × Option EntryD) :=
  if p.t.loops.any (fun l => l.role == 4) && !p.list.isEmpty then p.allEntries.map (fun z => (some z.1, some z.2))
  else [(none, none)]

/-- The shapes that run: an entry with an extent of 0 is skipped (R123). -/
def Plan.liveShapes (p : Plan) : List (Option Nat × Option EntryD) :=
  p.shapes.filter (fun s => match s.2 with
    | some e => e.m != 0 && e.n != 0 && e.k != 0
    | none => true)

/-- The core of a plan runs the shape: an entry goes to the core of its rank (R124). -/
def Plan.runs (p : Plan) (s : Option Nat × Option EntryD) : Bool :=
  match s.1 with
  | some e => e % max 1 p.cores == p.rank
  | none => true

/-- The first check that fails, of all shapes in list order over all cores: its status, and the index of the entry. -/
def shapeFails (ps : List Plan) (f : Plan → Option Nat → Option EntryD → Option Nat) : Option (Nat × Nat) :=
  ((ps.head?.map Plan.shapes).getD []).findSome? (fun s =>
    (ps.filter (fun q => q.runs s)).findSome? (fun q => (f q s.1 s.2).map (fun st => (st, s.1.getD 0))))

/-- The other core of a pair joins a distance command that names one of cores 6 and 7 alone (R82). -/
def twinned (t : TileProg) (img : Bytes) (cores : List Nat) (g : Nat) : Bool :=
  t.arrayOp != 0 && (parseImage img).dup && !cores.contains (if g % 8 = 6 then g + 1 else g - 1)

/-- The checks of one tile program over all cores of the command (R112, R123, R210, R224): the status, and the first
failing entry of a list (R348). `base` gives the bases of a generator on a core for a shape, each with the context that it
serves. -/
def Dev.startFails (d : Dev) (part : Nat) (cores : List Nat) (ps : List Plan)
    (base : Plan → GenD → Option EntryD → List (Nat × Option Nat)) (boxes : List Bytes) (graph : Bool) : Option (Nat × Nat) :=
  match ps with
  | [] => none
  | p :: _ =>
    let t := p.t
    let own := match d.part part with
      | some x => x.cores
      | none => []
    let bound (q : Plan) (e : Option EntryD) (r : Nat) : Nat := boundOf t q.img e q.roll q.total q.len 0 (t.loop r)
    let ent := (t.loops.filter (fun l => l.role == 4)).any (fun l => !p.list.isEmpty && decide (4096 < (if l.len then p.lenList else l.count)))
    let when_ (b : Bool) (st : Nat) : Option (Nat × Nat) := if b then some (st, 0) else none
    [ boxes.findSome? (fun b => ((List.range (b.length / 32)).find? (fun i => !zeroAt b (32 * i + 20) 12)).map
        (fun i => (stInvalidField, i))),
      when_ (graph && t.sbs.any (fun s => s.op == 1 && s.scope == 0 && s.value != 0
        && (s.sloop == 0xFF || !t.sbs.any (fun z => z.op == 2 && z.scope == 0 && z.entry == s.entry))))
        stScoreboardUnbound,
      when_ (t.arrayOp != 0 && cores.any (fun g => decide (g % 8 < 6))) stDistCore,
      when_ (t.arrayOp != 0 && (parseImage p.img).dup
        && cores.any (fun g => !own.contains (g / 8 * 8 + 6) || !own.contains (g / 8 * 8 + 7))) stDistDupCores,
      when_ (ent || (t.kind == .vector && t.d8 0 == 2 && ps.any (fun q => decide (4096 < bound q none 1)))) stListLimit,
      shapeFails ps (fun q _ e => if 16777216 < bound q e 3 then some stReductionLimit else none),
      shapeFails ps (fun q i e => t.gens.zipIdx.findSome? (fun g =>
        (base q g.1 e).findSome? (fun b => d.genFits part q g.2 g.1 b e i))),
      (match t.window p.img with
       | some x => when_ (x.padMode == 1 && (decide (x.hg ≤ x.pt) || decide (x.hg ≤ x.pb) || decide (x.wg ≤ x.pl)
           || decide (x.wg ≤ x.pr))) stPadReflect
       | none => none),
      when_ (ps.any (fun q => q.liveShapes.any (fun s =>
          let n := q.rowSpace s.2
          n.1 != 0 && decide (t.pot - t.spillBytes - n.2 < n.1)))) stChainRowstatSpace,
      when_ (cores.any (fun g => match d.part part with
          | some x =>
            let n := (cores.filter (fun h => h / 8 == g / 8)).length + (if twinned t p.img cores g then 1 else 0)
            t.pot != 0 && decide (x.potSize (g / 8) < t.pot * n)
          | none => false)) stChainRowstatSpace,
      when_ (match t.lenLoop with
          | some i =>
            (match t.loops[i]? with
             | some l => ps.any (fun q =>
                 let n := if l.role = 4 then q.lenList else q.len
                 match t.window p.img, l.role with
                 | some x, 1 => decide (x.nimg < n)
                 | _, _ => decide (l.count * l.extent < n))
             | none => false)
          | none => false) stLengthRange,
      (p.allEntries.find? (fun z => [(1, z.2.m), (2, z.2.n), (3, z.2.k)].any (fun w =>
          decide ((t.loop w.1).count * (t.loop w.1).extent < w.2)))).map (fun z => (stLengthRange, z.1)) ].findSome? id

/-- The command writes nothing for its shape (R100, R123, R208). -/
def emptyShape (ps : List Plan) : Bool :=
  match ps with
  | [] => true
  | p :: _ =>
    emptyWindow p.t p.img
    || (p.t.lenLoop.isSome && ps.all (fun q => (if p.t.loops.any (fun l => l.role == 4 && l.len) then q.lenList else q.len) == 0))
    || (p.t.loops.any (fun l => l.role == 4) && !p.list.isEmpty && p.liveEntries.isEmpty)

end Sys2Proof.Machine
end

