-- ==== Sys2Proof/Machine/Runs.lean ====
section
/-!
DEFINITION. Runs on cores (R50, R84, R97, R100, R104 to R111, R171, R172, R360): their start, tile passes, scoreboards,
multicast, escalation, the end and the time limit.
-/

namespace Sys2Proof.Machine

/-! One core of a run. -/

/-- The run that a core works on. -/
def Dev.runOn (d : Dev) (g : Nat) : Option (Nat × Run) := d.runs.find? (fun e => !e.2.ended && (e.2.coreAt g).isSome)

/-- The program of a run. -/
def Dev.runProg (d : Dev) (x : Run) : Option Prog := (d.part x.part).bind (fun p => kfind p.progs x.prog)

/-- Rows of the batch: ROWS per context (R87, R363). -/
def Run.rowsPer (x : Run) (img : Bytes) : Nat := if x.cmd.isNone then (parseRollout img).rows else 0

/-- Layers of a run, in order: a layer that is some layer's fallback runs by escalation alone. -/
def Run.layers (x : Run) (img : Bytes) : List Nat :=
  if x.cmd.isSome then [x.layer]
  else ((List.range (x.last + 1 - x.layer)).map (x.layer + ·)).filter (fun i => !isFallback img i)

/-- Tile programs of a layer that the run executes. -/
def Run.progsOf (x : Run) (img : Bytes) (layer : Nat) : List Nat :=
  if x.cmd.isSome then [x.index].filter (fun i => decide (i < (layerProgs img layer).length))
  else List.range (layerProgs img layer).length

/-- The tile programs of a run, in order. -/
def Run.programs (x : Run) (img : Bytes) : List (Nat × Nat) :=
  (x.layers img).flatMap (fun l => (x.progsOf img l).map (fun k => (l, k)))

/-- The core of the band that holds the first row of a context. -/
def Run.rankOf (x : Run) (t : TileProg) (rows q : Nat) : Nat := q * rows / max 1 t.bandRows % max 1 x.workers.length

/-- The attention units of a core: its contexts, each with its number of units (R186). -/
def Run.unitsOf (x : Run) (img : Bytes) (t : TileProg) (c : CoreRun) : List (Nat × Nat) :=
  if t.kind ≠ .attention then []
  else
    let a := parseAttn t.desc
    let rows := x.rowsPer img
    let qs := if x.cmd.isSome then [0]
              else (List.range x.ctxs.length).filter (fun q => x.rankOf t rows q == c.rank)
    qs.map (fun q => (q, a.heads * (a.blocks (parseRing (ringHeader c q))).length))

/-- The tokens of a frame for each context that an attention program runs on a core (R186). -/
def Run.toksOf (x : Run) (img : Bytes) (t : TileProg) (c : CoreRun) : List (Nat × Nat) :=
  (x.unitsOf img t c).map (fun u => (u.1, (parseRing (ringHeader c u.1)).tokens))

/-- One tile program on one core of a run. -/
def Run.planOn (x : Run) (img : Bytes) (c : CoreRun) (layer k : Nat) (only : Option Nat) : Plan :=
  let t := tileAt img layer k
  { layer := layer, prog := k, img := img, t := t, roll := x.cmd.isNone, total := x.rowsPer img * x.ctxs.length,
    rank := c.rank, cores := x.workers.length, len := c.len, lenList := ((x.workers.head?.map (·.len)).getD 0),
    list := x.list, units := x.unitsOf img t c, toks := x.toksOf img t c, rows := x.rowsPer img, only := only }

/-- Every tile program of the run on one core, in order. -/
def Run.plansOn (x : Run) (img : Bytes) (c : CoreRun) : List Plan :=
  (x.programs img).map (fun z => x.planOn img c z.1 z.2 none)

/-- What a piece of work runs under. -/
def Dev.jobFor (d : Dev) (x : Run) (c : CoreRun) (env : Env) (w : Work) : Option Job :=
  (d.runProg x).map (fun g =>
    let t := tileAt g.image w.layer w.prog
    let listed := t.kind != .attention && t.loops.any (fun l => l.role == 4) && !x.list.isEmpty
    { g := c.core, env := env, part := x.part, prog := x.prog, img := g.image, w := w, lay := parseLayer g.image w.layer,
      t := t, rows := x.rowsPer g.image, inst := c.inst, len := c.len, total := x.rowsPer g.image * x.ctxs.length,
      entry := if listed then some (parseEntry x.list w.entry) else none })

/-- K tiles that govern a piece of work. -/
def Plan.ktAt (p : Plan) (w : Work) : Nat :=
  let e := if !p.list.isEmpty && p.t.loops.any (fun l => l.role == 4) then some (parseEntry p.list w.entry) else none
  ceilDiv (boundOf p.t p.img e p.roll p.total p.len (p.t.groupIdx w.idx) (p.t.loop 3)) 256

/-- What the separate checker expects of every generator over the work of a plan (R97). -/
def Plan.wants (p : Plan) (m : KMap Nat) : KMap Nat :=
  p.works.foldl (fun m w => sigAdd p.t (p.ktAt w) p.t.check m w) m

/-- A core's work at the start. -/
def Run.ready (x : Run) (img : Bytes) (c : CoreRun) : CoreRun :=
  let ps := x.plansOn img c
  { c with todo := inSequence ps, want := ps.foldl (fun m p => p.wants m) [] }

/-! Junction and core scoreboards (R107 to R109). -/

/-- A junction WAIT is met: the signed 32-bit difference is at least 0. -/
def junctionMet (count epoch value : Nat) : Bool :=
  decide ((count + 2 * 2 ^ 32 - epoch % 2 ^ 32 - value) % 2 ^ 32 < 2 ^ 31)

/-- The scoreboard operations at the head of a core's work, up to a WAIT that is not met: the core, the junction SETs,
and whether no core count overflowed. -/
def sbRun (jsb : KMap Nat) (op : Work → Option SbD) : List Work → CoreRun → List JSet → CoreRun × List JSet × Bool
  | [], c, js => ({ c with todo := [] }, js, true)
  | w :: ws, c, js =>
    match w.sb, op w with
    | some _, some o =>
      if o.op = 2 then
        if o.scope = 0 then
          let v := kget c.sb o.entry 0 + o.value
          if 65535 < v then ({ c with todo := w :: ws }, js, false)
          else sbRun jsb op ws { c with sb := kset c.sb o.entry v } js
        else sbRun jsb op ws c (js ++ [{ idx := o.entry, value := o.value }])
      else if o.scope = 0 then
        let v := kget c.sb o.entry 0
        if o.value ≤ v then sbRun jsb op ws { c with sb := kset c.sb o.entry (v - o.value) } js
        else ({ c with todo := w :: ws }, js, true)
      else if junctionMet (kget jsb o.entry 0) (instEpoch c.inst) o.value then sbRun jsb op ws c js
      else ({ c with todo := w :: ws }, js, true)
    | some _, none => sbRun jsb op ws c js
    | none, _ => ({ c with todo := w :: ws }, js, true)

/-- The scoreboard operation of a piece of work. -/
def sbOf (img : Bytes) (w : Work) : Option SbD := w.sb.bind (fun i => (tileAt img w.layer w.prog).sbs[i]?)

/-- A WAIT among the operations that a core has passed. -/
def passedWait (img : Bytes) (old new : List Work) : Bool :=
  (old.take (old.length - new.length)).any (fun w => match sbOf img w with
    | some o => o.op == 1
    | none => false)

/-- What other commands wrote before a WAIT that a core has passed is ordered before its later reads (R142). -/
def Run.waited (x : Run) (g : Nat) (b : Bool) : Run := if b then { x with late := x.late.filter (fun z => z.1 != g) } else x

/-- A core runs the scoreboard operations that stand at the head of its work. -/
def Dev.sbAdvance (d : Dev) (g : Nat) : Dev :=
  match d.runOn g with
  | none => d
  | some (rid, x) =>
    match x.coreAt g, d.part x.part, d.runProg x with
    | some c, some p, some pg =>
      if c.done || x.waits then d
      else
        let r := sbRun p.jsb (sbOf pg.image) c.todo c []
        let d1 := d.putPart x.part { p with jsets := p.jsets ++ r.2.1 }
        let x1 := (x.putCore r.1).waited g (passedWait pg.image c.todo r.1.todo)
        d1.putRun rid (if r.2.2 then x1 else x1.kill (.fail stScoreboardOverflow))
    | _, _, _ => d

/-- JUNCTION_SET on the device (R109): the oldest SET whose writes are visible adds its value. -/
def Dev.junctionSet (d : Dev) (p : Nat) : Dev :=
  d.modPart p (fun x =>
    match x.jsets with
    | [] => x
    | s :: l => { x with jsets := l, jsb := kmod x.jsb s.idx 0 (fun v => (v + s.value) % 2 ^ 32) })

/-- JUNCTION_SET (R109). -/
def execJunctionSet (p : Nat) (s : State) : Host.Outcome State Fault Refusal := .next (s.onDev (fun d => d.junctionSet p))

/-! Tile passes (R66). -/

/-- The unit that does a piece of work. -/
def workOf (j : Job) (flt : Option PassFault) : CoreAct Unit :=
  match j.t.kind with
  | .dot => dotWork j flt
  | .scan => scanWork j flt
  | .attention => attnWork j flt
  | .vector => vectorWork j flt

/-- What a core's work leaves in the device; faults it counted retire cores (R475). -/
def Ex.absorb (e : Ex) (rid : Nat) (x0 : Run) : Dev :=
  (e.x.counted.drop x0.counted.length).foldl (fun d z => d.countFault z.1 z.2) (e.d.putRun rid (e.x.putCore e.c))

/-- A layer that may still be replaced by its fallback, on whichever core, stands before a piece of work (R50). -/
def Run.gated (x : Run) (img : Bytes) (w : Work) : Bool :=
  w.only.isNone && (x.layers img).any (fun l =>
    decide (l < w.layer) && (parseLayer img l).escalate && (parseLayer img l).fallback != 0xFFFF
      && (!x.judged.contains l || x.workers.any (fun c => c.todo.any (fun v => v.only.isSome && v.layer == (parseLayer img l).fallback))))

/-- The weight tile that the first pass of a plane takes from the expander (R103): none for work without one. -/
def Job.needs (j : Job) : Option Nat :=
  match j.t.byRole 1 with
  | (_, g) :: _ =>
    let plane := match (passesOf j.t.product)[j.w.pass]? with
      | some p => p.plane
      | none => 0
    let first := j.t.arrayOp != 0 || (passesOf j.t.product).findIdx (fun p => p.plane == plane) == j.w.pass
    if j.t.kind == .dot && first && j.entry.isNone then some (j.mcastIdx g plane) else none
  | [] => none

/-- The array waits for the tile that a piece of work needs: the core has subscribed to it, and it is not here. -/
def Job.awaits (j : Job) (c : CoreRun) : Bool :=
  match j.needs with
  | some m => c.subs.contains m
  | none => false

/-- K tiles by which the sequencer numbers the tiles of a packed region (R263): those of its header; the program's own where it
could not be read (DEDUCED, log 92). -/
def Job.headerKt (j : Job) (e : Ex) (kt : Nat) : Nat :=
  match j.t.byRole 1 with
  | (_, g) :: _ => let b := j.header e g
                   if b.isEmpty then kt else (parsePack b).kt
  | [] => kt

/-- A piece of work with the signature terms that its generators issue (R97). -/
def sigWork (j : Job) (flt : Option PassFault) (kt : Nat) : CoreAct Unit := do
  workOf j flt
  modify (fun e => { e with c := { e.c with
    sigs := sigAdd j.t (j.headerKt e kt) (j.t.gens.map (·.strides)) e.c.sigs j.w } })

/-- The next tile pass of a core: its scoreboards, its subscriptions and the escalation allow it. -/
def Dev.workOn (d : Dev) (g : Nat) (flt : Option PassFault) (env : Env) : Dev :=
  match d.runOn g with
  | none => d
  | some (rid, x) =>
    match x.coreAt g, d.runProg x with
    | some c, some pg =>
      match c.todo with
      | [] => d
      | w :: rest =>
        if c.done || w.sb.isSome || x.waits || x.gated pg.image w then d
        else
          match d.jobFor x c env w with
          | none => d
          | some j =>
            if j.awaits c then d
            else
              let p := x.planOn pg.image c w.layer w.prog w.only
              ((sigWork j flt (p.ktAt w)).run { d := d, x := x, c := { c with todo := rest }, rid := rid }).2.absorb rid x
    | _, _ => d

/-- The escalation of a layer (R50): the layer's own counts, and what follows. The counter of a context whose rows lie on several
cores, and the unit of the event, are those of the core of the band with its first row (DESIGN CHOICE, log 91). -/
def Dev.judgeLayer (d : Dev) (rid layer : Nat) : Dev :=
  match d.run rid with
  | none => d
  | some x =>
    match d.runProg x with
    | none => d
    | some pg =>
      let img := pg.image
      let left := x.workers.any (fun c => c.todo.any (fun w => w.layer == layer && w.only.isNone))
      if x.judged.contains layer || left || x.workers.all (·.done) then d
      else
        let lay := parseLayer img layer
        let n := if x.cmd.isSome then 1 else x.ctxs.length
        let above := (List.range n).filter (fun q =>
          let z := kget x.prom (lpKey layer q) (0, 0)
          decide (lay.limit * z.2 < z.1 * 1024))
        let x1 := { x with judged := x.judged ++ [layer] }
        if !lay.escalate || lay.fallback == 0xFFFF || above.isEmpty then d.putRun rid x1
        else
          let fb := lay.fallback
          let add (c : CoreRun) : CoreRun :=
            if c.done || decide (65536 ≤ c.rank) then c
            else { c with todo := above.flatMap (fun q => (x.progsOf img fb).flatMap (fun k =>
                     (x.planOn img c fb k (some q)).works)) ++ c.todo }
          let t := tileAt img layer 0
          let coreOf (q : Nat) : Nat :=
            ((x.workers.getD (if x.cmd.isSome then 0 else x.rankOf t (x.rowsPer img) q) { core := 0, rank := 0 }).core)
          let d1 := d.putRun rid { x1 with cores := x1.cores.map add, escalated := true }
          let d2 := above.foldl (fun d q => d.count (unitCore (coreOf q)) ctEscal 1) d1
          if x.escalated then d2
          else d2.raise { code := evEscalation, part := x.part, unit := unitCore (coreOf (above.headD 0)), tag := d.runTag x,
                          payload := leBytes 2 lay.layer ++ leBytes 4 above.length }

/-- Every layer of a run that has finished its own work is judged. -/
def Dev.judge (d : Dev) (rid : Nat) : Dev :=
  match d.run rid with
  | none => d
  | some x =>
    match d.runProg x with
    | some pg => (x.layers pg.image).foldl (fun d l => d.judgeLayer rid l) d
    | none => d

/-- TILE_PASS on the device. -/
def Dev.tilePass (d : Dev) (g : Nat) (flt : Option PassFault) (env : Env) : Dev :=
  match d.runOn g with
  | none => d
  | some (rid, _) => (((d.sbAdvance g).workOn g flt env).sbAdvance g).judge rid

/-- TILE_PASS (R66): the next tile pass of a core, with the scoreboard operations around it. -/
def execTilePass (c : Nat) (flt : Option PassFault) (e : Env) (s : State) : Host.Outcome State Fault Refusal :=
  .next (s.onDev (fun d => d.tilePass c flt e))

/-! Multicast (R104 to R106). -/

/-- The weight tiles of a core's coming work, in order. -/
def Run.tilesAhead (x : Run) (d : Dev) (c : CoreRun) (n : Nat) : List (Nat × Job × GenD × Nat) :=
  (c.todo.filterMap (fun w =>
    if w.sb.isSome then none
    else
      match d.jobFor x c Env.clean w with
      | none => none
      | some j =>
        match j.needs, j.t.byRole 1 with
        | some m, (_, g) :: _ =>
          some (m, j, g, match (passesOf j.t.product)[w.pass]? with
            | some p => p.plane
            | none => 0)
        | _, _ => none)).take n

/-- The stored runs of a tile: its side-table entries, its blocks and its record (R251, R264). -/
def Job.tileRuns (j : Job) (e : Ex) (g : GenD) (plane : Nat) : List (Nat × Nat) :=
  let h := j.regionAt e g
  let p := parsePack (e.d.peek j.part h 256)
  let n := p.width
  let idx := (j.nt * p.kt + j.kt) * p.planes + plane
  let a := h + p.dataOff + idx * tileBytes n
  let side := h + 0x900 + 4 * idx * n
  let bl := (List.range (2 * n)).filterMap (fun i =>
    let s := parseSide (leNat (e.d.peek j.part (side + 2 * i) 2))
    if s.mode = 2 then none else some (a + 4096 * i, if s.mode = 0 then 4096 else 64 * (s.len + 1)))
  if j.headerOk p then (side, 4 * n) :: bl ++ [(a + 8192 * n, 3072)] else []

/-- A core has seen the latest opening of a tile's entry. -/
def Run.sawTile (x : Run) (tile g : Nat) : Run := { x with asked := kset x.asked (tile * 256 + g) (kget x.opens tile 0) }

/-- An entry that was opened for the run after the core last saw one has been freed before the core subscribed (R105). -/
def Run.lostTile (x : Run) (tile g : Nat) : Bool := decide (kget x.asked (tile * 256 + g) 0 < kget x.opens tile 0)

/-- SUBSCRIBE on the device (R104, R105). -/
def Dev.subscribe (d : Dev) (g : Nat) : Dev :=
  match d.runOn g with
  | none => d
  | some (rid, x) =>
    match x.coreAt g with
    | none => d
    | some c =>
      let held := c.subs.length + c.got.length
      if c.done || x.waits || decide (2 ≤ held) then d
      else
        match (x.tilesAhead d c (held + 1))[held]? with
        | none => d
        | some (tile, j, gen, plane) =>
          let k := (d.jdFor (x.prog % 2)).1
          let jd := d.jd k
          let mine (m : Mcast) : Bool := m.part == x.part && m.prog == x.prog && m.tile == tile
          let wait := { c with subs := c.subs ++ [tile] }
          let here := { c with got := c.got ++ [tile] }
          match jd.mcast.find? mine with
          | some m =>
            if m.arrived then
              (d.putRun rid ((x.putCore here).sawTile tile g)).putJd k
                { jd with mcast := jd.mcast.map (fun m => if mine m then { m with served := insertSorted g m.served } else m) }
            else
              (d.putRun rid ((x.putCore wait).sawTile tile g)).putJd k
                { jd with mcast := jd.mcast.map (fun m => if mine m then { m with subs := insertSorted g m.subs } else m) }
          | none =>
            let runs := j.tileRuns { d := d, x := x, c := c } gen plane
            let size : Nat := (runs.map (·.2)).foldl (· + ·) 0
            let used : Nat := (jd.mcast.map (·.bytes)).foldl (· + ·) 0
            if 1024 ≤ jd.mcast.length ∨ 16777216 < used + size ∨ x.lostTile tile g then
              (d.putRun rid ((x.putCore wait).sawTile tile g)).missTile x.part x.prog tile g
            else
              let d1 := runs.foldl (fun d r => (d.touch x.part r.1 r.2).chargeRun x.part r.1 r.2) d
              let x1 := { x with opens := kmod x.opens tile 0 (· + 1) }
              (d1.putRun rid ((x1.putCore wait).sawTile tile g)).putJd k
                { jd with mcast := jd.mcast ++ [{ part := x.part, prog := x.prog, tile := tile, subs := [g], bytes := size }] }

/-- SUBSCRIBE (R104): a core asks the multicast engine of its program's parity for the next tile it has no place for. -/
def execSubscribe (c : Nat) (s : State) : Host.Outcome State Fault Refusal := .next (s.onDev (fun d => d.subscribe c))

/-- A delivery reaches the queue place that its subscriber reserved. -/
def Dev.deliver (d : Dev) (part prog tile g : Nat) : Dev :=
  d.setRuns (d.runs.map (fun e =>
    if e.2.part = part ∧ e.2.prog = prog ∧ !e.2.ended then
      (e.1, { e.2 with cores := e.2.cores.map (fun c =>
        if c.core = g ∧ c.subs.contains tile then { c with subs := c.subs.erase tile, got := c.got ++ [tile] } else c) })
    else e))

/-- MULTICAST_TILE_ARRIVE on the device (R104, R105). -/
def Dev.tileArrive (d : Dev) (k part prog tile : Nat) (badLink : List Nat) : Dev :=
  let jd := d.jd k
  let mine (m : Mcast) : Bool := m.part == part && m.prog == prog && m.tile == tile && !m.arrived
  match jd.mcast.find? mine with
  | none => d
  | some m =>
    let d1 := d.putJd k { jd with mcast := jd.mcast.map (fun z =>
      if mine z then { z with arrived := true, served := z.subs, subs := [] } else z) }
    m.subs.foldl (fun d g => if badLink.contains g then d.missTile part prog tile g else d.deliver part prog tile g) d1

/-- MULTICAST_TILE_ARRIVE (R104). -/
def execMulticastTileArrive (j part prog tile : Nat) (badLink : List Nat) (s : State) : Host.Outcome State Fault Refusal :=
  .next (s.onDev (fun d => d.tileArrive j part prog tile badLink))

/-- MULTICAST_ENTRY_FREE (R104): an entry whose tile has been delivered is freed. -/
def execMulticastEntryFree (j part prog tile : Nat) (s : State) : Host.Outcome State Fault Refusal :=
  .next (s.onDev (fun d => d.putJd j { d.jd j with mcast := (d.jd j).mcast.filter (fun m =>
    !(m.part == part && m.prog == prog && m.tile == tile && m.arrived)) }))

/-! The end of a run. -/

/-- The SETs at command end (R100, R107), those of the last tile program: on every core that has run to its end. -/
def Dev.endSets (d : Dev) (rid : Nat) : Dev :=
  match d.run rid with
  | none => d
  | some x =>
    match d.part x.part, d.runProg x with
    | some p, some pg =>
      let last := (x.programs pg.image).getLast?
      let ops : List SbD := match last with
        | some z => (tileAt pg.image z.1 z.2).sbs.filter (fun s => s.sloop == 0xFF && s.op == 2)
        | none => []
      let live := x.workers.filter (fun c => !c.done)
      let js := live.flatMap (fun _ => (ops.filter (fun s => s.scope == 1)).map (fun s => ({ idx := s.entry, value := s.value } : JSet)))
      let above := live.any (fun c => (ops.filter (fun s => s.scope == 0)).any (fun s =>
        decide (65535 < kget c.sb s.entry 0
          + ((ops.filter (fun z => z.scope == 0 && z.entry == s.entry)).map (·.value)).foldl (· + ·) 0)))
      let d1 := d.putPart x.part { p with jsets := p.jsets ++ js }
      if above then d1.putRun rid { x with marks := x.marks.join (.fail stScoreboardOverflow) } else d1
    | _, _ => d

/-- The signature comparison of one core (R97). -/
def signatureCheck (j : Job) : CoreAct Unit := do
  let e ← get
  let keys := kkeys e.c.want ++ kkeys e.c.sigs
  if keys.any (fun k => kget e.c.want k 0 != kget e.c.sigs k 0) then
    countCore j ctSig 1
    coreFault j caAddrSig
    modify (fun e => { e with x := { e.x with allBad := true } })

/-- The signature comparison of every core that ran to its end. -/
def Dev.signatures (d : Dev) (rid : Nat) : Dev :=
  match d.run rid with
  | none => d
  | some x =>
    (x.workers.filter (fun c => !c.done)).foldl (fun d c =>
      match d.run rid with
      | none => d
      | some x1 =>
        match d.jobFor x1 c Env.clean { layer := x1.layer, prog := x1.index } with
        | some j => ((signatureCheck j).run { d := d, x := x1, c := c }).2.absorb rid x1
        | none => d) d

/-- The norm of one context or row at one write-back (R171): tile sums in order, and the root. -/
def Run.normOf (x : Run) (key wb : Nat) : F32 :=
  let l := (x.norms.filter (fun z => z.1 == key && z.2.1 == wb)).map (fun z => z.2.2)
  let sorted := (l.map (·.1)).foldl (fun a k => insertSorted k a) []
  match sorted.filterMap (fun k => (l.find? (fun z => z.1 == k)).map (·.2)) with
  | [] => 0
  | v :: r => fsqrt (r.foldl fadd v)

/-- The norms of a run, each once, in the order they were measured: what it counts for, and its write-back. -/
def Run.normKeys (x : Run) : List (Nat × Nat) := (x.norms.map (fun z => (z.1, z.2.1))).eraseDups

/-- The layer and program of a norm's key, and the place of its context, or its row. -/
def Run.normPlace (x : Run) (key : Nat) : Nat × Nat × Nat :=
  let lp := key / 2 ^ 96
  (lp / 2 ^ 16, lp % 2 ^ 16, if x.cmd.isSome then key % 2 ^ 32 else key % 2 ^ 96)

/-- The core that counts an out-of-band context. -/
def Run.normCore (x : Run) (img : Bytes) (key : Nat) : Nat :=
  let z := x.normPlace key
  let rank := if x.cmd.isSome then key / 2 ^ 64 % 2 ^ 32 else x.rankOf (tileAt img z.1 z.2.1) (x.rowsPer img) z.2.2
  (x.workers.getD rank { core := 0, rank := 0 }).core

/-- The state-norm monitor at the end of a command (R171, R172). A context counts once for each program that finds it out of
band, at whichever write-backs; the event carries the first measured of those of the lowest record index (DESIGN CHOICE,
log 44). -/
def Dev.normsEnd (d : Dev) (rid : Nat) : Dev :=
  match d.run rid with
  | none => d
  | some x =>
    match d.runProg x with
    | none => d
    | some pg =>
      let scan (k : Nat) : ScanD := let z := x.normPlace k; parseScan (tileAt pg.image z.1 z.2.1).desc
      let out := x.normKeys.filter (fun k =>
        let v := x.normOf k.1 k.2
        f32IsNaN v || flt v (scan k.1).lo || flt (scan k.1).hi v)
      match out with
      | [] => d
      | k0 :: _ =>
        let who (k : Nat) : Nat := if x.cmd.isSome then (x.normPlace k).2.2 else x.ctxs.getD (x.normPlace k).2.2 0
        let least := out.foldl (fun b k => if who k.1 < who b.1 then k else b) k0
        let name := if x.cmd.isSome then who least.1 else (d.ctx (who least.1)).handle (who least.1)
        let keys := (out.map (·.1)).eraseDups
        let hold := if x.cmd.isSome then [] else (keys.filter (fun k => (scan k).hold)).map who
        let many := if x.cmd.isSome then (keys.map (· % 2 ^ 96)).eraseDups.length else (keys.map who).eraseDups.length
        let d1 := keys.foldl (fun d k => d.count (unitCore (x.normCore pg.image k)) ctNorm 1) d
        let d2 := d1.putRun rid { x with held := x.held ++ hold.eraseDups }
        d2.raise { code := evStateNorm, part := x.part, unit := unitCore (x.normCore pg.image least.1), tag := d.runTag x,
                   payload := leBytes 2 (parseLayer pg.image (x.normPlace least.1).1).layer
                     ++ leBytes 4 many ++ leBytes 4 name ++ leBytes 4 (x.normOf least.1 least.2) }

/-- Runs of bytes that end undefined: every byte a free value. -/
def Dev.blurRuns (d : Dev) (x : Run) (l : List (Nat × Nat)) : Dev :=
  l.foldl (fun d r => let f := d.freeBytes r.2; f.2.putPlace x r.1 f.1) d

/-- What the outputs of a run hold at its end: poison where all of it is bad (R97, R141). -/
def Dev.settleOutputs (d : Dev) (rid : Nat) : Dev :=
  match d.run rid with
  | none => d
  | some x =>
    if x.allBad then
      x.written.foldl (fun d w =>
        d.putPlace x w.1 (List.replicate w.2.1 (leBytes (runBytes w.2.2.1) (poisonFill w.2.2.1))).flatten) d
    else d

/-- A core that a run leaves (R462, R478): Warm, and into the self-test where one is due. -/
def Dev.leaveCore (d : Dev) (g : Nat) : Dev :=
  if (d.core g).retired || d.coreFenced g then d
  else d.modCore g (fun c => { c with clk := .warm, testing := c.testing || (c.reserved && d.coreIdle g && (d.refEngine g).isSome) })

/-- The multicast engines drop the cores of a run that has ended. -/
def Dev.dropSubs (d : Dev) (x : Run) : Dev :=
  d.setJds (d.jds.map (fun e => (e.1, { e.2 with mcast := e.2.mcast.map (fun m =>
    if m.part = x.part ∧ m.prog = x.prog then { m with subs := m.subs.filter (fun g => !x.onCore g) } else m) })))

/-- Dies that a run used. -/
def Run.dies (x : Run) : List Nat := ((x.cores.map (fun c => c.core / 8)).eraseDups)

/-- A run that waits for stockpot space takes it on every core as soon as every share can grant it (R120). Space that the
device uses for itself holds no stated bytes. -/
def Dev.grant (d : Dev) (rid : Nat) : Dev :=
  match d.run rid with
  | none => d
  | some x =>
    if !x.stalled || x.ended then d
    else
      match d.takePots x.part x.need (x.cores.map (·.core)) with
      | none => d
      | some places =>
        let cs := (x.cores.zip places).map (fun z => { z.1 with pot := z.2, potBytes := x.need })
        let own := match d.runProg x with
          | some pg => (x.programs pg.image).any (fun z => (tileAt pg.image z.1 z.2).ownPot)
          | none => false
        let d1 := if own then cs.foldl (fun d c => d.blurPot x.part c.core c.pot c.potBytes) d else d
        d1.putRun rid { x with cores := cs, waits := false }

/-- Every run that waits looks again, the oldest first. -/
def Dev.grantAll (d : Dev) : Dev := (d.runs.map (·.1)).foldl (fun d i => d.grant i) d

/-- The end of a run: the cores are free, and a GRAPH_RUN's status is known (R355, R375). -/
def Dev.closeRun (d : Dev) (rid : Nat) : Dev :=
  match d.run rid with
  | none => d
  | some x =>
    let d1 := (d.putRun rid { x with ended := true, release := d.stamps x.dies, cores := x.cores.map (fun c => { c with done := true }) }).dropSubs x
    let d2 := x.cores.foldl (fun d c => d.leaveCore c.core) d1
    match x.cmd with
    | none => d2
    | some r => ((d2.mark r x.marks).finish r (if x.empty then stEmptyOutput else stSuccess) 0 0 0 x.dies).dropRun rid

/-- Everything at the end of a run. -/
def Dev.endRun (d : Dev) (rid : Nat) : Dev :=
  (((((d.endSets rid).signatures rid).normsEnd rid).settleOutputs rid).closeRun rid).grantAll

/-- COMMAND_END on the device: every core has posted its last write. -/
def Dev.commandEnd (d : Dev) (rid : Nat) : Dev :=
  match d.run rid with
  | none => d
  | some x => if x.ended || x.stalled || x.cores.any (fun c => !c.todo.isEmpty) then d else d.endRun rid

/-- COMMAND_END (R97). -/
def execCommandEnd (run : Nat) (s : State) : Host.Outcome State Fault Refusal := .next (s.onDev (fun d => d.commandEnd run))

/-- The output runs of the work that is left: the work done on a copy of the device. -/
def Dev.futureWrites (d : Dev) (x : Run) (c : CoreRun) : List (Nat × Nat × Nat × Nat) :=
  let e := c.todo.foldl (fun (e : Ex) w =>
    if w.sb.isSome then e
    else
      match d.jobFor x c Env.clean w with
      | some j => ((workOf j none).run e).2
      | none => e) { d := d, x := x, c := { c with todo := [] } }
  e.x.written

/-- COMMAND_TIME_LIMIT on the device (R110, R111, R120): a command whose last write is posted is not touched; otherwise, and
where it still waits for stockpot space, it ends on every core, and every region that it writes holds undefined data. -/
def Dev.timeLimit (d : Dev) (rid : Nat) : Dev :=
  match d.run rid with
  | none => d
  | some x =>
    if x.ended || (!x.stalled && x.cores.all (fun c => c.todo.isEmpty)) then d
    else
      let l := x.workers.flatMap (fun c => d.futureWrites x c)
      let d1 := d.putRun rid (x.kill (.fail stTimeLimit))
      (d1.blurRuns x ((l.map (fun w => (w.1, w.2.1 * runBytes w.2.2.1))).eraseDups)).endRun rid

/-- COMMAND_TIME_LIMIT (R110). -/
def execCommandTimeLimit (run : Nat) (s : State) : Host.Outcome State Fault Refusal :=
  .next (s.onDev (fun d => d.timeLimit run))

end Sys2Proof.Machine
end

