-- ==== Sys2Proof/Machine/Programs.lean ====
section
/-!
DEFINITION. Programs and their runs outside a rollout: PROGRAM_LOAD, PROGRAM_UNLOAD, GRAPH_RUN and the start of commands
on cores (R82, R85, R100, R112, R120, R123, R185, R224, R350, R358 to R360, R463).
-/

namespace Sys2Proof.Machine

/-! Loading (R358). -/

/-- A partition holds at most 256 programs. -/
abbrev maxProgs : Nat := 256

/-- PROGRAM_LOAD on the device. -/
def Dev.programLoad (d : Dev) (r : CmdRef) (e : Env) : Dev :=
  d.withCmd r 0x20 (fun c =>
    let a := c.f 0x08 8
    let n := c.f 0x10 8
    if !hdrOk c.desc 0 [(8, 16)] ∨ a % 64 ≠ 0 then d.finish r stInvalidField
    else if !d.ownedRange r.f a n then d.finish r stAddrRange
    else
      let z := d.read r.f e a n
      if !z.1.marks.clear then (z.2.mark r z.1.marks).finish r stSuccess
      else
        let st := validateImage d.trust.ftLevel z.1.bytes n
        if st ≠ stSuccess then z.2.finish r st
        else
          match z.2.part r.f with
          | none => z.2
          | some p =>
            if maxProgs ≤ p.progs.length ∨ 2 ^ 32 ≤ p.nextHandle then z.2.finish r stProgSpace
            else
              let h := p.nextHandle
              (z.2.putPart r.f { p with progs := kset p.progs h { addr := a, size := n, image := z.1.bytes },
                                        nextHandle := h + 1 }).finish r stSuccess 0 h)

/-- PROGRAM_LOAD (R358). -/
def execProgramLoad (r : CmdRef) (e : Env) (s : State) : Host.Outcome State Fault Refusal :=
  .next (s.onDev (fun d => d.programLoad r e))

/-- A non-FREE context or a command in flight uses a program. -/
def Dev.progUsed (d : Dev) (p : Nat) (x : Part) (h : Nat) : Bool :=
  d.ctxs.any (fun e => decide (x.recBase ≤ e.1) && decide (e.1 < x.recBase + x.recCount) && e.2.cstate != 0 && e.2.prog == h)
    || d.runs.any (fun e => e.2.part == p && e.2.prog == h)

/-- PROGRAM_UNLOAD on the device. -/
def Dev.programUnload (d : Dev) (r : CmdRef) : Dev :=
  d.withCmd r 0x21 (fun c =>
    let h := c.f 0x08 4
    if !hdrOk c.desc 0 [(8, 4)] then d.finish r stInvalidField
    else
      match d.part r.f with
      | none => d
      | some p =>
        if (kfind p.progs h).isNone then d.finish r stProgUnknown
        else if d.progUsed r.f p h then d.finish r stProgBusy
        else (d.putPart r.f { p with progs := kdel p.progs h }).finish r stSuccess)

/-- PROGRAM_UNLOAD (R358). -/
def execProgramUnload (r : CmdRef) (s : State) : Host.Outcome State Fault Refusal :=
  .next (s.onDev (fun d => d.programUnload r))

/-! The start on cores. -/

/-- The cores of a GRAPH_RUN or a PACK. -/
def Cmd.coreSet (c : Cmd) : List Nat := setBits 128 (c.f 0x10 16)

/-- A command that runs on cores outside a rollout. -/
def Cmd.onCores (c : Cmd) : Bool := c.op == 0x22 || c.op == 0x23

/-- An earlier command of the pair that shares a core has not started (R350). -/
def Dev.earlierOnCores (d : Dev) (r : CmdRef) (cores : List Nat) : Bool :=
  match d.qp r.f r.q with
  | some x => x.cmds.any (fun c => decide (c.k < r.k) && c.onCores && c.phase == .waiting && c.coreSet.any (cores.contains ·))
  | none => false

/-- Every core may start work now: in service and idle (R462, R472, R478, R481). The wake that comes before the start
(R463) is time, and the start makes a core Hot (log 26). -/
def Dev.coresFree (d : Dev) (cores : List Nat) : Bool := cores.all (fun g => d.coreReady g && d.coreIdle g)

/-- Reads of a command in a row: what they gave, what went wrong, the device. -/
def Dev.readList (d : Dev) (p : Nat) (l : List (Nat × Nat)) : List Bytes × Marks × Dev :=
  l.foldl (fun acc z =>
    let r := acc.2.2.read p Env.clean z.1 z.2
    (acc.1 ++ [if r.1.bad.isEmpty then r.1.bytes else repByte z.2 0], acc.2.1.join r.1.marks, r.2)) ([], {}, d)

/-- Length words (R100): one per core; the rank-0 core's alone for a length-driven pointer list. -/
def lenReads (t : TileProg) (insts : List Bytes) : List (Nat × Nat) :=
  match t.lenLoop with
  | none => []
  | some i =>
    let listed := match t.loops[i]? with
      | some l => l.role == 4
      | none => false
    (if listed then insts.take 1 else insts).map (fun b => (field b 0x40 8, 4))

/-- The length of each core from the words read. -/
def lensOf (t : TileProg) (n : Nat) (words : List Bytes) : List Nat :=
  if t.lenLoop.isNone then List.replicate n 0
  else (List.range n).map (fun i => leNat (words.getD i (words.headD [])))

/-- A core's share, before its work is cut. -/
def newCore (g rank : Nat) (inst : Bytes) (len : Nat) : CoreRun := { core := g, rank := rank, inst := inst, len := len }

/-- The bases that a generator has at the start, without its own BASE (R112, R122, R363): the entry's address, the instance
base, or in a pass the pointer of every context with its slots, each with the context's place. -/
def startBases (d : Dev) (x : Run) (q : Plan) (g : GenD) (e : Option EntryD) : List (Nat × Option Nat) :=
  match e, g.grole with
  | some n, 0 => [(n.a, none)]
  | some n, 1 => [(n.b, none)]
  | some n, 2 => [(n.c, none)]
  | _, _ =>
    match x.cores.find? (fun c => c.rank == q.rank) with
    | none => []
    | some c =>
      match d.jobFor x c Env.clean { layer := q.layer, prog := q.prog } with
      | none => []
      | some j =>
        if j.byCtx g then
          (List.range x.ctxs.length).flatMap (fun i =>
            let z := j.ctxBase { d := d, x := x, c := c } g i
            (z.1 :: z.2.toList).map (fun a => (a, some i)))
        else [(instBase c.inst g.sel, none)]

/-- The box list of a core in a GRAPH_RUN (R223, R224): where it lies. -/
def boxRead (t : TileProg) (c : CoreRun) (count : Nat) : List (Nat × Nat) :=
  if t.kind = .vector ∧ t.d8 0 = 2 then
    let g := t.genAt (t.d8 3)
    [(addrAdd (instBase c.inst g.sel) g.base, 32 * min 4096 count)]
  else []

/-- The ring header of an attention program in a GRAPH_RUN (R185). -/
def ringRead (t : TileProg) (c : CoreRun) : List (Nat × Nat) :=
  if t.kind = .attention then
    let g := t.gens.getD (parseAttn t.desc).ringGen (parseGen [] 0)
    [(addrAdd (instBase c.inst g.sel) g.base, 64)]
  else []

/-- Work starts on the cores of a run (R97, R120, R306, R462): its work is cut, its clocks run, its layer's prefetch starts, and
it takes its stockpot space or waits for it. -/
def Dev.launch (d : Dev) (x : Run) (pg : Prog) (pot : Nat) : Dev :=
  let cs := x.cores.map (fun c => if c.rank < 65536 then x.ready pg.image c else c)
  let d1 := (x.cores.map (·.core)).foldl (fun d g => d.modCore g (fun c => { c with clk := .hot })) d
  let d2 := d1.putRun d1.nextRun { x with cores := cs, waits := true, need := pot }
  (({ d2 with nextRun := d2.nextRun + 1 }).prefetch x.part pg x.layer).grant d1.nextRun

/-- The statuses that stand before ADDR_RANGE in the order of R112. -/
def beforeRange (st : Nat) : Bool := st != stPadReflect && st != stChainRowstatSpace && st != stLengthRange

/-- The second cores of distance-duplicate pairs (R82): the other of cores 6 and 7 where the command names one alone. -/
def twinCores (t : TileProg) (img : Bytes) (cores : List Nat) : List Nat :=
  (cores.filter (twinned t img cores)).map (fun g => if g % 8 = 6 then g + 1 else g - 1)

/-- The second cores of a run. -/
def Run.twins (x : Run) (img : Bytes) (cores : List Nat) : List Nat :=
  ((x.programs img).flatMap (fun z => twinCores (tileAt img z.1 z.2) img cores)).eraseDups

/-- The shares of the second cores: the inputs of their partners, and no work of their own. -/
def Run.shadows (x : Run) (img : Bytes) : List CoreRun :=
  (x.twins img (x.workers.map (·.core))).filterMap (fun g =>
    (x.workers.find? (fun c => c.core / 8 == g / 8 && decide (6 ≤ c.core % 8))).map (fun c =>
      { c with core := g, rank := 65536 + c.rank, done := true }))

/-- A GRAPH_RUN that all checks let through: its run, and the device after the reads of the checks. -/
structure GraphGo where
  run : Run                        -- the run, with its second cores (R82) last
  dev : Dev
  deriving DecidableEq, Repr

/-- The checks of R112 on a GRAPH_RUN that passed those of R360, with their reads: the device of a command that ends here,
or the run. -/
def Dev.graphCheck (d : Dev) (r : CmdRef) (c : Cmd) (pg : Prog) : Dev ⊕ GraphGo :=
  let cores := c.coreSet
  let layer := c.f 0x0C 2
  let idx := c.f 0x0E 2
  let inst := c.f 0x20 8
  let list := c.f 0x28 8
  let img := pg.image
  let t := tileAt img layer idx
  let n := cores.length
  let x0 : Run := { part := r.f, prog := c.f 0x08 4, layer := layer, last := layer, index := idx, cmd := some r,
                    limitMs := (d.fn r.f).sch.limitMs, seed := c.f 0x30 8 }
  let mk (insts : List Bytes) (lens : List Nat) (l : Bytes) : Run :=
    { x0 with list := l, cores := (cores.zipIdx.map (fun z => newCore z.1 z.2 (insts.getD z.2 []) (lens.getD z.2 0))) }
  let plans (x : Run) : List Plan := x.workers.map (fun k => x.planOn img k layer idx none)
  let turnAway (st : Nat × Nat) : Dev ⊕ GraphGo := .inl (d.finish r st.1 0 0 st.2)
  let fencedOff : Bool := cores.any d.coreFenced
  let unread (d : Dev) (m : Marks) : Dev ⊕ GraphGo :=
    .inl ((d.mark r (if fencedOff then .cause caFenced else m)).finish r stSuccess)
  let early (x : Run) (st : Nat) : Dev ⊕ GraphGo :=
    match d.startFails r.f cores (plans x) (fun _ _ _ => []) [] true with
    | some z => if beforeRange z.1 then turnAway z else turnAway (st, 0)
    | none => turnAway (st, 0)
  if !d.ownedRange r.f inst (96 * n) then early (mk [] [] []) stAddrRange
  else
    let z1 := d.readList r.f ((List.range n).map (fun i => (inst + 96 * i, 96)))
    let z2 := z1.2.2.readList r.f (lenReads t z1.1)
    let lens := lensOf t n z2.1
    let x1 := mk z1.1 lens []
    let m2 := z1.2.1.join z2.2.1
    if z1.1.any (fun b => !zeroAt b 0x4C 20) || x1.workers.any (fun k => (boxRead t k 0).any (fun b => b.1 % 32 != 0)) then
      turnAway (stInvalidField, 0)
    else if !m2.clear then unread z2.2.2 m2
    else
      let many := match t.loops.find? (fun l => l.role == 4) with
        | some l => if list = 0 then 0 else if l.len then lens.headD 0 else l.count
        | none => 0
      let held := match t.loops.find? (fun l => l.role == 4) with
        | some l => min many (l.count * l.extent)
        | none => 0
      if 4096 < many then
        match d.startFails r.f cores (plans x1) (fun _ _ _ => []) [] true with
        | some z => if z.1 = stScoreboardUnbound ∨ z.1 = stDistCore ∨ z.1 = stDistDupCores then turnAway z
                    else turnAway (stListLimit, 0)
        | none => turnAway (stListLimit, 0)
      else if !d.ownedRange r.f list (32 * held) then early x1 stAddrRange
      else
        let z3 := z2.2.2.readList r.f (if held = 0 then [] else [(list, 32 * held)])
        let x2 := mk z1.1 lens (z3.1.headD [])
        let count (k : CoreRun) : Nat := boundOf t img none false 0 k.len 0 (t.loop 1)
        let boxes := x2.workers.flatMap (fun k => boxRead t k (count k))
        let rings := x2.workers.flatMap (ringRead t)
        if !(boxes ++ rings).all (fun b => d.ownedRange r.f b.1 b.2) then early x2 stAddrRange
        else
          let z4 := z3.2.2.readList r.f boxes
          let z5 := z4.2.2.readList r.f rings
          let m := (z3.2.1.join z4.2.1).join z5.2.1
          let k := lpKey layer idx
          let give (w : CoreRun) : CoreRun :=
            { w with boxes := (match z4.1[w.rank]? with
                               | some b => [(k, b)]
                               | none => []),
                     hdrs := (match z5.1[w.rank]? with
                              | some b => [(2 ^ 64, b)]
                              | none => []) }
          let x3 := { x2 with cores := x2.cores.map give, reads := boxes.map (fun b => (b.1, b.2, k)) }
          if !m.clear then unread z5.2.2 m
          else
            match d.startFails r.f cores (plans x3) (startBases d x3) z4.1 true with
            | some st => turnAway st
            | none =>
              let g := t.gens.getD (parseAttn t.desc).ringGen (parseGen [] 0)
              if t.kind = .attention ∧ z5.1.any (fun b => !(parseAttn t.desc).ringFits b g.fmt 0) then turnAway (stRingFormat, 0)
              else if (cores ++ x3.twins img cores).any d.coreFenced then .inl ((d.mark r (.cause caFenced)).finish r stSuccess)
              else .inr { run := { x3 with cores := x3.cores ++ x3.shadows img, empty := emptyShape (plans x3) }, dev := z5.2.2 }

/-- A GRAPH_RUN that passed the checks of R360: the checks of R112, and its start when its cores are there. -/
def Dev.graphStart (d : Dev) (r : CmdRef) (c : Cmd) (pg : Prog) : Dev :=
  match d.graphCheck r c pg with
  | .inl d' => d'
  | .inr g =>
    let t := tileAt pg.image (c.f 0x0C 2) (c.f 0x0E 2)
    if d.earlierOnCores r c.coreSet || !d.coresFree (g.run.cores.map (·.core)) then d
    else (g.dev.launch g.run pg t.pot).modCmd r (fun c => { c with phase := .running })

/-- GRAPH_RUN on the device: the checks of R360, then the start. -/
def Dev.graphRun (d : Dev) (r : CmdRef) : Dev :=
  d.withCmd r 0x23 (fun c =>
    let cores := c.coreSet
    if !hdrOk c.desc 0 [(8, 0x30)] ∨ cores.isEmpty ∨ c.f 0x20 8 % 32 ≠ 0 ∨ c.f 0x28 8 % 32 ≠ 0 then
      d.finish r stInvalidField
    else
      match d.part r.f with
      | none => d
      | some p =>
        match kfind p.progs (c.f 0x08 4) with
        | none => d.finish r stProgUnknown
        | some pg =>
          let layer := c.f 0x0C 2
          if (parseImage pg.image).layers ≤ layer ∨ (layerProgs pg.image layer).length ≤ c.f 0x0E 2 then
            d.finish r stInvalidField
          else if cores.any (fun g => !p.cores.contains g) then d.finish r stNotOwned
          else d.graphStart r c pg)

/-- GRAPH_RUN (R360): checked, and started on its cores when they are free. -/
def execGraphRun (r : CmdRef) (s : State) : Host.Outcome State Fault Refusal := .next (s.onDev (fun d => d.graphRun r))

/-- COMMAND_START on the device (R112, R354): a command that its ring or function does not allow ends here, and a GRAPH_RUN
starts on its cores; any other command starts in the row of its opcode. -/
def Dev.commandStart (d : Dev) (r : CmdRef) : Dev :=
  match d.startable r with
  | none => d
  | some c =>
    match d.rejectStatus r c with
    | some st => d.finish r st
    | none => if c.op = 0x23 then d.graphRun r else d

/-- COMMAND_START (R112). -/
def execCommandStart (r : CmdRef) (s : State) : Host.Outcome State Fault Refusal :=
  .next (s.onDev (fun d => d.commandStart r))

end Sys2Proof.Machine
end

