-- ==== Sys2Proof/Machine/Contexts.lean ====
section
/-!
DEFINITION. Contexts: ROLLOUT_STEP, CTX_CREATE, CTX_RETIRE (R361 to R364), their states (R314 to R320), residence (R321 to
R324), batches (R130 to R133, R325 to R328) and passes (R173, R174, R319, R346).
-/

namespace Sys2Proof.Machine

/-- STEP and TARGET stick at 2^48 - 1 (R320). -/
abbrev stepMax : Nat := 2 ^ 48 - 1

/-! Transitions (R319). -/

/-- A context comes to rest: IDLE, BLOCKED or FAULTED. BLOCK_TIME is written, it leaves the parked queue unless it is
pinned, and it posts a completion where R346 says so. -/
def Dev.restCtx (d : Dev) (p i st blk : Nat) (g : Ctx → Ctx) : Dev :=
  let c := g (d.ctx i)
  let d1 := d.putCtx i { c with cstate := st, block := blk, blockTime := d.jdAo i }
  let d2 := if c.pinned then d1 else d1.modPart p (fun y => y.unpark i)
  if st = 1 ∨ st = 5 ∨ blk = 2 then d2.ctxCompletion i else d2

/-- A step fails (R319): STEP and POINT stay. -/
def Dev.faultCtx (d : Dev) (p i status : Nat) : Dev := d.restCtx p i 5 0 (fun c => { c with lastStatus := status })

/-- A semaphore has reached a value (R352): the signed 64-bit difference is at least 0. -/
def reached (v w : Nat) : Bool := decide ((v + 2 ^ 64 - w % 2 ^ 64) % 2 ^ 64 < 2 ^ 63)

/-- The input of a context's step is there (R317). A semaphore that cannot be read has not reached it. -/
def Dev.inputMet (d : Dev) (p : Nat) (c : Ctx) : Bool :=
  let r := (d.read p Env.clean c.inputSem 8).1
  r.marks.clear && reached (leNat r.bytes) (c.inputBase + c.step)

/-- The stage that a context enters next holds the program's INPUT_LAYER, and the input is not there (R317). -/
def Dev.inputBlocks (d : Dev) (p : Nat) (x : Part) (c : Ctx) : Bool :=
  match kfind x.progs c.prog with
  | none => false
  | some pg =>
    match pg.stages[c.point]? with
    | none => false
    | some st =>
      let o := parseRollout pg.image
      o.input && decide (st.first ≤ o.inputLayer) && decide (o.inputLayer ≤ st.last) && !d.inputMet p c

/-- The first attention program of an image (R197). -/
def firstAttn (img : Bytes) : Option TileProg :=
  (List.range (parseImage img).layers).findSome? (fun l => (layerProgs img l).find? (fun t => t.kind == .attention))

/-- The largest index whose start is at most `h`; a start of 0 disables it and every later one (R196). -/
def bucketOf (starts : List Nat) (h : Nat) : Nat :=
  ((starts.head?.toList ++ (starts.drop 1).takeWhile (· != 0)).takeWhile (fun v => decide (v ≤ h))).length - 1

/-- The ring header of an attention program's context (R185): the header, and how the context fails where it does. -/
def ringFault (t : TileProg) (r : Rd) (step : Nat) : Option Nat :=
  let a := parseAttn t.desc
  if !r.marks.clear then some (r.marks.final stSuccess).1
  else if a.ringFits r.bytes (t.gens.getD a.ringGen (parseGen [] 0)).fmt step then none
  else some stRingFormat

/-- The length bucket of a context that becomes runnable (R196, R197). -/
def Dev.bucketFor (d : Dev) (p : Nat) (x : Part) (c : Ctx) : Nat :=
  match (kfind x.progs c.prog).bind (fun g => firstAttn g.image) with
  | none => 0
  | some t =>
    let r := (d.read p Env.clean c.ringPtr 64).1
    if (ringFault t r c.step).isSome then 0
    else bucketOf (d.fn p).sch.buckets ((parseAttn t.desc).history (parseRing r.bytes) c.step)

/-- A context that is parked waits for residence, in the order of becoming runnable (R322). -/
def Part.park (x : Part) (i : Nat) : Part :=
  if x.parked.any (fun e => e.2 == i) || x.moves.any (fun m => m.cand == some i) then x
  else { x with parked := x.parked ++ [(i % 2, i)] }

/-- A context has a step to run: it is held (R362), blocked on its input (R317), or RUNNABLE in its bucket. -/
def Dev.toRun (d : Dev) (p i : Nat) : Dev :=
  match d.part p with
  | none => d
  | some x =>
    let c := d.ctx i
    if c.hold ∧ c.point = 0 then d.restCtx p i 4 3 (fun c => { c with hold := false })
    else if d.inputBlocks p x c then d.restCtx p i 4 1 id
    else
      let d1 := d.putCtx i { c with cstate := 2, block := 0, bucket := d.bucketFor p x c, readyAt := d.jdAo i }
      if c.resident then d1 else d1.modPart p (fun y => y.park i)

/-- A context at a step boundary that is not retired: held, IDLE, or with a step to run. -/
def Dev.settle (d : Dev) (p i : Nat) : Dev :=
  let c := d.ctx i
  if c.hold then d.restCtx p i 4 3 (fun c => { c with hold := false })
  else if c.target ≤ c.step then d.restCtx p i 1 0 id
  else d.toRun p i

/-- Contexts blocked on their input look again when a SIGNAL has stored in the partition (R317). -/
def Dev.inputWake (d : Dev) (p : Nat) : Dev :=
  match d.part p with
  | none => d
  | some x =>
    (d.ctxs.filter (fun e => decide (x.recBase ≤ e.1) && decide (e.1 < x.recBase + x.recCount) && e.2.cstate == 4
      && e.2.block == 1)).foldl (fun d e => if d.inputBlocks p x (d.ctx e.1) then d else d.toRun p e.1) d

/-! ROLLOUT_STEP (R361, R362). -/

/-- The record index that a handle names in a partition, where its generation is the record's (R315). -/
def Dev.byHandle (d : Dev) (x : Part) (h : Nat) : Option Nat :=
  let i := h % 2 ^ 20
  if x.recBase ≤ i ∧ i < x.recBase + x.recCount ∧ (kfind d.ctxs i).isSome ∧ (d.ctx i).gen = h / 2 ^ 20 then some i else none

/-- The handles of a list. -/
def handles (b : Bytes) : List Nat := (List.range (b.length / 4)).map (fun k => field b (4 * k) 4)

/-- A stage-table entry (R361). -/
def parseStageEnt (b : Bytes) (k : Nat) : Stage :=
  let inst := field b (32 * k + 0x18) 8
  { first := field b (32 * k) 2, last := field b (32 * k + 2) 2,
    cores := (setBits 128 (field b (32 * k + 8) 16)).zipIdx.map (fun z => (z.1, inst + 96 * z.2)) }

def Stage.coreIds (s : Stage) : List Nat := s.cores.map (·.1)

/-- The stage table's own rules (R362 step 3). -/
def stagesOk : Nat → List Nat → List Stage → Bool
  | _, _, [] => true
  | next, used, s :: l =>
    s.first == next && decide (s.first ≤ s.last) && !s.cores.isEmpty && s.coreIds.all (fun g => !used.contains g)
      && stagesOk (s.last + 1) (used ++ s.coreIds) l

/-- One context of a ROLLOUT_STEP, in the order of R362: the device, and whether the context became RUNNABLE. -/
def Dev.rollOne (d : Dev) (r : CmdRef) (c : Cmd) (i : Nat) : Dev × Bool :=
  let x := d.ctx i
  let steps := c.f 0x1C 4
  let released := bit c.opflags 1 && x.cstate == 4 && (x.block == 2 || x.block == 3)
  let y := { x with hold := (x.hold && !bit c.opflags 1) || bit c.opflags 0, target := min (x.target + steps) stepMax,
                    qp := r.q, tag := c.tag, inputSem := c.f 0x28 8, inputBase := c.f 0x30 8, report := bit c.opflags 2 }
  let d1 := d.putCtx i y
  let d2 :=
    if y.step = stepMax ∧ steps ≠ 0 then d1.faultCtx r.f i stStepLimit
    else if x.cstate = 5 then
      if x.lastStatus = stStepLimit then d1 else (d1.putCtx i { y with point := 0 }).settle r.f i
    else if (x.cstate = 1 ∧ y.step < y.target) ∨ released ∨ ((x.cstate = 1 ∨ x.cstate = 2) ∧ y.hold ∧ y.point = 0) then
      d1.settle r.f i
    else d1
  (d2, x.cstate != 2 && (d2.ctx i).cstate == 2)

/-- The contexts of a ROLLOUT_STEP in list order: the device, and how many became RUNNABLE. -/
def Dev.rollAll (d : Dev) (r : CmdRef) (c : Cmd) (l : List Nat) : Dev × Nat :=
  l.foldl (fun acc i => let z := acc.1.rollOne r c i; (z.1, acc.2 + b2n z.2)) (d, 0)

/-- The later checks of ROLLOUT_STEP, once its lists are read. -/
def Dev.rollFails (x : Part) (pg : Prog) (c : Cmd) (stages : Bytes) : Option Nat :=
  let n := byteAt c.desc 0x0C
  let l := (List.range n).map (parseStageEnt stages)
  let bad := (n == 0 && pg.stages.isEmpty) || !stagesOk 0 [] l || (parseImage pg.image).rollout == 0
    || ((parseRollout pg.image).input && c.f 0x28 8 == 0)
  if bad then some stStageFormat
  else if l.any (fun s => s.coreIds.any (fun g => !x.cores.contains g)) then some stNotOwned
  else none

/-- ROLLOUT_STEP on the device. The reserved parts of the stage table and of the instance records it names count for the
command (R571, log 28). -/
def Dev.rolloutStep (d : Dev) (r : CmdRef) : Dev :=
  d.withCmd r 0x24 (fun c =>
    let h := c.f 0x08 4
    let n := byteAt c.desc 0x0C
    let count := c.f 0x18 4
    if !hdrOk c.desc 7 [(8, 5), (0x10, 0x28)] ∨ 8 < n ∨ count = 0 ∨ 65536 < count ∨ c.f 0x10 8 % 4 ≠ 0
        ∨ (n == 0) != (c.f 0x20 8 == 0) ∨ c.f 0x28 8 % 8 ≠ 0 then d.finish r stInvalidField
    else
      match d.part r.f with
      | none => d
      | some x =>
        match kfind x.progs h with
        | none => d.finish r stProgUnknown
        | some pg =>
          let z := d.readList r.f ((c.f 0x10 8, 4 * count) :: (if n = 0 then [] else [(c.f 0x20 8, 32 * n)]))
          let st := z.1.getD 1 []
          if !z.2.1.clear then (z.2.2.mark r z.2.1).finish r stSuccess
          else if (List.range n).any (fun k => !zeroAt st (32 * k + 4) 4 || field st (32 * k + 0x18) 8 % 32 != 0
              || (parseStageEnt st k).cores.any (fun g => !zeroAt (z.2.2.peek r.f g.2 96) 0x4C 20)) then
            z.2.2.finish r stInvalidField
          else
            let l := (handles (z.1.headD [])).map (fun w =>
              (z.2.2.byHandle x w).filter (fun i => (d.ctx i).cstate != 0))
            match l.findIdx? Option.isNone with
            | some k => z.2.2.finish r stCtxStale 0 0 k
            | none =>
              let ids := l.filterMap id
              match ids.findIdx? (fun i => (d.ctx i).prog != h) with
              | some k => z.2.2.finish r stCtxProgram 0 0 k
              | none =>
                match Dev.rollFails x pg c st with
                | some e => z.2.2.finish r e
                | none =>
                  let d1 := if n = 0 then z.2.2 else z.2.2.modPart r.f (fun y =>
                    { y with progs := kset y.progs h { pg with stages := (List.range n).map (parseStageEnt st) } })
                  let w := d1.rollAll r c ids
                  w.1.finish r stSuccess w.2)

/-- ROLLOUT_STEP (R361, R362). -/
def execRolloutStep (r : CmdRef) (s : State) : Host.Outcome State Fault Refusal :=
  .next (s.onDev (fun d => d.rolloutStep r))

/-! Creation and retirement (R315, R324, R326, R327, R364). -/

/-- The reserved parts of a supplied record (R14, R314). -/
def recordOk (b : Bytes) : Bool :=
  decide (byteAt b 4 < 16) && byteAt b 4 % 8 != 7 && decide (byteAt b 6 < 8) && decide (byteAt b 7 < 4) && decide (field b 0x0E 2 < 16)
    && decide (field b 0x10 8 ≤ stepMax) && decide (field b 0x18 8 ≤ stepMax) && zeroAt b 0x60 160

/-- Entries of the context table that a partition uses on the die of a parity (R321). -/
def Dev.entriesUsed (d : Dev) (x : Part) (j : Nat) : Nat :=
  ((d.residents x).filter (fun e => e.1 % 2 == j)).length
    + (x.moves.filter (fun m => m.parity == j && m.cand.isSome && m.victim.isNone)).length

/-- Pinned contexts of a partition and parity. -/
def Dev.pinCount (d : Dev) (x : Part) (j : Nat) : Nat :=
  (d.ctxs.filter (fun e => decide (x.recBase ≤ e.1) && decide (e.1 < x.recBase + x.recCount) && e.1 % 2 == j
    && e.2.pinned && e.2.cstate != 0)).length

/-- HOME: the stack of the first byte of STATE_PTR (R328), 0 where that byte lies in no stack. -/
def Dev.homeOf (d : Dev) (p a : Nat) : Nat :=
  match d.locate p a with
  | .stack t _ _ => t
  | _ => 0

/-- A context of the partition belongs to a swap as the one that moves out. -/
def Part.leaving (x : Part) (i : Nat) : Bool := x.moves.any (fun m => m.victim == some i)

/-- At rest: IDLE, BLOCKED or FAULTED (R316's word for it is blocked). -/
def Ctx.resting (c : Ctx) : Bool := c.cstate == 1 || c.cstate == 4 || c.cstate == 5

/-- The victim of a decision (R322 step 3): the oldest BLOCK_TIME, then the lowest index. -/
def Dev.victim (d : Dev) (x : Part) (j : Nat) : Option Nat :=
  ((d.residents x).filter (fun e => e.1 % 2 == j && !e.2.pinned && e.2.resting && !x.leaving e.1)).foldl
    (fun (b : Option Nat) e =>
      match b with
      | none => some e.1
      | some v => if e.2.blockTime < (d.ctx v).blockTime then some e.1 else b) none

/-- A pinned context is resident from its creation (R324): it takes a free entry, else that of the victim that R322 would
choose, at once. Where every entry holds a pinned context or one with a step to run, which no rule takes out, it heads the parked
queue (DEDUCED, log 94). -/
def Dev.pinIn (d : Dev) (p i : Nat) : Dev :=
  match d.part p with
  | none => d
  | some x =>
    let y := x.unpark i
    let enter (d : Dev) : Dev := d.putCtx i { d.ctx i with resident := true }
    if d.entriesUsed x (i % 2) < x.quota / 2 then enter (d.putPart p y)
    else
      match d.victim x (i % 2) with
      | some v => enter ((d.putPart p y).putCtx v { d.ctx v with resident := false })
      | none => d.putPart p { y with parked := (i % 2, i) :: y.parked }

/-- CTX_CREATE's record (R326): its index's next generation, STEP, SEED and TARGET. -/
def Dev.newCtx (d : Dev) (r : CmdRef) (c : Cmd) (i step seed target : Nat) : Ctx :=
  { gen := match kfind d.ctxs i with
      | some x => (x.gen + 1) % 4096
      | none => 0
    cstate := if step < target then 2 else 1, pinned := bit c.opflags 0, prog := c.f 0x0C 4
    home := d.homeOf r.f (c.f 0x18 8), step := step, target := target, seed := seed, statePtr := c.f 0x18 8
    ringPtr := c.f 0x20 8, ioPtr := c.f 0x28 8, blockTime := if step < target then 0 else d.jdAo i, qp := r.q
    readyAt := d.jdAo i }

/-- CTX_CREATE on the device. An import flag without an import address, and an address without the flag, contradict the field's
own statement (R364): INVALID_FIELD, whose status the manual does not give for it (DEDUCED, log 94). -/
def Dev.ctxCreate (d : Dev) (r : CmdRef) : Dev :=
  d.withCmd r 0x25 (fun c =>
    match d.part r.f with
    | none => d
    | some x =>
      let i := c.f 0x08 4
      let imp := bit c.opflags 1
      let src := c.f 0x38 8
      if !hdrOk c.desc 3 [(8, 0x38)] ∨ i < x.recBase ∨ x.recBase + x.recCount ≤ i ∨ imp != (src != 0)
          ∨ (imp && (c.f 0x10 8 != 0 || c.f 0x30 8 != 0)) ∨ stepMax < c.f 0x30 8 then d.finish r stInvalidField
      else if (kfind x.progs (c.f 0x0C 4)).isNone then d.finish r stProgUnknown
      else
        let z := d.readList r.f (if imp then [(src, 256)] else [])
        let b := z.1.headD []
        if !z.2.1.clear then (z.2.2.mark r z.2.1).finish r stSuccess
        else if imp && !recordOk b then z.2.2.finish r stInvalidField
        else if (d.ctx i).cstate ≠ 0 then z.2.2.finish r stCtxSpace
        else if bit c.opflags 0 ∧ x.quota / 2 ≤ d.pinCount x (i % 2) then z.2.2.finish r stCtxPinLimit
        else
          let y := if imp then z.2.2.newCtx r c i (field b 0x10 8) (field b 0x20 8) (field b 0x18 8)
                   else z.2.2.newCtx r c i 0 (c.f 0x10 8) (c.f 0x30 8)
          let d1 := z.2.2.putCtx i { y with bucket := if y.cstate = 2 then z.2.2.bucketFor r.f x y else 0 }
          let d2 := if y.cstate = 2 then d1.modPart r.f (fun p => p.park i) else d1
          let d3 := if y.pinned then d2.pinIn r.f i else d2
          d3.finish r stSuccess 0 (y.handle i))

/-- CTX_CREATE (R326, R364). -/
def execCtxCreate (r : CmdRef) (s : State) : Host.Outcome State Fault Refusal := .next (s.onDev (fun d => d.ctxCreate r))

/-- A context whose step is in flight or about to be (R327): RUNNING in a batch that has closed. -/
def Dev.inStep (d : Dev) (x : Part) (i : Nat) : Bool :=
  (d.ctx i).cstate == 3 && x.batches.any (fun e => e.2.closed && e.2.ctxs.contains i)

/-- CTX_RETIRE on the device: what can go FREE goes at once, the rest at its step boundary. -/
def Dev.ctxRetire (d : Dev) (r : CmdRef) : Dev :=
  d.withCmd r 0x26 (fun c =>
    match d.part r.f with
    | none => d
    | some x =>
      let count := c.f 0x10 4
      if !hdrOk c.desc 0 [(8, 12)] ∨ count = 0 ∨ 65536 < count ∨ c.f 0x08 8 % 4 ≠ 0 then d.finish r stInvalidField
      else
        let z := d.readList r.f [(c.f 0x08 8, 4 * count)]
        if !z.2.1.clear then (z.2.2.mark r z.2.1).finish r stSuccess
        else
          let l := (handles (z.1.headD [])).map (fun w => z.2.2.byHandle x w)
          match l.findIdx? Option.isNone with
          | some k => z.2.2.finish r stCtxStale 0 0 k
          | none =>
            let ids := l.filterMap id
            let late := (ids.filter (fun i => d.inStep x i)).eraseDups
            let d1 := (ids.filter (fun i => !late.contains i && (d.ctx i).cstate != 0)).foldl (fun d i => d.freeCtx i) z.2.2
            let d2 := late.foldl (fun d i => d.putCtx i { d.ctx i with retire := true }) d1
            if late.isEmpty then d2.finish r stSuccess
            else d2.modCmd r (fun c => { c with phase := .running, retiring := late }))

/-- CTX_RETIRE (R327, R364). -/
def execCtxRetire (r : CmdRef) (s : State) : Host.Outcome State Fault Refusal := .next (s.onDev (fun d => d.ctxRetire r))

/-! Residence (R321 to R324). -/

/-- RESIDENCY_DECISION on the device. -/
def Dev.residency (d : Dev) (p j : Nat) : Dev :=
  match d.part p with
  | none => d
  | some x =>
    let calm := x.starve.filter (· != j)
    match x.parked.find? (fun e => e.1 == j) with
    | none => d
    | some (_, i) =>
      let rest := x.parked.filter (fun e => e.2 != i)
      if d.entriesUsed x j < x.quota / 2 then
        (d.putPart p { x with parked := rest, starve := calm }).putCtx i { d.ctx i with resident := true }
      else
        match d.victim x j with
        | some v => d.putPart p { x with parked := rest, starve := calm,
                                         moves := x.moves ++ [{ parity := j, cand := some i, victim := some v }] }
        | none =>
          if ((d.residents x).filter (fun e => e.1 % 2 == j)).all (fun e => e.2.pinned && e.2.resting)
              && !x.moves.any (fun m => m.parity == j && m.cand.isSome && m.victim.isNone) then
            if x.starve.contains j then d
            else (d.putPart p { x with starve := j :: calm }).raise
              { code := evPinStarve, part := p, unit := unitPart p, payload := leBytes 1 j }
          else d.putPart p { x with starve := calm }

/-- RESIDENCY_DECISION (R322). -/
def execResidencyDecision (p parity : Nat) (s : State) : Host.Outcome State Fault Refusal :=
  .next (s.onDev (fun d => d.residency p parity))

/-- SWAP on the device: the oldest swap of the parity ends. A victim that became runnable meanwhile enters the parked queue
now (R323). -/
def Dev.swapEnd (d : Dev) (p j : Nat) : Dev :=
  match d.part p with
  | none => d
  | some x =>
    match x.moves.find? (fun m => m.parity == j) with
    | none => d
    | some m =>
      let d1 := d.putPart p { x with moves := x.moves.erase m }
      let d2 := match m.victim with
        | some v =>
          let d2 := d1.putCtx v { d1.ctx v with resident := false, readyAt := d1.jdAo v }
          if (d1.ctx v).cstate = 2 then d2.modPart p (fun y => y.park v) else d2
        | none => d1
      match m.cand with
      | some i => d2.putCtx i { d2.ctx i with resident := true }
      | none => d2

/-- SWAP (R322). -/
def execSwap (p parity : Nat) (s : State) : Host.Outcome State Fault Refusal := .next (s.onDev (fun d => d.swapEnd p parity))

/-! Batches (R130 to R133, R325, R328). -/

/-- BAND_ROWS of a stage: that of its first layer's first tile program, where its tile programs differ (DESIGN CHOICE, log 94). -/
def Stage.band (st : Stage) (img : Bytes) : Nat := (tileAt img st.first 0).bandRows

/-- The batch order of R328: each core's places take, in join order, the contexts at home on its skillet; the remaining
contexts take the remaining places. A context's place is that of its first row. -/
def batchOrder (home : Nat → Nat) (cores : List Nat) (band rows : Nat) (join : List Nat) : List Nat :=
  let n := join.length
  let rankOf (k : Nat) : Nat := k * rows / max 1 band % max 1 cores.length
  let placed := cores.zipIdx.foldl (fun (acc : KMap Nat × List Nat) z =>
    let mine := acc.2.filter (fun i => home i == z.1 / 8)
    let slots := (List.range n).filter (fun k => rankOf k == z.2)
    let pairs := slots.zip mine
    (pairs.foldl (fun m e => kset m e.1 e.2) acc.1, acc.2.filter (fun i => !(pairs.map (·.2)).contains i))) ([], join)
  let free := (List.range n).filter (fun k => (kfind placed.1 k).isNone)
  let all := (free.zip placed.2).foldl (fun m e => kset m e.1 e.2) placed.1
  all.map (·.2)

/-- The cores of a stage that run its passes: those that are not fenced (R472). -/
def Dev.stageCores (d : Dev) (st : Stage) : List Nat := st.coreIds.filter (fun g => !d.coreFenced g)

/-- A batch closes (R130). -/
def Dev.closeBatch (d : Dev) (p b : Nat) : Dev :=
  d.modPart p (fun x =>
    match kfind x.batches b with
    | none => x
    | some z =>
      match (kfind x.progs z.prog).bind (fun g => (g.stages[z.point]?).map (fun st => (g.image, st))) with
      | none => { x with batches := kset x.batches b { z with closed := true } }
      | some (img, st) =>
        let l := batchOrder (fun i => (d.ctx i).home) (d.stageCores st) (st.band img) (parseRollout img).rows z.ctxs
        { x with batches := kset x.batches b { z with closed := true, ctxs := l } })

/-- A context joins a batch that has room, or closes it and starts the next (R130, R132). -/
def Dev.joinBatch (d : Dev) (p : Nat) (x : Part) (i : Nat) (img : Bytes) (st : Stage) : Dev :=
  let c := d.ctx i
  let rows := (parseRollout img).rows
  let target := st.band img * (d.stageCores st).length
  let fit := x.batches.find? (fun e => !e.2.closed && e.2.prog == c.prog && e.2.point == c.point && e.2.bucket == c.bucket)
  let enter (d : Dev) (b : Nat) (l : List Nat) : Dev :=
    let d1 := d.putCtx i { c with cstate := 3 }
    let d2 := d1.modPart p (fun y =>
      { y with batches := kset y.batches b { prog := c.prog, point := c.point, bucket := c.bucket, ctxs := l ++ [i], root := b }
               nextBatch := max y.nextBatch (b + 1) })
    if target ≤ (l.length + 1) * rows then d2.closeBatch p b else d2
  match fit with
  | none => enter d x.nextBatch []
  | some (b, z) =>
    if target < (z.ctxs.length + 1) * rows then enter (d.closeBatch p b) x.nextBatch [] else enter d b z.ctxs

/-- CONTEXT_JOIN on the device: a resident RUNNABLE context joins the batch that forms for its partition, program, point
and bucket (R325), unless it is about to enter a stage whose input is not there (R317). -/
def Dev.contextJoin (d : Dev) (i : Nat) : Dev :=
  match d.ctxPart i with
  | none => d
  | some (p, x) =>
    let c := d.ctx i
    if c.cstate ≠ 2 ∨ !c.resident ∨ x.suspended ∨ x.reclaim ≠ .none ∨ x.leaving i then d
    else
      match (kfind x.progs c.prog).bind (fun g => (g.stages[c.point]?).map (fun st => (g.image, st))) with
      | none => d
      | some (img, st) => if d.inputBlocks p x c then d.restCtx p i 4 1 id else d.joinBatch p x i img st

/-- CONTEXT_JOIN (R325). -/
def execContextJoin (idx : Nat) (s : State) : Host.Outcome State Fault Refusal := .next (s.onDev (fun d => d.contextJoin idx))

/-- BATCH_WINDOW on the device: the window of a forming batch has passed since its first context joined. -/
def Dev.batchWindow (d : Dev) (p b : Nat) : Dev :=
  match (d.part p).bind (fun x => kfind x.batches b) with
  | some z => if z.closed || z.ctxs.isEmpty then d else d.closeBatch p b
  | none => d

/-- BATCH_WINDOW (R130). -/
def execBatchWindow (p b : Nat) (s : State) : Host.Outcome State Fault Refusal := .next (s.onDev (fun d => d.batchWindow p b))

/-! Passes (R173, R174). A batch of a program whose FEEDBACK is not 1 pipelines its own steps: when stage 0 has completed a step
of it, the next step's entry stands before stage 0 (DEDUCED, log 52). -/

/-- Steps of a context that its batch has under way before the one of an entry. -/
def Part.before (x : Part) (z : Batch) (i : Nat) : Nat :=
  (x.batches.filter (fun e => e.2.root == z.root && decide (e.2.ord < z.ord) && e.2.ctxs.contains i)).length

/-- A context's record as the step of an entry sees it. -/
def Part.ahead (x : Part) (z : Batch) (i : Nat) (c : Ctx) : Ctx := { c with step := c.step + x.before z i, point := z.point }

/-- An entry holds a context. -/
def Part.holds (x : Part) (b i : Nat) : Bool :=
  match kfind x.batches b with
  | some z => z.ctxs.contains i
  | none => false

/-- A context leaves some of its batch's entries. -/
def Part.leaveFrom (x : Part) (f : Batch → Bool) (i : Nat) : Part :=
  let cut (e : Nat × Batch) : Nat × Batch := if f e.2 then (e.1, { e.2 with ctxs := e.2.ctxs.filter (· != i) }) else e
  { x with batches := (x.batches.map cut).filter (fun e => e.2.running || !e.2.ctxs.isEmpty) }

/-- Contexts leave their batch with a failure status, or FREE where they were to be retired (R319, R327). -/
def Dev.failCtxs (d : Dev) (p : Nat) (l : List (Nat × Nat)) : Dev :=
  l.foldl (fun d z =>
    if (d.ctx z.1).retire then d.freeCtx z.1 else (d.modPart p (fun x => x.leave z.1)).faultCtx p z.1 z.2) d

/-- A stage may start a pass (R173): no pass of it is in flight, its batch's earlier steps have left the stage, a slot is free
at the boundary behind it, and with a FEEDBACK delay the last stage has completed the step that far back. -/
def Dev.stageReady (d : Dev) (p : Nat) (x : Part) (z : Batch) (stages delay : Nat) : Bool :=
  let busy := d.runs.any (fun e => e.2.part == p && e.2.cmd.isNone && e.2.prog == z.prog && e.2.stage == z.point)
  let slots := match kget x.hist (8 * z.prog + z.point) [] with
    | [a, _] => (match kfind x.batches a with
                 | some y => decide (z.point + 1 < y.point)
                 | none => true)
    | _ => true
  let mine (f : Batch → Bool) : Bool := x.batches.any (fun e => e.2.root == z.root && f e.2)
  !busy && (decide (stages ≤ z.point + 1) || slots)
    && !mine (fun y => decide (y.ord < z.ord) && decide (y.point ≤ z.point))
    && !(z.point == 0 && delay != 0 && mine (fun y => decide (y.ord + delay ≤ z.ord)))

/-- A tile program of a pass needs each context's ring header: it attends over the ring, or writes to the frame's slots
(R183, R185). -/
def TileProg.onRing (t : TileProg) : Bool := t.kind == .attention || t.gens.any (fun g => g.wr && g.sel == 6)

/-- How a context whose ring header gave a read fails in a pass with these tile programs (R185). A program that only writes to
the ring has no descriptor for the header to agree with: the header's own fields are checked (DEDUCED, log 94). -/
def headFault (ts : List TileProg) (r : Rd) (step : Nat) : Option Nat :=
  if !r.marks.clear then some (r.marks.final stSuccess).1
  else if !ringOk r.bytes then some stRingFormat
  else ts.findSome? (fun t => if t.kind = .attention then ringFault t r step else none)

/-- Ring headers at the start of a pass (R183, R185): what each context's read gave, with the status of those that fail. -/
def Dev.ringHeads (d : Dev) (p : Nat) (x : Part) (z : Batch) (ts : List TileProg) (ids : List Nat) :
    List (Nat × Bytes × Option Nat) × Dev :=
  if ts.isEmpty then (ids.map (fun i => (i, [], none)), d)
  else
    ids.foldl (fun acc i =>
      let c := x.ahead z i (acc.2.ctx i)
      let r := acc.2.read p Env.clean c.ringPtr 64
      (acc.1 ++ [(i, r.1.bytes, headFault ts r.1 c.step)], r.2)) ([], d)

/-- Where the box list of a CROP program lies in a pass, per core (R223, R224, R363): the rows of each context behind its
own pointer, or the batch's rows behind the instance base. -/
def Dev.passBoxes (d : Dev) (x : Run) (c : CoreRun) (z : Nat × Nat) : List (Nat × Nat) :=
  match d.jobFor x c Env.clean { layer := z.1, prog := z.2 } with
  | none => []
  | some j =>
    if j.t.kind = .vector ∧ j.t.d8 0 = 2 then
      let g := j.t.genAt (j.t.d8 3)
      if j.byCtx g then
        (List.range x.ctxs.length).map (fun q =>
          (addrAdd (j.ctxBase { d := d, x := x, c := c } g q).1 g.base, 32 * j.rows))
      else [(addrAdd (instBase c.inst g.sel) g.base, 32 * min 4096 j.total)]
    else []

/-- The box lists of a pass: core rank, program, runs. -/
def Dev.boxRuns (d : Dev) (x : Run) (img : Bytes) : List (Nat × Nat × List (Nat × Nat)) :=
  (x.workers.flatMap (fun c => (x.programs img).map (fun z => (c, z)))).filterMap (fun w =>
    let l := d.passBoxes x w.1 w.2
    if l.isEmpty then none else some (w.1.rank, lpKey w.2.1 w.2.2, l))

/-- Box lists, read: by core rank and program. -/
def Dev.readBoxes (d : Dev) (p : Nat) (l : List (Nat × Nat × List (Nat × Nat))) : List (Nat × Nat × Bytes) × Marks × Dev :=
  l.foldl (fun acc w =>
    let r := acc.2.2.readList p w.2.2
    (acc.1 ++ [(w.1, w.2.1, r.1.flatten)], acc.2.1.join r.2.1, r.2.2)) ([], {}, d)

/-- The checks of R112 over every tile program of a pass, with the bases that stand at hand and the box lists read so far. -/
def Dev.passFails (d : Dev) (x : Run) (img : Bytes) (base : Plan → GenD → Option EntryD → List (Nat × Option Nat))
    (boxes : List (Nat × Nat × Bytes)) : Option Nat :=
  (x.programs img).findSome? (fun z =>
    (d.startFails x.part (x.workers.map (·.core)) (x.workers.map (fun c => x.planOn img c z.1 z.2 none)) base
      ((boxes.filter (fun b => b.2.1 == lpKey z.1 z.2)).map (·.2.2)) false).map (·.1))

/-- A pass whose checks have passed: what it runs, and the device after the reads that checked it. -/
structure PassGo where
  run : Run
  dev : Dev

/-- The box lists of a pass checked and read, and the rest of R112 (R224): the status of a pass that fails, or the pass. -/
def Dev.passRead (d : Dev) (x : Run) (img : Bytes) : (Nat × Dev) ⊕ PassGo :=
  let l := d.boxRuns x img
  let early := match d.passFails x img (fun _ _ _ => []) [] with
    | some st => if beforeRange st then some st else none
    | none => none
  let turn (st : Nat) : (Nat × Dev) ⊕ PassGo := .inl (early.getD st, d)
  if l.any (fun w => w.2.2.any (fun a => a.1 % 32 != 0)) then .inl (stInvalidField, d)
  else if l.any (fun w => w.2.2.any (fun a => !d.ownedRange x.part a.1 a.2)) then turn stAddrRange
  else
    let z := d.readBoxes x.part l
    match z.2.2.passFails x img (startBases z.2.2 x) z.1 with
    | some st => .inl (st, z.2.2)
    | none =>
      if !z.2.1.clear then .inl ((z.2.1.final stSuccess).1, z.2.2)
      else
        .inr { run := { x with
                 cores := x.cores.map (fun c => { c with boxes := (z.1.filter (fun e => e.1 == c.rank)).map (fun e => e.2) })
                 reads := l.flatMap (fun e => e.2.2.map (fun a => (a.1, a.2, e.2.1))) },
               dev := z.2.2 }

/-- What R112, R185 and R571 check before a pass starts: the device with the failed contexts out, or the pass. -/
def Dev.passCheck (d : Dev) (p : Nat) (x : Part) (z : Batch) (pg : Prog) (x0 : Run) (cores : List (Nat × Nat)) : Dev ⊕ PassGo :=
  let img := pg.image
  let ts := (x0.programs img).map (fun z => tileAt img z.1 z.2)
  let rh := d.ringHeads p x z (ts.filter TileProg.onRing) x0.ctxs
  let bad := rh.1.filterMap (fun z => z.2.2.map (fun st => (z.1, st)))
  let good := rh.1.filter (fun z => z.2.2.isNone)
  let ids := good.map (·.1)
  let d1 := rh.2.failCtxs p bad
  let fail (d : Dev) (st : Nat) : Dev := d.failCtxs p (ids.map (fun i => (i, st)))
  if ids.isEmpty then .inl d1
  else
    let z1 := d1.readList p (cores.map (fun c => (c.2, 96)))
    let t := (ts.find? (fun t => t.lenLoop.isSome)).getD (parseTile [] 0)
    let z2 := z1.2.2.readList p (lenReads t z1.1)
    let m := z1.2.1.join z2.2.1
    let lens := lensOf t cores.length z2.1
    let hdrs : KMap Bytes := good.zipIdx.map (fun z => (2 ^ 64 + z.2, z.1.2.1))
    let x1 : Run := { x0 with
      ctxs := ids, steps := ids.map (fun i => (x.ahead z i (d1.ctx i)).step)
      cores := cores.zipIdx.map (fun z => { newCore z.1.1 z.2 (z1.1.getD z.2 []) (lens.getD z.2 0) with hdrs := hdrs }) }
    if z1.1.any (fun b => !zeroAt b 0x4C 20) then .inl (fail z2.2.2 stInvalidField)
    else if !m.clear then .inl (fail z2.2.2 (m.final stSuccess).1)
    else
      match z2.2.2.passRead x1 img with
      | .inl w => .inl (fail w.2 w.1)
      | .inr g => .inr { g with run := { g.run with cores := g.run.cores ++ g.run.shadows img } }

/-- A pass starts: everything read and checked, or its contexts fail together (R112, R185, R319, R375). -/
def Dev.passGo (d : Dev) (p b : Nat) (x : Part) (z : Batch) (pg : Prog) (x0 : Run) (cores : List (Nat × Nat)) (pot : Nat) : Dev :=
  match d.passCheck p x z pg x0 cores with
  | .inl d => d
  | .inr g =>
    (g.dev.launch g.run pg pot).modPart p (fun y =>
      match kfind y.batches b with
      | some z => { y with batches := kset y.batches b { z with running := true, ctxs := g.run.ctxs },
                           hist := kmod y.hist (8 * z.prog + z.point) [] (fun h => (h ++ [b]).drop (h.length - 1)) }
      | none => y)

/-- A step that a batch pipelines behind another starts once the inputs of its contexts are there (R317). -/
def Dev.inputsWait (d : Dev) (p : Nat) (x : Part) (z : Batch) : Bool :=
  z.ord != 0 && z.ctxs.any (fun i => d.inputBlocks p x (x.ahead z i (d.ctx i)))

/-- PASS_START on the device (R173): the pass of a closed batch on the stage it stands before. -/
def Dev.passStart (d : Dev) (p b : Nat) : Dev :=
  match d.part p with
  | none => d
  | some x =>
    match kfind x.batches b with
    | none => d
    | some z =>
      match kfind x.progs z.prog with
      | none => d
      | some pg =>
        if !z.closed || z.running || x.suspended || x.reclaim != .none then d
        else
          match pg.stages[z.point]? with
          | none => d.failCtxs p (z.ctxs.map (fun i => (i, stStageFormat)))
          | some st =>
            if !d.stageReady p x z pg.stages.length (parseRollout pg.image).feedback || d.inputsWait p x z then d
            else
              let cores := st.cores.filter (fun g => !d.coreFenced g.1)
              let x0 : Run := { part := p, prog := z.prog, layer := st.first, last := st.last, batch := b, stage := z.point,
                                limitMs := (d.fn p).sch.limitMs, ctxs := z.ctxs }
              let twins := x0.twins pg.image (cores.map (·.1))
              if cores.isEmpty || twins.any d.coreFenced then d.failCtxs p (z.ctxs.map (fun i => (i, stPoisoned)))
              else if !d.coresFree (cores.map (·.1) ++ twins) then d
              else
                let pot := ((x0.programs pg.image).map (fun w => (tileAt pg.image w.1 w.2).pot)).foldl max 0
                d.passGo p b x z pg x0 cores pot

/-- PASS_START (R173). -/
def execPassStart (p b : Nat) (s : State) : Host.Outcome State Fault Refusal := .next (s.onDev (fun d => d.passStart p b))

/-- The step of an entry ends for a context (R319, R346): with success on the last stage. A later step of it that its batch has
begun goes on; one that has not is left, and the context comes to its boundary. -/
def Dev.stepped (d : Dev) (p b i : Nat) : Dev :=
  match d.part p with
  | none => d
  | some x =>
    match kfind x.batches b with
    | none => d
    | some z =>
      if !z.ctxs.contains i then d
      else
        let y := x.leaveFrom (fun e => e.root == z.root && e.ord == z.ord) i
        let c := { d.ctx i with step := min ((d.ctx i).step + 1) stepMax, point := 0, lastStatus := 0 }
        if y.batches.any (fun e => e.2.root == z.root && e.2.ctxs.contains i && (e.2.running || decide (0 < e.2.point))) then
          let d1 := (d.putPart p y).putCtx i c
          if c.report then d1.ctxCompletion i else d1
        else
          let d1 := (d.putPart p (x.leave i)).putCtx i c
          if c.retire then d1.freeCtx i
          else
            let d2 := if c.normHold then d1.restCtx p i 4 2 (fun c => { c with normHold := false }) else d1.settle p i
            let y := d2.ctx i
            if c.report ∧ y.cstate ≠ 1 ∧ !(y.cstate == 4 && y.block == 2) then d2.ctxCompletion i else d2

/-- A context of a batch enters its next stage, or blocks there on its input (R317). A step that runs behind an earlier one of
the context leaves the pipeline instead, to be run when the context comes to it. -/
def Dev.advance (d : Dev) (p b i point : Nat) : Dev :=
  match d.part p with
  | none => d
  | some x =>
    match kfind x.batches b with
    | none => d
    | some z =>
      if !z.ctxs.contains i then d
      else if x.before z i != 0 then
        if d.inputBlocks p x (x.ahead z i (d.ctx i)) then
          d.putPart p (x.leaveFrom (fun e => e.root == z.root && decide (z.ord ≤ e.ord)) i)
        else d
      else
        let d1 := d.putCtx i { d.ctx i with point := point }
        if !d1.inputBlocks p x (d1.ctx i) then d1
        else if (d1.ctx i).retire then d1.freeCtx i
        else (d1.putPart p (x.leave i)).restCtx p i 4 1 id

/-- Contexts of an entry whose next step its batch may pipeline (R174): they owe it, and nothing holds them. -/
def Dev.follows (d : Dev) (x : Part) (z : Batch) (i : Nat) : Bool :=
  let c := d.ctx i
  decide (c.step + x.before z i + 1 < c.target) && !c.retire && !c.hold && !c.normHold

/-- Stage 0 has completed a step of a batch: where the program does not feed each step into the next (FEEDBACK 1), the next
step's entry stands before stage 0 (R173, R174; DEDUCED, log 52). -/
def Dev.pipeline (d : Dev) (p b stages delay : Nat) : Dev :=
  match d.part p with
  | none => d
  | some x =>
    match kfind x.batches b with
    | none => d
    | some z =>
      let l := z.ctxs.filter (d.follows x z)
      if delay = 1 ∨ stages < 2 ∨ l.isEmpty ∨ x.suspended ∨ x.reclaim ≠ .none then d
      else d.putPart p { x with
        batches := kset x.batches x.nextBatch { z with point := 0, ctxs := l, running := false, ord := z.ord + 1 }
        nextBatch := x.nextBatch + 1 }

/-- A pass whose writes are released completes (R319, R467). -/
def Dev.passRelease (d : Dev) (rid : Nat) : Dev :=
  match d.run rid with
  | none => d
  | some x =>
    if d.stuck x.release && x.marks.clear then d
    else
      let p := x.part
      let st := (x.marks.final stSuccess).1
      let d1 := (d.dropRun rid).modPart p (fun y =>
        { y with batches := y.batches.map (fun e => if e.1 = x.batch then (e.1, { e.2 with running := false }) else e) })
      let stages := match d.runProg x with
        | some pg => pg.stages.length
        | none => 0
      let delay := match d.runProg x with
        | some pg => (parseRollout pg.image).feedback
        | none => 0
      let inPass (i : Nat) : Bool := match d1.part p with
        | some y => y.holds x.batch i
        | none => false
      let d2 :=
        if !stOk st then d1.failCtxs p ((x.ctxs.filter inPass).map (fun i => (i, st)))
        else
          let dh := (x.held.filter inPass).foldl (fun d i => d.putCtx i { d.ctx i with normHold := true }) d1
          if x.stage + 1 < stages then
            let dn := dh.modPart p (fun y =>
              { y with batches := y.batches.map (fun e =>
                  if e.1 = x.batch then (e.1, { e.2 with point := x.stage + 1 }) else e) })
            let da := x.ctxs.foldl (fun d i => d.advance p x.batch i (x.stage + 1)) dn
            if x.stage = 0 then da.pipeline p x.batch stages delay else da
          else x.ctxs.foldl (fun d i => d.stepped p x.batch i) dh
      match d2.part p with
      | some y => if y.suspended || y.reclaim != .none then d2.freeStuck p else d2
      | none => d2

/-- PASS_COMPLETE on the device: every core has posted its last write, and the clean marks have passed it. -/
def Dev.passComplete (d : Dev) (rid : Nat) : Dev :=
  match d.run rid with
  | none => d
  | some x =>
    if x.cmd.isSome then d
    else if x.ended then d.passRelease rid
    else if x.cores.any (fun c => !c.todo.isEmpty) then d
    else (d.endRun rid).passRelease rid

/-- PASS_COMPLETE (R319). -/
def execPassComplete (run : Nat) (s : State) : Host.Outcome State Fault Refusal :=
  .next (s.onDev (fun d => d.passComplete run))

end Sys2Proof.Machine
end

