-- ==== Sys2Proof/Machine/Copy.lean ====
section
/-!
DEFINITION. COPY and FILL (R239 to R248, R285, R365 to R367, R427).
-/

namespace Sys2Proof.Machine

/-! Moving within the module (R243, R366, R442). -/

/-- The skillet whose stack or stockpot holds a byte; none where no stack and no stockpot does. -/
def Dev.holder (d : Dev) (p : Nat) (pot : Bool) (a : Nat) : Option Nat :=
  if pot then (potOf a).map (·.1)
  else match d.locate p a with
    | .stack t _ _ => some t
    | _ => none

/-- The skillet whose whisk serves a COPY: the one that holds the destination's first byte (R366), or its neighbour while
that one drains (R515). -/
def Dev.whiskOf (d : Dev) (p : Nat) (pot : Bool) (a : Nat) : Option Nat :=
  (d.holder p pot a).map (fun s => if d.draining s then s ^^^ 1 else s)

/-- The cross-package charge of one sector of a side, and whether its cup is never served. -/
def Dev.sideCross (d : Dev) (p k : Nat) (pot : Bool) (a : Nat) : Bool × Dev :=
  if pot then
    match potOf a with
    | some (s, _) =>
      if s = k then (false, d)
      else (d.cupShut p (16 + k) || d.cupShut p (16 + s), (d.charge p k (16 + k) 1).charge p s (16 + s) 1)
    | none => (false, d)
  else d.crossCharge p k a

/-- The cross-package charges of runs. -/
def Dev.crossRuns (d : Dev) (p : Nat) (k : Option Nat) (pot : Bool) (l : List (Nat × Nat)) : Bool × Dev :=
  match k with
  | none => (false, d)
  | some k => (l.flatMap (fun r => sectorsOf r.1 r.2)).foldl (fun (acc : Bool × Dev) s =>
      let z := acc.2.sideCross p k pot s.1
      (acc.1 || z.1, z.2)) (false, d)

/-- Read every source, then write every destination; bytes that the sources or other elements also hold are undefined. -/
def Dev.moveAll (d : Dev) (p : Nat) (e : Env) (sp dp : Bool) (l : List Piece) : Marks × Dev :=
  let z := l.foldl (fun (acc : List (Piece × Rd) × Marks × Dev) q =>
    let r := q.srcs.foldl (fun (a : Rd × Dev) s =>
      let x := a.2.sideRead p e sp s.1 s.2
      (a.1.append x.1, x.2)) ({ bytes := [] }, acc.2.2)
    (acc.1 ++ [(q, r.1)], acc.2.1.join r.1.marks, r.2)) ([], {}, d)
  let srcs := if sp = dp then l.flatMap (·.srcs) else []
  z.1.zipIdx.foldl (fun (acc : Marks × Dev) y =>
    let q := y.1.1
    let others := (l.zipIdx.filter (fun w => w.2 != y.2)).map (fun w => (w.1.dst, w.1.len))
    let b := acc.2.blurOverlap (srcs ++ others) q.unit 0 q.dst (q.build y.1.2.bytes)
    let w := b.2.sideWrite p e dp q.dst b.1 (q.badOf y.1.2.bad 0 q.len)
    (acc.1.join w.1, w.2)) z.2

/-- A run of a side may be read or written by a command (R95, R112, R318). -/
def Dev.sideOk (d : Dev) (p : Nat) (pot wr : Bool) (a n : Nat) : Bool :=
  if pot then d.potOwned p a n else if wr then d.writable p a n else d.ownedRange p a n

/-- A checked transfer runs: a fenced whisk moves nothing (R472), and a cup that is never served ends it with TIME_LIMIT
(R449), its destination undefined. -/
def Dev.copyRun (d : Dev) (r : CmdRef) (e : Env) (sp dp : Bool) (l : List Piece) : Dev :=
  let p := r.f
  if l.any (fun q => q.srcs.any (fun s => !d.sideOk p sp false s.1 s.2) || !d.sideOk p dp true q.dst q.len) then
    d.finish r stAddrRange
  else
    let k := d.whiskOf p dp ((l.head?.map (·.dst)).getD 0)
    let dies := k.toList
    if k.any (fun s => (d.skillet s).fenced) then (d.mark r (.cause caFenced)).finish r stSuccess
    else
      let dsts := l.map (fun q => (q.dst, q.len))
      let c1 := d.crossRuns p k sp (l.flatMap (·.srcs))
      let c2 := c1.2.crossRuns p k dp dsts
      if c1.1 || c2.1 then ((c2.2.blurSide p dp dsts).mark r (.fail stTimeLimit)).finish r stSuccess 0 0 0 dies
      else
        let n : Nat := (l.map (·.len)).foldl (· + ·) 0
        let w := c2.2.moveAll p e sp dp l
        (w.2.mark r w.1).finish r stSuccess n 0 0 dies

/-! Halo mode (R244 to R247). -/

/-- A piece record. -/
structure PieceD where
  nd : Nat
  es : Nat
  count : Nat
  extents : List Nat               -- of the local buffer: HLO + LOCAL + HHI
  strides : List Int               -- dimension 0 first
  table : Nat
  deriving DecidableEq, Repr

/-- Read a piece record: reserved fields first (R14), then R244. -/
def parsePiece (b : Bytes) : PieceD ⊕ Nat :=
  let nd := byteAt b 4
  let es := 2 ^ byteAt b 5
  let loc := (List.range 5).map (fun i => field b (8 + 4 * i) 4)
  if !zeroAt b 0x1C 4 || !zeroAt b 0x52 6 || !zeroAt b 0x70 16 then .inr stInvalidField
  else if field b 0 4 ≠ 0x43454950 ∨ nd = 0 ∨ 5 < nd ∨ 3 < byteAt b 5 ∨ 64 < field b 6 2 ∨ (loc.drop nd).any (· != 0)
      ∨ field b 0x68 8 % 32 ≠ 0 then .inr stPieceFormat
  else .inl { nd := nd, es := es, count := field b 6 2
              extents := (List.range nd).map (fun i => byteAt b (0x48 + i) + loc.getD i 0 + byteAt b (0x4D + i))
              strides := (es : Int) :: (List.range (nd - 1)).map (fun i => signed 32 (field b (0x58 + 4 * i) 4))
              table := field b 0x68 8 }

/-- A halo entry. -/
structure HaloEnt where
  kind : Nat
  window : Nat
  module : Nat
  extent : List Nat
  dst : List Nat
  src : Nat
  sstride : List Int               -- dimension 0 first
  deriving DecidableEq, Repr

def parseHalo (x : PieceD) (b : Bytes) : HaloEnt :=
  { kind := byteAt b 0, window := field b 2 2, module := byteAt b 4
    extent := (List.range x.nd).map (fun i => field b (8 + 4 * i) 4)
    dst := (List.range x.nd).map (fun i => field b (0x20 + 4 * i) 4), src := field b 0x38 8
    sstride := (x.es : Int) :: (List.range (x.nd - 1)).map (fun i => signed 32 (field b (0x40 + 4 * i) 4)) }

/-- Reserved fields and codes of an entry, and fields of another kind (R571). -/
def haloReserved (b : Bytes) : Bool :=
  decide (2 < byteAt b 0) || byteAt b 1 != 0 || !zeroAt b 5 3 || !zeroAt b 0x1C 4 || !zeroAt b 0x34 4 || !zeroAt b 0x50 16
    || (byteAt b 0 != 0 && !zeroAt b 2 3) || (byteAt b 0 == 1 && !zeroAt b 0x40 16)

/-- The box of an entry lies in the local buffer, and no extent is 0. -/
def HaloEnt.fits (h : HaloEnt) (x : PieceD) : Bool :=
  h.extent.all (· != 0) && ((h.extent.zip h.dst).zip x.extents).all (fun z => decide (z.1.1 + z.1.2 ≤ z.2))

/-- The runs of a box that are contiguous on both sides: their length, and their source and destination offsets from the
box's first element. -/
def boxRuns (es : Nat) (ext : List Nat) (ss ds : List Int) : Nat × List (Int × Int) :=
  match ext with
  | [] => (0, [])
  | e0 :: rest =>
    ((rest.zip (ss.drop 1)).zip (ds.drop 1)).foldl (fun (acc : Nat × List (Int × Int)) z =>
      let n : Nat := z.1.1
      let s := z.1.2
      let t := z.2
      if acc.2.length = 1 ∧ s = (acc.1 : Int) ∧ t = (acc.1 : Int) then (acc.1 * n, acc.2)
      else (acc.1, (List.range n).flatMap (fun (i : Nat) => acc.2.map (fun o => (o.1 + (i : Int) * s, o.2 + (i : Int) * t)))))
      (e0 * es, [(0, 0)])

/-- The runs of an entry: source offset, destination address, bytes. -/
def HaloEnt.runs (h : HaloEnt) (x : PieceD) (local_ : Nat) : List (Int × Nat × Nat) :=
  let z := boxRuns x.es h.extent h.sstride x.strides
  let o := ((h.dst.zip x.strides).map (fun w => (w.1 : Int) * w.2)).foldl (· + ·) 0
  z.2.map (fun r => ((h.src : Int) + r.1, addrAdd local_ (o + r.2), z.1))

/-- A run cut into requests of at most 65,536 bytes (R427). -/
def chunks (r : Int × Nat × Nat) : List (Int × Nat × Nat) :=
  (List.range (ceilDiv r.2.2 65536)).map (fun i =>
    (r.1 + (65536 * i : Nat), r.2.1 + 65536 * i, min 65536 (r.2.2 - 65536 * i)))

/-- One read request of a halo entry (R420, R427); an offset that no flit can carry lies in no window. -/
def Dev.haloRead (d : Dev) (r : CmdRef) (pot : Bool) (job k : Nat) (h : HaloEnt) (c : Int × Nat × Nat) : Dev :=
  if c.1 < 0 ∨ (2 ^ 48 : Int) ≤ c.1 then (d.mark r (.cause caRange)).haloLost r k
  else if (d.dest h.module).unreachable then (d.mark r (.cause caFenced)).haloLost r k
  else
    let tag := d.fab.nextTag
    let z := d.cmdSend r { dst := h.module, id := 0, op := 1, window := h.window, woff := c.1.toNat, job := job,
                           data := leBytes 4 c.2.2 ++ leBytes 4 tag }
    let t : ReadTag := { tag := tag, dst := h.module, msg := z.1, part := r.f, addr := c.2.1, len := c.2.2, pot := pot,
                         entry := k, cmd := some r }
    (z.2.setFab { z.2.fab with tags := z.2.fab.tags ++ [t], nextTag := (tag + 1) % 2 ^ 32 }).modCmd r (fun c =>
      { c with tags := c.tags ++ [tag] })

/-- One halo entry is issued (R246). -/
def Dev.haloIssue (d : Dev) (r : CmdRef) (e : Env) (pot : Bool) (job : Nat) (x : PieceD) (local_ : Nat) (k : Nat) (h : HaloEnt) :
    Dev :=
  let l := h.runs x local_
  match h.kind with
  | 0 => (l.flatMap chunks).foldl (fun d c => d.haloRead r pot job k h c) d
  | 1 =>
    let pat := leBytes x.es h.src
    let w := l.foldl (fun (acc : Marks × Dev) z =>
      let b := acc.2.sideWrite r.f e pot z.2.1 (List.replicate (z.2.2 / x.es) pat).flatten []
      (acc.1.join b.1, b.2)) ({}, d)
    if w.1.clear then w.2 else (w.2.mark r w.1).haloLost r k
  | _ =>
    let s0 : Int := (local_ : Int)
    let w := d.moveAll r.f e pot pot (l.map (fun z =>
      { dst := z.2.1, len := z.2.2, srcs := [(addrAdd 0 (s0 + z.1), z.2.2)] }))
    if w.1.clear then w.2 else (w.2.mark r w.1).haloLost r k

/-- The bytes that several boxes of a halo COPY share, and those that a local copy takes from another entry's box: no order
of arrival is given (R247). -/
def haloShared (x : PieceD) (local_ : Nat) (l : List HaloEnt) : List (Nat × Nat) :=
  let boxes := l.map (fun h => (h.runs x local_).map (fun z => (z.2.1, z.2.2)))
  l.zipIdx.flatMap (fun y =>
    let others := ((boxes.zipIdx.filter (fun w => w.2 != y.2)).map (·.1)).flatten
    (y.1.runs x local_).flatMap (fun z =>
      (List.range z.2.2).filterMap (fun i =>
        if inRuns others (z.2.1 + i) || (y.1.kind == 2 && inRuns others (addrAdd local_ (z.1 + (i : Int)))) then
          some (z.2.1 + i, 1) else none)))

/-- COPY in halo mode: the record and its entries are checked, then every entry is issued in table order. -/
def Dev.haloCopy (d : Dev) (r : CmdRef) (c : Cmd) (e : Env) (pot : Bool) : Dev :=
  let p := r.f
  let local_ := c.f 0x10 8
  if !d.ownedRange p (c.f 0x20 8) 128 then d.finish r stAddrRange
  else
    let z := d.read p e (c.f 0x20 8) 128
    if !z.1.marks.clear then (z.2.mark r z.1.marks).finish r stSuccess
    else
      match parsePiece z.1.bytes with
      | .inr st => z.2.finish r st
      | .inl x =>
        if !d.ownedRange p x.table (96 * x.count) then z.2.finish r stAddrRange
        else
          let y := z.2.read p e x.table (96 * x.count)
          let ents := (List.range x.count).map (fun k => slice y.1.bytes (96 * k) 96)
          let l := ents.map (parseHalo x)
          if !y.1.marks.clear then (y.2.mark r y.1.marks).finish r stSuccess
          else if ents.any haloReserved then y.2.finish r stInvalidField
          else if !l.all (fun h => h.fits x) then y.2.finish r stPieceFormat
          else
            let boxes := l.map (fun h => (h.runs x local_).map (fun w => (w.2.1, w.2.2)))
            if boxes.flatten.any (fun b => !d.sideOk p pot true b.1 b.2)
                || l.any (fun h => h.kind == 2 && (h.runs x local_).any (fun w =>
                     !d.sideOk p pot false (addrAdd local_ w.1) w.2.2)) then y.2.finish r stAddrRange
            else if l.isEmpty then y.2.finish r stEmptyOutput
            else
              let k := y.2.whiskOf p pot local_
              if l.any (fun h => h.kind != 0) && k.any (fun s => (y.2.skillet s).fenced) then
                (y.2.mark r (.cause caFenced)).finish r stSuccess
              else
                let n : Nat := (boxes.flatten.map (·.2)).foldl (· + ·) 0
                let job := match y.2.part p with
                  | some q => q.job
                  | none => 0
                let d1 := y.2.modCmd r (fun c => { c with
                  phase := .running, result0 := n, dies := k.toList.map (fun s => (s, 0))
                  halo := some { pot := pot, boxes := boxes, shared := haloShared x local_ l } })
                (l.zipIdx.foldl (fun d w => d.haloIssue r e pot job x local_ w.2 w.1) d1).settleCmd r

/-- COPY on the device. -/
def Dev.copy (d : Dev) (r : CmdRef) (e : Env) : Dev :=
  d.withCmd r 0x27 (fun c =>
    let mode := c.opflags % 4
    let sp := bit c.opflags 2
    let dp := bit c.opflags 3
    let src := c.f 0x08 8
    let dst := c.f 0x10 8
    let n := c.f 0x18 8
    let aux := c.f 0x20 8
    if !hdrOk c.desc 0x0F [(8, 0x20)] ∨ mode = 3 ∨ (mode ≠ 0 ∧ n ≠ 0) ∨ (mode = 0 ∧ aux ≠ 0) ∨ (mode = 2 ∧ src ≠ 0)
        ∨ aux % 64 ≠ 0 ∨ (sp && mode != 2 && (potOf src).isNone) ∨ (dp && (potOf dst).isNone) then d.finish r stInvalidField
    else if mode = 0 then
      if n = 0 then d.finish r stEmptyOutput else d.copyRun r e sp dp [{ dst := dst, len := n, srcs := [(src, n)] }]
    else if mode = 1 then
      if !d.ownedRange r.f aux 64 then d.finish r stAddrRange
      else
        let z := d.read r.f e aux 64
        if !z.1.marks.clear then (z.2.mark r z.1.marks).finish r stSuccess
        else
          match parseWhisk z.1.bytes with
          | .inr st => z.2.finish r st
          | .inl w => z.2.copyRun r e sp dp (w.pieces src dst)
    else d.haloCopy r c e dp)

/-- COPY (R365). -/
def execCopy (r : CmdRef) (e : Env) (s : State) : Host.Outcome State Fault Refusal := .next (s.onDev (fun d => d.copy r e))

/-! FILL (R285, R367). -/

/-- Stack offsets that fill mode covers: stack, from, to, and whether the map is the sector map. -/
abbrev FillRun := Nat × Nat × Nat × Bool

/-- The whole granules of a run of a region, as one run on each of its stacks (R274). -/
def Region.wholeRuns (g : Region) (o n : Nat) : List FillRun :=
  let st := setBits 16 g.mask
  let gs := if g.sector then 256 else 2048
  st.zipIdx.filterMap (fun z =>
    let lo := ceilDiv (ceilDiv o gs - z.2) st.length
    let hi := ceilDiv ((o + n) / gs - z.2) st.length
    if lo < hi then some (z.1, g.rowBase * 4194304 + lo * gs, g.rowBase * 4194304 + hi * gs, g.sector) else none)

/-- The rows of 2 KiB (R276, R280) that hold a range of a stack: from the first byte of the first to the end of the last. The
granules of one row of the sector map lie 512 KiB apart. -/
def PoisonEnt.rows (e : PoisonEnt) (sector : Bool) : Nat × Nat :=
  let top := e.addr + 2 ^ e.log2
  if !sector then (e.addr / 2048 * 2048, ceilDiv top 2048 * 2048)
  else if e.log2 ≤ 19 then
    let b := e.addr / 4194304 * 4194304
    let c := e.addr % 524288
    (b + c / 256 * 256, b + 7 * 524288 + ceilDiv (c + 2 ^ e.log2) 256 * 256)
  else (e.addr / 4194304 * 4194304, ceilDiv top 4194304 * 4194304)

/-- Runs cover the range from `lo` to `hi`. -/
def coversRange (l : List (Nat × Nat)) (lo hi : Nat) : Bool :=
  decide (hi ≤ (List.range l.length).foldl (fun a _ => match l.find? (fun r => decide (r.1 ≤ a) && decide (a < r.2)) with
    | some r => r.2
    | none => a) lo)

/-- The rows of a poisoned range are all written in fill mode. -/
def PoisonEnt.filled (e : PoisonEnt) (l : List FillRun) : Bool :=
  match l.find? (fun r => decide (r.2.1 ≤ e.addr) && decide (e.addr < r.2.2.1)) with
  | none => false
  | some r => let z := e.rows r.2.2.2
              coversRange (l.map (fun r => (r.2.1, r.2.2.1))) z.1 z.2

/-- Fill mode removes every poison entry, and every repair mark, whose whole range its rows cover (R285, R291). -/
def Dev.clearRows (d : Dev) (l : List FillRun) : Dev :=
  ((l.map (·.1)).eraseDups).foldl (fun d t =>
    let mine := l.filter (fun r => r.1 == t)
    if d.stackOut t then d
    else d.modStack t (fun x => { x with
      poison := x.poison.filter (fun e => !e.filled mine)
      repairPoison := x.repairPoison.filter (fun o => !({ addr := o, log2 := 8 : PoisonEnt }).filled mine) })) d

/-- What fill mode covers of a run of the address space: whole granules of regions, and of the tier frames of its pages. -/
def Dev.fillRows (d : Dev) (p a n : Nat) : List FillRun :=
  (d.regions.filter (fun e => e.2.part == p && decide (e.2.kind ≤ 1))).flatMap (fun e =>
    let lo := max a e.2.base
    let hi := min (a + n) (e.2.base + e.2.size)
    if lo < hi then e.2.wholeRuns (lo - e.2.base) (hi - lo) else [])
  ++ (match d.part p with
    | none => []
    | some x =>
      x.tier.page.flatMap (fun e => match e.2, kfind d.regions x.tier.region with
        | .stack f, some g =>
          let at_ := x.tier.base + e.1 * pageBytes
          let lo := max a at_
          let hi := min (a + n) (at_ + pageBytes)
          if lo < hi then g.wholeRuns (f * pageBytes + (lo - at_)) (hi - lo) else []
        | _, _ => []))

/-- FILL on the device. -/
def Dev.fillCmd (d : Dev) (r : CmdRef) : Dev :=
  d.withCmd r 0x28 (fun c =>
    let dst := c.f 0x08 8
    let n := c.f 0x10 8
    let pat := leBytes (2 ^ (c.opflags % 4)) (c.f 0x18 8)
    if !hdrOk c.desc 3 [(8, 0x18)] then d.finish r stInvalidField
    else if n = 0 then d.finish r stEmptyOutput
    else if !d.writable r.f dst n then d.finish r stAddrRange
    else
      let d1 := d.clearRows (d.fillRows r.f dst n)
      let w := d1.writeRaced r.f Env.clean dst ((List.replicate (n / pat.length + 1) pat).flatten.take n)
      (w.2.mark r w.1).finish r stSuccess n 0 0 (d.holder r.f false dst).toList)

/-- FILL (R367). -/
def execFill (r : CmdRef) (s : State) : Host.Outcome State Fault Refusal := .next (s.onDev (fun d => d.fillCmd r))

end Sys2Proof.Machine
end

