-- ==== Sys2Proof/Machine/Engine.lean ====
section
/-!
DEFINITION. The first-and-last-layer engines (R217 to R222, R270): what an engine takes, its work on its skillet's stack, and the
rows in which firmware submits it: the bring-ups and the self-tests (R478, R479, R507).
-/

namespace Sys2Proof.Machine

/-- The usable rows of a stack, and its SRAM of an engine, in bytes. -/
abbrev usableBytes : Nat := 30720 * 4194304
abbrev engineSram : Nat := 524288

/-- A run of a stack lies outside of every partition's regions: it is firmware's (R479). -/
def Dev.firmwareRun (d : Dev) (k a n : Nat) : Bool :=
  n == 0 || (decide (a + n ≤ usableBytes) && d.regions.all (fun e =>
    let g := e.2
    let rows := g.size / ((setBits 16 g.mask).length * 4194304)
    !bit g.mask k || decide ((a + n - 1) / 4194304 < g.rowBase) || decide (g.rowBase + rows ≤ a / 4194304)))

/-- What an engine takes (R218), and for the self-test rotation besides (`full`, R222). Generators of a core's own spaces name
nothing that an engine has (DEDUCED, log 97). -/
def engineTakes (full : Bool) (t : TileProg) : Bool :=
  t.gens.all (fun g => g.space == 0 && g.grole != 3) && t.loops.all (fun l => l.role != 4) && t.pro.isEmpty
    && (full || t.epi.all (fun s => !rowClosing s.kind))
    && (match t.kind with
        | .dot => t.product == 0 && decide (t.bandRows ≤ 256) && (full || t.arrayOp == 0)
        | .scan => full
        | _ => false)

/-- The staged elements, the quantized band and the held rows fit the engine's SRAM (R211, R102, R151; DESIGN CHOICE, log 97). -/
def engineFits (b : Bytes) (t : TileProg) (p : Plan) : Bool :=
  let band := if t.kind = .dot then t.qband * t.bandRows * t.maxK b * 265 else 0
  let stage := match t.window b with
    | some x => x.stage * x.wg * x.gp * x.cg * ((t.byRole 0).map (fun g => fmtBytes g.2.fmt)).headD 4
    | none => 0
  decide (256 * (stage + (p.rowSpace none).1) + band ≤ 256 * engineSram)

/-- The device as an engine's work sees it: all of its skillet's stack is firmware's, and nothing else runs. -/
def Dev.engineView (d : Dev) (k : Nat) (image : Bytes) : Dev :=
  { d with
    parts := [(0, { progs := [(1, { addr := 0, size := image.length, image := image })] })]
    regions := [(0, { part := 0, base := 0, size := usableBytes, mask := 2 ^ k, rowBase := 0, sector := false, kind := 0 })]
    runs := [] }

/-- The pieces of work of an engine's core, in order. -/
def engineWorks (j : EngineJob) (e : Ex) : Ex :=
  (e.c.todo.filter (fun w => w.sb.isNone)).zipIdx.foldl (fun e w =>
    match e.d.jobFor e.x e.c Env.clean w.1 with
    | some job => ((workOf job (if j.mismatch.contains w.2 then some (.residue 1) else none)).run e).2
    | none => e) e

/-- The places of an engine's work that are not firmware's. -/
def Dev.engineStrays (d : Dev) (k : Nat) (x : Run) : Bool :=
  x.reads.any (fun r => !d.firmwareRun k r.1 r.2.1) || x.written.any (fun w => !d.firmwareRun k w.1 (w.2.1 * runBytes w.2.2.1))

/-- An engine is done with a piece of firmware's work: how it ended (R217, R220). -/
def Dev.engineEnds (d : Dev) (k st : Nat) : Dev := d.modSkillet k (fun x => { x with refs := x.refs ++ [st] })

/-- Firmware's work on an engine (R217 to R222, R270): test data first, then the tile program, on the array's own arithmetic
(R219). Memory that it does not own it never names, and a fenced engine runs nothing (R472). -/
def Dev.engineRun (d : Dev) (full : Bool) (k : Nat) (j : EngineJob) : Dev :=
  let b := j.image
  let t := tileAt b j.layer j.index
  let load := validateImage d.trust.ftLevel b b.length
  if 16 ≤ k ∨ (d.skillet k).fenced ∨ (d.skillet k).engineFenced ∨ !j.data.all (fun w => d.firmwareRun k w.1 w.2.length)
      ∨ (parseImage b).layers ≤ j.layer ∨ (layerProgs b j.layer).length ≤ j.index then d
  else if load ≠ stSuccess then d.engineEnds k load
  else
    let v := j.data.foldl (fun v w => (v.store 0 Env.clean w.1 w.2).2) (d.engineView k b)
    let z := v.readList 0 (lenReads t [j.inst])
    let c0 := newCore (128 + k) 0 j.inst ((lensOf t 1 z.1).headD 0)
    let x0 : Run := { part := 0, prog := 1, layer := j.layer, last := j.layer, index := j.index,
                      cmd := some { f := 0, q := 0, k := 0 }, cores := [c0] }
    let p := x0.planOn b c0 j.layer j.index none
    if !engineTakes full t || !engineFits b t p then d.engineEnds k stProgLimit
    else
      let c := x0.ready b c0
      let e := engineWorks j { d := z.2.2, x := { x0 with cores := [c] }, c := c }
      if d.engineStrays k e.x then d
      else
        let r := { e.d with parts := d.parts, regions := d.regions, runs := d.runs, cores := d.cores }
        r.engineEnds k ((z.2.1.join e.x.marks).final stSuccess).1

/-- Firmware submits work to an engine, which forgets how its last work ended. -/
def Dev.engineJobs (d : Dev) (full : Bool) (k : Nat) (l : List EngineJob) : Dev :=
  l.foldl (fun d j => d.engineRun full k j) (d.modSkillet k (fun x => { x with refs := [] }))

/-! Bring-up (R507, R511, R532, R536): the known-answer layers run in device step 10, and in recovery (R217). -/

/-- The layers of the known-answer model, where a bring-up comes so far. -/
def Dev.knownAnswer (d : Dev) (b : BringUp) : Dev :=
  if decide (10 ≤ d.trust.step) || d.trust.recovery then b.layers.foldl (fun d w => d.engineRun false w.1 w.2) d else d

/-- The device sequence with the engines' work. -/
def Dev.bringUp (d : Dev) (b : BringUp) : Dev := (d.boot b).knownAnswer b

/-- POWER_ON_RESET (R507). -/
def execPowerOnReset (b : BringUp) (s : State) : Host.Outcome State Fault Refusal :=
  .next (s.onDev (fun d => if d.mod.converter then (d.wiped true).bringUp b else d))

/-- MRST_RISE (R532). -/
def execMrstRise (b : BringUp) (s : State) : Host.Outcome State Fault Refusal :=
  .next (s.onDev (fun d =>
    if d.mod.converter && d.mod.mrstLow then (d.setMod { d.mod with mrstLow := false }).bringUp b else d))

/-- CTL_DEV_RESET (R511, R532, R558). -/
def execCtlDevReset (key : Nat) (go : Bool) (b : BringUp) (s : State) : Host.Outcome State Fault Refusal :=
  .next (s.onDev (fun d =>
    if d.mod.converter && !d.mod.mrstLow && go && key == 0xA55A then (d.deviceReset b).knownAnswer b else d))

/-- IMAGE_COMMIT on the device (R500, R536, R537): a recovery image then resets the device. -/
def Dev.imageCommit (d : Dev) (target len : Nat) (flashOk : Bool) (b : BringUp) : Dev :=
  if d.trust.recovery && !d.trust.imageRunning then d.i3c 3 []
  else if 1 < target ∨ d.trust.staged.length < len then d.i3c 1 []
  else
    let z := d.fwStore target (d.trust.staged.take len) flashOk
    let d1 := z.1.i3c z.2 []
    if z.2 = 0 ∧ d.trust.recovery then (d1.deviceReset b).knownAnswer b else d1

/-- IMAGE_COMMIT (R536). -/
def execImageCommit (target len : Nat) (flashOk : Bool) (b : BringUp) (s : State) : Host.Outcome State Fault Refusal :=
  .next (s.onDev (fun d => if d.mod.converter then d.imageCommit target len flashOk b else d))

/-! The self-test rotation (R478, R479). -/

/-- The references of a core's test (R479), on the engine that serves them. -/
def Dev.references (d : Dev) (g : Nat) (work : List EngineJob) : Dev :=
  match d.refEngine g with
  | some k => d.engineJobs true k work
  | none => d

/-- SELFTEST_IDLE (R478): firmware tests the core while it is idle. -/
def execSelftestIdle (test : CoreTest) (s : State) : Host.Outcome State Fault Refusal :=
  .next (s.onDev (fun d =>
    if d.testStarts test.core then
      (d.references test.core test.work).modCore test.core (fun x => { x with testing := true })
    else d))

/-- SELFTEST_RESERVE (R478): the scheduler reserves the core; the test starts once it is idle. -/
def execSelftestReserve (test : CoreTest) (s : State) : Host.Outcome State Fault Refusal :=
  .next (s.onDev (fun d =>
    let c := test.core
    if coreOk c && !(d.core c).retired then
      (d.references c test.work).modCore c (fun x => { x with reserved := true, testing := d.testStarts c || x.testing })
    else d))

end Sys2Proof.Machine
end

