-- ==== Sys2Proof/Machine/Packing.lean ====
section
/-!
DEFINITION. PACK (R255 to R262, R358): the two passes over a weight source and the packed region they leave.
-/

namespace Sys2Proof.Machine

/-- The source runs of a record: real or only plane, imaginary plane, exponents. -/
def PackRec.runs (r : PackRec) : List (Nat × Nat) :=
  [(r.src, r.srcBytes), (r.srcIm, if r.sfmt = 3 ∨ r.sfmt = 4 then r.srcBytes else 0), (r.srcExp, r.expBytes)]

/-- One pass over the source. -/
def Dev.packRead (d : Dev) (p : Nat) (e : Env) (r : PackRec) : PackSrc × Marks × Dev :=
  let z := r.runs.foldl (fun (acc : List Bytes × Marks × Dev) x =>
    let y := acc.2.2.read p e x.1 x.2
    (acc.1 ++ [y.1.bytes], acc.2.1.join y.1.marks, y.2)) ([], {}, d)
  ({ re := z.1.getD 0 [], im := z.1.getD 1 [], exp := z.1.getD 2 [] }, z.2.1, z.2.2)

/-- The source runs that a tile is built from: the columns of its N tile, in the blocks of its K tile (R255, R256, R261). -/
def PackRec.tileRuns (r : PackRec) (z : Nat × Nat × Nat) : List (Nat × Nat) :=
  let n := min 8 (r.kb - 8 * z.2.1)
  let bases := match r.sfmt, z.2.2 with
    | 3, 1 => [r.srcIm]
    | 4, 0 => [r.src]
    | 4, _ => [r.src, r.srcIm]
    | _, _ => [r.src]
  (List.range (min 256 (r.n - 256 * z.1))).flatMap (fun i =>
    let j := 256 * z.1 + i
    if r.sfmt = 2 then [(r.src + (j * r.k + 256 * z.2.1) * 2, 2 * min 256 (r.k - 256 * z.2.1))]
    else bases.map (fun b => (b + (j * r.kb + 8 * z.2.1) * 4 * r.width, n * 4 * r.width)) ++ [(r.srcExp + j * r.kb + 8 * z.2.1, n)])

/-- The core that tile `t` of the order is dealt to (R124, R261). -/
def dealt (cores : List Nat) (t : Nat) : Nat := cores.getD (t % cores.length) 0

/-- The cross-package charges of runs that cores read or write (R261, R442), and whether a cup is never served (R449). -/
def Dev.packCross (d : Dev) (p : Nat) (l : List (Nat × Nat × Nat)) : Bool × Dev :=
  l.foldl (fun (acc : Bool × Dev) w => (sectorsOf w.2.1 w.2.2).foldl (fun (acc : Bool × Dev) s =>
    let z := acc.2.crossCharge p (w.1 / 8) s.1
    (acc.1 || z.1, z.2)) acc) (false, d)

/-- What the cores read of the source in one pass. -/
def PackRec.dealtRuns (r : PackRec) (cores : List Nat) : List (Nat × Nat × Nat) :=
  r.order.zipIdx.flatMap (fun t => (r.tileRuns t.1).map (fun w => (dealt cores t.2, w.1, w.2)))

/-- Writes of a command in a row; runs that work meanwhile note them (R262). -/
def Dev.writeList (d : Dev) (p : Nat) (e : Env) (l : List (Nat × Bytes)) : Marks × Dev :=
  l.foldl (fun acc z =>
    if z.2.isEmpty then acc
    else let r := acc.2.writeRaced p e z.1 z.2; (acc.1.join r.1, r.2)) ({}, d)

/-- The bytes that a region needs at DST (R257). -/
def PackRec.need (r : PackRec) : Nat := dataOffset r.stored r.tiles + r.tiles * tileBytes r.stored

/-- What the second pass writes for tile `t` of the order (R251, R252, R259): the writes and the bytes it counts in
STORED_BYTES. -/
def packTile (r : PackRec) (s : PackSrc) (lens : List (List Nat)) (t : Nat) (z : Nat × Nat × Nat) : List (Nat × Bytes) × Nat :=
  let n := r.stored
  let a := r.dst + dataOffset n r.tiles + t * tileBytes n
  let g := r.genOf z
  let bl := (comprBlocks (s.tileElems r z.1 z.2.1 z.2.2)).map (packBlock r g (lens.getD g []))
  ((bl.zipIdx.map (fun b => (a + 4096 * b.2, b.1.1)))
    ++ [(a + 8192 * n, s.tileExps r z.1 z.2.1 ++ s.tileSums r z.1 z.2.1 z.2.2)]
    ++ (bl.zipIdx.map (fun b => (r.dst + 0x900 + 2 * (t * 2 * n + b.2), leBytes 2 b.1.2))),
   (bl.map (fun b => b.1.length)).foldl (· + ·) 0 + 3072)

/-- What the second pass writes of the tiles, each with the core that writes it. -/
def PackRec.built (x : PackRec) (s : PackSrc) (tables : List (List Nat)) : List (List (Nat × Bytes) × Nat) :=
  x.order.zipIdx.map (fun t => packTile x s tables t.2 t.1)

/-- The tables that a region counts: an absent one where a later one is present (R258). -/
def tableCount (tables : List (List Nat)) : Nat :=
  match ((tables.zipIdx.filter (fun t => t.1.any (· != 0))).map (·.2)).getLast? with
  | some g => g + 1
  | none => 0

/-- The second pass (R259): MAGIC is cleared before the first write and written last. -/
def Dev.packWrite (d : Dev) (r : CmdRef) (e : Env) (x : PackRec) (tables : List (List Nat)) (dies : List Nat) : Dev :=
  let p := r.f
  let w0 := d.writeRaced p e x.dst (leBytes 4 0)
  let z := w0.2.packRead p e x
  let parts := x.built z.1 tables
  let stored : Nat := (parts.map (·.2)).foldl (· + ·) 0
  let dir := tables.zipIdx.map (fun t => (x.dst + 0x100 + 128 * t.2, tableRecord t.1))
  let hdr := packHeader x packMagic (tableCount tables) (z.1.raised x) stored
  let w1 := z.2.2.writeList p e (parts.flatMap (·.1) ++ dir ++ [(x.dst + 4, hdr.drop 4)])
  let m := (w0.1.join z.2.1).join w1.1
  if m.clear then
    let w2 := w1.2.writeRaced p e x.dst (hdr.take 4)
    (w2.2.mark r w2.1).finish r stSuccess stored 0 0 dies
  else (w1.2.mark r m).finish r stSuccess 0 0 0 dies

/-- The time limit of a PACK runs out (R110): the region is undefined, and holds no valid MAGIC (R259; log 48). -/
def Dev.packLate (d : Dev) (r : CmdRef) (x : PackRec) (dies : List Nat) : Dev :=
  let f := d.freeBytes (min x.need x.dstBytes - 4)
  (((f.2.writeList r.f Env.clean [(x.dst, leBytes 4 0), (x.dst + 4, f.1)]).2).mark r (.fail stTimeLimit)).finish r stSuccess
    0 0 0 dies

/-- PACK at work on its cores (R257 to R261): the first pass, what it refuses, and the second. -/
def Dev.packRun (d : Dev) (r : CmdRef) (e : Env) (x : PackRec) (cores : List Nat) : Dev :=
  let dies := (cores.map (· / 8)).eraseDups
  let c1 := d.packCross r.f (x.dealtRuns cores)
  if c1.1 || e.expired then c1.2.packLate r x dies
  else
    let s := c1.2.packRead r.f e x
    if !s.2.1.clear then (s.2.2.mark r s.2.1).finish r stSuccess 0 0 0 dies
    else if !s.1.ok x then s.2.2.finish r stWeightFormat
    else if x.dstBytes < x.need then s.2.2.finish r stPackSpace
    else
      let tables := packTables x (x.order.map (fun t => (t, s.1.tileElems x t.1 t.2.1 t.2.2)))
      let c2 := s.2.2.packCross r.f (x.dealtRuns cores ++ (x.built s.1 tables).zipIdx.flatMap (fun t =>
        t.1.1.map (fun w => (dealt cores t.2, w.1, w.2.length))))
      if c2.1 then c2.2.packLate r x dies else c2.2.packWrite r e x tables dies

/-- PACK on the device. -/
def Dev.pack (d : Dev) (r : CmdRef) (e : Env) : Dev :=
  d.withCmd r 0x22 (fun c =>
    let cores := c.coreSet
    let rec_ := c.f 0x08 8
    if !hdrOk c.desc 0 [(8, 24)] ∨ cores.isEmpty then d.finish r stInvalidField
    else
      match d.part r.f with
      | none => d
      | some p =>
        if cores.any (fun g => !p.cores.contains g) then d.finish r stNotOwned
        else if !d.ownedRange r.f rec_ 64 then d.finish r stAddrRange
        else
          let z := d.read r.f e rec_ 64
          let x := parsePackRec z.1.bytes
          if !z.1.marks.clear then (z.2.mark r z.1.marks).finish r stSuccess
          else if !packRecOk z.1.bytes then d.finish r stInvalidField
          else if x.sfmt < 5 ∧ (!x.runs.all (fun s => d.ownedRange r.f s.1 s.2) ∨ !d.writable r.f x.dst x.dstBytes) then
            d.finish r stAddrRange
          else if !x.formatOk then d.finish r stWeightFormat
          else if cores.any d.coreFenced then (d.mark r (.cause caFenced)).finish r stSuccess
          else if d.earlierOnCores r cores || !d.coresFree cores then d
          else
            cores.foldl (fun d g => d.leaveCore g) (z.2.packRun r e x cores))

/-- PACK (R257). -/
def execPack (r : CmdRef) (e : Env) (s : State) : Host.Outcome State Fault Refusal := .next (s.onDev (fun d => d.pack r e))

end Sys2Proof.Machine
end

