-- ==== Sys2Proof/Machine/Signals.lean ====
section
/-!
DEFINITION. Semaphores (R352, R353, R368, R423), tier hints (R300, R304, R305, R369, R370), and the queries (R371 to R373,
R407).
-/

namespace Sys2Proof.Machine

/-! SIGNAL (R353). -/

/-- A SIGNAL that may go on: fetched, not started, nothing before it left to wait for but earlier commands. A suspended
partition still lets one store whose earlier commands have all completed (R332). -/
def Dev.signalStarts (d : Dev) (r : CmdRef) : Option Cmd :=
  match d.qp r.f r.q, d.cmd r with
  | some x, some c =>
    let stop := match d.part r.f with
      | some p => p.reclaim != .none || (p.suspended && !x.earlierDone r.k)
      | none => false
    if c.op = 0x2A ∧ c.phase = .waiting ∧ x.depsMet r.k ∧ !stop then some c else none
  | _, _ => none

/-- A judged command ended with something else than SUCCESS or EMPTY_OUTPUT. -/
def Qp.judgedBad (x : Qp) (k : Nat) : Bool := x.done.any (fun z => decide (x.sigFrom ≤ z.1) && decide (z.1 < k) && !stOk z.2)

/-- The store of a SIGNAL to its target kind. -/
def Dev.signalStore (d : Dev) (r : CmdRef) (c : Cmd) : Dev :=
  let a := c.f 0x08 8
  let v := leBytes 8 (c.f 0x10 8)
  match byteAt c.desc 0x18 with
  | 0 =>
    if r.f = 0 ∨ (d.part r.f).any (fun x => x.protected a 8) then d.finish r stAddrRange
    else
      let w := d.writeRaced r.f Env.clean a v
      ((w.2.mark r w.1).inputWake r.f).finish r stSuccess
  | 1 => (d.emitOut (.hostWrite a v)).finish r stSuccess
  | _ =>
    let d1 := d.modCmd r (fun c => { c with phase := .running })
    if 2 ^ 48 ≤ a then (d1.mark r (.cause caRange)).settleCmd r
    else
      let job := match d.part r.f with
        | some x => x.job
        | none => 0
      ((d1.cmdSend r { dst := byteAt c.desc 0x19, id := 0, op := 3, window := c.f 0x1A 2, woff := a, job := job
                       data := v }).2).settleCmd r

/-- SIGNAL on the device: its fields, then the wait for earlier commands, the judgement, and the store. -/
def Dev.signal (d : Dev) (r : CmdRef) : Dev :=
  match d.signalStarts r, d.qp r.f r.q with
  | some c, some x =>
    match d.rejectStatus r c with
    | some st => d.finish r st
    | none =>
      let kind := byteAt c.desc 0x18
      if !hdrOk c.desc 1 [(8, 0x14)] ∨ 2 < kind ∨ (kind < 2 ∧ !zeroAt c.desc 0x19 3) ∨ (kind = 0 ∧ c.f 0x08 8 % 8 ≠ 0) then
        d.finish r stInvalidField
      else if !x.earlierDone r.k then d
      else if bit c.opflags 0 ∧ x.judgedBad r.k then d.finish r stDepFailed
      else d.signalStore r c
  | _, _ => d

/-- SIGNAL (R353). -/
def execSignal (r : CmdRef) (s : State) : Host.Outcome State Fault Refusal := .next (s.onDev (fun d => d.signal r))

/-- FABRIC_SIGNAL (R423): the 8-byte value is stored, what waits for it looks again, and the message is acknowledged. -/
def execFabricSignal (src msg : Nat) (s : State) : Host.Outcome State Fault Refusal :=
  .next (s.onDev (fun d =>
    d.onWindow src msg 3 List.length (fun w f b _ =>
      (((d.landMarked w.part (w.base + tpWoff f) (padTo 8 b) []).inputWake w.part).commitMsg src msg).sayAck src msg)))

/-! WAIT (R352). -/

/-- WAIT on the device: it ends when its semaphore has reached V, or when a read of it fails. -/
def Dev.wait (d : Dev) (r : CmdRef) (e : Env) : Dev :=
  d.withCmd r 0x2B (fun c =>
    let a := c.f 0x08 8
    if !hdrOk c.desc 0 [(8, 16)] ∨ a % 8 ≠ 0 then d.finish r stInvalidField
    else if r.f = 0 then d.finish r stAddrRange
    else
      let z := d.read r.f e a 8
      if !z.1.marks.clear then (z.2.mark r z.1.marks).finish r stSuccess
      else if reached (leNat z.1.bytes) (c.f 0x10 8) then z.2.finish r stSuccess
      else d)

/-- WAIT (R352). -/
def execWait (r : CmdRef) (e : Env) (s : State) : Host.Outcome State Fault Refusal := .next (s.onDev (fun d => d.wait r e))

/-! TIER_HINT (R369, R370). -/

/-- The pages of a hint; none where one lies outside the tiered range. -/
def Tier.hintPages (t : Tier) (a n : Nat) : Option (List Nat) :=
  match t.pageOf a with
  | some pg => if pg + n ≤ t.pages then some ((List.range n).map (pg + ·)) else none
  | none => none

def PageSt.isCrock : PageSt → Bool
  | .crock _ => true
  | _ => false

def PageSt.isStack : PageSt → Bool
  | .stack _ => true
  | _ => false

/-- A discarded page is ZERO, and its frames are free (R300). -/
def Tier.discard (t : Tier) (pg : Nat) : Tier :=
  let fr := match t.st pg with
    | .stack f => ([f], [])
    | .crock c => ([], [c])
    | .moving f c _ _ => ([f], [c])
    | .zero => ([], [])
  { t with page := kdel t.page pg, frames := t.frames ++ fr.1, cframes := t.cframes ++ fr.2
           accessed := t.accessed.filter (· != pg), twice := t.twice.filter (· != pg)
           queue := t.queue.filter (· != pg), demote := t.demote.filter (· != pg), hints := t.hints.filter (· != pg) }

/-- Pages that a pin still has to bring into tier frames: ZERO pages take free frames now, CROCK pages are queued. -/
def Dev.pinPages (d : Dev) (p : Nat) (l : List Nat) : Dev :=
  l.foldl (fun d pg =>
    match d.part p with
    | none => d
    | some x =>
      match x.tier.st pg with
      | .zero => (d.openZero p pg).getD d
      | .crock _ =>
        if x.tier.hints.contains pg then d else d.modTier p (fun t => { t with hints := t.hints ++ [pg] })
      | _ => d) d

/-- Every page of a list is STACK. -/
def Dev.allStack (d : Dev) (p : Nat) (l : List Nat) : Bool :=
  match d.part p with
  | some x => l.all (fun pg => (x.tier.st pg).isStack)
  | none => false

/-- A pin goes on until every page is STACK. -/
def Dev.pinOn (d : Dev) (r : CmdRef) (l : List Nat) : Dev :=
  let d1 := d.pinPages r.f l
  if d1.allStack r.f l then d1.finish r stSuccess l.length else d1.modCmd r (fun c => { c with phase := .running })

/-- The entries of a schedule record (R305): LAYER, PAGES, ADDR. -/
def schedEntries (b : Bytes) (n : Nat) : List (Nat × Nat × Nat) :=
  (List.range n).map (fun i => (field b (16 * i) 2, field b (16 * i + 4) 4, field b (16 * i + 8) 8))

/-- LAYER words never fall. -/
def risingLayers : List (Nat × Nat × Nat) → Bool
  | a :: b :: l => decide (a.1 ≤ b.1) && risingLayers (b :: l)
  | _ => true

/-- Register a prefetch schedule (R305). -/
def Dev.regSchedule (d : Dev) (r : CmdRef) (c : Cmd) (x : Part) : Dev :=
  let a := c.f 0x20 8
  match kfind x.progs (c.f 0x1C 4) with
  | none => d.finish r stProgUnknown
  | some pg =>
    if !d.ownedRange r.f a 16 then d.finish r stAddrRange
    else
      let h := d.read r.f Env.clean a 16
      let b := h.1.bytes
      let n := field b 8 4
      if !h.1.marks.clear then (h.2.mark r h.1.marks).finish r stSuccess
      else if !zeroAt b 5 3 || !zeroAt b 0x0C 4 || field b 0 4 != 0x48435446 || decide (8 < byteAt b 4) || n == 0
          || decide (65536 < n) then h.2.finish r stInvalidField
      else if !d.ownedRange r.f (a + 16) (16 * n) then h.2.finish r stAddrRange
      else
        let z := h.2.read r.f Env.clean (a + 16) (16 * n)
        let l := schedEntries z.1.bytes n
        let rows (w : Nat) : List Nat := (List.range (parseImage pg.image).layers).filter (fun i =>
          (parseLayer pg.image i).layer == w)
        if !z.1.marks.clear then (z.2.mark r z.1.marks).finish r stSuccess
        else if (List.range n).any (fun i => !zeroAt z.1.bytes (16 * i + 2) 2)
            || l.any (fun y => y.2.1 == 0 || y.2.2 % pageBytes != 0) then z.2.finish r stInvalidField
        else if !risingLayers l || l.any (fun y => (rows y.1).isEmpty || (x.tier.hintPages y.2.2 y.2.1).isNone) then
          z.2.finish r stPrefetchFormat
        else
          let s : Sched := { depth := if byteAt b 4 = 0 then 2 else byteAt b 4
                             entries := l.flatMap (fun y => (rows y.1).map (fun i => (i, y.2.1, y.2.2))) }
          (z.2.modPart r.f (fun y => { y with progs := kset y.progs (c.f 0x1C 4) { pg with sched := some s } })).finish r
            stSuccess 0

/-- The actions of a hint on its pages. -/
def Dev.tierAct (d : Dev) (r : CmdRef) (x : Part) (act : Nat) (l : List Nat) : Dev :=
  let t := x.tier
  let put (y : Tier) : Dev := d.putPart r.f { x with tier := y }
  match act with
  | 0 =>
    let n := l.filter (fun pg => (t.st pg).isCrock && !t.hints.contains pg)
    (put { t with hints := t.hints ++ n }).finish r stSuccess n.length
  | 1 =>
    let n := l.filter (fun pg => (t.st pg).isStack && !t.demote.contains pg)
    (put { t with demote := t.demote ++ n }).finish r stSuccess n.length
  | 2 =>
    let all := l.foldl (fun a pg => insertSorted pg a) t.pinned
    if t.f - 8 < all.length then d.finish r stTierPinLimit else (put { t with pinned := all }).pinOn r l
  | 3 =>
    (put { t with pinned := t.pinned.filter (fun pg => !l.contains pg) }).finish r stSuccess
      (l.filter (t.pinned.contains ·)).length
  | _ => (put (l.foldl Tier.discard t)).finish r stSuccess (l.filter (fun pg => t.st pg != .zero)).length

/-- TIER_HINT on the device. -/
def Dev.tierHint (d : Dev) (r : CmdRef) : Dev :=
  match d.runningCmd r 0x2C, d.part r.f with
  | some c, some x => d.pinOn r ((x.tier.hintPages (c.f 0x10 8) (c.f 0x18 4)).getD [])
  | _, _ =>
    d.withCmd r 0x2C (fun c =>
      let act := byteAt c.desc 8
      let n := c.f 0x18 4
      if !hdrOk c.desc 0 [(8, 1), (0x10, 0x18)] ∨ 5 < act ∨ n = 0 ∨ c.f 0x10 8 % pageBytes ≠ 0
          ∨ (act ≠ 5 ∧ !zeroAt c.desc 0x1C 12) ∨ c.f 0x20 8 % 16 ≠ 0 then d.finish r stInvalidField
      else
        match d.part r.f with
        | none => d
        | some x =>
          if act = 5 then d.regSchedule r c x
          else
            match x.tier.hintPages (c.f 0x10 8) n with
            | none => d.finish r stAddrRange
            | some l => d.tierAct r x act l)

/-- TIER_HINT (R370). -/
def execTierHint (r : CmdRef) (s : State) : Host.Outcome State Fault Refusal := .next (s.onDev (fun d => d.tierHint r))

/-! QUERY (R371, R407). -/

/-- The bits of a list of cores. -/
def coreMask (l : List Nat) : Nat := ofBits l 128

/-- MEM_STACK_STATUS of a stack. -/
def Dev.stackStatus (d : Dev) (t : Nat) : Nat :=
  let x := d.stack t
  let st := if x.lost then 3 else if x.repairing then 1 else if x.repaired.isSome then 2 else 0
  let fenced := x.fenced || (d.skillet t).fenced || (d.skillet t).ctlFenced
  st + 4 * b2n fenced + 8 * b2n x.hot + 256 * (if x.repairing then 0xFF else x.repaired.getD 0xFF)

/-- Item 0. -/
def Dev.qIdentity (d : Dev) : List Nat :=
  let gone := (List.range 128).filter (fun g => (d.core g).retired)
  let version (x : Slot) : Nat := if x.valid then Config.firmwareVersion x.data % 2 ^ 64 else 0
  [0x00B0, d.trust.ftLevel, version d.flash.slotA, version d.flash.slotB, d.inService.length, coreMask gone % 2 ^ 64,
   coreMask gone / 2 ^ 64, ((List.range 16).filter (fun t => !(d.stack t).lost)).length, d.flash.seq]

/-- Item 1: the bytes, since the last field of pair numbers may hold places that no pair takes; those are free values. -/
def Dev.qPartition (d : Dev) (p : Nat) (x : Part) : Bytes × Dev :=
  let m := coreMask x.cores
  let nums := (d.pairsOf p).flatMap (fun e => leBytes 2 e.2.num)
  let f := d.freeBytes ((8 - nums.length % 8) % 8)
  let t := if x.tier.pages = 0 then (0, 0) else (x.tier.base, x.tier.pages * pageBytes)
  let regs := x.regions.filterMap (fun n => kfind d.regions n)
  ((leBytes 8 (m % 2 ^ 64) ++ leBytes 8 (m / 2 ^ 64)) ++ (nums ++ f.1)
    ++ ([x.recBase, x.recCount, x.recAddr, t.1, t.2] ++ regs.flatMap (fun g => [g.base, g.size])).flatMap (leBytes 8), f.2)

/-- Item 4: the snapshot, and the clear (R407). -/
def Dev.qCounters (d : Dev) (u : Nat) (clear : Bool) : List Nat × Dev :=
  let n := kindCounters (unitKind u)
  (ofBits ((List.range n).filter (fun i => d.ovf.contains (32 * u + i))) 32 :: d.aoOf (u / 0x10000)
     :: (List.range n).map (d.counter u), if clear then d.zeroUnit u else d)

/-- A virtual function may query a unit of its own partition (R407). -/
def Dev.unitMine (d : Dev) (f u : Nat) : Bool :=
  match unitKind u with
  | 0 => d.coreOwner (u / 0x10000 * 8 + u % 0x10000) == some f
  | 2 => (d.dma ((u / 0x10000 - 16) * 32 + (u % 0x10000 - 0x200))).owner == f
  | 3 => u % 0x10000 == 0x600 + f
  | _ => false

/-- Where a query looks a handle up: the function's partition, or, for the physical function, the one whose record range
holds it. -/
def Dev.queryPart (d : Dev) (f h : Nat) : Option Part :=
  if f = 0 then (d.ctxPart (h % 2 ^ 20)).map (·.2) else d.part f

/-- The answer of a query: bytes and device, or a status. -/
def Dev.answer (d : Dev) (f item arg : Nat) : (Bytes × Dev) ⊕ Nat :=
  let fields (l : List Nat) : Bytes := l.flatMap (leBytes 8)
  match item with
  | 0 => if arg ≠ 0 then .inr stInvalidField else .inl (fields d.qIdentity, d)
  | 1 =>
    if arg ≠ 0 then .inr stInvalidField
    else match d.part f with
      | some x => .inl (d.qPartition f x)
      | none => .inr stNoPartition
  | 2 =>
    match (d.part f).bind (fun x => kfind x.progs arg) with
    | some g => let i := parseImage g.image
                .inl (fields [i.ftLevel, i.layers, i.size], d)
    | none => .inr stProgUnknown
  | 3 =>
    match (d.queryPart f arg).bind (fun x => d.byHandle x arg) with
    | some i => .inl ((d.ctx i).bytes i, d)
    | none => .inr stCtxStale
  | 4 =>
    let u := arg % 2 ^ 24
    if 2 ^ 25 ≤ arg ∨ kindCounters (unitKind u) = 0 then .inr stInvalidField
    else if f ≠ 0 ∧ !d.unitMine f u then .inr stNotOwned
    else let z := d.qCounters u (bit arg 24)
         .inl (fields z.1, z.2)
  | 5 =>
    if 15 < arg then .inr stInvalidField
    else .inl (fields [d.stackStatus arg, (d.stack arg).poison.length,
                       if (d.stack arg).repairing then 0xFF else (d.stack arg).repaired.getD 0xFF], d)
  | _ => .inr stInvalidField

/-- QUERY on the device. -/
def Dev.query (d : Dev) (r : CmdRef) : Dev :=
  d.withCmd r 0x30 (fun c =>
    let len := c.f 0x18 4
    if !hdrOk c.desc 0 [(8, 2), (0x0C, 16)] ∨ 4096 < len then d.finish r stInvalidField
    else
      match d.answer r.f (c.f 0x08 2) (c.f 0x0C 4) with
      | .inr st => d.finish r st
      | .inl z =>
        let b := z.1.take len
        (if b.isEmpty then z.2 else z.2.emitOut (.hostWrite (c.f 0x10 8) b)).finish r stSuccess b.length)

/-- QUERY (R371). -/
def execQuery (r : CmdRef) (s : State) : Host.Outcome State Fault Refusal := .next (s.onDev (fun d => d.query r))

/-- QUERY_TIME on the device (R372): a sample request leaves IOD0 now, reaches each die `out` cycles later, and its reply
is back after `back` more. -/
def Dev.queryTime (d : Dev) (r : CmdRef) (ptm out back : Nat) : Dev :=
  d.withCmd r 0x31 (fun c =>
    let dies := c.f 0x08 8
    let n := byteAt c.desc 0x18
    if !hdrOk c.desc 0 [(8, 17)] ∨ 2 ^ 23 ≤ dies ∨ n = 0 ∨ 16 < n then d.finish r stInvalidField
    else
      let t := d.aoOf (dieIod 0)
      let ents := (setBits 23 dies).flatMap (fun x => (List.range n).map (fun k => (x, k)))
      let hdr := leBytes 8 (if d.mod.ptm then ptm else 0) ++ leBytes 8 t ++ leBytes 4 ents.length ++ repByte 12 0
      let row (z : Nat × Nat) : Bytes := leBytes 1 z.1 ++ leBytes 1 z.2 ++ repByte 6 0 ++ leBytes 8 t
        ++ leBytes 8 (d.aoOf z.1 + out) ++ leBytes 8 (t + out + back)
      (d.emitOut (.hostWrite (c.f 0x10 8) (hdr ++ ents.flatMap row))).finish r stSuccess ents.length)

/-- QUERY_TIME (R372). -/
def execQueryTime (r : CmdRef) (ptm out back : Nat) (s : State) : Host.Outcome State Fault Refusal :=
  .next (s.onDev (fun d => d.queryTime r ptm out back))

end Sys2Proof.Machine
end

