-- ==== Sys2Proof/Machine/Registers.lean ====
section
/-!
DEFINITION. The set-up registers (R13 to R16, R541 to R566): SCH_BUCKET_START, SCH_SKILLET_DRAIN, the write of any other
register, and what a read of each register returns.
-/

namespace Sys2Proof.Machine

/-! Bucket starts (R196, R550, R551). -/

/-- The eight starts of four words, start 2j in the low half of word j. -/
def bucketsOf (words : List Nat) : List Nat := words.flatMap (fun w => [w % 65536, w / 65536 % 65536])

/-- The starts in force: those before the first 0 after index 0. -/
def bucketsLive (l : List Nat) : List Nat := l.head?.toList ++ (l.drop 1).takeWhile (· != 0)

/-- R196: start 0 is 1, and the starts rise strictly up to the first 0. -/
def bucketsOk (l : List Nat) : Bool :=
  let live := bucketsLive l
  live.head? == some 1 && (live.zip (live.drop 1)).all (fun e => decide (e.1 < e.2))

/-- The write of word 3 commits all four words, or sets BUCKET_REJ. -/
def SchRegs.commit (x : SchRegs) (v : Nat) : SchRegs :=
  let l := bucketsOf (x.staged ++ [v])
  if bucketsOk l then { x with buckets := l } else { x with bucketRej := true }

/-- A change of a function's scheduler settings. -/
def Dev.modSch (d : Dev) (f : Nat) (g : SchRegs → SchRegs) : Dev := d.modFn f (fun v => { v with sch := g v.sch })

/-- SCH_BUCKET_START (R551). -/
def execSchBucketStart (f v : Nat) (s : State) : Host.Outcome State Fault Refusal :=
  .next (s.onFn f (fun d => d.modSch f (fun x => x.commit v)))

/-- A write of the drain mask (R515). -/
def Dev.writeDrain (d : Dev) (mask : Nat) : Dev := d.setRegs { d.regs with drain := mask % 65536 }

/-- SCH_SKILLET_DRAIN (R515). -/
def execSchSkilletDrain (mask : Nat) (s : State) : Host.Outcome State Fault Refusal :=
  .next (s.onReg (fun d => d.writeDrain mask))

/-- No transfer remains on the whisk of skillet `k`: the drain is complete. -/
def Dev.drained (d : Dev) (k : Nat) : Bool :=
  d.draining k && d.qps.all (fun e => e.2.cmds.all (fun c => !(c.phase == .running && c.halo.isSome && c.dies.any (·.1 == k))))

/-! Fields of the function view (R548 to R554). -/

/-- A ring size field takes 6 to 16 (R543). -/
def log2Ok (v : Nat) : Bool := decide (6 ≤ v) && decide (v ≤ 16)

/-- CTL_ADMIN_QSIZE (R549): not while EN is 1. -/
def FnView.setQsize (x : FnView) (v : Nat) : FnView :=
  if x.en then x
  else
    let s := bits v 4 0
    let c := bits v 12 8
    { x with sqLog2 := if log2Ok s then s else x.sqLog2, cqLog2 := if log2Ok c then c else x.cqLog2 }

/-- The [63:12] field of a base register. -/
def page4k (v : Nat) : Nat := v % 2 ^ 64 / 4096 * 4096

/-- SCH_CMD_TIME_LIMIT, SCH_BATCH_WINDOW and the W1C bits of SCH_CFG_STATUS (R550). -/
def SchRegs.setLimit (x : SchRegs) (v : Nat) : SchRegs :=
  let ms := bits v 5 0
  if 1 ≤ ms ∧ ms ≤ 50 then { x with limitMs := ms } else { x with limitRej := true }

def SchRegs.setWindow (x : SchRegs) (v : Nat) : SchRegs :=
  let us := bits v 9 0
  if us ≤ 1000 then { x with windowUs := us } else { x with windowRej := true }

def SchRegs.clear (x : SchRegs) (v : Nat) : SchRegs :=
  { x with limitRej := x.limitRej && !bit v 0, windowRej := x.windowRej && !bit v 1, bucketRej := x.bucketRej && !bit v 2 }

/-- SCH_BUCKET_START (R551): words 0 to 2 are staged. -/
def SchRegs.setBucket (x : SchRegs) (j v : Nat) : SchRegs :=
  if j < 3 then { x with staged := x.staged.set j v } else x.commit v

/-- The W1C bits of EVT_RING_STATUS. -/
def EvtRing.clear (r : EvtRing) (v : Nat) : EvtRing :=
  { r with headRej := r.headRej && !bit v 17, cfgRej := r.cfgRej && !bit v 18 }

/-- EVT_CNT_THRESHOLD (R408, R553): only indices of statistics counters. -/
def FnView.setThr (x : FnView) (k i v : Nat) : FnView :=
  if isStat k i then { x with thr := if v = 0 then kdel x.thr (16 * k + i) else kset x.thr (16 * k + i) v } else x

/-- A 32-bit register of the function view below the channel windows. -/
def Dev.writeView (d : Dev) (f off v : Nat) (word32 : Bool) : Dev :=
  if off = 0x0 then d.setEn f (bit v 0)
  else if off = 0x8 then d.modFn f (fun x => x.setQsize v)
  else if off = 0x100 then d.modSch f (fun x => x.setLimit v)
  else if off = 0x104 then d.modSch f (fun x => x.setWindow v)
  else if off = 0x108 then d.modSch f (fun x => x.clear v)
  else if 0x110 ≤ off ∧ off < 0x120 then d.modSch f (fun x => x.setBucket ((off - 0x110) / 4) v)
  else if off = 0x208 then d.modEvt f (fun r => r.setSize (bits v 4 0) (bit v 31))
  else if off = 0x20C then (if word32 then d.modEvt f (fun r => r.setHead (bits v 15 0)) else d)
  else if off = 0x210 then d.modEvt f (fun r => r.clear v)
  else if off = 0x218 then d.withInt f (fun c => { c with thrNew := bits v 2 0 })
  else if 0x800 ≤ off ∧ off < 0x880 then d.intEnable f ((off - 0x800) / 4) v
  else if 0x1000 ≤ off ∧ off < 0x2000 then d.withInt f (fun c => c.setSense ((off - 0x1000) / 4) (bits v 1 0))
  else if 0x2000 ≤ off ∧ off < 0x3000 then d.withInt f (fun c => c.setPrio ((off - 0x2000) / 4) (bits v 2 0))
  else if 0x3000 ≤ off ∧ off < 0x4000 then d.withInt f (fun c => c.setVector ((off - 0x3000) / 4) (bits v 10 0))
  else if 0x4000 ≤ off ∧ off < 0x8000 ∧ off % 8 = 4 then
    d.withInt f (fun c => c.complete ((off - 0x4000) / 8) (bits v 9 0))
  else d

/-! The channel windows (R555, R556). -/

/-- DMA_CH_CFG: a source other than 0 and 129 to 256 is ignored. -/
def Dev.dmaCfg (d : Dev) (f c v : Nat) : Dev :=
  let n := bits v 9 0
  if d.dmaSees f c && (n == 0 || (decide (129 ≤ n) && decide (n ≤ 256))) then d.putDma c { d.dma c with source := n } else d

/-- DMA_CH_CTL: RESET first, then STOP. -/
def Dev.dmaCtl (d : Dev) (f c v : Nat) : Dev :=
  let d1 := if bit v 1 then d.dmaReset f c else d
  if (d1.dma c).stop == bit v 0 then d1 else d1.dmaStop f c (bit v 0)

/-- A 32-bit register of a channel window. -/
def Dev.writeWindow (d : Dev) (f off v : Nat) (word32 : Bool) : Dev :=
  let c := (off - 0x8000) / 64
  match off % 64 with
  | 0x08 => d.dmaSize f c (bits v 4 0)
  | 0x0C => d.dmaTail f c (bits v 15 0) word32
  | 0x14 => d.dmaCtl f c v
  | 0x18 => d.dmaCfg f c v
  | _ => d

/-! The device blocks (R557 to R566). -/

/-- PWR_CUP_SEL: each field in its own range (R543, R559). -/
def Pwr.setSel (x : Pwr) (v : Nat) : Pwr :=
  let p := bits v 4 0
  let o := bits v 14 8
  { x with selPart := if 1 ≤ p ∧ p ≤ 16 then p else x.selPart, selOff := if cupOffOk o then o else x.selOff }

/-- A power register. PWR_CAP, PWR_MODE and PWR_CUP_DATA act as their own rows do. -/
def Dev.writePwr (d : Dev) (off v : Nat) : Dev :=
  match off with
  | 0x00 => d.writeCap (bits v 10 0)
  | 0x08 => d.writeMode (bits v 1 0)
  | 0x0C => let us := bits v 6 0
            if 2 ≤ us ∧ us ≤ 64 then d.setPwr { d.pwr with cupPeriod := us } else d
  | 0x10 => d.setPwr (d.pwr.setSel v)
  | 0x14 => d.cupData (bits v 15 0)
  | 0x1C => let us := bits v 9 0
            if 1 ≤ us ∧ us ≤ 1000 then d.setPwr { d.pwr with idleCool := us } else d
  | 0x20 => let us := bits v 13 0
            if 10 ≤ us ∧ us ≤ 10000 then d.setPwr { d.pwr with idleCold := us } else d
  | 0x28 => d.setPwr { d.pwr with energyEst := d.pwr.energyEst && !bit v 3 }
  | _ => d

/-- A memory register. START and REQUEST act as their own rows do. -/
def Dev.writeMemReg (d : Dev) (off v : Nat) : Dev :=
  match off with
  | 0x80 => if bit v 12 then d.repairRequest (bits v 3 0) (bits v 8 4)
            else d.setRegs { d.regs with repairStack := bits v 3 0, repairCh := bits v 8 4 }
  | 0x84 => if bit v 12 then d.retrainRequest (bits v 3 0) (bits v 9 4)
            else d.setRegs { d.regs with retrainStack := bits v 3 0, retrainPch := bits v 9 4 }
  | 0x88 => let ms := bits v 6 0
            if 1 ≤ ms ∧ ms ≤ 100 then d.setCrock { d.crock with periodMs := ms } else d
  | 0x8C => let us := bits v 7 0
            if 1 ≤ us then d.setCrock { d.crock with timeoutUs := us } else d
  | 0xA0 => d.crockRetrain (bits v 3 0)
  | _ => d

/-- The fields of FAB_INJ_CTL, FAB_INJ_RATE, FAB_INJ_SEED and FAB_INJ_COUNT, each in its own range (R439, R543, R565). -/
def Inj.write (x : Inj) (reg v : Nat) : Inj :=
  match reg with
  | 0 =>
    let m := bits v 2 0
    let p := bits v 5 4
    { x with mode := if m ≤ 4 then m else x.mode
             pattern := if p ≤ 2 then p else x.pattern
             matchKind := bits v 6 6, matchVal := bits v 11 8, flips := bits v 14 12 }
  | 1 =>
    let k := bits v 4 0
    let n := bits v 23 8
    { x with k := if k ≤ 24 then k else x.k, n := if n = 0 then x.n else n }
  | 2 => let seed := if bits v 30 0 = 0 then 1 else bits v 30 0
         { x with seed := seed, lfsr := seed }
  | _ => { x with limit := bits v 15 0, injected := 0 }

/-- The pod ring takes a base or a size as R556 states for a channel: in its error state, or empty with no request in
progress. -/
def Pod.accepts (x : Pod) : Bool := x.acting && (x.err || (x.req.isNone && x.head == x.tail))

/-- FAB_POD_RING_SIZE. -/
def Dev.podSize (d : Dev) (v : Nat) : Dev :=
  let x := d.fab.pod
  if x.accepts && log2Ok v then d.setPod { x with log2 := v, head := 0, tail := 0 } else d

/-- A fabric register. -/
def Dev.writeFabReg (d : Dev) (off v : Nat) (word32 : Bool) : Dev :=
  if off = 0x0C then
    let us := bits v 9 0
    if 40 ≤ us ∧ us ≤ 1000 then d.setFab { d.fab with e2eUs := us } else d
  else if 0x40 ≤ off ∧ off < 0x60 then (if bit v 0 then d.portRetrain ((off - 0x40) / 4) else d)
  else if off = 0x88 then d.podSize (bits v 4 0)
  else if off = 0x8C then (if word32 then d.podTail (bits v 15 0) else d)
  else if off = 0x94 then (if bit v 0 then d.podReset else d)
  else if 0x100 ≤ off ∧ off < 0x180 then d.modInj ((off - 0x100) / 16) (fun x => x.write (off % 16 / 4) v)
  else d

/-- A 32-bit register of the device blocks, by offset in BAR0. CTL_DEV_RESET acts through its own row alone. -/
def Dev.writeBlock (d : Dev) (off v : Nat) (word32 : Bool) : Dev :=
  if 0x11000 ≤ off ∧ off < 0x12000 then d.writePwr (off - 0x11000) v
  else if 0x12000 ≤ off ∧ off < 0x13000 then d.writeMemReg (off - 0x12000) v
  else if 0x15000 ≤ off ∧ off < 0x16000 then d.writeFabReg (off - 0x15000) v word32
  else if 0x16000 ≤ off ∧ off < 0x16200 then d.dmaOwner ((off - 0x16000) / 4) (bits v 4 0)
  else if off = 0x18000 then d.writeDrain (bits v 15 0)
  else if 0x20000 ≤ off ∧ off < 0x28000 ∧ off % 32 = 0x10 then d.winCfg ((off - 0x20000) / 32) v
  else d

/-- A write of one 32-bit register; `word32`: the access itself is 32 bits wide (R342). -/
def Dev.write32 (d : Dev) (f off v : Nat) (word32 : Bool) : Dev :=
  if off < 0x8000 then d.writeView f off v word32
  else if off < 0x10000 then d.writeWindow f off v word32
  else if f = 0 then d.writeBlock off v word32
  else d

/-! The 64-bit registers that software writes (R542). -/

/-- The value of the writable 64-bit register at an offset, where it responds. -/
def Dev.reg64 (d : Dev) (f off : Nat) : Option Nat :=
  let x := d.fn f
  if off = 0x10 then some x.sqBase
  else if off = 0x18 then some x.cqBase
  else if off = 0x200 then some x.evt.base
  else if 0x400 ≤ off ∧ off < 0x680 ∧ off % 8 = 0 then
    if isStat ((off - 0x400) / 128) ((off - 0x400) / 8 % 16) then some (kget x.thr ((off - 0x400) / 8) 0) else none
  else if 0x8000 ≤ off ∧ off < 0xA000 ∧ off % 64 = 0 then
    if d.dmaSees f ((off - 0x8000) / 64) then some (d.dma ((off - 0x8000) / 64)).base else none
  else if f ≠ 0 then none
  else if off = 0x15080 then (if d.fab.pod.acting then some d.fab.pod.base else none)
  else if 0x20000 ≤ off ∧ off < 0x28000 ∧ off % 32 = 0 then some (kget d.fab.wins ((off - 0x20000) / 32) {}).base
  else if 0x20000 ≤ off ∧ off < 0x28000 ∧ off % 32 = 8 then some (kget d.fab.wins ((off - 0x20000) / 32) {}).size
  else none

/-- A change of a window's base or size, while it is closed (R564). -/
def Dev.modWin (d : Dev) (h : Nat) (g : Window → Window) : Dev :=
  let w := kget d.fab.wins h {}
  if w.part = 0 then d.setFab { d.fab with wins := kset d.fab.wins h (g w) } else d

/-- The write of a whole 64-bit register. -/
def Dev.put64 (d : Dev) (f off v : Nat) : Dev :=
  let b := page4k v
  if off = 0x10 then d.modFn f (fun x => if x.en then x else { x with sqBase := b })
  else if off = 0x18 then d.modFn f (fun x => if x.en then x else { x with cqBase := b })
  else if off = 0x200 then d.modEvt f (fun r => if r.en then r else { r with base := b })
  else if off < 0x680 then d.modFn f (fun x => x.setThr ((off - 0x400) / 128) ((off - 0x400) / 8 % 16) v)
  else if off < 0xA000 then
    let c := (off - 0x8000) / 64
    if (d.dma c).accepts then d.putDma c { d.dma c with base := b } else d
  else if off = 0x15080 then (if d.fab.pod.accepts then d.setPod { d.fab.pod with base := b } else d)
  else if off % 32 = 0 then d.modWin ((off - 0x20000) / 32) (fun w => { w with base := b })
  else if b = 0 then d
  else d.modWin ((off - 0x20000) / 32) (fun w => { w with size := b })

/-- A 32-bit write (R542): the low half of a 64-bit register is held until its high half arrives. -/
def Dev.writeWord (d : Dev) (f off v : Nat) (word32 : Bool) : Dev :=
  if (d.reg64 f off).isSome then d.modFn f (fun x => { x with lowHeld := kset x.lowHeld off v })
  else
    match if off % 8 = 4 then d.reg64 f (off - 4) else none with
    | some cur =>
      let low := kget (d.fn f).lowHeld (off - 4) (cur % 2 ^ 32)
      (d.modFn f (fun x => { x with lowHeld := kdel x.lowHeld (off - 4) })).put64 f (off - 4) (2 ^ 32 * v + low)
    | none => d.write32 f off v word32

/-- A write of BAR0 (R542, R544). A 64-bit write of two 32-bit registers writes the lower one first. -/
def Dev.busWrite (d : Dev) (f off width v : Nat) : Dev :=
  if width = 4 ∧ off % 4 = 0 then d.writeWord f off (v % 2 ^ 32) true
  else if width = 8 ∧ off % 8 = 0 then
    if (d.reg64 f off).isSome then
      (d.modFn f (fun x => { x with lowHeld := kdel x.lowHeld off })).put64 f off (v % 2 ^ 64)
    else (d.write32 f off (v % 2 ^ 32) false).write32 f (off + 4) (v / 2 ^ 32 % 2 ^ 32) false
  else d

/-- REGISTER_WRITE (R543). -/
def execRegisterWrite (f off width v : Nat) (s : State) : Host.Outcome State Fault Refusal :=
  .next (s.onFn f (fun d => d.busWrite f off width v))

end Sys2Proof.Machine
end

