-- ==== Sys2Proof/Machine/Dispatch.lean ====
section
/-!
DEFINITION. The dispatch: one arm per command, each a direct call of that command's meaning.
-/

namespace Sys2Proof.Machine

def exec (i : Instr) (s : State) : Host.Outcome State Fault Refusal :=
  match i with
  | .qpCreate r => Sys2Proof.Machine.execQpCreate r s
  | .qpDelete r => Sys2Proof.Machine.execQpDelete r s
  | .qpFlush r => Sys2Proof.Machine.execQpFlush r s
  | .partCreate r spec => Sys2Proof.Machine.execPartCreate r spec s
  | .partSuspend r => Sys2Proof.Machine.execPartSuspend r s
  | .partResume r saved => Sys2Proof.Machine.execPartResume r saved s
  | .partReclaim r => Sys2Proof.Machine.execPartReclaim r s
  | .scrub p => Sys2Proof.Machine.execScrub p s
  | .reCarve p => Sys2Proof.Machine.execReCarve p s
  | .handOver p => Sys2Proof.Machine.execHandOver p s
  | .fwWrite r img flashOk => Sys2Proof.Machine.execFwWrite r img flashOk s
  | .fwActivate r => Sys2Proof.Machine.execFwActivate r s
  | .microcodeLoad r img failed => Sys2Proof.Machine.execMicrocodeLoad r img failed s
  | .attestReport r nonce => Sys2Proof.Machine.execAttestReport r nonce s
  | .certRead r => Sys2Proof.Machine.execCertRead r s
  | .programLoad r e => Sys2Proof.Machine.execProgramLoad r e s
  | .programUnload r => Sys2Proof.Machine.execProgramUnload r s
  | .pack r e => Sys2Proof.Machine.execPack r e s
  | .graphRun r => Sys2Proof.Machine.execGraphRun r s
  | .rolloutStep r => Sys2Proof.Machine.execRolloutStep r s
  | .ctxCreate r => Sys2Proof.Machine.execCtxCreate r s
  | .ctxRetire r => Sys2Proof.Machine.execCtxRetire r s
  | .copy r e => Sys2Proof.Machine.execCopy r e s
  | .fill r => Sys2Proof.Machine.execFill r s
  | .fence r => Sys2Proof.Machine.execFence r s
  | .signal r => Sys2Proof.Machine.execSignal r s
  | .wait r e => Sys2Proof.Machine.execWait r e s
  | .tierHint r => Sys2Proof.Machine.execTierHint r s
  | .query r => Sys2Proof.Machine.execQuery r s
  | .queryTime r ptm out back => Sys2Proof.Machine.execQueryTime r ptm out back s
  | .sqTail f q v word32 => Sys2Proof.Machine.execSqTail f q v word32 s
  | .cqHead f q v word32 => Sys2Proof.Machine.execCqHead f q v word32 s
  | .dmaChTail f c v word32 => Sys2Proof.Machine.execDmaChTail f c v word32 s
  | .dmaChCtlStop f c stop => Sys2Proof.Machine.execDmaChCtlStop f c stop s
  | .dmaChCtlReset f c => Sys2Proof.Machine.execDmaChCtlReset f c s
  | .dmaChRingSize f c log2 => Sys2Proof.Machine.execDmaChRingSize f c log2 s
  | .dmaChOwner c fn => Sys2Proof.Machine.execDmaChOwner c fn s
  | .evtRingHead f v word32 => Sys2Proof.Machine.execEvtRingHead f v word32 s
  | .evtRingSizeEn f log2 en => Sys2Proof.Machine.execEvtRingSizeEn f log2 en s
  | .evtIntClaim f v => Sys2Proof.Machine.execEvtIntClaim f v s
  | .evtIntComplete f v src => Sys2Proof.Machine.execEvtIntComplete f v src s
  | .evtIntEnable f w mask => Sys2Proof.Machine.execEvtIntEnable f w mask s
  | .evtIntSense f src mode => Sys2Proof.Machine.execEvtIntSense f src mode s
  | .evtIntVector f src v => Sys2Proof.Machine.execEvtIntVector f src v s
  | .evtIntPrio f src prio => Sys2Proof.Machine.execEvtIntPrio f src prio s
  | .evtIntThreshold f t => Sys2Proof.Machine.execEvtIntThreshold f t s
  | .ctlFuncCtlEn f en => Sys2Proof.Machine.execCtlFuncCtlEn f en s
  | .ctlDevReset key go b => Sys2Proof.Machine.execCtlDevReset key go b s
  | .schBucketStart f v => Sys2Proof.Machine.execSchBucketStart f v s
  | .pwrCap w => Sys2Proof.Machine.execPwrCap w s
  | .pwrMode m => Sys2Proof.Machine.execPwrMode m s
  | .pwrCupData v => Sys2Proof.Machine.execPwrCupData v s
  | .memRepairCtlStart stack channel => Sys2Proof.Machine.execMemRepairCtlStart stack channel s
  | .memRetrainCtlRequest stack pch => Sys2Proof.Machine.execMemRetrainCtlRequest stack pch s
  | .memCrockCtlRetrain mask => Sys2Proof.Machine.execMemCrockCtlRetrain mask s
  | .fabPortCtlRetrain p => Sys2Proof.Machine.execFabPortCtlRetrain p s
  | .fabPodTail v word32 => Sys2Proof.Machine.execFabPodTail v word32 s
  | .fabPodCtlReset => Sys2Proof.Machine.execFabPodCtlReset s
  | .fabWinCfg h v => Sys2Proof.Machine.execFabWinCfg h v s
  | .fabInjCount p v => Sys2Proof.Machine.execFabInjCount p v s
  | .schSkilletDrain mask => Sys2Proof.Machine.execSchSkilletDrain mask s
  | .registerWrite f off width v => Sys2Proof.Machine.execRegisterWrite f off width v s
  | .descriptorFetch f q d => Sys2Proof.Machine.execDescriptorFetch f q d s
  | .commandStart r => Sys2Proof.Machine.execCommandStart r s
  | .tilePass c flt e => Sys2Proof.Machine.execTilePass c flt e s
  | .junctionSet p => Sys2Proof.Machine.execJunctionSet p s
  | .commandEnd run => Sys2Proof.Machine.execCommandEnd run s
  | .commandTimeLimit run => Sys2Proof.Machine.execCommandTimeLimit run s
  | .completionRelease r => Sys2Proof.Machine.execCompletionRelease r s
  | .msixUnmask f v => Sys2Proof.Machine.execMsixUnmask f v s
  | .subscribe c => Sys2Proof.Machine.execSubscribe c s
  | .multicastTileArrive j part prog tile badLink => Sys2Proof.Machine.execMulticastTileArrive j part prog tile badLink s
  | .multicastEntryFree j part prog tile => Sys2Proof.Machine.execMulticastEntryFree j part prog tile s
  | .dmaDescriptor c d data => Sys2Proof.Machine.execDmaDescriptor c d data s
  | .dmaWriteback c e => Sys2Proof.Machine.execDmaWriteback c e s
  | .dmaStopped c bytes e => Sys2Proof.Machine.execDmaStopped c bytes e s
  | .postedWriteFailed w => Sys2Proof.Machine.execPostedWriteFailed w s
  | .contextJoin idx => Sys2Proof.Machine.execContextJoin idx s
  | .batchWindow p b => Sys2Proof.Machine.execBatchWindow p b s
  | .passStart p b => Sys2Proof.Machine.execPassStart p b s
  | .passComplete run => Sys2Proof.Machine.execPassComplete run s
  | .deferredCompletion f q => Sys2Proof.Machine.execDeferredCompletion f q s
  | .residencyDecision p parity => Sys2Proof.Machine.execResidencyDecision p parity s
  | .swap p parity => Sys2Proof.Machine.execSwap p parity s
  | .agingPeriod p => Sys2Proof.Machine.execAgingPeriod p s
  | .tierPromotion p page => Sys2Proof.Machine.execTierPromotion p page s
  | .tierDemotion p => Sys2Proof.Machine.execTierDemotion p s
  | .migrationChunk p page ok => Sys2Proof.Machine.execMigrationChunk p page ok s
  | .crockRequestLate u addr => Sys2Proof.Machine.execCrockRequestLate u addr s
  | .crockAccessFailed u addr => Sys2Proof.Machine.execCrockAccessFailed u addr s
  | .crockLinkDown n => Sys2Proof.Machine.execCrockLinkDown n s
  | .crockPortRetrained n ok width speed => Sys2Proof.Machine.execCrockPortRetrained n ok width speed s
  | .crockPresent found => Sys2Proof.Machine.execCrockPresent found s
  | .patrol stack sector got => Sys2Proof.Machine.execPatrol stack sector got s
  | .retrainStart stack pch => Sys2Proof.Machine.execRetrainStart stack pch s
  | .retrainEnd stack ok => Sys2Proof.Machine.execRetrainEnd stack ok s
  | .channelRetire stack channel => Sys2Proof.Machine.execChannelRetire stack channel s
  | .repairCopyDone copy => Sys2Proof.Machine.execRepairCopyDone copy s
  | .flitReceive port flit => Sys2Proof.Machine.execFlitReceive port flit s
  | .replayTimer port => Sys2Proof.Machine.execReplayTimer port s
  | .portTrainingDone port ok credits => Sys2Proof.Machine.execPortTrainingDone port ok credits s
  | .write src msg => Sys2Proof.Machine.execWrite src msg s
  | .readReq src msg => Sys2Proof.Machine.execReadReq src msg s
  | .readResp src msg => Sys2Proof.Machine.execReadResp src msg s
  | .fabricSignal src msg => Sys2Proof.Machine.execFabricSignal src msg s
  | .ack src msg => Sys2Proof.Machine.execAck src msg s
  | .refuse src msg => Sys2Proof.Machine.execRefuse src msg s
  | .e2eTimeout dst msg => Sys2Proof.Machine.execE2eTimeout dst msg s
  | .readTagTimeout tag => Sys2Proof.Machine.execReadTagTimeout tag s
  | .unreachableProbe dst => Sys2Proof.Machine.execUnreachableProbe dst s
  | .heartbeatSend => Sys2Proof.Machine.execHeartbeatSend s
  | .heartbeat src msg b => Sys2Proof.Machine.execHeartbeat src msg b s
  | .mgmt src msg m => Sys2Proof.Machine.execMgmt src msg m s
  | .heartbeatTimeout m => Sys2Proof.Machine.execHeartbeatTimeout m s
  | .managerHeartbeatTimeout => Sys2Proof.Machine.execManagerHeartbeatTimeout s
  | .standbyTakeover => Sys2Proof.Machine.execStandbyTakeover s
  | .podAdmit entry spec prefer => Sys2Proof.Machine.execPodAdmit entry spec prefer s
  | .reclaim entry => Sys2Proof.Machine.execReclaim entry s
  | .podReclaimTimeout job m => Sys2Proof.Machine.execPodReclaimTimeout job m s
  | .cupPeriodBoundary die => Sys2Proof.Machine.execCupPeriodBoundary die s
  | .powerLoop arrays periph pots mem io => Sys2Proof.Machine.execPowerLoop arrays periph pots mem io s
  | .calibration gains offset => Sys2Proof.Machine.execCalibration gains offset s
  | .disagreeTimeout est meas => Sys2Proof.Machine.execDisagreeTimeout est meas s
  | .agreeTimeout est meas => Sys2Proof.Machine.execAgreeTimeout est meas s
  | .inputSample v n => Sys2Proof.Machine.execInputSample v n s
  | .inputSenseTimeout est => Sys2Proof.Machine.execInputSenseTimeout est s
  | .trivetTelemetryTimeout k => Sys2Proof.Machine.execTrivetTelemetryTimeout k s
  | .inputOutOfRange v => Sys2Proof.Machine.execInputOutOfRange v s
  | .thermalSample temps => Sys2Proof.Machine.execThermalSample temps s
  | .coolantSample inlet outlet => Sys2Proof.Machine.execCoolantSample inlet outlet s
  | .coolantRise => Sys2Proof.Machine.execCoolantRise s
  | .coreIdleCool c => Sys2Proof.Machine.execCoreIdleCool c s
  | .coreIdleCold c => Sys2Proof.Machine.execCoreIdleCold c s
  | .coreWake c => Sys2Proof.Machine.execCoreWake c s
  | .clockMonitorFault die domain mhz => Sys2Proof.Machine.execClockMonitorFault die domain mhz s
  | .railMonitorFault die rail mv => Sys2Proof.Machine.execRailMonitorFault die rail mv s
  | .lockstepMismatch => Sys2Proof.Machine.execLockstepMismatch s
  | .junctionCompareMismatch j => Sys2Proof.Machine.execJunctionCompareMismatch j s
  | .unitReturn u => Sys2Proof.Machine.execUnitReturn u s
  | .selftestIdle test => Sys2Proof.Machine.execSelftestIdle test s
  | .selftestReserve test => Sys2Proof.Machine.execSelftestReserve test s
  | .selftestEnd c ok step => Sys2Proof.Machine.execSelftestEnd c ok step s
  | .selftestDeadline c => Sys2Proof.Machine.execSelftestDeadline c s
  | .mechanismTest m ok => Sys2Proof.Machine.execMechanismTest m ok s
  | .suspectEntryExpiry j suspect => Sys2Proof.Machine.execSuspectEntryExpiry j suspect s
  | .hsEnMate => Sys2Proof.Machine.execHsEnMate s
  | .hsEnBreak => Sys2Proof.Machine.execHsEnBreak s
  | .inputRise => Sys2Proof.Machine.execInputRise s
  | .inputFall v => Sys2Proof.Machine.execInputFall v s
  | .overvoltage v => Sys2Proof.Machine.execOvervoltage v s
  | .overvoltageRestart => Sys2Proof.Machine.execOvervoltageRestart s
  | .breakerOpen => Sys2Proof.Machine.execBreakerOpen s
  | .breakerClose => Sys2Proof.Machine.execBreakerClose s
  | .powerOnReset b => Sys2Proof.Machine.execPowerOnReset b s
  | .mrstLow => Sys2Proof.Machine.execMrstLow s
  | .mrstRise b => Sys2Proof.Machine.execMrstRise b s
  | .conventionalReset => Sys2Proof.Machine.execConventionalReset s
  | .functionLevelReset f => Sys2Proof.Machine.execFunctionLevelReset f s
  | .hostLinkRetrain speed width => Sys2Proof.Machine.execHostLinkRetrain speed width s
  | .trialCommit => Sys2Proof.Machine.execTrialCommit s
  | .i3cDynamicAddress a => Sys2Proof.Machine.execI3cDynamicAddress a s
  | .getStatus => Sys2Proof.Machine.execGetStatus s
  | .clearAlert mask => Sys2Proof.Machine.execClearAlert mask s
  | .setCap w => Sys2Proof.Machine.execSetCap w s
  | .getCap => Sys2Proof.Machine.execGetCap s
  | .imageWrite off data => Sys2Proof.Machine.execImageWrite off data s
  | .imageCommit target len flashOk b => Sys2Proof.Machine.execImageCommit target len flashOk b s
  | .recoveryWrite off data => Sys2Proof.Machine.execRecoveryWrite off data s
  | .recoveryRun len => Sys2Proof.Machine.execRecoveryRun len s
  | .getVersion t req => Sys2Proof.Machine.execGetVersion t req s
  | .getCapabilities t req => Sys2Proof.Machine.execGetCapabilities t req s
  | .negotiateAlgorithms t req => Sys2Proof.Machine.execNegotiateAlgorithms t req s
  | .getDigests t => Sys2Proof.Machine.execGetDigests t s
  | .getCertificate t slot off len => Sys2Proof.Machine.execGetCertificate t slot off len s
  | .challenge t nonce => Sys2Proof.Machine.execChallenge t nonce s
  | .getMeasurements t idx => Sys2Proof.Machine.execGetMeasurements t idx s
  | .vendorDefinedRequest t nonce => Sys2Proof.Machine.execVendorDefinedRequest t nonce s
  | .perstDeassertion speed width => Sys2Proof.Machine.execPerstDeassertion speed width s
  | .sriovReenable => Sys2Proof.Machine.execSriovReenable s
  | .packageRailOutOfWindow => Sys2Proof.Machine.execPackageRailOutOfWindow s

end Sys2Proof.Machine
end

