-- ==== Sys2Proof/Machine/Tick.lean ====
section
/-!
DEFINITION. An always-on cycle with no command: every die's count advances by 1 (R349, DESIGN CHOICE, log 3), and the clean
mark of every die whose rails and clock are in their windows follows its count (R467, log 24).
-/

namespace Sys2Proof.Machine

/-- The die codes of R349. -/
def dieCodes : List Nat := List.range 23

/-- Every die's always-on count advances by 1. -/
def tickAo (m : KMap Nat) : KMap Nat := dieCodes.map (fun d => (d, kget m d 0 + 1))

/-- The clean marks follow: the cycles before the count that a die leaves are clean; a mark that stands still stays. -/
def tickClean (x : Safety) (m : KMap Nat) : KMap Nat :=
  dieCodes.map (fun d => (d, if x.railBad.contains d then kget x.clean d 0 else kget m d 0))

/-- An always-on cycle of the device. -/
def Dev.tick (d : Dev) : Dev :=
  (d.setSaf { d.saf with clean := tickClean d.saf d.ao }).setAo (tickAo d.ao)

/-- What the state becomes on an empty queue. -/
def tick (s : State) : State := s.onDev Dev.tick

end Sys2Proof.Machine
end

