-- ==== Sys2Proof/Machine/Step.lean ====
section
/-!
DEFINITION. The step: the command at the front of the queue runs on the state with the queue's rest. On an empty queue
an always-on cycle passes (DESIGN CHOICE, log 3).
-/

namespace Sys2Proof.Machine

/-- One step of the device. -/
def step (s : State) : Host.Outcome State Fault Refusal :=
  match s.pending with
  | [] => .next (Sys2Proof.Machine.tick s)
  | c :: rest => Sys2Proof.Machine.exec c { s with pending := rest }

/-- `s` with the command that a word spells put at the front of its queue; `s` itself where the word spells none. -/
def State.withFetchWord (s : State) (nbits w : Nat) : State :=
  match Sys2Proof.decodeTableWord nbits w with
  | some c => { s with pending := c :: s.pending }
  | none => s

end Sys2Proof.Machine
end

