-- ==== Sys2Proof/Machine/RegRead.lean ====
section
/-!
DEFINITION. What a read of each register returns (R15, R541 to R566). No command of the table reads a register but
EVT_INT_CLAIM, so no step uses this file: it says how the state shows itself to host software (log 23).
-/

namespace Sys2Proof.Machine

/-- A field `v` at bit `lo`. -/
def at_ (v lo : Nat) : Nat := v * 2 ^ lo

/-- A flag at bit `lo`. -/
def flag (b : Bool) (lo : Nat) : Nat := b2n b * 2 ^ lo

/-- Word `w` of a per-source flag. -/
def IntCtl.word (c : IntCtl) (w : Nat) (g : IntSrc → Bool) : Nat :=
  ofBits ((List.range 32).filter (fun b => srcValid (32 * w + b) && g (c.src (32 * w + b)))) 32

/-- A field of a source; 0 for a source that has none (R553). -/
def IntCtl.srcField (c : IntCtl) (n : Nat) (g : IntSrc → Nat) : Nat := if srcValid n then g (c.src n) else 0

/-- The scheduler settings. -/
def SchRegs.word (x : SchRegs) (off : Nat) : Nat :=
  if off = 0x100 then x.limitMs
  else if off = 0x104 then x.windowUs
  else if off = 0x108 then flag x.limitRej 0 + flag x.windowRej 1 + flag x.bucketRej 2
  else
    let j := (off - 0x110) / 4
    x.buckets.getD (2 * j) 0 + at_ (x.buckets.getD (2 * j + 1) 0) 16

/-- The event ring. -/
def EvtRing.word (r : EvtRing) (off : Nat) : Nat :=
  match off with
  | 0x208 => r.log2 + flag r.en 31
  | 0x20C => r.head
  | 0x210 => r.tail + flag r.phase 16 + flag r.headRej 17 + flag r.cfgRej 18
  | _ => 0

/-- CTL_FUNC_STATUS (R548). -/
def Dev.funcStatus (d : Dev) (f : Nat) : Nat :=
  let x := d.fn f
  flag x.ready 0 + flag (d.trust.recovery && f == 0) 1 + flag x.adminErr 2 + flag x.cfgErr 3
    + flag (f != 0 && (d.part f).isNone) 4

/-- A 32-bit register of the function view below the channel windows. -/
def Dev.readView (d : Dev) (f off : Nat) : Nat :=
  let x := d.fn f
  if off = 0x0 then b2n x.en
  else if off = 0x4 then d.funcStatus f
  else if off = 0x8 then x.sqLog2 + at_ x.cqLog2 8
  else if 0x100 ≤ off ∧ off < 0x120 ∧ off ≠ 0x10C then x.sch.word off
  else if 0x208 ≤ off ∧ off < 0x214 then x.evt.word off
  else if off = 0x218 then x.int.thrNew
  else if 0x800 ≤ off ∧ off < 0x880 then x.int.word ((off - 0x800) / 4) (·.en)
  else if 0x880 ≤ off ∧ off < 0x900 then x.int.word ((off - 0x880) / 4) (·.pend)
  else if 0x900 ≤ off ∧ off < 0x980 then x.int.word ((off - 0x900) / 4) (·.insv)
  else if 0x1000 ≤ off ∧ off < 0x2000 then x.int.srcField ((off - 0x1000) / 4) (·.sense)
  else if 0x2000 ≤ off ∧ off < 0x3000 then x.int.srcField ((off - 0x2000) / 4) (·.prioNew)
  else if 0x3000 ≤ off ∧ off < 0x4000 then x.int.srcField ((off - 0x3000) / 4) (·.vec)
  else 0

/-- A 32-bit register of a channel window. -/
def Dma.word (x : Dma) (off : Nat) : Nat :=
  match off with
  | 0x08 => x.log2
  | 0x10 => x.head
  | 0x14 => flag x.stop 0 + flag x.stopped 8 + flag x.err 9 + flag x.xfer.isNone 10
  | 0x18 => x.source
  | _ => 0

/-- CTL_DEV_STATUS (R558). -/
def Dev.devStatus (d : Dev) : Nat :=
  flag (d.trust.step == 13) 0 + flag d.trust.recovery 1 + flag d.saf.safeStop 2 + at_ d.trust.step 4 + at_ d.trust.failDie 8
    + at_ d.trust.failUnit 16

/-- SEC_BOOT_STATUS (R566). -/
def Trust.bootStatus (x : Trust) : Nat :=
  x.stage + at_ x.cause 4 + at_ x.reason 8 + at_ x.bootSlot 12 + flag x.trial 13

/-- A power register (R559). -/
def Dev.readPwr (d : Dev) (off : Nat) : Nat :=
  let x := d.pwr
  match off with
  | 0x00 => x.cap
  | 0x04 => x.capMgmt
  | 0x08 => x.mode
  | 0x0C => x.cupPeriod
  | 0x10 => x.selPart + at_ x.selOff 8
  | 0x14 => match d.part x.selPart with
            | some q => kget q.cups x.selOff 0
            | none => 0
  | 0x18 => x.cupResult + flag (d.parts.any (fun e => !e.2.cupsNew.isEmpty)) 3
  | 0x1C => x.idleCool
  | 0x20 => x.idleCold
  | 0x24 => x.clk + at_ x.mem 8 + at_ x.link 16 + at_ x.duty 24
  | 0x28 => flag x.disagree 0 + flag x.inputLost 1 + flag x.guard 2 + flag x.energyEst 3 + at_ x.trivetLost 16
  | 0x2C => x.avg
  | 0x30 => d.sense.inputV
  | 0x34 => d.sense.inputI
  | 0x38 => unsigned 16 d.sense.inlet + at_ (unsigned 16 d.sense.outlet) 16
  | _ => if 0x80 ≤ off ∧ off < 0xC0 then d.sense.trivetP.getD ((off - 0x80) / 4) 0 else 0

/-- A memory register (R561). -/
def Dev.readMemReg (d : Dev) (off : Nat) : Nat :=
  let r := d.regs
  if off < 0x40 then (d.stack (off / 4)).poison.length
  else if off < 0x80 then d.stackStatus ((off - 0x40) / 4)
  else if off = 0x80 then r.repairStack + at_ r.repairCh 4 + at_ r.repairStatus 16
  else if off = 0x84 then r.retrainStack + at_ r.retrainPch 4 + flag r.retrainIgnored 16
  else if off = 0x88 then d.crock.periodMs
  else if off = 0x8C then d.crock.timeoutUs
  else if 0x90 ≤ off ∧ off < 0xA0 then
    let i := (off - 0x90) / 4
    let c := d.cport i
    c.st + at_ c.width 2 + at_ c.speed 7 + flag (bit d.conf.rflags (i + 1)) 10 + flag d.crock.present 11 + at_ d.crock.capGib 16
  else 0

/-- The injection controls of a port (R565). -/
def Inj.word (x : Inj) (reg : Nat) : Nat :=
  match reg with
  | 0 => x.mode + at_ x.pattern 4 + at_ x.matchKind 6 + at_ x.matchVal 8 + at_ x.flips 12
  | 1 => x.k + at_ x.n 8
  | 2 => x.seed
  | _ => x.limit + at_ x.injected 16

/-- A fabric register (R563). -/
def Dev.readFabReg (d : Dev) (off : Nat) : Nat :=
  let p := d.fab.pod
  if off = 0x00 then d.conf.podId
  else if off = 0x04 then d.conf.module
  else if off = 0x08 then d.conf.role + at_ d.conf.manager 8 + at_ d.conf.standby 16 + flag p.acting 24
  else if off = 0x0C then d.fab.e2eUs
  else if 0x40 ≤ off ∧ off < 0x60 then
    let x := d.port ((off - 0x40) / 4)
    at_ x.st 1 + at_ x.fails 4
  else if off = 0x88 then (if p.acting then p.log2 else 0)
  else if off = 0x90 then (if p.acting then p.head else 0)
  else if off = 0x94 then flag (p.acting && p.err) 1
  else if 0x100 ≤ off ∧ off < 0x180 then (if d.injLive then (d.port ((off - 0x100) / 16)).inj.word (off % 16 / 4) else 0)
  else 0

/-- FAB_WIN_CFG (R564). -/
def Window.cfg (w : Window) : Nat :=
  w.part + flag w.read 8 + flag w.write 9 + flag w.signal 10 + flag w.reject 15 + at_ w.job 16

/-- A 32-bit register of the device blocks. -/
def Dev.readBlock (d : Dev) (off : Nat) : Nat :=
  let m := d.mod
  if off = 0x10000 then 0x00B01640
  else if off = 0x10004 then d.devStatus
  else if off = 0x1000C then m.linkSpeed + at_ m.linkWidth 4 + flag m.flit 9 + flag m.ptm 10
  else if 0x11000 ≤ off ∧ off < 0x12000 then d.readPwr (off - 0x11000)
  else if 0x12000 ≤ off ∧ off < 0x13000 then d.readMemReg (off - 0x12000)
  else if 0x15000 ≤ off ∧ off < 0x16000 then d.readFabReg (off - 0x15000)
  else if 0x16000 ≤ off ∧ off < 0x16200 then (d.dma ((off - 0x16000) / 4)).owner
  else if off = 0x17000 then d.trust.bootStatus
  else if off = 0x17004 then d.flash.fwCtr + at_ d.flash.recCtr 16
  else if off = 0x17008 then
    flag d.flash.slotA.valid 0 + flag d.flash.slotB.valid 1 + at_ d.flash.active 2 + flag d.flash.pending.isSome 3
      + flag d.flash.trialFail 4
  else if off = 0x18000 then d.regs.drain + at_ (ofBits ((List.range 16).filter d.drained) 16) 16
  else if 0x20000 ≤ off ∧ off < 0x28000 ∧ off % 32 = 0x10 then (kget d.fab.wins ((off - 0x20000) / 32) {}).cfg
  else 0

/-- A region entry (R562). -/
def Region.word (g : Region) (reg : Nat) : Nat :=
  match reg with
  | 0 => g.base
  | 1 => g.size
  | 2 => g.part + flag g.sector 5 + at_ g.kind 6 + flag true 8 + at_ g.mask 16 + at_ g.rowBase 32
  | _ => 0

/-- The value of the 64-bit register at an offset, the read-only ones included. -/
def Dev.value64 (d : Dev) (f off : Nat) : Option Nat :=
  match d.reg64 f off with
  | some v => some v
  | none =>
    if 0x8000 ≤ off ∧ off < 0xA000 ∧ off % 64 = 0x20 then
      let c := (off - 0x8000) / 64
      if d.dmaSees f c then some ((d.dma c).posIdx + at_ (d.dma c).posOff 16) else none
    else if f ≠ 0 then none
    else if off = 0x11040 then some d.sense.energy
    else if 0x13000 ≤ off ∧ off < 0x15000 ∧ off % 8 = 0 then
      some (match kfind d.regions ((off - 0x13000) / 32) with
        | some g => g.word (off % 32 / 8)
        | none => 0)
    else none

/-- The registers that respond in recovery mode (R546). -/
def recoveryRegs : List Nat := [0x4, 0x10000, 0x10004, 0x10008, 0x17000]

/-- A 32-bit register's value. -/
def Dev.readReg (d : Dev) (f off : Nat) : Nat :=
  if off < 0x8000 then d.readView f off
  else if off < 0xA000 then
    let c := (off - 0x8000) / 64
    if d.dmaSees f c then (d.dma c).word (off % 64) else 0
  else if f = 0 then d.readBlock off
  else 0

/-- A 32-bit word: the half of a 64-bit register, or a 32-bit register. -/
def Dev.wordAt (d : Dev) (f off : Nat) : Nat :=
  match d.value64 f off with
  | some v => v % 2 ^ 32
  | none =>
    match if off % 8 = 4 then d.value64 f (off - 4) else none with
    | some v => v / 2 ^ 32
    | none => d.readReg f off

/-- A read of BAR0 (R542): the value, and the device with the latched high half. -/
def Dev.busRead (d : Dev) (f off width : Nat) : Nat × Dev :=
  if d.trust.recovery then (if width = 4 ∧ f = 0 ∧ recoveryRegs.contains off then d.readReg f off else 0, d)
  else if !d.fnLive f then (0, d)
  else if width = 4 ∧ off % 4 = 0 then
    match d.value64 f off with
    | some v => (v % 2 ^ 32, d.modFn f (fun x => { x with highLatch := kset x.highLatch off (v / 2 ^ 32) }))
    | none =>
      match if off % 8 = 4 then kfind (d.fn f).highLatch (off - 4) else none with
      | some h => (h, d.modFn f (fun x => { x with highLatch := kdel x.highLatch (off - 4) }))
      | none => (d.wordAt f off, d)
  else if width = 8 ∧ off % 8 = 0 then
    ((d.value64 f off).getD (d.readReg f off + 2 ^ 32 * d.readReg f (off + 4)), d)
  else (d.wordAt f (off / 4 * 4) / 2 ^ (8 * (off % 4)) % 2 ^ (8 * width), d)

end Sys2Proof.Machine
end

