-- ==== Sys2Proof/Safety.lean ====
section
/-!
DEFINITION. The terms in which statements speak of the device: a command ready to run, a command ended, the memory's
canonical form, and what a report may change.
-/

namespace Sys2Proof.Machine

/-- The command `c` of reference `r` may start, has opcode `op`, is not turned away by R354 or R338, and carries no mark
yet. -/
def Dev.Ready (d : Dev) (r : CmdRef) (op : Nat) (c : Cmd) : Prop :=
  d.startable r = some c ∧ c.op = op ∧ d.rejectStatus r c = none ∧ c.marks = {}

/-- The command of a reference has ended with these values, which its completion will carry (R348). -/
def Dev.Ended (d : Dev) (r : CmdRef) (st r0 r1 detail : Nat) : Prop :=
  ∃ c, d.cmd r = some c ∧ c.phase = .ended ∧ c.status = st ∧ c.result0 = r0 ∧ c.result1 = r1 ∧ c.detail = detail

/-- The memory has its canonical form: addresses strictly rising, no entry equal to what an unlisted address reads as. -/
def State.memOk (s : State) : Prop := Memory.wf s.dev.mem = true

/-- The settings of a function's interrupt sources are listed once each, in order, and only sources that exist have any. -/
def IntCtl.ok (c : IntCtl) : Prop := (c.srcs.map (·.1)).Pairwise (· < ·) ∧ ∀ e ∈ c.srcs, srcValid e.1 = true

/-- Every interrupt controller is in order. -/
def State.intOk (s : State) : Prop := ∀ e ∈ s.dev.fns, e.2.int.ok

/-- Partitions are listed once each, under the numbers 1 to 16, and none awaits two values of one cup entry (R450). -/
def State.partsOk (s : State) : Prop :=
  (s.dev.parts.map (·.1)).Pairwise (· < ·) ∧
    ∀ e ∈ s.dev.parts, 1 ≤ e.1 ∧ e.1 ≤ 16 ∧ (e.2.cupsNew.map (·.1)).Nodup

/-- The multicast tables list every waiting core once, in order (R117). -/
def State.mcastOk (s : State) : Prop := ∀ e ∈ s.dev.jds, ∀ m ∈ e.2.mcast, m.subs.Pairwise (· < ·)

/-- The invariant of the device: its tables and its memory have their canonical forms. -/
def State.ok (s : State) : Prop := s.memOk ∧ s.intOk ∧ s.partsOk ∧ s.mcastOk

/-- `d'` is `d` but for function views, suspect tables, counters and what left the device, which only grew: what reports,
interrupts and records may change (R391 to R409). -/
def Dev.Told (d d' : Dev) : Prop :=
  ∃ a b c e l, d' = { d with fns := a, jds := b, cnt := c, ovf := e, out := d.out ++ l }

/-- `d'` is `d` but for one queue pair, and for what reports may change: every other pair is as it was. -/
def Dev.OnlyPair (d d' : Dev) (f q : Nat) : Prop :=
  (∃ m a b c e l, d' = { d with qps := m, fns := a, jds := b, cnt := c, ovf := e, out := d.out ++ l }) ∧
    ∀ k, k ≠ qpKey f q → kfind d'.qps k = kfind d.qps k

/-- Nothing of partition `p` works that would note a write by another command, or take it for undefined: no run of it is under
way, and no step of a context is in flight (R142, R184). -/
def Dev.Quiet (d : Dev) (p : Nat) : Prop :=
  (∀ e ∈ d.runs, e.2.part = p → e.2.ended = true) ∧ ∀ i, d.stepFlies p i = false

end Sys2Proof.Machine
end

