-- ==== Sys2Proof/Certificates/Slice0/Obligations.lean ====
section
/-!
DEFINITION. The statements for the provers. Each says what rules of spec/ it follows; each that speaks of a command says that
`exec` answers a next state and what that state holds, for every state and operands that meet its hypotheses.
-/

open Sys2Proof Sys2Proof.Machine

/-- R342, R343, R344: where a doorbell or a fetch leaves a queue pair. R342, R343: what a doorbell write ignores, and what
puts a pair into its error state, in which it fetches nothing. -/
def Obligations.QueueDoorbells : Prop :=
  (∀ (s : State) (f q v : Nat) (x : Qp), s.dev.fnLive f = true → s.dev.qp f q = some x → s.dev.deaf f = false →
    (v < x.sqSize → ∃ t, exec (.sqTail f q v true) s = .next t ∧ t.dev.qp f q = some { x with sqTail := v } ∧
      s.dev.OnlyPair t.dev f q) ∧
    ((v + x.cqSize - x.cqHead) % x.cqSize ≤ x.posted → v < x.cqSize →
      ∃ t, exec (.cqHead f q v true) s = .next t ∧ t.dev.qp f q = some { x with cqHead := v } ∧
        s.dev.OnlyPair t.dev f q ∧
        (q < 128 → v ≠ x.cqHead → v = x.cqTail → ((t.dev.fn f).int.src (q + 1)).line = false)) ∧
    (∀ b : Bytes, s.dev.mayFetch f x = true → ∃ t, exec (.descriptorFetch f q (.ok b)) s = .next t ∧
      t.dev.qp f q = some { x with sqHead := (x.sqHead + 1) % x.sqSize, nextK := x.nextK + 1,
                                   cmds := x.cmds ++ [{ k := x.nextK, desc := padTo 64 b }] } ∧
      s.dev.OnlyPair t.dev f q)) ∧
  ((∀ (s : State) (f q : Nat) (x : Qp) (rd : HostRead), s.dev.qp f q = some x → x.err = true →
    exec (.descriptorFetch f q rd) s = .next s) ∧
  ∀ (s : State) (f q v : Nat) (x : Qp), s.dev.fnLive f = true → s.dev.qp f q = some x → s.dev.deaf f = false →
    x.err = false →
    exec (.sqTail f q v false) s = .next s ∧ exec (.cqHead f q v false) s = .next s ∧
    exec (.sqTail f q x.sqTail true) s = .next s ∧ exec (.cqHead f q x.cqHead true) s = .next s ∧
    (x.sqSize ≤ v → v ≠ x.sqTail → ∃ t, exec (.sqTail f q v true) s = .next t ∧
      t.dev.qp f q = some { x with err := true }) ∧
    (x.cqSize ≤ v ∨ x.posted < (v + x.cqSize - x.cqHead) % x.cqSize → v ≠ x.cqHead →
      ∃ t, exec (.cqHead f q v true) s = .next t ∧ t.dev.qp f q = some { x with err := true }) ∧
    (s.dev.mayFetch f x = true → ∀ rd, (rd = .failed ∨ rd = .poisoned) →
      ∃ t, exec (.descriptorFetch f q rd) s = .next t ∧ t.dev.qp f q = some { x with err := true }))

/-- R345, R348, R349: the release of an ended command posts its entry and frees its slot. R346: a deferred completion is
posted from the record once a slot is free. -/
def Obligations.CompletionsPost : Prop :=
  (∀ (s : State) (r : CmdRef) (x : Qp) (c : Cmd), s.dev.qp r.f r.q = some x → s.dev.cmd r = some c →
    c.phase = .ended → c.await = [] → c.tags = [] → s.dev.cleared c = true → x.err = false → x.discard = false →
    s.dev.saf.safeStop = false → r.q < 128 →
    ∃ t y, exec (.completionRelease r) s = .next t ∧ t.dev.qp r.f r.q = some y ∧
      y.cmds = x.cmds.filter (fun z => z.k != r.k) ∧ y.cqTail = (x.cqTail + 1) % x.cqSize ∧
      y.phase = (if (x.cqTail + 1) % x.cqSize = 0 then !x.phase else x.phase) ∧
      (∃ l, t.dev.out = s.dev.out ++ (.hostWrite (x.cqBase + 32 * x.cqTail)
        (leBytes 8 c.result0 ++ leBytes 4 c.tag ++ leBytes 2 c.status ++ leBytes 2 x.sqHead ++
          leBytes 8 (s.dev.stamp (x.num % 2)) ++ leBytes 4 c.result1 ++ leBytes 2 c.detail ++
          leBytes 2 (32768 * b2n x.phase)) :: l)) ∧
      (bit (byteAt c.desc 1) 0 = false → ((t.dev.fn r.f).int.src (r.q + 1)).line = true)) ∧
  (∀ (s : State) (f q i : Nat) (l : List Nat) (x : Qp), s.dev.qp f q = some x → x.deferred = i :: l →
    x.load < x.cqSize - 1 → x.err = false → x.discard = false → s.dev.saf.safeStop = false → (s.dev.ctx i).qp = q →
    ∃ t y, exec (.deferredCompletion f q) s = .next t ∧ t.dev.qp f q = some y ∧ y.deferred = l ∧
      y.cqTail = (x.cqTail + 1) % x.cqSize ∧
      ∃ m, t.dev.out = s.dev.out ++ (.hostWrite (x.cqBase + 32 * x.cqTail)
        (leBytes 8 (s.dev.ctx i).step ++ leBytes 4 (s.dev.ctx i).tag ++ leBytes 2 (s.dev.ctx i).lastStatus ++
          leBytes 2 x.sqHead ++ leBytes 8 (s.dev.stamp (x.num % 2)) ++ leBytes 4 ((s.dev.ctx i).handle i) ++
          leBytes 2 ((s.dev.ctx i).cstate + 256 * (s.dev.ctx i).block) ++ leBytes 2 (6 + 32768 * b2n x.phase)) :: m))

/-- R351: a FENCE completes with SUCCESS exactly when every command fetched before it on its pair has completed, and no
command fetched after it starts before that. -/
def Obligations.FenceOrders : Prop :=
  (∀ (s : State) (r : CmdRef) (x : Qp) (c : Cmd), s.dev.qp r.f r.q = some x → s.dev.Ready r 0x29 c →
    hdrOk c.desc 0 [] = true →
    (x.earlierDone r.k = true →
      ∃ t, exec (.fence r) s = .next t ∧ t.dev.Ended r stSuccess 0 0 0 ∧ s.dev.OnlyPair t.dev r.f r.q) ∧
    (x.earlierDone r.k = false → exec (.fence r) s = .next s)) ∧
  ∀ (d : Dev) (x : Qp) (c : Cmd) (r : CmdRef), d.qp r.f r.q = some x → c ∈ x.cmds → c.op = 0x29 → c.k < r.k →
    d.startable r = none

/-- R356, R339, R393: QP_CREATE makes the pair and enables its source; an existing pair is QP_STATE, one beyond the quota
QP_SPACE. -/
def Obligations.QpCreateMakesPair : Prop :=
  ∀ (s : State) (r : CmdRef) (c : Cmd) (q sl cl v sb cb : Nat), s.dev.Ready r 0x01 c →
    hdrOk c.desc 0 [(8, 6), (0x10, 16)] = true → q = field c.desc 0x08 2 → sl = byteAt c.desc 0x0A →
    cl = byteAt c.desc 0x0B → v = field c.desc 0x0C 2 → sb = field c.desc 0x10 8 → cb = field c.desc 0x18 8 →
    1 ≤ q → q ≤ 127 → 6 ≤ sl → sl ≤ 16 → 6 ≤ cl → cl ≤ 16 → v ≤ 2047 → sb % 4096 = 0 → cb % 4096 = 0 →
    (∀ x, s.dev.qp r.f q = some x →
      ∃ t, exec (.qpCreate r) s = .next t ∧ t.dev.Ended r stQpState 0 0 0 ∧ t.dev.qp r.f q = some x) ∧
    (s.dev.qp r.f q = none → (r.f = 0 ∧ 7 < q ∨ r.f ≠ 0 ∧ ∃ p, s.dev.part r.f = some p ∧ p.qps ≤ (s.dev.pairsOf r.f).length) →
      ∃ t, exec (.qpCreate r) s = .next t ∧ t.dev.Ended r stQpSpace 0 0 0 ∧ t.dev.qp r.f q = none) ∧
    (s.dev.qp r.f q = none → (r.f = 0 ∧ q ≤ 7 ∨ r.f ≠ 0 ∧ ∃ p, s.dev.part r.f = some p ∧ (s.dev.pairsOf r.f).length < p.qps) →
      ∃ t, exec (.qpCreate r) s = .next t ∧ t.dev.Ended r stSuccess 0 0 0 ∧
        t.dev.qp r.f q = some { num := if r.f = 0 then q else s.dev.freeQpNum, sqBase := sb, cqBase := cb,
                                sqSize := 2 ^ sl, cqSize := 2 ^ cl } ∧
        ((t.dev.fn r.f).int.src (q + 1)).vec = v ∧ ((t.dev.fn r.f).int.src (q + 1)).en = true ∧
        ((t.dev.fn r.f).int.src (q + 1)).prio = ((s.dev.fn r.f).int.src (q + 1)).prio)

/-- R356: QP_FLUSH ends with ABORTED what has not started and says how many; QP_DELETE shuts the pair, and removes it once
nothing of it runs; a QP_DELETE under way waits for the pair to be gone and then ends. -/
def Obligations.QpFlushDelete : Prop :=
  ∀ (s : State) (r : CmdRef) (c : Cmd) (q : Nat), q = field c.desc 0x08 2 → 1 ≤ q → q ≤ 127 → hdrOk c.desc 0 [(8, 2)] = true →
    (∀ x, s.dev.qp r.f q = some x →
      (s.dev.Ready r 0x03 c →
        ∃ t, exec (.qpFlush r) s = .next t ∧ t.dev.qp r.f q = some { x with cmds := x.cmds.map (fun z =>
            if z.phase = .waiting ∨ z.phase = .held then { z with phase := .ended, status := stAborted } else z) } ∧
          t.dev.Ended r stSuccess (x.cmds.filter (fun z => z.phase == .waiting || z.phase == .held)).length 0 0) ∧
      (s.dev.Ready r 0x02 c → (∀ z ∈ x.cmds, z.phase ≠ .running) →
        ∃ t, exec (.qpDelete r) s = .next t ∧ t.dev.qp r.f q = none ∧ t.dev.Ended r stSuccess 0 0 0) ∧
      (s.dev.Ready r 0x02 c → (∃ z ∈ x.cmds, z.phase = .running) →
        ∃ t y, exec (.qpDelete r) s = .next t ∧ t.dev.qp r.f q = some y ∧ y.discard = true ∧ y.fetchStopped = true ∧
          y.cmds = x.cmds.filter (·.phase == .running)) ∧
      (s.dev.cmd r = some c → c.op = 0x02 → c.phase = .running → exec (.qpDelete r) s = .next s)) ∧
    (s.dev.qp r.f q = none →
      (s.dev.Ready r 0x03 c → ∃ t, exec (.qpFlush r) s = .next t ∧ t.dev.Ended r stQpState 0 0 0) ∧
      (s.dev.Ready r 0x02 c → ∃ t, exec (.qpDelete r) s = .next t ∧ t.dev.Ended r stQpState 0 0 0) ∧
      (s.dev.cmd r = some c → c.op = 0x02 → c.phase = .running → c.marks = {} →
        ∃ t, exec (.qpDelete r) s = .next t ∧ t.dev.Ended r stSuccess 0 0 0))

/-- R393, R396: what a write of a source's settings does. A priority and a threshold wait for the next claim. -/
def Obligations.InterruptSettings : Prop :=
  ∀ (s : State) (f n : Nat), s.dev.fnLive f = true → srcValid n = true →
    (∀ w mask b, b < 32 → n = 32 * w + b → ∃ t, exec (.evtIntEnable f w mask) s = .next t ∧
      ((t.dev.fn f).int.src n).en = bit mask b ∧
      (((s.dev.fn f).int.src n).en = true → bit mask b = false → ((t.dev.fn f).int.src n).pend = false) ∧
      (((s.dev.fn f).int.src n).en = false → bit mask b = true → ((s.dev.fn f).int.src n).sense = 0 →
        ((t.dev.fn f).int.src n).pend = (((s.dev.fn f).int.src n).line && !((s.dev.fn f).int.src n).insv))) ∧
    (∀ mode, mode < 4 → mode ≠ ((s.dev.fn f).int.src n).sense → ∃ t, exec (.evtIntSense f n mode) s = .next t ∧
      ((t.dev.fn f).int.src n).sense = mode ∧ (mode ≠ 0 → ((t.dev.fn f).int.src n).pend = false)) ∧
    (∀ v, v < 2048 → ∃ t, exec (.evtIntVector f n v) s = .next t ∧ ((t.dev.fn f).int.src n).vec = v ∧
      ((t.dev.fn f).int.src n).insv = ((s.dev.fn f).int.src n).insv ∧
      (((s.dev.fn f).int.src n).sense ≠ 0 → ((t.dev.fn f).int.src n).pend = ((s.dev.fn f).int.src n).pend)) ∧
    (∀ p, p < 8 → ∃ t, exec (.evtIntPrio f n p) s = .next t ∧ ((t.dev.fn f).int.src n).prioNew = p ∧
      ((t.dev.fn f).int.src n).prio = ((s.dev.fn f).int.src n).prio) ∧
    (∀ p, p < 8 → ∃ t, exec (.evtIntThreshold f p) s = .next t ∧ (t.dev.fn f).int.thrNew = p ∧
      (t.dev.fn f).int.thr = (s.dev.fn f).int.thr)

/-- R394, R396: a claim applies what was written, then takes the deliverable source of its vector with the highest
priority, the lowest number among equals, or reads 1,023 or 0. -/
def Obligations.ClaimTakesBest : Prop :=
  ∀ (s : State) (f v : Nat) (c : IntCtl), s.dev.fnLive f = true →
    c = ((s.dev.fn f).int.commit (s.dev.fn f).int.apply).1 → (s.dev.fn f).int.ok →
    c.thr = (s.dev.fn f).int.thrNew ∧
    ∃ t l, exec (.evtIntClaim f v) s = .next t ∧
      ((∃ e ∈ c.srcs, e.2.vec = v ∧ c.deliverable e.2 = true) →
        ∃ n x, (n, x) ∈ c.srcs ∧ x.vec = v ∧ c.deliverable x = true ∧
          (∀ e ∈ c.srcs, e.2.vec = v → c.deliverable e.2 = true → e.2.prio < x.prio ∨ e.2.prio = x.prio ∧ n ≤ e.1) ∧
          t.dev.out = s.dev.out ++ l ++ [.regRead n] ∧ ((t.dev.fn f).int.src n).insv = true ∧
          ((t.dev.fn f).int.src n).pend = false ∧ ((t.dev.fn f).int.vecOf v).sent = false) ∧
      ((∀ e ∈ c.srcs, e.2.vec = v → c.deliverable e.2 = false) →
        t.dev.out = s.dev.out ++ l ++ [.regRead (if (c.vecOf v).sent then 1023 else 0)] ∧
          ((t.dev.fn f).int.vecOf v).sent = false)

/-- R395, R397: a completion ends the service of a source; unmasking sends the message held back. -/
def Obligations.CompleteAndUnmask : Prop :=
  ∀ (s : State) (f v n : Nat), s.dev.fnLive f = true → srcValid n = true →
    (((s.dev.fn f).int.src n).insv = true → ((s.dev.fn f).int.src n).vec = v →
      ∃ t, exec (.evtIntComplete f v n) s = .next t ∧ ((t.dev.fn f).int.src n).insv = false ∧
        ((t.dev.fn f).int.src n).pend = (if ((s.dev.fn f).int.src n).sense = 0
          then ((s.dev.fn f).int.src n).en && ((s.dev.fn f).int.src n).line else ((s.dev.fn f).int.src n).pend)) ∧
    (((s.dev.fn f).int.src n).insv = false ∨ ((s.dev.fn f).int.src n).vec ≠ v →
      ∃ t, exec (.evtIntComplete f v n) s = .next t ∧ (t.dev.fn f).int.src n = (s.dev.fn f).int.src n) ∧
    ∃ t, exec (.msixUnmask f v) s = .next t ∧ ((t.dev.fn f).int.vecOf v).mask = false ∧
      (((s.dev.fn f).int.vecOf v).pend = true → t.dev.out = s.dev.out ++ [.msix f v] ∧
        ((t.dev.fn f).int.vecOf v).pend = false ∧ ((t.dev.fn f).int.vecOf v).sent = true) ∧
      (((s.dev.fn f).int.vecOf v).pend = false → t.dev.out = s.dev.out ∧
        ((t.dev.fn f).int.vecOf v).sent = ((s.dev.fn f).int.vecOf v).sent)

/-- Frame of the commands on a function's interrupt controller and event ring (R393 to R398): nothing but that function's
view, what reports touch and what leaves the device. -/
def Obligations.InterruptRowsFrame : Prop :=
  ∀ (s t : State) (f a b : Nat) (w en : Bool) (i : Instr), i ∈ [.evtIntClaim f a, .evtIntComplete f a b, .evtIntEnable f a b,
      .evtIntSense f a b, .evtIntVector f a b, .evtIntPrio f a b, .evtIntThreshold f a, .msixUnmask f a,
      .evtRingHead f a w, .evtRingSizeEn f a en] →
    exec i s = .next t →
    t.pending = s.pending ∧ (∃ v l, t.dev = { s.dev with fns := v, out := s.dev.out ++ l }) ∧
      ∀ g, g ≠ f → t.dev.fn g = s.dev.fn g

/-- R398, R554: what a write of the ring head and a write of the ring's size and enable do. -/
def Obligations.EventRingRegisters : Prop :=
  ∀ (s : State) (f : Nat) (r : EvtRing), s.dev.fnLive f = true → r = (s.dev.fn f).evt →
    (∀ v, v ≠ r.head → v < 2 ^ r.log2 → (v + 2 ^ r.log2 - r.head) % 2 ^ r.log2 ≤ (r.tail + 2 ^ r.log2 - r.head) % 2 ^ r.log2 →
      ∃ t, exec (.evtRingHead f v true) s = .next t ∧ (t.dev.fn f).evt = { r with head := v }) ∧
    (∀ v, v ≠ r.head → 2 ^ r.log2 ≤ v ∨ (r.tail + 2 ^ r.log2 - r.head) % 2 ^ r.log2 < (v + 2 ^ r.log2 - r.head) % 2 ^ r.log2 →
      ∃ t, exec (.evtRingHead f v true) s = .next t ∧ (t.dev.fn f).evt = { r with headRej := true }) ∧
    (∀ v, exec (.evtRingHead f v false) s = .next s) ∧
    (r.en = true → ∀ k en, ∃ t, exec (.evtRingSizeEn f k en) s = .next t ∧ (t.dev.fn f).evt = { r with en := en }) ∧
    (r.en = false → ∀ k, 6 ≤ k → k ≤ 16 →
      (∃ t, exec (.evtRingSizeEn f k false) s = .next t ∧ (t.dev.fn f).evt = { r with log2 := k }) ∧
      (r.base ≠ 0 → ∃ t, exec (.evtRingSizeEn f k true) s = .next t ∧
        (t.dev.fn f).evt = { r with log2 := k, en := true, tail := 0, head := 0, phase := true })) ∧
    (r.en = false → ∀ k, k < 6 ∨ 16 < k ∨ r.base = 0 →
      ∃ t, exec (.evtRingSizeEn f k true) s = .next t ∧ (t.dev.fn f).evt.en = false ∧ (t.dev.fn f).evt.cfgRej = true)

/-- R398, R399, R404: a suspect entry whose time is over is freed; one that counted more than one report writes its
SUSPECT_SUMMARY at the tail of the physical function's ring, unless the ring is shut or full. R572: what a posted
write that the device learns has failed does to the unit that posted it. -/
def Obligations.PostedWritesAndSuspects : Prop :=
  (∀ (s : State) (j : Nat) (e : Suspect) (x : Jd), j < 2 → x = s.dev.jd j → (x.own ++ x.other).find? (fun y => y.unit == e.unit) = some e →
    ∃ t, exec (.suspectEntryExpiry j e.unit) s = .next t ∧
      t.dev.jd j = { x with own := x.own.filter (fun y => y.unit != e.unit), other := x.other.filter (fun y => y.unit != e.unit) } ∧
      (e.count ≤ 1 → t.dev.out = s.dev.out) ∧
      (1 < e.count → (s.dev.fn 0).evt.en = true →
        ((s.dev.fn 0).evt.tail + 1) % 2 ^ (s.dev.fn 0).evt.log2 ≠ (s.dev.fn 0).evt.head →
        ∃ l, t.dev.out = s.dev.out ++ (.hostWrite ((s.dev.fn 0).evt.base + 64 * (s.dev.fn 0).evt.tail)
          (leBytes 2 0x1002 ++ leBytes 1 (s.dev.unitOwner (e.unit % 2 ^ 24)) ++
            leBytes 1 (b2n (s.dev.fn 0).evt.lostFlag + 128 * b2n (s.dev.fn 0).evt.phase) ++
            leBytes 4 (s.dev.unit (e.unit % 2 ^ 24)) ++ leBytes 8 (s.dev.stamp (e.unit % 2)) ++ leBytes 4 0 ++ leBytes 2 0 ++
            leBytes 2 (min e.count 0xFFFF) ++ padTo 40 (e.reporters.flatMap (leBytes 4))) :: l))) ∧
  (∀ (s : State),
    (∀ f q x, s.dev.qp f q = some x → ∃ t, exec (.postedWriteFailed (.completion f q)) s = .next t ∧
      t.dev.qp f q = some { x with err := true }) ∧
    (∀ f r, f ≤ 16 → r = (s.dev.fn f).evt → r.en = true → r.tail ≠ r.head → r.tail < 2 ^ r.log2 →
      kget (s.dev.fn f).thr 49 0 = 0 → s.dev.counter (0x160600 + f) 1 < 2 ^ 64 - 2 →
      ∃ t, exec (.postedWriteFailed (.eventRecord f)) s = .next t ∧
        (t.dev.fn f).evt = { r with tail := (if r.tail = 0 then 2 ^ r.log2 - 1 else r.tail - 1), lostFlag := true,
                                    phase := (if r.tail = 0 then !r.phase else r.phase) } ∧
        t.dev.counter (0x160600 + f) 1 = s.dev.counter (0x160600 + f) 1 + 1) ∧
    (∀ c, c < 128 → ∃ t, exec (.postedWriteFailed (.dmaWriteback c)) s = .next t ∧ (t.dev.dma c).err = true) ∧
    (∀ r c, s.dev.cmd r = some c → c.op = 0x2A → byteAt c.desc 0x18 = 1 → c.phase = .ended → c.status = stSuccess →
      ∃ t, exec (.postedWriteFailed (.signalStore r)) s = .next t ∧
        t.dev.cmd r = some { c with status := stHostAccess }))

/-- R378, R379, R380, R389, R555, R556, R566: what the writes of a channel's registers do, through the window of the
function that owns it. What rebinds it is log 30's choice. -/
def Obligations.DmaRegisters : Prop :=
  ∀ (s : State) (f c : Nat) (x : Dma), s.dev.fnLive f = true → f ≤ 16 → c < 128 → x = s.dev.dma c → x.owner = f →
    (s.dev.deaf f = false → x.err = false →
      (∀ v, v ≠ x.tail → v < 2 ^ x.log2 → ∃ t, exec (.dmaChTail f c v true) s = .next t ∧
        t.dev = s.dev.putDma c { x with tail := v }) ∧
      (∀ v, v ≠ x.tail → 2 ^ x.log2 ≤ v → ∃ t, exec (.dmaChTail f c v true) s = .next t ∧
        t.dev.dma c = { x with err := true, xfer := none })) ∧
    (∀ v, exec (.dmaChTail f c v false) s = .next s) ∧
    (x.xfer = none → ∃ t, exec (.dmaChCtlStop f c true) s = .next t ∧
      t.dev = s.dev.putDma c { x with stop := true, stopped := true, posIdx := x.head, posOff := 0 }) ∧
    (x.xfer ≠ none → ∃ t, exec (.dmaChCtlStop f c true) s = .next t ∧
      t.dev = s.dev.putDma c { x with stop := true }) ∧
    (∃ t, exec (.dmaChCtlStop f c false) s = .next t ∧
      t.dev = s.dev.putDma c { x with stop := false, stopped := x.held && x.stopped }) ∧
    (∃ t, exec (.dmaChCtlReset f c) s = .next t ∧ (∀ k, k ≠ c → t.dev.dma k = s.dev.dma k) ∧
      t.dev.dma c = { x with err := false, head := 0, tail := 0, posIdx := 0, posOff := 0, xfer := none } ∧
      (∀ y, x.xfer = some y → t.dev.out = s.dev.out ++ [.hostWrite (x.base + 64 * y.idx + 0x38)
        (leBytes 2 (if s.dev.saf.safeStop then stPoisoned else stAborted) ++ leBytes 1 3 ++ leBytes 1 0 ++ leBytes 4 0)])) ∧
    (∀ k, 6 ≤ k → k ≤ 16 → (x.stopped = true ∨ x.err = true ∨ x.xfer = none ∧ x.head = x.tail) →
      ∃ t, exec (.dmaChRingSize f c k) s = .next t ∧ t.dev = s.dev.putDma c { x with log2 := k, head := 0, tail := 0 }) ∧
    (∀ k, k < 6 ∨ 16 < k ∨ (x.stopped = false ∧ x.err = false ∧ (x.xfer ≠ none ∨ x.head ≠ x.tail)) →
      exec (.dmaChRingSize f c k) s = .next s) ∧
    (∀ g, g ≤ 16 ∨ g = 0x1F → g ≠ f → x.xfer = none → x.head = x.tail → ∃ t, exec (.dmaChOwner c g) s = .next t ∧
      t.dev = s.dev.putDma c { owner := g, source := 129 + c }) ∧
    (∀ g, x.xfer ≠ none ∨ x.head ≠ x.tail → exec (.dmaChOwner c g) s = .next s) ∧
    ∀ g v k b, g ≠ f → exec (.dmaChTail g c v b) s = .next s ∧ exec (.dmaChCtlStop g c b) s = .next s ∧
      exec (.dmaChCtlReset g c) s = .next s ∧ exec (.dmaChRingSize g c k) s = .next s

/-- R380, R382, R378: the fetch of a descriptor moves the head; a failed fetch is the channel's error; a channel bound to
the physical function, and a descriptor that a check turns away, move nothing. -/
def Obligations.DmaDescriptorFetch : Prop :=
  ∀ (s : State) (c : Nat) (x : Dma) (data : HostRead), x = s.dev.dma c → s.dev.dmaMayFetch c = true →
    (∀ rd, rd = .failed ∨ rd = .poisoned → ∃ t, exec (.dmaDescriptor c rd data) s = .next t ∧ t.dev.dma c = { x with err := true }) ∧
    ∀ b, s.dev.saf.iodFenced.contains (c / 32) = false →
      ∃ t y, exec (.dmaDescriptor c (.ok b) data) s = .next t ∧
        t.dev.dma c = { x with head := (x.head + 1) % 2 ^ x.log2, xfer := some y } ∧ y.idx = x.head ∧
        y.desc = padTo 64 b ∧ y.data = data ∧ y.moved = 0 ∧
        (x.owner = 0 → y.status = stNotOwned ∧ y.bad = true ∧ y.done = true) ∧
        (x.owner ≠ 0 → ∀ st, dmaCheck1 (padTo 64 b) = some st → y.status = st ∧ y.bad = true ∧ y.done = true) ∧
        (x.owner ≠ 0 → dmaCheck1 (padTo 64 b) = none → (parseDma (padTo 64 b)).map = 0 → (parseDma (padTo 64 b)).bytes = 0 →
          y.status = stEmptyOutput ∧ y.bad = false ∧ y.done = true)

/-- R381, R386, R387, R388: the writeback of a descriptor, and the halt of a channel that was asked to. -/
def Obligations.DmaWritebackAndHalt : Prop :=
  ∀ (s : State) (c : Nat) (x : Dma) (y : Xfer) (e : Env), x = s.dev.dma c → x.xfer = some y → x.stopped = false →
    (y.done = true → s.dev.saf.safeStop = false → ∃ t, exec (.dmaWriteback c e) s = .next t ∧
      t.dev.dma c = { x with xfer := none } ∧
      ∃ l, t.dev.out = s.dev.out ++ (.hostWrite (x.base + 64 * y.idx + 0x38)
        (leBytes 2 y.status ++ leBytes 1 (1 + 2 * b2n y.bad + 4 * b2n (x.head == x.tail)) ++ leBytes 1 0 ++
          leBytes 4 (if y.bad then 0 else y.moved % 2 ^ 32)) :: l) ∧
      (x.head ≠ x.tail ∨ x.source = 0 → l = [] ∧ t.dev.fns = s.dev.fns) ∧
      (x.head = x.tail → x.source ≠ 0 → x.owner ≤ 16 → srcValid x.source = true → ((s.dev.fn x.owner).int.src x.source).en = true →
        ((s.dev.fn x.owner).int.src x.source).sense = 1 → ((s.dev.fn x.owner).int.src x.source).line = false →
        ((t.dev.fn x.owner).int.src x.source).pend = true)) ∧
    (∀ n, y.done = false → x.stop = true ∨ x.held = true → s.dev.dmaShut c (parseDma y.desc) = false → n % 4096 = 0 →
      y.moved ≤ n → n ≤ y.total → ∃ t z, exec (.dmaStopped c n e) s = .next t ∧
        t.dev.dma c = { x with stopped := true, posIdx := y.idx, posOff := n, xfer := some z } ∧ z.moved = n ∧
        z.desc = y.desc ∧ z.idx = y.idx ∧ (y.bad = true → z.status = y.status ∧ z.bad = true))

/-- R352: a WAIT completes once its semaphore, less its value, is not negative as a signed 64-bit number; until then it
leaves everything as it is and nothing after it starts. A failed read ends it. R353, R368, R423: a SIGNAL waits for
the commands before it, judges them where OPFLAGS[0] asks, and stores its value to the partition, to the host by one
posted write, or to another module, whose answer it then waits for. -/
def Obligations.SignalsAndWaits : Prop :=
  ((∀ (s : State) (r : CmdRef) (c : Cmd) (e : Env) (z : Rd × Dev), s.dev.Ready r 0x2B c → hdrOk c.desc 0 [(8, 16)] = true →
    field c.desc 8 8 % 8 = 0 → r.f ≠ 0 → z = s.dev.read r.f e (field c.desc 8 8) 8 →
    (z.1.marks.clear = true → (leNat z.1.bytes + 2 ^ 64 - field c.desc 0x10 8) % 2 ^ 64 < 2 ^ 63 →
      ∃ t, exec (.wait r e) s = .next t ∧ t.dev.Ended r stSuccess 0 0 0) ∧
    (z.1.marks.clear = true → 2 ^ 63 ≤ (leNat z.1.bytes + 2 ^ 64 - field c.desc 0x10 8) % 2 ^ 64 →
      exec (.wait r e) s = .next s) ∧
    (z.1.marks.clear = false → ∃ t y, exec (.wait r e) s = .next t ∧ t.dev.cmd r = some y ∧ y.phase = .ended ∧
      y.status = (z.1.marks.final stSuccess).1 ∧ (caMemPoison ∈ z.1.marks.causes → y.status = stPoisoned) ∧
      (z.1.marks.causes = [] → stTierError ∈ z.1.marks.fails → y.status = stTierError))) ∧
  ∀ (d : Dev) (x : Qp) (c : Cmd) (r : CmdRef), d.qp r.f r.q = some x → c ∈ x.cmds → c.op = 0x2B → c.k < r.k →
    d.startable r = none) ∧
  (∀ (s : State) (r : CmdRef) (x : Qp) (c : Cmd), s.dev.qp r.f r.q = some x → s.dev.signalStarts r = some c →
    s.dev.rejectStatus r c = none → c.marks = {} → c.await = [] → c.tags = [] → hdrOk c.desc 1 [(8, 0x14)] = true →
    (x.earlierDone r.k = false → byteAt c.desc 0x18 = 1 → zeroAt c.desc 0x19 3 = true → exec (.signal r) s = .next s) ∧
    (x.earlierDone r.k = true →
      (byteAt c.desc 0x18 = 1 → zeroAt c.desc 0x19 3 = true → bit (byteAt c.desc 2) 0 = true →
        (∃ z ∈ x.done, x.sigFrom ≤ z.1 ∧ z.1 < r.k ∧ z.2 ≠ stSuccess ∧ z.2 ≠ stEmptyOutput) →
        ∃ t, exec (.signal r) s = .next t ∧ t.dev.Ended r stDepFailed 0 0 0 ∧ t.dev.out = s.dev.out ∧ t.dev.mem = s.dev.mem) ∧
      ((bit (byteAt c.desc 2) 0 = false ∨
          ∀ z ∈ x.done, x.sigFrom ≤ z.1 → z.1 < r.k → z.2 = stSuccess ∨ z.2 = stEmptyOutput) →
        (byteAt c.desc 0x18 = 0 → zeroAt c.desc 0x19 3 = true → field c.desc 8 8 % 8 = 0 → r.f ≠ 0 →
          (∀ y, s.dev.part r.f = some y → y.protected (field c.desc 8 8) 8 = false) →
          (∀ e ∈ s.dev.ctxs, e.2.cstate = 4 → e.2.block ≠ 1) →
          ∃ t w y, w = s.dev.writeRaced r.f Env.clean (field c.desc 8 8) (leBytes 8 (field c.desc 0x10 8)) ∧
            (s.dev.Quiet r.f → w = s.dev.write r.f Env.clean (field c.desc 8 8) (leBytes 8 (field c.desc 0x10 8))) ∧
            exec (.signal r) s = .next t ∧ t.dev.mem = w.2.mem ∧ t.dev.cmd r = some y ∧ y.phase = .ended ∧
            y.status = (w.1.final stSuccess).1) ∧
        (byteAt c.desc 0x18 = 1 → zeroAt c.desc 0x19 3 = true →
          ∃ t, exec (.signal r) s = .next t ∧ t.dev.Ended r stSuccess 0 0 0 ∧
            t.dev.out = s.dev.out ++ [.hostWrite (field c.desc 8 8) (leBytes 8 (field c.desc 0x10 8))]) ∧
        (byteAt c.desc 0x18 = 2 → field c.desc 8 8 < 2 ^ 48 → (s.dev.dest (byteAt c.desc 0x19)).unreachable = false →
          ∃ t y id, exec (.signal r) s = .next t ∧ t.dev.cmd r = some y ∧ y.phase = .running ∧
            y.await = [(byteAt c.desc 0x19, id)] ∧ t.dev.mem = s.dev.mem))))

/-- R300, R304, R369, R370: what each action of a TIER_HINT does to the pages it names, and how it ends. -/
def Obligations.TierHintActs : Prop :=
  ∀ (s : State) (r : CmdRef) (c : Cmd) (x : Part) (act n a : Nat), s.dev.Ready r 0x2C c →
    hdrOk c.desc 0 [(8, 1), (0x10, 0x18)] = true → act = byteAt c.desc 8 → a = field c.desc 0x10 8 → n = field c.desc 0x18 4 →
    act < 5 → 1 ≤ n → a % 2 ^ 21 = 0 → zeroAt c.desc 0x1C 12 = true → s.dev.part r.f = some x →
    (x.tier.base % 2 ^ 21 = 0 → a < x.tier.base ∨ x.tier.base + x.tier.pages * 2 ^ 21 < a + n * 2 ^ 21 →
      ∃ t, exec (.tierHint r) s = .next t ∧ t.dev.Ended r stAddrRange 0 0 0 ∧ t.dev.part r.f = some x) ∧
    ∀ pg l, a = x.tier.base + pg * 2 ^ 21 → pg + n ≤ x.tier.pages → l = (List.range n).map (pg + ·) →
      (act = 0 → ∃ t, exec (.tierHint r) s = .next t ∧
        t.dev.part r.f = some { x with tier := { x.tier with hints := x.tier.hints ++ l.filter (fun p =>
          (x.tier.st p).isCrock && !x.tier.hints.contains p) } } ∧
        t.dev.Ended r stSuccess (l.filter (fun p => (x.tier.st p).isCrock && !x.tier.hints.contains p)).length 0 0) ∧
      (act = 1 → ∃ t, exec (.tierHint r) s = .next t ∧
        t.dev.part r.f = some { x with tier := { x.tier with demote := x.tier.demote ++ l.filter (fun p =>
          (x.tier.st p).isStack && !x.tier.demote.contains p) } } ∧
        t.dev.Ended r stSuccess (l.filter (fun p => (x.tier.st p).isStack && !x.tier.demote.contains p)).length 0 0) ∧
      (act = 2 → (∀ p ∈ l, (x.tier.st p).isStack = true) →
        ((l.foldl (fun b p => insertSorted p b) x.tier.pinned).length ≤ x.tier.f - 8 →
          ∃ t, exec (.tierHint r) s = .next t ∧
            t.dev.part r.f = some { x with tier := { x.tier with pinned := l.foldl (fun b p => insertSorted p b) x.tier.pinned } } ∧
            t.dev.Ended r stSuccess n 0 0) ∧
        (x.tier.f - 8 < (l.foldl (fun b p => insertSorted p b) x.tier.pinned).length →
          ∃ t, exec (.tierHint r) s = .next t ∧ t.dev.part r.f = some x ∧ t.dev.Ended r stTierPinLimit 0 0 0)) ∧
      (act = 3 → ∃ t, exec (.tierHint r) s = .next t ∧
        t.dev.part r.f = some { x with tier := { x.tier with pinned := x.tier.pinned.filter (fun p => !l.contains p) } } ∧
        t.dev.Ended r stSuccess (l.filter (fun p => x.tier.pinned.contains p)).length 0 0) ∧
      (act = 4 → ∃ t y, exec (.tierHint r) s = .next t ∧ t.dev.part r.f = some y ∧
        (∀ p, y.tier.st p = if p ∈ l then .zero else x.tier.st p) ∧
        t.dev.Ended r stSuccess (l.filter (fun p => x.tier.st p != .zero)).length 0 0)

/-- R371, R407, R571: a QUERY writes its fields to the host, at most LEN bytes, or says why not. Reading counters with bit
24 of ARG set clears them. R372: QUERY_TIME writes a header and one entry per die and sample. -/
def Obligations.QueriesAnswered : Prop :=
  (∀ (s : State) (r : CmdRef) (c : Cmd) (item arg dst len : Nat), s.dev.Ready r 0x30 c →
    hdrOk c.desc 0 [(8, 2), (0x0C, 16)] = true → item = field c.desc 8 2 → arg = field c.desc 0x0C 4 → dst = field c.desc 0x10 8 →
    len = field c.desc 0x18 4 →
    (4096 < len ∨ 5 < item ∨ (item < 2 ∧ arg ≠ 0) ∨ (item = 4 ∧ 2 ^ 25 ≤ arg) ∨ (item = 5 ∧ 15 < arg) →
      ∃ t, exec (.query r) s = .next t ∧ t.dev.Ended r stInvalidField 0 0 0 ∧ t.dev.out = s.dev.out) ∧
    (1 ≤ len → len ≤ 4096 →
      (item = 2 → ∀ x g, s.dev.part r.f = some x → kfind x.progs arg = some g →
        ∃ t, exec (.query r) s = .next t ∧ t.dev.Ended r stSuccess (min len 24) 0 0 ∧
          t.dev.out = s.dev.out ++ [.hostWrite dst ((leBytes 8 (parseImage g.image).ftLevel ++
            leBytes 8 (parseImage g.image).layers ++ leBytes 8 (parseImage g.image).size).take len)]) ∧
      (item = 3 → ∀ x i, s.dev.part r.f = some x → r.f ≠ 0 → s.dev.byHandle x arg = some i →
        ∃ t, exec (.query r) s = .next t ∧ t.dev.Ended r stSuccess (((s.dev.ctx i).bytes i).take len).length 0 0 ∧
          (0 < (((s.dev.ctx i).bytes i).take len).length →
            t.dev.out = s.dev.out ++ [.hostWrite dst (((s.dev.ctx i).bytes i).take len)])) ∧
      (item = 4 → arg < 2 ^ 25 → ∀ u k, u = arg % 2 ^ 24 → k = kindCounters (unitKind u) → k ≠ 0 →
        (r.f ≠ 0 → s.dev.unitMine r.f u = true) →
        ∃ t b, exec (.query r) s = .next t ∧ t.dev.out = s.dev.out ++ [.hostWrite dst (b.take len)] ∧
          b.length = 8 * (k + 2) ∧ slice b 8 8 = leBytes 8 (s.dev.aoOf (u / 0x10000)) ∧
          (∀ n, n < k → slice b (16 + 8 * n) 8 = leBytes 8 (s.dev.counter u n)) ∧
          (∀ n, n < 32 → t.dev.counter u n = if bit arg 24 then 0 else s.dev.counter u n)) ∧
      (item = 5 → arg ≤ 15 → ∃ t b, exec (.query r) s = .next t ∧ t.dev.Ended r stSuccess (min len 24) 0 0 ∧
        t.dev.out = s.dev.out ++ [.hostWrite dst (b.take len)] ∧
        slice b 8 8 = leBytes 8 (s.dev.stack arg).poison.length))) ∧
  (∀ (s : State) (r : CmdRef) (c : Cmd) (x ptm out back n : Nat), s.dev.Ready r 0x31 c → hdrOk c.desc 0 [(8, 17)] = true →
    x < 23 → field c.desc 8 8 = 2 ^ x → n = byteAt c.desc 0x18 → 1 ≤ n → n ≤ 16 →
    ∃ t, exec (.queryTime r ptm out back) s = .next t ∧ t.dev.Ended r stSuccess n 0 0 ∧
      t.dev.out = s.dev.out ++ [.hostWrite (field c.desc 0x10 8)
        (leBytes 8 (if s.dev.mod.ptm then ptm else 0) ++ leBytes 8 (s.dev.aoOf 16) ++ leBytes 4 n ++ List.replicate 12 0 ++
          (List.range n).flatMap (fun k => leBytes 1 x ++ leBytes 1 k ++ List.replicate 6 0 ++ leBytes 8 (s.dev.aoOf 16) ++
            leBytes 8 (s.dev.aoOf x + out) ++ leBytes 8 (s.dev.aoOf 16 + out + back)))])

/-- R274, R279, R283: a read or a write within one sector of a region goes to the stack and offset that the region's
interleave gives, and changes no other byte of any memory. The stack is in service and the sector reads clean. -/
def Obligations.RegionAccess : Prop :=
  ∀ (d : Dev) (p a gs : Nat) (e : Env) (g : Region) (bs : Bytes), d.regionAt p a = some g → 1 ≤ bs.length →
    a % 64 + bs.length ≤ 64 → gs = (if g.sector then 256 else 2048) →
    ∀ t off key, t = (setBits 16 g.mask).getD ((a - g.base) / gs % (setBits 16 g.mask).length) 0 →
      off = g.rowBase * 2 ^ 22 + (a - g.base) / gs / (setBits 16 g.mask).length * gs + (a - g.base) % gs →
      key = t * 2 ^ 37 + off → d.stackOut t = false → (d.stack t).bad off = false → (t, off / 64 * 64) ∉ e.uncorrectable →
      silentAt e t (off / 64 * 64) = none →
      (∀ y, d.part p = some y → y.tier.pageOf a = none) → Memory.wf d.mem = true →
      (d.write p e a bs).1 = {} ∧
      (∀ i, i < bs.length → mget (d.write p e a bs).2.mem (key + i) = bs.getD i 0) ∧
      (∀ k, k < key ∨ key + bs.length ≤ k → mget (d.write p e a bs).2.mem k = mget d.mem k) ∧
      (d.read p e a bs.length).1 = { bytes := (List.range bs.length).map (fun i => mget d.mem (key + i)) } ∧
      (d.read p e a bs.length).2.mem = d.mem

/-- R285, R318, R367: FILL writes its pattern, low bytes first, over the run it names, and ends with SUCCESS and the
number of bytes where the write meets no failure; a run that the partition may not write ends with ADDR_RANGE. Whole
rows lose their poison first, and nothing is poisoned. Where nothing of the partition works that would note the write
(R142, R184), the write is a plain write. -/
def Obligations.FillWrites : Prop :=
  ∀ (s : State) (r : CmdRef) (c : Cmd) (dst n : Nat) (pat : Bytes), s.dev.Ready r 0x28 c → hdrOk c.desc 3 [(8, 0x18)] = true →
    dst = field c.desc 8 8 → n = field c.desc 0x10 8 → pat = leBytes (2 ^ (byteAt c.desc 2 % 4)) (field c.desc 0x18 8) →
    (n = 0 → ∃ t, exec (.fill r) s = .next t ∧ t.dev.Ended r stEmptyOutput 0 0 0 ∧ t.dev.mem = s.dev.mem) ∧
    (n ≠ 0 → s.dev.writable r.f dst n = false →
      ∃ t, exec (.fill r) s = .next t ∧ t.dev.Ended r stAddrRange 0 0 0 ∧ t.dev.mem = s.dev.mem) ∧
    (n ≠ 0 → s.dev.writable r.f dst n = true → ∀ d1 b w, d1 = s.dev.clearRows (s.dev.fillRows r.f dst n) →
      b = (List.range n).map (fun i => pat.getD (i % pat.length) 0) → w = d1.writeRaced r.f Env.clean dst b →
      d1.mem = s.dev.mem ∧ (∀ k o, (d1.stack k).bad o = true → (s.dev.stack k).bad o = true) ∧
      (s.dev.Quiet r.f → w = d1.write r.f Env.clean dst b) ∧
      (∃ t y, exec (.fill r) s = .next t ∧ t.dev.mem = w.2.mem ∧ t.dev.cmd r = some y ∧ y.phase = .ended ∧
        y.status = (w.1.final stSuccess).1 ∧ (w.1 = {} → t.dev.Ended r stSuccess n 0 0)))

/-- R239, R366, R449, R472: how a plain COPY ends: nothing to move, a run it may not touch, a fenced whisk, a cup that is
never served, and else the bytes read at SRC written at DST, with SUCCESS where nothing fails. Where nothing of the
partition works that would note the write (R142, R184), the write is a plain write. -/
def Obligations.CopyMoves : Prop :=
  ∀ (s : State) (r : CmdRef) (c : Cmd) (e : Env) (src dst n : Nat), s.dev.Ready r 0x27 c → byteAt c.desc 2 = 0 →
    hdrOk c.desc 0x0F [(8, 0x20)] = true → src = field c.desc 8 8 → dst = field c.desc 0x10 8 → n = field c.desc 0x18 8 →
    field c.desc 0x20 8 = 0 →
    (n = 0 → ∃ t, exec (.copy r e) s = .next t ∧ t.dev.Ended r stEmptyOutput 0 0 0 ∧ t.dev.mem = s.dev.mem) ∧
    (n ≠ 0 → s.dev.ownedRange r.f src n = false ∨ s.dev.writable r.f dst n = false →
      ∃ t, exec (.copy r e) s = .next t ∧ t.dev.Ended r stAddrRange 0 0 0 ∧ t.dev.mem = s.dev.mem) ∧
    (n ≠ 0 → s.dev.ownedRange r.f src n = true → s.dev.writable r.f dst n = true →
      (∀ k, s.dev.whiskOf r.f false dst = some k → (s.dev.skillet k).fenced = true → ∃ t y, exec (.copy r e) s = .next t ∧ t.dev.mem = s.dev.mem ∧
        t.dev.cmd r = some y ∧ y.phase = .ended ∧ y.status = stPoisoned ∧ y.detail = caFenced) ∧
      ((∀ k, s.dev.whiskOf r.f false dst = some k → (s.dev.skillet k).fenced = false) → (∀ j, s.dev.cupShut r.f j = false) → src + n ≤ dst ∨ dst + n ≤ src →
        ∃ u, ∀ z w, z = ({ s.dev with cups := u } : Dev).read r.f e src n → w = z.2.writeRaced r.f e dst z.1.bytes → z.1.bad = [] →
          (s.dev.Quiet r.f → w = z.2.write r.f e dst z.1.bytes) ∧
          ∃ t y, exec (.copy r e) s = .next t ∧ t.dev.mem = w.2.mem ∧ t.dev.cmd r = some y ∧ y.phase = .ended ∧
            y.status = ((z.1.marks.join w.1).final stSuccess).1 ∧
            (z.1.marks.join w.1 = {} → t.dev.Ended r stSuccess n 0 0)))

/-- R358, R318: PROGRAM_LOAD validates the image and gives it the next handle, and nothing may write the image from then
on; PROGRAM_UNLOAD gives the handle up. -/
def Obligations.ProgramLoadUnload : Prop :=
  ∀ (s : State) (r : CmdRef) (c : Cmd) (e : Env) (p : Part), s.dev.part r.f = some p →
    (∀ a n, s.dev.Ready r 0x20 c → hdrOk c.desc 0 [(8, 16)] = true → a = field c.desc 8 8 → n = field c.desc 0x10 8 →
      (a % 64 ≠ 0 → ∃ t, exec (.programLoad r e) s = .next t ∧ t.dev.Ended r stInvalidField 0 0 0) ∧
      (a % 64 = 0 → s.dev.ownedRange r.f a n = false →
        ∃ t, exec (.programLoad r e) s = .next t ∧ t.dev.Ended r stAddrRange 0 0 0) ∧
      ∀ z, z = s.dev.read r.f e a n → a % 64 = 0 → s.dev.ownedRange r.f a n = true → z.1.marks.clear = true →
        (validateImage s.dev.trust.ftLevel z.1.bytes n ≠ stSuccess →
          ∃ t, exec (.programLoad r e) s = .next t ∧
            t.dev.Ended r (validateImage s.dev.trust.ftLevel z.1.bytes n) 0 0 0) ∧
        (validateImage s.dev.trust.ftLevel z.1.bytes n = stSuccess → ∀ q, z.2.part r.f = some q →
          (256 ≤ q.progs.length → ∃ t, exec (.programLoad r e) s = .next t ∧ t.dev.Ended r stProgSpace 0 0 0) ∧
          (q.progs.length < 256 → q.nextHandle < 2 ^ 32 → ∃ t, exec (.programLoad r e) s = .next t ∧
            t.dev.Ended r stSuccess 0 q.nextHandle 0 ∧
            t.dev.part r.f = some { q with progs := kset q.progs q.nextHandle { addr := a, size := n, image := z.1.bytes },
                                           nextHandle := q.nextHandle + 1 } ∧
            ∀ i, i < n → t.dev.writable r.f (a + i) 1 = false))) ∧
    (∀ h, s.dev.Ready r 0x21 c → hdrOk c.desc 0 [(8, 4)] = true → h = field c.desc 8 4 →
      (kfind p.progs h = none → ∃ t, exec (.programUnload r) s = .next t ∧ t.dev.Ended r stProgUnknown 0 0 0) ∧
      (∀ g, kfind p.progs h = some g →
        ((∃ x ∈ s.dev.ctxs, p.recBase ≤ x.1 ∧ x.1 < p.recBase + p.recCount ∧ x.2.cstate ≠ 0 ∧ x.2.prog = h) ∨
            (∃ x ∈ s.dev.runs, x.2.part = r.f ∧ x.2.prog = h) →
          ∃ t, exec (.programUnload r) s = .next t ∧ t.dev.Ended r stProgBusy 0 0 0 ∧ t.dev.part r.f = some p) ∧
        (s.dev.progUsed r.f p h = false → ∃ t, exec (.programUnload r) s = .next t ∧ t.dev.Ended r stSuccess 0 0 0 ∧
          t.dev.part r.f = some { p with progs := kdel p.progs h })))

/-- R112, R354, R360: what turns a GRAPH_RUN away, and how one that its checks let through starts: with a run of its own,
once no earlier command of its pair claims a core of it and its cores are free. -/
def Obligations.GraphRunStarts : Prop :=
  ∀ (s : State) (r : CmdRef) (c : Cmd) (p : Part), s.dev.Ready r 0x23 c → s.dev.part r.f = some p →
    hdrOk c.desc 0 [(8, 0x30)] = true → exec (.commandStart r) s = exec (.graphRun r) s ∧
    (setBits 128 (field c.desc 0x10 16) = [] ∨ field c.desc 0x20 8 % 32 ≠ 0 ∨ field c.desc 0x28 8 % 32 ≠ 0 →
      ∃ t, exec (.graphRun r) s = .next t ∧ t.dev.Ended r stInvalidField 0 0 0) ∧
    (setBits 128 (field c.desc 0x10 16) ≠ [] → field c.desc 0x20 8 % 32 = 0 → field c.desc 0x28 8 % 32 = 0 →
      (kfind p.progs (field c.desc 8 4) = none →
        ∃ t, exec (.graphRun r) s = .next t ∧ t.dev.Ended r stProgUnknown 0 0 0) ∧
      ∀ pg, kfind p.progs (field c.desc 8 4) = some pg →
        ((parseImage pg.image).layers ≤ field c.desc 0x0C 2 ∨
            (layerProgs pg.image (field c.desc 0x0C 2)).length ≤ field c.desc 0x0E 2 →
          ∃ t, exec (.graphRun r) s = .next t ∧ t.dev.Ended r stInvalidField 0 0 0) ∧
        (field c.desc 0x0C 2 < (parseImage pg.image).layers →
            field c.desc 0x0E 2 < (layerProgs pg.image (field c.desc 0x0C 2)).length →
          ((∃ g ∈ setBits 128 (field c.desc 0x10 16), g ∉ p.cores) →
            ∃ t, exec (.graphRun r) s = .next t ∧ t.dev.Ended r stNotOwned 0 0 0) ∧
          ((∀ g ∈ setBits 128 (field c.desc 0x10 16), g ∈ p.cores) →
            (∀ d, s.dev.graphCheck r c pg = .inl d → ∃ t y, exec (.graphRun r) s = .next t ∧ t.dev = d ∧
              t.dev.cmd r = some y ∧ y.phase = .ended) ∧
            (∀ g, s.dev.graphCheck r c pg = .inr g →
              (s.dev.earlierOnCores r c.coreSet = true ∨ s.dev.coresFree (g.run.cores.map (·.core)) = false →
                exec (.graphRun r) s = .next s) ∧
              (s.dev.earlierOnCores r c.coreSet = false → s.dev.coresFree (g.run.cores.map (·.core)) = true →
                ∃ t y x, exec (.graphRun r) s = .next t ∧ t.dev.cmd r = some y ∧ y.phase = .running ∧
                  t.dev.run s.dev.nextRun = some x ∧ t.dev.nextRun = s.dev.nextRun + 1 ∧ x.cmd = some r ∧
                  x.part = r.f ∧ x.layer = field c.desc 0x0C 2 ∧ x.index = field c.desc 0x0E 2 ∧
                  x.seed = field c.desc 0x30 8 ∧ x.limitMs = (s.dev.fn r.f).sch.limitMs ∧
                  ∀ k ∈ x.cores, (t.dev.core k.core).clk = .hot)))))

/-- R257 to R259, R358, R449, R472: what turns a PACK away, and how one that starts ends: with TIME_LIMIT, with
WEIGHT_FORMAT, with PACK_SPACE, or with its region written. No cup of the partition stays shut; what crosses the
package is charged and no more. -/
def Obligations.PackEnds : Prop :=
  ∀ (s : State) (r : CmdRef) (c : Cmd) (e : Env) (p : Part), s.dev.Ready r 0x22 c → s.dev.part r.f = some p →
    hdrOk c.desc 0 [(8, 24)] = true →
    (setBits 128 (field c.desc 0x10 16) = [] → ∃ t, exec (.pack r e) s = .next t ∧ t.dev.Ended r stInvalidField 0 0 0) ∧
    (setBits 128 (field c.desc 0x10 16) ≠ [] →
      ((∃ g ∈ setBits 128 (field c.desc 0x10 16), g ∉ p.cores) →
        ∃ t, exec (.pack r e) s = .next t ∧ t.dev.Ended r stNotOwned 0 0 0) ∧
      ((∀ g ∈ setBits 128 (field c.desc 0x10 16), g ∈ p.cores) →
        (s.dev.ownedRange r.f (field c.desc 8 8) 64 = false →
          ∃ t, exec (.pack r e) s = .next t ∧ t.dev.Ended r stAddrRange 0 0 0) ∧
        ∀ z x, s.dev.ownedRange r.f (field c.desc 8 8) 64 = true → z = s.dev.read r.f e (field c.desc 8 8) 64 →
          x = parsePackRec z.1.bytes → z.1.marks.clear = true →
          (packRecOk z.1.bytes = false → ∃ t, exec (.pack r e) s = .next t ∧ t.dev.Ended r stInvalidField 0 0 0) ∧
          (packRecOk z.1.bytes = true → x.formatOk = true → x.sfmt < 5 →
            x.runs.all (fun q => s.dev.ownedRange r.f q.1 q.2) = true → s.dev.writable r.f x.dst x.dstBytes = true →
            c.coreSet.any s.dev.coreFenced = false → s.dev.earlierOnCores r c.coreSet = false →
            s.dev.coresFree c.coreSet = true → (∀ j, s.dev.cupShut r.f j = false) →
            (e.expired = true → ∃ t y, exec (.pack r e) s = .next t ∧ t.dev.cmd r = some y ∧ y.phase = .ended ∧
              y.status = stTimeLimit) ∧
            (e.expired = false → ∃ u, ∀ q, q = ({ z.2 with cups := u } : Dev).packRead r.f e x → q.2.1.clear = true →
              (q.1.ok x = false → ∃ t, exec (.pack r e) s = .next t ∧ t.dev.Ended r stWeightFormat 0 0 0) ∧
              (q.1.ok x = true → x.dstBytes < x.need →
                ∃ t, exec (.pack r e) s = .next t ∧ t.dev.Ended r stPackSpace 0 0 0) ∧
              (q.1.ok x = true → x.need ≤ x.dstBytes → ∃ v t y, exec (.pack r e) s = .next t ∧ t.dev.cmd r = some y ∧
                y.phase = .ended ∧ ∀ w, w = ({ q.2.2 with cups := v } : Dev).packWrite r e x
                  (packTables x (x.order.map (fun k => (k, q.1.tileElems x k.1 k.2.1 k.2.2))))
                  ((c.coreSet.map (· / 8)).eraseDups) → t.dev.mem = w.mem ∧ t.dev.cmd r = w.cmd r)))))

/-- R315, R324, R326, R364: CTX_CREATE makes a context of the next generation at STEP 0, runnable where it has a step to
run, and turns a taken record, an unknown program and a pinned context beyond Q / 2 of its parity away. Another
context is as it was, but for the one whose entry a pinned context takes. R327, R364: CTX_RETIRE of contexts whose
step is not in flight frees them and ends; a context in a step is marked, and the command waits for it. A stale handle
ends the command before any context changes. -/
def Obligations.ContextLifecycle : Prop :=
  (∀ (s : State) (r : CmdRef) (c : Cmd) (x : Part) (i : Nat), s.dev.Ready r 0x25 c → s.dev.part r.f = some x →
    hdrOk c.desc 3 [(8, 0x38)] = true → i = field c.desc 8 4 → bit (byteAt c.desc 2) 1 = false → field c.desc 0x38 8 = 0 →
    field c.desc 0x30 8 < 2 ^ 48 →
    (i < x.recBase ∨ x.recBase + x.recCount ≤ i → ∃ t, exec (.ctxCreate r) s = .next t ∧ t.dev.Ended r stInvalidField 0 0 0) ∧
    (x.recBase ≤ i → i < x.recBase + x.recCount →
      (kfind x.progs (field c.desc 0x0C 4) = none →
        ∃ t, exec (.ctxCreate r) s = .next t ∧ t.dev.Ended r stProgUnknown 0 0 0) ∧
      ((kfind x.progs (field c.desc 0x0C 4)).isSome = true →
        ((s.dev.ctx i).cstate ≠ 0 → ∃ t, exec (.ctxCreate r) s = .next t ∧ t.dev.Ended r stCtxSpace 0 0 0 ∧
          t.dev.ctxs = s.dev.ctxs) ∧
        ((s.dev.ctx i).cstate = 0 → bit (byteAt c.desc 2) 0 = true → x.quota / 2 ≤ s.dev.pinCount x (i % 2) →
          ∃ t, exec (.ctxCreate r) s = .next t ∧ t.dev.Ended r stCtxPinLimit 0 0 0 ∧ t.dev.ctxs = s.dev.ctxs) ∧
        ((s.dev.ctx i).cstate = 0 → (bit (byteAt c.desc 2) 0 = true → s.dev.pinCount x (i % 2) < x.quota / 2) →
          ∀ gen, gen = (match kfind s.dev.ctxs i with | some y => (y.gen + 1) % 4096 | none => 0) →
          ∃ t y, exec (.ctxCreate r) s = .next t ∧ t.dev.Ended r stSuccess 0 (gen * 2 ^ 20 + i) 0 ∧ t.dev.ctx i = y ∧
            y.gen = gen ∧ y.cstate = (if field c.desc 0x30 8 = 0 then 1 else 2) ∧ y.step = 0 ∧ y.point = 0 ∧
            y.target = field c.desc 0x30 8 ∧ y.seed = field c.desc 0x10 8 ∧ y.prog = field c.desc 0x0C 4 ∧
            y.statePtr = field c.desc 0x18 8 ∧ y.ringPtr = field c.desc 0x20 8 ∧ y.ioPtr = field c.desc 0x28 8 ∧
            y.pinned = bit (byteAt c.desc 2) 0 ∧ ∃ v : Option Nat, (bit (byteAt c.desc 2) 0 = false → v = none) ∧
              ∀ k, k ≠ i → t.dev.ctx k = (if v = some k then { s.dev.ctx k with resident := false } else s.dev.ctx k))))) ∧
  (∀ (s : State) (r : CmdRef) (c : Cmd) (x : Part) (z : List Bytes × Marks × Dev) (l : List Nat), s.dev.Ready r 0x26 c →
    s.dev.part r.f = some x → hdrOk c.desc 0 [(8, 12)] = true → 1 ≤ field c.desc 0x10 4 → field c.desc 0x10 4 ≤ 65536 →
    field c.desc 8 8 % 4 = 0 → z = s.dev.readList r.f [(field c.desc 8 8, 4 * field c.desc 0x10 4)] → z.2.1.clear = true →
    l = handles (z.1.headD []) →
    (∀ k, l.findIdx? (fun h => (s.dev.byHandle x h).isNone) = some k →
      ∃ t, exec (.ctxRetire r) s = .next t ∧ t.dev.Ended r stCtxStale 0 0 k ∧ t.dev.ctxs = s.dev.ctxs) ∧
    (∀ (ids : List Nat), l.map (s.dev.byHandle x) = ids.map some →
      (∀ i ∈ ids, s.dev.inStep x i = false) →
      ∃ t, exec (.ctxRetire r) s = .next t ∧ t.dev.Ended r stSuccess 0 0 0 ∧ (∀ i ∈ ids, (t.dev.ctx i).cstate = 0) ∧
        ∀ k, k ∉ ids → t.dev.ctx k = s.dev.ctx k) ∧
    (∀ (ids : List Nat), l.map (s.dev.byHandle x) = ids.map some → (∃ i ∈ ids, s.dev.inStep x i = true) →
      ∃ t y, exec (.ctxRetire r) s = .next t ∧ t.dev.cmd r = some y ∧ y.phase = .running ∧
        y.retiring = (ids.filter (s.dev.inStep x)).eraseDups ∧
        ∀ i ∈ ids, s.dev.inStep x i = true → (t.dev.ctx i).retire = true ∧ (t.dev.ctx i).step = (s.dev.ctx i).step))

/-- R320, R361, R362: what turns a ROLLOUT_STEP away, and what one that passes its checks does to each of its contexts:
TARGET rises by STEPS and sticks at 2^48 - 1, the context takes the command's pair, tag and input, and STEP stays. -/
def Obligations.RolloutStepTargets : Prop :=
  ∀ (s : State) (r : CmdRef) (c : Cmd) (x : Part) (n : Nat), s.dev.Ready r 0x24 c → s.dev.part r.f = some x →
    hdrOk c.desc 7 [(8, 5), (0x10, 0x28)] = true → n = byteAt c.desc 0x0C → n ≤ 8 → field c.desc 0x10 8 % 4 = 0 →
    (n = 0 ↔ field c.desc 0x20 8 = 0) → field c.desc 0x28 8 % 8 = 0 →
    (field c.desc 0x18 4 = 0 ∨ 65536 < field c.desc 0x18 4 →
      ∃ t, exec (.rolloutStep r) s = .next t ∧ t.dev.Ended r stInvalidField 0 0 0) ∧
    (1 ≤ field c.desc 0x18 4 → field c.desc 0x18 4 ≤ 65536 →
      (kfind x.progs (field c.desc 8 4) = none →
        ∃ t, exec (.rolloutStep r) s = .next t ∧ t.dev.Ended r stProgUnknown 0 0 0) ∧
      ∀ pg z tab, kfind x.progs (field c.desc 8 4) = some pg →
        z = s.dev.readList r.f ((field c.desc 0x10 8, 4 * field c.desc 0x18 4) ::
          (if n = 0 then [] else [(field c.desc 0x20 8, 32 * n)])) → tab = z.1.getD 1 [] → z.2.1.clear = true →
        (∀ k < n, zeroAt tab (32 * k + 4) 4 = true ∧ field tab (32 * k + 0x18) 8 % 32 = 0 ∧
          ∀ g ∈ (parseStageEnt tab k).cores, zeroAt (z.2.2.peek r.f g.2 96) 0x4C 20 = true) →
        ∀ l, l = handles (z.1.headD []) →
          (∀ k, l.findIdx? (fun h => ((s.dev.byHandle x h).filter (fun i => (s.dev.ctx i).cstate != 0)).isNone) = some k →
            ∃ t, exec (.rolloutStep r) s = .next t ∧ t.dev.Ended r stCtxStale 0 0 k) ∧
          ∀ (ids : List Nat), l.map (s.dev.byHandle x) = ids.map some → (∀ i ∈ ids, (s.dev.ctx i).cstate ≠ 0) →
            (∀ k, ids.findIdx? (fun i => (s.dev.ctx i).prog != field c.desc 8 4) = some k →
              ∃ t, exec (.rolloutStep r) s = .next t ∧ t.dev.Ended r stCtxProgram 0 0 k) ∧
            ((∀ i ∈ ids, (s.dev.ctx i).prog = field c.desc 8 4) →
              (∀ e, Dev.rollFails x pg c tab = some e → ∃ t, exec (.rolloutStep r) s = .next t ∧ t.dev.Ended r e 0 0 0) ∧
              (Dev.rollFails x pg c tab = none → ∃ t k, exec (.rolloutStep r) s = .next t ∧
                t.dev.Ended r stSuccess k 0 0 ∧ (∀ i, i ∉ ids → t.dev.ctx i = s.dev.ctx i) ∧
                ∀ i ∈ ids, ids.Nodup → (t.dev.ctx i).step = (s.dev.ctx i).step ∧
                  (t.dev.ctx i).target = min ((s.dev.ctx i).target + field c.desc 0x1C 4) (2 ^ 48 - 1) ∧
                  (t.dev.ctx i).qp = r.q ∧ (t.dev.ctx i).tag = c.tag ∧ (t.dev.ctx i).inputSem = field c.desc 0x28 8 ∧
                  (t.dev.ctx i).inputBase = field c.desc 0x30 8)))

/-- R322, R323: a residency decision takes the oldest parked context of its parity: into a free entry at once, or in
exchange for the victim, which SWAP moves out. A context gives its entry up only to a swap. R130, R132, R325: a
resident runnable context joins the forming batch of its program, point and bucket and is RUNNING; the batch closes
once its rows reach BAND_ROWS for each core in service, or at the end of its window. -/
def Obligations.ResidencyAndBatches : Prop :=
  (∀ (s : State) (p j i : Nat) (x : Part), s.dev.part p = some x →
    (x.parked.find? (fun e => e.1 == j) = none → exec (.residencyDecision p j) s = .next s) ∧
    (x.parked.find? (fun e => e.1 == j) = some (j, i) →
      (s.dev.entriesUsed x j < x.quota / 2 → ∃ t y, exec (.residencyDecision p j) s = .next t ∧ t.dev.part p = some y ∧
        y.parked = x.parked.filter (fun e => e.2 != i) ∧ y.moves = x.moves ∧
        t.dev.ctx i = { s.dev.ctx i with resident := true } ∧ ∀ k, k ≠ i → t.dev.ctx k = s.dev.ctx k) ∧
      (x.quota / 2 ≤ s.dev.entriesUsed x j → ∀ v, s.dev.victim x j = some v →
        ∃ t y, exec (.residencyDecision p j) s = .next t ∧ t.dev.part p = some y ∧ t.dev.ctxs = s.dev.ctxs ∧
          y.parked = x.parked.filter (fun e => e.2 != i) ∧
          y.moves = x.moves ++ [{ parity := j, cand := some i, victim := some v }])) ∧
    (∀ m v, x.moves.find? (fun m => m.parity == j) = some m → m.cand = some i → m.victim = some v → v ≠ i →
      ∃ t, exec (.swap p j) s = .next t ∧ t.dev.ctx i = { s.dev.ctx i with resident := true } ∧
        t.dev.ctx v = { s.dev.ctx v with resident := false, readyAt := s.dev.jdAo v } ∧
        ∀ k, k ≠ i → k ≠ v → t.dev.ctx k = s.dev.ctx k)) ∧
  (∀ (s : State) (p b i : Nat) (x : Part),
    (∀ pg st n z, s.dev.ctxPart i = some (p, x) → s.dev.part p = some x → (s.dev.ctx i).cstate = 2 → (s.dev.ctx i).resident = true →
      x.suspended = false → x.reclaim = .none → x.leaving i = false →
      kfind x.progs (s.dev.ctx i).prog = some pg → pg.stages[(s.dev.ctx i).point]? = some st →
      s.dev.inputBlocks p x (s.dev.ctx i) = false → n = st.band pg.image * (s.dev.stageCores st).length →
      x.batches.find? (fun e => !e.2.closed && e.2.prog == (s.dev.ctx i).prog && e.2.point == (s.dev.ctx i).point
        && e.2.bucket == (s.dev.ctx i).bucket) = some (b, z) → (z.ctxs.length + 1) * (parseRollout pg.image).rows ≤ n →
      ∃ t y w, exec (.contextJoin i) s = .next t ∧ t.dev.ctx i = { s.dev.ctx i with cstate := 3 } ∧
        (∀ k, k ≠ i → t.dev.ctx k = s.dev.ctx k) ∧ t.dev.part p = some y ∧ kfind y.batches b = some w ∧
        w.prog = (s.dev.ctx i).prog ∧ w.point = (s.dev.ctx i).point ∧ w.bucket = (s.dev.ctx i).bucket ∧
        ((z.ctxs.length + 1) * (parseRollout pg.image).rows < n → w.ctxs = z.ctxs ++ [i] ∧ w.closed = false) ∧
        ((z.ctxs.length + 1) * (parseRollout pg.image).rows = n → w.closed = true)) ∧
    (∀ z, s.dev.part p = some x → kfind x.batches b = some z → z.closed = false → z.ctxs ≠ [] →
      ∃ t y w, exec (.batchWindow p b) s = .next t ∧ t.dev.part p = some y ∧ kfind y.batches b = some w ∧
        w.closed = true ∧ w.prog = z.prog ∧ w.point = z.point ∧ t.dev.ctxs = s.dev.ctxs))

/-- R173, R319: when a pass starts, and what the end of one does to each context that it served and that its entry still
holds: on the last stage a step is done, on another the context enters the next, where no earlier step of it is in
flight; a failed pass leaves STEP and POINT. -/
def Obligations.PassesStep : Prop :=
  ∀ (s : State) (p b rid : Nat) (x : Part) (z : Batch) (pg : Prog),
    (∀ st, s.dev.part p = some x → kfind x.batches b = some z → kfind x.progs z.prog = some pg → z.closed = true → z.running = false →
      x.suspended = false → x.reclaim = .none → pg.stages[z.point]? = some st →
      (s.dev.stageReady p x z pg.stages.length (parseRollout pg.image).feedback = false ∨ s.dev.inputsWait p x z = true →
        exec (.passStart p b) s = .next s) ∧
      (∀ x0 cores twins g, s.dev.stageReady p x z pg.stages.length (parseRollout pg.image).feedback = true →
        s.dev.inputsWait p x z = false → cores = st.cores.filter (fun g => !s.dev.coreFenced g.1) → cores ≠ [] →
        x0 = { part := p, prog := z.prog, layer := st.first, last := st.last, batch := b, stage := z.point,
               limitMs := (s.dev.fn p).sch.limitMs, ctxs := z.ctxs } →
        twins = Run.twins x0 pg.image (cores.map (·.1)) → twins.any s.dev.coreFenced = false →
        s.dev.coresFree (cores.map (·.1) ++ twins) = true → s.dev.passCheck p x z pg x0 cores = .inr g →
        ∃ t y, exec (.passStart p b) s = .next t ∧ t.dev.run g.dev.nextRun = some y ∧ y.cmd = none ∧ y.part = p ∧
          y.batch = b ∧ y.stage = z.point ∧ y.layer = st.first ∧ y.last = st.last ∧
          y.limitMs = (s.dev.fn p).sch.limitMs ∧ ∀ k ∈ y.cores, (t.dev.core k.core).clk = .hot)) ∧
    (∀ y, s.dev.run rid = some y → y.cmd = none →
      (y.ended = false → (∃ c ∈ y.cores, c.todo ≠ []) → exec (.passComplete rid) s = .next s) ∧
      (y.ended = true → s.dev.stuck y.release = true → y.marks = {} → exec (.passComplete rid) s = .next s) ∧
      (∀ g, y.ended = true → s.dev.stuck y.release = false → s.dev.runProg y = some g →
        (∀ i ∈ y.ctxs, (s.dev.ctx i).step < 2 ^ 48 - 1) →
        ∃ t, exec (.passComplete rid) s = .next t ∧ t.dev.run rid = none ∧
          (∀ i, i ∉ y.ctxs → (t.dev.ctx i).step = (s.dev.ctx i).step ∧ (t.dev.ctx i).point = (s.dev.ctx i).point ∧
            (t.dev.ctx i).target = (s.dev.ctx i).target) ∧
          ∀ i, y.ctxs.count i = 1 → (t.dev.ctx i).target = (s.dev.ctx i).target ∧
            (stOk (y.marks.final stSuccess).1 = false → (t.dev.ctx i).step = (s.dev.ctx i).step ∧
              (t.dev.ctx i).point = (s.dev.ctx i).point) ∧
            ∀ q w, s.dev.part y.part = some q → kfind q.batches y.batch = some w → w.ctxs.contains i = true → y.marks = {} →
              (g.stages.length ≤ y.stage + 1 → (t.dev.ctx i).step = (s.dev.ctx i).step + 1 ∧
                (t.dev.ctx i).point = 0 ∧ (t.dev.ctx i).lastStatus = 0) ∧
              (y.stage + 1 < g.stages.length → q.before w i = 0 → (t.dev.ctx i).step = (s.dev.ctx i).step ∧
                (t.dev.ctx i).point = y.stage + 1)))

/-- R453 to R455, R465: the effective cap, what a write of cap or mode does, and what a pass of the power loop sheds:
nothing where the demand fits, else between the floors of each class, and starts are withheld exactly where the floors
do not fit. That the delivered power is 92% of the input is the spec's figure (R452); its rounding is the model's (log
33). -/
def Obligations.PowerBudget : Prop :=
  ∀ (s : State) (w m a b c e f : Nat) (x : Demand) (need : Nat), s.dev.regsLive = true →
    s.dev.pwr.effCap = min (min s.dev.pwr.cap s.dev.pwr.capMgmt) (if s.dev.pwr.mode = 3 then 700 else 1200) ∧
    (400 ≤ w → w ≤ 1200 → ∃ t, exec (.pwrCap w) s = .next t ∧ t.dev.pwr = { s.dev.pwr with cap := w }) ∧
    (w < 400 ∨ 1200 < w → exec (.pwrCap w) s = .next s) ∧
    (m < 4 → ∃ t, exec (.pwrMode m) s = .next t ∧ t.dev.pwr = { s.dev.pwr with mode := m }) ∧
    (4 ≤ m → exec (.pwrMode m) s = .next s) ∧
    (x = { arrays := a, periph := b, pots := c, mem := e, io := f } → need = x.total - s.dev.pwr.allowed →
      ∃ t, exec (.powerLoop a b c e f) s = .next t ∧
        10 ≤ t.dev.pwr.clk ∧ t.dev.pwr.clk ≤ 19 ∧ 50 ≤ t.dev.pwr.duty ∧ t.dev.pwr.duty ≤ 100 ∧
        (t.dev.pwr.duty < 100 → t.dev.pwr.clk = 10) ∧ t.dev.pwr.cap = s.dev.pwr.cap ∧ t.dev.pwr.mode = s.dev.pwr.mode ∧
        (need = 0 → t.dev.pwr.clk = 19 ∧ t.dev.pwr.mem = 100 ∧ t.dev.pwr.link = 100 ∧ t.dev.pwr.duty = 100) ∧
        (t.dev.pwr.withhold = true ↔
          (x.mem - 25500 - 4125) + (x.io - 4500 - 1000) + (x.compute 19 - ceilDiv (x.compute 10 * 50) 100) < need))

/-- R444, R448, R450, R451, R560: what a write to PWR_CUP_DATA answers, and what a cup holds after a boundary of its die:
the grant of its share, less the overdraft of the period before, of which what is beyond one grant is forgiven. -/
def Obligations.CupGrants : Prop :=
  ∀ (s : State) (v die p off : Nat) (x : Part),
    (s.dev.regsLive = true → p = s.dev.pwr.selPart → off = s.dev.pwr.selOff → s.dev.part p = some x →
      (off % 2 ≠ 0 ∨ 0x60 < off ∨ 1024 < v % 2048 ∨ bits v 14 11 ≠ 0 ∨ 65535 < v →
        ∃ t, exec (.pwrCupData v) s = .next t ∧ t.dev = s.dev.setPwr { s.dev.pwr with cupResult := 4 }) ∧
      (off % 2 = 0 → off ≤ 0x60 → v % 2048 ≤ 1024 → bits v 14 11 = 0 → v ≤ 65535 →
        ((if off = 0x58 then 992 else 1024) < s.dev.shareSum p off + v % 2048 →
          ∃ t, exec (.pwrCupData v) s = .next t ∧ t.dev = s.dev.setPwr { s.dev.pwr with cupResult := 2 }) ∧
        (s.dev.shareSum p off + v % 2048 ≤ (if off = 0x58 then 992 else 1024) →
          (off < 0x20 → v % 2048 < ceilDiv (1024 * s.dev.rowsOn p (off / 2)) 30720 →
            ∃ t, exec (.pwrCupData v) s = .next t ∧ t.dev = s.dev.setPwr { s.dev.pwr with cupResult := 3 }) ∧
          ((off < 0x20 → ceilDiv (1024 * s.dev.rowsOn p (off / 2)) 30720 ≤ v % 2048) →
            ∃ t y, exec (.pwrCupData v) s = .next t ∧ t.dev.pwr.cupResult = 1 ∧ t.dev.part p = some y ∧
              y.cups = x.cups ∧ (off, v) ∈ y.cupsNew ∧ ∀ o, o ≠ off → ∀ n, (o, n) ∈ y.cupsNew ↔ (o, n) ∈ x.cupsNew)))) ∧
    (s.dev.regsLive = true → s.dev.part s.dev.pwr.selPart = none →
      ∃ t, exec (.pwrCupData v) s = .next t ∧ t.dev = s.dev.setPwr { s.dev.pwr with cupResult := 4 }) ∧
    (∀ k r sh g, die < 20 → 1 ≤ p → s.dev.part p = some x → s.partsOk → (k, r) ∈ cupsOn die →
      sh = (match x.cupsNew.find? (fun e => e.1 == cupOff k) with | some e => e.2 | none => kget x.cups (cupOff k) 0) →
      g = sh % 2048 * r * s.dev.pwr.cupPeriod / 4096 →
      ∃ t y, exec (.cupPeriodBoundary die) s = .next t ∧ (t.dev.cupsOf die).period = s.dev.pwr.cupPeriod ∧
        t.dev.part p = some y ∧ kget y.cups (cupOff k) 0 = sh ∧ y.cupsNew.find? (fun e => e.1 == cupOff k) = none ∧
        kget (t.dev.cupsOf die).units (cupKey p k) 0 = g - min g (kget (s.dev.cupsOf die).drawn (cupKey p k) 0) ∧
        kget (t.dev.cupsOf die).drawn (cupKey p k) 0 = 0 ∧ cupKey p k ∉ (t.dev.cupsOf die).ranDry)

/-- R457 to R459, R464, R525, R534: calibration, the disagreement of estimate and measurement, samples of the input and
their loss, energy, and the alert bits that the input sets. R278, R460, R534, R540: what a thermal sample of a skillet
or a stack does at each limit, and what the coolant sets. -/
def Obligations.SensingAndHeat : Prop :=
  (∀ (s : State) (e m v i k : Nat) (gains : List Nat) (o : Int),
    (s.dev.pwr.disagree = false → s.dev.pwr.inputLost = false → ∃ t, exec (.calibration gains o) s = .next t ∧
      t.dev.sense.offset = o ∧ ∀ n, n < 16 → 800 ≤ gains.getD n 1000 → gains.getD n 1000 ≤ 1250 →
        t.dev.sense.gains.getD n 0 =
          if bit s.dev.pwr.trivetLost n then s.dev.sense.gains.getD n 1000 else gains.getD n 1000) ∧
    (s.dev.pwr.disagree = true ∨ s.dev.pwr.inputLost = true → exec (.calibration gains o) s = .next s) ∧
    (s.dev.pwr.disagree = false → s.dev.pwr.inputLost = false → 15 * m < 100 * ((e - m) + (m - e)) →
      ∃ t, exec (.disagreeTimeout e m) s = .next t ∧ t.dev.pwr = { s.dev.pwr with disagree := true, guard := true }) ∧
    (100 * ((e - m) + (m - e)) ≤ 15 * m → exec (.disagreeTimeout e m) s = .next s) ∧
    (s.dev.pwr.disagree = true → 10 * ((e - m) + (m - e)) ≤ m →
      ∃ t, exec (.agreeTimeout e m) s = .next t ∧ t.dev.pwr = { s.dev.pwr with disagree := false, guard := false }) ∧
    (∃ t, exec (.inputSample v i) s = .next t ∧ t.dev.sense.inputV = v ∧ t.dev.sense.inputI = i ∧
      (v * i ≤ 15000000 → t.dev.pwr.inputLost = false ∧ t.dev.mod.alert = s.dev.mod.alert ∧
        (s.dev.sense.energy + (s.dev.pwr.energyPart + v * i) / 100000 < 2 ^ 64 →
          t.dev.sense.energy * 100000 + t.dev.pwr.energyPart =
            s.dev.sense.energy * 100000 + s.dev.pwr.energyPart + v * i)) ∧
      (15000000 < v * i → t.dev.pwr.inputLost = true ∧ t.dev.sense.energy = s.dev.sense.energy ∧
        (s.dev.pwr.inputLost = false → bit t.dev.mod.alert 4 = true))) ∧
    (∃ t, exec (.inputSenseTimeout e) s = .next t ∧ t.dev.pwr.inputLost = true ∧ t.dev.pwr.energyEst = true ∧
      (s.dev.sense.energy + (s.dev.pwr.energyPart + 11000 * e) / 100000 < 2 ^ 64 →
        t.dev.sense.energy * 100000 + t.dev.pwr.energyPart =
          s.dev.sense.energy * 100000 + s.dev.pwr.energyPart + 11000 * e)) ∧
    (k < 16 → bit s.dev.pwr.trivetLost k = false → ∃ t, exec (.trivetTelemetryTimeout k) s = .next t ∧
      t.dev.pwr = { s.dev.pwr with trivetLost := s.dev.pwr.trivetLost + 2 ^ k }) ∧
    (v < 4400 ∨ 6000 < v → ∃ t, exec (.inputOutOfRange v) s = .next t ∧ bit t.dev.mod.alert 3 = true) ∧
    (4400 ≤ v → v ≤ 6000 → exec (.inputOutOfRange v) s = .next s)) ∧
  (∀ (s : State) (k : Nat) (c : Int) (a b : Int), k < 16 →
    (c ≤ 850 → s.dev.sense.warned = [] → s.dev.sense.throttled = [] → s.dev.sense.critical = [] →
      ∃ t, exec (.thermalSample [(.skillet k, c)]) s = .next t ∧ t.dev.skillets = s.dev.skillets ∧ t.dev.sense = s.dev.sense) ∧
    (1000 < c → c < 1100 → ∃ t, exec (.thermalSample [(.skillet k, c)]) s = .next t ∧
      k ∈ t.dev.sense.throttled ∧ k ∈ t.dev.sense.warned ∧
      (10 < (s.dev.skillet k).clk → (t.dev.skillet k).clk = (s.dev.skillet k).clk - 1 ∧
        (t.dev.skillet k).duty = (s.dev.skillet k).duty) ∧
      ((s.dev.skillet k).clk ≤ 10 → (t.dev.skillet k).clk = (s.dev.skillet k).clk ∧ (t.dev.skillet k).duty = 50)) ∧
    (k ∈ s.dev.sense.throttled → c ≤ 970 → ∃ t, exec (.thermalSample [(.skillet k, c)]) s = .next t ∧
      k ∉ t.dev.sense.throttled ∧ (t.dev.skillet k).clk = 19 ∧ (t.dev.skillet k).duty = 100) ∧
    (850 < c → c < 1000 → ∃ t, exec (.thermalSample [(.stack k, c)]) s = .next t ∧ (t.dev.stack k).hot = true) ∧
    (c ≤ 830 → ∃ t, exec (.thermalSample [(.stack k, c)]) s = .next t ∧ (t.dev.stack k).hot = false) ∧
    (1100 ≤ c → k ∉ s.dev.sense.critical → ∃ t, exec (.thermalSample [(.skillet k, c)]) s = .next t ∧
      bit t.dev.mod.alert 2 = true ∧ k ∈ t.dev.sense.critical) ∧
    (∃ t, exec (.coolantSample a b) s = .next t ∧ t.dev = s.dev.setSense { s.dev.sense with inlet := a, outlet := b }) ∧
    (150 < s.dev.sense.outlet - s.dev.sense.inlet → ∃ t, exec .coolantRise s = .next t ∧ bit t.dev.mod.alert 5 = true) ∧
    (s.dev.sense.outlet - s.dev.sense.inlet ≤ 150 → exec .coolantRise s = .next s))

/-- R330, R331, R357: PART_CREATE makes the partition that its specification asks for, or nothing, and answers the first
check that fails: a field, a core that is taken, retired or on a draining skillet, and then rows, records and the
rest. -/
def Obligations.PartitionAdmission : Prop :=
  ∀ (s : State) (r : CmdRef) (c : Cmd) (p : Nat) (b : Bytes), s.dev.Ready r 0x04 c →
    hdrOk c.desc 0 [(8, 1), (0x10, 8)] = true → p = byteAt c.desc 8 →
    (p = 0 ∨ 16 < p ∨ (s.dev.part p).isSome = true →
      ∃ t, exec (.partCreate r (.ok b)) s = .next t ∧ t.dev.Ended r stInvalidField 0 0 0) ∧
    (1 ≤ p → p ≤ 16 → s.dev.part p = none →
      (∃ t, exec (.partCreate r .failed) s = .next t ∧ t.dev.Ended r stHostAccess 0 0 0 ∧ t.dev.parts = s.dev.parts) ∧
      (specOk (padTo 512 b) = false → ∃ t, exec (.partCreate r (.ok b)) s = .next t ∧ t.dev.Ended r stInvalidField 0 0 0) ∧
      (specOk (padTo 512 b) = true → (∃ g ∈ setBits 128 (field (padTo 512 b) 0 16), (s.dev.core g).retired = true ∨
          bit s.dev.regs.drain (g / 8) = true ∨ ∃ e ∈ s.dev.parts, g ∈ e.2.cores) →
        ∃ t, exec (.partCreate r (.ok b)) s = .next t ∧ t.dev.Ended r stCoreBusy 0 0 0 ∧ t.dev.parts = s.dev.parts) ∧
      (∀ st, s.dev.admitPart p (padTo 512 b) 0 = .inr st → ∃ t, exec (.partCreate r (.ok b)) s = .next t ∧
        t.dev.Ended r st 0 0 0 ∧ t.dev.parts = s.dev.parts ∧ t.dev.regions = s.dev.regions ∧ t.dev.mem = s.dev.mem) ∧
      (∀ d, s.dev.admitPart p (padTo 512 b) 0 = .inl d → ∃ t y, exec (.partCreate r (.ok b)) s = .next t ∧
        t.dev.Ended r stSuccess 0 p 0 ∧ t.dev.part p = some y ∧ y.cores = setBits 128 (field (padTo 512 b) 0 16) ∧
        y.recCount = field (padTo 512 b) 0x10 4 ∧ y.quota = field (padTo 512 b) 0x14 2 ∧ y.qps = field (padTo 512 b) 0x16 2 ∧
        y.suspended = false ∧ y.reclaim = .none ∧ y.progs = [] ∧ y.recBase + y.recCount ≤ 2 ^ 20 ∧
        (∀ e ∈ s.dev.parts, y.recBase + y.recCount ≤ e.2.recBase ∨ e.2.recBase + e.2.recCount ≤ y.recBase) ∧
        (∀ q, q ≠ p → t.dev.part q = s.dev.part q) ∧ t.dev.mem = s.dev.mem))

/-- R332, R333: PART_SUSPEND holds what has not started and ends at once where nothing is in flight; PART_RESUME lets the
held commands start again. A partition that is not there, or is being reclaimed, gives NO_PARTITION. -/
def Obligations.PartitionSuspends : Prop :=
  ∀ (s : State) (r : CmdRef) (c : Cmd) (p : Nat) (b : Bytes) (x : Part), hdrOk c.desc 0 [(8, 1), (0x10, 8)] = true →
    p = byteAt c.desc 8 → 1 ≤ p → p ≤ 16 →
    (s.dev.Ready r 0x05 c → s.dev.part p = none ∨ (s.dev.part p = some x ∧ x.reclaim ≠ .none) →
      ∃ t, exec (.partSuspend r) s = .next t ∧ t.dev.Ended r stNoPartition 0 0 0) ∧
    (s.dev.Ready r 0x05 c → s.dev.part p = some x → x.reclaim = .none → s.dev.channelsOf p = [] →
      (∀ e ∈ s.dev.ctxs, e.2.retire = false) →
      (s.dev.runsOf p = false → (∀ e ∈ s.dev.qps, e.1 / 128 = p → e.2.cmds = []) →
        ∃ t y, exec (.partSuspend r) s = .next t ∧ t.dev.Ended r stSuccess 0 0 0 ∧ t.dev.part p = some y ∧ y.suspended = true ∧
          ∀ i, x.recBase ≤ i → i < x.recBase + x.recCount → (t.dev.ctx i).resident = false) ∧
      (s.dev.runsOf p = true → ∃ t y k, exec (.partSuspend r) s = .next t ∧ t.dev.cmd r = some k ∧ k.phase = .running ∧
        t.dev.part p = some y ∧ y.suspended = true ∧
        ∀ q z, q < 128 → s.dev.qp p q = some z → t.dev.qp p q = some z.hold)) ∧
    (s.dev.Ready r 0x06 c → s.dev.part p = none → ∃ t, exec (.partResume r (.ok b)) s = .next t ∧ t.dev.Ended r stNoPartition 0 0 0) ∧
    (s.dev.Ready r 0x06 c → s.dev.part p = some x → x.reclaim = .none → x.suspended = true → s.dev.channelsOf p = [] →
      s.dev.pairsOf p = [] →
      ∃ t, exec (.partResume r (.ok b)) s = .next t ∧ t.dev.Ended r stSuccess 0 0 0 ∧
        t.dev.part p = some { x with suspended := false })

/-- R334, R337, R389, R514: the stages of a reclaim. Quiesce aborts what has not started; scrub clears every byte of the
partition's regions; re-carve frees its contexts, which keep their generations; hand-over ends the command and takes
the partition away, with its cores given to the recipient where one is named. Each stage waits for the one before. -/
def Obligations.PartitionReclaims : Prop :=
  ∀ (s : State) (r : CmdRef) (c : Cmd) (p q : Nat) (x : Part), s.dev.part p = some x →
    (s.dev.Ready r 0x07 c → hdrOk c.desc 0 [(8, 2)] = true → p = byteAt c.desc 8 → q = byteAt c.desc 9 → 1 ≤ p → p ≤ 16 → q ≤ 16 →
      (q = p → ∃ t, exec (.partReclaim r) s = .next t ∧ t.dev.Ended r stInvalidField 0 0 0) ∧
      (q ≠ p → x.reclaim ≠ .none ∨ (q ≠ 0 ∧ s.dev.part q = none) →
        ∃ t, exec (.partReclaim r) s = .next t ∧ t.dev.Ended r stNoPartition 0 0 0) ∧
      (q ≠ p → x.reclaim = .none → q = 0 ∨ (s.dev.part q).isSome = true → s.dev.channelsOf p = [] →
        (∀ e ∈ s.dev.ctxs, e.2.retire = false) →
        ∃ t y k, exec (.partReclaim r) s = .next t ∧ t.dev.cmd r = some k ∧ k.phase = .running ∧ t.dev.part p = some y ∧
          y.reclaim = .quiesce ∧ y.recipient = q ∧ y.reclaimBy = some r ∧
          ∀ n z, n < 128 → s.dev.qp p n = some z → t.dev.qp p n = some z.abortWaiting.1)) ∧
    (x.reclaim ≠ .quiesce ∨ s.dev.quiet p x = false → exec (.scrub p) s = .next s) ∧
    (x.reclaim = .quiesce → s.dev.quiet p x = true → ∃ t y, exec (.scrub p) s = .next t ∧ t.dev.part p = some y ∧
      y.reclaim = .scrubbed ∧ y.tier.page = [] ∧
      ∀ n g i, (n, g) ∈ s.dev.regions → g.part = p → ∀ k ∈ setBits 16 g.mask, s.dev.stackOut k = false →
        g.rowBase * 2 ^ 22 ≤ i → i < (g.rowBase + g.size / ((setBits 16 g.mask).length * 2 ^ 22)) * 2 ^ 22 →
        mget t.dev.mem (k * 2 ^ 37 + i) = memDefault) ∧
    (x.reclaim ≠ .scrubbed → exec (.reCarve p) s = .next s) ∧
    (x.reclaim = .scrubbed → s.dev.channelsOf p = [] → ∃ t y, exec (.reCarve p) s = .next t ∧ t.dev.part p = some y ∧
      y.reclaim = .carved ∧ y.progs = [] ∧ y.batches = [] ∧ y.parked = [] ∧
      (∀ i, x.recBase ≤ i → i < x.recBase + x.recCount → (t.dev.ctx i).cstate = 0 ∧ (t.dev.ctx i).gen = (s.dev.ctx i).gen) ∧
      ∀ i, i < x.recBase ∨ x.recBase + x.recCount ≤ i → t.dev.ctx i = s.dev.ctx i) ∧
    (x.reclaim ≠ .carved → exec (.handOver p) s = .next s) ∧
    (x.reclaim = .carved → x.reclaimBy = some r → s.dev.cmd r = some c → c.marks = {} →
      s.dev.fab.pod.locals = [] → (x.recipient = 0 ∨ s.dev.part x.recipient = none →
        ∃ t, exec (.handOver p) s = .next t ∧ t.dev.part p = none ∧ t.dev.Ended r stSuccess 0 0 0 ∧
          (∀ e ∈ t.dev.regions, e.2.part ≠ p) ∧ ∀ m, m ≠ p → t.dev.part m = s.dev.part m) ∧
      (∀ y, x.recipient ≠ 0 → x.recipient ≠ p → s.dev.part x.recipient = some y → y.reclaim = .none →
        ∃ t z, exec (.handOver p) s = .next t ∧ t.dev.part p = none ∧ t.dev.Ended r stSuccess 0 0 0 ∧
          t.dev.part x.recipient = some z ∧
          ∀ g, g ∈ z.cores ↔ g ∈ y.cores ∨ (g ∈ x.cores ∧ bit s.dev.regs.drain (g / 8) = false)))

/-- R66, R107 to R109: the scoreboard operation at the head of a core's work. A SET adds; one that would pass 65,535 ends
the command with SCOREBOARD_OVERFLOW; a WAIT of the core takes what it waited for, and a junction WAIT takes nothing;
a WAIT that is not met stays. The work behind it waits for a tile; the run waits for no stockpot space. A junction SET
counts once its writes are visible, which JUNCTION_SET is, oldest first. R108, R109: a junction WAIT compares by
serial number: it is met exactly where the count is at most 2^31 - 1 ahead of the epoch and the value together, modulo
2^32. -/
def Obligations.RunEventsAct : Prop :=
  (∀ (s : State) (g rid : Nat) (f : Option PassFault) (e : Env) (x : Run) (c : CoreRun) (p : Part) (pg : Prog) (w v : Work)
    (l : List Work) (o : SbD) (n : Nat),
    (s.dev.runOn g = some (rid, x) → x.coreAt g = some c → s.dev.part x.part = some p → s.dev.runProg x = some pg →
      c.done = false → x.waits = false → c.todo = w :: v :: l → (∀ j, s.dev.jobFor x c e v = some j → j.awaits c = true) → w.sb.isSome = true → sbOf pg.image w = some o → v.sb = none →
      (∀ i ∈ x.layers pg.image, (parseLayer pg.image i).escalate = false) → n = kget c.sb o.entry 0 →
      (o.op = 2 → o.scope = 0 → n + o.value ≤ 65535 → ∃ t y, exec (.tilePass g f e) s = .next t ∧ t.dev.run rid = some y ∧
        y.coreAt g = some { c with todo := v :: l, sb := kset c.sb o.entry (n + o.value) }) ∧
      (o.op = 2 → o.scope = 0 → 65535 < n + o.value → ∃ t y, exec (.tilePass g f e) s = .next t ∧
        t.dev.run rid = some y ∧ y.marks = x.marks.join (.fail stScoreboardOverflow) ∧
        ∀ k ∈ y.cores, k.done = true ∧ k.todo = []) ∧
      (o.op = 2 → o.scope ≠ 0 → ∃ t y z, exec (.tilePass g f e) s = .next t ∧ t.dev.run rid = some y ∧
        y.coreAt g = some { c with todo := v :: l } ∧ t.dev.part x.part = some z ∧
        z.jsets = p.jsets ++ [{ idx := o.entry, value := o.value }] ∧ z.jsb = p.jsb) ∧
      (o.op ≠ 2 → o.scope = 0 → o.value ≤ n → ∃ t y, exec (.tilePass g f e) s = .next t ∧ t.dev.run rid = some y ∧
        y.coreAt g = some { c with todo := v :: l, sb := kset c.sb o.entry (n - o.value) }) ∧
      (o.op ≠ 2 → o.scope ≠ 0 → junctionMet (kget p.jsb o.entry 0) (instEpoch c.inst) o.value = true →
        ∃ t y, exec (.tilePass g f e) s = .next t ∧ t.dev.run rid = some y ∧ y.coreAt g = some { c with todo := v :: l }) ∧
      (o.op ≠ 2 → (o.scope = 0 ∧ n < o.value) ∨
          (o.scope ≠ 0 ∧ junctionMet (kget p.jsb o.entry 0) (instEpoch c.inst) o.value = false) →
        ∃ t y, exec (.tilePass g f e) s = .next t ∧ t.dev.run rid = some y ∧ y.coreAt g = some c)) ∧
    (∀ j js, s.dev.part n = some p → p.jsets = j :: js → ∃ t, exec (.junctionSet n) s = .next t ∧
      t.dev.part n = some { p with jsets := js, jsb := kset p.jsb j.idx ((kget p.jsb j.idx 0 + j.value) % 2 ^ 32) } ∧
      ∀ m, m ≠ n → t.dev.part m = s.dev.part m) ∧
    (s.dev.part n = some p → p.jsets = [] → ∃ t, exec (.junctionSet n) s = .next t ∧ t.dev.part n = some p)) ∧
  (∀ count epoch value : Nat, count < 2 ^ 32 → epoch < 2 ^ 32 → value < 2 ^ 16 →
    junctionMet count epoch value = decide (0 ≤ (BitVec.ofNat 32 count - BitVec.ofNat 32 (epoch + value)).toInt))

/-- R97, R100, R110, R111, R120, R355: COMMAND_END and COMMAND_TIME_LIMIT. A run with work left, or that waits for
stockpot space, does not end by COMMAND_END, and one whose last write is posted does not end by its time limit. A
GRAPH_RUN ends with the status of its marks and leaves its cores, and moves no byte of memory where no run waits for
the space that it gives back; a pass waits, ended, for PASS_COMPLETE. The time limit ends it with TIME_LIMIT. -/
def Obligations.RunsEnd : Prop :=
  ∀ (s : State) (rid : Nat) (x : Run) (r : CmdRef) (k : Cmd), s.dev.run rid = some x → x.ended = false →
    ((∃ c ∈ x.cores, c.todo ≠ []) ∨ x.stalled = true → exec (.commandEnd rid) s = .next s) ∧
    ((∀ c ∈ x.cores, c.todo = []) → x.stalled = false → exec (.commandTimeLimit rid) s = .next s) ∧
    ((∀ c ∈ x.cores, c.todo = []) → x.stalled = false → (∀ c ∈ x.workers, c.done = true) → x.norms = [] → x.allBad = false →
      (x.cmd = some r → s.dev.cmd r = some k → k.marks = {} → ∃ t, exec (.commandEnd rid) s = .next t ∧
        t.dev.run rid = none ∧
        ((∀ i y, s.dev.run i = some y → y.stalled = false ∨ y.ended = true) → t.dev.mem = s.dev.mem) ∧
        (x.marks = {} → t.dev.Ended r (if x.empty then stEmptyOutput else stSuccess) 0 0 0) ∧
        (x.marks = .fail stScoreboardOverflow → t.dev.Ended r stScoreboardOverflow 0 0 0)) ∧
      (x.cmd = none → ∃ t y, exec (.commandEnd rid) s = .next t ∧ t.dev.run rid = some y ∧ y.ended = true ∧
        y.ctxs = x.ctxs ∧ y.marks = x.marks ∧ (∀ c ∈ y.cores, c.done = true) ∧ t.dev.ctxs = s.dev.ctxs)) ∧
    ((∃ c ∈ x.cores, c.todo ≠ []) ∨ x.stalled = true → x.norms = [] → x.marks = {} →
      (x.cmd = some r → s.dev.cmd r = some k → k.marks = {} →
        ∃ t, exec (.commandTimeLimit rid) s = .next t ∧ t.dev.run rid = none ∧ t.dev.Ended r stTimeLimit 0 0 0) ∧
      (x.cmd = none → ∃ t y, exec (.commandTimeLimit rid) s = .next t ∧ t.dev.run rid = some y ∧ y.ended = true ∧
        y.marks = .fail stTimeLimit ∧ t.dev.ctxs = s.dev.ctxs))

/-- R104, R105: multicast. A subscriber of a tile in the store has it at once, a subscriber of one on its way joins its
entry, and one that finds 1,024 entries, or whose entry was freed before it subscribed, misses. An arriving tile goes
to every subscriber, and one whose copy fails its link check misses; a delivered entry is freed, one that waits is
not. -/
def Obligations.MulticastDelivers : Prop :=
  ∀ (s : State) (g rid j part prog tile : Nat) (bad : List Nat) (x : Run) (c : CoreRun) (m : Mcast),
    (s.dev.runOn g = some (rid, x) → x.coreAt g = some c → c.done = true ∨ x.waits = true ∨ 2 ≤ c.subs.length + c.got.length →
      exec (.subscribe g) s = .next s) ∧
    (∀ w gen pl, s.dev.runOn g = some (rid, x) → x.coreAt g = some c → c.done = false → x.waits = false → c.subs = [] → c.got = [] →
      (x.tilesAhead s.dev c 1) = [(tile, w, gen, pl)] → j = (s.dev.jdFor (x.prog % 2)).1 →
      (m ∈ (s.dev.jd j).mcast → m.part = x.part → m.prog = x.prog → m.tile = tile →
        (∀ z ∈ (s.dev.jd j).mcast, z.part = x.part → z.prog = x.prog → z.tile = tile → z = m) →
        (m.arrived = true → ∃ t y, exec (.subscribe g) s = .next t ∧ t.dev.run rid = some y ∧
          y.coreAt g = some { c with got := [tile] } ∧ t.dev.mem = s.dev.mem) ∧
        (m.arrived = false → ∃ t y z, exec (.subscribe g) s = .next t ∧ t.dev.run rid = some y ∧
          y.coreAt g = some { c with subs := [tile] } ∧ z ∈ (t.dev.jd j).mcast ∧ z.tile = tile ∧ z.arrived = false ∧
          ∀ n, n ∈ z.subs ↔ n = g ∨ n ∈ m.subs)) ∧
      ((∀ z ∈ (s.dev.jd j).mcast, ¬ (z.part = x.part ∧ z.prog = x.prog ∧ z.tile = tile)) →
        1024 ≤ (s.dev.jd j).mcast.length ∨ x.lostTile tile g = true → x.ended = false → ∃ t y, exec (.subscribe g) s = .next t ∧
          t.dev.run rid = some y ∧ y.coreAt g = some { c with got := [tile + 2 ^ 40] })) ∧
    (m ∈ (s.dev.jd j).mcast → m.part = part → m.prog = prog → m.tile = tile → m.arrived = false → m.subs.Pairwise (· < ·) →
      (∀ z ∈ (s.dev.jd j).mcast, z.part = part → z.prog = prog → z.tile = tile → z = m) →
      ∃ t, exec (.multicastTileArrive j part prog tile bad) s = .next t ∧
        (bad = [] → ∃ z ∈ (t.dev.jd j).mcast, z.tile = tile ∧ z.arrived = true ∧ z.subs = [] ∧ z.served = m.subs) ∧
        t.dev.runs = s.dev.runs.map (fun e =>
          if e.2.part = part ∧ e.2.prog = prog ∧ e.2.ended = false then
            (e.1, { e.2 with cores := e.2.cores.map (fun c =>
              if c.core ∈ m.subs ∧ tile ∈ c.subs then
                { c with subs := c.subs.erase tile, got := c.got ++ [if c.core ∈ bad then tile + 2 ^ 40 else tile] }
              else c) })
          else e)) ∧
    (∃ t, exec (.multicastEntryFree j part prog tile) s = .next t ∧ t.dev.runs = s.dev.runs ∧
      ∀ z, z ∈ (t.dev.jd j).mcast ↔ z ∈ (s.dev.jd j).mcast ∧
        ¬ (z.part = part ∧ z.prog = prog ∧ z.tile = tile ∧ z.arrived = true))

/-- R377, R511, R549: enabling and disabling a function's admin pair, and the function-level reset. A reset aborts what
has not started, lets running commands finish with their completions discarded, and leaves partitions, contexts and
memory. -/
def Obligations.FunctionEnable : Prop :=
  ∀ (s : State) (f q n : Nat) (x : Qp) (v : FnView), v = s.dev.fn f →
    (s.dev.fnLive f = true → s.dev.up = true →
      (v.en = true → exec (.ctlFuncCtlEn f true) s = .next s) ∧
      (v.en = false → exec (.ctlFuncCtlEn f false) s = .next s) ∧
      (v.en = false → v.sqLog2 = 0 ∨ v.cqLog2 = 0 ∨ v.sqBase = 0 ∨ v.cqBase = 0 →
        ∃ t, exec (.ctlFuncCtlEn f true) s = .next t ∧ t.dev.fn f = { v with cfgErr := true } ∧ t.dev.qps = s.dev.qps) ∧
      (v.en = false → v.sqLog2 ≠ 0 → v.cqLog2 ≠ 0 → v.sqBase ≠ 0 → v.cqBase ≠ 0 →
        ∃ t y, exec (.ctlFuncCtlEn f true) s = .next t ∧
          t.dev.fn f = { v with en := true, ready := true, cfgErr := false, adminErr := false } ∧ t.dev.qp f 0 = some y ∧
          y.sqBase = v.sqBase ∧ y.cqBase = v.cqBase ∧ y.sqSize = 2 ^ v.sqLog2 ∧ y.cqSize = 2 ^ v.cqLog2 ∧
          y.sqHead = 0 ∧ y.sqTail = 0 ∧ y.cqHead = 0 ∧ y.cqTail = 0 ∧ y.phase = true ∧ y.cmds = []) ∧
      (v.en = true → s.dev.qp f 0 = some x → ∃ t, exec (.ctlFuncCtlEn f false) s = .next t ∧ (t.dev.fn f).en = false ∧
        (∀ m, 0 < m → m < 128 → t.dev.qp f m = s.dev.qp f m) ∧
        ((∀ c ∈ x.cmds, c.phase ≠ .running) → (t.dev.fn f).ready = false ∧ t.dev.qp f 0 = none) ∧
        ((∃ c ∈ x.cmds, c.phase = .running) → (t.dev.fn f).ready = v.ready ∧ ∃ y, t.dev.qp f 0 = some y ∧
          y.fetchStopped = true ∧ y.discard = true ∧ y.cmds = x.cmds.filter (·.phase == .running)))) ∧
    (s.dev.fnThere f = false → exec (.functionLevelReset f) s = .next s) ∧
    (s.dev.fnThere f = true → ∃ t, exec (.functionLevelReset f) s = .next t ∧ t.dev.fn f = {} ∧
      (∀ g, g ≠ f → t.dev.fn g = s.dev.fn g) ∧ t.dev.parts = s.dev.parts ∧ t.dev.ctxs = s.dev.ctxs ∧
      t.dev.mem = s.dev.mem ∧ t.dev.runs = s.dev.runs ∧
      (∀ g m, g ≠ f → m < 128 → t.dev.qp g m = s.dev.qp g m) ∧
      (q < 128 → s.dev.qp f q = some x → (∀ c ∈ x.cmds, c.phase ≠ .running) → t.dev.qp f q = none) ∧
      (q < 128 → s.dev.qp f q = some x → (∃ c ∈ x.cmds, c.phase = .running) → ∃ y, t.dev.qp f q = some y ∧
        y.fetchStopped = true ∧ y.discard = true ∧ y.cmds = x.cmds.filter (·.phase == .running)) ∧
      (n < 128 → (s.dev.dma n).owner = f → f ≠ 0x1F → (t.dev.dma n).owner = f ∧ (t.dev.dma n).head = 0 ∧
        (t.dev.dma n).tail = 0 ∧ (t.dev.dma n).xfer = none ∧ (t.dev.dma n).base = 0) ∧
      (n < 128 → (s.dev.dma n).owner ≠ f → t.dev.dma n = s.dev.dma n))

/-- R196, R515, R542 to R544, R550, R551: which register writes take effect. Other widths are ignored; a low half is held
until its high half; settings keep their range or set a reject bit; bucket starts are committed together; a virtual
function reaches no device block. -/
def Obligations.RegisterWrites : Prop :=
  ∀ (s : State) (f off w v : Nat) (l : List Nat), s.dev.fnLive f = true →
    (¬ (w = 4 ∧ off % 4 = 0) → ¬ (w = 8 ∧ off % 8 = 0) → exec (.registerWrite f off w v) s = .next s) ∧
    (f ≠ 0 → 0x10000 ≤ off → off % 4 = 0 → exec (.registerWrite f off 4 v) s = .next s) ∧
    (v < 2 ^ 32 → off = 0x10 ∨ off = 0x18 → ∃ t, exec (.registerWrite f off 4 v) s = .next t ∧
      t.dev.fn f = { s.dev.fn f with lowHeld := kset (s.dev.fn f).lowHeld off v }) ∧
    (v < 2 ^ 32 → ∃ t, exec (.registerWrite f 0x14 4 v) s = .next t ∧
      ((s.dev.fn f).en = true → (t.dev.fn f).sqBase = (s.dev.fn f).sqBase) ∧
      ((s.dev.fn f).en = false → (s.dev.fn f).sqBase < 2 ^ 64 → (∀ n, kfind (s.dev.fn f).lowHeld 0x10 = some n → n < 2 ^ 32) →
        (t.dev.fn f).sqBase =
          (v * 2 ^ 32 + kget (s.dev.fn f).lowHeld 0x10 ((s.dev.fn f).sqBase % 2 ^ 32)) / 4096 * 4096)) ∧
    (v < 2 ^ 32 → (s.dev.fn f).en = true → ∃ t, exec (.registerWrite f 0x8 4 v) s = .next t ∧ t.dev.fn f = s.dev.fn f) ∧
    (v < 64 → ∃ t, exec (.registerWrite f 0x100 4 v) s = .next t ∧
      (1 ≤ v → v ≤ 50 → (t.dev.fn f).sch = { (s.dev.fn f).sch with limitMs := v }) ∧
      (v = 0 ∨ 50 < v → (t.dev.fn f).sch = { (s.dev.fn f).sch with limitRej := true })) ∧
    (v < 2 ^ 32 → l = bucketsOf ((s.dev.fn f).sch.staged ++ [v]) → l.length = 8 →
      ∃ t, exec (.schBucketStart f v) s = .next t ∧
        ((l.getD 0 0 = 1 ∧ ∀ i, i < 7 → (∀ j, 1 ≤ j → j ≤ i + 1 → l.getD j 0 ≠ 0) → l.getD i 0 < l.getD (i + 1) 0) →
          (t.dev.fn f).sch = { (s.dev.fn f).sch with buckets := l }) ∧
        (¬ (l.getD 0 0 = 1 ∧ ∀ i, i < 7 → (∀ j, 1 ≤ j → j ≤ i + 1 → l.getD j 0 ≠ 0) → l.getD i 0 < l.getD (i + 1) 0) →
          (t.dev.fn f).sch = { (s.dev.fn f).sch with bucketRej := true })) ∧
    (∃ t, exec (.schSkilletDrain v) s = .next t ∧ t.dev = s.dev.setRegs { s.dev.regs with drain := v % 65536 } ∧
      ∀ k, k < 16 → t.dev.draining k = bit v k)

/-- R521 to R524, R531: the input and the breaker. Whatever turns the converter off leaves flash alone and nothing else of
the package; above 62 V it waits for a restart, an opened breaker for 20 V or the enable pin. That also holds beyond
the absolute maximum of R521, where no other effect is stated. -/
def Obligations.InputPower : Prop :=
  ∀ (s : State) (v : Nat), 
    (∃ t, exec .hsEnMate s = .next t ∧
      t.dev.mod = { s.dev.mod with hsEn := true, breakerFree := s.dev.mod.breakerFree || !s.dev.mod.hsEn }) ∧
    (∃ t, exec .hsEnBreak s = .next t ∧ t.dev.mod.converter = false ∧ t.dev.mod.hsEn = false ∧ t.dev.mod.pwrgd = false ∧
      t.dev.mem = [] ∧ t.dev.parts = [] ∧ t.dev.qps = [] ∧ t.dev.ctxs = [] ∧ t.dev.trust.step = 0 ∧ t.dev.flash = s.dev.flash) ∧
    (s.dev.mod.hsEn = true → s.dev.mod.breaker = false → s.dev.mod.overvolt = false →
      ∃ t, exec .inputRise s = .next t ∧ t.dev = s.dev.setMod { s.dev.mod with converter := true }) ∧
    (s.dev.mod.hsEn = false ∨ s.dev.mod.breaker = true ∨ s.dev.mod.overvolt = true → exec .inputRise s = .next s) ∧
    (4200 ≤ v → exec (.inputFall v) s = .next s) ∧
    (v < 4200 → ∃ t, exec (.inputFall v) s = .next t ∧ t.dev.mod.converter = false ∧ t.dev.mod.pwrgd = false ∧
      t.dev.mem = [] ∧ t.dev.parts = [] ∧ t.dev.flash = s.dev.flash ∧
      t.dev.mod.breakerFree = (s.dev.mod.breakerFree || decide (v < 2000))) ∧
    (v ≤ 6200 → exec (.overvoltage v) s = .next s) ∧
    (6200 < v → ∃ t, exec (.overvoltage v) s = .next t ∧ t.dev.mod.converter = false ∧
      t.dev.mod.overvolt = true ∧ t.dev.mod.pwrgd = false ∧ t.dev.mem = [] ∧ t.dev.flash = s.dev.flash) ∧
    (s.dev.mod.overvolt = true → ∃ t, exec .overvoltageRestart s = .next t ∧ t.dev.mod.overvolt = false ∧
      t.dev.mod.converter = (s.dev.mod.hsEn && !s.dev.mod.breaker)) ∧
    (s.dev.mod.overvolt = false → exec .overvoltageRestart s = .next s) ∧
    (∃ t, exec .breakerOpen s = .next t ∧ t.dev.mod.converter = false ∧ t.dev.mod.breaker = true ∧
      t.dev.mod.breakerFree = false ∧ t.dev.mod.breakerSeen = true ∧ t.dev.mem = [] ∧ t.dev.flash = s.dev.flash) ∧
    (s.dev.mod.breaker = true → s.dev.mod.breakerFree = true → ∃ t, exec .breakerClose s = .next t ∧
      t.dev.mod = { s.dev.mod with breaker := false, breakerFree := false }) ∧
    (s.dev.mod.breaker = false ∨ s.dev.mod.breakerFree = false → exec .breakerClose s = .next s) ∧
    (∃ t, exec .packageRailOutOfWindow s = .next t ∧ t.dev.mod = { s.dev.mod with pwrgd := false })

/-- R490, R507, R510, R511, R532: power-on and device resets. MRST# low holds the device at its start with everything but
flash gone; a bring-up that stops ends at that step with the unit named; MREC# and a lost identity lead to recovery;
and with a slot, a record and microcode that verify, every unit good, the device gets to step 13. The known-answer
layers that a bring-up runs on the engines of the skillets (R217) come after. -/
def Obligations.ResetsBringUp : Prop :=
  ∀ (s : State) (b : BringUp) (c : Instr) (st die idx n : Nat) (x : Slot) (man rec fw io : Img), s.dev.mod.converter = true →
    (s.dev.mod.mrstLow = false → ∃ t, exec .mrstLow s = .next t ∧ t.dev.mod.mrstLow = true ∧ t.dev.mod.pwrgd = false ∧
      t.dev.trust.step = 0 ∧ t.dev.mem = [] ∧ t.dev.parts = [] ∧ t.dev.ctxs = [] ∧ t.dev.flash = s.dev.flash ∧
      t.dev.ao = s.dev.ao) ∧
    (s.dev.mod.mrstLow = true → exec .mrstLow s = .next s ∧ exec (.ctlDevReset n true b) s = .next s) ∧
    (n ≠ 0xA55A → exec (.ctlDevReset n true b) s = .next s) ∧
    (s.dev.mod.mrstLow = false → exec (.mrstRise b) s = .next s) ∧
    (s.dev.mod.mrstLow = true → ∃ t, exec (.powerOnReset b) s = .next t ∧ t.dev.trust.step = 0 ∧ t.dev.mem = [] ∧
      t.dev.parts = [] ∧ t.dev.flash = s.dev.flash) ∧
    (∀ t, s.dev.mod.mrstLow = false → exec (.powerOnReset { b with layers := [] }) s = .next t →
      exec (.powerOnReset b) s = .next { t with dev := t.dev.knownAnswer b }) ∧
    ((c = .powerOnReset b ∧ s.dev.mod.mrstLow = false) ∨ (c = .mrstRise b ∧ ∃ s0 : State, s0.dev.mod.converter = true ∧ s0.dev.mod.mrstLow = false ∧ exec .mrstLow s0 = .next s) ∨
        (c = .ctlDevReset 0xA55A true b ∧ s.dev.mod.mrstLow = false) → b.layers = [] →
      (b.stopAt = some (st, die, idx) → idx < 65536 → ∃ t, exec c s = .next t ∧ t.dev.trust.step = min st 12 ∧
        t.dev.trust.failDie = die ∧ t.dev.mem = [] ∧ t.dev.parts = [] ∧
        bit t.dev.mod.alert 1 = true ∧ (t.dev.mod.pwrgd = true ↔ 4 ≤ st)) ∧
      (b.stopAt = none → b.mrec = true ∨ b.identityOk = false → ∃ t, exec c s = .next t ∧ t.dev.trust.recovery = true ∧
        t.dev.trust.cause = (if b.mrec then 5 else 4) ∧ t.dev.mod.pwrgd = true ∧ bit t.dev.mod.alert 7 = true ∧
        t.dev.mem = [] ∧ t.dev.parts = []) ∧
      (b = .good → x = s.dev.flash.choose.2.2.slot s.dev.flash.choose.1 → s.dev.flash.recordUsed = some n →
        (s.dev.flash.record n).used = true → x.image 1 = some man → (s.dev.flash.record n).image 2 = some rec →
        x.image 3 = some fw → x.image 5 = some io → man.signed [] = true → rec.signed man.body = true →
        fw.signed man.body = true → io.signed man.body = true → rec.fresh s.dev.flash (confOf rec.body).floors = true →
        man.fresh s.dev.flash (confOf rec.body).floors = true → fw.fresh s.dev.flash (confOf rec.body).floors = true →
        io.fresh s.dev.flash (confOf rec.body).floors = true → field rec.body 0 2 = 0xB0 →
        (∀ k, k < 16 → ∃ i, x.microcode k = some i ∧ i.signed x.manifest = true ∧
          i.fresh s.dev.flash (confOf rec.body).floors = true) →
        ∃ t, exec c s = .next t ∧ t.dev.trust.step = 13 ∧ t.dev.trust.recovery = false ∧ t.dev.trust.failDie = 0xFF ∧
          t.dev.trust.bootSlot = s.dev.flash.choose.1 ∧ t.dev.trust.ftLevel = fw.ft ∧ t.dev.mod.pwrgd = true ∧
          t.dev.conf = confOf rec.body ∧ t.dev.mem = [] ∧ t.dev.parts = [] ∧ t.dev.qps = [] ∧ t.dev.fns = [] ∧
          t.dev.flash.fwCtr = s.dev.flash.fwCtr ∧ t.dev.flash.slotA = s.dev.flash.slotA ∧ t.dev.flash.slotB = s.dev.flash.slotB))

/-- R376, R511, R512, R519: a conventional reset puts every function's view and pairs at reset, disables virtual functions
and takes the link down; partitions, contexts, memory, fabric and crock stay. PERST# rising trains the link once the
host port is up, and SR-IOV comes back by itself alone. R453, R534 to R536: the management header. It answers while
the package has power; CLEAR_ALERT clears the bits of its mask but never bit 0; SET_CAP keeps its range, and in
recovery mode it is refused. -/
def Obligations.LinkAndManagement : Prop :=
  (∀ (s : State) (f sp w : Nat), 
    (∃ t, exec .conventionalReset s = .next t ∧ t.dev.mod.perst = true ∧ t.dev.mod.sriov = false ∧ t.dev.mod.linkSpeed = 0 ∧
      t.dev.mod.linkWidth = 0 ∧ (f ≤ 16 → t.dev.fn f = {}) ∧ t.dev.parts = s.dev.parts ∧ t.dev.ctxs = s.dev.ctxs ∧
      t.dev.mem = s.dev.mem ∧ t.dev.fab = s.dev.fab ∧ t.dev.crock = s.dev.crock ∧ t.dev.trust = s.dev.trust ∧
      ∀ q x, q < 128 → f ≤ 16 → s.dev.qp f q = some x → (∀ c ∈ x.cmds, c.phase ≠ .running) → t.dev.qp f q = none) ∧
    (4 ≤ s.dev.trust.step ∨ s.dev.trust.recovery = true → ∃ t, exec (.perstDeassertion sp w) s = .next t ∧
      t.dev = s.dev.setMod { s.dev.mod with perst := false, linkSpeed := sp, linkWidth := w, flit := sp == 6 }) ∧
    (s.dev.trust.step < 4 → s.dev.trust.recovery = false → ∃ t, exec (.perstDeassertion sp w) s = .next t ∧
      t.dev = s.dev.setMod { s.dev.mod with perst := false }) ∧
    (4 ≤ s.dev.trust.step → s.dev.mod.perst = false → ∃ t, exec (.hostLinkRetrain sp w) s = .next t ∧
      t.dev = s.dev.setMod { s.dev.mod with linkSpeed := sp, linkWidth := w, flit := sp == 6 }) ∧
    (s.dev.mod.perst = true → exec (.hostLinkRetrain sp w) s = .next s) ∧
    (4 ≤ s.dev.trust.step → s.dev.trust.recovery = false → ∃ t, exec .sriovReenable s = .next t ∧
      t.dev = s.dev.setMod { s.dev.mod with sriov := true }) ∧
    (s.dev.trust.recovery = true → exec .sriovReenable s = .next s)) ∧
  (∀ (s : State) (m w a : Nat),
    (s.dev.mod.converter = true → a < 128 → ∃ t, exec (.i3cDynamicAddress a) s = .next t ∧
      t.dev = s.dev.setMod { s.dev.mod with dynAddr := a }) ∧
    (s.dev.mod.converter = false → exec (.i3cDynamicAddress a) s = .next s ∧ exec .getStatus s = .next s ∧
      exec (.clearAlert m) s = .next s ∧ exec (.setCap w) s = .next s ∧ exec .getCap s = .next s) ∧
    (s.dev.mod.converter = true →
      (∃ t, exec .getStatus s = .next t ∧ t.dev = s.dev.setOut (s.dev.out ++ [.i3c 0 (leBytes 4 s.dev.mod.alert ++
        leBytes 1 (b2n s.dev.mod.pwrgd) ++ leBytes 1 s.dev.trust.step ++ leBytes 2 s.dev.sense.inputV ++
        leBytes 2 s.dev.sense.inputI ++ leBytes 2 s.dev.pwr.avg ++ leBytes 2 (unsigned 16 s.dev.sense.inlet) ++
        leBytes 2 (unsigned 16 s.dev.sense.outlet))])) ∧
      (∃ t, exec (.clearAlert m) s = .next t ∧
        (∀ i, i < 32 → bit t.dev.mod.alert i = (bit s.dev.mod.alert i && (i == 0 || !bit m i))) ∧
        t.dev.out = s.dev.out ++ [.i3c 0 (leBytes 4 t.dev.mod.alert)]) ∧
      (s.dev.trust.recovery = true → ∃ t u, exec (.setCap w) s = .next t ∧ exec .getCap s = .next u ∧
        t.dev = s.dev.setOut (s.dev.out ++ [.i3c 3 []]) ∧ u.dev = s.dev.setOut (s.dev.out ++ [.i3c 3 []])) ∧
      (s.dev.trust.recovery = false → w < 400 ∨ 1200 < w → ∃ t, exec (.setCap w) s = .next t ∧
        t.dev = s.dev.setOut (s.dev.out ++ [.i3c 1 []])) ∧
      (s.dev.trust.recovery = false → 400 ≤ w → w ≤ 1200 → ∃ t, exec (.setCap w) s = .next t ∧
        t.dev.pwr = { s.dev.pwr with capMgmt := w } ∧ Out.i3c 0 (leBytes 2 t.dev.pwr.effCap) ∈ t.dev.out) ∧
      (s.dev.trust.recovery = false → ∃ t, exec .getCap s = .next t ∧ t.dev = s.dev.setOut (s.dev.out ++
        [.i3c 0 (leBytes 2 s.dev.pwr.cap ++ leBytes 2 s.dev.pwr.capMgmt ++ leBytes 2 s.dev.pwr.effCap ++
          leBytes 1 s.dev.pwr.mode)]))))

/-- R491, R492, R498 to R503: the update commands. Each ends with SUCCESS and its outcome in RESULT1, and an outcome other
than 0 changes nothing; FW_WRITE fills the inactive slot or the spare record; FW_ACTIVATE takes effect at the next
reset; a commit of a trial advances the firmware counter, which never falls. R490, R536, R537: images through the
management header. A write at offset 0 starts a new image; a chunk has 1 to 240 bytes and keeps the image within its
limit; the boot ROM of recovery mode takes a recovery image alone, and the image that runs takes the others. -/
def Obligations.ImagesUpdate : Prop :=
  (∀ (s : State) (r : CmdRef) (c : Cmd) (b : Bytes) (ok : Bool) (o n k : Nat) (i : Img) (rest : Bytes),
    (s.dev.Ready r 0x10 c → hdrOk c.desc 0 [(8, 17)] = true → c.f 0x10 8 ≤ 67108864 → byteAt c.desc 0x18 ≤ 1 →
      o = (if byteAt c.desc 0x18 = 0 then s.dev.setOutcome (b.take (c.f 0x10 8)) else s.dev.recordOutcome (b.take (c.f 0x10 8))) →
      (∃ t, exec (.fwWrite r .failed ok) s = .next t ∧ t.dev.Ended r stHostAccess 0 0 0 ∧ t.dev.flash = s.dev.flash) ∧
      (o ≠ 0 → ∃ t, exec (.fwWrite r (.ok b) ok) s = .next t ∧ t.dev.Ended r stSuccess 0 o 0 ∧ t.dev.flash = s.dev.flash) ∧
      (o = 0 → ∃ t, exec (.fwWrite r (.ok b) false) s = .next t ∧ t.dev.Ended r stSuccess 0 7 0 ∧ t.dev.flash = s.dev.flash) ∧
      (o = 0 → ∃ t, exec (.fwWrite r (.ok b) true) s = .next t ∧ t.dev.Ended r stSuccess 0 0 0 ∧
        (byteAt c.desc 0x18 = 0 →
          t.dev.flash = s.dev.flash.putSlot (1 - s.dev.flash.active) { valid := true, data := b.take (c.f 0x10 8) }) ∧
        (byteAt c.desc 0x18 = 1 →
          t.dev.flash = s.dev.flash.putRecord s.dev.flash.recordSpare { valid := true, data := b.take (c.f 0x10 8) }))) ∧
    (s.dev.Ready r 0x11 c → hdrOk c.desc 0 [(8, 1)] = true → n = byteAt c.desc 8 → n ≤ 1 →
      ((s.dev.flash.slot n).valid = false → ∃ t, exec (.fwActivate r) s = .next t ∧ t.dev.Ended r stSuccess 0 3 0 ∧
        t.dev.flash = s.dev.flash) ∧
      ((s.dev.flash.slot n).valid = true → ∃ t, exec (.fwActivate r) s = .next t ∧ t.dev.Ended r stSuccess 0 0 0 ∧
        t.dev.flash = { s.dev.flash with pending := some n, trialFail := false, trialStarted := false })) ∧
    (s.dev.Ready r 0x12 c → hdrOk c.desc 0 [(8, 18)] = true →
      (parseImg (b.take (c.f 0x10 8)) = none → ∃ t, exec (.microcodeLoad r (.ok b) []) s = .next t ∧
        t.dev.Ended r stSuccess 0 1 0 ∧ t.dev.skillets = s.dev.skillets) ∧
      (parseImg (b.take (c.f 0x10 8)) = some (i, rest) →
        o = (if i.signed s.dev.manifest = false then 1 else if i.fresh s.dev.flash s.dev.conf.floors = false then 2
          else if i.type ≠ 4 then 3 else if ∃ k ∈ setBits 16 (c.f 0x18 2), s.dev.skilletInUse k = true then 5
          else if i.ft ≠ s.dev.trust.ftLevel then 6 else 0) →
        (o ≠ 0 → ∃ t, exec (.microcodeLoad r (.ok b) []) s = .next t ∧ t.dev.Ended r stSuccess 0 o 0 ∧
          t.dev.skillets = s.dev.skillets) ∧
        (o = 0 → (∀ k ∈ setBits 16 (c.f 0x18 2), (s.dev.skillet k).microcodeBad = false) →
          ∃ t, exec (.microcodeLoad r (.ok b) []) s = .next t ∧ t.dev.Ended r stSuccess 0 0 0 ∧
            (k ∈ setBits 16 (c.f 0x18 2) → (t.dev.skillet k).measure = i.digest) ∧
            (k ∉ setBits 16 (c.f 0x18 2) → t.dev.skillet k = s.dev.skillet k)))) ∧
    (s.dev.trust.trial = false ∨ s.dev.trust.step ≠ 13 → exec .trialCommit s = .next s) ∧
    (s.dev.trust.trial = true → s.dev.trust.step = 13 → ∃ t, exec .trialCommit s = .next t ∧ t.dev.trust.trial = false ∧
      t.dev.flash.active = s.dev.trust.bootSlot ∧ t.dev.flash.pending = none ∧ s.dev.flash.fwCtr ≤ t.dev.flash.fwCtr ∧
      (∀ z ∈ (s.dev.flash.slot s.dev.trust.bootSlot).images, z.advance = true → z.svn ≤ t.dev.flash.fwCtr) ∧
      (t.dev.flash.fwCtr = s.dev.flash.fwCtr ∨ ∃ z ∈ (s.dev.flash.slot s.dev.trust.bootSlot).images,
        z.advance = true ∧ z.svn = t.dev.flash.fwCtr) ∧ t.dev.flash.recCtr = s.dev.flash.recCtr)) ∧
  (∀ (s : State) (off len target : Nat) (b rest : Bytes) (ok : Bool) (bu : BringUp) (i : Img), s.dev.mod.converter = true →
    (s.dev.trust.recovery = true → s.dev.trust.imageRunning = false →
      ∃ t u, exec (.imageWrite off b) s = .next t ∧ exec (.imageCommit target len ok bu) s = .next u ∧
        t.dev = s.dev.setOut (s.dev.out ++ [.i3c 3 []]) ∧ u.dev = s.dev.setOut (s.dev.out ++ [.i3c 3 []])) ∧
    (s.dev.trust.recovery = false ∨ s.dev.trust.imageRunning = true →
      (b = [] ∨ 240 < b.length ∨ 67108864 < off + b.length → ∃ t, exec (.imageWrite off b) s = .next t ∧
        t.dev = s.dev.setOut (s.dev.out ++ [.i3c 1 []])) ∧
      (1 ≤ b.length → b.length ≤ 240 → off + b.length ≤ 67108864 → ∃ t, exec (.imageWrite off b) s = .next t ∧
        slice t.dev.trust.staged off b.length = b ∧ t.dev.out = s.dev.out ++ [.i3c 0 []] ∧
        (off = 0 → t.dev.trust.staged = b) ∧
        (off ≠ 0 → off ≤ s.dev.trust.staged.length → t.dev.trust.staged.take off = s.dev.trust.staged.take off ∧
          t.dev.trust.staged.drop (off + b.length) = s.dev.trust.staged.drop (off + b.length))) ∧
      (1 < target ∨ s.dev.trust.staged.length < len → ∃ t, exec (.imageCommit target len ok bu) s = .next t ∧
        t.dev = s.dev.setOut (s.dev.out ++ [.i3c 1 []]))) ∧
    (s.dev.trust.recovery = false → target ≤ 1 → len ≤ s.dev.trust.staged.length →
      ∃ t, exec (.imageCommit target len ok bu) s = .next t ∧
        t.dev.flash = (s.dev.fwStore target (s.dev.trust.staged.take len) ok).1.flash ∧
        t.dev.out = s.dev.out ++ [.i3c (s.dev.fwStore target (s.dev.trust.staged.take len) ok).2 []]) ∧
    (s.dev.trust.recovery = false ∨ s.dev.trust.imageRunning = true →
      ∃ t u, exec (.recoveryWrite off b) s = .next t ∧ exec (.recoveryRun len) s = .next u ∧
        t.dev = s.dev.setOut (s.dev.out ++ [.i3c 3 []]) ∧ u.dev = s.dev.setOut (s.dev.out ++ [.i3c 3 []])) ∧
    (s.dev.trust.recovery = true → s.dev.trust.imageRunning = false →
      (1 ≤ b.length → b.length ≤ 240 → off + b.length ≤ 4194304 → ∃ t, exec (.recoveryWrite off b) s = .next t ∧
        slice t.dev.trust.recStaged off b.length = b ∧ t.dev.out = s.dev.out ++ [.i3c 0 []] ∧
        (off = 0 → t.dev.trust.recStaged = b)) ∧
      (4194304 < off + b.length → ∃ t, exec (.recoveryWrite off b) s = .next t ∧
        t.dev = s.dev.setOut (s.dev.out ++ [.i3c 1 []])) ∧
      (s.dev.trust.recStaged.length < len → ∃ t, exec (.recoveryRun len) s = .next t ∧
        t.dev = s.dev.setOut (s.dev.out ++ [.i3c 1 []])) ∧
      (len ≤ s.dev.trust.recStaged.length → parseImg (s.dev.trust.recStaged.take len) = some (i, rest) → i.type = 6 →
        i.signed s.dev.manifest = true → i.fresh s.dev.flash s.dev.conf.floors = true →
        ∃ t, exec (.recoveryRun len) s = .next t ∧ t.dev.trust = { s.dev.trust with imageRunning := true } ∧
          t.dev.out = s.dev.out ++ [.i3c 0 []])))

/-- R493 to R498: attestation. A report holds the nonce, the boot count, the counters, the active slot, the retired cores
and the measurements 1 to 21, and is 1,408 bytes long in its body; a fenced skillet measures 64 zero bytes. SPDM
answers on the transport that asked, keeps one state for each, and is silent before device step 6 and in recovery
mode. -/
def Obligations.Attestation : Prop :=
  ∀ (s : State) (r : CmdRef) (c : Cmd) (b : Bytes) (t0 off len idx k : Nat),
    (s.dev.Ready r 0x13 c → hdrOk c.desc 0 [(8, 16)] = true → b.length = 32 → ∃ t, exec (.attestReport r (.ok b)) s = .next t ∧
      t.dev.Ended r stSuccess 0 0 0 ∧ t.dev.out = s.dev.out ++ [.hostWrite (c.f 0x10 8) (s.dev.report b)] ∧
      (s.dev.report b).drop 3584 = s.dev.reportBody b) ∧
    (b.length = 32 → (s.dev.reportBody b).length = 1408 ∧ (s.dev.reportBody b).take 32 = b ∧
      slice (s.dev.reportBody b) 32 8 = leBytes 8 s.dev.flash.bootCount ∧
      (s.dev.reportBody b).getD 46 0 = (leBytes 1 s.dev.flash.active).getD 0 0 ∧
      ∀ i, 1 ≤ i → i ≤ 21 → slice (s.dev.reportBody b) (64 * i) 64 = s.dev.measurement i) ∧
    (k < 16 → (s.dev.skillet k).fenced = true → s.dev.measurement (k + 6) = List.replicate 64 0) ∧
    (s.dev.Ready r 0x14 c → hdrOk c.desc 0 [(8, 1), (0x10, 12)] = true → byteAt c.desc 8 ≤ 1 → c.f 0x18 4 ≤ 65536 →
      ∃ t, exec (.certRead r) s = .next t ∧ t.dev.Ended r stSuccess 0 0 0 ∧ t.dev.out = s.dev.out ++
        [.hostWrite (c.f 0x10 8) ((Config.certChain (byteAt c.desc 8) s.dev.aliasSalt).take (c.f 0x18 4))]) ∧
    (s.dev.trust.step < 6 ∨ s.dev.trust.recovery = true ∨ 2 ≤ t0 →
      exec (.getVersion t0 b) s = .next s ∧ exec (.getCapabilities t0 b) s = .next s ∧
      exec (.negotiateAlgorithms t0 b) s = .next s ∧ exec (.getDigests t0) s = .next s ∧
      exec (.getCertificate t0 k off len) s = .next s ∧ exec (.challenge t0 b) s = .next s ∧
      exec (.getMeasurements t0 idx) s = .next s ∧ exec (.vendorDefinedRequest t0 b) s = .next s) ∧
    (6 ≤ s.dev.trust.step → s.dev.trust.recovery = false → t0 < 2 → s.dev.trust.spdm.length = 2 →
      (∃ t, exec (.getVersion t0 b) s = .next t ∧ t.dev.spdmAt t0 = 1 ∧ t.dev.spdmAt (1 - t0) = s.dev.spdmAt (1 - t0)) ∧
      (s.dev.spdmAt t0 = 1 → ∃ t, exec (.getCapabilities t0 b) s = .next t ∧ t.dev.spdmAt t0 = 2 ∧
        t.dev.spdmAt (1 - t0) = s.dev.spdmAt (1 - t0)) ∧
      (s.dev.spdmAt t0 = 2 → ∃ t, exec (.negotiateAlgorithms t0 b) s = .next t ∧ t.dev.spdmAt t0 = 3 ∧
        t.dev.spdmAt (1 - t0) = s.dev.spdmAt (1 - t0)) ∧
      (∃ t, exec (.getDigests t0) s = .next t ∧ t.dev.out = s.dev.out ++
        [.spdm t0 (Config.spdmAnswer (s.dev.spdmAt t0) 0x81 (Config.sha512 (Config.certChain 0 s.dev.aliasSalt)))]) ∧
      (∃ t, exec (.getCertificate t0 k off len) s = .next t ∧ t.dev.out = s.dev.out ++
        [.spdm t0 (Config.spdmAnswer (s.dev.spdmAt t0) 0x82 (leBytes 1 k ++
          (if k = 0 then slice (Config.certChain 0 s.dev.aliasSalt) off len else [])))]) ∧
      (∃ t, exec (.challenge t0 b) s = .next t ∧ t.dev.out = s.dev.out ++
        [.spdm t0 (Config.spdmAnswer (s.dev.spdmAt t0) 0x83 (b ++ Config.aliasSign s.dev.aliasSalt 0
          (Config.sha512 (b ++ (List.range 22).flatMap (fun i => s.dev.measurement (i + 1))))))]) ∧
      (1 ≤ idx → idx ≤ 22 → ∃ t, exec (.getMeasurements t0 idx) s = .next t ∧ t.dev.out = s.dev.out ++
        [.spdm t0 (Config.spdmAnswer (s.dev.spdmAt t0) 0xE0 (leBytes 1 idx ++ s.dev.measurement idx))]) ∧
      (∃ t, exec (.vendorDefinedRequest t0 b) s = .next t ∧ t.dev.out = s.dev.out ++ [.spdm t0 (s.dev.report b)]))

/-- R462, R463, R475, R477: a core. A clock fault of its own fences it, sends it Cold, ends what runs on it with cause
UNIT_FENCED and counts as a fault; the second counted fault within 3,600 s retires it. An idle core falls from Warm to
Cool and Cold, and a wake makes it Hot; each changes the clock state of that core alone. -/
def Obligations.CoreFaults : Prop :=
  ∀ (s : State) (die dom mhz g : Nat),
    (die < 16 → dom < 8 → g = 8 * die + dom → (s.dev.core g).fenced = false → (s.dev.core g).retired = false →
      ∃ t, exec (.clockMonitorFault die dom mhz) s = .next t ∧ (t.dev.core g).fenced = true ∧ (t.dev.core g).clk = .cold ∧
        (t.dev.core g).lastFault = some (s.dev.aoOf die) ∧ bit t.dev.mod.alert 1 = true ∧
        (∀ h, h ≠ g → t.dev.core h = s.dev.core h) ∧ t.dev.skillets = s.dev.skillets ∧
        ((∀ n, (s.dev.core g).lastFault = some n → n + 180000000000 < s.dev.aoOf die) → (t.dev.core g).retired = false ∧
          t.dev.flash = s.dev.flash) ∧
        (∀ n, (s.dev.core g).lastFault = some n → s.dev.aoOf die ≤ n + 180000000000 → (t.dev.core g).retired = true ∧
          g ∈ t.dev.flash.retired ∧ bit t.dev.mod.alert 6 = true ∧
          ∀ p x, s.dev.coreOwner g = some p → t.dev.part p = some x → g ∉ x.cores) ∧
        (∀ e ∈ s.dev.runs, e.2.ended = false → e.2.onCore g = true → ∃ y, (e.1, y) ∈ t.dev.runs ∧ caFenced ∈ y.marks.causes ∧
          ∀ c ∈ y.cores, c.done = true ∧ c.todo = [])) ∧
    (g < 128 → s.dev.coreIdle g = true →
      ((s.dev.core g).clk = .warm → s.dev.pwr.idleCool < s.dev.pwr.idleCold → ∃ t, exec (.coreIdleCool g) s = .next t ∧
        t.dev.core g = { s.dev.core g with clk := .cool } ∧ (∀ h, h ≠ g → t.dev.core h = s.dev.core h) ∧
        t.dev = s.dev.setCores t.dev.cores) ∧
      ((s.dev.core g).clk = .warm ∨ (s.dev.core g).clk = .cool → ∃ t, exec (.coreIdleCold g) s = .next t ∧
        t.dev.core g = { s.dev.core g with clk := .cold } ∧ (∀ h, h ≠ g → t.dev.core h = s.dev.core h) ∧
        t.dev = s.dev.setCores t.dev.cores)) ∧
    (s.dev.coreIdle g = false → exec (.coreIdleCool g) s = .next s ∧ exec (.coreIdleCold g) s = .next s) ∧
    (g < 128 → (s.dev.core g).retired = false → s.dev.coreFenced g = false → ∃ t, exec (.coreWake g) s = .next t ∧
      t.dev.core g = { s.dev.core g with clk := .hot } ∧ (∀ h, h ≠ g → t.dev.core h = s.dev.core h) ∧
      t.dev = s.dev.setCores t.dev.cores) ∧
    ((s.dev.core g).retired = true ∨ s.dev.coreFenced g = true → exec (.coreWake g) s = .next s)

/-- R28, R472, R474: what each fence takes out of service, and what it leaves. A fault of IOD0, of a control die or of the
50 MHz reference, a lockstep mismatch and the loss of the second junction die are a safe stop, which asserts the
alert. -/
def Obligations.FencesAct : Prop :=
  ∀ (s : State) (die rail mhz mv k i j : Nat),
    (die < 16 → rail ≤ 2 → (s.dev.skillet die).fenced = false → ∃ t u, exec (.clockMonitorFault die 8 mhz) s = .next t ∧
      exec (.railMonitorFault die rail mv) s = .next u ∧ (rail = 2 → die ∈ u.dev.saf.dramBad) ∧ ∀ v, v = t ∨ v = u →
        v.dev.skillet die = { s.dev.skillet die with fenced := true } ∧ bit v.dev.mod.alert 1 = true ∧
        (∀ h, h / 8 = die → v.dev.core h = { s.dev.core h with clk := .cold, testing := false }) ∧
        (∀ h, h / 8 ≠ die → v.dev.core h = s.dev.core h) ∧ (∀ h, h ≠ die → v.dev.skillet h = s.dev.skillet h) ∧
        (∀ e ∈ s.dev.runs, e.2.ended = false → e.2.onSkillet die = true → ∃ y, (e.1, y) ∈ v.dev.runs ∧
          caFenced ∈ y.marks.causes ∧ ∀ c ∈ y.cores, c.done = true ∧ c.todo = [])) ∧
    (die < 16 → ∃ t u, exec (.clockMonitorFault die 9 mhz) s = .next t ∧ exec (.clockMonitorFault die 10 mhz) s = .next u ∧
      t.dev.skillet die = { s.dev.skillet die with ctlFenced := true } ∧ t.dev.cores = s.dev.cores ∧
      u.dev.skillet die = { s.dev.skillet die with engineFenced := true } ∧ u.dev.cores = s.dev.cores) ∧
    (i < 4 → ∃ t u v, exec (.clockMonitorFault (16 + i) 2 mhz) s = .next t ∧ exec (.clockMonitorFault (16 + i) 3 mhz) s = .next u ∧
      exec (.clockMonitorFault (16 + i) 4 mhz) s = .next v ∧
      ((s.dev.cport i).fenced = false → t.dev.cport i = { s.dev.cport i with fenced := true, st := 0 }) ∧
      ((s.dev.port (2 * i)).fenced = false → (u.dev.port (2 * i)).fenced = true ∧ (u.dev.port (2 * i)).st = 0 ∧
        (u.dev.port (2 * i)).replay = [] ∧ u.dev.port (2 * i + 1) = s.dev.port (2 * i + 1)) ∧
      ((s.dev.port (2 * i + 1)).fenced = false → (v.dev.port (2 * i + 1)).fenced = true ∧ (v.dev.port (2 * i + 1)).st = 0 ∧
        (v.dev.port (2 * i + 1)).replay = [] ∧ v.dev.port (2 * i) = s.dev.port (2 * i))) ∧
    (1 ≤ i → i < 4 → rail ≤ 1 → i ∉ s.dev.saf.iodFenced → ∃ t u, exec (.clockMonitorFault (16 + i) 0 mhz) s = .next t ∧
      exec (.railMonitorFault (16 + i) rail mv) s = .next u ∧ ∀ v, v = t ∨ v = u → i ∈ v.dev.saf.iodFenced ∧
        (v.dev.port (2 * i)).st = 0 ∧ (v.dev.port (2 * i + 1)).st = 0 ∧ (v.dev.cport i).st = 0 ∧
        (∀ c, c < 32 → (v.dev.dma (32 * i + c)).xfer = none) ∧ v.dev.saf.safeStop = s.dev.saf.safeStop) ∧
    (rail ≤ 1 → s.dev.saf.safeStop = false → ∃ t0 t1 u0 u1 v0 v1 w, exec (.clockMonitorFault 16 0 mhz) s = .next t0 ∧
      exec (.clockMonitorFault 16 1 mhz) s = .next t1 ∧ exec (.clockMonitorFault 22 0 mhz) s = .next u0 ∧
      exec (.clockMonitorFault 22 1 mhz) s = .next u1 ∧ exec (.railMonitorFault 16 rail mv) s = .next v0 ∧
      exec (.railMonitorFault 22 rail mv) s = .next v1 ∧ exec .lockstepMismatch s = .next w ∧
      ∀ z ∈ [t0, t1, u0, u1, v0, v1, w], z.dev.saf.safeStop = true ∧ bit z.dev.mod.alert 0 = true) ∧
    (s.dev.saf.safeStop = true → exec .lockstepMismatch s = .next s) ∧
    (j < 2 → (s.dev.jd j).fenced = false → ∃ t, exec (.junctionCompareMismatch j) s = .next t ∧
      ((s.dev.jd (1 - j)).fenced = false → (t.dev.jd j).fenced = true ∧ (t.dev.jd (1 - j)).fenced = false ∧
        t.dev.saf.safeStop = s.dev.saf.safeStop) ∧
      ((s.dev.jd (1 - j)).fenced = true → t.dev.saf.safeStop = true)) ∧
    (j < 2 → (s.dev.jd j).fenced = true → exec (.junctionCompareMismatch j) s = .next s)

/-- R473, R476, R478 to R481: return to service and self-test. A returned unit is fenced no more; a skillet whose DRAM
rail failed returns with its whole stack in the poison table; a junction die does not return. A test starts on an idle
core where an engine supplies its references, whose work leaves cores, partitions, regions and runs alone. A passed
test renews the core's time, a failed one retires it; a mechanism that fails costs what R480 says. -/
def Obligations.SelfTests : Prop :=
  ∀ (s : State) (g k i j p step : Nat) (work : List EngineJob),
    ((g < 128 → (s.dev.core g).fenced = true → ∃ t, exec (.unitReturn (.core g)) s = .next t ∧
        t.dev.core g = { s.dev.core g with fenced := false, lastTest := s.dev.aoOf (g / 8), overdue := false }) ∧
      (k < 16 → (s.dev.skillet k).fenced = true → (s.dev.skillet k).microcodeBad = false →
        ∃ t, exec (.unitReturn (.skillet k)) s = .next t ∧ t.dev.skillet k = { s.dev.skillet k with fenced := false } ∧
          (k ∈ s.dev.saf.dramBad → (t.dev.stack k).poison = poisonAll ∧ k ∉ t.dev.saf.dramBad) ∧
          (k ∉ s.dev.saf.dramBad → t.dev.dram = s.dev.dram) ∧ t.dev.mem = s.dev.mem) ∧
      ((s.dev.skillet k).ctlFenced = true → ∃ t, exec (.unitReturn (.stackCtl k)) s = .next t ∧
        t.dev.skillet k = { s.dev.skillet k with ctlFenced := false } ∧ t.dev.dram = s.dev.dram) ∧
      ((s.dev.skillet k).engineFenced = true → ∃ t, exec (.unitReturn (.engine k)) s = .next t ∧
        t.dev.skillet k = { s.dev.skillet k with engineFenced := false }) ∧
      exec (.unitReturn (.jd j)) s = .next s ∧
      (i ∈ s.dev.saf.iodFenced → ∃ t, exec (.unitReturn (.iod i)) s = .next t ∧ i ∉ t.dev.saf.iodFenced) ∧
      ((s.dev.cport i).fenced = true → ∃ t, exec (.unitReturn (.crockPort i)) s = .next t ∧ (t.dev.cport i).fenced = false) ∧
      ((s.dev.port p).fenced = true → ∃ t, exec (.unitReturn (.fabPort p)) s = .next t ∧ (t.dev.port p).fenced = false)) ∧
    (s.dev.testStarts g = true → ∃ t, exec (.selftestIdle ⟨g, work⟩) s = .next t ∧
      t.dev = (s.dev.references g work).setCores t.dev.cores ∧ t.dev.core g = { s.dev.core g with testing := true } ∧
      (∀ h, h ≠ g → t.dev.core h = s.dev.core h) ∧ t.dev.parts = s.dev.parts ∧ t.dev.regions = s.dev.regions ∧
      t.dev.runs = s.dev.runs ∧ (work = [] → t.dev = (s.dev.setSkillets t.dev.skillets).setCores t.dev.cores)) ∧
    (s.dev.testStarts g = false → exec (.selftestIdle ⟨g, work⟩) s = .next s) ∧
    (g < 128 → (s.dev.core g).retired = false → ∃ t, exec (.selftestReserve ⟨g, work⟩) s = .next t ∧
      t.dev = (s.dev.references g work).setCores t.dev.cores ∧ (t.dev.core g).reserved = true ∧
      t.dev.coreReady g = false ∧ (s.dev.testStarts g = true → (t.dev.core g).testing = true) ∧
      (∀ h, h ≠ g → t.dev.core h = s.dev.core h) ∧ t.dev.parts = s.dev.parts ∧ t.dev.regions = s.dev.regions ∧
      t.dev.runs = s.dev.runs ∧ (work = [] → t.dev = (s.dev.setSkillets t.dev.skillets).setCores t.dev.cores)) ∧
    (g < 128 → (s.dev.core g).testing = true →
      (∃ t, exec (.selftestEnd g true step) s = .next t ∧ t.dev.core g =
        { s.dev.core g with testing := false, reserved := false, lastTest := s.dev.aoOf (g / 8), overdue := false } ∧
        t.dev = s.dev.setCores t.dev.cores) ∧
      ((s.dev.core g).retired = false → ∃ t, exec (.selftestEnd g false step) s = .next t ∧ (t.dev.core g).retired = true ∧
        (t.dev.core g).clk = .cold ∧ g ∈ t.dev.flash.retired)) ∧
    ((s.dev.core g).testing = false → ∀ ok, exec (.selftestEnd g ok step) s = .next s) ∧
    (g < 128 → (s.dev.core g).retired = false → (s.dev.core g).overdue = false → ∃ t, exec (.selftestDeadline g) s = .next t ∧
      t.dev.core g = { s.dev.core g with overdue := true } ∧ t.dev.coreReady g = false ∧
      (∀ h, h ≠ g → t.dev.core h = s.dev.core h)) ∧
    ((s.dev.core g).retired = true ∨ (s.dev.core g).overdue = true → exec (.selftestDeadline g) s = .next s) ∧
    ((∀ m, exec (.mechanismTest m true) s = .next s) ∧
      (k < 16 → ∃ t u v, exec (.mechanismTest (.stackDecoder k) false) s = .next t ∧
        exec (.mechanismTest (.engineResidue k) false) s = .next u ∧ exec (.mechanismTest (.crossbarLink k) false) s = .next v ∧
        (t.dev.stack k).lost = true ∧ u.dev.skillet k = { s.dev.skillet k with engineOk := false } ∧
        (v.dev.skillet k).fenced = true) ∧
      (∃ t, exec (.mechanismTest .lockstep false) s = .next t ∧ t.dev.saf.safeStop = true) ∧
      (j < 2 → ∃ t, exec (.mechanismTest (.junctionCompare j) false) s = .next t ∧
        ((t.dev.jd j).fenced = true ∨ t.dev.saf.safeStop = true)))

/-- R284, R286, R288 to R292, R517, R518: the service of a stack. One pseudo-channel retrains at a time; a failed
retraining is repeated once, and a second failure marks the channel; a stack repairs one channel, and the need of a
second one loses it; no poison is lost in a repair; a retraining request while one is queued is ignored. -/
def Obligations.StackService : Prop :=
  ∀ (s : State) (t c p n : Nat) (lost : List Nat) (got : SectorRead), t < 16 → s.dev.stackOut t = false →
    (64 * n / 4194304 < 30720 → (s.dev.stack t).moved (s.dev.mapOfRow t (64 * n / 4194304)).2 (64 * n) = false →
      s.dev.patrolled t (64 * n) = some (64 * n)) ∧
    (s.dev.patrolled t (64 * n) = none ∨ got = .clean → exec (.patrol t n got) s = .next s) ∧
    (∀ o, s.dev.patrolled t (64 * n) = some o →
      ((s.dev.stack t).bad o = true → exec (.patrol t n got) s = .next s) ∧
      ((s.dev.stack t).bad o = false →
        (∃ u z, exec (.patrol t n .oneByte) s = .next u ∧
          u.dev = (s.dev.modStack t (fun x => { x with shaky := z })).count (unit24 t 0x1FF) 0 1) ∧
        (o % 64 = 0 → (s.dev.stack t).poison.length < 4096 →
          (s.dev.stack t).moved (s.dev.mapOfRow t (o / 4194304)).2 o = false → ∃ u, exec (.patrol t n .uncorrectable) s = .next u ∧
          { addr := o, log2 := 6 } ∈ (u.dev.stack t).poison ∧ (∀ e ∈ (s.dev.stack t).poison, e ∈ (u.dev.stack t).poison) ∧
          (u.dev.stack t).bad o = true ∧ u.dev.mem = s.dev.mem))) ∧
    (p < 64 → (s.dev.stack t).retrain = none → (s.dev.stack t).repaired ≠ some (p / 2) →
      (s.dev.stack t).queued = some p ∨ (kget (s.dev.stack t).trained p (0, 0)).1 + 50000000 ≤ s.dev.aoOf t ∨ s.dev.trainDue t p = true →
      ∃ u, exec (.retrainStart t p) s = .next u ∧ (u.dev.stack t).retrain = some p ∧ (u.dev.stack t).retrainTries = 0 ∧
        (∀ k, k ≠ t → u.dev.stack k = s.dev.stack k)) ∧
    ((s.dev.stack t).retrain ≠ none ∨ s.dev.trainDue t p = false → exec (.retrainStart t p) s = .next s) ∧
    ((s.dev.stack t).retrain = some p →
      (∃ u z, exec (.retrainEnd t true) s = .next u ∧ u.dev.stack t = { s.dev.stack t with
        retrain := none, retrainTries := 0, shaky := z,
        trained := kset (s.dev.stack t).trained p (s.dev.aoOf t, (s.dev.stack t).temp) }) ∧
      ((s.dev.stack t).retrainTries = 0 → ∃ u, exec (.retrainEnd t false) s = .next u ∧
        u.dev.stack t = { s.dev.stack t with retrainTries := 1 }) ∧
      ((s.dev.stack t).retrainTries ≠ 0 → ∃ u, exec (.retrainEnd t false) s = .next u ∧
        ((s.dev.stack t).repaired = none → p / 2 ∈ (u.dev.stack t).marked ∧ (u.dev.stack t).retrain = none ∧
          (u.dev.stack t).lost = (s.dev.stack t).lost) ∧
        (∀ r, (s.dev.stack t).repaired = some r →
          (r ≠ p / 2 → (u.dev.stack t).lost = true) ∧ (r = p / 2 → (u.dev.stack t).lost = (s.dev.stack t).lost)))) ∧
    (c < 32 →
      ((s.dev.stack t).due c = false → exec (.channelRetire t c) s = .next s) ∧
      ((s.dev.stack t).due c = true → (s.dev.stack t).repaired = none → ∃ u, exec (.channelRetire t c) s = .next u ∧
        (u.dev.stack t).repairing = true ∧ (u.dev.stack t).repaired = some c ∧
        u.dev.flash.repaired = s.dev.flash.repaired ++ [(t, c)]) ∧
      ((s.dev.stack t).due c = true → (∃ x, x ≠ c ∧ (s.dev.stack t).repaired = some x) → ∃ u, exec (.channelRetire t c) s = .next u ∧
        (u.dev.stack t).lost = true ∧ t ∈ u.dev.flash.lost)) ∧
    ((s.dev.stack t).repairing = true → (s.dev.stack t).repaired = some c → ∃ u, exec (.repairCopyDone ⟨t, lost⟩) s = .next u ∧
      (u.dev.stack t).repairing = false ∧ (u.dev.stack t).repaired = some c ∧ u.dev.mem = s.dev.mem ∧
      (lost = [] → (∀ e ∈ (s.dev.stack t).poison, e.addr % 64 = 0) → ∀ o, o % 64 = 0 → (s.dev.stack t).bad o = true →
        (u.dev.stack t).bad o = true)) ∧
    ((s.dev.stack t).repairing = false → exec (.repairCopyDone ⟨t, lost⟩) s = .next s) ∧
    (s.dev.regsLive = true → c < 32 → ∃ u, exec (.memRepairCtlStart t c) s = .next u ∧ u.dev.regs.repairStack = t ∧
      u.dev.regs.repairCh = c ∧
      ((s.dev.stack t).repairing = true → u.dev.regs.repairStatus = 5 ∧ u.dev.stack t = s.dev.stack t) ∧
      ((s.dev.stack t).repairing = false → (s.dev.stack t).repaired ≠ none →
        u.dev.regs.repairStatus = 4 ∧ u.dev.stack t = s.dev.stack t) ∧
      ((s.dev.stack t).repairing = false → (s.dev.stack t).repaired = none → u.dev.regs.repairStatus = 1 ∧
        (u.dev.stack t).repairing = true ∧ (u.dev.stack t).repaired = some c)) ∧
    (s.dev.regsLive = true → p < 64 → ∃ u, exec (.memRetrainCtlRequest t p) s = .next u ∧ u.dev.regs.retrainStack = t ∧
      u.dev.regs.retrainPch = p ∧
      ((s.dev.stack t).queued = none → u.dev.regs.retrainIgnored = false ∧ (u.dev.stack t).queued = some p) ∧
      ((s.dev.stack t).queued ≠ none → u.dev.regs.retrainIgnored = true ∧ u.dev.stack t = s.dev.stack t))

/-- R296, R307, R309 to R313, R519: the crock and its ports. Four equal expanders make the crock present, with 64 frames
kept as a spare; a port that goes down trains again; a late or failed request marks its own user alone. -/
def Obligations.CrockPorts : Prop :=
  ∀ (s : State) (caps : List Nat) (links : List (Nat × Nat)) (i w v mask a p pg cap : Nat) (r : CmdRef) (c : Cmd),
    (s.dev.crock.present = false → s.dev.crock.asked = false → 7 ≤ s.dev.trust.step → caps.length = 4 → (∀ x ∈ caps, x ≠ 0) →
      (∀ k, k < 4 → (s.dev.cport k).fenced = false ∧ crockLinkOk (links.getD k (16, 6)).1 (links.getD k (16, 6)).2 = true) → cap ∈ caps → (∀ x ∈ caps, cap ≤ x) →
      ∃ t, exec (.crockPresent ⟨caps, links⟩) s = .next t ∧ t.dev.crock.present = true ∧ t.dev.crock.capGib = cap ∧
        t.dev.crock.frames = 4 * cap * 512 - 64 ∧ t.dev.crock.spare.length = 64 ∧
        ∀ k, k < 4 → (t.dev.cport k).st = 2 ∧ (t.dev.cport k).width = (links.getD k (16, 6)).1 ∧
          (t.dev.cport k).speed = (links.getD k (16, 6)).2) ∧
    (s.dev.crock.present = true ∨ s.dev.crock.asked = true → exec (.crockPresent ⟨caps, links⟩) s = .next s) ∧
    (s.dev.crock.present = false → s.dev.crock.asked = false → 7 ≤ s.dev.trust.step → caps.length = 4 → 0 ∈ caps →
      ∃ t, exec (.crockPresent ⟨caps, links⟩) s = .next t ∧ t.dev.crock.present = false ∧ t.dev.crock.asked = true) ∧
    (i < 4 → (s.dev.cport i).st = 2 → ∃ t, exec (.crockLinkDown i) s = .next t ∧
      t.dev.cport i = { s.dev.cport i with st := 1 } ∧ ∀ k, k ≠ i → t.dev.cport k = s.dev.cport k) ∧
    ((s.dev.cport i).st ≠ 2 → exec (.crockLinkDown i) s = .next s) ∧
    (i < 4 → (s.dev.cport i).st = 1 → (s.dev.cport i).fenced = false → w = 16 ∨ w = 8 → v = 6 ∨ v = 5 →
      ∃ t u, exec (.crockPortRetrained i true w v) s = .next t ∧ exec (.crockPortRetrained i false w v) s = .next u ∧
        t.dev.cport i = { s.dev.cport i with st := 2, width := w, speed := v } ∧
        u.dev.cport i = { s.dev.cport i with st := 0 }) ∧
    (s.dev.regsLive = true → ∃ t, exec (.memCrockCtlRetrain mask) s = .next t ∧
      (i < 4 → bit mask i = true → (s.dev.cport i).fenced = false → t.dev.cport i = { s.dev.cport i with st := 1 }) ∧
      (bit mask i = false ∨ (s.dev.cport i).fenced = true ∨ 4 ≤ i → t.dev.cport i = s.dev.cport i)) ∧
    (s.dev.cmd r = some c → c.phase = .running → ∃ t u, exec (.crockRequestLate (.command r) a) s = .next t ∧
      exec (.crockAccessFailed (.command r) a) s = .next u ∧
      t.dev.cmd r = some { c with marks := c.marks.join (.fail stTierTimeout) } ∧
      u.dev.cmd r = some { c with marks := c.marks.join (.fail stTierError) }) ∧
    (s.dev.cmd r = some c → c.phase = .waiting → ∃ t u, exec (.crockRequestLate (.command r) a) s = .next t ∧
      exec (.crockAccessFailed (.command r) a) s = .next u ∧
      t.dev = s.dev.setCrock { s.dev.crock with due := s.dev.crock.due ++ [(a, stTierTimeout)] } ∧
      u.dev = s.dev.setCrock { s.dev.crock with due := s.dev.crock.due ++ [(a, stTierError)] }) ∧
    (s.dev.cmd r = none → exec (.crockRequestLate (.command r) a) s = .next s ∧
      exec (.crockAccessFailed (.command r) a) s = .next s) ∧
    (∀ x tf cf k, s.dev.part p = some x → x.tier.st pg = .moving tf cf true k →
      ∃ t y, exec (.crockRequestLate (.migration p pg) a) s = .next t ∧ t.dev.part p = some y ∧
        y.tier.st pg = .crock cf ∧ y.tier.frames = x.tier.frames ++ [tf] ∧ t.dev.mem = s.dev.mem)

/-- R302 to R304, R306, R308: migrations. One page moves at a time; a promotion takes a free tier frame for a page that is
due; a demotion takes no page that is pinned, protected or holds poison; a migration commits with its last chunk, and
one that fails leaves the page where it was with its data. -/
def Obligations.TierMoves : Prop :=
  ∀ (s : State) (p pg tf cf k : Nat) (x : Part) (rest : List Nat), s.dev.part p = some x →
    (s.dev.tierBusy = true → exec (.tierDemotion p) s = .next s ∧
      (x.tier.st pg = .crock cf → exec (.tierPromotion p pg) s = .next s)) ∧
    (s.dev.tierBusy = false → x.tier.st pg = .crock cf →
      (pg ∈ x.tier.queue ∨ pg ∈ x.tier.hints ∨ pg ∈ x.tier.twice →
        (x.tier.frames = tf :: rest → ∃ t y, exec (.tierPromotion p pg) s = .next t ∧ t.dev.part p = some y ∧
          y.tier.st pg = .moving tf cf true 0 ∧ y.tier.frames = rest ∧ (∀ g, g ≠ pg → y.tier.st g = x.tier.st g) ∧
          t.dev.mem = s.dev.mem) ∧
        (x.tier.frames = [] → ∃ t y, exec (.tierPromotion p pg) s = .next t ∧ t.dev.part p = some y ∧
          y.tier.st pg = .crock cf ∧ pg ∉ y.tier.queue)) ∧
      (pg ∉ x.tier.queue → pg ∉ x.tier.hints → pg ∉ x.tier.twice → exec (.tierPromotion p pg) s = .next s)) ∧
    (∃ t y, exec (.tierDemotion p) s = .next t ∧ t.dev.part p = some y ∧ t.dev.mem = s.dev.mem ∧
      ∀ g, y.tier.st g ≠ x.tier.st g → ∃ f c, (g, PageSt.stack f) ∈ x.tier.page ∧ y.tier.st g = .moving f c false 0 ∧
        c ∈ x.tier.cframes ∧ g ∉ x.tier.pinned ∧ g ∉ x.tier.window ∧ s.dev.framePoisoned x.tier f = false) ∧
    (s.dev.tierBusy = false → x.tier.cframes = cf :: rest → x.tier.demote = [pg] → x.tier.st pg = .stack tf →
      s.dev.demotable x.tier pg tf = true → ∃ t y, exec (.tierDemotion p) s = .next t ∧ t.dev.part p = some y ∧
        y.tier.st pg = .moving tf cf false 0 ∧ y.tier.cframes = rest ∧ pg ∉ y.tier.accessed ∧ pg ∉ y.tier.twice) ∧
    (8 ≤ x.tier.frames.length → x.tier.demote = [] → exec (.tierDemotion p) s = .next s) ∧
    (∀ promote, x.tier.st pg = .moving tf cf promote k → (∀ i, i < 4 → s.dev.cupShut p (36 + i) = false) →
      (∃ t y, exec (.migrationChunk p pg false) s = .next t ∧ t.dev.part p = some y ∧ t.dev.mem = s.dev.mem ∧
        y.tier.st pg = (if promote then .crock cf else .stack tf))) ∧
    (x.tier.st pg = .moving tf cf false k → (∀ i, i < 4 → s.dev.cupShut p (36 + i) = false) → s.dev.crockUp = true →
      (s.dev.frameBytes x.tier tf (4096 * k) 4096).2 = true →
      ∃ t y, exec (.migrationChunk p pg true) s = .next t ∧ t.dev.part p = some y ∧
        t.dev.mem = crockPut s.dev.mem (cf * 2097152 + 4096 * k) (s.dev.frameBytes x.tier tf (4096 * k) 4096).1 ∧
        (k < 511 → y.tier.st pg = .moving tf cf false (k + 1)) ∧
        (511 ≤ k → y.tier.st pg = .crock cf ∧ y.tier.frames = x.tier.frames ++ [tf])) ∧
    (∀ r, x.tier.st pg = .moving tf cf true k → (∀ i, i < 4 → s.dev.cupShut p (36 + i) = false) → s.dev.crockUp = true →
      r = (s.dev.chargeChunk p x.tier tf (4096 * k)).putFrame p x.tier tf (4096 * k)
        (crockGet s.dev.mem (cf * 2097152 + 4096 * k) 4096) → r.1.clear = true →
      ∃ t y, exec (.migrationChunk p pg true) s = .next t ∧ t.dev.part p = some y ∧
        t.dev.mem = r.2.mem ∧
        (k < 511 → y.tier.st pg = .moving tf cf true (k + 1)) ∧
        (511 ≤ k → y.tier.st pg = .stack tf ∧ cf ∈ y.tier.cframes)) ∧
    (∃ t y, exec (.agingPeriod p) s = .next t ∧ t.dev.part p = some y ∧ y.tier.twice = [] ∧ y.tier.page = x.tier.page ∧
      ∀ g f, x.tier.st g = .stack f → (g ∈ y.tier.accessed ↔ g ∈ x.tier.accessed))

/-- R416 to R418, R519, R565: the link of a fabric port. A flit that fails LCRC is answered by a link NAK and changes
nothing else; a data flit with the expected number advances it, any other data flit does not; what LACK covers leaves
the replay buffer; the eighth replay of a flit retrains the port, and the third failed training takes it down. -/
def Obligations.FabricLink : Prop :=
  ∀ (s : State) (p v : Nat) (flit b : Bytes) (cr : List Nat), p < 8 → b = padTo 256 flit →
    ((s.dev.port p).st ≠ 2 → exec (.flitReceive p flit) s = .next s ∧ exec (.replayTimer p) s = .next s) ∧
    ((s.dev.port p).st = 2 → field b 0xFC 4 ≠ lcrc (b.take 0xFC) → ∃ t, exec (.flitReceive p flit) s = .next t ∧
      t.dev = s.dev.setOut (s.dev.out ++ [.flit p ((s.dev.port p).frame 2 0 [])])) ∧
    ((s.dev.port p).st = 2 → field b 0xFC 4 = lcrc (b.take 0xFC) → ∃ t, exec (.flitReceive p flit) s = .next t ∧
      (byteAt b 1 / 16 = 0 → (s.dev.port p).waiting = [] → t.dev.port p = (s.dev.port p).heard b ∧ t.dev.out = s.dev.out) ∧
      (byteAt b 1 / 16 = 1 → field b 0 2 % 4096 = (s.dev.port p).expect →
        (t.dev.port p).expect = ((s.dev.port p).expect + 1) % 4096 ∧ (t.dev.port p).nakSent = false) ∧
      (byteAt b 1 / 16 = 1 → field b 0 2 % 4096 ≠ (s.dev.port p).expect → (t.dev.port p).expect = (s.dev.port p).expect ∧
        t.dev.fab.srcs = s.dev.fab.srcs) ∧
      (byteAt b 1 / 16 = 1 → field b 0 2 % 4096 ≠ (s.dev.port p).expect →
        (ahead 12 (field b 0 2 % 4096) (s.dev.port p).expect = false ∨ (s.dev.port p).nakSent = true) →
        (s.dev.port p).waiting = [] → t.dev.out = s.dev.out)) ∧
    (∀ x e l r, (s.dev.port p).replay = l ++ e :: r → seqOf e = field b 2 2 % 4096 → (∀ z ∈ l, seqOf z ≠ seqOf e) →
      x = (s.dev.port p).heard b → x.replay = r ∧ x.replays = 0) ∧
    ((s.dev.port p).st = 2 →
      ((s.dev.port p).replay = [] → exec (.replayTimer p) s = .next s) ∧
      ((s.dev.port p).replay ≠ [] → ∃ t, exec (.replayTimer p) s = .next t ∧
        ((s.dev.port p).replays < 7 → (t.dev.port p).replays = (s.dev.port p).replays + 1 ∧ (t.dev.port p).st = 2 ∧
          (t.dev.port p).replay = (s.dev.port p).replay) ∧
        (7 ≤ (s.dev.port p).replays → (t.dev.port p).st = 1 ∧ (t.dev.port p).replay = []))) ∧
    ((s.dev.port p).st = 1 → (s.dev.port p).fenced = false →
      (∃ t, exec (.portTrainingDone p true cr) s = .next t ∧ (t.dev.port p).st = 2 ∧ (t.dev.port p).fails = 0 ∧
        (t.dev.port p).expect = 0 ∧ ((s.dev.port p).waiting = [] → (t.dev.port p).next = 0 ∧ (t.dev.port p).replay = [])) ∧
      (∃ t, exec (.portTrainingDone p false cr) s = .next t ∧
        ((s.dev.port p).fails < 2 → t.dev.port p = { s.dev.port p with fails := (s.dev.port p).fails + 1 }) ∧
        (2 ≤ (s.dev.port p).fails → (t.dev.port p).st = 0 ∧ (t.dev.port p).replay = []))) ∧
    ((s.dev.port p).st ≠ 1 ∨ (s.dev.port p).fenced = true → ∀ ok, exec (.portTrainingDone p ok cr) s = .next s) ∧
    (s.dev.regsLive = true → ∃ t u, exec (.fabPortCtlRetrain p) s = .next t ∧ exec (.fabInjCount p v) s = .next u ∧
      ((s.dev.port p).fenced = false → t.dev.port p = { s.dev.port p with st := 1, replay := [], replays := 0 }) ∧
      ((s.dev.port p).fenced = true → t.dev = s.dev) ∧
      (s.dev.injLive = true → u.dev.port p = { s.dev.port p with inj := { (s.dev.port p).inj with limit := v % 65536, injected := 0 } }) ∧
      (s.dev.injLive = false → u.dev = s.dev))

/-- R421, R423, R424, R427, R428, R564: messages that have arrived whole. A message that has not arrived whole does
nothing. One that passes its window lands and commits, and cannot commit twice; one that does not pass is refused and
leaves memory alone. A read request is answered by a response with the data of the window. A window is open where its
partition has a job and owns its range. -/
def Obligations.FabricMessages : Prop :=
  ∀ (s : State) (src msg h v p : Nat) (f : Bytes) (l : List Bytes) (w : Window) (x : Part),
    (s.dev.arrived src msg 0 = none → exec (.write src msg) s = .next s) ∧
    (s.dev.arrived src msg 1 = none → exec (.readReq src msg) s = .next s) ∧
    (s.dev.arrived src msg 2 = none → exec (.readResp src msg) s = .next s) ∧
    (s.dev.arrived src msg 3 = none → exec (.fabricSignal src msg) s = .next s) ∧
    (w = kget s.dev.fab.wins (tpWindow f) {} →
      (s.dev.arrived src msg 0 = some (f :: l) → ∃ t, exec (.write src msg) s = .next t ∧ t.dev.arrived src msg 0 = none ∧
        (w.passes 0 (tpJob f) (tpWoff f) (msgData (f :: l)).1.length = true → t.dev.mem =
          (s.dev.landMarked w.part (w.base + tpWoff f) (msgData (f :: l)).1 (msgData (f :: l)).2).mem) ∧
        (w.passes 0 (tpJob f) (tpWoff f) (msgData (f :: l)).1.length = false → t.dev.mem = s.dev.mem)) ∧
      (s.dev.arrived src msg 3 = some (f :: l) → ∃ t, exec (.fabricSignal src msg) s = .next t ∧ t.dev.arrived src msg 3 = none ∧
        (w.passes 3 (tpJob f) (tpWoff f) (msgData (f :: l)).1.length = false → t.dev.mem = s.dev.mem) ∧
        (w.passes 3 (tpJob f) (tpWoff f) (msgData (f :: l)).1.length = true →
          (∀ e ∈ s.dev.ctxs, e.2.cstate = 4 → e.2.block ≠ 1) →
          t.dev.mem = (s.dev.landMarked w.part (w.base + tpWoff f) (padTo 8 (msgData (f :: l)).1) []).mem)) ∧
      (s.dev.arrived src msg 1 = some (f :: l) → ∃ t, exec (.readReq src msg) s = .next t ∧ t.dev.arrived src msg 1 = none ∧
        (w.passes 1 (tpJob f) (tpWoff f) (readLen (msgData (f :: l)).1) = false → t.dev.mem = s.dev.mem ∧
          t.dev.fab.msgs = s.dev.fab.msgs) ∧
        (w.passes 1 (tpJob f) (tpWoff f) (readLen (msgData (f :: l)).1) = true → ∃ m ∈ t.dev.fab.msgs, m.dst = src ∧ m.op = 2 ∧
          m.woff = field (msgData (f :: l)).1 4 4 * 65536 ∧
          m.data = (s.dev.read w.part Env.clean (w.base + tpWoff f) (field (msgData (f :: l)).1 0 4)).1.bytes))) ∧
    (w.passes 0 p h v = true → w.part ≠ 0 ∧ p = w.job ∧ p ≠ 0 ∧ w.write = true ∧ h + v ≤ w.size) ∧
    (w.passes 1 p h v = true → w.part ≠ 0 ∧ p = w.job ∧ p ≠ 0 ∧ w.read = true ∧ h + v ≤ w.size) ∧
    (w.passes 3 p h v = true → w.part ≠ 0 ∧ p = w.job ∧ p ≠ 0 ∧ w.signal = true ∧ h + v ≤ w.size) ∧
    (s.dev.arrived src msg 2 = some (f :: l) → ∃ t, exec (.readResp src msg) s = .next t ∧
      ((∀ z ∈ s.dev.fab.tags, z.tag ≠ tpWoff f / 65536) → t.dev.mem = s.dev.mem ∧ t.dev.arrived src msg 2 = none) ∧
      (∀ z, s.dev.fab.tags.find? (fun t => t.tag == tpWoff f / 65536) = some z → z.cmd = none → z.pot = false →
        z.len ≤ z.landed + (msgData (f :: l)).1.length →
        t.dev.mem = (((s.dev.commitMsg src msg).sayAck src msg).landMarked z.part (z.addr + z.landed) ((msgData (f :: l)).1.take (z.len - z.landed))
          (msgData (f :: l)).2).mem ∧ (∀ y ∈ t.dev.fab.tags, y.tag ≠ z.tag) ∧ t.dev.arrived src msg 2 = none)) ∧
    (s.dev.regsLive = true → h < 1024 → w = kget s.dev.fab.wins h {} → ∃ t, exec (.fabWinCfg h v) s = .next t ∧
      (∀ k, k ≠ h → kget t.dev.fab.wins k {} = kget s.dev.fab.wins k {}) ∧
      (v % 32 = 0 → (kget t.dev.fab.wins h {}).part = 0 ∧ (kget t.dev.fab.wins h {}).job = 0) ∧
      (s.dev.part (v % 32) = some x → v % 32 ≠ 0 →
        (x.job ≠ 0 → w.size ≠ 0 → s.dev.ownedRange (v % 32) w.base w.size = true → kget t.dev.fab.wins h {} =
          { w with read := bit v 8, write := bit v 9, signal := bit v 10, part := v % 32, reject := false, job := x.job }) ∧
        (x.job = 0 ∨ w.size = 0 ∨ s.dev.ownedRange (v % 32) w.base w.size = false →
          (kget t.dev.fab.wins h {}).part = 0 ∧ (kget t.dev.fab.wins h {}).reject = true)))

/-- R423, R425, R427: acknowledgement and failure. An ACK ends its message and makes an unreachable destination reachable;
a REFUSE fails the message with its cause; three expiries retransmit, the fourth fails the message and makes the
destination unreachable; a read tag that expires ends, and its command carries UNIT_FENCED. -/
def Obligations.FabricFailures : Prop :=
  ∀ (s : State) (src msg dst id tag : Nat) (f : Bytes) (m : Msg) (r : CmdRef) (c : Cmd),
    (s.dev.arrived src msg 4 = none → exec (.ack src msg) s = .next s) ∧
    (s.dev.arrived src msg 5 = none → exec (.refuse src msg) s = .next s) ∧
    (s.dev.arrived src msg 4 = some [f] → 4 ≤ (tpPayload f).length → (tpPayload f).length < 8 → id = field (tpPayload f) 0 4 →
      s.dev.fab.msgs.find? (fun m => m.dst == src && m.id == id) = some m →
      ∃ t, exec (.ack src msg) s = .next t ∧ (∀ z ∈ t.dev.fab.msgs, ¬(z.dst = src ∧ z.id = id)) ∧
        (t.dev.dest src).unreachable = false ∧ t.dev.arrived src msg 4 = none) ∧
    (s.dev.arrived src msg 5 = some [f] → id = field (tpPayload f) 0 4 →
      s.dev.fab.msgs.find? (fun m => m.dst == src && m.id == id) = some m → m.cmd = some r → s.dev.cmd r = some c →
      (∃ z ∈ c.await, ¬(z.1 = src ∧ z.2 = id)) → (∀ z ∈ s.dev.fab.tags, z.dst ≠ src) →
      ∃ t k, exec (.refuse src msg) s = .next t ∧ (∀ z ∈ t.dev.fab.msgs, ¬(z.dst = src ∧ z.id = id)) ∧ t.dev.cmd r = some k ∧
        field (tpPayload f) 4 2 ∈ k.marks.causes ∧ (src, id) ∉ k.await) ∧
    (s.dev.fab.msgs.find? (fun m => m.dst == dst && m.id == id) = none → exec (.e2eTimeout dst id) s = .next s) ∧
    (s.dev.fab.msgs.find? (fun m => m.dst == dst && m.id == id) = some m →
      (m.sent = false → exec (.e2eTimeout dst id) s = .next s) ∧
      (m.sent = true → m.expiries < 3 → ∃ t, exec (.e2eTimeout dst id) s = .next t ∧
        { m with expiries := m.expiries + 1 } ∈ t.dev.fab.msgs ∧ t.dev.dest dst = s.dev.dest dst) ∧
      (m.sent = true → 3 ≤ m.expiries → ∃ t, exec (.e2eTimeout dst id) s = .next t ∧
        (∀ z ∈ t.dev.fab.msgs, ¬(z.dst = dst ∧ z.id = id)) ∧ (t.dev.dest dst).unreachable = true)) ∧
    ((∀ z ∈ s.dev.fab.tags, z.tag ≠ tag) → exec (.readTagTimeout tag) s = .next s) ∧
    (∀ z, s.dev.fab.tags.find? (fun t => t.tag == tag) = some z → ∃ t, exec (.readTagTimeout tag) s = .next t ∧
      (∀ y ∈ t.dev.fab.tags, y.tag ≠ tag)) ∧
    ((s.dev.dest dst).unreachable = true → ∃ t, exec (.unreachableProbe dst) s = .next t ∧ ∃ z ∈ t.dev.fab.msgs, z.dst = dst ∧
      z.op = 6 ∧ z.id = (s.dev.dest dst).nextId) ∧
    ((s.dev.dest dst).unreachable = false → exec (.unreachableProbe dst) s = .next s)

/-- R434 to R436: the pod ring. A tail outside the ring is an error; RESET ends the request in progress with ABORTED; a
malformed entry is written back with INVALID_FIELD; ADMIT without a candidate ends with CORE_BUSY and asks the first
candidate otherwise; RECLAIM of an unknown job ends with NO_PARTITION; a module that does not confirm is written with
virtual function 0, the request ends with POISONED, and the module owes the reclaim. -/
def Obligations.PodRing : Prop :=
  ∀ (s : State) (v m vf : Nat) (raw sp pr : Bytes) (q : PodReq) (l : List Nat),
    (s.dev.regsLive = true →
      ((s.dev.fab.pod.acting = false ∨ s.dev.fab.pod.err = true) → exec (.fabPodTail v true) s = .next s) ∧
      exec (.fabPodTail v false) s = .next s ∧
      (s.dev.fab.pod.acting = true → s.dev.fab.pod.err = false →
        (v < 2 ^ s.dev.fab.pod.log2 → ∃ t, exec (.fabPodTail v true) s = .next t ∧
          t.dev.fab = { s.dev.fab with pod := { s.dev.fab.pod with tail := v } } ∧ t.dev = { s.dev with fab := t.dev.fab }) ∧
        (2 ^ s.dev.fab.pod.log2 ≤ v → v ≠ s.dev.fab.pod.tail → ∃ t, exec (.fabPodTail v true) s = .next t ∧
          t.dev.fab = { s.dev.fab with pod := { s.dev.fab.pod with err := true } })) ∧
      (s.dev.fab.pod.acting = false → exec .fabPodCtlReset s = .next s) ∧
      (s.dev.fab.pod.acting = true → ∃ t, exec .fabPodCtlReset s = .next t ∧
        t.dev.fab.pod = { s.dev.fab.pod with err := false, head := 0, tail := 0, req := none } ∧
        (s.dev.fab.pod.req = none → t.dev.out = s.dev.out) ∧
        (s.dev.fab.pod.req = some q → t.dev.out = s.dev.out ++ [.hostWrite (s.dev.fab.pod.base + 64 * q.slot + 0x38)
          (leBytes 2 stAborted ++ leBytes 1 1 ++ repByte 3 0 ++ leBytes 2 0)]))) ∧
    (s.dev.podReady = false → exec (.podAdmit (.ok raw) (.ok sp) (.ok pr)) s = .next s ∧ exec (.reclaim (.ok raw)) s = .next s) ∧
    (s.dev.podReady = true →
      (∃ t u, exec (.podAdmit .failed (.ok sp) (.ok pr)) s = .next t ∧ exec (.reclaim .failed) s = .next u ∧
        t.dev.fab.pod = { s.dev.fab.pod with err := true } ∧ u.dev.fab.pod = { s.dev.fab.pod with err := true }) ∧
      (byteAt (padTo 64 raw) 0 ≠ 2 → exec (.reclaim (.ok raw)) s = .next s ∧
        (podEntryOk (padTo 64 raw) = false → ∃ t, exec (.podAdmit (.ok raw) (.ok sp) (.ok pr)) s = .next t ∧
          t.dev.fab.pod = { s.dev.fab.pod with head := (s.dev.fab.pod.head + 1) % 2 ^ s.dev.fab.pod.log2 } ∧
          t.dev.out = s.dev.out ++ [.hostWrite (s.dev.fab.pod.base + 64 * s.dev.fab.pod.head + 0x38)
            (leBytes 2 stInvalidField ++ leBytes 1 1 ++ repByte 3 0 ++ leBytes 2 0)]) ∧
        (podEntryOk (padTo 64 raw) = true → specOk (padTo 512 sp) = true → byteAt (padTo 64 raw) 1 ≠ 0 →
          l = s.dev.candidates (parseSpec (padTo 512 sp))
            (field (if field (padTo 64 raw) 0x10 8 = 0 then [] else pr) 0 32) →
          (l = [] → ∃ t, exec (.podAdmit (.ok raw) (.ok sp) (.ok pr)) s = .next t ∧ t.dev.fab.pod =
            { s.dev.fab.pod with head := (s.dev.fab.pod.head + 1) % 2 ^ s.dev.fab.pod.log2, req := none } ∧
            t.dev.out = s.dev.out ++ [.hostWrite (s.dev.fab.pod.base + 64 * s.dev.fab.pod.head + 0x38)
              (leBytes 2 stCoreBusy ++ leBytes 1 1 ++ repByte 3 0 ++ leBytes 2 0)]) ∧
          (∀ r, l = m :: r → m ≠ s.dev.conf.module → ∃ t z, exec (.podAdmit (.ok raw) (.ok sp) (.ok pr)) s = .next t ∧
            t.dev.fab.pod.req = some z ∧ z.asked = some m ∧ z.todo = r ∧ z.job = s.dev.freeJob ∧ z.got = [] ∧
            z.want = byteAt (padTo 64 raw) 1 ∧
            ((s.dev.dest m).unreachable = false → ∃ y ∈ t.dev.fab.msgs, y.dst = m ∧ y.op = 6 ∧
              y.data = Config.mgmtWire (.enrol s.dev.freeJob (padTo 512 sp)))))) ∧
      (byteAt (padTo 64 raw) 0 = 2 → exec (.podAdmit (.ok raw) (.ok sp) (.ok pr)) s = .next s ∧
        (podEntryOk (padTo 64 raw) = true → kfind s.dev.fab.pod.jobs (field (padTo 64 raw) 2 2) = none →
          ∃ t, exec (.reclaim (.ok raw)) s = .next t ∧
          t.dev.out = s.dev.out ++ [.hostWrite (s.dev.fab.pod.base + 64 * s.dev.fab.pod.head + 0x38)
            (leBytes 2 stNoPartition ++ leBytes 1 1 ++ repByte 3 0 ++ leBytes 2 0)]) ∧
        (podEntryOk (padTo 64 raw) = true → kfind s.dev.fab.pod.jobs (field (padTo 64 raw) 2 2) = some [(m, vf)] →
          m ≠ s.dev.conf.module → m ∉ s.dev.fab.pod.lostMods → (s.dev.dest m).unreachable = false →
          ∃ t z, exec (.reclaim (.ok raw)) s = .next t ∧ t.dev.fab.pod.req = some z ∧ z.reclaim = true ∧ z.todo = [m] ∧
            z.job = field (padTo 64 raw) 2 2 ∧ ∃ y ∈ t.dev.fab.msgs, y.dst = m ∧ y.op = 6 ∧
              y.data = Config.mgmtWire (.reclaim (field (padTo 64 raw) 2 2))))) ∧
    (s.dev.fab.pod.req = none → exec (.podReclaimTimeout v m) s = .next s) ∧
    (s.dev.fab.pod.req = some q → q.reclaim = true → q.job = v → q.todo = [m] →
      ∃ t, exec (.podReclaimTimeout v m) s = .next t ∧ t.dev.fab.pod.req = none ∧ kfind t.dev.fab.pod.jobs v = none ∧
        (v, m) ∈ t.dev.fab.pod.owed ∧
        t.dev.out = s.dev.out ++ [.hostWrite q.result (resultBytes (q.got ++ [(m, 0)])),
          .hostWrite (s.dev.fab.pod.base + 64 * q.slot + 0x38) (leBytes 2 stPoisoned ++ leBytes 1 1 ++ repByte 3 0 ++ leBytes 2 0)])

/-- R433, R435 to R437: what modules tell each other. A heartbeat goes to the manager, or from it to every module that is
reachable; a heartbeat at the manager makes its module live and fills the job table; the loss of a heartbeat loses the
module, or the manager, and the standby takes over; a module asked to admit runs PART_CREATE and answers. -/
def Obligations.PodMessages : Prop :=
  ∀ (s : State) (src msg m p job st : Nat) (b : Beat) (x : Part) (q : PodReq) (spec : Bytes) (d1 : Dev),
    (s.dev.up = false → exec .heartbeatSend s = .next s) ∧
    (s.dev.up = true →
      (s.dev.fab.pod.acting = false → (s.dev.dest s.dev.manager).unreachable = false → ∃ t, exec .heartbeatSend s = .next t ∧
        ∃ z ∈ t.dev.fab.msgs, z.dst = s.dev.manager ∧ z.op = 6 ∧ z.data = Config.beatWire s.dev.beat) ∧
      (s.dev.fab.pod.acting = true → ∃ t, exec .heartbeatSend s = .next t ∧ ∀ k, k < 256 → k ≠ s.dev.conf.module →
        (s.dev.dest k).unreachable = false → ∃ z ∈ t.dev.fab.msgs, z.dst = k ∧ z.op = 6)) ∧
    (s.dev.arrived src msg 6 = none → ∀ c, exec (.heartbeat src msg b) s = .next s ∧ exec (.mgmt src msg c) s = .next s) ∧
    (s.dev.arrived src msg 6 ≠ none →
      (s.dev.fab.pod.acting = false → ∃ t, exec (.heartbeat src msg b) s = .next t ∧
        t.dev.fab.pod = { s.dev.fab.pod with mgrLost := false, curMgr := some src } ∧ t.dev.arrived src msg 6 = none) ∧
      (s.dev.fab.pod.acting = true → ∃ t, exec (.heartbeat src msg b) s = .next t ∧ kfind t.dev.fab.pod.beats src = some b ∧
        src ∉ t.dev.fab.pod.lostMods ∧ (∀ e ∈ t.dev.fab.pod.owed, e.2 ≠ src) ∧ t.dev.arrived src msg 6 = none) ∧
      (s.dev.fab.pod.acting = true → b.jobs = [(p, job)] → job ≠ 0 → (∀ e ∈ s.dev.fab.pod.owed, e.2 ≠ src) →
        (∀ e ∈ kget s.dev.fab.pod.jobs job [], e.1 ≠ src) → ∃ t, exec (.heartbeat src msg b) s = .next t ∧
        (src, p) ∈ kget t.dev.fab.pod.jobs job []) ∧
      (d1 = (s.dev.commitMsg src msg).sayAck src msg → d1.freeVf = some p →
        (∀ e, d1.admitPart p (padTo 512 spec) job = .inl e → (e.dest src).unreachable = false →
          ∃ t, exec (.mgmt src msg (.enrol job spec)) s = .next t ∧ t.dev.part p = e.part p ∧
            ∃ z ∈ t.dev.fab.msgs, z.dst = src ∧ z.op = 6 ∧ z.data = Config.mgmtWire (.admitted job p)) ∧
        (d1.admitPart p (padTo 512 spec) job = .inr st → (d1.dest src).unreachable = false →
          ∃ t, exec (.mgmt src msg (.enrol job spec)) s = .next t ∧ t.dev.parts = s.dev.parts ∧
            ∃ z ∈ t.dev.fab.msgs, z.dst = src ∧ z.op = 6 ∧ z.data = Config.mgmtWire (.admitRefused job st))) ∧
      (s.dev.fab.pod.req = some q → q.reclaim = true → q.job = job → q.todo = [src] → (∀ e ∈ q.got, e.2 ≠ 0) →
        s.dev.fab.pod.vfOf job src ≠ 0 → ∃ t, exec (.mgmt src msg (.reclaimed job)) s = .next t ∧ t.dev.fab.pod.req = none ∧
          kfind t.dev.fab.pod.jobs job = none ∧
          .hostWrite (s.dev.fab.pod.base + 64 * q.slot + 0x38) (leBytes 2 stSuccess ++ leBytes 1 1 ++ repByte 3 0 ++ leBytes 2 0)
            ∈ t.dev.out)) ∧
    (s.dev.fab.pod.acting = false ∨ kfind s.dev.fab.pod.beats m = none ∨ m ∈ s.dev.fab.pod.lostMods →
      exec (.heartbeatTimeout m) s = .next s) ∧
    (s.dev.fab.pod.acting = true → kfind s.dev.fab.pod.beats m = some b → m ∉ s.dev.fab.pod.lostMods →
      s.dev.fab.pod.req = none → ∃ t, exec (.heartbeatTimeout m) s = .next t ∧ m ∈ t.dev.fab.pod.lostMods ∧
        kfind t.dev.fab.pod.beats m = none ∧ t.dev.fab.pod.jobs = s.dev.fab.pod.jobs) ∧
    (s.dev.up = true → s.dev.fab.pod.acting = false → s.dev.fab.pod.mgrLost = false →
      ∃ t, exec .managerHeartbeatTimeout s = .next t ∧ t.dev.fab.pod = { s.dev.fab.pod with mgrLost := true } ∧
        t.dev.parts = s.dev.parts ∧ t.dev.fab.wins = s.dev.fab.wins) ∧
    (s.dev.up = false ∨ s.dev.fab.pod.acting = true ∨ s.dev.fab.pod.mgrLost = true →
      exec .managerHeartbeatTimeout s = .next s) ∧
    (s.dev.conf.role = 2 → s.dev.fab.pod.mgrLost = true → s.dev.fab.pod.acting = false → ∃ t, exec .standbyTakeover s = .next t ∧
      t.dev.fab.pod.acting = true ∧ t.dev.fab.pod.mgrLost = false ∧ t.dev.fab.pod.req = none ∧
      ∀ e ∈ s.dev.parts, e.2.job ≠ 0 → (s.dev.conf.module, e.1) ∈ kget t.dev.fab.pod.jobs e.2.job []) ∧
    (s.dev.conf.role ≠ 2 ∨ s.dev.fab.pod.mgrLost = false ∨ s.dev.fab.pod.acting = true → exec .standbyTakeover s = .next s)

/-- A step takes the command at the front of the queue and runs it on the state with the queue's rest, whatever the state.
Every command answers a next state, whatever the state and its operands: none faults or is refused, and none changes
the queue. On an empty queue an always-on cycle passes, which changes the dies' counts and clean marks alone (the
model's choice, log 3). -/
def Obligations.StepRunsCommand : Prop :=
  ∀ (s : State) (c : Instr) (rest : List Instr),
    step { s with pending := c :: rest } = exec c { s with pending := rest } ∧
    (s.pending = [] → ∃ t, step s = .next t ∧ t.pending = [] ∧
      (∀ k, k < 23 → kget t.dev.ao k 0 = kget s.dev.ao k 0 + 1) ∧
      t.dev = { s.dev with ao := t.dev.ao, saf := { s.dev.saf with clean := t.dev.saf.clean } }) ∧
    (∃ t, exec c s = .next t ∧ t.pending = s.pending) ∧
    (∀ nbits w, s.withFetchWord nbits w = s)

/-- What the registers hold right after a power-on reset (the Reset columns of R548 to R566), the queue empty, the memory
listing nothing. Values that the columns mark as held in flash, and those of the configuration, are the model's (log
25). -/
def Obligations.ResetState : Prop :=
  State.reset.pending = [] ∧ State.reset.dev.mem = [] ∧ State.reset.ok ∧ State.reset.dev.out = [] ∧
  (∀ e ∈ ([(0x10000, 0x00B01640), (0x10004, 0xFFFFFF00), (0x1000C, 0), (0x11000, 1200), (0x11004, 1200), (0x11008, 0), (0x1100C, 8),
      (0x11010, 0), (0x11018, 0), (0x1101C, 10), (0x11020, 100), (0x11024, 0x64646413), (0x11028, 0), (0x1102C, 0), (0x11030, 0),
      (0x11034, 0), (0x11038, 0), (0x12080, 0), (0x12084, 0), (0x12088, 10), (0x1208C, 32), (0x1500C, 100), (0x15088, 0), (0x15090, 0),
      (0x15094, 0), (0x17000, 0), (0x18000, 0)] : List (Nat × Nat)), State.reset.dev.readReg 0 e.1 = e.2) ∧
  (∀ s, s < 16 → State.reset.dev.readReg 0 (0x12000 + 4 * s) = 0 ∧ State.reset.dev.readReg 0 (0x12040 + 4 * s) = 0xFF00 ∧
    State.reset.dev.readReg 0 (0x11080 + 4 * s) = 0) ∧
  (∀ p, p < 8 → State.reset.dev.readReg 0 (0x15040 + 4 * p) = 0) ∧
  (∀ f, f < 17 →
    (∀ e ∈ ([(0x0, 0), (0x8, 0), (0x100, 50), (0x104, 20), (0x108, 0), (0x110, 0x20001), (0x114, 0x80004), (0x118, 0x200010),
        (0x11C, 0x800040), (0x208, 0), (0x20C, 0), (0x210, 0x10000), (0x218, 0)] : List (Nat × Nat)),
      State.reset.dev.readReg f e.1 = e.2) ∧
    State.reset.dev.readReg f 0x4 = (if f = 0 then 0 else 16) ∧
    (∀ w, w < 32 → State.reset.dev.readReg f (0x800 + 4 * w) = 0 ∧ State.reset.dev.readReg f (0x880 + 4 * w) = 0 ∧
      State.reset.dev.readReg f (0x900 + 4 * w) = 0) ∧
    (∀ n, n < 1024 → State.reset.dev.readReg f (0x2000 + 4 * n) = 0 ∧ State.reset.dev.readReg f (0x3000 + 4 * n) = 0 ∧
      State.reset.dev.readReg f (0x1000 + 4 * n) = (if 129 ≤ n ∧ n < 264 then 1 else 0))) ∧
  (∀ c, c < 128 → (State.reset.dev.dma c).owner = 0x1F ∧ (State.reset.dev.dma c).source = 129 + c ∧
    (State.reset.dev.dma c).head = 0 ∧ (State.reset.dev.dma c).err = false ∧ State.reset.dev.readReg 0 (0x16000 + 4 * c) = 0x1F)

/-- The tables and the memory keep their canonical forms in every step, from every state that has them: addresses strictly
rising, no entry equal to what an unlisted address reads as; interrupt sources, partitions and waiting cores listed
once each, in order, and only those that exist. -/
def Obligations.StepKeepsInvariant : Prop :=
 ∀ s t : State, s.ok → step s = .next t → t.ok

/-- R492: a rollback counter never decreases, whatever the step, resets and failed updates among them. -/
def Obligations.CountersNeverFall : Prop :=
  ∀ s t : State, step s = .next t → s.dev.flash.fwCtr ≤ t.dev.flash.fwCtr ∧ s.dev.flash.recCtr ≤ t.dev.flash.recCtr

/-- R77, R78: where the sums of a weight tile are what R77 gives, the residue checker expects of every row exactly the sum
of the deltas that the array computes: no fault-free row is poisoned. R49: within the ranges of its operands, the
accumulator of a column stays below 2^46 over up to 256 K tiles. -/
def Obligations.ArrayExact : Prop :=
  (∀ (j : Job) (q : QRow) (t : Tile) (n kt : Nat) (low : Bool) (fw : List Nat),
    (∀ k, k < 256 → t.sum k = ((List.range 256).map (fun c =>
      t.w n low k c * (2 ^ j.wshift t fw c (k / 32) : Nat))).foldl (· + ·) 0) →
    residueOf q t kt = ((List.range 256).map (fun c => dotDelta q t n low (j.wshift t fw c) kt c)).foldl (· + ·) 0) ∧
  (∀ (j : Job) (q : QRow) (ts : Nat → Tile) (n c m : Nat) (low : Bool) (fw : List Nat), m ≤ 256 →
    (∀ i, (q.q.getD i 0).natAbs ≤ 127) → (∀ kt k, ((ts kt).w n low k c).natAbs ≤ 128) →
    (∀ kt b, b < 8 → (q.x.getD (8 * kt + b) q.fl - q.fl) + j.wshift (ts kt) fw c b ≤ 16) →
    (((List.range m).map (fun kt => dotDelta q (ts kt) n low (j.wshift (ts kt) fw c) kt c)).foldl (· + ·) 0).natAbs < 2 ^ 46)

/-- R40, R46, R49: what the quantizer leaves of a row: elements of -127 to 127, of -7 to 7 in forced A4 mode; block
exponents that are 0xFF (a non-finite block, whose row is marked) or lie within 8 of the row's floor, at most 254.
R52: stochastic rounding of a finite value keeps its sign and gives the value below it in magnitude or the next one,
but never an infinity; of the 65,536 random values exactly (low 16 bits) round up. A NaN gives the canonical one, an
infinity itself. -/
def Obligations.RoundingExact : Prop :=
  (∀ (p : QuantP) (parts : List (List F32)) (r : QRow), r ∈ (quantRow p parts).1 →
    (∀ v ∈ r.q, -127 ≤ v ∧ v ≤ 127) ∧ (p.mode = 2 → p.three = false → ∀ v ∈ r.q, -7 ≤ v ∧ v ≤ 7) ∧
    (∀ x ∈ r.x, (x = 0xFF ∧ r.nan = true) ∨ (r.fl ≤ x ∧ x ≤ r.fl + 8 ∧ x ≤ 254))) ∧
  (∀ x : F32, x < 2 ^ 32 →
    (f32IsNaN x = true → ∀ r, srBf16 x r = 0x7FC0) ∧
    (f32IsInf x = true → ∀ r, srBf16 x r = x / 65536) ∧
    (f32IsFinite x = true →
      (∀ r, r < 65536 → srBf16 x r = min (x / 65536 % 32768 + (if 65536 ≤ x % 65536 + r then 1 else 0)) 0x7F7F + x / 2 ^ 31 * 32768) ∧
      (x / 65536 % 32768 < 0x7F7F →
        ((List.range 65536).filter (fun r => srBf16 x r == x / 65536 + 1)).length = x % 65536)))
end

