-- ==== Sys2Proof/Laws/State.lean ====
section
/-!
SUPPORT. One lemma per field and update of the device, and what a command's effect on the device leaves of the state, each
true by unfolding: later proofs rewrite with these and never unfold an update.
-/

namespace Sys2Proof.Machine

@[simp] theorem State.onDev_dev (s : State) (f : Dev → Dev) : (s.onDev f).dev = f s.dev := rfl
@[simp] theorem State.onDev_pending (s : State) (f : Dev → Dev) : (s.onDev f).pending = s.pending := rfl

section
variable (d : Dev)

@[simp] theorem Dev.setAo_ao (x : KMap Nat) : (d.setAo x).ao = x := rfl
@[simp] theorem Dev.setAo_fns (x : KMap Nat) : (d.setAo x).fns = d.fns := rfl
@[simp] theorem Dev.setAo_qps (x : KMap Nat) : (d.setAo x).qps = d.qps := rfl
@[simp] theorem Dev.setAo_parts (x : KMap Nat) : (d.setAo x).parts = d.parts := rfl
@[simp] theorem Dev.setAo_ctxs (x : KMap Nat) : (d.setAo x).ctxs = d.ctxs := rfl
@[simp] theorem Dev.setAo_regions (x : KMap Nat) : (d.setAo x).regions = d.regions := rfl
@[simp] theorem Dev.setAo_runs (x : KMap Nat) : (d.setAo x).runs = d.runs := rfl
@[simp] theorem Dev.setAo_cores (x : KMap Nat) : (d.setAo x).cores = d.cores := rfl
@[simp] theorem Dev.setAo_skillets (x : KMap Nat) : (d.setAo x).skillets = d.skillets := rfl
@[simp] theorem Dev.setAo_dram (x : KMap Nat) : (d.setAo x).dram = d.dram := rfl
@[simp] theorem Dev.setAo_jds (x : KMap Nat) : (d.setAo x).jds = d.jds := rfl
@[simp] theorem Dev.setAo_dmas (x : KMap Nat) : (d.setAo x).dmas = d.dmas := rfl
@[simp] theorem Dev.setAo_crock (x : KMap Nat) : (d.setAo x).crock = d.crock := rfl
@[simp] theorem Dev.setAo_fab (x : KMap Nat) : (d.setAo x).fab = d.fab := rfl
@[simp] theorem Dev.setAo_cups (x : KMap Nat) : (d.setAo x).cups = d.cups := rfl
@[simp] theorem Dev.setAo_pwr (x : KMap Nat) : (d.setAo x).pwr = d.pwr := rfl
@[simp] theorem Dev.setAo_sense (x : KMap Nat) : (d.setAo x).sense = d.sense := rfl
@[simp] theorem Dev.setAo_saf (x : KMap Nat) : (d.setAo x).saf = d.saf := rfl
@[simp] theorem Dev.setAo_flash (x : KMap Nat) : (d.setAo x).flash = d.flash := rfl
@[simp] theorem Dev.setAo_conf (x : KMap Nat) : (d.setAo x).conf = d.conf := rfl
@[simp] theorem Dev.setAo_trust (x : KMap Nat) : (d.setAo x).trust = d.trust := rfl
@[simp] theorem Dev.setAo_mod (x : KMap Nat) : (d.setAo x).mod = d.mod := rfl
@[simp] theorem Dev.setAo_regs (x : KMap Nat) : (d.setAo x).regs = d.regs := rfl
@[simp] theorem Dev.setAo_cnt (x : KMap Nat) : (d.setAo x).cnt = d.cnt := rfl
@[simp] theorem Dev.setAo_ovf (x : KMap Nat) : (d.setAo x).ovf = d.ovf := rfl
@[simp] theorem Dev.setAo_mem (x : KMap Nat) : (d.setAo x).mem = d.mem := rfl
@[simp] theorem Dev.setAo_potBad (x : KMap Nat) : (d.setAo x).potBad = d.potBad := rfl
@[simp] theorem Dev.setAo_out (x : KMap Nat) : (d.setAo x).out = d.out := rfl
@[simp] theorem Dev.setAo_free (x : KMap Nat) : (d.setAo x).free = d.free := rfl
@[simp] theorem Dev.setAo_nextRun (x : KMap Nat) : (d.setAo x).nextRun = d.nextRun := rfl

@[simp] theorem Dev.setFns_fns (x : KMap FnView) : (d.setFns x).fns = x := rfl
@[simp] theorem Dev.setFns_ao (x : KMap FnView) : (d.setFns x).ao = d.ao := rfl
@[simp] theorem Dev.setFns_qps (x : KMap FnView) : (d.setFns x).qps = d.qps := rfl
@[simp] theorem Dev.setFns_parts (x : KMap FnView) : (d.setFns x).parts = d.parts := rfl
@[simp] theorem Dev.setFns_ctxs (x : KMap FnView) : (d.setFns x).ctxs = d.ctxs := rfl
@[simp] theorem Dev.setFns_regions (x : KMap FnView) : (d.setFns x).regions = d.regions := rfl
@[simp] theorem Dev.setFns_runs (x : KMap FnView) : (d.setFns x).runs = d.runs := rfl
@[simp] theorem Dev.setFns_cores (x : KMap FnView) : (d.setFns x).cores = d.cores := rfl
@[simp] theorem Dev.setFns_skillets (x : KMap FnView) : (d.setFns x).skillets = d.skillets := rfl
@[simp] theorem Dev.setFns_dram (x : KMap FnView) : (d.setFns x).dram = d.dram := rfl
@[simp] theorem Dev.setFns_jds (x : KMap FnView) : (d.setFns x).jds = d.jds := rfl
@[simp] theorem Dev.setFns_dmas (x : KMap FnView) : (d.setFns x).dmas = d.dmas := rfl
@[simp] theorem Dev.setFns_crock (x : KMap FnView) : (d.setFns x).crock = d.crock := rfl
@[simp] theorem Dev.setFns_fab (x : KMap FnView) : (d.setFns x).fab = d.fab := rfl
@[simp] theorem Dev.setFns_cups (x : KMap FnView) : (d.setFns x).cups = d.cups := rfl
@[simp] theorem Dev.setFns_pwr (x : KMap FnView) : (d.setFns x).pwr = d.pwr := rfl
@[simp] theorem Dev.setFns_sense (x : KMap FnView) : (d.setFns x).sense = d.sense := rfl
@[simp] theorem Dev.setFns_saf (x : KMap FnView) : (d.setFns x).saf = d.saf := rfl
@[simp] theorem Dev.setFns_flash (x : KMap FnView) : (d.setFns x).flash = d.flash := rfl
@[simp] theorem Dev.setFns_conf (x : KMap FnView) : (d.setFns x).conf = d.conf := rfl
@[simp] theorem Dev.setFns_trust (x : KMap FnView) : (d.setFns x).trust = d.trust := rfl
@[simp] theorem Dev.setFns_mod (x : KMap FnView) : (d.setFns x).mod = d.mod := rfl
@[simp] theorem Dev.setFns_regs (x : KMap FnView) : (d.setFns x).regs = d.regs := rfl
@[simp] theorem Dev.setFns_cnt (x : KMap FnView) : (d.setFns x).cnt = d.cnt := rfl
@[simp] theorem Dev.setFns_ovf (x : KMap FnView) : (d.setFns x).ovf = d.ovf := rfl
@[simp] theorem Dev.setFns_mem (x : KMap FnView) : (d.setFns x).mem = d.mem := rfl
@[simp] theorem Dev.setFns_potBad (x : KMap FnView) : (d.setFns x).potBad = d.potBad := rfl
@[simp] theorem Dev.setFns_out (x : KMap FnView) : (d.setFns x).out = d.out := rfl
@[simp] theorem Dev.setFns_free (x : KMap FnView) : (d.setFns x).free = d.free := rfl
@[simp] theorem Dev.setFns_nextRun (x : KMap FnView) : (d.setFns x).nextRun = d.nextRun := rfl

@[simp] theorem Dev.setQps_qps (x : KMap Qp) : (d.setQps x).qps = x := rfl
@[simp] theorem Dev.setQps_ao (x : KMap Qp) : (d.setQps x).ao = d.ao := rfl
@[simp] theorem Dev.setQps_fns (x : KMap Qp) : (d.setQps x).fns = d.fns := rfl
@[simp] theorem Dev.setQps_parts (x : KMap Qp) : (d.setQps x).parts = d.parts := rfl
@[simp] theorem Dev.setQps_ctxs (x : KMap Qp) : (d.setQps x).ctxs = d.ctxs := rfl
@[simp] theorem Dev.setQps_regions (x : KMap Qp) : (d.setQps x).regions = d.regions := rfl
@[simp] theorem Dev.setQps_runs (x : KMap Qp) : (d.setQps x).runs = d.runs := rfl
@[simp] theorem Dev.setQps_cores (x : KMap Qp) : (d.setQps x).cores = d.cores := rfl
@[simp] theorem Dev.setQps_skillets (x : KMap Qp) : (d.setQps x).skillets = d.skillets := rfl
@[simp] theorem Dev.setQps_dram (x : KMap Qp) : (d.setQps x).dram = d.dram := rfl
@[simp] theorem Dev.setQps_jds (x : KMap Qp) : (d.setQps x).jds = d.jds := rfl
@[simp] theorem Dev.setQps_dmas (x : KMap Qp) : (d.setQps x).dmas = d.dmas := rfl
@[simp] theorem Dev.setQps_crock (x : KMap Qp) : (d.setQps x).crock = d.crock := rfl
@[simp] theorem Dev.setQps_fab (x : KMap Qp) : (d.setQps x).fab = d.fab := rfl
@[simp] theorem Dev.setQps_cups (x : KMap Qp) : (d.setQps x).cups = d.cups := rfl
@[simp] theorem Dev.setQps_pwr (x : KMap Qp) : (d.setQps x).pwr = d.pwr := rfl
@[simp] theorem Dev.setQps_sense (x : KMap Qp) : (d.setQps x).sense = d.sense := rfl
@[simp] theorem Dev.setQps_saf (x : KMap Qp) : (d.setQps x).saf = d.saf := rfl
@[simp] theorem Dev.setQps_flash (x : KMap Qp) : (d.setQps x).flash = d.flash := rfl
@[simp] theorem Dev.setQps_conf (x : KMap Qp) : (d.setQps x).conf = d.conf := rfl
@[simp] theorem Dev.setQps_trust (x : KMap Qp) : (d.setQps x).trust = d.trust := rfl
@[simp] theorem Dev.setQps_mod (x : KMap Qp) : (d.setQps x).mod = d.mod := rfl
@[simp] theorem Dev.setQps_regs (x : KMap Qp) : (d.setQps x).regs = d.regs := rfl
@[simp] theorem Dev.setQps_cnt (x : KMap Qp) : (d.setQps x).cnt = d.cnt := rfl
@[simp] theorem Dev.setQps_ovf (x : KMap Qp) : (d.setQps x).ovf = d.ovf := rfl
@[simp] theorem Dev.setQps_mem (x : KMap Qp) : (d.setQps x).mem = d.mem := rfl
@[simp] theorem Dev.setQps_potBad (x : KMap Qp) : (d.setQps x).potBad = d.potBad := rfl
@[simp] theorem Dev.setQps_out (x : KMap Qp) : (d.setQps x).out = d.out := rfl
@[simp] theorem Dev.setQps_free (x : KMap Qp) : (d.setQps x).free = d.free := rfl
@[simp] theorem Dev.setQps_nextRun (x : KMap Qp) : (d.setQps x).nextRun = d.nextRun := rfl

@[simp] theorem Dev.setParts_parts (x : KMap Part) : (d.setParts x).parts = x := rfl
@[simp] theorem Dev.setParts_ao (x : KMap Part) : (d.setParts x).ao = d.ao := rfl
@[simp] theorem Dev.setParts_fns (x : KMap Part) : (d.setParts x).fns = d.fns := rfl
@[simp] theorem Dev.setParts_qps (x : KMap Part) : (d.setParts x).qps = d.qps := rfl
@[simp] theorem Dev.setParts_ctxs (x : KMap Part) : (d.setParts x).ctxs = d.ctxs := rfl
@[simp] theorem Dev.setParts_regions (x : KMap Part) : (d.setParts x).regions = d.regions := rfl
@[simp] theorem Dev.setParts_runs (x : KMap Part) : (d.setParts x).runs = d.runs := rfl
@[simp] theorem Dev.setParts_cores (x : KMap Part) : (d.setParts x).cores = d.cores := rfl
@[simp] theorem Dev.setParts_skillets (x : KMap Part) : (d.setParts x).skillets = d.skillets := rfl
@[simp] theorem Dev.setParts_dram (x : KMap Part) : (d.setParts x).dram = d.dram := rfl
@[simp] theorem Dev.setParts_jds (x : KMap Part) : (d.setParts x).jds = d.jds := rfl
@[simp] theorem Dev.setParts_dmas (x : KMap Part) : (d.setParts x).dmas = d.dmas := rfl
@[simp] theorem Dev.setParts_crock (x : KMap Part) : (d.setParts x).crock = d.crock := rfl
@[simp] theorem Dev.setParts_fab (x : KMap Part) : (d.setParts x).fab = d.fab := rfl
@[simp] theorem Dev.setParts_cups (x : KMap Part) : (d.setParts x).cups = d.cups := rfl
@[simp] theorem Dev.setParts_pwr (x : KMap Part) : (d.setParts x).pwr = d.pwr := rfl
@[simp] theorem Dev.setParts_sense (x : KMap Part) : (d.setParts x).sense = d.sense := rfl
@[simp] theorem Dev.setParts_saf (x : KMap Part) : (d.setParts x).saf = d.saf := rfl
@[simp] theorem Dev.setParts_flash (x : KMap Part) : (d.setParts x).flash = d.flash := rfl
@[simp] theorem Dev.setParts_conf (x : KMap Part) : (d.setParts x).conf = d.conf := rfl
@[simp] theorem Dev.setParts_trust (x : KMap Part) : (d.setParts x).trust = d.trust := rfl
@[simp] theorem Dev.setParts_mod (x : KMap Part) : (d.setParts x).mod = d.mod := rfl
@[simp] theorem Dev.setParts_regs (x : KMap Part) : (d.setParts x).regs = d.regs := rfl
@[simp] theorem Dev.setParts_cnt (x : KMap Part) : (d.setParts x).cnt = d.cnt := rfl
@[simp] theorem Dev.setParts_ovf (x : KMap Part) : (d.setParts x).ovf = d.ovf := rfl
@[simp] theorem Dev.setParts_mem (x : KMap Part) : (d.setParts x).mem = d.mem := rfl
@[simp] theorem Dev.setParts_potBad (x : KMap Part) : (d.setParts x).potBad = d.potBad := rfl
@[simp] theorem Dev.setParts_out (x : KMap Part) : (d.setParts x).out = d.out := rfl
@[simp] theorem Dev.setParts_free (x : KMap Part) : (d.setParts x).free = d.free := rfl
@[simp] theorem Dev.setParts_nextRun (x : KMap Part) : (d.setParts x).nextRun = d.nextRun := rfl

@[simp] theorem Dev.setCtxs_ctxs (x : KMap Ctx) : (d.setCtxs x).ctxs = x := rfl
@[simp] theorem Dev.setCtxs_ao (x : KMap Ctx) : (d.setCtxs x).ao = d.ao := rfl
@[simp] theorem Dev.setCtxs_fns (x : KMap Ctx) : (d.setCtxs x).fns = d.fns := rfl
@[simp] theorem Dev.setCtxs_qps (x : KMap Ctx) : (d.setCtxs x).qps = d.qps := rfl
@[simp] theorem Dev.setCtxs_parts (x : KMap Ctx) : (d.setCtxs x).parts = d.parts := rfl
@[simp] theorem Dev.setCtxs_regions (x : KMap Ctx) : (d.setCtxs x).regions = d.regions := rfl
@[simp] theorem Dev.setCtxs_runs (x : KMap Ctx) : (d.setCtxs x).runs = d.runs := rfl
@[simp] theorem Dev.setCtxs_cores (x : KMap Ctx) : (d.setCtxs x).cores = d.cores := rfl
@[simp] theorem Dev.setCtxs_skillets (x : KMap Ctx) : (d.setCtxs x).skillets = d.skillets := rfl
@[simp] theorem Dev.setCtxs_dram (x : KMap Ctx) : (d.setCtxs x).dram = d.dram := rfl
@[simp] theorem Dev.setCtxs_jds (x : KMap Ctx) : (d.setCtxs x).jds = d.jds := rfl
@[simp] theorem Dev.setCtxs_dmas (x : KMap Ctx) : (d.setCtxs x).dmas = d.dmas := rfl
@[simp] theorem Dev.setCtxs_crock (x : KMap Ctx) : (d.setCtxs x).crock = d.crock := rfl
@[simp] theorem Dev.setCtxs_fab (x : KMap Ctx) : (d.setCtxs x).fab = d.fab := rfl
@[simp] theorem Dev.setCtxs_cups (x : KMap Ctx) : (d.setCtxs x).cups = d.cups := rfl
@[simp] theorem Dev.setCtxs_pwr (x : KMap Ctx) : (d.setCtxs x).pwr = d.pwr := rfl
@[simp] theorem Dev.setCtxs_sense (x : KMap Ctx) : (d.setCtxs x).sense = d.sense := rfl
@[simp] theorem Dev.setCtxs_saf (x : KMap Ctx) : (d.setCtxs x).saf = d.saf := rfl
@[simp] theorem Dev.setCtxs_flash (x : KMap Ctx) : (d.setCtxs x).flash = d.flash := rfl
@[simp] theorem Dev.setCtxs_conf (x : KMap Ctx) : (d.setCtxs x).conf = d.conf := rfl
@[simp] theorem Dev.setCtxs_trust (x : KMap Ctx) : (d.setCtxs x).trust = d.trust := rfl
@[simp] theorem Dev.setCtxs_mod (x : KMap Ctx) : (d.setCtxs x).mod = d.mod := rfl
@[simp] theorem Dev.setCtxs_regs (x : KMap Ctx) : (d.setCtxs x).regs = d.regs := rfl
@[simp] theorem Dev.setCtxs_cnt (x : KMap Ctx) : (d.setCtxs x).cnt = d.cnt := rfl
@[simp] theorem Dev.setCtxs_ovf (x : KMap Ctx) : (d.setCtxs x).ovf = d.ovf := rfl
@[simp] theorem Dev.setCtxs_mem (x : KMap Ctx) : (d.setCtxs x).mem = d.mem := rfl
@[simp] theorem Dev.setCtxs_potBad (x : KMap Ctx) : (d.setCtxs x).potBad = d.potBad := rfl
@[simp] theorem Dev.setCtxs_out (x : KMap Ctx) : (d.setCtxs x).out = d.out := rfl
@[simp] theorem Dev.setCtxs_free (x : KMap Ctx) : (d.setCtxs x).free = d.free := rfl
@[simp] theorem Dev.setCtxs_nextRun (x : KMap Ctx) : (d.setCtxs x).nextRun = d.nextRun := rfl

@[simp] theorem Dev.setRegions_regions (x : KMap Region) : (d.setRegions x).regions = x := rfl
@[simp] theorem Dev.setRegions_ao (x : KMap Region) : (d.setRegions x).ao = d.ao := rfl
@[simp] theorem Dev.setRegions_fns (x : KMap Region) : (d.setRegions x).fns = d.fns := rfl
@[simp] theorem Dev.setRegions_qps (x : KMap Region) : (d.setRegions x).qps = d.qps := rfl
@[simp] theorem Dev.setRegions_parts (x : KMap Region) : (d.setRegions x).parts = d.parts := rfl
@[simp] theorem Dev.setRegions_ctxs (x : KMap Region) : (d.setRegions x).ctxs = d.ctxs := rfl
@[simp] theorem Dev.setRegions_runs (x : KMap Region) : (d.setRegions x).runs = d.runs := rfl
@[simp] theorem Dev.setRegions_cores (x : KMap Region) : (d.setRegions x).cores = d.cores := rfl
@[simp] theorem Dev.setRegions_skillets (x : KMap Region) : (d.setRegions x).skillets = d.skillets := rfl
@[simp] theorem Dev.setRegions_dram (x : KMap Region) : (d.setRegions x).dram = d.dram := rfl
@[simp] theorem Dev.setRegions_jds (x : KMap Region) : (d.setRegions x).jds = d.jds := rfl
@[simp] theorem Dev.setRegions_dmas (x : KMap Region) : (d.setRegions x).dmas = d.dmas := rfl
@[simp] theorem Dev.setRegions_crock (x : KMap Region) : (d.setRegions x).crock = d.crock := rfl
@[simp] theorem Dev.setRegions_fab (x : KMap Region) : (d.setRegions x).fab = d.fab := rfl
@[simp] theorem Dev.setRegions_cups (x : KMap Region) : (d.setRegions x).cups = d.cups := rfl
@[simp] theorem Dev.setRegions_pwr (x : KMap Region) : (d.setRegions x).pwr = d.pwr := rfl
@[simp] theorem Dev.setRegions_sense (x : KMap Region) : (d.setRegions x).sense = d.sense := rfl
@[simp] theorem Dev.setRegions_saf (x : KMap Region) : (d.setRegions x).saf = d.saf := rfl
@[simp] theorem Dev.setRegions_flash (x : KMap Region) : (d.setRegions x).flash = d.flash := rfl
@[simp] theorem Dev.setRegions_conf (x : KMap Region) : (d.setRegions x).conf = d.conf := rfl
@[simp] theorem Dev.setRegions_trust (x : KMap Region) : (d.setRegions x).trust = d.trust := rfl
@[simp] theorem Dev.setRegions_mod (x : KMap Region) : (d.setRegions x).mod = d.mod := rfl
@[simp] theorem Dev.setRegions_regs (x : KMap Region) : (d.setRegions x).regs = d.regs := rfl
@[simp] theorem Dev.setRegions_cnt (x : KMap Region) : (d.setRegions x).cnt = d.cnt := rfl
@[simp] theorem Dev.setRegions_ovf (x : KMap Region) : (d.setRegions x).ovf = d.ovf := rfl
@[simp] theorem Dev.setRegions_mem (x : KMap Region) : (d.setRegions x).mem = d.mem := rfl
@[simp] theorem Dev.setRegions_potBad (x : KMap Region) : (d.setRegions x).potBad = d.potBad := rfl
@[simp] theorem Dev.setRegions_out (x : KMap Region) : (d.setRegions x).out = d.out := rfl
@[simp] theorem Dev.setRegions_free (x : KMap Region) : (d.setRegions x).free = d.free := rfl
@[simp] theorem Dev.setRegions_nextRun (x : KMap Region) : (d.setRegions x).nextRun = d.nextRun := rfl

@[simp] theorem Dev.setRuns_runs (x : KMap Run) : (d.setRuns x).runs = x := rfl
@[simp] theorem Dev.setRuns_ao (x : KMap Run) : (d.setRuns x).ao = d.ao := rfl
@[simp] theorem Dev.setRuns_fns (x : KMap Run) : (d.setRuns x).fns = d.fns := rfl
@[simp] theorem Dev.setRuns_qps (x : KMap Run) : (d.setRuns x).qps = d.qps := rfl
@[simp] theorem Dev.setRuns_parts (x : KMap Run) : (d.setRuns x).parts = d.parts := rfl
@[simp] theorem Dev.setRuns_ctxs (x : KMap Run) : (d.setRuns x).ctxs = d.ctxs := rfl
@[simp] theorem Dev.setRuns_regions (x : KMap Run) : (d.setRuns x).regions = d.regions := rfl
@[simp] theorem Dev.setRuns_cores (x : KMap Run) : (d.setRuns x).cores = d.cores := rfl
@[simp] theorem Dev.setRuns_skillets (x : KMap Run) : (d.setRuns x).skillets = d.skillets := rfl
@[simp] theorem Dev.setRuns_dram (x : KMap Run) : (d.setRuns x).dram = d.dram := rfl
@[simp] theorem Dev.setRuns_jds (x : KMap Run) : (d.setRuns x).jds = d.jds := rfl
@[simp] theorem Dev.setRuns_dmas (x : KMap Run) : (d.setRuns x).dmas = d.dmas := rfl
@[simp] theorem Dev.setRuns_crock (x : KMap Run) : (d.setRuns x).crock = d.crock := rfl
@[simp] theorem Dev.setRuns_fab (x : KMap Run) : (d.setRuns x).fab = d.fab := rfl
@[simp] theorem Dev.setRuns_cups (x : KMap Run) : (d.setRuns x).cups = d.cups := rfl
@[simp] theorem Dev.setRuns_pwr (x : KMap Run) : (d.setRuns x).pwr = d.pwr := rfl
@[simp] theorem Dev.setRuns_sense (x : KMap Run) : (d.setRuns x).sense = d.sense := rfl
@[simp] theorem Dev.setRuns_saf (x : KMap Run) : (d.setRuns x).saf = d.saf := rfl
@[simp] theorem Dev.setRuns_flash (x : KMap Run) : (d.setRuns x).flash = d.flash := rfl
@[simp] theorem Dev.setRuns_conf (x : KMap Run) : (d.setRuns x).conf = d.conf := rfl
@[simp] theorem Dev.setRuns_trust (x : KMap Run) : (d.setRuns x).trust = d.trust := rfl
@[simp] theorem Dev.setRuns_mod (x : KMap Run) : (d.setRuns x).mod = d.mod := rfl
@[simp] theorem Dev.setRuns_regs (x : KMap Run) : (d.setRuns x).regs = d.regs := rfl
@[simp] theorem Dev.setRuns_cnt (x : KMap Run) : (d.setRuns x).cnt = d.cnt := rfl
@[simp] theorem Dev.setRuns_ovf (x : KMap Run) : (d.setRuns x).ovf = d.ovf := rfl
@[simp] theorem Dev.setRuns_mem (x : KMap Run) : (d.setRuns x).mem = d.mem := rfl
@[simp] theorem Dev.setRuns_potBad (x : KMap Run) : (d.setRuns x).potBad = d.potBad := rfl
@[simp] theorem Dev.setRuns_out (x : KMap Run) : (d.setRuns x).out = d.out := rfl
@[simp] theorem Dev.setRuns_free (x : KMap Run) : (d.setRuns x).free = d.free := rfl
@[simp] theorem Dev.setRuns_nextRun (x : KMap Run) : (d.setRuns x).nextRun = d.nextRun := rfl

@[simp] theorem Dev.setCores_cores (x : KMap Core) : (d.setCores x).cores = x := rfl
@[simp] theorem Dev.setCores_ao (x : KMap Core) : (d.setCores x).ao = d.ao := rfl
@[simp] theorem Dev.setCores_fns (x : KMap Core) : (d.setCores x).fns = d.fns := rfl
@[simp] theorem Dev.setCores_qps (x : KMap Core) : (d.setCores x).qps = d.qps := rfl
@[simp] theorem Dev.setCores_parts (x : KMap Core) : (d.setCores x).parts = d.parts := rfl
@[simp] theorem Dev.setCores_ctxs (x : KMap Core) : (d.setCores x).ctxs = d.ctxs := rfl
@[simp] theorem Dev.setCores_regions (x : KMap Core) : (d.setCores x).regions = d.regions := rfl
@[simp] theorem Dev.setCores_runs (x : KMap Core) : (d.setCores x).runs = d.runs := rfl
@[simp] theorem Dev.setCores_skillets (x : KMap Core) : (d.setCores x).skillets = d.skillets := rfl
@[simp] theorem Dev.setCores_dram (x : KMap Core) : (d.setCores x).dram = d.dram := rfl
@[simp] theorem Dev.setCores_jds (x : KMap Core) : (d.setCores x).jds = d.jds := rfl
@[simp] theorem Dev.setCores_dmas (x : KMap Core) : (d.setCores x).dmas = d.dmas := rfl
@[simp] theorem Dev.setCores_crock (x : KMap Core) : (d.setCores x).crock = d.crock := rfl
@[simp] theorem Dev.setCores_fab (x : KMap Core) : (d.setCores x).fab = d.fab := rfl
@[simp] theorem Dev.setCores_cups (x : KMap Core) : (d.setCores x).cups = d.cups := rfl
@[simp] theorem Dev.setCores_pwr (x : KMap Core) : (d.setCores x).pwr = d.pwr := rfl
@[simp] theorem Dev.setCores_sense (x : KMap Core) : (d.setCores x).sense = d.sense := rfl
@[simp] theorem Dev.setCores_saf (x : KMap Core) : (d.setCores x).saf = d.saf := rfl
@[simp] theorem Dev.setCores_flash (x : KMap Core) : (d.setCores x).flash = d.flash := rfl
@[simp] theorem Dev.setCores_conf (x : KMap Core) : (d.setCores x).conf = d.conf := rfl
@[simp] theorem Dev.setCores_trust (x : KMap Core) : (d.setCores x).trust = d.trust := rfl
@[simp] theorem Dev.setCores_mod (x : KMap Core) : (d.setCores x).mod = d.mod := rfl
@[simp] theorem Dev.setCores_regs (x : KMap Core) : (d.setCores x).regs = d.regs := rfl
@[simp] theorem Dev.setCores_cnt (x : KMap Core) : (d.setCores x).cnt = d.cnt := rfl
@[simp] theorem Dev.setCores_ovf (x : KMap Core) : (d.setCores x).ovf = d.ovf := rfl
@[simp] theorem Dev.setCores_mem (x : KMap Core) : (d.setCores x).mem = d.mem := rfl
@[simp] theorem Dev.setCores_potBad (x : KMap Core) : (d.setCores x).potBad = d.potBad := rfl
@[simp] theorem Dev.setCores_out (x : KMap Core) : (d.setCores x).out = d.out := rfl
@[simp] theorem Dev.setCores_free (x : KMap Core) : (d.setCores x).free = d.free := rfl
@[simp] theorem Dev.setCores_nextRun (x : KMap Core) : (d.setCores x).nextRun = d.nextRun := rfl

@[simp] theorem Dev.setSkillets_skillets (x : KMap Skillet) : (d.setSkillets x).skillets = x := rfl
@[simp] theorem Dev.setSkillets_ao (x : KMap Skillet) : (d.setSkillets x).ao = d.ao := rfl
@[simp] theorem Dev.setSkillets_fns (x : KMap Skillet) : (d.setSkillets x).fns = d.fns := rfl
@[simp] theorem Dev.setSkillets_qps (x : KMap Skillet) : (d.setSkillets x).qps = d.qps := rfl
@[simp] theorem Dev.setSkillets_parts (x : KMap Skillet) : (d.setSkillets x).parts = d.parts := rfl
@[simp] theorem Dev.setSkillets_ctxs (x : KMap Skillet) : (d.setSkillets x).ctxs = d.ctxs := rfl
@[simp] theorem Dev.setSkillets_regions (x : KMap Skillet) : (d.setSkillets x).regions = d.regions := rfl
@[simp] theorem Dev.setSkillets_runs (x : KMap Skillet) : (d.setSkillets x).runs = d.runs := rfl
@[simp] theorem Dev.setSkillets_cores (x : KMap Skillet) : (d.setSkillets x).cores = d.cores := rfl
@[simp] theorem Dev.setSkillets_dram (x : KMap Skillet) : (d.setSkillets x).dram = d.dram := rfl
@[simp] theorem Dev.setSkillets_jds (x : KMap Skillet) : (d.setSkillets x).jds = d.jds := rfl
@[simp] theorem Dev.setSkillets_dmas (x : KMap Skillet) : (d.setSkillets x).dmas = d.dmas := rfl
@[simp] theorem Dev.setSkillets_crock (x : KMap Skillet) : (d.setSkillets x).crock = d.crock := rfl
@[simp] theorem Dev.setSkillets_fab (x : KMap Skillet) : (d.setSkillets x).fab = d.fab := rfl
@[simp] theorem Dev.setSkillets_cups (x : KMap Skillet) : (d.setSkillets x).cups = d.cups := rfl
@[simp] theorem Dev.setSkillets_pwr (x : KMap Skillet) : (d.setSkillets x).pwr = d.pwr := rfl
@[simp] theorem Dev.setSkillets_sense (x : KMap Skillet) : (d.setSkillets x).sense = d.sense := rfl
@[simp] theorem Dev.setSkillets_saf (x : KMap Skillet) : (d.setSkillets x).saf = d.saf := rfl
@[simp] theorem Dev.setSkillets_flash (x : KMap Skillet) : (d.setSkillets x).flash = d.flash := rfl
@[simp] theorem Dev.setSkillets_conf (x : KMap Skillet) : (d.setSkillets x).conf = d.conf := rfl
@[simp] theorem Dev.setSkillets_trust (x : KMap Skillet) : (d.setSkillets x).trust = d.trust := rfl
@[simp] theorem Dev.setSkillets_mod (x : KMap Skillet) : (d.setSkillets x).mod = d.mod := rfl
@[simp] theorem Dev.setSkillets_regs (x : KMap Skillet) : (d.setSkillets x).regs = d.regs := rfl
@[simp] theorem Dev.setSkillets_cnt (x : KMap Skillet) : (d.setSkillets x).cnt = d.cnt := rfl
@[simp] theorem Dev.setSkillets_ovf (x : KMap Skillet) : (d.setSkillets x).ovf = d.ovf := rfl
@[simp] theorem Dev.setSkillets_mem (x : KMap Skillet) : (d.setSkillets x).mem = d.mem := rfl
@[simp] theorem Dev.setSkillets_potBad (x : KMap Skillet) : (d.setSkillets x).potBad = d.potBad := rfl
@[simp] theorem Dev.setSkillets_out (x : KMap Skillet) : (d.setSkillets x).out = d.out := rfl
@[simp] theorem Dev.setSkillets_free (x : KMap Skillet) : (d.setSkillets x).free = d.free := rfl
@[simp] theorem Dev.setSkillets_nextRun (x : KMap Skillet) : (d.setSkillets x).nextRun = d.nextRun := rfl

@[simp] theorem Dev.setDram_dram (x : KMap Stack) : (d.setDram x).dram = x := rfl
@[simp] theorem Dev.setDram_ao (x : KMap Stack) : (d.setDram x).ao = d.ao := rfl
@[simp] theorem Dev.setDram_fns (x : KMap Stack) : (d.setDram x).fns = d.fns := rfl
@[simp] theorem Dev.setDram_qps (x : KMap Stack) : (d.setDram x).qps = d.qps := rfl
@[simp] theorem Dev.setDram_parts (x : KMap Stack) : (d.setDram x).parts = d.parts := rfl
@[simp] theorem Dev.setDram_ctxs (x : KMap Stack) : (d.setDram x).ctxs = d.ctxs := rfl
@[simp] theorem Dev.setDram_regions (x : KMap Stack) : (d.setDram x).regions = d.regions := rfl
@[simp] theorem Dev.setDram_runs (x : KMap Stack) : (d.setDram x).runs = d.runs := rfl
@[simp] theorem Dev.setDram_cores (x : KMap Stack) : (d.setDram x).cores = d.cores := rfl
@[simp] theorem Dev.setDram_skillets (x : KMap Stack) : (d.setDram x).skillets = d.skillets := rfl
@[simp] theorem Dev.setDram_jds (x : KMap Stack) : (d.setDram x).jds = d.jds := rfl
@[simp] theorem Dev.setDram_dmas (x : KMap Stack) : (d.setDram x).dmas = d.dmas := rfl
@[simp] theorem Dev.setDram_crock (x : KMap Stack) : (d.setDram x).crock = d.crock := rfl
@[simp] theorem Dev.setDram_fab (x : KMap Stack) : (d.setDram x).fab = d.fab := rfl
@[simp] theorem Dev.setDram_cups (x : KMap Stack) : (d.setDram x).cups = d.cups := rfl
@[simp] theorem Dev.setDram_pwr (x : KMap Stack) : (d.setDram x).pwr = d.pwr := rfl
@[simp] theorem Dev.setDram_sense (x : KMap Stack) : (d.setDram x).sense = d.sense := rfl
@[simp] theorem Dev.setDram_saf (x : KMap Stack) : (d.setDram x).saf = d.saf := rfl
@[simp] theorem Dev.setDram_flash (x : KMap Stack) : (d.setDram x).flash = d.flash := rfl
@[simp] theorem Dev.setDram_conf (x : KMap Stack) : (d.setDram x).conf = d.conf := rfl
@[simp] theorem Dev.setDram_trust (x : KMap Stack) : (d.setDram x).trust = d.trust := rfl
@[simp] theorem Dev.setDram_mod (x : KMap Stack) : (d.setDram x).mod = d.mod := rfl
@[simp] theorem Dev.setDram_regs (x : KMap Stack) : (d.setDram x).regs = d.regs := rfl
@[simp] theorem Dev.setDram_cnt (x : KMap Stack) : (d.setDram x).cnt = d.cnt := rfl
@[simp] theorem Dev.setDram_ovf (x : KMap Stack) : (d.setDram x).ovf = d.ovf := rfl
@[simp] theorem Dev.setDram_mem (x : KMap Stack) : (d.setDram x).mem = d.mem := rfl
@[simp] theorem Dev.setDram_potBad (x : KMap Stack) : (d.setDram x).potBad = d.potBad := rfl
@[simp] theorem Dev.setDram_out (x : KMap Stack) : (d.setDram x).out = d.out := rfl
@[simp] theorem Dev.setDram_free (x : KMap Stack) : (d.setDram x).free = d.free := rfl
@[simp] theorem Dev.setDram_nextRun (x : KMap Stack) : (d.setDram x).nextRun = d.nextRun := rfl

@[simp] theorem Dev.setJds_jds (x : KMap Jd) : (d.setJds x).jds = x := rfl
@[simp] theorem Dev.setJds_ao (x : KMap Jd) : (d.setJds x).ao = d.ao := rfl
@[simp] theorem Dev.setJds_fns (x : KMap Jd) : (d.setJds x).fns = d.fns := rfl
@[simp] theorem Dev.setJds_qps (x : KMap Jd) : (d.setJds x).qps = d.qps := rfl
@[simp] theorem Dev.setJds_parts (x : KMap Jd) : (d.setJds x).parts = d.parts := rfl
@[simp] theorem Dev.setJds_ctxs (x : KMap Jd) : (d.setJds x).ctxs = d.ctxs := rfl
@[simp] theorem Dev.setJds_regions (x : KMap Jd) : (d.setJds x).regions = d.regions := rfl
@[simp] theorem Dev.setJds_runs (x : KMap Jd) : (d.setJds x).runs = d.runs := rfl
@[simp] theorem Dev.setJds_cores (x : KMap Jd) : (d.setJds x).cores = d.cores := rfl
@[simp] theorem Dev.setJds_skillets (x : KMap Jd) : (d.setJds x).skillets = d.skillets := rfl
@[simp] theorem Dev.setJds_dram (x : KMap Jd) : (d.setJds x).dram = d.dram := rfl
@[simp] theorem Dev.setJds_dmas (x : KMap Jd) : (d.setJds x).dmas = d.dmas := rfl
@[simp] theorem Dev.setJds_crock (x : KMap Jd) : (d.setJds x).crock = d.crock := rfl
@[simp] theorem Dev.setJds_fab (x : KMap Jd) : (d.setJds x).fab = d.fab := rfl
@[simp] theorem Dev.setJds_cups (x : KMap Jd) : (d.setJds x).cups = d.cups := rfl
@[simp] theorem Dev.setJds_pwr (x : KMap Jd) : (d.setJds x).pwr = d.pwr := rfl
@[simp] theorem Dev.setJds_sense (x : KMap Jd) : (d.setJds x).sense = d.sense := rfl
@[simp] theorem Dev.setJds_saf (x : KMap Jd) : (d.setJds x).saf = d.saf := rfl
@[simp] theorem Dev.setJds_flash (x : KMap Jd) : (d.setJds x).flash = d.flash := rfl
@[simp] theorem Dev.setJds_conf (x : KMap Jd) : (d.setJds x).conf = d.conf := rfl
@[simp] theorem Dev.setJds_trust (x : KMap Jd) : (d.setJds x).trust = d.trust := rfl
@[simp] theorem Dev.setJds_mod (x : KMap Jd) : (d.setJds x).mod = d.mod := rfl
@[simp] theorem Dev.setJds_regs (x : KMap Jd) : (d.setJds x).regs = d.regs := rfl
@[simp] theorem Dev.setJds_cnt (x : KMap Jd) : (d.setJds x).cnt = d.cnt := rfl
@[simp] theorem Dev.setJds_ovf (x : KMap Jd) : (d.setJds x).ovf = d.ovf := rfl
@[simp] theorem Dev.setJds_mem (x : KMap Jd) : (d.setJds x).mem = d.mem := rfl
@[simp] theorem Dev.setJds_potBad (x : KMap Jd) : (d.setJds x).potBad = d.potBad := rfl
@[simp] theorem Dev.setJds_out (x : KMap Jd) : (d.setJds x).out = d.out := rfl
@[simp] theorem Dev.setJds_free (x : KMap Jd) : (d.setJds x).free = d.free := rfl
@[simp] theorem Dev.setJds_nextRun (x : KMap Jd) : (d.setJds x).nextRun = d.nextRun := rfl

@[simp] theorem Dev.setDmas_dmas (x : KMap Dma) : (d.setDmas x).dmas = x := rfl
@[simp] theorem Dev.setDmas_ao (x : KMap Dma) : (d.setDmas x).ao = d.ao := rfl
@[simp] theorem Dev.setDmas_fns (x : KMap Dma) : (d.setDmas x).fns = d.fns := rfl
@[simp] theorem Dev.setDmas_qps (x : KMap Dma) : (d.setDmas x).qps = d.qps := rfl
@[simp] theorem Dev.setDmas_parts (x : KMap Dma) : (d.setDmas x).parts = d.parts := rfl
@[simp] theorem Dev.setDmas_ctxs (x : KMap Dma) : (d.setDmas x).ctxs = d.ctxs := rfl
@[simp] theorem Dev.setDmas_regions (x : KMap Dma) : (d.setDmas x).regions = d.regions := rfl
@[simp] theorem Dev.setDmas_runs (x : KMap Dma) : (d.setDmas x).runs = d.runs := rfl
@[simp] theorem Dev.setDmas_cores (x : KMap Dma) : (d.setDmas x).cores = d.cores := rfl
@[simp] theorem Dev.setDmas_skillets (x : KMap Dma) : (d.setDmas x).skillets = d.skillets := rfl
@[simp] theorem Dev.setDmas_dram (x : KMap Dma) : (d.setDmas x).dram = d.dram := rfl
@[simp] theorem Dev.setDmas_jds (x : KMap Dma) : (d.setDmas x).jds = d.jds := rfl
@[simp] theorem Dev.setDmas_crock (x : KMap Dma) : (d.setDmas x).crock = d.crock := rfl
@[simp] theorem Dev.setDmas_fab (x : KMap Dma) : (d.setDmas x).fab = d.fab := rfl
@[simp] theorem Dev.setDmas_cups (x : KMap Dma) : (d.setDmas x).cups = d.cups := rfl
@[simp] theorem Dev.setDmas_pwr (x : KMap Dma) : (d.setDmas x).pwr = d.pwr := rfl
@[simp] theorem Dev.setDmas_sense (x : KMap Dma) : (d.setDmas x).sense = d.sense := rfl
@[simp] theorem Dev.setDmas_saf (x : KMap Dma) : (d.setDmas x).saf = d.saf := rfl
@[simp] theorem Dev.setDmas_flash (x : KMap Dma) : (d.setDmas x).flash = d.flash := rfl
@[simp] theorem Dev.setDmas_conf (x : KMap Dma) : (d.setDmas x).conf = d.conf := rfl
@[simp] theorem Dev.setDmas_trust (x : KMap Dma) : (d.setDmas x).trust = d.trust := rfl
@[simp] theorem Dev.setDmas_mod (x : KMap Dma) : (d.setDmas x).mod = d.mod := rfl
@[simp] theorem Dev.setDmas_regs (x : KMap Dma) : (d.setDmas x).regs = d.regs := rfl
@[simp] theorem Dev.setDmas_cnt (x : KMap Dma) : (d.setDmas x).cnt = d.cnt := rfl
@[simp] theorem Dev.setDmas_ovf (x : KMap Dma) : (d.setDmas x).ovf = d.ovf := rfl
@[simp] theorem Dev.setDmas_mem (x : KMap Dma) : (d.setDmas x).mem = d.mem := rfl
@[simp] theorem Dev.setDmas_potBad (x : KMap Dma) : (d.setDmas x).potBad = d.potBad := rfl
@[simp] theorem Dev.setDmas_out (x : KMap Dma) : (d.setDmas x).out = d.out := rfl
@[simp] theorem Dev.setDmas_free (x : KMap Dma) : (d.setDmas x).free = d.free := rfl
@[simp] theorem Dev.setDmas_nextRun (x : KMap Dma) : (d.setDmas x).nextRun = d.nextRun := rfl

@[simp] theorem Dev.setCrock_crock (x : Crock) : (d.setCrock x).crock = x := rfl
@[simp] theorem Dev.setCrock_ao (x : Crock) : (d.setCrock x).ao = d.ao := rfl
@[simp] theorem Dev.setCrock_fns (x : Crock) : (d.setCrock x).fns = d.fns := rfl
@[simp] theorem Dev.setCrock_qps (x : Crock) : (d.setCrock x).qps = d.qps := rfl
@[simp] theorem Dev.setCrock_parts (x : Crock) : (d.setCrock x).parts = d.parts := rfl
@[simp] theorem Dev.setCrock_ctxs (x : Crock) : (d.setCrock x).ctxs = d.ctxs := rfl
@[simp] theorem Dev.setCrock_regions (x : Crock) : (d.setCrock x).regions = d.regions := rfl
@[simp] theorem Dev.setCrock_runs (x : Crock) : (d.setCrock x).runs = d.runs := rfl
@[simp] theorem Dev.setCrock_cores (x : Crock) : (d.setCrock x).cores = d.cores := rfl
@[simp] theorem Dev.setCrock_skillets (x : Crock) : (d.setCrock x).skillets = d.skillets := rfl
@[simp] theorem Dev.setCrock_dram (x : Crock) : (d.setCrock x).dram = d.dram := rfl
@[simp] theorem Dev.setCrock_jds (x : Crock) : (d.setCrock x).jds = d.jds := rfl
@[simp] theorem Dev.setCrock_dmas (x : Crock) : (d.setCrock x).dmas = d.dmas := rfl
@[simp] theorem Dev.setCrock_fab (x : Crock) : (d.setCrock x).fab = d.fab := rfl
@[simp] theorem Dev.setCrock_cups (x : Crock) : (d.setCrock x).cups = d.cups := rfl
@[simp] theorem Dev.setCrock_pwr (x : Crock) : (d.setCrock x).pwr = d.pwr := rfl
@[simp] theorem Dev.setCrock_sense (x : Crock) : (d.setCrock x).sense = d.sense := rfl
@[simp] theorem Dev.setCrock_saf (x : Crock) : (d.setCrock x).saf = d.saf := rfl
@[simp] theorem Dev.setCrock_flash (x : Crock) : (d.setCrock x).flash = d.flash := rfl
@[simp] theorem Dev.setCrock_conf (x : Crock) : (d.setCrock x).conf = d.conf := rfl
@[simp] theorem Dev.setCrock_trust (x : Crock) : (d.setCrock x).trust = d.trust := rfl
@[simp] theorem Dev.setCrock_mod (x : Crock) : (d.setCrock x).mod = d.mod := rfl
@[simp] theorem Dev.setCrock_regs (x : Crock) : (d.setCrock x).regs = d.regs := rfl
@[simp] theorem Dev.setCrock_cnt (x : Crock) : (d.setCrock x).cnt = d.cnt := rfl
@[simp] theorem Dev.setCrock_ovf (x : Crock) : (d.setCrock x).ovf = d.ovf := rfl
@[simp] theorem Dev.setCrock_mem (x : Crock) : (d.setCrock x).mem = d.mem := rfl
@[simp] theorem Dev.setCrock_potBad (x : Crock) : (d.setCrock x).potBad = d.potBad := rfl
@[simp] theorem Dev.setCrock_out (x : Crock) : (d.setCrock x).out = d.out := rfl
@[simp] theorem Dev.setCrock_free (x : Crock) : (d.setCrock x).free = d.free := rfl
@[simp] theorem Dev.setCrock_nextRun (x : Crock) : (d.setCrock x).nextRun = d.nextRun := rfl

@[simp] theorem Dev.setFab_fab (x : Fab) : (d.setFab x).fab = x := rfl
@[simp] theorem Dev.setFab_ao (x : Fab) : (d.setFab x).ao = d.ao := rfl
@[simp] theorem Dev.setFab_fns (x : Fab) : (d.setFab x).fns = d.fns := rfl
@[simp] theorem Dev.setFab_qps (x : Fab) : (d.setFab x).qps = d.qps := rfl
@[simp] theorem Dev.setFab_parts (x : Fab) : (d.setFab x).parts = d.parts := rfl
@[simp] theorem Dev.setFab_ctxs (x : Fab) : (d.setFab x).ctxs = d.ctxs := rfl
@[simp] theorem Dev.setFab_regions (x : Fab) : (d.setFab x).regions = d.regions := rfl
@[simp] theorem Dev.setFab_runs (x : Fab) : (d.setFab x).runs = d.runs := rfl
@[simp] theorem Dev.setFab_cores (x : Fab) : (d.setFab x).cores = d.cores := rfl
@[simp] theorem Dev.setFab_skillets (x : Fab) : (d.setFab x).skillets = d.skillets := rfl
@[simp] theorem Dev.setFab_dram (x : Fab) : (d.setFab x).dram = d.dram := rfl
@[simp] theorem Dev.setFab_jds (x : Fab) : (d.setFab x).jds = d.jds := rfl
@[simp] theorem Dev.setFab_dmas (x : Fab) : (d.setFab x).dmas = d.dmas := rfl
@[simp] theorem Dev.setFab_crock (x : Fab) : (d.setFab x).crock = d.crock := rfl
@[simp] theorem Dev.setFab_cups (x : Fab) : (d.setFab x).cups = d.cups := rfl
@[simp] theorem Dev.setFab_pwr (x : Fab) : (d.setFab x).pwr = d.pwr := rfl
@[simp] theorem Dev.setFab_sense (x : Fab) : (d.setFab x).sense = d.sense := rfl
@[simp] theorem Dev.setFab_saf (x : Fab) : (d.setFab x).saf = d.saf := rfl
@[simp] theorem Dev.setFab_flash (x : Fab) : (d.setFab x).flash = d.flash := rfl
@[simp] theorem Dev.setFab_conf (x : Fab) : (d.setFab x).conf = d.conf := rfl
@[simp] theorem Dev.setFab_trust (x : Fab) : (d.setFab x).trust = d.trust := rfl
@[simp] theorem Dev.setFab_mod (x : Fab) : (d.setFab x).mod = d.mod := rfl
@[simp] theorem Dev.setFab_regs (x : Fab) : (d.setFab x).regs = d.regs := rfl
@[simp] theorem Dev.setFab_cnt (x : Fab) : (d.setFab x).cnt = d.cnt := rfl
@[simp] theorem Dev.setFab_ovf (x : Fab) : (d.setFab x).ovf = d.ovf := rfl
@[simp] theorem Dev.setFab_mem (x : Fab) : (d.setFab x).mem = d.mem := rfl
@[simp] theorem Dev.setFab_potBad (x : Fab) : (d.setFab x).potBad = d.potBad := rfl
@[simp] theorem Dev.setFab_out (x : Fab) : (d.setFab x).out = d.out := rfl
@[simp] theorem Dev.setFab_free (x : Fab) : (d.setFab x).free = d.free := rfl
@[simp] theorem Dev.setFab_nextRun (x : Fab) : (d.setFab x).nextRun = d.nextRun := rfl

@[simp] theorem Dev.setCups_cups (x : KMap CupCnt) : (d.setCups x).cups = x := rfl
@[simp] theorem Dev.setCups_ao (x : KMap CupCnt) : (d.setCups x).ao = d.ao := rfl
@[simp] theorem Dev.setCups_fns (x : KMap CupCnt) : (d.setCups x).fns = d.fns := rfl
@[simp] theorem Dev.setCups_qps (x : KMap CupCnt) : (d.setCups x).qps = d.qps := rfl
@[simp] theorem Dev.setCups_parts (x : KMap CupCnt) : (d.setCups x).parts = d.parts := rfl
@[simp] theorem Dev.setCups_ctxs (x : KMap CupCnt) : (d.setCups x).ctxs = d.ctxs := rfl
@[simp] theorem Dev.setCups_regions (x : KMap CupCnt) : (d.setCups x).regions = d.regions := rfl
@[simp] theorem Dev.setCups_runs (x : KMap CupCnt) : (d.setCups x).runs = d.runs := rfl
@[simp] theorem Dev.setCups_cores (x : KMap CupCnt) : (d.setCups x).cores = d.cores := rfl
@[simp] theorem Dev.setCups_skillets (x : KMap CupCnt) : (d.setCups x).skillets = d.skillets := rfl
@[simp] theorem Dev.setCups_dram (x : KMap CupCnt) : (d.setCups x).dram = d.dram := rfl
@[simp] theorem Dev.setCups_jds (x : KMap CupCnt) : (d.setCups x).jds = d.jds := rfl
@[simp] theorem Dev.setCups_dmas (x : KMap CupCnt) : (d.setCups x).dmas = d.dmas := rfl
@[simp] theorem Dev.setCups_crock (x : KMap CupCnt) : (d.setCups x).crock = d.crock := rfl
@[simp] theorem Dev.setCups_fab (x : KMap CupCnt) : (d.setCups x).fab = d.fab := rfl
@[simp] theorem Dev.setCups_pwr (x : KMap CupCnt) : (d.setCups x).pwr = d.pwr := rfl
@[simp] theorem Dev.setCups_sense (x : KMap CupCnt) : (d.setCups x).sense = d.sense := rfl
@[simp] theorem Dev.setCups_saf (x : KMap CupCnt) : (d.setCups x).saf = d.saf := rfl
@[simp] theorem Dev.setCups_flash (x : KMap CupCnt) : (d.setCups x).flash = d.flash := rfl
@[simp] theorem Dev.setCups_conf (x : KMap CupCnt) : (d.setCups x).conf = d.conf := rfl
@[simp] theorem Dev.setCups_trust (x : KMap CupCnt) : (d.setCups x).trust = d.trust := rfl
@[simp] theorem Dev.setCups_mod (x : KMap CupCnt) : (d.setCups x).mod = d.mod := rfl
@[simp] theorem Dev.setCups_regs (x : KMap CupCnt) : (d.setCups x).regs = d.regs := rfl
@[simp] theorem Dev.setCups_cnt (x : KMap CupCnt) : (d.setCups x).cnt = d.cnt := rfl
@[simp] theorem Dev.setCups_ovf (x : KMap CupCnt) : (d.setCups x).ovf = d.ovf := rfl
@[simp] theorem Dev.setCups_mem (x : KMap CupCnt) : (d.setCups x).mem = d.mem := rfl
@[simp] theorem Dev.setCups_potBad (x : KMap CupCnt) : (d.setCups x).potBad = d.potBad := rfl
@[simp] theorem Dev.setCups_out (x : KMap CupCnt) : (d.setCups x).out = d.out := rfl
@[simp] theorem Dev.setCups_free (x : KMap CupCnt) : (d.setCups x).free = d.free := rfl
@[simp] theorem Dev.setCups_nextRun (x : KMap CupCnt) : (d.setCups x).nextRun = d.nextRun := rfl

@[simp] theorem Dev.setPwr_pwr (x : Pwr) : (d.setPwr x).pwr = x := rfl
@[simp] theorem Dev.setPwr_ao (x : Pwr) : (d.setPwr x).ao = d.ao := rfl
@[simp] theorem Dev.setPwr_fns (x : Pwr) : (d.setPwr x).fns = d.fns := rfl
@[simp] theorem Dev.setPwr_qps (x : Pwr) : (d.setPwr x).qps = d.qps := rfl
@[simp] theorem Dev.setPwr_parts (x : Pwr) : (d.setPwr x).parts = d.parts := rfl
@[simp] theorem Dev.setPwr_ctxs (x : Pwr) : (d.setPwr x).ctxs = d.ctxs := rfl
@[simp] theorem Dev.setPwr_regions (x : Pwr) : (d.setPwr x).regions = d.regions := rfl
@[simp] theorem Dev.setPwr_runs (x : Pwr) : (d.setPwr x).runs = d.runs := rfl
@[simp] theorem Dev.setPwr_cores (x : Pwr) : (d.setPwr x).cores = d.cores := rfl
@[simp] theorem Dev.setPwr_skillets (x : Pwr) : (d.setPwr x).skillets = d.skillets := rfl
@[simp] theorem Dev.setPwr_dram (x : Pwr) : (d.setPwr x).dram = d.dram := rfl
@[simp] theorem Dev.setPwr_jds (x : Pwr) : (d.setPwr x).jds = d.jds := rfl
@[simp] theorem Dev.setPwr_dmas (x : Pwr) : (d.setPwr x).dmas = d.dmas := rfl
@[simp] theorem Dev.setPwr_crock (x : Pwr) : (d.setPwr x).crock = d.crock := rfl
@[simp] theorem Dev.setPwr_fab (x : Pwr) : (d.setPwr x).fab = d.fab := rfl
@[simp] theorem Dev.setPwr_cups (x : Pwr) : (d.setPwr x).cups = d.cups := rfl
@[simp] theorem Dev.setPwr_sense (x : Pwr) : (d.setPwr x).sense = d.sense := rfl
@[simp] theorem Dev.setPwr_saf (x : Pwr) : (d.setPwr x).saf = d.saf := rfl
@[simp] theorem Dev.setPwr_flash (x : Pwr) : (d.setPwr x).flash = d.flash := rfl
@[simp] theorem Dev.setPwr_conf (x : Pwr) : (d.setPwr x).conf = d.conf := rfl
@[simp] theorem Dev.setPwr_trust (x : Pwr) : (d.setPwr x).trust = d.trust := rfl
@[simp] theorem Dev.setPwr_mod (x : Pwr) : (d.setPwr x).mod = d.mod := rfl
@[simp] theorem Dev.setPwr_regs (x : Pwr) : (d.setPwr x).regs = d.regs := rfl
@[simp] theorem Dev.setPwr_cnt (x : Pwr) : (d.setPwr x).cnt = d.cnt := rfl
@[simp] theorem Dev.setPwr_ovf (x : Pwr) : (d.setPwr x).ovf = d.ovf := rfl
@[simp] theorem Dev.setPwr_mem (x : Pwr) : (d.setPwr x).mem = d.mem := rfl
@[simp] theorem Dev.setPwr_potBad (x : Pwr) : (d.setPwr x).potBad = d.potBad := rfl
@[simp] theorem Dev.setPwr_out (x : Pwr) : (d.setPwr x).out = d.out := rfl
@[simp] theorem Dev.setPwr_free (x : Pwr) : (d.setPwr x).free = d.free := rfl
@[simp] theorem Dev.setPwr_nextRun (x : Pwr) : (d.setPwr x).nextRun = d.nextRun := rfl

@[simp] theorem Dev.setSense_sense (x : Sense) : (d.setSense x).sense = x := rfl
@[simp] theorem Dev.setSense_ao (x : Sense) : (d.setSense x).ao = d.ao := rfl
@[simp] theorem Dev.setSense_fns (x : Sense) : (d.setSense x).fns = d.fns := rfl
@[simp] theorem Dev.setSense_qps (x : Sense) : (d.setSense x).qps = d.qps := rfl
@[simp] theorem Dev.setSense_parts (x : Sense) : (d.setSense x).parts = d.parts := rfl
@[simp] theorem Dev.setSense_ctxs (x : Sense) : (d.setSense x).ctxs = d.ctxs := rfl
@[simp] theorem Dev.setSense_regions (x : Sense) : (d.setSense x).regions = d.regions := rfl
@[simp] theorem Dev.setSense_runs (x : Sense) : (d.setSense x).runs = d.runs := rfl
@[simp] theorem Dev.setSense_cores (x : Sense) : (d.setSense x).cores = d.cores := rfl
@[simp] theorem Dev.setSense_skillets (x : Sense) : (d.setSense x).skillets = d.skillets := rfl
@[simp] theorem Dev.setSense_dram (x : Sense) : (d.setSense x).dram = d.dram := rfl
@[simp] theorem Dev.setSense_jds (x : Sense) : (d.setSense x).jds = d.jds := rfl
@[simp] theorem Dev.setSense_dmas (x : Sense) : (d.setSense x).dmas = d.dmas := rfl
@[simp] theorem Dev.setSense_crock (x : Sense) : (d.setSense x).crock = d.crock := rfl
@[simp] theorem Dev.setSense_fab (x : Sense) : (d.setSense x).fab = d.fab := rfl
@[simp] theorem Dev.setSense_cups (x : Sense) : (d.setSense x).cups = d.cups := rfl
@[simp] theorem Dev.setSense_pwr (x : Sense) : (d.setSense x).pwr = d.pwr := rfl
@[simp] theorem Dev.setSense_saf (x : Sense) : (d.setSense x).saf = d.saf := rfl
@[simp] theorem Dev.setSense_flash (x : Sense) : (d.setSense x).flash = d.flash := rfl
@[simp] theorem Dev.setSense_conf (x : Sense) : (d.setSense x).conf = d.conf := rfl
@[simp] theorem Dev.setSense_trust (x : Sense) : (d.setSense x).trust = d.trust := rfl
@[simp] theorem Dev.setSense_mod (x : Sense) : (d.setSense x).mod = d.mod := rfl
@[simp] theorem Dev.setSense_regs (x : Sense) : (d.setSense x).regs = d.regs := rfl
@[simp] theorem Dev.setSense_cnt (x : Sense) : (d.setSense x).cnt = d.cnt := rfl
@[simp] theorem Dev.setSense_ovf (x : Sense) : (d.setSense x).ovf = d.ovf := rfl
@[simp] theorem Dev.setSense_mem (x : Sense) : (d.setSense x).mem = d.mem := rfl
@[simp] theorem Dev.setSense_potBad (x : Sense) : (d.setSense x).potBad = d.potBad := rfl
@[simp] theorem Dev.setSense_out (x : Sense) : (d.setSense x).out = d.out := rfl
@[simp] theorem Dev.setSense_free (x : Sense) : (d.setSense x).free = d.free := rfl
@[simp] theorem Dev.setSense_nextRun (x : Sense) : (d.setSense x).nextRun = d.nextRun := rfl

@[simp] theorem Dev.setSaf_saf (x : Safety) : (d.setSaf x).saf = x := rfl
@[simp] theorem Dev.setSaf_ao (x : Safety) : (d.setSaf x).ao = d.ao := rfl
@[simp] theorem Dev.setSaf_fns (x : Safety) : (d.setSaf x).fns = d.fns := rfl
@[simp] theorem Dev.setSaf_qps (x : Safety) : (d.setSaf x).qps = d.qps := rfl
@[simp] theorem Dev.setSaf_parts (x : Safety) : (d.setSaf x).parts = d.parts := rfl
@[simp] theorem Dev.setSaf_ctxs (x : Safety) : (d.setSaf x).ctxs = d.ctxs := rfl
@[simp] theorem Dev.setSaf_regions (x : Safety) : (d.setSaf x).regions = d.regions := rfl
@[simp] theorem Dev.setSaf_runs (x : Safety) : (d.setSaf x).runs = d.runs := rfl
@[simp] theorem Dev.setSaf_cores (x : Safety) : (d.setSaf x).cores = d.cores := rfl
@[simp] theorem Dev.setSaf_skillets (x : Safety) : (d.setSaf x).skillets = d.skillets := rfl
@[simp] theorem Dev.setSaf_dram (x : Safety) : (d.setSaf x).dram = d.dram := rfl
@[simp] theorem Dev.setSaf_jds (x : Safety) : (d.setSaf x).jds = d.jds := rfl
@[simp] theorem Dev.setSaf_dmas (x : Safety) : (d.setSaf x).dmas = d.dmas := rfl
@[simp] theorem Dev.setSaf_crock (x : Safety) : (d.setSaf x).crock = d.crock := rfl
@[simp] theorem Dev.setSaf_fab (x : Safety) : (d.setSaf x).fab = d.fab := rfl
@[simp] theorem Dev.setSaf_cups (x : Safety) : (d.setSaf x).cups = d.cups := rfl
@[simp] theorem Dev.setSaf_pwr (x : Safety) : (d.setSaf x).pwr = d.pwr := rfl
@[simp] theorem Dev.setSaf_sense (x : Safety) : (d.setSaf x).sense = d.sense := rfl
@[simp] theorem Dev.setSaf_flash (x : Safety) : (d.setSaf x).flash = d.flash := rfl
@[simp] theorem Dev.setSaf_conf (x : Safety) : (d.setSaf x).conf = d.conf := rfl
@[simp] theorem Dev.setSaf_trust (x : Safety) : (d.setSaf x).trust = d.trust := rfl
@[simp] theorem Dev.setSaf_mod (x : Safety) : (d.setSaf x).mod = d.mod := rfl
@[simp] theorem Dev.setSaf_regs (x : Safety) : (d.setSaf x).regs = d.regs := rfl
@[simp] theorem Dev.setSaf_cnt (x : Safety) : (d.setSaf x).cnt = d.cnt := rfl
@[simp] theorem Dev.setSaf_ovf (x : Safety) : (d.setSaf x).ovf = d.ovf := rfl
@[simp] theorem Dev.setSaf_mem (x : Safety) : (d.setSaf x).mem = d.mem := rfl
@[simp] theorem Dev.setSaf_potBad (x : Safety) : (d.setSaf x).potBad = d.potBad := rfl
@[simp] theorem Dev.setSaf_out (x : Safety) : (d.setSaf x).out = d.out := rfl
@[simp] theorem Dev.setSaf_free (x : Safety) : (d.setSaf x).free = d.free := rfl
@[simp] theorem Dev.setSaf_nextRun (x : Safety) : (d.setSaf x).nextRun = d.nextRun := rfl

@[simp] theorem Dev.setFlash_flash (x : Flash) : (d.setFlash x).flash = x := rfl
@[simp] theorem Dev.setFlash_ao (x : Flash) : (d.setFlash x).ao = d.ao := rfl
@[simp] theorem Dev.setFlash_fns (x : Flash) : (d.setFlash x).fns = d.fns := rfl
@[simp] theorem Dev.setFlash_qps (x : Flash) : (d.setFlash x).qps = d.qps := rfl
@[simp] theorem Dev.setFlash_parts (x : Flash) : (d.setFlash x).parts = d.parts := rfl
@[simp] theorem Dev.setFlash_ctxs (x : Flash) : (d.setFlash x).ctxs = d.ctxs := rfl
@[simp] theorem Dev.setFlash_regions (x : Flash) : (d.setFlash x).regions = d.regions := rfl
@[simp] theorem Dev.setFlash_runs (x : Flash) : (d.setFlash x).runs = d.runs := rfl
@[simp] theorem Dev.setFlash_cores (x : Flash) : (d.setFlash x).cores = d.cores := rfl
@[simp] theorem Dev.setFlash_skillets (x : Flash) : (d.setFlash x).skillets = d.skillets := rfl
@[simp] theorem Dev.setFlash_dram (x : Flash) : (d.setFlash x).dram = d.dram := rfl
@[simp] theorem Dev.setFlash_jds (x : Flash) : (d.setFlash x).jds = d.jds := rfl
@[simp] theorem Dev.setFlash_dmas (x : Flash) : (d.setFlash x).dmas = d.dmas := rfl
@[simp] theorem Dev.setFlash_crock (x : Flash) : (d.setFlash x).crock = d.crock := rfl
@[simp] theorem Dev.setFlash_fab (x : Flash) : (d.setFlash x).fab = d.fab := rfl
@[simp] theorem Dev.setFlash_cups (x : Flash) : (d.setFlash x).cups = d.cups := rfl
@[simp] theorem Dev.setFlash_pwr (x : Flash) : (d.setFlash x).pwr = d.pwr := rfl
@[simp] theorem Dev.setFlash_sense (x : Flash) : (d.setFlash x).sense = d.sense := rfl
@[simp] theorem Dev.setFlash_saf (x : Flash) : (d.setFlash x).saf = d.saf := rfl
@[simp] theorem Dev.setFlash_conf (x : Flash) : (d.setFlash x).conf = d.conf := rfl
@[simp] theorem Dev.setFlash_trust (x : Flash) : (d.setFlash x).trust = d.trust := rfl
@[simp] theorem Dev.setFlash_mod (x : Flash) : (d.setFlash x).mod = d.mod := rfl
@[simp] theorem Dev.setFlash_regs (x : Flash) : (d.setFlash x).regs = d.regs := rfl
@[simp] theorem Dev.setFlash_cnt (x : Flash) : (d.setFlash x).cnt = d.cnt := rfl
@[simp] theorem Dev.setFlash_ovf (x : Flash) : (d.setFlash x).ovf = d.ovf := rfl
@[simp] theorem Dev.setFlash_mem (x : Flash) : (d.setFlash x).mem = d.mem := rfl
@[simp] theorem Dev.setFlash_potBad (x : Flash) : (d.setFlash x).potBad = d.potBad := rfl
@[simp] theorem Dev.setFlash_out (x : Flash) : (d.setFlash x).out = d.out := rfl
@[simp] theorem Dev.setFlash_free (x : Flash) : (d.setFlash x).free = d.free := rfl
@[simp] theorem Dev.setFlash_nextRun (x : Flash) : (d.setFlash x).nextRun = d.nextRun := rfl

@[simp] theorem Dev.setConf_conf (x : Conf) : (d.setConf x).conf = x := rfl
@[simp] theorem Dev.setConf_ao (x : Conf) : (d.setConf x).ao = d.ao := rfl
@[simp] theorem Dev.setConf_fns (x : Conf) : (d.setConf x).fns = d.fns := rfl
@[simp] theorem Dev.setConf_qps (x : Conf) : (d.setConf x).qps = d.qps := rfl
@[simp] theorem Dev.setConf_parts (x : Conf) : (d.setConf x).parts = d.parts := rfl
@[simp] theorem Dev.setConf_ctxs (x : Conf) : (d.setConf x).ctxs = d.ctxs := rfl
@[simp] theorem Dev.setConf_regions (x : Conf) : (d.setConf x).regions = d.regions := rfl
@[simp] theorem Dev.setConf_runs (x : Conf) : (d.setConf x).runs = d.runs := rfl
@[simp] theorem Dev.setConf_cores (x : Conf) : (d.setConf x).cores = d.cores := rfl
@[simp] theorem Dev.setConf_skillets (x : Conf) : (d.setConf x).skillets = d.skillets := rfl
@[simp] theorem Dev.setConf_dram (x : Conf) : (d.setConf x).dram = d.dram := rfl
@[simp] theorem Dev.setConf_jds (x : Conf) : (d.setConf x).jds = d.jds := rfl
@[simp] theorem Dev.setConf_dmas (x : Conf) : (d.setConf x).dmas = d.dmas := rfl
@[simp] theorem Dev.setConf_crock (x : Conf) : (d.setConf x).crock = d.crock := rfl
@[simp] theorem Dev.setConf_fab (x : Conf) : (d.setConf x).fab = d.fab := rfl
@[simp] theorem Dev.setConf_cups (x : Conf) : (d.setConf x).cups = d.cups := rfl
@[simp] theorem Dev.setConf_pwr (x : Conf) : (d.setConf x).pwr = d.pwr := rfl
@[simp] theorem Dev.setConf_sense (x : Conf) : (d.setConf x).sense = d.sense := rfl
@[simp] theorem Dev.setConf_saf (x : Conf) : (d.setConf x).saf = d.saf := rfl
@[simp] theorem Dev.setConf_flash (x : Conf) : (d.setConf x).flash = d.flash := rfl
@[simp] theorem Dev.setConf_trust (x : Conf) : (d.setConf x).trust = d.trust := rfl
@[simp] theorem Dev.setConf_mod (x : Conf) : (d.setConf x).mod = d.mod := rfl
@[simp] theorem Dev.setConf_regs (x : Conf) : (d.setConf x).regs = d.regs := rfl
@[simp] theorem Dev.setConf_cnt (x : Conf) : (d.setConf x).cnt = d.cnt := rfl
@[simp] theorem Dev.setConf_ovf (x : Conf) : (d.setConf x).ovf = d.ovf := rfl
@[simp] theorem Dev.setConf_mem (x : Conf) : (d.setConf x).mem = d.mem := rfl
@[simp] theorem Dev.setConf_potBad (x : Conf) : (d.setConf x).potBad = d.potBad := rfl
@[simp] theorem Dev.setConf_out (x : Conf) : (d.setConf x).out = d.out := rfl
@[simp] theorem Dev.setConf_free (x : Conf) : (d.setConf x).free = d.free := rfl
@[simp] theorem Dev.setConf_nextRun (x : Conf) : (d.setConf x).nextRun = d.nextRun := rfl

@[simp] theorem Dev.setTrust_trust (x : Trust) : (d.setTrust x).trust = x := rfl
@[simp] theorem Dev.setTrust_ao (x : Trust) : (d.setTrust x).ao = d.ao := rfl
@[simp] theorem Dev.setTrust_fns (x : Trust) : (d.setTrust x).fns = d.fns := rfl
@[simp] theorem Dev.setTrust_qps (x : Trust) : (d.setTrust x).qps = d.qps := rfl
@[simp] theorem Dev.setTrust_parts (x : Trust) : (d.setTrust x).parts = d.parts := rfl
@[simp] theorem Dev.setTrust_ctxs (x : Trust) : (d.setTrust x).ctxs = d.ctxs := rfl
@[simp] theorem Dev.setTrust_regions (x : Trust) : (d.setTrust x).regions = d.regions := rfl
@[simp] theorem Dev.setTrust_runs (x : Trust) : (d.setTrust x).runs = d.runs := rfl
@[simp] theorem Dev.setTrust_cores (x : Trust) : (d.setTrust x).cores = d.cores := rfl
@[simp] theorem Dev.setTrust_skillets (x : Trust) : (d.setTrust x).skillets = d.skillets := rfl
@[simp] theorem Dev.setTrust_dram (x : Trust) : (d.setTrust x).dram = d.dram := rfl
@[simp] theorem Dev.setTrust_jds (x : Trust) : (d.setTrust x).jds = d.jds := rfl
@[simp] theorem Dev.setTrust_dmas (x : Trust) : (d.setTrust x).dmas = d.dmas := rfl
@[simp] theorem Dev.setTrust_crock (x : Trust) : (d.setTrust x).crock = d.crock := rfl
@[simp] theorem Dev.setTrust_fab (x : Trust) : (d.setTrust x).fab = d.fab := rfl
@[simp] theorem Dev.setTrust_cups (x : Trust) : (d.setTrust x).cups = d.cups := rfl
@[simp] theorem Dev.setTrust_pwr (x : Trust) : (d.setTrust x).pwr = d.pwr := rfl
@[simp] theorem Dev.setTrust_sense (x : Trust) : (d.setTrust x).sense = d.sense := rfl
@[simp] theorem Dev.setTrust_saf (x : Trust) : (d.setTrust x).saf = d.saf := rfl
@[simp] theorem Dev.setTrust_flash (x : Trust) : (d.setTrust x).flash = d.flash := rfl
@[simp] theorem Dev.setTrust_conf (x : Trust) : (d.setTrust x).conf = d.conf := rfl
@[simp] theorem Dev.setTrust_mod (x : Trust) : (d.setTrust x).mod = d.mod := rfl
@[simp] theorem Dev.setTrust_regs (x : Trust) : (d.setTrust x).regs = d.regs := rfl
@[simp] theorem Dev.setTrust_cnt (x : Trust) : (d.setTrust x).cnt = d.cnt := rfl
@[simp] theorem Dev.setTrust_ovf (x : Trust) : (d.setTrust x).ovf = d.ovf := rfl
@[simp] theorem Dev.setTrust_mem (x : Trust) : (d.setTrust x).mem = d.mem := rfl
@[simp] theorem Dev.setTrust_potBad (x : Trust) : (d.setTrust x).potBad = d.potBad := rfl
@[simp] theorem Dev.setTrust_out (x : Trust) : (d.setTrust x).out = d.out := rfl
@[simp] theorem Dev.setTrust_free (x : Trust) : (d.setTrust x).free = d.free := rfl
@[simp] theorem Dev.setTrust_nextRun (x : Trust) : (d.setTrust x).nextRun = d.nextRun := rfl

@[simp] theorem Dev.setMod_mod (x : Mod) : (d.setMod x).mod = x := rfl
@[simp] theorem Dev.setMod_ao (x : Mod) : (d.setMod x).ao = d.ao := rfl
@[simp] theorem Dev.setMod_fns (x : Mod) : (d.setMod x).fns = d.fns := rfl
@[simp] theorem Dev.setMod_qps (x : Mod) : (d.setMod x).qps = d.qps := rfl
@[simp] theorem Dev.setMod_parts (x : Mod) : (d.setMod x).parts = d.parts := rfl
@[simp] theorem Dev.setMod_ctxs (x : Mod) : (d.setMod x).ctxs = d.ctxs := rfl
@[simp] theorem Dev.setMod_regions (x : Mod) : (d.setMod x).regions = d.regions := rfl
@[simp] theorem Dev.setMod_runs (x : Mod) : (d.setMod x).runs = d.runs := rfl
@[simp] theorem Dev.setMod_cores (x : Mod) : (d.setMod x).cores = d.cores := rfl
@[simp] theorem Dev.setMod_skillets (x : Mod) : (d.setMod x).skillets = d.skillets := rfl
@[simp] theorem Dev.setMod_dram (x : Mod) : (d.setMod x).dram = d.dram := rfl
@[simp] theorem Dev.setMod_jds (x : Mod) : (d.setMod x).jds = d.jds := rfl
@[simp] theorem Dev.setMod_dmas (x : Mod) : (d.setMod x).dmas = d.dmas := rfl
@[simp] theorem Dev.setMod_crock (x : Mod) : (d.setMod x).crock = d.crock := rfl
@[simp] theorem Dev.setMod_fab (x : Mod) : (d.setMod x).fab = d.fab := rfl
@[simp] theorem Dev.setMod_cups (x : Mod) : (d.setMod x).cups = d.cups := rfl
@[simp] theorem Dev.setMod_pwr (x : Mod) : (d.setMod x).pwr = d.pwr := rfl
@[simp] theorem Dev.setMod_sense (x : Mod) : (d.setMod x).sense = d.sense := rfl
@[simp] theorem Dev.setMod_saf (x : Mod) : (d.setMod x).saf = d.saf := rfl
@[simp] theorem Dev.setMod_flash (x : Mod) : (d.setMod x).flash = d.flash := rfl
@[simp] theorem Dev.setMod_conf (x : Mod) : (d.setMod x).conf = d.conf := rfl
@[simp] theorem Dev.setMod_trust (x : Mod) : (d.setMod x).trust = d.trust := rfl
@[simp] theorem Dev.setMod_regs (x : Mod) : (d.setMod x).regs = d.regs := rfl
@[simp] theorem Dev.setMod_cnt (x : Mod) : (d.setMod x).cnt = d.cnt := rfl
@[simp] theorem Dev.setMod_ovf (x : Mod) : (d.setMod x).ovf = d.ovf := rfl
@[simp] theorem Dev.setMod_mem (x : Mod) : (d.setMod x).mem = d.mem := rfl
@[simp] theorem Dev.setMod_potBad (x : Mod) : (d.setMod x).potBad = d.potBad := rfl
@[simp] theorem Dev.setMod_out (x : Mod) : (d.setMod x).out = d.out := rfl
@[simp] theorem Dev.setMod_free (x : Mod) : (d.setMod x).free = d.free := rfl
@[simp] theorem Dev.setMod_nextRun (x : Mod) : (d.setMod x).nextRun = d.nextRun := rfl

@[simp] theorem Dev.setRegs_regs (x : DevRegs) : (d.setRegs x).regs = x := rfl
@[simp] theorem Dev.setRegs_ao (x : DevRegs) : (d.setRegs x).ao = d.ao := rfl
@[simp] theorem Dev.setRegs_fns (x : DevRegs) : (d.setRegs x).fns = d.fns := rfl
@[simp] theorem Dev.setRegs_qps (x : DevRegs) : (d.setRegs x).qps = d.qps := rfl
@[simp] theorem Dev.setRegs_parts (x : DevRegs) : (d.setRegs x).parts = d.parts := rfl
@[simp] theorem Dev.setRegs_ctxs (x : DevRegs) : (d.setRegs x).ctxs = d.ctxs := rfl
@[simp] theorem Dev.setRegs_regions (x : DevRegs) : (d.setRegs x).regions = d.regions := rfl
@[simp] theorem Dev.setRegs_runs (x : DevRegs) : (d.setRegs x).runs = d.runs := rfl
@[simp] theorem Dev.setRegs_cores (x : DevRegs) : (d.setRegs x).cores = d.cores := rfl
@[simp] theorem Dev.setRegs_skillets (x : DevRegs) : (d.setRegs x).skillets = d.skillets := rfl
@[simp] theorem Dev.setRegs_dram (x : DevRegs) : (d.setRegs x).dram = d.dram := rfl
@[simp] theorem Dev.setRegs_jds (x : DevRegs) : (d.setRegs x).jds = d.jds := rfl
@[simp] theorem Dev.setRegs_dmas (x : DevRegs) : (d.setRegs x).dmas = d.dmas := rfl
@[simp] theorem Dev.setRegs_crock (x : DevRegs) : (d.setRegs x).crock = d.crock := rfl
@[simp] theorem Dev.setRegs_fab (x : DevRegs) : (d.setRegs x).fab = d.fab := rfl
@[simp] theorem Dev.setRegs_cups (x : DevRegs) : (d.setRegs x).cups = d.cups := rfl
@[simp] theorem Dev.setRegs_pwr (x : DevRegs) : (d.setRegs x).pwr = d.pwr := rfl
@[simp] theorem Dev.setRegs_sense (x : DevRegs) : (d.setRegs x).sense = d.sense := rfl
@[simp] theorem Dev.setRegs_saf (x : DevRegs) : (d.setRegs x).saf = d.saf := rfl
@[simp] theorem Dev.setRegs_flash (x : DevRegs) : (d.setRegs x).flash = d.flash := rfl
@[simp] theorem Dev.setRegs_conf (x : DevRegs) : (d.setRegs x).conf = d.conf := rfl
@[simp] theorem Dev.setRegs_trust (x : DevRegs) : (d.setRegs x).trust = d.trust := rfl
@[simp] theorem Dev.setRegs_mod (x : DevRegs) : (d.setRegs x).mod = d.mod := rfl
@[simp] theorem Dev.setRegs_cnt (x : DevRegs) : (d.setRegs x).cnt = d.cnt := rfl
@[simp] theorem Dev.setRegs_ovf (x : DevRegs) : (d.setRegs x).ovf = d.ovf := rfl
@[simp] theorem Dev.setRegs_mem (x : DevRegs) : (d.setRegs x).mem = d.mem := rfl
@[simp] theorem Dev.setRegs_potBad (x : DevRegs) : (d.setRegs x).potBad = d.potBad := rfl
@[simp] theorem Dev.setRegs_out (x : DevRegs) : (d.setRegs x).out = d.out := rfl
@[simp] theorem Dev.setRegs_free (x : DevRegs) : (d.setRegs x).free = d.free := rfl
@[simp] theorem Dev.setRegs_nextRun (x : DevRegs) : (d.setRegs x).nextRun = d.nextRun := rfl

@[simp] theorem Dev.setCnt_cnt (x : KMap Nat) : (d.setCnt x).cnt = x := rfl
@[simp] theorem Dev.setCnt_ao (x : KMap Nat) : (d.setCnt x).ao = d.ao := rfl
@[simp] theorem Dev.setCnt_fns (x : KMap Nat) : (d.setCnt x).fns = d.fns := rfl
@[simp] theorem Dev.setCnt_qps (x : KMap Nat) : (d.setCnt x).qps = d.qps := rfl
@[simp] theorem Dev.setCnt_parts (x : KMap Nat) : (d.setCnt x).parts = d.parts := rfl
@[simp] theorem Dev.setCnt_ctxs (x : KMap Nat) : (d.setCnt x).ctxs = d.ctxs := rfl
@[simp] theorem Dev.setCnt_regions (x : KMap Nat) : (d.setCnt x).regions = d.regions := rfl
@[simp] theorem Dev.setCnt_runs (x : KMap Nat) : (d.setCnt x).runs = d.runs := rfl
@[simp] theorem Dev.setCnt_cores (x : KMap Nat) : (d.setCnt x).cores = d.cores := rfl
@[simp] theorem Dev.setCnt_skillets (x : KMap Nat) : (d.setCnt x).skillets = d.skillets := rfl
@[simp] theorem Dev.setCnt_dram (x : KMap Nat) : (d.setCnt x).dram = d.dram := rfl
@[simp] theorem Dev.setCnt_jds (x : KMap Nat) : (d.setCnt x).jds = d.jds := rfl
@[simp] theorem Dev.setCnt_dmas (x : KMap Nat) : (d.setCnt x).dmas = d.dmas := rfl
@[simp] theorem Dev.setCnt_crock (x : KMap Nat) : (d.setCnt x).crock = d.crock := rfl
@[simp] theorem Dev.setCnt_fab (x : KMap Nat) : (d.setCnt x).fab = d.fab := rfl
@[simp] theorem Dev.setCnt_cups (x : KMap Nat) : (d.setCnt x).cups = d.cups := rfl
@[simp] theorem Dev.setCnt_pwr (x : KMap Nat) : (d.setCnt x).pwr = d.pwr := rfl
@[simp] theorem Dev.setCnt_sense (x : KMap Nat) : (d.setCnt x).sense = d.sense := rfl
@[simp] theorem Dev.setCnt_saf (x : KMap Nat) : (d.setCnt x).saf = d.saf := rfl
@[simp] theorem Dev.setCnt_flash (x : KMap Nat) : (d.setCnt x).flash = d.flash := rfl
@[simp] theorem Dev.setCnt_conf (x : KMap Nat) : (d.setCnt x).conf = d.conf := rfl
@[simp] theorem Dev.setCnt_trust (x : KMap Nat) : (d.setCnt x).trust = d.trust := rfl
@[simp] theorem Dev.setCnt_mod (x : KMap Nat) : (d.setCnt x).mod = d.mod := rfl
@[simp] theorem Dev.setCnt_regs (x : KMap Nat) : (d.setCnt x).regs = d.regs := rfl
@[simp] theorem Dev.setCnt_ovf (x : KMap Nat) : (d.setCnt x).ovf = d.ovf := rfl
@[simp] theorem Dev.setCnt_mem (x : KMap Nat) : (d.setCnt x).mem = d.mem := rfl
@[simp] theorem Dev.setCnt_potBad (x : KMap Nat) : (d.setCnt x).potBad = d.potBad := rfl
@[simp] theorem Dev.setCnt_out (x : KMap Nat) : (d.setCnt x).out = d.out := rfl
@[simp] theorem Dev.setCnt_free (x : KMap Nat) : (d.setCnt x).free = d.free := rfl
@[simp] theorem Dev.setCnt_nextRun (x : KMap Nat) : (d.setCnt x).nextRun = d.nextRun := rfl

@[simp] theorem Dev.setOvf_ovf (x : List Nat) : (d.setOvf x).ovf = x := rfl
@[simp] theorem Dev.setOvf_ao (x : List Nat) : (d.setOvf x).ao = d.ao := rfl
@[simp] theorem Dev.setOvf_fns (x : List Nat) : (d.setOvf x).fns = d.fns := rfl
@[simp] theorem Dev.setOvf_qps (x : List Nat) : (d.setOvf x).qps = d.qps := rfl
@[simp] theorem Dev.setOvf_parts (x : List Nat) : (d.setOvf x).parts = d.parts := rfl
@[simp] theorem Dev.setOvf_ctxs (x : List Nat) : (d.setOvf x).ctxs = d.ctxs := rfl
@[simp] theorem Dev.setOvf_regions (x : List Nat) : (d.setOvf x).regions = d.regions := rfl
@[simp] theorem Dev.setOvf_runs (x : List Nat) : (d.setOvf x).runs = d.runs := rfl
@[simp] theorem Dev.setOvf_cores (x : List Nat) : (d.setOvf x).cores = d.cores := rfl
@[simp] theorem Dev.setOvf_skillets (x : List Nat) : (d.setOvf x).skillets = d.skillets := rfl
@[simp] theorem Dev.setOvf_dram (x : List Nat) : (d.setOvf x).dram = d.dram := rfl
@[simp] theorem Dev.setOvf_jds (x : List Nat) : (d.setOvf x).jds = d.jds := rfl
@[simp] theorem Dev.setOvf_dmas (x : List Nat) : (d.setOvf x).dmas = d.dmas := rfl
@[simp] theorem Dev.setOvf_crock (x : List Nat) : (d.setOvf x).crock = d.crock := rfl
@[simp] theorem Dev.setOvf_fab (x : List Nat) : (d.setOvf x).fab = d.fab := rfl
@[simp] theorem Dev.setOvf_cups (x : List Nat) : (d.setOvf x).cups = d.cups := rfl
@[simp] theorem Dev.setOvf_pwr (x : List Nat) : (d.setOvf x).pwr = d.pwr := rfl
@[simp] theorem Dev.setOvf_sense (x : List Nat) : (d.setOvf x).sense = d.sense := rfl
@[simp] theorem Dev.setOvf_saf (x : List Nat) : (d.setOvf x).saf = d.saf := rfl
@[simp] theorem Dev.setOvf_flash (x : List Nat) : (d.setOvf x).flash = d.flash := rfl
@[simp] theorem Dev.setOvf_conf (x : List Nat) : (d.setOvf x).conf = d.conf := rfl
@[simp] theorem Dev.setOvf_trust (x : List Nat) : (d.setOvf x).trust = d.trust := rfl
@[simp] theorem Dev.setOvf_mod (x : List Nat) : (d.setOvf x).mod = d.mod := rfl
@[simp] theorem Dev.setOvf_regs (x : List Nat) : (d.setOvf x).regs = d.regs := rfl
@[simp] theorem Dev.setOvf_cnt (x : List Nat) : (d.setOvf x).cnt = d.cnt := rfl
@[simp] theorem Dev.setOvf_mem (x : List Nat) : (d.setOvf x).mem = d.mem := rfl
@[simp] theorem Dev.setOvf_potBad (x : List Nat) : (d.setOvf x).potBad = d.potBad := rfl
@[simp] theorem Dev.setOvf_out (x : List Nat) : (d.setOvf x).out = d.out := rfl
@[simp] theorem Dev.setOvf_free (x : List Nat) : (d.setOvf x).free = d.free := rfl
@[simp] theorem Dev.setOvf_nextRun (x : List Nat) : (d.setOvf x).nextRun = d.nextRun := rfl

@[simp] theorem Dev.setMem_mem (x : Mem) : (d.setMem x).mem = x := rfl
@[simp] theorem Dev.setMem_ao (x : Mem) : (d.setMem x).ao = d.ao := rfl
@[simp] theorem Dev.setMem_fns (x : Mem) : (d.setMem x).fns = d.fns := rfl
@[simp] theorem Dev.setMem_qps (x : Mem) : (d.setMem x).qps = d.qps := rfl
@[simp] theorem Dev.setMem_parts (x : Mem) : (d.setMem x).parts = d.parts := rfl
@[simp] theorem Dev.setMem_ctxs (x : Mem) : (d.setMem x).ctxs = d.ctxs := rfl
@[simp] theorem Dev.setMem_regions (x : Mem) : (d.setMem x).regions = d.regions := rfl
@[simp] theorem Dev.setMem_runs (x : Mem) : (d.setMem x).runs = d.runs := rfl
@[simp] theorem Dev.setMem_cores (x : Mem) : (d.setMem x).cores = d.cores := rfl
@[simp] theorem Dev.setMem_skillets (x : Mem) : (d.setMem x).skillets = d.skillets := rfl
@[simp] theorem Dev.setMem_dram (x : Mem) : (d.setMem x).dram = d.dram := rfl
@[simp] theorem Dev.setMem_jds (x : Mem) : (d.setMem x).jds = d.jds := rfl
@[simp] theorem Dev.setMem_dmas (x : Mem) : (d.setMem x).dmas = d.dmas := rfl
@[simp] theorem Dev.setMem_crock (x : Mem) : (d.setMem x).crock = d.crock := rfl
@[simp] theorem Dev.setMem_fab (x : Mem) : (d.setMem x).fab = d.fab := rfl
@[simp] theorem Dev.setMem_cups (x : Mem) : (d.setMem x).cups = d.cups := rfl
@[simp] theorem Dev.setMem_pwr (x : Mem) : (d.setMem x).pwr = d.pwr := rfl
@[simp] theorem Dev.setMem_sense (x : Mem) : (d.setMem x).sense = d.sense := rfl
@[simp] theorem Dev.setMem_saf (x : Mem) : (d.setMem x).saf = d.saf := rfl
@[simp] theorem Dev.setMem_flash (x : Mem) : (d.setMem x).flash = d.flash := rfl
@[simp] theorem Dev.setMem_conf (x : Mem) : (d.setMem x).conf = d.conf := rfl
@[simp] theorem Dev.setMem_trust (x : Mem) : (d.setMem x).trust = d.trust := rfl
@[simp] theorem Dev.setMem_mod (x : Mem) : (d.setMem x).mod = d.mod := rfl
@[simp] theorem Dev.setMem_regs (x : Mem) : (d.setMem x).regs = d.regs := rfl
@[simp] theorem Dev.setMem_cnt (x : Mem) : (d.setMem x).cnt = d.cnt := rfl
@[simp] theorem Dev.setMem_ovf (x : Mem) : (d.setMem x).ovf = d.ovf := rfl
@[simp] theorem Dev.setMem_potBad (x : Mem) : (d.setMem x).potBad = d.potBad := rfl
@[simp] theorem Dev.setMem_out (x : Mem) : (d.setMem x).out = d.out := rfl
@[simp] theorem Dev.setMem_free (x : Mem) : (d.setMem x).free = d.free := rfl
@[simp] theorem Dev.setMem_nextRun (x : Mem) : (d.setMem x).nextRun = d.nextRun := rfl

@[simp] theorem Dev.setPotBad_potBad (x : List (Nat × Nat)) : (d.setPotBad x).potBad = x := rfl
@[simp] theorem Dev.setPotBad_ao (x : List (Nat × Nat)) : (d.setPotBad x).ao = d.ao := rfl
@[simp] theorem Dev.setPotBad_fns (x : List (Nat × Nat)) : (d.setPotBad x).fns = d.fns := rfl
@[simp] theorem Dev.setPotBad_qps (x : List (Nat × Nat)) : (d.setPotBad x).qps = d.qps := rfl
@[simp] theorem Dev.setPotBad_parts (x : List (Nat × Nat)) : (d.setPotBad x).parts = d.parts := rfl
@[simp] theorem Dev.setPotBad_ctxs (x : List (Nat × Nat)) : (d.setPotBad x).ctxs = d.ctxs := rfl
@[simp] theorem Dev.setPotBad_regions (x : List (Nat × Nat)) : (d.setPotBad x).regions = d.regions := rfl
@[simp] theorem Dev.setPotBad_runs (x : List (Nat × Nat)) : (d.setPotBad x).runs = d.runs := rfl
@[simp] theorem Dev.setPotBad_cores (x : List (Nat × Nat)) : (d.setPotBad x).cores = d.cores := rfl
@[simp] theorem Dev.setPotBad_skillets (x : List (Nat × Nat)) : (d.setPotBad x).skillets = d.skillets := rfl
@[simp] theorem Dev.setPotBad_dram (x : List (Nat × Nat)) : (d.setPotBad x).dram = d.dram := rfl
@[simp] theorem Dev.setPotBad_jds (x : List (Nat × Nat)) : (d.setPotBad x).jds = d.jds := rfl
@[simp] theorem Dev.setPotBad_dmas (x : List (Nat × Nat)) : (d.setPotBad x).dmas = d.dmas := rfl
@[simp] theorem Dev.setPotBad_crock (x : List (Nat × Nat)) : (d.setPotBad x).crock = d.crock := rfl
@[simp] theorem Dev.setPotBad_fab (x : List (Nat × Nat)) : (d.setPotBad x).fab = d.fab := rfl
@[simp] theorem Dev.setPotBad_cups (x : List (Nat × Nat)) : (d.setPotBad x).cups = d.cups := rfl
@[simp] theorem Dev.setPotBad_pwr (x : List (Nat × Nat)) : (d.setPotBad x).pwr = d.pwr := rfl
@[simp] theorem Dev.setPotBad_sense (x : List (Nat × Nat)) : (d.setPotBad x).sense = d.sense := rfl
@[simp] theorem Dev.setPotBad_saf (x : List (Nat × Nat)) : (d.setPotBad x).saf = d.saf := rfl
@[simp] theorem Dev.setPotBad_flash (x : List (Nat × Nat)) : (d.setPotBad x).flash = d.flash := rfl
@[simp] theorem Dev.setPotBad_conf (x : List (Nat × Nat)) : (d.setPotBad x).conf = d.conf := rfl
@[simp] theorem Dev.setPotBad_trust (x : List (Nat × Nat)) : (d.setPotBad x).trust = d.trust := rfl
@[simp] theorem Dev.setPotBad_mod (x : List (Nat × Nat)) : (d.setPotBad x).mod = d.mod := rfl
@[simp] theorem Dev.setPotBad_regs (x : List (Nat × Nat)) : (d.setPotBad x).regs = d.regs := rfl
@[simp] theorem Dev.setPotBad_cnt (x : List (Nat × Nat)) : (d.setPotBad x).cnt = d.cnt := rfl
@[simp] theorem Dev.setPotBad_ovf (x : List (Nat × Nat)) : (d.setPotBad x).ovf = d.ovf := rfl
@[simp] theorem Dev.setPotBad_mem (x : List (Nat × Nat)) : (d.setPotBad x).mem = d.mem := rfl
@[simp] theorem Dev.setPotBad_out (x : List (Nat × Nat)) : (d.setPotBad x).out = d.out := rfl
@[simp] theorem Dev.setPotBad_free (x : List (Nat × Nat)) : (d.setPotBad x).free = d.free := rfl
@[simp] theorem Dev.setPotBad_nextRun (x : List (Nat × Nat)) : (d.setPotBad x).nextRun = d.nextRun := rfl

@[simp] theorem Dev.setOut_out (x : List Out) : (d.setOut x).out = x := rfl
@[simp] theorem Dev.setOut_ao (x : List Out) : (d.setOut x).ao = d.ao := rfl
@[simp] theorem Dev.setOut_fns (x : List Out) : (d.setOut x).fns = d.fns := rfl
@[simp] theorem Dev.setOut_qps (x : List Out) : (d.setOut x).qps = d.qps := rfl
@[simp] theorem Dev.setOut_parts (x : List Out) : (d.setOut x).parts = d.parts := rfl
@[simp] theorem Dev.setOut_ctxs (x : List Out) : (d.setOut x).ctxs = d.ctxs := rfl
@[simp] theorem Dev.setOut_regions (x : List Out) : (d.setOut x).regions = d.regions := rfl
@[simp] theorem Dev.setOut_runs (x : List Out) : (d.setOut x).runs = d.runs := rfl
@[simp] theorem Dev.setOut_cores (x : List Out) : (d.setOut x).cores = d.cores := rfl
@[simp] theorem Dev.setOut_skillets (x : List Out) : (d.setOut x).skillets = d.skillets := rfl
@[simp] theorem Dev.setOut_dram (x : List Out) : (d.setOut x).dram = d.dram := rfl
@[simp] theorem Dev.setOut_jds (x : List Out) : (d.setOut x).jds = d.jds := rfl
@[simp] theorem Dev.setOut_dmas (x : List Out) : (d.setOut x).dmas = d.dmas := rfl
@[simp] theorem Dev.setOut_crock (x : List Out) : (d.setOut x).crock = d.crock := rfl
@[simp] theorem Dev.setOut_fab (x : List Out) : (d.setOut x).fab = d.fab := rfl
@[simp] theorem Dev.setOut_cups (x : List Out) : (d.setOut x).cups = d.cups := rfl
@[simp] theorem Dev.setOut_pwr (x : List Out) : (d.setOut x).pwr = d.pwr := rfl
@[simp] theorem Dev.setOut_sense (x : List Out) : (d.setOut x).sense = d.sense := rfl
@[simp] theorem Dev.setOut_saf (x : List Out) : (d.setOut x).saf = d.saf := rfl
@[simp] theorem Dev.setOut_flash (x : List Out) : (d.setOut x).flash = d.flash := rfl
@[simp] theorem Dev.setOut_conf (x : List Out) : (d.setOut x).conf = d.conf := rfl
@[simp] theorem Dev.setOut_trust (x : List Out) : (d.setOut x).trust = d.trust := rfl
@[simp] theorem Dev.setOut_mod (x : List Out) : (d.setOut x).mod = d.mod := rfl
@[simp] theorem Dev.setOut_regs (x : List Out) : (d.setOut x).regs = d.regs := rfl
@[simp] theorem Dev.setOut_cnt (x : List Out) : (d.setOut x).cnt = d.cnt := rfl
@[simp] theorem Dev.setOut_ovf (x : List Out) : (d.setOut x).ovf = d.ovf := rfl
@[simp] theorem Dev.setOut_mem (x : List Out) : (d.setOut x).mem = d.mem := rfl
@[simp] theorem Dev.setOut_potBad (x : List Out) : (d.setOut x).potBad = d.potBad := rfl
@[simp] theorem Dev.setOut_free (x : List Out) : (d.setOut x).free = d.free := rfl
@[simp] theorem Dev.setOut_nextRun (x : List Out) : (d.setOut x).nextRun = d.nextRun := rfl

@[simp] theorem Dev.setFree_free (x : Nat) : (d.setFree x).free = x := rfl
@[simp] theorem Dev.setFree_ao (x : Nat) : (d.setFree x).ao = d.ao := rfl
@[simp] theorem Dev.setFree_fns (x : Nat) : (d.setFree x).fns = d.fns := rfl
@[simp] theorem Dev.setFree_qps (x : Nat) : (d.setFree x).qps = d.qps := rfl
@[simp] theorem Dev.setFree_parts (x : Nat) : (d.setFree x).parts = d.parts := rfl
@[simp] theorem Dev.setFree_ctxs (x : Nat) : (d.setFree x).ctxs = d.ctxs := rfl
@[simp] theorem Dev.setFree_regions (x : Nat) : (d.setFree x).regions = d.regions := rfl
@[simp] theorem Dev.setFree_runs (x : Nat) : (d.setFree x).runs = d.runs := rfl
@[simp] theorem Dev.setFree_cores (x : Nat) : (d.setFree x).cores = d.cores := rfl
@[simp] theorem Dev.setFree_skillets (x : Nat) : (d.setFree x).skillets = d.skillets := rfl
@[simp] theorem Dev.setFree_dram (x : Nat) : (d.setFree x).dram = d.dram := rfl
@[simp] theorem Dev.setFree_jds (x : Nat) : (d.setFree x).jds = d.jds := rfl
@[simp] theorem Dev.setFree_dmas (x : Nat) : (d.setFree x).dmas = d.dmas := rfl
@[simp] theorem Dev.setFree_crock (x : Nat) : (d.setFree x).crock = d.crock := rfl
@[simp] theorem Dev.setFree_fab (x : Nat) : (d.setFree x).fab = d.fab := rfl
@[simp] theorem Dev.setFree_cups (x : Nat) : (d.setFree x).cups = d.cups := rfl
@[simp] theorem Dev.setFree_pwr (x : Nat) : (d.setFree x).pwr = d.pwr := rfl
@[simp] theorem Dev.setFree_sense (x : Nat) : (d.setFree x).sense = d.sense := rfl
@[simp] theorem Dev.setFree_saf (x : Nat) : (d.setFree x).saf = d.saf := rfl
@[simp] theorem Dev.setFree_flash (x : Nat) : (d.setFree x).flash = d.flash := rfl
@[simp] theorem Dev.setFree_conf (x : Nat) : (d.setFree x).conf = d.conf := rfl
@[simp] theorem Dev.setFree_trust (x : Nat) : (d.setFree x).trust = d.trust := rfl
@[simp] theorem Dev.setFree_mod (x : Nat) : (d.setFree x).mod = d.mod := rfl
@[simp] theorem Dev.setFree_regs (x : Nat) : (d.setFree x).regs = d.regs := rfl
@[simp] theorem Dev.setFree_cnt (x : Nat) : (d.setFree x).cnt = d.cnt := rfl
@[simp] theorem Dev.setFree_ovf (x : Nat) : (d.setFree x).ovf = d.ovf := rfl
@[simp] theorem Dev.setFree_mem (x : Nat) : (d.setFree x).mem = d.mem := rfl
@[simp] theorem Dev.setFree_potBad (x : Nat) : (d.setFree x).potBad = d.potBad := rfl
@[simp] theorem Dev.setFree_out (x : Nat) : (d.setFree x).out = d.out := rfl
@[simp] theorem Dev.setFree_nextRun (x : Nat) : (d.setFree x).nextRun = d.nextRun := rfl

end

end Sys2Proof.Machine
end

