-- ==== Sys2Proof/Laws/Tables.lean ====
section
/-!
SUPPORT. Reading and writing the device's tables: an entry written reads back, every other entry reads as before; and the
one lemma per operation on a fetched command that later proofs cite.
-/

namespace Sys2Proof.Machine

section
variable {α : Type}

@[simp] theorem kfind_kset_self (k : Nat) (x : α) : ∀ m : KMap α, kfind (kset m k x) k = some x
  | [] => by simp [kset, kfind]
  | (j, y) :: m => by
    simp only [kset]
    split
    · simp [kfind]
    · split
      · simp [kfind]
      · rename_i h1 h2
        have : j ≠ k := fun h => h2 h.symm
        simp [kfind, this, kfind_kset_self k x m]

theorem kfind_kset_ne {k l : Nat} (h : l ≠ k) (x : α) : ∀ m : KMap α, kfind (kset m k x) l = kfind m l
  | [] => by simp [kset, kfind, h.symm]
  | (j, y) :: m => by
    simp only [kset]
    split
    · simp [kfind, h.symm]
    · split
      · rename_i hk
        subst hk
        simp [kfind, h.symm]
      · simp only [kfind, kfind_kset_ne h x m]

@[simp] theorem kget_kset_self (k : Nat) (x d : α) (m : KMap α) : kget (kset m k x) k d = x := by simp [kget]

theorem kget_kset_ne {k l : Nat} (h : l ≠ k) (x d : α) (m : KMap α) : kget (kset m k x) l d = kget m l d := by
  simp [kget, kfind_kset_ne h]

theorem kfind_filter_key (p : Nat → Bool) (k : Nat) (h : p k = true) : ∀ m : KMap α,
    kfind (m.filter (fun e => p e.1)) k = kfind m k
  | [] => rfl
  | (j, y) :: m => by
    have ih := kfind_filter_key p k h m
    simp only [List.filter_cons]
    split
    · simp only [kfind, ih]
    · rename_i hj
      have : j ≠ k := fun e => hj (e ▸ h)
      simp only [kfind, this, if_false, ih]

@[simp] theorem kfind_kdel_self (k : Nat) : ∀ m : KMap α, kfind (kdel m k) k = none
  | [] => rfl
  | (j, y) :: m => by
    have ih := kfind_kdel_self k m
    simp only [kdel, List.filter_cons] at *
    split
    · rename_i hj
      have : j ≠ k := by simpa using hj
      simp only [kfind, this, if_false, ih]
    · exact ih

theorem kfind_kdel_ne {k l : Nat} (h : l ≠ k) (m : KMap α) : kfind (kdel m k) l = kfind m l :=
  kfind_filter_key (· != k) l (by simpa using h) m

end

/-! Functions. -/
@[simp] theorem Dev.fn_putFn (d : Dev) (f : Nat) (x : FnView) : (d.putFn f x).fn f = x := by simp [Dev.fn, Dev.putFn]
theorem Dev.fn_putFn_ne (d : Dev) {f g : Nat} (h : g ≠ f) (x : FnView) : (d.putFn f x).fn g = d.fn g := by
  simp [Dev.fn, Dev.putFn, kget_kset_ne h]
@[simp] theorem Dev.fn_modFn (d : Dev) (f : Nat) (g : FnView → FnView) : (d.modFn f g).fn f = g (d.fn f) := by
  simp [Dev.modFn]
theorem Dev.fn_modFn_ne (d : Dev) {f h : Nat} (hf : h ≠ f) (g : FnView → FnView) : (d.modFn f g).fn h = d.fn h := by
  simp [Dev.modFn, Dev.fn_putFn_ne d hf]
@[simp] theorem Dev.fn_emitOut (d : Dev) (o : Out) (f : Nat) : (d.emitOut o).fn f = d.fn f := rfl
@[simp] theorem Dev.out_emitOut (d : Dev) (o : Out) : (d.emitOut o).out = d.out ++ [o] := rfl

/-! Queue pairs. -/
theorem qpKey_inj {f q g r : Nat} (hq : q < 128) (hr : r < 128) (h : qpKey f q = qpKey g r) : f = g ∧ q = r := by
  unfold qpKey at h; omega
@[simp] theorem Dev.qp_putQp (d : Dev) (f q : Nat) (x : Qp) : (d.putQp f q x).qp f q = some x := by
  simp [Dev.qp, Dev.putQp]
theorem Dev.qp_putQp_ne (d : Dev) {f q g r : Nat} (h : qpKey g r ≠ qpKey f q) (x : Qp) :
    (d.putQp f q x).qp g r = d.qp g r := by simp [Dev.qp, Dev.putQp, kfind_kset_ne h]
@[simp] theorem Dev.qp_putFn (d : Dev) (f g q : Nat) (x : FnView) : (d.putFn f x).qp g q = d.qp g q := rfl
@[simp] theorem Dev.qp_modFn (d : Dev) (f g q : Nat) (h : FnView → FnView) : (d.modFn f h).qp g q = d.qp g q := rfl
@[simp] theorem Dev.qp_emitOut (d : Dev) (o : Out) (g q : Nat) : (d.emitOut o).qp g q = d.qp g q := rfl
@[simp] theorem Dev.fn_putQp (d : Dev) (f q g : Nat) (x : Qp) : (d.putQp f q x).fn g = d.fn g := rfl
theorem Dev.qp_withInt (d : Dev) (f g q : Nat) (h : IntCtl → IntCtl) : (d.withInt f h).qp g q = d.qp g q := rfl
@[simp] theorem Dev.qp_setLine (d : Dev) (f n g q : Nat) (hi : Bool) : (d.setLine f n hi).qp g q = d.qp g q := rfl

/-- A pair that is there reads back changed. -/
theorem Dev.qp_modQp (d : Dev) {f q : Nat} {x : Qp} (h : d.qp f q = some x) (g : Qp → Qp) :
    (d.modQp f q g).qp f q = some (g x) := by simp [Dev.modQp, h]

/-! Partitions, cores, skillets, stacks, channels. -/
@[simp] theorem Dev.part_putPart (d : Dev) (p : Nat) (x : Part) : (d.putPart p x).part p = some x := by
  simp [Dev.part, Dev.putPart]
theorem Dev.part_putPart_ne (d : Dev) {p q : Nat} (h : q ≠ p) (x : Part) : (d.putPart p x).part q = d.part q := by
  simp [Dev.part, Dev.putPart, kfind_kset_ne h]
@[simp] theorem Dev.core_putCore (d : Dev) (g : Nat) (x : Core) : (d.putCore g x).core g = x := by
  simp [Dev.core, Dev.putCore]
theorem Dev.core_putCore_ne (d : Dev) {g h : Nat} (hn : h ≠ g) (x : Core) : (d.putCore g x).core h = d.core h := by
  simp [Dev.core, Dev.putCore, kget_kset_ne hn]
@[simp] theorem Dev.core_modCore (d : Dev) (g : Nat) (f : Core → Core) : (d.modCore g f).core g = f (d.core g) := by
  simp [Dev.modCore]
@[simp] theorem Dev.skillet_putSkillet (d : Dev) (g : Nat) (x : Skillet) : (d.putSkillet g x).skillet g = x := by
  simp [Dev.skillet, Dev.putSkillet]
@[simp] theorem Dev.stack_putStack (d : Dev) (t : Nat) (x : Stack) : (d.putStack t x).stack t = x := by
  simp [Dev.stack, Dev.putStack]
@[simp] theorem Dev.stack_modStack (d : Dev) (t : Nat) (g : Stack → Stack) : (d.modStack t g).stack t = g (d.stack t) := by
  simp [Dev.modStack]
@[simp] theorem Dev.dma_putDma (d : Dev) (c : Nat) (x : Dma) : (d.putDma c x).dma c = x := by simp [Dev.dma, Dev.putDma]
theorem Dev.dma_putDma_ne (d : Dev) {c e : Nat} (h : e ≠ c) (x : Dma) : (d.putDma c x).dma e = d.dma e := by
  simp [Dev.dma, Dev.putDma, kget_kset_ne h]
@[simp] theorem Dev.jd_putJd (d : Dev) (j : Nat) (x : Jd) : (d.putJd j x).jd j = x := by simp [Dev.jd, Dev.putJd]

/-! A fetched command. -/

theorem find_map_key {l : List Cmd} {k : Nat} {g : Cmd → Cmd} (hg : ∀ c, (g c).k = c.k) :
    (l.map (fun c => if c.k = k then g c else c)).find? (fun c => c.k == k) = (l.find? (fun c => c.k == k)).map g := by
  induction l with
  | nil => rfl
  | cons a l ih =>
    simp only [List.map_cons, List.find?_cons]
    by_cases h : a.k = k
    · simp [h, hg]
    · have : (a.k == k) = false := by simpa using h
      simp [h, this, ih]

/-- What `modCmd` does to the command it names, for a change that keeps the ordinal. -/
theorem Dev.cmd_modCmd (d : Dev) (r : CmdRef) {g : Cmd → Cmd} (hg : ∀ c, (g c).k = c.k) :
    (d.modCmd r g).cmd r = (d.cmd r).map g := by
  unfold Dev.cmd Dev.modCmd
  cases h : d.qp r.f r.q with
  | none => simp [Dev.modQp, h]
  | some x => rw [Dev.qp_modQp d h]; simp [find_map_key hg]

/-- The command after it ended (R375). -/
theorem Dev.cmd_finish (d : Dev) {r : CmdRef} {c : Cmd} (h : d.cmd r = some c) (st r0 r1 det : Nat)
    (dies : List Nat) :
    (d.finish r st r0 r1 det dies).cmd r =
      some { c with phase := .ended, status := (c.marks.final st).1,
                    detail := if (c.marks.final st).1 = stPoisoned then (c.marks.final st).2 else det,
                    result0 := if (c.marks.final st).1 = st then r0 else 0,
                    result1 := if (c.marks.final st).1 = st then r1 else 0,
                    dies := c.dies ++ d.stamps dies } := by
  rw [Dev.finish, Dev.cmd_modCmd d r (by intro c; rfl), h]; rfl

/-- Without marks a command ends as it was told to. -/
@[simp] theorem Marks.final_clear (st : Nat) : ({} : Marks).final st = (st, 0) := rfl

/-- A command that may start is there, waits, and its pair exists. -/
theorem Dev.startable_some {d : Dev} {r : CmdRef} {c : Cmd} (h : d.startable r = some c) :
    d.cmd r = some c ∧ c.phase = .waiting ∧ ∃ x, d.qp r.f r.q = some x ∧ x.depsMet r.k = true := by
  unfold Dev.startable at h
  cases hx : d.qp r.f r.q with
  | none => simp [hx] at h
  | some x =>
    cases hy : d.cmd r with
    | none => simp [hx, hy] at h
    | some y =>
      simp only [hx, hy] at h
      split at h
      · rename_i hc
        cases h
        exact ⟨rfl, hc.1, x, rfl, hc.2.1⟩
      · cases h

/-- What a row of the command set does: a command that may not start, or has another opcode, is left; one that R354
turns away ends; else the row's body runs. -/
theorem Dev.withCmd_ready {d : Dev} {r : CmdRef} {op : Nat} {body : Cmd → Dev} {c : Cmd} (h : d.startable r = some c)
    (ho : c.op = op) (ha : d.rejectStatus r c = none) : d.withCmd r op body = body c := by
  simp [Dev.withCmd, h, ho, ha]

end Sys2Proof.Machine
end

