-- ==== Sys2Proof/Laws/Events.lean ====
section
/-!
SUPPORT. What a report can do (R391 to R409): lines, counters, records and suspect entries change the function views'
interrupt controllers and event rings, the counters, the junction dies' tables and what left the device, and nothing else.
-/

namespace Sys2Proof.Machine

/-- `d'` is `d` after lines, counters and records: everything but the function views' controllers and rings, the suspect
tables, the counters and their overflow bits is as it was, and what had left the device has left it still. -/
structure Dev.Reports (d d' : Dev) : Prop where
  shape : ∃ a b c e l, d' = { d with fns := a, jds := b, cnt := c, ovf := e, out := d.out ++ l }
  view : ∀ f, ∃ i e, d'.fn f = { d.fn f with int := i, evt := e }

theorem Dev.Reports.ao {d d' : Dev} (h : d.Reports d') : d'.ao = d.ao := by obtain ⟨⟨_, _, _, _, _, e⟩, _⟩ := h; rw [e]
theorem Dev.Reports.qps {d d' : Dev} (h : d.Reports d') : d'.qps = d.qps := by obtain ⟨⟨_, _, _, _, _, e⟩, _⟩ := h; rw [e]
theorem Dev.Reports.parts {d d' : Dev} (h : d.Reports d') : d'.parts = d.parts := by obtain ⟨⟨_, _, _, _, _, e⟩, _⟩ := h; rw [e]
theorem Dev.Reports.ctxs {d d' : Dev} (h : d.Reports d') : d'.ctxs = d.ctxs := by obtain ⟨⟨_, _, _, _, _, e⟩, _⟩ := h; rw [e]
theorem Dev.Reports.regions {d d' : Dev} (h : d.Reports d') : d'.regions = d.regions := by obtain ⟨⟨_, _, _, _, _, e⟩, _⟩ := h; rw [e]
theorem Dev.Reports.runs {d d' : Dev} (h : d.Reports d') : d'.runs = d.runs := by obtain ⟨⟨_, _, _, _, _, e⟩, _⟩ := h; rw [e]
theorem Dev.Reports.nextRun {d d' : Dev} (h : d.Reports d') : d'.nextRun = d.nextRun := by obtain ⟨⟨_, _, _, _, _, e⟩, _⟩ := h; rw [e]
theorem Dev.Reports.cores {d d' : Dev} (h : d.Reports d') : d'.cores = d.cores := by obtain ⟨⟨_, _, _, _, _, e⟩, _⟩ := h; rw [e]
theorem Dev.Reports.skillets {d d' : Dev} (h : d.Reports d') : d'.skillets = d.skillets := by obtain ⟨⟨_, _, _, _, _, e⟩, _⟩ := h; rw [e]
theorem Dev.Reports.dram {d d' : Dev} (h : d.Reports d') : d'.dram = d.dram := by obtain ⟨⟨_, _, _, _, _, e⟩, _⟩ := h; rw [e]
theorem Dev.Reports.dmas {d d' : Dev} (h : d.Reports d') : d'.dmas = d.dmas := by obtain ⟨⟨_, _, _, _, _, e⟩, _⟩ := h; rw [e]
theorem Dev.Reports.crock {d d' : Dev} (h : d.Reports d') : d'.crock = d.crock := by obtain ⟨⟨_, _, _, _, _, e⟩, _⟩ := h; rw [e]
theorem Dev.Reports.fab {d d' : Dev} (h : d.Reports d') : d'.fab = d.fab := by obtain ⟨⟨_, _, _, _, _, e⟩, _⟩ := h; rw [e]
theorem Dev.Reports.cups {d d' : Dev} (h : d.Reports d') : d'.cups = d.cups := by obtain ⟨⟨_, _, _, _, _, e⟩, _⟩ := h; rw [e]
theorem Dev.Reports.pwr {d d' : Dev} (h : d.Reports d') : d'.pwr = d.pwr := by obtain ⟨⟨_, _, _, _, _, e⟩, _⟩ := h; rw [e]
theorem Dev.Reports.sense {d d' : Dev} (h : d.Reports d') : d'.sense = d.sense := by obtain ⟨⟨_, _, _, _, _, e⟩, _⟩ := h; rw [e]
theorem Dev.Reports.saf {d d' : Dev} (h : d.Reports d') : d'.saf = d.saf := by obtain ⟨⟨_, _, _, _, _, e⟩, _⟩ := h; rw [e]
theorem Dev.Reports.flash {d d' : Dev} (h : d.Reports d') : d'.flash = d.flash := by obtain ⟨⟨_, _, _, _, _, e⟩, _⟩ := h; rw [e]
theorem Dev.Reports.conf {d d' : Dev} (h : d.Reports d') : d'.conf = d.conf := by obtain ⟨⟨_, _, _, _, _, e⟩, _⟩ := h; rw [e]
theorem Dev.Reports.trust {d d' : Dev} (h : d.Reports d') : d'.trust = d.trust := by obtain ⟨⟨_, _, _, _, _, e⟩, _⟩ := h; rw [e]
theorem Dev.Reports.mod {d d' : Dev} (h : d.Reports d') : d'.mod = d.mod := by obtain ⟨⟨_, _, _, _, _, e⟩, _⟩ := h; rw [e]
theorem Dev.Reports.regs {d d' : Dev} (h : d.Reports d') : d'.regs = d.regs := by obtain ⟨⟨_, _, _, _, _, e⟩, _⟩ := h; rw [e]
theorem Dev.Reports.mem {d d' : Dev} (h : d.Reports d') : d'.mem = d.mem := by obtain ⟨⟨_, _, _, _, _, e⟩, _⟩ := h; rw [e]
theorem Dev.Reports.potBad {d d' : Dev} (h : d.Reports d') : d'.potBad = d.potBad := by obtain ⟨⟨_, _, _, _, _, e⟩, _⟩ := h; rw [e]
theorem Dev.Reports.free {d d' : Dev} (h : d.Reports d') : d'.free = d.free := by obtain ⟨⟨_, _, _, _, _, e⟩, _⟩ := h; rw [e]
theorem Dev.Reports.out {d d' : Dev} (h : d.Reports d') : ∃ l, d'.out = d.out ++ l := by
  obtain ⟨⟨_, _, _, _, l, e⟩, _⟩ := h; exact ⟨l, by rw [e]⟩

theorem Dev.Reports.rfl (d : Dev) : d.Reports d := by
  refine ⟨⟨d.fns, d.jds, d.cnt, d.ovf, [], ?_⟩, fun f => ⟨_, _, Eq.refl _⟩⟩
  simp

theorem Dev.Reports.trans {a b c : Dev} (h : a.Reports b) (k : b.Reports c) : a.Reports c := by
  obtain ⟨⟨f1, j1, c1, o1, l1, e1⟩, v1⟩ := h
  obtain ⟨⟨f2, j2, c2, o2, l2, e2⟩, v2⟩ := k
  refine ⟨⟨f2, j2, c2, o2, l1 ++ l2, ?_⟩, ?_⟩
  · rw [e2, e1]; simp
  · intro f
    obtain ⟨i1, w1, x1⟩ := v1 f
    obtain ⟨i2, w2, x2⟩ := v2 f
    exact ⟨i2, w2, by rw [x2, x1]⟩

theorem Dev.Reports.foldl {α : Type} (g : Dev → α → Dev) (h : ∀ (d : Dev) a, d.Reports (g d a)) :
    ∀ (l : List α) (d : Dev), d.Reports (l.foldl g d)
  | [], d => .rfl d
  | a :: l, d => (h d a).trans (Dev.Reports.foldl g h l (g d a))

theorem Dev.reports_modFn (d : Dev) (f : Nat) (g : FnView → FnView) (hg : ∀ v, ∃ i e, g v = { v with int := i, evt := e }) :
    d.Reports (d.modFn f g) := by
  refine ⟨⟨(d.modFn f g).fns, d.jds, d.cnt, d.ovf, [], ?_⟩, ?_⟩
  · simp [Dev.modFn, Dev.putFn, Dev.setFns]
  · intro k
    by_cases h : k = f
    · subst h; rw [Dev.fn_modFn]; exact hg _
    · rw [Dev.fn_modFn_ne d h]; exact ⟨_, _, Eq.refl _⟩

theorem Dev.reports_emit (d : Dev) (l : List Out) : d.Reports (d.setOut (d.out ++ l)) :=
  ⟨⟨d.fns, d.jds, d.cnt, d.ovf, l, Eq.refl _⟩, fun _ => ⟨_, _, Eq.refl _⟩⟩

theorem Dev.reports_withInt (d : Dev) (f : Nat) (g : IntCtl → IntCtl) : d.Reports (d.withInt f g) := by
  unfold Dev.withInt
  refine (Dev.reports_modFn d f _ ?_).trans (Dev.reports_emit _ _)
  intro v; exact ⟨_, v.evt, Eq.refl _⟩

theorem Dev.reports_setLine (d : Dev) (f n : Nat) (hi : Bool) : d.Reports (d.setLine f n hi) := Dev.reports_withInt d f _

theorem Dev.reports_pulse (d : Dev) (f n : Nat) : d.Reports (d.pulse f n) :=
  (Dev.reports_setLine d f n true).trans (Dev.reports_setLine _ f n false)

theorem Dev.reports_cnt (d : Dev) (x : KMap Nat) (y : List Nat) : d.Reports ((d.setCnt x).setOvf y) :=
  ⟨⟨d.fns, d.jds, x, y, [], by simp [Dev.setCnt, Dev.setOvf]⟩, fun _ => ⟨_, _, Eq.refl _⟩⟩

theorem Dev.reports_setCnt (d : Dev) (x : KMap Nat) : d.Reports (d.setCnt x) := Dev.reports_cnt d x d.ovf

theorem Dev.reports_addCount (d : Dev) (u i n : Nat) : d.Reports (d.addCount u i n).1 := by
  unfold Dev.addCount
  split
  · dsimp only
    split
    · exact Dev.reports_cnt d _ _
    · exact Dev.reports_setCnt d _
  · exact Dev.reports_setCnt d _

theorem Dev.reports_writeRec (d : Dev) (f : Nat) (e : EvRec) : d.Reports (d.writeRec f e).1 := by
  unfold Dev.writeRec
  dsimp only
  split
  · exact Dev.reports_addCount d _ _ _
  · split
    · exact ((Dev.reports_modFn d f _ (fun v => ⟨v.int, _, Eq.refl _⟩)).trans (Dev.reports_addCount _ _ _ _)).trans
        (Dev.reports_pulse _ _ _)
    · exact ((Dev.reports_emit d _).trans (Dev.reports_modFn _ f _ (fun v => ⟨v.int, _, Eq.refl _⟩))).trans
        (Dev.reports_pulse _ _ _)

theorem Dev.reports_record : ∀ (n : Nat) (d : Dev) (e : EvRec), d.Reports (Dev.record n d e)
  | 0, d, _ => .rfl d
  | n + 1, d, e => by
    unfold Dev.record
    dsimp only
    split
    · exact (Dev.reports_writeRec d 0 e).trans (Dev.Reports.foldl _ (Dev.reports_record n) _ _)
    · exact ((Dev.reports_writeRec d 0 e).trans (Dev.reports_writeRec _ _ e)).trans
        (Dev.Reports.foldl _ (Dev.reports_record n) _ _)

/-- An event record (R398 to R402). -/
theorem Dev.reports_event (d : Dev) (e : EvRec) : d.Reports (d.event e) := Dev.reports_record 5 d _

/-- A count (R406 to R409). -/
theorem Dev.reports_count (d : Dev) (u i n : Nat) : d.Reports (d.count u i n) := by
  unfold Dev.count
  split
  · exact .rfl d
  · exact (Dev.reports_addCount d u i n).trans (Dev.Reports.foldl _ Dev.reports_event _ _)

theorem Dev.reports_putSuspects (d : Dev) (j : Nat) (l : List Suspect) : d.Reports (d.putSuspects j l) := by
  refine ⟨⟨d.fns, (d.putSuspects j l).jds, d.cnt, d.ovf, [], ?_⟩, fun _ => ⟨_, _, Eq.refl _⟩⟩
  simp [Dev.putSuspects, Dev.putJd, Dev.setJds]

/-- A report of class 1 (R403 to R405). -/
theorem Dev.reports_suspect (d : Dev) (e : EvRec) (r : Nat) : d.Reports (d.suspectReport e r) := by
  unfold Dev.suspectReport
  dsimp only
  split
  · refine Dev.Reports.trans ?_ (Dev.reports_putSuspects _ _ _)
    exact Dev.reports_count d _ _ _
  · split
    · refine Dev.Reports.trans ?_ (Dev.reports_event _ _)
      refine Dev.Reports.trans ?_ (Dev.reports_putSuspects _ _ _)
      exact Dev.reports_count d _ _ _
    · refine Dev.Reports.trans ?_ (Dev.reports_event _ _)
      refine Dev.Reports.trans ?_ (Dev.reports_count _ _ _ _)
      exact Dev.reports_count d _ _ _

/-- A report of any class (R403, R482). -/
theorem Dev.reports_raise (d : Dev) (e : EvRec) (r : Nat) : d.Reports (d.raise e r) := by
  unfold Dev.raise
  split
  · exact Dev.reports_suspect d e _
  · exact Dev.reports_event d e

/-! Field by field. -/

section
variable (d : Dev)
@[simp] theorem Dev.setLine_ao (f n : Nat) (hi : Bool) : (d.setLine f n hi).ao = d.ao := (Dev.reports_setLine d f n hi).ao
@[simp] theorem Dev.setLine_qps (f n : Nat) (hi : Bool) : (d.setLine f n hi).qps = d.qps := (Dev.reports_setLine d f n hi).qps
@[simp] theorem Dev.setLine_parts (f n : Nat) (hi : Bool) : (d.setLine f n hi).parts = d.parts := (Dev.reports_setLine d f n hi).parts
@[simp] theorem Dev.setLine_ctxs (f n : Nat) (hi : Bool) : (d.setLine f n hi).ctxs = d.ctxs := (Dev.reports_setLine d f n hi).ctxs
@[simp] theorem Dev.setLine_regions (f n : Nat) (hi : Bool) : (d.setLine f n hi).regions = d.regions := (Dev.reports_setLine d f n hi).regions
@[simp] theorem Dev.setLine_runs (f n : Nat) (hi : Bool) : (d.setLine f n hi).runs = d.runs := (Dev.reports_setLine d f n hi).runs
@[simp] theorem Dev.setLine_nextRun (f n : Nat) (hi : Bool) : (d.setLine f n hi).nextRun = d.nextRun := (Dev.reports_setLine d f n hi).nextRun
@[simp] theorem Dev.setLine_cores (f n : Nat) (hi : Bool) : (d.setLine f n hi).cores = d.cores := (Dev.reports_setLine d f n hi).cores
@[simp] theorem Dev.setLine_skillets (f n : Nat) (hi : Bool) : (d.setLine f n hi).skillets = d.skillets := (Dev.reports_setLine d f n hi).skillets
@[simp] theorem Dev.setLine_dram (f n : Nat) (hi : Bool) : (d.setLine f n hi).dram = d.dram := (Dev.reports_setLine d f n hi).dram
@[simp] theorem Dev.setLine_dmas (f n : Nat) (hi : Bool) : (d.setLine f n hi).dmas = d.dmas := (Dev.reports_setLine d f n hi).dmas
@[simp] theorem Dev.setLine_crock (f n : Nat) (hi : Bool) : (d.setLine f n hi).crock = d.crock := (Dev.reports_setLine d f n hi).crock
@[simp] theorem Dev.setLine_fab (f n : Nat) (hi : Bool) : (d.setLine f n hi).fab = d.fab := (Dev.reports_setLine d f n hi).fab
@[simp] theorem Dev.setLine_cups (f n : Nat) (hi : Bool) : (d.setLine f n hi).cups = d.cups := (Dev.reports_setLine d f n hi).cups
@[simp] theorem Dev.setLine_pwr (f n : Nat) (hi : Bool) : (d.setLine f n hi).pwr = d.pwr := (Dev.reports_setLine d f n hi).pwr
@[simp] theorem Dev.setLine_sense (f n : Nat) (hi : Bool) : (d.setLine f n hi).sense = d.sense := (Dev.reports_setLine d f n hi).sense
@[simp] theorem Dev.setLine_saf (f n : Nat) (hi : Bool) : (d.setLine f n hi).saf = d.saf := (Dev.reports_setLine d f n hi).saf
@[simp] theorem Dev.setLine_flash (f n : Nat) (hi : Bool) : (d.setLine f n hi).flash = d.flash := (Dev.reports_setLine d f n hi).flash
@[simp] theorem Dev.setLine_conf (f n : Nat) (hi : Bool) : (d.setLine f n hi).conf = d.conf := (Dev.reports_setLine d f n hi).conf
@[simp] theorem Dev.setLine_trust (f n : Nat) (hi : Bool) : (d.setLine f n hi).trust = d.trust := (Dev.reports_setLine d f n hi).trust
@[simp] theorem Dev.setLine_mod (f n : Nat) (hi : Bool) : (d.setLine f n hi).mod = d.mod := (Dev.reports_setLine d f n hi).mod
@[simp] theorem Dev.setLine_regs (f n : Nat) (hi : Bool) : (d.setLine f n hi).regs = d.regs := (Dev.reports_setLine d f n hi).regs
@[simp] theorem Dev.setLine_mem (f n : Nat) (hi : Bool) : (d.setLine f n hi).mem = d.mem := (Dev.reports_setLine d f n hi).mem
@[simp] theorem Dev.setLine_potBad (f n : Nat) (hi : Bool) : (d.setLine f n hi).potBad = d.potBad := (Dev.reports_setLine d f n hi).potBad
@[simp] theorem Dev.setLine_free (f n : Nat) (hi : Bool) : (d.setLine f n hi).free = d.free := (Dev.reports_setLine d f n hi).free
@[simp] theorem Dev.withInt_ao (f : Nat) (g : IntCtl → IntCtl) : (d.withInt f g).ao = d.ao := (Dev.reports_withInt d f g).ao
@[simp] theorem Dev.withInt_qps (f : Nat) (g : IntCtl → IntCtl) : (d.withInt f g).qps = d.qps := (Dev.reports_withInt d f g).qps
@[simp] theorem Dev.withInt_parts (f : Nat) (g : IntCtl → IntCtl) : (d.withInt f g).parts = d.parts := (Dev.reports_withInt d f g).parts
@[simp] theorem Dev.withInt_ctxs (f : Nat) (g : IntCtl → IntCtl) : (d.withInt f g).ctxs = d.ctxs := (Dev.reports_withInt d f g).ctxs
@[simp] theorem Dev.withInt_regions (f : Nat) (g : IntCtl → IntCtl) : (d.withInt f g).regions = d.regions := (Dev.reports_withInt d f g).regions
@[simp] theorem Dev.withInt_runs (f : Nat) (g : IntCtl → IntCtl) : (d.withInt f g).runs = d.runs := (Dev.reports_withInt d f g).runs
@[simp] theorem Dev.withInt_nextRun (f : Nat) (g : IntCtl → IntCtl) : (d.withInt f g).nextRun = d.nextRun := (Dev.reports_withInt d f g).nextRun
@[simp] theorem Dev.withInt_cores (f : Nat) (g : IntCtl → IntCtl) : (d.withInt f g).cores = d.cores := (Dev.reports_withInt d f g).cores
@[simp] theorem Dev.withInt_skillets (f : Nat) (g : IntCtl → IntCtl) : (d.withInt f g).skillets = d.skillets := (Dev.reports_withInt d f g).skillets
@[simp] theorem Dev.withInt_dram (f : Nat) (g : IntCtl → IntCtl) : (d.withInt f g).dram = d.dram := (Dev.reports_withInt d f g).dram
@[simp] theorem Dev.withInt_dmas (f : Nat) (g : IntCtl → IntCtl) : (d.withInt f g).dmas = d.dmas := (Dev.reports_withInt d f g).dmas
@[simp] theorem Dev.withInt_crock (f : Nat) (g : IntCtl → IntCtl) : (d.withInt f g).crock = d.crock := (Dev.reports_withInt d f g).crock
@[simp] theorem Dev.withInt_fab (f : Nat) (g : IntCtl → IntCtl) : (d.withInt f g).fab = d.fab := (Dev.reports_withInt d f g).fab
@[simp] theorem Dev.withInt_cups (f : Nat) (g : IntCtl → IntCtl) : (d.withInt f g).cups = d.cups := (Dev.reports_withInt d f g).cups
@[simp] theorem Dev.withInt_pwr (f : Nat) (g : IntCtl → IntCtl) : (d.withInt f g).pwr = d.pwr := (Dev.reports_withInt d f g).pwr
@[simp] theorem Dev.withInt_sense (f : Nat) (g : IntCtl → IntCtl) : (d.withInt f g).sense = d.sense := (Dev.reports_withInt d f g).sense
@[simp] theorem Dev.withInt_saf (f : Nat) (g : IntCtl → IntCtl) : (d.withInt f g).saf = d.saf := (Dev.reports_withInt d f g).saf
@[simp] theorem Dev.withInt_flash (f : Nat) (g : IntCtl → IntCtl) : (d.withInt f g).flash = d.flash := (Dev.reports_withInt d f g).flash
@[simp] theorem Dev.withInt_conf (f : Nat) (g : IntCtl → IntCtl) : (d.withInt f g).conf = d.conf := (Dev.reports_withInt d f g).conf
@[simp] theorem Dev.withInt_trust (f : Nat) (g : IntCtl → IntCtl) : (d.withInt f g).trust = d.trust := (Dev.reports_withInt d f g).trust
@[simp] theorem Dev.withInt_mod (f : Nat) (g : IntCtl → IntCtl) : (d.withInt f g).mod = d.mod := (Dev.reports_withInt d f g).mod
@[simp] theorem Dev.withInt_regs (f : Nat) (g : IntCtl → IntCtl) : (d.withInt f g).regs = d.regs := (Dev.reports_withInt d f g).regs
@[simp] theorem Dev.withInt_mem (f : Nat) (g : IntCtl → IntCtl) : (d.withInt f g).mem = d.mem := (Dev.reports_withInt d f g).mem
@[simp] theorem Dev.withInt_potBad (f : Nat) (g : IntCtl → IntCtl) : (d.withInt f g).potBad = d.potBad := (Dev.reports_withInt d f g).potBad
@[simp] theorem Dev.withInt_free (f : Nat) (g : IntCtl → IntCtl) : (d.withInt f g).free = d.free := (Dev.reports_withInt d f g).free
@[simp] theorem Dev.pulse_ao (f n : Nat) : (d.pulse f n).ao = d.ao := (Dev.reports_pulse d f n).ao
@[simp] theorem Dev.pulse_qps (f n : Nat) : (d.pulse f n).qps = d.qps := (Dev.reports_pulse d f n).qps
@[simp] theorem Dev.pulse_parts (f n : Nat) : (d.pulse f n).parts = d.parts := (Dev.reports_pulse d f n).parts
@[simp] theorem Dev.pulse_ctxs (f n : Nat) : (d.pulse f n).ctxs = d.ctxs := (Dev.reports_pulse d f n).ctxs
@[simp] theorem Dev.pulse_regions (f n : Nat) : (d.pulse f n).regions = d.regions := (Dev.reports_pulse d f n).regions
@[simp] theorem Dev.pulse_runs (f n : Nat) : (d.pulse f n).runs = d.runs := (Dev.reports_pulse d f n).runs
@[simp] theorem Dev.pulse_nextRun (f n : Nat) : (d.pulse f n).nextRun = d.nextRun := (Dev.reports_pulse d f n).nextRun
@[simp] theorem Dev.pulse_cores (f n : Nat) : (d.pulse f n).cores = d.cores := (Dev.reports_pulse d f n).cores
@[simp] theorem Dev.pulse_skillets (f n : Nat) : (d.pulse f n).skillets = d.skillets := (Dev.reports_pulse d f n).skillets
@[simp] theorem Dev.pulse_dram (f n : Nat) : (d.pulse f n).dram = d.dram := (Dev.reports_pulse d f n).dram
@[simp] theorem Dev.pulse_dmas (f n : Nat) : (d.pulse f n).dmas = d.dmas := (Dev.reports_pulse d f n).dmas
@[simp] theorem Dev.pulse_crock (f n : Nat) : (d.pulse f n).crock = d.crock := (Dev.reports_pulse d f n).crock
@[simp] theorem Dev.pulse_fab (f n : Nat) : (d.pulse f n).fab = d.fab := (Dev.reports_pulse d f n).fab
@[simp] theorem Dev.pulse_cups (f n : Nat) : (d.pulse f n).cups = d.cups := (Dev.reports_pulse d f n).cups
@[simp] theorem Dev.pulse_pwr (f n : Nat) : (d.pulse f n).pwr = d.pwr := (Dev.reports_pulse d f n).pwr
@[simp] theorem Dev.pulse_sense (f n : Nat) : (d.pulse f n).sense = d.sense := (Dev.reports_pulse d f n).sense
@[simp] theorem Dev.pulse_saf (f n : Nat) : (d.pulse f n).saf = d.saf := (Dev.reports_pulse d f n).saf
@[simp] theorem Dev.pulse_flash (f n : Nat) : (d.pulse f n).flash = d.flash := (Dev.reports_pulse d f n).flash
@[simp] theorem Dev.pulse_conf (f n : Nat) : (d.pulse f n).conf = d.conf := (Dev.reports_pulse d f n).conf
@[simp] theorem Dev.pulse_trust (f n : Nat) : (d.pulse f n).trust = d.trust := (Dev.reports_pulse d f n).trust
@[simp] theorem Dev.pulse_mod (f n : Nat) : (d.pulse f n).mod = d.mod := (Dev.reports_pulse d f n).mod
@[simp] theorem Dev.pulse_regs (f n : Nat) : (d.pulse f n).regs = d.regs := (Dev.reports_pulse d f n).regs
@[simp] theorem Dev.pulse_mem (f n : Nat) : (d.pulse f n).mem = d.mem := (Dev.reports_pulse d f n).mem
@[simp] theorem Dev.pulse_potBad (f n : Nat) : (d.pulse f n).potBad = d.potBad := (Dev.reports_pulse d f n).potBad
@[simp] theorem Dev.pulse_free (f n : Nat) : (d.pulse f n).free = d.free := (Dev.reports_pulse d f n).free
@[simp] theorem Dev.event_ao (e : EvRec) : (d.event e).ao = d.ao := (Dev.reports_event d e).ao
@[simp] theorem Dev.event_qps (e : EvRec) : (d.event e).qps = d.qps := (Dev.reports_event d e).qps
@[simp] theorem Dev.event_parts (e : EvRec) : (d.event e).parts = d.parts := (Dev.reports_event d e).parts
@[simp] theorem Dev.event_ctxs (e : EvRec) : (d.event e).ctxs = d.ctxs := (Dev.reports_event d e).ctxs
@[simp] theorem Dev.event_regions (e : EvRec) : (d.event e).regions = d.regions := (Dev.reports_event d e).regions
@[simp] theorem Dev.event_runs (e : EvRec) : (d.event e).runs = d.runs := (Dev.reports_event d e).runs
@[simp] theorem Dev.event_nextRun (e : EvRec) : (d.event e).nextRun = d.nextRun := (Dev.reports_event d e).nextRun
@[simp] theorem Dev.event_cores (e : EvRec) : (d.event e).cores = d.cores := (Dev.reports_event d e).cores
@[simp] theorem Dev.event_skillets (e : EvRec) : (d.event e).skillets = d.skillets := (Dev.reports_event d e).skillets
@[simp] theorem Dev.event_dram (e : EvRec) : (d.event e).dram = d.dram := (Dev.reports_event d e).dram
@[simp] theorem Dev.event_dmas (e : EvRec) : (d.event e).dmas = d.dmas := (Dev.reports_event d e).dmas
@[simp] theorem Dev.event_crock (e : EvRec) : (d.event e).crock = d.crock := (Dev.reports_event d e).crock
@[simp] theorem Dev.event_fab (e : EvRec) : (d.event e).fab = d.fab := (Dev.reports_event d e).fab
@[simp] theorem Dev.event_cups (e : EvRec) : (d.event e).cups = d.cups := (Dev.reports_event d e).cups
@[simp] theorem Dev.event_pwr (e : EvRec) : (d.event e).pwr = d.pwr := (Dev.reports_event d e).pwr
@[simp] theorem Dev.event_sense (e : EvRec) : (d.event e).sense = d.sense := (Dev.reports_event d e).sense
@[simp] theorem Dev.event_saf (e : EvRec) : (d.event e).saf = d.saf := (Dev.reports_event d e).saf
@[simp] theorem Dev.event_flash (e : EvRec) : (d.event e).flash = d.flash := (Dev.reports_event d e).flash
@[simp] theorem Dev.event_conf (e : EvRec) : (d.event e).conf = d.conf := (Dev.reports_event d e).conf
@[simp] theorem Dev.event_trust (e : EvRec) : (d.event e).trust = d.trust := (Dev.reports_event d e).trust
@[simp] theorem Dev.event_mod (e : EvRec) : (d.event e).mod = d.mod := (Dev.reports_event d e).mod
@[simp] theorem Dev.event_regs (e : EvRec) : (d.event e).regs = d.regs := (Dev.reports_event d e).regs
@[simp] theorem Dev.event_mem (e : EvRec) : (d.event e).mem = d.mem := (Dev.reports_event d e).mem
@[simp] theorem Dev.event_potBad (e : EvRec) : (d.event e).potBad = d.potBad := (Dev.reports_event d e).potBad
@[simp] theorem Dev.event_free (e : EvRec) : (d.event e).free = d.free := (Dev.reports_event d e).free
@[simp] theorem Dev.count_ao (u i n : Nat) : (d.count u i n).ao = d.ao := (Dev.reports_count d u i n).ao
@[simp] theorem Dev.count_qps (u i n : Nat) : (d.count u i n).qps = d.qps := (Dev.reports_count d u i n).qps
@[simp] theorem Dev.count_parts (u i n : Nat) : (d.count u i n).parts = d.parts := (Dev.reports_count d u i n).parts
@[simp] theorem Dev.count_ctxs (u i n : Nat) : (d.count u i n).ctxs = d.ctxs := (Dev.reports_count d u i n).ctxs
@[simp] theorem Dev.count_regions (u i n : Nat) : (d.count u i n).regions = d.regions := (Dev.reports_count d u i n).regions
@[simp] theorem Dev.count_runs (u i n : Nat) : (d.count u i n).runs = d.runs := (Dev.reports_count d u i n).runs
@[simp] theorem Dev.count_nextRun (u i n : Nat) : (d.count u i n).nextRun = d.nextRun := (Dev.reports_count d u i n).nextRun
@[simp] theorem Dev.count_cores (u i n : Nat) : (d.count u i n).cores = d.cores := (Dev.reports_count d u i n).cores
@[simp] theorem Dev.count_skillets (u i n : Nat) : (d.count u i n).skillets = d.skillets := (Dev.reports_count d u i n).skillets
@[simp] theorem Dev.count_dram (u i n : Nat) : (d.count u i n).dram = d.dram := (Dev.reports_count d u i n).dram
@[simp] theorem Dev.count_dmas (u i n : Nat) : (d.count u i n).dmas = d.dmas := (Dev.reports_count d u i n).dmas
@[simp] theorem Dev.count_crock (u i n : Nat) : (d.count u i n).crock = d.crock := (Dev.reports_count d u i n).crock
@[simp] theorem Dev.count_fab (u i n : Nat) : (d.count u i n).fab = d.fab := (Dev.reports_count d u i n).fab
@[simp] theorem Dev.count_cups (u i n : Nat) : (d.count u i n).cups = d.cups := (Dev.reports_count d u i n).cups
@[simp] theorem Dev.count_pwr (u i n : Nat) : (d.count u i n).pwr = d.pwr := (Dev.reports_count d u i n).pwr
@[simp] theorem Dev.count_sense (u i n : Nat) : (d.count u i n).sense = d.sense := (Dev.reports_count d u i n).sense
@[simp] theorem Dev.count_saf (u i n : Nat) : (d.count u i n).saf = d.saf := (Dev.reports_count d u i n).saf
@[simp] theorem Dev.count_flash (u i n : Nat) : (d.count u i n).flash = d.flash := (Dev.reports_count d u i n).flash
@[simp] theorem Dev.count_conf (u i n : Nat) : (d.count u i n).conf = d.conf := (Dev.reports_count d u i n).conf
@[simp] theorem Dev.count_trust (u i n : Nat) : (d.count u i n).trust = d.trust := (Dev.reports_count d u i n).trust
@[simp] theorem Dev.count_mod (u i n : Nat) : (d.count u i n).mod = d.mod := (Dev.reports_count d u i n).mod
@[simp] theorem Dev.count_regs (u i n : Nat) : (d.count u i n).regs = d.regs := (Dev.reports_count d u i n).regs
@[simp] theorem Dev.count_mem (u i n : Nat) : (d.count u i n).mem = d.mem := (Dev.reports_count d u i n).mem
@[simp] theorem Dev.count_potBad (u i n : Nat) : (d.count u i n).potBad = d.potBad := (Dev.reports_count d u i n).potBad
@[simp] theorem Dev.count_free (u i n : Nat) : (d.count u i n).free = d.free := (Dev.reports_count d u i n).free
@[simp] theorem Dev.raise_ao (e : EvRec) (r : Nat) : (d.raise e r).ao = d.ao := (Dev.reports_raise d e r).ao
@[simp] theorem Dev.raise_qps (e : EvRec) (r : Nat) : (d.raise e r).qps = d.qps := (Dev.reports_raise d e r).qps
@[simp] theorem Dev.raise_parts (e : EvRec) (r : Nat) : (d.raise e r).parts = d.parts := (Dev.reports_raise d e r).parts
@[simp] theorem Dev.raise_ctxs (e : EvRec) (r : Nat) : (d.raise e r).ctxs = d.ctxs := (Dev.reports_raise d e r).ctxs
@[simp] theorem Dev.raise_regions (e : EvRec) (r : Nat) : (d.raise e r).regions = d.regions := (Dev.reports_raise d e r).regions
@[simp] theorem Dev.raise_runs (e : EvRec) (r : Nat) : (d.raise e r).runs = d.runs := (Dev.reports_raise d e r).runs
@[simp] theorem Dev.raise_nextRun (e : EvRec) (r : Nat) : (d.raise e r).nextRun = d.nextRun := (Dev.reports_raise d e r).nextRun
@[simp] theorem Dev.raise_cores (e : EvRec) (r : Nat) : (d.raise e r).cores = d.cores := (Dev.reports_raise d e r).cores
@[simp] theorem Dev.raise_skillets (e : EvRec) (r : Nat) : (d.raise e r).skillets = d.skillets := (Dev.reports_raise d e r).skillets
@[simp] theorem Dev.raise_dram (e : EvRec) (r : Nat) : (d.raise e r).dram = d.dram := (Dev.reports_raise d e r).dram
@[simp] theorem Dev.raise_dmas (e : EvRec) (r : Nat) : (d.raise e r).dmas = d.dmas := (Dev.reports_raise d e r).dmas
@[simp] theorem Dev.raise_crock (e : EvRec) (r : Nat) : (d.raise e r).crock = d.crock := (Dev.reports_raise d e r).crock
@[simp] theorem Dev.raise_fab (e : EvRec) (r : Nat) : (d.raise e r).fab = d.fab := (Dev.reports_raise d e r).fab
@[simp] theorem Dev.raise_cups (e : EvRec) (r : Nat) : (d.raise e r).cups = d.cups := (Dev.reports_raise d e r).cups
@[simp] theorem Dev.raise_pwr (e : EvRec) (r : Nat) : (d.raise e r).pwr = d.pwr := (Dev.reports_raise d e r).pwr
@[simp] theorem Dev.raise_sense (e : EvRec) (r : Nat) : (d.raise e r).sense = d.sense := (Dev.reports_raise d e r).sense
@[simp] theorem Dev.raise_saf (e : EvRec) (r : Nat) : (d.raise e r).saf = d.saf := (Dev.reports_raise d e r).saf
@[simp] theorem Dev.raise_flash (e : EvRec) (r : Nat) : (d.raise e r).flash = d.flash := (Dev.reports_raise d e r).flash
@[simp] theorem Dev.raise_conf (e : EvRec) (r : Nat) : (d.raise e r).conf = d.conf := (Dev.reports_raise d e r).conf
@[simp] theorem Dev.raise_trust (e : EvRec) (r : Nat) : (d.raise e r).trust = d.trust := (Dev.reports_raise d e r).trust
@[simp] theorem Dev.raise_mod (e : EvRec) (r : Nat) : (d.raise e r).mod = d.mod := (Dev.reports_raise d e r).mod
@[simp] theorem Dev.raise_regs (e : EvRec) (r : Nat) : (d.raise e r).regs = d.regs := (Dev.reports_raise d e r).regs
@[simp] theorem Dev.raise_mem (e : EvRec) (r : Nat) : (d.raise e r).mem = d.mem := (Dev.reports_raise d e r).mem
@[simp] theorem Dev.raise_potBad (e : EvRec) (r : Nat) : (d.raise e r).potBad = d.potBad := (Dev.reports_raise d e r).potBad
@[simp] theorem Dev.raise_free (e : EvRec) (r : Nat) : (d.raise e r).free = d.free := (Dev.reports_raise d e r).free
end

end Sys2Proof.Machine
end

