-- ==== Sys2Proof/Laws/Queues.lean ====
section
/-!
SUPPORT. What the operations on interrupt lines and queue pairs do: a line driven has its level, a change of the controller
keeps every source, posting an entry, and the error state.
-/

namespace Sys2Proof.Machine

theorem IntCtl.commit_srcs (old new : IntCtl) : (old.commit new).1.srcs = new.srcs := by
  unfold IntCtl.commit
  have : ∀ (l : List Nat) (acc : IntCtl × List Nat), (l.foldl (fun (acc : IntCtl × List Nat) v =>
      let r := old.edge acc.1 v
      (r.1, if r.2 then acc.2 ++ [v] else acc.2)) acc).1.srcs = acc.1.srcs := by
    intro l
    induction l with
    | nil => intro acc; rfl
    | cons v l ih =>
      intro acc
      rw [List.foldl_cons, ih]
      simp only [IntCtl.edge]
      split
      · split <;> rfl
      · split <;> rfl
  exact this _ _

theorem Dev.int_withInt (d : Dev) (f : Nat) (g : IntCtl → IntCtl) : ((d.withInt f g).fn f).int = ((d.fn f).int.commit (g (d.fn f).int)).1 := by
  simp [Dev.withInt, Dev.fn, Dev.modFn, Dev.putFn, Dev.setOut, Dev.setFns]

theorem IntCtl.src_setSrc (c : IntCtl) (n : Nat) (x : IntSrc) (h : srcValid n = true) : (c.setSrc n x).src n = x.settle := by
  simp [IntCtl.setSrc, h, IntCtl.src]

theorem IntCtl.src_commit (old new : IntCtl) (n : Nat) : (old.commit new).1.src n = new.src n := by
  simp [IntCtl.src, IntCtl.commit_srcs]

theorem IntSrc.settle_line (x : IntSrc) : x.settle.line = x.line := by unfold IntSrc.settle; split <;> rfl

theorem Dev.line_setLine (d : Dev) (f n : Nat) (hi : Bool) (h : srcValid n = true) :
    (((d.setLine f n hi).fn f).int.src n).line = hi := by
  rw [Dev.setLine, Dev.int_withInt, IntCtl.src_commit]
  unfold IntCtl.setLine
  dsimp only
  split
  · rename_i h1; simpa using h1
  · rw [IntCtl.src_setSrc _ _ _ h, IntSrc.settle_line]

theorem srcValid_pair {q : Nat} (h : q < 128) : srcValid (q + 1) = true := by
  simp [srcValid]; omega

theorem Dev.onlyPair_putQp (d : Dev) (f q : Nat) (x : Qp) : d.OnlyPair (d.putQp f q x) f q := by
  refine ⟨⟨kset d.qps (qpKey f q) x, d.fns, d.jds, d.cnt, d.ovf, [], ?_⟩, ?_⟩
  · simp [Dev.putQp, Dev.setQps]
  · intro k hk; simp [Dev.putQp, kfind_kset_ne hk]

theorem Dev.onlyPair_refl (d : Dev) (f q : Nat) : d.OnlyPair d f q :=
  ⟨⟨d.qps, d.fns, d.jds, d.cnt, d.ovf, [], by simp⟩, fun _ _ => rfl⟩

theorem Dev.onlyPair_told {d d' d'' : Dev} {f q : Nat} (h : d.OnlyPair d' f q) (k : d'.Reports d'') : d.OnlyPair d'' f q := by
  obtain ⟨⟨m, a, b, c, e, l, h1⟩, h2⟩ := h
  have hq := k.qps
  obtain ⟨⟨a', b', c', e', l', h3⟩, _⟩ := k
  refine ⟨⟨m, a', b', c', e', l ++ l', ?_⟩, ?_⟩
  · rw [h3, h1]; simp
  · intro k hk; rw [hq]; exact h2 k hk

theorem Dev.qpError_qp (d : Dev) (f q c : Nat) (x : Qp) (h : d.qp f q = some x) (he : x.err = false) :
    (d.qpError f q c).qp f q = some { x with err := true } := by
  simp only [Dev.qpError, h, he]
  simp only [Bool.false_eq_true, if_false]
  have : ∀ (d : Dev) e r, (d.raise e r).qp f q = d.qp f q := by intro d e r; simp [Dev.qp]
  rw [this]
  split <;> simp

/-- What posting an entry on a pair does (R345, R348). -/
theorem Dev.post_facts (d : Dev) (f q : Nat) (r0 tag st r1 det fl : Nat) (noInt : Bool) (x : Qp) (hq : d.qp f q = some x)
    (he : x.err = false) (hd : x.discard = false) (hs : d.saf.safeStop = false) :
    (d.post f q r0 tag st r1 det fl noInt).qp f q = some { x with
        cqTail := (x.cqTail + 1) % x.cqSize, phase := if (x.cqTail + 1) % x.cqSize = 0 then !x.phase else x.phase } ∧
      (∃ l, (d.post f q r0 tag st r1 det fl noInt).out = d.out ++ (.hostWrite (x.cqBase + 32 * x.cqTail)
        (entryBytes r0 tag st x.sqHead (d.stamp (x.num % 2)) r1 det (fl + 32768 * b2n x.phase))) :: l) ∧
      (noInt = false → q < 128 → (((d.post f q r0 tag st r1 det fl noInt).fn f).int.src (q + 1)).line = true) ∧
      d.OnlyPair (d.post f q r0 tag st r1 det fl noInt) f q := by
  have hemit : ∀ (d : Dev) o, d.Reports (d.emitOut o) := fun d o => Dev.reports_emit d [o]
  have hc : (x.err || x.discard) = false := by simp [he, hd]
  simp only [Dev.post, hq, hc, hs, Bool.false_eq_true, if_false]
  clear he hd hc
  cases noInt
  · simp only [Bool.false_eq_true, if_false]
    refine ⟨by simp, ?_, fun _ h => Dev.line_setLine _ _ _ _ (srcValid_pair h), ?_⟩
    · obtain ⟨l, hl⟩ := (Dev.reports_setLine ((d.putQp f q { x with cqTail := (x.cqTail + 1) % x.cqSize, phase := if (x.cqTail + 1) % x.cqSize = 0 then !x.phase else x.phase }).emitOut
        (.hostWrite (x.cqBase + 32 * x.cqTail) (entryBytes r0 tag st x.sqHead (d.stamp (x.num % 2)) r1 det (fl + 32768 * b2n x.phase)))) f (q + 1) true).out
      refine ⟨l, ?_⟩
      rw [hl]
      simp [Dev.emitOut, Dev.putQp]
    · exact Dev.onlyPair_told (Dev.onlyPair_told (Dev.onlyPair_putQp _ _ _ _) (hemit _ _)) (Dev.reports_setLine _ _ _ _)
  · simp only [if_true]
    refine ⟨by simp, ⟨[], by simp [Dev.emitOut, Dev.putQp]⟩, fun h => by simp at h, ?_⟩
    exact Dev.onlyPair_told (Dev.onlyPair_putQp _ _ _ _) (hemit _ _)


/-! Commands. -/

theorem Dev.ready_cmd {d : Dev} {r : CmdRef} {op : Nat} {c : Cmd} (h : d.Ready r op c) : d.cmd r = some c :=
  (Dev.startable_some h.1).1

theorem Dev.finish_ended (d : Dev) {r : CmdRef} {c : Cmd} (h : d.cmd r = some c) (hm : c.marks = {}) (st r0 r1 det : Nat)
    (dies : List Nat) (hp : st = stPoisoned → det = 0) :
    (d.finish r st r0 r1 det dies).Ended r st r0 r1 det := by
  refine ⟨_, Dev.cmd_finish d h st r0 r1 det dies, ?_⟩
  rw [hm]
  simp only [Marks.final_clear, if_true, true_and]
  by_cases h1 : st = stPoisoned
  · simp [h1, hp h1]
  · simp [h1]

theorem Dev.onlyPair_modQp (d : Dev) (f q : Nat) (g : Qp → Qp) : d.OnlyPair (d.modQp f q g) f q := by
  unfold Dev.modQp
  split
  · exact Dev.onlyPair_putQp _ _ _ _
  · exact Dev.onlyPair_refl _ _ _

theorem Dev.onlyPair_finish (d : Dev) (r : CmdRef) (st r0 r1 det : Nat) (dies : List Nat) :
    d.OnlyPair (d.finish r st r0 r1 det dies) r.f r.q := Dev.onlyPair_modQp _ _ _ _

theorem Dev.admin_q {d : Dev} {r : CmdRef} {c : Cmd} (h : d.rejectStatus r c = none) (ho : c.op < 0x10) : r.q = 0 := by
  by_cases hq : r.q = 0
  · exact hq
  · simp only [Dev.rejectStatus, hq, if_false] at h
    have : opIo.contains c.op = false := by
      simp only [opIo]
      have : c.op ≠ 0x20 ∧ c.op ≠ 0x21 ∧ c.op ≠ 0x22 ∧ c.op ≠ 0x23 ∧ c.op ≠ 0x24 ∧ c.op ≠ 0x25 ∧ c.op ≠ 0x26 ∧ c.op ≠ 0x27 ∧ c.op ≠ 0x28 ∧ c.op ≠ 0x29 ∧ c.op ≠ 0x2A ∧ c.op ≠ 0x2B ∧ c.op ≠ 0x2C ∧ c.op ≠ 0x30 ∧ c.op ≠ 0x31 := by omega
      simp [this]
    rw [this] at h
    simp at h

theorem Dev.qp_finish_ne (d : Dev) (r : CmdRef) (f q st r0 r1 det : Nat) (dies : List Nat) (h : qpKey f q ≠ qpKey r.f r.q) :
    (d.finish r st r0 r1 det dies).qp f q = d.qp f q := by
  unfold Dev.finish Dev.modCmd Dev.modQp
  split
  · exact Dev.qp_putQp_ne d h _
  · rfl

theorem qpKey_ne {r : CmdRef} {q : Nat} (h0 : r.q = 0) (h1 : 1 ≤ q) (h2 : q ≤ 127) : qpKey r.f q ≠ qpKey r.f r.q := by
  rw [h0]; unfold qpKey; omega

end Sys2Proof.Machine
end

