-- ==== Sys2Proof/Laws/Interrupt.lean ====
section
/-!
SUPPORT. What the operations of the interrupt controller do: settings of one source, the messages of a change, the best
source of a vector; and the changes that touch one function's view alone.
-/

namespace Sys2Proof.Machine

theorem IntSrc.settle_same (x : IntSrc) : x.settle.vec = x.vec ∧ x.settle.en = x.en ∧ x.settle.prio = x.prio ∧ x.settle.prioNew = x.prioNew
    ∧ x.settle.sense = x.sense ∧ x.settle.insv = x.insv ∧ x.settle.line = x.line := by
  unfold IntSrc.settle; split <;> simp

theorem IntSrc.settle_pend (x : IntSrc) : x.settle.pend = if x.sense = 0 then x.en && x.line && !x.insv else x.pend := by
  unfold IntSrc.settle; split <;> simp_all

theorem IntCtl.src_setSrc_ne (c : IntCtl) {n m : Nat} (h : m ≠ n) (x : IntSrc) : (c.setSrc n x).src m = c.src m := by
  unfold IntCtl.setSrc IntCtl.src
  split
  · simp [kget_kset_ne h]
  · rfl

theorem Dev.src_withInt (d : Dev) (f : Nat) (g : IntCtl → IntCtl) (n : Nat) :
    ((d.withInt f g).fn f).int.src n = (g (d.fn f).int).src n := by
  rw [Dev.int_withInt, IntCtl.src_commit]

theorem Dev.foldl_enable (d : Dev) (f w mask n b : Nat) (hn : n = 32 * w + b) (hv : srcValid n = true) :
    ∀ (l : List Nat), l.Nodup → ∀ d' : Dev, 
    ((l.foldl (fun d b =>
      let n := 32 * w + b
      if srcValid n && ((d.fn f).int.src n).en != bit mask b then d.withInt f (fun c => c.setEnable n (bit mask b)) else d) d').fn f).int.src n
     = if b ∈ l then (if ((d'.fn f).int.src n).en != bit mask b then ((d'.fn f).int.setEnable n (bit mask b)).src n else (d'.fn f).int.src n) else (d'.fn f).int.src n := by
  intro l
  induction l with
  | nil => intro _ d'; simp
  | cons a l ih =>
    intro hnd d'
    rw [List.nodup_cons] at hnd
    rw [List.foldl_cons, ih hnd.2]
    by_cases hab : a = b
    · subst hab
      simp only [hnd.1, if_false, List.mem_cons, true_or, if_true, ← hn, hv, Bool.true_and]
      split
      · rw [Dev.src_withInt]
      · rfl
    · have hne : n ≠ 32 * w + a := by omega
      have hsame : ((if srcValid (32 * w + a) && ((d'.fn f).int.src (32 * w + a)).en != bit mask a then
          d'.withInt f (fun c => c.setEnable (32 * w + a) (bit mask a)) else d').fn f).int.src n = (d'.fn f).int.src n := by
        split
        · rw [Dev.src_withInt]; exact IntCtl.src_setSrc_ne _ hne _
        · rfl
      have hen : ∀ (D : Dev), (D.fn f).int.src n = (d'.fn f).int.src n → ∀ e : Bool,
          ((D.fn f).int.setEnable n e).src n = ((d'.fn f).int.setEnable n e).src n := by
        intro D h e
        simp only [IntCtl.setEnable, IntCtl.src_setSrc _ _ _ hv, h]
      simp only [hsame, List.mem_cons]
      have hba : ¬ b = a := fun h => hab h.symm
      simp only [hba, false_or]
      by_cases hbl : b ∈ l
      · simp only [hbl, if_true]
        split
        · exact hen _ hsame _
        · rfl
      · simp [hbl]

theorem IntCtl.commit_keeps (old new : IntCtl) : (old.commit new).1.thr = new.thr ∧ (old.commit new).1.thrNew = new.thrNew := by
  unfold IntCtl.commit
  have : ∀ (l : List Nat) (acc : IntCtl × List Nat), (l.foldl (fun (acc : IntCtl × List Nat) v =>
      let r := old.edge acc.1 v
      (r.1, if r.2 then acc.2 ++ [v] else acc.2)) acc).1.thr = acc.1.thr ∧ (l.foldl (fun (acc : IntCtl × List Nat) v =>
      let r := old.edge acc.1 v
      (r.1, if r.2 then acc.2 ++ [v] else acc.2)) acc).1.thrNew = acc.1.thrNew := by
    intro l
    induction l with
    | nil => intro acc; exact ⟨rfl, rfl⟩
    | cons v l ih =>
      intro acc
      rw [List.foldl_cons, (ih _).1, (ih _).2]
      simp only [IntCtl.edge]
      split
      · split <;> exact ⟨rfl, rfl⟩
      · split <;> exact ⟨rfl, rfl⟩
  exact this _ _

theorem IntCtl.commit_vec (old new : IntCtl) (v : Nat) (hv : old.hot v = true ∨ new.hot v = false) :
    ((old.commit new).1.vecOf v).sent = (new.vecOf v).sent ∧ ((old.commit new).1.vecOf v).mask = (new.vecOf v).mask := by
  unfold IntCtl.commit
  have : ∀ (l : List Nat) (acc : IntCtl × List Nat), (acc.1.hot v = new.hot v) → ((l.foldl (fun (acc : IntCtl × List Nat) v =>
      let r := old.edge acc.1 v
      (r.1, if r.2 then acc.2 ++ [v] else acc.2)) acc).1.vecOf v).sent = (acc.1.vecOf v).sent ∧ ((l.foldl (fun (acc : IntCtl × List Nat) v =>
      let r := old.edge acc.1 v
      (r.1, if r.2 then acc.2 ++ [v] else acc.2)) acc).1.vecOf v).mask = (acc.1.vecOf v).mask := by
    intro l
    induction l with
    | nil => intro acc _; exact ⟨rfl, rfl⟩
    | cons u l ih =>
      intro acc ha
      rw [List.foldl_cons]
      have hk := ih ((fun (acc : IntCtl × List Nat) v =>
        let r := old.edge acc.1 v
        (r.1, if r.2 then acc.2 ++ [v] else acc.2)) acc u) ?_
      · rw [hk.1, hk.2]
        by_cases huv : u = v
        · subst huv
          simp only [IntCtl.edge]
          have h1 : (!old.hot u && acc.1.hot u) = false := by rw [ha]; rcases hv with h | h <;> simp [h]
          rw [h1]
          simp only [Bool.false_eq_true, if_false]
          split <;> simp [IntCtl.vecOf]
        · have hvu : v ≠ u := fun h => huv h.symm
          simp only [IntCtl.edge]
          split
          · split <;> simp [IntCtl.vecOf, kget_kset_ne hvu]
          · split <;> simp [IntCtl.vecOf, kget_kset_ne hvu]
      · rw [← ha]
        simp only [IntCtl.edge]
        split
        · split <;> rfl
        · split <;> rfl
  exact this _ _ rfl

theorem IntCtl.best_spec (c : IntCtl) (v : Nat) : ∀ (l : KMap IntSrc) (a : Option (Nat × Nat)),
    (l.map (·.1)).Pairwise (· < ·) → (∀ n p, a = some (n, p) → ∀ e ∈ l, n < e.1) →
    match l.foldl (fun (a : Option (Nat × Nat)) e =>
      if e.2.vec == v && c.deliverable e.2 then
        match a with
        | none => some (e.1, e.2.prio)
        | some (n, p) => if p < e.2.prio then some (e.1, e.2.prio) else some (n, p)
      else a) a with
    | none => a = none ∧ ∀ e ∈ l, ¬ (e.2.vec = v ∧ c.deliverable e.2 = true)
    | some (n, p) => (a = some (n, p) ∨ ∃ x, (n, x) ∈ l ∧ x.vec = v ∧ c.deliverable x = true ∧ x.prio = p) ∧
        (∀ m q, a = some (m, q) → q < p ∨ q = p ∧ n ≤ m) ∧
        ∀ e ∈ l, e.2.vec = v → c.deliverable e.2 = true → e.2.prio < p ∨ e.2.prio = p ∧ n ≤ e.1 := by
  intro l
  induction l with
  | nil =>
    intro a _ _
    cases a with
    | none => simp
    | some z =>
      simp only [List.foldl_nil]
      refine ⟨by simp, ?_, by simp⟩
      intro m q h; cases h; right; exact ⟨rfl, Nat.le_refl _⟩
  | cons e l ih =>
    intro a hs hlt
    rw [List.map_cons, List.pairwise_cons] at hs
    rw [List.foldl_cons]
    by_cases hm : (e.2.vec == v && c.deliverable e.2) = true
    · simp only [hm, if_true]
      have hm' : e.2.vec = v ∧ c.deliverable e.2 = true := by simpa using hm
      cases a with
      | none =>
        have := ih (some (e.1, e.2.prio)) hs.2 (by intro n p h w hw; cases h; exact hs.1 _ (List.mem_map_of_mem hw))
        revert this
        generalize List.foldl _ (some (e.1, e.2.prio)) l = res
        cases res with
        | none => rintro ⟨h, _⟩; cases h
        | some z =>
          obtain ⟨n, p⟩ := z
          rintro ⟨h1, h2, h3⟩
          refine ⟨?_, by simp, ?_⟩
          · right
            rcases h1 with h1 | ⟨x, hx, h⟩
            · cases h1; exact ⟨e.2, by simp, hm'.1, hm'.2, rfl⟩
            · exact ⟨x, by simp [hx], h⟩
          · intro w hw h4 h5
            rcases List.mem_cons.1 hw with rfl | hw
            · exact h2 _ _ rfl
            · exact h3 w hw h4 h5
      | some z =>
        obtain ⟨m, q⟩ := z
        simp only
        by_cases hq : q < e.2.prio
        · simp only [hq, if_true]
          have := ih (some (e.1, e.2.prio)) hs.2 (by intro n p h w hw; cases h; exact hs.1 _ (List.mem_map_of_mem hw))
          revert this
          generalize List.foldl _ (some (e.1, e.2.prio)) l = res
          cases res with
          | none => rintro ⟨h, _⟩; cases h
          | some z =>
            obtain ⟨n, p⟩ := z
            rintro ⟨h1, h2, h3⟩
            refine ⟨?_, ?_, ?_⟩
            · right
              rcases h1 with h1 | ⟨x, hx, h⟩
              · cases h1; exact ⟨e.2, by simp, hm'.1, hm'.2, rfl⟩
              · exact ⟨x, by simp [hx], h⟩
            · intro m' q' h; cases h
              rcases h2 _ _ rfl with h | h <;> left <;> omega
            · intro w hw h4 h5
              rcases List.mem_cons.1 hw with rfl | hw
              · exact h2 _ _ rfl
              · exact h3 w hw h4 h5
        · simp only [hq, if_false]
          have hme : m < e.1 := hlt m q rfl e (by simp)
          have := ih (some (m, q)) hs.2 (by intro n p h w hw; cases h; exact hlt m q rfl w (by simp [hw]))
          revert this
          generalize List.foldl _ (some (m, q)) l = res
          cases res with
          | none => rintro ⟨h, _⟩; cases h
          | some z =>
            obtain ⟨n, p⟩ := z
            rintro ⟨h1, h2, h3⟩
            refine ⟨?_, h2, ?_⟩
            · rcases h1 with h1 | ⟨x, hx, h⟩
              · left; exact h1
              · right; exact ⟨x, by simp [hx], h⟩
            · intro w hw h4 h5
              rcases List.mem_cons.1 hw with rfl | hw
              · rcases h2 _ _ rfl with h | h
                · left; omega
                · by_cases h6 : w.2.prio = q
                  · right; omega
                  · left; omega
              · exact h3 w hw h4 h5
    · simp only [hm]
      have := ih a hs.2 (by intro n p h w hw; exact hlt n p h w (by simp [hw]))
      revert this
      simp only [Bool.false_eq_true, if_false]
      generalize List.foldl _ a l = res
      cases res with
      | none =>
        rintro ⟨h1, h2⟩
        refine ⟨h1, ?_⟩
        intro w hw
        rcases List.mem_cons.1 hw with rfl | hw
        · simpa using hm
        · exact h2 w hw
      | some z =>
        obtain ⟨n, p⟩ := z
        rintro ⟨h1, h2, h3⟩
        refine ⟨?_, h2, ?_⟩
        · rcases h1 with h1 | ⟨x, hx, h⟩
          · left; exact h1
          · right; exact ⟨x, by simp [hx], h⟩
        · intro w hw h4 h5
          rcases List.mem_cons.1 hw with rfl | hw
          · simp [h4, h5] at hm
          · exact h3 w hw h4 h5

theorem kfind_mem {α : Type} : ∀ (m : KMap α) (n : Nat) (x : α), (m.map (·.1)).Pairwise (· < ·) → (n, x) ∈ m → kfind m n = some x
  | [], _, _, _, h => by cases h
  | (j, y) :: m, n, x, hs, h => by
    rw [List.map_cons, List.pairwise_cons] at hs
    rcases List.mem_cons.1 h with h | h
    · cases h; simp [kfind]
    · have hj : j < n := hs.1 _ (List.mem_map_of_mem h)
      have : j ≠ n := by omega
      simp only [kfind, this, if_false]
      exact kfind_mem m n x hs.2 h

theorem Dev.out_withInt (d : Dev) (f : Nat) (g : IntCtl → IntCtl) : ∃ l, (d.withInt f g).out = d.out ++ l := (Dev.reports_withInt d f g).out

theorem mem_kset {α : Type} : ∀ (m : KMap α) (k : Nat) (x : α) (e : Nat × α), e ∈ kset m k x → e = (k, x) ∨ e ∈ m
  | [], k, x, e, h => by simp [kset] at h; exact Or.inl h
  | (j, y) :: m, k, x, e, h => by
    simp only [kset] at h
    split at h
    · rcases List.mem_cons.1 h with h | h
      · exact Or.inl h
      · exact Or.inr h
    · split at h
      · rcases List.mem_cons.1 h with h | h
        · exact Or.inl h
        · exact Or.inr (by simp [h])
      · rcases List.mem_cons.1 h with h | h
        · exact Or.inr (by simp [h])
        · rcases mem_kset m k x e h with h | h
          · exact Or.inl h
          · exact Or.inr (by simp [h])

/-- Only function `f`'s view, and what left the device, may differ. -/
def Dev.ViewOnly (f : Nat) (d d' : Dev) : Prop := (∃ v l, d' = { d with fns := v, out := d.out ++ l }) ∧ ∀ g, g ≠ f → d'.fn g = d.fn g

theorem Dev.ViewOnly.rfl (f : Nat) (d : Dev) : Dev.ViewOnly f d d := ⟨⟨d.fns, [], by simp⟩, fun _ _ => Eq.refl _⟩
theorem Dev.ViewOnly.trans {f : Nat} {a b c : Dev} (h : Dev.ViewOnly f a b) (k : Dev.ViewOnly f b c) : Dev.ViewOnly f a c := by
  obtain ⟨⟨v, l, h1⟩, h2⟩ := h
  obtain ⟨⟨w, m, k1⟩, k2⟩ := k
  refine ⟨⟨w, l ++ m, ?_⟩, ?_⟩
  · rw [k1, h1]; simp
  · intro g hg; rw [k2 g hg, h2 g hg]
theorem Dev.viewOnly_modFn (f : Nat) (d : Dev) (g : FnView → FnView) : Dev.ViewOnly f d (d.modFn f g) :=
  ⟨⟨(d.modFn f g).fns, [], by simp [Dev.modFn, Dev.putFn, Dev.setFns]⟩, fun _ h => Dev.fn_modFn_ne d h g⟩
theorem Dev.viewOnly_out (f : Nat) (d : Dev) (l : List Out) : Dev.ViewOnly f d (d.setOut (d.out ++ l)) := ⟨⟨d.fns, l, Eq.refl _⟩, fun _ _ => Eq.refl _⟩
theorem Dev.viewOnly_withInt (f : Nat) (d : Dev) (g : IntCtl → IntCtl) : Dev.ViewOnly f d (d.withInt f g) := by
  unfold Dev.withInt
  exact (Dev.viewOnly_modFn f d _).trans (Dev.viewOnly_out f _ _)
theorem Dev.viewOnly_foldl {α : Type} (f : Nat) (g : Dev → α → Dev) (h : ∀ d a, Dev.ViewOnly f d (g d a)) : ∀ (l : List α) (d : Dev), Dev.ViewOnly f d (l.foldl g d)
  | [], d => .rfl f d
  | a :: l, d => (h d a).trans (Dev.viewOnly_foldl f g h l _)
theorem Dev.viewOnly_onFn (f : Nat) (s : State) (g : Dev → Dev) (h : Dev.ViewOnly f s.dev (g s.dev)) : Dev.ViewOnly f s.dev (s.onFn f g).dev := by
  simp only [State.onFn, State.onDev_dev]; split
  · exact h
  · exact .rfl f _

end Sys2Proof.Machine
end

