-- ==== Sys2Proof/Laws/Mem.lean ====
section
/-!
SUPPORT. The laws of the byte memory: every operation keeps the canonical form, a byte written reads back, and every other
byte reads as before.
-/

namespace Sys2Proof.Machine

@[simp] theorem Memory.wf_nil : Memory.wf [] = true := rfl

theorem mabove_mono {a b : Nat} (h : a ≤ b) : ∀ {m : Mem}, mabove b m = true → mabove a m = true
  | [], _ => rfl
  | _ :: _, hb => by simp only [mabove, decide_eq_true_eq] at *; omega

theorem mget_below {a : Nat} : ∀ {m : Mem}, Memory.wf m = true → mabove a m = true → mget m a = memDefault
  | [], _, _ => rfl
  | (k, b) :: m, hw, ha => by
    simp only [Memory.wf, Bool.and_eq_true, mabove, decide_eq_true_eq] at hw ha
    have : a ≠ k := by omega
    simp only [mget, this, if_false]
    exact mget_below hw.2 (mabove_mono (Nat.le_of_lt ha) hw.1.2)

theorem mset_above {c a : Nat} {b : Byte} (h : c < a) :
    ∀ {m : Mem}, mabove c m = true → Memory.wf m = true → mabove c (mset m a b) = true
  | [], _, _ => by simp only [mset]; split <;> simp [mabove, h]
  | (k, e) :: m, hc, hw => by
    simp only [mabove, decide_eq_true_eq] at hc
    simp only [Memory.wf, Bool.and_eq_true] at hw
    simp only [mset]
    split
    · split <;> simp [mabove, h, hc]
    · split
      · split
        · exact mabove_mono (Nat.le_of_lt hc) hw.1.2
        · simp [mabove, h]
      · simp [mabove, hc]

/-- Storing a byte keeps the canonical form. -/
theorem mset_wf (a : Nat) (b : Byte) : ∀ (m : Mem), Memory.wf m = true → Memory.wf (mset m a b) = true
  | [], _ => by simp only [mset]; split <;> simp_all [Memory.wf, mabove]
  | (k, e) :: m, hw => by
    have hw' := hw
    simp only [Memory.wf, Bool.and_eq_true] at hw
    simp only [mset]
    split
    · rename_i hk
      split
      · exact hw'
      · rename_i hb
        have h0 : Memory.wf ((a, b) :: (k, e) :: m) = ((b != memDefault) && decide (a < k) && Memory.wf ((k, e) :: m)) := rfl
        rw [h0, hw']
        simp [hk, hb]
    · split
      · rename_i hk
        split
        · exact hw.2
        · rename_i hb
          subst hk
          simp [Memory.wf, hb, hw.1.2, hw.2]
      · simp only [Memory.wf, Bool.and_eq_true]
        exact ⟨⟨hw.1.1, mset_above (by omega) hw.1.2 hw.2⟩, mset_wf a b m hw.2⟩

/-- A byte reads back as stored. -/
theorem mget_mset_self (a : Nat) (b : Byte) : ∀ (m : Mem), Memory.wf m = true → mget (mset m a b) a = b
  | [], _ => by simp only [mset]; split <;> simp_all [mget]
  | (k, e) :: m, hw => by
    have hw' := hw
    simp only [Memory.wf, Bool.and_eq_true] at hw
    simp only [mset]
    split
    · rename_i hk
      split
      · rename_i hb
        rw [hb]
        exact mget_below hw' (by simp [mabove, hk])
      · simp [mget]
    · split
      · rename_i hk
        split
        · rename_i hb
          rw [hb, hk]
          exact mget_below hw.2 hw.1.2
        · simp [mget]
      · rename_i h1 h2
        simp only [mget, h2, if_false]
        exact mget_mset_self a b m hw.2

/-- Storing a byte leaves every other byte. -/
theorem mget_mset_ne {a x : Nat} (h : x ≠ a) (b : Byte) : ∀ (m : Mem), mget (mset m a b) x = mget m x
  | [] => by simp only [mset]; split <;> simp [mget, h]
  | (k, e) :: m => by
    simp only [mset]
    split
    · split <;> simp [mget, h]
    · split
      · rename_i hk
        split <;> simp [mget, ← hk, h]
      · simp only [mget]
        split
        · rfl
        · exact mget_mset_ne h b m

/-- Storing bytes keeps the canonical form. -/
theorem mwrite_wf : ∀ (bs : Bytes) (m : Mem) (a : Nat), Memory.wf m = true → Memory.wf (mwrite m a bs) = true
  | [], _, _, h => h
  | b :: bs, m, a, h => mwrite_wf bs (mset m a b) (a + 1) (mset_wf a b m h)

/-- Storing bytes leaves every byte outside them. -/
theorem mget_mwrite_out : ∀ (bs : Bytes) (m : Mem) (a x : Nat), x < a ∨ a + bs.length ≤ x →
    mget (mwrite m a bs) x = mget m x
  | [], _, _, _, _ => rfl
  | b :: bs, m, a, x, h => by
    simp only [List.length_cons] at h
    rw [mwrite, mget_mwrite_out bs (mset m a b) (a + 1) x (by omega), mget_mset_ne (by omega)]

/-- Stored bytes read back. -/
theorem mget_mwrite_in : ∀ (bs : Bytes) (m : Mem) (a i : Nat), Memory.wf m = true → i < bs.length →
    mget (mwrite m a bs) (a + i) = bs.getD i 0
  | [], _, _, _, _, h => by simp at h
  | b :: bs, m, a, i, hw, h => by
    rw [mwrite]
    cases i with
    | zero =>
      rw [mget_mwrite_out bs (mset m a b) (a + 1) (a + 0) (by omega)]
      simpa using mget_mset_self a b m hw
    | succ i =>
      have := mget_mwrite_in bs (mset m a b) (a + 1) i (mset_wf a b m hw) (by simpa using h)
      simpa [Nat.add_assoc, Nat.add_comm 1 i] using this

theorem mabove_filter (p : Host.Cell → Bool) (a : Nat) : ∀ {m : Mem}, Memory.wf m = true → mabove a m = true →
    mabove a (m.filter p) = true
  | [], _, _ => rfl
  | (k, b) :: m, hw, ha => by
    simp only [Memory.wf, Bool.and_eq_true] at hw
    simp only [mabove, decide_eq_true_eq] at ha
    simp only [List.filter_cons]
    split
    · simp [mabove, ha]
    · exact mabove_filter p a hw.2 (mabove_mono (Nat.le_of_lt ha) hw.1.2)

theorem filter_wf (p : Host.Cell → Bool) : ∀ {m : Mem}, Memory.wf m = true → Memory.wf (m.filter p) = true
  | [], _ => rfl
  | (k, b) :: m, hw => by
    simp only [Memory.wf, Bool.and_eq_true] at hw
    simp only [List.filter_cons]
    split
    · simp only [Memory.wf, Bool.and_eq_true]
      exact ⟨⟨hw.1.1, mabove_filter p k hw.2 hw.1.2⟩, filter_wf p hw.2⟩
    · exact filter_wf p hw.2

/-- Fill mode keeps the canonical form. -/
theorem mclear_wf (m : Mem) (lo hi : Nat) (h : Memory.wf m = true) : Memory.wf (mclear m lo hi) = true := filter_wf _ h

/-- Fill mode leaves every byte outside the range. -/
theorem mget_mclear_out (lo hi x : Nat) (h : x < lo ∨ hi ≤ x) : ∀ (m : Mem), mget (mclear m lo hi) x = mget m x
  | [] => rfl
  | (k, b) :: m => by
    have ih := mget_mclear_out lo hi x h m
    simp only [mclear, List.filter_cons] at *
    split
    · simp only [mget, ih]
    · rename_i hk
      simp only [Bool.or_eq_true, decide_eq_true_eq, not_or] at hk
      have : x ≠ k := by omega
      simp only [mget, this, if_false, ih]

/-- Fill mode sets every byte of the range to the fill. -/
theorem mget_mclear_in (lo hi x : Nat) (h1 : lo ≤ x) (h2 : x < hi) : ∀ (m : Mem), mget (mclear m lo hi) x = memDefault
  | [] => rfl
  | (k, b) :: m => by
    have ih := mget_mclear_in lo hi x h1 h2 m
    simp only [mclear, List.filter_cons] at *
    split
    · rename_i hk
      simp only [Bool.or_eq_true, decide_eq_true_eq] at hk
      have : x ≠ k := by omega
      simp only [mget, this, if_false, ih]
    · exact ih

@[simp] theorem mread_length (m : Mem) (a n : Nat) : (mread m a n).length = n := by simp [mread]

/-- Reading the bytes just stored. -/
theorem mread_mwrite (m : Mem) (a : Nat) (bs : Bytes) (h : Memory.wf m = true) : mread (mwrite m a bs) a bs.length = bs := by
  apply List.ext_getElem
  · simp
  · intro i h1 h2
    have := mget_mwrite_in bs m a i h h2
    simp only [mread, List.getElem_map, List.getElem_range, this]
    simp [List.getD, h2]

end Sys2Proof.Machine
end

