-- ==== Sys2Proof/Laws/Access.lean ====
section
/-!
SUPPORT. What an access to memory can do (R274 to R303, R442, R448): it changes the memory, which keeps its canonical form,
the poison of stacks and stockpots, the tiers' marks and pages, the crock's bad and spare frames, the cups, and what reports
change; nothing else.
-/

namespace Sys2Proof.Machine

/-- `d'` is `d` after accesses to memory. -/
structure Dev.Accessed (d d' : Dev) : Prop where
  shape : ∃ fns parts dram jds cups cnt ovf mem pot l fr bad spare due, d' =
    { d with
      fns := fns, parts := parts, dram := dram, jds := jds, cups := cups, cnt := cnt, ovf := ovf, mem := mem,
      potBad := pot, out := d.out ++ l, free := d.free + fr, crock := { d.crock with bad := bad, spare := spare, due := due } }
  view : ∀ f, ∃ i e, d'.fn f = { d.fn f with int := i, evt := e }
  wf : Memory.wf d.mem = true → Memory.wf d'.mem = true
  tier : ∀ p, ∃ t, d'.part p = (d.part p).map (fun x => { x with tier := t })

theorem Dev.Accessed.ao {d d' : Dev} (h : d.Accessed d') : d'.ao = d.ao := by obtain ⟨⟨_, _, _, _, _, _, _, _, _, _, _, _, _, _, e⟩, _, _⟩ := h; rw [e]
theorem Dev.Accessed.qps {d d' : Dev} (h : d.Accessed d') : d'.qps = d.qps := by obtain ⟨⟨_, _, _, _, _, _, _, _, _, _, _, _, _, _, e⟩, _, _⟩ := h; rw [e]
theorem Dev.Accessed.ctxs {d d' : Dev} (h : d.Accessed d') : d'.ctxs = d.ctxs := by obtain ⟨⟨_, _, _, _, _, _, _, _, _, _, _, _, _, _, e⟩, _, _⟩ := h; rw [e]
theorem Dev.Accessed.regions {d d' : Dev} (h : d.Accessed d') : d'.regions = d.regions := by obtain ⟨⟨_, _, _, _, _, _, _, _, _, _, _, _, _, _, e⟩, _, _⟩ := h; rw [e]
theorem Dev.Accessed.runs {d d' : Dev} (h : d.Accessed d') : d'.runs = d.runs := by obtain ⟨⟨_, _, _, _, _, _, _, _, _, _, _, _, _, _, e⟩, _, _⟩ := h; rw [e]
theorem Dev.Accessed.nextRun {d d' : Dev} (h : d.Accessed d') : d'.nextRun = d.nextRun := by obtain ⟨⟨_, _, _, _, _, _, _, _, _, _, _, _, _, _, e⟩, _, _⟩ := h; rw [e]
theorem Dev.Accessed.cores {d d' : Dev} (h : d.Accessed d') : d'.cores = d.cores := by obtain ⟨⟨_, _, _, _, _, _, _, _, _, _, _, _, _, _, e⟩, _, _⟩ := h; rw [e]
theorem Dev.Accessed.skillets {d d' : Dev} (h : d.Accessed d') : d'.skillets = d.skillets := by obtain ⟨⟨_, _, _, _, _, _, _, _, _, _, _, _, _, _, e⟩, _, _⟩ := h; rw [e]
theorem Dev.Accessed.dmas {d d' : Dev} (h : d.Accessed d') : d'.dmas = d.dmas := by obtain ⟨⟨_, _, _, _, _, _, _, _, _, _, _, _, _, _, e⟩, _, _⟩ := h; rw [e]
theorem Dev.Accessed.crock {d d' : Dev} (h : d.Accessed d') : ∃ b s u, d'.crock = { d.crock with bad := b, spare := s, due := u } := by
  obtain ⟨⟨_, _, _, _, _, _, _, _, _, _, _, b, s, u, e⟩, _, _⟩ := h; exact ⟨b, s, u, by rw [e]⟩
theorem Dev.Accessed.cport {d d' : Dev} (h : d.Accessed d') (i : Nat) : d'.cport i = d.cport i := by
  obtain ⟨b, s, u, e⟩ := h.crock; unfold Dev.cport; rw [e]
theorem Dev.Accessed.fab {d d' : Dev} (h : d.Accessed d') : d'.fab = d.fab := by obtain ⟨⟨_, _, _, _, _, _, _, _, _, _, _, _, _, _, e⟩, _, _⟩ := h; rw [e]
theorem Dev.Accessed.pwr {d d' : Dev} (h : d.Accessed d') : d'.pwr = d.pwr := by obtain ⟨⟨_, _, _, _, _, _, _, _, _, _, _, _, _, _, e⟩, _, _⟩ := h; rw [e]
theorem Dev.Accessed.sense {d d' : Dev} (h : d.Accessed d') : d'.sense = d.sense := by obtain ⟨⟨_, _, _, _, _, _, _, _, _, _, _, _, _, _, e⟩, _, _⟩ := h; rw [e]
theorem Dev.Accessed.saf {d d' : Dev} (h : d.Accessed d') : d'.saf = d.saf := by obtain ⟨⟨_, _, _, _, _, _, _, _, _, _, _, _, _, _, e⟩, _, _⟩ := h; rw [e]
theorem Dev.Accessed.flash {d d' : Dev} (h : d.Accessed d') : d'.flash = d.flash := by obtain ⟨⟨_, _, _, _, _, _, _, _, _, _, _, _, _, _, e⟩, _, _⟩ := h; rw [e]
theorem Dev.Accessed.conf {d d' : Dev} (h : d.Accessed d') : d'.conf = d.conf := by obtain ⟨⟨_, _, _, _, _, _, _, _, _, _, _, _, _, _, e⟩, _, _⟩ := h; rw [e]
theorem Dev.Accessed.trust {d d' : Dev} (h : d.Accessed d') : d'.trust = d.trust := by obtain ⟨⟨_, _, _, _, _, _, _, _, _, _, _, _, _, _, e⟩, _, _⟩ := h; rw [e]
theorem Dev.Accessed.mod {d d' : Dev} (h : d.Accessed d') : d'.mod = d.mod := by obtain ⟨⟨_, _, _, _, _, _, _, _, _, _, _, _, _, _, e⟩, _, _⟩ := h; rw [e]
theorem Dev.Accessed.regs {d d' : Dev} (h : d.Accessed d') : d'.regs = d.regs := by obtain ⟨⟨_, _, _, _, _, _, _, _, _, _, _, _, _, _, e⟩, _, _⟩ := h; rw [e]
theorem Dev.Accessed.out {d d' : Dev} (h : d.Accessed d') : ∃ l, d'.out = d.out ++ l := by
  obtain ⟨⟨_, _, _, _, _, _, _, _, _, l, _, _, _, _, e⟩, _, _⟩ := h; exact ⟨l, by rw [e]⟩
theorem Dev.Accessed.free {d d' : Dev} (h : d.Accessed d') : d.free ≤ d'.free := by
  obtain ⟨⟨_, _, _, _, _, _, _, _, _, _, n, _, _, _, e⟩, _, _⟩ := h; rw [e]; exact Nat.le_add_right _ _

theorem Dev.tier_same {d d' : Dev} (h : d'.parts = d.parts) (p : Nat) : ∃ t, d'.part p = (d.part p).map (fun x => { x with tier := t }) := by
  have e : d'.part p = d.part p := by unfold Dev.part; rw [h]
  rw [e]
  cases d.part p with
  | none => exact ⟨{}, rfl⟩
  | some x => exact ⟨x.tier, rfl⟩

theorem Dev.Reports.accessed {d d' : Dev} (h : d.Reports d') : d.Accessed d' := by
  have hm := h.mem
  obtain ⟨⟨a, b, c, e, l, h1⟩, h2⟩ := h
  exact ⟨⟨a, d.parts, d.dram, b, d.cups, c, e, d.mem, d.potBad, l, 0, d.crock.bad, d.crock.spare, d.crock.due, by rw [h1]; rfl⟩, h2, fun w => by rw [hm]; exact w, fun p => Dev.tier_same (by rw [h1]) p⟩

theorem Dev.Accessed.rfl (d : Dev) : d.Accessed d := (Dev.Reports.rfl d).accessed

theorem Dev.Accessed.trans {a b c : Dev} (h : a.Accessed b) (k : b.Accessed c) : a.Accessed c := by
  obtain ⟨⟨f1, p1, r1, j1, u1, c1, o1, m1, t1, l1, n1, _, _, _, e1⟩, v1, w1, s1⟩ := h
  obtain ⟨⟨f2, p2, r2, j2, u2, c2, o2, m2, t2, l2, n2, x2, y2, z2, e2⟩, v2, w2, s2⟩ := k
  refine ⟨⟨f2, p2, r2, j2, u2, c2, o2, m2, t2, l1 ++ l2, n1 + n2, x2, y2, z2, ?_⟩, ?_, fun w => w2 (w1 w), ?_⟩
  · rw [e2, e1]; simp [Nat.add_assoc]
  · intro f
    obtain ⟨i1, x1, y1⟩ := v1 f
    obtain ⟨i2, x2, y2⟩ := v2 f
    exact ⟨i2, x2, by rw [y2, y1]⟩
  · intro p
    obtain ⟨a1, b1⟩ := s1 p
    obtain ⟨a2, b2⟩ := s2 p
    exact ⟨a2, by rw [b2, b1, Option.map_map]; rfl⟩

theorem Dev.Accessed.foldl {α : Type} (g : Dev → α → Dev) (h : ∀ (d : Dev) a, d.Accessed (g d a)) :
    ∀ (l : List α) (d : Dev), d.Accessed (l.foldl g d)
  | [], d => .rfl d
  | a :: l, d => (h d a).trans (Dev.Accessed.foldl g h l (g d a))

/-- A fold that carries something beside the device. -/
theorem Dev.Accessed.foldl_snd {α β : Type} (g : β × Dev → α → β × Dev) (h : ∀ (x : β × Dev) a, x.2.Accessed (g x a).2) :
    ∀ (l : List α) (x : β × Dev), x.2.Accessed (l.foldl g x).2
  | [], x => .rfl x.2
  | a :: l, x => (h x a).trans (Dev.Accessed.foldl_snd g h l (g x a))

theorem Dev.accessed_of {d d' : Dev} (hf : d'.fns = d.fns) (hm : Memory.wf d.mem = true → Memory.wf d'.mem = true)
    (h : ∃ dram cups mem pot fr bad spare due, d' =
      { d with
        dram := dram, cups := cups, mem := mem, potBad := pot, free := d.free + fr,
        crock := { d.crock with bad := bad, spare := spare, due := due } }) : d.Accessed d' := by
  obtain ⟨r, u, m, t, n, b, s, v, e⟩ := h
  refine ⟨⟨d.fns, d.parts, r, d.jds, u, d.cnt, d.ovf, m, t, [], n, b, s, v, by rw [e]; simp⟩, ?_, hm, ?_⟩
  · intro f
    refine ⟨(d.fn f).int, (d.fn f).evt, ?_⟩
    unfold Dev.fn; rw [hf]
  · intro p
    exact Dev.tier_same (by rw [e]) p

/-- A partition's tier map changes. -/
theorem Dev.accessed_tier (d : Dev) {p : Nat} {x : Part} (h : d.part p = some x) (t : Tier) : d.Accessed (d.putPart p { x with tier := t }) := by
  refine ⟨⟨d.fns, (d.putPart p { x with tier := t }).parts, d.dram, d.jds, d.cups, d.cnt, d.ovf, d.mem, d.potBad, [], 0, d.crock.bad, d.crock.spare, d.crock.due, by simp [Dev.putPart, Dev.setParts]⟩,
    fun f => ⟨(d.fn f).int, (d.fn f).evt, rfl⟩, id, fun q => ?_⟩
  by_cases hq : q = p
  · subst hq
    exact ⟨t, by rw [h, Dev.part_putPart]; rfl⟩
  · cases hx : d.part q with
    | none => exact ⟨{}, by rw [← hx]; unfold Dev.part Dev.putPart Dev.setParts; exact (kfind_kset_ne hq _ _).trans (by rw [show kfind d.parts q = none from hx]; rfl)⟩
    | some z => exact ⟨z.tier, by
        have : (d.putPart p { x with tier := t }).part q = d.part q := kfind_kset_ne hq _ _
        rw [this, hx]; rfl⟩

theorem Dev.accessed_setDram (d : Dev) (x : KMap Stack) : d.Accessed (d.setDram x) :=
  Dev.accessed_of (Eq.refl _) id ⟨x, d.cups, d.mem, d.potBad, 0, d.crock.bad, d.crock.spare, d.crock.due, Eq.refl _⟩
theorem Dev.accessed_setCups (d : Dev) (x : KMap CupCnt) : d.Accessed (d.setCups x) :=
  Dev.accessed_of (Eq.refl _) id ⟨d.dram, x, d.mem, d.potBad, 0, d.crock.bad, d.crock.spare, d.crock.due, Eq.refl _⟩
theorem Dev.accessed_setPotBad (d : Dev) (x : List (Nat × Nat)) : d.Accessed (d.setPotBad x) :=
  Dev.accessed_of (Eq.refl _) id ⟨d.dram, d.cups, d.mem, x, 0, d.crock.bad, d.crock.spare, d.crock.due, Eq.refl _⟩
theorem Dev.accessed_setMem (d : Dev) (x : Mem) (h : Memory.wf d.mem = true → Memory.wf x = true) :
    d.Accessed (d.setMem x) :=
  Dev.accessed_of (Eq.refl _) h ⟨d.dram, d.cups, x, d.potBad, 0, d.crock.bad, d.crock.spare, d.crock.due, Eq.refl _⟩
theorem Dev.accessed_freeBytes (d : Dev) (n : Nat) : d.Accessed (d.freeBytes n).2 :=
  Dev.accessed_of (Eq.refl _) id ⟨d.dram, d.cups, d.mem, d.potBad, n, d.crock.bad, d.crock.spare, d.crock.due, Eq.refl _⟩
theorem Dev.accessed_setCrock (d : Dev) (b s : List Nat) (u : List (Nat × Nat)) :
    d.Accessed (d.setCrock { d.crock with bad := b, spare := s, due := u }) :=
  Dev.accessed_of (Eq.refl _) id ⟨d.dram, d.cups, d.mem, d.potBad, 0, b, s, u, Eq.refl _⟩
theorem Dev.accessed_emit (d : Dev) (o : Out) : d.Accessed (d.emitOut o) := (Dev.reports_emit d [o]).accessed
theorem Dev.accessed_modStack (d : Dev) (t : Nat) (g : Stack → Stack) : d.Accessed (d.modStack t g) :=
  Dev.accessed_setDram d _
theorem Dev.accessed_putCups (d : Dev) (x : Nat) (c : CupCnt) : d.Accessed (d.putCups x c) := Dev.accessed_setCups d _

theorem Dev.accessed_charge (d : Dev) (p die k n : Nat) : d.Accessed (d.charge p die k n) := by
  unfold Dev.charge
  split
  · exact .rfl d
  · exact Dev.accessed_putCups d _ _

theorem Dev.accessed_chargeNow (d : Dev) (p die k n : Nat) : d.Accessed (d.chargeNow p die k n) := by
  unfold Dev.chargeNow
  split
  · exact .rfl d
  · dsimp only
    split
    · exact (Dev.accessed_charge d _ _ _ _).trans (Dev.accessed_putCups _ _ _)
    · exact Dev.accessed_charge d _ _ _ _

theorem Dev.accessed_touch (d : Dev) (p a n : Nat) : d.Accessed (d.touch p a n) := by
  unfold Dev.touch
  split
  · split
    · exact .rfl d
    · split
      · exact .rfl d
      · exact Dev.accessed_tier d (by assumption) _
  · exact .rfl d

theorem Dev.accessed_chargeRun (d : Dev) (p a n : Nat) : d.Accessed (d.chargeRun p a n) := by
  unfold Dev.chargeRun
  refine Dev.Accessed.foldl _ ?_ _ d
  intro d s
  split
  · exact Dev.accessed_charge d _ _ _ _
  · exact Dev.accessed_charge d _ _ _ _
  · exact .rfl d

theorem Dev.accessed_uncorrectable (d : Dev) (p t off : Nat) (sector : Bool) : d.Accessed (d.uncorrectable p t off sector) := by
  unfold Dev.uncorrectable
  exact ((Dev.accessed_modStack d _ _).trans (Dev.reports_count _ _ _ _).accessed).trans (Dev.reports_raise _ _ _).accessed

theorem Dev.accessed_corrected (d : Dev) (t off : Nat) (sector : Bool) : d.Accessed (d.corrected t off sector) := by
  unfold Dev.corrected
  exact (Dev.accessed_modStack d _ _).trans (Dev.reports_count _ _ _ _).accessed

theorem Dev.corrected_mem (d : Dev) (t off : Nat) (sector : Bool) : (d.corrected t off sector).mem = d.mem := by
  unfold Dev.corrected
  exact (Dev.reports_count _ _ _ _).mem

theorem Dev.accessed_rewrite (d : Dev) (e : Env) (t off : Nat) : d.Accessed (d.rewrite e t off) := by
  unfold Dev.rewrite
  split
  · exact Dev.accessed_setMem d _ (fun h => mwrite_wf _ _ _ h)
  · exact .rfl d

theorem Dev.accessed_settleSector (d : Dev) (e : Env) (t off : Nat) (sector : Bool) : d.Accessed (d.settleSector e t off sector) := by
  unfold Dev.settleSector
  split
  · exact (Dev.accessed_rewrite d e t off).trans (Dev.accessed_corrected _ _ _ _)
  · exact .rfl d

theorem Dev.accessed_crockEvent (d : Dev) (p a st : Nat) : d.Accessed (d.crockEvent p a st) :=
  (Dev.accessed_setCrock d d.crock.bad d.crock.spare _).trans (Dev.reports_raise _ _ _).accessed

theorem Dev.accessed_readPiece (d : Dev) (p : Nat) (e : Env) (a n : Nat) : d.Accessed (d.readPiece p e a n).2 := by
  unfold Dev.readPiece
  split
  · exact .rfl d
  · exact .rfl d
  · dsimp only
    split
    · exact .rfl d
    · split
      · exact .rfl d
      · split
        · exact Dev.accessed_uncorrectable d _ _ _ _
        · exact Dev.accessed_settleSector d _ _ _ _
  · split
    · dsimp only
      split
      · exact .rfl d
      · exact Dev.accessed_crockEvent d _ _ _
    · exact .rfl d

/-- A read (R274 to R311). -/
theorem Dev.accessed_read (d : Dev) (p : Nat) (e : Env) (a n : Nat) : d.Accessed (d.read p e a n).2 := by
  unfold Dev.read
  refine ((Dev.accessed_touch d p a n).trans (Dev.accessed_chargeRun _ p a n)).trans ?_
  exact Dev.Accessed.foldl_snd (fun (acc : Rd × Dev) (s : Nat × Nat) => (acc.1.append (acc.2.readPiece p e s.1 s.2).1, (acc.2.readPiece p e s.1 s.2).2))
    (fun x s => Dev.accessed_readPiece x.2 p e s.1 s.2) _ ({ bytes := [] }, _)

theorem Dev.accessed_fillStack (d : Dev) (t lo hi : Nat) : d.Accessed (d.fillStack t lo hi) := by
  unfold Dev.fillStack
  split
  · exact .rfl d
  · exact (Dev.accessed_modStack d _ _).trans (Dev.accessed_setMem _ _ (fun h => mclear_wf _ _ _ h))

theorem Dev.accessed_fillFrame (d : Dev) (x : Tier) (fr : Nat) : d.Accessed (d.fillFrame x fr) := by
  unfold Dev.fillFrame
  split
  · exact Dev.Accessed.foldl _ (fun d w => Dev.accessed_fillStack d _ _ _) _ d
  · exact .rfl d

theorem Dev.accessed_writeStack (d : Dev) (p : Nat) (e : Env) (t off : Nat) (sec : Bool) (bs : Bytes) :
    d.Accessed (d.writeStack p e t off sec bs).2 := by
  unfold Dev.writeStack
  dsimp only
  split
  · exact .rfl d
  · split
    · exact (Dev.accessed_modStack d _ _).trans (Dev.accessed_setMem _ _ (fun h => mwrite_wf _ _ _ h))
    · split
      · exact .rfl d
      · split
        · exact Dev.accessed_uncorrectable d _ _ _ _
        · refine Dev.Accessed.trans ?_ (Dev.accessed_setMem _ _ (fun h => mwrite_wf _ _ _ h))
          refine Dev.Accessed.trans ?_ (Dev.accessed_rewrite _ _ _ _)
          split
          · exact Dev.accessed_corrected d _ _ _
          · exact .rfl d

theorem Dev.accessed_writeCrock (d : Dev) (p : Nat) (e : Env) (c : Nat) (bs : Bytes) :
    d.Accessed (d.writeCrock p e c bs).2 := by
  unfold Dev.writeCrock
  split
  · dsimp only
    split
    · exact .rfl d
    · exact Dev.accessed_crockEvent d _ _ _
  · exact Dev.accessed_setMem _ _ (fun h => mwrite_wf _ _ _ h)

theorem Dev.accessed_modTier (d : Dev) (p : Nat) (g : Tier → Tier) : d.Accessed (d.modTier p g) := by
  unfold Dev.modTier Dev.modPart
  split
  · exact Dev.accessed_tier d (by assumption) _
  · exact .rfl d

/-- The end of a migration that is abandoned. -/
theorem Dev.accessed_abandon (d : Dev) (p pg : Nat) (wr : Bool) : d.Accessed (d.abandon p pg wr) := by
  unfold Dev.abandon
  split
  · exact .rfl d
  · rename_i x hx
    have key : ∀ (t : Tier) b s u (f : Dev → EvRec), d.Accessed (((d.putPart p { x with tier := t }).setCrock
        { d.crock with bad := b, spare := s, due := u }).raise (f ((d.putPart p { x with tier := t }).setCrock
        { d.crock with bad := b, spare := s, due := u }))) := fun t b s u f =>
      ((Dev.accessed_tier d hx t).trans (Dev.accessed_setCrock _ b s u)).trans (Dev.reports_raise _ _ _).accessed
    have key2 : ∀ (t : Tier) (f : EvRec), d.Accessed ((d.putPart p { x with tier := t }).raise f) := fun t f =>
      (Dev.accessed_tier d hx t).trans (Dev.reports_raise _ _ _).accessed
    dsimp only
    split
    · split
      · exact key2 _ _
      · split
        · exact key2 _ _
        · split
          · exact key _ _ _ _ (fun _ => _)
          · exact (key _ _ _ _ (fun _ => _)).trans (Dev.reports_raise _ _ _).accessed
    · exact .rfl d

theorem Dev.accessed_clearPiece (d : Dev) (t o : Nat) : d.Accessed (d.clearPiece t o) := by
  unfold Dev.clearPiece
  split
  · exact Dev.accessed_modStack d _ _
  · exact .rfl d

theorem Dev.accessed_putFrame (d : Dev) (p : Nat) (t : Tier) (f off : Nat) (b : Bytes) : d.Accessed (d.putFrame p t f off b).2 := by
  unfold Dev.putFrame
  refine Dev.Accessed.foldl_snd _ ?_ _ (({}, d) : Marks × Dev)
  intro x s
  dsimp only
  split
  · exact (Dev.accessed_clearPiece _ _ _).trans (Dev.accessed_writeStack _ _ _ _ _ _ _)
  · exact .rfl _

theorem Dev.accessed_chargeChunk (d : Dev) (p : Nat) (t : Tier) (f off : Nat) : d.Accessed (d.chargeChunk p t f off) := by
  unfold Dev.chargeChunk
  refine (Dev.Accessed.foldl _ (fun d i => Dev.accessed_charge d _ _ _ _) _ d).trans (Dev.Accessed.foldl _ ?_ _ _)
  intro d s
  split
  · exact Dev.accessed_charge d _ _ _ _
  · exact .rfl d

@[simp] theorem Dev.charge_mem (d : Dev) (p a b n : Nat) : (d.charge p a b n).mem = d.mem := by
  unfold Dev.charge; split <;> rfl

@[simp] theorem Dev.chargeChunk_mem (d : Dev) (p : Nat) (t : Tier) (f off : Nat) : (d.chargeChunk p t f off).mem = d.mem := by
  unfold Dev.chargeChunk
  have key : ∀ {α : Type} (g : Dev → α → Dev), (∀ d a, (g d a).mem = d.mem) → ∀ (l : List α) (d : Dev), (l.foldl g d).mem = d.mem := by
    intro α g hg l
    induction l with
    | nil => intro d; rfl
    | cons a l ih => intro d; exact (ih _).trans (hg d a)
  rw [key, key]
  · intro d i; exact Dev.charge_mem _ _ _ _ _
  · intro d s
    split
    · exact Dev.charge_mem _ _ _ _ _
    · rfl

theorem crockPut_wf (m : Mem) (c : Nat) (b : Bytes) (h : Memory.wf m = true) : Memory.wf (crockPut m c b) = true := by
  unfold crockPut
  generalize sectorsOf c b.length = l
  induction l generalizing m with
  | nil => exact h
  | cons s l ih => exact ih _ (mwrite_wf _ _ _ h)

theorem Dev.accessed_moveChunk (d : Dev) (p pg : Nat) : d.Accessed (d.moveChunk p pg) := by
  unfold Dev.moveChunk
  split
  · exact .rfl d
  · dsimp only
    split
    · rename_i x hx _ tf cf promote k hst
      have h0 := Dev.accessed_chargeChunk d p x.tier tf (4096 * k)
      have key : ∀ r : Marks × Dev, d.Accessed r.2 → ∀ g, d.Accessed (if (!r.1.clear) = true then r.2.abandon p pg false else r.2.modTier p g) := by
        intro r hr g
        split
        · exact hr.trans (Dev.accessed_abandon _ _ _ _)
        · exact hr.trans (Dev.accessed_modTier _ _ _)
      refine key _ ?_ _
      split
      · exact h0.trans (Dev.accessed_putFrame _ _ _ _ _ _)
      · split
        · refine h0.trans (Dev.accessed_setMem _ _ (fun h => crockPut_wf _ _ _ ?_))
          rw [Dev.chargeChunk_mem] at h
          exact h
        · exact h0
    · exact .rfl d

theorem Dev.accessed_makeRoom (d : Dev) (p : Nat) : d.Accessed (d.makeRoom p) := by
  unfold Dev.makeRoom
  split
  · exact .rfl d
  · rename_i x hx
    split
    · exact .rfl d
    · split
      · exact .rfl d
      · rename_i z hz
        refine Dev.Accessed.trans ?_ (Dev.Accessed.foldl _ (fun d _ => Dev.accessed_moveChunk d p z.1) _ _)
        unfold Dev.outgoing at hz
        split at hz
        · cases hz; exact .rfl d
        · split at hz
          · cases hz; exact Dev.accessed_tier d hx _
          · cases hz

theorem Dev.accessed_openZero (d d' : Dev) (p pg : Nat) (h : d.openZero p pg = some d') : d.Accessed d' := by
  unfold Dev.openZero at h
  split at h
  · cases h
  · split at h
    · cases h
    · dsimp only at h
      split at h
      · cases h
      · split at h
        · cases h
        · cases h
          exact ((Dev.accessed_makeRoom d p).trans (Dev.accessed_tier _ (by assumption) _)).trans (Dev.accessed_fillFrame _ _ _)

theorem Dev.accessed_writeAt (d : Dev) (p : Nat) (e : Env) (l : Loc) (bs : Bytes) : d.Accessed (d.writeAt p e l bs).2 := by
  unfold Dev.writeAt
  split
  · exact Dev.accessed_writeStack _ _ _ _ _ _ _
  · exact Dev.accessed_writeCrock _ _ _ _ _
  · exact .rfl d

theorem Dev.accessed_writeBoth (d : Dev) (p : Nat) (e : Env) (a : Nat) (l : Loc) (bs : Bytes) : d.Accessed (d.writeBoth p e a l bs).2 := by
  unfold Dev.writeBoth
  dsimp only
  have h := Dev.accessed_writeAt d p e l bs
  split
  · exact h
  · have h2 := fun m => h.trans (Dev.accessed_writeAt (d.writeAt p e l bs).2 p e m bs)
    split
    · exact h2 _
    · exact (h2 _).trans (Dev.accessed_abandon _ _ _ _)

theorem Dev.accessed_writePiece (d : Dev) (p : Nat) (e : Env) (a : Nat) (bs : Bytes) :
    d.Accessed (d.writePiece p e a bs).2 := by
  unfold Dev.writePiece
  split
  · split
    · exact .rfl d
    · rename_i d1 h1
      have h2 := Dev.accessed_openZero d d1 _ _ h1
      split
      · exact h2.trans (Dev.accessed_writeStack _ _ _ _ _ _ _)
      · exact h2
  · exact Dev.accessed_writeBoth _ _ _ _ _ _

theorem Dev.accessed_clearPieces (d : Dev) (p a n : Nat) : d.Accessed (d.clearPieces p a n) := by
  unfold Dev.clearPieces
  refine Dev.Accessed.foldl _ ?_ _ d
  intro d i
  split
  · exact Dev.accessed_clearPiece d _ _
  · exact .rfl d

theorem Dev.accessed_chargeWrite (d : Dev) (p a n : Nat) : d.Accessed (d.chargeWrite p a n) := by
  unfold Dev.chargeWrite
  exact Dev.Accessed.foldl _ (fun d s => Dev.Accessed.foldl _ (fun d z => Dev.accessed_charge d _ _ _ _) _ d) _ d

theorem Dev.accessed_store (d : Dev) (p : Nat) (e : Env) (a : Nat) (bs : Bytes) : d.Accessed (d.store p e a bs).2 := by
  unfold Dev.store
  refine ((Dev.accessed_touch d p a bs.length).trans (Dev.accessed_clearPieces _ p a bs.length)).trans ?_
  exact Dev.Accessed.foldl_snd (fun (acc : Marks × Dev) (s : Nat × Nat) =>
      (acc.1.join (acc.2.writePiece p e s.1 (slice bs (s.1 - a) s.2)).1, (acc.2.writePiece p e s.1 (slice bs (s.1 - a) s.2)).2))
    (fun x s => Dev.accessed_writePiece x.2 p e s.1 _) _ ({}, _)

/-- A write (R274 to R311). -/
theorem Dev.accessed_write (d : Dev) (p : Nat) (e : Env) (a : Nat) (bs : Bytes) : d.Accessed (d.write p e a bs).2 :=
  (Dev.accessed_chargeWrite d p a _).trans (Dev.accessed_store _ p e a bs)

theorem Dev.accessed_landBytes (d : Dev) (p : Nat) (e : Env) (a : Nat) (bs : Bytes) :
    d.Accessed (d.landBytes p e a bs).2 := by
  unfold Dev.landBytes
  exact (Dev.Accessed.foldl _ (fun d s => Dev.Accessed.foldl _ (fun d z => Dev.accessed_chargeNow d _ _ _ _) _ d) _ d).trans
    (Dev.accessed_store _ p e a bs)

theorem Dev.accessed_poisonRange (d : Dev) (p a n : Nat) : d.Accessed (d.poisonRange p a n) := by
  unfold Dev.poisonRange
  refine Dev.Accessed.foldl _ ?_ _ d
  intro d s
  split
  · exact Dev.accessed_modStack d _ _
  · split
    · rename_i d1 h1
      have h2 := Dev.accessed_openZero d d1 _ _ h1
      split
      · exact h2.trans (Dev.accessed_modStack d1 _ _)
      · exact h2
    · exact .rfl d
  · exact .rfl d

theorem Dev.accessed_readNat (d : Dev) (p : Nat) (e : Env) (a n : Nat) : d.Accessed (d.readNat p e a n).2.2 :=
  Dev.accessed_read d p e a n

theorem Dev.accessed_potWrite (d : Dev) (k : Nat) (bs : Bytes) : d.Accessed (d.potWrite k bs) := by
  unfold Dev.potWrite
  exact (Dev.accessed_setPotBad d _).trans (Dev.accessed_setMem _ _ (fun h => mwrite_wf _ _ _ h))

theorem Dev.accessed_potPut (d : Dev) (x : Part) (s off : Nat) (bs : Bytes) : d.Accessed (d.potPut x s off bs).2 := by
  unfold Dev.potPut
  split
  · exact .rfl d
  · have : ∀ (l : List (Nat × Nat)) (a : Dev × Bytes), a.1.Accessed (l.foldl (fun (a : Dev × Bytes) e =>
        (a.1.potWrite (potKeyAt s e.1) (a.2.take e.2), a.2.drop e.2)) a).1 := by
      intro l
      induction l with
      | nil => intro a; exact .rfl a.1
      | cons e l ih => intro a; exact (Dev.accessed_potWrite a.1 _ _).trans <|
          (ih (a.1.potWrite (potKeyAt s e.1) (a.2.take e.2), a.2.drop e.2))
    exact this _ (d, bs)

theorem Dev.accessed_potPoison (d : Dev) (k n : Nat) : d.Accessed (d.potPoison k n) := by
  unfold Dev.potPoison
  split
  · exact .rfl d
  · exact Dev.accessed_setPotBad d _

/-! Writes that runs note (R142, R168, R184). -/

theorem Dev.Accessed.setRuns {d d' : Dev} (h : d.Accessed d') (r : KMap Run) : (d.setRuns r).Accessed (d'.setRuns r) := by
  obtain ⟨⟨f1, p1, r1, j1, u1, c1, o1, m1, t1, l1, n1, b, s, u, e⟩, v, w, t⟩ := h
  exact ⟨⟨f1, p1, r1, j1, u1, c1, o1, m1, t1, l1, n1, b, s, u, by rw [e]; rfl⟩, v, w, t⟩

/-- A run without what it has noted of writes by others. -/
def Run.plain (x : Run) : Run := { x with foreign := [], late := [] }

/-- `d'` is `d` after accesses to memory that runs may have noted. -/
structure Dev.Raced (d d' : Dev) : Prop where
  acc : d.Accessed (d'.setRuns d.runs)
  runs : d'.runs.map (fun e => (e.1, e.2.plain)) = d.runs.map (fun e => (e.1, e.2.plain))

theorem Dev.Accessed.raced {d d' : Dev} (h : d.Accessed d') : d.Raced d' :=
  ⟨by have e : d'.setRuns d.runs = d' := by rw [← h.runs]; rfl
      rw [e]; exact h, by rw [h.runs]⟩

theorem Dev.Raced.rfl (d : Dev) : d.Raced d := (Dev.Accessed.rfl d).raced

theorem Dev.Raced.trans {a b c : Dev} (h : a.Raced b) (k : b.Raced c) : a.Raced c :=
  ⟨h.acc.trans (k.acc.setRuns a.runs), k.runs.trans h.runs⟩

theorem Dev.Raced.foldl {α : Type} (g : Dev → α → Dev) (h : ∀ (d : Dev) a, d.Raced (g d a)) :
    ∀ (l : List α) (d : Dev), d.Raced (l.foldl g d)
  | [], d => .rfl d
  | a :: l, d => (h d a).trans (Dev.Raced.foldl g h l (g d a))

theorem Dev.Raced.foldl_snd {α β : Type} (g : β × Dev → α → β × Dev) (h : ∀ (x : β × Dev) a, x.2.Raced (g x a).2) :
    ∀ (l : List α) (x : β × Dev), x.2.Raced (l.foldl g x).2
  | [], x => .rfl x.2
  | a :: l, x => (h x a).trans (Dev.Raced.foldl_snd g h l (g x a))

theorem Dev.Raced.ao {d d' : Dev} (h : d.Raced d') : d'.ao = d.ao := h.acc.ao
theorem Dev.Raced.qps {d d' : Dev} (h : d.Raced d') : d'.qps = d.qps := h.acc.qps
theorem Dev.Raced.ctxs {d d' : Dev} (h : d.Raced d') : d'.ctxs = d.ctxs := h.acc.ctxs
theorem Dev.Raced.regions {d d' : Dev} (h : d.Raced d') : d'.regions = d.regions := h.acc.regions
theorem Dev.Raced.nextRun {d d' : Dev} (h : d.Raced d') : d'.nextRun = d.nextRun := h.acc.nextRun
theorem Dev.Raced.cores {d d' : Dev} (h : d.Raced d') : d'.cores = d.cores := h.acc.cores
theorem Dev.Raced.skillets {d d' : Dev} (h : d.Raced d') : d'.skillets = d.skillets := h.acc.skillets
theorem Dev.Raced.dmas {d d' : Dev} (h : d.Raced d') : d'.dmas = d.dmas := h.acc.dmas
theorem Dev.Raced.fab {d d' : Dev} (h : d.Raced d') : d'.fab = d.fab := h.acc.fab
theorem Dev.Raced.pwr {d d' : Dev} (h : d.Raced d') : d'.pwr = d.pwr := h.acc.pwr
theorem Dev.Raced.sense {d d' : Dev} (h : d.Raced d') : d'.sense = d.sense := h.acc.sense
theorem Dev.Raced.saf {d d' : Dev} (h : d.Raced d') : d'.saf = d.saf := h.acc.saf
theorem Dev.Raced.flash {d d' : Dev} (h : d.Raced d') : d'.flash = d.flash := h.acc.flash
theorem Dev.Raced.conf {d d' : Dev} (h : d.Raced d') : d'.conf = d.conf := h.acc.conf
theorem Dev.Raced.trust {d d' : Dev} (h : d.Raced d') : d'.trust = d.trust := h.acc.trust
theorem Dev.Raced.mod {d d' : Dev} (h : d.Raced d') : d'.mod = d.mod := h.acc.mod
theorem Dev.Raced.regs {d d' : Dev} (h : d.Raced d') : d'.regs = d.regs := h.acc.regs
theorem Dev.Raced.crock {d d' : Dev} (h : d.Raced d') : ∃ b s u, d'.crock = { d.crock with bad := b, spare := s, due := u } := h.acc.crock
theorem Dev.Raced.out {d d' : Dev} (h : d.Raced d') : ∃ l, d'.out = d.out ++ l := h.acc.out
theorem Dev.Raced.free {d d' : Dev} (h : d.Raced d') : d.free ≤ d'.free := h.acc.free
theorem Dev.Raced.view {d d' : Dev} (h : d.Raced d') (f : Nat) : ∃ i e, d'.fn f = { d.fn f with int := i, evt := e } := h.acc.view f
theorem Dev.Raced.wf {d d' : Dev} (h : d.Raced d') (w : Memory.wf d.mem = true) : Memory.wf d'.mem = true := h.acc.wf w
theorem Dev.Raced.tier {d d' : Dev} (h : d.Raced d') (p : Nat) :
    ∃ t, d'.part p = (d.part p).map (fun x => { x with tier := t }) := h.acc.tier p

/-- A write that the runs note, and the ring elements that it leaves free. -/
theorem Dev.raced_raced (d : Dev) (p : Nat) (b : Option Nat) (a n : Nat) : d.Raced (d.raced p b a n) := by
  unfold Dev.raced
  dsimp only
  refine Dev.Raced.trans ?_ (Dev.Raced.foldl _ (fun d r => ((Dev.accessed_freeBytes d _).trans (Dev.accessed_store _ _ _ _ _)).raced) _ _)
  split
  · exact .rfl d
  · refine ⟨Dev.Accessed.rfl d, ?_⟩
    show (List.map _ (List.map _ d.runs)) = _
    rw [List.map_map]
    refine List.map_congr_left (fun e _ => ?_)
    dsimp only [Function.comp]
    split <;> rfl

theorem Dev.raced_writeRaced (d : Dev) (p : Nat) (e : Env) (a : Nat) (b : Bytes) : d.Raced (d.writeRaced p e a b).2 :=
  (Dev.accessed_write d p e a b).raced.trans (Dev.raced_raced _ _ _ _ _)

/-- Accesses to memory bring no step in flight. -/
theorem Dev.Accessed.stepFlies {d d' : Dev} (h : d.Accessed d') (p i : Nat) : d'.stepFlies p i = d.stepFlies p i := by
  obtain ⟨t, e⟩ := h.tier p
  unfold Dev.stepFlies Dev.ctx
  rw [h.ctxs, e]
  cases d.part p <;> rfl

theorem Dev.Accessed.quiet {d d' : Dev} (h : d.Accessed d') {p : Nat} (q : d.Quiet p) : d'.Quiet p :=
  ⟨by rw [h.runs]; exact q.1, fun i => by rw [h.stepFlies]; exact q.2 i⟩

/-- Where nothing works that would note it, a write is noted by nobody. -/
theorem Dev.raced_quiet {d : Dev} {p : Nat} (h : d.Quiet p) (a n : Nat) : d.raced p none a n = d := by
  have h1 : d.runs.any (fun e => e.2.part == p && !e.2.ended && (none : Option Nat) != some e.1) = false := by
    rw [List.any_eq_false]
    intro e he hb
    simp only [Bool.and_eq_true, beq_iff_eq, Bool.not_eq_true'] at hb
    rw [h.1 e he hb.1.1] at hb
    exact absurd hb.1.2 (by decide)
  have h2 : ∀ own, d.ringHits p own a n = [] := by
    intro own
    unfold Dev.ringHits
    split
    · rfl
    · rw [List.filterMap_eq_nil_iff]
      intro i _
      dsimp only
      rw [h.2 i]
      simp
  unfold Dev.raced
  dsimp only
  rw [h1, if_pos (by simp)]
  unfold Option.bind
  rw [h2]; rfl

theorem Dev.writeRaced_quiet {d : Dev} {p : Nat} (h : d.Quiet p) (e : Env) (a : Nat) (b : Bytes) : d.writeRaced p e a b = d.write p e a b := by
  unfold Dev.writeRaced
  dsimp only
  rw [Dev.raced_quiet ((Dev.accessed_write d p e a b).quiet h)]

end Sys2Proof.Machine
end

