-- ==== Sys2Proof/Laws/Dma.lean ====
section
/-!
SUPPORT. The event rings, the failed posted writes and the DMA channels (R378 to R404, R554, R572): what each of their
operations does to the ring, the counter or the channel it is about.
-/

namespace Sys2Proof.Machine

theorem Dev.evt_modEvt (d : Dev) (f : Nat) (g : EvtRing → EvtRing) : ((d.modEvt f g).fn f).evt = g (d.fn f).evt := by
  simp [Dev.modEvt]

theorem State.onDev_self (s : State) : s.onDev (fun d => d) = s := rfl

theorem Dev.jds_addCount (d : Dev) (u i n : Nat) : (d.addCount u i n).1.jds = d.jds := by
  unfold Dev.addCount
  split
  · dsimp only
    split <;> rfl
  · rfl

theorem Dev.jds_writeRec (d : Dev) (f : Nat) (e : EvRec) : (d.writeRec f e).1.jds = d.jds := by
  unfold Dev.writeRec
  dsimp only
  split
  · exact Dev.jds_addCount d _ _ _
  · split
    · exact Dev.jds_addCount _ _ _ _
    · rfl

theorem Dev.foldl_jds {α : Type} (g : Dev → α → Dev) (h : ∀ (d : Dev) a, (g d a).jds = d.jds) :
    ∀ (l : List α) (d : Dev), (l.foldl g d).jds = d.jds
  | [], _ => rfl
  | a :: l, d => (Dev.foldl_jds g h l (g d a)).trans (h d a)

theorem Dev.jds_record : ∀ (n : Nat) (d : Dev) (e : EvRec), (Dev.record n d e).jds = d.jds
  | 0, _, _ => rfl
  | n + 1, d, e => by
    unfold Dev.record
    dsimp only
    rw [Dev.foldl_jds _ (Dev.jds_record n)]
    split
    · exact Dev.jds_writeRec d 0 e
    · exact (Dev.jds_writeRec _ _ e).trans (Dev.jds_writeRec d 0 e)

/-- A record written changes no junction die's table. -/
theorem Dev.jds_event (d : Dev) (e : EvRec) : (d.event e).jds = d.jds := Dev.jds_record 5 d _

/-- The record that an enabled ring with room takes (R398, R399). -/
theorem Dev.out_event (d : Dev) (e : EvRec) (h1 : (d.fn 0).evt.en = true)
    (h2 : ((d.fn 0).evt.tail + 1) % 2 ^ (d.fn 0).evt.log2 ≠ (d.fn 0).evt.head) :
    ∃ l, (d.event e).out = d.out ++ (.hostWrite ((d.fn 0).evt.base + 64 * (d.fn 0).evt.tail)
      (({ e with part := if e.part = 0 then d.unitOwner e.unit else e.part } : EvRec).bytes (d.unit e.unit)
        (d.stamp (e.unit % 2)) (d.fn 0).evt.lostFlag (d.fn 0).evt.phase)) :: l := by
  have key : ∀ e : EvRec, ∃ l, (Dev.record 5 d e).out = d.out ++ (.hostWrite ((d.fn 0).evt.base + 64 * (d.fn 0).evt.tail)
      (e.bytes (d.unit e.unit) (d.stamp (e.unit % 2)) (d.fn 0).evt.lostFlag (d.fn 0).evt.phase)) :: l := by
    intro e
    have hw : ∃ l, (d.writeRec 0 e).1.out = d.out ++ (.hostWrite ((d.fn 0).evt.base + 64 * (d.fn 0).evt.tail)
        (e.bytes (d.unit e.unit) (d.stamp (e.unit % 2)) (d.fn 0).evt.lostFlag (d.fn 0).evt.phase)) :: l := by
      unfold Dev.writeRec
      simp only [h1, Bool.not_true, Bool.false_eq_true, if_false, h2]
      obtain ⟨l, hl⟩ := (Dev.reports_pulse ((d.emitOut (.hostWrite ((d.fn 0).evt.base + 64 * (d.fn 0).evt.tail)
          (e.bytes (d.unit e.unit) (d.stamp (e.unit % 2)) (d.fn 0).evt.lostFlag (d.fn 0).evt.phase))).modFn 0
            _) 0 (256 + e.code / 0x1000)).out
      rw [hl]
      refine ⟨l, ?_⟩
      show (d.out ++ [_]) ++ l = _
      simp
    obtain ⟨l, hl⟩ := hw
    unfold Dev.record
    dsimp only
    have hr : (d.writeRec 0 e).1.Reports (((d.writeRec 0 e).2 ++ (if e.part = 0 then ((d.writeRec 0 e).1, []) else (d.writeRec 0 e).1.writeRec e.part e).2).foldl (Dev.record 4)
        (if e.part = 0 then ((d.writeRec 0 e).1, []) else (d.writeRec 0 e).1.writeRec e.part e).1) := by
      refine Dev.Reports.trans ?_ (Dev.Reports.foldl _ (Dev.reports_record 4) _ _)
      split
      · exact .rfl _
      · exact Dev.reports_writeRec _ _ _
    obtain ⟨m, hm⟩ := hr.out
    rw [hm, hl]
    exact ⟨l ++ m, by simp⟩
  unfold Dev.event
  split
  · rename_i h; simpa [h] using key { e with part := d.unitOwner e.unit }
  · rename_i h; simpa [h] using key e

theorem Dev.dmas_raise (d : Dev) (e : EvRec) (r : Nat) : (d.raise e r).dmas = d.dmas := (Dev.reports_raise d e r).dmas

theorem Dev.dma_of {d e : Dev} (h : e.dmas = d.dmas) (c : Nat) : e.dma c = d.dma c := by unfold Dev.dma; rw [h]

theorem Dev.dma_writeBack (d : Dev) (c : Nat) (t : Xfer) (b : Bool) : (d.dmaWriteBack c t b).dma c = { d.dma c with xfer := none } := by
  unfold Dev.dmaWriteBack
  dsimp only
  split
  · rw [Dev.dma_of (Dev.reports_pulse _ _ _).dmas]; exact Dev.dma_putDma d c _
  · exact Dev.dma_putDma d c _

theorem Dev.dma_abort (d : Dev) (c st : Nat) : (d.dmaAbort c st).dma c = { d.dma c with xfer := none } := by
  unfold Dev.dmaAbort
  split
  · exact Dev.dma_writeBack d c _ _
  · rename_i h; rw [← h]

/-- A channel in its error state has nothing in progress (R380). -/
theorem Dev.dma_error (d : Dev) (c : Nat) (h : (d.dma c).err = false) :
    (d.dmaError c).dma c = { d.dma c with err := true, xfer := none } := by
  unfold Dev.dmaError
  simp only [h, Bool.false_eq_true, if_false]
  rw [Dev.dma_of (Dev.dmas_raise _ _ _), Dev.dma_putDma, Dev.dma_abort]

theorem Dev.fn_setOut (d : Dev) (x : List Out) (f : Nat) : (d.setOut x).fn f = d.fn f := rfl

theorem Dev.evt_pulse (d : Dev) (f n g : Nat) : ((d.pulse f n).fn g).evt = (d.fn g).evt := by
  have : ∀ (d : Dev) (h : IntCtl → IntCtl), ((d.withInt f h).fn g).evt = (d.fn g).evt := by
    intro d h
    unfold Dev.withInt
    rw [Dev.fn_setOut]
    by_cases hg : g = f
    · subst hg; simp
    · rw [Dev.fn_modFn_ne _ hg]
  unfold Dev.pulse Dev.setLine
  rw [this, this]

theorem unitKind_part {f : Nat} (hf : f ≤ 16) : unitKind (0x160600 + f) = 3 := by
  have : ∀ f : Fin 17, unitKind (0x160600 + f.val) = 3 := by decide
  exact this ⟨f, by omega⟩

/-- A count of a statistics counter that neither sticks nor has a threshold (R406, R408). -/
theorem Dev.count_plain (d : Dev) (u i n : Nat) (hn : n ≠ 0) (hs : isStat (unitKind u) i = true)
    (ht : kget (d.fn (d.unitOwner u)).thr (16 * unitKind u + i) 0 = 0) (hc : d.counter u i + n < 2 ^ 64 - 1) :
    d.count u i n = d.setCnt (kset d.cnt (32 * u + i) (d.counter u i + n)) := by
  have h1 : stick64 (d.counter u i + n) = d.counter u i + n := by unfold stick64; exact Nat.min_eq_left (Nat.le_of_lt hc)
  have h2 : ¬ (d.counter u i + n = 2 ^ 64 - 1) := Nat.ne_of_lt hc
  unfold Dev.count Dev.addCount
  rw [if_neg hn, if_pos hs]
  dsimp only
  rw [h1, ht, if_neg (fun h => h2 h.1), if_neg (fun h => h2 h.1), if_neg (fun h => h.1 rfl)]
  rfl

theorem Dev.accessed_readRuns (d : Dev) (p : Nat) (e : Env) (l : List (Nat × Nat)) : d.Accessed (d.readRuns p e l).2 := by
  unfold Dev.readRuns
  refine Dev.Accessed.foldl_snd (β := Rd) _ ?_ l ({ bytes := [] }, d)
  intro x s; exact Dev.accessed_read x.2 p e s.1 s.2

theorem Dev.accessed_writeMarked (d : Dev) (p : Nat) (e : Env) (a : Nat) (b : Bytes) (bad : List (Nat × Nat)) :
    d.Accessed (d.writeMarked p e a b bad).2 := by
  unfold Dev.writeMarked
  refine Dev.Accessed.foldl_snd _ ?_ _ (({}, d) : Marks × Dev)
  intro x g
  dsimp only
  split
  · exact Dev.accessed_poisonRange _ _ _ _
  · exact Dev.accessed_write _ _ _ _ _

theorem Dev.accessed_setFree (d : Dev) (n : Nat) : d.Accessed (d.setFree (d.free + n)) :=
  Dev.accessed_of (Eq.refl _) id ⟨d.dram, d.cups, d.mem, d.potBad, n, d.crock.bad, d.crock.spare, d.crock.due, Eq.refl _⟩

theorem Dev.accessed_blurOverlap (d : Dev) (srcs : List (Nat × Nat)) (u skip a : Nat) (b : Bytes) :
    d.Accessed (d.blurOverlap srcs u skip a b).2 := by
  unfold Dev.blurOverlap
  dsimp only
  split
  · exact .rfl d
  · exact Dev.accessed_setFree d _

theorem Dev.accessed_emitOut (d : Dev) (o : Out) : d.Accessed (d.emitOut o) := (Dev.reports_emit d [o]).accessed

theorem Dev.accessed_dmaSource (d : Dev) (p : Nat) (e : Env) (t : Xfer) (host : Bool) (i : Nat) (k : Piece) (so : Nat) :
    d.Accessed (d.dmaSource p e t host i k so).2 := by
  unfold Dev.dmaSource
  split
  · exact .rfl d
  split
  · split
    · exact .rfl d
    · exact Dev.accessed_freeBytes d _
    · exact .rfl d
  · exact Dev.accessed_readRuns d p e _

theorem Dev.accessed_potMarked (d : Dev) (p a : Nat) (b : Bytes) (bad : List (Nat × Nat)) : d.Accessed (d.potMarked p a b bad).2 := by
  unfold Dev.potMarked
  split
  · refine Dev.Accessed.foldl_snd _ ?_ _ (({}, d) : Marks × Dev)
    intro x g
    dsimp only
    split
    · exact Dev.Accessed.foldl _ (fun d r => Dev.accessed_potPoison d _ _) _ _
    · exact Dev.accessed_potPut _ _ _ _ _
  · exact .rfl d

/-- A write of one side of a command. -/
theorem Dev.raced_sideWrite (d : Dev) (p : Nat) (e : Env) (pot : Bool) (a : Nat) (b : Bytes) (bad : List (Nat × Nat)) :
    d.Raced (d.sideWrite p e pot a b bad).2 := by
  unfold Dev.sideWrite
  split
  · exact (Dev.accessed_potMarked _ _ _ _ _).raced
  · exact (Dev.accessed_writeMarked _ _ _ _ _ _).raced.trans (Dev.raced_raced _ _ _ _ _)

theorem Dev.raced_blurSide (d : Dev) (p : Nat) (pot : Bool) (l : List (Nat × Nat)) : d.Raced (d.blurSide p pot l) := by
  unfold Dev.blurSide
  refine Dev.Raced.foldl _ ?_ _ d
  intro d r
  dsimp only
  refine (Dev.accessed_freeBytes d r.2).raced.trans ?_
  split
  · exact (Dev.accessed_potMarked _ _ _ _ _).raced
  · exact (Dev.accessed_store _ _ _ _ _).raced.trans (Dev.raced_raced _ _ _ _ _)

theorem Dev.raced_dmaSink (d : Dev) (p : Nat) (e : Env) (toPart : Bool) (a : Nat) (b : Bytes) (bad : List (Nat × Nat)) :
    d.Raced (d.dmaSink p e toPart a b bad).2 := by
  unfold Dev.dmaSink
  split
  · exact .rfl d
  · split
    · exact Dev.raced_sideWrite d _ _ _ _ _ _
    · split
      · exact .rfl d
      · exact (Dev.Accessed.foldl _ (fun d g => Dev.accessed_emitOut d _) _ d).raced

theorem Dev.accessed_dmaSnap (d : Dev) (p : Nat) (e : Env) (t : Xfer) : d.Accessed (d.dmaSnap p e t).2.2 := by
  unfold Dev.dmaSnap
  split
  · exact .rfl d
  · dsimp only
    suffices h : ∀ (l : List Piece) (a : List (Bytes × List (Nat × Nat)) × Marks × Dev), a.2.2.Accessed (l.foldl _ a).2.2 from h t.pieces ([], {}, d)
    intro l
    induction l with
    | nil => intro a; exact .rfl _
    | cons k l ih =>
      intro a
      refine Dev.Accessed.trans ?_ (ih _)
      exact Dev.accessed_readRuns a.2.2 p e k.srcs

/-- Only the sources that a transfer has read at its start are new in it. -/
theorem Dev.dmaSnap_xfer (d : Dev) (p : Nat) (e : Env) (t : Xfer) : ∃ w, (d.dmaSnap p e t).1 = { t with snap := w } := by
  unfold Dev.dmaSnap
  split
  · exact ⟨t.snap, rfl⟩
  · exact ⟨_, rfl⟩

theorem Dev.raced_dmaMove (d : Dev) (p : Nat) (e : Env) (t : Xfer) (lo hi : Nat) : d.Raced (d.dmaMove p e t lo hi).2 := by
  unfold Dev.dmaMove
  dsimp only
  generalize (if ((parseDma t.desc).srcPart && (parseDma t.desc).dstPart) = true then t.pieces.flatMap (·.srcs) else []) = srcs
  suffices h : ∀ (l : List (Piece × Nat)) (a : (Marks × Dev) × Nat × Nat), a.1.2.Raced (l.foldl _ a).1.2 from h t.pieces.zipIdx (({}, d), 0, 0)
  intro l
  induction l with
  | nil => intro a; exact .rfl _
  | cons k l ih =>
    intro a
    refine Dev.Raced.trans ?_ (ih _)
    dsimp only
    split
    · exact .rfl _
    · have h1 := Dev.accessed_dmaSource a.1.2 p e t (!(parseDma t.desc).srcPart) k.2 k.1 a.2.2
      split
      · exact ((h1.trans (Dev.accessed_freeBytes _ _)).trans (Dev.accessed_blurOverlap _ _ _ _ _ _)).raced.trans (Dev.raced_dmaSink _ _ _ _ _ _ _)
      · exact (h1.trans (Dev.accessed_blurOverlap _ _ _ _ _ _)).raced.trans (Dev.raced_dmaSink _ _ _ _ _ _ _)

theorem Dev.accessed_dmaCharge (d : Dev) (c : Nat) (y : DmaD) (n : Nat) : d.Accessed (d.dmaCharge c y n) := by
  unfold Dev.dmaCharge
  dsimp only
  split <;> split
  · exact Dev.accessed_charge _ _ _ _ _
  · exact (Dev.accessed_charge _ _ _ _ _).trans (Dev.accessed_charge _ _ _ _ _)
  · exact (Dev.accessed_charge _ _ _ _ _).trans (Dev.accessed_charge _ _ _ _ _)
  · exact ((Dev.accessed_charge _ _ _ _ _).trans (Dev.accessed_charge _ _ _ _ _)).trans (Dev.accessed_charge _ _ _ _ _)

theorem Dev.reports_dmaBad (d : Dev) (c idx st : Nat) : d.Reports (d.dmaBad c idx st) :=
  (Dev.reports_count d _ _ _).trans (Dev.reports_raise _ _ _)

theorem Dev.dma_advance (d : Dev) (c : Nat) (e : Env) (t : Xfer) (hi : Nat) : ∃ z : Xfer, z.moved = max t.moved hi ∧ z.desc = t.desc ∧
    z.idx = t.idx ∧ (t.bad = true → z.status = t.status ∧ z.bad = true) ∧
    (d.dmaAdvance c e t hi).dma c = { d.dma c with xfer := some z } := by
  unfold Dev.dmaAdvance
  dsimp only
  obtain ⟨w, hw⟩ := ((d.dmaCharge c (parseDma t.desc) (hi - t.moved)).dmaSnap_xfer (d.dma c).owner e t)
  have h1 := (Dev.accessed_dmaCharge d c (parseDma t.desc) (hi - t.moved)).trans (Dev.accessed_dmaSnap _ (d.dma c).owner e t)
  generalize (d.dmaCharge c (parseDma t.desc) (hi - t.moved)).dmaSnap (d.dma c).owner e t = s at *
  have hacc : (s.2.2.dmaMove (d.dma c).owner e s.1 t.moved hi).2.dma c = d.dma c :=
    Dev.dma_of (h1.raced.trans (Dev.raced_dmaMove _ _ _ _ _ _)).dmas c
  generalize s.2.2.dmaMove (d.dma c).owner e s.1 t.moved hi = r at *
  rw [hw]
  refine ⟨{ ({ t with snap := w } : Xfer) with moved := max t.moved hi, status := if t.bad then t.status else ((s.2.1.join r.1).final stSuccess).1, bad := t.bad || !(s.2.1.join r.1).clear },
    rfl, rfl, rfl, fun h => by simp [h], ?_⟩
  split
  · rw [Dev.dma_of (Dev.reports_dmaBad _ _ _ _).dmas, Dev.dma_putDma, hacc]
  · rw [Dev.dma_putDma, hacc]

/-- A pulse on an enabled rising-edge source makes it pending (R392, R393). -/
theorem Dev.pend_pulse (d : Dev) (f n : Nat) (hv : srcValid n = true) (he : ((d.fn f).int.src n).en = true)
    (hs : ((d.fn f).int.src n).sense = 1) (hl : ((d.fn f).int.src n).line = false) : (((d.pulse f n).fn f).int.src n).pend = true := by
  have h1 : ((d.setLine f n true).fn f).int.src n = { (d.fn f).int.src n with line := true, pend := true } := by
    unfold Dev.setLine
    rw [Dev.src_withInt]
    unfold IntCtl.setLine
    simp only [hl]
    rw [if_neg (by simp), IntCtl.src_setSrc _ _ _ hv]
    simp [IntSrc.settle, hs, he]
  unfold Dev.pulse
  generalize d.setLine f n true = e at *
  unfold Dev.setLine
  rw [Dev.src_withInt]
  unfold IntCtl.setLine
  simp only [h1]
  rw [if_neg (by simp), IntCtl.src_setSrc _ _ _ hv]
  simp [IntSrc.settle, hs]

theorem Dev.dma_whisk (d : Dev) (p : Nat) (x : DmaD) : d.Accessed (d.dmaWhisk p x).2 := by
  unfold Dev.dmaWhisk
  split
  · exact .rfl d
  · split
    · exact .rfl d
    · have h := Dev.accessed_read d p Env.clean x.aux 64
      dsimp only
      split
      · exact h
      · split <;> exact h

end Sys2Proof.Machine
end

