-- ==== Sys2Proof/Laws/Signals.lean ====
section
/-!
SUPPORT. Commands that run and end at once: what the end of a command leaves as it was, the order of FENCE and WAIT
(R350 to R353), a message put in flight, the pages of a hint (R369, R370), and the fields of a query (R371).
-/

namespace Sys2Proof.Machine

/-- The command's row runs its body, and a ready command's `withCmd` is that body. -/
theorem Dev.withCmd_of {d : Dev} {r : CmdRef} {op : Nat} {c : Cmd} (h : d.Ready r op c) (body : Cmd → Dev) :
    d.withCmd r op body = body c := Dev.withCmd_ready h.1 h.2.1 h.2.2.1

theorem Dev.Accessed.cmd {d d' : Dev} (h : d.Accessed d') (r : CmdRef) : d'.cmd r = d.cmd r := by
  unfold Dev.cmd Dev.qp; rw [h.qps]
theorem Dev.Raced.cmd {d d' : Dev} (h : d.Raced d') (r : CmdRef) : d'.cmd r = d.cmd r := h.acc.cmd r

theorem Dev.ended_finish (d : Dev) {r : CmdRef} {c : Cmd} (h : d.cmd r = some c) (hm : c.marks = {}) {st : Nat}
    (hne : st ≠ stPoisoned) (r0 r1 det : Nat) (dies : List Nat) : (d.finish r st r0 r1 det dies).Ended r st r0 r1 det :=
  Dev.finish_ended d h hm st r0 r1 det dies (fun h => absurd h hne)

theorem State.next_same {s : State} {g : Dev → Dev} (h : g s.dev = s.dev) :
    (Host.Outcome.next (s.onDev g) : Host.Outcome State Fault Refusal) = .next s := by
  unfold State.onDev; rw [h]

theorem Dev.startable_barrier {d : Dev} {x : Qp} {c : Cmd} {r : CmdRef} (hx : d.qp r.f r.q = some x) (hc : c ∈ x.cmds)
    (hb : c.barrier = true) (hk : c.k < r.k) : d.startable r = none := by
  have hd : x.depsMet r.k = false := by
    unfold Qp.depsMet
    rw [Bool.not_eq_false', List.any_eq_true]
    exact ⟨c, hc, by simp [hk, hb]⟩
  unfold Dev.startable
  rw [hx]
  split
  · rename_i h1 _; cases h1; simp [hd]
  · rfl

theorem Marks.final_fst_cause {m : Marks} {c st : Nat} (h : c ∈ m.causes) : (m.final st).1 = stPoisoned := by
  unfold Marks.final
  have : m.causes.isEmpty = false := by cases hm : m.causes <;> simp_all
  simp [this]


/-- A command that ends takes what its marks say (R375). -/
theorem Dev.cmd_mark (d : Dev) {r : CmdRef} {c : Cmd} (h : d.cmd r = some c) (m : Marks) :
    (d.mark r m).cmd r = some { c with marks := c.marks.join m } := by
  rw [Dev.mark, Dev.cmd_modCmd d r (by intro c; rfl), h]; rfl

theorem Marks.join_nil (m : Marks) : ({} : Marks).join m = m := by simp [Marks.join]

theorem Dev.out_modQp (d : Dev) (f q : Nat) (g : Qp → Qp) : (d.modQp f q g).out = d.out := by
  unfold Dev.modQp; split <;> rfl
theorem Dev.mem_modQp (d : Dev) (f q : Nat) (g : Qp → Qp) : (d.modQp f q g).mem = d.mem := by
  unfold Dev.modQp; split <;> rfl
theorem Dev.parts_modQp (d : Dev) (f q : Nat) (g : Qp → Qp) : (d.modQp f q g).parts = d.parts := by
  unfold Dev.modQp; split <;> rfl
theorem Dev.cnt_modQp (d : Dev) (f q : Nat) (g : Qp → Qp) : (d.modQp f q g).cnt = d.cnt := by
  unfold Dev.modQp; split <;> rfl
theorem Dev.out_finish (d : Dev) (r : CmdRef) (st r0 r1 det : Nat) (dies : List Nat) : (d.finish r st r0 r1 det dies).out = d.out :=
  Dev.out_modQp _ _ _ _
theorem Dev.mem_finish (d : Dev) (r : CmdRef) (st r0 r1 det : Nat) (dies : List Nat) : (d.finish r st r0 r1 det dies).mem = d.mem :=
  Dev.mem_modQp _ _ _ _
theorem Dev.parts_finish (d : Dev) (r : CmdRef) (st r0 r1 det : Nat) (dies : List Nat) : (d.finish r st r0 r1 det dies).parts = d.parts :=
  Dev.parts_modQp _ _ _ _
theorem Dev.part_finish (d : Dev) (r : CmdRef) (st r0 r1 det : Nat) (dies : List Nat) (p : Nat) :
    (d.finish r st r0 r1 det dies).part p = d.part p := by unfold Dev.part; rw [Dev.parts_finish]
theorem Dev.cnt_finish (d : Dev) (r : CmdRef) (st r0 r1 det : Nat) (dies : List Nat) : (d.finish r st r0 r1 det dies).cnt = d.cnt :=
  Dev.cnt_modQp _ _ _ _
theorem Dev.cmd_putPart (d : Dev) (p : Nat) (x : Part) (r : CmdRef) : (d.putPart p x).cmd r = d.cmd r := rfl
theorem Dev.cmd_emitOut (d : Dev) (o : Out) (r : CmdRef) : (d.emitOut o).cmd r = d.cmd r := rfl

theorem reached_iff (v w : Nat) (hv : v < 2 ^ 64) (hw : w < 2 ^ 64) : reached v w = true ↔ (v + 2 ^ 64 - w) % 2 ^ 64 < 2 ^ 63 := by
  unfold reached
  rw [decide_eq_true_eq, Nat.mod_eq_of_lt hw]

theorem leNat_lt (b : Bytes) : leNat b < 256 ^ b.length := by
  induction b with
  | nil => simp [leNat]
  | cons x b ih =>
    have := x.isLt
    simp only [leNat, List.length_cons, Nat.pow_succ]
    omega

theorem field_lt (b : Bytes) (o n : Nat) : field b o n < 256 ^ n := by
  unfold field
  refine Nat.lt_of_lt_of_le (leNat_lt _) (Nat.pow_le_pow_right (by omega) ?_)
  simp <;> omega

theorem Tier.hintPages_some (t : Tier) (a n pg : Nat) (ha : a = t.base + pg * 2 ^ 21) (hn : 1 ≤ n) (h : pg + n ≤ t.pages) :
    t.hintPages a n = some ((List.range n).map (pg + ·)) := by
  have h1 : t.pageOf a = some pg := by
    unfold Tier.pageOf
    have h2 : t.base ≤ a ∧ a < t.base + t.pages * pageBytes := by
      subst ha; unfold pageBytes
      constructor
      · omega
      · have : pg * 2 ^ 21 < t.pages * 2 ^ 21 := Nat.mul_lt_mul_of_pos_right (by omega) (by decide)
        simp only [Nat.reducePow] at *; omega
    rw [if_pos h2]
    congr 1
    subst ha
    rw [Nat.add_sub_cancel_left]
    exact Nat.mul_div_cancel _ (by decide)
  unfold Tier.hintPages
  rw [h1]
  simp [h]

theorem Tier.hintPages_none (t : Tier) (a n : Nat) (hn : 1 ≤ n) (hb : t.base % 2 ^ 21 = 0) (ha : a % 2 ^ 21 = 0)
    (h : a < t.base ∨ t.base + t.pages * 2 ^ 21 < a + n * 2 ^ 21) : t.hintPages a n = none := by
  unfold Tier.hintPages Tier.pageOf pageBytes
  by_cases h1 : t.base ≤ a ∧ a < t.base + t.pages * 2097152
  · rw [if_pos h1]
    have : ¬ ((a - t.base) / 2097152 + n ≤ t.pages) := by omega
    simp [this]
  · rw [if_neg h1]

theorem leNat_zero (b : Bytes) (h : ∀ x ∈ b, x = 0) : leNat b = 0 := by
  induction b with
  | nil => rfl
  | cons x b ih =>
    simp only [leNat, h x (by simp), ih (fun y hy => h y (by simp [hy]))]; rfl

theorem field_zero {b : Bytes} {o n p m : Nat} (h : zeroAt b o n = true) (h1 : o ≤ p) (h2 : p + m ≤ o + n) : field b p m = 0 := by
  refine leNat_zero _ ?_
  intro x hx
  unfold zeroAt slice at h
  rw [List.all_eq_true] at h
  have := h x (by
    obtain ⟨k, rfl⟩ := Nat.exists_eq_add_of_le h1
    rw [List.mem_take_iff_getElem] at hx ⊢
    obtain ⟨i, hi, rfl⟩ := hx
    refine ⟨k + i, by simp at *; omega, ?_⟩
    simp [Nat.add_assoc])
  simpa using this

/-- A pin of pages that are in tier frames already ends at once (R370). -/
theorem Dev.pinOn_stack (d : Dev) (r : CmdRef) (l : List Nat) (x : Part) (hx : d.part r.f = some x)
    (h : ∀ p ∈ l, (x.tier.st p).isStack = true) : d.pinOn r l = d.finish r stSuccess l.length := by
  have hp : ∀ l : List Nat, (∀ p ∈ l, (x.tier.st p).isStack = true) → d.pinPages r.f l = d := by
    intro l hl
    unfold Dev.pinPages
    induction l with
    | nil => rfl
    | cons p l ih =>
      rw [List.foldl_cons]
      have h1 := hl p (by simp)
      rw [hx]
      dsimp only
      cases hs : x.tier.st p <;> rw [hs] at h1 <;> simp [PageSt.isStack] at h1
      exact ih (fun q hq => hl q (by simp [hq]))
  unfold Dev.pinOn
  rw [hp l h]
  have : d.allStack r.f l = true := by
    unfold Dev.allStack; rw [hx]; simpa [List.all_eq_true] using h
  simp [this]

theorem Tier.st_discard (t : Tier) (q p : Nat) : (t.discard q).st p = if p = q then .zero else t.st p := by
  unfold Tier.discard Tier.st kget
  dsimp only
  by_cases h : p = q
  · subst h; simp
  · rw [if_neg h, kfind_kdel_ne h]

theorem Tier.st_discards : ∀ (l : List Nat) (t : Tier) (p : Nat), (l.foldl Tier.discard t).st p = if p ∈ l then .zero else t.st p
  | [], t, p => by simp
  | q :: l, t, p => by
    rw [List.foldl_cons, Tier.st_discards l, Tier.st_discard]
    by_cases h : p ∈ l <;> by_cases h2 : p = q <;> simp [h, h2]

theorem zeroAt_false {b : Bytes} {o n : Nat} : (!zeroAt b o n) = true ↔ ¬ zeroAt b o n = true := by simp

theorem Dev.inputWake_none (d : Dev) (p : Nat) (h : ∀ e ∈ d.ctxs, e.2.cstate = 4 → e.2.block ≠ 1) : d.inputWake p = d := by
  unfold Dev.inputWake
  cases d.part p with
  | none => rfl
  | some x =>
    dsimp only
    rw [List.filter_eq_nil_iff.mpr ?_]
    · rfl
    · intro e he
      by_cases h4 : e.2.cstate = 4
      · simp [h e he h4]
      · simp [h4]

/-- Only the fabric's state, the cups and what left the device change when a message is put in flight. -/
def Dev.Sent (d d' : Dev) : Prop := ∃ a b l, d' = { d with fab := a, cups := b, out := d.out ++ l }

theorem Dev.Sent.rfl (d : Dev) : d.Sent d := ⟨d.fab, d.cups, [], by simp⟩
theorem Dev.Sent.trans {a b c : Dev} (h : a.Sent b) (k : b.Sent c) : a.Sent c := by
  obtain ⟨f1, u1, l1, e1⟩ := h; obtain ⟨f2, u2, l2, e2⟩ := k
  exact ⟨f2, u2, l1 ++ l2, by rw [e2, e1]; simp⟩
theorem Dev.Sent.foldl {α : Type} (g : Dev → α → Dev) (h : ∀ (d : Dev) a, d.Sent (g d a)) :
    ∀ (l : List α) (d : Dev), d.Sent (l.foldl g d)
  | [], d => .rfl d
  | a :: l, d => (h d a).trans (Dev.Sent.foldl g h l (g d a))
theorem Dev.Sent.cmd {d d' : Dev} (h : d.Sent d') (r : CmdRef) : d'.cmd r = d.cmd r := by
  obtain ⟨_, _, _, e⟩ := h; rw [e]; rfl
theorem Dev.Sent.mem {d d' : Dev} (h : d.Sent d') : d'.mem = d.mem := by obtain ⟨_, _, _, e⟩ := h; rw [e]
theorem Dev.sent_fab (d : Dev) (x : Fab) : d.Sent (d.setFab x) := ⟨x, d.cups, [], by simp [Dev.setFab]⟩
theorem Dev.sent_emit (d : Dev) (o : Out) : d.Sent (d.emitOut o) := ⟨d.fab, d.cups, [o], rfl⟩
theorem Dev.sent_charge (d : Dev) (p a b n : Nat) : d.Sent (d.charge p a b n) := by
  unfold Dev.charge; split
  · exact .rfl d
  · exact ⟨d.fab, _, [], by simp [Dev.putCups, Dev.setCups]; rfl⟩
theorem Dev.sent_putPort (d : Dev) (p : Nat) (x : Port) : d.Sent (d.putPort p x) := Dev.sent_fab d _
theorem Dev.sent_portSend (d : Dev) (p : Nat) (tp : Bytes) : d.Sent (d.portSend p tp) := by
  unfold Dev.portSend; dsimp only; split
  · exact Dev.sent_putPort d p _
  · exact (Dev.sent_putPort d p _).trans (Dev.Sent.foldl _ (fun d b => Dev.sent_emit d _) _ _)
theorem Dev.sent_deal (d : Dev) (p : Nat) (tp : Bytes) : d.Sent (d.deal p tp) := by
  unfold Dev.deal; dsimp only; split
  · exact .rfl d
  · exact ((Dev.sent_fab d _).trans (Dev.sent_charge _ _ _ _ _)).trans (Dev.sent_portSend _ _ _)
theorem Dev.sent_dealMsg (d : Dev) (p : Nat) (h : MsgHead) (b : Bytes) (po : List Nat) : d.Sent (d.dealMsg p h b po) :=
  Dev.Sent.foldl _ (fun d i => Dev.sent_deal d p _) _ d
theorem Dev.sent_putDest (d : Dev) (m : Nat) (x : Dest) : d.Sent (d.putDest m x) := Dev.sent_fab d _
theorem Dev.sent_transmit (d : Dev) (m : Msg) : d.Sent (d.transmit m) := (Dev.sent_fab d _).trans (Dev.sent_dealMsg _ _ _ _ _)
theorem Dev.sent_sayCtl (d : Dev) (dst op : Nat) (b : Bytes) : d.Sent (d.sayCtl dst op b) :=
  (Dev.sent_putDest d dst _).trans (Dev.sent_dealMsg _ _ _ _ _)
theorem Dev.sent_sendMsg (d : Dev) (m : Msg) : d.Sent (d.sendMsg m).2 := by
  unfold Dev.sendMsg; dsimp only; split
  · exact ((Dev.sent_putDest d m.dst _).trans (Dev.sent_fab _ _)).trans (Dev.sent_transmit _ _)
  · exact (Dev.sent_putDest d m.dst _).trans (Dev.sent_fab _ _)

theorem Dev.signalStarts_some {d : Dev} {r : CmdRef} {c : Cmd} (h : d.signalStarts r = some c) :
    d.cmd r = some c ∧ c.op = 0x2A ∧ c.phase = .waiting := by
  unfold Dev.signalStarts at h
  split at h
  · rename_i x c' hx hc
    dsimp only at h
    rw [Option.ite_none_right_eq_some] at h
    obtain ⟨h1, h2⟩ := h
    cases h2; exact ⟨hc, h1.1, h1.2.1⟩
  · cases h

theorem Dev.settleCmd_waits (d : Dev) (r : CmdRef) (c : Cmd) (h : d.cmd r = some c) (ha : c.await ≠ []) : d.settleCmd r = d := by
  unfold Dev.settleCmd
  rw [h]; dsimp only
  rw [if_neg]
  intro h2; exact ha (by simpa using h2.2.1)

theorem leBytes_length : ∀ (n v : Nat), (leBytes n v).length = n
  | 0, _ => rfl
  | n + 1, v => by simp [leBytes, leBytes_length n]

theorem fields_length (l : List Nat) : (l.flatMap (leBytes 8)).length = 8 * l.length := by
  induction l with
  | nil => rfl
  | cons x l ih => simp [List.flatMap_cons, leBytes_length, ih]; omega

/-- Field `i` of a run of 8-byte fields. -/
theorem fields_slice : ∀ (l : List Nat) (i : Nat) (h : i < l.length), slice (l.flatMap (leBytes 8)) (8 * i) 8 = leBytes 8 l[i]
  | x :: l, 0, _ => by
    simp only [slice, List.flatMap_cons, Nat.mul_zero, List.drop_zero, List.getElem_cons_zero]
    rw [List.take_left' (leBytes_length 8 x)]
  | x :: l, i + 1, h => by
    have ih := fields_slice l i (by simpa using h)
    simp only [slice, List.flatMap_cons, List.getElem_cons_succ] at *
    have : 8 * (i + 1) = (leBytes 8 x).length + 8 * i := by rw [leBytes_length]; omega
    rw [this, List.drop_append, ← ih]
    congr 1
    simp

theorem kfind_unit_zero (u i : Nat) (hi : i < 32) : ∀ m : KMap Nat, kfind (m.filter (fun e => e.1 / 32 != u)) (32 * u + i) = none
  | [] => rfl
  | (j, y) :: m => by
    have ih := kfind_unit_zero u i hi m
    by_cases h : j / 32 = u
    · rw [List.filter_cons_of_neg (by simp [h])]; exact ih
    · rw [List.filter_cons_of_pos (by simp [h])]
      have : j ≠ 32 * u + i := by omega
      simp only [kfind]
      simpa [this] using ih

end Sys2Proof.Machine
end

