-- ==== Sys2Proof/Laws/Commands.lean ====
section
/-!
SUPPORT. Commands on memory and programs (R112, R243, R274, R285, R358 to R360): one sector of a region, runs and their
length, charges, the start of a GRAPH_RUN, and the passes of a PACK.
-/

namespace Sys2Proof.Machine

theorem sectorsOf_one (a n : Nat) (h1 : 1 ≤ n) (h2 : a % 64 + n ≤ 64) : sectorsOf a n = [(a, n)] := by
  unfold sectorsOf
  have h3 : min n (64 - a % 64) = n := by omega
  have h4 : ∀ k b, sectors k b 0 = [] := by intro k b; cases k <;> rfl
  rw [show n / 64 + 2 = (n / 64 + 1) + 1 from rfl]
  unfold sectors
  rw [if_neg (by omega), h3]
  dsimp only
  rw [Nat.sub_self, h4]

theorem Dev.locate_region (d : Dev) (p a : Nat) (g : Region) (h : d.regionAt p a = some g) :
    d.locate p a = .stack (g.place (a - g.base)).1 (g.place (a - g.base)).2 g.sector := by
  unfold Dev.locate; rw [h]

/-- Charging and touching move nothing but cups and marks of the tier. -/
theorem Dev.charge_shape (d : Dev) (p a b n : Nat) : ∃ u, d.charge p a b n = d.setCups u := by
  unfold Dev.charge; split
  · exact ⟨d.cups, rfl⟩
  · exact ⟨_, rfl⟩

theorem Dev.foldl_cups {α : Type} (g : Dev → α → Dev) (h : ∀ (d : Dev) a, ∃ u, g d a = d.setCups u) :
    ∀ (l : List α) (d : Dev), ∃ u, l.foldl g d = d.setCups u
  | [], d => ⟨d.cups, rfl⟩
  | a :: l, d => by
    obtain ⟨u, hu⟩ := h d a
    obtain ⟨v, hv⟩ := Dev.foldl_cups g h l (d.setCups u)
    exact ⟨v, by rw [List.foldl_cons, hu, hv]; rfl⟩

theorem Dev.chargeRun_shape (d : Dev) (p a n : Nat) : ∃ u, d.chargeRun p a n = d.setCups u := by
  unfold Dev.chargeRun
  refine Dev.foldl_cups _ ?_ _ d
  intro d s
  split
  · exact Dev.charge_shape _ _ _ _ _
  · exact Dev.charge_shape _ _ _ _ _
  · exact ⟨d.cups, rfl⟩

theorem Dev.chargeWrite_shape (d : Dev) (p a n : Nat) : ∃ u, d.chargeWrite p a n = d.setCups u := by
  unfold Dev.chargeWrite
  exact Dev.foldl_cups _ (fun d s => Dev.foldl_cups _ (fun d z => Dev.charge_shape d _ _ _ _) _ d) _ d

theorem Dev.touch_none (d : Dev) (p a n : Nat) (h : ∀ y, d.part p = some y → y.tier.pageOf a = none) : d.touch p a n = d := by
  unfold Dev.touch
  split
  · rename_i x hx
    split
    · rfl
    · rw [h x hx]; rfl
  · rfl

theorem Stack.bad_filter (x : Stack) (f : PoisonEnt → Bool) (g : Nat → Bool) (o : Nat)
    (h : ({ x with poison := x.poison.filter f, repairPoison := x.repairPoison.filter g } : Stack).bad o = true) : x.bad o = true := by
  unfold Stack.bad at *
  simp only [Bool.or_eq_true, List.any_eq_true, List.contains_iff_mem, List.mem_filter] at *
  rcases h with ⟨e, he, h⟩ | ⟨h, _⟩
  · exact .inl ⟨e, he.1, h⟩
  · exact .inr h

/-- Clearing the poison of whole rows touches the stacks' tables alone, and poisons nothing. -/
theorem Dev.clearRows_shape (l : List FillRun) (d : Dev) : ∃ dr, d.clearRows l = { d with dram := dr } ∧
    ∀ k o, ((d.clearRows l).stack k).bad o = true → (d.stack k).bad o = true := by
  unfold Dev.clearRows
  generalize (l.map (·.1)).eraseDups = ts
  induction ts generalizing d with
  | nil => exact ⟨d.dram, rfl, fun _ _ h => h⟩
  | cons t ts ih =>
    rw [List.foldl_cons]
    dsimp only
    generalize hz : (if d.stackOut t = true then d else d.modStack t _) = z
    have hstep : ∃ dr, z = { d with dram := dr } ∧ ∀ k o, (z.stack k).bad o = true → (d.stack k).bad o = true := by
      subst hz
      split
      · exact ⟨d.dram, rfl, fun _ _ h => h⟩
      · refine ⟨_, rfl, fun k o h => ?_⟩
        by_cases hk : k = t
        · subst hk; rw [Dev.stack_modStack] at h; exact Stack.bad_filter _ _ _ _ h
        · have : ∀ x, (d.putStack t x).stack k = d.stack k := by
            intro x; simp [Dev.stack, Dev.putStack, Dev.setDram, kget_kset_ne hk]
          unfold Dev.modStack at h; rw [this] at h; exact h
    obtain ⟨dr, h1, h2⟩ := hstep
    obtain ⟨dr', h3, h4⟩ := ih z
    exact ⟨dr', by rw [h3, h1], fun k o h => h2 k o (h4 k o h)⟩

theorem flatten_replicate_getD (p : Bytes) (hp : 0 < p.length) : ∀ (m i : Nat), i < m * p.length →
    (List.replicate m p).flatten.getD i 0 = p.getD (i % p.length) 0
  | 0, i, h => by omega
  | m + 1, i, h => by
    rw [List.replicate_succ, List.flatten_cons]
    by_cases hi : i < p.length
    · rw [List.getD_eq_getElem?_getD, List.getElem?_append_left hi, Nat.mod_eq_of_lt hi, List.getD_eq_getElem?_getD]
    · have hle : p.length ≤ i := by omega
      rw [List.getD_eq_getElem?_getD, List.getElem?_append_right hle, ← List.getD_eq_getElem?_getD, flatten_replicate_getD p hp m (i - p.length) (by rw [Nat.add_mul] at h; omega)]
      rw [Nat.mod_eq_sub_mod hle]

theorem Dev.sideCross_shape (d : Dev) (p k : Nat) (a : Nat) (h : ∀ j, d.cupShut p j = false) :
    (d.sideCross p k false a).1 = false ∧ ∃ u, (d.sideCross p k false a).2 = d.setCups u := by
  unfold Dev.sideCross Dev.crossCharge
  simp only [Bool.false_eq_true, if_false]
  have h2 : ∀ q a b n q2 a2 b2 n2, ∃ u, (d.charge q a b n).charge q2 a2 b2 n2 = d.setCups u := by
    intro q a b n q2 a2 b2 n2
    obtain ⟨u, hu⟩ := Dev.charge_shape d q a b n
    obtain ⟨v, hv⟩ := Dev.charge_shape (d.setCups u) q2 a2 b2 n2
    exact ⟨v, by rw [hu, hv]; rfl⟩
  split
  · split
    · exact ⟨h _, d.cups, rfl⟩
    · exact ⟨by simp [h], h2 _ _ _ _ _ _ _ _⟩
  · exact ⟨by simp [h], h2 _ _ _ _ _ _ _ _⟩
  · exact ⟨rfl, d.cups, rfl⟩

theorem Dev.crossRuns_shape (d : Dev) (p : Nat) (k : Option Nat) (l : List (Nat × Nat)) (h : ∀ j, d.cupShut p j = false) :
    (d.crossRuns p k false l).1 = false ∧ ∃ u, (d.crossRuns p k false l).2 = d.setCups u := by
  unfold Dev.crossRuns
  split
  · exact ⟨rfl, d.cups, rfl⟩
  · rename_i k
    have key : ∀ (m : List (Nat × Nat)) (u : KMap CupCnt), (m.foldl (fun (acc : Bool × Dev) s =>
        let z := acc.2.sideCross p k false s.1
        (acc.1 || z.1, z.2)) (false, d.setCups u)).1 = false ∧ ∃ v, (m.foldl (fun (acc : Bool × Dev) s =>
        let z := acc.2.sideCross p k false s.1
        (acc.1 || z.1, z.2)) (false, d.setCups u)).2 = d.setCups v := by
      intro m
      induction m with
      | nil => intro u; exact ⟨rfl, u, rfl⟩
      | cons s m ih =>
        intro u
        obtain ⟨h1, v, h2⟩ := Dev.sideCross_shape (d.setCups u) p k s.1 h
        rw [List.foldl_cons]
        dsimp only
        rw [h1, h2]
        exact ih v
    exact key _ d.cups

/-- Accesses change nothing that a cup is shut by. -/
theorem Dev.Accessed.cupShut {d d' : Dev} (h : d.Accessed d') (p j : Nat) : d'.cupShut p j = d.cupShut p j := by
  obtain ⟨t, e⟩ := h.tier p
  unfold Dev.cupShut
  rw [e]
  cases d.part p <;> rfl

/-- A crossing of the package, where no cup is shut, is charged and waits for nothing (R449, R472). -/
theorem Dev.crossCharge_shape (d : Dev) (p k a : Nat) (h : ∀ j, d.cupShut p j = false) :
    (d.crossCharge p k a).1 = false ∧ ∃ u, (d.crossCharge p k a).2 = d.setCups u := by
  have h2 : ∀ q a b n q2 a2 b2 n2, ∃ u, (d.charge q a b n).charge q2 a2 b2 n2 = d.setCups u := by
    intro q a b n q2 a2 b2 n2
    obtain ⟨u, hu⟩ := Dev.charge_shape d q a b n
    obtain ⟨v, hv⟩ := Dev.charge_shape (d.setCups u) q2 a2 b2 n2
    exact ⟨v, by rw [hu, hv]; rfl⟩
  unfold Dev.crossCharge
  split
  · split
    · exact ⟨h _, d.cups, rfl⟩
    · exact ⟨by simp [h], h2 _ _ _ _ _ _ _ _⟩
  · exact ⟨by simp [h], h2 _ _ _ _ _ _ _ _⟩
  · exact ⟨rfl, d.cups, rfl⟩

theorem Dev.packCross_shape (d : Dev) (p : Nat) (l : List (Nat × Nat × Nat)) (h : ∀ j, d.cupShut p j = false) :
    (d.packCross p l).1 = false ∧ ∃ u, (d.packCross p l).2 = d.setCups u := by
  have inner : ∀ (k : Nat) (m : List (Nat × Nat)) (u : KMap CupCnt), ∃ v, m.foldl (fun (acc : Bool × Dev) s =>
      let z := acc.2.crossCharge p k s.1
      (acc.1 || z.1, z.2)) (false, d.setCups u) = (false, d.setCups v) := by
    intro k m
    induction m with
    | nil => intro u; exact ⟨u, rfl⟩
    | cons s m ih =>
      intro u
      obtain ⟨h1, v, h2⟩ := Dev.crossCharge_shape (d.setCups u) p k s.1 h
      rw [List.foldl_cons]
      dsimp only
      rw [h1, h2]
      exact ih v
  have outer : ∀ (m : List (Nat × Nat × Nat)) (u : KMap CupCnt), ∃ v, m.foldl (fun (acc : Bool × Dev) w =>
      (sectorsOf w.2.1 w.2.2).foldl (fun (acc : Bool × Dev) s =>
        let z := acc.2.crossCharge p (w.1 / 8) s.1
        (acc.1 || z.1, z.2)) acc) (false, d.setCups u) = (false, d.setCups v) := by
    intro m
    induction m with
    | nil => intro u; exact ⟨u, rfl⟩
    | cons w m ih =>
      intro u
      obtain ⟨v, hv⟩ := inner (w.1 / 8) (sectorsOf w.2.1 w.2.2) u
      rw [List.foldl_cons, hv]
      exact ih v
  obtain ⟨v, hv⟩ := outer l d.cups
  unfold Dev.packCross
  have e : d.setCups d.cups = d := rfl
  rw [e] at hv
  rw [hv]
  exact ⟨rfl, v, rfl⟩

theorem sectors_total : ∀ (k a n : Nat), n + a % 64 ≤ 64 * k → ((sectors k a n).map (·.2)).sum = n
  | 0, a, n, h => by simp [sectors]; omega
  | k + 1, a, n, h => by
    unfold sectors
    split
    · rename_i h0; simp [h0]
    · dsimp only
      rw [List.map_cons, List.sum_cons]
      by_cases hn : n ≤ 64 - a % 64
      · rw [Nat.min_eq_left hn, Nat.sub_self]
        have : sectors k (a + n) 0 = [] := by cases k <;> rfl
        rw [this]; rfl
      · rw [Nat.min_eq_right (by omega), sectors_total k]
        · dsimp only; omega
        · have : (a + (64 - a % 64)) % 64 = 0 := by omega
          omega

theorem Dev.readPiece_length (d : Dev) (p : Nat) (e : Env) (a n : Nat) : (d.readPiece p e a n).1.bytes.length = n := by
  unfold Dev.readPiece
  split
  · simp [repByte]
  · simp [repByte]
  · dsimp only
    split
    · simp [repByte]
    · split
      · simp [repByte]
      · split
        · simp [repByte]
        · unfold Dev.deliver64; split <;> simp
  · split
    · simp [repByte]
    · simp

/-- A read gives as many bytes as it was asked for. -/
theorem Dev.read_length (d : Dev) (p : Nat) (e : Env) (a n : Nat) : (d.read p e a n).1.bytes.length = n := by
  have h := sectors_total (n / 64 + 2) a n (by have := Nat.mod_lt a (show 0 < 64 by decide); omega)
  have key : ∀ (l : List (Nat × Nat)) (x : Rd × Dev), (l.foldl (fun (acc : Rd × Dev) s =>
      let r := acc.2.readPiece p e s.1 s.2
      (acc.1.append r.1, r.2)) x).1.bytes.length = x.1.bytes.length + (l.map (·.2)).sum := by
    intro l
    induction l with
    | nil => intro x; rfl
    | cons s l ih =>
      intro x
      rw [List.foldl_cons, ih]
      simp [Rd.append, Dev.readPiece_length, Nat.add_assoc]
  unfold Dev.read
  rw [key]
  unfold sectorsOf
  rw [h]; simp

theorem Rd.nil_append (x : Rd) : ({ bytes := [] } : Rd).append x = x := by
  cases x; simp [Rd.append, Marks.join]

theorem Dev.writeMarked_clean (d : Dev) (p : Nat) (e : Env) (a : Nat) (b : Bytes) (h : 0 < b.length) :
    d.writeMarked p e a b [] = d.write p e a b := by
  unfold Dev.writeMarked
  have : segments b.length [] = [(0, b.length, false)] := by simp [segments, h]
  rw [this]
  simp [slice, Marks.join]

theorem Part.protected_prog (p : Part) (a i n : Nat) (h : Nat) (g : Prog) (hg : kfind p.progs h = some g) (ha : g.addr = a) (hs : g.size = n)
    (hi : i < n) : p.protected (a + i) 1 = true := by
  have hmem : ∀ (m : KMap Prog), kfind m h = some g → (h, g) ∈ m := by
    intro m
    induction m with
    | nil => intro h; cases h
    | cons x m ih =>
      obtain ⟨j, y⟩ := x
      unfold kfind
      split
      · rename_i hj; intro h2; cases h2; subst hj; simp
      · intro h2; exact List.mem_cons_of_mem _ (ih h2)
  unfold Part.protected
  dsimp only
  rw [Bool.or_eq_true]
  right
  rw [List.any_eq_true]
  refine ⟨(h, g), hmem _ hg, ?_⟩
  simp [ha, hs]; omega

/-- The command has ended, with whatever its marks say. -/
theorem Dev.finish_any (d : Dev) {r : CmdRef} {c : Cmd} (h : d.cmd r = some c) (st r0 r1 det : Nat) (dies : List Nat) :
    ∃ y, (d.finish r st r0 r1 det dies).cmd r = some y ∧ y.phase = .ended := ⟨_, Dev.cmd_finish d h st r0 r1 det dies, rfl⟩

theorem Dev.accessed_readList (d : Dev) (p : Nat) (l : List (Nat × Nat)) : d.Accessed (d.readList p l).2.2 := by
  unfold Dev.readList
  suffices h : ∀ (l : List (Nat × Nat)) (a : List Bytes × Marks × Dev), a.2.2.Accessed (l.foldl _ a).2.2 from h l ([], {}, d)
  intro l
  induction l with
  | nil => intro a; exact .rfl _
  | cons s l ih =>
    intro a
    rw [List.foldl_cons]
    refine Dev.Accessed.trans ?_ (ih _)
    exact Dev.accessed_read _ _ _ _ _

theorem ite_eq_or {α : Type} {p : Prop} [Decidable p] {a b x : α} (h : (if p then a else b) = x) : (p ∧ a = x) ∨ (¬p ∧ b = x) := by
  by_cases hp : p
  · rw [if_pos hp] at h; exact .inl ⟨hp, h⟩
  · rw [if_neg hp] at h; exact .inr ⟨hp, h⟩

/-- A GRAPH_RUN that its checks end has ended; one that they let through has a run of its own, and only its reads have
changed the device. -/
theorem Dev.graphCheck_cases {d : Dev} {r : CmdRef} {c : Cmd} {pg : Prog} (hc : d.cmd r = some c) :
    (∀ d', d.graphCheck r c pg = .inl d' → ∃ y, d'.cmd r = some y ∧ y.phase = .ended) ∧
    (∀ g, d.graphCheck r c pg = .inr g → d.Accessed g.dev ∧ g.run.cmd = some r ∧ g.run.part = r.f ∧ g.run.layer = c.f 0x0C 2 ∧
      g.run.index = c.f 0x0E 2 ∧ g.run.seed = c.f 0x30 8 ∧ g.run.limitMs = (d.fn r.f).sch.limitMs) := by
  generalize hz : d.graphCheck r c pg = z
  suffices hs : (∃ d', z = .inl d' ∧ ∃ y, d'.cmd r = some y ∧ y.phase = .ended) ∨ (∃ g, z = .inr g ∧ d.Accessed g.dev ∧ g.run.cmd = some r ∧
      g.run.part = r.f ∧ g.run.layer = c.f 0x0C 2 ∧ g.run.index = c.f 0x0E 2 ∧ g.run.seed = c.f 0x30 8 ∧ g.run.limitMs = (d.fn r.f).sch.limitMs) by
    rcases hs with ⟨d', h, hy⟩ | ⟨g, h, hy⟩
    · subst h; exact ⟨fun d2 h => by cases h; exact hy, fun g h => by cases h⟩
    · subst h; exact ⟨fun d2 h => (by cases h), fun g h => (by cases h; exact hy)⟩
  have e1 : ∀ (a b : Nat), (.inl (d.finish r a 0 0 b) : Dev ⊕ GraphGo) = z → ∃ d', z = .inl d' ∧ ∃ y, d'.cmd r = some y ∧ y.phase = .ended := by
    intro a b h; exact ⟨_, h.symm, Dev.finish_any _ hc _ _ _ _ _⟩
  have e2 : ∀ (x : Dev) (m : Marks), d.Accessed x → (.inl ((x.mark r m).finish r stSuccess) : Dev ⊕ GraphGo) = z →
      ∃ d', z = .inl d' ∧ ∃ y, d'.cmd r = some y ∧ y.phase = .ended := by
    intro x m hx h
    exact ⟨_, h.symm, Dev.finish_any _ (Dev.cmd_mark _ (by rw [hx.cmd]; exact hc) m) _ _ _ _ _⟩
  unfold Dev.graphCheck at hz
  extract_lets cores layer idx inst list img t n x0 mk plans turnAway fencedOff unread early z1 z2 lens x1 m2 many held z3 x2 count boxes rings z4 z5 m k give x3 at hz
  have e3 : ∀ (x : Run) (st : Nat), early x st = z → ∃ d', z = .inl d' ∧ ∃ y, d'.cmd r = some y ∧ y.phase = .ended := by
    intro x st h
    unfold early at h
    split at h
    · rcases ite_eq_or h with ⟨_, h⟩ | ⟨_, h⟩
      · exact e1 _ _ h
      · exact e1 _ _ h
    · exact e1 _ _ h
  rcases ite_eq_or hz with ⟨_, h⟩ | ⟨_, h⟩
  · exact .inl (e3 _ _ h)
  have a2 : d.Accessed z2.2.2 := (Dev.accessed_readList _ _ _).trans (Dev.accessed_readList _ _ _)
  rcases ite_eq_or h with ⟨_, h⟩ | ⟨_, h⟩
  · exact .inl (e1 _ _ h)
  rcases ite_eq_or h with ⟨_, h⟩ | ⟨_, h⟩
  · exact .inl (e2 _ _ a2 h)
  rcases ite_eq_or h with ⟨_, h⟩ | ⟨_, h⟩
  · split at h
    · rcases ite_eq_or h with ⟨_, h⟩ | ⟨_, h⟩
      · exact .inl (e1 _ _ h)
      · exact .inl (e1 _ _ h)
    · exact .inl (e1 _ _ h)
  rcases ite_eq_or h with ⟨_, h⟩ | ⟨_, h⟩
  · exact .inl (e3 _ _ h)
  have a3 : d.Accessed z3.2.2 := a2.trans (Dev.accessed_readList _ _ _)
  rcases ite_eq_or h with ⟨_, h⟩ | ⟨_, h⟩
  · exact .inl (e3 _ _ h)
  have a5 : d.Accessed z5.2.2 := (a3.trans (Dev.accessed_readList _ _ _)).trans (Dev.accessed_readList _ _ _)
  rcases ite_eq_or h with ⟨_, h⟩ | ⟨_, h⟩
  · exact .inl (e2 _ _ a5 h)
  generalize d.startFails r.f cores (plans x3) (startBases d x3) z4.1 true = o at h
  cases o with
  | some st => exact .inl (e1 _ _ h)
  | none =>
    dsimp -zeta only at h
    rcases ite_eq_or h with ⟨_, h⟩ | ⟨_, h⟩
    · exact .inl (e1 _ _ h)
    rcases ite_eq_or h with ⟨_, h⟩ | ⟨_, h⟩
    · exact .inl (e2 _ _ (.rfl d) h)
    exact .inr ⟨_, h.symm, a5, rfl, rfl, rfl, rfl, rfl, rfl⟩

theorem Dev.accessed_blurPot (d : Dev) (p g a n : Nat) : d.Accessed (d.blurPot p g a n) := by
  unfold Dev.blurPot
  split
  · exact (Dev.accessed_freeBytes d n).trans (Dev.accessed_potPut _ _ _ _ _)
  · exact .rfl d

theorem Dev.prefetch_shape (d : Dev) (p : Nat) (g : Prog) (l : Nat) : ∃ x, d.prefetch p g l = d.setParts x := by
  unfold Dev.prefetch
  split
  · exact ⟨_, rfl⟩
  · exact ⟨d.parts, rfl⟩

theorem Dev.foldl_hot : ∀ (l : List Nat) (d : Dev), ∃ x, l.foldl (fun d g => d.modCore g (fun c => { c with clk := .hot })) d = d.setCores x ∧
    (∀ g, (d.core g).clk = .hot → ((d.setCores x).core g).clk = .hot) ∧ ∀ g ∈ l, ((d.setCores x).core g).clk = .hot
  | [], d => ⟨d.cores, rfl, fun _ h => h, by simp⟩
  | a :: l, d => by
    obtain ⟨x, h1, h2, h3⟩ := Dev.foldl_hot l (d.modCore a (fun c => { c with clk := .hot }))
    have hk : ∀ g, (d.core g).clk = .hot ∨ g = a → ((d.modCore a (fun c => { c with clk := .hot })).core g).clk = .hot := by
      intro g hg
      by_cases h : g = a
      · subst h; simp
      · have := hg.resolve_right h
        unfold Dev.modCore; rw [Dev.core_putCore_ne _ h]; exact this
    refine ⟨x, h1, fun g h => h2 g (hk g (.inl h)), fun g h => ?_⟩
    rcases List.mem_cons.mp h with rfl | h
    · exact h2 g (hk g (.inr rfl))
    · exact h3 g h

/-- A run that looks for its stockpot space keeps what it is; so does every command and every core. -/
theorem Dev.grant_run (d : Dev) (rid : Nat) (x : Run) (h : d.run rid = some x) :
    ∃ y, (d.grant rid).run rid = some y ∧ (d.grant rid).nextRun = d.nextRun ∧ (d.grant rid).qps = d.qps ∧ (d.grant rid).cores = d.cores ∧
      (∃ cs w, y = { x with cores := cs, waits := w } ∧ ∀ k ∈ cs, ∃ j ∈ x.cores, k.core = j.core) := by
  unfold Dev.grant
  rw [h]
  dsimp -zeta only
  split
  · exact ⟨x, h, rfl, rfl, rfl, x.cores, x.waits, rfl, fun k hk => ⟨k, hk, rfl⟩⟩
  · split
    · exact ⟨x, h, rfl, rfl, rfl, x.cores, x.waits, rfl, fun k hk => ⟨k, hk, rfl⟩⟩
    · rename_i places _
      extract_lets cs own d1
      have a : d.Accessed d1 := by
        show d.Accessed (if own then _ else d)
        split
        · exact Dev.Accessed.foldl _ (fun d c => Dev.accessed_blurPot d _ _ _ _) _ d
        · exact .rfl d
      refine ⟨{ x with cores := cs, waits := false }, ?_, a.nextRun, a.qps, a.cores, cs, false, rfl, ?_⟩
      · unfold Dev.run Dev.putRun Dev.setRuns; exact kfind_kset_self _ _ _
      · intro k hk
        obtain ⟨z, hz, rfl⟩ := List.mem_map.mp hk
        exact ⟨z.1, (List.of_mem_zip hz).1, rfl⟩

/-- A run that starts: it has the next number, its cores run hot, and no command changes. -/
theorem Dev.launch_run (d : Dev) (x : Run) (pg : Prog) (pot : Nat) :
    ∃ y, (d.launch x pg pot).run d.nextRun = some y ∧ (d.launch x pg pot).nextRun = d.nextRun + 1 ∧
      (d.launch x pg pot).qps = d.qps ∧ y.cmd = x.cmd ∧ y.part = x.part ∧ y.layer = x.layer ∧ y.index = x.index ∧
      y.seed = x.seed ∧ y.limitMs = x.limitMs ∧ (y.last = x.last ∧ y.stage = x.stage ∧ y.batch = x.batch ∧ y.ctxs = x.ctxs) ∧
      y.ended = x.ended ∧ (∀ k ∈ y.cores, ((d.launch x pg pot).core k.core).clk = .hot) := by
  unfold Dev.launch
  extract_lets cs d1 d2
  obtain ⟨cx, h1, _, h3⟩ := Dev.foldl_hot (x.cores.map (·.core)) d
  have hd1 : d1 = d.setCores cx := h1
  have hn : d1.nextRun = d.nextRun := by rw [hd1]; rfl
  obtain ⟨px, hp⟩ := Dev.prefetch_shape ({ d2 with nextRun := d2.nextRun + 1 } : Dev) x.part pg x.layer
  rw [hp, hn]
  have hr : (({ d2 with nextRun := d2.nextRun + 1 } : Dev).setParts px).run d.nextRun = some { x with cores := cs, waits := true, need := pot } := by
    show kfind (kset d1.runs d1.nextRun _) d.nextRun = _
    rw [hn]; exact kfind_kset_self _ _ _
  obtain ⟨y, g1, g2, g3, g4, ks, w, g5, g6⟩ := Dev.grant_run _ d.nextRun _ hr
  refine ⟨y, g1, by rw [g2]; show d1.nextRun + 1 = _; rw [hn], by rw [g3]; show d1.qps = _; rw [hd1]; rfl, ?_, ?_, ?_, ?_, ?_, ?_, ?_, ?_, ?_⟩
  all_goals subst g5
  · rfl
  · rfl
  · rfl
  · rfl
  · rfl
  · rfl
  · exact ⟨rfl, rfl, rfl, rfl⟩
  · rfl
  · intro k hk
    obtain ⟨j, hj, e⟩ := g6 k hk
    rw [e]
    have hc : ∀ g, (Dev.grant (({ d2 with nextRun := d2.nextRun + 1 } : Dev).setParts px) d.nextRun).core g = (d.setCores cx).core g := by
      intro g; unfold Dev.core; rw [g4]; show kget d1.cores _ _ = _; rw [hd1]
    rw [hc]
    refine h3 _ ?_
    obtain ⟨z, hz, rfl⟩ := List.mem_map.mp hj
    refine List.mem_map.mpr ⟨z, hz, ?_⟩
    split <;> rfl

theorem Dev.accessed_packRead (d : Dev) (p : Nat) (e : Env) (x : PackRec) : d.Accessed (d.packRead p e x).2.2 := by
  unfold Dev.packRead
  suffices h : ∀ (l : List (Nat × Nat)) (a : List Bytes × Marks × Dev), a.2.2.Accessed (l.foldl _ a).2.2 from h x.runs ([], {}, d)
  intro l
  induction l with
  | nil => intro a; exact .rfl _
  | cons s l ih =>
    intro a
    rw [List.foldl_cons]
    refine Dev.Accessed.trans ?_ (ih _)
    exact Dev.accessed_read _ _ _ _ _

theorem Dev.raced_writeList (d : Dev) (p : Nat) (e : Env) (l : List (Nat × Bytes)) : d.Raced (d.writeList p e l).2 := by
  unfold Dev.writeList
  refine Dev.Raced.foldl_snd _ ?_ _ (({}, d) : Marks × Dev)
  intro x z
  split
  · exact .rfl _
  · exact Dev.raced_writeRaced _ _ _ _ _

/-- The second pass of a PACK ends the command. -/
theorem Dev.packWrite_ends (d : Dev) {r : CmdRef} {c : Cmd} (h : d.cmd r = some c) (e : Env) (x : PackRec) (tb : List (List Nat)) (dies : List Nat) :
    ∃ y, (d.packWrite r e x tb dies).cmd r = some y ∧ y.phase = .ended := by
  unfold Dev.packWrite
  extract_lets p w0 z parts stored dir hdr w1 m w2
  have a1 : d.Raced w1.2 := ((Dev.raced_writeRaced _ _ _ _ _).trans (Dev.accessed_packRead _ _ _ _).raced).trans (Dev.raced_writeList _ _ _ _)
  split
  · have a2 : d.Raced w2.2 := a1.trans (Dev.raced_writeRaced _ _ _ _ _)
    exact Dev.finish_any _ (Dev.cmd_mark _ (by rw [a2.cmd]; exact h) _) _ _ _ _ _
  · exact Dev.finish_any _ (Dev.cmd_mark _ (by rw [a1.cmd]; exact h) _) _ _ _ _ _

theorem Dev.packLate_ends (d : Dev) {r : CmdRef} {c : Cmd} (h : d.cmd r = some c) (x : PackRec) (dies : List Nat) :
    ∃ y, (d.packLate r x dies).cmd r = some y ∧ y.phase = .ended ∧ (c.marks = {} → y.status = stTimeLimit) := by
  unfold Dev.packLate
  extract_lets f
  have a1 := (Dev.accessed_freeBytes d (min x.need x.dstBytes - 4)).raced.trans (Dev.raced_writeList f.2 r.f Env.clean [(x.dst, leBytes 4 0), (x.dst + 4, f.1)])
  refine ⟨_, Dev.cmd_finish _ (Dev.cmd_mark _ (c := c) (by rw [a1.cmd]; exact h) _) _ _ _ _ _, rfl, ?_⟩
  intro hm
  rw [hm]; rfl

theorem Dev.leaveCores_shape : ∀ (l : List Nat) (d : Dev), ∃ x, l.foldl (fun d g => d.leaveCore g) d = d.setCores x
  | [], d => ⟨d.cores, rfl⟩
  | a :: l, d => by
    have h1 : ∃ x, d.leaveCore a = d.setCores x := by
      unfold Dev.leaveCore; split
      · exact ⟨d.cores, rfl⟩
      · exact ⟨_, rfl⟩
    obtain ⟨x, h1⟩ := h1
    obtain ⟨y, h2⟩ := Dev.leaveCores_shape l (d.setCores x)
    exact ⟨y, by rw [List.foldl_cons, h1, h2]; rfl⟩

end Sys2Proof.Machine
end

