-- ==== Sys2Proof/Laws/Contexts.lean ====
section
/-!
SUPPORT. What one operation on a context may touch: that context, its pair's queue and the partition's queues, and no other
context.
-/

namespace Sys2Proof.Machine

/-- What a context keeps while it comes to rest, becomes runnable or is freed. -/
def Ctx.core (c : Ctx) : Ctx :=
  { c with cstate := 0, block := 0, blockTime := 0, bucket := 0, hold := false, normHold := false, retire := false,
           pinned := false, resident := false, report := false, readyAt := 0 }

/-- An operation on context `i` that leaves it at `v`, up to its state. -/
structure Dev.Touches (i : Nat) (v : Ctx) (d d' : Dev) : Prop where
  others : ∀ k, k ≠ i → d'.ctx k = d.ctx k
  cmds : ∀ r c, d.cmd r = some c → c.phase = .waiting → ∃ l, d'.cmd r = some { c with retiring := l }
  mine : (d'.ctx i).core = v.core
  runs : d'.runs = d.runs

theorem Dev.Touches.same {d d' : Dev} (i : Nat) (hc : d'.ctxs = d.ctxs)
    (hq : ∀ r, d'.cmd r = d.cmd r) (hr : d'.runs = d.runs) : Dev.Touches i (d.ctx i) d d' := by
  refine ⟨fun k _ => ?_, fun r c h _ => ⟨c.retiring, ?_⟩, ?_, hr⟩
  · unfold Dev.ctx; rw [hc]
  · rw [hq r, h]
  · unfold Dev.ctx; rw [hc]

theorem Dev.Touches.trans {i : Nat} {v w : Ctx} {a b c : Dev} (h : Dev.Touches i v a b) (k : Dev.Touches i w b c) :
    Dev.Touches i w a c := by
  refine ⟨fun j hj => by rw [k.others j hj, h.others j hj], fun r x hx hp => ?_, k.mine, k.runs.trans h.runs⟩
  obtain ⟨l, hl⟩ := h.cmds r x hx hp
  obtain ⟨m, hm⟩ := k.cmds r _ hl hp
  exact ⟨m, hm⟩

theorem Dev.Touches.keep {i : Nat} {v : Ctx} {a b c : Dev} (h : Dev.Touches i v a b) (k : Dev.Touches i (b.ctx i) b c) :
    Dev.Touches i v a c :=
  ⟨(h.trans k).others, (h.trans k).cmds, by rw [k.mine]; exact h.mine, k.runs.trans h.runs⟩

theorem Dev.putCtx_ctxs (d : Dev) (i : Nat) (c : Ctx) : (d.putCtx i c).ctxs = kset d.ctxs i c := by
  unfold Dev.putCtx
  dsimp only
  split
  · rfl
  · split
    · exact (Dev.accessed_store _ _ _ _ _).ctxs
    · rfl

theorem Dev.putCtx_runs (d : Dev) (i : Nat) (c : Ctx) : (d.putCtx i c).runs = d.runs := by
  unfold Dev.putCtx
  dsimp only
  split
  · rfl
  · split
    · exact (Dev.accessed_store _ _ _ _ _).runs
    · rfl

theorem Dev.ctx_putCtx (d : Dev) (i : Nat) (c : Ctx) : (d.putCtx i c).ctx i = c := by
  unfold Dev.ctx; rw [Dev.putCtx_ctxs]; exact kget_kset_self _ _ _ _

theorem Dev.ctx_putCtx_ne (d : Dev) {i k : Nat} (h : k ≠ i) (c : Ctx) : (d.putCtx i c).ctx k = d.ctx k := by
  unfold Dev.ctx; rw [Dev.putCtx_ctxs]; exact kget_kset_ne h _ _ _

theorem Dev.cmd_putCtx (d : Dev) (i : Nat) (c : Ctx) (r : CmdRef) : (d.putCtx i c).cmd r = d.cmd r := by
  unfold Dev.putCtx
  dsimp only
  split
  · rfl
  · split
    · exact (Dev.accessed_store _ _ _ _ _).cmd r
    · rfl

theorem Dev.touches_putCtx (d : Dev) (i : Nat) (c : Ctx) : Dev.Touches i c d (d.putCtx i c) :=
  ⟨fun k hk => Dev.ctx_putCtx_ne d hk c, fun r x h _ => ⟨x.retiring, by rw [Dev.cmd_putCtx, h]⟩, by rw [Dev.ctx_putCtx], Dev.putCtx_runs _ _ _⟩

theorem Dev.ctxs_modQp (d : Dev) (f q : Nat) (g : Qp → Qp) : (d.modQp f q g).ctxs = d.ctxs := by
  unfold Dev.modQp; split <;> rfl

theorem Dev.ctxs_finish (d : Dev) (r : CmdRef) (st r0 r1 det : Nat) (dies : List Nat) :
    (d.finish r st r0 r1 det dies).ctxs = d.ctxs := Dev.ctxs_modQp _ _ _ _

theorem Dev.ctx_finish (d : Dev) (r : CmdRef) (st r0 r1 det : Nat) (dies : List Nat) (i : Nat) :
    (d.finish r st r0 r1 det dies).ctx i = d.ctx i := by unfold Dev.ctx; rw [Dev.ctxs_finish]

theorem Dev.modPart_shape (d : Dev) (p : Nat) (g : Part → Part) : ∃ m, d.modPart p g = d.setParts m := by
  unfold Dev.modPart
  split
  · exact ⟨_, rfl⟩
  · exact ⟨d.parts, rfl⟩

theorem Dev.ctxs_modPart (d : Dev) (p : Nat) (g : Part → Part) : (d.modPart p g).ctxs = d.ctxs :=
  by obtain ⟨m, h⟩ := Dev.modPart_shape d p g; rw [h]; rfl

theorem Dev.cmd_modPart (d : Dev) (p : Nat) (g : Part → Part) (r : CmdRef) : (d.modPart p g).cmd r = d.cmd r :=
  by obtain ⟨m, h⟩ := Dev.modPart_shape d p g; rw [h]; rfl

theorem Dev.touches_modPart (d : Dev) (i p : Nat) (g : Part → Part) : Dev.Touches i (d.ctx i) d (d.modPart p g) :=
  Dev.Touches.same i (Dev.ctxs_modPart d p g) (Dev.cmd_modPart d p g) (by obtain ⟨m, h⟩ := Dev.modPart_shape d p g; rw [h]; rfl)

theorem qpKey_cmd {r : CmdRef} {f q : Nat} {d d' : Dev} {x y : Qp} (hx : d.qp f q = some x) (hy : y.cmds = x.cmds)
    (hd : d'.qps = kset d.qps (qpKey f q) y) : d'.cmd r = d.cmd r := by
  unfold Dev.cmd Dev.qp
  rw [hd]
  by_cases h : qpKey r.f r.q = qpKey f q
  · unfold Dev.qp at hx
    rw [h, kfind_kset_self, hx]
    simp [hy]
  · rw [kfind_kset_ne h]

theorem Dev.post_keeps (d : Dev) (f q r0 tag st r1 det fl : Nat) (ni : Bool) :
    (d.post f q r0 tag st r1 det fl ni).ctxs = d.ctxs ∧ (∀ r, (d.post f q r0 tag st r1 det fl ni).cmd r = d.cmd r) ∧
      (d.post f q r0 tag st r1 det fl ni).runs = d.runs := by
  unfold Dev.post
  split
  · exact ⟨rfl, fun _ => rfl, rfl⟩
  · split
    · exact ⟨rfl, fun _ => rfl, rfl⟩
    · rename_i x hx _
      dsimp only
      split
      · exact ⟨rfl, fun r => qpKey_cmd hx (y := { x with cqTail := (x.cqTail + 1) % x.cqSize, phase := _ }) rfl rfl, rfl⟩
      · refine ⟨(Dev.reports_setLine _ _ _ _).ctxs, fun r => ?_, (Dev.reports_setLine _ _ _ _).runs⟩
        exact qpKey_cmd hx (y := { x with cqTail := (x.cqTail + 1) % x.cqSize, phase := _ }) rfl
          ((Dev.reports_setLine _ _ _ _).qps.trans rfl)

theorem Dev.ctxCompletion_keeps (d : Dev) (i : Nat) :
    (d.ctxCompletion i).ctxs = d.ctxs ∧ (∀ r, (d.ctxCompletion i).cmd r = d.cmd r) ∧ (d.ctxCompletion i).runs = d.runs := by
  unfold Dev.ctxCompletion
  split
  · exact ⟨rfl, fun _ => rfl, rfl⟩
  · split
    · exact ⟨rfl, fun _ => rfl, rfl⟩
    · rename_i x hx
      split
      · exact Dev.post_keeps d _ _ _ _ _ _ _ _ _
      · exact ⟨rfl, fun r => qpKey_cmd hx (y := { x with deferred := insertSorted i x.deferred }) rfl rfl, rfl⟩

theorem Dev.touches_completion (d : Dev) (i k : Nat) : Dev.Touches i (d.ctx i) d (d.ctxCompletion k) :=
  Dev.Touches.same i (Dev.ctxCompletion_keeps d k).1 (Dev.ctxCompletion_keeps d k).2.1 (Dev.ctxCompletion_keeps d k).2.2

/-- A context that comes to rest keeps all but its state. -/
theorem Dev.touches_restCtx (d : Dev) (p i st blk : Nat) (g : Ctx → Ctx) :
    Dev.Touches i (g (d.ctx i)) d (d.restCtx p i st blk g) := by
  unfold Dev.restCtx
  extract_lets c d1 d2
  have h1 : Dev.Touches i (g (d.ctx i)) d d1 := by
    have := Dev.touches_putCtx d i { c with cstate := st, block := blk, blockTime := d.jdAo i }
    exact ⟨this.others, this.cmds, this.mine, this.runs⟩
  have h2 : Dev.Touches i (g (d.ctx i)) d d2 := by
    show Dev.Touches i _ d (if c.pinned then d1 else d1.modPart p _)
    split
    · exact h1
    · exact h1.keep (Dev.touches_modPart _ _ _ _)
  split
  · exact h2.keep (Dev.touches_completion _ _ _)
  · exact h2

theorem Dev.ctx_core_of {v : Ctx} {d d' : Dev} {i : Nat} (h : Dev.Touches i v d d') (hv : v.core = (d.ctx i).core) :
    Dev.Touches i (d.ctx i) d d' := ⟨h.others, h.cmds, by rw [h.mine, hv], h.runs⟩

theorem Dev.touches_toRun (d : Dev) (p i : Nat) : Dev.Touches i (d.ctx i) d (d.toRun p i) := by
  unfold Dev.toRun
  split
  · exact Dev.Touches.same i rfl (fun _ => rfl) rfl
  · dsimp only
    split
    · exact Dev.ctx_core_of (Dev.touches_restCtx d p i 4 3 _) rfl
    · split
      · exact Dev.touches_restCtx d p i 4 1 id
      · have h1 : ∀ b a, Dev.Touches i (d.ctx i) d (d.putCtx i { d.ctx i with cstate := 2, block := 0, bucket := b, readyAt := a }) :=
          fun b a => Dev.ctx_core_of (Dev.touches_putCtx d i _) rfl
        split
        · exact h1 _ _
        · exact (h1 _ _).keep (Dev.touches_modPart _ _ _ _)

theorem Dev.touches_settle (d : Dev) (p i : Nat) : Dev.Touches i (d.ctx i) d (d.settle p i) := by
  unfold Dev.settle
  dsimp only
  split
  · exact Dev.ctx_core_of (Dev.touches_restCtx d p i 4 3 _) rfl
  · split
    · exact Dev.touches_restCtx d p i 1 0 id
    · exact Dev.touches_toRun d p i

theorem kfind_map_val {α : Type} (g : Nat → α → α) (k : Nat) : ∀ m : KMap α,
    kfind (m.map (fun e => (e.1, g e.1 e.2))) k = (kfind m k).map (g k)
  | [] => rfl
  | (j, x) :: m => by
    simp only [List.map_cons, kfind]
    by_cases h : j = k
    · subst h; simp
    · simp only [h, if_false]; exact kfind_map_val g k m

theorem Cmd.retired_k (c : Cmd) (i : Nat) : (c.retired i).k = c.k := by
  unfold Cmd.retired; dsimp only; split <;> rfl

theorem Cmd.retired_waiting (c : Cmd) (i : Nat) (h : c.phase = .waiting) : ∃ l, c.retired i = { c with retiring := l } := by
  unfold Cmd.retired; dsimp only
  have : ¬ (c.phase = .running ∧ c.op = 0x26 ∧ (c.retiring.filter (· != i)).isEmpty) := by rw [h]; simp
  exact ⟨_, by rw [if_neg this]⟩

theorem Dev.qp_modPairs (d : Dev) (f : Nat) (g : Qp → Qp) (h q : Nat) :
    (d.modPairs f g).qp h q = (d.qp h q).map (fun x => if qpKey h q / 128 = f then g x else x) := by
  have e : d.qps.map (fun e => if e.1 / 128 = f then (e.1, g e.2) else e)
      = d.qps.map (fun e => (e.1, if e.1 / 128 = f then g e.2 else e.2)) := by
    apply List.map_congr_left; intro e _; split <;> rfl
  unfold Dev.modPairs Dev.qp
  show kfind (d.qps.map _) _ = _
  rw [e, kfind_map_val (fun k x => if k / 128 = f then g x else x)]

theorem Dev.cmds_modPairs (d : Dev) (f i : Nat) (r : CmdRef) (c : Cmd) (h : d.cmd r = some c) (hp : c.phase = .waiting) :
    ∃ l, (d.modPairs f (fun q => { q with cmds := q.cmds.map (fun c => c.retired i) })).cmd r = some { c with retiring := l } := by
  unfold Dev.cmd at h ⊢
  rw [Dev.qp_modPairs]
  cases hk : d.qp r.f r.q with
  | none => rw [hk] at h; cases h
  | some x =>
    rw [hk] at h
    simp only [Option.map_some, Option.bind_some] at h ⊢
    split
    · obtain ⟨l, hl⟩ := Cmd.retired_waiting c i hp
      refine ⟨l, ?_⟩
      show (x.cmds.map _).find? _ = _
      rw [List.find?_map]
      have : ((fun c : Cmd => c.k == r.k) ∘ fun c : Cmd => c.retired i) = fun c : Cmd => c.k == r.k := by
        funext z; simp [Cmd.retired_k]
      rw [this, h]; simp [hl]
    · exact ⟨c.retiring, h⟩

theorem Dev.touches_freeCtx (d : Dev) (i : Nat) : Dev.Touches i (d.ctx i) d (d.freeCtx i) := by
  unfold Dev.freeCtx
  dsimp only
  split
  · exact Dev.ctx_core_of (Dev.touches_putCtx d i _) rfl
  · rename_i p _ _
    have h1 : Dev.Touches i (d.ctx i) d (d.modPart p (fun x => x.leave i)) := Dev.touches_modPart d i p _
    have h2 := fun c => h1.trans (Dev.touches_putCtx (d.modPart p (fun x => x.leave i)) i c)
    refine ⟨(h2 _).others, fun r y hy hp => ?_, (h2 _).mine, (h2 _).runs⟩
    obtain ⟨l, hl⟩ := (h2 _).cmds r y hy hp
    obtain ⟨m, hm⟩ := Dev.cmds_modPairs _ p i r _ hl hp
    exact ⟨m, hm⟩

theorem Dev.freeCtx_free (d : Dev) (i : Nat) : ((d.freeCtx i).ctx i).cstate = 0 := by
  unfold Dev.freeCtx
  dsimp only
  split
  · rw [Dev.ctx_putCtx]
  · have : ∀ (e : Dev) f g, (Dev.modPairs e f g).ctx i = e.ctx i := fun _ _ _ => rfl
    rw [this, Dev.ctx_putCtx]

/-- Operations on a list of contexts, one after the other: a context outside the list is as it was. -/
structure Dev.TouchesAll (l : List Nat) (d d' : Dev) : Prop where
  others : ∀ k, k ∉ l → d'.ctx k = d.ctx k
  cmds : ∀ r c, d.cmd r = some c → c.phase = .waiting → ∃ l, d'.cmd r = some { c with retiring := l }
  runs : d'.runs = d.runs

/-- What a fold of operations on contexts, each on its own one, gives: `P` holds of each context's value before and after. -/
theorem Dev.touches_foldl (f : Dev → Nat → Dev) (v : Dev → Nat → Ctx) (h : ∀ d i, Dev.Touches i (v d i) d (f d i)) :
    ∀ (l : List Nat) (d : Dev), Dev.TouchesAll l d (l.foldl f d)
  | [], d => ⟨fun _ _ => rfl, fun r c hc _ => ⟨c.retiring, hc⟩, rfl⟩
  | i :: l, d => by
    have a := h d i
    have b := Dev.touches_foldl f v h l (f d i)
    refine ⟨fun k hk => ?_, fun r c hc hp => ?_, b.runs.trans a.runs⟩
    · rw [List.foldl_cons, b.others k (by simp_all), a.others k (by simp_all)]
    · obtain ⟨m, hm⟩ := a.cmds r c hc hp
      obtain ⟨n, hn⟩ := b.cmds r _ hm hp
      exact ⟨n, hn⟩

/-- In a list without repeats what one operation does to its own context is what the whole fold does to it. -/
theorem Dev.touches_foldl_rel (f : Dev → Nat → Dev) (v : Dev → Nat → Ctx) (h : ∀ d i, Dev.Touches i (v d i) d (f d i))
    (R : Ctx → Ctx → Prop) (hR : ∀ d i, R (d.ctx i) ((f d i).ctx i)) :
    ∀ (l : List Nat) (d : Dev), l.Nodup → ∀ i ∈ l, R (d.ctx i) ((l.foldl f d).ctx i)
  | [], _, _, i, hi => by cases hi
  | j :: l, d, hn, i, hi => by
    rw [List.foldl_cons]
    obtain ⟨hj, hl⟩ := List.nodup_cons.1 hn
    by_cases e : i = j
    · subst e
      rw [(Dev.touches_foldl f v h l (f d i)).others i hj]; exact hR d i
    · have hi' : i ∈ l := by simp_all
      have := Dev.touches_foldl_rel f v h R hR l (f d j) hl i hi'
      rwa [(h d j).others i e] at this

theorem Dev.touchesAll_finish {l : List Nat} {d d' : Dev} (h : Dev.TouchesAll l d d') {r : CmdRef} {c : Cmd} (hc : d.cmd r = some c)
    (hp : c.phase = .waiting) (hm : c.marks = {}) {st : Nat} (k : Nat) (hst : st ≠ stPoisoned) :
    (d'.finish r st k).Ended r st k 0 0 := by
  obtain ⟨m, hx⟩ := h.cmds r c hc hp
  exact Dev.ended_finish d' hx hm hst k 0 0 []

theorem Dev.byHandle_ctxs {d d' : Dev} (h : d'.ctxs = d.ctxs) (x : Part) (w : Nat) : d'.byHandle x w = d.byHandle x w := by
  unfold Dev.byHandle Dev.ctx; rw [h]

theorem findIdx_isNone_of_map {α β : Type} (g : α → Option β) (l : List α) (ids : List β) (h : l.map g = ids.map some) :
    (l.map g).findIdx? Option.isNone = none ∧ (l.map g).filterMap id = ids := by
  rw [h]
  refine ⟨?_, ?_⟩
  · rw [List.findIdx?_eq_none_iff]
    intro x hx
    obtain ⟨y, _, rfl⟩ := List.mem_map.1 hx
    rfl
  · rw [List.filterMap_map]; simp

theorem findIdx_map {α β : Type} (g : α → β) (p : β → Bool) (l : List α) : (l.map g).findIdx? p = l.findIdx? (fun a => p (g a)) := by
  rw [List.findIdx?_map]; rfl

/-- Contexts freed one after the other are all FREE. -/
theorem Dev.foldl_free : ∀ (l : List Nat) (d : Dev), ∀ i ∈ l, ((l.foldl (fun d i => d.freeCtx i) d).ctx i).cstate = 0
  | [], _, i, h => by cases h
  | j :: l, d, i, h => by
    rw [List.foldl_cons]
    by_cases hi : i ∈ l
    · exact Dev.foldl_free l _ i hi
    · have e : i = j := by simp_all
      subst e
      rw [(Dev.touches_foldl _ (fun d i => d.ctx i) Dev.touches_freeCtx l _).others i hi]
      exact Dev.freeCtx_free d i

theorem Dev.rollOne_touches (d : Dev) (r : CmdRef) (c : Cmd) (i : Nat) : ∃ v, Dev.Touches i v d (d.rollOne r c i).1 ∧
    v.step = (d.ctx i).step ∧ v.target = min ((d.ctx i).target + c.f 0x1C 4) stepMax ∧ v.qp = r.q ∧ v.tag = c.tag ∧
    v.inputSem = c.f 0x28 8 ∧ v.inputBase = c.f 0x30 8 := by
  unfold Dev.rollOne
  extract_lets x steps released y d1 d2
  have h1 : Dev.Touches i y d d1 := Dev.touches_putCtx d i y
  have hy : d1.ctx i = y := Dev.ctx_putCtx _ _ _
  have fields : y.step = (d.ctx i).step ∧ y.target = min ((d.ctx i).target + c.f 0x1C 4) stepMax ∧ y.qp = r.q ∧ y.tag = c.tag ∧
    y.inputSem = c.f 0x28 8 ∧ y.inputBase = c.f 0x30 8 := ⟨rfl, rfl, rfl, rfl, rfl, rfl⟩
  show ∃ v, Dev.Touches i v d d2 ∧ _
  by_cases c1 : y.step = stepMax ∧ steps ≠ 0
  · refine ⟨{ y with lastStatus := stStepLimit }, ?_, fields⟩
    have : d2 = d1.faultCtx r.f i stStepLimit := if_pos c1
    rw [this]
    have k := Dev.touches_restCtx d1 r.f i 5 0 (fun c => { c with lastStatus := stStepLimit })
    rw [hy] at k
    exact h1.trans k
  · by_cases c2 : x.cstate = 5
    · by_cases c3 : x.lastStatus = stStepLimit
      · have : d2 = d1 := by show (if _ then _ else if _ then if _ then _ else _ else _) = _; rw [if_neg c1, if_pos c2, if_pos c3]
        exact ⟨y, by rw [this]; exact h1, fields⟩
      · have : d2 = (d1.putCtx i { y with point := 0 }).settle r.f i := by
          show (if _ then _ else if _ then if _ then _ else _ else _) = _; rw [if_neg c1, if_pos c2, if_neg c3]
        refine ⟨{ y with point := 0 }, ?_, fields⟩
        rw [this]
        exact (h1.trans (Dev.touches_putCtx d1 i { y with point := 0 })).keep (Dev.touches_settle _ _ _)
    · refine ⟨y, ?_, fields⟩
      have : d2 = if (x.cstate = 1 ∧ y.step < y.target) ∨ released ∨ ((x.cstate = 1 ∨ x.cstate = 2) ∧ y.hold ∧ y.point = 0) then d1.settle r.f i else d1 := by
          show (if _ then _ else if _ then _ else _) = _; rw [if_neg c1, if_neg c2]
      rw [this]
      split
      · exact h1.keep (Dev.touches_settle _ _ _)
      · exact h1

theorem Dev.rollAll_fst (r : CmdRef) (c : Cmd) : ∀ (l : List Nat) (d : Dev) (n : Nat),
    (l.foldl (fun (acc : Dev × Nat) i => ((acc.1.rollOne r c i).1, acc.2 + b2n (acc.1.rollOne r c i).2)) (d, n)).1 =
      l.foldl (fun d i => (d.rollOne r c i).1) d
  | [], _, _ => rfl
  | i :: l, d, n => by rw [List.foldl_cons, List.foldl_cons]; exact Dev.rollAll_fst r c l _ _

theorem Dev.rollAll_one (d : Dev) (r : CmdRef) (c : Cmd) (l : List Nat) :
    (d.rollAll r c l).1 = l.foldl (fun d i => (d.rollOne r c i).1) d := Dev.rollAll_fst r c l d 0

theorem Dev.part_putCtx_res (d : Dev) (i : Nat) (c : Ctx) (h : c.resident = true) (p : Nat) : (d.putCtx i c).part p = d.part p := by
  unfold Dev.putCtx; dsimp only; rw [h]; rfl

theorem Dev.modPart_some (d : Dev) {p : Nat} {x : Part} (h : d.part p = some x) (g : Part → Part) : d.modPart p g = d.putPart p (g x) := by
  unfold Dev.modPart; rw [h]

theorem Dev.closeBatch_facts (d : Dev) (p b : Nat) (x : Part) (z : Batch) (hx : d.part p = some x) (hz : kfind x.batches b = some z) :
    ∃ y w, (d.closeBatch p b).part p = some y ∧ kfind y.batches b = some w ∧ w.closed = true ∧ w.prog = z.prog ∧ w.point = z.point ∧
      w.bucket = z.bucket ∧ (d.closeBatch p b).ctxs = d.ctxs := by
  unfold Dev.closeBatch
  rw [Dev.modPart_some d hx, hz]
  dsimp only
  split
  · exact ⟨_, _, Dev.part_putPart _ _ _, kfind_kset_self _ _ _, rfl, rfl, rfl, rfl, rfl⟩
  · exact ⟨_, _, Dev.part_putPart _ _ _, kfind_kset_self _ _ _, rfl, rfl, rfl, rfl, rfl⟩

theorem Dev.touches_failOne (d : Dev) (p i st : Nat) : ∃ v, Dev.Touches i v d (if (d.ctx i).retire then d.freeCtx i else (d.modPart p (fun x => x.leave i)).faultCtx p i st) ∧
    v.step = (d.ctx i).step ∧ v.point = (d.ctx i).point ∧ v.target = (d.ctx i).target := by
  split
  · exact ⟨_, Dev.touches_freeCtx d i, rfl, rfl, rfl⟩
  · have a := Dev.touches_modPart d i p (fun x => x.leave i)
    have b := Dev.touches_restCtx (d.modPart p (fun x => x.leave i)) p i 5 0 (fun c => { c with lastStatus := st })
    refine ⟨_, a.trans b, ?_, ?_, ?_⟩
    · exact congrArg (fun c => c.step) a.mine
    · exact congrArg (fun c => c.point) a.mine
    · exact congrArg (fun c => c.target) a.mine

/-- What the end of a step does to a context: the context takes its next step where the entry holds it. -/
theorem Dev.touches_stepped (d : Dev) (p b i : Nat) : ∃ v, Dev.Touches i v d (d.stepped p b i) ∧ v.target = (d.ctx i).target ∧
    (∀ x z, d.part p = some x → kfind x.batches b = some z → z.ctxs.contains i = true →
      v = { d.ctx i with step := min ((d.ctx i).step + 1) stepMax, point := 0, lastStatus := 0 }) := by
  have same : Dev.Touches i (d.ctx i) d d := Dev.Touches.same i rfl (fun _ => rfl) rfl
  unfold Dev.stepped
  split
  · rename_i h; exact ⟨_, same, rfl, fun x z hx => by rw [h] at hx; cases hx⟩
  · rename_i x hx
    split
    · rename_i h; exact ⟨_, same, rfl, fun x' z hx' hz => by rw [hx] at hx'; cases hx'; rw [h] at hz; cases hz⟩
    · rename_i z hz
      split
      · rename_i h
        exact ⟨_, same, rfl, fun x' z' hx' hz' hc => by rw [hx] at hx'; cases hx'; rw [hz] at hz'; cases hz'; rw [hc] at h; cases h⟩
      · refine ⟨{ d.ctx i with step := min ((d.ctx i).step + 1) stepMax, point := 0, lastStatus := 0 }, ?_, rfl, fun _ _ _ _ _ => rfl⟩
        extract_lets _ y c d1 d1' d2 y2
        have hput : ∀ w : Part, Dev.Touches i c d ((d.putPart p w).putCtx i c) := fun w =>
          (Dev.Touches.same (d := d) (d' := d.putPart p w) i rfl (fun _ => rfl) rfl).trans (Dev.touches_putCtx (d.putPart p w) i c)
        split
        · have h1 : Dev.Touches i c d d1 := hput y
          split
          · exact h1.keep (Dev.touches_completion _ _ _)
          · exact h1
        · have h1 : Dev.Touches i c d d1' := hput _
          split
          · exact h1.keep (Dev.touches_freeCtx _ _)
          · have h2 : Dev.Touches i c d d2 := by
              show Dev.Touches i c d (if c.normHold then d1'.restCtx p i 4 2 _ else d1'.settle p i)
              split
              · exact h1.keep (Dev.ctx_core_of (Dev.touches_restCtx d1' p i 4 2 _) rfl)
              · exact h1.keep (Dev.touches_settle _ _ _)
            split
            · exact h2.keep (Dev.touches_completion _ _ _)
            · exact h2

/-- What entering the next stage does to a context: where the entry holds it, and no earlier step of it runs, its point moves. -/
theorem Dev.touches_advance (d : Dev) (p b i k : Nat) : ∃ v, Dev.Touches i v d (d.advance p b i k) ∧ v.target = (d.ctx i).target ∧
    (∀ x z, d.part p = some x → kfind x.batches b = some z → z.ctxs.contains i = true → x.before z i = 0 →
      v = { d.ctx i with point := k }) := by
  have same : Dev.Touches i (d.ctx i) d d := Dev.Touches.same i rfl (fun _ => rfl) rfl
  unfold Dev.advance
  split
  · rename_i h; exact ⟨_, same, rfl, fun x z hx => by rw [h] at hx; cases hx⟩
  · rename_i x hx
    split
    · rename_i h; exact ⟨_, same, rfl, fun x' z hx' hz => by rw [hx] at hx'; cases hx'; rw [h] at hz; cases hz⟩
    · rename_i z hz
      split
      · rename_i h
        exact ⟨_, same, rfl, fun x' z' hx' hz' hc => by rw [hx] at hx'; cases hx'; rw [hz] at hz'; cases hz'; rw [hc] at h; cases h⟩
      · split
        · rename_i hb
          refine ⟨d.ctx i, ?_, rfl, fun x' z' hx' hz' _ h0 => by rw [hx] at hx'; cases hx'; rw [hz] at hz'; cases hz'; rw [h0] at hb; cases hb⟩
          split
          · exact Dev.Touches.same i rfl (fun _ => rfl) rfl
          · exact same
        · refine ⟨{ d.ctx i with point := k }, ?_, rfl, fun _ _ _ _ _ _ => rfl⟩
          extract_lets _ d1
          have h1 : Dev.Touches i { d.ctx i with point := k } d d1 := Dev.touches_putCtx _ _ _
          split
          · exact h1
          · split
            · exact h1.keep (Dev.touches_freeCtx _ _)
            · have h2 : Dev.Touches i (d1.ctx i) d1 (d1.putPart p (x.leave i)) := Dev.Touches.same i rfl (fun _ => rfl) rfl
              exact h1.keep (h2.keep (Dev.touches_restCtx _ _ _ _ _ id))

/-- The entry `b` of a partition still holds context `i`, with as many earlier steps of it in flight. -/
def Part.Keeps (b i : Nat) (x y : Part) : Prop :=
  ∀ z, kfind x.batches b = some z → z.ctxs.contains i = true →
    ∃ w, kfind y.batches b = some w ∧ w.ctxs.contains i = true ∧ y.before w i = x.before z i

theorem Part.Keeps.rfl (b i : Nat) (x : Part) : Part.Keeps b i x x := fun z h1 h2 => ⟨z, h1, h2, Eq.refl _⟩

theorem Part.Keeps.trans {b i : Nat} {x y z : Part} (h : Part.Keeps b i x y) (k : Part.Keeps b i y z) : Part.Keeps b i x z := by
  intro v h1 h2
  obtain ⟨w, a1, a2, a3⟩ := h v h1 h2
  obtain ⟨u, b1, b2, b3⟩ := k w a1 a2
  exact ⟨u, b1, b2, b3.trans a3⟩

theorem Part.keeps_same {b i : Nat} {x y : Part} (h : y.batches = x.batches) : Part.Keeps b i x y := by
  intro z h1 h2
  refine ⟨z, by rw [h]; exact h1, h2, ?_⟩
  unfold Part.before; rw [h]

/-- Entries changed one by one, and some dropped: one that holds `i` stays, and keeps `i`, its root and its order. -/
theorem Part.keeps_map {b i : Nat} {x y : Part} (g : Nat × Batch → Nat × Batch) (f : Nat × Batch → Bool)
    (h : y.batches = (x.batches.map g).filter f) (h1 : ∀ e, (g e).1 = e.1)
    (h2 : ∀ e, (g e).2.ctxs.contains i = e.2.ctxs.contains i ∧ (g e).2.root = e.2.root ∧ (g e).2.ord = e.2.ord)
    (h3 : ∀ e, e.2.ctxs.contains i = true → f (g e) = true) : Part.Keeps b i x y := by
  have key : ∀ (m : KMap Batch) z, kfind m b = some z → z.ctxs.contains i = true → kfind ((m.map g).filter f) b = some (g (b, z)).2 := by
    intro m
    induction m with
    | nil => intro z h; cases h
    | cons e m ih =>
      obtain ⟨k, v⟩ := e
      intro z hz hc
      unfold kfind at hz
      rw [List.map_cons, List.filter_cons]
      by_cases hk : k = b
      · subst hk
        rw [if_pos (Eq.refl _)] at hz
        cases hz
        rw [if_pos (h3 (k, v) hc)]
        have e1 : g (k, v) = (k, (g (k, v)).2) := Prod.ext (h1 (k, v)) (Eq.refl _)
        rw [e1]; unfold kfind; rw [if_pos (Eq.refl _)]
      · rw [if_neg hk] at hz
        split
        · have e1 : g (k, v) = (k, (g (k, v)).2) := Prod.ext (h1 (k, v)) (Eq.refl _)
          rw [e1]; unfold kfind; rw [if_neg hk]; exact ih z hz hc
        · exact ih z hz hc
  intro z hz hc
  refine ⟨(g (b, z)).2, by rw [h]; exact key _ z hz hc, by rw [(h2 (b, z)).1]; exact hc, ?_⟩
  unfold Part.before
  rw [h, (h2 (b, z)).2.1, (h2 (b, z)).2.2]
  generalize x.batches = m
  induction m with
  | nil => exact Eq.refl _
  | cons e m ih =>
    rw [List.map_cons, List.filter_cons (x := e)]
    obtain ⟨a1, a2, a3⟩ := h2 e
    by_cases he : (e.2.root == z.root && decide (e.2.ord < z.ord) && e.2.ctxs.contains i) = true
    · have hi : e.2.ctxs.contains i = true := by simp only [Bool.and_eq_true] at he; exact he.2
      have he2 : ((g e).2.root == z.root && decide ((g e).2.ord < z.ord) && (g e).2.ctxs.contains i) = true := by rw [a1, a2, a3]; exact he
      rw [List.filter_cons, if_pos (h3 e hi), List.filter_cons, if_pos he2, if_pos he, List.length_cons, List.length_cons, ih]
    · rw [if_neg he, List.filter_cons]
      split
      · rw [List.filter_cons, if_neg (by rw [a1, a2, a3]; exact he)]; exact ih
      · exact ih

theorem contains_filter_ne {i j : Nat} (h : j ≠ i) (l : List Nat) : (l.filter (· != j)).contains i = l.contains i := by
  rw [Bool.eq_iff_iff, List.contains_iff_mem, List.contains_iff_mem, List.mem_filter]
  constructor
  · exact fun k => k.1
  · exact fun k => ⟨k, by simpa using Ne.symm h⟩

theorem Part.keeps_leave {b i j : Nat} (h : j ≠ i) (x : Part) : Part.Keeps b i x (x.leave j) := by
  refine Part.keeps_map (fun e => (e.1, { e.2 with ctxs := e.2.ctxs.filter (· != j) })) (fun e => e.2.running || !e.2.ctxs.isEmpty)
    (Eq.refl _) (fun _ => Eq.refl _) (fun e => ⟨contains_filter_ne h _, Eq.refl _, Eq.refl _⟩) ?_
  intro e he
  have : (e.2.ctxs.filter (· != j)).contains i = true := by rw [contains_filter_ne h]; exact he
  cases hl : e.2.ctxs.filter (· != j) with
  | nil => rw [hl] at this; cases this
  | cons a l => simp [hl]

theorem Part.keeps_leaveFrom {b i j : Nat} (h : j ≠ i) (x : Part) (f : Batch → Bool) : Part.Keeps b i x (x.leaveFrom f j) := by
  refine Part.keeps_map (fun e => if f e.2 then (e.1, { e.2 with ctxs := e.2.ctxs.filter (· != j) }) else e)
    (fun e => e.2.running || !e.2.ctxs.isEmpty) (Eq.refl _) ?_ ?_ ?_
  · intro e; dsimp only; split <;> exact Eq.refl _
  · intro e; dsimp only; split
    · exact ⟨contains_filter_ne h _, Eq.refl _, Eq.refl _⟩
    · exact ⟨Eq.refl _, Eq.refl _, Eq.refl _⟩
  · intro e he
    have : (e.2.ctxs.filter (· != j)).contains i = true := by rw [contains_filter_ne h]; exact he
    dsimp only
    split
    · cases hl : e.2.ctxs.filter (· != j) with
      | nil => rw [hl] at this; cases this
      | cons a l => simp [hl]
    · cases hl : e.2.ctxs with
      | nil => rw [hl] at he; cases he
      | cons a l => simp

/-- The entry `b` of partition `p` keeps context `i`. -/
def Dev.Keeps (p b i : Nat) (d d' : Dev) : Prop := ∀ x, d.part p = some x → ∃ y, d'.part p = some y ∧ Part.Keeps b i x y

theorem Dev.Keeps.trans {p b i : Nat} {d e f : Dev} (h : Dev.Keeps p b i d e) (k : Dev.Keeps p b i e f) : Dev.Keeps p b i d f := by
  intro x hx
  obtain ⟨y, h1, h2⟩ := h x hx
  obtain ⟨z, h3, h4⟩ := k y h1
  exact ⟨z, h3, h2.trans h4⟩

theorem Dev.keeps_parts {p b i : Nat} {d d' : Dev} (h : d'.parts = d.parts) : Dev.Keeps p b i d d' := by
  intro x hx
  exact ⟨x, by unfold Dev.part; rw [h]; exact hx, .rfl b i x⟩

theorem Dev.keeps_putPart {p b i : Nat} {d : Dev} {x y : Part} (hx : d.part p = some x) (h : Part.Keeps b i x y) :
    Dev.Keeps p b i d (d.putPart p y) := by
  intro z hz
  rw [hx] at hz; cases hz
  exact ⟨y, Dev.part_putPart _ _ _, h⟩

theorem Dev.keeps_modPart (p b i : Nat) (d : Dev) (q : Nat) (g : Part → Part) (h : ∀ x, Part.Keeps b i x (g x)) :
    Dev.Keeps p b i d (d.modPart q g) := by
  unfold Dev.modPart
  split
  · rename_i x hx
    intro z hz
    by_cases e : p = q
    · subst e
      rw [hx] at hz; cases hz
      exact ⟨_, Dev.part_putPart _ _ _, h _⟩
    · exact ⟨z, by rw [Dev.part_putPart_ne _ e]; exact hz, .rfl b i z⟩
  · exact Dev.keeps_parts (Eq.refl _)

theorem Dev.Accessed.keeps {d d' : Dev} (h : d.Accessed d') (p b i : Nat) : Dev.Keeps p b i d d' := by
  intro x hx
  obtain ⟨t, e⟩ := h.tier p
  rw [hx] at e
  exact ⟨_, e, Part.keeps_same (Eq.refl _)⟩

theorem Dev.keeps_putCtx (p b i : Nat) (d : Dev) (j : Nat) (c : Ctx) : Dev.Keeps p b i d (d.putCtx j c) := by
  unfold Dev.putCtx
  dsimp only
  split
  · exact Dev.keeps_parts (Eq.refl _)
  · split
    · exact (Dev.keeps_parts (d' := d.setCtxs (kset d.ctxs j c)) (Eq.refl _)).trans ((Dev.accessed_store _ _ _ _ _).keeps p b i)
    · exact Dev.keeps_parts (Eq.refl _)

theorem Dev.parts_ctxCompletion (d : Dev) (j : Nat) : (d.ctxCompletion j).parts = d.parts := by
  unfold Dev.ctxCompletion Dev.postCtx Dev.post
  split
  · exact Eq.refl _
  · split
    · exact Eq.refl _
    · split
      · dsimp only
        split
        · exact Eq.refl _
        · split
          · exact Eq.refl _
          · split
            · exact Eq.refl _
            · exact (Dev.reports_setLine _ _ _ _).parts
      · exact Eq.refl _

theorem Dev.keeps_restCtx (p b i : Nat) (d : Dev) (q j st blk : Nat) (g : Ctx → Ctx) : Dev.Keeps p b i d (d.restCtx q j st blk g) := by
  unfold Dev.restCtx
  extract_lets c d1 d2
  have h1 : Dev.Keeps p b i d d1 := Dev.keeps_putCtx p b i d j _
  have h2 : Dev.Keeps p b i d d2 := by
    show Dev.Keeps p b i d (if c.pinned then d1 else d1.modPart q _)
    split
    · exact h1
    · exact h1.trans (Dev.keeps_modPart p b i d1 q _ (fun x => Part.keeps_same (Eq.refl _)))
  split
  · exact h2.trans (Dev.keeps_parts (Dev.parts_ctxCompletion _ _))
  · exact h2

theorem Part.park_batches (x : Part) (j : Nat) : (x.park j).batches = x.batches := by
  unfold Part.park; split <;> exact Eq.refl _

theorem Dev.keeps_settle (p b i : Nat) (d : Dev) (q j : Nat) : Dev.Keeps p b i d (d.settle q j) := by
  unfold Dev.settle
  dsimp only
  split
  · exact Dev.keeps_restCtx _ _ _ _ _ _ _ _ _
  · split
    · exact Dev.keeps_restCtx _ _ _ _ _ _ _ _ _
    · unfold Dev.toRun
      split
      · exact Dev.keeps_parts (Eq.refl _)
      · dsimp only
        split
        · exact Dev.keeps_restCtx _ _ _ _ _ _ _ _ _
        · split
          · exact Dev.keeps_restCtx _ _ _ _ _ _ _ _ _
          · split
            · exact Dev.keeps_putCtx _ _ _ _ _ _
            · exact (Dev.keeps_putCtx p b i d j _).trans (Dev.keeps_modPart p b i _ q _ (fun x => Part.keeps_same (Part.park_batches x j)))

theorem Dev.keeps_freeCtx {p b i j : Nat} (h : j ≠ i) (d : Dev) : Dev.Keeps p b i d (d.freeCtx j) := by
  unfold Dev.freeCtx
  dsimp only
  split
  · exact Dev.keeps_putCtx _ _ _ _ _ _
  · rename_i q _ _
    exact ((Dev.keeps_modPart p b i d q _ (fun x => Part.keeps_leave h x)).trans (Dev.keeps_putCtx p b i _ j _)).trans
      (Dev.keeps_parts (Eq.refl _))

/-- The end of another context's step, or its way into the next stage, leaves a context in its entry. -/
theorem Dev.keeps_stepped {p b i j : Nat} (h : j ≠ i) (d : Dev) : Dev.Keeps p b i d (d.stepped p b j) := by
  unfold Dev.stepped
  split
  · exact Dev.keeps_parts (Eq.refl _)
  · rename_i x hx
    split
    · exact Dev.keeps_parts (Eq.refl _)
    · rename_i z hz
      split
      · exact Dev.keeps_parts (Eq.refl _)
      · extract_lets y c0 c d1 d1' d2 y2
        have hput : ∀ w : Part, Part.Keeps b i x w → Dev.Keeps p b i d ((d.putPart p w).putCtx j c) := fun w hw =>
          (Dev.keeps_putPart hx hw).trans (Dev.keeps_putCtx p b i _ j c)
        have hc : ∀ e : Dev, Dev.Keeps p b i e (e.ctxCompletion j) := fun e => Dev.keeps_parts (Dev.parts_ctxCompletion e j)
        split
        · have h1 : Dev.Keeps p b i d d1 := hput y (Part.keeps_leaveFrom h x _)
          split
          · exact h1.trans (hc _)
          · exact h1
        · have h1 : Dev.Keeps p b i d d1' := hput _ (Part.keeps_leave h x)
          split
          · exact h1.trans (Dev.keeps_freeCtx h _)
          · have h2 : Dev.Keeps p b i d d2 := by
              show Dev.Keeps p b i d (if c.normHold then d1'.restCtx p j 4 2 _ else d1'.settle p j)
              split
              · exact h1.trans (Dev.keeps_restCtx _ _ _ _ _ _ _ _ _)
              · exact h1.trans (Dev.keeps_settle _ _ _ _ _ _)
            split
            · exact h2.trans (hc _)
            · exact h2

theorem Dev.keeps_advance {p b i j : Nat} (h : j ≠ i) (d : Dev) (k : Nat) : Dev.Keeps p b i d (d.advance p b j k) := by
  unfold Dev.advance
  split
  · exact Dev.keeps_parts (Eq.refl _)
  · rename_i x hx
    split
    · exact Dev.keeps_parts (Eq.refl _)
    · split
      · exact Dev.keeps_parts (Eq.refl _)
      · split
        · split
          · exact Dev.keeps_putPart hx (Part.keeps_leaveFrom h x _)
          · exact Dev.keeps_parts (Eq.refl _)
        · extract_lets _ d1
          have h1 : Dev.Keeps p b i d d1 := Dev.keeps_putCtx p b i d j _
          split
          · exact h1
          · split
            · exact h1.trans (Dev.keeps_freeCtx h _)
            · have h2 : Dev.Keeps p b i d (d1.putPart p (x.leave j)) := by
                intro z hz
                rw [hx] at hz; cases hz
                exact ⟨_, Dev.part_putPart _ _ _, Part.keeps_leave h x⟩
              exact h2.trans (Dev.keeps_restCtx _ _ _ _ _ _ _ _ _)

/-- A fold of operations on contexts, each on its own one, meets a context that stands in its list once as it was before the fold,
in its entry still, and leaves it as that one operation does. -/
theorem Dev.foldl_meets (f : Dev → Nat → Dev) (v : Dev → Nat → Ctx) (h : ∀ d i, Dev.Touches i (v d i) d (f d i)) (p b i : Nat)
    (hk : ∀ d j, j ≠ i → Dev.Keeps p b i d (f d j)) : ∀ (l : List Nat) (d : Dev), l.count i = 1 →
    ∃ D : Dev, D.ctx i = d.ctx i ∧ Dev.Keeps p b i d D ∧ (l.foldl f d).ctx i = (f D i).ctx i
  | [], _, hi => by cases hi
  | j :: l, d, hi => by
    rw [List.foldl_cons]
    by_cases e : i = j
    · subst e
      rw [List.count_cons_self] at hi
      exact ⟨d, Eq.refl _, Dev.keeps_parts (Eq.refl _), (Dev.touches_foldl f v h l (f d i)).others i (List.count_eq_zero.1 (by omega))⟩
    · rw [List.count_cons_of_ne (fun h => e h.symm)] at hi
      obtain ⟨D, a1, a2, a3⟩ := Dev.foldl_meets f v h p b i hk l (f d j) hi
      exact ⟨D, a1.trans ((h d j).others i e), (hk d j (fun h => e h.symm)).trans a2, a3⟩

/-- What a context's progress is. -/
def Ctx.mark (c : Ctx) : Nat × Nat × Nat × Nat := (c.step, c.point, c.target, c.lastStatus)

/-- The progress of all contexts is as before. -/
def Dev.Steady (d d' : Dev) : Prop := (∀ i, (d'.ctx i).mark = (d.ctx i).mark) ∧ d'.runs = d.runs

theorem Dev.Steady.trans {a b c : Dev} (h : a.Steady b) (k : b.Steady c) : a.Steady c :=
  ⟨fun i => (k.1 i).trans (h.1 i), k.2.trans h.2⟩

theorem Dev.Steady.rfl (d : Dev) : d.Steady d := ⟨fun _ => Eq.refl _, Eq.refl _⟩

theorem Ctx.mark_of_core {a b : Ctx} (h : a.core = b.core) : a.mark = b.mark := by
  have : a.core.mark = b.core.mark := congrArg Ctx.mark h
  exact this

theorem Dev.steady_of {d d' : Dev} {i : Nat} {v : Ctx} (h : Dev.Touches i v d d') (h1 : v.mark = (d.ctx i).mark) : d.Steady d' := by
  refine ⟨fun k => ?_, h.runs⟩
  by_cases e : k = i
  · subst e
    exact (Ctx.mark_of_core h.mine).trans h1
  · rw [h.others k e]

theorem Dev.steady_foldl {α : Type} (f : Dev → α → Dev) (h : ∀ (d : Dev) a, d.Steady (f d a)) : ∀ (l : List α) (d : Dev), d.Steady (l.foldl f d)
  | [], d => .rfl d
  | a :: l, d => (h d a).trans (Dev.steady_foldl f h l _)

theorem Dev.steady_same {d d' : Dev} (hc : d'.ctxs = d.ctxs) (hr : d'.runs = d.runs) : d.Steady d' := by
  refine ⟨fun i => ?_, hr⟩
  unfold Dev.ctx; rw [hc]

theorem Dev.steady_freeStuck (d : Dev) (p : Nat) : d.Steady (d.freeStuck p) := by
  unfold Dev.freeStuck
  split
  · exact .rfl d
  · exact Dev.steady_foldl _ (fun d (e : Nat × Ctx) => Dev.steady_of (Dev.touches_freeCtx d e.1) (Eq.refl _)) _ _

theorem Dev.passRead_run {d : Dev} {x : Run} {img : Bytes} {g : PassGo} (h : d.passRead x img = .inr g) :
    ∃ cs l, g.run = { x with cores := cs, reads := l } := by
  unfold Dev.passRead at h
  dsimp only at h
  rcases ite_eq_or h with ⟨_, h⟩ | ⟨_, h⟩
  · cases h
  rcases ite_eq_or h with ⟨_, h⟩ | ⟨_, h⟩
  · cases h
  split at h
  · cases h
  rcases ite_eq_or h with ⟨_, h⟩ | ⟨_, h⟩
  · cases h
  injection h with h
  subst h
  exact ⟨_, _, rfl⟩

theorem Dev.passCheck_run {d : Dev} {p : Nat} {x : Part} {z : Batch} {pg : Prog} {x0 : Run} {cores : List (Nat × Nat)} {g : PassGo}
    (h : d.passCheck p x z pg x0 cores = .inr g) : g.run.cmd = x0.cmd ∧ g.run.part = x0.part ∧ g.run.batch = x0.batch ∧
      g.run.stage = x0.stage ∧ g.run.layer = x0.layer ∧ g.run.last = x0.last ∧ g.run.limitMs = x0.limitMs := by
  unfold Dev.passCheck at h
  dsimp only at h
  rcases ite_eq_or h with ⟨_, h⟩ | ⟨_, h⟩
  · cases h
  rcases ite_eq_or h with ⟨_, h⟩ | ⟨_, h⟩
  · cases h
  rcases ite_eq_or h with ⟨_, h⟩ | ⟨_, h⟩
  · cases h
  split at h
  · cases h
  · rename_i w hw
    obtain ⟨cs, l, e⟩ := Dev.passRead_run hw
    injection h with h
    subst h
    dsimp only
    rw [e]
    exact ⟨rfl, rfl, rfl, rfl, rfl, rfl, rfl⟩

end Sys2Proof.Machine
end

