-- ==== Sys2Proof/Laws/Power.lean ====
section
/-!
SUPPORT. Alerts, what the power loop sheds, cups refilled at a boundary, power and heat samples.
-/

namespace Sys2Proof.Machine

theorem bit_iff (v n : Nat) : bit v n = true ↔ v / 2 ^ n % 2 = 1 := by unfold bit; exact beq_iff_eq

theorem bit_add_self (v n : Nat) (h : bit v n = false) : bit (v + 2 ^ n) n = true := by
  have h' : ¬ v / 2 ^ n % 2 = 1 := by intro e; rw [(bit_iff v n).2 e] at h; cases h
  rw [bit_iff, Nat.add_div_right _ (Nat.two_pow_pos n)]
  omega

theorem Dev.bit_alert (d : Dev) (b : Nat) : bit (d.alert b).mod.alert b = true := by
  unfold Dev.alert
  split
  · assumption
  · rename_i h
    have h' : bit d.mod.alert b = false := by simpa using h
    dsimp only
    split
    · exact bit_add_self _ _ h'
    · exact bit_add_self _ _ h'

theorem Dev.alert_shape (d : Dev) (b : Nat) : ∃ m o, d.alert b = { d with mod := { d.mod with alert := m }, out := o } ∧
    (m = d.mod.alert ∨ (bit d.mod.alert b = false ∧ m = d.mod.alert + 2 ^ b)) := by
  unfold Dev.alert
  split
  · exact ⟨d.mod.alert, d.out, rfl, .inl rfl⟩
  · rename_i h
    have h' : bit d.mod.alert b = false := by simpa using h
    dsimp only
    split
    · exact ⟨d.mod.alert + 2 ^ b, d.out ++ [.ibi], rfl, .inr ⟨h', rfl⟩⟩
    · exact ⟨d.mod.alert + 2 ^ b, d.out, rfl, .inr ⟨h', rfl⟩⟩

theorem Demand.compute_mono (x : Demand) {f g : Nat} (h : f ≤ g) : x.compute f ≤ x.compute g := by
  unfold Demand.compute ceilDiv
  have h1 : x.arrays * f ≤ x.arrays * g := Nat.mul_le_mul_left _ h
  have : (x.arrays * f + 19 - 1) / 19 ≤ (x.arrays * g + 19 - 1) / 19 := Nat.div_le_div_right (by omega)
  omega

/-- What compute sheds at most. -/
theorem Demand.shedCompute_rest (x : Demand) (l : Levers) (need : Nat) :
    (x.shedCompute l need).2 = need - (x.compute 19 - ceilDiv (x.compute 10 * 50) 100) := by
  unfold Demand.shedCompute
  split
  · rename_i h; rw [h]; simp
  · dsimp only
    have hlow : ceilDiv (x.compute 10 * 50) 100 ≤ x.compute 10 := by unfold ceilDiv; omega
    split
    · rename_i i hi
      have hp := List.find?_some hi
      have hm := List.mem_range.1 (List.mem_of_find?_eq_some hi)
      have hle : x.compute 10 ≤ x.compute (19 - i) := x.compute_mono (by omega)
      simp at hp
      show 0 = _
      omega
    · rename_i hn
      have h9 : ¬ need ≤ x.compute 19 - x.compute 10 := by
        have := List.find?_eq_none.1 hn 9 (by decide)
        simpa using this
      have hl : x.compute 10 ≤ x.compute 19 := x.compute_mono (by decide)
      show need - (x.compute 19 - ceilDiv (x.compute 10 * _) 100) = _
      generalize x.compute 10 = low at *
      generalize x.compute 19 = full at *
      generalize hq : (full - need) * 100 / max 1 low = q
      by_cases hq50 : q ≤ 50
      · have : max 50 (min 100 q) = 50 := by omega
        rw [this]
      · have h1 : 1 ≤ low := by
          rcases Nat.eq_zero_or_pos low with h | h
          · subst h
            have h0 : full - need = 0 := by omega
            rw [h0] at hq; simp at hq; omega
          · exact h
        have hm : max 1 low = low := by omega
        rw [hm] at hq
        have hle : q * low ≤ (full - need) * 100 := by rw [← hq]; exact Nat.div_mul_le_self _ _
        have hd : low * max 50 (min 100 q) ≤ (full - need) * 100 := by
          have : max 50 (min 100 q) ≤ q := by omega
          calc low * max 50 (min 100 q) ≤ low * q := Nat.mul_le_mul_left _ this
            _ = q * low := Nat.mul_comm _ _
            _ ≤ _ := hle
        have h50 : low * 50 ≤ (full - need) * 100 := by
          have : low * 50 ≤ low * q := Nat.mul_le_mul_left _ (by omega)
          have e : low * q = q * low := Nat.mul_comm _ _
          omega
        generalize low * max 50 (min 100 q) = z at *
        unfold ceilDiv
        omega

theorem Demand.shedCompute_levers (x : Demand) (l : Levers) (need : Nat) (h1 : l.clk = 19) (h2 : l.duty = 100) :
    10 ≤ (x.shedCompute l need).1.clk ∧ (x.shedCompute l need).1.clk ≤ 19 ∧ 50 ≤ (x.shedCompute l need).1.duty ∧
    (x.shedCompute l need).1.duty ≤ 100 ∧ ((x.shedCompute l need).1.duty < 100 → (x.shedCompute l need).1.clk = 10) ∧
    (need = 0 → (x.shedCompute l need).1 = l) ∧ (x.shedCompute l need).1.mem = l.mem ∧ (x.shedCompute l need).1.link = l.link := by
  unfold Demand.shedCompute
  split
  · rw [h1, h2]; exact ⟨by decide, by decide, by decide, by decide, by omega, fun _ => rfl, rfl, rfl⟩
  · rename_i hne
    dsimp only
    split
    · rename_i i hi
      have hm := List.mem_range.1 (List.mem_of_find?_eq_some hi)
      refine ⟨by show 10 ≤ 19 - i; omega, by show 19 - i ≤ 19; omega, by show 50 ≤ l.duty; omega, by show l.duty ≤ 100; omega, ?_, fun h => absurd h hne, rfl, rfl⟩
      intro h
      have : l.duty < 100 := h
      omega
    · refine ⟨Nat.le_refl 10, by show 10 ≤ 19; decide, ?_, ?_, fun _ => rfl, fun h => absurd h hne, rfl, rfl⟩
      · exact Nat.le_max_left _ _
      · show max 50 (min 100 _) ≤ 100; omega

theorem Demand.shedMem_levers (x : Demand) (l : Levers) (need : Nat) :
    (x.shedMem l need).1.clk = l.clk ∧ (x.shedMem l need).1.duty = l.duty ∧ (x.shedMem l need).1.link = l.link ∧
    (x.shedMem l need).2 = need - (x.mem - 25500 - 4125) ∧ (need = 0 → (x.shedMem l need).1 = l) := by
  unfold Demand.shedMem Demand.memVar
  dsimp only
  refine ⟨?_, ?_, ?_, ?_, ?_⟩
  · split <;> rfl
  · split <;> rfl
  · split <;> rfl
  · omega
  · intro h; rw [h]; simp

theorem Demand.shedIo_levers (x : Demand) (l : Levers) (need : Nat) :
    (x.shedIo l need).1.clk = l.clk ∧ (x.shedIo l need).1.duty = l.duty ∧ (x.shedIo l need).1.mem = l.mem ∧
    (x.shedIo l need).2 = need - (x.io - 4500 - 1000) ∧ (need = 0 → (x.shedIo l need).1 = l) := by
  unfold Demand.shedIo Demand.ioVar
  dsimp only
  refine ⟨?_, ?_, ?_, ?_, ?_⟩
  · split <;> rfl
  · split <;> rfl
  · split <;> rfl
  · omega
  · intro h; rw [h]; simp

/-- What a pass of the power loop leaves: the levers' bounds, and what no class can give up. -/
theorem Demand.shed_facts (x : Demand) (mode need : Nat) :
    10 ≤ (x.shed mode need).1.clk ∧ (x.shed mode need).1.clk ≤ 19 ∧ 50 ≤ (x.shed mode need).1.duty ∧
    (x.shed mode need).1.duty ≤ 100 ∧ ((x.shed mode need).1.duty < 100 → (x.shed mode need).1.clk = 10) ∧
    (need = 0 → (x.shed mode need).1 = Levers.full) ∧
    (x.shed mode need).2 = need - (x.mem - 25500 - 4125) - (x.io - 4500 - 1000) - (x.compute 19 - ceilDiv (x.compute 10 * 50) 100) := by
  unfold Demand.shed
  split
  · obtain ⟨m1, m2, _, m4, m5⟩ := x.shedMem_levers Levers.full need
    obtain ⟨i1, i2, _, i4, i5⟩ := x.shedIo_levers (x.shedMem Levers.full need).1 (x.shedMem Levers.full need).2
    obtain ⟨c1, c2, c3, c4, c5, c6, _, _⟩ := x.shedCompute_levers (x.shedIo (x.shedMem Levers.full need).1 (x.shedMem Levers.full need).2).1
      (x.shedIo (x.shedMem Levers.full need).1 (x.shedMem Levers.full need).2).2 (by rw [i1, m1]; rfl) (by rw [i2, m2]; rfl)
    refine ⟨c1, c2, c3, c4, c5, ?_, ?_⟩
    · intro h
      have a2 : (x.shedMem Levers.full need).2 = 0 := by rw [m4, h]; simp
      have b2 : (x.shedIo (x.shedMem Levers.full need).1 (x.shedMem Levers.full need).2).2 = 0 := by rw [i4, a2]; simp
      exact (c6 b2).trans ((i5 a2).trans (m5 h))
    · show (x.shedCompute _ _).2 = _
      rw [x.shedCompute_rest, i4, m4]
  · obtain ⟨c1, c2, c3, c4, c5, c6, _, _⟩ := x.shedCompute_levers Levers.full need rfl rfl
    obtain ⟨i1, i2, _, i4, i5⟩ := x.shedIo_levers (x.shedCompute Levers.full need).1 (x.shedCompute Levers.full need).2
    obtain ⟨m1, m2, _, m4, m5⟩ := x.shedMem_levers (x.shedIo (x.shedCompute Levers.full need).1 (x.shedCompute Levers.full need).2).1
      (x.shedIo (x.shedCompute Levers.full need).1 (x.shedCompute Levers.full need).2).2
    have hc := x.shedCompute_rest Levers.full need
    refine ⟨by rw [m1, i1]; exact c1, by rw [m1, i1]; exact c2, by rw [m2, i2]; exact c3, by rw [m2, i2]; exact c4, ?_, ?_, ?_⟩
    · rw [m2, i2, m1, i1]; exact c5
    · intro h
      have a2 : (x.shedCompute Levers.full need).2 = 0 := by rw [hc, h]; simp
      have b2 : (x.shedIo (x.shedCompute Levers.full need).1 (x.shedCompute Levers.full need).2).2 = 0 := by rw [i4, a2]; simp
      exact (m5 b2).trans ((i5 a2).trans (c6 h))
    · show (x.shedMem _ _).2 = _
      rw [m4, i4, hc]; omega
  · obtain ⟨i1, i2, _, i4, i5⟩ := x.shedIo_levers Levers.full need
    obtain ⟨m1, m2, _, m4, m5⟩ := x.shedMem_levers (x.shedIo Levers.full need).1 (x.shedIo Levers.full need).2
    obtain ⟨c1, c2, c3, c4, c5, c6, _, _⟩ := x.shedCompute_levers (x.shedMem (x.shedIo Levers.full need).1 (x.shedIo Levers.full need).2).1
      (x.shedMem (x.shedIo Levers.full need).1 (x.shedIo Levers.full need).2).2 (by rw [m1, i1]; rfl) (by rw [m2, i2]; rfl)
    refine ⟨c1, c2, c3, c4, c5, ?_, ?_⟩
    · intro h
      have a2 : (x.shedIo Levers.full need).2 = 0 := by rw [i4, h]; simp
      have b2 : (x.shedMem (x.shedIo Levers.full need).1 (x.shedIo Levers.full need).2).2 = 0 := by rw [m4, a2]; simp
      exact (c6 b2).trans ((m5 a2).trans (i5 h))
    · show (x.shedCompute _ _).2 = _
      rw [x.shedCompute_rest, m4, i4]; omega

theorem Dev.pwr_event (d : Dev) (e : EvRec) : (d.event e).pwr = d.pwr := (Dev.reports_event d e).pwr

theorem cupsOn_nodup {die : Nat} (hd : die < 20) : ((cupsOn die).map (·.1)).Nodup := by
  have : ∀ die, die < 20 → ((cupsOn die).map (·.1)).Nodup := by decide
  exact this die hd

theorem kget_foldl_kset (o : Nat) : ∀ (l : List (Nat × Nat)) (m : KMap Nat), (l.map (·.1)).Nodup →
    kget (l.foldl (fun m e => kset m e.1 e.2) m) o 0 =
      match l.find? (fun e => e.1 == o) with | some e => e.2 | none => kget m o 0
  | [], m, _ => rfl
  | e :: l, m, hn => by
    obtain ⟨h1, h2⟩ := List.nodup_cons.1 hn
    rw [List.foldl_cons, kget_foldl_kset o l _ h2, List.find?_cons]
    by_cases h : e.1 = o
    · have h0 : l.find? (fun e => e.1 == o) = none := by
        rw [List.find?_eq_none]; intro z hz hc
        have : z.1 = o := by simpa using hc
        exact h1 (List.mem_map.2 ⟨z, hz, this.trans h.symm⟩)
      rw [h0]
      have : (e.1 == o) = true := by simpa using h
      rw [this]; dsimp only; rw [← h]; exact kget_kset_self _ _ _ _
    · have : (e.1 == o) = false := by simpa using h
      rw [this]
      dsimp only
      cases l.find? (fun e => e.1 == o) with
      | some z => rfl
      | none => exact kget_kset_ne (Ne.symm h) _ _ _

/-- What a cup's counters are at a key. -/
def CupCnt.at (c : CupCnt) (key : Nat) : Nat × Nat × Bool := (kget c.units key 0, kget c.drawn key 0, c.ranDry.contains key)

theorem CupCnt.refill_self (c : CupCnt) (now p k g : Nat) : (c.refill now p k g).1.at (cupKey p k) =
    (g - min g (kget c.drawn (cupKey p k) 0), 0, false) := by
  unfold CupCnt.refill CupCnt.at
  dsimp only
  simp

theorem CupCnt.refill_ne (c : CupCnt) (now p k g : Nat) {key : Nat} (h : key ≠ cupKey p k) : (c.refill now p k g).1.at key = c.at key := by
  unfold CupCnt.refill CupCnt.at
  dsimp only
  rw [kget_kset_ne h, kget_kset_ne h]
  congr 2
  rw [Bool.eq_iff_iff]
  simp [h]

theorem CupCnt.refill_period (c : CupCnt) (now p k g : Nat) : (c.refill now p k g).1.period = c.period := rfl

/-- Cups refilled one after the other: the pairs of partition and cup, with their grants. -/
def refills (now : Nat) (c : CupCnt × List EvRec) (l : List (Nat × Nat × Nat)) : CupCnt × List EvRec :=
  l.foldl (fun acc z => ((acc.1.refill now z.1 z.2.1 z.2.2).1, acc.2 ++ (acc.1.refill now z.1 z.2.1 z.2.2).2)) c

theorem refills_facts (now : Nat) (key : Nat) : ∀ (l : List (Nat × Nat × Nat)) (c : CupCnt × List EvRec),
    (l.map (fun z => cupKey z.1 z.2.1)).Nodup → (refills now c l).1.period = c.1.period ∧
    ((∀ z ∈ l, cupKey z.1 z.2.1 ≠ key) → (refills now c l).1.at key = c.1.at key) ∧
    (∀ z ∈ l, cupKey z.1 z.2.1 = key → (refills now c l).1.at key = (z.2.2 - min z.2.2 (kget c.1.drawn key 0), 0, false))
  | [], c, _ => ⟨rfl, fun _ => rfl, fun z hz => by cases hz⟩
  | y :: l, c, hn => by
    obtain ⟨h1, h2⟩ := List.nodup_cons.1 hn
    obtain ⟨a1, a2, a3⟩ := refills_facts now key l ((c.1.refill now y.1 y.2.1 y.2.2).1, c.2 ++ (c.1.refill now y.1 y.2.1 y.2.2).2) h2
    refine ⟨a1, ?_, ?_⟩
    · intro h
      exact (a2 (fun z hz => h z (List.mem_cons_of_mem _ hz))).trans (CupCnt.refill_ne _ _ _ _ _ (Ne.symm (h y List.mem_cons_self)))
    · intro z hz hk
      rcases List.mem_cons.1 hz with rfl | hz
      · subst hk
        have : ∀ w ∈ l, cupKey w.1 w.2.1 ≠ cupKey z.1 z.2.1 := by
          intro w hw e; exact h1 (List.mem_map.2 ⟨w, hw, e⟩)
        exact (a2 this).trans (CupCnt.refill_self _ _ _ _ _)
      · have hne : cupKey y.1 y.2.1 ≠ key := by
          intro e; exact h1 (List.mem_map.2 ⟨z, hz, hk.trans e.symm⟩)
        rw [show refills now c (y :: l) = refills now ((c.1.refill now y.1 y.2.1 y.2.2).1, c.2 ++ (c.1.refill now y.1 y.2.1 y.2.2).2) l from rfl,
          a3 z hz hk]
        have : kget (c.1.refill now y.1 y.2.1 y.2.2).1.drawn key 0 = kget c.1.drawn key 0 := by
          have := CupCnt.refill_ne c.1 now y.1 y.2.1 y.2.2 (Ne.symm hne)
          exact congrArg (fun z => z.2.1) this
        rw [this]

theorem refills_nested (now die per : Nat) : ∀ (ps : List (Nat × Part)) (c : CupCnt × List EvRec),
    ps.foldl (fun (acc : CupCnt × List EvRec) e =>
      (cupsOn die).foldl (fun acc k =>
        let share := kget e.2.cups (cupOff k.1) 0 % 2048
        let z := acc.1.refill now e.1 k.1 (cupGrant share k.2 per)
        (z.1, acc.2 ++ z.2)) acc) c =
    refills now c (ps.flatMap (fun e => (cupsOn die).map (fun k => (e.1, k.1, cupGrant (kget e.2.cups (cupOff k.1) 0 % 2048) k.2 per))))
  | [], _ => rfl
  | e :: ps, c => by
    rw [List.foldl_cons, refills_nested now die per ps, List.flatMap_cons]
    unfold refills
    rw [List.foldl_append, List.foldl_map]

theorem cups_foldl_event (g : EvRec → EvRec) : ∀ (l : List EvRec) (d : Dev),
    d.Reports (l.foldl (fun d e => d.event (g e)) d)
  | [], d => .rfl d
  | e :: l, d => (Dev.reports_event d _).trans (cups_foldl_event g l _)

theorem Dev.addPower_facts (d : Dev) (p n : Nat) : (d.addPower p n).pwr.inputLost = d.pwr.inputLost ∧
    (d.addPower p n).pwr.energyEst = d.pwr.energyEst ∧ (d.addPower p n).mod = d.mod ∧
    (d.addPower p n).sense.inputV = d.sense.inputV ∧ (d.addPower p n).sense.inputI = d.sense.inputI ∧
    (d.sense.energy + (d.pwr.energyPart + p * n) / 100000 < 2 ^ 64 →
      (d.addPower p n).sense.energy * 100000 + (d.addPower p n).pwr.energyPart = d.sense.energy * 100000 + d.pwr.energyPart + p * n) := by
  unfold Dev.addPower
  extract_lets e hist mj full _ _ d1
  have h : ∀ D : Dev, D.pwr = d1.pwr → D.sense = d1.sense → D.mod = d1.mod → D.pwr.inputLost = d.pwr.inputLost ∧
    D.pwr.energyEst = d.pwr.energyEst ∧ D.mod = d.mod ∧ D.sense.inputV = d.sense.inputV ∧ D.sense.inputI = d.sense.inputI ∧
    (d.sense.energy + (d.pwr.energyPart + p * n) / 100000 < 2 ^ 64 →
      D.sense.energy * 100000 + D.pwr.energyPart = d.sense.energy * 100000 + d.pwr.energyPart + p * n) := by
    intro D h1 h2 h3
    rw [h1, h2, h3]
    refine ⟨rfl, rfl, rfl, rfl, rfl, fun hlt => ?_⟩
    have hst : stick64 (d.sense.energy + (d.pwr.energyPart + p * n) / 100000) = d.sense.energy + (d.pwr.energyPart + p * n) / 100000 := by
      unfold stick64; exact Nat.min_eq_left (Nat.le_pred_of_lt hlt)
    show stick64 (d.sense.energy + (d.pwr.energyPart + p * n) / 100000) * 100000 + (d.pwr.energyPart + p * n) % 100000 = _
    rw [hst]
    generalize d.sense.energy = a
    generalize p * n = b
    generalize d.pwr.energyPart = c
    omega
  split
  · exact h _ (Dev.reports_event _ _).pwr (Dev.reports_event _ _).sense (Dev.reports_event _ _).mod
  · exact h _ rfl rfl rfl

theorem Dev.inputLoss_facts (d : Dev) : d.inputLoss.pwr = { d.pwr with inputLost := true } ∧ d.inputLoss.sense = d.sense ∧
    (d.pwr.inputLost = false → bit d.inputLoss.mod.alert 4 = true) := by
  unfold Dev.inputLoss
  split
  · rename_i h
    refine ⟨?_, rfl, fun e => by rw [h] at e; cases e⟩
    show d.pwr = _
    have : ({ d.pwr with inputLost := true } : Pwr) = { d.pwr with inputLost := d.pwr.inputLost } := by rw [h]
    rw [this]
  · refine ⟨?_, ?_, fun _ => Dev.bit_alert _ _⟩
    · obtain ⟨m, o, h, _⟩ := Dev.alert_shape ((d.setPwr { d.pwr with inputLost := true }).event { code := evInputLost, unit := unit24 dieCd uiDie }) 4
      rw [h]
      exact (Dev.reports_event _ _).pwr
    · obtain ⟨m, o, h, _⟩ := Dev.alert_shape ((d.setPwr { d.pwr with inputLost := true }).event { code := evInputLost, unit := unit24 dieCd uiDie }) 4
      rw [h]
      exact (Dev.reports_event _ _).sense

theorem mem_insertSorted (n a : Nat) : ∀ l : List Nat, n ∈ insertSorted a l ↔ n = a ∨ n ∈ l
  | [] => by simp [insertSorted]
  | x :: l => by
    unfold insertSorted
    split
    · simp
    · split
      · rename_i h; subst h; simp
      · rw [List.mem_cons, mem_insertSorted n a l, List.mem_cons]
        exact or_left_comm

/-- What a fence keeps: the sensors, and the alert bits that are set. -/
def Dev.Fenced (d d' : Dev) : Prop := d'.sense = d.sense ∧ (bit d.mod.alert 2 = true → bit d'.mod.alert 2 = true)

theorem Dev.Fenced.trans {a b c : Dev} (h : a.Fenced b) (k : b.Fenced c) : a.Fenced c := ⟨k.1.trans h.1, fun x => k.2 (h.2 x)⟩

theorem Dev.fenced_same {d d' : Dev} (h1 : d'.sense = d.sense) (h2 : d'.mod = d.mod) : d.Fenced d' := ⟨h1, fun h => by rw [h2]; exact h⟩

theorem Dev.fenced_foldl {α : Type} (f : Dev → α → Dev) (h : ∀ (d : Dev) a, d.Fenced (f d a)) : ∀ (l : List α) (d : Dev), d.Fenced (l.foldl f d)
  | [], _ => Dev.fenced_same rfl rfl
  | a :: l, d => (h d a).trans (Dev.fenced_foldl f h l _)

theorem Dev.fenced_fenceRec (d : Dev) (die idx reason : Nat) : d.Fenced (d.fenceRec die idx reason) := by
  unfold Dev.fenceRec
  obtain ⟨D, hD⟩ : ∃ D, d.raise { code := evFence, unit := unit24 die idx, payload := leBytes 1 die ++ leBytes 2 idx ++ leBytes 1 reason } = D := ⟨_, rfl⟩
  have hr := Dev.reports_raise d { code := evFence, unit := unit24 die idx, payload := leBytes 1 die ++ leBytes 2 idx ++ leBytes 1 reason } (unit24 die idx)
  rw [hD] at hr ⊢
  refine (Dev.fenced_same hr.sense hr.mod).trans ?_
  obtain ⟨m, o, h, hm⟩ := Dev.alert_shape D 1
  rw [h]
  refine ⟨rfl, fun hb => ?_⟩
  rcases hm with rfl | ⟨h1, rfl⟩
  · exact hb
  · rw [bit_iff] at hb ⊢
    have h1' : ¬ D.mod.alert / 2 ^ 1 % 2 = 1 := by intro e; rw [(bit_iff _ _).2 e] at h1; cases h1
    show (D.mod.alert + 2 ^ 1) / 2 ^ 2 % 2 = 1
    omega

theorem Dev.fenced_fenceSkillet (d : Dev) (k r : Nat) : d.Fenced (d.fenceSkillet k r) := by
  unfold Dev.fenceSkillet
  split
  · exact Dev.fenced_same rfl rfl
  · extract_lets d1 d2
    have h1 : d.Fenced d1 := Dev.fenced_same rfl rfl
    have h2 : d.Fenced d2 := h1.trans (Dev.fenced_foldl (fun (d : Dev) i => d.modCore (8 * k + i) (fun c => { c with clk := .cold, testing := false })) (fun _ _ => Dev.fenced_same rfl rfl) _ _)
    refine h2.trans (Dev.Fenced.trans ?_ (Dev.fenced_fenceRec _ _ _ _))
    have a := Dev.accessed_potPoison (d2.killRuns (fun x => x.onSkillet k) (.cause caFenced)) (potKeyAt k 0) 134217728
    have h3 := Dev.fenced_same a.sense a.mod
    generalize Dev.potPoison _ (potKeyAt k 0) 134217728 = y at h3 ⊢
    exact (Dev.fenced_same rfl rfl : d2.Fenced (d2.killRuns _ _)).trans (h3.trans (Dev.fenced_same rfl rfl))

theorem Dev.skillet_modSkillet (d : Dev) (k : Nat) (g : Skillet → Skillet) : (d.modSkillet k g).skillet k = g (d.skillet k) := by
  unfold Dev.modSkillet Dev.skillet
  exact kget_kset_self _ _ _ _

/-- What the warning limit does. -/
theorem Dev.thermWarn_facts (d : Dev) (x : Sensor) (t : Int) : ∃ w, (d.thermWarn x t).sense = { d.sense with warned := w } ∧
    (d.thermWarn x t).skillets = d.skillets ∧ (d.thermWarn x t).dram = d.dram ∧ ((sensLimits x).1 < t → sensCode x ∈ w) ∧
    (t ≤ (sensLimits x).1 → w = d.sense.warned.filter (· != sensCode x)) := by
  unfold Dev.thermWarn
  dsimp only
  split
  · rename_i h
    split
    · rename_i hc
      exact ⟨d.sense.warned, rfl, rfl, rfl, fun _ => by simpa using hc, fun h' => absurd h (by omega)⟩
    · refine ⟨_, (Dev.reports_event _ _).sense, (Dev.reports_event _ _).skillets, (Dev.reports_event _ _).dram, fun _ => (mem_insertSorted _ _ _).2 (.inl rfl), fun h' => absurd h (by omega)⟩
  · rename_i h
    exact ⟨_, rfl, rfl, rfl, fun h' => absurd h' h, fun _ => rfl⟩

/-- What the throttle limit of a skillet does. -/
theorem Dev.thermThrottle_facts (d : Dev) (k : Nat) (t : Int) : ∃ w, (d.thermThrottle (.skillet k) t).sense = { d.sense with throttled := w } ∧
    (1000 < t → k ∈ w ∧ (d.thermThrottle (.skillet k) t).skillet k = (d.skillet k).cool) ∧
    (t ≤ 970 → (k ∈ d.sense.throttled → k ∉ w ∧ (d.thermThrottle (.skillet k) t).skillet k = { d.skillet k with clk := 19, duty := 100 }) ∧
      (k ∉ d.sense.throttled → w = d.sense.throttled ∧ (d.thermThrottle (.skillet k) t).skillets = d.skillets)) := by
  unfold Dev.thermThrottle
  show ∃ w, (if 1000 < t then _ else _ : Dev).sense = _ ∧ (_ → k ∈ w ∧ (if 1000 < t then _ else _ : Dev).skillet k = _) ∧
    (_ → (_ → k ∉ w ∧ (if 1000 < t then _ else _ : Dev).skillet k = _) ∧ (_ → w = _ ∧ (if 1000 < t then _ else _ : Dev).skillets = _))
  by_cases h : 1000 < t
  · simp only [if_pos h]
    by_cases hc : d.sense.throttled.contains k = true
    · refine ⟨d.sense.throttled, ?_, fun _ => ⟨by simpa using hc, ?_⟩, fun h' => absurd h' (by omega)⟩
      · show (if d.sense.throttled.contains k = true then d else _ : Dev).sense = d.sense
        rw [if_pos hc]
      · show Dev.skillet ((if d.sense.throttled.contains k = true then d else _ : Dev).modSkillet k Skillet.cool) k = _
        rw [if_pos hc]; exact Dev.skillet_modSkillet _ _ _
    · refine ⟨insertSorted k d.sense.throttled, ?_, fun _ => ⟨(mem_insertSorted _ _ _).2 (.inl rfl), ?_⟩, fun h' => absurd h' (by omega)⟩
      · show (if d.sense.throttled.contains k = true then d else _ : Dev).sense = _
        rw [if_neg hc]; exact (Dev.reports_event _ _).sense
      · show Dev.skillet ((if d.sense.throttled.contains k = true then d else _ : Dev).modSkillet k Skillet.cool) k = _
        rw [if_neg hc, Dev.skillet_modSkillet]
        have q : ((d.setSense { d.sense with throttled := insertSorted k d.sense.throttled }).thermEvent (.skillet k) t true).skillets = d.skillets :=
          (Dev.reports_event _ _).skillets
        exact congrArg (fun m => (kget m k {} : Skillet).cool) q
  · simp only [if_neg h]
    by_cases hc : d.sense.throttled.contains k = true
    · by_cases h9 : t ≤ 970
      · refine ⟨d.sense.throttled.filter (· != k), ?_, fun h' => absurd h' h, fun _ => ⟨fun _ => ⟨by simp, ?_⟩, fun h' => absurd (by simpa using hc) h'⟩⟩
        · show (if d.sense.throttled.contains k = true then (if t ≤ 1000 - 30 then _ else _) else d : Dev).sense = _
          rw [if_pos hc, if_pos (by omega)]; exact (Dev.reports_event _ _).sense
        · show (if d.sense.throttled.contains k = true then (if t ≤ 1000 - 30 then _ else _) else d : Dev).skillet k = _
          rw [if_pos hc, if_pos (by omega)]
          have q : (((d.setSense { d.sense with throttled := d.sense.throttled.filter (· != k) }).thermEnd (.skillet k)).thermEvent (.skillet k) t false).skillets =
              ((d.setSense { d.sense with throttled := d.sense.throttled.filter (· != k) }).modSkillet k (fun y => { y with clk := 19, duty := 100 })).skillets :=
            (Dev.reports_event _ _).skillets
          exact (congrArg (fun m => (kget m k {} : Skillet)) q).trans
            (Dev.skillet_modSkillet (d.setSense { d.sense with throttled := d.sense.throttled.filter (· != k) }) k (fun y => { y with clk := 19, duty := 100 }))
      · refine ⟨d.sense.throttled, ?_, fun h' => absurd h' h, fun h' => absurd h' h9⟩
        show (if d.sense.throttled.contains k = true then (if t ≤ 1000 - 30 then _ else _) else d : Dev).sense = _
        rw [if_pos hc, if_neg (by omega)]; rfl
    · refine ⟨d.sense.throttled, ?_, fun h' => absurd h' h, fun _ => ⟨fun h' => absurd (by simpa using h') hc, fun _ => ⟨rfl, ?_⟩⟩⟩
      · show (if d.sense.throttled.contains k = true then _ else d : Dev).sense = _
        rw [if_neg hc]
      · show (if d.sense.throttled.contains k = true then _ else d : Dev).skillets = _
        rw [if_neg hc]

theorem Dev.thermCritical_below (d : Dev) (x : Sensor) (t : Int) (h : t < (sensLimits x).2.2) :
    d.thermCritical x t = d.setSense { d.sense with critical := d.sense.critical.filter (· != sensCode x) } := by
  unfold Dev.thermCritical
  dsimp only
  rw [if_neg (by omega)]

theorem Dev.thermThrottle_stack (d : Dev) (k : Nat) (t : Int) : (d.thermThrottle (.stack k) t).dram = d.dram := by
  unfold Dev.thermThrottle
  dsimp only [sensLimits]
  split
  · split
    · rfl
    · exact (Dev.reports_event _ _).dram
  · split
    · split
      · exact (Dev.reports_event _ _).dram
      · rfl
    · rfl

end Sys2Proof.Machine
end

