-- ==== Sys2Proof/Laws/Partitions.lean ====
section
/-! SUPPORT. What the partition rows do: admission of a partition, the shape of suspend and reclaim, scrub and hand-over. -/

namespace Sys2Proof.Machine

theorem Dev.pf_admin {d : Dev} {r : CmdRef} {op : Nat} {c : Cmd} (h : d.Ready r op c) (h1 : 4 ≤ op) (h2 : op ≤ 7) : r.q = 0 ∧ r.f = 0 := by
  have hq : r.q = 0 := Dev.admin_q h.2.2.1 (by rw [h.2.1]; omega)
  refine ⟨hq, ?_⟩
  have hr := h.2.2.1
  unfold Dev.rejectStatus at hr
  rw [if_pos hq, h.2.1] at hr
  by_cases hf : r.f = 0
  · exact hf
  · have ha : opAdmin.contains op = true ∧ opPfAdmin.contains op = true := by
      have : op = 4 ∨ op = 5 ∨ op = 6 ∨ op = 7 := by omega
      rcases this with rfl | rfl | rfl | rfl <;> decide
    rw [ha.1, ha.2] at hr
    simp [hf] at hr

theorem find_none_of {α : Type} (l : List α) (p : α → Bool) (a : α) (h : l.find? p = some a) : p a = true := List.find?_some h

/-- What the creation of regions may change: the region table. -/
theorem Dev.newRegion_shape {d : Dev} {p base : Nat} {r : RegSpec} {k n : Nat} {d' : Dev} (h : d.newRegion p base r k = some (n, d')) :
    ∃ m, d' = d.setRegions m := by
  unfold Dev.newRegion at h
  split at h
  · injection h with h
    injection h with _ h
    exact ⟨_, h.symm⟩
  · cases h

theorem Dev.newRegions_shape {p : Nat} : ∀ (l : List RegSpec) {d : Dev} {base : Nat} {z : List Nat × Nat × Dev}, Dev.newRegions d p l base = some z →
    ∃ m, z.2.2 = d.setRegions m
  | [], d, base, z, h => by
    injection h with h
    subst h; exact ⟨d.regions, rfl⟩
  | r :: l, d, base, z, h => by
    unfold Dev.newRegions at h
    split at h
    · cases h
    · rename_i n d1 h1
      obtain ⟨m1, rfl⟩ := Dev.newRegion_shape h1
      cases h2 : Dev.newRegions (d.setRegions m1) p l (base + r.size) with
      | none => rw [h2] at h; cases h
      | some w =>
        rw [h2] at h
        injection h with h
        subst h
        obtain ⟨m, hm⟩ := Dev.newRegions_shape l h2
        exact ⟨m, hm⟩

theorem Dev.zeroUnits_shape : ∀ (l : List Nat) (d : Dev), ∃ c o, l.foldl (fun d g => d.zeroUnit (unitCore g)) d = { d with cnt := c, ovf := o }
  | [], d => ⟨d.cnt, d.ovf, rfl⟩
  | g :: l, d => by
    obtain ⟨c, o, h⟩ := Dev.zeroUnits_shape l (d.zeroUnit (unitCore g))
    exact ⟨c, o, h⟩

/-- What an admission that succeeds gives. -/
theorem Dev.admitPart_ok {d e : Dev} {p : Nat} {b : Bytes} {job : Nat} (h : d.admitPart p b job = .inl e) :
    ∃ y, e.parts = kset d.parts p y ∧ e.qps = d.qps ∧ e.mem = d.mem ∧ y.cores = (parseSpec b).cores ∧ y.recCount = (parseSpec b).records ∧
      y.quota = (parseSpec b).quota ∧ y.qps = (parseSpec b).qps ∧ y.suspended = false ∧ y.reclaim = .none ∧ y.progs = [] ∧
      y.job = job ∧ d.findRecords (parseSpec b).records = some y.recBase := by
  unfold Dev.admitPart at h
  dsimp only at h
  rcases ite_eq_or h with ⟨_, h⟩ | ⟨_, h⟩
  · cases h
  split at h
  · cases h
  split at h
  · cases h
  rename_i entries after d1 h1
  split at h
  · cases h
  rename_i n2 d2 h2
  split at h
  · cases h
  rename_i tent d3 h3
  split at h
  · cases h
  rename_i hf2
  rcases ite_eq_or h with ⟨_, h⟩ | ⟨_, h⟩
  · cases h
  injection h with h
  obtain ⟨m1, e1⟩ := Dev.newRegions_shape _ h1
  obtain ⟨m2, e2⟩ := Dev.newRegion_shape h2
  have h3' : ∃ m3, d3 = d2.setRegions m3 := by
    rcases ite_eq_or h3 with ⟨_, h3⟩ | ⟨_, h3⟩
    · injection h3 with h3
      injection h3 with _ h3
      exact ⟨d2.regions, h3.symm⟩
    · exact Dev.newRegion_shape h3
  obtain ⟨m3, e3⟩ := h3'
  have hd3 : d3 = d.setRegions m3 := by
    rw [e3, e2]
    have : d1 = d.setRegions m1 := e1
    rw [this]; rfl
  have hrec : (d.findRecords (parseSpec b).records).isSome = true := by
    unfold Dev.admitFails2 at hf2
    dsimp only at hf2
    rcases ite_eq_or hf2 with ⟨_, hf2⟩ | ⟨hn, _⟩
    · cases hf2
    · cases hq : d.findRecords (parseSpec b).records with
      | none => exact absurd (.inl (by rw [hq]; rfl)) hn
      | some _ => rfl
  obtain ⟨lo, hlo⟩ := Option.isSome_iff_exists.1 hrec
  obtain ⟨y, hy⟩ : ∃ y : Part, y =
    { job := job, cores := (parseSpec b).cores, recBase := (d.findRecords (parseSpec b).records).getD 0, recCount := (parseSpec b).records
      recAddr := after, quota := (parseSpec b).quota, qps := (parseSpec b).qps, regions := entries
      pot := (List.range 16).filterMap (fun k =>
        if (parseSpec b).pot.getD k 0 = 0 then none else some (k, (d.findPot k ((parseSpec b).pot.getD k 0)).getD 0, (parseSpec b).pot.getD k 0))
      cupsNew := (parseSpec b).cups
      tier := { f := (parseSpec b).tierF, c := (parseSpec b).crockC, base := ceilDiv (after + roundRows (256 * (parseSpec b).records) (setBits 16 (((parseSpec b).regions.map (·.mask)).headD 1)).length) pageBytes * pageBytes, pages := (if (parseSpec b).crockC = 0 then 0 else (parseSpec b).tierF - 8 + (parseSpec b).crockC), region := tent
                frames := List.range (parseSpec b).tierF, cframes := (d3.crock.take (parseSpec b).crockC).1 } } := ⟨_, rfl⟩
  obtain ⟨cc, co, hz⟩ := Dev.zeroUnits_shape (parseSpec b).cores (((d3.setCrock (d3.crock.take (parseSpec b).crockC).2).putPart p y).modFn p (fun v => { v with sch := {} }))
  rw [← hy, hz] at h
  subst h
  refine ⟨y, ?_, ?_, ?_, by rw [hy], by rw [hy], by rw [hy], by rw [hy], by rw [hy], by rw [hy], by rw [hy], by rw [hy], ?_⟩
  · rw [hd3]; rfl
  · rw [hd3]; rfl
  · rw [hd3]; rfl
  · rw [hy, hlo]; rfl

theorem Dev.qps_modCmd_ne (d : Dev) {r : CmdRef} {p q : Nat} (g : Cmd → Cmd) (h : qpKey p q ≠ qpKey r.f r.q) : (d.modCmd r g).qp p q = d.qp p q := by
  unfold Dev.modCmd Dev.modQp
  split
  · unfold Dev.qp Dev.putQp; exact kfind_kset_ne h _ _
  · rfl

theorem Dev.part_modCmd (d : Dev) (r : CmdRef) (g : Cmd → Cmd) (p : Nat) : (d.modCmd r g).part p = d.part p := by
  unfold Dev.modCmd Dev.modQp
  split <;> rfl

theorem Dev.freeStuck_none (d : Dev) (p : Nat) (h : ∀ e ∈ d.ctxs, e.2.retire = false) : d.freeStuck p = d := by
  unfold Dev.freeStuck
  split
  · rfl
  · dsimp only
    have : ∀ (f : Nat × Ctx → Bool), (d.ctxs.filter (fun e => f e && e.2.retire)) = [] := by
      intro f; rw [List.filter_eq_nil_iff]; intro e he; simp [h e he]
    rename_i x _
    have h2 : d.ctxs.filter (fun e => decide (x.recBase ≤ e.1) && decide (e.1 < x.recBase + x.recCount) && e.2.retire
      && !x.batches.any (fun b => b.2.running && b.2.ctxs.contains e.1)) = [] := by
      rw [List.filter_eq_nil_iff]; intro e he; simp [h e he]
    rw [h2]; rfl

theorem Dev.cmd_modPairs_ne (d : Dev) (r : CmdRef) (f : Nat) (g : Qp → Qp) (h : qpKey r.f r.q / 128 ≠ f) : (d.modPairs f g).cmd r = d.cmd r := by
  unfold Dev.cmd
  rw [Dev.qp_modPairs]
  cases d.qp r.f r.q with
  | none => rfl
  | some x => simp [h]

theorem Dev.holdChannels_none (d : Dev) (f : Nat) (h : d.channelsOf f = []) : d.holdChannels f = d := by
  unfold Dev.holdChannels; rw [h]; rfl

/-- What pairs' pointers written out to the host change: what left the device. -/
theorem Dev.emits_shape {α : Type} (f : α → Out) : ∀ (l : List α) (d : Dev), ∃ o, l.foldl (fun d e => d.emitOut (f e)) d = { d with out := o }
  | [], d => ⟨d.out, rfl⟩
  | e :: l, d => by
    obtain ⟨o, h⟩ := Dev.emits_shape f l (d.emitOut (f e))
    exact ⟨o, h⟩

theorem kfind_mem_of {α : Type} : ∀ (m : KMap α) (i : Nat) (x : α), kfind m i = some x → (i, x) ∈ m
  | [], _, _, h => by cases h
  | a :: m, i, x, h => by
    unfold kfind at h
    by_cases e : a.1 = i
    · rw [if_pos e] at h
      injection h with h
      rw [List.mem_cons]; left; rw [← h, ← e]
    · rw [if_neg e] at h
      exact List.mem_cons_of_mem _ (kfind_mem_of m i x h)

theorem Dev.part_putCtx (d : Dev) (i : Nat) (c : Ctx) (p : Nat) : ∃ t, (d.putCtx i c).part p = (d.part p).map (fun x => { x with tier := t }) := by
  unfold Dev.putCtx
  dsimp only
  split
  · exact Dev.tier_same rfl p
  · split
    · exact (Dev.accessed_store (d.setCtxs (kset d.ctxs i c)) _ _ _ _).tier p
    · exact Dev.tier_same rfl p

/-- The context records of a list written out as non-resident. -/
theorem Dev.parkFold_facts (p : Nat) : ∀ (l : List (Nat × Ctx)) (e : Dev),
    (∀ r, (l.foldl (fun d e => d.putCtx e.1 { e.2 with resident := false, cstate := if e.2.cstate = 3 then 2 else e.2.cstate }) e).cmd r = e.cmd r) ∧
    (∃ t, (l.foldl (fun d e => d.putCtx e.1 { e.2 with resident := false, cstate := if e.2.cstate = 3 then 2 else e.2.cstate }) e).part p =
      (e.part p).map (fun x => { x with tier := t })) ∧
    ∀ i, ((∃ z ∈ l, z.1 = i) → ((l.foldl (fun d e => d.putCtx e.1 { e.2 with resident := false, cstate := if e.2.cstate = 3 then 2 else e.2.cstate }) e).ctx i).resident = false) ∧
      ((∀ z ∈ l, z.1 ≠ i) → (l.foldl (fun d e => d.putCtx e.1 { e.2 with resident := false, cstate := if e.2.cstate = 3 then 2 else e.2.cstate }) e).ctx i = e.ctx i)
  | [], e => ⟨fun _ => rfl, Dev.tier_same rfl p, fun i => ⟨fun h => (by obtain ⟨z, hz, _⟩ := h; cases hz), fun _ => rfl⟩⟩
  | a :: l, e => by
    obtain ⟨h1, ⟨t1, ht⟩, h2⟩ := Dev.parkFold_facts p l (e.putCtx a.1 { a.2 with resident := false, cstate := if a.2.cstate = 3 then 2 else a.2.cstate })
    refine ⟨fun r => (h1 r).trans (Dev.cmd_putCtx _ _ _ _), ?_, fun i => ⟨fun h => ?_, fun h => ?_⟩⟩
    · obtain ⟨t2, h3⟩ := Dev.part_putCtx e a.1 { a.2 with resident := false, cstate := if a.2.cstate = 3 then 2 else a.2.cstate } p
      refine ⟨t1, ?_⟩
      rw [List.foldl_cons, ht, h3, Option.map_map]; rfl
    · rw [List.foldl_cons]
      by_cases hl : ∃ z ∈ l, z.1 = i
      · exact (h2 i).1 hl
      · have hl' : ∀ z ∈ l, z.1 ≠ i := fun z hz he => hl ⟨z, hz, he⟩
        have ha : a.1 = i := by
          obtain ⟨z, hz, he⟩ := h
          rcases List.mem_cons.1 hz with rfl | hz
          · exact he
          · exact absurd he (hl' z hz)
        rw [(h2 i).2 hl', ← ha, Dev.ctx_putCtx]
    · rw [List.foldl_cons, (h2 i).2 (fun z hz => h z (List.mem_cons_of_mem _ hz)),
        Dev.ctx_putCtx_ne _ (Ne.symm (h a List.mem_cons_self))]

/-- The records of resident contexts written out: none of them is resident afterwards. -/
theorem Dev.parkAll_facts (d : Dev) (p : Nat) (x : Part) (hx : d.part p = some x) :
    (∀ i, x.recBase ≤ i → i < x.recBase + x.recCount → ((d.parkAll p).ctx i).resident = false) ∧ (∀ r, (d.parkAll p).cmd r = d.cmd r) ∧
    ∃ z, (d.parkAll p).part p = some z ∧ z.suspended = x.suspended := by
  unfold Dev.parkAll
  rw [hx]
  dsimp -zeta only
  extract_lets l d1 back
  obtain ⟨h1, ⟨t, ht⟩, h2⟩ := Dev.parkFold_facts p l d
  have ht' : d1.part p = some { x with tier := t } := ht.trans (by rw [hx]; rfl)
  rw [Dev.modPart_some d1 ht']
  refine ⟨?_, fun r => h1 r, ⟨_, Dev.part_putPart _ _ _, rfl⟩⟩
  intro i hi1 hi2
  show (d1.ctx i).resident = false
  cases hk : kfind d.ctxs i with
  | none =>
    by_cases hl : ∃ z ∈ l, z.1 = i
    · exact (h2 i).1 hl
    · rw [show d1.ctx i = d.ctx i from (h2 i).2 (fun z hz he => hl ⟨z, hz, he⟩)]
      unfold Dev.ctx kget; rw [hk]; rfl
  | some c =>
    have hc : d.ctx i = c := by unfold Dev.ctx kget; rw [hk]; rfl
    cases hr : c.resident with
    | true =>
      refine (h2 i).1 ⟨(i, c), ?_, rfl⟩
      show (i, c) ∈ d.residents x
      unfold Dev.residents
      rw [List.mem_filter]
      refine ⟨kfind_mem_of _ _ _ hk, ?_⟩
      simp [hr, hi1, hi2]
    | false =>
      by_cases hl : ∃ z ∈ l, z.1 = i
      · exact (h2 i).1 hl
      · rw [show d1.ctx i = d.ctx i from (h2 i).2 (fun z hz he => hl ⟨z, hz, he⟩), hc, hr]

theorem Dev.stackOut_clear (d : Dev) (t k lo hi : Nat) : (d.modStack t (fun x => x.clearPoison lo hi)).stackOut k = d.stackOut k := by
  unfold Dev.stackOut
  have h : ((d.modStack t (fun x => x.clearPoison lo hi)).stack k).lost = (d.stack k).lost ∧
      ((d.modStack t (fun x => x.clearPoison lo hi)).stack k).fenced = (d.stack k).fenced := by
    by_cases hk : k = t
    · subst hk; rw [Dev.stack_modStack]; exact ⟨rfl, rfl⟩
    · unfold Dev.modStack Dev.stack
      show (kget (kset d.dram t _) k {}).lost = _ ∧ (kget (kset d.dram t _) k {}).fenced = _
      rw [kget_kset_ne hk]; exact ⟨rfl, rfl⟩
  rw [h.1, h.2]; rfl

theorem mget_mclear_default (m : Mem) (lo hi x : Nat) (h : mget m x = memDefault) : mget (mclear m lo hi) x = memDefault := by
  by_cases hx : lo ≤ x ∧ x < hi
  · exact mget_mclear_in lo hi x hx.1 hx.2 m
  · rw [mget_mclear_out lo hi x (by omega)]; exact h

/-- What a fill of rows may change: the poison table of its stack, and memory. -/
theorem Dev.fillStack_facts (d : Dev) (t lo hi : Nat) : (∃ r m, d.fillStack t lo hi = { d with dram := r, mem := m }) ∧
    (∀ k, (d.fillStack t lo hi).stackOut k = d.stackOut k) ∧
    (∀ y, mget d.mem y = memDefault → mget (d.fillStack t lo hi).mem y = memDefault) ∧
    (d.stackOut t = false → ∀ i, lo ≤ i → i < hi → mget (d.fillStack t lo hi).mem (t * 2 ^ 37 + i) = memDefault) := by
  unfold Dev.fillStack
  cases h : d.stackOut t with
  | true =>
    rw [if_pos rfl]
    exact ⟨⟨d.dram, d.mem, rfl⟩, fun _ => rfl, fun _ h => h, fun h => by cases h⟩
  | false =>
    rw [if_neg (by decide)]
    refine ⟨⟨_, _, rfl⟩, fun k => Dev.stackOut_clear d t k lo hi, fun y hy => mget_mclear_default _ _ _ _ hy, fun _ i h1 h2 => ?_⟩
    exact mget_mclear_in _ _ _ (by unfold stackKey; omega) (by unfold stackKey; omega) d.mem

theorem Dev.fills_facts (lo hi : Nat) : ∀ (l : List Nat) (d : Dev),
    (∃ r m, l.foldl (fun d t => d.fillStack t lo hi) d = { d with dram := r, mem := m }) ∧
    (∀ k, (l.foldl (fun d t => d.fillStack t lo hi) d).stackOut k = d.stackOut k) ∧
    (∀ y, mget d.mem y = memDefault → mget (l.foldl (fun d t => d.fillStack t lo hi) d).mem y = memDefault) ∧
    (∀ t ∈ l, d.stackOut t = false → ∀ i, lo ≤ i → i < hi → mget (l.foldl (fun d t => d.fillStack t lo hi) d).mem (t * 2 ^ 37 + i) = memDefault)
  | [], d => ⟨⟨d.dram, d.mem, rfl⟩, fun _ => rfl, fun _ h => h, fun t ht => by cases ht⟩
  | a :: l, d => by
    obtain ⟨⟨r1, m1, e1⟩, s1, y1, t1⟩ := Dev.fillStack_facts d a lo hi
    obtain ⟨⟨r2, m2, e2⟩, s2, y2, t2⟩ := Dev.fills_facts lo hi l (d.fillStack a lo hi)
    refine ⟨⟨r2, m2, by rw [List.foldl_cons, e2, e1]⟩, fun k => (s2 k).trans (s1 k), fun y h => y2 y (y1 y h), ?_⟩
    intro t ht hs i h1 h2
    rcases List.mem_cons.1 ht with rfl | ht
    · exact y2 _ (t1 hs i h1 h2)
    · exact t2 t ht (by rw [s1]; exact hs) i h1 h2

theorem Dev.fillRegions_facts : ∀ (l : List (Nat × Region)) (d : Dev),
    (∃ r m, l.foldl (fun d e => d.fillRegion e.2) d = { d with dram := r, mem := m }) ∧
    (∀ y, mget d.mem y = memDefault → mget (l.foldl (fun d e => d.fillRegion e.2) d).mem y = memDefault) ∧
    (∀ k, (l.foldl (fun d e => d.fillRegion e.2) d).stackOut k = d.stackOut k) ∧
    (∀ e ∈ l, ∀ t ∈ setBits 16 e.2.mask, d.stackOut t = false → ∀ i, e.2.rowBase * 4194304 ≤ i →
      i < (e.2.rowBase + e.2.size / ((setBits 16 e.2.mask).length * 4194304)) * 4194304 →
      mget (l.foldl (fun d e => d.fillRegion e.2) d).mem (t * 2 ^ 37 + i) = memDefault)
  | [], d => ⟨⟨d.dram, d.mem, rfl⟩, fun _ h => h, fun _ => rfl, fun t ht => by cases ht⟩
  | a :: l, d => by
    have ha : d.fillRegion a.2 = (setBits 16 a.2.mask).foldl (fun d t => d.fillStack t (a.2.rowBase * 4194304)
      ((a.2.rowBase + a.2.size / ((setBits 16 a.2.mask).length * 4194304)) * 4194304)) d := rfl
    obtain ⟨⟨r1, m1, e1⟩, s1, y1, t1⟩ := Dev.fills_facts (a.2.rowBase * 4194304)
      ((a.2.rowBase + a.2.size / ((setBits 16 a.2.mask).length * 4194304)) * 4194304) (setBits 16 a.2.mask) d
    rw [← ha] at e1 s1 y1 t1
    obtain ⟨⟨r2, m2, e2⟩, y2, s2, t2⟩ := Dev.fillRegions_facts l (d.fillRegion a.2)
    refine ⟨⟨r2, m2, by rw [List.foldl_cons, e2, e1]⟩, fun y h => y2 y (y1 y h), fun k => (s2 k).trans (s1 k), ?_⟩
    intro e he t ht hs i h1 h2
    rcases List.mem_cons.1 he with rfl | he
    · exact y2 _ (t1 t ht hs i h1 h2)
    · exact t2 e he t ht (by rw [s1]; exact hs) i h1 h2

theorem Dev.clearPots_facts (x : Part) : ∀ (l : List (Nat × Nat × Nat)) (d : Dev) (y : Nat), mget d.mem y = memDefault →
    mget (l.foldl (fun d e =>
    let lo := potKeyAt e.1 (e.2.1 * 1048576)
    let hi := lo + e.2.2 * 1048576
    (d.setPotBad (cutRanges d.potBad lo hi)).setMem (mclear d.mem lo hi)) d).mem y = memDefault
  | [], _, _, h => h
  | a :: l, d, y, h => by
    rw [List.foldl_cons]
    exact Dev.clearPots_facts x l _ y (mget_mclear_default _ _ _ _ h)

theorem mem_foldl_insertSorted (g : Nat) : ∀ (l m : List Nat), g ∈ l.foldl (fun l g => insertSorted g l) m ↔ g ∈ m ∨ g ∈ l
  | [], m => by simp
  | a :: l, m => by
    rw [List.foldl_cons, mem_foldl_insertSorted g l, mem_insertSorted, List.mem_cons]
    constructor
    · rintro ((h | h) | h)
      · exact .inr (.inl h)
      · exact .inl h
      · exact .inr (.inr h)
    · rintro (h | h | h)
      · exact .inl (.inr h)
      · exact .inl (.inl h)
      · exact .inr h

theorem Dev.giveRegions_facts (q : Nat) (y : Part) : ∀ (l : List (Nat × Region)) (d : Dev), d.part q = some y →
    ∀ e : Dev, e = l.foldl (fun d e =>
      let top := (d.regions.map (fun r => if r.2.part = q then r.2.base + r.2.size else 0)).foldl max 0
      let tier := match d.part q with
        | some y => y.tier.base + y.tier.pages * pageBytes
        | none => 0
      let d1 := d.setRegions (kset d.regions e.1 { e.2 with part := q, base := max top tier, kind := 0 })
      d1.modPart q (fun y => { y with regions := y.regions ++ [e.1] })) d →
    (∃ r m, e = (d.setRegions r).setParts m) ∧ ∃ z, e.part q = some z ∧ z.cores = y.cores
  | [], d, h, e, he => by exact ⟨⟨d.regions, d.parts, he⟩, y, by rw [he]; exact h, rfl⟩
  | a :: l, d, h, e, he => by
    rw [List.foldl_cons] at he
    dsimp only at he
    rw [h] at he
    dsimp only at he
    obtain ⟨G, hG⟩ : ∃ G, G = kset d.regions a.1 { a.2 with part := q, base := max ((d.regions.map (fun r => if r.2.part = q then r.2.base + r.2.size else 0)).foldl max 0) (y.tier.base + y.tier.pages * pageBytes), kind := 0 } := ⟨_, rfl⟩
    rw [← hG] at he
    have hp : (d.setRegions G).modPart q (fun y => { y with regions := y.regions ++ [a.1] }) =
        (d.setRegions G).putPart q { y with regions := y.regions ++ [a.1] } :=
      Dev.modPart_some (d.setRegions G) (p := q) (x := y) h _
    rw [hp] at he
    obtain ⟨⟨r, m, e1⟩, z, hz, hc⟩ := Dev.giveRegions_facts q { y with regions := y.regions ++ [a.1] } l
      ((d.setRegions G).putPart q { y with regions := y.regions ++ [a.1] }) (Dev.part_putPart _ _ _) e he
    refine ⟨⟨r, m, ?_⟩, z, hz, hc⟩
    rw [e1]; rfl

end Sys2Proof.Machine
end

