-- ==== Sys2Proof/Laws/Runs.lean ====
section
/-! SUPPORT. Runs on cores: scoreboards at the head of the work, multicast copies, and the end of a run. -/

namespace Sys2Proof.Machine

theorem find_core_map (P : CoreRun → Bool) {c c' : CoreRun} (hP : P c' = P c) (h2 : c'.rank = c.rank) :
    ∀ l : List CoreRun, l.find? P = some c → (l.map (fun k => if k.rank = c'.rank then c' else k)).find? P = some c'
  | [], h => by cases h
  | a :: l, h => by
    rw [List.find?_cons] at h
    rw [List.map_cons, List.find?_cons]
    cases ha : P a with
    | true =>
      rw [ha] at h
      cases h
      rw [if_pos h2.symm, hP, ha]
    | false =>
      rw [ha] at h
      dsimp only at h
      have hc := List.find?_some h
      by_cases hr : a.rank = c'.rank
      · rw [if_pos hr, hP, hc]
      · rw [if_neg hr, ha]
        exact find_core_map P hP h2 l h

theorem Run.coreAt_putCore {x : Run} {g : Nat} {c c' : CoreRun} (h : x.coreAt g = some c) (h1 : c'.core = c.core)
    (h2 : c'.rank = c.rank) : (x.putCore c').coreAt g = some c' :=
  find_core_map _ (by rw [h1, h2]) h2 x.cores h

theorem Dev.run_putRun (d : Dev) (i : Nat) (x : Run) : (d.putRun i x).run i = some x := kfind_kset_self _ _ _

theorem find_kset {α : Type} (P : Nat × α → Bool) {k : Nat} {x y : α} (hP : P (k, y) = true) :
    ∀ m : KMap α, m.find? P = some (k, x) → (kset m k y).find? P = some (k, y)
  | [], h => by cases h
  | (j, z) :: m, h => by
    unfold kset
    split
    · rw [List.find?_cons, hP]
    · split
      · rw [List.find?_cons, hP]
      · rename_i hne
        rw [List.find?_cons] at h ⊢
        cases hz : P (j, z) with
        | true => rw [hz] at h; cases h; exact absurd rfl hne
        | false => rw [hz] at h; exact find_kset P hP m h

/-- The run of a core stays its run when it is written back. -/
theorem Dev.runOn_putRun {d : Dev} {g rid : Nat} {x y : Run} (h : d.runOn g = some (rid, x)) (he : y.ended = x.ended)
    (hc : (y.coreAt g).isSome = true) : (d.putRun rid y).runOn g = some (rid, y) := by
  have hx := List.find?_some h
  refine find_kset _ ?_ d.runs h
  rw [he, hc]
  simp only [Bool.and_eq_true] at hx ⊢
  exact ⟨hx.1, trivial⟩

theorem Dev.sbAdvance_of {d : Dev} {g rid : Nat} {x : Run} {c : CoreRun} {p : Part} {pg : Prog} (h1 : d.runOn g = some (rid, x))
    (h2 : x.coreAt g = some c) (h3 : d.part x.part = some p) (h4 : d.runProg x = some pg) (h5 : c.done = false) (h6 : x.waits = false) :
    ∃ b, d.sbAdvance g =
      (d.putPart x.part { p with jsets := p.jsets ++ (sbRun p.jsb (sbOf pg.image) c.todo c []).2.1 }).putRun rid
        (if (sbRun p.jsb (sbOf pg.image) c.todo c []).2.2 then (x.putCore (sbRun p.jsb (sbOf pg.image) c.todo c []).1).waited g b
         else ((x.putCore (sbRun p.jsb (sbOf pg.image) c.todo c []).1).waited g b).kill (.fail stScoreboardOverflow)) := by
  unfold Dev.sbAdvance
  rw [h1]; dsimp only
  rw [h2, h3, h4]; dsimp only
  rw [h5, h6]; exact ⟨_, rfl⟩

/-- A WAIT changes only what a core has noted of writes by others. -/
theorem Run.waited_late (x : Run) (g : Nat) (b : Bool) : ∃ l, x.waited g b = { x with late := l } := by
  unfold Run.waited; split
  · exact ⟨_, rfl⟩
  · exact ⟨x.late, rfl⟩

/-- A layer that does not escalate is only marked as judged. -/
theorem Dev.judgeLayer_plain {d : Dev} {rid i : Nat} {x : Run} {pg : Prog} (h : d.run rid = some x) (hp : d.runProg x = some pg)
    (he : (parseLayer pg.image i).escalate = false) :
    ∃ j, d.judgeLayer rid i = d ∨ d.judgeLayer rid i = d.putRun rid { x with judged := j } := by
  unfold Dev.judgeLayer
  rw [h]; dsimp only
  rw [hp]; dsimp only
  split
  · exact ⟨[], .inl rfl⟩
  · rw [he]
    simp only [Bool.not_false, Bool.true_or, if_true]
    exact ⟨_, .inr rfl⟩

theorem Dev.judgeLayers_plain {rid : Nat} {pg : Prog} : ∀ (l : List Nat) {d : Dev} {x : Run}, d.run rid = some x →
    d.runProg x = some pg → (∀ i ∈ l, (parseLayer pg.image i).escalate = false) →
    ∃ r j, l.foldl (fun d l => d.judgeLayer rid l) d = d.setRuns r ∧ kfind r rid = some { x with judged := j }
  | [], d, x, h, _, _ => ⟨d.runs, x.judged, rfl, h⟩
  | a :: l, d, x, h, hp, he => by
    obtain ⟨j, h1⟩ := Dev.judgeLayer_plain h hp (he a (List.mem_cons_self ..))
    rw [List.foldl_cons]
    rcases h1 with h1 | h1
    · rw [h1]; exact Dev.judgeLayers_plain l h hp (fun i hi => he i (List.mem_cons_of_mem _ hi))
    · rw [h1]
      obtain ⟨r, j2, h2, h3⟩ := Dev.judgeLayers_plain l (d := d.putRun rid { x with judged := j }) (Dev.run_putRun _ _ _)
        hp (fun i hi => he i (List.mem_cons_of_mem _ hi))
      exact ⟨r, j2, h2, h3⟩

theorem Dev.judge_plain {d : Dev} {rid : Nat} {x : Run} {pg : Prog} (h : d.run rid = some x) (hp : d.runProg x = some pg)
    (he : ∀ i ∈ x.layers pg.image, (parseLayer pg.image i).escalate = false) :
    ∃ r j, d.judge rid = d.setRuns r ∧ kfind r rid = some { x with judged := j } := by
  unfold Dev.judge
  rw [h]; dsimp only
  rw [hp]; dsimp only
  exact Dev.judgeLayers_plain _ h hp he

/-- A core whose command has ended, or whose next work waits for a subscribed tile, starts no tile pass. -/
theorem Dev.workOn_waits {d : Dev} {g rid : Nat} {x : Run} {c : CoreRun} (f : Option PassFault) (e : Env)
    (h1 : d.runOn g = some (rid, x)) (h2 : x.coreAt g = some c)
    (h3 : c.done = true ∨ ∀ w rest j, c.todo = w :: rest → w.sb = none → d.jobFor x c e w = some j → j.awaits c = true) : d.workOn g f e = d := by
  unfold Dev.workOn
  rw [h1]; dsimp only
  rw [h2]
  cases d.runProg x with
  | none => rfl
  | some pg =>
    dsimp only
    cases ht : c.todo with
    | nil => rfl
    | cons w rest =>
      dsimp only
      rcases h3 with h3 | h3
      · rw [if_pos (by simp [h3])]
      · split
        · rfl
        · rename_i hc
          have hw : w.sb = none := by
            cases h : w.sb with
            | none => rfl
            | some z => simp [h] at hc
          split
          · rfl
          · rename_i j hj
            rw [if_pos (h3 w rest j ht hw hj)]

/-- What a piece of work runs under does not depend on the work that is left. -/
theorem Dev.jobFor_same {d d' : Dev} {x x' : Run} {c c' : CoreRun} (e : Env) (w : Work) (hp : d'.runProg x' = d.runProg x)
    (hx : x'.part = x.part ∧ x'.prog = x.prog ∧ x'.cmd = x.cmd ∧ x'.list = x.list ∧ x'.ctxs = x.ctxs)
    (hc : c'.core = c.core ∧ c'.inst = c.inst ∧ c'.len = c.len) : d'.jobFor x' c' e w = d.jobFor x c e w := by
  unfold Dev.jobFor Run.rowsPer
  rw [hp, hx.1, hx.2.1, hx.2.2.1, hx.2.2.2.1, hx.2.2.2.2, hc.1, hc.2.1, hc.2.2]

/-- TILE_PASS on a core that only runs scoreboard operations. -/
theorem Dev.tilePass_sb {d : Dev} {g rid : Nat} {x : Run} {c c' : CoreRun} {p : Part} {pg : Prog} {js : List JSet}
    (f : Option PassFault) (e : Env) (h1 : d.runOn g = some (rid, x))
    (h2 : x.coreAt g = some c) (h3 : d.part x.part = some p) (h4 : d.runProg x = some pg) (h5 : c.done = false) (h6 : x.waits = false)
    (hs : sbRun p.jsb (sbOf pg.image) c.todo c [] = (c', js, true)) (hc : c'.core = c.core ∧ c'.inst = c.inst ∧ c'.len = c.len)
    (hr : c'.rank = c.rank) (hd : c'.done = false)
    (hu : ∀ w rest j, c'.todo = w :: rest → w.sb = none → d.jobFor x c e w = some j → j.awaits c' = true)
    (hrest : sbRun p.jsb (sbOf pg.image) c'.todo c' [] = (c', [], true))
    (he : ∀ i ∈ x.layers pg.image, (parseLayer pg.image i).escalate = false) :
    ∃ y z, (d.tilePass g f e).run rid = some y ∧ y.coreAt g = some c' ∧ (d.tilePass g f e).part x.part = some z ∧
      z.jsets = p.jsets ++ js ∧ z.jsb = p.jsb := by
  obtain ⟨b, a1⟩ := Dev.sbAdvance_of h1 h2 h3 h4 h5 h6
  rw [hs] at a1
  dsimp only at a1
  rw [if_pos rfl] at a1
  obtain ⟨l, hl⟩ := Run.waited_late (x.putCore c') g b
  rw [hl] at a1
  obtain ⟨D, hD⟩ : ∃ D, D = d.sbAdvance g := ⟨_, rfl⟩
  rw [← hD] at a1
  obtain ⟨X, hX⟩ : ∃ X : Run, X = { x.putCore c' with late := l } := ⟨_, rfl⟩
  rw [← hX] at a1
  have b2 : X.coreAt g = some c' := by rw [hX]; exact Run.coreAt_putCore h2 hc.1 hr
  have xp : X.part = x.part ∧ X.prog = x.prog ∧ X.cmd = x.cmd ∧ X.list = x.list ∧ X.ctxs = x.ctxs := by rw [hX]; exact ⟨rfl, rfl, rfl, rfl, rfl⟩
  have b1 : D.runOn g = some (rid, X) := by
    rw [a1]
    exact Dev.runOn_putRun (d := d.putPart x.part _) h1 (by rw [hX]; rfl) (by rw [b2]; rfl)
  have b3 : D.part X.part = some { p with jsets := p.jsets ++ js } := by
    rw [a1, xp.1]; exact Dev.part_putPart _ _ _
  have b4 : D.runProg X = some pg := by
    have e0 : (some p).bind (fun (p : Part) => kfind p.progs x.prog) = some pg := by rw [← h3]; exact h4
    unfold Dev.runProg
    rw [b3, xp.2.1]
    exact e0
  have b6 : X.waits = false := by rw [hX]; exact h6
  obtain ⟨b', a2⟩ := Dev.sbAdvance_of b1 b2 b3 b4 hd b6
  dsimp only at a2
  rw [hrest] at a2
  dsimp only at a2
  rw [if_pos rfl] at a2
  obtain ⟨l', hl'⟩ := Run.waited_late (X.putCore c') g b'
  rw [hl'] at a2
  obtain ⟨E, hE⟩ : ∃ E, E = D.sbAdvance g := ⟨_, rfl⟩
  rw [← hE, xp.1] at a2
  have c1 : E.run rid = some { X.putCore c' with late := l' } := by rw [a2]; exact Dev.run_putRun _ _ _
  have c3 : E.part x.part = some { p with jsets := p.jsets ++ js ++ [] } := by rw [a2]; exact Dev.part_putPart _ _ _
  have c4 : E.runProg { X.putCore c' with late := l' } = some pg := by
    have e0 : (some p).bind (fun (p : Part) => kfind p.progs x.prog) = some pg := by rw [← h3]; exact h4
    unfold Dev.runProg
    rw [show ({ X.putCore c' with late := l' } : Run).part = x.part from xp.1, c3,
      show ({ X.putCore c' with late := l' } : Run).prog = x.prog from xp.2.1]
    exact e0
  have c5 : ({ X.putCore c' with late := l' } : Run).layers pg.image = x.layers pg.image := by
    rw [hX]; rfl
  obtain ⟨r, j, q1, q2⟩ := Dev.judge_plain c1 c4 (by rw [c5]; exact he)
  have ht : d.tilePass g f e = E.setRuns r := by
    unfold Dev.tilePass
    rw [h1]; dsimp only
    rw [← hD, Dev.workOn_waits f e b1 b2 (.inr (fun w rest j hw hs hj => hu w rest j hw hs ?_)), ← hE, q1]
    rw [← hj]
    exact (Dev.jobFor_same e w (by rw [b4, h4]) xp hc).symm
  rw [ht]
  refine ⟨_, _, q2, ?_, c3, by simp, rfl⟩
  exact Run.coreAt_putCore (c := c') (c' := c') b2 rfl rfl

theorem sbRun_stop (jsb : KMap Nat) (op : Work → Option SbD) (v : Work) (l : List Work) (c : CoreRun) (js : List JSet)
    (h : v.sb = none) : sbRun jsb op (v :: l) c js = ({ c with todo := v :: l }, js, true) := by
  unfold sbRun
  rw [h]

theorem sbRun_head (jsb : KMap Nat) (op : Work → Option SbD) (w : Work) (l : List Work) (c : CoreRun) (js : List JSet) {o : SbD}
    (h : w.sb.isSome = true) (ho : op w = some o) : sbRun jsb op (w :: l) c js =
      if o.op = 2 then
        if o.scope = 0 then
          if 65535 < kget c.sb o.entry 0 + o.value then ({ c with todo := w :: l }, js, false)
          else sbRun jsb op l { c with sb := kset c.sb o.entry (kget c.sb o.entry 0 + o.value) } js
        else sbRun jsb op l c (js ++ [{ idx := o.entry, value := o.value }])
      else if o.scope = 0 then
        if o.value ≤ kget c.sb o.entry 0 then sbRun jsb op l { c with sb := kset c.sb o.entry (kget c.sb o.entry 0 - o.value) } js
        else ({ c with todo := w :: l }, js, true)
      else if junctionMet (kget jsb o.entry 0) (instEpoch c.inst) o.value then sbRun jsb op l c js
      else ({ c with todo := w :: l }, js, true) := by
  obtain ⟨i, hi⟩ := Option.isSome_iff_exists.1 h
  rw [sbRun.eq_def]
  dsimp only
  rw [hi, ho]

/-- The marks of a run, of which none or one is a failure, decide the status of its command. -/
theorem Dev.ended_marked (d : Dev) {r : CmdRef} {k : Cmd} {m : Marks} {st z : Nat} (h : d.cmd r = some k) (hm : k.marks = {})
    (hz : (Marks.join {} m).final st = (z, 0)) (dies : List Nat) : ((d.mark r m).finish r st 0 0 0 dies).Ended r z 0 0 0 := by
  have h1 := Dev.cmd_mark d h m
  have h2 := Dev.cmd_finish (d.mark r m) h1 st 0 0 0 dies
  rw [hm] at h2
  refine ⟨_, h2, rfl, congrArg Prod.fst hz, ?_, ?_, ?_⟩
  · dsimp only; split <;> rfl
  · dsimp only; split <;> rfl
  · dsimp only; rw [hz]; dsimp only; split <;> rfl

theorem Dev.leaveAll_shape : ∀ (l : List CoreRun) (d : Dev), ∃ c, l.foldl (fun d (c : CoreRun) => d.leaveCore c.core) d = d.setCores c
  | [], d => ⟨d.cores, rfl⟩
  | a :: l, d => by
    rw [List.foldl_cons]
    have : ∃ c, d.leaveCore a.core = d.setCores c := by
      unfold Dev.leaveCore
      split
      · exact ⟨d.cores, rfl⟩
      · exact ⟨_, rfl⟩
    obtain ⟨c1, h1⟩ := this
    obtain ⟨c2, h2⟩ := Dev.leaveAll_shape l (d.leaveCore a.core)
    exact ⟨c2, by rw [h2, h1]; rfl⟩

theorem Dev.closeRun_shape {d : Dev} {rid : Nat} {x : Run} (h : d.run rid = some x) :
    ∃ y j c, y = { x with ended := true, release := d.stamps x.dies, cores := x.cores.map (fun c => { c with done := true }) } ∧
      d.closeRun rid = (match x.cmd with
        | none => ((d.putRun rid y).setJds j).setCores c
        | some r => (((((d.putRun rid y).setJds j).setCores c).mark r x.marks).finish r
            (if x.empty then stEmptyOutput else stSuccess) 0 0 0 x.dies).dropRun rid) := by
  unfold Dev.closeRun
  rw [h]; dsimp only
  obtain ⟨y, hy⟩ : ∃ y : Run, y = { x with ended := true, release := d.stamps x.dies, cores := x.cores.map (fun c => { c with done := true }) } := ⟨_, rfl⟩
  rw [← hy]
  obtain ⟨c, hc⟩ := Dev.leaveAll_shape x.cores ((d.putRun rid y).dropSubs x)
  rw [hc]
  refine ⟨y, ((d.putRun rid y).dropSubs x).jds, c, rfl, ?_⟩
  cases x.cmd with
  | none => rfl
  | some r => rfl

theorem Dev.accessed_putPlace (d : Dev) (x : Run) (place : Nat) (b : Bytes) : d.Accessed (d.putPlace x place b) := by
  unfold Dev.putPlace
  dsimp only
  split
  · exact Dev.accessed_store _ _ _ _ _
  · split
    · split
      · exact Dev.accessed_potPut _ _ _ _ _
      · exact .rfl d
    · exact .rfl d

theorem Dev.accessed_blurRuns (d : Dev) (x : Run) (l : List (Nat × Nat)) : d.Accessed (d.blurRuns x l) :=
  Dev.Accessed.foldl _ (fun d (r : Nat × Nat) => (Dev.accessed_freeBytes d r.2).trans (Dev.accessed_putPlace _ _ _ _)) l d

theorem Dev.settle_accessed (d : Dev) (rid : Nat) : d.Accessed (d.settleOutputs rid) := by
  unfold Dev.settleOutputs
  cases d.run rid with
  | none => exact Dev.Accessed.rfl d
  | some x =>
    dsimp only
    split
    · exact Dev.Accessed.foldl _ (fun d w => Dev.accessed_putPlace _ _ _ _) _ _
    · exact .rfl d

/-- A run that looks for its stockpot space changes itself, and may free the bytes of that space. -/
theorem Dev.grant_acc (d : Dev) (rid : Nat) : d.Accessed ((d.grant rid).setRuns d.runs) := by
  unfold Dev.grant
  split
  · exact .rfl d
  · split
    · exact .rfl d
    · split
      · exact .rfl d
      · extract_lets cs own d1
        have a : d.Accessed d1 := by
          show d.Accessed (if own then _ else d)
          split
          · exact Dev.Accessed.foldl _ (fun d c => Dev.accessed_blurPot d _ _ _ _) _ d
          · exact .rfl d
        have e : d1.setRuns d.runs = d1 := by rw [← a.runs]; rfl
        show d.Accessed (d1.setRuns d.runs)
        rw [e]; exact a

theorem Dev.grant_run_ne (d : Dev) {rid i : Nat} (h : i ≠ rid) : (d.grant rid).run i = d.run i := by
  unfold Dev.grant
  split
  · rfl
  · split
    · rfl
    · split
      · rfl
      · extract_lets cs own d1
        have a : d1.runs = d.runs := by
          show (if own then _ else d).runs = _
          split
          · exact (Dev.Accessed.foldl _ (fun d c => Dev.accessed_blurPot d _ _ _ _) _ d).runs
          · rfl
        unfold Dev.run Dev.putRun Dev.setRuns
        rw [← a]; exact kfind_kset_ne h _ _

/-- A run that does not wait takes no space. -/
theorem Dev.grant_same {d : Dev} {rid : Nat} (h : ∀ x, d.run rid = some x → x.stalled = false ∨ x.ended = true) : d.grant rid = d := by
  unfold Dev.grant
  split
  · rfl
  · rename_i x hx
    rcases h x hx with h | h <;> simp [h]

theorem Dev.grantAll_acc (d : Dev) : d.Accessed (d.grantAll.setRuns d.runs) := by
  unfold Dev.grantAll
  generalize d.runs.map (·.1) = l
  induction l generalizing d with
  | nil => exact .rfl d
  | cons i l ih => exact (Dev.grant_acc d i).trans ((ih (d.grant i)).setRuns d.runs)

/-- A run that does not wait is as it was when every run has looked for its space. -/
theorem Dev.grantAll_run {d : Dev} {i : Nat} {x : Run} (h : d.run i = some x) (hs : x.stalled = false ∨ x.ended = true) :
    d.grantAll.run i = some x := by
  unfold Dev.grantAll
  generalize d.runs.map (·.1) = l
  induction l generalizing d with
  | nil => exact h
  | cons k l ih =>
    refine ih ?_
    dsimp only
    by_cases hk : i = k
    · subst hk
      rw [Dev.grant_same (fun y hy => by rw [h] at hy; cases hy; exact hs)]; exact h
    · rw [Dev.grant_run_ne d hk]; exact h

theorem Dev.grantAll_none {d : Dev} {i : Nat} (h : d.run i = none) : d.grantAll.run i = none := by
  unfold Dev.grantAll
  generalize d.runs.map (·.1) = l
  induction l generalizing d with
  | nil => exact h
  | cons k l ih =>
    refine ih ?_
    dsimp only
    by_cases hk : i = k
    · subst hk
      rw [Dev.grant_same (fun y hy => by rw [h] at hy; cases hy)]; exact h
    · rw [Dev.grant_run_ne d hk]; exact h

/-- Where no run waits for space, nothing happens. -/
theorem Dev.grantAll_same {d : Dev} (h : ∀ i x, d.run i = some x → x.stalled = false ∨ x.ended = true) : d.grantAll = d := by
  unfold Dev.grantAll
  generalize d.runs.map (·.1) = l
  induction l with
  | nil => rfl
  | cons k l ih => rw [List.foldl_cons, Dev.grant_same (h k)]; exact ih

/-- The end of a run whose cores have all stopped: no SET, no signature, no norm is left to look at. -/
theorem Dev.endRun_stopped {d : Dev} {rid : Nat} {x : Run} (h : d.run rid = some x) (hd : ∀ c ∈ x.workers, c.done = true)
    (hn : x.norms = []) : ∃ m, d.endRun rid = (((d.setParts m).settleOutputs rid).closeRun rid).grantAll := by
  have hlive : x.workers.filter (fun c => !c.done) = [] := by
    rw [List.filter_eq_nil_iff]; intro c hc; rw [hd c hc]; decide
  have h1 : ∃ m, d.endSets rid = d.setParts m := by
    unfold Dev.endSets
    rw [h]; dsimp only
    split
    · rw [hlive]
      exact ⟨_, rfl⟩
    · exact ⟨d.parts, rfl⟩
  obtain ⟨m, h1⟩ := h1
  refine ⟨m, ?_⟩
  have hr : (d.setParts m).run rid = some x := h
  have h2 : (d.setParts m).signatures rid = d.setParts m := by
    unfold Dev.signatures
    rw [hr]; dsimp only
    rw [hlive]; rfl
  have h3 : (d.setParts m).normsEnd rid = d.setParts m := by
    unfold Dev.normsEnd
    rw [hr]; dsimp only
    split
    · rfl
    · have : x.normKeys = [] := by unfold Run.normKeys; rw [hn]; rfl
      rw [this]
      rfl
  unfold Dev.endRun
  rw [h1, h2, h3]

theorem find_unique {α : Type} [DecidableEq α] {l : List α} {P : α → Bool} {m : α} (h : m ∈ l) (hm : P m = true) (hu : ∀ z ∈ l, P z = true → z = m) :
    l.find? P = some m := by
  cases hf : l.find? P with
  | none => rw [List.find?_eq_none] at hf; exact absurd hm (hf m h)
  | some z => rw [hu z (List.mem_of_find?_eq_some hf) (List.find?_some hf)]

/-- What happens to one subscriber of an arriving tile. -/
def CoreRun.take (tile : Nat) (bad : List Nat) (g : Nat) (c : CoreRun) : CoreRun :=
  if c.core = g ∧ c.subs.contains tile then
    { c with subs := c.subs.erase tile, got := c.got ++ [if bad.contains g then tile + 2 ^ 40 else tile] } else c


/-- What a copy to one subscriber does to the runs. -/
def Run.takeAll (part prog tile : Nat) (bad : List Nat) (g : Nat) (e : Nat × Run) : Nat × Run :=
  if e.2.part = part ∧ e.2.prog = prog ∧ !e.2.ended then
    (e.1, { e.2 with cores := e.2.cores.map (fun c => c.take tile bad g) }) else e

theorem Dev.copy_runs (d : Dev) (part prog tile g : Nat) (bad : List Nat) :
    (if bad.contains g then d.missTile part prog tile g else d.deliver part prog tile g).runs =
      d.runs.map (Run.takeAll part prog tile bad g) := by
  have e : (fun c : CoreRun => c.take tile bad g) = fun c =>
      if c.core = g ∧ c.subs.contains tile then
        { c with subs := c.subs.erase tile, got := c.got ++ [if bad.contains g then tile + 2 ^ 40 else tile] } else c := rfl
  unfold Run.takeAll
  rw [e]
  cases h : bad.contains g with
  | true =>
    rw [if_pos rfl]
    unfold Dev.missTile
    dsimp only
    rw [Dev.count_runs]
    rfl
  | false => rw [if_neg (by decide)]; rfl

/-- What happens to a core when every subscriber of a list has its copy. -/
def CoreRun.takes (tile : Nat) (bad l : List Nat) (c : CoreRun) : CoreRun :=
  if c.core ∈ l ∧ tile ∈ c.subs then
    { c with subs := c.subs.erase tile, got := c.got ++ [if c.core ∈ bad then tile + 2 ^ 40 else tile] } else c

theorem CoreRun.takes_cons (tile : Nat) (bad : List Nat) {g : Nat} {l : List Nat} (h : g ∉ l) (c : CoreRun) :
    (c.take tile bad g).takes tile bad l = c.takes tile bad (g :: l) := by
  by_cases hc : c.core = g ∧ tile ∈ c.subs
  · have e : c.take tile bad g = { c with subs := c.subs.erase tile, got := c.got ++ [if c.core ∈ bad then tile + 2 ^ 40 else tile] } := by
      unfold CoreRun.take
      rw [if_pos ⟨hc.1, by simpa using hc.2⟩, hc.1]
      simp
    rw [e]
    unfold CoreRun.takes
    rw [if_neg (fun q => h (hc.1 ▸ q.1)), if_pos (show c.core ∈ g :: l ∧ tile ∈ c.subs from ⟨by rw [hc.1]; exact List.mem_cons_self .., hc.2⟩)]
  · have e : c.take tile bad g = c := by
      unfold CoreRun.take
      rw [if_neg (by simpa using hc)]
    rw [e]
    unfold CoreRun.takes
    by_cases hl : c.core ∈ l ∧ tile ∈ c.subs
    · rw [if_pos hl, if_pos (show c.core ∈ g :: l ∧ tile ∈ c.subs from ⟨List.mem_cons_of_mem _ hl.1, hl.2⟩)]
    · rw [if_neg hl, if_neg (show ¬ (c.core ∈ g :: l ∧ tile ∈ c.subs) from ?_)]
      rintro ⟨a, b⟩
      rcases List.mem_cons.1 a with a | a
      · exact hc ⟨a, b⟩
      · exact hl ⟨a, b⟩

/-- Copies to several subscribers, one after the other. -/
theorem Dev.copies_runs (part prog tile : Nat) (bad : List Nat) : ∀ (l : List Nat) (d : Dev), l.Nodup →
    (l.foldl (fun d g => if bad.contains g then d.missTile part prog tile g else d.deliver part prog tile g) d).runs =
      d.runs.map (fun e =>
          if e.2.part = part ∧ e.2.prog = prog ∧ e.2.ended = false then
            (e.1, { e.2 with cores := e.2.cores.map (fun c => c.takes tile bad l) }) else e)
  | [], d, _ => by
    rw [List.foldl_nil]
    conv => lhs; rw [← List.map_id d.runs]
    apply List.map_congr_left
    intro e _
    split
    · have : e.2.cores.map (fun c => c.takes tile bad []) = e.2.cores := by
        conv => rhs; rw [← List.map_id e.2.cores]
        apply List.map_congr_left
        intro c _
        unfold CoreRun.takes
        rw [if_neg (by simp)]; rfl
      rw [this]; rfl
    · rfl
  | g :: l, d, hn => by
    rw [List.foldl_cons, Dev.copies_runs part prog tile bad l _ (List.nodup_cons.1 hn).2, Dev.copy_runs, List.map_map]
    apply List.map_congr_left
    intro e _
    show (fun e : Nat × Run => _) (Run.takeAll part prog tile bad g e) = _
    unfold Run.takeAll
    dsimp only
    by_cases h : e.2.part = part ∧ e.2.prog = prog ∧ e.2.ended = false
    · have h' : e.2.part = part ∧ e.2.prog = prog ∧ (!e.2.ended) = true := ⟨h.1, h.2.1, by rw [h.2.2]; rfl⟩
      rw [if_pos h', if_pos h, if_pos h]
      dsimp only
      rw [List.map_map]
      congr 2
      apply List.map_congr_left
      intro c _
      exact CoreRun.takes_cons tile bad (List.nodup_cons.1 hn).1 c
    · have h' : ¬ (e.2.part = part ∧ e.2.prog = prog ∧ (!e.2.ended) = true) := by simpa using h
      rw [if_neg h', if_neg h, if_neg h]

end Sys2Proof.Machine
end

