-- ==== Sys2Proof/Laws/Registers.lean ====
section
/-! SUPPORT. Register writes, a function's admin pair and its reset. -/

namespace Sys2Proof.Machine

/-- What is left of a pair that is shut. -/
def Qp.left (x : Qp) : Option Qp := if x.shut.cmds.isEmpty then none else some x.shut

theorem Qp.abortWaiting_running (x : Qp) (h : ∀ c ∈ x.cmds, c.phase = .running) : x.abortWaiting.1 = x := by
  unfold Qp.abortWaiting
  dsimp only
  have e : x.cmds.map (fun c => if (c.phase == .waiting || c.phase == .held) = true then
      { c with phase := .ended, status := stAborted } else c) = x.cmds := by
    conv => rhs; rw [← List.map_id x.cmds]
    apply List.map_congr_left
    intro c hc
    rw [h c hc]; rfl
  rw [e]

theorem Qp.shut_cmds (x : Qp) : x.shut.cmds = x.cmds.filter (·.phase == .running) := by
  unfold Qp.shut Qp.abortWaiting
  dsimp only
  induction x.cmds with
  | nil => rfl
  | cons c l ih =>
    rw [List.map_cons, List.filter_cons, List.filter_cons, ih]
    cases h : c.phase <;> simp [h]

theorem Qp.shut_of (y : Qp) (h : ∀ c ∈ y.cmds, c.phase = .running) (hd : y.discard = true) (hf : y.fetchStopped = true) :
    y.shut = y := by
  have h3 : y.cmds.filter (·.phase == .running) = y.cmds := by
    rw [List.filter_eq_self]; intro c hc; rw [h c hc]; rfl
  unfold Qp.shut
  rw [Qp.abortWaiting_running y h]
  dsimp only
  rw [h3]
  cases y
  cases hd
  cases hf
  rfl

theorem Qp.shut_shut (x : Qp) : x.shut.shut = x.shut := by
  refine Qp.shut_of _ ?_ rfl rfl
  rw [Qp.shut_cmds]; intro c hc; simpa using (List.mem_filter.1 hc).2

theorem Qp.left_left (x : Qp) : x.left.bind Qp.left = x.left := by
  unfold Qp.left
  split
  · rfl
  · rename_i h; rw [Option.bind_some, Qp.shut_shut, if_neg h]

theorem Dev.fn_setLine_ne (d : Dev) {f g n : Nat} {hi : Bool} (h : g ≠ f) : (d.setLine f n hi).fn g = d.fn g := by
  obtain ⟨g', o, e⟩ : ∃ g' o, d.setLine f n hi = (d.modFn f g').setOut o := ⟨_, _, rfl⟩
  rw [e]
  exact Dev.fn_modFn_ne d h _

theorem Dev.fn_setLine_reset (d : Dev) {f n : Nat} (h : d.fn f = {}) : (d.setLine f n false).fn f = {} := by
  obtain ⟨o, e⟩ : ∃ o, d.setLine f n false = (d.modFn f (fun v => { v with int := ((d.fn f).int.commit ((d.fn f).int.setLine n false)).1 })).setOut o := ⟨_, rfl⟩
  rw [e]
  refine (Dev.fn_modFn d f (fun v => { v with int := ((d.fn f).int.commit ((d.fn f).int.setLine n false)).1 })).trans ?_
  rw [h]
  rfl

/-- A pair is shut: what running commands leave of it stays, no other pair changes. -/
theorem Dev.shutPair_facts (d : Dev) (f q : Nat) : ∃ m, (d.setQps m).Reports (d.shutPair f q) ∧
    (∀ k, k ≠ qpKey f q → kfind m k = kfind d.qps k) ∧ kfind m (qpKey f q) = (d.qp f q).bind Qp.left ∧
    (∀ g, g ≠ f → (d.shutPair f q).fn g = d.fn g) ∧ (d.fn f = {} → (d.shutPair f q).fn f = {}) := by
  unfold Dev.shutPair
  cases h : d.qp f q with
  | none => exact ⟨d.qps, Dev.Reports.rfl d, fun _ _ => rfl, h, fun _ _ => rfl, fun h => h⟩
  | some x =>
    dsimp only
    rw [Option.bind_some]
    by_cases he : x.shut.cmds.isEmpty = true
    · rw [if_pos he]
      unfold Qp.left
      rw [if_pos he]
      refine ⟨kdel d.qps (qpKey f q), Dev.reports_setLine (d.setQps (kdel d.qps (qpKey f q))) f (q + 1) false, fun k hk => kfind_kdel_ne hk _, kfind_kdel_self _ _, fun g hg => ?_, fun h => ?_⟩
      · exact Dev.fn_setLine_ne _ hg
      · exact Dev.fn_setLine_reset _ h
    · rw [if_neg he]
      unfold Qp.left
      rw [if_neg he]
      exact ⟨kset d.qps (qpKey f q) x.shut, Dev.Reports.rfl _, fun k hk => kfind_kset_ne hk _ _, kfind_kset_self _ _ _, fun _ _ => rfl, fun h => h⟩

theorem Dev.Reports.setQps {d e : Dev} (h : d.Reports e) (m : KMap Qp) : (d.setQps m).Reports (e.setQps m) := by
  obtain ⟨⟨a, b, c, o, l, e1⟩, v⟩ := h
  exact ⟨⟨a, b, c, o, l, by rw [e1]; rfl⟩, v⟩

theorem Dev.shutPairs_facts (f : Nat) : ∀ (l : List (Nat × Qp)) (d : Dev),
    ∃ m, (d.setQps m).Reports (l.foldl (fun d e => d.shutPair f e.1) d) ∧
    (∀ k, (∀ e ∈ l, k ≠ qpKey f e.1) → kfind m k = kfind d.qps k) ∧
    (∀ e ∈ l, kfind m (qpKey f e.1) = (d.qp f e.1).bind Qp.left) ∧
    (∀ g, g ≠ f → (l.foldl (fun d e => d.shutPair f e.1) d).fn g = d.fn g) ∧
    (d.fn f = {} → (l.foldl (fun d e => d.shutPair f e.1) d).fn f = {})
  | [], d => ⟨d.qps, Dev.Reports.rfl d, fun _ _ => rfl, fun e he => (by cases he), fun _ _ => rfl, fun h => h⟩
  | a :: l, d => by
    obtain ⟨m1, r1, n1, y1, g1, f1⟩ := Dev.shutPair_facts d f a.1
    obtain ⟨m2, r2, n2, y2, g2, f2⟩ := Dev.shutPairs_facts f l (d.shutPair f a.1)
    rw [List.foldl_cons]
    have hq : (d.shutPair f a.1).qps = m1 := r1.qps
    have hqp : ∀ q, (d.shutPair f a.1).qp f q = kfind m1 (qpKey f q) := by intro q; unfold Dev.qp; rw [hq]
    have hR : (d.setQps m2).Reports ((d.shutPair f a.1).setQps m2) := r1.setQps m2
    refine ⟨m2, hR.trans r2, ?_, ?_, fun g hg => (g2 g hg).trans (g1 g hg), fun h => f2 (f1 h)⟩
    · intro k hk
      rw [n2 k (fun e he => hk e (List.mem_cons_of_mem _ he)), hq, n1 k (hk a (List.mem_cons_self ..))]
    · intro e he
      by_cases hin : ∃ e' ∈ l, qpKey f e.1 = qpKey f e'.1
      · obtain ⟨e', he', hk⟩ := hin
        have hk1 : e.1 = e'.1 := by unfold qpKey at hk; omega
        rw [hk1, y2 e' he', hqp]
        by_cases ha : qpKey f e'.1 = qpKey f a.1
        · have : e'.1 = a.1 := by unfold qpKey at ha; omega
          rw [this, y1]
          cases d.qp f a.1 with
          | none => rfl
          | some x => exact Qp.left_left x
        · rw [n1 _ ha]; rfl
      · have hin' : ∀ e' ∈ l, qpKey f e.1 ≠ qpKey f e'.1 := fun e' h1 h2 => hin ⟨e', h1, h2⟩
        rcases List.mem_cons.1 he with rfl | he
        · rw [n2 _ hin', hq, y1]
        · exact absurd rfl (hin' e he)

theorem Dev.resetChannel_facts (d : Dev) (c : Nat) : ∃ o, d.resetChannel c = (d.putDma c { Dma.at c with owner := (d.dma c).owner, held := (d.dma c).held }).setOut o := by
  unfold Dev.resetChannel
  dsimp only
  split
  · exact ⟨d.out, rfl⟩
  · exact ⟨_, rfl⟩

theorem Dev.resetChannels_facts (f : Nat) (hf : f ≠ 0x1F) : ∀ (l : List Nat) (d : Dev), ∃ m o,
    l.foldl (fun d c => if (d.dma c).owner = f ∧ f ≠ 0x1F then d.resetChannel c else d) d = (d.setDmas m).setOut o ∧
    ∀ c, (kget m c (Dma.at c)) = if c ∈ l ∧ (d.dma c).owner = f then { Dma.at c with owner := f, held := (d.dma c).held } else d.dma c
  | [], d => ⟨d.dmas, d.out, rfl, fun c => by simp [Dev.dma]⟩
  | a :: l, d => by
    rw [List.foldl_cons]
    by_cases h : (d.dma a).owner = f
    · rw [if_pos ⟨h, hf⟩]
      obtain ⟨o1, e1⟩ := Dev.resetChannel_facts d a
      obtain ⟨m2, o2, e2, k2⟩ := Dev.resetChannels_facts f hf l (d.resetChannel a)
      refine ⟨m2, o2, by rw [e2, e1]; rfl, ?_⟩
      intro c
      rw [k2 c]
      have hd : (d.resetChannel a).dma c = if c = a then { Dma.at a with owner := f, held := (d.dma a).held } else d.dma c := by
        rw [e1, h]
        by_cases hc : c = a
        · subst hc; rw [if_pos rfl]; exact Dev.dma_putDma _ _ _
        · rw [if_neg hc]; exact Dev.dma_putDma_ne _ hc _
      rw [hd]
      by_cases hc : c = a
      · subst hc
        rw [if_pos rfl, if_pos (show c ∈ c :: l ∧ (d.dma c).owner = f from ⟨List.mem_cons_self .., h⟩)]
        dsimp only
        split <;> rfl
      · rw [if_neg hc]
        simp [hc]
    · rw [if_neg (fun q => h q.1)]
      obtain ⟨m2, o2, e2, k2⟩ := Dev.resetChannels_facts f hf l d
      refine ⟨m2, o2, e2, ?_⟩
      intro c
      rw [k2 c]
      by_cases hc : c = a
      · subst hc; simp [h]
      · simp [hc]

theorem Qp.left_none {x : Qp} (h : ∀ c ∈ x.cmds, c.phase ≠ .running) : x.left = none := by
  unfold Qp.left
  rw [if_pos]
  rw [Qp.shut_cmds, List.isEmpty_iff, List.filter_eq_nil_iff]
  intro c hc; simpa using h c hc

theorem Qp.left_some {x : Qp} (h : ∃ c ∈ x.cmds, c.phase = .running) : x.left = some x.shut := by
  unfold Qp.left
  rw [if_neg]
  obtain ⟨c, hc, hp⟩ := h
  rw [Qp.shut_cmds, List.isEmpty_iff]
  intro he
  rw [List.filter_eq_nil_iff] at he
  exact he c hc (by rw [hp]; rfl)

theorem Dev.pairsOf_mem {d : Dev} {f q : Nat} {y : Qp} (hq : q < 128) (hy : d.qp f q = some y) : ∃ e ∈ d.pairsOf f, e.1 = q := by
  have := kfind_mem_of _ _ _ hy
  refine ⟨(q, y), ?_, rfl⟩
  unfold Dev.pairsOf
  have e1 : qpKey f q / 128 = f := by unfold qpKey; omega
  have e2 : qpKey f q % 128 = q := by unfold qpKey; omega
  refine List.mem_map.2 ⟨_, List.mem_filter.2 ⟨this, ?_⟩, ?_⟩
  · show (qpKey f q / 128 == f) = true
    rw [e1]; exact beq_self_eq_true f
  · show (qpKey f q % 128, y) = (q, y)
    rw [e2]

/-- What a function-level reset leaves (R377, R389, R545). -/
theorem Dev.flr_facts (d : Dev) {f : Nat} (hf : f ≠ 0x1F) : (d.flr f).fn f = {} ∧ (∀ g, g ≠ f → (d.flr f).fn g = d.fn g) ∧
    (d.flr f).parts = d.parts ∧ (d.flr f).ctxs = d.ctxs ∧ (d.flr f).mem = d.mem ∧ (d.flr f).runs = d.runs ∧
    (∀ g m, g ≠ f → m < 128 → (d.flr f).qp g m = d.qp g m) ∧
    (∀ q, q < 128 → ∀ y, d.qp f q = some y → (d.flr f).qp f q = y.left) ∧
    (∀ c, (d.flr f).dma c = if c ∈ List.range 128 ∧ (d.dma c).owner = f then { Dma.at c with owner := f, held := (d.dma c).held } else d.dma c) ∧
    (d.flr f).fab = d.fab ∧ (d.flr f).crock = d.crock ∧ (d.flr f).trust = d.trust ∧ (d.flr f).mod = d.mod ∧
    (∀ q, q < 128 → d.qp f q = none → (d.flr f).qp f q = none) := by
  obtain ⟨D, hD⟩ : ∃ D, D = (d.pairsOf f).foldl (fun d e => d.shutPair f e.1) (d.putFn f {}) := ⟨_, rfl⟩
  obtain ⟨m, r, k1, k2, k3, k4⟩ := Dev.shutPairs_facts f (d.pairsOf f) (d.putFn f {})
  rw [← hD] at r k3 k4
  obtain ⟨z, o, e1, k5⟩ := Dev.resetChannels_facts f hf (List.range 128) D
  have hdef : d.flr f = (D.setDmas z).setOut o := by
    rw [← e1, hD]; rfl
  rw [hdef]
  have hqp : ∀ a b, ((D.setDmas z).setOut o).qp a b = kfind m (qpKey a b) := by
    intro a b; show kfind D.qps _ = _; rw [r.qps]; rfl
  refine ⟨k4 (Dev.fn_putFn _ _ _), fun g hg => (k3 g hg).trans (Dev.fn_putFn_ne _ hg _), r.parts, r.ctxs, r.mem, r.runs, ?_, ?_, ?_, r.fab, r.crock, r.trust, r.mod, ?_⟩
  · intro g m' hg hm'
    rw [hqp, k1]
    · rfl
    · intro e he
      unfold Dev.pairsOf at he
      obtain ⟨e', he', rfl⟩ := List.mem_map.1 he
      unfold qpKey
      dsimp only
      omega
  · intro q hq y hy
    obtain ⟨e, he, rfl⟩ := Dev.pairsOf_mem hq hy
    rw [hqp, k2 e he]
    have : (d.putFn f {}).qp f e.1 = d.qp f e.1 := rfl
    rw [this, hy]; rfl
  · intro c
    have h2 : D.dma c = d.dma c := by unfold Dev.dma; rw [r.dmas]; rfl
    show kget z c (Dma.at c) = _
    rw [k5 c, h2]
  · intro q hq hy
    rw [hqp]
    by_cases hin : ∃ e ∈ d.pairsOf f, e.1 = q
    · obtain ⟨e, he, rfl⟩ := hin
      rw [k2 e he]
      have : (d.putFn f {}).qp f e.1 = d.qp f e.1 := rfl
      rw [this, hy]; rfl
    · rw [k1]
      · exact hy
      · intro e he h
        refine hin ⟨e, he, ?_⟩
        unfold qpKey at h; omega

theorem buckets_chain : ∀ (m : List Nat) (a : Nat),
    ((a :: m.takeWhile (· != 0)).zip (m.takeWhile (· != 0))).all (fun e => decide (e.1 < e.2)) = true ↔
      ∀ i, i < m.length → (∀ j, j ≤ i → m.getD j 0 ≠ 0) → (a :: m).getD i 0 < m.getD i 0
  | [], a => by simp
  | b :: m, a => by
    rw [List.takeWhile_cons]
    by_cases hb : b = 0
    · subst hb
      rw [if_neg (by decide)]
      simp only [List.zip_nil_right, List.all_nil, true_iff]
      intro i _ h
      exact absurd rfl (h 0 (Nat.zero_le _))
    · rw [if_pos (by simpa using hb), List.zip_cons_cons, List.all_cons, Bool.and_eq_true, buckets_chain m b]
      constructor
      · rintro ⟨h1, h2⟩ i hi h
        cases i with
        | zero => simpa using h1
        | succ i =>
          have := h2 i (by simpa using hi) (fun j hj => by have := h (j + 1) (by omega); simpa using this)
          simpa using this
      · intro h
        refine ⟨?_, ?_⟩
        · have := h 0 (by simp) (by intro j hj; obtain rfl : j = 0 := Nat.le_zero.1 hj; simpa using hb)
          simpa using this
        · intro i hi h2
          have := h (i + 1) (by simpa using hi) (by
            intro j hj
            cases j with
            | zero => simpa using hb
            | succ j => simpa using h2 j (by omega))
          simpa using this

theorem bucketsOk_iff {l : List Nat} (h : l.length = 8) : bucketsOk l = true ↔
    (l.getD 0 0 = 1 ∧ ∀ i, i < 7 → (∀ j, 1 ≤ j → j ≤ i + 1 → l.getD j 0 ≠ 0) → l.getD i 0 < l.getD (i + 1) 0) := by
  cases l with
  | nil => cases h
  | cons a m =>
    have hm : m.length = 7 := by simpa using h
    unfold bucketsOk bucketsLive
    simp only [List.head?_cons, Option.toList_some, List.singleton_append, List.drop_succ_cons, List.drop_zero,
      Bool.and_eq_true, beq_iff_eq, Option.some.injEq]
    rw [buckets_chain m a, hm]
    have : (a :: m).getD 0 0 = a := rfl
    rw [this]
    refine and_congr Iff.rfl ?_
    constructor
    · intro h i hi h2
      have := h i hi (fun j hj => by have := h2 (j + 1) (by omega) (by omega); simpa using this)
      simpa using this
    · intro h i hi h2
      have := h i hi (fun j h1 hj => by
        obtain ⟨j, rfl⟩ : ∃ k, j = k + 1 := ⟨j - 1, by omega⟩
        simpa using h2 j (by omega))
      simpa using this

end Sys2Proof.Machine
end

