-- ==== Sys2Proof/Laws/Reset.lean ====
section
/-! SUPPORT. Power, bring-up and resets. -/

namespace Sys2Proof.Machine

theorem mem_setBits_bit {w n i : Nat} : i ∈ setBits n w ↔ i < n ∧ bit w i = true := by
  unfold setBits
  rw [List.mem_filter, List.mem_range]

theorem ofBits_succ (l : List Nat) (n : Nat) : ofBits l (n + 1) = ofBits l n + if l.contains n then 2 ^ n else 0 := by
  unfold ofBits
  rw [List.range_succ, List.foldl_append, List.foldl_cons, List.foldl_nil]
  split <;> rfl

theorem ofBits_lt (l : List Nat) : ∀ n, ofBits l n < 2 ^ n
  | 0 => Nat.zero_lt_one
  | n + 1 => by
    rw [ofBits_succ, Nat.pow_succ]
    have := ofBits_lt l n
    split <;> omega

theorem bit_ofBits (l : List Nat) (i : Nat) : ∀ n, bit (ofBits l n) i = (decide (i < n) && l.contains i)
  | 0 => by
    have : ofBits l 0 = 0 := rfl
    rw [this]; unfold bit; rw [Nat.zero_div]; simp
  | n + 1 => by
    rw [ofBits_succ]
    have hlt := ofBits_lt l n
    have ih := bit_ofBits l i n
    unfold bit at *
    rcases Nat.lt_trichotomy i n with h | h | h
    · have hp : 2 ^ n = 2 ^ i * (2 * 2 ^ (n - i - 1)) := by
        rw [← Nat.pow_succ', ← Nat.pow_add]; congr 1; omega
      have : (ofBits l n + if l.contains n then 2 ^ n else 0) / 2 ^ i % 2 = ofBits l n / 2 ^ i % 2 := by
        split
        · rw [hp, Nat.add_mul_div_left _ _ (Nat.two_pow_pos i), Nat.add_mul_mod_self_left]
        · rw [Nat.add_zero]
      rw [this, ih, decide_eq_true h, decide_eq_true (Nat.lt_succ_of_lt h)]
    · subst h
      have h0 : ofBits l i / 2 ^ i = 0 := Nat.div_eq_of_lt hlt
      rw [decide_eq_true (Nat.lt_succ_self i), Bool.true_and]
      by_cases hc : l.contains i = true
      · rw [if_pos hc, hc, Nat.add_div_right _ (Nat.two_pow_pos i), h0]; rfl
      · rw [if_neg hc, Nat.add_zero, h0]; simpa using hc
    · have hb : (ofBits l n + if l.contains n then 2 ^ n else 0) < 2 ^ i := by
        have : 2 ^ (n + 1) ≤ 2 ^ i := Nat.pow_le_pow_right (by decide) h
        rw [Nat.pow_succ] at this
        split <;> omega
      rw [Nat.div_eq_of_lt hb, decide_eq_false (by omega)]; rfl

/-- Function-level resets of several functions. -/
theorem Dev.flrs_facts : ∀ (l : List Nat) (d : Dev), (∀ f ∈ l, f ≠ 0x1F) →
    (l.foldl Dev.flr d).parts = d.parts ∧ (l.foldl Dev.flr d).ctxs = d.ctxs ∧ (l.foldl Dev.flr d).mem = d.mem ∧
    (l.foldl Dev.flr d).fab = d.fab ∧ (l.foldl Dev.flr d).crock = d.crock ∧ (l.foldl Dev.flr d).trust = d.trust ∧
    (l.foldl Dev.flr d).mod = d.mod ∧
    (∀ f, (f ∈ l ∨ d.fn f = {}) → (l.foldl Dev.flr d).fn f = {}) ∧
    (∀ f q, q < 128 → d.qp f q = none → (l.foldl Dev.flr d).qp f q = none) ∧
    (∀ f q x, q < 128 → f ∈ l → d.qp f q = some x → (∀ c ∈ x.cmds, c.phase ≠ .running) → (l.foldl Dev.flr d).qp f q = none)
  | [], d, _ => ⟨rfl, rfl, rfl, rfl, rfl, rfl, rfl, fun f h => h.resolve_left (by simp), fun _ _ _ h => h, fun f q x _ h => (by simp at h)⟩
  | a :: l, d, hl => by
    rw [List.foldl_cons]
    obtain ⟨a1, a2, a3, a4, a5, a6, a7, a8, a9, a10⟩ := Dev.flrs_facts l (d.flr a) (fun f hf => hl f (List.mem_cons_of_mem _ hf))
    obtain ⟨b1, b2, b3, b4, b5, -, b7, b8, -, b10, b11, b12, b13, b14⟩ := Dev.flr_facts d (hl a (List.mem_cons_self ..))
    refine ⟨a1.trans b3, a2.trans b4, a3.trans b5, a4.trans b10, a5.trans b11, a6.trans b12, a7.trans b13, ?_, ?_, ?_⟩
    · intro f h
      refine a8 f ?_
      by_cases hf : f = a
      · subst hf; exact .inr b1
      · rcases h with h | h
        · exact .inl ((List.mem_cons.1 h).resolve_left hf)
        · exact .inr ((b2 f hf).trans h)
    · intro f q hq h
      refine a9 f q hq ?_
      by_cases hf : f = a
      · subst hf; exact b14 q hq h
      · rw [b7 f q hf hq]; exact h
    · intro f q x hq hin hx hn
      by_cases hf : f = a
      · subst hf
        refine a9 f q hq ?_
        rw [b8 q hq x hx, Qp.left_none hn]
      · refine a10 f q x hq ((List.mem_cons.1 hin).resolve_left hf) ?_ hn
        rw [b7 f q hf hq]; exact hx

theorem Dev.bootMicrocode_good (x : Slot) : ∀ (l : List Nat) (d : Dev), (∀ k ∈ l, ∃ i, x.microcode k = some i ∧ i.signed x.manifest = true ∧
    i.fresh d.flash d.conf.floors = true) → ∃ m, l.foldl (fun d k =>
    match x.microcode k with
    | some i =>
      if !([] : List Nat).contains k && i.signed x.manifest && i.fresh d.flash d.conf.floors then
        d.modSkillet k (fun y => { y with measure := i.digest })
      else
        ((d.modSkillet k (fun y => { y with microcodeBad := true })).fenceSkillet k 4).failUnit (unit24 k uiDie)
    | none =>
      ((d.modSkillet k (fun y => { y with microcodeBad := true })).fenceSkillet k 4).failUnit (unit24 k uiDie)) d = d.setSkillets m
  | [], d, _ => ⟨d.skillets, rfl⟩
  | k :: l, d, h => by
    obtain ⟨i, h1, h2, h3⟩ := h k (List.mem_cons_self ..)
    rw [List.foldl_cons, h1]
    dsimp only
    rw [h2, h3, if_pos (by simp)]
    obtain ⟨m, hm⟩ := Dev.bootMicrocode_good x l (d.modSkillet k (fun y => { y with measure := i.digest })) (fun k hk => h k (List.mem_cons_of_mem _ hk))
    exact ⟨m, hm⟩

theorem Dev.bootPorts_shape (d : Dev) : ∃ c f, d.bootPorts = (d.setCrock c).setFab f := by
  unfold Dev.bootPorts
  have h1 : ∀ (l : List Nat) (d : Dev), ∃ c, l.foldl (fun d i =>
    if (d.cport i).fenced || d.saf.iodFenced.contains i then d else d.putCport i { d.cport i with st := 1 }) d = d.setCrock c := by
    intro l
    induction l with
    | nil => intro d; exact ⟨d.crock, rfl⟩
    | cons a l ih =>
      intro d
      rw [List.foldl_cons]
      split
      · exact ih d
      · obtain ⟨c, hc⟩ := ih (d.putCport a { d.cport a with st := 1 })
        exact ⟨c, by rw [hc]; rfl⟩
  have h2 : ∀ (l : List Nat) (d : Dev), ∃ c, l.foldl (fun d p =>
    if (d.port p).fenced || d.saf.iodFenced.contains (p / 2) then d else d.putPort p { d.port p with st := 1 }) d = d.setFab c := by
    intro l
    induction l with
    | nil => intro d; exact ⟨d.fab, rfl⟩
    | cons a l ih =>
      intro d
      rw [List.foldl_cons]
      split
      · exact ih d
      · obtain ⟨c, hc⟩ := ih (d.putPort a { d.port a with st := 1 })
        exact ⟨c, by rw [hc]; rfl⟩
  obtain ⟨c, hc⟩ := h1 (List.range 4) d
  dsimp only
  rw [hc]
  obtain ⟨f, hf⟩ := h2 (List.range 8) (d.setCrock c)
  exact ⟨c, f, hf⟩

theorem Dev.bootStacks_shape (d : Dev) : ∃ m, d.bootStacks [] = d.setDram m := by
  unfold Dev.bootStacks
  have h1 : ∀ {α : Type} (g : α → Nat) (h : α → Stack → Stack) (l : List α) (d : Dev), ∃ m, l.foldl (fun d e => d.modStack (g e) (h e)) d = d.setDram m := by
    intro α g h l
    induction l with
    | nil => intro d; exact ⟨d.dram, rfl⟩
    | cons a l ih =>
      intro d
      rw [List.foldl_cons]
      obtain ⟨m, hm⟩ := ih (d.modStack (g a) (h a))
      exact ⟨m, by rw [hm]; rfl⟩
  dsimp only
  rw [List.foldl_nil]
  obtain ⟨m1, e1⟩ := h1 (fun e : Nat × Nat => e.1) (fun e x => { x with repaired := some e.2 }) d.flash.repaired d
  rw [e1]
  obtain ⟨m2, e2⟩ := h1 (fun t : Nat => t) (fun _ x => { x with lost := true }) (d.setDram m1).flash.lost (d.setDram m1)
  exact ⟨m2, by rw [e2]; rfl⟩

theorem Dev.bootCores_shape (d : Dev) : ∃ m, d.bootCores [] [] = d.setCores m := by
  unfold Dev.bootCores
  have h1 : ∀ (h : Dev → Nat → Core → Core) (l : List Nat) (d : Dev), ∃ m, l.foldl (fun d e => d.modCore e (h d e)) d = d.setCores m := by
    intro h l
    induction l with
    | nil => intro d; exact ⟨d.cores, rfl⟩
    | cons a l ih =>
      intro d
      rw [List.foldl_cons]
      obtain ⟨m, hm⟩ := ih (d.modCore a (h d a))
      exact ⟨m, by rw [hm]; rfl⟩
  dsimp only
  rw [List.foldl_nil, List.foldl_nil]
  obtain ⟨m1, e1⟩ := h1 (fun _ _ c => { c with retired := true }) d.flash.retired d
  rw [e1]
  obtain ⟨m2, e2⟩ := h1 (fun d g c => { c with lastTest := d.aoOf (g / 8) }) (List.range 128) (d.setCores m1)
  exact ⟨m2, by rw [e2]; rfl⟩

theorem Dev.breakerReport_shape (d : Dev) : ∃ m o, d.breakerReport = (d.setMod m).setOut o := by
  unfold Dev.breakerReport
  split
  · obtain ⟨m, o, h, -⟩ := Dev.alert_shape (d.setMod { d.mod with breakerSeen := false }) 8
    exact ⟨{ (d.setMod { d.mod with breakerSeen := false }).mod with alert := m }, o, h⟩
  · exact ⟨d.mod, d.out, rfl⟩

theorem Dev.atStep_of (d : Dev) (n : Nat) : d.atStep n = (d.setTrust { d.trust with step := n }).setMod { d.mod with pwrgd := d.mod.pwrgd || decide (4 ≤ n) } := by
  unfold Dev.atStep
  dsimp only
  by_cases h : 4 ≤ n
  · rw [if_pos h, decide_eq_true h, Bool.or_true]; rfl
  · rw [if_neg h, decide_eq_false h, Bool.or_false]; rfl

theorem Dev.bootUnits_good (d : Dev) (x : Slot) (io : Img)
    (hm : ∀ k, k < 16 → ∃ i, x.microcode k = some i ∧ i.signed x.manifest = true ∧ i.fresh d.flash d.conf.floors = true) :
    ∃ dr c fb sk co tr, d.bootUnits .good x io = ((((((d.setDram dr).setCrock c).setFab fb).setSkillets sk).setCores co).setTrust
        { d.trust with step := 13, stage := 1, measures := tr }).setMod { d.mod with pwrgd := true } := by
  obtain ⟨D2, hD2⟩ : ∃ D2, D2 = d.setTrust { d.trust with measures := kset d.trust.measures 5 io.digest, stage := 1 } := ⟨_, rfl⟩
  obtain ⟨sk, e3⟩ := Dev.bootMicrocode_good x (List.range 16) D2 (by
    intro k hk
    rw [hD2]
    exact hm k (List.mem_range.1 hk))
  have e3' : D2.bootMicrocode x [] = D2.setSkillets sk := e3
  obtain ⟨c, fb, e4⟩ := Dev.bootPorts_shape (D2.setSkillets sk)
  obtain ⟨dr, e5⟩ := Dev.bootStacks_shape (((D2.setSkillets sk).setCrock c).setFab fb)
  obtain ⟨co, e6⟩ := Dev.bootCores_shape ((((D2.setSkillets sk).setCrock c).setFab fb).setDram dr)
  have hU : d.bootUnits .good x io = (fun d5 : Dev => d5.setFab { d5.fab with pod := { d5.fab.pod with acting := d5.conf.role == 1 } })
      ((((D2.bootMicrocode x []).bootPorts.bootStacks []).bootCores [] []).atStep 13) := by
    unfold Dev.bootUnits BringUp.good
    simp only [List.foldl_nil, ← hD2]
  rw [e3', e4, e5, e6] at hU
  rw [hU, hD2]
  rw [Dev.atStep_of]
  exact ⟨dr, c, { fb with pod := { fb.pod with acting := d.conf.role == 1 } }, sk, co, kset d.trust.measures 5 io.digest, by simp [Dev.setFab, Dev.setCores, Dev.setDram, Dev.setCrock, Dev.setSkillets, Dev.setTrust, Dev.setMod]⟩

theorem Dev.bootStage1_good (d : Dev) (x : Slot) (man rec fw io : Img) (h5 : x.image 5 = some io) (s5 : io.signed man.body = true)
    (f5 : io.fresh d.flash d.conf.floors = true) : d.bootStage1 .good x man rec fw =
      (d.setTrust { d.trust with ftLevel := fw.ft, measures := [(2, man.digest), (3, rec.digest), (4, fw.digest)] }).bootUnits .good x io := by
  obtain ⟨D1, hD1⟩ : ∃ D1, D1 = d.setTrust { d.trust with ftLevel := fw.ft, measures := [(2, man.digest), (3, rec.digest), (4, fw.digest)] } := ⟨_, rfl⟩
  have f5' : io.fresh D1.flash D1.conf.floors = true := by rw [hD1]; exact f5
  unfold Dev.bootStage1
  rw [← hD1, h5]
  show (if (!(_ && _)) = true then _ else if (false && _) = true then _ else _) = _
  rw [s5, f5', if_neg (by decide), if_neg (by decide)]

theorem Dev.bootStage0_accepts (d : Dev) (b : BringUp) (slot n : Nat) {man rec fw : Img} (hu : d.flash.recordUsed = some n)
    (hused : (d.flash.record n).used = true) (h1 : (d.flash.slot slot).image 1 = some man)
    (h2 : (d.flash.record n).image 2 = some rec) (h3 : (d.flash.slot slot).image 3 = some fw)
    (s1 : man.signed [] = true) (s2 : rec.signed man.body = true)
    (s3 : fw.signed man.body = true) (f2 : rec.fresh d.flash (confOf rec.body).floors = true)
    (f1 : man.fresh d.flash (confOf rec.body).floors = true) (f3 : fw.fresh d.flash (confOf rec.body).floors = true)
    (hid : field rec.body 0 2 = 0xB0) :
    ∃ bm bo, d.bootStage0 b slot = (((d.setConf (confOf rec.body)).setMod bm).setOut bo).bootStage1 b (d.flash.slot slot) man rec fw := by
  have hrec : d.applyRecord n rec = (d.setFlash d.flash).setConf (confOf rec.body) := by
    unfold Dev.applyRecord
    dsimp only
    rw [if_pos hused]
  obtain ⟨bm, bo, hb⟩ := Dev.breakerReport_shape ((d.setFlash d.flash).setConf (confOf rec.body))
  obtain ⟨D, hD⟩ : ∃ D, D = (((d.setFlash d.flash).setConf (confOf rec.body)).setMod bm).setOut bo := ⟨_, rfl⟩
  rw [← hD] at hb
  have hf : D.flash = d.flash := by rw [hD]; rfl
  refine ⟨bm, bo, ?_⟩
  have hD' : (((d.setConf (confOf rec.body)).setMod bm).setOut bo) = D := by rw [hD]; rfl
  rw [hD']
  unfold Dev.bootStage0
  dsimp only
  rw [h1, hu]
  dsimp only
  rw [h2]
  dsimp only
  rw [s1, s2, f2, f1, hrec, hb, h3]
  rw [if_neg (by decide), if_neg (by decide), if_neg (by decide), if_neg (by rw [hid]; decide), if_neg (by decide)]
  dsimp only
  rw [s3, hf, f3, if_neg (by decide), if_neg (by decide)]

/-- A bring-up in which every image verifies and no unit fails ends at step 13. -/
theorem Dev.bootStage0_good (d : Dev) (slot n : Nat) {man rec fw io : Img} (hu : d.flash.recordUsed = some n)
    (hused : (d.flash.record n).used = true) (h1 : (d.flash.slot slot).image 1 = some man)
    (h2 : (d.flash.record n).image 2 = some rec) (h3 : (d.flash.slot slot).image 3 = some fw)
    (s1 : man.signed [] = true) (s2 : rec.signed man.body = true)
    (s3 : fw.signed man.body = true) (f2 : rec.fresh d.flash (confOf rec.body).floors = true)
    (f1 : man.fresh d.flash (confOf rec.body).floors = true) (f3 : fw.fresh d.flash (confOf rec.body).floors = true)
    (hid : field rec.body 0 2 = 0xB0)
    (h5 : (d.flash.slot slot).image 5 = some io) (s5 : io.signed man.body = true)
    (f5 : io.fresh d.flash (confOf rec.body).floors = true)
    (hm : ∀ k, k < 16 → ∃ i, (d.flash.slot slot).microcode k = some i ∧ i.signed (d.flash.slot slot).manifest = true ∧
      i.fresh d.flash (confOf rec.body).floors = true) :
    ∃ dr c fb sk co m o tr, d.bootStage0 .good slot = { d with dram := dr, crock := c, fab := fb, skillets := sk, cores := co, mod := m, out := o, trust := tr, conf := confOf rec.body } ∧
      tr = { d.trust with step := 13, ftLevel := fw.ft, stage := 1, measures := tr.measures } ∧ m.pwrgd = true := by
  obtain ⟨bm, bo, e0⟩ := Dev.bootStage0_accepts d .good slot n hu hused h1 h2 h3 s1 s2 s3 f2 f1 f3 hid
  have e1 := Dev.bootStage1_good (((d.setConf (confOf rec.body)).setMod bm).setOut bo) (d.flash.slot slot) man rec fw io h5 s5 f5
  obtain ⟨D1, hD1⟩ : ∃ D1, D1 = (((d.setConf (confOf rec.body)).setMod bm).setOut bo).setTrust { d.trust with ftLevel := fw.ft, measures := [(2, man.digest), (3, rec.digest), (4, fw.digest)] } := ⟨_, rfl⟩
  obtain ⟨dr, c, fb, sk, co, tr, e2⟩ := Dev.bootUnits_good D1 (d.flash.slot slot) io (by rw [hD1]; exact hm)
  have e3 : d.bootStage0 .good slot = D1.bootUnits .good (d.flash.slot slot) io := by rw [e0, e1, hD1]; rfl
  rw [e2] at e3
  refine ⟨dr, c, fb, sk, co, { D1.mod with pwrgd := true }, bo, { D1.trust with step := 13, stage := 1, measures := tr }, ?_, ?_, rfl⟩
  · rw [e3, hD1]
    simp [Dev.setFab, Dev.setCores, Dev.setDram, Dev.setCrock, Dev.setSkillets, Dev.setTrust, Dev.setMod, Dev.setConf, Dev.setOut]
  · rw [hD1]
    simp [Dev.setTrust]

/-- What stands before the device sequence: everything but flash, pins and counts at reset. -/
def Dev.Fresh (d D : Dev) : Prop := ∃ a cl m, D = { ao := a, flash := d.flash, mod := m, saf := { clean := cl }, out := d.out, free := d.free } ∧
  m.mrstLow = false ∧ m.pwrgd = false ∧ m.alert = 0

end Sys2Proof.Machine
end

