-- ==== Sys2Proof/Laws/Images.lean ====
section
/-! SUPPORT. Lemmas about the firmware images, the update commands, the attestation report and the SPDM answers. -/

namespace Sys2Proof.Machine

theorem Dev.flash_finish (d : Dev) (r : CmdRef) (st r0 r1 det : Nat) (dies : List Nat) : (d.finish r st r0 r1 det dies).flash = d.flash := by
  unfold Dev.finish Dev.modCmd Dev.modQp; split <;> rfl
theorem Dev.flash_mark (d : Dev) (r : CmdRef) (m : Marks) : (d.mark r m).flash = d.flash := by
  unfold Dev.mark Dev.modCmd Dev.modQp; split <;> rfl
theorem Dev.skillets_finish (d : Dev) (r : CmdRef) (st r0 r1 det : Nat) (dies : List Nat) : (d.finish r st r0 r1 det dies).skillets = d.skillets := by
  unfold Dev.finish Dev.modCmd Dev.modQp; split <;> rfl

theorem Dev.fwStore_shape (d : Dev) (n : Nat) (b : Bytes) (ok : Bool) : ∃ f, (d.fwStore n b ok).1 = d.setFlash f := by
  unfold Dev.fwStore
  dsimp only
  repeat' split
  all_goals first | exact ⟨d.flash, rfl⟩ | exact ⟨_, rfl⟩

/-- New microcode of one healthy skillet whose cores pass. -/
theorem Dev.loadMicrocode_shape (d : Dev) (i : Img) (k : Nat) (h : (d.skillet k).microcodeBad = false) :
    ∃ co, d.loadMicrocode i [] k = (d.modSkillet k (fun x => { x with microcodeBad := false, measure := i.digest })).setCores co := by
  unfold Dev.loadMicrocode
  dsimp only
  rw [h, if_neg (by decide)]
  generalize d.modSkillet k (fun x => { x with microcodeBad := false, measure := i.digest }) = D
  generalize List.range 8 = l
  induction l generalizing D with
  | nil => exact ⟨D.cores, rfl⟩
  | cons n l ih =>
    rw [List.foldl_cons]
    split
    · exact ih D
    · rw [if_neg (by simp)]
      obtain ⟨co, hco⟩ := ih (D.modCore (8 * k + n) (fun c => { c with lastTest := D.aoOf k, overdue := false }))
      exact ⟨co, by rw [hco]; rfl⟩


theorem Dev.loadMicrocodes_facts (i : Img) : ∀ (l : List Nat) (d : Dev), (∀ k ∈ l, (d.skillet k).microcodeBad = false) →
    ∃ sk co, l.foldl (fun d k => d.loadMicrocode i [] k) d = (d.setSkillets sk).setCores co ∧
      (∀ k ∈ l, (kget sk k {}).measure = i.digest) ∧ ∀ k, k ∉ l → kget sk k {} = d.skillet k
  | [], d, _ => ⟨d.skillets, d.cores, rfl, fun k hk => (by cases hk), fun _ _ => rfl⟩
  | a :: l, d, h => by
    rw [List.foldl_cons]
    obtain ⟨co, e⟩ := Dev.loadMicrocode_shape d i a (h a (List.mem_cons_self ..))
    have hs : ∀ j, (d.loadMicrocode i [] a).skillet j = if j = a then { d.skillet a with microcodeBad := false, measure := i.digest } else d.skillet j := by
      intro j
      rw [e]
      by_cases hj : j = a
      · subst hj; rw [if_pos rfl]; exact kget_kset_self _ _ _ _
      · rw [if_neg hj]; exact kget_kset_ne hj _ _ _
    obtain ⟨sk, co2, e2, m2, n2⟩ := Dev.loadMicrocodes_facts i l (d.loadMicrocode i [] a) (by
      intro k hk
      rw [hs]
      split
      · rfl
      · exact h k (List.mem_cons_of_mem _ hk))
    refine ⟨sk, co2, by rw [e2, e]; rfl, ?_, ?_⟩
    · intro k hk
      by_cases hl : k ∈ l
      · exact m2 k hl
      · rw [n2 k hl, hs]
        rcases List.mem_cons.1 hk with rfl | hk
        · rw [if_pos rfl]
        · exact absurd hk hl
    · intro k hk
      rw [List.mem_cons] at hk
      rw [n2 k (fun h => hk (.inr h)), hs, if_neg (fun h => hk (.inl h))]

theorem Dev.stageBytes_slice (d : Dev) (old : Bytes) (off : Nat) (b : Bytes) : slice (d.stageBytes old off b).1 off b.length = b := by
  unfold Dev.stageBytes
  dsimp only
  obtain ⟨base, hb⟩ : ∃ base, base = (if off = 0 then [] else old) := ⟨_, rfl⟩
  rw [← hb]
  have hl : (d.freeBytes (off - base.length)).1.length = off - base.length := by
    unfold Dev.freeBytes; simp
  generalize (d.freeBytes (off - base.length)).1 = g at *
  have hx : ((base ++ g).take off).length = off := by
    rw [List.length_take, List.length_append]; omega
  unfold slice
  rw [List.append_assoc, List.drop_append_of_le_length (by omega), List.drop_of_length_le (by omega), List.nil_append,
    List.take_append_of_le_length (by omega), List.take_length]

theorem Dev.stageBytes_zero (d : Dev) (old b : Bytes) : (d.stageBytes old 0 b).1 = b := by
  unfold Dev.stageBytes Dev.freeBytes
  simp

theorem Dev.stageBytes_keep (d : Dev) (old : Bytes) {off : Nat} (b : Bytes) (h0 : off ≠ 0) (h : off ≤ old.length) :
    (d.stageBytes old off b).1.take off = old.take off ∧ (d.stageBytes old off b).1.drop (off + b.length) = old.drop (off + b.length) := by
  unfold Dev.stageBytes
  dsimp only
  rw [if_neg h0]
  have hz : off - old.length = 0 := by omega
  have hg : (d.freeBytes (off - old.length)).1 = [] := by unfold Dev.freeBytes; rw [hz]; rfl
  rw [hg, List.append_nil]
  have hl : (old.take off).length = off := by rw [List.length_take]; omega
  refine ⟨?_, ?_⟩
  · rw [List.append_assoc, List.take_append_of_le_length (by omega), List.take_of_length_le (by omega)]
  · rw [List.drop_append_of_le_length (by rw [List.length_append]; omega), List.drop_of_length_le (by rw [List.length_append]; omega), List.nil_append]

theorem length_padTo (n : Nat) (b : Bytes) : (padTo n b).length = n := by
  unfold padTo; rw [List.length_append, List.length_take, List.length_replicate]; omega

theorem Dev.length_measurement (d : Dev) (i : Nat) : (d.measurement i).length = 64 := by
  unfold Dev.measurement
  dsimp only
  repeat' split
  all_goals first | exact length_padTo _ _ | (unfold repByte; simp)

theorem slice_flatMap {α : Type} (f : Nat → List α) (n : Nat) (hf : ∀ i, (f i).length = n) : ∀ (k m : Nat), k < m →
    (((List.range m).flatMap f).drop (n * k)).take n = f k := by
  intro k m hk
  have hl : ∀ m, ((List.range m).flatMap f).length = n * m := by
    intro m
    induction m with
    | zero => rfl
    | succ m ih =>
      rw [List.range_succ, List.flatMap_append, List.length_append, ih, List.flatMap_cons, List.flatMap_nil, List.append_nil, hf, Nat.mul_succ]
  induction m with
  | zero => omega
  | succ m ih =>
    rw [List.range_succ, List.flatMap_append, List.flatMap_cons, List.flatMap_nil, List.append_nil]
    by_cases h : k < m
    · have hle : n * k + n ≤ n * m := by rw [← Nat.mul_succ]; exact Nat.mul_le_mul_left _ h
      rw [List.drop_append_of_le_length (by rw [hl] <;> omega), List.take_append_of_le_length (by rw [List.length_drop, hl] <;> omega)]
      exact ih h
    · obtain rfl : k = m := by omega
      rw [List.drop_append_of_le_length (by rw [hl] <;> omega), List.drop_of_length_le (by rw [hl] <;> omega), List.nil_append, List.take_of_length_le (by rw [hf] <;> omega)]

theorem Dev.reportBody_parts (d : Dev) (b : Bytes) (hb : b.length = 32) : ∃ z : Bytes, z.length = 17 ∧
    d.reportBody b = b ++ (leBytes 8 d.flash.bootCount ++ ((d.measurement 22).take 6 ++ (leBytes 1 d.flash.active ++ (z ++ (List.range 21).flatMap (fun i => d.measurement (i + 1)))))) := by
  refine ⟨leBytes 1 0 ++ leBytes 16 (ofBits ((List.range 128).filter (fun g => (d.core g).retired)) 128), by rw [List.length_append, leBytes_length, leBytes_length], ?_⟩
  have hp : padTo 32 b = b := by unfold padTo; rw [hb, List.take_of_length_le (by omega)]; simp
  unfold Dev.reportBody
  rw [hp]
  simp only [List.append_assoc]

theorem Dev.length_reportBody (d : Dev) (b : Bytes) (hb : b.length = 32) : (d.reportBody b).length = 1408 := by
  obtain ⟨z, hz, e⟩ := Dev.reportBody_parts d b hb
  have hl : ∀ m, ((List.range m).flatMap (fun i => d.measurement (i + 1))).length = 64 * m := by
    intro m
    induction m with
    | zero => rfl
    | succ m ih =>
      rw [List.range_succ, List.flatMap_append, List.length_append, ih, List.flatMap_cons, List.flatMap_nil, List.append_nil, Dev.length_measurement, Nat.mul_succ]
  have := hl 21
  rw [e]
  simp only [List.length_append, leBytes_length, List.length_take, Dev.length_measurement, hz, hb, this]
  rfl

end Sys2Proof.Machine
end

