-- ==== Sys2Proof/Laws/Fences.lean ====
section
/-! SUPPORT. Lemmas about fences, safe stop, retirement, the return to service and the self-test rotation. -/

namespace Sys2Proof.Machine

theorem Dev.core_modCore_ne (d : Dev) {g h : Nat} (hn : h ≠ g) (f : Core → Core) : (d.modCore g f).core h = d.core h := Dev.core_putCore_ne d hn _

theorem Dev.skillet_modSkillet_ne (d : Dev) {k h : Nat} (hn : h ≠ k) (f : Skillet → Skillet) : (d.modSkillet k f).skillet h = d.skillet h := by
  unfold Dev.modSkillet Dev.putSkillet Dev.skillet; exact kget_kset_ne hn _ _ _

theorem getD_set_pad {α : Type} (l : List α) (z x : α) (n i : Nat) (h : i < n) : ((l ++ List.replicate (n - l.length) z).set i x).getD i z = x := by
  rw [List.getD_eq_getElem?_getD, List.getElem?_set_self (by rw [List.length_append, List.length_replicate]; omega)]; rfl

theorem getD_set_pad_ne {α : Type} (l : List α) (z x : α) (n i j : Nat) (h : i ≠ j) :
    ((l ++ List.replicate (n - l.length) z).set i x).getD j z = l.getD j z := by
  rw [List.getD_eq_getElem?_getD, List.getElem?_set_ne h, List.getD_eq_getElem?_getD]
  by_cases hj : j < l.length
  · rw [List.getElem?_append_left hj]
  · rw [List.getElem?_append_right (by omega), List.getElem?_replicate, List.getElem?_eq_none (by omega)]
    split <;> rfl

theorem Dev.port_putPort (d : Dev) {p : Nat} (h : p < 8) (x : Port) : (d.putPort p x).port p = x := getD_set_pad _ _ _ _ _ h
theorem Dev.port_putPort_ne (d : Dev) {p q : Nat} (h : q ≠ p) (x : Port) : (d.putPort p x).port q = d.port q :=
  getD_set_pad_ne _ _ _ _ _ _ (Ne.symm h)
theorem Dev.cport_putCport (d : Dev) {p : Nat} (h : p < 4) (x : CrockPort) : (d.putCport p x).cport p = x := getD_set_pad _ _ _ _ _ h
theorem Dev.cport_putCport_ne (d : Dev) {p q : Nat} (h : q ≠ p) (x : CrockPort) : (d.putCport p x).cport q = d.cport q :=
  getD_set_pad_ne _ _ _ _ _ _ (Ne.symm h)

/-- What a killed run looks like. -/
def Run.Dead (y : Run) (ca : Nat) : Prop := ca ∈ y.marks.causes ∧ ∀ c ∈ y.cores, c.done = true ∧ c.todo = []

theorem Run.dead_kill (x : Run) (ca : Nat) : (x.kill (.cause ca)).Dead ca := by
  refine ⟨List.mem_append_right _ List.mem_cons_self, ?_⟩
  intro c hc
  obtain ⟨z, _, rfl⟩ := List.mem_map.1 hc
  exact ⟨rfl, rfl⟩

theorem Run.dead_kill_of (x : Run) (ca : Nat) (m : Marks) (h : x.Dead ca) : (x.kill m).Dead ca := by
  refine ⟨List.mem_append_left _ h.1, ?_⟩
  intro c hc
  obtain ⟨z, _, rfl⟩ := List.mem_map.1 hc
  exact ⟨rfl, rfl⟩

theorem Dev.killRuns_mem (d : Dev) (sel : Run → Bool) (ca : Nat) {e : Nat × Run} (he : e ∈ d.runs) (hs : sel e.2 = true) (hl : e.2.ended = false) :
    ∃ y, (e.1, y) ∈ (d.killRuns sel (.cause ca)).runs ∧ y.Dead ca := by
  refine ⟨e.2.kill (.cause ca), List.mem_map.2 ⟨e, he, ?_⟩, Run.dead_kill _ _⟩
  rw [hs, hl]; rfl

theorem Dev.killRuns_keeps (d : Dev) (sel : Run → Bool) (m : Marks) {i ca : Nat} {y : Run} (he : (i, y) ∈ d.runs) (hd : y.Dead ca) :
    ∃ y, (i, y) ∈ (d.killRuns sel m).runs ∧ y.Dead ca := by
  by_cases h : (sel y && !y.ended) = true
  · exact ⟨y.kill m, List.mem_map.2 ⟨(i, y), he, by rw [if_pos h]⟩, Run.dead_kill_of _ _ _ hd⟩
  · exact ⟨y, List.mem_map.2 ⟨(i, y), he, by rw [if_neg h]⟩, hd⟩

theorem Dev.catchHeld_mem (d : Dev) (die : Nat) {e : Nat × Run} (he : e ∈ d.runs) (hl : e.2.ended = false) : e ∈ (d.catchHeld die).runs := by
  refine List.mem_map.2 ⟨e, he, ?_⟩
  unfold Run.catch
  rw [if_neg (by rw [hl]; simp)]

theorem Dev.catchHeld_keeps (d : Dev) (die : Nat) {i ca : Nat} {y : Run} (he : (i, y) ∈ d.runs) (hd : y.Dead ca) :
    ∃ y, (i, y) ∈ (d.catchHeld die).runs ∧ y.Dead ca := by
  refine ⟨y.catch die (kget d.saf.clean die 0), List.mem_map.2 ⟨(i, y), he, rfl⟩, ?_⟩
  unfold Run.catch
  split
  · exact Run.dead_kill_of _ _ _ hd
  · exact hd

theorem Dev.catchHeld_shape (d : Dev) (die : Nat) : ∃ q r, d.catchHeld die = (d.setQps q).setRuns r := ⟨_, _, rfl⟩

/-- A fence's record and its alert change the reports, the alert word and what left the device. -/
theorem Dev.fenceRec_shape (d : Dev) (die idx reason : Nat) : ∃ e m o, d.Reports e ∧
    d.fenceRec die idx reason = { e with mod := { e.mod with alert := m }, out := o } ∧ bit m 1 = true := by
  unfold Dev.fenceRec
  obtain ⟨e, he⟩ : ∃ e, e = d.raise { code := evFence, unit := unit24 die idx, payload := leBytes 1 die ++ leBytes 2 idx ++ leBytes 1 reason } := ⟨_, rfl⟩
  rw [← he]
  obtain ⟨m, o, hs, _⟩ := Dev.alert_shape e 1
  refine ⟨e, m, o, by rw [he]; exact Dev.reports_raise _ _ _, hs, ?_⟩
  have := Dev.bit_alert e 1
  rw [hs] at this
  exact this

@[simp] theorem Dev.fenceRec_cores (d : Dev) (die idx reason : Nat) : (d.fenceRec die idx reason).cores = d.cores := by
  obtain ⟨e, m, o, h, hs, _⟩ := Dev.fenceRec_shape d die idx reason
  rw [hs]; exact h.cores

@[simp] theorem Dev.fenceRec_skillets (d : Dev) (die idx reason : Nat) : (d.fenceRec die idx reason).skillets = d.skillets := by
  obtain ⟨e, m, o, h, hs, _⟩ := Dev.fenceRec_shape d die idx reason
  rw [hs]; exact h.skillets

@[simp] theorem Dev.fenceRec_saf (d : Dev) (die idx reason : Nat) : (d.fenceRec die idx reason).saf = d.saf := by
  obtain ⟨e, m, o, h, hs, _⟩ := Dev.fenceRec_shape d die idx reason
  rw [hs]; exact h.saf

@[simp] theorem Dev.fenceRec_runs (d : Dev) (die idx reason : Nat) : (d.fenceRec die idx reason).runs = d.runs := by
  obtain ⟨e, m, o, h, hs, _⟩ := Dev.fenceRec_shape d die idx reason
  rw [hs]; exact h.runs

@[simp] theorem Dev.fenceRec_crock (d : Dev) (die idx reason : Nat) : (d.fenceRec die idx reason).crock = d.crock := by
  obtain ⟨e, m, o, h, hs, _⟩ := Dev.fenceRec_shape d die idx reason
  rw [hs]; exact h.crock

@[simp] theorem Dev.fenceRec_fab (d : Dev) (die idx reason : Nat) : (d.fenceRec die idx reason).fab = d.fab := by
  obtain ⟨e, m, o, h, hs, _⟩ := Dev.fenceRec_shape d die idx reason
  rw [hs]; exact h.fab

@[simp] theorem Dev.fenceRec_dmas (d : Dev) (die idx reason : Nat) : (d.fenceRec die idx reason).dmas = d.dmas := by
  obtain ⟨e, m, o, h, hs, _⟩ := Dev.fenceRec_shape d die idx reason
  rw [hs]; exact h.dmas

@[simp] theorem Dev.fenceRec_flash (d : Dev) (die idx reason : Nat) : (d.fenceRec die idx reason).flash = d.flash := by
  obtain ⟨e, m, o, h, hs, _⟩ := Dev.fenceRec_shape d die idx reason
  rw [hs]; exact h.flash

@[simp] theorem Dev.fenceRec_parts (d : Dev) (die idx reason : Nat) : (d.fenceRec die idx reason).parts = d.parts := by
  obtain ⟨e, m, o, h, hs, _⟩ := Dev.fenceRec_shape d die idx reason
  rw [hs]; exact h.parts

@[simp] theorem Dev.fenceRec_ao (d : Dev) (die idx reason : Nat) : (d.fenceRec die idx reason).ao = d.ao := by
  obtain ⟨e, m, o, h, hs, _⟩ := Dev.fenceRec_shape d die idx reason
  rw [hs]; exact h.ao

@[simp] theorem Dev.fenceRec_qps (d : Dev) (die idx reason : Nat) : (d.fenceRec die idx reason).qps = d.qps := by
  obtain ⟨e, m, o, h, hs, _⟩ := Dev.fenceRec_shape d die idx reason
  rw [hs]; exact h.qps

@[simp] theorem Dev.fenceRec_mem (d : Dev) (die idx reason : Nat) : (d.fenceRec die idx reason).mem = d.mem := by
  obtain ⟨e, m, o, h, hs, _⟩ := Dev.fenceRec_shape d die idx reason
  rw [hs]; exact h.mem

@[simp] theorem Dev.fenceRec_dram (d : Dev) (die idx reason : Nat) : (d.fenceRec die idx reason).dram = d.dram := by
  obtain ⟨e, m, o, h, hs, _⟩ := Dev.fenceRec_shape d die idx reason
  rw [hs]; exact h.dram

theorem Dev.fenceRec_alert (d : Dev) (die idx reason : Nat) : bit (d.fenceRec die idx reason).mod.alert 1 = true := by
  obtain ⟨e, m, o, h, hs, hb⟩ := Dev.fenceRec_shape d die idx reason
  rw [hs]; exact hb

theorem Dev.fenceRec_jds (d : Dev) (die idx reason : Nat) : (d.fenceRec die idx reason).jds = d.jds := by
  unfold Dev.fenceRec Dev.raise
  rw [if_neg (by decide : ¬(evFence / 0x1000 = 1 ∧ !evDirect evFence))]
  obtain ⟨m, o, hs, _⟩ := Dev.alert_shape (d.event { code := evFence, unit := unit24 die idx, payload := leBytes 1 die ++ leBytes 2 idx ++ leBytes 1 reason }) 1
  rw [hs]
  exact Dev.jds_event _ _

theorem bit_add_ne (v b c : Nat) (h : bit v c = true) (hb : bit v b = false) (hn : b ≠ c) : bit (v + 2 ^ b) c = true := by
  have hb' : ¬ v / 2 ^ b % 2 = 1 := by intro e; rw [(bit_iff v b).2 e] at hb; cases hb
  rw [bit_iff] at h ⊢
  by_cases hlt : c < b
  · obtain ⟨k, rfl⟩ : ∃ k, b = c + (k + 1) := ⟨b - c - 1, by omega⟩
    rw [Nat.pow_add, Nat.add_mul_div_left _ _ (Nat.two_pow_pos c), Nat.pow_succ]
    omega
  · obtain ⟨k, rfl⟩ : ∃ k, c = b + 1 + k := ⟨c - b - 1, by omega⟩
    rw [Nat.pow_add, ← Nat.div_div_eq_div_mul, Nat.pow_succ, ← Nat.div_div_eq_div_mul] at h ⊢
    rw [Nat.add_div_right _ (Nat.two_pow_pos b), show (v / 2 ^ b + 1) / 2 = v / 2 ^ b / 2 by omega]
    exact h

theorem Dev.alert_keeps (d : Dev) (b c : Nat) (h : bit d.mod.alert c = true) (hn : b ≠ c) : bit (d.alert b).mod.alert c = true := by
  obtain ⟨m, o, hs, hm⟩ := Dev.alert_shape d b
  rw [hs]
  rcases hm with rfl | ⟨hb, rfl⟩
  · exact h
  · show bit (d.mod.alert + 2 ^ b) c = true
    exact bit_add_ne _ _ _ h hb hn

/-- Safe stop is on after it, and its alert is asserted where it was off. -/
theorem Dev.safeStopNow_facts (d : Dev) (r : Nat) (h : d.saf.safeStop = false) :
    (d.safeStopNow r).saf.safeStop = true ∧ bit (d.safeStopNow r).mod.alert 0 = true := by
  unfold Dev.safeStopNow
  rw [if_neg (by rw [h]; decide)]
  dsimp only
  obtain ⟨m, o, hs, _⟩ := Dev.alert_shape (d.setSaf { d.saf with safeStop := true, safeReason := r }) 0
  have hb := Dev.bit_alert (d.setSaf { d.saf with safeStop := true, safeReason := r }) 0
  rw [(Dev.reports_raise _ _ _).saf, (Dev.reports_raise _ _ _).mod, hs]
  rw [hs] at hb
  exact ⟨rfl, hb⟩

theorem Dev.safeStopNow_set (d : Dev) (r : Nat) : (d.safeStopNow r).saf.safeStop = true := by
  cases h : d.saf.safeStop with
  | false => exact (Dev.safeStopNow_facts d r h).1
  | true => unfold Dev.safeStopNow; rw [if_pos h]; exact h

theorem mem_insertSorted_self (g : Nat) (l : List Nat) : g ∈ insertSorted g l := by
  have := (mem_foldl_insertSorted g [g] l).2 (.inr List.mem_cons_self)
  exact this

/-- What the retirement of a core in service does. -/
theorem Dev.retireCore_facts (d : Dev) (g reason cause ca b : Nat) (h : (d.core g).retired = false) :
    (d.retireCore g reason cause).core g = { d.core g with retired := true, clk := .cold, reserved := false, testing := false } ∧
    (∀ k, k ≠ g → (d.retireCore g reason cause).core k = d.core k) ∧ (d.retireCore g reason cause).skillets = d.skillets ∧
    g ∈ (d.retireCore g reason cause).flash.retired ∧ bit (d.retireCore g reason cause).mod.alert 6 = true ∧
    (bit d.mod.alert b = true → bit (d.retireCore g reason cause).mod.alert b = true) ∧ (∀ i y, (i, y) ∈ d.runs → y.Dead ca → ∃ y, (i, y) ∈ (d.retireCore g reason cause).runs ∧ y.Dead ca) ∧
    ∀ p x, d.coreOwner g = some p → (d.retireCore g reason cause).part p = some x → g ∉ x.cores := by
  unfold Dev.retireCore
  rw [if_neg (by rw [h]; decide)]
  dsimp only
  obtain ⟨D1, hD1⟩ : ∃ D, D = ((d.modCore g (fun c => { c with retired := true, clk := .cold, reserved := false, testing := false })).logHealth
    (fun f => { f with retired := insertSorted g f.retired })) := ⟨_, rfl⟩
  obtain ⟨m, hm⟩ : ∃ m, m = (if cause = 0 then Marks.cause caFenced else Marks.cause cause) := ⟨_, rfl⟩
  obtain ⟨D2, hD2⟩ : ∃ D, D = D1.killRuns (fun x => x.onCore g) m := ⟨_, rfl⟩
  obtain ⟨D3, hD3⟩ : ∃ D, D = D2.modPart ((d.coreOwner g).getD 0) (fun x => x.dropCore g) := ⟨_, rfl⟩
  rw [← hD1, ← hm, ← hD2, ← hD3]
  obtain ⟨D4, hR, hD4⟩ : ∃ D, D3.Reports D ∧ D = D3.raise { code := evCoreRetired, part := (d.coreOwner g).getD 0, unit := unitCore g, cause := cause, payload := leBytes 1 g ++ leBytes 1 reason ++ leBytes 2 cause } := ⟨_, Dev.reports_raise _ _ _, rfl⟩
  rw [← hD4]
  obtain ⟨a, o, hs, _⟩ := Dev.alert_shape D4 6
  have hsh : ∃ q, D3 = { D2 with parts := q } := by
    rw [hD3]; unfold Dev.modPart
    split
    · exact ⟨_, rfl⟩
    · exact ⟨_, rfl⟩
  obtain ⟨q, hq⟩ := hsh
  have hc : (D4.alert 6).cores = D1.cores := by rw [hs]; show D4.cores = _; rw [hR.cores, hq, hD2]; rfl
  have hcore : ∀ k, (D4.alert 6).core k = (d.modCore g (fun c => { c with retired := true, clk := .cold, reserved := false, testing := false })).core k := by
    intro k; unfold Dev.core; rw [hc, hD1]; rfl
  refine ⟨?_, ?_, ?_, ?_, Dev.bit_alert _ _, ?_, ?_, ?_⟩
  · rw [hcore, Dev.core_modCore]
  · intro k hk; rw [hcore, Dev.core_modCore_ne d hk]
  · rw [hs]; show D4.skillets = _; rw [hR.skillets, hq, hD2, hD1]; rfl
  · rw [hs]; show g ∈ D4.flash.retired; rw [hR.flash, hq, hD2, hD1]; exact mem_insertSorted_self g _
  · intro hb
    by_cases hbb : b = 6
    · rw [hbb]; exact Dev.bit_alert _ _
    · refine Dev.alert_keeps _ _ _ ?_ (Ne.symm hbb)
      rw [hR.mod, hq, hD2, hD1]; exact hb
  · intro i y hy hd
    have hy1 : (i, y) ∈ D1.runs := by rw [hD1]; exact hy
    obtain ⟨z, hz, hzd⟩ := Dev.killRuns_keeps D1 (fun x => x.onCore g) m hy1 hd
    refine ⟨z, ?_, hzd⟩
    rw [hs]; show _ ∈ D4.runs; rw [hR.runs, hq, hD2]; exact hz
  · intro p x ho hx
    have hp : (D4.alert 6).part p = D3.part p := by
      rw [hs]; show kfind D4.parts p = _; rw [hR.parts]; rfl
    rw [hp, hD3, ho] at hx
    show _ ∉ x.cores
    unfold Dev.modPart at hx
    dsimp only [Option.getD_some] at hx
    cases hk : D2.part p with
    | none => rw [hk] at hx; dsimp only at hx; rw [hk] at hx; cases hx
    | some w =>
      rw [hk] at hx
      dsimp only at hx
      rw [Dev.part_putPart] at hx
      cases hx
      show g ∉ w.cores.filter (· != g)
      simp

/-- A counted fault that no other within 3,600 s precedes. -/
theorem Dev.countFault_first (d : Dev) (g ca : Nat) (h : ∀ n, (d.core g).lastFault = some n → n + 180000000000 < d.aoOf (g / 8)) :
    d.countFault g ca = d.modCore g (fun c => { c with lastFault := some (d.aoOf (g / 8)) }) := by
  unfold Dev.countFault
  dsimp only
  split
  · rename_i n hn
    have := h n hn
    rw [if_neg (by unfold faultWindow; omega)]
  · rfl

/-- The second within 3,600 s. -/
theorem Dev.countFault_second (d : Dev) (g ca n : Nat) (h : (d.core g).lastFault = some n) (hn : d.aoOf (g / 8) ≤ n + 180000000000) :
    d.countFault g ca = (d.modCore g (fun c => { c with lastFault := some (d.aoOf (g / 8)) })).retireCore g 0 ca := by
  unfold Dev.countFault
  dsimp only
  rw [h]
  dsimp only
  rw [if_pos (by unfold faultWindow; omega)]

theorem Dev.setCores_core (d : Dev) (g : Nat) (f : Core → Core) : d.modCore g f = d.setCores (d.modCore g f).cores := rfl

theorem Dev.core_of {d e : Dev} (h : e.cores = d.cores) (g : Nat) : e.core g = d.core g := by unfold Dev.core; rw [h]

/-- A row that changes one core alone. -/
theorem State.core_only (s : State) {f : Dev → Dev} {g : Nat} {h : Core → Core} (e : f s.dev = s.dev.modCore g h) :
    (s.onDev f).dev.core g = h (s.dev.core g) ∧ (∀ k, k ≠ g → (s.onDev f).dev.core k = s.dev.core k) ∧
      (s.onDev f).dev = s.dev.setCores (s.onDev f).dev.cores := by
  have e2 : (s.onDev f).dev = s.dev.modCore g h := e
  rw [e2]
  exact ⟨Dev.core_modCore _ _ _, fun k hk => Dev.core_modCore_ne _ hk _, rfl⟩

theorem Dev.clockFault_core (d : Dev) (die dom mhz g : Nat) (h1 : die < 16) (h2 : dom < 8) (hg : g = 8 * die + dom) (hf : (d.core g).fenced = false) :
    ∃ D : Dev, d.clockFault die dom mhz = D.countFault g caFenced ∧ D.core g = { d.core g with fenced := true, clk := .cold, testing := false } ∧
      (∀ h, h ≠ g → D.core h = d.core h) ∧ D.skillets = d.skillets ∧ D.ao = d.ao ∧ D.flash = d.flash ∧ D.parts = d.parts ∧
      bit D.mod.alert 1 = true ∧ ∀ e ∈ d.runs, e.2.ended = false → e.2.onCore g = true → ∃ y, (e.1, y) ∈ D.runs ∧ y.Dead caFenced := by
  have hd1 : g / 8 = die := by omega
  have hd2 : g % 8 = dom := by omega
  unfold Dev.clockFault
  rw [if_neg (by unfold clockDomOk; rw [if_pos h1]; simp; omega)]
  dsimp only
  rw [if_pos h1, if_pos h2, ← hg]
  obtain ⟨E, hR, hE⟩ : ∃ E, d.Reports E ∧ E = d.raise { code := evClockFault, unit := unit24 die (clockUnit die dom), cause := caFenced, payload := leBytes 1 die ++ leBytes 1 dom ++ leBytes 2 mhz } := ⟨_, Dev.reports_raise _ _ _, rfl⟩
  rw [← hE]
  have hc : ∀ k, (E.catchHeld die).core k = d.core k := by intro k; show E.core k = _; unfold Dev.core; rw [hR.cores]
  unfold Dev.fenceCore
  rw [if_neg (by rw [hc, hf]; decide)]
  dsimp only
  refine ⟨_, rfl, ?_, ?_, ?_, ?_, ?_, ?_, Dev.fenceRec_alert _ _ _ _, ?_⟩
  · rw [Dev.core_of (Dev.fenceRec_cores _ _ _ _)]
    refine (Dev.core_modCore (E.catchHeld die) g (fun c => { c with fenced := true, clk := .cold, testing := false })).trans ?_
    rw [hc]
  · intro h hn; rw [Dev.core_of (Dev.fenceRec_cores _ _ _ _)]
    exact (Dev.core_modCore_ne (E.catchHeld die) hn (fun c => { c with fenced := true, clk := .cold, testing := false })).trans (hc h)
  · rw [Dev.fenceRec_skillets]; exact hR.skillets
  · rw [Dev.fenceRec_ao]; exact hR.ao
  · rw [Dev.fenceRec_flash]; exact hR.flash
  · rw [Dev.fenceRec_parts]; exact hR.parts
  · intro e he hl ho
    rw [Dev.fenceRec_runs]
    have he1 : e ∈ (E.catchHeld die).runs := Dev.catchHeld_mem E die (by rw [hR.runs]; exact he) hl
    exact Dev.killRuns_mem ((E.catchHeld die).modCore g (fun c => { c with fenced := true, clk := .cold, testing := false })) (fun x => x.onCore g) caFenced he1 ho hl

/-- A function applied to the cores of a list, where applying it twice is applying it once. -/
theorem Dev.foldCores (F : Core → Core) (hF : ∀ c, F (F c) = F c) (b : Nat) : ∀ (l : List Nat) (d : Dev), ∃ x,
    l.foldl (fun d i => d.modCore (b + i) F) d = d.setCores x ∧
    (∀ h, (∃ i ∈ l, h = b + i) → (d.setCores x).core h = F (d.core h)) ∧
    (∀ h, (¬∃ i ∈ l, h = b + i) → (d.setCores x).core h = d.core h) := by
  intro l
  induction l with
  | nil =>
    intro d
    refine ⟨d.cores, rfl, ?_, fun _ _ => rfl⟩
    rintro h ⟨i, hi, _⟩; cases hi
  | cons a l ih =>
    intro d
    obtain ⟨x, e, h1, h2⟩ := ih (d.modCore (b + a) F)
    refine ⟨x, e, ?_, ?_⟩
    · rintro h ⟨i, hi, rfl⟩
      have hx : (d.setCores x).core (b + i) = ((d.modCore (b + a) F).setCores x).core (b + i) := rfl
      rw [hx]
      by_cases hl : ∃ j ∈ l, b + i = b + j
      · rw [h1 _ hl]
        by_cases ha : b + i = b + a
        · rw [ha, Dev.core_modCore, hF]
        · rw [Dev.core_modCore_ne _ ha]
      · rw [h2 _ hl]
        rcases List.mem_cons.1 hi with rfl | hi
        · exact Dev.core_modCore _ _ _
        · exact absurd ⟨i, hi, rfl⟩ hl
    · intro h hn
      have hx : (d.setCores x).core h = ((d.modCore (b + a) F).setCores x).core h := rfl
      rw [hx, h2 h (fun ⟨i, hi, e⟩ => hn ⟨i, List.mem_cons_of_mem _ hi, e⟩)]
      exact Dev.core_modCore_ne _ (fun e => hn ⟨a, List.mem_cons_self, e⟩) _

/-- The fence of a skillet (R472). -/
theorem Dev.fenceSkillet_facts (d : Dev) (k r : Nat) (h : (d.skillet k).fenced = false) :
    (d.fenceSkillet k r).skillet k = { d.skillet k with fenced := true } ∧ bit (d.fenceSkillet k r).mod.alert 1 = true ∧
    (∀ h, h / 8 = k → (d.fenceSkillet k r).core h = { d.core h with clk := .cold, testing := false }) ∧
    (∀ h, h / 8 ≠ k → (d.fenceSkillet k r).core h = d.core h) ∧ (∀ h, h ≠ k → (d.fenceSkillet k r).skillet h = d.skillet h) ∧
    (∀ e ∈ d.runs, e.2.ended = false → e.2.onSkillet k = true → ∃ y, (e.1, y) ∈ (d.fenceSkillet k r).runs ∧ y.Dead caFenced) ∧
    (d.fenceSkillet k r).saf = d.saf := by
  unfold Dev.fenceSkillet
  rw [if_neg (by rw [h]; decide)]
  dsimp only
  obtain ⟨x, hx, h1, h2⟩ := Dev.foldCores (fun c => { c with clk := .cold, testing := false }) (fun _ => rfl) (8 * k) (List.range 8)
    (d.modSkillet k (fun x => { x with fenced := true }))
  rw [hx]
  obtain ⟨D, hD⟩ : ∃ D, D = (d.modSkillet k (fun x => { x with fenced := true })).setCores x := ⟨_, rfl⟩
  rw [← hD] at h1 h2 ⊢
  have hp : ∀ e : Dev, e.potPoison (potKeyAt k 0) 134217728 = e.setPotBad (e.potBad ++ [(potKeyAt k 0 / 8 * 8, ceilDiv (potKeyAt k 0 + 134217728) 8 * 8)]) := by
    intro e; unfold Dev.potPoison; rw [if_neg (by decide)]
  have hc : ∀ h, ((((D.killRuns (fun x => x.onSkillet k) (.cause caFenced)).potPoison (potKeyAt k 0) 134217728).catchHeld k).fenceRec k uiDie r).core h = D.core h := by
    intro h; rw [Dev.core_of (Dev.fenceRec_cores _ _ _ _), hp]; rfl
  have hs : ((((D.killRuns (fun x => x.onSkillet k) (.cause caFenced)).potPoison (potKeyAt k 0) 134217728).catchHeld k).fenceRec k uiDie r).skillets = D.skillets := by
    rw [Dev.fenceRec_skillets, hp]; rfl
  have hs2 : ∀ h, ((((D.killRuns (fun x => x.onSkillet k) (.cause caFenced)).potPoison (potKeyAt k 0) 134217728).catchHeld k).fenceRec k uiDie r).skillet h = (d.modSkillet k (fun x => { x with fenced := true })).skillet h := by
    intro h; unfold Dev.skillet; rw [hs, hD]; rfl
  refine ⟨?_, Dev.fenceRec_alert _ _ _ _, ?_, ?_, ?_, ?_, ?_⟩
  · rw [hs2, Dev.skillet_modSkillet]
  · intro g hg; rw [hc, h1 g ⟨g % 8, List.mem_range.2 (by omega), by omega⟩]; rfl
  · intro g hg; rw [hc, h2 g (by rintro ⟨i, hi, rfl⟩; have := List.mem_range.1 hi; omega)]; rfl
  · intro g hg; rw [hs2, Dev.skillet_modSkillet_ne _ hg]
  · intro e he hl ho
    rw [Dev.fenceRec_runs]
    have hr : D.runs = d.runs := by rw [hD]; rfl
    obtain ⟨y, hy, hyd⟩ := Dev.killRuns_mem D (fun x => x.onSkillet k) caFenced (by rw [hr]; exact he) ho hl
    refine Dev.catchHeld_keeps _ k (y := y) ?_ hyd
    rw [hp]; exact hy
  · rw [Dev.fenceRec_saf, hp, hD]; rfl

theorem Dev.dmaAbort_shape (d : Dev) (c st : Nat) : d.Reports (d.dmaAbort c st |>.setDmas d.dmas) ∧
    ∀ e, e ≠ c → (d.dmaAbort c st).dma e = d.dma e := by
  unfold Dev.dmaAbort
  split
  · rename_i t _
    unfold Dev.dmaWriteBack
    dsimp only
    obtain ⟨P, hP⟩ : ∃ P, P = d.putDma c { d.dma c with xfer := none } := ⟨_, rfl⟩
    rw [← hP]
    obtain ⟨o, ho⟩ : ∃ o, o = Out.hostWrite ((d.dma c).base + 64 * t.idx + 0x38) (wbBytes (if d.saf.safeStop = true then stPoisoned else st)
      (1 + 2 * b2n (true || d.saf.safeStop) + 4 * b2n (false && (d.dma c).head == (d.dma c).tail)) (if (true || d.saf.safeStop) = true then 0 else t.moved % 2 ^ 32)) := ⟨_, rfl⟩
    rw [← ho, if_neg (by simp)]
    refine ⟨?_, ?_⟩
    · have : (P.emitOut o).setDmas d.dmas = d.setOut (d.out ++ [o]) := by rw [hP]; rfl
      rw [this]; exact Dev.reports_emit d [o]
    · intro e he; rw [hP]; exact Dev.dma_putDma_ne d he _
  · exact ⟨Dev.Reports.rfl d, fun _ _ => rfl⟩

theorem Dev.dmaAborts_facts (b st : Nat) : ∀ (l : List Nat) (d : Dev), 
    d.Reports ((l.foldl (fun d c => d.dmaAbort (b + c) st) d).setDmas d.dmas) ∧
    (∀ c ∈ l, ((l.foldl (fun d c => d.dmaAbort (b + c) st) d).dma (b + c)).xfer = none) ∧
    ∀ c, (d.dma c).xfer = none → ((l.foldl (fun d c => d.dmaAbort (b + c) st) d).dma c).xfer = none := by
  intro l
  induction l with
  | nil => intro d; exact ⟨Dev.Reports.rfl d, fun _ h => (nomatch h), fun _ h => h⟩
  | cons a l ih =>
    intro d
    obtain ⟨i1, i2, i3⟩ := ih (d.dmaAbort (b + a) st)
    have h1 := (Dev.dmaAbort_shape d (b + a) st).1
    have hx : ∀ c, (d.dma c).xfer = none → ((d.dmaAbort (b + a) st).dma c).xfer = none := by
      intro c hc
      by_cases he : c = b + a
      · rw [he, Dev.dma_abort]
      · rw [(Dev.dmaAbort_shape d (b + a) st).2 c he]; exact hc
    refine ⟨?_, ?_, ?_⟩
    · obtain ⟨⟨w1, w2, w3, w4, w5, e1⟩, v1⟩ := h1
      obtain ⟨⟨z1, z2, z3, z4, z5, e2⟩, v2⟩ := i1
      refine ⟨⟨z1, z2, z3, z4, w5 ++ z5, ?_⟩, ?_⟩
      · show (l.foldl _ (d.dmaAbort (b + a) st)).setDmas d.dmas = _
        have : (l.foldl (fun d c => d.dmaAbort (b + c) st) (d.dmaAbort (b + a) st)).setDmas d.dmas =
          ((l.foldl (fun d c => d.dmaAbort (b + c) st) (d.dmaAbort (b + a) st)).setDmas (d.dmaAbort (b + a) st).dmas).setDmas d.dmas := rfl
        rw [this, e2]
        have e3 : d.dmaAbort (b + a) st = ((d.dmaAbort (b + a) st).setDmas d.dmas).setDmas (d.dmaAbort (b + a) st).dmas := rfl
        rw [e3, e1]
        simp only [Dev.setDmas, List.append_assoc]
      · intro f
        obtain ⟨i, e, h⟩ := v2 f
        obtain ⟨i', e', h'⟩ := v1 f
        refine ⟨i, e, ?_⟩
        have h2 : (d.dmaAbort (b + a) st).fn f = { d.fn f with int := i', evt := e' } := h'
        rw [h2] at h
        exact h
    · intro c hc
      rcases List.mem_cons.1 hc with rfl | hc
      · exact i3 _ (by rw [Dev.dma_abort])
      · exact i2 c hc
    · intro c hc; exact i3 c (hx c hc)

theorem Dev.portDown_facts (d : Dev) {p : Nat} (h : p < 8) : ((d.portDown p).port p).st = 0 ∧ ((d.portDown p).port p).replay = [] ∧
    (∀ q, q ≠ p → (d.portDown p).port q = d.port q) ∧ ∃ f, d.portDown p = d.setFab f := by
  unfold Dev.portDown
  dsimp only
  rw [Dev.port_putPort _ h]
  exact ⟨rfl, rfl, fun q hq => Dev.port_putPort_ne _ hq _, _, rfl⟩

theorem Dev.fenceIod_facts (d : Dev) (i r : Nat) (h1 : 1 ≤ i) (h2 : i < 4) (h : i ∉ d.saf.iodFenced) :
    i ∈ (d.fenceIod i r).saf.iodFenced ∧ ((d.fenceIod i r).port (2 * i)).st = 0 ∧ ((d.fenceIod i r).port (2 * i + 1)).st = 0 ∧
    ((d.fenceIod i r).cport i).st = 0 ∧ (∀ c, c < 32 → ((d.fenceIod i r).dma (32 * i + c)).xfer = none) ∧
    (d.fenceIod i r).saf.safeStop = d.saf.safeStop := by
  unfold Dev.fenceIod
  rw [if_neg (by omega), if_neg (by simpa using h)]
  dsimp only
  obtain ⟨A, hA⟩ : ∃ A, A = d.setSaf { d.saf with iodFenced := insertSorted i d.saf.iodFenced } := ⟨_, rfl⟩
  rw [← hA]
  obtain ⟨p1, p2, p3, f1, p4⟩ := Dev.portDown_facts A (show 2 * i < 8 by omega)
  obtain ⟨q1, q2, q3, f2, q4⟩ := Dev.portDown_facts (A.portDown (2 * i)) (show 2 * i + 1 < 8 by omega)
  obtain ⟨B, hB⟩ : ∃ B, B = (A.portDown (2 * i)).portDown (2 * i + 1) := ⟨_, rfl⟩
  rw [← hB] at q1 q2 q3 q4 ⊢
  obtain ⟨C, hC⟩ : ∃ C, C = B.putCport i { B.cport i with st := 0 } := ⟨_, rfl⟩
  rw [← hC]
  obtain ⟨r1, r2, _⟩ := Dev.dmaAborts_facts (32 * i) stPoisoned (List.range 32) C
  obtain ⟨E, hE⟩ : ∃ E, E = (List.range 32).foldl (fun d c => d.dmaAbort (32 * i + c) stPoisoned) C := ⟨_, rfl⟩
  rw [← hE] at r1 r2 ⊢
  have hsaf : ((E.catchHeld (dieIod i)).fenceRec (dieIod i) uiDie r).saf = A.saf := by
    rw [Dev.fenceRec_saf]
    show E.saf = _
    rw [show E.saf = C.saf from r1.saf, hC]
    show B.saf = _
    rw [q4, p4]; rfl
  have hfab : ((E.catchHeld (dieIod i)).fenceRec (dieIod i) uiDie r).fab = B.fab := by
    rw [Dev.fenceRec_fab]; show E.fab = _
    rw [show E.fab = C.fab from r1.fab, hC]; rfl
  have hcr : ((E.catchHeld (dieIod i)).fenceRec (dieIod i) uiDie r).crock = C.crock := by
    rw [Dev.fenceRec_crock]; show E.crock = _; exact r1.crock
  refine ⟨?_, ?_, ?_, ?_, ?_, ?_⟩
  · rw [hsaf, hA]; exact mem_insertSorted_self i _
  · unfold Dev.port; rw [hfab]; show (B.port (2 * i)).st = 0
    rw [q3 (2 * i) (by omega)]; exact p1
  · unfold Dev.port; rw [hfab]; exact q1
  · unfold Dev.cport; rw [hcr]; show (C.cport i).st = 0
    rw [hC, Dev.cport_putCport _ h2]
  · intro c hc
    unfold Dev.dma; rw [Dev.fenceRec_dmas]
    exact r2 c (List.mem_range.2 hc)
  · rw [hsaf, hA]; rfl

theorem Dev.jds_count (d : Dev) (u i n : Nat) : (d.count u i n).jds = d.jds := by
  unfold Dev.count
  split
  · rfl
  · exact (Dev.foldl_jds Dev.event (fun d e => Dev.jds_event d e) _ _).trans (Dev.jds_addCount d u i n)

theorem Dev.missTile_jds (d : Dev) (p q t g : Nat) : (d.missTile p q t g).jds = d.jds ∧ (d.missTile p q t g).saf = d.saf := by
  unfold Dev.missTile
  dsimp only
  exact ⟨Dev.jds_count _ _ _ _, (Dev.reports_count _ _ _ _).saf⟩

/-- The fence of a junction die while the other serves (R28). -/
theorem Dev.fenceJd_facts (d : Dev) (j r : Nat) (h : (d.jd j).fenced = false) (h2 : (d.jd (1 - j)).fenced = false) (hj : j < 2) :
    ((d.fenceJd j r).jd j).fenced = true ∧ ((d.fenceJd j r).jd (1 - j)).fenced = false ∧ (d.fenceJd j r).saf = d.saf := by
  unfold Dev.fenceJd
  rw [if_neg (by rw [h]; decide), if_neg (by rw [h2]; decide)]
  dsimp only
  have hm : ∀ (l : List Mcast) (d : Dev), (l.foldl (fun d m => m.subs.foldl (fun d g => d.missTile m.part m.prog m.tile g) d) d).jds = d.jds ∧
      (l.foldl (fun d m => m.subs.foldl (fun d g => d.missTile m.part m.prog m.tile g) d) d).saf = d.saf := by
    intro l
    induction l with
    | nil => intro d; exact ⟨rfl, rfl⟩
    | cons a l ih =>
      intro d
      have hin : ∀ (z : List Nat) (d : Dev), (z.foldl (fun d g => d.missTile a.part a.prog a.tile g) d).jds = d.jds ∧
          (z.foldl (fun d g => d.missTile a.part a.prog a.tile g) d).saf = d.saf := by
        intro z
        induction z with
        | nil => intro d; exact ⟨rfl, rfl⟩
        | cons b z ihz =>
          intro d
          have := ihz (d.missTile a.part a.prog a.tile b)
          have h0 := Dev.missTile_jds d a.part a.prog a.tile b
          exact ⟨this.1.trans h0.1, this.2.trans h0.2⟩
      have h1 := ih (a.subs.foldl (fun d g => d.missTile a.part a.prog a.tile g) d)
      exact ⟨h1.1.trans (hin _ d).1, h1.2.trans (hin _ d).2⟩
  obtain ⟨D, hD⟩ : ∃ D, D = d.putJd j { d.jd j with fenced := true, own := [], other := [], mcast := [] } := ⟨_, rfl⟩
  rw [← hD]
  obtain ⟨m1, m2⟩ := hm (d.jd j).mcast D
  obtain ⟨E, hE⟩ : ∃ E, E = (d.jd j).mcast.foldl (fun d m => m.subs.foldl (fun d g => d.missTile m.part m.prog m.tile g) d) D := ⟨_, rfl⟩
  rw [← hE] at m1 m2 ⊢
  have hj1 : ∀ k, ((((E.killRuns (fun x => E.underJd j x) (.cause caFenced)).markJd j).catchHeld (dieJd j)).fenceRec (dieJd j) uiDie r).jd k = D.jd k := by
    intro k; unfold Dev.jd; rw [Dev.fenceRec_jds]; show kget E.jds k _ = _; rw [m1]
  refine ⟨?_, ?_, ?_⟩
  · rw [hj1, hD, Dev.jd_putJd]
  · rw [hj1, hD]
    have : (d.putJd j { d.jd j with fenced := true, own := [], other := [], mcast := [] }).jd (1 - j) = d.jd (1 - j) := by
      unfold Dev.putJd Dev.jd; exact kget_kset_ne (by omega) _ _ _
    rw [this]; exact h2
  · rw [Dev.fenceRec_saf]; show E.saf = _; rw [m2, hD]; rfl

theorem Dev.clockFault_eq (d : Dev) (die dom mhz : Nat) (h : clockDomOk die dom = true) : ∃ E : Dev, d.Reports E ∧
    d.clockFault die dom mhz =
      if die < 16 then
        if dom < 8 then (E.catchHeld die).fenceCore (8 * die + dom) 0
        else if dom = 8 then ((E.catchHeld die).soil die).fenceSkillet die 0
        else if dom = 9 then (E.catchHeld die).fenceStackCtl die 0
        else (E.catchHeld die).fenceEngine die 0
      else if die < 20 then
        if dom < 2 then ((E.catchHeld die).soil die).fenceIod (die - 16) 0
        else if dom = 2 then (E.catchHeld die).fenceCrockPort (die - 16) 0
        else (E.catchHeld die).fenceFabPort (2 * (die - 16) + (dom - 3)) 0
      else ((E.catchHeld die).soil die).fenceDie die 0 := by
  unfold Dev.clockFault
  rw [if_neg (by rw [h]; decide)]
  exact ⟨_, Dev.reports_raise _ _ _, rfl⟩

theorem Dev.railFault_eq (d : Dev) (die rail mv : Nat) (h : railOk die rail = true) : ∃ E : Dev, (d.soil die).Reports E ∧
    d.railFault die rail mv =
      (if die < 16 ∧ rail = 2 then E.setSaf { E.saf with dramBad := insertSorted die E.saf.dramBad } else E).fenceDie die 1 := by
  unfold Dev.railFault
  rw [if_neg (by rw [h]; decide)]
  exact ⟨_, Dev.reports_raise _ _ _, rfl⟩

theorem Dev.skillet_of {d e : Dev} (h : e.skillets = d.skillets) (g : Nat) : e.skillet g = d.skillet g := by unfold Dev.skillet; rw [h]
theorem Dev.port_of {d e : Dev} (h : e.fab = d.fab) (g : Nat) : e.port g = d.port g := by unfold Dev.port; rw [h]
theorem Dev.cport_of {d e : Dev} (h : e.crock = d.crock) (g : Nat) : e.cport g = d.cport g := by unfold Dev.cport; rw [h]

theorem Dev.fenceFabPort_facts (d : Dev) {p : Nat} (h : p < 8) (hf : (d.port p).fenced = false) (r : Nat) :
    ((d.fenceFabPort p r).port p).fenced = true ∧ ((d.fenceFabPort p r).port p).st = 0 ∧ ((d.fenceFabPort p r).port p).replay = [] ∧
    ∀ q, q ≠ p → (d.fenceFabPort p r).port q = d.port q := by
  unfold Dev.fenceFabPort
  rw [if_neg (by rw [hf]; decide)]
  dsimp only
  obtain ⟨p1, p2, p3, _⟩ := Dev.portDown_facts d h
  have hp : ∀ q, (((d.portDown p).putPort p { (d.portDown p).port p with fenced := true }).fenceRec (dieIod (p / 2)) (uiFab (p % 2)) r).port q
      = ((d.portDown p).putPort p { (d.portDown p).port p with fenced := true }).port q := fun q => Dev.port_of (Dev.fenceRec_fab _ _ _ _) q
  refine ⟨?_, ?_, ?_, ?_⟩
  · rw [hp, Dev.port_putPort _ h]
  · rw [hp, Dev.port_putPort _ h]; exact p1
  · rw [hp, Dev.port_putPort _ h]; exact p2
  · intro q hq; rw [hp, Dev.port_putPort_ne _ hq]; exact p3 q hq

theorem Dev.restored_told (d : Dev) (die idx : Nat) :
    (d.setSaf { d.saf with railBad := d.saf.railBad.filter (· != die) }).Reports (d.restored die idx) := Dev.reports_raise _ _ _

theorem Dev.restored_dev (d : Dev) (die idx : Nat) : (d.restored die idx).cores = d.cores ∧ (d.restored die idx).skillets = d.skillets ∧
    (d.restored die idx).dram = d.dram ∧ (d.restored die idx).mem = d.mem ∧ (d.restored die idx).fab = d.fab ∧ (d.restored die idx).crock = d.crock ∧
    (d.restored die idx).saf = { d.saf with railBad := d.saf.railBad.filter (· != die) } := by
  have h := Dev.restored_told d die idx
  exact ⟨h.cores, h.skillets, h.dram, h.mem, h.fab, h.crock, h.saf⟩

theorem Dev.foldCores_shape (F : Dev → Core → Core) (b : Nat) : ∀ (l : List Nat) (d : Dev), ∃ x,
    l.foldl (fun d i => d.modCore (b + i) (F d)) d = d.setCores x := by
  intro l
  induction l with
  | nil => intro d; exact ⟨d.cores, rfl⟩
  | cons a l ih => intro d; obtain ⟨x, e⟩ := ih (d.modCore (b + a) (F d)); exact ⟨x, e⟩

theorem getD_default_lt {α : Type} (l : List α) (z : α) (i : Nat) (h : l.getD i z ≠ z) : i < l.length := by
  by_cases hl : i < l.length
  · exact hl
  · rw [List.getD_eq_getElem?_getD, List.getElem?_eq_none (by omega)] at h
    exact absurd rfl h

theorem getD_set_lt {α : Type} (l : List α) (z x : α) (n i : Nat) (h : l.getD i z ≠ z) : ((l ++ List.replicate (n - l.length) z).set i x).getD i z = x := by
  have := getD_default_lt l z i h
  rw [List.getD_eq_getElem?_getD, List.getElem?_set_self (by rw [List.length_append, List.length_replicate]; omega)]; rfl

theorem Dev.loseStack_lost (d : Dev) (t : Nat) : ((d.loseStack t).stack t).lost = true := by
  unfold Dev.loseStack
  split
  · assumption
  · dsimp only
    unfold Dev.stack
    rw [(Dev.reports_raise _ _ _).dram]
    split
    · show (((d.modStack t (fun x => { x with lost := true, repairing := false, retrain := none }))).stack t).lost = true
      rw [Dev.stack_modStack]
    · show (((d.modStack t (fun x => { x with lost := true, repairing := false, retrain := none }))).stack t).lost = true
      rw [Dev.stack_modStack]

/-- What firmware's work on an engine leaves alone: cores, partitions, regions and runs (R217). -/
theorem Dev.engineRun_keeps (d : Dev) (full : Bool) (k : Nat) (j : EngineJob) : (d.engineRun full k j).cores = d.cores ∧
    (d.engineRun full k j).parts = d.parts ∧ (d.engineRun full k j).regions = d.regions ∧ (d.engineRun full k j).runs = d.runs := by
  have ends : ∀ (w : Dev) (st : Nat), (w.engineEnds k st).cores = w.cores ∧ (w.engineEnds k st).parts = w.parts ∧
      (w.engineEnds k st).regions = w.regions ∧ (w.engineEnds k st).runs = w.runs := fun w st => ⟨rfl, rfl, rfl, rfl⟩
  have last : ∀ (w : Dev) (st : Nat) (r : Dev), r = { w with parts := d.parts, regions := d.regions, runs := d.runs, cores := d.cores } →
      (r.engineEnds k st).cores = d.cores ∧ (r.engineEnds k st).parts = d.parts ∧ (r.engineEnds k st).regions = d.regions ∧
      (r.engineEnds k st).runs = d.runs := by
    intro w st r h
    obtain ⟨a, b, c, e⟩ := ends r st
    rw [a, b, c, e, h]
    exact ⟨rfl, rfl, rfl, rfl⟩
  unfold Dev.engineRun
  extract_lets b t load v z c0 x0 p c e w r
  split
  · exact ⟨rfl, rfl, rfl, rfl⟩
  · split
    · exact ends d _
    · split
      · exact ends d _
      · split
        · exact ⟨rfl, rfl, rfl, rfl⟩
        · exact last w _ r rfl

theorem Dev.references_keeps (d : Dev) (g : Nat) (l : List EngineJob) : (d.references g l).cores = d.cores ∧
    (d.references g l).parts = d.parts ∧ (d.references g l).regions = d.regions ∧ (d.references g l).runs = d.runs := by
  unfold Dev.references
  split
  · rename_i k _
    unfold Dev.engineJobs
    have : ∀ (m : List EngineJob) (e : Dev), e.cores = d.cores → e.parts = d.parts → e.regions = d.regions → e.runs = d.runs →
        (m.foldl (fun d j => d.engineRun true k j) e).cores = d.cores ∧ (m.foldl (fun d j => d.engineRun true k j) e).parts = d.parts ∧
        (m.foldl (fun d j => d.engineRun true k j) e).regions = d.regions ∧ (m.foldl (fun d j => d.engineRun true k j) e).runs = d.runs := by
      intro m
      induction m with
      | nil => intro e h1 h2 h3 h4; exact ⟨h1, h2, h3, h4⟩
      | cons j m ih =>
        intro e h1 h2 h3 h4
        obtain ⟨a, b, c, f⟩ := Dev.engineRun_keeps e true k j
        exact ih _ (a.trans h1) (b.trans h2) (c.trans h3) (f.trans h4)
    exact this l _ rfl rfl rfl rfl
  · exact ⟨rfl, rfl, rfl, rfl⟩

/-- Without work, only the engine's results of its last work go. -/
theorem Dev.references_nil (d : Dev) (g : Nat) : ∃ m, d.references g [] = d.setSkillets m := by
  unfold Dev.references
  split
  · exact ⟨_, rfl⟩
  · exact ⟨d.skillets, rfl⟩

end Sys2Proof.Machine
end

