-- ==== Sys2Proof/Laws/Tiers.lean ====
section
/-! SUPPORT. Lemmas about the stacks' service, the crock ports and the migrations of the tier engine. -/

namespace Sys2Proof.Machine

theorem mem_poisonInsert (e x : PoisonEnt) : ∀ l : List PoisonEnt, x ∈ poisonInsert e l ↔ x = e ∨ x ∈ l := by
  intro l
  induction l with
  | nil => simp [poisonInsert]
  | cons a l ih =>
    unfold poisonInsert
    split
    · simp
    · rw [List.mem_cons, ih, List.mem_cons]
      constructor
      · rintro (h | h | h)
        · exact .inr (.inl h)
        · exact .inl h
        · exact .inr (.inr h)
      · rintro (h | h | h)
        · exact .inr (.inl h)
        · exact .inl h
        · exact .inr (.inr h)

theorem Dev.stack_of {d e : Dev} (h : e.dram = d.dram) (t : Nat) : e.stack t = d.stack t := by unfold Dev.stack; rw [h]

theorem Dev.stack_putStack_ne (d : Dev) {t k : Nat} (hn : k ≠ t) (x : Stack) : (d.putStack t x).stack k = d.stack k := by
  unfold Dev.putStack Dev.stack; exact kget_kset_ne hn _ _ _

/-- A fresh poisoned sector takes a free entry (R282). -/
theorem Dev.uncorrectable_entry (d : Dev) (p t off : Nat) (b : Bool) (h : (d.stack t).poison.length < 4096)
    (hv : (d.stack t).moved b (off / 64 * 64) = false)
    (hb : (d.stack t).poison.any (fun e => e.covers (off / 64 * 64)) = false) :
    { addr := off / 64 * 64, log2 := 6 } ∈ ((d.uncorrectable p t off b).stack t).poison ∧
    (∀ e ∈ (d.stack t).poison, e ∈ ((d.uncorrectable p t off b).stack t).poison) ∧ (d.uncorrectable p t off b).mem = d.mem := by
  have hp : ((d.uncorrectable p t off b).stack t).poison = poisonInsert { addr := off / 64 * 64, log2 := 6 } (d.stack t).poison := by
    unfold Dev.uncorrectable
    dsimp only
    rw [Dev.stack_of (Dev.reports_raise _ _ _).dram, Dev.stack_of (Dev.reports_count _ _ _ _).dram, Dev.stack_modStack]
    dsimp only
    rw [if_neg (by rw [hv]; decide)]
    unfold poisonAdd
    rw [if_neg (by rw [hb]; decide), if_pos h]
  rw [hp]
  refine ⟨(mem_poisonInsert _ _ _).2 (.inl rfl), fun e he => (mem_poisonInsert _ _ _).2 (.inr he), ?_⟩
  unfold Dev.uncorrectable
  dsimp only
  rw [(Dev.reports_raise _ _ _).mem, (Dev.reports_count _ _ _ _).mem]; rfl

theorem mem_foldl_insert {α : Type} (f : α → Nat) (x : Nat) : ∀ (l : List α) (m : List Nat),
    x ∈ l.foldl (fun l y => insertSorted (f y) l) m ↔ x ∈ m ∨ ∃ y ∈ l, x = f y := by
  intro l
  induction l with
  | nil => intro m; simp
  | cons a l ih =>
    intro m
    rw [List.foldl_cons, ih, mem_insertSorted]
    simp only [List.mem_cons, exists_eq_or_imp]
    rw [or_assoc, or_left_comm]

theorem Dev.repairDone_bad (x : Stack) (ch : Nat → Bool) (h64 : ∀ e ∈ x.poison, e.addr % 64 = 0) (o : Nat) (ho : o % 64 = 0)
    (hb : x.bad o = true) :
    Stack.bad { x with repairing := false, poison := x.poison.filter (fun y => !(y.log2 == 6 && ch y.addr)), repairPoison := (x.poison.filter (fun y => y.log2 == 6 && ch y.addr)).foldl (fun l y => insertSorted (y.addr / 256 * 256) l) x.repairPoison } o = true := by
  unfold Stack.bad at hb ⊢
  rw [Bool.or_eq_true] at hb ⊢
  rcases hb with hb | hb
  · obtain ⟨e, he, hc⟩ := List.any_eq_true.1 hb
    by_cases hm : (e.log2 == 6 && ch e.addr) = true
    · right
      rw [List.contains_iff_mem]
      refine (mem_foldl_insert (fun y : PoisonEnt => y.addr / 256 * 256) _ _ _).2 (.inr ⟨e, List.mem_filter.2 ⟨he, hm⟩, ?_⟩)
      have h1 := h64 e he
      unfold PoisonEnt.covers at hc
      rw [Bool.and_eq_true, beq_iff_eq] at hm
      rw [Bool.and_eq_true, decide_eq_true_iff, decide_eq_true_iff, hm.1] at hc
      have : e.addr = o := by omega
      rw [this]
    · left
      exact List.any_eq_true.2 ⟨e, List.mem_filter.2 ⟨he, by rw [Bool.not_eq_true] at hm; rw [hm]; rfl⟩, hc⟩
  · right
    rw [List.contains_iff_mem] at hb ⊢
    exact (mem_foldl_insert (fun y : PoisonEnt => y.addr / 256 * 256) _ _ _).2 (.inl hb)

theorem Dev.loseStack_facts (d : Dev) (t : Nat) (h : (d.stack t).lost = false) : ((d.loseStack t).stack t).lost = true ∧ t ∈ (d.loseStack t).flash.lost := by
  refine ⟨Dev.loseStack_lost d t, ?_⟩
  unfold Dev.loseStack
  rw [if_neg (by rw [h]; decide)]
  dsimp only
  rw [(Dev.reports_raise _ _ _).flash]
  split <;> exact mem_insertSorted_self t _

theorem Dev.stackOut_false {d : Dev} {t : Nat} (h : d.stackOut t = false) : (d.stack t).lost = false := by
  unfold Dev.stackOut at h
  cases hl : (d.stack t).lost with
  | false => rfl
  | true => rw [hl] at h; simp at h

theorem minOr_eq (cap : Nat) : ∀ (l : List Nat) (d : Nat), cap ∈ l → (∀ x ∈ l, cap ≤ x) → minOr d l = cap := by
  have gen : ∀ (l : List Nat) (d : Nat), minOr d l ≤ d ∨ l ≠ [] := by
    intro l d
    cases l with
    | nil => exact .inl (Nat.le_refl _)
    | cons _ _ => exact .inr (by simp)
  have lo : ∀ (l : List Nat) (d : Nat), cap ≤ d → (∀ x ∈ l, cap ≤ x) → cap ≤ minOr d l := by
    intro l
    induction l with
    | nil => intro d h _; exact h
    | cons a l ih =>
      intro d h hx
      have ha := hx a List.mem_cons_self
      exact Nat.le_min.2 ⟨ha, ih a ha (fun x h => hx x (List.mem_cons_of_mem _ h))⟩
  have hi : ∀ (l : List Nat) (d : Nat), (d = cap ∨ cap ∈ l) → minOr d l ≤ cap ∨ (l ≠ [] ∧ cap ∉ l) := by
    intro l
    induction l with
    | nil =>
      rintro d (h | h)
      · exact .inl (Nat.le_of_eq h)
      · cases h
    | cons a l ih =>
      intro d h
      by_cases hm : cap ∈ a :: l
      · left
        rcases List.mem_cons.1 hm with rfl | hm
        · exact Nat.min_le_left _ _
        · rcases ih a (.inr hm) with h | h
          · exact Nat.le_trans (Nat.min_le_right _ _) h
          · exact absurd hm h.2
      · exact .inr ⟨by simp, hm⟩
  intro l d hm hx
  cases l with
  | nil => cases hm
  | cons a l =>
    apply Nat.le_antisymm
    · rcases hi (a :: l) d (.inr hm) with h | h
      · exact h
      · exact absurd hm h.2
    · exact Nat.le_min.2 ⟨hx a List.mem_cons_self, lo l a (hx a List.mem_cons_self) (fun x h => hx x (List.mem_cons_of_mem _ h))⟩

/-- Ports changed one after the other. -/
theorem Dev.foldPorts (F : Nat → CrockPort → CrockPort) : ∀ (l : List Nat) (d : Dev), l.Nodup → (∀ i ∈ l, i < 4) →
    (∃ x, l.foldl (fun d i => d.putCport i (F i (d.cport i))) d = d.setCrock { d.crock with ports := x }) ∧
    (∀ i ∈ l, (l.foldl (fun d i => d.putCport i (F i (d.cport i))) d).cport i = F i (d.cport i)) ∧
    ∀ i, i ∉ l → (l.foldl (fun d i => d.putCport i (F i (d.cport i))) d).cport i = d.cport i := by
  intro l
  induction l with
  | nil => intro d _ _; exact ⟨⟨d.crock.ports, rfl⟩, fun _ h => (nomatch h), fun _ _ => rfl⟩
  | cons a l ih =>
    intro d hn hl
    obtain ⟨h1, h2⟩ := List.nodup_cons.1 hn
    obtain ⟨⟨x, e⟩, i1, i2⟩ := ih (d.putCport a (F a (d.cport a))) h2 (fun i hi => hl i (List.mem_cons_of_mem _ hi))
    refine ⟨⟨x, e⟩, ?_, ?_⟩
    · intro i hi
      rcases List.mem_cons.1 hi with rfl | hi
      · exact (i2 _ h1).trans (Dev.cport_putCport _ (hl _ List.mem_cons_self) _)
      · have hne : i ≠ a := fun e => h1 (e ▸ hi)
        refine (i1 i hi).trans ?_
        rw [Dev.cport_putCport_ne _ hne]
    · intro i hi
      rw [List.mem_cons, not_or] at hi
      exact (i2 i hi.2).trans (Dev.cport_putCport_ne _ hi.1 _)

theorem Dev.accessed_dropMoves (d : Dev) : d.Accessed d.dropMoves := by
  unfold Dev.dropMoves
  refine Dev.Accessed.foldl _ ?_ _ d
  intro d w
  split
  · exact (Dev.accessed_crockEvent d _ _ _).trans (Dev.accessed_abandon _ _ _ _)
  · exact .rfl d

/-- The ports after a request to retrain: those named and not fenced train, the others stay (R519). -/
theorem Dev.crockRetrain_ports (d : Dev) (mask i : Nat) :
    (i < 4 → bit mask i = true → (d.cport i).fenced = false → (d.crockRetrain mask).cport i = { d.cport i with st := 1 }) ∧
    (bit mask i = false ∨ (d.cport i).fenced = true ∨ 4 ≤ i → (d.crockRetrain mask).cport i = d.cport i) := by
  obtain ⟨g, hg⟩ : ∃ g : Dev → Nat → Dev, g = (fun d i =>
    let x := d.cport i
    if x.fenced then d
    else
      let d1 := d.putCport i { x with st := 1 }
      if x.st = 2 then d1.dropMoves else d1) := ⟨_, rfl⟩
  have hd : d.crockRetrain mask = (setBits 4 mask).foldl g d := by rw [hg]; rfl
  have one : ∀ (d : Dev) k, k < 4 → (g d k).cport k = (if (d.cport k).fenced then d.cport k else { d.cport k with st := 1 }) ∧
      ∀ i, i ≠ k → (g d k).cport i = d.cport i := by
    intro d k hk
    rw [hg]
    dsimp only
    split
    · exact ⟨rfl, fun _ _ => rfl⟩
    · split
      · exact ⟨((Dev.accessed_dropMoves _).cport k).trans (Dev.cport_putCport _ hk _),
          fun i hi => ((Dev.accessed_dropMoves _).cport i).trans (Dev.cport_putCport_ne _ hi _)⟩
      · exact ⟨Dev.cport_putCport _ hk _, fun i hi => Dev.cport_putCport_ne _ hi _⟩
  have all : ∀ (l : List Nat) (d : Dev), (∀ i ∈ l, i < 4) → (i ∈ l → (d.cport i).fenced = false →
      (l.foldl g d).cport i = { d.cport i with st := 1 }) ∧ (i ∉ l ∨ (d.cport i).fenced = true → (l.foldl g d).cport i = d.cport i) := by
    intro l
    induction l with
    | nil => intro d _; exact ⟨fun h => (nomatch h), fun _ => rfl⟩
    | cons a l ih =>
      intro d hl
      obtain ⟨o1, o2⟩ := one d a (hl a List.mem_cons_self)
      obtain ⟨i1, i2⟩ := ih (g d a) (fun i hi => hl i (List.mem_cons_of_mem _ hi))
      rw [List.foldl_cons]
      by_cases hia : i = a
      · subst hia
        refine ⟨fun _ hf => ?_, fun h => ?_⟩
        · rw [if_neg (by rw [hf]; decide)] at o1
          by_cases hm : i ∈ l
          · rw [i1 hm (by rw [o1]; exact hf), o1]
          · rw [i2 (.inl hm), o1]
        · have hf : (d.cport i).fenced = true := h.resolve_left (fun h => h List.mem_cons_self)
          rw [if_pos hf] at o1
          rw [i2 (.inr (by rw [o1]; exact hf)), o1]
      · have e := o2 i hia
        refine ⟨fun hm hf => ?_, fun h => ?_⟩
        · rw [i1 ((List.mem_cons.1 hm).resolve_left hia) (by rw [e]; exact hf), e]
        · rw [i2 (h.imp (fun h hm => h (List.mem_cons_of_mem _ hm)) (fun h => by rw [e]; exact h)), e]
  obtain ⟨h1, h2⟩ := all (setBits 4 mask) d (fun k hk => (mem_setBits_bit.1 hk).1)
  rw [hd]
  refine ⟨fun hi hb hf => h1 (mem_setBits_bit.2 ⟨hi, hb⟩) hf, fun h => h2 ?_⟩
  rcases h with h | h | h
  · left; intro hm; exact absurd (mem_setBits_bit.1 hm).2 (by rw [h]; decide)
  · exact .inr h
  · left; intro hm; have := (mem_setBits_bit.1 hm).1; omega

/-- A fresh uncorrectable sector leaves the repair of its stack, and memory, as they are. -/
theorem Dev.uncorrectable_repair (d : Dev) (p t off : Nat) (b : Bool) :
    (d.uncorrectable p t off b).mem = d.mem ∧ ((d.uncorrectable p t off b).stack t).repairing = (d.stack t).repairing ∧
    ((d.uncorrectable p t off b).stack t).repaired = (d.stack t).repaired := by
  unfold Dev.uncorrectable
  dsimp only
  rw [Dev.stack_of (Dev.reports_raise _ _ _).dram, Dev.stack_of (Dev.reports_count _ _ _ _).dram, Dev.stack_modStack,
    (Dev.reports_raise _ _ _).mem, (Dev.reports_count _ _ _ _).mem]
  exact ⟨rfl, rfl, rfl⟩

/-- The end of a repair's copy (R291). -/
theorem Dev.repairDone_facts (d : Dev) (t c : Nat) (lost : List Nat) (h1 : (d.stack t).repairing = true)
    (h2 : (d.stack t).repaired = some c) :
    ((d.repairDone t lost).stack t).repairing = false ∧ ((d.repairDone t lost).stack t).repaired = some c ∧
    (d.repairDone t lost).mem = d.mem ∧
    (lost = [] → (d.repairDone t lost).stack t = { d.stack t with
      repairing := false
      poison := (d.stack t).poison.filter (fun y => !(y.log2 == 6 && d.inChannel t c y.addr))
      repairPoison := ((d.stack t).poison.filter (fun y => y.log2 == 6 && d.inChannel t c y.addr)).foldl
        (fun l y => insertSorted (y.addr / 256 * 256) l) (d.stack t).repairPoison }) := by
  have fold : ∀ (l : List Nat) (d : Dev), (d.stack t).repairing = true → (d.stack t).repaired = some c →
      ((l.foldl (fun d o => if (d.stack t).bad o then d else
        d.uncorrectable (d.mapOfRow t (o / 4194304)).1 t o (d.mapOfRow t (o / 4194304)).2) d).stack t).repairing = true ∧
      ((l.foldl (fun d o => if (d.stack t).bad o then d else
        d.uncorrectable (d.mapOfRow t (o / 4194304)).1 t o (d.mapOfRow t (o / 4194304)).2) d).stack t).repaired = some c ∧
      (l.foldl (fun d o => if (d.stack t).bad o then d else
        d.uncorrectable (d.mapOfRow t (o / 4194304)).1 t o (d.mapOfRow t (o / 4194304)).2) d).mem = d.mem := by
    intro l
    induction l with
    | nil => intro d a b; exact ⟨a, b, rfl⟩
    | cons o l ih =>
      intro d a b
      rw [List.foldl_cons]
      split
      · exact ih d a b
      · obtain ⟨u1, u2, u3⟩ := Dev.uncorrectable_repair d (d.mapOfRow t (o / 4194304)).1 t o (d.mapOfRow t (o / 4194304)).2
        obtain ⟨i1, i2, i3⟩ := ih _ (u2.trans a) (u3.trans b)
        exact ⟨i1, i2, i3.trans u1⟩
  have tail : ∀ e : Dev, (e.stack t).repairing = true → (e.stack t).repaired = some c → ∀ r : Dev,
      r = (match (e.stack t).repairing, (e.stack t).repaired with
        | true, some c =>
          let mine (y : PoisonEnt) : Bool := y.log2 == 6 && e.inChannel t c y.addr
          let moved := ((e.stack t).poison.filter mine).foldl (fun l y => insertSorted (y.addr / 256 * 256) l) (e.stack t).repairPoison
          let kept := (e.stack t).poison.filter (fun y => !mine y)
          let d1 := e.putStack t { e.stack t with repairing := false, poison := kept, repairPoison := moved }
          let d2 := if d1.regs.repairStatus = 1 ∧ d1.regs.repairStack = t then d1.setRegs { d1.regs with repairStatus := 2 }
                    else d1
          d2.raise { code := evRepairDone, unit := unit24 t uiStackCtl, payload := leBytes 1 c }
        | _, _ => e) → r.mem = e.mem ∧ r.stack t = { e.stack t with
      repairing := false
      poison := (e.stack t).poison.filter (fun y => !(y.log2 == 6 && e.inChannel t c y.addr))
      repairPoison := ((e.stack t).poison.filter (fun y => y.log2 == 6 && e.inChannel t c y.addr)).foldl
        (fun l y => insertSorted (y.addr / 256 * 256) l) (e.stack t).repairPoison } := by
    intro e a b r hr
    rw [a, b] at hr
    dsimp only at hr
    rw [hr, Dev.stack_of (Dev.reports_raise _ _ _).dram, (Dev.reports_raise _ _ _).mem]
    split
    · exact ⟨rfl, Dev.stack_putStack _ _ _⟩
    · exact ⟨rfl, Dev.stack_putStack _ _ _⟩
  unfold Dev.repairDone
  dsimp only
  generalize hL : (lost.map (fun o => o / 64 * 64)).filter _ = L
  obtain ⟨f1, f2, f3⟩ := fold L d h1 h2
  obtain ⟨k1, k2⟩ := tail _ f1 f2 _ rfl
  refine ⟨congrArg Stack.repairing k2, (congrArg Stack.repaired k2).trans f2, k1.trans f3, fun hl => ?_⟩
  have : L = [] := by rw [← hL, hl]; rfl
  subst this
  exact k2

theorem Tier.st_kset (x : Tier) (pg : Nat) (v : PageSt) : kget (kset x.page pg v) pg .zero = v := kget_kset_self _ _ _ _

theorem Dev.abandon_facts (d : Dev) (p pg tf cf k : Nat) (pr wr : Bool) (x : Part) (h : d.part p = some x) (hs : x.tier.st pg = .moving tf cf pr k) :
    ∃ y, (d.abandon p pg wr).part p = some y ∧ y.tier.st pg = (if pr then .crock cf else .stack tf) ∧
      (pr = true → y.tier.frames = x.tier.frames ++ [tf]) ∧ (pr = false → wr = false → y.tier.cframes = x.tier.cframes ++ [cf]) ∧
      (d.abandon p pg wr).mem = d.mem := by
  have hp : ∀ {a b : Dev}, a.Reports b → ∀ q, b.part q = a.part q := by
    intro a b hab q; unfold Dev.part; rw [hab.parts]
  unfold Dev.abandon
  rw [h]
  dsimp only
  rw [hs]
  dsimp only
  cases pr with
  | true =>
    rw [if_pos rfl, hp (Dev.reports_raise _ _ _), (Dev.reports_raise _ _ _).mem, Dev.part_putPart]
    exact ⟨_, rfl, Tier.st_kset _ _ _, fun _ => rfl, fun h => (nomatch h), rfl⟩
  | false =>
    rw [if_neg (by decide)]
    cases wr with
    | false =>
      rw [if_pos (by decide), hp (Dev.reports_raise _ _ _), (Dev.reports_raise _ _ _).mem, Dev.part_putPart]
      exact ⟨_, rfl, Tier.st_kset _ _ _, fun h => (nomatch h), fun _ _ => rfl, rfl⟩
    | true =>
      rw [if_neg (by decide)]
      split
      · rw [hp (Dev.reports_raise _ _ _), (Dev.reports_raise _ _ _).mem]
        refine ⟨_, Dev.part_putPart d p _, Tier.st_kset _ _ _, fun h => (nomatch h), fun _ h => (nomatch h), rfl⟩
      · rw [hp (Dev.reports_raise _ _ _), (Dev.reports_raise _ _ _).mem, hp (Dev.reports_raise _ _ _), (Dev.reports_raise _ _ _).mem]
        refine ⟨_, Dev.part_putPart d p _, Tier.st_kset _ _ _, fun h => (nomatch h), fun _ h => (nomatch h), rfl⟩

theorem Tier.st_kset_ne (x : Tier) {pg g : Nat} (h : g ≠ pg) (v : PageSt) : kget (kset x.page pg v) g .zero = x.st g := kget_kset_ne h _ _ _

theorem Tier.mem_sweepOrder (t : Tier) (g f : Nat) (h : (g, f) ∈ t.sweepOrder) : (g, PageSt.stack f) ∈ t.page := by
  have hl : ∀ e ∈ t.page.filterMap (fun e => match e.2 with | .stack f => some (e.1, f) | _ => none), (e.1, PageSt.stack e.2) ∈ t.page := by
    intro e he
    obtain ⟨z, hz, hq⟩ := List.mem_filterMap.1 he
    cases h2 : z.2 with
    | stack q =>
      rw [h2] at hq
      cases hq
      rw [← h2]
      exact hz
    | _ => rw [h2] at hq; cases hq
  unfold Tier.sweepOrder at h
  dsimp only at h
  have h2 : (g, f) ∈ t.page.filterMap (fun e => match e.2 with | .stack f => some (e.1, f) | _ => none) := by
    rcases List.mem_append.1 h with h | h <;> rcases List.mem_append.1 h with h | h <;> exact (List.mem_filter.1 h).1
  exact hl _ h2

/-- What the sweep finds and what it changes (R302). -/
theorem Dev.sweepTier_facts (d : Dev) (t : Tier) : (∃ a n, (d.sweepTier t).1 = { t with accessed := a, pointer := n }) ∧
    ∀ g f, (d.sweepTier t).2 = some (g, f) → (g, PageSt.stack f) ∈ t.page ∧ d.demotable t g f = true := by
  have gen : ∀ (l : List (Nat × Nat)) (acc : Tier × Option (Nat × Nat)), (∀ e ∈ l, (e.1, PageSt.stack e.2) ∈ t.page) →
      (∃ a n, acc.1 = { t with accessed := a, pointer := n }) →
      (∀ g f, acc.2 = some (g, f) → (g, PageSt.stack f) ∈ t.page ∧ d.demotable t g f = true) →
      (∃ a n, (l.foldl (fun (acc : Tier × Option (Nat × Nat)) e =>
        match acc.2 with
        | some _ => acc
        | none =>
          if acc.1.accessed.contains e.1 then ({ acc.1 with accessed := acc.1.accessed.filter (· != e.1) }, none)
          else if d.demotable t e.1 e.2 then ({ acc.1 with pointer := e.1 + 1 }, some e)
          else acc) acc).1 = { t with accessed := a, pointer := n }) ∧
      ∀ g f, (l.foldl (fun (acc : Tier × Option (Nat × Nat)) e =>
        match acc.2 with
        | some _ => acc
        | none =>
          if acc.1.accessed.contains e.1 then ({ acc.1 with accessed := acc.1.accessed.filter (· != e.1) }, none)
          else if d.demotable t e.1 e.2 then ({ acc.1 with pointer := e.1 + 1 }, some e)
          else acc) acc).2 = some (g, f) → (g, PageSt.stack f) ∈ t.page ∧ d.demotable t g f = true := by
    intro l
    induction l with
    | nil => intro acc _ h1 h2; exact ⟨h1, h2⟩
    | cons e l ih =>
      intro acc hl h1 h2
      refine ih _ (fun e he => hl e (List.mem_cons_of_mem _ he)) ?_ ?_
      · obtain ⟨T, o⟩ := acc
        obtain ⟨a, n, h⟩ := h1
        cases o with
        | some z => exact ⟨a, n, h⟩
        | none =>
          dsimp only at h ⊢
          split
          · rw [h]; exact ⟨_, _, rfl⟩
          · split
            · rw [h]; exact ⟨_, _, rfl⟩
            · exact ⟨a, n, h⟩
      · intro g f hq
        obtain ⟨T, o⟩ := acc
        cases o with
        | some z => exact h2 g f hq
        | none =>
          dsimp only at hq
          split at hq
          · cases hq
          · split at hq
            · rename_i hd
              cases hq
              exact ⟨hl _ List.mem_cons_self, hd⟩
            · cases hq
  exact gen _ _ (fun e he => Tier.mem_sweepOrder t e.1 e.2 he) ⟨_, _, rfl⟩ (fun _ _ h => (nomatch h))

theorem Dev.cupsOpen {d : Dev} {p : Nat} (h : ∀ i, i < 4 → d.cupShut p (36 + i) = false) :
    (List.range 4).any (fun i => d.cupShut p (36 + i)) = false := by
  rw [List.any_eq_false]
  intro i hi
  rw [h i (List.mem_range.1 hi)]
  decide

/-- A chunk of a migration whose read or write failed (R303): the source data stay. -/
theorem Dev.migrationChunk_fails (d : Dev) (p pg tf cf k : Nat) (pr : Bool) (x : Part) (hx : d.part p = some x)
    (hs : x.tier.st pg = .moving tf cf pr k) (hc : ∀ i, i < 4 → d.cupShut p (36 + i) = false) :
    ∃ y, (d.migrationChunk p pg false).part p = some y ∧ (d.migrationChunk p pg false).mem = d.mem ∧
      y.tier.st pg = (if pr then .crock cf else .stack tf) := by
  have hd : d.migrationChunk p pg false = (d.crockEvent p (cf * pageBytes + 4096 * k) stTierError).abandon p pg (!pr) := by
    unfold Dev.migrationChunk
    rw [hx]
    dsimp only
    rw [hs]
    dsimp only
    rw [if_neg (by rw [Dev.cupsOpen hc]; decide)]
    rfl
  have q2 : (d.crockEvent p (cf * pageBytes + 4096 * k) stTierError).part p = some x := by
    refine Eq.trans ?_ hx
    unfold Dev.part Dev.crockEvent
    rw [(Dev.reports_raise _ _ _).parts]
    rfl
  have q3 : (d.crockEvent p (cf * pageBytes + 4096 * k) stTierError).mem = d.mem := (Dev.reports_raise _ _ _).mem
  obtain ⟨y, y1, y2, _, _, y4⟩ := Dev.abandon_facts _ p pg tf cf k pr (!pr) x q2 hs
  exact ⟨y, by rw [hd]; exact y1, by rw [hd]; exact y4.trans q3, y2⟩

/-- What a chunk that goes through leaves (R303): `r` is the device after its bytes are stored. -/
theorem Dev.migrationChunk_goes (d : Dev) (p pg tf cf k : Nat) (pr : Bool) (x : Part) (t : Tier) (r : Marks × Dev)
    (hx : d.part p = some x) (hs : x.tier.st pg = .moving tf cf pr k) (hc : ∀ i, i < 4 → d.cupShut p (36 + i) = false)
    (hu : d.crockUp = true) (hr : r = if pr then (d.chargeChunk p x.tier tf (4096 * k)).putFrame p x.tier tf (4096 * k)
        (crockGet d.mem (cf * pageBytes + 4096 * k) 4096)
      else if (d.frameBytes x.tier tf (4096 * k) 4096).2 then ({}, (d.chargeChunk p x.tier tf (4096 * k)).setMem
        (crockPut d.mem (cf * pageBytes + 4096 * k) (d.frameBytes x.tier tf (4096 * k) 4096).1))
      else (.cause caMemPoison, d.chargeChunk p x.tier tf (4096 * k))) (hm : r.1.clear = true)
    (ht : r.2.part p = some { x with tier := t }) :
    (d.migrationChunk p pg true).mem = r.2.mem ∧ (d.migrationChunk p pg true).part p = some { x with tier :=
      if k + 1 < 512 then { t with page := kset t.page pg (.moving tf cf pr (k + 1)) }
      else if pr then { t with page := kset t.page pg (.stack tf), cframes := t.cframes ++ [cf] }
      else { t with page := kset t.page pg (.crock cf), frames := t.frames ++ [tf] } } := by
  have hd : d.migrationChunk p pg true = d.moveChunk p pg := by
    unfold Dev.migrationChunk
    rw [hx]
    dsimp only
    rw [hs]
    dsimp only
    rw [if_neg (by rw [Dev.cupsOpen hc]; decide), if_neg (by rw [hu]; decide)]
  have hv : d.moveChunk p pg = r.2.modTier p (fun t =>
      if k + 1 < 512 then { t with page := kset t.page pg (.moving tf cf pr (k + 1)) }
      else if pr then { t with page := kset t.page pg (.stack tf), cframes := t.cframes ++ [cf] }
      else { t with page := kset t.page pg (.crock cf), frames := t.frames ++ [tf] }) := by
    unfold Dev.moveChunk
    rw [hx]
    dsimp only
    rw [hs]
    dsimp only
    rw [← hr, if_neg (by rw [hm]; decide)]
  have hp := Dev.modPart_some r.2 ht (fun y => { y with tier := (fun t : Tier =>
      if k + 1 < 512 then { t with page := kset t.page pg (.moving tf cf pr (k + 1)) }
      else if pr then { t with page := kset t.page pg (.stack tf), cframes := t.cframes ++ [cf] }
      else { t with page := kset t.page pg (.crock cf), frames := t.frames ++ [tf] }) y.tier })
  have hf : d.migrationChunk p pg true = r.2.putPart p { x with tier :=
      if k + 1 < 512 then { t with page := kset t.page pg (.moving tf cf pr (k + 1)) }
      else if pr then { t with page := kset t.page pg (.stack tf), cframes := t.cframes ++ [cf] }
      else { t with page := kset t.page pg (.crock cf), frames := t.frames ++ [tf] } } := (hd.trans hv).trans hp
  rw [hf]
  exact ⟨rfl, Dev.part_putPart _ _ _⟩

theorem Dev.chargeChunk_part (d : Dev) (p q : Nat) (t : Tier) (f off : Nat) : (d.chargeChunk p t f off).part q = d.part q := by
  have h : ∃ u, d.chargeChunk p t f off = d.setCups u := by
    unfold Dev.chargeChunk
    obtain ⟨u, hu⟩ := Dev.foldl_cups (fun d i => d.charge p (dieIod i) (36 + i) 16) (fun d i => Dev.charge_shape d _ _ _ _) (List.range 4) d
    obtain ⟨v, hv⟩ := Dev.foldl_cups (fun d s => match d.frameLoc t f s.1 with
      | .stack k _ _ => d.charge p k k 1
      | _ => d) (fun d s => by
        split
        · exact Dev.charge_shape d _ _ _ _
        · exact ⟨d.cups, rfl⟩) (sectorsOf off 4096) (d.setCups u)
    refine ⟨v, ?_⟩
    dsimp only
    rw [hu]
    exact hv
  obtain ⟨u, hu⟩ := h
  rw [hu]
  rfl

end Sys2Proof.Machine
end

