-- ==== Sys2Proof/Laws/Fabric.lean ====
section
/-! SUPPORT. Lemmas about the fabric: flits that leave, the link of a port, messages in flight and messages that have arrived. -/

namespace Sys2Proof.Machine

/-- `d'` is `d` after flits left it: ports, the port that takes the next flit and the cups' counters may differ, and what
had left has left it still. -/
def Dev.Deals (d d' : Dev) : Prop := ∃ ps rr cu l, d' = { d with fab := { d.fab with ports := ps, rr := rr }, cups := cu, out := d.out ++ l }

theorem Dev.Deals.refl (d : Dev) : d.Deals d := ⟨d.fab.ports, d.fab.rr, d.cups, [], by simp⟩
theorem Dev.Deals.trans {a b c : Dev} (h : a.Deals b) (k : b.Deals c) : a.Deals c := by
  obtain ⟨p1, r1, c1, l1, rfl⟩ := h
  obtain ⟨p2, r2, c2, l2, rfl⟩ := k
  exact ⟨p2, r2, c2, l1 ++ l2, by simp only [List.append_assoc]⟩
theorem Dev.Deals.foldl {α : Type} (g : Dev → α → Dev) (h : ∀ (d : Dev) a, d.Deals (g d a)) : ∀ (l : List α) (d : Dev), d.Deals (l.foldl g d)
  | [], d => Dev.Deals.refl d
  | a :: l, d => (h d a).trans (Dev.Deals.foldl g h l (g d a))
theorem Dev.Deals.sent {d d' : Dev} (h : d.Deals d') : d.Sent d' := by
  obtain ⟨p1, r1, c1, l1, rfl⟩ := h; exact ⟨_, _, _, rfl⟩
theorem Dev.Deals.fab {d d' : Dev} (h : d.Deals d') : d'.fab.dests = d.fab.dests ∧ d'.fab.srcs = d.fab.srcs ∧ d'.fab.msgs = d.fab.msgs ∧
    d'.fab.tags = d.fab.tags ∧ d'.fab.wins = d.fab.wins ∧ d'.fab.pod = d.fab.pod ∧ d'.fab.nextTag = d.fab.nextTag := by
  obtain ⟨p1, r1, c1, l1, rfl⟩ := h; exact ⟨rfl, rfl, rfl, rfl, rfl, rfl, rfl⟩

theorem Dev.deals_putPort (d : Dev) (p : Nat) (x : Port) : d.Deals (d.putPort p x) :=
  ⟨(d.fab.ports ++ List.replicate (8 - d.fab.ports.length) ({} : Port)).set p x, d.fab.rr, d.cups, [], by simp [Dev.putPort, Dev.setFab]⟩
theorem Dev.deals_emitFlits (d : Dev) (p : Nat) (l : List Bytes) : d.Deals (d.emitFlits p l) :=
  Dev.Deals.foldl _ (fun d b => ⟨d.fab.ports, d.fab.rr, d.cups, [.flit p b], rfl⟩) l d
theorem Dev.deals_portSend (d : Dev) (p : Nat) (tp : Bytes) : d.Deals (d.portSend p tp) := by
  unfold Dev.portSend
  dsimp only
  split
  · exact Dev.deals_putPort d p _
  · exact (Dev.deals_putPort d p _).trans (Dev.deals_emitFlits _ p _)
theorem Dev.deals_portFlush (d : Dev) (p : Nat) : d.Deals (d.portFlush p) :=
  (Dev.deals_putPort d p _).trans (Dev.Deals.foldl _ (fun d tp => Dev.deals_portSend d p tp) _ _)
theorem Dev.deals_deal (d : Dev) (part : Nat) (tp : Bytes) : d.Deals (d.deal part tp) := by
  unfold Dev.deal
  dsimp only
  split
  · exact Dev.Deals.refl d
  · rename_i p _
    refine Dev.Deals.trans ?_ (Dev.deals_portSend _ p tp)
    obtain ⟨u, hu⟩ := Dev.charge_shape (d.setFab { d.fab with rr := d.fab.rr + 1 }) part (dieIod (p / 2)) (45 + p / 2) 1
    rw [hu]
    exact ⟨d.fab.ports, d.fab.rr + 1, u, [], by simp [Dev.setCups, Dev.setFab]⟩
theorem Dev.deals_dealMsg (d : Dev) (part : Nat) (h : MsgHead) (b : Bytes) (po : List Nat) : d.Deals (d.dealMsg part h b po) :=
  Dev.Deals.foldl _ (fun d i => Dev.deals_deal d part _) _ _

/-- A control message leaves: the numbers of its destination advance, and flits go out. -/
theorem Dev.sayCtl_fab (d : Dev) (dst op : Nat) (b : Bytes) : (d.sayCtl dst op b).fab.srcs = d.fab.srcs ∧ (d.sayCtl dst op b).fab.msgs = d.fab.msgs ∧
    (d.sayCtl dst op b).fab.tags = d.fab.tags ∧ (d.sayCtl dst op b).fab.wins = d.fab.wins ∧
    (∀ m, ((d.sayCtl dst op b).dest m).unreachable = (d.dest m).unreachable) := by
  have h := (Dev.deals_dealMsg (d.putDest dst { d.dest dst with nextId := ((d.dest dst).nextId + 1) % 2 ^ 32 }) 0
    { dst := dst, src := d.conf.module, op := op, id := (d.dest dst).nextId, window := 0, woff := 0, job := 0 } b []).fab
  obtain ⟨h1, h2, h3, h4, h5, _⟩ := h
  refine ⟨h2, h3, h4, h5, ?_⟩
  intro m
  show (kget (Dev.dealMsg _ _ _ _ _).fab.dests m {}).unreachable = _
  rw [show (Dev.dealMsg _ _ _ _ _).fab.dests = _ from h1]
  show (kget (kset d.fab.dests dst _) m {}).unreachable = _
  by_cases hm : m = dst
  · rw [hm, kget_kset_self]
  · rw [kget_kset_ne hm]; rfl

theorem Dev.arrived_of {d e : Dev} (h : e.fab.srcs = d.fab.srcs) (src msg op : Nat) : e.arrived src msg op = d.arrived src msg op := by
  unfold Dev.arrived Dev.srcOf; rw [h]

theorem Dev.arrived_commit (d : Dev) (src msg op : Nat) : (d.commitMsg src msg).arrived src msg op = none := by
  unfold Dev.arrived Dev.commitMsg Dev.putSrc Dev.srcOf
  dsimp only
  have : (kget (d.setFab { d.fab with srcs := kset d.fab.srcs src { low := (lowAfter 1025 (kget d.fab.srcs src {}).low ((kget d.fab.srcs src {}).done ++ [msg])).1, done := (lowAfter 1025 (kget d.fab.srcs src {}).low ((kget d.fab.srcs src {}).done ++ [msg])).2, flits := (kget d.fab.srcs src {}).flits.filter (fun f => tpId f != msg) } }).fab.srcs src {}).flits.filter (fun f => tpId f == msg && tpOp f == op) = [] := by
    show (kget (kset d.fab.srcs src _) src {}).flits.filter _ = []
    rw [kget_kset_self, List.filter_eq_nil_iff]
    intro f hf
    have := (List.mem_filter.1 hf).2
    simp at this
    simp [this]
  rw [this]
  rfl

/-! The link. -/

theorem Dev.port_emitFlits (d : Dev) (p q : Nat) (l : List Bytes) : (d.emitFlits p l).port q = d.port q := by
  have : ∀ (l : List Bytes) (d : Dev), (l.foldl (fun d b => d.emitOut (.flit p b)) d).port q = d.port q := by
    intro l
    induction l with
    | nil => intro d; rfl
    | cons a l ih => intro d; exact ih (d.emitOut (.flit p a))
  exact this l d

theorem Port.launch_keeps (x : Port) (seq : Nat) (tp : Bytes) : ∃ i, (x.launch seq tp).1 = { x with inj := i } := by
  unfold Port.launch
  dsimp only
  split
  · exact ⟨_, rfl⟩
  · split <;> exact ⟨_, rfl⟩

/-- What sending a flit leaves of its port. -/
theorem Dev.portSend_keeps (d : Dev) {p : Nat} (h : p < 8) (tp : Bytes) : ((d.portSend p tp).port p).expect = (d.port p).expect ∧
    ((d.portSend p tp).port p).nakSent = (d.port p).nakSent ∧ ((d.portSend p tp).port p).st = (d.port p).st ∧
    ((d.portSend p tp).port p).fails = (d.port p).fails := by
  unfold Dev.portSend
  dsimp only
  split
  · rw [Dev.port_putPort _ h]; exact ⟨rfl, rfl, rfl, rfl⟩
  · rw [Dev.port_emitFlits, Dev.port_putPort _ h]
    obtain ⟨i, hi⟩ := Port.launch_keeps (d.port p) (d.port p).next tp
    rw [hi]; exact ⟨rfl, rfl, rfl, rfl⟩

theorem Dev.portFlush_keeps (d : Dev) {p : Nat} (h : p < 8) : ((d.portFlush p).port p).expect = (d.port p).expect ∧
    ((d.portFlush p).port p).nakSent = (d.port p).nakSent ∧ ((d.portFlush p).port p).st = (d.port p).st ∧
    ((d.portFlush p).port p).fails = (d.port p).fails := by
  have key : ∀ (l : List Bytes) (d : Dev), ((l.foldl (fun d tp => d.portSend p tp) d).port p).expect = (d.port p).expect ∧
    ((l.foldl (fun d tp => d.portSend p tp) d).port p).nakSent = (d.port p).nakSent ∧ ((l.foldl (fun d tp => d.portSend p tp) d).port p).st = (d.port p).st ∧
    ((l.foldl (fun d tp => d.portSend p tp) d).port p).fails = (d.port p).fails := by
    intro l
    induction l with
    | nil => intro d; exact ⟨rfl, rfl, rfl, rfl⟩
    | cons a l ih =>
      intro d
      obtain ⟨a1, a2, a3, a4⟩ := ih (d.portSend p a)
      obtain ⟨b1, b2, b3, b4⟩ := Dev.portSend_keeps d h a
      exact ⟨a1.trans b1, a2.trans b2, a3.trans b3, a4.trans b4⟩
  obtain ⟨a1, a2, a3, a4⟩ := key (d.port p).waiting (d.putPort p { d.port p with waiting := [] })
  rw [Dev.port_putPort _ h] at a1 a2 a3 a4
  exact ⟨a1, a2, a3, a4⟩

theorem Dev.portFlush_none (d : Dev) {p : Nat} (hw : (d.port p).waiting = []) :
    d.portFlush p = d.putPort p { d.port p with waiting := [] } := by
  unfold Dev.portFlush; rw [hw]; rfl

theorem Dev.reports_fabEvent (d : Dev) (c p ca : Nat) (b : Bytes) : d.Reports (d.fabEvent c p ca b) := Dev.reports_raise _ _ _

theorem Dev.port_takePart (d : Dev) (p q : Nat) (tp : Bytes) : (d.takePart p tp).port q = d.port q := by
  unfold Dev.takePart
  split
  · exact Dev.port_of (Dev.reports_fabEvent _ _ _ _ _).fab q
  · split
    · rfl
    · dsimp only
      split
      · rfl
      · split <;> rfl

theorem Port.heard_acks (x : Port) (b : Bytes) (e : Bytes) (l r : List Bytes) (h : x.replay = l ++ e :: r) (he : seqOf e = field b 2 2 % 4096)
    (hl : ∀ z ∈ l, seqOf z ≠ seqOf e) : (x.heard b).replay = r ∧ (x.heard b).replays = 0 := by
  have hany : x.replay.any (fun e => seqOf e == field b 2 2 % 4096) = true := by
    rw [h]; exact List.any_eq_true.2 ⟨e, List.mem_append_right _ List.mem_cons_self, by simp [he]⟩
  have hdrop : ∀ l : List Bytes, (∀ z ∈ l, seqOf z ≠ seqOf e) → ((l ++ e :: r).dropWhile (fun e => seqOf e != field b 2 2 % 4096)).drop 1 = r := by
    intro l
    induction l with
    | nil => intro _; rw [List.nil_append, List.dropWhile_cons, if_neg (by simp [he])]; rfl
    | cons a l ih =>
      intro hz
      rw [List.cons_append, List.dropWhile_cons, if_pos (by rw [← he]; simp; exact hz a List.mem_cons_self)]
      exact ih (fun z h => hz z (List.mem_cons_of_mem _ h))
  have hrest : (if x.replay.any (fun e => seqOf e == field b 2 2 % 4096) then (x.replay.dropWhile (fun e => seqOf e != field b 2 2 % 4096)).drop 1 else x.replay) = r := by
    rw [if_pos hany, h]; exact hdrop l hl
  unfold Port.heard
  dsimp only
  rw [hrest]
  refine ⟨rfl, ?_⟩
  rw [if_neg]
  rw [h]; simp
  omega

/-- `d'` is `d` with messages sent again or for the first time: the fabric keeps its sources, tags and windows, its messages
but for the mark that they were sent, and what it knows of each destination's reach. -/
structure Dev.Mails (d d' : Dev) : Prop where
  sent : d.Sent d'
  msgs : ∃ g : Msg → Msg, (∀ m, ∃ b, g m = { m with sent := b }) ∧ d'.fab.msgs = d.fab.msgs.map g
  rest : d'.fab.srcs = d.fab.srcs ∧ d'.fab.tags = d.fab.tags ∧ d'.fab.wins = d.fab.wins
  dest : ∀ m, d'.dest m = d.dest m

theorem Dev.Mails.refl (d : Dev) : d.Mails d :=
  ⟨Dev.Sent.rfl d, ⟨id, fun m => ⟨m.sent, rfl⟩, (List.map_id _).symm⟩, ⟨rfl, rfl, rfl⟩, fun _ => rfl⟩

theorem Dev.Mails.trans {a b c : Dev} (h : a.Mails b) (k : b.Mails c) : a.Mails c := by
  obtain ⟨h1, ⟨g, hg, hm⟩, ⟨h3, h4, h5⟩, h6⟩ := h
  obtain ⟨k1, ⟨f, hf, km⟩, ⟨k3, k4, k5⟩, k6⟩ := k
  refine ⟨h1.trans k1, ⟨f ∘ g, ?_, ?_⟩, ⟨k3.trans h3, k4.trans h4, k5.trans h5⟩, fun m => (k6 m).trans (h6 m)⟩
  · intro m
    obtain ⟨x, hx⟩ := hg m
    obtain ⟨y, hy⟩ := hf (g m)
    exact ⟨y, by show f (g m) = _; rw [hy, hx]⟩
  · rw [km, hm, List.map_map]

theorem Dev.Deals.mails {d d' : Dev} (h : d.Deals d') : d.Mails d' := by
  obtain ⟨h1, h2, h3, h4, h5, _⟩ := h.fab
  exact ⟨h.sent, ⟨id, fun m => ⟨m.sent, rfl⟩, by rw [h3, List.map_id]⟩, ⟨h2, h4, h5⟩, fun m => by unfold Dev.dest; rw [h1]⟩

theorem Dev.mails_transmit (d : Dev) (m : Msg) : d.Mails (d.transmit m) := by
  unfold Dev.transmit
  refine Dev.Mails.trans ?_ (Dev.deals_dealMsg _ _ _ _ _).mails
  refine ⟨Dev.sent_fab d _, ⟨fun x => if x.dst = m.dst ∧ x.id = m.id then { x with sent := true } else x, ?_, rfl⟩, ⟨rfl, rfl, rfl⟩, fun _ => rfl⟩
  intro x
  by_cases h : x.dst = m.dst ∧ x.id = m.id
  · exact ⟨true, by dsimp only; rw [if_pos h]⟩
  · exact ⟨x.sent, by dsimp only; rw [if_neg h]⟩

theorem Dev.mails_sendHeld (d : Dev) (dst : Nat) : d.Mails (d.sendHeld dst) := by
  have key : ∀ (l : List Msg) (d : Dev), d.Mails (l.foldl (fun d m => if m.dst = dst ∧ !m.sent ∧ d.mayLeave m then d.transmit m else d) d) := by
    intro l
    induction l with
    | nil => intro d; exact Dev.Mails.refl d
    | cons a l ih =>
      intro d
      refine Dev.Mails.trans ?_ (ih _)
      dsimp only
      split
      · exact Dev.mails_transmit d a
      · exact Dev.Mails.refl d
  exact key _ d

/-- Mails keep what messages there are. -/
theorem Dev.Mails.mem {d d' : Dev} (h : d.Mails d') {z : Msg} (hz : z ∈ d'.fab.msgs) : ∃ y ∈ d.fab.msgs, y.dst = z.dst ∧ y.id = z.id := by
  obtain ⟨g, hg, hm⟩ := h.msgs
  rw [hm] at hz
  obtain ⟨y, hy, rfl⟩ := List.mem_map.1 hz
  obtain ⟨b, hb⟩ := hg y
  exact ⟨y, hy, by rw [hb], by rw [hb]⟩

/-- A message put in flight stands in the list, with the destination's next number. -/
theorem Dev.sendMsg_mem (d : Dev) (m : Msg) : (∃ b, { m with id := (d.dest m.dst).nextId, sent := b } ∈ (d.sendMsg m).2.fab.msgs) ∧
    (d.sendMsg m).2.fab.srcs = d.fab.srcs ∧ (d.sendMsg m).2.fab.tags = d.fab.tags := by
  unfold Dev.sendMsg
  dsimp only
  obtain ⟨D, hD⟩ : ∃ D : Dev, D = (d.putDest m.dst { d.dest m.dst with nextId := ((d.dest m.dst).nextId + 1) % 2 ^ 32 }).setFab
    { (d.putDest m.dst { d.dest m.dst with nextId := ((d.dest m.dst).nextId + 1) % 2 ^ 32 }).fab with msgs := (d.putDest m.dst { d.dest m.dst with nextId := ((d.dest m.dst).nextId + 1) % 2 ^ 32 }).fab.msgs ++ [{ m with id := (d.dest m.dst).nextId, sent := false }] } := ⟨_, rfl⟩
  have hmem : { m with id := (d.dest m.dst).nextId, sent := false } ∈ D.fab.msgs := by
    rw [hD]; exact List.mem_append_right _ List.mem_cons_self
  have hk : ∀ X : Dev, D.Mails X → (∃ b, { m with id := (d.dest m.dst).nextId, sent := b } ∈ X.fab.msgs) ∧ X.fab.srcs = d.fab.srcs ∧ X.fab.tags = d.fab.tags := by
    intro X hX
    obtain ⟨g, hg, hm⟩ := hX.msgs
    obtain ⟨b, hb⟩ := hg { m with id := (d.dest m.dst).nextId, sent := false }
    refine ⟨⟨b, ?_⟩, hX.rest.1.trans (by rw [hD]; rfl), hX.rest.2.1.trans (by rw [hD]; rfl)⟩
    rw [hm]
    exact List.mem_map.2 ⟨_, hmem, hb⟩
  rw [← hD]
  split
  · exact hk _ (Dev.mails_transmit D _)
  · exact hk _ (Dev.Mails.refl D)

theorem Dev.refuseMsg_facts (d : Dev) (src msg : Nat) (f : Bytes) (op : Nat) : (d.refuseMsg src msg f).mem = d.mem ∧
    (d.refuseMsg src msg f).fab.msgs = d.fab.msgs ∧ (d.refuseMsg src msg f).arrived src msg op = none := by
  unfold Dev.refuseMsg Dev.sayRefuse
  have hR := fun (e : Dev) => Dev.reports_fabEvent e evWindowRefused 0 0 (leBytes 1 src ++ leBytes 2 (tpWindow f) ++ leBytes 2 (tpJob f))
  have hc := Dev.sayCtl_fab (d.commitMsg src msg) src 5 (leBytes 4 msg ++ leBytes 2 caRange)
  refine ⟨?_, ?_, ?_⟩
  · rw [(hR _).mem, (Dev.sent_sayCtl _ _ _ _).mem]; rfl
  · rw [(hR _).fab, hc.2.1]; rfl
  · exact (Dev.arrived_of (congrArg Fab.srcs (hR _).fab) _ _ _).trans ((Dev.arrived_of hc.1 _ _ _).trans (Dev.arrived_commit _ _ _ _))

theorem Dev.onWindow_none (d : Dev) {src msg op : Nat} (h : d.arrived src msg op = none) (len : Bytes → Nat)
    (body : Window → Bytes → Bytes → List (Nat × Nat) → Dev) : d.onWindow src msg op len body = d := by
  unfold Dev.onWindow; rw [h]

theorem Dev.onWindow_some (d : Dev) {src msg op : Nat} {f : Bytes} {l : List Bytes} (h : d.arrived src msg op = some (f :: l)) (len : Bytes → Nat)
    (body : Window → Bytes → Bytes → List (Nat × Nat) → Dev) : d.onWindow src msg op len body =
      if (kget d.fab.wins (tpWindow f) {}).passes op (tpJob f) (tpWoff f) (len (msgData (f :: l)).1) then
        body (kget d.fab.wins (tpWindow f) {}) f (msgData (f :: l)).1 (msgData (f :: l)).2 else d.refuseMsg src msg f := by
  unfold Dev.onWindow; rw [h]

theorem Dev.raced_landMarked (d : Dev) (p a : Nat) (b : Bytes) (bad : List (Nat × Nat)) : d.Raced (d.landMarked p a b bad) := by
  unfold Dev.landMarked
  have key : ∀ (l : List (Nat × Nat × Bool)) (d : Dev), d.Accessed (l.foldl (fun d g =>
    if g.2.2 then d.poisonRange p (a + g.1) g.2.1 else (d.landBytes p Env.clean (a + g.1) (slice b g.1 g.2.1)).2) d) := by
    intro l
    induction l with
    | nil => intro d; exact Dev.Accessed.rfl d
    | cons g l ih =>
      intro d
      refine Dev.Accessed.trans ?_ (ih _)
      dsimp only
      split
      · exact Dev.accessed_poisonRange d p _ _
      · exact Dev.accessed_landBytes d p _ _ _
  exact (key _ d).raced.trans (Dev.raced_raced _ _ _ _ _)

/-- After a commit and an acknowledgement of a message there is no such message. -/
theorem Dev.acked_gone (d : Dev) (src msg op : Nat) : ((d.commitMsg src msg).sayAck src msg).arrived src msg op = none ∧
    ((d.commitMsg src msg).sayAck src msg).mem = d.mem ∧ ((d.commitMsg src msg).sayAck src msg).fab.tags = d.fab.tags := by
  have hc := Dev.sayCtl_fab (d.commitMsg src msg) src 4 (leBytes 4 msg)
  refine ⟨?_, (Dev.sent_sayCtl _ _ _ _).mem, hc.2.2.1⟩
  exact (Dev.arrived_of hc.1 _ _ _).trans (Dev.arrived_commit _ _ _ _)

theorem kget_put_ne (d : Dev) (h k : Nat) (hk : k ≠ h) (x : Window) : kget (d.setFab { d.fab with wins := kset d.fab.wins h x }).fab.wins k {} = kget d.fab.wins k {} :=
  kget_kset_ne hk _ _ _

theorem Dev.modQp_shape (d : Dev) (f q : Nat) (g : Qp → Qp) : ∃ x, d.modQp f q g = d.setQps x := by
  unfold Dev.modQp
  split
  · exact ⟨_, rfl⟩
  · exact ⟨d.qps, rfl⟩

theorem Dev.fab_modCmd (d : Dev) (r : CmdRef) (g : Cmd → Cmd) : (d.modCmd r g).fab = d.fab := by
  obtain ⟨x, hx⟩ := Dev.modQp_shape d r.f r.q (fun q => { q with cmds := q.cmds.map (fun c => if c.k = r.k then g c else c) })
  unfold Dev.modCmd; rw [hx]; rfl

theorem Dev.fab_finish (d : Dev) (r : CmdRef) (st r0 r1 det : Nat) (dies : List Nat) : (d.finish r st r0 r1 det dies).fab = d.fab := Dev.fab_modCmd d r _

theorem Dev.fab_blurSide (p : Nat) (pot : Bool) (l : List (Nat × Nat)) (d : Dev) : (d.blurSide p pot l).fab = d.fab :=
  (Dev.raced_blurSide d p pot l).fab

theorem Dev.fab_haloEnd (d : Dev) (p : Nat) (c : Cmd) : (d.haloEnd p c).fab = d.fab := by
  unfold Dev.haloEnd
  split
  · rfl
  · exact Dev.fab_blurSide _ _ _ _

theorem Dev.fab_settleCmd (d : Dev) (r : CmdRef) : (d.settleCmd r).fab = d.fab := by
  unfold Dev.settleCmd
  split
  · split
    · rw [Dev.fab_finish, Dev.fab_haloEnd]
    · rfl
  · rfl

theorem Dev.fab_dropTag (d : Dev) (t : ReadTag) : (d.dropTag t).fab = { d.fab with tags := d.fab.tags.filter (fun x => x.tag != t.tag) } := by
  unfold Dev.dropTag
  dsimp only
  split
  · rw [Dev.fab_settleCmd, Dev.fab_modCmd]; rfl
  · rfl

theorem Dev.fab_failTag (d : Dev) (t : ReadTag) (c : Nat) : (d.failTag t c).fab = { d.fab with tags := d.fab.tags.filter (fun x => x.tag != t.tag) } := by
  unfold Dev.failTag
  dsimp only
  rw [Dev.fab_dropTag]
  split
  · unfold Dev.haloLost Dev.mark
    rw [Dev.fab_modCmd, Dev.fab_modCmd, Dev.fab_blurSide]
  · rw [Dev.fab_blurSide]

/-- A failed message leaves the list, and what is known of its destination stays. -/
theorem Dev.failMsg_fab (d : Dev) (m : Msg) (c : Nat) : (∀ z ∈ (d.failMsg m c).fab.msgs, ¬(z.dst = m.dst ∧ z.id = m.id)) ∧
    ∀ k, (d.failMsg m c).dest k = d.dest k := by
  unfold Dev.failMsg
  dsimp only
  obtain ⟨D1, hD1⟩ : ∃ D : Dev, D = d.setFab { d.fab with msgs := d.fab.msgs.filter (fun x => !(x.dst == m.dst && x.id == m.id)) } := ⟨_, rfl⟩
  rw [← hD1]
  obtain ⟨D2, hD2, hR⟩ : ∃ D : Dev, D = D1.fabEvent evMsgFailed 0 c (leBytes 1 m.dst ++ leBytes 4 m.id ++ leBytes 2 c) ∧ D1.Reports D := ⟨_, rfl, Dev.reports_fabEvent _ _ _ _ _⟩
  rw [← hD2]
  have h5 : ∀ D3 : Dev, D3.fab.msgs = D1.fab.msgs ∧ D3.fab.dests = D1.fab.dests → ∀ D4 : Dev, D4.fab = D3.fab →
      (∀ z ∈ (D4.sendHeld m.dst).fab.msgs, ¬(z.dst = m.dst ∧ z.id = m.id)) ∧ ∀ k, (D4.sendHeld m.dst).dest k = d.dest k := by
    intro D3 h3 D4 hf
    have hm := Dev.mails_sendHeld D4 m.dst
    refine ⟨?_, ?_⟩
    · rintro z hz ⟨q1, q2⟩
      obtain ⟨y, hy, y1, y2⟩ := hm.mem hz
      rw [hf, h3.1, hD1] at hy
      have := (List.mem_filter.1 hy).2
      rw [y1, y2, q1, q2] at this
      simp at this
    · intro k
      rw [hm.dest k]
      unfold Dev.dest
      rw [hf, h3.2, hD1]; rfl
  have h6 : ∀ D3 : Dev, D3.fab.msgs = D1.fab.msgs ∧ D3.fab.dests = D1.fab.dests →
      (∀ z ∈ ((match m.cmd with | some r => ((D3.mark r (.cause c)).unawait r m.dst m.id).settleCmd r | none => D3 : Dev).sendHeld m.dst).fab.msgs, ¬(z.dst = m.dst ∧ z.id = m.id)) ∧
      ∀ k, ((match m.cmd with | some r => ((D3.mark r (.cause c)).unawait r m.dst m.id).settleCmd r | none => D3 : Dev).sendHeld m.dst).dest k = d.dest k := by
    intro D3 h3
    split
    · refine h5 D3 h3 _ ?_
      unfold Dev.unawait Dev.mark
      rw [Dev.fab_settleCmd, Dev.fab_modCmd, Dev.fab_modCmd]
    · exact h5 D3 h3 _ rfl
  refine h6 _ ?_
  split
  · rw [Dev.fab_failTag]; exact ⟨show D2.fab.msgs = _ from congrArg Fab.msgs hR.fab, show D2.fab.dests = _ from congrArg Fab.dests hR.fab⟩
  · exact ⟨congrArg Fab.msgs hR.fab, congrArg Fab.dests hR.fab⟩

theorem msgData_one (f : Bytes) : (msgData [f]).1 = tpPayload f := by
  unfold msgData
  simp

theorem field_cut (b : Bytes) (h1 : 4 ≤ b.length) (h2 : b.length < 8) : min 55 (b.length / 4) = 1 := by omega

theorem Dev.acked_facts (d : Dev) (dst id : Nat) (m : Msg) (h : d.fab.msgs.find? (fun m => m.dst == dst && m.id == id) = some m) :
    (∀ z ∈ (d.acked dst id).fab.msgs, ¬(z.dst = dst ∧ z.id = id)) ∧ ((d.acked dst id).dest dst).unreachable = false ∧
    (d.acked dst id).fab.srcs = d.fab.srcs := by
  unfold Dev.acked
  rw [h]
  dsimp only
  obtain ⟨D1, hD1⟩ : ∃ D : Dev, D = d.setFab { d.fab with msgs := d.fab.msgs.filter (fun x => !(x.dst == dst && x.id == id)) } := ⟨_, rfl⟩
  rw [← hD1]
  have h6 : ∀ D2 : Dev, D2.fab.msgs = D1.fab.msgs → (D2.dest dst).unreachable = false → D2.fab.srcs = d.fab.srcs → ∀ D3 : Dev, D3.fab = D2.fab →
      (∀ z ∈ (D3.sendHeld dst).fab.msgs, ¬(z.dst = dst ∧ z.id = id)) ∧ ((D3.sendHeld dst).dest dst).unreachable = false ∧ (D3.sendHeld dst).fab.srcs = d.fab.srcs := by
    intro D2 h1 h2 h3 D3 hf
    have hm := Dev.mails_sendHeld D3 dst
    refine ⟨?_, ?_, ?_⟩
    · rintro z hz ⟨q1, q2⟩
      obtain ⟨y, hy, y1, y2⟩ := hm.mem hz
      rw [hf, h1, hD1] at hy
      have := (List.mem_filter.1 hy).2
      rw [y1, y2, q1, q2] at this
      simp at this
    · rw [hm.dest dst]
      unfold Dev.dest at h2 ⊢
      rw [hf]; exact h2
    · rw [hm.rest.1, hf]; exact h3
  have h7 : ∀ D2 : Dev, D2.fab.msgs = D1.fab.msgs → (D2.dest dst).unreachable = false → D2.fab.srcs = d.fab.srcs →
      (∀ z ∈ ((match m.cmd with | some r => (D2.unawait r dst id).settleCmd r | none => D2 : Dev).sendHeld dst).fab.msgs, ¬(z.dst = dst ∧ z.id = id)) ∧
      (((match m.cmd with | some r => (D2.unawait r dst id).settleCmd r | none => D2 : Dev).sendHeld dst).dest dst).unreachable = false ∧
      ((match m.cmd with | some r => (D2.unawait r dst id).settleCmd r | none => D2 : Dev).sendHeld dst).fab.srcs = d.fab.srcs := by
    intro D2 h1 h2 h3
    split
    · refine h6 D2 h1 h2 h3 _ ?_
      unfold Dev.unawait
      rw [Dev.fab_settleCmd, Dev.fab_modCmd]
    · exact h6 D2 h1 h2 h3 _ rfl
  have hs : D1.fab.srcs = d.fab.srcs := by rw [hD1]; rfl
  cases hu : (D1.dest dst).unreachable with
  | true =>
    rw [if_pos rfl]
    refine h7 _ rfl ?_ hs
    show (kget (kset D1.fab.dests dst _) dst {}).unreachable = false
    rw [kget_kset_self]
  | false =>
    rw [if_neg (by decide)]
    exact h7 _ rfl hu hs

end Sys2Proof.Machine
end

