-- ==== Sys2Proof/Laws/Pod.lean ====
section
/-! SUPPORT. The pod of modules: the ring of the pod manager, heartbeats, admission over several modules. -/

namespace Sys2Proof.Machine

theorem Dev.pod_transmit (d : Dev) (m : Msg) : (d.transmit m).fab.pod = d.fab.pod := by
  unfold Dev.transmit
  rw [(Dev.deals_dealMsg _ _ _ _ _).fab.2.2.2.2.2.1]; rfl

theorem Dev.pod_sendMsg (d : Dev) (m : Msg) : (d.sendMsg m).2.fab.pod = d.fab.pod := by
  unfold Dev.sendMsg
  dsimp only
  split
  · rw [Dev.pod_transmit]; rfl
  · rfl

theorem Dev.pod_sayMgmt (d : Dev) (dst : Nat) (b : Bytes) : (d.sayMgmt dst b).fab.pod = d.fab.pod := by
  unfold Dev.sayMgmt
  split
  · rfl
  · exact Dev.pod_sendMsg _ _

theorem Dev.sent_sayMgmt (d : Dev) (dst : Nat) (b : Bytes) : d.Sent (d.sayMgmt dst b) := by
  unfold Dev.sayMgmt
  split
  · exact Dev.Sent.rfl d
  · exact Dev.sent_sendMsg _ _

theorem Dev.srcs_sayMgmt (d : Dev) (dst : Nat) (b : Bytes) : (d.sayMgmt dst b).fab.srcs = d.fab.srcs := by
  unfold Dev.sayMgmt
  split
  · rfl
  · exact (Dev.sendMsg_mem _ _).2.1

theorem Dev.Sent.parts {d d' : Dev} (h : d.Sent d') : d'.parts = d.parts := by obtain ⟨_, _, _, e⟩ := h; rw [e]

/-- A management message to a module that can be reached stands in the list. -/
theorem Dev.sayMgmt_mem (d : Dev) (dst : Nat) (b : Bytes) (h : (d.dest dst).unreachable = false) :
    ∃ y ∈ (d.sayMgmt dst b).fab.msgs, y.dst = dst ∧ y.op = 6 ∧ y.data = b := by
  unfold Dev.sayMgmt
  rw [if_neg (by rw [h]; decide)]
  obtain ⟨⟨x, hx⟩, _⟩ := Dev.sendMsg_mem d { dst := dst, id := 0, op := 6, window := 0, woff := 0, job := 0, data := b }
  exact ⟨_, hx, rfl, rfl, rfl⟩

theorem Dev.pod_sayAck (d : Dev) (src msg : Nat) : ((d.commitMsg src msg).sayAck src msg).fab.pod = d.fab.pod := by
  unfold Dev.sayAck Dev.sayCtl
  dsimp only
  rw [(Dev.deals_dealMsg _ _ _ _ _).fab.2.2.2.2.2.1]; rfl

theorem Dev.podNext_ask (d : Dev) {n : Nat} (hn : 0 < n) {q : PodReq} {m : Nat} {rest : List Nat} (h : d.fab.pod.req = some q) (hg : q.got.length ≠ q.want)
    (ht : q.todo = m :: rest) (hm : m ≠ d.conf.module) : Dev.podNext n d =
      (d.setPod { d.fab.pod with req := some { q with todo := rest, asked := some m } }).sayMgmt m (Config.mgmtWire (.enrol q.job q.spec)) := by
  obtain ⟨k, rfl⟩ : ∃ k, n = k + 1 := ⟨n - 1, by omega⟩
  unfold Dev.podNext
  simp only [h, ht]
  rw [if_neg hg, if_neg hm]

theorem Dev.podNext_out (d : Dev) {n : Nat} (hn : 0 < n) {q : PodReq} (h : d.fab.pod.req = some q) (hg : q.got = []) (hw : q.want ≠ 0)
    (ht : q.todo = []) : Dev.podNext n d = d.podEnd q q.last false := by
  obtain ⟨k, rfl⟩ : ∃ k, n = k + 1 := ⟨n - 1, by omega⟩
  unfold Dev.podNext
  simp only [h, ht]
  rw [if_neg (by rw [hg]; simp; omega), hg]
  rfl

theorem Dev.askReclaim_far (d : Dev) {job m : Nat} (h1 : m ≠ d.conf.module) (h2 : m ∉ d.fab.pod.lostMods) :
    d.askReclaim job m = d.sayMgmt m (Config.mgmtWire (.reclaim job)) := by
  unfold Dev.askReclaim
  rw [if_neg h1, if_neg (by simpa using h2)]

/-- The last confirmation of a reclaim ends its request (R436). -/
theorem Dev.podConfirm_last (d : Dev) {q : PodReq} (m vf : Nat) (h : d.fab.pod.req = some q) (h1 : q.reclaim = true) (h3 : q.todo = [m]) :
    (d.podConfirm q.job m vf).fab.pod.req = none ∧ kfind (d.podConfirm q.job m vf).fab.pod.jobs q.job = none ∧
    (vf = 0 → (q.job, m) ∈ (d.podConfirm q.job m vf).fab.pod.owed) ∧ (d.podConfirm q.job m vf).out = d.out ++ [.hostWrite q.result (resultBytes (q.got ++ [(m, vf)])),
      .hostWrite (d.fab.pod.base + 64 * q.slot + 0x38) (leBytes 2 (if (q.got ++ [(m, vf)]).any (fun e => e.2 == 0) then stPoisoned else stSuccess) ++ leBytes 1 1 ++ repByte 3 0 ++ leBytes 2 0)] := by
  unfold Dev.podConfirm
  rw [h]
  dsimp only
  rw [if_neg (by rw [h1, h3]; simp)]
  split
  · unfold Dev.podEnd
    dsimp only
    rw [if_pos rfl]
    refine ⟨rfl, kfind_kdel_self _ _, ?_, ?_⟩
    · intro hv
      show (q.job, m) ∈ (if vf = 0 then d.fab.pod.owed ++ [(q.job, m)] else d.fab.pod.owed)
      rw [if_pos hv]
      exact List.mem_append_right _ List.mem_cons_self
    · rw [h1]
      show (d.out ++ [_]) ++ [_] = _
      rw [List.append_assoc]
      rfl
  · rename_i hne
    rw [h3] at hne
    simp at hne

theorem Dev.onMgmt_none (d : Dev) {src msg : Nat} (h : d.arrived src msg 6 = none) (g : Dev → Dev) : d.onMgmt src msg g = d := by
  unfold Dev.onMgmt; rw [h]

theorem Dev.onMgmt_some (d : Dev) {src msg : Nat} (h : d.arrived src msg 6 ≠ none) (g : Dev → Dev) :
    d.onMgmt src msg g = g ((d.commitMsg src msg).sayAck src msg) := by
  unfold Dev.onMgmt
  cases hq : d.arrived src msg 6 with
  | none => exact absurd hq h
  | some _ => rfl

/-- Sending keeps what stands in the list, and the reach of each destination. -/
theorem Dev.sayMgmt_keeps (d : Dev) (dst : Nat) (b : Bytes) : (∀ y ∈ d.fab.msgs, ∃ z ∈ (d.sayMgmt dst b).fab.msgs, z.dst = y.dst ∧ z.op = y.op) ∧
    ∀ k, ((d.sayMgmt dst b).dest k).unreachable = (d.dest k).unreachable := by
  unfold Dev.sayMgmt
  split
  · exact ⟨fun y hy => ⟨y, hy, rfl, rfl⟩, fun _ => rfl⟩
  · unfold Dev.sendMsg
    dsimp only
    obtain ⟨E, hE⟩ : ∃ E : Dev, E = (d.putDest dst { d.dest dst with nextId := ((d.dest dst).nextId + 1) % 2 ^ 32 }).setFab { (d.putDest dst { d.dest dst with nextId := ((d.dest dst).nextId + 1) % 2 ^ 32 }).fab with msgs := (d.putDest dst { d.dest dst with nextId := ((d.dest dst).nextId + 1) % 2 ^ 32 }).fab.msgs ++ [{ dst := dst, id := (d.dest dst).nextId, op := 6, window := 0, woff := 0, job := 0, data := b, sent := false }] } := ⟨_, rfl⟩
    have hk : ∀ X : Dev, E.Mails X → (∀ y ∈ d.fab.msgs, ∃ z ∈ X.fab.msgs, z.dst = y.dst ∧ z.op = y.op) ∧ ∀ k, (X.dest k).unreachable = (d.dest k).unreachable := by
      intro X hX
      obtain ⟨g, hg, hm⟩ := hX.msgs
      refine ⟨?_, ?_⟩
      · intro y hy
        obtain ⟨c, hc⟩ := hg y
        refine ⟨g y, ?_, by rw [hc], by rw [hc]⟩
        rw [hm]
        refine List.mem_map.2 ⟨y, ?_, rfl⟩
        rw [hE]; exact List.mem_append_left _ hy
      · intro k
        rw [hX.dest k, hE]
        show (kget (kset d.fab.dests dst _) k {}).unreachable = _
        by_cases hkd : k = dst
        · rw [hkd, kget_kset_self]
        · rw [kget_kset_ne hkd]; rfl
    rw [← hE]
    split
    · exact hk _ (Dev.mails_transmit E _)
    · exact hk _ (Dev.Mails.refl E)

/-- Heartbeats to a list of modules. -/
theorem Dev.beats_out (self : Nat) (f : Dev → Bytes) : ∀ (l : List Nat) (d : Dev), d.conf.module = self →
    (∀ y ∈ d.fab.msgs, ∃ z ∈ (l.foldl (fun d m => if m = d.conf.module then d else d.sayMgmt m (f d)) d).fab.msgs, z.dst = y.dst ∧ z.op = y.op) ∧
    ∀ k ∈ l, k ≠ self → (d.dest k).unreachable = false →
      ∃ z ∈ (l.foldl (fun d m => if m = d.conf.module then d else d.sayMgmt m (f d)) d).fab.msgs, z.dst = k ∧ z.op = 6 := by
  intro l
  induction l with
  | nil => intro d _; exact ⟨fun y hy => ⟨y, hy, rfl, rfl⟩, fun _ h => (nomatch h)⟩
  | cons a l ih =>
    intro d hs
    rw [List.foldl_cons]
    by_cases ha : a = d.conf.module
    · rw [if_pos ha]
      obtain ⟨i1, i2⟩ := ih d hs
      refine ⟨i1, ?_⟩
      intro k hk hne hu
      rcases List.mem_cons.1 hk with rfl | hk
      · exact absurd (ha.trans hs) hne
      · exact i2 k hk hne hu
    · rw [if_neg ha]
      have hc : (d.sayMgmt a (f d)).conf.module = self := by
        obtain ⟨_, _, _, e⟩ := Dev.sent_sayMgmt d a (f d)
        rw [e]; exact hs
      obtain ⟨i1, i2⟩ := ih (d.sayMgmt a (f d)) hc
      obtain ⟨k1, k2⟩ := Dev.sayMgmt_keeps d a (f d)
      refine ⟨?_, ?_⟩
      · intro y hy
        obtain ⟨z, hz, z1, z2⟩ := k1 y hy
        obtain ⟨w, hw, w1, w2⟩ := i1 z hz
        exact ⟨w, hw, w1.trans z1, w2.trans z2⟩
      · intro k hk hne hu
        rcases List.mem_cons.1 hk with rfl | hk
        · obtain ⟨z, hz, z1, z2, _⟩ := Dev.sayMgmt_mem d k (f d) hu
          obtain ⟨w, hw, w1, w2⟩ := i1 z hz
          exact ⟨w, hw, w1.trans z1, w2.trans z2⟩
        · exact i2 k hk hne ((k2 k).trans hu)

theorem Dev.sayMgmts_pod (src : Nat) (f : Nat × Nat → Bytes) : ∀ (l : List (Nat × Nat)) (d : Dev), (l.foldl (fun d e => d.sayMgmt src (f e)) d).fab.pod = d.fab.pod ∧
    (l.foldl (fun d e => d.sayMgmt src (f e)) d).fab.srcs = d.fab.srcs := by
  intro l
  induction l with
  | nil => intro d; exact ⟨rfl, rfl⟩
  | cons a l ih => intro d; exact ⟨(ih _).1.trans (Dev.pod_sayMgmt d src _), (ih _).2.trans (Dev.srcs_sayMgmt d src _)⟩

theorem jobs_fold (self : Nat) : ∀ (l : List (Nat × Part)) (m : KMap (List (Nat × Nat))),
    (∀ j x, x ∈ kget m j [] → x ∈ kget (l.foldl (fun m e => kset m e.2.job (kget m e.2.job [] ++ [(self, e.1)])) m) j []) ∧
    ∀ e ∈ l, (self, e.1) ∈ kget (l.foldl (fun m e => kset m e.2.job (kget m e.2.job [] ++ [(self, e.1)])) m) e.2.job [] := by
  intro l
  induction l with
  | nil => intro m; exact ⟨fun _ _ h => h, fun _ h => (nomatch h)⟩
  | cons a l ih =>
    intro m
    obtain ⟨i1, i2⟩ := ih (kset m a.2.job (kget m a.2.job [] ++ [(self, a.1)]))
    refine ⟨?_, ?_⟩
    · intro j x hx
      refine i1 j x ?_
      by_cases hj : j = a.2.job
      · rw [hj, kget_kset_self]; rw [hj] at hx; exact List.mem_append_left _ hx
      · rw [kget_kset_ne hj]; exact hx
    · intro e he
      rcases List.mem_cons.1 he with rfl | he
      · refine i1 _ _ ?_
        rw [kget_kset_self]; exact List.mem_append_right _ List.mem_cons_self
      · exact i2 e he

end Sys2Proof.Machine
end

