-- ==== Sys2Proof/Laws/Arith.lean ====
section
/-! SUPPORT. Sums over ranges, and what the quantizer, stochastic rounding and the array compute. -/

namespace Sys2Proof.Machine

/-- Every command has an effect: none of them faults or is refused. -/
theorem exec_next (c : Instr) (s : State) : ∃ t, exec c s = .next t ∧ t.pending = s.pending := by
  cases c
  case conventionalReset => exact ⟨_, rfl, State.onDev_pending s _⟩
  all_goals exact ⟨_, rfl, rfl⟩

theorem exec_pending (c : Instr) (s t : State) (h : exec c s = .next t) : t.pending = s.pending := by
  obtain ⟨u, hu, hp⟩ := exec_next c s
  rw [hu] at h; cases h; exact hp

theorem foldl_add_acc : ∀ (l : List Int) (a : Int), l.foldl (· + ·) a = a + l.foldl (· + ·) 0
  | [], a => by simp
  | x :: l, a => by
    rw [List.foldl_cons, List.foldl_cons, foldl_add_acc l (a + x), foldl_add_acc l (0 + x)]; omega

/-- The sum of `f` over 0 to n - 1. -/
def isum (n : Nat) (f : Nat → Int) : Int := ((List.range n).map f).foldl (· + ·) 0

theorem isum_succ (n : Nat) (f : Nat → Int) : isum (n + 1) f = isum n f + f n := by
  unfold isum
  rw [List.range_succ, List.map_append, List.foldl_append, foldl_add_acc]
  simp

theorem isum_zero (f : Nat → Int) : isum 0 f = 0 := rfl

theorem isum_congr {n : Nat} {f g : Nat → Int} (h : ∀ i, i < n → f i = g i) : isum n f = isum n g := by
  induction n with
  | zero => rfl
  | succ n ih => rw [isum_succ, isum_succ, ih (fun i hi => h i (by omega)), h n (by omega)]

theorem isum_add (n : Nat) (f g : Nat → Int) : isum n (fun i => f i + g i) = isum n f + isum n g := by
  induction n with
  | zero => rfl
  | succ n ih => rw [isum_succ, isum_succ, isum_succ, ih]; omega

theorem isum_mul (n : Nat) (a : Int) (f : Nat → Int) : isum n (fun i => a * f i) = a * isum n f := by
  induction n with
  | zero => rw [isum_zero, isum_zero, Int.mul_zero]
  | succ n ih => rw [isum_succ, isum_succ, ih, Int.mul_add]

theorem isum_swap (n m : Nat) (f : Nat → Nat → Int) : isum n (fun i => isum m (f i)) = isum m (fun j => isum n (fun i => f i j)) := by
  induction n with
  | zero => 
    rw [isum_zero]
    induction m with
    | zero => rfl
    | succ m ih => rw [isum_succ, ← ih]; rfl
  | succ n ih =>
    rw [isum_succ, ih, ← isum_add]
    exact isum_congr (fun j _ => (isum_succ n _).symm)

/-- A sum over a * b terms in blocks of b. -/
theorem isum_blocks (a b : Nat) (f : Nat → Int) : isum (a * b) f = isum a (fun i => isum b (fun j => f (b * i + j))) := by
  have hs : ∀ n m (f : Nat → Int), isum (n + m) f = isum n f + isum m (fun j => f (n + j)) := by
    intro n m f
    induction m with
    | zero => rw [isum_zero, Nat.add_zero]; omega
    | succ m ih => rw [← Nat.add_assoc, isum_succ, ih, isum_succ]; omega
  induction a with
  | zero => rw [Nat.zero_mul]; rfl
  | succ a ih => rw [Nat.succ_mul, hs, ih, isum_succ, Nat.mul_comm b a]

theorem isum_abs (n : Nat) (f : Nat → Int) (c : Nat) (h : ∀ i, i < n → (f i).natAbs ≤ c) : (isum n f).natAbs ≤ n * c := by
  induction n with
  | zero => simp [isum_zero]
  | succ n ih =>
    rw [isum_succ, Nat.succ_mul]
    have h1 := ih (fun i hi => h i (by omega))
    have h2 := h n (by omega)
    omega

theorem dotDelta_eq (q : QRow) (t : Tile) (n kt c : Nat) (low : Bool) (wsh : Nat → Nat) : dotDelta q t n low wsh kt c =
    isum 8 (fun b => isum 32 (fun i => q.q.getD (256 * kt + 32 * b + i) 0 * t.w n low (32 * b + i) c) *
      (2 ^ ((q.x.getD (8 * kt + b) q.fl - q.fl) + wsh b) : Nat)) := rfl

theorem clampSym_range (n : Nat) (v : Int) : -(n : Int) ≤ (clampSym n v).1 ∧ (clampSym n v).1 ≤ n := by
  unfold clampSym
  split
  · dsimp only; omega
  · split <;> dsimp only <;> omega

/-- Elements of a block after sweep 2. -/
theorem sweep2_range (three : Bool) (fl : Nat) (b : Blk) (xs : List F32) : ∀ v ∈ (sweep2 three fl b xs).1,
    (-127 ≤ v ∧ v ≤ 127) ∧ (three = false → b.a4 = true → -7 ≤ v ∧ v ≤ 7) := by
  intro v hv
  unfold sweep2 at hv
  split at hv
  · rename_i xb a4
    obtain ⟨z, hz, rfl⟩ := List.mem_map.1 hv
    obtain ⟨x, _, rfl⟩ := List.mem_map.1 hz
    have := clampSym_range (if three then 63 else if a4 then 7 else 127) (rneAt x ((max xb fl : Nat) - 128))
    refine ⟨?_, ?_⟩
    · generalize (clampSym (if three then 63 else if a4 then 7 else 127) (rneAt x ((max xb fl : Nat) - 128))).1 = w at this ⊢
      split at this
      · omega
      · split at this <;> omega
    · intro h3 h4
      have h4 : a4 = true := h4
      rw [h3, h4] at this ⊢
      exact this
  · obtain ⟨x, _, rfl⟩ := List.mem_map.1 hv
    exact ⟨by omega, fun _ _ => by omega⟩

theorem sweep1_xb (p : QuantP) (xs : List F32) (xb : Nat) (a : Bool) (h : (sweep1 p xs).1 = .fin xb a) : xb ≤ 254 := by
  unfold sweep1 at h
  split at h
  · nomatch h
  · dsimp only at h
    split at h
    · nomatch h
    · dsimp only at h
      injection h with h _
      rw [← h]; exact Nat.min_le_left _ _

theorem sweep1_a4 (p : QuantP) (xs : List F32) (hm : p.mode = 2) (h3 : p.three = false) : (sweep1 p xs).1.a4 = true := by
  unfold sweep1
  split
  · rfl
  · dsimp only
    split
    · rfl
    · show (!p.three && (p.mode == 2 || _)) = true
      rw [hm, h3]; rfl

theorem foldl_max_mem : ∀ (l : List Nat) (a : Nat), a ≤ l.foldl max a ∧ (∀ x ∈ l, x ≤ l.foldl max a) ∧ (l.foldl max a = a ∨ l.foldl max a ∈ l)
  | [], a => ⟨Nat.le_refl _, fun _ h => (nomatch h), .inl rfl⟩
  | b :: l, a => by
    obtain ⟨h1, h2, h3⟩ := foldl_max_mem l (max a b)
    rw [List.foldl_cons]
    refine ⟨Nat.le_trans (Nat.le_max_left _ _) h1, ?_, ?_⟩
    · intro x hx
      rcases List.mem_cons.1 hx with rfl | hx
      · exact Nat.le_trans (Nat.le_max_right _ _) h1
      · exact h2 x hx
    · rcases h3 with h3 | h3
      · rw [h3]
        rcases Nat.le_total a b with h | h
        · rw [Nat.max_eq_right h]; exact .inr List.mem_cons_self
        · rw [Nat.max_eq_left h]; exact .inl rfl
      · exact .inr (List.mem_cons_of_mem _ h3)

/-- The floor of a row against its blocks. -/
theorem floorOf_spec (l : List Blk) (h : ∀ b ∈ l, ∀ xb a, b = .fin xb a → xb ≤ 254) :
    floorOf l ≤ 254 ∧ ∀ b ∈ l, ∀ xb a, b = .fin xb a → xb ≤ floorOf l + 8 := by
  unfold floorOf
  dsimp only
  split
  · rename_i heq
    refine ⟨by decide, ?_⟩
    intro b hb xb a e
    subst e
    have : xb ∈ l.filterMap (fun b => match b with | .fin x _ => some x | _ => none) :=
      List.mem_filterMap.2 ⟨_, hb, rfl⟩
    exact nomatch (heq.symm ▸ this : xb ∈ [])
  · rename_i x r heq
    obtain ⟨m1, m2, m3⟩ := foldl_max_mem r x
    have hin : ∀ y, y = x ∨ y ∈ r → y ≤ 254 := by
      intro y hy
      have : y ∈ l.filterMap (fun b => match b with | .fin x _ => some x | _ => none) := by
        exact heq ▸ List.mem_cons.2 hy
      obtain ⟨b, hb, e⟩ := List.mem_filterMap.1 this
      cases b with
      | fin xb a => injection e with e; rw [← e]; exact h _ hb xb a rfl
      | nonfinite => nomatch e
      | zero => nomatch e
    refine ⟨by have := hin _ m3; omega, ?_⟩
    intro b hb xb a e
    subst e
    have : xb ∈ l.filterMap (fun b => match b with | .fin x _ => some x | _ => none) :=
      List.mem_filterMap.2 ⟨_, hb, rfl⟩
    have this : xb ∈ x :: r := heq ▸ this
    rcases List.mem_cons.1 this with rfl | hx
    · omega
    · have := m2 _ hx; omega

theorem f32_finite (x : F32) (h : f32IsFinite x = true) : x / 2 ^ 23 % 256 ≠ 255 := by
  intro hx
  unfold f32IsFinite f32 fdecode at h
  rw [if_neg (by decide), if_pos (show x / 2 ^ FFmt.fp32.mb % 2 ^ FFmt.fp32.eb = 2 ^ FFmt.fp32.eb - 1 from hx)] at h
  split at h
  · rename_i hh; split at hh <;> nomatch hh
  · nomatch h

theorem f32_finite_not (x : F32) (h : f32IsFinite x = true) : f32IsNaN x = false ∧ f32IsInf x = false := by
  unfold f32IsFinite at h
  unfold f32IsNaN f32IsInf
  split at h
  · rename_i e; rw [e]; exact ⟨rfl, rfl⟩
  · nomatch h

theorem filter_range_ge : ∀ (n k : Nat), ((List.range n).filter (fun r => decide (k ≤ r))).length = n - k
  | 0, k => by simp
  | n + 1, k => by
    rw [List.range_succ, List.filter_append, List.length_append, filter_range_ge n k]
    by_cases h : k ≤ n
    · rw [List.filter_cons_of_pos (by simpa using h)]; simp only [List.filter_nil, List.length_cons, List.length_nil]; omega
    · rw [List.filter_cons_of_neg (by simpa using h)]; simp only [List.filter_nil, List.length_nil]; omega

end Sys2Proof.Machine
end

