-- ==== Sys2Proof/WellFormed.lean ====
section
/-!
DEFINITION. Well-formed commands: every operand that names a unit, a function, a partition or an entry names one that
exists in the product (R1, R339, R393, R542).
-/

namespace Sys2Proof

/-- The physical function 0, or a virtual function 1 to 16 (R376). -/
def okFn (f : Nat) : Bool := decide (f ≤ 16)

/-- Partitions 1 to 16. -/
def okPart (p : Nat) : Bool := decide (1 ≤ p) && decide (p ≤ 16)

/-- Queue pairs 0 to 127 of a function (R339). -/
def okPair (q : Nat) : Bool := decide (q < 128)

/-- Cores, and DMA channels: 128 of each. -/
def okCore (c : Nat) : Bool := decide (c < 128)

/-- Stacks, skillets and trivets: 16 of each. -/
def okStack (t : Nat) : Bool := decide (t < 16)

/-- Channels of a stack (R290). -/
def okChannel (c : Nat) : Bool := decide (c < 32)

/-- Pseudo-channels of a stack. -/
def okPch (p : Nat) : Bool := decide (p < 64)

/-- Fabric ports (R410). -/
def okPort (p : Nat) : Bool := decide (p < 8)

/-- I/O dies and crock ports. -/
def okIod (i : Nat) : Bool := decide (i < 4)

/-- Junction dies. -/
def okJd (j : Nat) : Bool := decide (j < 2)

/-- Die codes (R349). -/
def okDie (d : Nat) : Bool := decide (d < 23)

/-- Module numbers, 8 bits of a unit identity (R400). -/
def okModule (m : Nat) : Bool := decide (m < 256)

/-- MSI-X vectors that EVT_INT_VECTOR can name. -/
def okVector (v : Nat) : Bool := decide (v < 2048)

/-- Interrupt sources (R391). -/
def okSource (s : Nat) : Bool := decide (s < 1024)

/-- A command names an existing function and pair. -/
def CmdRef.ok (r : CmdRef) : Bool := okFn r.f && okPair r.q

/-- The unit exists. -/
def FenceUnit.ok : FenceUnit → Bool
  | .core c => okCore c
  | .skillet s => okStack s
  | .stackCtl s => okStack s
  | .engine s => okStack s
  | .jd j => okJd j
  | .iod i => okIod i
  | .crockPort i => okIod i
  | .fabPort p => okPort p

/-- The mechanism exists. -/
def Mechanism.ok : Mechanism → Bool
  | .stackDecoder s => okStack s
  | .crossbarLink d => okDie d
  | .junctionCompare j => okJd j
  | .lockstep => true
  | .monitors d => okDie d
  | .engineResidue s => okStack s

/-- The sensor exists. -/
def Sensor.ok : Sensor → Bool
  | .skillet s => okStack s
  | .stack s => okStack s
  | .trivet s => okStack s
  | .iod i => okIod i
  | .jd j => okJd j
  | .control => true

/-- The posted write's owner exists. -/
def PostedWrite.ok : PostedWrite → Bool
  | .completion f q => okFn f && okPair q
  | .eventRecord f => okFn f
  | .dmaWriteback c => okCore c
  | .signalStore r => r.ok

/-- The crock's user exists. -/
def CrockUser.ok : CrockUser → Bool
  | .command r => r.ok
  | .run _ => true
  | .channel c => okCore c
  | .migration p _ => okPart p
  | .fabric src _ => okModule src

/-- The operands of a command name things that exist. -/
def Instr.wf : Instr → Bool
  | .qpCreate r => r.ok
  | .qpDelete r => r.ok
  | .qpFlush r => r.ok
  | .partCreate r _ => r.ok
  | .partSuspend r => r.ok
  | .partResume r _ => r.ok
  | .partReclaim r => r.ok
  | .scrub p => okPart p
  | .reCarve p => okPart p
  | .handOver p => okPart p
  | .fwWrite r _ _ => r.ok
  | .fwActivate r => r.ok
  | .microcodeLoad r _ _ => r.ok
  | .attestReport r _ => r.ok
  | .certRead r => r.ok
  | .programLoad r _ => r.ok
  | .programUnload r => r.ok
  | .pack r _ => r.ok
  | .graphRun r => r.ok
  | .rolloutStep r => r.ok
  | .ctxCreate r => r.ok
  | .ctxRetire r => r.ok
  | .copy r _ => r.ok
  | .fill r => r.ok
  | .fence r => r.ok
  | .signal r => r.ok
  | .wait r _ => r.ok
  | .tierHint r => r.ok
  | .query r => r.ok
  | .queryTime r _ _ _ => r.ok
  | .sqTail f q _ _ => okFn f && okPair q
  | .cqHead f q _ _ => okFn f && okPair q
  | .dmaChTail f c _ _ => okFn f && okCore c
  | .dmaChCtlStop f c _ => okFn f && okCore c
  | .dmaChCtlReset f c => okFn f && okCore c
  | .dmaChRingSize f c _ => okFn f && okCore c
  | .dmaChOwner c fn => okCore c && decide (fn < 32)
  | .evtRingHead f _ _ => okFn f
  | .evtRingSizeEn f _ _ => okFn f
  | .evtIntClaim f v => okFn f && okVector v
  | .evtIntComplete f v src => okFn f && okVector v && okSource src
  | .evtIntEnable f _ _ => okFn f
  | .evtIntSense f src _ => okFn f && okSource src
  | .evtIntVector f src v => okFn f && okSource src && okVector v
  | .evtIntPrio f src prio => okFn f && okSource src && decide (prio < 8)
  | .evtIntThreshold f t => okFn f && decide (t < 8)
  | .ctlFuncCtlEn f _ => okFn f
  | .ctlDevReset _ _ _ => true
  | .schBucketStart f _ => okFn f
  | .pwrCap _ => true
  | .pwrMode _ => true
  | .pwrCupData _ => true
  | .memRepairCtlStart stack channel => okStack stack && okChannel channel
  | .memRetrainCtlRequest stack pch => okStack stack && okPch pch
  | .memCrockCtlRetrain _ => true
  | .fabPortCtlRetrain p => okPort p
  | .fabPodTail _ _ => true
  | .fabPodCtlReset => true
  | .fabWinCfg _ _ => true
  | .fabInjCount p _ => okPort p
  | .schSkilletDrain _ => true
  | .registerWrite f _ width _ => okFn f && (width == 4 || width == 8)
  | .descriptorFetch f q _ => okFn f && okPair q
  | .commandStart r => r.ok
  | .tilePass c _ _ => okCore c
  | .junctionSet p => okPart p
  | .commandEnd _ => true
  | .commandTimeLimit _ => true
  | .completionRelease r => r.ok
  | .msixUnmask f v => okFn f && okVector v
  | .subscribe c => okCore c
  | .multicastTileArrive j part _ _ _ => okJd j && okPart part
  | .multicastEntryFree j part _ _ => okJd j && okPart part
  | .dmaDescriptor c _ _ => okCore c
  | .dmaWriteback c _ => okCore c
  | .dmaStopped c _ _ => okCore c
  | .postedWriteFailed w => w.ok
  | .contextJoin _ => true
  | .batchWindow p _ => okPart p
  | .passStart p _ => okPart p
  | .passComplete _ => true
  | .deferredCompletion f q => okFn f && okPair q
  | .residencyDecision p parity => okPart p && decide (parity < 2)
  | .swap p parity => okPart p && decide (parity < 2)
  | .agingPeriod p => okPart p
  | .tierPromotion p _ => okPart p
  | .tierDemotion p => okPart p
  | .migrationChunk p _ _ => okPart p
  | .crockRequestLate u _ => u.ok
  | .crockAccessFailed u _ => u.ok
  | .crockLinkDown i => okIod i
  | .crockPortRetrained i _ _ _ => okIod i
  | .crockPresent _ => true
  | .patrol stack _ _ => okStack stack
  | .retrainStart stack pch => okStack stack && okPch pch
  | .retrainEnd stack _ => okStack stack
  | .channelRetire stack channel => okStack stack && okChannel channel
  | .repairCopyDone x => okStack x.stack
  | .flitReceive port _ => okPort port
  | .replayTimer port => okPort port
  | .portTrainingDone port _ _ => okPort port
  | .write src _ => okModule src
  | .readReq src _ => okModule src
  | .readResp src _ => okModule src
  | .fabricSignal src _ => okModule src
  | .ack src _ => okModule src
  | .refuse src _ => okModule src
  | .e2eTimeout dst _ => okModule dst
  | .readTagTimeout _ => true
  | .unreachableProbe dst => okModule dst
  | .heartbeatSend => true
  | .heartbeat src _ _ => okModule src
  | .mgmt src _ _ => okModule src
  | .heartbeatTimeout m => okModule m
  | .managerHeartbeatTimeout => true
  | .standbyTakeover => true
  | .podAdmit _ _ _ => true
  | .reclaim _ => true
  | .podReclaimTimeout _ m => okModule m
  | .cupPeriodBoundary die => okDie die
  | .powerLoop _ _ _ _ _ => true
  | .calibration _ _ => true
  | .disagreeTimeout _ _ => true
  | .agreeTimeout _ _ => true
  | .inputSample _ _ => true
  | .inputSenseTimeout _ => true
  | .trivetTelemetryTimeout k => okStack k
  | .inputOutOfRange _ => true
  | .thermalSample temps => temps.all (fun x => x.1.ok)
  | .coolantSample _ _ => true
  | .coolantRise => true
  | .coreIdleCool c => okCore c
  | .coreIdleCold c => okCore c
  | .coreWake c => okCore c
  | .clockMonitorFault die _ _ => okDie die
  | .railMonitorFault die _ _ => okDie die
  | .lockstepMismatch => true
  | .junctionCompareMismatch j => okJd j
  | .unitReturn u => u.ok
  | .selftestIdle x => okCore x.core
  | .selftestReserve x => okCore x.core
  | .selftestEnd c _ _ => okCore c
  | .selftestDeadline c => okCore c
  | .mechanismTest m _ => m.ok
  | .suspectEntryExpiry j _ => okJd j
  | .hsEnMate => true
  | .hsEnBreak => true
  | .inputRise => true
  | .inputFall _ => true
  | .overvoltage _ => true
  | .overvoltageRestart => true
  | .breakerOpen => true
  | .breakerClose => true
  | .powerOnReset _ => true
  | .mrstLow => true
  | .mrstRise _ => true
  | .conventionalReset => true
  | .functionLevelReset f => okFn f
  | .hostLinkRetrain _ _ => true
  | .trialCommit => true
  | .i3cDynamicAddress _ => true
  | .getStatus => true
  | .clearAlert _ => true
  | .setCap _ => true
  | .getCap => true
  | .imageWrite _ _ => true
  | .imageCommit _ _ _ _ => true
  | .recoveryWrite _ _ => true
  | .recoveryRun _ => true
  | .getVersion t _ => decide (t < 2)
  | .getCapabilities t _ => decide (t < 2)
  | .negotiateAlgorithms t _ => decide (t < 2)
  | .getDigests t => decide (t < 2)
  | .getCertificate t _ _ _ => decide (t < 2)
  | .challenge t _ => decide (t < 2)
  | .getMeasurements t _ => decide (t < 2)
  | .vendorDefinedRequest t _ => decide (t < 2)
  | .perstDeassertion _ _ => true
  | .sriovReenable => true
  | .packageRailOutOfWindow => true

end Sys2Proof
end

