-- ==== Sys2Proof/Tests/Slice0.lean ====
section
/-!
SUPPORT. Tests: commands that name what does not exist are ill-formed; for every statement of Certificates/Slice0, a state and
operands that meet the hypotheses of each of its clauses; and small worked cases of the spec.
-/

namespace Sys2Proof.Tests
open Sys2Proof Sys2Proof.Machine

/- One kernel check after the other: side by side they need more memory than a check has. -/
set_option Elab.async false

/-! ## Ill-formed commands: one for each check, which refuses it. -/

theorem test_wf_refuses : ([.qpFlush ⟨17, 1, 0⟩, .qpFlush ⟨1, 128, 0⟩, .scrub 0, .scrub 17, .tilePass 128 none {},
    .retrainEnd 16 true, .channelRetire 0 32, .retrainStart 0 64, .replayTimer 8, .crockLinkDown 4, .suspectEntryExpiry 2 0,
    .cupPeriodBoundary 23, .heartbeatTimeout 256, .msixUnmask 0 2048, .evtIntSense 0 1024 0, .dmaChOwner 0 32, .evtIntPrio 0 1 8,
    .evtIntThreshold 0 8, .registerWrite 0 0 2 0, .residencyDecision 1 2, .getDigests 2, .unitReturn (.core 128),
    .mechanismTest (.monitors 23) true, .thermalSample [(.trivet 16, 0)], .postedWriteFailed (.completion 0 128),
    .crockAccessFailed (.channel 128) 0] : List Instr).all (fun i => !i.wf) = true := by decide

theorem test_wf_accepts : ([.qpFlush ⟨16, 127, 0⟩, .scrub 16, .tilePass 127 none {}, .channelRetire 15 31, .retrainStart 15 63,
    .replayTimer 7, .cupPeriodBoundary 22, .msixUnmask 16 2047, .evtIntPrio 0 263 7, .registerWrite 0 0 8 0] : List Instr).all
    Instr.wf = true := by decide

theorem test_no_word_spells_a_command : decodeTableWord 64 0x2A = none := rfl

/-! ## States. -/

/-- A run of `n` bytes with little-endian fields (offset, bytes, value). -/
def put (n : Nat) (l : List (Nat × Nat × Nat)) : Bytes :=
  l.foldl (fun b e => b.take e.1 ++ leBytes e.2.1 e.2.2 ++ b.drop (e.1 + e.2.1)) (repByte n 0)

/-- A descriptor. -/
def desc (l : List (Nat × Nat × Nat)) : Bytes := put 64 l

/-- A device at step 13. -/
def up : Dev := { ({} : Dev) with trust := { ({} : Trust) with step := 13 }, mod := { ({} : Mod) with pwrgd := true, sriov := true } }

def st (d : Dev) : State := { pending := [], dev := d }

/-- A queue pair with rings of 64 entries. -/
def pair : Qp := { num := 1, sqBase := 0x10000, cqBase := 0x20000, sqSize := 64, cqSize := 64 }

/-- A device with one command in the pair `q` of function `f`. -/
def withCmd (d : Dev) (f q : Nat) (b : Bytes) : Dev := d.putQp f q { pair with cmds := [{ k := 0, desc := b }], nextK := 1 }

/-- Partition 1: cores 0 and 1, region entry 0 on stack 0, records 0 to 15. -/
def part1 : Part :=
  { cores := [0, 1], recCount := 16, recAddr := 0x200000, quota := 4, qps := 2, regions := [0], pot := [(0, 0, 16)],
    cups := (List.range 49).map (fun k => (2 * k, 0x8200)) }

def region0 : Region := { part := 1, base := 0, size := 0x400000, mask := 1, rowBase := 0, sector := false, kind := 0 }

/-- A device with partition 1. -/
def parted : Dev := (up.setParts [(1, part1)]).setRegions [(0, region0)]

/-! ## Witnesses: every clause of every statement has a state and operands that meet its hypotheses. -/

/-- A pair in use: one command fetched, one more offered, one entry posted and not consumed. -/
def pairUsed : Qp :=
  { pair with sqHead := 1, sqTail := 2, cqHead := 62, cqTail := 63, nextK := 1, cmds := [{ k := 0, desc := desc [], phase := .ended }] }
def queued : Dev := up.putQp 0 1 pairUsed

theorem wit_QueueDoorbells :
    queued.fnLive 0 = true ∧ queued.qp 0 1 = some pairUsed ∧ queued.deaf 0 = false ∧ 63 < pairUsed.sqSize ∧
    (63 + pairUsed.cqSize - pairUsed.cqHead) % pairUsed.cqSize ≤ pairUsed.posted ∧ 63 < pairUsed.cqSize ∧
    63 ≠ pairUsed.cqHead ∧ 63 = pairUsed.cqTail ∧ queued.mayFetch 0 pairUsed = true ∧ pairUsed.err = false ∧
    pairUsed.sqSize ≤ 64 ∧ 64 ≠ pairUsed.sqTail ∧
    pairUsed.posted < (0 + pairUsed.cqSize - pairUsed.cqHead) % pairUsed.cqSize ∧ 0 ≠ pairUsed.cqHead ∧
    (up.putQp 0 1 { pairUsed with err := true }).qp 0 1 = some { pairUsed with err := true } := by decide

/-- Context 3 posts to pair 1 of function 1. -/
def deferring : Dev := ((up.setParts [(1, part1)]).setCtxs [(3, { cstate := 1, qp := 1 })]).putQp 1 1 { pair with deferred := [3] }

theorem wit_CompletionsPost :
    queued.qp 0 1 = some pairUsed ∧ queued.cmd ⟨0, 1, 0⟩ = some { k := 0, desc := desc [], phase := .ended } ∧
    queued.cleared { k := 0, desc := desc [], phase := .ended } = true ∧ pairUsed.err = false ∧ pairUsed.discard = false ∧
    queued.saf.safeStop = false ∧ (pairUsed.cqTail + 1) % pairUsed.cqSize = 0 ∧ bit (byteAt (desc []) 1) 0 = false ∧
    deferring.qp 1 1 = some { pair with deferred := [3] } ∧ ({ pair with deferred := [3] } : Qp).load < 63 ∧
    (deferring.ctx 3).qp = 1 := by decide

/-- The fields of `Ready`, as a Bool. -/
def ready (d : Dev) (r : CmdRef) (op : Nat) (c : Cmd) : Bool :=
  d.startable r == some c && c.op == op && d.rejectStatus r c == none && c.marks == {}

theorem ready_iff (d : Dev) (r : CmdRef) (op : Nat) (c : Cmd) (h : ready d r op c = true) : d.Ready r op c := by
  unfold ready at h
  simp only [Bool.and_eq_true, beq_iff_eq] at h
  exact ⟨h.1.1.1, h.1.1.2, h.1.2, h.2⟩

/-- A command as it stands in its pair. -/
def cmd0 (b : Bytes) : Cmd := { k := 0, desc := b }
def ref0 : CmdRef := ⟨1, 1, 0⟩

def fenceDesc : Bytes := desc [(0, 1, 0x29), (4, 4, 7)]
/-- A FENCE behind a command that runs. -/
def fencedPair : Qp := { pair with nextK := 2, cmds := [{ k := 0, desc := desc [(0, 1, 0x28)], phase := .running }, { k := 1, desc := fenceDesc }] }

theorem wit_FenceOrders :
    ready (withCmd parted 1 1 fenceDesc) ref0 0x29 (cmd0 fenceDesc) = true ∧ hdrOk fenceDesc 0 [] = true ∧
    ({ pair with cmds := [cmd0 fenceDesc], nextK := 1 } : Qp).earlierDone 0 = true ∧
    ready (parted.putQp 1 1 fencedPair) ⟨1, 1, 1⟩ 0x29 { k := 1, desc := fenceDesc } = true ∧ fencedPair.earlierDone 1 = false ∧
    (cmd0 fenceDesc).op = 0x29 ∧ (cmd0 fenceDesc).k < 1 := by decide

def createDesc (q : Nat) : Bytes := desc [(0, 1, 1), (8, 2, q), (0x0A, 1, 6), (0x0B, 1, 16), (0x0C, 2, 2047), (0x10, 8, 0x1000), (0x18, 8, 0x2000)]
def full : Dev := (up.setParts [(1, { part1 with qps := 1 })])

theorem wit_QpCreateMakesPair :
    ready (withCmd parted 1 0 (createDesc 127)) ⟨1, 0, 0⟩ 1 (cmd0 (createDesc 127)) = true ∧
    hdrOk (createDesc 127) 0 [(8, 6), (0x10, 16)] = true ∧ (withCmd parted 1 0 (createDesc 127)).qp 1 127 = none ∧
    ((withCmd parted 1 0 (createDesc 127)).pairsOf 1).length < part1.qps ∧
    ready (withCmd (parted.putQp 1 127 pair) 1 0 (createDesc 127)) ⟨1, 0, 0⟩ 1 (cmd0 (createDesc 127)) = true ∧
    (withCmd (parted.putQp 1 127 pair) 1 0 (createDesc 127)).qp 1 127 = some pair ∧
    ready (withCmd full 1 0 (createDesc 1)) ⟨1, 0, 0⟩ 1 (cmd0 (createDesc 1)) = true ∧
    1 ≤ ((withCmd full 1 0 (createDesc 1)).pairsOf 1).length ∧
    ready (withCmd up 0 0 (createDesc 8)) ⟨0, 0, 0⟩ 1 (cmd0 (createDesc 8)) = true ∧ 7 < 8 := by decide

def flushDesc (op : Nat) : Bytes := desc [(0, 1, op), (8, 2, 1)]

theorem wit_QpFlushDelete :
    hdrOk (flushDesc 3) 0 [(8, 2)] = true ∧ hdrOk (flushDesc 2) 0 [(8, 2)] = true ∧
    ready (withCmd (parted.putQp 1 1 fencedPair) 1 0 (flushDesc 3)) ⟨1, 0, 0⟩ 3 (cmd0 (flushDesc 3)) = true ∧
    ready (withCmd (parted.putQp 1 1 fencedPair) 1 0 (flushDesc 2)) ⟨1, 0, 0⟩ 2 (cmd0 (flushDesc 2)) = true ∧
    (withCmd (parted.putQp 1 1 fencedPair) 1 0 (flushDesc 2)).qp 1 1 = some fencedPair ∧
    fencedPair.cmds.any (fun z => z.phase == .running) = true ∧ (withCmd parted 1 0 (flushDesc 2)).qp 1 1 = none ∧
    ready (withCmd parted 1 0 (flushDesc 2)) ⟨1, 0, 0⟩ 2 (cmd0 (flushDesc 2)) = true ∧
    ready (withCmd parted 1 0 (flushDesc 3)) ⟨1, 0, 0⟩ 3 (cmd0 (flushDesc 3)) = true ∧ (cmd0 (flushDesc 2)).marks = {} ∧
    ((parted.putQp 1 0 { pair with cmds := [{ k := 0, desc := flushDesc 2, phase := .running }] }).cmd ⟨1, 0, 0⟩).map (fun c => (c.op, c.phase)) =
      some (0x02, .running) ∧
    ready (withCmd (parted.putQp 1 1 pair) 1 0 (flushDesc 2)) ⟨1, 0, 0⟩ 2 (cmd0 (flushDesc 2)) = true ∧ pair.cmds = [] := by decide

/-- Function 0 with source 3 (level, line high) and source 131 (edge) mapped to vector 5, as in the example of R397. -/
def ints : Dev := up.modFn 0 (fun x => { x with int :=
  { srcs := [(3, { en := true, line := true, pend := true, prio := 4, prioNew := 4, vec := 5 }),
             (131, { en := true, sense := 1, pend := true, prio := 6, prioNew := 6, vec := 5 }),
             (263, { sense := 0, line := true })],
    vecs := [(5, { mask := false, sent := true }), (6, { pend := true })] } })

theorem wit_InterruptSettings : ints.fnLive 0 = true ∧ srcValid 1 = true ∧ srcValid 263 = true ∧
    263 = 32 * 8 + 7 ∧ 7 < 32 ∧ ((ints.fn 0).int.src 3).en = true ∧ bit 0 3 = false ∧ ((ints.fn 0).int.src 263).en = false ∧
    bit 0x80 7 = true ∧ ((ints.fn 0).int.src 263).sense = 0 ∧ 3 ≠ ((ints.fn 0).int.src 3).sense ∧ 0 ≠ ((ints.fn 0).int.src 131).sense := by
  decide

/-- The controller of `ints` is in order; vector 5 has deliverable sources, vector 7 has none. -/
theorem ints_ok : (ints.fn 0).int.ok := ⟨by decide, by decide⟩
theorem wit_ClaimTakesBest : ints.fnLive 0 = true ∧
    (((ints.fn 0).int.commit (ints.fn 0).int.apply).1.srcs.any (fun e => e.2.vec == 5 &&
      ((ints.fn 0).int.commit (ints.fn 0).int.apply).1.deliverable e.2)) = true ∧
    (((ints.fn 0).int.commit (ints.fn 0).int.apply).1.srcs.all (fun e => !(e.2.vec == 7 &&
      ((ints.fn 0).int.commit (ints.fn 0).int.apply).1.deliverable e.2))) = true := by decide

/-- In service: source 131; held back on vector 6: a message. -/
def served : Dev := ints.modFn 0 (fun x => { x with int := (x.int.take 5).1 })
theorem wit_CompleteAndUnmask : served.fnLive 0 = true ∧ ((served.fn 0).int.src 131).insv = true ∧ ((served.fn 0).int.src 131).vec = 5 ∧
    ((served.fn 0).int.src 3).insv = false ∧ ((served.fn 0).int.vecOf 6).pend = true ∧ ((served.fn 0).int.vecOf 5).pend = false := by
  decide

theorem wit_InterruptRowsFrame : (∃ t, exec (.msixUnmask 0 5) (st ints) = .next t) ∧ ∃ t, exec (.evtIntClaim 0 5) (st ints) = .next t :=
  ⟨⟨_, rfl⟩, ⟨_, rfl⟩⟩

/-- An event ring of 64 records, one not consumed. -/
def ring : EvtRing := { base := 0x30000, log2 := 6, en := true, head := 63, tail := 0 }
def rings : Dev := up.modFn 0 (fun x => { x with evt := ring })

theorem wit_EventRingRegisters : rings.fnLive 0 = true ∧ (rings.fn 0).evt = ring ∧ 0 ≠ ring.head ∧ 0 < 2 ^ ring.log2 ∧
    (0 + 2 ^ ring.log2 - ring.head) % 2 ^ ring.log2 ≤ (ring.tail + 2 ^ ring.log2 - ring.head) % 2 ^ ring.log2 ∧
    64 ≠ ring.head ∧ 2 ^ ring.log2 ≤ 64 ∧ ring.en = true ∧ (up.fn 0).evt.en = false ∧
    ({ ring with en := false } : EvtRing).base ≠ 0 := by decide

/-- A suspect reported three times, and a shut ring. -/
def suspect : Suspect := { unit := 0x160007, count := 3, reporters := [1, 2] }
def suspecting : Dev := rings.putJd 1 { own := [suspect], other := [{ suspect with unit := 9, count := 1 }] }
theorem wit_PostedWritesAndSuspects :
    ((suspecting.jd 1).own ++ (suspecting.jd 1).other).find? (fun y => y.unit == suspect.unit) = some suspect ∧ 1 < suspect.count ∧
    ((suspecting.jd 1).own ++ (suspecting.jd 1).other).find? (fun y => y.unit == 9) = some { suspect with unit := 9, count := 1 } ∧
    (suspecting.fn 0).evt.en = true ∧ (ring.tail + 1) % 2 ^ ring.log2 ≠ ring.head ∧
    queued.qp 0 1 = some pairUsed ∧ ring.tail ≠ ring.head ∧ ring.tail < 2 ^ ring.log2 ∧ kget (rings.fn 0).thr 49 0 = 0 ∧
    rings.counter 0x160600 1 < 2 ^ 64 - 2 ∧
    (let c : Cmd := { k := 0, desc := desc [(0, 1, 0x2A), (0x18, 1, 1)], phase := .ended }
     (parted.putQp 1 1 { pair with cmds := [c] }).cmd ref0 = some c ∧ c.op = 0x2A ∧ byteAt c.desc 0x18 = 1 ∧ c.status = stSuccess) := by
  decide

/-- Channel 127 of function 1, with one descriptor in its ring. -/
def chan : Dma := { (Dma.at 127) with owner := 1, base := 0x40000, log2 := 6, tail := 1 }
def xfer0 : Xfer := { desc := desc [(1, 1, 2), (0x18, 8, 8192)], idx := 0, data := .ok [] }
def dmas (x : Dma) : Dev := parted.putDma 127 x

theorem wit_DmaRegisters : (dmas chan).fnLive 1 = true ∧ (dmas chan).dma 127 = chan ∧ chan.owner = 1 ∧ (dmas chan).deaf 1 = false ∧
    chan.err = false ∧ 63 ≠ chan.tail ∧ 63 < 2 ^ chan.log2 ∧ 64 ≠ chan.tail ∧ 2 ^ chan.log2 ≤ 64 ∧ chan.xfer = none ∧
    ({ chan with xfer := some xfer0 } : Dma).xfer ≠ none ∧ ({ chan with stopped := true } : Dma).stopped = true ∧
    chan.head ≠ chan.tail ∧ ({ chan with tail := 0 } : Dma).head = ({ chan with tail := 0 } : Dma).tail := by decide

theorem wit_DmaDescriptorFetch : (dmas chan).dma 127 = chan ∧ (dmas chan).dmaMayFetch 127 = true ∧
    (dmas chan).saf.iodFenced.contains (127 / 32) = false ∧ (dmas { chan with owner := 0 }).dmaMayFetch 127 = true ∧ chan.owner ≠ 0 ∧
    dmaCheck1 (padTo 64 (desc [(0, 1, 0xFF)])) ≠ none ∧ dmaCheck1 (padTo 64 (desc [(1, 1, 2)])) = none ∧
    (parseDma (padTo 64 (desc [(1, 1, 2)]))).map = 0 ∧ (parseDma (padTo 64 (desc [(1, 1, 2)]))).bytes = 0 := by decide

theorem wit_DmaWritebackAndHalt :
    (dmas { chan with xfer := some { xfer0 with done := true } }).dma 127 = { chan with xfer := some { xfer0 with done := true } } ∧
    chan.stopped = false ∧ (dmas chan).saf.safeStop = false ∧ chan.head ≠ chan.tail ∧
    ({ chan with tail := 0 } : Dma).head = ({ chan with tail := 0 } : Dma).tail ∧ chan.source ≠ 0 ∧ chan.owner ≤ 16 ∧
    srcValid chan.source = true ∧
    (let d := (dmas { chan with tail := 0 }).modFn 1 (fun x => { x with int := { srcs := [(256, { en := true, sense := 1 })] } })
     ((d.fn 1).int.src chan.source).en = true ∧ ((d.fn 1).int.src chan.source).sense = 1 ∧ ((d.fn 1).int.src chan.source).line = false) ∧
    ({ chan with stop := true, xfer := some xfer0 } : Dma).stop = true ∧ xfer0.done = false ∧
    (dmas { chan with stop := true, xfer := some xfer0 }).dmaShut 127 (parseDma xfer0.desc) = false ∧ 4096 % 4096 = 0 ∧
    xfer0.moved ≤ 4096 ∧ 4096 ≤ xfer0.total := by decide

def waitDesc (v : Nat) : Bytes := desc [(0, 1, 0x2B), (8, 8, 0x40), (0x10, 8, v)]
theorem wit_SignalsAndWaits_wait :
    ready (withCmd parted 1 1 (waitDesc 0)) ref0 0x2B (cmd0 (waitDesc 0)) = true ∧ hdrOk (waitDesc 0) 0 [(8, 16)] = true ∧
    field (waitDesc 0) 8 8 % 8 = 0 ∧
    (let z := (withCmd parted 1 1 (waitDesc 0)).read 1 {} 0x40 8
     z.1.marks.clear = true ∧ (leNat z.1.bytes + 2 ^ 64 - field (waitDesc 0) 0x10 8) % 2 ^ 64 < 2 ^ 63) ∧
    ready (withCmd parted 1 1 (waitDesc 1)) ref0 0x2B (cmd0 (waitDesc 1)) = true ∧
    (let z := (withCmd parted 1 1 (waitDesc 1)).read 1 {} 0x40 8
     z.1.marks.clear = true ∧ 2 ^ 63 ≤ (leNat z.1.bytes + 2 ^ 64 - field (waitDesc 1) 0x10 8) % 2 ^ 64) ∧
    (let z := (withCmd parted 1 1 (waitDesc 0)).read 1 { uncorrectable := [(0, 0x40)] } 0x40 8
     z.1.marks.clear = false ∧ caMemPoison ∈ z.1.marks.causes) := by decide

theorem wit_SignalsAndWaits_holds : (cmd0 (waitDesc 0)).op = 0x2B ∧ cmd0 (waitDesc 0) ∈ ({ pair with cmds := [cmd0 (waitDesc 0)] } : Qp).cmds ∧
    (cmd0 (waitDesc 0)).k < 1 := by decide

def signalDesc (kind flags : Nat) : Bytes := desc [(0, 1, 0x2A), (2, 1, flags), (8, 8, 0x80), (0x10, 8, 5), (0x18, 1, kind), (0x19, 1, 9 * (kind / 2))]
/-- What a SIGNAL needs to start. -/
def signals (d : Dev) (b : Bytes) : Bool :=
  d.signalStarts ref0 == some (cmd0 b) && d.rejectStatus ref0 (cmd0 b) == none && hdrOk b 1 [(8, 0x14)]
/-- A SIGNAL behind a command that failed. -/
def failedPair (b : Bytes) : Qp := { pair with nextK := 2, cmds := [{ k := 1, desc := b }], done := [(0, stAddrRange)] }

theorem wit_SignalsAndWaits_stores :
    signals (withCmd parted 1 1 (signalDesc 0 0)) (signalDesc 0 0) = true ∧ zeroAt (signalDesc 0 0) 0x19 3 = true ∧
    field (signalDesc 0 0) 8 8 % 8 = 0 ∧ part1.protected 0x80 8 = false ∧ parted.ctxs = [] ∧
    signals (withCmd parted 1 1 (signalDesc 1 0)) (signalDesc 1 0) = true ∧ byteAt (signalDesc 1 0) 0x18 = 1 ∧
    bit (byteAt (signalDesc 1 0) 2) 0 = false ∧
    signals (withCmd parted 1 1 (signalDesc 2 0)) (signalDesc 2 0) = true ∧ byteAt (signalDesc 2 0) 0x18 = 2 ∧
    field (signalDesc 2 0) 8 8 < 2 ^ 48 ∧ (parted.dest (byteAt (signalDesc 2 0) 0x19)).unreachable = false ∧
    ({ pair with cmds := [cmd0 (signalDesc 1 0)] } : Qp).earlierDone 0 = true := by decide

theorem wit_SignalsAndWaits_judges :
    (parted.putQp 1 1 (failedPair (signalDesc 1 1))).signalStarts ⟨1, 1, 1⟩ = some { k := 1, desc := signalDesc 1 1 } ∧
    (failedPair (signalDesc 1 1)).earlierDone 1 = true ∧ bit (byteAt (signalDesc 1 1) 2) 0 = true ∧
    (failedPair (signalDesc 1 1)).sigFrom ≤ 0 ∧ stAddrRange ≠ stSuccess ∧ stAddrRange ≠ stEmptyOutput ∧
    (let x : Qp := { pair with nextK := 2, cmds := [{ k := 0, desc := desc [(0, 1, 0x28)], phase := .running }, { k := 1, desc := signalDesc 1 0 }] }
     (parted.putQp 1 1 x).signalStarts ⟨1, 1, 1⟩ = some { k := 1, desc := signalDesc 1 0 } ∧ x.earlierDone 1 = false) := by decide

/-- A tier of 16 pages, 12 frames: pages 0 and 1 in the stacks, 2 in the crock. -/
def tier1 : Tier := { f := 12, c := 16, base := 0x200000, pages := 16, page := [(0, .stack 0), (1, .stack 1), (2, .crock 0)] }
def tiered : Dev := parted.setParts [(1, { part1 with tier := tier1 })]
def hintDesc (act page n : Nat) : Bytes := desc [(0, 1, 0x2C), (8, 1, act), (0x10, 8, 0x200000 * (page + 1)), (0x18, 4, n)]

theorem wit_TierHintActs :
    [(0, 2, 1), (1, 0, 2), (2, 0, 2), (3, 0, 16), (4, 15, 1)].all (fun e =>
      ready (withCmd tiered 1 1 (hintDesc e.1 e.2.1 e.2.2)) ref0 0x2C (cmd0 (hintDesc e.1 e.2.1 e.2.2)) &&
      hdrOk (hintDesc e.1 e.2.1 e.2.2) 0 [(8, 1), (0x10, 0x18)] && zeroAt (hintDesc e.1 e.2.1 e.2.2) 0x1C 12 &&
      decide (field (hintDesc e.1 e.2.1 e.2.2) 0x10 8 = tier1.base + e.2.1 * 2 ^ 21) && decide (e.2.1 + e.2.2 ≤ tier1.pages)) = true ∧
    (withCmd tiered 1 1 (hintDesc 2 0 2)).part 1 = some { part1 with tier := tier1 } ∧
    (∀ p ∈ [0, 1], (tier1.st p).isStack = true) ∧ ([0, 1].foldl (fun b p => insertSorted p b) tier1.pinned).length ≤ tier1.f - 8 ∧
    ({ tier1 with f := 9 } : Tier).f - 8 < ([0, 1].foldl (fun b p => insertSorted p b) tier1.pinned).length ∧
    tier1.base % 2 ^ 21 = 0 ∧ tier1.base + tier1.pages * 2 ^ 21 < field (hintDesc 0 15 2) 0x10 8 + 2 * 2 ^ 21 ∧
    ready (withCmd tiered 1 1 (hintDesc 0 15 2)) ref0 0x2C (cmd0 (hintDesc 0 15 2)) = true := by decide

def queryDesc (item arg len : Nat) : Bytes := desc [(0, 1, 0x30), (8, 2, item), (0x0C, 4, arg), (0x10, 8, 0x9000), (0x18, 4, len)]
/-- A program and a context of partition 1. -/
def progs : Dev := (parted.setParts [(1, { part1 with progs := [(1, { addr := 0, size := 64, image := repByte 64 0 })] })]).setCtxs
  [(3, { gen := 2, cstate := 1, prog := 1 })]

theorem wit_QueriesAnswered :
    [(0, 0, 4097), (6, 0, 8), (0, 1, 8), (4, 2 ^ 25, 8), (5, 16, 8), (2, 1, 24), (3, ((progs.ctx 3).handle 3), 256), (4, 0x1000000 + 0xC0100, 4096),
      (5, 15, 1)].all (fun e => ready (withCmd progs 1 0 (queryDesc e.1 e.2.1 e.2.2)) ⟨1, 0, 0⟩ 0x30 (cmd0 (queryDesc e.1 e.2.1 e.2.2)) &&
        hdrOk (queryDesc e.1 e.2.1 e.2.2) 0 [(8, 2), (0x0C, 16)]) = true ∧
    (withCmd progs 1 0 (queryDesc 2 1 24)).part 1 = some { part1 with progs := [(1, { addr := 0, size := 64, image := repByte 64 0 })] } ∧
    progs.byHandle part1 ((progs.ctx 3).handle 3) = some 3 ∧
    (let u := 0x1000000 % 2 ^ 24; kindCounters (unitKind u) ≠ 0 ∧ 0x1000000 < 2 ^ 25) ∧ progs.unitMine 1 0 = true := by decide

def timeDesc (die n : Nat) : Bytes := desc [(0, 1, 0x31), (8, 8, 2 ^ die), (0x10, 8, 0x9000), (0x18, 1, n)]
theorem wit_QueriesAnswered_time : ready (withCmd up 0 0 (timeDesc 22 16)) ⟨0, 0, 0⟩ 0x31 (cmd0 (timeDesc 22 16)) = true ∧
    hdrOk (timeDesc 22 16) 0 [(8, 17)] = true ∧ field (timeDesc 22 16) 8 8 = 2 ^ 22 ∧ byteAt (timeDesc 22 16) 0x18 = 16 := by decide

/-! The smallest program image (R85 to R96), 536 bytes: one layer of one DOT program of one tile, FP32 in, FP32 out. -/

/-- Header, 128 bytes: "WOFI", version 1, tolerant of the function-table level, one layer, its table at 128. -/
def imgHead : Bytes := [0x57, 0x4F, 0x46, 0x49, 1, 0, 0, 0, 1, 0, 0, 0, 1, 0, 0, 0, 0x18, 2, 0, 0, 0, 0, 0, 0, 128] ++ repByte 103 0
/-- The layer's entry, 32 bytes: A8, one tile program at 160, no fallback. -/
def imgLayer : Bytes := [0, 0, 1, 0, 0, 0, 0, 0, 1, 0, 0, 0, 0, 0, 0, 0, 160] ++ repByte 7 0 ++ [0xFF, 0xFF] ++ repByte 6 0
/-- The tile program's header, 64 bytes: DOT, weights of width 1, three loops, three generators, bands of one row, no
stockpot, checks at 304. -/
def imgTile : Bytes := [0, 1, 0, 3, 3, 0, 0, 0, 0, 0, 1, 0, 1] ++ repByte 7 0 ++ [0x30, 1] ++ repByte 42 0
/-- A loop, 16 bytes: one iteration, its bound, its extent, its role. -/
def imgLoop (bound extent role : Nat) : Bytes := [1, 0, 0, 0] ++ leBytes 4 bound ++ leBytes 2 extent ++ leBytes 1 role ++ repByte 5 0
/-- A generator, 64 bytes: main memory, its role, its format, whether it writes, one row of `cols`. -/
def imgGen (role fmt wr cols : Nat) : Bytes := repByte 33 0 ++ leBytes 1 role ++ leBytes 1 fmt ++ leBytes 1 wr ++ repByte 8 0 ++
  [1, 0] ++ leBytes 2 cols ++ repByte 16 0
def image : Bytes := imgHead ++ imgLayer ++ imgTile ++ imgLoop 1 1 1 ++ imgLoop 256 256 2 ++ imgLoop 256 256 3 ++ imgGen 0 0 0 256 ++
  imgGen 1 10 0 1 ++ imgGen 2 0 1 256 ++ repByte 72 0

def loaded : Dev := parted.setParts [(1, { part1 with progs := [(1, { addr := 0x1000, size := 536, image := image })], nextHandle := 2 })]
def runDesc (cores layer idx : Nat) : Bytes := desc [(0, 1, 0x23), (8, 4, 1), (0xC, 2, layer), (0xE, 2, idx), (0x10, 16, cores), (0x20, 8, 0x2000)]

theorem wit_RegionAccess : parted.regionAt 1 0x3FFFC0 = some region0 ∧ 0x3FFFC0 % 64 + 64 ≤ 64 ∧ parted.stackOut 0 = false ∧
    (setBits 16 region0.mask).getD ((0x3FFFC0 - region0.base) / 2048 % (setBits 16 region0.mask).length) 0 = 0 ∧
    (parted.stack 0).bad (0x3FFFC0 / 64 * 64) = false ∧ part1.tier.pageOf 0x3FFFC0 = none ∧ Memory.wf parted.mem = true ∧
    silentAt {} 0 (0x3FFFC0 / 64 * 64) = none := by decide

def fillDesc (dst n : Nat) : Bytes := desc [(0, 1, 0x28), (2, 1, 3), (8, 8, dst), (0x10, 8, n), (0x18, 8, 0x1122334455667788)]
theorem wit_FillWrites :
    [(0x40, 0), (0x40, 9), (0x3FFFFF, 2)].all (fun e => ready (withCmd parted 1 1 (fillDesc e.1 e.2)) ref0 0x28 (cmd0 (fillDesc e.1 e.2)) &&
      hdrOk (fillDesc e.1 e.2) 3 [(8, 0x18)]) = true ∧
    (withCmd parted 1 1 (fillDesc 0x3FFFFF 2)).writable 1 0x3FFFFF 2 = false ∧
    (withCmd parted 1 1 (fillDesc 0x40 9)).writable 1 0x40 9 = true := by decide
/-- Nothing of the partition works. -/
theorem wit_FillWrites_quiet : (withCmd parted 1 1 (fillDesc 0x40 9)).Quiet 1 := ⟨fun _ h => (nomatch h), fun _ => rfl⟩

def copyDesc (src dst n : Nat) : Bytes := desc [(0, 1, 0x27), (8, 8, src), (0x10, 8, dst), (0x18, 8, n)]
/-- A whisk that the destination names, fenced. -/
def whiskFenced : Dev := parted.modSkillet 0 (fun x => { x with fenced := true })
theorem wit_CopyMoves :
    [(0, 0x100, 0), (0, 0x3FFFFF, 2), (0, 0x100, 0x100)].all (fun e =>
      ready (withCmd parted 1 1 (copyDesc e.1 e.2.1 e.2.2)) ref0 0x27 (cmd0 (copyDesc e.1 e.2.1 e.2.2)) &&
      hdrOk (copyDesc e.1 e.2.1 e.2.2) 0x0F [(8, 0x20)] && decide (field (copyDesc e.1 e.2.1 e.2.2) 0x20 8 = 0)) = true ∧
    (withCmd parted 1 1 (copyDesc 0 0x3FFFFF 2)).writable 1 0x3FFFFF 2 = false ∧
    (withCmd parted 1 1 (copyDesc 0 0x100 0x100)).ownedRange 1 0 0x100 = true ∧
    (withCmd parted 1 1 (copyDesc 0 0x100 0x100)).writable 1 0x100 0x100 = true ∧
    whiskFenced.whiskOf 1 false 0x100 = some 0 ∧ (whiskFenced.skillet 0).fenced = true ∧
    ready (withCmd whiskFenced 1 1 (copyDesc 0 0x100 0x100)) ref0 0x27 (cmd0 (copyDesc 0 0x100 0x100)) = true ∧
    parted.whiskOf 1 false 0x100 = some 0 ∧ (parted.skillet 0).fenced = false ∧ 0 + 0x100 ≤ 0x100 ∧
    (((parted.read 1 {} 0 0x100).1.bad) = []) := by decide
theorem wit_CopyMoves_quiet : (withCmd parted 1 1 (copyDesc 0 0x100 0x100)).Quiet 1 := ⟨fun _ h => (nomatch h), fun _ => rfl⟩
/-- No cup of partition 1 is shut. -/
theorem wit_CopyMoves_cups : ∀ j, j < 49 → parted.cupShut 1 j = false := by decide

def loadDesc (a n : Nat) : Bytes := desc [(0, 1, 0x20), (8, 8, a), (0x10, 8, n)]
theorem wit_ProgramLoadUnload :
    [(0x20, 64), (0x400000, 64), (0x1000, 0)].all (fun e => ready (withCmd parted 1 1 (loadDesc e.1 e.2)) ref0 0x20 (cmd0 (loadDesc e.1 e.2)) &&
      hdrOk (loadDesc e.1 e.2) 0 [(8, 16)]) = true ∧ 0x20 % 64 ≠ 0 ∧ 0x400000 % 64 = 0 ∧
    (withCmd parted 1 1 (loadDesc 0x400000 64)).ownedRange 1 0x400000 64 = false ∧
    (withCmd parted 1 1 (loadDesc 0x1000 0)).ownedRange 1 0x1000 0 = true ∧
    ((withCmd parted 1 1 (loadDesc 0x1000 0)).read 1 {} 0x1000 0).1.marks.clear = true ∧ validateImage 0 [] 0 ≠ stSuccess ∧
    (let b := desc [(0, 1, 0x21), (8, 4, 1)]
     ready (withCmd loaded 1 1 b) ref0 0x21 (cmd0 b) = true ∧ hdrOk b 0 [(8, 4)] = true ∧ kfind part1.progs 1 = none ∧
     (withCmd loaded 1 1 b).progUsed 1 { part1 with progs := [(1, { addr := 0x1000, size := 536, image := image })], nextHandle := 2 } 1 = false ∧
     ready (withCmd (loaded.setCtxs [(15, { cstate := 1, prog := 1 })]) 1 1 b) ref0 0x21 (cmd0 b) = true ∧ part1.recBase ≤ 15 ∧
     15 < part1.recBase + part1.recCount) := by decide +kernel
/-- The image loads: it lies in memory at 0x1000. -/
def stored : Dev := withCmd (parted.setMem (image.zipIdx.filterMap (fun e => if e.1 = 0 then none else some (0x1000 + e.2, e.1)))) 1 1
  (loadDesc 0x1000 536)
theorem wit_ProgramLoadUnload_loads :
    ((stored.read 1 {} 0x1000 536).1.bytes == image && (stored.read 1 {} 0x1000 536).1.marks.clear) = true := by decide +kernel
theorem test_image_valid : validateImage 0 image 536 = stSuccess := by decide +kernel

theorem wit_GraphRunStarts :
    (let b := runDesc 1 0 0
     ready (withCmd loaded 1 1 b) ref0 0x23 (cmd0 b) = true ∧ hdrOk b 0 [(8, 0x30)] = true ∧ setBits 128 (field b 0x10 16) = [0] ∧
     field b 0x20 8 % 32 = 0 ∧ field b 0x28 8 % 32 = 0 ∧
     (withCmd loaded 1 1 b).earlierOnCores ref0 (cmd0 b).coreSet = false ∧ (withCmd loaded 1 1 b).coresFree [0] = true) ∧
    setBits 128 (field (runDesc 0 0 0) 0x10 16) = [] ∧ kfind part1.progs (field (runDesc 1 0 0) 8 4) = none ∧
    (parseImage image).layers ≤ field (runDesc 1 1 0) 0x0C 2 ∧ field (runDesc 1 0 0) 0x0C 2 < (parseImage image).layers ∧
    (layerProgs image (field (runDesc 1 0 1) 0x0C 2)).length ≤ field (runDesc 1 0 1) 0x0E 2 ∧
    setBits 128 (field (runDesc 4 0 0) 0x10 16) = [2] ∧ 2 ∉ part1.cores ∧
    ((loaded.putCore 0 { clk := .hot, fenced := true }).coresFree [0]) = false := by decide +kernel
/-- The checks of the GRAPH_RUN let it through. -/
theorem wit_GraphRunStarts_passes :
    (match (withCmd loaded 1 1 (runDesc 1 0 0)).graphCheck ref0 (cmd0 (runDesc 1 0 0)) { addr := 0x1000, size := 536, image := image } with
      | .inl _ => false
      | .inr _ => true) = true ∧
    (match (withCmd (parted.setRegions []) 1 1 (runDesc 1 0 0)).graphCheck ref0 (cmd0 (runDesc 1 0 0))
        { addr := 0x1000, size := 536, image := image } with
      | .inl _ => true
      | .inr _ => false) = true := by decide +kernel

def packDesc (a cores : Nat) : Bytes := desc [(0, 1, 0x22), (8, 8, a), (0x10, 16, cores)]

/-- The cells of a pack record at 0x1000: a W1 source of one element at 0x8000, its exponent at 0x9000, a destination at 0x10000. -/
def packCells (bytes : Nat × Byte) (exps : Byte) : Mem :=
  [(0x1001, 0x80), (0x1009, 0x90), (0x101A, 1), (0x1020, 1), (0x1024, 1), (0x1029, 1), (0x102C, 1), bytes] ++
    (if exps = 0 then [] else [(0x9000, exps)])
/-- Partition 1 with a PACK whose record stands at `a`. -/
def packing (m : Mem) (a cores : Nat) : Dev := withCmd (parted.setMem m) 1 1 (packDesc a cores)
def packReady (d : Dev) (a cores : Nat) : Bool :=
  ready d ref0 0x22 (cmd0 (packDesc a cores)) && hdrOk (packDesc a cores) 0 [(8, 24)]
/-- The whole chain of premises of a record at 0x1000 that is read and well formed. -/
def packGood (m : Mem) (ok fits : Bool) : Bool :=
  let d := packing m 0x1000 1
  let c := cmd0 (packDesc 0x1000 1)
  let z := d.read 1 {} 0x1000 64
  let x := parsePackRec z.1.bytes
  let q := z.2.packRead 1 {} x
  packReady d 0x1000 1 && d.ownedRange 1 0x1000 64 && z.1.marks.clear && packRecOk z.1.bytes && x.formatOk && decide (x.sfmt < 5)
    && x.runs.all (fun q => d.ownedRange 1 q.1 q.2) && d.writable 1 x.dst x.dstBytes && !c.coreSet.any d.coreFenced
    && !d.earlierOnCores ref0 c.coreSet && d.coresFree c.coreSet && q.2.1.clear && (q.1.ok x == ok) && (decide (x.need ≤ x.dstBytes) == fits)

theorem wit_PackEnds : packReady (packing [] 0x1000 0) 0x1000 0 = true ∧ setBits 128 (field (packDesc 0x1000 0) 0x10 16) = [] ∧
    packReady (packing [] 0x1000 4) 0x1000 4 = true ∧ setBits 128 (field (packDesc 0x1000 4) 0x10 16) = [2] ∧ 2 ∉ part1.cores ∧
    packReady (packing [] 0x3FFFC1 1) 0x3FFFC1 1 = true ∧ setBits 128 (field (packDesc 0x3FFFC1 1) 0x10 16) = [0] ∧ 0 ∈ part1.cores ∧
    (packing [] 0x3FFFC1 1).ownedRange 1 0x3FFFC1 64 = false ∧ (packing [] 0x3FFFC0 1).ownedRange 1 0x3FFFC0 64 = true ∧
    ((packing [] 0x3FFFC0 1).read 1 {} 0x3FFFC0 64).1.marks.clear = true ∧
    packRecOk ((packing [] 0x3FFFC0 1).read 1 {} 0x3FFFC0 64).1.bytes = false := by decide +kernel
theorem wit_PackEnds_records : packGood (packCells (0x1030, 0x40) 0xFF) false false = true ∧
    packGood (packCells (0x1030, 0x40) 0) true false = true ∧ packGood (packCells (0x1032, 0x10) 0) true true = true := by decide +kernel

/-- The image with a rollout table at 576: one row in each context, stream I/O slots of 64 bytes, no input frame. -/
def rollImage : Bytes := image.take 0x10 ++ [0x80, 2] ++ (image.drop 0x12).take 14 ++ [0x40, 2] ++ image.drop 0x22 ++ repByte 40 0 ++
  [0x52, 0x4F, 0x4C, 0x4C, 0, 0, 0, 0, 1, 0, 1, 0, 64] ++ repByte 51 0
def stage0 : Stage := { first := 0, last := 0, cores := [(0, 0x2000)] }
/-- Partition 1 with that program as handle 1, staged on core 0, and its contexts. -/
def rolling (x : Part) (l : List (Nat × Ctx)) (m : Mem) : Dev :=
  ((parted.setParts [(1, { x with progs := [(1, { addr := 0x1000, size := 640, image := rollImage, stages := [stage0] })], nextHandle := 2 })]).setCtxs l).setMem m

def ctxDesc (i prog flags tgt : Nat) : Bytes :=
  desc [(0, 1, 0x25), (2, 1, flags), (8, 4, i), (0xC, 4, prog), (0x18, 8, 0x8000), (0x30, 8, tgt)]
def creating (x : Part) (l : List (Nat × Ctx)) (i prog flags tgt : Nat) : Bool :=
  let b := ctxDesc i prog flags tgt
  ready (withCmd (rolling x l []) 1 1 b) ref0 0x25 (cmd0 b) && hdrOk b 3 [(8, 0x38)] && !bit (byteAt b 2) 1 && field b 0x38 8 == 0 &&
    decide (field b 0x30 8 < 2 ^ 48)
def pins : List (Nat × Ctx) := [(1, { cstate := 1, pinned := true }), (3, { cstate := 2, pinned := true }), (5, {}), (7, { cstate := 1 })]

theorem wit_ContextLifecycle_create : creating { part1 with recBase := 1 } [] 0 1 0 0 = true ∧ creating part1 [] 16 1 0 0 = true ∧
    creating part1 [] 15 2 0 0 = true ∧ creating part1 [(15, { cstate := 1 })] 15 1 0 0 = true ∧
    creating part1 pins 5 1 1 0 = true ∧ (rolling part1 pins []).pinCount part1 1 = 2 ∧ part1.quota / 2 = 2 ∧
    ((rolling part1 pins []).ctx 5).cstate = 0 ∧ creating part1 pins 4 1 1 (2 ^ 48 - 1) = true ∧
    (rolling part1 pins []).pinCount part1 0 = 0 ∧ ((rolling part1 pins []).ctx 4).cstate = 0 := by decide +kernel

def retireDesc (n : Nat) : Bytes := desc [(0, 1, 0x26), (8, 8, 0x4000), (0x10, 4, n)]
/-- A list of two handles at 0x4000: records 0 and 7, of generation 0. -/
def twoHandles : Mem := [(0x4004, 7)]
def retiring (l : List (Nat × Ctx)) (x : Part) (n : Nat) : Bool :=
  let b := retireDesc n
  let d := withCmd (rolling x l twoHandles) 1 1 b
  let z := d.readList 1 [(0x4000, 4 * n)]
  ready d ref0 0x26 (cmd0 b) && hdrOk b 0 [(8, 12)] && z.2.1.clear && (handles (z.1.headD []) == [0, 7].take n)
def inPass : Part := { part1 with batches := [(4, { prog := 1, point := 0, bucket := 0, ctxs := [7], closed := true })] }
theorem wit_ContextLifecycle_retire : retiring [(0, { cstate := 1 })] part1 2 = true ∧
    (withCmd (rolling part1 [(0, { cstate := 1 })] twoHandles) 1 1 (retireDesc 2)).byHandle part1 7 = none ∧
    retiring [(0, { cstate := 1 }), (7, { cstate := 2 })] part1 2 = true ∧
    [0, 7].map ((withCmd (rolling part1 [(0, { cstate := 1 }), (7, { cstate := 2 })] twoHandles) 1 1 (retireDesc 2)).byHandle part1) =
      [some 0, some 7] ∧
    retiring [(0, { cstate := 1 }), (7, { cstate := 3 })] inPass 2 = true ∧
    (withCmd (rolling inPass [(0, { cstate := 1 }), (7, { cstate := 3 })] twoHandles) 1 1 (retireDesc 2)).inStep inPass 7 = true ∧
    (withCmd (rolling inPass [(0, { cstate := 1 }), (7, { cstate := 3 })] twoHandles) 1 1 (retireDesc 2)).inStep inPass 0 = false := by
  decide +kernel

def stepDesc (prog n list count : Nat) : Bytes :=
  desc [(0, 1, 0x24), (8, 4, prog), (0xC, 1, n), (0x10, 8, list), (0x18, 4, count), (0x1C, 4, 1), (0x20, 8, if n = 0 then 0 else 0x3000)]
/-- A stage table at 0x3000: layer 0, core `2 ^ n` alone, its instance record at 0x2000; and two handles. -/
def stageMem (n : Byte) : Mem := [(0x3008, n), (0x3019, 0x20), (0x4004, 7)]
def rolls (l : List (Nat × Ctx)) (core : Byte) (prog n list count : Nat) : Dev := withCmd (rolling part1 l (stageMem core)) 1 1 (stepDesc prog n list count)
def rollReady (l : List (Nat × Ctx)) (core : Byte) (prog n list count : Nat) : Bool :=
  let b := stepDesc prog n list count
  ready (rolls l core prog n list count) ref0 0x24 (cmd0 b) && hdrOk b 7 [(8, 5), (0x10, 0x28)] && (byteAt b 0xC == n)
    && ((n == 0) == (field b 0x20 8 == 0))
/-- Every premise of a command whose lists are read. -/
def rollRead (l : List (Nat × Ctx)) (core : Byte) (n : Nat) : Bool :=
  let d := rolls l core 1 n 0x4000 2
  let z := d.readList 1 ((0x4000, 8) :: (if n = 0 then [] else [(0x3000, 32 * n)]))
  let tab := z.1.getD 1 []
  rollReady l core 1 n 0x4000 2 && z.2.1.clear && (List.range n).all (fun k => zeroAt tab (32 * k + 4) 4
    && field tab (32 * k + 0x18) 8 % 32 == 0 && (parseStageEnt tab k).cores.all (fun g => zeroAt (z.2.2.peek 1 g.2 96) 0x4C 20))
    && handles (z.1.headD []) == [0, 7]
def rollJudged (l : List (Nat × Ctx)) (core : Byte) (n : Nat) : Option Nat :=
  let d := rolls l core 1 n 0x4000 2
  let z := d.readList 1 ((0x4000, 8) :: (if n = 0 then [] else [(0x3000, 32 * n)]))
  match kfind (d.part 1 |>.getD {}).progs 1 with
  | some pg => Dev.rollFails part1 pg (cmd0 (stepDesc 1 n 0x4000 2)) (z.1.getD 1 [])
  | none => none
def twoCtxs (c p : Nat) : List (Nat × Ctx) := [(0, { cstate := 1, prog := 1 }), (7, { cstate := c, prog := p, step := 9, target := 2 ^ 48 - 1 })]

theorem wit_RolloutStepTargets : rollReady [] 1 1 0 0x4000 0 = true ∧ rollReady [] 1 1 0 0x4000 65537 = true ∧
    rollReady [] 1 2 0 0x4000 65536 = true ∧ rollRead (twoCtxs 0 1) 1 0 = true ∧ rollRead (twoCtxs 2 2) 1 0 = true ∧
    rollRead (twoCtxs 2 1) 0 1 = true ∧ rollJudged (twoCtxs 2 1) 0 1 = some stStageFormat ∧
    rollRead (twoCtxs 2 1) 4 1 = true ∧ rollJudged (twoCtxs 2 1) 4 1 = some stNotOwned ∧
    rollRead (twoCtxs 2 1) 1 1 = true ∧ rollJudged (twoCtxs 2 1) 1 1 = none ∧
    rollRead (twoCtxs 2 1) 1 0 = true ∧ rollJudged (twoCtxs 2 1) 1 0 = none := by decide +kernel
theorem wit_RolloutStepTargets_handles :
    ((rolls (twoCtxs 0 1) 1 1 0 0x4000 2).byHandle part1 7).filter (fun i => ((rolls (twoCtxs 0 1) 1 1 0 0x4000 2).ctx i).cstate != 0) = none ∧
    (rolls (twoCtxs 2 1) 1 1 0 0x4000 2).byHandle part1 0 = some 0 ∧ (rolls (twoCtxs 2 1) 1 1 0 0x4000 2).byHandle part1 7 = some 7 ∧
    ((rolls (twoCtxs 2 2) 1 1 0 0x4000 2).ctx 7).prog = 2 := by decide +kernel
theorem test_rollImage_valid : validateImage 0 rollImage 640 = stSuccess := by decide +kernel

/-- A partition with one context resident, one parked, both of parity 1. -/
def parking (res : Nat) : Dev := rolling { part1 with quota := 2, parked := [(1, 3)] } [(1, { cstate := res, resident := true }), (3, { cstate := 2 })] []
def swapping : Part := { part1 with quota := 2, moves := [{ parity := 1, cand := some 3, victim := some 1 }] }
theorem wit_ResidencyAndBatches_swaps :
    part1.parked.find? (fun e => e.1 == 1) = none ∧
    (match (parking 4).part 1 with
      | some x => x.parked.find? (fun e => e.1 == 1) == some (1, 3) && decide (x.quota / 2 ≤ (parking 4).entriesUsed x 1) &&
          ((parking 4).victim x 1 == some 1)
      | none => false) = true ∧
    (match (rolling { part1 with parked := [(1, 3)] } [(3, { cstate := 2 })] []).part 1 with
      | some x => x.parked.find? (fun e => e.1 == 1) == some (1, 3) &&
          decide ((rolling { part1 with parked := [(1, 3)] } [(3, { cstate := 2 })] []).entriesUsed x 1 < x.quota / 2)
      | none => false) = true ∧
    swapping.moves.find? (fun m => m.parity == 1) = some { parity := 1, cand := some 3, victim := some 1 } := by decide +kernel

/-- Partition 1 with a forming batch 4 of context 1; context 3 may join it. -/
def forming (cores : List (Nat × Nat)) : Dev :=
  ((parted.setParts [(1, { part1 with
    progs := [(1, { addr := 0x1000, size := 640, image := rollImage, stages := [{ first := 0, last := 0, cores := cores }] })]
    batches := [(4, { prog := 1, point := 0, bucket := 0, ctxs := [1] })], nextBatch := 5 })]).setCtxs
    [(1, { cstate := 3, resident := true, prog := 1 }), (3, { cstate := 2, resident := true, prog := 1 })])
def joins (cores : List (Nat × Nat)) (band : Nat) : Bool :=
  let d := forming cores
  match d.ctxPart 3 with
  | none => false
  | some (p, x) =>
    match kfind x.progs 1 with
    | none => false
    | some pg =>
      match pg.stages[0]? with
      | none => false
      | some st =>
        p == 1 && (d.ctx 3).cstate == 2 && (d.ctx 3).resident && !x.suspended && x.reclaim == .none && !x.leaving 3 &&
          !d.inputBlocks 1 x (d.ctx 3) && (st.band pg.image * (d.stageCores st).length == band) &&
          (x.batches.find? (fun e => !e.2.closed && e.2.prog == 1 && e.2.point == 0 && e.2.bucket == 0) ==
            some (4, { prog := 1, point := 0, bucket := 0, ctxs := [1] })) && (parseRollout pg.image).rows == 1
theorem wit_ResidencyAndBatches_batches : joins [(0, 0x2000), (1, 0x2060)] 2 = true ∧
    joins [(0, 0x2000), (1, 0x2060), (1, 0x2060)] 3 = true := by decide +kernel

/-- Partition 1 with a closed batch 4 of the context 1, before stage 0 of `k`. -/
def closedBatch (k : Nat) (hist : List (Nat × List Nat)) : Part :=
  { part1 with
    progs := [(1, { addr := 0x1000, size := 640, image := rollImage, stages := (stage0 :: List.replicate k stage0) })]
    batches := [(4, { prog := 1, point := 0, bucket := 0, ctxs := [1], closed := true }), (5, { prog := 1, point := 1, bucket := 0 })]
    nextBatch := 6, hist := hist }
def closing (k : Nat) (hist : List (Nat × List Nat)) : Dev :=
  (parted.setParts [(1, closedBatch k hist)]).setCtxs [(1, { cstate := 3, resident := true, prog := 1 })]
def batch4 : Batch := { prog := 1, point := 0, bucket := 0, ctxs := [1], closed := true }
def passRun : Run := { part := 1, prog := 1, layer := 0, last := 0, batch := 4, stage := 0, limitMs := 50, ctxs := [1] }
def passProg (k : Nat) : Prog := { addr := 0x1000, size := 640, image := rollImage, stages := (stage0 :: List.replicate k stage0) }

theorem wit_PassesStep_waits : (closing 1 [(8, [5, 6])]).stageReady 1 (closedBatch 1 [(8, [5, 6])]) batch4 2 0 = false ∧
    (closing 0 [(8, [5, 6])]).stageReady 1 (closedBatch 0 [(8, [5, 6])]) batch4 1 0 = true ∧
    ((closing 0 []).setRuns [(9, passRun)]).stageReady 1 (closedBatch 0 []) batch4 1 0 = false ∧
    (closing 0 []).stageReady 1 { closedBatch 0 [] with batches := [(3, { batch4 with ord := 1 }), (4, { batch4 with ord := 2 })] }
      { batch4 with ord := 2 } 1 0 = false ∧
    (closing 0 []).stageReady 1 { closedBatch 0 [] with batches := [(3, { batch4 with ord := 0, point := 1 })] } { batch4 with ord := 2 } 1 2 = false := by
  decide
theorem wit_PassesStep_starts :
    (let d := closing 0 []
     d.stageReady 1 (closedBatch 0 []) batch4 1 (parseRollout rollImage).feedback && !d.inputsWait 1 (closedBatch 0 []) batch4 &&
       d.coresFree [0] && !d.coreFenced 0 && ((passRun.twins rollImage [0]) == []) &&
       ((passRun.programs rollImage) == [(0, 0)]) && (d.fn 1).sch.limitMs == 50 &&
       (match d.passCheck 1 (closedBatch 0 []) batch4 (passProg 0) passRun [(0, 0x2000)] with
        | .inl _ => false
        | .inr _ => true)) = true := by decide +kernel
/-- A pass at its end. -/
def passed (k : Nat) (y : Run) (step : Nat) : Dev :=
  ((closing k []).setRuns [(9, y)]).setCtxs [(1, { cstate := 3, resident := true, prog := 1, step := step, target := 2 ^ 48 - 1 })]
theorem wit_PassesStep_ends : (passed 0 passRun 0).run 9 = some passRun ∧
    (∃ c ∈ ({ passRun with cores := [{ newCore 0 0 [] 0 with todo := [{ layer := 0, prog := 0 }] }] } : Run).cores, c.todo ≠ []) ∧
    ((passed 0 { passRun with release := [(8, 1)] } 0).setSaf { ({} : Safety) with railBad := [8] }).stuck [(8, 1)] = true ∧
    (passed 0 passRun 0).stuck [] = false ∧ (passed 0 passRun 0).runProg { passRun with ended := true } = some (passProg 0) ∧
    (passed 1 passRun 0).runProg { passRun with ended := true } = some (passProg 1) ∧ (passProg 0).stages.length ≤ 0 + 1 ∧
    0 + 1 < (passProg 1).stages.length ∧ ((passed 0 passRun (2 ^ 48 - 2)).ctx 1).step < 2 ^ 48 - 1 ∧ passRun.ctxs.count 1 = 1 ∧
    kfind (closedBatch 1 []).batches passRun.batch = some batch4 ∧ batch4.ctxs.contains 1 = true ∧ (closedBatch 1 []).before batch4 1 = 0 ∧
    passRun.marks = {} ∧ stOk (({ causes := [3] } : Marks).final stSuccess).1 = false := by decide +kernel

/-! Power, sensing and heat. -/

theorem wit_PowerBudget : up.regsLive = true ∧ 400 ≤ 400 ∧ 1200 ≤ 1200 ∧ 399 < 400 ∧ 1200 < 1201 ∧ 3 < 4 ∧ 4 ≤ 4 := by decide

/-- Partition 1 selected at register `off`, with the shares of part1. -/
def selected (off : Nat) : Dev := parted.setPwr { parted.pwr with selPart := 1, selOff := off }
def drawing : Dev := (selected 0).putCups 0 { (((selected 0).cupsOf 0)) with drawn := [(cupKey 1 0, 100)] }
theorem wit_CupGrants : (selected 0x5A).regsLive = true ∧ (selected 1).part 1 = some part1 ∧ 1 % 2 ≠ 0 ∧ 0x60 < 0x62 ∧ 1024 < 1025 % 2048 ∧
    bits 0x800 14 11 ≠ 0 ∧ 65535 < 65536 ∧ (992 < (selected 0x58).shareSum 1 0x58 + 993 % 2048) ∧
    ((selected 0x60).shareSum 1 0x60 + 1024 % 2048 ≤ 1024) ∧ 2 % 2 = 0 ∧
    0 % 2048 < ceilDiv (1024 * (selected 0).rowsOn 1 0) 30720 ∧ ceilDiv (1024 * (selected 0).rowsOn 1 0) 30720 ≤ 0x8001 % 2048 ∧
    bits 0x8001 14 11 = 0 ∧ up.regsLive = true ∧ up.part up.pwr.selPart = none ∧
    (st drawing).partsOk ∧ (0, 176000) ∈ cupsOn 0 ∧ drawing.part 1 = some part1 ∧ (44, 8000) ∈ cupsOn 16 ∧
    part1.cupsNew.find? (fun e => e.1 == cupOff 0) = none := by
  refine ⟨?_, ?_, ?_, ?_, ?_, ?_, ?_, ?_, ?_, ?_, ?_, ?_, ?_, ?_, ?_, ⟨?_, ?_⟩, ?_, ?_, ?_, ?_⟩ <;> decide

theorem wit_SensingAndHeat : up.pwr.disagree = false ∧ up.pwr.inputLost = false ∧ ¬ (15 * 100 < 100 * ((115 - 100) + (100 - 115))) ∧
    15 * 100 < 100 * ((116 - 100) + (100 - 116)) ∧ (up.setPwr { up.pwr with disagree := true }).pwr.disagree = true ∧
    10 * ((110 - 100) + (100 - 110)) ≤ 100 ∧ 5000 * 3000 ≤ 15000000 ∧ 15000000 < 5001 * 3000 ∧
    up.sense.energy + (up.pwr.energyPart + 5000 * 3000) / 100000 < 2 ^ 64 ∧ bit up.pwr.trivetLost 15 = false ∧
    up.sense.warned = [] ∧ up.sense.throttled = [] ∧ up.sense.critical = [] ∧ (850 : Int) ≤ 850 ∧ (1000 : Int) < 1001 ∧ (1099 : Int) < 1100 ∧
    15 ∈ (up.setSense { up.sense with throttled := [15] }).sense.throttled ∧ (up.skillet 15).clk = 19 ∧ 10 < (up.skillet 15).clk ∧
    ((up.modSkillet 15 (fun x => { x with clk := 10 })).skillet 15).clk ≤ 10 ∧ 15 ∉ up.sense.critical ∧
    (150 : Int) < (up.setSense { up.sense with outlet := 151 }).sense.outlet - up.sense.inlet ∧ up.sense.outlet - up.sense.inlet ≤ 150 := by
  decide

/-! Partitions. -/

/-- A partition specification of 512 bytes: core 4, two records, one pair, one row of stack 0. -/
def specBytes (records : Nat) : Bytes := put 512 [(0, 1, 16), (0x10, 4, records), (0x14, 2, 2), (0x16, 2, 1), (0x20, 1, 1), (0x80, 8, 0x400000), (0x88, 2, 1), (0x100, 2, 0x8002)]
def mgmtDesc (op p q : Nat) : Bytes := desc [(0, 1, op), (8, 1, p), (9, 1, q)]
def mref : CmdRef := ⟨0, 0, 0⟩
def asked (d : Dev) (op p q : Nat) : Bool :=
  let b := mgmtDesc op p q
  ready (withCmd d 0 0 b) mref op (cmd0 b) && hdrOk b 0 [(8, if op = 7 then 2 else 1), (0x10, 8)]
/-- Admission answers `none` where the partition is made, else a status. -/
def admits (d : Dev) (p : Nat) (b : Bytes) : Option Nat :=
  match (withCmd d 0 0 (mgmtDesc 4 p 0)).admitPart p b 0 with
  | .inl _ => none
  | .inr st => some st
/-- Partition 3 holds core 4. -/
def taken : Dev := up.setParts [(3, { part1 with cores := [4] })]

theorem wit_PartitionAdmission : asked up 4 0 0 = true ∧ asked up 4 17 0 = true ∧ asked parted 4 1 0 = true ∧ (parted.part 1).isSome = true ∧
    asked up 4 16 0 = true ∧ up.part 16 = none ∧ specOk (padTo 512 []) = false ∧ specOk (padTo 512 (specBytes 2)) = true ∧
    asked taken 4 16 0 = true ∧ 4 ∈ setBits 128 (field (padTo 512 (specBytes 2)) 0 16) ∧ (∃ e ∈ taken.parts, 4 ∈ e.2.cores) ∧
    asked (up.putCore 4 { retired := true }) 4 1 0 = true ∧ ((up.putCore 4 { retired := true }).core 4).retired = true ∧
    bit (up.setRegs { up.regs with drain := 1 }).regs.drain (4 / 8) = true := by decide +kernel
theorem wit_PartitionAdmission_judged : admits up 16 (padTo 512 (specBytes 2)) = none ∧ admits taken 16 (padTo 512 (specBytes 2)) = some stCoreBusy ∧
    admits up 1 (padTo 512 (specBytes 0)) = some stInvalidField := by decide +kernel

/-- Partition 1 in suspension, in reclaim at stage `k`. -/
def partIn (x : Part) : Dev := (parted.setParts [(1, x)]).setCtxs [(0, { cstate := 1, gen := 5 })]
def runOnCore : Run := { part := 1, prog := 1, layer := 0, last := 0, cores := [newCore 0 0 [] 0] }

theorem wit_PartitionSuspends : asked up 5 16 0 = true ∧ up.part 16 = none ∧
    asked (partIn { part1 with reclaim := .quiesce }) 5 1 0 = true ∧ asked (partIn part1) 5 1 0 = true ∧ part1.reclaim = .none ∧
    (withCmd (partIn part1) 0 0 (mgmtDesc 5 1 0)).channelsOf 1 = [] ∧
    (withCmd (partIn part1) 0 0 (mgmtDesc 5 1 0)).runsOf 1 = false ∧
    (∀ e ∈ (withCmd (partIn part1) 0 0 (mgmtDesc 5 1 0)).qps, e.1 / 128 = 1 → e.2.cmds = []) ∧
    (∀ e ∈ (withCmd (partIn part1) 0 0 (mgmtDesc 5 1 0)).ctxs, e.2.retire = false) ∧
    asked ((partIn part1).setRuns [(9, runOnCore)]) 5 1 0 = true ∧
    (withCmd ((partIn part1).setRuns [(9, runOnCore)]) 0 0 (mgmtDesc 5 1 0)).runsOf 1 = true ∧
    asked up 6 16 0 = true ∧ asked (partIn { part1 with suspended := true }) 6 1 0 = true ∧
    (withCmd (partIn { part1 with suspended := true }) 0 0 (mgmtDesc 6 1 0)).pairsOf 1 = [] := by decide +kernel

def reclaiming (k : Reclaim) (q : Nat) : Part := { part1 with reclaim := k, recipient := q, reclaimBy := some mref }
def handing (q : Nat) : Dev := withCmd ((partIn (reclaiming .carved q)).setParts ([(1, reclaiming .carved q)] ++
  (if q = 0 then [] else [(q, { part1 with cores := [3], regions := [] })]))) 0 0 (mgmtDesc 7 1 q)
theorem wit_PartitionReclaims : asked (partIn part1) 7 1 1 = true ∧ asked (partIn (reclaiming .quiesce 0)) 7 1 16 = true ∧
    asked (partIn part1) 7 1 16 = true ∧ (withCmd (partIn part1) 0 0 (mgmtDesc 7 1 16)).part 16 = none ∧
    asked (partIn part1) 7 1 0 = true ∧ (withCmd (partIn part1) 0 0 (mgmtDesc 7 1 0)).channelsOf 1 = [] ∧
    ((partIn part1).setRuns [(9, runOnCore)]).quiet 1 (reclaiming .quiesce 0) = false ∧
    (partIn (reclaiming .quiesce 0)).quiet 1 (reclaiming .quiesce 0) = true ∧ (0, region0) ∈ (partIn (reclaiming .quiesce 0)).regions ∧
    region0.part = 1 ∧ 0 ∈ setBits 16 region0.mask ∧ (partIn (reclaiming .quiesce 0)).stackOut 0 = false ∧
    region0.rowBase * 2 ^ 22 ≤ 0 ∧ 0x3FFFFF < (region0.rowBase + region0.size / ((setBits 16 region0.mask).length * 2 ^ 22)) * 2 ^ 22 ∧
    (partIn (reclaiming .scrubbed 0)).channelsOf 1 = [] ∧ (partIn part1).part 1 = some part1 ∧
    (handing 0).part 1 = some (reclaiming .carved 0) ∧ (handing 0).cmd mref = some (cmd0 (mgmtDesc 7 1 0)) ∧
    (cmd0 (mgmtDesc 7 1 0)).marks = {} ∧ (handing 0).fab.pod.locals = [] ∧ (reclaiming .carved 0).recipient = 0 ∧
    (handing 2).part 2 = some { part1 with cores := [3], regions := [] } ∧ (reclaiming .carved 2).recipient = 2 := by decide +kernel

/-! Runs. -/

/-- The smallest image with scoreboard operations: SET 1 of entry 5, WAIT 3 of entry 5, SET 0xFFFF, and the same at the junction. -/
def sbImage : Bytes := imgHead ++ imgLayer ++ (imgTile.take 8 ++ [6] ++ (imgTile.drop 9).take 11 ++ [0x60] ++ imgTile.drop 21) ++ imgLoop 1 1 1 ++
  imgLoop 256 256 2 ++ imgLoop 256 256 3 ++ imgGen 0 0 0 256 ++ imgGen 1 10 0 1 ++ imgGen 2 0 1 256 ++
  [2, 0, 0, 0, 5, 0, 1, 0, 1, 0, 0, 0, 5, 0, 3, 0, 2, 0, 0, 0, 5, 0, 0xFF, 0xFF] ++
  [2, 1, 0, 0, 5, 0, 1, 0, 1, 1, 0, 0, 5, 0, 3, 0, 1, 1, 0, 0, 5, 0, 4, 0] ++ repByte 72 0
def sbPart : Part := { part1 with progs := [(1, { addr := 0, size := 584, image := sbImage })], jsb := [(5, 3)], jsets := [{ idx := 5, value := 2 ^ 32 - 1 }] }
def sbWork (k : Nat) : Work := { layer := 0, prog := 0, sb := some k }
def sbCore (k n : Nat) : CoreRun := { newCore 0 0 [] 0 with todo := [sbWork k, { layer := 0, prog := 0 }], subs := [0], sb := [(5, n)] }
def sbRun (k n : Nat) : Run := { part := 1, prog := 1, layer := 0, last := 0, cmd := some ref0, cores := [sbCore k n] }
def sbDev (k n : Nat) : Dev := (parted.setParts [(1, sbPart)]).setRuns [(9, sbRun k n)]
/-- The operation at the head of the core's work, where every premise of the step holds. -/
def sbHead (k n : Nat) : Option SbD :=
  if (sbDev k n).runOn 0 = some (9, sbRun k n) ∧ (sbRun k n).coreAt 0 = some (sbCore k n) ∧ (sbDev k n).part 1 = some sbPart ∧
      ((sbDev k n).runProg (sbRun k n)).isSome ∧ ((sbRun k n).layers sbImage).all (fun i => !(parseLayer sbImage i).escalate) ∧
      kget (sbCore k n).sb 5 0 = n ∧ (sbRun k n).waits = false ∧
      ((sbDev k n).jobFor (sbRun k n) (sbCore k n) {} { layer := 0, prog := 0 }).all (fun j => j.awaits (sbCore k n)) then sbOf sbImage (sbWork k) else none

theorem wit_RunEventsAct : sbHead 0 7 = some { op := 2, scope := 0, sloop := 0, whn := 0, entry := 5, value := 1 } ∧
    sbHead 1 3 = some { op := 1, scope := 0, sloop := 0, whn := 0, entry := 5, value := 3 } ∧ (sbHead 1 2).isSome = true ∧
    sbHead 2 0 = some { op := 2, scope := 0, sloop := 0, whn := 0, entry := 5, value := 65535 } ∧ (sbHead 2 1).isSome = true ∧
    sbHead 3 0 = some { op := 2, scope := 1, sloop := 0, whn := 0, entry := 5, value := 1 } ∧
    sbHead 4 0 = some { op := 1, scope := 1, sloop := 0, whn := 0, entry := 5, value := 3 } ∧
    sbHead 5 0 = some { op := 1, scope := 1, sloop := 0, whn := 0, entry := 5, value := 4 } ∧
    junctionMet (kget sbPart.jsb 5 0) (instEpoch []) 3 = true ∧ junctionMet (kget sbPart.jsb 5 0) (instEpoch []) 4 = false ∧
    (sbDev 0 0).part 1 = some sbPart ∧ sbPart.jsets = [{ idx := 5, value := 2 ^ 32 - 1 }] ∧ parted.part 1 = some part1 ∧ part1.jsets = [] ∧
    junctionMet (2 ^ 31 - 1) 0 0 = true ∧ junctionMet (2 ^ 31) 0 0 = false ∧ junctionMet 5 (2 ^ 32 - 1) 6 = true ∧
    junctionMet 4 (2 ^ 32 - 1) 6 = false := by decide +kernel

/-- A run with work left, one without, of a GRAPH_RUN and of a pass. -/
def endRun (left : Bool) (cmd : Option CmdRef) : Run :=
  { part := 1, prog := 1, layer := 0, last := 0, cmd := cmd,
    cores := [{ newCore 0 0 [] 0 with todo := if left then [{ layer := 0, prog := 0 }] else [], done := !left }] }
def endDev (left : Bool) (cmd : Option CmdRef) : Dev := withCmd (loaded.setRuns [(9, endRun left cmd)]) 1 1 (runDesc 1 0 0)
theorem wit_RunsEnd : (endDev true (some ref0)).run 9 = some (endRun true (some ref0)) ∧ (endRun true none).ended = false ∧
    (∃ c ∈ (endRun true none).cores, c.todo ≠ []) ∧ (endDev false none).run 9 = some (endRun false none) ∧
    (∀ c ∈ (endRun false none).cores, c.todo = []) ∧ (∀ c ∈ (endRun false none).workers, c.done = true) ∧ (endRun false none).norms = [] ∧
    (endRun false none).allBad = false ∧ (endRun false none).stalled = false ∧
    ({ endRun true none with waits := true } : Run).stalled = true ∧
    (endDev false (some ref0)).cmd ref0 = some (cmd0 (runDesc 1 0 0)) ∧ (cmd0 (runDesc 1 0 0)).marks = {} ∧ (endRun true none).marks = {} ∧
    (endRun true none).norms = [] := by decide

/-- A core that has not subscribed to the tile of its next pass. -/
def subCore (subs : List Nat) : CoreRun := { newCore 0 0 (repByte 96 0) 0 with todo := [{ layer := 0, prog := 0, idx := [0, 0, 0] }], subs := subs }
def subRun (subs : List Nat) : Run := { part := 1, prog := 1, layer := 0, last := 0, cmd := some ref0, cores := [subCore subs] }
def subDev (subs : List Nat) (m : List Mcast) : Dev := (loaded.setRuns [(9, subRun subs)]).putJd 1 { mcast := m }
def tile0 (arrived : Bool) : Mcast := { part := 1, prog := 1, tile := 0, subs := if arrived then [] else [1], bytes := 11264, arrived := arrived }
theorem wit_MulticastDelivers : (subDev [3, 4] []).runOn 0 = some (9, subRun [3, 4]) ∧ (subRun [3, 4]).coreAt 0 = some (subCore [3, 4]) ∧
    2 ≤ (subCore [3, 4]).subs.length + (subCore [3, 4]).got.length ∧ (subDev [] [tile0 true]).runOn 0 = some (9, subRun []) ∧
    (subCore []).done = false ∧ ((subRun []).tilesAhead (subDev [] [tile0 true]) (subCore []) 1).map (·.1) = [0] ∧
    ((subDev [] [tile0 true]).jdFor (1 % 2)).1 = 1 ∧ tile0 true ∈ ((subDev [] [tile0 true]).jd 1).mcast ∧
    (∀ z ∈ ((subDev [] [tile0 false]).jd 1).mcast, z = tile0 false) ∧ (tile0 false).subs.Pairwise (· < ·) ∧
    (subRun []).waits = false ∧ ({ subRun [] with waits := true } : Run).waits = true ∧
    ({ subRun [] with opens := [(0, 1)] } : Run).lostTile 0 0 = true ∧ (subRun []).ended = false ∧
    1024 ≤ ((subDev [] (List.replicate 1024 { tile0 true with part := 2 })).jd 1).mcast.length := by decide +kernel

/-! Functions, registers, resets, management. -/

def enabled (x : Qp) : Dev := (up.modFn 0 (fun v => { v with en := true, ready := true, sqLog2 := 6, cqLog2 := 6, sqBase := 0x1000, cqBase := 0x2000 })).putQp 0 0 x
def runningPair : Qp := { pair with num := 0, cmds := [{ k := 0, desc := desc [], phase := .running }, { k := 1, desc := desc [] }], nextK := 2 }
theorem wit_FunctionEnable : up.fnLive 0 = true ∧ up.up = true ∧ (up.fn 0).en = false ∧ (up.fn 0).sqLog2 = 0 ∧
    (let v := { up.fn 0 with sqLog2 := 6, cqLog2 := 6, sqBase := 0x1000, cqBase := 0x2000 }
     (up.modFn 0 (fun _ => v)).fn 0 = v ∧ v.en = false ∧ v.sqLog2 ≠ 0 ∧ v.cqLog2 ≠ 0 ∧ v.sqBase ≠ 0 ∧ v.cqBase ≠ 0) ∧
    (enabled runningPair).fnLive 0 = true ∧ (enabled runningPair).up = true ∧ ((enabled runningPair).fn 0).en = true ∧
    (enabled runningPair).qp 0 0 = some runningPair ∧ (∃ c ∈ runningPair.cmds, c.phase = .running) ∧
    (enabled pair).qp 0 0 = some pair ∧ (∀ c ∈ pair.cmds, c.phase ≠ .running) ∧ up.fnThere 17 = false ∧ up.fnThere 16 = true ∧
    ((dmas chan).dma 127).owner = 1 ∧ (1 : Nat) ≠ 0x1F ∧ (dmas chan).fnThere 1 = true ∧ ((dmas chan).dma 0).owner ≠ 1 := by decide

theorem wit_RegisterWrites : up.fnLive 0 = true ∧ up.fnLive 16 = true ∧ ¬ (4 = 4 ∧ 2 % 4 = 0) ∧ ¬ (4 = 8 ∧ 4 % 8 = 0) ∧ 0x10000 % 4 = 0 ∧
    (enabled pair).fnLive 0 = true ∧ ((enabled pair).fn 0).en = true ∧ (up.fn 0).en = false ∧ (up.fn 0).sqBase < 2 ^ 64 ∧
    (∀ n, kfind (up.fn 0).lowHeld 0x10 = some n → n < 2 ^ 32) ∧ 1 ≤ 50 ∧ 50 < 51 ∧
    (let d := up.modFn 0 (fun v => { v with sch := { v.sch with staged := [0x100001, 0, 0] } })
     let l := bucketsOf ((d.fn 0).sch.staged ++ [0])
     d.fnLive 0 = true ∧ l.length = 8 ∧ l.getD 0 0 = 1 ∧ l.getD 1 0 = 16 ∧ l.getD 2 0 = 0) ∧
    (let d := up.modFn 0 (fun v => { v with sch := { v.sch with staged := [0x10001, 0, 0] } })
     let l := bucketsOf ((d.fn 0).sch.staged ++ [0])
     d.fnLive 0 = true ∧ l.length = 8 ∧ l.getD 0 0 = 1 ∧ l.getD 1 0 = 1) := by
  refine ⟨?_, ?_, ?_, ?_, ?_, ?_, ?_, ?_, ?_, ?_, ?_, ?_, ?_, ?_⟩
  case refine_10 => intro n h; cases h
  all_goals decide

def powered : Dev := up.setMod { up.mod with hsEn := true, converter := true }
theorem wit_InputPower : powered.mod.hsEn = true ∧ powered.mod.breaker = false ∧ powered.mod.overvolt = false ∧ (powered.setMod { powered.mod with hsEn := false }).mod.hsEn = false ∧
    (powered.setMod { powered.mod with breaker := true }).mod.breaker = true ∧ (powered.setMod { powered.mod with overvolt := true }).mod.overvolt = true ∧
    4200 ≤ 4200 ∧ 4199 < 4200 ∧ 6200 ≤ 6200 ∧ 6200 < 6201 ∧
    (powered.setMod { powered.mod with breaker := true, breakerFree := true }).mod.breakerFree = true := by decide

def held : Dev := powered.setMod { powered.mod with mrstLow := true }
theorem wit_ResetsBringUp : powered.mod.converter = true ∧ powered.mod.mrstLow = false ∧ held.mod.converter = true ∧ held.mod.mrstLow = true ∧
    (∃ t, exec .mrstLow (st powered) = .next t ∧ t.dev.mod.converter = true) ∧ (65535 : Nat) < 65536 ∧ 0 ≠ 0xA55A ∧
    powered.flash.choose.1 = 0 ∧ powered.flash.recordUsed = some 0 ∧ (powered.flash.record 0).used = true :=
  ⟨by decide, by decide, by decide, by decide, ⟨_, rfl, by decide⟩, by decide, by decide, by decide, by decide, by decide⟩
theorem wit_ResetsBringUp_good : [1, 3, 5].all (fun t => match (powered.flash.slot 0).image t, (powered.flash.record 0).image 2 with
      | some i, some r => i.signed [] && i.fresh powered.flash (confOf r.body).floors && r.signed [] &&
          r.fresh powered.flash (confOf r.body).floors && field r.body 0 2 == 0xB0
      | _, _ => false) = true ∧
    (List.range 16).all (fun k => match (powered.flash.slot 0).microcode k with
      | some i => i.signed (powered.flash.slot 0).manifest && i.fresh powered.flash []
      | none => false) = true := by decide

def recovering : Dev := powered.setTrust { powered.trust with step := 2, recovery := true }
theorem wit_LinkAndManagement : (withCmd powered 1 1 (desc [])).qp 1 1 = some { pair with cmds := [cmd0 (desc [])], nextK := 1 } ∧
    4 ≤ up.trust.step ∧ up.trust.recovery = false ∧ recovering.trust.recovery = true ∧ (up.setTrust { up.trust with step := 3 }).trust.step < 4 ∧
    (up.setMod { up.mod with perst := false }).mod.perst = false ∧ (up.setMod { up.mod with perst := true }).mod.perst = true ∧ powered.mod.converter = true ∧ (up.setMod { up.mod with converter := false }).mod.converter = false ∧
    recovering.mod.converter = true ∧ powered.trust.recovery = false := by decide

/-! Images, attestation, faults and fences. The signature checks are opaque (log 7): where a clause needs one to pass, the
witness takes that as its hypothesis, for the one image named. -/

/-- An image of a record or of another type: its block of 3,584 bytes, its body. -/
def imgBytes (type body : Nat) : Bytes := put 3584 [(0, 4, 0x4E474953), (4, 2, type), (0x10, 8, body)] ++ leBytes 2 0xB0 ++ repByte (body - 2) 0
def imgOf (type body : Nat) : Img := { block := put 3584 [(0, 4, 0x4E474953), (4, 2, type), (0x10, 8, body)], body := leBytes 2 0xB0 ++ repByte (body - 2) 0 }
def fwDesc (op n target : Nat) : Bytes := desc [(0, 1, op), (0x10, 8, n), (0x18, 1, target)]
def upd (d : Dev) (op n target len : Nat) : Bool :=
  let b := fwDesc op n target
  ready (withCmd d 0 0 b) mref op (cmd0 b) && hdrOk b 0 [(8, len)]

theorem parse_imgBytes : (parseImg (imgBytes 2 128) == some (imgOf 2 128, []) && parseImg (imgBytes 4 2) == some (imgOf 4 2, []) &&
    parseImg (imgBytes 6 2) == some (imgOf 6 2, [])) = true := by decide +kernel
theorem wit_ImagesUpdate : upd up 0x10 67108864 1 17 = true ∧ upd up 0x10 64 0 17 = true ∧ up.setOutcome (List.take 64 []) ≠ 0 ∧
    up.recordOutcome [] ≠ 0 ∧
    (let b := mgmtDesc 0x11 1 0
     ready (withCmd up 0 0 b) mref 0x11 (cmd0 b) = true ∧ hdrOk b 0 [(8, 1)] = true ∧ byteAt b 8 = 1 ∧ (up.flash.slot 1).valid = false ∧
     (up.flash.slot 0).valid = true) ∧
    upd up 0x12 3586 2 18 = true ∧ parseImg (List.take 3586 []) = none ∧ setBits 16 (field (fwDesc 0x12 3586 2) 0x18 2) = [1] ∧
    up.skilletInUse 1 = false ∧ (up.skillet 1).microcodeBad = false ∧ parted.skilletInUse 0 = true ∧
    up.trust.trial = false ∧ (up.setTrust { up.trust with trial := true }).trust.trial = true ∧ up.trust.step = 13 := by decide +kernel
theorem wit_ImagesUpdate_passes (h2 : (imgOf 2 128).signed up.manifest = true) (h4 : (imgOf 4 2).signed up.manifest = true) :
    up.recordOutcome ((imgBytes 2 128).take 3712) = 0 ∧ parseImg ((imgBytes 4 2).take 3586) = some (imgOf 4 2, []) ∧
    (imgOf 4 2).signed up.manifest = true ∧ (imgOf 4 2).fresh up.flash up.conf.floors = true ∧ (imgOf 4 2).type = 4 ∧
    (imgOf 4 2).ft = up.trust.ftLevel := by
  have h := parse_imgBytes
  simp only [Bool.and_eq_true, beq_iff_eq] at h
  have e : (imgBytes 2 128).take 3712 = imgBytes 2 128 := by decide +kernel
  have e4 : (imgBytes 4 2).take 3586 = imgBytes 4 2 := by decide +kernel
  have k : ((imgOf 2 128).type != 2 || field (imgOf 2 128).body 0 2 == 0x00B0) = true ∧ (imgOf 2 128).fresh up.flash up.conf.floors = true ∧
    (imgOf 2 128).type = 2 := by decide +kernel
  refine ⟨?_, by rw [e4]; exact h.1.2, h4, by decide +kernel, by decide +kernel, by decide +kernel⟩
  rw [e, Dev.recordOutcome, h.1.1]
  simp only [h2, k.2.1, k.2.2]
  rfl

/-- Recovery mode, with a whole recovery image staged. -/
def recStaged : Dev := recovering.setTrust { recovering.trust with recStaged := imgBytes 6 2 }
theorem wit_ImagesUpdate_chunks : recovering.mod.converter = true ∧ recovering.trust.recovery = true ∧ recovering.trust.imageRunning = false ∧
    powered.mod.converter = true ∧ powered.trust.recovery = false ∧ 240 < (repByte 241 0).length ∧ 67108864 < 67108864 + (repByte 1 0).length ∧
    1 ≤ (repByte 240 0).length ∧ (repByte 240 0).length ≤ 240 ∧ 67108624 + (repByte 240 0).length ≤ 67108864 ∧
    powered.trust.staged.length < 1 ∧ (0 : Nat) ≤ powered.trust.staged.length ∧
    (powered.setTrust { powered.trust with staged := repByte 4 0 }).trust.staged.length = 4 ∧
    4194304 < 4194304 + (repByte 1 0).length ∧ 4194064 + (repByte 240 0).length ≤ 4194304 ∧ recovering.trust.recStaged.length < 1 ∧
    3586 ≤ recStaged.trust.recStaged.length ∧ (imgOf 6 2).type = 6 ∧ (imgOf 6 2).fresh recStaged.flash recStaged.conf.floors = true := by
  decide +kernel
theorem wit_ImagesUpdate_recovery (h : (imgOf 6 2).signed recStaged.manifest = true) :
    parseImg (recStaged.trust.recStaged.take 3586) = some (imgOf 6 2, []) ∧ (imgOf 6 2).signed recStaged.manifest = true := by
  have h' := parse_imgBytes
  simp only [Bool.and_eq_true, beq_iff_eq] at h'
  have e : recStaged.trust.recStaged.take 3586 = imgBytes 6 2 := by decide +kernel
  exact ⟨by rw [e]; exact h'.2, h⟩

theorem wit_Attestation : upd up 0x13 0x9000 0 16 = true ∧ (repByte 32 0).length = 32 ∧ (up.modSkillet 15 (fun x => { x with fenced := true })).skillet 15 =
      { up.skillet 15 with fenced := true } ∧
    (let b := desc [(0, 1, 0x14), (8, 1, 1), (0x10, 8, 0x9000), (0x18, 4, 65536)]
     ready (withCmd up 0 0 b) mref 0x14 (cmd0 b) = true ∧ hdrOk b 0 [(8, 1), (0x10, 12)] = true ∧ byteAt b 8 ≤ 1 ∧ field b 0x18 4 ≤ 65536) ∧
    (up.setTrust { up.trust with step := 5 }).trust.step < 6 ∧ recovering.trust.recovery = true ∧ 6 ≤ up.trust.step ∧ up.trust.recovery = false ∧
    up.trust.spdm.length = 2 ∧ (up.setTrust { up.trust with spdm := [1, 2] }).spdmAt 0 = 1 ∧
    (up.setTrust { up.trust with spdm := [1, 2] }).spdmAt 1 = 2 := by decide

def coreAt (x : Core) : Dev := up.putCore 127 x
theorem wit_CoreFaults : 127 = 8 * 15 + 7 ∧ (up.core 127).fenced = false ∧ (up.core 127).retired = false ∧ (up.core 127).lastFault = none ∧
    ((coreAt { lastFault := some 0 }).core 127).lastFault = some 0 ∧ (coreAt { lastFault := some 0 }).aoOf 15 ≤ 0 + 180000000000 ∧
    ((coreAt { lastFault := some 0 }).setAo [(15, 180000000001)]).aoOf 15 = 180000000001 ∧
    (parted.setRuns [(9, runOnCore)]).coreOwner 0 = some 1 ∧ runOnCore.onCore 0 = true ∧ runOnCore.ended = false ∧
    (coreAt { clk := .warm }).coreIdle 127 = true ∧ ((coreAt { clk := .warm }).core 127).clk = .warm ∧ up.pwr.idleCool < up.pwr.idleCold ∧
    ((coreAt { clk := .cool }).core 127).clk = .cool ∧ (coreAt { clk := .cool }).coreIdle 127 = true ∧
    (parted.setRuns [(9, runOnCore)]).coreIdle 0 = false ∧ up.coreFenced 127 = false ∧
    ((coreAt { retired := true }).core 127).retired = true := by decide

theorem wit_FencesAct : (up.skillet 15).fenced = false ∧ runOnCore.onSkillet 0 = true ∧ (up.cport 3).fenced = false ∧ (up.port 6).fenced = false ∧
    (up.port 7).fenced = false ∧ 3 ∉ up.saf.iodFenced ∧ up.saf.safeStop = false ∧
    (up.setSaf { up.saf with safeStop := true }).saf.safeStop = true ∧ (up.jd 0).fenced = false ∧ (up.jd (1 - 0)).fenced = false ∧
    ((up.putJd 1 { fenced := true }).jd 1).fenced = true ∧ ((up.putJd 1 { fenced := true }).jd (1 - 1)).fenced = false := by decide

theorem wit_SelfTests : ((coreAt { fenced := true }).core 127).fenced = true ∧
    (let d := (up.modSkillet 15 (fun x => { x with fenced := true, ctlFenced := true, engineFenced := true })).setSaf { up.saf with dramBad := [15] }
     (d.skillet 15).fenced = true ∧ (d.skillet 15).microcodeBad = false ∧ 15 ∈ d.saf.dramBad ∧ (d.skillet 15).ctlFenced = true ∧
     (d.skillet 15).engineFenced = true) ∧
    3 ∈ (up.setSaf { up.saf with iodFenced := [3] }).saf.iodFenced ∧ ((up.putCport 3 { up.cport 3 with fenced := true }).cport 3).fenced = true ∧
    (up.putPort 7 { up.port 7 with fenced := true }).port 7 = { up.port 7 with fenced := true } ∧
    up.testStarts 127 = true ∧ (parted.setRuns [(9, runOnCore)]).testStarts 0 = false ∧ ((coreAt { testing := true }).core 127).testing = true ∧
    (up.core 127).testing = false ∧ (up.core 127).overdue = false ∧ ((coreAt { overdue := true }).core 127).overdue = true := by decide

/-! Stacks, the crock, tiers. -/

def stackOf (x : Stack) : Dev := up.putStack 15 x
theorem wit_StackService : up.stackOut 15 = false ∧ ((stackOf { poison := [{ addr := 0, log2 := 6 }] }).stack 15).bad (64 * 0) = true ∧
    64 * (30720 * 65536 - 1) / 4194304 < 30720 ∧
    (up.stack 15).moved (up.mapOfRow 15 (64 * (30720 * 65536 - 1) / 4194304)).2 (64 * (30720 * 65536 - 1)) = false ∧
    up.patrolled 15 (64 * (30720 * 65536 - 1)) = some (64 * (30720 * 65536 - 1)) ∧ (up.stack 15).bad (64 * (30720 * 65536 - 1)) = false ∧
    up.patrolled 15 (64 * (30720 * 65536)) = none ∧ (64 * (30720 * 65536 - 1)) % 64 = 0 ∧
    ((stackOf { repaired := some 31 }).patrolled 15 (64 * (30720 * 65536))).isSome = true ∧
    (up.stack 15).poison.length < 4096 ∧ (up.stack 15).retrain = none ∧ ((stackOf { queued := some 63 }).stack 15).queued = some 63 ∧
    (kget (up.stack 15).trained 63 (0, 0)).1 + 50000000 ≤ (up.setAo [(15, 50000000)]).aoOf 15 ∧ up.trainDue 15 63 = false ∧
    ((stackOf { temp := 81 }).trainDue 15 63) = true ∧
    some 30 ≠ some (63 / 2) ∧ ((stackOf { retrain := some 63 }).stack 15).retrain = some 63 ∧
    ((stackOf { retrain := some 63 }).stack 15).retrainTries = 0 ∧
    ((stackOf { retrain := some 63, retrainTries := 1 }).stack 15).repaired = none ∧
    ((stackOf { retrain := some 63, retrainTries := 1, repaired := some 0 }).stack 15).repaired = some 0 ∧ 0 ≠ 63 / 2 ∧
    (stackOf { retrain := some 63, retrainTries := 1, repaired := some 0 }).stackOut 15 = false ∧ ((up.stack 15).due 31) = false ∧
    ((stackOf { marked := [31] }).stack 15).due 31 = true ∧ ((stackOf { marked := [31], repaired := some 0 }).stack 15).due 31 = true ∧
    ((stackOf { badRows := [(62, 0, 0, 5), (62, 0, 1, 5), (63, 0, 0, 5), (63, 1, 0, 5)] }).stack 15).due 31 = true ∧
    ((stackOf { badRows := [(62, 0, 0, 5), (62, 0, 1, 5), (63, 0, 0, 5), (63, 0, 0, 6)] }).stack 15).due 31 = false ∧
    (∀ e ∈ ((stackOf { repairing := true, repaired := some 31, poison := [{ addr := 64, log2 := 6 }] }).stack 15).poison, e.addr % 64 = 0) ∧
    ((stackOf { repairing := true, repaired := some 31, poison := [{ addr := 64, log2 := 6 }] }).stack 15).bad 64 = true ∧
    up.regsLive = true ∧ (up.stack 15).queued = none ∧ ((stackOf { queued := some 1 }).stack 15).queued ≠ none ∧
    (stackOf { queued := some 1 }).regsLive = true := by decide

def crockOf (n : Nat) : Dev := up.setCrock { up.crock with present := true, capGib := 128, ports := List.replicate 4 { st := n } }
theorem wit_CrockPorts : up.crock.present = false ∧ up.crock.asked = false ∧ 7 ≤ up.trust.step ∧
    (∀ k, k < 4 → (up.cport k).fenced = false ∧ crockLinkOk (([(8, 5)] : List (Nat × Nat)).getD k (16, 6)).1 (([(8, 5)] : List (Nat × Nat)).getD k (16, 6)).2 = true) ∧
    0 ∈ [128, 0, 128, 512] ∧
    128 ∈ [128, 256, 128, 512] ∧ (∀ x ∈ [128, 256, 128, 512], 128 ≤ x) ∧ (∀ x ∈ [128, 256, 128, 512], x ≠ 0) ∧ (crockOf 2).crock.present = true ∧
    ((crockOf 2).cport 3).st = 2 ∧ ((crockOf 1).cport 3).st ≠ 2 ∧ ((crockOf 1).cport 3).st = 1 ∧ ((crockOf 1).cport 3).fenced = false ∧
    bit 8 3 = true ∧ bit 8 2 = false ∧ (crockOf 1).regsLive = true ∧
    (withCmd up 1 1 fenceDesc).cmd ⟨1, 1, 1⟩ = none ∧
    (up.putQp 1 1 fencedPair).cmd ref0 = some { k := 0, desc := desc [(0, 1, 0x28)], phase := .running } ∧
    (withCmd up 1 1 fenceDesc).cmd ⟨1, 1, 0⟩ = some (cmd0 fenceDesc) ∧ (cmd0 fenceDesc).phase = .waiting ∧
    kget [(5, PageSt.moving 3 4 true 511)] 5 .zero = PageSt.moving 3 4 true 511 := by decide

/-- Partition 1 with 16 tier frames (from 0x400000 of region 0's stack) and one page. -/
def tierPart (l : List (Nat × PageSt)) (frames cframes : List Nat) (hints demote : List Nat) : Part :=
  { part1 with tier := { f := 16, c := 16, base := 0x40000000, pages := 24, region := 2, page := l, frames := frames, cframes := cframes,
                         hints := hints, demote := demote } }
def tierDev (l : List (Nat × PageSt)) (frames cframes hints demote : List Nat) : Dev :=
  ((crockOf 2).setParts [(1, tierPart l frames cframes hints demote)]).setRegions
    [(2, { part := 1, base := 0x80000000, size := 0x2400000, mask := 1, rowBase := 1, sector := false, kind := 2 })]
theorem wit_TierMoves : (tierDev [(7, .moving 3 4 true 511)] [] [] [] []).tierBusy = true ∧ (∀ i, i < 4 → (tierDev [] [] [] [] []).cupShut 1 (36 + i) = false) ∧
    (tierPart [(7, .moving 3 4 true 511), (8, .crock 9)] [] [] [] []).tier.st 8 = .crock 9 ∧
    (tierDev [(7, .crock 4)] [3] [] [7] []).tierBusy = false ∧ (tierDev [(7, .stack 3)] [] [4] [] [7]).tierBusy = false ∧ (tierPart [(7, .crock 4)] [3] [] [7] []).tier.st 7 = .crock 4 ∧
    7 ∈ (tierPart [(7, .crock 4)] [3] [] [7] []).tier.hints ∧ (tierPart [(7, .crock 4)] [3] [] [7] []).tier.frames = [3] ∧
    (tierPart [(7, .crock 4)] [] [] [7] []).tier.frames = [] ∧ 7 ∉ (tierPart [(7, .crock 4)] [3] [] [] []).tier.twice ∧
    (tierPart [(7, .stack 3)] [] [4] [] [7]).tier.cframes = [4] ∧ (tierPart [(7, .stack 3)] [] [4] [] [7]).tier.demote = [7] ∧
    (tierPart [(7, .stack 3)] [] [4] [] [7]).tier.st 7 = .stack 3 ∧
    (tierDev [(7, .stack 3)] [] [4] [] [7]).demotable (tierPart [(7, .stack 3)] [] [4] [] [7]).tier 7 3 = true ∧
    8 ≤ (tierPart [] (List.range 8) [] [] []).tier.frames.length ∧ (tierPart [] (List.range 8) [] [] []).tier.demote = [] ∧
    (tierDev [] [] [] [] []).crockUp = true ∧ (tierPart [(7, .moving 3 4 false 510)] [] [] [] []).tier.st 7 = .moving 3 4 false 510 ∧
    (tierPart [(7, .moving 3 4 false 511)] [] [] [] []).tier.st 7 = .moving 3 4 false 511 ∧
    (tierPart [(7, .moving 3 4 true 0)] [] [] [] []).tier.st 7 = .moving 3 4 true 0 := by decide +kernel
theorem wit_TierMoves_demotes :
    ((tierDev [(7, .moving 3 4 false 511)] [] [] [] []).frameBytes (tierPart [(7, .moving 3 4 false 511)] [] [] [] []).tier 3 (4096 * 511) 4096).2 = true := by
  decide +kernel
theorem wit_TierMoves_promotes :
    (let d := tierDev [(7, .moving 3 4 true 511)] [] [] [] []
     ((d.chargeChunk 1 (tierPart [(7, .moving 3 4 true 511)] [] [] [] []).tier 3 (4096 * 511)).putFrame 1
       (tierPart [(7, .moving 3 4 true 511)] [] [] [] []).tier 3 (4096 * 511)
       (crockGet d.mem (4 * 2097152 + 4096 * 511) 4096)).1.clear) = true := by decide +kernel

/-! The fabric and the pod. -/

def portOf (x : Port) : Dev := up.putPort 7 x
/-- A flit with its LCRC: control (type 0) or data (type 1) with link sequence number `seq`. -/
def flitOf (ftype seq : Nat) : Bytes := ({} : Port).frame ftype seq []
theorem wit_FabricLink_checks : [flitOf 0 0, flitOf 1 5].all (fun f => field (padTo 256 f) 0xFC 4 == lcrc ((padTo 256 f).take 0xFC)) = true ∧
    (field (padTo 256 []) 0xFC 4 == lcrc ((padTo 256 []).take 0xFC)) = false ∧ byteAt (padTo 256 (flitOf 0 0)) 1 / 16 = 0 ∧
    byteAt (padTo 256 (flitOf 1 5)) 1 / 16 = 1 ∧ field (padTo 256 (flitOf 1 5)) 0 2 % 4096 = 5 := by decide +kernel
theorem wit_FabricLink : (up.port 7).st ≠ 2 ∧ ((portOf { st := 2, expect := 5 }).port 7).st = 2 ∧ ((portOf { st := 2, expect := 5 }).port 7).expect = 5 ∧
    ((portOf { st := 2 }).port 7).waiting = [] ∧ ahead 12 5 6 = false ∧
    ((portOf { st := 2, nakSent := true }).port 7).nakSent = true ∧ 5 ≠ ((portOf { st := 2 }).port 7).expect ∧
    ((portOf { st := 2, replay := [[0, 0], [1, 0], [2, 0]] }).port 7).replay = [[0, 0]] ++ [1, 0] :: [[2, 0]] ∧
    seqOf [1, 0] = field (put 256 [(2, 2, 1)]) 2 2 % 4096 ∧ seqOf [0, 0] ≠ seqOf [1, 0] ∧
    ((portOf { st := 2, replay := [[0, 0]], replays := 6 }).port 7).replays < 7 ∧ 7 ≤ ((portOf { st := 2, replays := 7 }).port 7).replays ∧
    ((portOf { st := 1, fails := 1 }).port 7).fails < 2 ∧ 2 ≤ ((portOf { st := 1, fails := 2 }).port 7).fails ∧
    ((portOf { st := 1 }).port 7).fenced = false ∧ ((portOf { st := 1, fenced := true }).port 7).fenced = true ∧ up.regsLive = true ∧
    (up.setConf { up.conf with rflags := 1 }).injLive = true ∧ up.injLive = false := by decide

/-- A transport part of one flit, from module 5. -/
def partOf (op id win woff job : Nat) (l : Bytes) : Bytes :=
  put 244 ([(1, 1, 5), (2, 1, opClass op + 12 + 16 * op), (3, 1, l.length - 1), (4, 4, id), (0xA, 2, win), (0xC, 6, woff), (0x12, 2, job)] ++
    l.zipIdx.map (fun e => (0x14 + e.2, 1, e.1.toNat)))
def window3 : Window := { base := 0x1000, size := 0x100, part := 1, read := true, write := true, signal := true, job := 9 }
def fabOf (l : List Bytes) : Fab := { ({} : Fab) with srcs := [(5, { flits := l })], wins := [(3, window3)] }
def hearing (b : Bytes) : Dev := parted.setFab (fabOf [b])
/-- The part is the message, and what it says. -/
def heard (op : Nat) (b : Bytes) : Bool := (hearing b).arrived 5 7 op == some [b] && kget (hearing b).fab.wins (tpWindow b) {} == window3
def pass3 (op : Nat) (b : Bytes) : Bool := window3.passes op (tpJob b) (tpWoff b) (msgData [b]).1.length
def readPart (woff job : Nat) : Bytes := partOf 1 7 3 woff job (leBytes 4 64 ++ leBytes 4 2)
theorem wit_FabricMessages : up.arrived 5 7 0 = none ∧ heard 0 (partOf 0 7 3 0xFF 9 [1]) = true ∧ pass3 0 (partOf 0 7 3 0xFF 9 [1]) = true ∧
    heard 0 (partOf 0 7 3 0xFF 9 [1, 2]) = true ∧ pass3 0 (partOf 0 7 3 0xFF 9 [1, 2]) = false ∧
    heard 3 (partOf 3 7 3 0xF8 9 (repByte 8 1)) = true ∧ pass3 3 (partOf 3 7 3 0xF8 9 (repByte 8 1)) = true ∧
    heard 3 (partOf 3 7 3 0xF8 8 (repByte 8 1)) = true ∧ pass3 3 (partOf 3 7 3 0xF8 8 (repByte 8 1)) = false ∧
    (∀ e ∈ (hearing []).ctxs, e.2.cstate = 4 → e.2.block ≠ 1) ∧
    heard 1 (readPart 0xC0 9) = true ∧ window3.passes 1 (tpJob (readPart 0xC0 9)) (tpWoff (readPart 0xC0 9)) (readLen (msgData [readPart 0xC0 9]).1) = true ∧
    heard 1 (readPart 0xC1 9) = true ∧ window3.passes 1 (tpJob (readPart 0xC1 9)) (tpWoff (readPart 0xC1 9)) (readLen (msgData [readPart 0xC1 9]).1) = false ∧
    heard 2 (partOf 2 7 3 0x20000 9 [1, 2]) = true ∧ (∀ z ∈ (hearing []).fab.tags, z.tag ≠ tpWoff (partOf 2 7 3 0x20000 9 [1, 2]) / 65536) := by
  decide +kernel
def tagged (l : List ReadTag) : Fab := { fabOf [partOf 2 7 3 0x20000 9 [1, 2]] with tags := l }
theorem wit_FabricMessages_settings :
    ((parted.setFab (tagged [{ tag := 2, dst := 5, msg := 0, part := 1, addr := 0x100, len := 2 }])).fab.tags.find? (fun t => t.tag == 2)) =
      some { tag := 2, dst := 5, msg := 0, part := 1, addr := 0x100, len := 2 } ∧ 2 ≤ 0 + (msgData [partOf 2 7 3 0x20000 9 [1, 2]]).1.length ∧
    window3.passes 0 9 0xFF 1 = true ∧ window3.passes 1 9 0 0x100 = true ∧ window3.passes 3 9 0x100 0 = true ∧
    (hearing []).regsLive = true ∧ 1023 < 1024 ∧ 0 % 32 = 0 ∧ (hearing []).part (1 % 32) = some part1 ∧ 1 % 32 ≠ 0 ∧
    (let d := (hearing []).setParts [(1, { part1 with job := 9 })]
     d.part 1 = some { part1 with job := 9 } ∧ (kget d.fab.wins 3 {}).size ≠ 0 ∧
       d.ownedRange (1 % 32) (kget d.fab.wins 3 {}).base (kget d.fab.wins 3 {}).size = true) ∧ part1.job = 0 := by decide +kernel

def sentMsg (x : Nat) (r : Option CmdRef) (sent : Bool) : Msg :=
  { dst := 5, id := 4, op := 0, window := 0, woff := 0, job := 0, data := [1], expiries := x, cmd := r, sent := sent }
def failing (b : Bytes) (m : Msg) : Dev := (up.putQp 1 1 { fencedPair with cmds := [{ k := 0, desc := desc [], phase := .running, await := [(5, 4), (6, 0)] }] }).setFab
  { fabOf [b] with msgs := [m], dests := [(6, { unreachable := true })] }
def ackPart : Bytes := partOf 4 7 0 0 0 (leBytes 4 4)
def refusePart : Bytes := partOf 5 7 0 0 0 (leBytes 4 4 ++ leBytes 4 2)
theorem wit_FabricFailures : up.arrived 5 7 4 = none ∧ (failing ackPart (sentMsg 0 none true)).arrived 5 7 4 = some [ackPart] ∧
    (tpPayload ackPart).length = 4 ∧ field (tpPayload ackPart) 0 4 = 4 ∧
    (failing ackPart (sentMsg 0 none true)).fab.msgs.find? (fun m => m.dst == 5 && m.id == 4) = some (sentMsg 0 none true) ∧
    (failing refusePart (sentMsg 0 (some ref0) true)).arrived 5 7 5 = some [refusePart] ∧ field (tpPayload refusePart) 0 4 = 4 ∧
    (failing refusePart (sentMsg 0 (some ref0) true)).cmd ref0 = some { k := 0, desc := desc [], phase := .running, await := [(5, 4), (6, 0)] } ∧
    (failing refusePart (sentMsg 0 (some ref0) true)).fab.tags = [] ∧ up.fab.msgs.find? (fun m => m.dst == 5 && m.id == 4) = none ∧
    (sentMsg 0 none false).sent = false ∧ (sentMsg 2 none true).expiries < 3 ∧ 3 ≤ (sentMsg 3 none true).expiries ∧
    (tagged [{ tag := 2, dst := 5, msg := 0, part := 1, addr := 0x100, len := 2 }]).tags.find? (fun t => t.tag == 2) =
      some { tag := 2, dst := 5, msg := 0, part := 1, addr := 0x100, len := 2 } ∧
    ((failing ackPart (sentMsg 0 none true)).dest 6).unreachable = true ∧ (up.dest 6).unreachable = false := by decide +kernel

def podOf (x : Pod) : Dev := parted.setPod x
def podReq (rc : Bool) : PodReq := { reclaim := rc, job := 9, want := 1, spec := [], result := 0x8000, slot := 0, todo := [5] }
def freeBeat : Beat :=
  { freeCores := List.range 128, freeRows := List.replicate 16 31744, freeRecords := 1048576, freeQuota := 4096, freeCrock := 0,
    inService := 128, jobs := [] }
def managing : Pod := { acting := true, base := 0x7000, log2 := 4, tail := 1, beats := [(5, freeBeat)] }
def entryOf (op n job : Nat) : Bytes := put 64 [(0, 1, op), (1, 1, n), (2, 2, job)]
/-- An ADMIT of one module that prefers module 5. -/
def preferring : Bytes := put 64 [(0, 1, 1), (1, 1, 1), (0x10, 8, 0x100)]
theorem wit_PodRing : up.fab.pod.acting = false ∧ (podOf { managing with err := true }).fab.pod.err = true ∧ (podOf managing).regsLive = true ∧
    15 < 2 ^ (podOf managing).fab.pod.log2 ∧ 2 ^ (podOf managing).fab.pod.log2 ≤ 16 ∧ 16 ≠ (podOf managing).fab.pod.tail ∧
    (podOf managing).fab.pod.req = none ∧ (podOf { managing with req := some (podReq true) }).fab.pod.req = some (podReq true) ∧
    up.podReady = false ∧ (podOf managing).podReady = true ∧ podEntryOk (padTo 64 (entryOf 3 0 0)) = false ∧
    byteAt (padTo 64 (entryOf 3 0 0)) 0 ≠ 2 ∧ podEntryOk (padTo 64 (entryOf 1 1 0)) = true ∧ byteAt (padTo 64 (entryOf 1 1 0)) 1 ≠ 0 ∧
    specOk (padTo 512 (specBytes 2)) = true ∧ specOk (padTo 512 (specBytes 1048576)) = true ∧
    podEntryOk (padTo 64 (entryOf 2 0 9)) = true ∧ kfind (podOf managing).fab.pod.jobs 9 = none ∧
    kfind (podOf { managing with jobs := [(9, [(5, 3)])] }).fab.pod.jobs (field (padTo 64 (entryOf 2 0 9)) 2 2) = some [(5, 3)] ∧
    5 ≠ (podOf managing).conf.module ∧ ((podOf managing).dest 5).unreachable = false ∧ 5 ∉ (podOf managing).fab.pod.lostMods ∧
    (podReq true).todo = [5] ∧ (podReq true).reclaim = true := by decide +kernel
theorem wit_PodRing_candidates : podEntryOk (padTo 64 preferring) = true ∧ field (padTo 64 preferring) 0x10 8 ≠ 0 ∧
    (podOf managing).candidates (parseSpec (padTo 512 (specBytes 2))) (field (put 32 [(0, 1, 32)]) 0 32) = [5, 0] ∧
    (podOf { managing with beats := [] }).candidates (parseSpec (padTo 512 (specBytes 1048576))) (field [] 0 32) = [] := by decide +kernel

def beat5 : Beat := { freeCores := [], freeRows := [], freeRecords := 0, freeQuota := 0, freeCrock := 0, inService := 0, jobs := [(3, 9)] }
def mgmtPart : Bytes := partOf 6 7 0 0 0 [1]
def podHears (x : Pod) : Dev := up.setFab { fabOf [mgmtPart] with pod := x }
def enrols (b : Bytes) : Option Nat :=
  let d := ((podHears managing).commitMsg 5 7).sayAck 5 7
  match d.freeVf with
  | some p => if p = 1 then (match d.admitPart 1 (padTo 512 b) 9 with | .inl e => if (e.dest 5).unreachable then some 1 else none | .inr st => some st) else some 2
  | none => some 3
theorem wit_PodMessages : ({} : Dev).up = false ∧ up.up = true ∧ up.fab.pod.acting = false ∧ (up.dest up.manager).unreachable = false ∧
    (podHears managing).up = true ∧ (podHears managing).fab.pod.acting = true ∧ up.arrived 5 7 6 = none ∧ (podHears managing).arrived 5 7 6 ≠ none ∧
    beat5.jobs = [(3, 9)] ∧ (podHears managing).fab.pod.owed = [] ∧ kget (podHears managing).fab.pod.jobs 9 [] = [] ∧
    enrols (specBytes 2) = none ∧ enrols (specBytes 0) = some stInvalidField ∧
    (podHears { managing with req := some (podReq true), jobs := [(9, [(5, 3)])] }).fab.pod.vfOf 9 5 ≠ 0 ∧
    ({ managing with beats := [(5, beat5)] } : Pod).req = none ∧ kfind (podHears { managing with beats := [(5, beat5)] }).fab.pod.beats 5 = some beat5 ∧
    up.fab.pod.mgrLost = false ∧ (podHears { mgrLost := true }).fab.pod.mgrLost = true ∧
    ((podHears { mgrLost := true }).setConf { up.conf with role := 2 }).conf.role = 2 ∧ up.conf.role ≠ 2 := by decide +kernel

/-! The machine and its arithmetic. -/

/-- A device with a byte in memory, an interrupt source with a setting, a partition and a multicast entry. -/
def orderly : Dev := ((served.setParts [(1, part1)]).setMem [(5, 1), (2 ^ 41, 7)]).putJd 0 { mcast := [{ part := 1, prog := 1, tile := 0, subs := [3, 7], bytes := 0 }] }
theorem orderly_ok : (st orderly).ok :=
  ⟨(by decide : Memory.wf orderly.mem = true), (by decide : ∀ e ∈ orderly.fns, (e.2.int.srcs.map (·.1)).Pairwise (· < ·) ∧ ∀ z ∈ e.2.int.srcs, srcValid z.1 = true),
   ⟨(by decide : (orderly.parts.map (·.1)).Pairwise (· < ·)),
    (by decide : ∀ e ∈ orderly.parts, 1 ≤ e.1 ∧ e.1 ≤ 16 ∧ (e.2.cupsNew.map (·.1)).Nodup)⟩, (by decide : ∀ e ∈ orderly.jds, ∀ m ∈ e.2.mcast, m.subs.Pairwise (· < ·))⟩
theorem wit_StepKeepsInvariant : State.ok { pending := [.evtIntClaim 0 5], dev := orderly } ∧
    ∃ t, step { pending := [.evtIntClaim 0 5], dev := orderly } = .next t := ⟨orderly_ok, _, rfl⟩
theorem wit_CountersNeverFall : ∃ t, step { pending := [.trialCommit], dev := up.setTrust { up.trust with trial := true } } = .next t := ⟨_, rfl⟩
theorem wit_StepRunsCommand : State.reset.pending = [] ∧ ∃ t, exec .trialCommit State.reset = .next t := ⟨rfl, _, rfl⟩

/-- A tile of one row and one column, whose one weight is 1, and its sum. -/
def tile1 : Tile := { elems := [1], sums := [1], rows := 1, cols := 1 }
theorem wit_ArrayExact : ∀ k, k < 256 → tile1.sum k = ((List.range 256).map (fun c =>
    tile1.w 8 false k c * (2 ^ (tile1.exp (32 * (k / 32)) c - ([] : List Nat).getD c 0) : Nat))).foldl (· + ·) 0 := by
  intro k hk
  rcases k with _ | k
  · decide +kernel
  · have h : ∀ k, k < 256 → k ≠ 0 → tile1.sum k = 0 := by decide +kernel
    have w : ∀ c, tile1.w 8 false (k + 1) c = 0 := fun c => by simp [Tile.w, tile1]
    rw [h _ hk (by omega)]
    simp only [w, Int.zero_mul]
    decide +kernel
theorem wit_ArrayExact_range : (∀ i, (({ q := [127, -127] } : QRow).q.getD i 0).natAbs ≤ 127) ∧ (∀ k, (tile1.w 8 false k 0).natAbs ≤ 128) ∧
    (∀ kt b, b < 8 → (({ x := [8], fl := 0 } : QRow).x.getD (8 * kt + b) 0 - 0) + (tile1.exp (32 * b) 0 - ([] : List Nat).getD 0 0) ≤ 16) := by
  refine ⟨fun i => ?_, fun k => ?_, fun kt b _ => ?_⟩
  · rcases i with _ | _ | i <;> simp
  · rcases k with _ | k
    · decide
    · simp [Tile.w, tile1]
  · have : tile1.exp (32 * b) 0 = 0 := by simp [Tile.exp, tile1, byteAt]
    rw [this]
    rcases 8 * kt + b with _ | n <;> simp
theorem wit_RoundingExact : (match (quantRow { mode := 2 } [[0x3F800000, 0xC0000000, 0x7F7FFFFF]]).1 with
      | r :: _ => !r.q.isEmpty && r.x.length == 1
      | [] => false) = true ∧
    f32IsNaN 0xFFC00001 = true ∧ 0xFFC00001 < 2 ^ 32 ∧ f32IsInf 0xFF800000 = true ∧ f32IsFinite 0x7F7FFFFF = true ∧
    0x7F7EFFFF / 65536 % 32768 < 0x7F7F ∧ f32IsFinite 0x7F7EFFFF = true := by decide +kernel

/-! Worked cases of the spec: the expected values are its own. -/

/-- The example of R37: in a W3 block, element 5 is bit 7 of byte 1 and bits 0 and 1 of byte 2. -/
theorem test_block_bits : blockBits [0, 0x80, 0x02, 0] 3 0 5 = 5 ∧ blockBits [0, 0x7F, 0xFC, 0xFF] 3 0 5 = 0 := by decide

/-- The example of R46: 3.3, 2.1, 1.9, 0.7 and -1.25, adaptive, g = 1 and t = 2; and with 1.8 as the third element. -/
theorem test_quantizer_promotes :
    (quantRow { mode := 0, g := 1, t := 2 } [[0x40533333, 0x40066666, 0x3FF33333, 0x3F333333, 0xBFA00000] ++ List.replicate 27 0x3F000000]).1.map
      (fun r => (r.x, r.q.take 5)) = [([0x7B], [106, 67, 61, 22, -40])] ∧
    (quantRow { mode := 0, g := 1, t := 2 } [[0x40533333, 0x40066666, 0x3FE66666, 0x3F333333, 0xBFA00000] ++ List.replicate 27 0x3F000000]).1.map
      (fun r => (r.x, r.q.take 5)) = [([0x7E], [7, 7, 7, 3, -5])] := by decide +kernel

/-- The example of R52. -/
theorem test_stochastic_rounding : srBf16 0x3F804000 0xC000 = 0x3F81 ∧ srBf16 0x3F804000 0xBFFF = 0x3F80 := by decide

/-- The example of R250: the last tile of a W4 tensor of K = 4,000 and N = 1,000. -/
theorem test_packed_size : dataOffset 4 64 = 0xD00 ∧ dataOffset 4 64 + 64 * tileBytes 4 = 2297088 ∧
    dataOffset 4 64 + 63 * tileBytes 4 = 0x228100 := by decide

/-- The example of R274 to R276: stack 12, offset 0x16F45789, pseudo-channel 10, bank 7, row 91, sector 30 of its granule. -/
theorem test_address_map :
    ({ part := 1, base := 0, size := 2 ^ 36, mask := 0xFFFF, rowBase := 19, sector := false, kind := 0 } : Region).place 0x123456789 =
      (12, 0x16F45789) ∧ (stackDecode false 0x16F45789).1 = 10 ∧ (stackDecode false 0x16F45789).2.1 = 7 ∧
    (stackDecode false 0x16F45789).2.2.1 = 91 := by decide

/-- The example after R383: with a destination unit of 4 bytes, 7 bytes do not pass the checks of R382; 8 do. -/
def unitDesc (n : Nat) : Bytes := desc [(1, 1, 2), (2, 1, 0x30), (8, 8, 0x10003), (0x10, 8, 0x400000), (0x18, 8, n)]
theorem test_transfer_units : dmaCheck1 (unitDesc 7) = some stInvalidField ∧ dmaCheck1 (unitDesc 8) = none := by decide

/-- The example of R397: steps 1, 3 and 7 to 9. -/
theorem test_claims : ((ints.fn 0).int.take 5).2 = 131 ∧ (((ints.fn 0).int.take 5).1.complete 5 131 |>.take 5).2 = 3 ∧
    ((({ vecs := [(5, { sent := true })] } : IntCtl)).take 5).2 = 1023 ∧ (({} : IntCtl).take 5).2 = 0 := by decide

/-- The example of R560: partition 5 has 30 GiB of stack 2's 120 GiB; the other shares there sum to 512. -/
def shares : Dev := ((up.setParts [(5, { part1 with cups := [(4, 0x8100)] }), (6, { part1 with cups := [(4, 512)] })]).setRegions
  [(0, { part := 5, base := 0, size := 30 * 2 ^ 30, mask := 4, rowBase := 0, sector := false, kind := 0 })]).setPwr
  { up.pwr with selPart := 5, selOff := 4 }
theorem test_cup_writes : [0x8180, 0x00C8, 0x0280].map (fun v => match exec (.pwrCupData v) (st shares) with
    | .next t => t.dev.pwr.cupResult
    | _ => 0) = [1, 3, 2] := by decide +kernel

/-- The table of R454 and the example after it: full demand under 1,200 W in modes 0 to 2, under 700 W in Quiet, and
Array-first at 1,000 W. The levers: clock, memory rate (41.25 W is 25%), links, duty. -/
def loaded100 (mode cap : Nat) : Levers :=
  match exec (.powerLoop 38000 18000 7500 42000 8500) (st (up.setPwr { up.pwr with mode := mode, cap := cap })) with
  | .next t => t.dev.pwr.levers
  | _ => {}
theorem test_power_modes : (loaded100 0 1200).link = 25 ∧ (loaded100 0 1200).mem = 14400 * 100 / 16500 ∧ (loaded100 0 1200).clk = 19 ∧
    (loaded100 1 1200).mem = 11400 * 100 / 16500 ∧ (loaded100 1 1200).link = 100 ∧ (loaded100 2 1200).clk = 16 ∧ (loaded100 2 1200).mem = 100 ∧
    loaded100 3 1200 = { clk := 10, mem := 25, link := 25, duty := 61 } ∧ (loaded100 1 1000).clk = 14 ∧ (loaded100 1 1000).duty = 100 := by
  decide +kernel

/-- The example of R451: a share of 256 grants 88,000 sectors in a period of 8 microseconds. -/
theorem test_cup_grant : (match exec (.cupPeriodBoundary 2) (st ((shares.putPart 5 { part1 with cups := [(4, 256)] }).setPwr
      { shares.pwr with cupPeriod := 8 })) with
    | .next t => kget (t.dev.cupsOf 2).units (cupKey 5 2) 0
    | _ => 0) = 88000 := by decide +kernel

end Sys2Proof.Tests
end

section
/-!
PROOF. FENCE (R351): the completion of a FENCE, and the commands it holds back.
-/

namespace Sys2Proof.Machine

/-- FENCE acts on the device alone, and always answers a next state. -/
theorem exec_fence (r : CmdRef) (s : State) : exec (.fence r) s = .next (s.onDev (fun d => d.fence r)) := rfl

/-- A ready FENCE with a well-formed header ends with SUCCESS once every earlier command of its pair has completed, and
waits unchanged until then. -/
theorem Dev.fence_ready {d : Dev} {r : CmdRef} {x : Qp} {c : Cmd} (hx : d.qp r.f r.q = some x) (hc : d.Ready r 0x29 c)
    (hh : hdrOk c.desc 0 [] = true) : d.fence r = if x.earlierDone r.k then d.finish r stSuccess else d := by
  rw [Dev.fence, Dev.withCmd_of hc]
  simp [hh, hx]

/-- A ready command carries no mark. -/
theorem Dev.ready_marks {d : Dev} {r : CmdRef} {op : Nat} {c : Cmd} (h : d.Ready r op c) : c.marks = {} := by
  obtain ⟨-, -, -, hmarks⟩ := h
  exact hmarks

/-- A FENCE is a barrier (R350). -/
theorem Cmd.barrier_of_fence {c : Cmd} (h : c.op = 0x29) : c.barrier = true := by
  simp [Cmd.barrier, h]

/-- Settles O3. The command's row is `Dev.fence_ready`, split on whether the earlier commands have completed; later commands
cannot start by `Dev.startable_barrier`. -/
theorem fenceOrders : Obligations.FenceOrders := by
  unfold Obligations.FenceOrders
  refine ⟨fun s r x c hx hc hh => ⟨fun hdone => ?completes, fun hopen => ?waits⟩, fun d x c r hx hc hop hk => ?holdsBack⟩
  case completes =>
    have hf : (s.onDev (fun d => d.fence r)).dev = s.dev.finish r stSuccess := by
      rw [State.onDev_dev, Dev.fence_ready hx hc hh, if_pos hdone]
    refine ⟨_, exec_fence r s, ?_, ?_⟩ <;> rw [hf]
    · exact Dev.ended_finish _ (Dev.ready_cmd hc) (Dev.ready_marks hc) (by decide) 0 0 0 []
    · exact Dev.onlyPair_finish _ _ _ _ _ _ _
  case waits =>
    rw [exec_fence]
    exact State.next_same (by rw [Dev.fence_ready hx hc hh, hopen]; rfl)
  case holdsBack => exact Dev.startable_barrier hx hc (Cmd.barrier_of_fence hop) hk

end Sys2Proof.Machine
end

section
/-!
PROOF. The claim (R394, R396) and the completion (R395) of an interrupt source, and the unmasking of a vector (R397).
-/

namespace Sys2Proof.Machine

/-! The controller: which sources can be claimed. -/

/-- A vector is hot exactly when a claim on it has a source to take (R397). -/
theorem IntCtl.hot_iff {c : IntCtl} {v : Nat} : c.hot v = true ↔ ∃ e ∈ c.srcs, e.2.vec = v ∧ c.deliverable e.2 = true := by
  simp [IntCtl.hot]

theorem IntCtl.hot_eq_false_iff {c : IntCtl} {v : Nat} :
    c.hot v = false ↔ ∀ e ∈ c.srcs, e.2.vec = v → c.deliverable e.2 = false := by
  simp [IntCtl.hot]

/-- A hot vector has a best source: of the highest priority, and of the lowest number among equals (R394). -/
theorem IntCtl.best_of_hot {c : IntCtl} {v : Nat} (hok : c.ok) (hot : c.hot v = true) :
    ∃ n x, c.best v = some n ∧ (n, x) ∈ c.srcs ∧ x.vec = v ∧ c.deliverable x = true ∧
      ∀ e ∈ c.srcs, e.2.vec = v → c.deliverable e.2 = true → e.2.prio < x.prio ∨ e.2.prio = x.prio ∧ n ≤ e.1 := by
  obtain ⟨hsorted, -⟩ := hok
  have hspec := c.best_spec v c.srcs none hsorted (by simp)
  split at hspec
  case h_1 heq =>
    obtain ⟨-, hnone⟩ := hspec
    obtain ⟨e, he, hd⟩ := IntCtl.hot_iff.1 hot
    exact absurd hd (hnone e he)
  case h_2 n p heq =>
    obtain ⟨hn | ⟨x, hx, hv, hd, rfl⟩, -, hmax⟩ := hspec
    · cases hn
    · exact ⟨n, x, congrArg (Option.map Prod.fst) heq, hx, hv, hd, hmax⟩

theorem IntCtl.best_of_not_hot {c : IntCtl} {v : Nat} (hok : c.ok) (hcold : c.hot v = false) : c.best v = none := by
  obtain ⟨hsorted, -⟩ := hok
  have hspec := c.best_spec v c.srcs none hsorted (by simp)
  split at hspec
  case h_1 heq => exact congrArg (Option.map Prod.fst) heq
  case h_2 n p heq =>
    obtain ⟨hn | ⟨x, hx, hv, hd, -⟩, -, -⟩ := hspec
    · cases hn
    · rw [IntCtl.hot_iff.2 ⟨_, hx, hv, hd⟩] at hcold
      cases hcold

/-! The controller: a claim keeps it in order, and what it takes. -/

theorem IntCtl.keys_apply (c : IntCtl) : c.apply.srcs.map (·.1) = c.srcs.map (·.1) := by
  simp [IntCtl.apply]

/-- Applying the written priorities and threshold changes no source's number (R396). -/
theorem IntCtl.ok_apply {c : IntCtl} (h : c.ok) : c.apply.ok := by
  obtain ⟨hsorted, hvalid⟩ := h
  refine ⟨by rwa [IntCtl.keys_apply], fun e he => ?_⟩
  obtain ⟨e', he', rfl⟩ := List.mem_map.1 he
  exact hvalid e' he'

/-- Accounting for messages leaves the sources alone (R397). -/
theorem IntCtl.ok_commit {old new : IntCtl} (h : new.ok) : (old.commit new).1.ok := by
  rwa [IntCtl.ok, IntCtl.commit_srcs]

@[simp] theorem IntCtl.vecs_setSrc (c : IntCtl) (n : Nat) (x : IntSrc) : (c.setSrc n x).vecs = c.vecs := by
  unfold IntCtl.setSrc; split <;> rfl

theorem IntSrc.settle_insv (x : IntSrc) : x.settle.insv = x.insv := by
  obtain ⟨-, -, -, -, -, hinsv, -⟩ := x.settle_same
  exact hinsv

/-- A claim that finds a source reads its number, and the source goes from pending into service (R394). -/
theorem IntCtl.take_of_best {c : IntCtl} {v n : Nat} (hb : c.best v = some n) (hn : srcValid n = true) :
    (c.take v).2 = n ∧ ((c.take v).1.src n).insv = true ∧ ((c.take v).1.src n).pend = false := by
  simp [IntCtl.take, hb, IntCtl.src_setSrc _ _ _ hn, IntSrc.settle_pend, IntSrc.settle_insv]

/-- A claim that finds none reads 1,023 after a message and 0 otherwise, and leaves the sources and the threshold (R394). -/
theorem IntCtl.take_of_best_none {c : IntCtl} {v : Nat} (hb : c.best v = none) :
    (c.take v).2 = (if (c.vecOf v).sent then 1023 else 0) ∧ (c.take v).1.srcs = c.srcs ∧ (c.take v).1.thr = c.thr := by
  simp [IntCtl.take, hb]

/-- Every claim clears the vector's sent mark (R394). -/
theorem IntCtl.sent_take (c : IntCtl) (v : Nat) : ((c.take v).1.vecOf v).sent = false := by
  unfold IntCtl.take
  split <;> simp [IntCtl.vecOf]

/-- Whether a vector is hot depends on the sources and the threshold alone. -/
theorem IntCtl.hot_congr {c c' : IntCtl} (hs : c'.srcs = c.srcs) (ht : c'.thr = c.thr) (v : Nat) : c'.hot v = c.hot v := by
  simp [IntCtl.hot, IntCtl.deliverable, hs, ht]

/-- A claim never makes its vector rise, so accounting for messages sets no sent mark again (R397). -/
theorem IntCtl.sent_commit_take {c : IntCtl} (hok : c.ok) (v : Nat) : ((c.commit (c.take v).1).1.vecOf v).sent = false := by
  have hfalls : c.hot v = true ∨ (c.take v).1.hot v = false := by
    cases hhot : c.hot v with
    | true => exact .inl rfl
    | false =>
      obtain ⟨-, hsrcs, hthr⟩ := IntCtl.take_of_best_none (IntCtl.best_of_not_hot hok hhot)
      exact .inr (by rw [IntCtl.hot_congr hsrcs hthr, hhot])
  rw [(IntCtl.commit_vec c _ v hfalls).1, IntCtl.sent_take]

/-! The controller: completion and unmasking. -/

/-- A completion of a source in service on the vector ends its service; a level source pends again by its line (R395). -/
theorem IntCtl.complete_of_insv {c : IntCtl} {v n : Nat} (hn : srcValid n = true) (hi : (c.src n).insv = true)
    (hv : (c.src n).vec = v) : ((c.complete v n).src n).insv = false ∧
      ((c.complete v n).src n).pend = if (c.src n).sense = 0 then (c.src n).en && (c.src n).line else (c.src n).pend := by
  have hc : c.complete v n = c.setSrc n { c.src n with insv := false } := by simp [IntCtl.complete, hi, hv]
  simp [hc, IntCtl.src_setSrc _ _ _ hn, IntSrc.settle_pend, IntSrc.settle_insv]

/-- A completion of a source not in service, or of another vector, is ignored (R395). -/
theorem IntCtl.complete_ignored {c : IntCtl} {v n : Nat} (h : (c.src n).insv = false ∨ (c.src n).vec ≠ v) :
    c.complete v n = c := by
  rcases h with h | h <;> simp [IntCtl.complete, h]

theorem IntCtl.unmask_of_pend {c : IntCtl} {v : Nat} (h : (c.vecOf v).pend = true) :
    (c.unmask v).1.vecOf v = { c.vecOf v with mask := false, pend := false, sent := true } ∧ (c.unmask v).2 = true := by
  unfold IntCtl.vecOf at h
  simp [IntCtl.unmask, IntCtl.vecOf, h]

theorem IntCtl.unmask_of_not_pend {c : IntCtl} {v : Nat} (h : (c.vecOf v).pend = false) :
    (c.unmask v).1.vecOf v = { c.vecOf v with mask := false } ∧ (c.unmask v).2 = false := by
  unfold IntCtl.vecOf at h
  simp [IntCtl.unmask, IntCtl.vecOf, h]

/-! The rows, on a function whose registers respond. -/

theorem State.onFn_live {s : State} {f : Nat} (h : s.dev.fnLive f = true) (g : Dev → Dev) : s.onFn f g = s.onDev g := by
  simp [State.onFn, State.onDev, h]

theorem exec_evtIntClaim_live {s : State} {f : Nat} (h : s.dev.fnLive f = true) (v : Nat) :
    exec (.evtIntClaim f v) s = .next (s.onDev (fun d => d.claim f v)) := by
  have harm : exec (.evtIntClaim f v) s = execEvtIntClaim f v s := rfl
  simp [harm, execEvtIntClaim, State.onDev, h]

theorem exec_evtIntComplete_live {s : State} {f : Nat} (h : s.dev.fnLive f = true) (v n : Nat) :
    exec (.evtIntComplete f v n) s = .next (s.onDev (fun d => d.withInt f (fun c => c.complete v n))) := by
  have harm : exec (.evtIntComplete f v n) s = execEvtIntComplete f v n s := rfl
  rw [harm, execEvtIntComplete, State.onFn_live h]

theorem exec_msixUnmask_live {s : State} {f : Nat} (h : s.dev.fnLive f = true) (v : Nat) :
    exec (.msixUnmask f v) s = .next (s.onDev (fun d => d.unmask f v)) := by
  have harm : exec (.msixUnmask f v) s = execMsixUnmask f v s := rfl
  rw [harm, execMsixUnmask, State.onFn_live h]

/-- A claim leaves the controller as `IntCtl.take` does, after what was written has been applied and with the messages
accounted for. -/
theorem Dev.int_claim {d : Dev} {f : Nat} {c : IntCtl} (hc : c = ((d.fn f).int.commit (d.fn f).int.apply).1) (v : Nat) :
    ((d.claim f v).fn f).int = (c.commit (c.take v).1).1 := by
  rw [Dev.claim, Dev.fn_emitOut, Dev.int_withInt, Dev.int_withInt, hc]

/-- The number read is the last thing that a claim sends out of the device. -/
theorem Dev.out_claim {d : Dev} {f : Nat} {c : IntCtl} (hc : c = ((d.fn f).int.commit (d.fn f).int.apply).1) (v : Nat) :
    ∃ l, (d.claim f v).out = d.out ++ l ++ [.regRead (c.take v).2] := by
  obtain ⟨l₁, h₁⟩ := d.out_withInt f IntCtl.apply
  obtain ⟨l₂, h₂⟩ := (d.withInt f IntCtl.apply).out_withInt f (fun c => (c.take v).1)
  refine ⟨l₁ ++ l₂, ?_⟩
  rw [Dev.claim, Dev.out_emitOut, h₂, h₁, Dev.int_withInt, hc, List.append_assoc d.out]

theorem Dev.int_unmask (d : Dev) (f v : Nat) : ((d.unmask f v).fn f).int = ((d.fn f).int.unmask v).1 := by
  unfold Dev.unmask
  dsimp only
  split <;> simp

theorem Dev.out_unmask (d : Dev) (f v : Nat) :
    (d.unmask f v).out = if ((d.fn f).int.unmask v).2 then d.out ++ [.msix f v] else d.out := by
  unfold Dev.unmask
  dsimp only
  split <;> rfl

/-! The obligations. -/

/-- Settles O7: the vector is hot after what was written is applied, and `IntCtl.best_of_hot` names the source taken, or
it is not, and `IntCtl.take_of_best_none` gives the number read. -/
theorem claimTakesBest : Obligations.ClaimTakesBest := by
  unfold Obligations.ClaimTakesBest
  intro s f v c hlive hc hok
  have hcok : c.ok := hc ▸ IntCtl.ok_commit (IntCtl.ok_apply hok)
  obtain ⟨l, hout⟩ := Dev.out_claim hc v
  have hint := Dev.int_claim hc v
  have hthr : c.thr = (s.dev.fn f).int.thrNew := hc ▸ (IntCtl.commit_keeps _ _).1
  refine ⟨hthr, _, l, exec_evtIntClaim_live hlive v, fun hsome => ?taken, fun hnone => ?spurious⟩
  case taken =>
    obtain ⟨n, x, hbest, hmem, hvec, hdel, hmax⟩ := IntCtl.best_of_hot hcok (IntCtl.hot_iff.2 hsome)
    obtain ⟨hnum, hinsv, hpend⟩ := IntCtl.take_of_best hbest (hcok.2 _ hmem)
    refine ⟨n, x, hmem, hvec, hdel, hmax, ?_, ?_, ?_, ?_⟩ <;> rw [State.onDev_dev]
    · rw [hout, hnum]
    · rw [hint, IntCtl.src_commit, hinsv]
    · rw [hint, IntCtl.src_commit, hpend]
    · rw [hint, IntCtl.sent_commit_take hcok]
  case spurious =>
    obtain ⟨hnum, -, -⟩ := IntCtl.take_of_best_none (IntCtl.best_of_not_hot hcok (IntCtl.hot_eq_false_iff.2 hnone))
    refine ⟨?_, ?_⟩ <;> rw [State.onDev_dev]
    · rw [hout, hnum]
    · rw [hint, IntCtl.sent_commit_take hcok]

/-- Settles O8: the completion by `IntCtl.complete_of_insv` and `IntCtl.complete_ignored`, the unmasking split on whether
a message was held back. -/
theorem completeAndUnmask : Obligations.CompleteAndUnmask := by
  unfold Obligations.CompleteAndUnmask
  intro s f v n hlive hn
  refine ⟨fun hinsv hvec => ⟨_, exec_evtIntComplete_live hlive v n, ?ends⟩,
    fun hother => ⟨_, exec_evtIntComplete_live hlive v n, ?ignored⟩, _, exec_msixUnmask_live hlive v, ?unmasks⟩
  case ends =>
    rw [State.onDev_dev, Dev.src_withInt]
    exact IntCtl.complete_of_insv hn hinsv hvec
  case ignored => rw [State.onDev_dev, Dev.src_withInt, IntCtl.complete_ignored hother]
  case unmasks =>
    rw [State.onDev_dev, Dev.int_unmask, Dev.out_unmask]
    cases hheld : ((s.dev.fn f).int.vecOf v).pend with
    | true =>
      obtain ⟨hvec, hsends⟩ := IntCtl.unmask_of_pend hheld
      simp [hvec, hsends]
    | false =>
      obtain ⟨hvec, hsends⟩ := IntCtl.unmask_of_not_pend hheld
      simp [hvec, hsends]

end Sys2Proof.Machine
end

section
/-!
PROOF. The return of fenced units to service (R473) and the self-test rotation (R476, R478 to R481).
-/

namespace Sys2Proof.Machine

/-! The rows: each acts on the device alone. -/

theorem exec_unitReturn (u : FenceUnit) (s : State) :
    exec (.unitReturn u) s = .next (s.onDev (fun d => d.unitReturn u)) := rfl

theorem exec_selftestEnd (g : Nat) (ok : Bool) (step : Nat) (s : State) :
    exec (.selftestEnd g ok step) s = .next (s.onDev (fun d => d.testEnd g ok step)) := rfl

theorem exec_selftestIdle_starts {s : State} {g : Nat} (h : s.dev.testStarts g = true) (work : List EngineJob) :
    exec (.selftestIdle ⟨g, work⟩) s =
      .next (s.onDev (fun d => (d.references g work).modCore g (fun x => { x with testing := true }))) := by
  have harm : exec (.selftestIdle ⟨g, work⟩) s = execSelftestIdle ⟨g, work⟩ s := rfl
  simp [harm, execSelftestIdle, State.onDev, h]

theorem exec_selftestIdle_ignored {s : State} {g : Nat} (h : s.dev.testStarts g = false) (work : List EngineJob) :
    exec (.selftestIdle ⟨g, work⟩) s = .next s := by
  have harm : exec (.selftestIdle ⟨g, work⟩) s = execSelftestIdle ⟨g, work⟩ s := rfl
  rw [harm]
  exact State.next_same (by simp [h])

theorem exec_selftestReserve_accepted {s : State} {g : Nat} (hg : g < 128) (hr : (s.dev.core g).retired = false)
    (work : List EngineJob) :
    exec (.selftestReserve ⟨g, work⟩) s = .next (s.onDev (fun d => (d.references g work).modCore g
      (fun x => { x with reserved := true, testing := d.testStarts g || x.testing }))) := by
  have harm : exec (.selftestReserve ⟨g, work⟩) s = execSelftestReserve ⟨g, work⟩ s := rfl
  simp [harm, execSelftestReserve, State.onDev, coreOk, hg, hr]

theorem exec_selftestDeadline_due {s : State} {g : Nat} (hg : g < 128) (hr : (s.dev.core g).retired = false)
    (ho : (s.dev.core g).overdue = false) :
    exec (.selftestDeadline g) s = .next (s.onDev (fun d => (d.modCore g (fun x => { x with overdue := true })).raise
      { code := evSelftestOverdue, unit := unitCore g, payload := leBytes 1 g })) := by
  have harm : exec (.selftestDeadline g) s = execSelftestDeadline g s := rfl
  simp [harm, execSelftestDeadline, State.onDev, coreOk, hg, hr, ho]

theorem exec_selftestDeadline_ignored {s : State} {g : Nat}
    (h : (s.dev.core g).retired = true ∨ (s.dev.core g).overdue = true) :
    exec (.selftestDeadline g) s = .next s := by
  have harm : exec (.selftestDeadline g) s = execSelftestDeadline g s := rfl
  rw [harm]
  exact State.next_same (by rcases h with h | h <;> simp [h])

/-- The report of a mechanism that failed its test (R480). -/
def mechReport (d : Dev) (m : Mechanism) : EvRec :=
  { code := evSelftestFail, unit := mechUnit m, payload := leBytes 1 0 ++ leBytes 4 (d.unit (mechUnit m)) }

theorem exec_mechanismTest_passed (m : Mechanism) (s : State) : exec (.mechanismTest m true) s = .next s := rfl

theorem exec_mechanismTest_failed (m : Mechanism) (s : State) :
    exec (.mechanismTest m false) s = .next (s.onDev (fun d => (d.raise (mechReport d m)).mechFails m)) := rfl

/-! What a report, and the return to service that it tells of, leave alone. -/

@[simp] theorem Dev.core_raise (d : Dev) (e : EvRec) (reporter g : Nat) : (d.raise e reporter).core g = d.core g :=
  Dev.core_of (Dev.reports_raise d e reporter).cores g

@[simp] theorem Dev.skillet_raise (d : Dev) (e : EvRec) (reporter k : Nat) :
    (d.raise e reporter).skillet k = d.skillet k :=
  Dev.skillet_of (Dev.reports_raise d e reporter).skillets k

@[simp] theorem Dev.core_restored (d : Dev) (die idx g : Nat) : (d.restored die idx).core g = d.core g :=
  Dev.core_of (Dev.restored_told d die idx).cores g

@[simp] theorem Dev.skillet_restored (d : Dev) (die idx k : Nat) : (d.restored die idx).skillet k = d.skillet k :=
  Dev.skillet_of (Dev.restored_told d die idx).skillets k

@[simp] theorem Dev.dram_restored (d : Dev) (die idx : Nat) : (d.restored die idx).dram = d.dram :=
  (Dev.restored_told d die idx).dram

@[simp] theorem Dev.stack_restored (d : Dev) (die idx t : Nat) : (d.restored die idx).stack t = d.stack t :=
  Dev.stack_of (Dev.dram_restored d die idx) t

@[simp] theorem Dev.mem_restored (d : Dev) (die idx : Nat) : (d.restored die idx).mem = d.mem :=
  (Dev.restored_told d die idx).mem

@[simp] theorem Dev.port_restored (d : Dev) (die idx p : Nat) : (d.restored die idx).port p = d.port p :=
  Dev.port_of (Dev.restored_told d die idx).fab p

@[simp] theorem Dev.cport_restored (d : Dev) (die idx i : Nat) : (d.restored die idx).cport i = d.cport i :=
  Dev.cport_of (Dev.restored_told d die idx).crock i

@[simp] theorem Dev.saf_restored (d : Dev) (die idx : Nat) :
    (d.restored die idx).saf = { d.saf with railBad := d.saf.railBad.filter (· != die) } :=
  (Dev.restored_told d die idx).saf

/-! The return of each unit (R473). -/

theorem Dev.core_unitReturn {d : Dev} {g : Nat} (hg : g < 128) (hf : (d.core g).fenced = true) :
    (d.unitReturn (.core g)).core g = { d.core g with fenced := false, lastTest := d.aoOf (g / 8), overdue := false } := by
  simp [Dev.unitReturn, coreOk, hg, hf]

/-- A fenced skillet comes back; after a fault of the DRAM rail its whole stack is poisoned. -/
def Dev.skilletBack (d : Dev) (k : Nat) : Dev :=
  let e := d.modSkillet k (fun x => { x with fenced := false })
  if d.saf.dramBad.contains k then
    (e.modStack k (fun x => { x with poison := poisonAll })).setSaf { e.saf with dramBad := e.saf.dramBad.filter (· != k) }
  else e

theorem Dev.skilletBack_keeps (d : Dev) (k : Nat) :
    (d.skilletBack k).skillet k = { d.skillet k with fenced := false } ∧ (d.skilletBack k).mem = d.mem := by
  have hsk := Dev.skillet_modSkillet d k (fun x => { x with fenced := false })
  unfold Dev.skilletBack
  dsimp only
  split <;> exact ⟨hsk, rfl⟩

@[simp] theorem Dev.stack_setSaf (d : Dev) (x : Safety) (t : Nat) : (d.setSaf x).stack t = d.stack t := rfl

theorem Dev.skilletBack_of_dramBad {d : Dev} {k : Nat} (h : k ∈ d.saf.dramBad) :
    ((d.skilletBack k).stack k).poison = poisonAll ∧ k ∉ (d.skilletBack k).saf.dramBad := by
  rw [Dev.skilletBack, if_pos (by simpa using h)]
  refine ⟨?_, by simp [Dev.setSaf]⟩
  rw [Dev.stack_setSaf, Dev.stack_modStack]

theorem Dev.skilletBack_of_dramGood {d : Dev} {k : Nat} (h : k ∉ d.saf.dramBad) : (d.skilletBack k).dram = d.dram := by
  rw [Dev.skilletBack, if_neg (by simpa using h)]
  rfl

/-- The return of a skillet, with what its cores' bookkeeping becomes left open. -/
theorem Dev.unitReturn_skillet {d : Dev} {k : Nat} (hk : k < 16) (hf : (d.skillet k).fenced = true)
    (hm : (d.skillet k).microcodeBad = false) :
    ∃ x, d.unitReturn (.skillet k) = ((d.skilletBack k).setCores x).restored k uiDie := by
  obtain ⟨x, hx⟩ := Dev.foldCores_shape (fun d c => { c with lastTest := d.aoOf k, overdue := false }) (8 * k)
    (List.range 8) (d.skilletBack k)
  refine ⟨x, ?_⟩
  rw [← hx, Dev.unitReturn, if_pos ⟨hf, hk, by simp [hm]⟩]
  rfl

/-- A skillet whose DRAM rail failed returns with its whole stack in the poison table, another one with its stack
as it was. -/
theorem Dev.skillet_unitReturn {d : Dev} {k : Nat} (hk : k < 16) (hf : (d.skillet k).fenced = true)
    (hm : (d.skillet k).microcodeBad = false) :
    (d.unitReturn (.skillet k)).skillet k = { d.skillet k with fenced := false } ∧
    (k ∈ d.saf.dramBad → ((d.unitReturn (.skillet k)).stack k).poison = poisonAll ∧
      k ∉ (d.unitReturn (.skillet k)).saf.dramBad) ∧
    (k ∉ d.saf.dramBad → (d.unitReturn (.skillet k)).dram = d.dram) ∧ (d.unitReturn (.skillet k)).mem = d.mem := by
  obtain ⟨x, hx⟩ := Dev.unitReturn_skillet hk hf hm
  obtain ⟨hsk, hmem⟩ := d.skilletBack_keeps k
  rw [hx, Dev.skillet_restored, Dev.stack_restored, Dev.saf_restored, Dev.dram_restored, Dev.mem_restored]
  exact ⟨hsk, Dev.skilletBack_of_dramBad, Dev.skilletBack_of_dramGood, hmem⟩

theorem Dev.stackCtl_unitReturn {d : Dev} {k : Nat} (hf : (d.skillet k).ctlFenced = true) :
    (d.unitReturn (.stackCtl k)).skillet k = { d.skillet k with ctlFenced := false } ∧
    (d.unitReturn (.stackCtl k)).dram = d.dram := by
  rw [Dev.unitReturn, if_pos hf, Dev.skillet_restored, Dev.dram_restored]
  exact ⟨Dev.skillet_modSkillet _ _ _, rfl⟩

theorem Dev.engine_unitReturn {d : Dev} {k : Nat} (hf : (d.skillet k).engineFenced = true) :
    (d.unitReturn (.engine k)).skillet k = { d.skillet k with engineFenced := false } := by
  rw [Dev.unitReturn, if_pos hf, Dev.skillet_restored, Dev.skillet_modSkillet]

theorem Dev.iod_unitReturn {d : Dev} {i : Nat} (hi : i ∈ d.saf.iodFenced) :
    i ∉ (d.unitReturn (.iod i)).saf.iodFenced := by
  have hfilter : (d.unitReturn (.iod i)).saf.iodFenced = d.saf.iodFenced.filter (· != i) := by
    rw [Dev.unitReturn, if_pos (by simpa using hi), Dev.saf_restored]
    dsimp only
    split <;> rfl
  simp [hfilter]

theorem Dev.crockPort_unitReturn {d : Dev} {i : Nat} (hf : (d.cport i).fenced = true) :
    ((d.unitReturn (.crockPort i)).cport i).fenced = false := by
  have hset : (d.putCport i { d.cport i with fenced := false, st := 1 }).cport i =
      { d.cport i with fenced := false, st := 1 } :=
    getD_set_lt _ _ _ _ _ (fun h => by rw [Dev.cport, h] at hf; cases hf)
  rw [Dev.unitReturn, if_pos hf, Dev.cport_restored, hset]

theorem Dev.fabPort_unitReturn {d : Dev} {p : Nat} (hf : (d.port p).fenced = true) :
    ((d.unitReturn (.fabPort p)).port p).fenced = false := by
  have hset : (d.putPort p { d.port p with fenced := false, st := 1 }).port p =
      { d.port p with fenced := false, st := 1 } :=
    getD_set_lt _ _ _ _ _ (fun h => by rw [Dev.port, h] at hf; cases hf)
  rw [Dev.unitReturn, if_pos hf, Dev.port_restored, hset]

/-! The start of a test (R478, R479). -/

/-- References computed, and then one core changed: what the two rows that start a test have in common. -/
theorem Dev.references_modCore (d : Dev) (g : Nat) (work : List EngineJob) (f : Core → Core) {t : Dev}
    (ht : t = (d.references g work).modCore g f) :
    t = (d.references g work).setCores t.cores ∧ t.core g = f (d.core g) ∧ (∀ h, h ≠ g → t.core h = d.core h) ∧
    t.parts = d.parts ∧ t.regions = d.regions ∧ t.runs = d.runs ∧
    (work = [] → t = (d.setSkillets t.skillets).setCores t.cores) := by
  obtain ⟨hcores, hparts, hregions, hruns⟩ := Dev.references_keeps d g work
  subst ht
  refine ⟨rfl, ?core, fun h hne => ?others, hparts, hregions, hruns, ?noWork⟩
  case core => rw [Dev.core_modCore, Dev.core_of hcores]
  case others => rw [Dev.core_modCore_ne _ hne, Dev.core_of hcores]
  case noWork =>
    rintro rfl
    obtain ⟨m, hm⟩ := Dev.references_nil d g
    rw [hm]
    rfl

theorem Dev.coreReady_of_reserved {d : Dev} {g : Nat} (h : (d.core g).reserved = true) : d.coreReady g = false := by
  simp [Dev.coreReady, h]

theorem Dev.coreReady_of_overdue {d : Dev} {g : Nat} (h : (d.core g).overdue = true) : d.coreReady g = false := by
  simp [Dev.coreReady, h]

/-! The end of a test (R476, R479). -/

theorem Dev.testEnd_passed {d : Dev} {g : Nat} (hg : g < 128) (ht : (d.core g).testing = true) (step : Nat) :
    (d.testEnd g true step).core g =
      { d.core g with testing := false, reserved := false, lastTest := d.aoOf (g / 8), overdue := false } ∧
    d.testEnd g true step = d.setCores (d.testEnd g true step).cores := by
  rw [Dev.testEnd, if_neg (by simp [coreOk, hg, ht])]
  exact ⟨by simp, rfl⟩

/-- A failed test retires the core at once (R476). -/
theorem Dev.testEnd_failed {d : Dev} {g : Nat} (hg : g < 128) (ht : (d.core g).testing = true)
    (hr : (d.core g).retired = false) (step : Nat) :
    ((d.testEnd g false step).core g).retired = true ∧ ((d.testEnd g false step).core g).clk = .cold ∧
    g ∈ (d.testEnd g false step).flash.retired := by
  rw [Dev.testEnd, if_neg (by simp [coreOk, hg, ht])]
  dsimp only
  rw [if_neg Bool.false_ne_true]
  generalize he : Dev.raise _ _ _ = e
  have hcore : e.core g = { d.core g with testing := false, reserved := false } := by
    rw [← he, Dev.core_raise, Dev.core_modCore]
  obtain ⟨hret, -, -, hflash, -⟩ := Dev.retireCore_facts e g 1 0 0 0 (by rw [hcore]; exact hr)
  rw [hret]
  exact ⟨rfl, rfl, hflash⟩

theorem Dev.testEnd_ignored {d : Dev} {g : Nat} (h : (d.core g).testing = false) (ok : Bool) (step : Nat) :
    d.testEnd g ok step = d := by
  simp [Dev.testEnd, h]

/-! What a mechanism that fails costs (R480). -/

/-- The fence of a skillet leaves it fenced, whether or not it was so before. -/
theorem Dev.fenceSkillet_fenced (d : Dev) (k reason : Nat) : ((d.fenceSkillet k reason).skillet k).fenced = true := by
  cases h : (d.skillet k).fenced with
  | true => rw [Dev.fenceSkillet, if_pos h, h]
  | false =>
    obtain ⟨hk, -⟩ := Dev.fenceSkillet_facts d k reason h
    rw [hk]

theorem Dev.crossbarLink_fails (d : Dev) {k : Nat} (hk : k < 16) :
    ((d.mechFails (.crossbarLink k)).skillet k).fenced = true := by
  rw [Dev.mechFails, Dev.fenceDie, if_pos hk]
  exact Dev.fenceSkillet_fenced d k 4

theorem Dev.stackDecoder_fails (d : Dev) {k : Nat} (hk : k < 16) :
    ((d.mechFails (.stackDecoder k)).stack k).lost = true := by
  rw [Dev.mechFails, if_pos (by simpa [stackOk] using hk)]
  exact Dev.loseStack_lost d k

theorem Dev.engineResidue_fails (d : Dev) (k : Nat) :
    (d.mechFails (.engineResidue k)).skillet k = { d.skillet k with engineOk := false } :=
  Dev.skillet_modSkillet _ _ _

/-- The fence of a junction die leaves it fenced, or is a safe stop where the other die is fenced already (R28). -/
theorem Dev.fenceJd_fenced_or_stops (d : Dev) {j : Nat} (hj : j < 2) (reason : Nat) :
    ((d.fenceJd j reason).jd j).fenced = true ∨ (d.fenceJd j reason).saf.safeStop = true := by
  cases h : (d.jd j).fenced with
  | true => exact .inl (by rw [Dev.fenceJd, if_pos h, h])
  | false =>
    cases hother : (d.jd (1 - j)).fenced with
    | true =>
      refine .inr ?_
      rw [Dev.fenceJd, if_neg (by simp [h]), if_pos hother]
      exact Dev.safeStopNow_set d 5
    | false =>
      obtain ⟨hfenced, -⟩ := Dev.fenceJd_facts d j reason h hother hj
      exact .inl hfenced

theorem Dev.junctionCompare_fails (d : Dev) {j : Nat} (hj : j < 2) :
    ((d.mechFails (.junctionCompare j)).jd j).fenced = true ∨ (d.mechFails (.junctionCompare j)).saf.safeStop = true := by
  rw [Dev.mechFails, if_pos hj]
  exact Dev.fenceJd_fenced_or_stops d hj 4

/-! The obligation. -/

/-- Settles O46: the return of each unit by its `unitReturn` lemma, the start of a test by `Dev.references_modCore` in both
of its rows, the end by `Dev.testEnd_passed` and `Dev.testEnd_failed`, and each mechanism by its `fails` lemma. -/
theorem selfTests : Obligations.SelfTests := by
  unfold Obligations.SelfTests
  intro s g k i j p step work
  refine ⟨⟨?core, ?skillet, ?stackCtl, ?engine, ?jd, ?iod, ?crockPort, ?fabPort⟩,
    ?starts, fun h => exec_selftestIdle_ignored h work, ?reserves, fun hg ht => ⟨?passes, ?fails⟩,
    fun ht ok => State.next_same (Dev.testEnd_ignored ht ok step), ?deadline, exec_selftestDeadline_ignored,
    fun m => exec_mechanismTest_passed m s, ?mechanisms, ?lockstep, ?junction⟩
  case core => exact fun hg hf => ⟨_, exec_unitReturn _ s, Dev.core_unitReturn hg hf⟩
  case skillet => exact fun hk hf hm => ⟨_, exec_unitReturn _ s, Dev.skillet_unitReturn hk hf hm⟩
  case stackCtl => exact fun hf => ⟨_, exec_unitReturn _ s, Dev.stackCtl_unitReturn hf⟩
  case engine => exact fun hf => ⟨_, exec_unitReturn _ s, Dev.engine_unitReturn hf⟩
  case jd => exact exec_unitReturn (.jd j) s
  case iod => exact fun hi => ⟨_, exec_unitReturn _ s, Dev.iod_unitReturn hi⟩
  case crockPort => exact fun hf => ⟨_, exec_unitReturn _ s, Dev.crockPort_unitReturn hf⟩
  case fabPort => exact fun hf => ⟨_, exec_unitReturn _ s, Dev.fabPort_unitReturn hf⟩
  case starts =>
    exact fun h => ⟨_, exec_selftestIdle_starts h work,
      Dev.references_modCore s.dev g work (fun x => { x with testing := true }) rfl⟩
  case reserves =>
    intro hg hr
    obtain ⟨hcores, hcore, hothers, hparts, hregions, hruns, hnoWork⟩ := Dev.references_modCore s.dev g work
      (fun x => { x with reserved := true, testing := s.dev.testStarts g || x.testing }) rfl
    have hres := congrArg Core.reserved hcore
    exact ⟨_, exec_selftestReserve_accepted hg hr work, hcores, hres, Dev.coreReady_of_reserved hres,
      fun h => by simp [h], hothers, hparts, hregions, hruns, hnoWork⟩
  case passes => exact ⟨_, exec_selftestEnd g true step s, Dev.testEnd_passed hg ht step⟩
  case fails => exact fun hr => ⟨_, exec_selftestEnd g false step s, Dev.testEnd_failed hg ht hr step⟩
  case deadline =>
    intro hg hr ho
    refine ⟨_, exec_selftestDeadline_due hg hr ho, ?_⟩
    have hcore (h : Nat) := Dev.core_raise (s.dev.modCore g (fun x => { x with overdue := true }))
      { code := evSelftestOverdue, unit := unitCore g, payload := leBytes 1 g } (unitCore g) h
    have hover := (hcore g).trans (Dev.core_modCore _ _ _)
    exact ⟨hover, Dev.coreReady_of_overdue (congrArg Core.overdue hover),
      fun h hne => (hcore h).trans (Dev.core_modCore_ne _ hne _)⟩
  case mechanisms =>
    exact fun hk => ⟨_, _, _, exec_mechanismTest_failed _ s, exec_mechanismTest_failed _ s, exec_mechanismTest_failed _ s,
      Dev.stackDecoder_fails _ hk,
      (Dev.engineResidue_fails _ k).trans (by rw [Dev.skillet_raise]),
      Dev.crossbarLink_fails _ hk⟩
  case lockstep => exact ⟨_, exec_mechanismTest_failed _ s, Dev.safeStopNow_set _ 0⟩
  case junction => exact fun hj => ⟨_, exec_mechanismTest_failed _ s, Dev.junctionCompare_fails _ hj⟩

end Sys2Proof.Machine
end

section
/-!
PROOF. Doorbells and descriptor fetches (R342 to R344): the indices of a pair, and its error state.
-/

namespace Sys2Proof.Machine

/-! The rows. -/

theorem exec_sqTail_live {s : State} {f : Nat} (h : s.dev.fnLive f = true) (q v : Nat) (w : Bool) :
    exec (.sqTail f q v w) s = .next (s.onDev (fun d => d.sqTail f q v w)) := by
  have harm : exec (.sqTail f q v w) s = execSqTail f q v w s := rfl
  rw [harm, execSqTail, State.onFn_live h]

theorem exec_cqHead_live {s : State} {f : Nat} (h : s.dev.fnLive f = true) (q v : Nat) (w : Bool) :
    exec (.cqHead f q v w) s = .next (s.onDev (fun d => d.cqHead f q v w)) := by
  have harm : exec (.cqHead f q v w) s = execCqHead f q v w s := rfl
  rw [harm, execCqHead, State.onFn_live h]

theorem exec_descriptorFetch (f q : Nat) (rd : HostRead) (s : State) :
    exec (.descriptorFetch f q rd) s = .next (s.onDev (fun d => d.fetch f q rd)) := rfl

theorem Dev.mayFetch_of_err {d : Dev} {f : Nat} {x : Qp} (herr : x.err = true) : d.mayFetch f x = false := by
  simp [Dev.mayFetch, herr]

section
variable {d : Dev} {f q : Nat} {x : Qp} (hx : d.qp f q = some x)
include hx

/-! SQ_TAIL. -/

theorem Dev.sqTail_narrow (v : Nat) : d.sqTail f q v false = d := by
  simp [Dev.sqTail, hx]

theorem Dev.sqTail_same : d.sqTail f q x.sqTail true = d := by
  simp [Dev.sqTail, hx]

theorem Dev.sqTail_beyond (hdeaf : d.deaf f = false) {v : Nat} (hv : x.sqSize ≤ v) (hne : v ≠ x.sqTail) :
    d.sqTail f q v true = d.qpError f q 0 := by
  simp [Dev.sqTail, hx, hdeaf, hne, hv]

/-- A new tail inside the queue is stored, and the pair is otherwise as it was (R342). -/
theorem Dev.sqTail_within (hdeaf : d.deaf f = false) {v : Nat} (hv : v < x.sqSize) :
    (d.sqTail f q v true).qp f q = some { x with sqTail := v } ∧ d.OnlyPair (d.sqTail f q v true) f q := by
  by_cases hne : v = x.sqTail
  · subst hne
    rw [Dev.sqTail_same hx]
    exact ⟨hx, Dev.onlyPair_refl _ _ _⟩
  · have hset : d.sqTail f q v true = d.putQp f q { x with sqTail := v } := by
      simp [Dev.sqTail, hx, hdeaf, hne, hv]
    rw [hset]
    exact ⟨Dev.qp_putQp _ _ _ _, Dev.onlyPair_putQp _ _ _ _⟩

/-! CQ_HEAD. -/

theorem Dev.cqHead_narrow (v : Nat) : d.cqHead f q v false = d := by
  simp [Dev.cqHead, hx]

theorem Dev.cqHead_same : d.cqHead f q x.cqHead true = d := by
  simp [Dev.cqHead, hx]

theorem Dev.cqHead_beyond (hdeaf : d.deaf f = false) {v : Nat}
    (hv : x.cqSize ≤ v ∨ x.posted < (v + x.cqSize - x.cqHead) % x.cqSize) (hne : v ≠ x.cqHead) :
    d.cqHead f q v true = d.qpError f q 0 := by
  simp [Dev.cqHead, hx, hdeaf, hne, hv]

theorem Dev.cqHead_moves (hdeaf : d.deaf f = false) {v : Nat}
    (hp : (v + x.cqSize - x.cqHead) % x.cqSize ≤ x.posted) (hv : v < x.cqSize) (hne : v ≠ x.cqHead) :
    d.cqHead f q v true = if v = x.cqTail then (d.putQp f q { x with cqHead := v }).setLine f (q + 1) false
      else d.putQp f q { x with cqHead := v } := by
  simp [Dev.cqHead, hx, hdeaf, hne, hv, hp]

/-- A new head up to the tail is stored; at the tail the line of the pair falls (R342, R392). -/
theorem Dev.cqHead_within (hdeaf : d.deaf f = false) {v : Nat}
    (hp : (v + x.cqSize - x.cqHead) % x.cqSize ≤ x.posted) (hv : v < x.cqSize) :
    (d.cqHead f q v true).qp f q = some { x with cqHead := v } ∧ d.OnlyPair (d.cqHead f q v true) f q ∧
    (q < 128 → v ≠ x.cqHead → v = x.cqTail → (((d.cqHead f q v true).fn f).int.src (q + 1)).line = false) := by
  by_cases hne : v = x.cqHead
  · subst hne
    rw [Dev.cqHead_same hx]
    exact ⟨hx, Dev.onlyPair_refl _ _ _, fun _ h => absurd rfl h⟩
  · rw [Dev.cqHead_moves hx hdeaf hp hv hne]
    have honly := Dev.onlyPair_putQp d f q { x with cqHead := v }
    split
    · exact ⟨by simp, Dev.onlyPair_told honly (Dev.reports_setLine _ _ _ _),
        fun hq _ _ => Dev.line_setLine _ _ _ _ (srcValid_pair hq)⟩
    · next htail => exact ⟨by simp, honly, fun _ _ h => absurd h htail⟩

/-! DESCRIPTOR_FETCH. -/

theorem Dev.fetch_stopped (hno : d.mayFetch f x = false) (rd : HostRead) : d.fetch f q rd = d := by
  simp [Dev.fetch, hx, hno]

theorem Dev.fetch_ok (hmay : d.mayFetch f x = true) (b : Bytes) :
    d.fetch f q (.ok b) = d.putQp f q { x with sqHead := (x.sqHead + 1) % x.sqSize, nextK := x.nextK + 1,
                                               cmds := x.cmds ++ [{ k := x.nextK, desc := padTo 64 b }] } := by
  simp [Dev.fetch, hx, hmay]

theorem Dev.fetch_failed (hmay : d.mayFetch f x = true) {rd : HostRead} (hrd : rd = .failed ∨ rd = .poisoned) :
    d.fetch f q rd = d.qpError f q 1 := by
  rcases hrd with rfl | rfl <;> simp [Dev.fetch, hx, hmay]

end

/-! The obligation. -/

/-- Settles O1: the index writes and fetches that are taken by the `within` and `ok` lemmas of the three rows, the others
by their `same`, `narrow`, `beyond` and `failed` lemmas and the error state by `Dev.qpError_qp`. -/
theorem queueDoorbells : Obligations.QueueDoorbells := by
  unfold Obligations.QueueDoorbells
  refine ⟨fun s f q v x hlive hx hdeaf => ⟨fun hv => ?tail, fun hp hv => ?head, fun b hmay => ?fetches⟩,
    fun s f q x rd hx herr => ?stuck, fun s f q v x hlive hx hdeaf herr => ?ignored⟩
  case tail => exact ⟨_, exec_sqTail_live hlive q v true, Dev.sqTail_within hx hdeaf hv⟩
  case head => exact ⟨_, exec_cqHead_live hlive q v true, Dev.cqHead_within hx hdeaf hp hv⟩
  case fetches =>
    refine ⟨_, exec_descriptorFetch f q (.ok b) s, ?_⟩
    rw [State.onDev_dev, Dev.fetch_ok hx hmay]
    exact ⟨Dev.qp_putQp _ _ _ _, Dev.onlyPair_putQp _ _ _ _⟩
  case stuck =>
    rw [exec_descriptorFetch]
    exact State.next_same (Dev.fetch_stopped hx (Dev.mayFetch_of_err herr) rd)
  case ignored =>
    have herror (c : Nat) := Dev.qpError_qp s.dev f q c x hx herr
    rw [exec_sqTail_live hlive, exec_cqHead_live hlive, exec_sqTail_live hlive, exec_cqHead_live hlive]
    refine ⟨State.next_same (Dev.sqTail_narrow hx v), State.next_same (Dev.cqHead_narrow hx v),
      State.next_same (Dev.sqTail_same hx), State.next_same (Dev.cqHead_same hx),
      fun hv hne => ⟨_, exec_sqTail_live hlive q v true, ?_⟩, fun hv hne => ⟨_, exec_cqHead_live hlive q v true, ?_⟩,
      fun hmay rd hrd => ⟨_, exec_descriptorFetch f q rd s, ?_⟩⟩ <;> rw [State.onDev_dev]
    · rw [Dev.sqTail_beyond hx hdeaf hv hne, herror]
    · rw [Dev.cqHead_beyond hx hdeaf hv hne, herror]
    · rw [Dev.fetch_failed hx hmay hrd, herror]

end Sys2Proof.Machine
end

section
/-!
PROOF. Completions (R345 to R349): the release of an ended command, and a deferred context completion.
-/

namespace Sys2Proof.Machine

theorem exec_completionRelease (r : CmdRef) (s : State) :
    exec (.completionRelease r) s = .next (s.onDev (fun d => d.release r)) := rfl

theorem exec_deferredCompletion (f q : Nat) (s : State) :
    exec (.deferredCompletion f q) s = .next (s.onDev (fun d => d.postDeferred f q)) := rfl

/-- The pair without a completed command: its status is kept for a later SIGNAL, and a completed SIGNAL sets the mark from
which the next one judges (R353). -/
def Qp.without (x : Qp) (k : Nat) (c : Cmd) : Qp :=
  { x with cmds := x.cmds.filter (fun y => y.k != k),
           sigFrom := if c.op == 0x2A then k + 1 else x.sigFrom,
           done := if c.op == 0x2A then x.done.filter (fun z => decide (k < z.1)) else x.done ++ [(k, c.status)] }

/-- A completed command of a pair that is not being deleted leaves the pair, and nothing else changes. -/
theorem Dev.retireCmd_kept {d : Dev} {r : CmdRef} {x : Qp} (hx : d.qp r.f r.q = some x) (hd : x.discard = false)
    (c : Cmd) : d.retireCmd r c = d.putQp r.f r.q (x.without r.k c) := by
  simp [Dev.retireCmd, Dev.modQp, hx, hd, Qp.without]

/-- The release of a command whose results are all in posts its entry (R345, R467). -/
theorem Dev.release_of_ended {d : Dev} {r : CmdRef} {c : Cmd} (hc : d.cmd r = some c) (hp : c.phase = .ended)
    (ha : c.await = []) (ht : c.tags = []) (hcl : d.cleared c = true) (hs : d.saf.safeStop = false) :
    d.release r = (d.post r.f r.q c.result0 c.tag c.status c.result1 c.detail 0 (bit (byteAt c.desc 1) 0)).retireCmd r c := by
  simp [Dev.release, hc, hp, ha, ht, hcl, hs]

theorem Dev.postDeferred_next {d : Dev} {f q i : Nat} {l : List Nat} {x : Qp} (hx : d.qp f q = some x)
    (hl : x.deferred = i :: l) (hroom : x.load < x.cqSize - 1) :
    d.postDeferred f q = (d.putQp f q { x with deferred := l }).postCtx f i true := by
  simp [Dev.postDeferred, hx, hl, hroom]

/-- Settles O2: `Dev.post_facts` says what the entry is, `Dev.retireCmd_kept` what the release leaves of the pair. -/
theorem completionsPost : Obligations.CompletionsPost := by
  unfold Obligations.CompletionsPost
  refine ⟨fun s r x c hx hc hp ha ht hcl herr hdis hsafe hq => ?release,
    fun s f q i l x hx hl hroom herr hdis hsafe hctx => ?deferred⟩
  case release =>
    obtain ⟨hpair, hout, hline, -⟩ := Dev.post_facts s.dev r.f r.q c.result0 c.tag c.status c.result1 c.detail 0
      (bit (byteAt c.desc 1) 0) x hx herr hdis hsafe
    have hdev := Dev.release_of_ended hc hp ha ht hcl hsafe
    rw [Dev.retireCmd_kept hpair hdis] at hdev
    refine ⟨_, _, exec_completionRelease r s, by rw [State.onDev_dev, hdev]; exact Dev.qp_putQp _ _ _ _, rfl, rfl, rfl, ?_⟩
    rw [State.onDev_dev, hdev]
    exact ⟨by simpa [Dev.putQp, entryBytes] using hout, fun hint => hline hint hq⟩
  case deferred =>
    obtain ⟨hpair, hout, -, -⟩ := Dev.post_facts (s.dev.putQp f q { x with deferred := l }) f q (s.dev.ctx i).step
      (s.dev.ctx i).tag (s.dev.ctx i).lastStatus ((s.dev.ctx i).handle i) ((s.dev.ctx i).cstate + 256 * (s.dev.ctx i).block)
      6 false { x with deferred := l } (Dev.qp_putQp _ _ _ _) herr hdis hsafe
    have hdev : (s.onDev (fun d => d.postDeferred f q)).dev = (s.dev.putQp f q { x with deferred := l }).post f q
        (s.dev.ctx i).step (s.dev.ctx i).tag (s.dev.ctx i).lastStatus ((s.dev.ctx i).handle i)
        ((s.dev.ctx i).cstate + 256 * (s.dev.ctx i).block) 6 false := by
      rw [State.onDev_dev, Dev.postDeferred_next hx hl hroom]
      exact congrArg (fun q => Dev.post _ f q _ _ _ _ _ _ _) hctx
    refine ⟨_, _, exec_deferredCompletion f q s, by rw [hdev, hpair], rfl, rfl, ?_⟩
    rw [hdev]
    exact hout

end Sys2Proof.Machine
end

section
/-!
PROOF. The queue-pair commands (R356): QP_CREATE with its quota (R339) and its source (R393), QP_FLUSH and QP_DELETE.
-/

namespace Sys2Proof.Machine

theorem exec_qpCreate (r : CmdRef) (s : State) : exec (.qpCreate r) s = .next (s.onDev (fun d => d.qpCreate r)) := rfl
theorem exec_qpFlush (r : CmdRef) (s : State) : exec (.qpFlush r) s = .next (s.onDev (fun d => d.qpFlush r)) := rfl
theorem exec_qpDelete (r : CmdRef) (s : State) : exec (.qpDelete r) s = .next (s.onDev (fun d => d.qpDelete r)) := rfl

/-! Commands of the admin pair: the pair they name is another one. -/

/-- A ready command of an opcode below 0x10 stands on the admin pair (R354). -/
theorem Dev.ready_admin {d : Dev} {r : CmdRef} {op : Nat} {c : Cmd} (h : d.Ready r op c) (ho : op < 0x10) : r.q = 0 := by
  obtain ⟨-, hop, hok, -⟩ := h
  exact Dev.admin_q hok (by omega)

/-- A ready command waits. -/
theorem Dev.ready_waiting {d : Dev} {r : CmdRef} {op : Nat} {c : Cmd} (h : d.Ready r op c) : c.phase = .waiting := by
  obtain ⟨hstart, -⟩ := h
  exact (Dev.startable_some hstart).2.1

theorem Dev.cmd_putQp_ne {d : Dev} {r : CmdRef} {f q : Nat} (h : qpKey f q ≠ qpKey r.f r.q) (x : Qp) :
    (d.putQp f q x).cmd r = d.cmd r := by
  rw [Dev.cmd, Dev.cmd, Dev.qp_putQp_ne d h.symm]

/-- The command of a reference depends on its pair alone. -/
theorem Dev.cmd_congr {d d' : Dev} {r : CmdRef} (h : d'.qp r.f r.q = d.qp r.f r.q) : d'.cmd r = d.cmd r := by
  rw [Dev.cmd, Dev.cmd, h]

/-! QP_CREATE. -/

/-- The function has no room for pair `q`: the physical function has pairs 0 to 7, a virtual one its partition's quota
(R339). -/
def Dev.pairsFull (d : Dev) (f q : Nat) : Bool :=
  if f = 0 then decide (7 < q)
  else decide ((match d.part f with
    | some p => p.qps
    | none => 8) ≤ (d.pairsOf f).length)

/-- The descriptor of a QP_CREATE, its fields in range (R356). -/
structure Cmd.Creates (c : Cmd) (q sl cl v sb cb : Nat) : Prop where
  hdr : hdrOk c.desc 0 [(8, 6), (0x10, 16)] = true
  pair : c.f 0x08 2 = q ∧ 1 ≤ q ∧ q ≤ 127
  sq : byteAt c.desc 0x0A = sl ∧ 6 ≤ sl ∧ sl ≤ 16
  cq : byteAt c.desc 0x0B = cl ∧ 6 ≤ cl ∧ cl ≤ 16
  vec : c.f 0x0C 2 = v ∧ v ≤ 2047
  sqBase : c.f 0x10 8 = sb ∧ sb % 4096 = 0
  cqBase : c.f 0x18 8 = cb ∧ cb % 4096 = 0

/-- The new pair of a QP_CREATE, with its source on vector `v` and enabled. -/
def Dev.newPair (d : Dev) (f q v : Nat) (x : Qp) : Dev :=
  (d.putQp f q x).withInt f (fun i => (i.setVector (q + 1) v).setEnable (q + 1) true)

theorem Dev.qpCreate_valid {d : Dev} {r : CmdRef} {c : Cmd} {q sl cl v sb cb : Nat} (hc : d.Ready r 0x01 c)
    (h : c.Creates q sl cl v sb cb) :
    d.qpCreate r = if (d.qp r.f q).isSome then d.finish r stQpState
      else if d.pairsFull r.f q then d.finish r stQpSpace
      else (d.newPair r.f q v { num := if r.f = 0 then q else d.freeQpNum, sqBase := sb, cqBase := cb,
                                sqSize := 2 ^ sl, cqSize := 2 ^ cl }).finish r stSuccess := by
  obtain ⟨hhdr, ⟨rfl, hq1, hq2⟩, ⟨rfl, hsl1, hsl2⟩, ⟨rfl, hcl1, hcl2⟩, ⟨rfl, hv⟩, ⟨rfl, hsb⟩, rfl, hcb⟩ := h
  rw [Dev.qpCreate, Dev.withCmd_of hc]
  have hfields : ¬((!hdrOk c.desc 0 [(8, 6), (0x10, 16)]) = true ∨ c.f 0x08 2 = 0 ∨ 127 < c.f 0x08 2 ∨
      byteAt c.desc 0x0A < 6 ∨ 16 < byteAt c.desc 0x0A ∨ byteAt c.desc 0x0B < 6 ∨ 16 < byteAt c.desc 0x0B ∨
      2047 < c.f 0x0C 2 ∨ c.f 0x10 8 % 4096 ≠ 0 ∨ c.f 0x18 8 % 4096 ≠ 0) := by
    rw [hhdr]
    simp only [Bool.not_true, Bool.false_eq_true, false_or]
    omega
  dsimp only
  rw [if_neg hfields]
  rfl

theorem Dev.pairsFull_of {d : Dev} {f q : Nat}
    (h : f = 0 ∧ 7 < q ∨ f ≠ 0 ∧ ∃ p, d.part f = some p ∧ p.qps ≤ (d.pairsOf f).length) : d.pairsFull f q = true := by
  obtain ⟨rfl, hq⟩ | ⟨hf, p, hp, hl⟩ := h
  · simpa [Dev.pairsFull] using hq
  · simpa [Dev.pairsFull, hf, hp] using hl

theorem Dev.pairsRoom_of {d : Dev} {f q : Nat}
    (h : f = 0 ∧ q ≤ 7 ∨ f ≠ 0 ∧ ∃ p, d.part f = some p ∧ (d.pairsOf f).length < p.qps) : d.pairsFull f q = false := by
  obtain ⟨rfl, hq⟩ | ⟨hf, p, hp, hl⟩ := h
  · simpa [Dev.pairsFull] using hq
  · simpa [Dev.pairsFull, hf, hp] using hl

theorem Dev.qp_newPair (d : Dev) (f q v : Nat) (x : Qp) : (d.newPair f q v x).qp f q = some x := by
  rw [Dev.newPair, Dev.qp_withInt, Dev.qp_putQp]

theorem Dev.cmd_newPair {d : Dev} {r : CmdRef} {f q : Nat} (h : qpKey f q ≠ qpKey r.f r.q) (v : Nat) (x : Qp) :
    (d.newPair f q v x).cmd r = d.cmd r :=
  (Dev.cmd_congr (Dev.qp_withInt _ _ _ _ _)).trans (Dev.cmd_putQp_ne h x)

/-- The source of the new pair has the vector, is enabled, and keeps its priority (R393). -/
theorem Dev.src_newPair (d : Dev) {f q : Nat} (hq : q < 128) (v : Nat) (x : Qp) :
    (((d.newPair f q v x).fn f).int.src (q + 1)).vec = v ∧ (((d.newPair f q v x).fn f).int.src (q + 1)).en = true ∧
    (((d.newPair f q v x).fn f).int.src (q + 1)).prio = ((d.fn f).int.src (q + 1)).prio := by
  rw [Dev.newPair, Dev.src_withInt, IntCtl.setEnable, IntCtl.setVector, IntCtl.src_setSrc _ _ _ (srcValid_pair hq),
    IntCtl.src_setSrc _ _ _ (srcValid_pair hq), Dev.fn_putQp]
  obtain ⟨hvec, hen, hprio, -⟩ := IntSrc.settle_same { (d.fn f).int.src (q + 1) with vec := v }
  generalize IntSrc.settle _ = y at *
  obtain ⟨hvec', hen', hprio', -⟩ := IntSrc.settle_same { y with en := true, pend := y.pend && true }
  exact ⟨hvec'.trans hvec, hen', hprio'.trans hprio⟩

theorem Dev.fn_finish (d : Dev) (r : CmdRef) (st r0 r1 det : Nat) (dies : List Nat) (f : Nat) :
    (d.finish r st r0 r1 det dies).fn f = d.fn f := by
  obtain ⟨m, hm⟩ := Dev.modQp_shape d r.f r.q _
  rw [Dev.finish, Dev.modCmd, hm]
  rfl

/-- Settles O4: `Dev.qpCreate_valid` names the three outcomes, and the pair's other facts survive the command's end. -/
theorem qpCreateMakesPair : Obligations.QpCreateMakesPair := by
  unfold Obligations.QpCreateMakesPair
  intro s r c q sl cl v sb cb hc hh hq hsl hcl hv hsb hcb hq1 hq2 hsl1 hsl2 hcl1 hcl2 hv2 hsb2 hcb2
  have hvalid := Dev.qpCreate_valid hc ⟨hh, ⟨hq.symm, hq1, hq2⟩, ⟨hsl.symm, hsl1, hsl2⟩, ⟨hcl.symm, hcl1, hcl2⟩,
    ⟨hv.symm, hv2⟩, ⟨hsb.symm, hsb2⟩, ⟨hcb.symm, hcb2⟩⟩
  have hkey := qpKey_ne (Dev.ready_admin hc (by decide)) hq1 hq2
  have hends {d : Dev} (hcmd : d.cmd r = s.dev.cmd r) {st : Nat} (hst : st ≠ stPoisoned) :
      (d.finish r st).Ended r st 0 0 0 :=
    Dev.ended_finish d (hcmd.trans (Dev.ready_cmd hc)) (Dev.ready_marks hc) hst 0 0 0 []
  refine ⟨fun x hx => ⟨_, exec_qpCreate r s, ?_⟩, fun hnone hfull => ⟨_, exec_qpCreate r s, ?_⟩,
    fun hnone hroom => ⟨_, exec_qpCreate r s, ?_⟩⟩ <;> rw [State.onDev_dev, hvalid]
  · rw [hx, Option.isSome_some, if_pos rfl, Dev.qp_finish_ne _ _ _ _ _ _ _ _ _ hkey]
    exact ⟨hends rfl (by decide), hx⟩
  · rw [hnone, Option.isSome_none, if_neg Bool.false_ne_true, if_pos (Dev.pairsFull_of hfull),
      Dev.qp_finish_ne _ _ _ _ _ _ _ _ _ hkey]
    exact ⟨hends rfl (by decide), hnone⟩
  · rw [hnone, Option.isSome_none, if_neg Bool.false_ne_true, Dev.pairsRoom_of hroom, if_neg Bool.false_ne_true,
      Dev.qp_finish_ne _ _ _ _ _ _ _ _ _ hkey, Dev.qp_newPair, Dev.fn_finish]
    exact ⟨hends (Dev.cmd_newPair hkey _ _) (by decide), rfl, Dev.src_newPair s.dev (by omega) v _⟩

/-! QP_FLUSH. -/

/-- A QP_FLUSH or QP_DELETE that names a pair from 1 to 127 (R356). -/
structure Cmd.Names (c : Cmd) (q : Nat) : Prop where
  hdr : hdrOk c.desc 0 [(8, 2)] = true
  pair : c.f 0x08 2 = q ∧ 1 ≤ q ∧ q ≤ 127

theorem Cmd.Names.fields {c : Cmd} {q : Nat} (h : c.Names q) :
    ¬((!hdrOk c.desc 0 [(8, 2)]) = true ∨ c.f 0x08 2 = 0 ∨ 127 < c.f 0x08 2) := by
  obtain ⟨hhdr, rfl, h1, h2⟩ := h
  rw [hhdr]
  simp only [Bool.not_true, Bool.false_eq_true, false_or]
  omega

theorem Dev.qpFlush_absent {d : Dev} {r : CmdRef} {c : Cmd} {q : Nat} (hc : d.Ready r 0x03 c) (h : c.Names q)
    (hx : d.qp r.f q = none) : d.qpFlush r = d.finish r stQpState := by
  rw [Dev.qpFlush, Dev.withCmd_of hc]
  dsimp only
  rw [if_neg h.fields, h.pair.1, hx]

theorem Dev.qpFlush_pair {d : Dev} {r : CmdRef} {c : Cmd} {q : Nat} {x : Qp} (hc : d.Ready r 0x03 c) (h : c.Names q)
    (hx : d.qp r.f q = some x) :
    d.qpFlush r = (d.putQp r.f q x.abortWaiting.1).finish r stSuccess x.abortWaiting.2 := by
  rw [Dev.qpFlush, Dev.withCmd_of hc]
  dsimp only
  rw [if_neg h.fields, h.pair.1, hx]

/-- A flush ends what waits or is held, and leaves the rest (R356). -/
theorem Qp.abortWaiting_eq (x : Qp) : x.abortWaiting =
    ({ x with cmds := x.cmds.map (fun z =>
        if z.phase = .waiting ∨ z.phase = .held then { z with phase := .ended, status := stAborted } else z) },
      (x.cmds.filter (fun z => z.phase == .waiting || z.phase == .held)).length) := by
  simp [Qp.abortWaiting]

/-! QP_DELETE. -/

theorem Dev.qpDelete_first {d : Dev} {r : CmdRef} {c : Cmd} {q : Nat} (hc : d.Ready r 0x02 c) (h : c.Names q) :
    d.qpDelete r = if (d.qp r.f q).isNone then d.finish r stQpState
      else if ((d.shutPair r.f q).qp r.f q).isNone then (d.shutPair r.f q).finish r stSuccess
      else (d.shutPair r.f q).modCmd r (fun c => { c with phase := .running }) := by
  have hrun : d.runningCmd r 0x02 = none := by
    simp [Dev.runningCmd, Dev.ready_cmd hc, Dev.ready_waiting hc]
  rw [Dev.qpDelete, hrun, Dev.withCmd_of hc]
  dsimp only
  rw [if_neg h.fields, h.pair.1]

theorem Dev.qpDelete_again {d : Dev} {r : CmdRef} {c : Cmd} {q : Nat} (hc : d.cmd r = some c) (ho : c.op = 0x02)
    (hp : c.phase = .running) (h : c.f 0x08 2 = q) :
    d.qpDelete r = if (d.qp r.f q).isNone then d.finish r stSuccess else d := by
  have hrun : d.runningCmd r 0x02 = some c := by simp [Dev.runningCmd, hc, ho, hp]
  rw [Dev.qpDelete, hrun]
  dsimp only
  rw [h]

/-- A pair shut keeps its running commands, or is gone where it has none. -/
theorem Dev.qp_shutPair {d : Dev} {f q : Nat} {x : Qp} (hx : d.qp f q = some x) : (d.shutPair f q).qp f q = x.left := by
  obtain ⟨m, hrep, -, hm, -⟩ := Dev.shutPair_facts d f q
  rw [Dev.qp, hrep.qps]
  change kfind m _ = _
  rw [hm, hx, Option.bind_some]

theorem Dev.cmd_shutPair {d : Dev} {r : CmdRef} {f q : Nat} (h : qpKey r.f r.q ≠ qpKey f q) :
    (d.shutPair f q).cmd r = d.cmd r := by
  obtain ⟨m, hrep, hne, -⟩ := Dev.shutPair_facts d f q
  refine Dev.cmd_congr ?_
  rw [Dev.qp, hrep.qps]
  exact hne _ h

theorem Dev.qp_modCmd_ne (d : Dev) {r : CmdRef} {f q : Nat} (h : qpKey f q ≠ qpKey r.f r.q) (g : Cmd → Cmd) :
    (d.modCmd r g).qp f q = d.qp f q := Dev.qps_modCmd_ne d g h

/-- Settles O5: the flush by `Qp.abortWaiting_eq`, the deletion by what `Dev.qp_shutPair` leaves of the pair. -/
theorem qpFlushDelete : Obligations.QpFlushDelete := by
  unfold Obligations.QpFlushDelete
  intro s r c q hq hq1 hq2 hh
  have hnames : c.Names q := ⟨hh, hq.symm, hq1, hq2⟩
  have hends {op : Nat} (hc : s.dev.Ready r op c) {d : Dev} (hcmd : d.cmd r = s.dev.cmd r) {st : Nat}
      (hst : st ≠ stPoisoned) (n : Nat) : (d.finish r st n).Ended r st n 0 0 :=
    Dev.ended_finish d (hcmd.trans (Dev.ready_cmd hc)) (Dev.ready_marks hc) hst n 0 0 []
  refine ⟨fun x hx => ⟨fun hc => ?flush, fun hc hidle => ?removed, fun hc hbusy => ?shut, fun hc ho hp => ?waits⟩,
    fun hnone => ⟨fun hc => ?noFlush, fun hc => ?noDelete, fun hc ho hp hm => ?gone⟩⟩
  case flush =>
    have hkey := qpKey_ne (Dev.ready_admin hc (by decide)) hq1 hq2
    refine ⟨_, exec_qpFlush r s, ?_⟩
    rw [State.onDev_dev, Dev.qpFlush_pair hc hnames hx, Dev.qp_finish_ne _ _ _ _ _ _ _ _ _ hkey, Dev.qp_putQp, Qp.abortWaiting_eq]
    exact ⟨rfl, hends hc (Dev.cmd_putQp_ne hkey _) (by decide) _⟩
  case removed =>
    have hkey := qpKey_ne (Dev.ready_admin hc (by decide)) hq1 hq2
    have hleft : (s.dev.shutPair r.f q).qp r.f q = none := (Dev.qp_shutPair hx).trans (Qp.left_none hidle)
    refine ⟨_, exec_qpDelete r s, ?_⟩
    rw [State.onDev_dev, Dev.qpDelete_first hc hnames, hx, hleft, Option.isNone_some, if_neg Bool.false_ne_true,
      Option.isNone_none, if_pos rfl, Dev.qp_finish_ne _ _ _ _ _ _ _ _ _ hkey]
    exact ⟨hleft, hends hc (Dev.cmd_shutPair hkey.symm) (by decide) 0⟩
  case shut =>
    have hkey := qpKey_ne (Dev.ready_admin hc (by decide)) hq1 hq2
    have hleft : (s.dev.shutPair r.f q).qp r.f q = some x.shut := (Dev.qp_shutPair hx).trans (Qp.left_some hbusy)
    refine ⟨_, x.shut, exec_qpDelete r s, ?_, rfl, rfl, Qp.shut_cmds x⟩
    rw [State.onDev_dev, Dev.qpDelete_first hc hnames, hx, hleft, Option.isNone_some, if_neg Bool.false_ne_true,
      Option.isNone_some, if_neg Bool.false_ne_true, Dev.qp_modCmd_ne _ hkey, hleft]
  case waits =>
    rw [exec_qpDelete]
    exact State.next_same (by rw [Dev.qpDelete_again hc ho hp hq.symm, hx]; rfl)
  case noFlush =>
    refine ⟨_, exec_qpFlush r s, ?_⟩
    rw [State.onDev_dev, Dev.qpFlush_absent hc hnames hnone]
    exact hends hc rfl (by decide) 0
  case noDelete =>
    refine ⟨_, exec_qpDelete r s, ?_⟩
    rw [State.onDev_dev, Dev.qpDelete_first hc hnames, hnone, Option.isNone_none, if_pos rfl]
    exact hends hc rfl (by decide) 0
  case gone =>
    refine ⟨_, exec_qpDelete r s, ?_⟩
    rw [State.onDev_dev, Dev.qpDelete_again hc ho hp hq.symm, hnone, Option.isNone_none, if_pos rfl]
    exact Dev.ended_finish _ hc hm (by decide) 0 0 0 []

end Sys2Proof.Machine
end

section
/-!
PROOF. The settings of interrupt sources (R393, R396), the registers of the event ring (R398, R554), and the frame of the
commands on both.
-/

namespace Sys2Proof.Machine

/-! The rows, on a function whose registers respond. -/

section
variable {s : State} {f : Nat} (h : s.dev.fnLive f = true)
include h

theorem exec_evtIntEnable_live (w mask : Nat) :
    exec (.evtIntEnable f w mask) s = .next (s.onDev (fun d => d.intEnable f w mask)) := by
  have harm : exec (.evtIntEnable f w mask) s = execEvtIntEnable f w mask s := rfl
  rw [harm, execEvtIntEnable, State.onFn_live h]

theorem exec_evtIntSense_live (n : Nat) {mode : Nat} (hm : mode < 4) :
    exec (.evtIntSense f n mode) s = .next (s.onDev (fun d => d.withInt f (fun c => c.setSense n mode))) := by
  have harm : exec (.evtIntSense f n mode) s = execEvtIntSense f n mode s := rfl
  simp [harm, execEvtIntSense, State.onFn_live h, hm]

theorem exec_evtIntVector_live (n : Nat) {v : Nat} (hv : v < 2048) :
    exec (.evtIntVector f n v) s = .next (s.onDev (fun d => d.withInt f (fun c => c.setVector n v))) := by
  have harm : exec (.evtIntVector f n v) s = execEvtIntVector f n v s := rfl
  simp [harm, execEvtIntVector, State.onFn_live h, hv]

theorem exec_evtIntPrio_live (n : Nat) {p : Nat} (hp : p < 8) :
    exec (.evtIntPrio f n p) s = .next (s.onDev (fun d => d.withInt f (fun c => c.setPrio n p))) := by
  have harm : exec (.evtIntPrio f n p) s = execEvtIntPrio f n p s := rfl
  simp [harm, execEvtIntPrio, State.onFn_live h, hp]

theorem exec_evtIntThreshold_live {p : Nat} (hp : p < 8) :
    exec (.evtIntThreshold f p) s = .next (s.onDev (fun d => d.withInt f (fun c => { c with thrNew := p }))) := by
  have harm : exec (.evtIntThreshold f p) s = execEvtIntThreshold f p s := rfl
  simp [harm, execEvtIntThreshold, State.onFn_live h, hp]

theorem exec_evtRingHead_live (v : Nat) (w : Bool) :
    exec (.evtRingHead f v w) s = .next (s.onDev (fun d => if w then d.modEvt f (fun r => r.setHead v) else d)) := by
  have harm : exec (.evtRingHead f v w) s = execEvtRingHead f v w s := rfl
  rw [harm, execEvtRingHead, State.onFn_live h]

theorem exec_evtRingSizeEn_live (k : Nat) (en : Bool) :
    exec (.evtRingSizeEn f k en) s = .next (s.onDev (fun d => d.modEvt f (fun r => r.setSize k en))) := by
  have harm : exec (.evtRingSizeEn f k en) s = execEvtRingSizeEn f k en s := rfl
  rw [harm, execEvtRingSizeEn, State.onFn_live h]

end

/-! The settings of a source: what a write leaves in it. -/

section
variable (c : IntCtl) {n : Nat} (hn : srcValid n = true)
include hn

theorem IntCtl.src_setEnable (en : Bool) :
    (c.setEnable n en).src n = IntSrc.settle { c.src n with en := en, pend := (c.src n).pend && en } :=
  IntCtl.src_setSrc c n _ hn

theorem IntCtl.src_setVector (v : Nat) : (c.setVector n v).src n = IntSrc.settle { c.src n with vec := v } :=
  IntCtl.src_setSrc c n _ hn

theorem IntCtl.src_setPrio (p : Nat) : (c.setPrio n p).src n = IntSrc.settle { c.src n with prioNew := p } :=
  IntCtl.src_setSrc c n _ hn

theorem IntCtl.src_setSense {mode : Nat} (hm : mode ≠ (c.src n).sense) :
    (c.setSense n mode).src n = IntSrc.settle { c.src n with sense := mode, pend := false } := by
  rw [IntCtl.setSense, if_neg (Ne.symm hm), IntCtl.src_setSrc _ _ _ hn]

end

/-- A write of an enable word leaves every source of it with its bit: one that changes as `setEnable` does, another one
untouched (R393). -/
theorem Dev.src_intEnable (d : Dev) (f w mask : Nat) {n b : Nat} (hb : b < 32) (hn : n = 32 * w + b)
    (hv : srcValid n = true) :
    ((d.intEnable f w mask).fn f).int.src n = if ((d.fn f).int.src n).en != bit mask b
      then ((d.fn f).int.setEnable n (bit mask b)).src n else (d.fn f).int.src n := by
  rw [Dev.intEnable, Dev.foldl_enable d f w mask n b hn hv _ List.nodup_range, if_pos (List.mem_range.2 hb)]

/-- What an enable bit written does to its source (R393). -/
theorem Dev.intEnable_facts (d : Dev) (f w mask : Nat) {n b : Nat} (hb : b < 32) (hn : n = 32 * w + b)
    (hv : srcValid n = true) :
    (((d.intEnable f w mask).fn f).int.src n).en = bit mask b ∧
    (((d.fn f).int.src n).en = true → bit mask b = false → (((d.intEnable f w mask).fn f).int.src n).pend = false) ∧
    (((d.fn f).int.src n).en = false → bit mask b = true → ((d.fn f).int.src n).sense = 0 →
      (((d.intEnable f w mask).fn f).int.src n).pend = (((d.fn f).int.src n).line && !((d.fn f).int.src n).insv)) := by
  rw [Dev.src_intEnable d f w mask hb hn hv, IntCtl.src_setEnable _ hv]
  generalize (d.fn f).int.src n = x
  by_cases hsame : x.en = bit mask b
  · rw [if_neg (by simp [hsame])]
    exact ⟨hsame, fun h h' => by simp_all, fun h h' => by simp_all⟩
  · rw [if_pos (by simpa using hsame)]
    obtain ⟨-, hen, -⟩ := IntSrc.settle_same { x with en := bit mask b, pend := x.pend && bit mask b }
    refine ⟨hen, fun _ h => ?_, fun _ h hs => ?_⟩ <;> rw [IntSrc.settle_pend] <;> simp [h]
    exact fun h' => absurd hs h'

/-- Settles O6: each write changes its source as its `src_set` lemma says, and `IntSrc.settle_same` says what stays. -/
theorem interruptSettings : Obligations.InterruptSettings := by
  unfold Obligations.InterruptSettings
  intro s f n hlive hn
  refine ⟨fun w mask b hb hnb => ⟨_, exec_evtIntEnable_live hlive w mask, ?enable⟩,
    fun mode hm hne => ⟨_, exec_evtIntSense_live hlive n hm, ?sense⟩,
    fun v hv => ⟨_, exec_evtIntVector_live hlive n hv, ?vector⟩,
    fun p hp => ⟨_, exec_evtIntPrio_live hlive n hp, ?prio⟩,
    fun p hp => ⟨_, exec_evtIntThreshold_live hlive hp, ?threshold⟩⟩ <;> rw [State.onDev_dev]
  case enable => exact Dev.intEnable_facts s.dev f w mask hb hnb hn
  case sense =>
    rw [Dev.src_withInt, IntCtl.src_setSense _ hn hne, IntSrc.settle_pend]
    obtain ⟨-, -, -, -, hsense, -⟩ := IntSrc.settle_same { (s.dev.fn f).int.src n with sense := mode, pend := false }
    exact ⟨hsense, fun h => if_neg h⟩
  case vector =>
    rw [Dev.src_withInt, IntCtl.src_setVector _ hn, IntSrc.settle_pend]
    obtain ⟨hvec, -, -, -, -, hinsv, -⟩ := IntSrc.settle_same { (s.dev.fn f).int.src n with vec := v }
    exact ⟨hvec, hinsv, fun h => if_neg h⟩
  case prio =>
    rw [Dev.src_withInt, IntCtl.src_setPrio _ hn]
    obtain ⟨-, -, hprio, hnew, -⟩ := IntSrc.settle_same { (s.dev.fn f).int.src n with prioNew := p }
    exact ⟨hnew, hprio⟩
  case threshold =>
    rw [Dev.int_withInt]
    obtain ⟨hthr, hnew⟩ := IntCtl.commit_keeps (s.dev.fn f).int { (s.dev.fn f).int with thrNew := p }
    exact ⟨hnew, hthr⟩

/-! The event ring. -/

theorem EvtRing.setHead_taken {r : EvtRing} {v : Nat} (hne : v ≠ r.head) (hv : v < 2 ^ r.log2)
    (hle : (v + 2 ^ r.log2 - r.head) % 2 ^ r.log2 ≤ (r.tail + 2 ^ r.log2 - r.head) % 2 ^ r.log2) :
    r.setHead v = { r with head := v } := by
  simp [EvtRing.setHead, hne, hv, hle]

theorem EvtRing.setHead_rejected {r : EvtRing} {v : Nat} (hne : v ≠ r.head)
    (h : 2 ^ r.log2 ≤ v ∨ (r.tail + 2 ^ r.log2 - r.head) % 2 ^ r.log2 < (v + 2 ^ r.log2 - r.head) % 2 ^ r.log2) :
    r.setHead v = { r with headRej := true } := by
  simp [EvtRing.setHead, hne, h]

/-- An enabled ring takes the enable bit alone (R554). -/
theorem EvtRing.setSize_enabled {r : EvtRing} (hen : r.en = true) (k : Nat) (en : Bool) :
    r.setSize k en = { r with en := en } := by
  simp [EvtRing.setSize, hen]

theorem EvtRing.setSize_sized {r : EvtRing} (hen : r.en = false) {k : Nat} (h6 : 6 ≤ k) (h16 : k ≤ 16) :
    r.setSize k false = { r with log2 := k } := by
  simp [EvtRing.setSize, hen, h6, h16]

/-- A ring with a base and a size in range starts empty (R554). -/
theorem EvtRing.setSize_starts {r : EvtRing} (hen : r.en = false) {k : Nat} (h6 : 6 ≤ k) (h16 : k ≤ 16)
    (hbase : r.base ≠ 0) :
    r.setSize k true = { r with log2 := k, en := true, tail := 0, head := 0, phase := true } := by
  simp [EvtRing.setSize, hen, h6, h16, hbase]

theorem EvtRing.setSize_rejected {r : EvtRing} (hen : r.en = false) {k : Nat} (h : k < 6 ∨ 16 < k ∨ r.base = 0) :
    (r.setSize k true).en = false ∧ (r.setSize k true).cfgRej = true := by
  have hbad : (!(decide (6 ≤ k) && decide (k ≤ 16)) || r.base == 0) = true := by
    simp only [Bool.or_eq_true, Bool.not_eq_true', Bool.and_eq_false_iff, decide_eq_false_iff_not, beq_iff_eq]
    omega
  rw [EvtRing.setSize, hen]
  dsimp only
  rw [if_neg Bool.false_ne_true, if_neg (by simp), if_pos hbad]
  split
  · exact ⟨rfl, rfl⟩
  · exact ⟨hen, rfl⟩

/-- Settles O10: the head writes by `EvtRing.setHead_taken` and `EvtRing.setHead_rejected`, the size writes by the
`EvtRing.setSize` lemmas. -/
theorem eventRingRegisters : Obligations.EventRingRegisters := by
  unfold Obligations.EventRingRegisters
  rintro s f r hlive rfl
  have hhead (v : Nat) : (((s.onDev (fun d => if true then d.modEvt f (fun r => r.setHead v) else d)).dev).fn f).evt =
      (s.dev.fn f).evt.setHead v := by rw [State.onDev_dev, if_pos rfl, Dev.evt_modEvt]
  have hsize (k : Nat) (en : Bool) : (((s.onDev (fun d => d.modEvt f (fun r => r.setSize k en))).dev).fn f).evt =
      (s.dev.fn f).evt.setSize k en := Dev.evt_modEvt _ _ _
  refine ⟨fun v hne hv hle => ⟨_, exec_evtRingHead_live hlive v true, (hhead v).trans (EvtRing.setHead_taken hne hv hle)⟩,
    fun v hne h => ⟨_, exec_evtRingHead_live hlive v true, (hhead v).trans (EvtRing.setHead_rejected hne h)⟩,
    fun v => exec_evtRingHead_live hlive v false,
    fun hen k en => ⟨_, exec_evtRingSizeEn_live hlive k en, (hsize k en).trans (EvtRing.setSize_enabled hen k en)⟩,
    fun hen k h6 h16 => ⟨⟨_, exec_evtRingSizeEn_live hlive k false, (hsize k _).trans (EvtRing.setSize_sized hen h6 h16)⟩,
      fun hbase => ⟨_, exec_evtRingSizeEn_live hlive k true, (hsize k _).trans (EvtRing.setSize_starts hen h6 h16 hbase)⟩⟩,
    fun hen k h => ⟨_, exec_evtRingSizeEn_live hlive k true, ?_⟩⟩
  rw [hsize]
  exact EvtRing.setSize_rejected hen h

/-! The frame: each row changes nothing but its function's view and what left the device. -/

theorem Dev.viewOnly_emitOut (f : Nat) (d : Dev) (o : Out) : Dev.ViewOnly f d (d.emitOut o) := Dev.viewOnly_out f d [o]

theorem Dev.viewOnly_claim (f : Nat) (d : Dev) (v : Nat) : Dev.ViewOnly f d (d.claim f v) :=
  ((Dev.viewOnly_withInt f d _).trans (Dev.viewOnly_withInt f _ _)).trans (Dev.viewOnly_emitOut f _ _)

theorem Dev.viewOnly_intEnable (f : Nat) (d : Dev) (w mask : Nat) : Dev.ViewOnly f d (d.intEnable f w mask) := by
  refine Dev.viewOnly_foldl f _ (fun d b => ?_) _ _
  dsimp only
  split
  · exact Dev.viewOnly_withInt f _ _
  · exact .rfl f _

theorem Dev.viewOnly_unmask (f : Nat) (d : Dev) (v : Nat) : Dev.ViewOnly f d (d.unmask f v) := by
  unfold Dev.unmask
  dsimp only
  split
  · exact (Dev.viewOnly_modFn f d _).trans (Dev.viewOnly_emitOut f _ _)
  · exact Dev.viewOnly_modFn f d _

theorem Dev.viewOnly_ite {f : Nat} {d a b : Dev} {p : Prop} [Decidable p] (ha : Dev.ViewOnly f d a)
    (hb : Dev.ViewOnly f d b) : Dev.ViewOnly f d (if p then a else b) := by
  split
  · exact ha
  · exact hb

/-- Settles O9: the effect of every row of the list is `Dev.ViewOnly` of its function. -/
theorem interruptRowsFrame : Obligations.InterruptRowsFrame := by
  unfold Obligations.InterruptRowsFrame
  intro s t f a b w en i hi hexec
  have hview : Dev.ViewOnly f s.dev t.dev := by
    have hint (g : IntCtl → IntCtl) : Dev.ViewOnly f s.dev (s.dev.withInt f g) := Dev.viewOnly_withInt f _ _
    have hevt (g : EvtRing → EvtRing) : Dev.ViewOnly f s.dev (s.dev.modEvt f g) := Dev.viewOnly_modFn f _ _
    have hself : Dev.ViewOnly f s.dev s.dev := .rfl f _
    simp only [List.mem_cons, List.not_mem_nil, or_false] at hi
    rcases hi with rfl | rfl | rfl | rfl | rfl | rfl | rfl | rfl | rfl | rfl <;> cases hexec
    case inl => exact Dev.viewOnly_ite (Dev.viewOnly_claim f _ a) (Dev.viewOnly_emitOut f _ _)
    all_goals refine Dev.viewOnly_onFn f s _ ?_
    · exact hint _
    · exact Dev.viewOnly_intEnable f _ a b
    · exact Dev.viewOnly_ite (hint _) hself
    · exact Dev.viewOnly_ite (hint _) hself
    · exact Dev.viewOnly_ite (hint _) hself
    · exact Dev.viewOnly_ite (hint _) hself
    · exact Dev.viewOnly_unmask f _ a
    · exact Dev.viewOnly_ite (hevt _) hself
    · exact hevt _
  exact ⟨exec_pending _ _ _ hexec, hview⟩

end Sys2Proof.Machine
end

section
/-!
PROOF. Suspect entries whose time is over (R404), and posted writes that failed (R572).
-/

namespace Sys2Proof.Machine

theorem exec_suspectEntryExpiry {j : Nat} (hj : j < 2) (u : Nat) (s : State) :
    exec (.suspectEntryExpiry j u) s = .next (s.onDev (fun d => d.suspectExpiry j u)) := by
  have harm : exec (.suspectEntryExpiry j u) s = execSuspectEntryExpiry j u s := rfl
  rw [harm, execSuspectEntryExpiry]
  simp only [if_pos hj]

theorem exec_postedWriteFailed (w : PostedWrite) (s : State) :
    exec (.postedWriteFailed w) s = .next (s.onDev (fun d => d.postedFailed w)) := rfl

/-! Suspect entries. -/

/-- The suspect tables of a junction die without the entry of a unit. -/
def Jd.unsuspect (x : Jd) (u : Nat) : Jd :=
  { x with own := x.own.filter (fun y => y.unit != u), other := x.other.filter (fun y => y.unit != u) }

theorem Dev.suspectExpiry_hit {d : Dev} {j u : Nat} {e : Suspect}
    (h : ((d.jd j).own ++ (d.jd j).other).find? (fun y => y.unit == u) = some e) :
    d.suspectExpiry j u = (d.putJd j ((d.jd j).unsuspect u)).summary e := by
  simp only [Dev.suspectExpiry, h]
  rfl

theorem Dev.summary_single {d : Dev} {e : Suspect} (h : e.count ≤ 1) : d.summary e = d := if_pos h

theorem Dev.jd_summary (d : Dev) (e : Suspect) (j : Nat) : (d.summary e).jd j = d.jd j := by
  unfold Dev.summary
  split
  · rfl
  · rw [Dev.jd, Dev.jds_event, Dev.jd]

/-- The summary of an entry that counted more than one report stands at the tail of the physical function's ring (R404). -/
theorem Dev.out_summary {d : Dev} {e : Suspect} (h : 1 < e.count) (hen : (d.fn 0).evt.en = true)
    (hroom : ((d.fn 0).evt.tail + 1) % 2 ^ (d.fn 0).evt.log2 ≠ (d.fn 0).evt.head) :
    ∃ l, (d.summary e).out = d.out ++ (.hostWrite ((d.fn 0).evt.base + 64 * (d.fn 0).evt.tail)
      (leBytes 2 0x1002 ++ leBytes 1 (d.unitOwner (e.unit % 2 ^ 24)) ++
        leBytes 1 (b2n (d.fn 0).evt.lostFlag + 128 * b2n (d.fn 0).evt.phase) ++
        leBytes 4 (d.unit (e.unit % 2 ^ 24)) ++ leBytes 8 (d.stamp (e.unit % 2)) ++ leBytes 4 0 ++ leBytes 2 0 ++
        leBytes 2 (min e.count 0xFFFF) ++ padTo 40 (e.reporters.flatMap (leBytes 4)))) :: l := by
  rw [Dev.summary, if_neg (by omega)]
  obtain ⟨l, hl⟩ := Dev.out_event d { code := evSummary, unit := e.unit % 0x1000000, count := e.count,
                                               payload := e.reporters.flatMap (leBytes 4) } hen hroom
  refine ⟨l, ?_⟩
  have hparity : e.unit % 0x1000000 % 2 = e.unit % 2 := by omega
  rw [hl]
  dsimp only [EvRec.bytes]
  rw [hparity]
  rfl

/-- The junction die of a parity, and so its stamp, depends on the fences of the junction dies alone. -/
theorem Dev.stamp_unsuspect (d : Dev) (j u k : Nat) : (d.putJd j ((d.jd j).unsuspect u)).stamp k = d.stamp k := by
  have hfenced (i : Nat) : ((d.putJd j ((d.jd j).unsuspect u)).jd i).fenced = (d.jd i).fenced := by
    by_cases h : i = j
    · subst h; rw [Dev.jd_putJd]; rfl
    · rw [Dev.jd, Dev.putJd, Dev.setJds_jds, kget_kset_ne h, Dev.jd]
  have hjd : (d.putJd j ((d.jd j).unsuspect u)).jdFor k = d.jdFor k := by rw [Dev.jdFor, Dev.jdFor, hfenced]
  rw [Dev.stamp, Dev.stamp, hjd]
  rfl

/-! A failed posted write. -/

/-- A pair whose completion write failed is in its error state (R343, R572). -/
theorem Dev.qp_completionFailed {d : Dev} {f q : Nat} {x : Qp} (hx : d.qp f q = some x) :
    (d.postedFailed (.completion f q)).qp f q = some { x with err := true } := by
  change (d.qpError f q 2).qp f q = _
  cases herr : x.err with
  | false => exact Dev.qpError_qp d f q 2 x hx herr
  | true =>
    have hsame : d.qpError f q 2 = d := by simp [Dev.qpError, hx, herr]
    rw [hsame, hx, ← herr]

/-- A ring with a record takes it back: the tail goes one place back, the phase with it, and the next record tells of a
loss (R572). -/
theorem EvtRing.takeBack_eq {r : EvtRing} (hne : r.tail ≠ r.head) (hlt : r.tail < 2 ^ r.log2) :
    r.takeBack = { r with tail := (if r.tail = 0 then 2 ^ r.log2 - 1 else r.tail - 1), lostFlag := true,
                          phase := (if r.tail = 0 then !r.phase else r.phase) } := by
  have htail : (r.tail + 2 ^ r.log2 - 1) % 2 ^ r.log2 = if r.tail = 0 then 2 ^ r.log2 - 1 else r.tail - 1 := by
    generalize 2 ^ r.log2 = n at *
    split
    next h => rw [h, Nat.zero_add]; exact Nat.mod_eq_of_lt (by omega)
    next h =>
      have hsplit : r.tail + n - 1 = r.tail - 1 + n := by omega
      rw [hsplit, Nat.add_mod_right]
      exact Nat.mod_eq_of_lt (by omega)
  rw [EvtRing.takeBack, if_neg hne]
  dsimp only
  rw [htail]

theorem Dev.cnt_pulse (d : Dev) (f n : Nat) : (d.pulse f n).cnt = d.cnt := rfl

/-- A pulse leaves every function's thresholds. -/
theorem Dev.thr_pulse (d : Dev) (f n g : Nat) : ((d.pulse f n).fn g).thr = (d.fn g).thr := by
  obtain ⟨-, hview⟩ := Dev.reports_pulse d f n
  obtain ⟨i, e, h⟩ := hview g
  rw [h]

/-- An event record that failed counts one record lost, and its ring takes it back (R572). -/
theorem Dev.eventRecordFailed {d : Dev} {f : Nat} (hf : f ≤ 16) (hen : (d.fn f).evt.en = true)
    (hthr : kget (d.fn f).thr 49 0 = 0) (hcnt : d.counter (0x160600 + f) 1 < 2 ^ 64 - 2) :
    ((d.postedFailed (.eventRecord f)).fn f).evt = (d.fn f).evt.takeBack ∧
    (d.postedFailed (.eventRecord f)).counter (0x160600 + f) 1 = d.counter (0x160600 + f) 1 + 1 := by
  have hrow : d.postedFailed (.eventRecord f) =
      ((d.modEvt f EvtRing.takeBack).pulse f 263).count (unitPart f) 1 1 := by
    simp [Dev.postedFailed, hen]
  have hkind := unitKind_part hf
  have hunit : unitPart f = 0x160600 + f := by simp only [unitPart, unit24, uiPart, dieCd]; omega
  have hown (e : Dev) : e.unitOwner (0x160600 + f) = f := by
    simp only [Dev.unitOwner, hkind]
    omega
  have hview : ∀ g, (((d.modEvt f EvtRing.takeBack).pulse f 263).fn g).thr = (d.fn g).thr := fun g => by
    rw [Dev.thr_pulse, Dev.modEvt]
    by_cases h : g = f
    · subst h; rw [Dev.fn_modFn]
    · rw [Dev.fn_modFn_ne _ h]
  rw [hrow, hunit, Dev.count_plain _ _ _ _ (by decide) (by rw [hkind]; rfl)
    (by rw [hown, hview, hkind]; exact hthr) (by change d.counter _ _ + 1 < _; omega)]
  refine ⟨?_, kget_kset_self _ _ _ _⟩
  change (((d.modEvt f EvtRing.takeBack).pulse f 263).fn f).evt = _
  rw [Dev.evt_pulse, Dev.evt_modEvt]

theorem Dev.dma_writebackFailed (d : Dev) {c : Nat} (hc : c < 128) :
    ((d.postedFailed (.dmaWriteback c)).dma c).err = true := by
  have hrow : d.postedFailed (.dmaWriteback c) = d.dmaError c := if_pos hc
  rw [hrow]
  cases herr : (d.dma c).err with
  | true => rw [Dev.dmaError, if_pos herr, herr]
  | false => rw [Dev.dma_error d c herr]

theorem Dev.cmd_signalFailed {d : Dev} {r : CmdRef} {c : Cmd} (hc : d.cmd r = some c) (ho : c.op = 0x2A)
    (hk : byteAt c.desc 0x18 = 1) (hp : c.phase = .ended) (hs : c.status = stSuccess) :
    (d.postedFailed (.signalStore r)).cmd r = some { c with status := stHostAccess } := by
  have hrow : d.postedFailed (.signalStore r) = d.modCmd r (fun c => { c with status := stHostAccess }) := by
    simp [Dev.postedFailed, hc, ho, hk, hp, hs]
  rw [hrow, Dev.cmd_modCmd d r (by intro c; rfl), hc, Option.map_some]

/-- Settles O11: an expiry is `Dev.suspectExpiry_hit` with its summary by `Dev.out_summary`; each posted write by the lemma
on its unit. -/
theorem postedWritesAndSuspects : Obligations.PostedWritesAndSuspects := by
  unfold Obligations.PostedWritesAndSuspects
  refine ⟨?suspects, fun s => ⟨fun f q x hx => ?completion, ?record, fun c hc => ?writeback, fun r c hc ho hk hp hs => ?signal⟩⟩
  case suspects =>
    rintro s j e x hj rfl hfind
    refine ⟨_, exec_suspectEntryExpiry hj e.unit s, ?_⟩
    rw [State.onDev_dev, Dev.suspectExpiry_hit hfind]
    refine ⟨(Dev.jd_summary _ _ _).trans (Dev.jd_putJd _ _ _), fun h => by rw [Dev.summary_single h]; rfl,
      fun h hen hroom => ?_⟩
    obtain ⟨l, hl⟩ := Dev.out_summary (d := s.dev.putJd j ((s.dev.jd j).unsuspect e.unit)) h hen hroom
    rw [Dev.stamp_unsuspect] at hl
    exact ⟨l, hl⟩
  case completion => exact ⟨_, exec_postedWriteFailed _ s, Dev.qp_completionFailed hx⟩
  case record =>
    rintro f r hf rfl hen hne hlt hthr hcnt
    refine ⟨_, exec_postedWriteFailed _ s, ?_⟩
    rw [State.onDev_dev, ← EvtRing.takeBack_eq hne hlt]
    exact Dev.eventRecordFailed hf hen hthr hcnt
  case writeback => exact ⟨_, exec_postedWriteFailed _ s, Dev.dma_writebackFailed _ hc⟩
  case signal => exact ⟨_, exec_postedWriteFailed _ s, Dev.cmd_signalFailed hc ho hk hp hs⟩

end Sys2Proof.Machine
end

section
/-!
PROOF. DMA channels: their registers (R378 to R380, R389, R555, R556, R566), the fetch of a descriptor (R380, R382), its
writeback and the halt of a channel (R386 to R389).
-/

namespace Sys2Proof.Machine

/-! The rows. -/

theorem exec_dmaChTail (f c v : Nat) (w : Bool) (s : State) :
    exec (.dmaChTail f c v w) s = .next (s.onFn f (fun d => d.dmaTail f c v w)) := rfl
theorem exec_dmaChCtlStop (f c : Nat) (b : Bool) (s : State) :
    exec (.dmaChCtlStop f c b) s = .next (s.onFn f (fun d => d.dmaStop f c b)) := rfl
theorem exec_dmaChCtlReset (f c : Nat) (s : State) :
    exec (.dmaChCtlReset f c) s = .next (s.onFn f (fun d => d.dmaReset f c)) := rfl
theorem exec_dmaChRingSize (f c k : Nat) (s : State) :
    exec (.dmaChRingSize f c k) s = .next (s.onFn f (fun d => d.dmaSize f c k)) := rfl
theorem exec_dmaChOwner (c g : Nat) (s : State) :
    exec (.dmaChOwner c g) s = .next (s.onReg (fun d => d.dmaOwner c g)) := rfl
theorem exec_dmaDescriptor (c : Nat) (rd data : HostRead) (s : State) :
    exec (.dmaDescriptor c rd data) s = .next (s.onDev (fun d => d.dmaDescriptor c rd data)) := rfl
theorem exec_dmaWriteback (c : Nat) (e : Env) (s : State) :
    exec (.dmaWriteback c e) s = .next (s.onDev (fun d => d.dmaWriteback c e)) := rfl
theorem exec_dmaStopped (c n : Nat) (e : Env) (s : State) :
    exec (.dmaStopped c n e) s = .next (s.onDev (fun d => d.dmaStopped c n e)) := rfl

/-- A register write that changes nothing leaves the state, whether or not the function's registers respond. -/
theorem State.onFn_same {s : State} {g : Dev → Dev} (h : g s.dev = s.dev) (f : Nat) :
    (Host.Outcome.next (s.onFn f g) : Host.Outcome State Fault Refusal) = .next s :=
  State.next_same (by rw [h, ite_self])

theorem State.onReg_same {s : State} {g : Dev → Dev} (h : g s.dev = s.dev) :
    (Host.Outcome.next (s.onReg g) : Host.Outcome State Fault Refusal) = .next s :=
  State.next_same (by rw [h, ite_self])

theorem State.onReg_live {s : State} (h : s.dev.regsLive = true) (g : Dev → Dev) : s.onReg g = s.onDev g := by
  simp [State.onReg, State.onDev, h]

theorem Dev.regsLive_of_fnLive {d : Dev} {f : Nat} (h : d.fnLive f = true) : d.regsLive = true := by
  rw [Dev.fnLive, Bool.and_eq_true] at h
  exact h.1

/-! The window of a channel responds to its owner alone (R555). -/

theorem Dev.dmaSees_owner {d : Dev} {f c : Nat} (hc : c < 128) (hf : f ≤ 16) (ho : (d.dma c).owner = f) :
    d.dmaSees f c = true := by
  simp [Dev.dmaSees, hc, hf, ho]

theorem Dev.dmaSees_other {d : Dev} {g c : Nat} (ho : g ≠ (d.dma c).owner) : d.dmaSees g c = false := by
  simp [Dev.dmaSees, Ne.symm ho]

section
variable {d : Dev} {g c : Nat} (h : d.dmaSees g c = false)
include h

theorem Dev.dmaTail_unseen (v : Nat) (w : Bool) : d.dmaTail g c v w = d := by simp [Dev.dmaTail, h]
theorem Dev.dmaStop_unseen (b : Bool) : d.dmaStop g c b = d := by simp [Dev.dmaStop, h]
theorem Dev.dmaReset_unseen : d.dmaReset g c = d := by simp [Dev.dmaReset, h]
theorem Dev.dmaSize_unseen (k : Nat) : d.dmaSize g c k = d := by simp [Dev.dmaSize, h]

end

/-! The registers, through the owner's window. -/

section
variable {d : Dev} {f c : Nat} (h : d.dmaSees f c = true)
include h

theorem Dev.dmaTail_within (hdeaf : d.deaf f = false) (herr : (d.dma c).err = false) {v : Nat}
    (hne : v ≠ (d.dma c).tail) (hv : v < 2 ^ (d.dma c).log2) :
    d.dmaTail f c v true = d.putDma c { d.dma c with tail := v } := by
  simp [Dev.dmaTail, h, hdeaf, herr, hne, hv]

theorem Dev.dmaTail_beyond (hdeaf : d.deaf f = false) (herr : (d.dma c).err = false) {v : Nat}
    (hne : v ≠ (d.dma c).tail) (hv : 2 ^ (d.dma c).log2 ≤ v) : d.dmaTail f c v true = d.dmaError c := by
  simp [Dev.dmaTail, h, hdeaf, herr, hne, hv]

/-- STOP halts an idle channel at once, and asks a busy one to halt (R389). -/
theorem Dev.dmaStop_set : d.dmaStop f c true = d.putDma c (if (d.dma c).xfer.isNone
    then { d.dma c with stop := true, stopped := true, posIdx := (d.dma c).head, posOff := 0 }
    else { d.dma c with stop := true }) := by
  simp only [Dev.dmaStop, h, Bool.not_true, Bool.false_eq_true, if_false, if_true]
  split <;> rfl

theorem Dev.dmaStop_clear :
    d.dmaStop f c false = d.putDma c { d.dma c with stop := false, stopped := (d.dma c).held && (d.dma c).stopped } := by
  simp [Dev.dmaStop, h]

theorem Dev.dmaReset_seen : d.dmaReset f c = (d.dmaAbort c stAborted).putDma c
    { (d.dmaAbort c stAborted).dma c with err := false, head := 0, tail := 0, posIdx := 0, posOff := 0 } := by
  simp [Dev.dmaReset, h]

theorem Dev.dmaSize_taken (hacc : (d.dma c).accepts = true) {k : Nat} (h6 : 6 ≤ k) (h16 : k ≤ 16) :
    d.dmaSize f c k = d.putDma c { d.dma c with log2 := k, head := 0, tail := 0 } := by
  rw [Dev.dmaSize]
  dsimp only
  rw [if_neg (by simp [h, hacc, h6, h16])]

end

theorem Dev.dmaTail_narrow (d : Dev) (f c v : Nat) : d.dmaTail f c v false = d := by simp [Dev.dmaTail]

theorem Dma.accepts_of {x : Dma} (h : x.stopped = true ∨ x.err = true ∨ x.xfer = none ∧ x.head = x.tail) :
    x.accepts = true := by
  rcases h with h | h | ⟨h, h'⟩ <;> simp_all [Dma.accepts]

theorem Dma.not_accepts_of {x : Dma} (hs : x.stopped = false) (he : x.err = false)
    (h : x.xfer ≠ none ∨ x.head ≠ x.tail) : x.accepts = false := by
  rcases h with h | h <;> simp [Dma.accepts, hs, he, h]

theorem Dev.dmaSize_ignored {d : Dev} {c k : Nat} (f : Nat) (h : k < 6 ∨ 16 < k ∨ (d.dma c).accepts = false) :
    d.dmaSize f c k = d := by
  rw [Dev.dmaSize, if_pos]
  rcases h with h | h | h <;> simp [h]

/-- Rebinding takes an idle channel with an empty ring (R378, log 30). -/
theorem Dev.dmaOwner_taken {d : Dev} {c g : Nat} (hc : c < 128) (hg : g ≤ 16 ∨ g = 0x1F) (hne : g ≠ (d.dma c).owner)
    (hx : (d.dma c).xfer = none) (hring : (d.dma c).head = (d.dma c).tail) :
    d.dmaOwner c g = d.putDma c { owner := g, source := 129 + c } := by
  rw [Dev.dmaOwner]
  dsimp only
  rw [if_neg]
  · rfl
  · rw [hx, Option.isSome_none]
    simp only [Bool.false_eq_true, false_or]
    omega

theorem Dev.dmaOwner_ignored {d : Dev} {c : Nat} (g : Nat) (h : (d.dma c).xfer ≠ none ∨ (d.dma c).head ≠ (d.dma c).tail) :
    d.dmaOwner c g = d := by
  rw [Dev.dmaOwner]
  dsimp only
  rw [if_pos]
  rcases h with h | h
  · exact .inr (.inr (.inl (Option.isSome_iff_ne_none.2 h)))
  · exact .inr (.inr (.inr (.inl h)))

/-! What aborts and errors write back. -/

/-- An aborted descriptor is written back with its status and the error flag, and no end of count (R380, R386). -/
theorem Dev.out_dmaAbort {d : Dev} {c : Nat} {y : Xfer} (h : (d.dma c).xfer = some y) (st : Nat) :
    (d.dmaAbort c st).out = d.out ++ [.hostWrite ((d.dma c).base + 64 * y.idx + 0x38)
      (leBytes 2 (if d.saf.safeStop then stPoisoned else st) ++ leBytes 1 3 ++ leBytes 1 0 ++ leBytes 4 0)] := by
  rw [Dev.dmaAbort, h]
  simp [Dev.dmaWriteBack, wbBytes, b2n, Dev.putDma]

/-- A reset channel has an empty ring, no error and nothing in progress, and no other channel changes (R380). -/
theorem Dev.dmaReset_facts {d : Dev} {f c : Nat} (h : d.dmaSees f c = true) :
    (∀ k, k ≠ c → (d.dmaReset f c).dma k = d.dma k) ∧
    (d.dmaReset f c).dma c =
      { d.dma c with err := false, head := 0, tail := 0, posIdx := 0, posOff := 0, xfer := none } ∧
    (∀ y, (d.dma c).xfer = some y → (d.dmaReset f c).out = d.out ++ [.hostWrite ((d.dma c).base + 64 * y.idx + 0x38)
      (leBytes 2 (if d.saf.safeStop then stPoisoned else stAborted) ++ leBytes 1 3 ++ leBytes 1 0 ++ leBytes 4 0)]) := by
  obtain ⟨-, hothers⟩ := Dev.dmaAbort_shape d c stAborted
  rw [Dev.dmaReset_seen h]
  refine ⟨fun k hk => ?_, ?_, fun y hy => Dev.out_dmaAbort hy _⟩
  · rw [Dev.dma_putDma_ne _ hk, hothers k hk]
  · rw [Dev.dma_putDma, Dev.dma_abort]

/-- Settles O12: each write by the lemma on its register, a write through another function's window by the `unseen` ones. -/
theorem dmaRegisters : Obligations.DmaRegisters := by
  unfold Obligations.DmaRegisters
  rintro s f c x hlive hf hc rfl ho
  have hsees := Dev.dmaSees_owner hc hf ho
  have hrow {g : Dev → Dev} : (s.onFn f g).dev = g s.dev := by rw [State.onFn_live hlive, State.onDev_dev]
  refine ⟨fun hdeaf herr => ⟨fun v hne hv => ⟨_, exec_dmaChTail f c v true s, ?within⟩,
      fun v hne hv => ⟨_, exec_dmaChTail f c v true s, ?beyond⟩⟩,
    fun v => State.onFn_same (Dev.dmaTail_narrow _ _ _ _) f,
    fun hx => ⟨_, exec_dmaChCtlStop f c true s, ?idle⟩, fun hx => ⟨_, exec_dmaChCtlStop f c true s, ?busy⟩,
    ⟨_, exec_dmaChCtlStop f c false s, hrow.trans (Dev.dmaStop_clear hsees)⟩,
    ⟨_, exec_dmaChCtlReset f c s, ?reset⟩,
    fun k h6 h16 hacc => ⟨_, exec_dmaChRingSize f c k s, hrow.trans (Dev.dmaSize_taken hsees (Dma.accepts_of hacc) h6 h16)⟩,
    fun k h => State.onFn_same (Dev.dmaSize_ignored f ?size) f,
    fun g hg hne hx hring => ⟨_, exec_dmaChOwner c g s, ?owner⟩,
    fun g h => State.onReg_same (Dev.dmaOwner_ignored g h), fun g v k b hne => ?other⟩
  case within => exact hrow.trans (Dev.dmaTail_within hsees hdeaf herr hne hv)
  case beyond => rw [hrow, Dev.dmaTail_beyond hsees hdeaf herr hne hv, Dev.dma_error _ _ herr]
  case idle => rw [hrow, Dev.dmaStop_set hsees, if_pos (Option.isNone_iff_eq_none.2 hx)]
  case busy => rw [hrow, Dev.dmaStop_set hsees, if_neg (mt Option.isNone_iff_eq_none.1 hx)]
  case reset =>
    rw [hrow]
    exact Dev.dmaReset_facts hsees
  case size => exact h.imp_right (.imp_right fun ⟨hs, he, hbusy⟩ => Dma.not_accepts_of hs he hbusy)
  case owner =>
    rw [State.onReg_live (Dev.regsLive_of_fnLive hlive)]
    exact Dev.dmaOwner_taken hc hg (ho ▸ hne) hx hring
  case other =>
    have hunseen : s.dev.dmaSees g c = false := Dev.dmaSees_other (ho ▸ hne)
    exact ⟨State.onFn_same (Dev.dmaTail_unseen hunseen v b) g, State.onFn_same (Dev.dmaStop_unseen hunseen b) g,
      State.onFn_same (Dev.dmaReset_unseen hunseen) g, State.onFn_same (Dev.dmaSize_unseen hunseen k) g⟩

/-! The fetch of a descriptor. -/

/-- A status of the checks without memory is INVALID_FIELD (R382). -/
theorem dmaCheck1_fails {b : Bytes} {st : Nat} (h : dmaCheck1 b = some st) : (st != stEmptyOutput) = true := by
  have hst : st = stInvalidField := by
    unfold dmaCheck1 at h
    dsimp only at h
    split at h
    · exact (Option.some.inj h).symm
    split at h
    · exact (Option.some.inj h).symm
    split at h
    · exact (Option.some.inj h).symm
    split at h
    · exact (Option.some.inj h).symm
    · cases h
  rw [hst]
  rfl

theorem Dev.dmaMayFetch_idle {d : Dev} {c : Nat} (h : d.dmaMayFetch c = true) :
    (d.dma c).err = false ∧ (d.dma c).xfer = none := by
  simp only [Dev.dmaMayFetch, Bool.and_eq_true, Bool.not_eq_true', Option.isNone_iff_eq_none] at h
  obtain ⟨⟨⟨⟨⟨⟨⟨-, herr⟩, -⟩, -⟩, -⟩, hidle⟩, -⟩, -⟩ := h
  exact ⟨herr, hidle⟩

theorem Dev.dmaDescriptor_failed {d : Dev} {c : Nat} (h : d.dmaMayFetch c = true) {rd : HostRead}
    (hrd : rd = .failed ∨ rd = .poisoned) (data : HostRead) : d.dmaDescriptor c rd data = d.dmaError c := by
  rcases hrd with rfl | rfl <;> simp [Dev.dmaDescriptor, h]

/-- The transfer that a fetched descriptor starts, before any check. -/
def Dma.fetched (x : Dma) (b : Bytes) (data : HostRead) : Xfer := { desc := padTo 64 b, idx := x.head, data := data }

/-- The channel with its descriptor fetched and a transfer in progress. -/
def Dma.started (x : Dma) (t : Xfer) : Dma := { x with head := (x.head + 1) % 2 ^ x.log2, xfer := some t }

/-- The transfer ends with a status before it moves anything (R382). -/
def Xfer.turned (t : Xfer) (st : Nat) : Xfer := { t with status := st, bad := st != stEmptyOutput, done := true }

/-- `t` has been fetched from descriptor `b` at the head of channel `x`, and has moved nothing. -/
def Xfer.From (t : Xfer) (x : Dma) (b : Bytes) (data : HostRead) : Prop :=
  t.idx = x.head ∧ t.desc = padTo 64 b ∧ t.data = data ∧ t.moved = 0

/-- A transfer that starts after the fetch, whatever reads stand between, is in progress on its channel. -/
theorem Dev.dma_started {d e : Dev} {c : Nat}
    (he : e.dmas = (d.putDma c { d.dma c with head := ((d.dma c).head + 1) % 2 ^ (d.dma c).log2 }).dmas) (t : Xfer) :
    (e.putDma c { e.dma c with xfer := some t }).dma c = (d.dma c).started t := by
  rw [Dev.dma_putDma, Dev.dma_of he, Dev.dma_putDma]
  rfl

section
variable {d : Dev} {c : Nat} (h : d.dmaMayFetch c = true)
include h

/-- Whatever the checks say, a descriptor read moves the head past it and starts a transfer with its bytes (R380). -/
theorem Dev.dmaDescriptor_starts (b : Bytes) (data : HostRead) :
    ∃ t : Xfer, (d.dmaDescriptor c (.ok b) data).dma c = (d.dma c).started t ∧ t.From (d.dma c) b data := by
  have hwhisk (p : Nat) (y : DmaD) := (Dev.dma_whisk
    (d.putDma c { d.dma c with head := ((d.dma c).head + 1) % 2 ^ (d.dma c).log2 }) p y).dmas
  rw [Dev.dmaDescriptor, if_neg (by simp [h])]
  dsimp only
  split
  · exact ⟨_, Dev.dma_started rfl _, rfl, rfl, rfl, rfl⟩
  split
  · exact ⟨_, Dev.dma_started rfl _, rfl, rfl, rfl, rfl⟩
  split
  · exact ⟨_, Dev.dma_started rfl _, rfl, rfl, rfl, rfl⟩
  split
  · exact ⟨_, Dev.dma_started (hwhisk _ _) _, rfl, rfl, rfl, rfl⟩
  split
  · exact ⟨_, Dev.dma_started (hwhisk _ _) _, rfl, rfl, rfl, rfl⟩
  split
  · exact ⟨_, (Dev.dma_of (Dev.reports_dmaBad _ _ _ _).dmas c).trans (Dev.dma_started (hwhisk _ _) _), rfl, rfl, rfl, rfl⟩
  · exact ⟨_, (Dev.dma_of (Dev.reports_dmaBad _ _ _ _).dmas c).trans (Dev.dma_started (hwhisk _ _) _), rfl, rfl, rfl, rfl⟩
  · exact ⟨_, Dev.dma_started (hwhisk _ _) _, rfl, rfl, rfl, rfl⟩

variable (hiod : d.saf.iodFenced.contains (c / 32) = false)
include hiod

/-- The physical function owns no transfer (R378, R382). -/
theorem Dev.dmaDescriptor_unowned (ho : (d.dma c).owner = 0) (b : Bytes) (data : HostRead) :
    (d.dmaDescriptor c (.ok b) data).dma c = (d.dma c).started (((d.dma c).fetched b data).turned stNotOwned) := by
  rw [Dev.dmaDescriptor, if_neg (by simp [h])]
  dsimp only
  rw [if_neg (by rw [hiod]; exact Bool.false_ne_true), if_pos ho]
  exact Dev.dma_started rfl _

theorem Dev.dmaDescriptor_turned (ho : (d.dma c).owner ≠ 0) {b : Bytes} {st : Nat}
    (hst : dmaCheck1 (padTo 64 b) = some st) (data : HostRead) :
    (d.dmaDescriptor c (.ok b) data).dma c = (d.dma c).started (((d.dma c).fetched b data).turned st) := by
  rw [Dev.dmaDescriptor, if_neg (by simp [h])]
  dsimp only
  rw [if_neg (by rw [hiod]; exact Bool.false_ne_true), if_neg ho, hst]
  exact Dev.dma_started rfl _

end

/-- A plain transfer of no bytes passes every address check and has nothing to move (R382). -/
theorem Dev.dmaCheck2_empty (d : Dev) (p : Nat) {y : DmaD} (hm : y.map = 0) (hb : y.bytes = 0) (wk : Option WhiskD) :
    d.dmaCheck2 p y (y.pieces wk) = some stEmptyOutput := by
  have hpieces : y.pieces wk = [{ dst := y.dst, len := 0, srcs := [(y.src, 0)] }] := by simp [DmaD.pieces, hm, hb]
  rw [hpieces]
  simp [Dev.dmaCheck2, hm, hb, Dev.ownedRange, Dev.writable]

theorem Dev.dmaDescriptor_empty {d : Dev} {c : Nat} (h : d.dmaMayFetch c = true)
    (hiod : d.saf.iodFenced.contains (c / 32) = false) (ho : (d.dma c).owner ≠ 0) {b : Bytes}
    (hst : dmaCheck1 (padTo 64 b) = none) (hm : (parseDma (padTo 64 b)).map = 0) (hb : (parseDma (padTo 64 b)).bytes = 0)
    (data : HostRead) :
    (d.dmaDescriptor c (.ok b) data).dma c =
      (d.dma c).started (((d.dma c).fetched b data).turned stEmptyOutput) := by
  have hwhisk (e : Dev) (p : Nat) : e.dmaWhisk p (parseDma (padTo 64 b)) = (.inl [], e) :=
    if_pos (by rw [hm]; decide)
  rw [Dev.dmaDescriptor, if_neg (by simp [h])]
  dsimp only
  rw [if_neg (by rw [hiod]; exact Bool.false_ne_true), if_neg ho, hst]
  simp only [hwhisk, Xfer.pieces, Dev.dmaCheck2_empty _ _ hm hb]
  exact Dev.dma_started rfl _

/-- Settles O13: what every fetched descriptor starts is `Dev.dmaDescriptor_starts`; the statuses of those turned away come
from the lemma on each check. -/
theorem dmaDescriptorFetch : Obligations.DmaDescriptorFetch := by
  unfold Obligations.DmaDescriptorFetch
  rintro s c x data rfl hmay
  obtain ⟨herr, hidle⟩ := Dev.dmaMayFetch_idle hmay
  refine ⟨fun rd hrd => ⟨_, exec_dmaDescriptor c rd data s, ?failed⟩, fun b hiod => ?fetched⟩
  case failed =>
    rw [State.onDev_dev, Dev.dmaDescriptor_failed hmay hrd, Dev.dma_error _ _ herr, hidle]
  case fetched =>
    obtain ⟨t, ht, hidx, hdesc, hdata, hmoved⟩ := Dev.dmaDescriptor_starts hmay b data
    have hsame {u : Xfer} (hu : (s.dev.dmaDescriptor c (.ok b) data).dma c = (s.dev.dma c).started u) : t = u :=
      Option.some.inj (congrArg Dma.xfer (ht.symm.trans hu))
    refine ⟨_, t, exec_dmaDescriptor c (.ok b) data s, ht, hidx, hdesc, hdata, hmoved, fun ho => ?_, fun ho st hst => ?_,
      fun ho hst hm hb => ?_⟩
    · rw [hsame (Dev.dmaDescriptor_unowned hmay hiod ho b data)]
      exact ⟨rfl, rfl, rfl⟩
    · rw [hsame (Dev.dmaDescriptor_turned hmay hiod ho hst data)]
      exact ⟨rfl, dmaCheck1_fails hst, rfl⟩
    · rw [hsame (Dev.dmaDescriptor_empty hmay hiod ho hst hm hb data)]
      exact ⟨rfl, rfl, rfl⟩

/-! The writeback and the halt. -/

/-- The writeback of a descriptor leaves its record, pulses the end of count where the ring is empty, and nothing else
leaves the device before it (R386, R387). -/
theorem Dev.dmaWriteBack_facts (d : Dev) (c : Nat) (y : Xfer) (hsafe : d.saf.safeStop = false) :
    ∃ l, (d.dmaWriteBack c y true).out = d.out ++ (.hostWrite ((d.dma c).base + 64 * y.idx + 0x38)
        (leBytes 2 y.status ++ leBytes 1 (1 + 2 * b2n y.bad + 4 * b2n ((d.dma c).head == (d.dma c).tail)) ++
          leBytes 1 0 ++ leBytes 4 (if y.bad then 0 else y.moved % 2 ^ 32))) :: l ∧
      ((d.dma c).head ≠ (d.dma c).tail ∨ (d.dma c).source = 0 → l = [] ∧ (d.dmaWriteBack c y true).fns = d.fns) := by
  unfold Dev.dmaWriteBack
  simp only [hsafe, Bool.false_eq_true, if_false, Bool.or_false, Bool.true_and, beq_iff_eq]
  split
  next hpulse =>
    obtain ⟨hring, hsource, -⟩ := hpulse
    generalize he : (d.putDma c _).emitOut _ = e
    obtain ⟨l, hl⟩ := (Dev.reports_pulse e (d.dma c).owner (d.dma c).source).out
    refine ⟨l, ?_, fun h => absurd h (by simp [hring, hsource])⟩
    rw [hl, ← he]
    simp [Dev.putDma, wbBytes]
  next => exact ⟨[], by simp [Dev.putDma, wbBytes], fun _ => ⟨rfl, rfl⟩⟩

/-- At the end of count the channel's source pends (R387). -/
theorem Dev.dmaWriteBack_pends {d : Dev} {c : Nat} (y : Xfer) (hring : (d.dma c).head = (d.dma c).tail)
    (hsource : (d.dma c).source ≠ 0) (ho : (d.dma c).owner ≤ 16) (hvalid : srcValid (d.dma c).source = true)
    (hen : ((d.fn (d.dma c).owner).int.src (d.dma c).source).en = true)
    (hsense : ((d.fn (d.dma c).owner).int.src (d.dma c).source).sense = 1)
    (hline : ((d.fn (d.dma c).owner).int.src (d.dma c).source).line = false) :
    (((d.dmaWriteBack c y true).fn (d.dma c).owner).int.src (d.dma c).source).pend = true := by
  rw [Dev.dmaWriteBack, if_pos ⟨by simpa using hring, hsource, ho⟩]
  exact Dev.pend_pulse _ _ _ hvalid hen hsense hline

theorem Dev.dmaWriteback_done {d : Dev} {c : Nat} {y : Xfer} (hx : (d.dma c).xfer = some y)
    (hs : (d.dma c).stopped = false) (hdone : y.done = true) (e : Env) :
    d.dmaWriteback c e = d.dmaWriteBack c y true := by
  simp [Dev.dmaWriteback, hx, hs, hdone]

/-- A channel asked to halt does so at a boundary of its transfer (R389). -/
theorem Dev.dmaStopped_halts {d : Dev} {c n : Nat} {y : Xfer} (hx : (d.dma c).xfer = some y)
    (hs : (d.dma c).stopped = false) (hdone : y.done = false) (hask : (d.dma c).stop = true ∨ (d.dma c).held = true)
    (hshut : d.dmaShut c (parseDma y.desc) = false) (h4 : n % 4096 = 0) (hlo : y.moved ≤ n) (hhi : n ≤ y.total) (e : Env) :
    d.dmaStopped c n e = (d.dmaAdvance c e y n).putDma c
      { (d.dmaAdvance c e y n).dma c with stopped := true, posIdx := y.idx, posOff := n } := by
  rw [Dev.dmaStopped]
  dsimp only
  rw [if_neg (by rcases hask with h | h <;> simp [h, hs]), hx]
  dsimp only
  rw [hdone, hshut, if_neg (by simp), if_neg (by omega)]

/-- Settles O14: the writeback by `Dev.dmaWriteBack_facts` and `Dev.dmaWriteBack_pends`, the halt by
`Dev.dmaStopped_halts` after what `Dev.dma_advance` moves. -/
theorem dmaWritebackAndHalt : Obligations.DmaWritebackAndHalt := by
  unfold Obligations.DmaWritebackAndHalt
  rintro s c x y e rfl hx hs
  refine ⟨fun hdone hsafe => ⟨_, exec_dmaWriteback c e s, ?writeback⟩,
    fun n hdone hask hshut h4 hlo hhi => ?halt⟩
  case writeback =>
    rw [State.onDev_dev, Dev.dmaWriteback_done hx hs hdone]
    obtain ⟨l, hout, hquiet⟩ := Dev.dmaWriteBack_facts s.dev c y hsafe
    exact ⟨Dev.dma_writeBack _ _ _ _, l, hout, hquiet,
      fun hring hsource ho hvalid hen hsense hline => Dev.dmaWriteBack_pends y hring hsource ho hvalid hen hsense hline⟩
  case halt =>
    obtain ⟨z, hmoved, hdesc, hidx, hbad, hz⟩ := Dev.dma_advance s.dev c e y n
    refine ⟨_, z, exec_dmaStopped c n e s, ?_, hmoved.trans (max_eq_right hlo), hdesc, hidx, hbad⟩
    rw [State.onDev_dev, Dev.dmaStopped_halts hx hs hdone hask hshut h4 hlo hhi, Dev.dma_putDma, hz]

end Sys2Proof.Machine
end

section
/-!
PROOF. WAIT and SIGNAL (R352, R353, R368, R423).
-/

namespace Sys2Proof.Machine

theorem exec_wait (r : CmdRef) (e : Env) (s : State) : exec (.wait r e) s = .next (s.onDev (fun d => d.wait r e)) := rfl

theorem exec_signal (r : CmdRef) (s : State) : exec (.signal r) s = .next (s.onDev (fun d => d.signal r)) := rfl

/-! What a command that fails on its marks ends with. -/

theorem Marks.final_fst_tierError {m : Marks} {st : Nat} (hc : m.causes = []) (hf : stTierError ∈ m.fails) :
    (m.final st).1 = stTierError := by
  simp [Marks.final, hc, hf]

/-- A command that had no marks, marked and then finished, ends with what the marks make of the status (R355). -/
theorem Dev.cmd_finish_mark (d : Dev) {r : CmdRef} {c : Cmd} (h : d.cmd r = some c) (hm : c.marks = {}) (m : Marks) (st : Nat) :
    ∃ y, ((d.mark r m).finish r st).cmd r = some y ∧ y.phase = .ended ∧ y.status = (m.final st).1 := by
  refine ⟨_, Dev.cmd_finish _ (Dev.cmd_mark d h m) st 0 0 0 [], rfl, ?_⟩
  rw [hm, Marks.join_nil]

/-! WAIT (R352). -/

theorem Cmd.barrier_of_wait {c : Cmd} (h : c.op = 0x2B) : c.barrier = true := by
  simp [Cmd.barrier, h]

section
variable {d : Dev} {r : CmdRef} {c : Cmd} (hc : d.Ready r 0x2B c) (hhdr : hdrOk c.desc 0 [(8, 16)] = true)
  (hal : field c.desc 8 8 % 8 = 0) (hf : r.f ≠ 0) (e : Env)
include hc hhdr hal hf

theorem Dev.wait_failed (hm : (d.read r.f e (field c.desc 8 8) 8).1.marks.clear = false) :
    d.wait r e = ((d.read r.f e (field c.desc 8 8) 8).2.mark r (d.read r.f e (field c.desc 8 8) 8).1.marks).finish r stSuccess := by
  rw [Dev.wait, Dev.withCmd_of hc]
  simp [Cmd.f, hhdr, hal, hf, hm]

/-- The comparison of R352 on the eight bytes that were read. -/
theorem Dev.wait_read (hm : (d.read r.f e (field c.desc 8 8) 8).1.marks.clear = true) :
    d.wait r e = if (leNat (d.read r.f e (field c.desc 8 8) 8).1.bytes + 2 ^ 64 - field c.desc 0x10 8) % 2 ^ 64 < 2 ^ 63 then
      (d.read r.f e (field c.desc 8 8) 8).2.finish r stSuccess else d := by
  have hread : leNat (d.read r.f e (field c.desc 8 8) 8).1.bytes < 2 ^ 64 := by
    have hlt := leNat_lt (d.read r.f e (field c.desc 8 8) 8).1.bytes
    rwa [Dev.read_length] at hlt
  rw [Dev.wait, Dev.withCmd_of hc]
  simp only [Cmd.f, hhdr, hal, hf, hm, Bool.not_true, Bool.false_eq_true, ne_eq, not_true_eq_false, or_self, if_false]
  exact if_congr (reached_iff _ _ hread (field_lt c.desc 0x10 8)) rfl rfl

end

/-! SIGNAL (R353). -/

theorem Qp.judgedBad_of {x : Qp} {k : Nat}
    (h : ∃ z ∈ x.done, x.sigFrom ≤ z.1 ∧ z.1 < k ∧ z.2 ≠ stSuccess ∧ z.2 ≠ stEmptyOutput) : x.judgedBad k = true := by
  obtain ⟨z, hz, hfrom, hto, hsuccess, hempty⟩ := h
  rw [Qp.judgedBad, List.any_eq_true]
  exact ⟨z, hz, by simp [stOk, hfrom, hto, hsuccess, hempty]⟩

theorem Qp.judgedBad_false {x : Qp} {k : Nat}
    (h : ∀ z ∈ x.done, x.sigFrom ≤ z.1 → z.1 < k → z.2 = stSuccess ∨ z.2 = stEmptyOutput) : x.judgedBad k = false := by
  rw [Qp.judgedBad, List.any_eq_false]
  intro z hz
  by_cases hrange : x.sigFrom ≤ z.1 ∧ z.1 < k
  · rcases h z hz hrange.1 hrange.2 with hst | hst <;> simp [stOk, hst]
  · simp only [Bool.and_eq_true, decide_eq_true_eq]
    exact fun hbad => hrange hbad.1

/-- The fields of a SIGNAL are in order (R353). -/
def Cmd.SignalOk (c : Cmd) : Prop :=
  hdrOk c.desc 1 [(8, 0x14)] = true ∧ byteAt c.desc 0x18 ≤ 2 ∧ (byteAt c.desc 0x18 < 2 → zeroAt c.desc 0x19 3 = true) ∧
    (byteAt c.desc 0x18 = 0 → field c.desc 8 8 % 8 = 0)

section
variable {d : Dev} {r : CmdRef} {x : Qp} {c : Cmd} (hx : d.qp r.f r.q = some x) (hs : d.signalStarts r = some c)
  (hrej : d.rejectStatus r c = none) (hok : c.SignalOk)
include hx hs hrej hok

/-- A SIGNAL whose fields are in order waits, is judged, or stores (R353). -/
theorem Dev.signal_ordered :
    d.signal r = if !x.earlierDone r.k then d
      else if bit c.opflags 0 ∧ x.judgedBad r.k then d.finish r stDepFailed
      else d.signalStore r c := by
  obtain ⟨hhdr, hkind, hzero, hal⟩ := hok
  rw [Dev.signal, hs, hx]
  dsimp only
  rw [hrej]
  dsimp only
  rw [if_neg]
  rintro (h | h | ⟨hlt, h⟩ | ⟨h0, h⟩)
  · rw [hhdr] at h; cases h
  · omega
  · rw [hzero hlt] at h; cases h
  · exact h (hal h0)

theorem Dev.signal_stores (hdone : x.earlierDone r.k = true) (hgood : bit c.opflags 0 = false ∨ x.judgedBad r.k = false) :
    d.signal r = d.signalStore r c := by
  rw [Dev.signal_ordered hx hs hrej hok, if_neg (by simp [hdone]), if_neg]
  rintro ⟨hflag, hbad⟩
  rcases hgood with h | h
  · rw [hflag] at h; cases h
  · rw [hbad] at h; cases h

end

/-- A store to host memory is one posted write, after which the command ends (R353). -/
theorem Dev.signalStore_host (d : Dev) (r : CmdRef) {c : Cmd} (hk : byteAt c.desc 0x18 = 1) :
    d.signalStore r c = (d.emitOut (.hostWrite (field c.desc 8 8) (leBytes 8 (field c.desc 0x10 8)))).finish r stSuccess := by
  rw [Dev.signalStore, hk]; rfl

theorem Dev.signalStore_partition (d : Dev) (r : CmdRef) {c : Cmd} (hk : byteAt c.desc 0x18 = 0) (hf : r.f ≠ 0)
    (hprot : ∀ y, d.part r.f = some y → y.protected (field c.desc 8 8) 8 = false) {w : Marks × Dev}
    (hw : w = d.writeRaced r.f Env.clean (field c.desc 8 8) (leBytes 8 (field c.desc 0x10 8))) :
    d.signalStore r c = ((w.2.mark r w.1).inputWake r.f).finish r stSuccess := by
  have hfree : ¬ (r.f = 0 ∨ (d.part r.f).any (fun y => y.protected (field c.desc 8 8) 8) = true) := by
    rintro (h0 | hany)
    · exact hf h0
    · cases hy : d.part r.f with
      | none => simp [hy] at hany
      | some y => simp [hy, hprot y hy] at hany
  rw [Dev.signalStore, hk]
  dsimp only
  rw [Cmd.f, if_neg hfree, hw]
  rfl

/-- A message that a command sends to a reachable module: the command waits for it, and no memory changes (R423). -/
theorem Dev.cmdSend_reachable (d : Dev) (r : CmdRef) (m : Msg) (h : (d.dest m.dst).unreachable = false) :
    ∃ id, (d.cmdSend r m).2.cmd r = (d.cmd r).map (fun c => { c with await := c.await ++ [(m.dst, id)] }) ∧
      (d.cmdSend r m).2.mem = d.mem := by
  have hsent := Dev.sent_sendMsg d { m with cmd := some r }
  refine ⟨(d.sendMsg { m with cmd := some r }).1, ?_⟩
  rw [Dev.cmdSend, if_neg (by simp [h])]
  exact ⟨(Dev.cmd_modCmd _ _ (by intro c; rfl)).trans (by rw [hsent.cmd]), (Dev.mem_modQp _ _ _ _).trans hsent.mem⟩

/-- The command of a SIGNAL to another module runs on until its message is answered (R353, R423). -/
theorem Dev.signalStore_module (d : Dev) (r : CmdRef) {c : Cmd} (hc : d.cmd r = some c) (hk : byteAt c.desc 0x18 = 2)
    (hrange : field c.desc 8 8 < 2 ^ 48) (hdest : (d.dest (byteAt c.desc 0x19)).unreachable = false) (haw : c.await = []) :
    ∃ y id, (d.signalStore r c).cmd r = some y ∧ y.phase = .running ∧ y.await = [(byteAt c.desc 0x19, id)] ∧
      (d.signalStore r c).mem = d.mem := by
  have hlt : ¬ 2 ^ 48 ≤ c.f 8 8 := Nat.not_le.mpr hrange
  have hrun : (d.modCmd r (fun c => { c with phase := .running })).cmd r = some { c with phase := .running } := by
    rw [Dev.cmd_modCmd _ _ (by intro c; rfl), hc]; rfl
  rw [Dev.signalStore, hk]
  simp only [if_neg hlt]
  generalize hm : Msg.mk _ _ _ _ _ _ _ _ _ _ _ = m
  have hdst : m.dst = byteAt c.desc 0x19 := by rw [← hm]
  obtain ⟨id, hcmd, hmem⟩ := Dev.cmdSend_reachable (d.modCmd r (fun c => { c with phase := .running })) r m
    (by rw [hdst]; exact (congrArg Dest.unreachable (by rw [Dev.dest, Dev.dest, Dev.fab_modCmd])).trans hdest)
  rw [hrun] at hcmd
  rw [Dev.settleCmd_waits _ _ _ hcmd (by simp)]
  exact ⟨_, id, hcmd, rfl, by simp [haw, hdst], hmem.trans (Dev.mem_modQp _ _ _ _)⟩

/-- Settles O15: WAIT by `Dev.wait_read`, SIGNAL by `Dev.signal_ordered` and the lemma of each kind of its target. -/
theorem signalsAndWaits : Obligations.SignalsAndWaits := by
  unfold Obligations.SignalsAndWaits
  refine ⟨⟨?wait, fun d x c r hx hc hop hk => Dev.startable_barrier hx hc (Cmd.barrier_of_wait hop) hk⟩, ?signal⟩
  case wait =>
    rintro s r c e z hc hhdr hal hf rfl
    have hcmd : (s.dev.read r.f e (field c.desc 8 8) 8).2.cmd r = some c :=
      ((Dev.accessed_read _ _ _ _ _).cmd r).trans (Dev.ready_cmd hc)
    refine ⟨fun hm hreached => ⟨_, exec_wait r e s, ?_⟩, fun hm hnot => ?_, fun hm => ?_⟩
    · rw [State.onDev_dev, Dev.wait_read hc hhdr hal hf e hm, if_pos hreached]
      exact Dev.ended_finish _ hcmd (Dev.ready_marks hc) (by decide) 0 0 0 []
    · rw [exec_wait]
      exact State.next_same ((Dev.wait_read hc hhdr hal hf e hm).trans (if_neg (by omega)))
    · obtain ⟨y, hy, hphase, hstatus⟩ := Dev.cmd_finish_mark _ hcmd (Dev.ready_marks hc)
        (s.dev.read r.f e (field c.desc 8 8) 8).1.marks stSuccess
      refine ⟨_, y, exec_wait r e s, ?_, hphase, hstatus, fun hcause => hstatus.trans (Marks.final_fst_cause hcause),
        fun hnone hfail => hstatus.trans (Marks.final_fst_tierError hnone hfail)⟩
      rw [State.onDev_dev, Dev.wait_failed hc hhdr hal hf e hm, hy]
  case signal =>
    intro s r x c hx hs hrej hmarks haw htags hhdr
    obtain ⟨hcmd, -, -⟩ := Dev.signalStarts_some hs
    refine ⟨fun hearly hk hz => ?waits, fun hdone => ⟨fun hk hz hflag hbad => ?judged, fun hgood => ?stores⟩⟩
    case waits =>
      have hok : c.SignalOk := ⟨hhdr, by omega, fun _ => hz, by omega⟩
      rw [exec_signal]
      exact State.next_same ((Dev.signal_ordered hx hs hrej hok).trans (if_pos (by simp [hearly])))
    case judged =>
      have hok : c.SignalOk := ⟨hhdr, by omega, fun _ => hz, by omega⟩
      refine ⟨_, exec_signal r s, ?_⟩
      rw [State.onDev_dev, Dev.signal_ordered hx hs hrej hok, if_neg (by simp [hdone]),
        if_pos ⟨hflag, Qp.judgedBad_of hbad⟩]
      exact ⟨Dev.ended_finish _ hcmd hmarks (by decide) 0 0 0 [], Dev.out_finish _ _ _ _ _ _ _, Dev.mem_finish _ _ _ _ _ _ _⟩
    case stores =>
      have hstore (hok : c.SignalOk) : s.dev.signal r = s.dev.signalStore r c :=
        Dev.signal_stores hx hs hrej hok hdone (hgood.imp_right Qp.judgedBad_false)
      refine ⟨fun hk hz hal hf hprot hinput => ?partition, fun hk hz => ?host, fun hk hrange hdest => ?module⟩
      case partition =>
        have hraced := Dev.raced_writeRaced s.dev r.f Env.clean (field c.desc 8 8) (leBytes 8 (field c.desc 0x10 8))
        generalize hw : s.dev.writeRaced r.f Env.clean (field c.desc 8 8) (leBytes 8 (field c.desc 0x10 8)) = w at hraced
        obtain ⟨y, hy, hphase, hstatus⟩ := Dev.cmd_finish_mark w.2 ((hraced.cmd r).trans hcmd) hmarks w.1 stSuccess
        have hctxs : (w.2.mark r w.1).ctxs = s.dev.ctxs := (Dev.ctxs_modQp _ _ _ _).trans hraced.acc.ctxs
        refine ⟨_, w, y, rfl, fun hq => ?_, exec_signal r s, ?_, ?_, hphase, hstatus⟩
        · rw [← hw, Dev.writeRaced_quiet hq]
        all_goals
          rw [State.onDev_dev, hstore ⟨hhdr, by omega, fun _ => hz, fun _ => hal⟩,
            Dev.signalStore_partition _ _ hk hf hprot hw.symm, Dev.inputWake_none _ _ (by rw [hctxs]; exact hinput)]
        · exact (Dev.mem_finish _ _ _ _ _ _ _).trans (Dev.mem_modQp _ _ _ _)
        · exact hy
      case host =>
        refine ⟨_, exec_signal r s, ?_⟩
        rw [State.onDev_dev, hstore ⟨hhdr, by omega, fun _ => hz, by omega⟩, Dev.signalStore_host _ _ hk]
        exact ⟨Dev.ended_finish _ ((Dev.cmd_emitOut _ _ _).trans hcmd) hmarks (by decide) 0 0 0 [], Dev.out_finish _ _ _ _ _ _ _⟩
      case module =>
        obtain ⟨y, id, hy⟩ := Dev.signalStore_module s.dev r hcmd hk hrange hdest haw
        refine ⟨_, y, id, exec_signal r s, ?_⟩
        rw [State.onDev_dev, hstore ⟨hhdr, by omega, by omega, by omega⟩]
        exact hy

end Sys2Proof.Machine
end

section
/-!
PROOF. TIER_HINT (R300, R304, R369, R370).
-/

namespace Sys2Proof.Machine

theorem exec_tierHint (r : CmdRef) (s : State) : exec (.tierHint r) s = .next (s.onDev (fun d => d.tierHint r)) := rfl

/-- A command that may start is not yet running. -/
theorem Dev.runningCmd_of_ready {d : Dev} {r : CmdRef} {op : Nat} {c : Cmd} (h : d.Ready r op c) (op' : Nat) :
    d.runningCmd r op' = none := by
  simp [Dev.runningCmd, Dev.ready_cmd h, Dev.ready_waiting h]

/-- The fields of a TIER_HINT with an action on pages (R370). -/
structure Cmd.Hints (c : Cmd) : Prop where
  hdr : hdrOk c.desc 0 [(8, 1), (0x10, 0x18)] = true
  act : byteAt c.desc 8 < 5
  count : 1 ≤ field c.desc 0x18 4
  aligned : field c.desc 0x10 8 % 2 ^ 21 = 0
  zero : zeroAt c.desc 0x1C 12 = true

theorem Cmd.Hints.fields {c : Cmd} (h : c.Hints) : ¬ ((!hdrOk c.desc 0 [(8, 1), (0x10, 0x18)]) = true ∨ 5 < byteAt c.desc 8 ∨
    c.f 0x18 4 = 0 ∨ c.f 0x10 8 % pageBytes ≠ 0 ∨ (byteAt c.desc 8 ≠ 5 ∧ (!zeroAt c.desc 0x1C 12) = true) ∨
    c.f 0x20 8 % 16 ≠ 0) := by
  obtain ⟨hhdr, hact, hn, hal, hz⟩ := h
  have haddr : field c.desc 0x20 8 = 0 := field_zero hz (by decide) (by decide)
  rintro (h | h | h | h | ⟨-, h⟩ | h)
  · rw [hhdr] at h; cases h
  · omega
  · exact absurd h (Nat.ne_of_gt hn)
  · exact h hal
  · rw [hz] at h; cases h
  · exact h (by rw [Cmd.f, haddr])

section
variable {d : Dev} {r : CmdRef} {c : Cmd} {x : Part} (hc : d.Ready r 0x2C c) (h : c.Hints) (hx : d.part r.f = some x)
include hc h hx

theorem Dev.tierHint_outside (hpages : x.tier.hintPages (field c.desc 0x10 8) (field c.desc 0x18 4) = none) :
    d.tierHint r = d.finish r stAddrRange := by
  rw [Dev.tierHint, Dev.runningCmd_of_ready hc, Dev.withCmd_of hc]
  dsimp only
  rw [hx, if_neg h.fields]
  dsimp only
  rw [if_neg (Nat.ne_of_lt h.act), Cmd.f, Cmd.f, hpages]

theorem Dev.tierHint_pages {l : List Nat}
    (hpages : x.tier.hintPages (field c.desc 0x10 8) (field c.desc 0x18 4) = some l) :
    d.tierHint r = d.tierAct r x (byteAt c.desc 8) l := by
  rw [Dev.tierHint, Dev.runningCmd_of_ready hc, Dev.withCmd_of hc]
  dsimp only
  rw [hx, if_neg h.fields]
  dsimp only
  rw [if_neg (Nat.ne_of_lt h.act), Cmd.f, Cmd.f, hpages]

end

/-- A hint that only stores lists of the tier ends with the number of pages that it took. -/
theorem Dev.tier_put_finish {d : Dev} {r : CmdRef} {c : Cmd} (hc : d.cmd r = some c) (hm : c.marks = {}) (y : Part) (n : Nat) :
    ((d.putPart r.f y).finish r stSuccess n).part r.f = some y ∧
      ((d.putPart r.f y).finish r stSuccess n).Ended r stSuccess n 0 0 :=
  ⟨(Dev.part_finish _ _ _ _ _ _ _ _).trans (Dev.part_putPart _ _ _),
    Dev.ended_finish _ ((Dev.cmd_putPart _ _ _ _).trans hc) hm (by decide) n 0 0 []⟩

/-- Pages that are STACK already are pinned at once (R370). -/
theorem Dev.pinOn_put_stack (d : Dev) (r : CmdRef) {x : Part} {l : List Nat} (h : ∀ p ∈ l, (x.tier.st p).isStack = true)
    (pins : List Nat) :
    (d.putPart r.f { x with tier := { x.tier with pinned := pins } }).pinOn r l =
      (d.putPart r.f { x with tier := { x.tier with pinned := pins } }).finish r stSuccess l.length :=
  Dev.pinOn_stack _ _ _ _ (Dev.part_putPart _ _ _) h

/-- Settles O16: `Dev.tierHint_pages` leads to the actions, each of which stores its tier and ends. -/
theorem tierHintActs : Obligations.TierHintActs := by
  unfold Obligations.TierHintActs
  rintro s r c x act n a hc hhdr rfl rfl rfl hact hn hal hz hx
  have hcmd := Dev.ready_cmd hc
  have hmarks := Dev.ready_marks hc
  have hfields : c.Hints := ⟨hhdr, hact, hn, hal, hz⟩
  refine ⟨fun hbase hout => ⟨_, exec_tierHint r s, ?outside⟩, fun pg l ha hin hl => ?inside⟩
  case outside =>
    rw [State.onDev_dev, Dev.tierHint_outside hc hfields hx (Tier.hintPages_none _ _ _ hn hbase hal hout)]
    exact ⟨Dev.ended_finish _ hcmd hmarks (by decide) 0 0 0 [], (Dev.part_finish _ _ _ _ _ _ _ _).trans hx⟩
  case inside =>
    have hpages := Dev.tierHint_pages hc hfields hx ((Tier.hintPages_some _ _ _ pg ha hn hin).trans (by rw [← hl]))
    refine ⟨fun h => ?promote, fun h => ?demote, fun h hstack => ⟨fun hfit => ?pin, fun hover => ?limit⟩, fun h => ?unpin,
      fun h => ?discard⟩
    all_goals
      rw [h] at hpages
    case promote | demote | unpin =>
      refine ⟨_, exec_tierHint r s, ?_⟩
      rw [State.onDev_dev, hpages]
      exact Dev.tier_put_finish hcmd hmarks _ _
    case pin =>
      have hlen : l.length = field c.desc 0x18 4 := by simp [hl]
      refine ⟨_, exec_tierHint r s, ?_⟩
      rw [State.onDev_dev, hpages, Dev.tierAct]
      dsimp only
      rw [if_neg (by omega), Dev.pinOn_put_stack _ _ hstack, hlen]
      exact Dev.tier_put_finish hcmd hmarks _ _
    case limit =>
      refine ⟨_, exec_tierHint r s, ?_⟩
      rw [State.onDev_dev, hpages, Dev.tierAct]
      dsimp only
      rw [if_pos hover]
      exact ⟨(Dev.part_finish _ _ _ _ _ _ _ _).trans hx, Dev.ended_finish _ hcmd hmarks (by decide) 0 0 0 []⟩
    case discard =>
      obtain ⟨hpart, hended⟩ := Dev.tier_put_finish hcmd hmarks { x with tier := l.foldl Tier.discard x.tier }
        (l.filter (fun p => x.tier.st p != .zero)).length
      refine ⟨_, { x with tier := l.foldl Tier.discard x.tier }, exec_tierHint r s, ?_, Tier.st_discards l x.tier, ?_⟩
      · rw [State.onDev_dev, hpages]; exact hpart
      · rw [State.onDev_dev, hpages]; exact hended

end Sys2Proof.Machine
end

section
/-!
PROOF. QUERY and QUERY_TIME (R371, R372, R407).
-/

namespace Sys2Proof.Machine

theorem exec_query (r : CmdRef) (s : State) : exec (.query r) s = .next (s.onDev (fun d => d.query r)) := rfl

theorem exec_queryTime (r : CmdRef) (ptm out back : Nat) (s : State) :
    exec (.queryTime r ptm out back) s = .next (s.onDev (fun d => d.queryTime r ptm out back)) := rfl

theorem Dev.query_long {d : Dev} {r : CmdRef} {c : Cmd} (hc : d.Ready r 0x30 c) (hlen : 4096 < field c.desc 0x18 4) :
    d.query r = d.finish r stInvalidField := by
  rw [Dev.query, Dev.withCmd_of hc]
  exact if_pos (Or.inr hlen)

section
variable {d : Dev} {r : CmdRef} {c : Cmd} (hc : d.Ready r 0x30 c) (hhdr : hdrOk c.desc 0 [(8, 2), (0x0C, 16)] = true)
  (hlen : field c.desc 0x18 4 ≤ 4096)
include hc hhdr hlen

theorem Dev.query_refused {st : Nat} (h : d.answer r.f (field c.desc 8 2) (field c.desc 0x0C 4) = .inr st) :
    d.query r = d.finish r st := by
  rw [Dev.query, Dev.withCmd_of hc]
  simp only [Cmd.f, hhdr, h, Bool.not_true, Bool.false_eq_true, false_or, if_neg (Nat.not_lt.mpr hlen)]

theorem Dev.query_answered {z : Bytes × Dev} (h : d.answer r.f (field c.desc 8 2) (field c.desc 0x0C 4) = .inl z) :
    d.query r = (if (z.1.take (field c.desc 0x18 4)).isEmpty then z.2
      else z.2.emitOut (.hostWrite (field c.desc 0x10 8) (z.1.take (field c.desc 0x18 4)))).finish r stSuccess
        (z.1.take (field c.desc 0x18 4)).length := by
  rw [Dev.query, Dev.withCmd_of hc]
  simp only [Cmd.f, hhdr, h, Bool.not_true, Bool.false_eq_true, false_or, if_neg (Nat.not_lt.mpr hlen)]
  rfl

/-- An answer that is given ends the query with the number of bytes, and is written where it has bytes (R371). -/
theorem Dev.query_ended {z : Bytes × Dev} (h : d.answer r.f (field c.desc 8 2) (field c.desc 0x0C 4) = .inl z)
    (hz : z.2.cmd r = some c) :
    (d.query r).Ended r stSuccess (z.1.take (field c.desc 0x18 4)).length 0 0 := by
  rw [Dev.query_answered hc hhdr hlen h]
  refine Dev.ended_finish _ ?_ (Dev.ready_marks hc) (by decide) _ 0 0 []
  split
  · exact hz
  · exact (Dev.cmd_emitOut _ _ _).trans hz

theorem Dev.query_written {z : Bytes × Dev} (h : d.answer r.f (field c.desc 8 2) (field c.desc 0x0C 4) = .inl z)
    (hpos : 1 ≤ field c.desc 0x18 4) (hsome : z.1 ≠ []) :
    (d.query r).out = z.2.out ++ [.hostWrite (field c.desc 0x10 8) (z.1.take (field c.desc 0x18 4))] ∧
      (d.query r).cnt = z.2.cnt := by
  have hne : ¬ (z.1.take (field c.desc 0x18 4)).isEmpty = true := by
    simp [hsome, Nat.ne_of_gt hpos]
  rw [Dev.query_answered hc hhdr hlen h, if_neg hne]
  exact ⟨Dev.out_finish _ _ _ _ _ _ _, Dev.cnt_finish _ _ _ _ _ _ _⟩

end

/-! The answers. -/

/-- What no item answers (R371). -/
theorem Dev.answer_invalid (d : Dev) (f : Nat) {item arg : Nat}
    (h : 5 < item ∨ (item < 2 ∧ arg ≠ 0) ∨ (item = 4 ∧ 2 ^ 25 ≤ arg) ∨ (item = 5 ∧ 15 < arg)) :
    d.answer f item arg = .inr stInvalidField := by
  rcases h with h | ⟨h, harg⟩ | ⟨rfl, harg⟩ | ⟨rfl, harg⟩
  · obtain ⟨n, rfl⟩ := Nat.exists_eq_add_of_lt h
    rw [Nat.add_comm 5 n]; rfl
  · obtain rfl | rfl : item = 0 ∨ item = 1 := by omega
    · exact if_pos harg
    · exact if_pos harg
  · exact if_pos (Or.inl harg)
  · exact if_pos harg

theorem Dev.answer_program {d : Dev} {f item arg : Nat} {x : Part} {g : Prog} (hitem : item = 2) (hx : d.part f = some x)
    (hg : kfind x.progs arg = some g) :
    d.answer f item arg =
      .inl ([(parseImage g.image).ftLevel, (parseImage g.image).layers, (parseImage g.image).size].flatMap (leBytes 8), d) := by
  simp [hitem, Dev.answer, hx, hg]

theorem Dev.answer_context {d : Dev} {f item arg i : Nat} {x : Part} (hitem : item = 3) (hx : d.part f = some x) (hf : f ≠ 0)
    (hi : d.byHandle x arg = some i) : d.answer f item arg = .inl ((d.ctx i).bytes i, d) := by
  simp [hitem, Dev.answer, Dev.queryPart, hx, hf, hi]

theorem Dev.answer_counters {d : Dev} {f item arg : Nat} (hitem : item = 4) (harg : arg < 2 ^ 25) (hk : kindCounters (unitKind (arg % 2 ^ 24)) ≠ 0)
    (hmine : f ≠ 0 → d.unitMine f (arg % 2 ^ 24) = true) :
    d.answer f item arg = .inl ((d.qCounters (arg % 2 ^ 24) (bit arg 24)).1.flatMap (leBytes 8),
      (d.qCounters (arg % 2 ^ 24) (bit arg 24)).2) := by
  have hheld : ¬ (2 ^ 25 ≤ arg ∨ kindCounters (unitKind (arg % 2 ^ 24)) = 0) := by omega
  have howned : ¬ (f ≠ 0 ∧ (!d.unitMine f (arg % 2 ^ 24)) = true) := by
    rintro ⟨hf, hnot⟩
    rw [hmine hf] at hnot
    cases hnot
  subst hitem
  exact (if_neg hheld).trans (if_neg howned)

theorem Dev.answer_stack (d : Dev) (f : Nat) {item arg : Nat} (hitem : item = 5) (harg : arg ≤ 15) :
    d.answer f item arg = .inl ([d.stackStatus arg, (d.stack arg).poison.length,
      if (d.stack arg).repairing then 0xFF else (d.stack arg).repaired.getD 0xFF].flatMap (leBytes 8), d) :=
  hitem ▸ if_neg (by omega)

/-- The counters of a unit after a query: cleared where bit 24 of ARG says so (R407). -/
theorem Dev.counter_qCounters (d : Dev) (u : Nat) (clear : Bool) {n : Nat} (hn : n < 32) :
    (d.qCounters u clear).2.counter u n = if clear then 0 else d.counter u n := by
  cases clear with
  | false => rfl
  | true => simp [Dev.qCounters, Dev.counter, Dev.zeroUnit, kget, kfind_unit_zero u n hn]

theorem setBits_pow {x : Nat} (hx : x < 23) : setBits 23 (2 ^ x) = [x] := by
  have hall : ∀ x < 23, setBits 23 (2 ^ x) = [x] := by decide
  exact hall x hx

theorem fields_ne_nil (v : Nat) (l : List Nat) : (v :: l).flatMap (leBytes 8) ≠ [] :=
  List.ne_nil_of_length_pos (by rw [fields_length, List.length_cons]; omega)

section
variable {s : State} {r : CmdRef} {c : Cmd} (hc : s.dev.Ready r 0x30 c)
  (hhdr : hdrOk c.desc 0 [(8, 2), (0x0C, 16)] = true) (hlen : field c.desc 0x18 4 ≤ 4096)
include hc hhdr hlen

/-- A query that is answered by three fields (items 2 and 5). -/
theorem Dev.query_three {a b e : Nat} (hpos : 1 ≤ field c.desc 0x18 4)
    (hans : s.dev.answer r.f (field c.desc 8 2) (field c.desc 0x0C 4) = .inl ([a, b, e].flatMap (leBytes 8), s.dev)) :
    (s.dev.query r).Ended r stSuccess (min (field c.desc 0x18 4) 24) 0 0 ∧
      (s.dev.query r).out = s.dev.out ++
        [.hostWrite (field c.desc 0x10 8) (([a, b, e].flatMap (leBytes 8)).take (field c.desc 0x18 4))] := by
  have hended := Dev.query_ended hc hhdr hlen hans (Dev.ready_cmd hc)
  obtain ⟨hout, -⟩ := Dev.query_written hc hhdr hlen hans hpos (fields_ne_nil _ _)
  rw [List.length_take, fields_length] at hended
  exact ⟨hended, hout⟩

/-- A query of counters writes the mask of overflows, the time and the counters (R407). -/
theorem Dev.query_counters {u k : Nat} (hpos : 1 ≤ field c.desc 0x18 4) (hitem : field c.desc 8 2 = 4)
    (harg : field c.desc 0x0C 4 < 2 ^ 25) (hu : u = field c.desc 0x0C 4 % 2 ^ 24) (hk : k = kindCounters (unitKind u))
    (hk0 : k ≠ 0) (hmine : r.f ≠ 0 → s.dev.unitMine r.f u = true) :
    ∃ b, (s.dev.query r).out = s.dev.out ++ [.hostWrite (field c.desc 0x10 8) (b.take (field c.desc 0x18 4))] ∧
      b.length = 8 * (k + 2) ∧ slice b 8 8 = leBytes 8 (s.dev.aoOf (u / 0x10000)) ∧
      (∀ n, n < k → slice b (16 + 8 * n) 8 = leBytes 8 (s.dev.counter u n)) ∧
      ∀ n, n < 32 → (s.dev.query r).counter u n = if bit (field c.desc 0x0C 4) 24 then 0 else s.dev.counter u n := by
  subst hu
  have hans := Dev.answer_counters hitem harg (hk ▸ hk0) hmine
  have hcounters (n : Nat) (hn : n < 32) :=
    Dev.counter_qCounters s.dev (field c.desc 0x0C 4 % 2 ^ 24) (bit (field c.desc 0x0C 4) 24) hn
  have hsame : (s.dev.qCounters (field c.desc 0x0C 4 % 2 ^ 24) (bit (field c.desc 0x0C 4) 24)).2.out = s.dev.out := by
    simp only [Dev.qCounters]; split <;> rfl
  have hlist : ∃ m, (s.dev.qCounters (field c.desc 0x0C 4 % 2 ^ 24) (bit (field c.desc 0x0C 4) 24)).1 =
      m :: s.dev.aoOf (field c.desc 0x0C 4 % 2 ^ 24 / 0x10000) ::
        (List.range k).map (s.dev.counter (field c.desc 0x0C 4 % 2 ^ 24)) := ⟨_, by rw [hk]; rfl⟩
  generalize s.dev.qCounters (field c.desc 0x0C 4 % 2 ^ 24) (bit (field c.desc 0x0C 4) 24) = z at *
  obtain ⟨m, hm⟩ := hlist
  rw [hm] at hans
  obtain ⟨hout, hcnt⟩ := Dev.query_written hc hhdr hlen hans hpos (fields_ne_nil _ _)
  refine ⟨_, hout.trans (by rw [hsame]), ?_, ?_, fun n hn => ?_, fun n hn => ?_⟩
  · rw [fields_length, List.length_cons, List.length_cons, List.length_map, List.length_range]
  · exact fields_slice _ 1 (by simp)
  · rw [show 16 + 8 * n = 8 * (n + 2) by omega, fields_slice _ (n + 2) (by simp [hn])]
    simp
  · rw [← hcounters n hn, Dev.counter, hcnt]; rfl

end

/-- QUERY_TIME for one die: a header and one entry for each sample (R372). -/
theorem Dev.queryTime_die {d : Dev} {r : CmdRef} {c : Cmd} (hc : d.Ready r 0x31 c)
    (hhdr : hdrOk c.desc 0 [(8, 17)] = true) {x : Nat} (hx : x < 23) (hdies : field c.desc 8 8 = 2 ^ x)
    (hpos : 1 ≤ byteAt c.desc 0x18) (hmax : byteAt c.desc 0x18 ≤ 16) (ptm out back : Nat) :
    d.queryTime r ptm out back = (d.emitOut (.hostWrite (field c.desc 0x10 8)
      (leBytes 8 (if d.mod.ptm then ptm else 0) ++ leBytes 8 (d.aoOf 16) ++ leBytes 4 (byteAt c.desc 0x18) ++
        List.replicate 12 0 ++ (List.range (byteAt c.desc 0x18)).flatMap (fun k => leBytes 1 x ++ leBytes 1 k ++
          List.replicate 6 0 ++ leBytes 8 (d.aoOf 16) ++ leBytes 8 (d.aoOf x + out) ++
          leBytes 8 (d.aoOf 16 + out + back))))).finish r stSuccess (byteAt c.desc 0x18) := by
  have hlt : field c.desc 8 8 < 2 ^ 23 := hdies ▸ Nat.pow_lt_pow_right (by decide) hx
  rw [Dev.queryTime, Dev.withCmd_of hc]
  dsimp only
  rw [Cmd.f, if_neg (by rw [hhdr]; simp; omega), hdies, setBits_pow hx]
  simp only [List.flatMap_cons, List.flatMap_nil, List.append_nil, List.length_map, List.length_range, List.flatMap_map,
    repByte, Cmd.f]

/-- Settles O17: `Dev.answer` item by item, then what a query does with an answer (`Dev.query_ended`, `Dev.query_written`). -/
theorem queriesAnswered : Obligations.QueriesAnswered := by
  unfold Obligations.QueriesAnswered
  refine ⟨?query, ?queryTime⟩
  case query =>
    rintro s r c item arg dst len hc hhdr rfl rfl rfl rfl
    have hcmd := Dev.ready_cmd hc
    refine ⟨fun hbad => ⟨_, exec_query r s, ?refused⟩, fun hpos hlen => ⟨fun hitem x g hx hg => ⟨_, exec_query r s, ?program⟩,
      fun hitem x i hx hf hi => ⟨_, exec_query r s, ?context⟩,
      fun hitem harg u k hu hk hk0 hmine => ?counters, fun hitem harg => ?stack⟩⟩
    case refused =>
      have hrefused : s.dev.query r = s.dev.finish r stInvalidField := by
        by_cases hlen : 4096 < field c.desc 0x18 4
        · exact Dev.query_long hc hlen
        · exact Dev.query_refused hc hhdr (by omega) (Dev.answer_invalid _ _ (hbad.resolve_left hlen))
      rw [State.onDev_dev, hrefused]
      exact ⟨Dev.ended_finish _ hcmd (Dev.ready_marks hc) (by decide) 0 0 0 [], Dev.out_finish _ _ _ _ _ _ _⟩
    case program =>
      have hans := Dev.answer_program hitem hx hg
      obtain ⟨hended, hout⟩ := Dev.query_three hc hhdr hlen hpos hans
      refine ⟨hended, hout.trans ?_⟩
      simp only [List.flatMap_cons, List.flatMap_nil, List.append_nil, List.append_assoc]
    case context =>
      have hans := Dev.answer_context hitem hx hf hi
      have hended := Dev.query_ended hc hhdr hlen hans hcmd
      refine ⟨hended, fun hlong => ?_⟩
      have hsome : (s.dev.ctx i).bytes i ≠ [] := fun hnil => by rw [hnil, List.take_nil] at hlong; cases hlong
      exact (Dev.query_written hc hhdr hlen hans hpos hsome).1
    case counters =>
      obtain ⟨b, hout, hrest⟩ := Dev.query_counters hc hhdr hlen hpos hitem harg hu hk hk0 hmine
      exact ⟨_, b, exec_query r s, hout, hrest⟩
    case stack =>
      have hans := Dev.answer_stack s.dev r.f hitem harg
      obtain ⟨hended, hout⟩ := Dev.query_three hc hhdr hlen hpos hans
      exact ⟨_, _, exec_query r s, hended, hout, fields_slice _ 1 (by simp)⟩
  case queryTime =>
    rintro s r c x ptm out back n hc hhdr hx hdies rfl hpos hmax
    refine ⟨_, exec_queryTime r ptm out back s, ?_⟩
    rw [State.onDev_dev, Dev.queryTime_die hc hhdr hx hdies hpos hmax]
    exact ⟨Dev.ended_finish _ ((Dev.cmd_emitOut _ _ _).trans (Dev.ready_cmd hc)) (Dev.ready_marks hc) (by decide) _ 0 0 [],
      Dev.out_finish _ _ _ _ _ _ _⟩

end Sys2Proof.Machine
end

section
/-!
PROOF. Accesses within one sector of a region (R274, R279, R283), and FILL (R285, R318, R367).
-/

namespace Sys2Proof.Machine

/-! A sector that reads clean. -/

/-- The sector of `off` on stack `t` is in service and reads clean: no poison, no error that the environment gives. -/
structure Dev.CleanSector (d : Dev) (e : Env) (t off : Nat) : Prop where
  service : d.stackOut t = false
  good : (d.stack t).bad off = false
  correctable : (t, off / 64 * 64) ∉ e.uncorrectable
  loud : silentAt e t (off / 64 * 64) = none

section
variable {d : Dev} {e : Env} {t off : Nat} (h : d.CleanSector e t off)
include h

theorem Dev.rewrite_clean (d' : Dev) : d'.rewrite e t off = d' := by
  simp only [Dev.rewrite, h.loud]

theorem Dev.writeStack_clean (p : Nat) (sector : Bool) (bs : Bytes) :
    (d.writeStack p e t off sector bs).1 = {} ∧
      (d.writeStack p e t off sector bs).2.mem = mwrite d.mem (stackKey t off) bs := by
  rw [Dev.writeStack]
  simp only [h.service, h.good, Bool.false_eq_true, if_false, List.contains_iff_mem, if_neg h.correctable]
  by_cases hwhole : off % 64 = 0 ∧ bs.length = 64
  · rw [if_pos hwhole]; exact ⟨rfl, rfl⟩
  · rw [if_neg hwhole]
    have hmem : ((if (t, off / 64 * 64) ∈ e.corrected then d.corrected t off sector else d).rewrite e t off).mem = d.mem := by
      rw [Dev.rewrite_clean h]
      split
      · exact Dev.corrected_mem _ _ _ _
      · rfl
    exact ⟨rfl, congrArg (fun m => mwrite m (stackKey t off) bs) hmem⟩

theorem Dev.settleSector_clean_mem (sector : Bool) : (d.settleSector e t off sector).mem = d.mem := by
  rw [Dev.settleSector, Dev.rewrite_clean h]
  split
  · exact Dev.corrected_mem _ _ _ _
  · rfl

theorem Dev.readPiece_clean {p a : Nat} {sector : Bool} (hloc : d.locate p a = .stack t off sector) (n : Nat) :
    (d.readPiece p e a n).1 = { bytes := (List.range n).map (fun i => mget d.mem (stackKey t off + i)) } ∧
      (d.readPiece p e a n).2.mem = d.mem := by
  have hbytes : d.deliver64 e t off n = (List.range n).map (fun i => mget d.mem (stackKey t off + i)) := by
    rw [Dev.deliver64, h.loud]; rfl
  rw [Dev.readPiece, hloc]
  simp only [h.service, h.good, Bool.false_eq_true, if_false, List.contains_iff_mem, if_neg h.correctable, hbytes]
  exact ⟨trivial, Dev.settleSector_clean_mem h sector⟩

end

/-! One sector. -/

/-- A piece of one sector has no whole 256 B piece. -/
theorem Dev.clearPieces_sector (d : Dev) (p : Nat) {a n : Nat} (h : a % 64 + n ≤ 64) : d.clearPieces p a n = d := by
  have hnone : (a + n) / 256 - ceilDiv a 256 = 0 := by unfold ceilDiv; omega
  rw [Dev.clearPieces, hnone]; rfl

theorem Dev.secondAt_none {d : Dev} {p a : Nat} (h : ∀ y, d.part p = some y → y.tier.pageOf a = none) :
    d.secondAt p a = none := by
  rw [Dev.secondAt]
  cases hy : d.part p with
  | none => rfl
  | some y => simp [h y hy]

theorem Dev.write_sector (d : Dev) {p a : Nat} {e : Env} {bs : Bytes} (hpos : 1 ≤ bs.length) (hfit : a % 64 + bs.length ≤ 64)
    (hno : ∀ y, d.part p = some y → y.tier.pageOf a = none) :
    ∃ u, d.write p e a bs = (d.setCups u).writePiece p e a bs := by
  obtain ⟨u, hu⟩ := Dev.chargeWrite_shape d p a bs.length
  refine ⟨u, ?_⟩
  rw [Dev.write, hu, Dev.store, sectorsOf_one _ _ hpos hfit, Dev.touch_none (d.setCups u) _ _ _ hno, Dev.clearPieces_sector _ _ hfit]
  have hslice : slice bs (a - a) bs.length = bs := by simp [slice]
  rw [List.foldl_cons, List.foldl_nil]
  dsimp only
  rw [hslice, Marks.join_nil]

theorem Dev.read_sector (d : Dev) {p a n : Nat} {e : Env} (hpos : 1 ≤ n) (hfit : a % 64 + n ≤ 64)
    (hno : ∀ y, d.part p = some y → y.tier.pageOf a = none) :
    ∃ u, d.read p e a n = (d.setCups u).readPiece p e a n := by
  obtain ⟨u, hu⟩ := Dev.chargeRun_shape d p a n
  refine ⟨u, ?_⟩
  rw [Dev.read, Dev.touch_none _ _ _ _ hno, hu, sectorsOf_one _ _ hpos hfit]
  simp [Rd.nil_append]

theorem Dev.writePiece_stack {d : Dev} {p a t off : Nat} {sector : Bool} (hloc : d.locate p a = .stack t off sector)
    (hno : ∀ y, d.part p = some y → y.tier.pageOf a = none) (e : Env) (bs : Bytes) :
    d.writePiece p e a bs = d.writeStack p e t off sector bs := by
  rw [Dev.writePiece, hloc]
  dsimp only
  rw [Dev.writeBoth, Dev.secondAt_none hno]
  rfl

/-- Settles O18: the sector's piece goes where `Region.place` puts it, and the memory's own laws say what it changes. -/
theorem regionAccess : Obligations.RegionAccess := by
  unfold Obligations.RegionAccess
  intro d p a gs e g bs hreg hpos hfit hgs t off key ht hoff hkey hservice hgood hcorr hloud hno hwf
  have hclean : ∀ u, (d.setCups u).CleanSector e t off := fun u => ⟨hservice, hgood, hcorr, hloud⟩
  have hloc : ∀ u, (d.setCups u).locate p a = .stack t off g.sector := by
    intro u
    subst hgs
    exact (Dev.locate_region _ _ _ _ hreg).trans (by rw [ht, hoff]; rfl)
  obtain ⟨u, hu⟩ := Dev.write_sector d (e := e) hpos hfit hno
  obtain ⟨v, hv⟩ := Dev.read_sector d (e := e) hpos hfit hno
  rw [Dev.writePiece_stack (hloc u) hno] at hu
  obtain ⟨hmarks, hmem⟩ := Dev.writeStack_clean (hclean u) p g.sector bs
  obtain ⟨hread, hsame⟩ := Dev.readPiece_clean (hclean v) (hloc v) bs.length
  subst hkey
  rw [hu, hv, hmem]
  exact ⟨hmarks, fun i hi => mget_mwrite_in bs _ _ i hwf hi, fun k hk => mget_mwrite_out bs _ _ k hk, hread, hsame⟩

/-! FILL. -/

theorem exec_fill (r : CmdRef) (s : State) : exec (.fill r) s = .next (s.onDev (fun d => d.fillCmd r)) := rfl

theorem take_flatten_replicate {pat : Bytes} (hpat : 0 < pat.length) (n : Nat) :
    (List.replicate (n / pat.length + 1) pat).flatten.take n = (List.range n).map (fun i => pat.getD (i % pat.length) 0) := by
  have hlen : n ≤ (List.replicate (n / pat.length + 1) pat).flatten.length := by
    have := Nat.lt_mul_div_succ n hpat
    simp only [List.length_flatten, List.map_replicate, List.sum_replicate, smul_eq_mul]
    rw [Nat.mul_comm]; exact this.le
  refine List.ext_getElem (by simpa using hlen) fun i h1 h2 => ?_
  have hi : i < n := by simpa using h2
  have hget := flatten_replicate_getD pat hpat (n / pat.length + 1) i
    (by rw [Nat.mul_comm]; exact hi.trans (Nat.lt_mul_div_succ n hpat))
  rw [List.getD_eq_getElem _ _ (hi.trans_le hlen)] at hget
  rw [List.getElem_take, hget, List.getElem_map, List.getElem_range]

/-- A command that had no marks, marked and then finished, ends with what the marks make of the status, and with its results
where they are clear (R355). -/
theorem Dev.finish_marked (d : Dev) {r : CmdRef} {c : Cmd} (h : d.cmd r = some c) (hm : c.marks = {}) (m : Marks) (n : Nat)
    (dies : List Nat) :
    ∃ y, ((d.mark r m).finish r stSuccess n 0 0 dies).cmd r = some y ∧ y.phase = .ended ∧
      y.status = (m.final stSuccess).1 ∧
      (m = {} → ((d.mark r m).finish r stSuccess n 0 0 dies).Ended r stSuccess n 0 0) := by
  have hmark := Dev.cmd_mark d h m
  rw [hm, Marks.join_nil] at hmark
  exact ⟨_, Dev.cmd_finish _ hmark stSuccess n 0 0 dies, rfl, rfl,
    fun hclear => Dev.ended_finish _ hmark hclear (by decide) n 0 0 dies⟩

section
variable {d : Dev} {r : CmdRef} {c : Cmd} (hc : d.Ready r 0x28 c) (hhdr : hdrOk c.desc 3 [(8, 0x18)] = true)
include hc hhdr

theorem Dev.fillCmd_ordered :
    d.fillCmd r = if field c.desc 0x10 8 = 0 then d.finish r stEmptyOutput
      else if !d.writable r.f (field c.desc 8 8) (field c.desc 0x10 8) then d.finish r stAddrRange
      else
        let pat := leBytes (2 ^ (byteAt c.desc 2 % 4)) (field c.desc 0x18 8)
        let w := (d.clearRows (d.fillRows r.f (field c.desc 8 8) (field c.desc 0x10 8))).writeRaced r.f Env.clean
          (field c.desc 8 8) ((List.range (field c.desc 0x10 8)).map (fun i => pat.getD (i % pat.length) 0))
        (w.2.mark r w.1).finish r stSuccess (field c.desc 0x10 8) 0 0 (d.holder r.f false (field c.desc 8 8)).toList := by
  have hpat : 0 < (leBytes (2 ^ (byteAt c.desc 2 % 4)) (field c.desc 0x18 8)).length := by
    rw [leBytes_length]; exact Nat.two_pow_pos _
  rw [Dev.fillCmd, Dev.withCmd_of hc]
  dsimp only
  rw [if_neg (by simp [hhdr]), ← take_flatten_replicate hpat]
  rfl

end

/-- Settles O19: `Dev.fillCmd_ordered` gives the ends of a FILL, `Dev.clearRows_shape` what clears before the write. -/
theorem fillWrites : Obligations.FillWrites := by
  unfold Obligations.FillWrites
  rintro s r c dst n pat hc hhdr rfl rfl rfl
  have hcmd := Dev.ready_cmd hc
  have hmarks := Dev.ready_marks hc
  have hfill := Dev.fillCmd_ordered hc hhdr
  refine ⟨fun hn => ⟨_, exec_fill r s, ?empty⟩, fun hn hw => ⟨_, exec_fill r s, ?range⟩, fun hn hw d1 b w hd1 hb hwr => ?run⟩
  case empty =>
    rw [State.onDev_dev, hfill, if_pos hn]
    exact ⟨Dev.ended_finish _ hcmd hmarks (by decide) 0 0 0 [], Dev.mem_finish _ _ _ _ _ _ _⟩
  case range =>
    rw [State.onDev_dev, hfill, if_neg hn, if_pos (by simp [hw])]
    exact ⟨Dev.ended_finish _ hcmd hmarks (by decide) 0 0 0 [], Dev.mem_finish _ _ _ _ _ _ _⟩
  case run =>
    rw [if_neg hn, if_neg (by simp [hw])] at hfill
    dsimp only at hfill
    rw [← hd1, ← hb, ← hwr] at hfill
    obtain ⟨dr, hshape, hbad⟩ := Dev.clearRows_shape (s.dev.fillRows r.f (field c.desc 8 8) (field c.desc 0x10 8)) s.dev
    rw [← hd1] at hshape hbad
    have hraced : d1.Raced w.2 := hwr ▸ Dev.raced_writeRaced _ _ _ _ _
    have hcmd1 : d1.cmd r = some c := by rw [hshape]; exact hcmd
    refine ⟨by rw [hshape], hbad, fun hq => ?quiet, ?ends⟩
    case quiet =>
      have hquiet : d1.Quiet r.f := by rw [hshape]; exact hq
      rw [hwr, Dev.writeRaced_quiet hquiet]
    case ends =>
      obtain ⟨y, hy⟩ := Dev.finish_marked w.2 ((hraced.cmd r).trans hcmd1) hmarks w.1 (field c.desc 0x10 8)
        (s.dev.holder r.f false (field c.desc 8 8)).toList
      rw [← hfill] at hy
      refine ⟨_, y, exec_fill r s, ?_, hy⟩
      rw [State.onDev_dev, hfill]
      exact (Dev.mem_finish _ _ _ _ _ _ _).trans (Dev.mem_modQp _ _ _ _)

end Sys2Proof.Machine
end

section
/-!
PROOF. A plain COPY (R239, R366, R449, R472).
-/

namespace Sys2Proof.Machine

theorem exec_copy (r : CmdRef) (e : Env) (s : State) : exec (.copy r e) s = .next (s.onDev (fun d => d.copy r e)) := rfl

/-! The one piece of a plain COPY. -/

/-- A destination apart from the sources is not disturbed by them (R366). -/
theorem Dev.blurOverlap_apart (d : Dev) {src dst n : Nat} (h : src + n ≤ dst ∨ dst + n ≤ src) {b : Bytes} (hb : b.length = n) :
    d.blurOverlap [(src, n)] 1 0 dst b = (b, d) := by
  rw [Dev.blurOverlap, if_pos]
  rw [Bool.not_eq_true', List.any_eq_false]
  intro i hi
  rw [List.mem_range, hb] at hi
  simp only [List.range_one, List.any_cons, List.any_nil, Bool.or_false, inRuns, Nat.zero_add, Nat.div_one, Nat.mul_one,
    Nat.add_zero, Nat.sub_zero, Bool.and_eq_true, decide_eq_true_eq]
  omega

/-- One plain piece whose source and destination are apart is read and then written (R239, R366). -/
theorem Dev.moveAll_plain (d : Dev) (p : Nat) (e : Env) {src dst n : Nat} (hn : n ≠ 0) (h : src + n ≤ dst ∨ dst + n ≤ src)
    (hbad : (d.read p e src n).1.bad = []) :
    d.moveAll p e false false [{ dst := dst, len := n, srcs := [(src, n)] }] =
      ((d.read p e src n).1.marks.join ((d.read p e src n).2.writeRaced p e dst (d.read p e src n).1.bytes).1,
        ((d.read p e src n).2.writeRaced p e dst (d.read p e src n).1.bytes).2) := by
  have hlen : (d.read p e src n).1.bytes.length = n := Dev.read_length _ _ _ _ _
  rw [Dev.moveAll]
  simp only [List.foldl_cons, List.foldl_nil, Dev.sideRead, Bool.not_false, if_true, Rd.nil_append, List.nil_append,
    Marks.join_nil, List.zipIdx_cons, List.zipIdx_nil, List.flatMap_cons, List.flatMap_nil, List.append_nil,
    bne_self_eq_false, List.filter_cons, List.filter_nil, Bool.false_eq_true, if_false, List.map_nil, Piece.build, Piece.badOf,
    Dev.blurOverlap_apart _ h hlen, hbad, shiftBad, List.filterMap_nil, Dev.sideWrite, Dev.writeRaced,
    Dev.writeMarked_clean _ _ _ _ _ (by rw [hlen]; exact Nat.pos_of_ne_zero hn)]

/-- The one piece of a plain COPY. -/
def plainPiece (src dst n : Nat) : Piece := { dst := dst, len := n, srcs := [(src, n)] }

section
variable {d : Dev} {r : CmdRef} {c : Cmd} (hc : d.Ready r 0x27 c) (hflags : byteAt c.desc 2 = 0)
  (hhdr : hdrOk c.desc 0x0F [(8, 0x20)] = true) (haux : field c.desc 0x20 8 = 0) (e : Env)
include hc hflags hhdr haux

theorem Dev.copy_plain : d.copy r e = if field c.desc 0x18 8 = 0 then d.finish r stEmptyOutput
    else d.copyRun r e false false [plainPiece (field c.desc 8 8) (field c.desc 0x10 8) (field c.desc 0x18 8)] := by
  have hop : c.opflags = 0 := hflags
  have hbit (i : Nat) : bit 0 i = false := by simp [bit]
  rw [Dev.copy, Dev.withCmd_of hc]
  simp only [hop, Nat.zero_mod, hbit, Cmd.f, hhdr, haux]
  rfl

end

section
variable {d : Dev} {r : CmdRef} (e : Env) {src dst n : Nat}

theorem Dev.copyRun_range (h : d.ownedRange r.f src n = false ∨ d.writable r.f dst n = false) :
    d.copyRun r e false false [plainPiece src dst n] = d.finish r stAddrRange := by
  rw [Dev.copyRun]
  refine if_pos ?_
  rcases h with h | h <;> simp [plainPiece, Dev.sideOk, h]

variable (hsrc : d.ownedRange r.f src n = true) (hdst : d.writable r.f dst n = true)
include hsrc hdst

theorem Dev.copyRun_fenced {k : Nat} (hk : d.whiskOf r.f false dst = some k) (hf : (d.skillet k).fenced = true) :
    d.copyRun r e false false [plainPiece src dst n] = (d.mark r (.cause caFenced)).finish r stSuccess := by
  rw [Dev.copyRun]
  dsimp only
  rw [if_neg (by simp [plainPiece, Dev.sideOk, hsrc, hdst])]
  refine if_pos ?_
  simp [plainPiece, hk, hf]

/-- A plain COPY that no fence and no cup stops moves its piece, after the charges for crossing the package (R449). -/
theorem Dev.copyRun_moves (hfree : ∀ k, d.whiskOf r.f false dst = some k → (d.skillet k).fenced = false)
    (hcup : ∀ j, d.cupShut r.f j = false) :
    ∃ u, d.copyRun r e false false [plainPiece src dst n] =
      ((((d.setCups u).moveAll r.f e false false [plainPiece src dst n]).2.mark r
        ((d.setCups u).moveAll r.f e false false [plainPiece src dst n]).1).finish r stSuccess n 0 0
          (d.whiskOf r.f false dst).toList) := by
  obtain ⟨hopen1, u, hu⟩ := Dev.crossRuns_shape d r.f (d.whiskOf r.f false dst) [(src, n)] hcup
  obtain ⟨hopen2, v, hv⟩ := Dev.crossRuns_shape (d.setCups u) r.f (d.whiskOf r.f false dst) [(dst, n)] hcup
  refine ⟨v, ?_⟩
  rw [Dev.copyRun]
  dsimp only
  rw [if_neg (by simp [plainPiece, Dev.sideOk, hsrc, hdst]), if_neg ?unfenced]
  · simp only [plainPiece, List.flatMap_cons, List.flatMap_nil, List.append_nil, List.head?_cons, Option.map_some,
      Option.getD_some, List.map_cons, List.map_nil, hopen1, hu, hopen2, hv, Bool.or_false, Bool.false_eq_true, if_false,
      List.foldl_cons, List.foldl_nil, Nat.zero_add]
    rfl
  case unfenced =>
    simp only [plainPiece, List.head?_cons, Option.map_some, Option.getD_some]
    cases hk : d.whiskOf r.f false dst with
    | none => simp
    | some k => simp [hfree k hk]

end

/-- Settles O20: the ends of `Dev.copyRun` one by one, and `Dev.moveAll_plain` for the piece that it moves. -/
theorem copyMoves : Obligations.CopyMoves := by
  unfold Obligations.CopyMoves
  rintro s r c e src dst n hc hflags hhdr rfl rfl rfl haux
  have hcmd := Dev.ready_cmd hc
  have hmarks := Dev.ready_marks hc
  have hcopy := Dev.copy_plain hc hflags hhdr haux e
  refine ⟨fun hn => ⟨_, exec_copy r e s, ?empty⟩, fun hn hout => ⟨_, exec_copy r e s, ?range⟩,
    fun hn hsrc hdst => ⟨fun k hk hf => ?fenced, fun hfree hcup hapart => ?moves⟩⟩
  case empty =>
    rw [State.onDev_dev, hcopy, if_pos hn]
    exact ⟨Dev.ended_finish _ hcmd hmarks (by decide) 0 0 0 [], Dev.mem_finish _ _ _ _ _ _ _⟩
  case range =>
    rw [State.onDev_dev, hcopy, if_neg hn, Dev.copyRun_range e hout]
    exact ⟨Dev.ended_finish _ hcmd hmarks (by decide) 0 0 0 [], Dev.mem_finish _ _ _ _ _ _ _⟩
  case fenced =>
    have hmark := Dev.cmd_mark s.dev hcmd (.cause caFenced)
    rw [hmarks, Marks.join_nil] at hmark
    have hrun : s.dev.copy r e = (s.dev.mark r (.cause caFenced)).finish r stSuccess := by
      rw [hcopy, if_neg hn, Dev.copyRun_fenced e hsrc hdst hk hf]
    have hend := Dev.cmd_finish _ hmark stSuccess 0 0 0 []
    rw [← hrun] at hend
    refine ⟨_, _, exec_copy r e s, ?_, hend, rfl, rfl, rfl⟩
    rw [State.onDev_dev, hrun]
    exact (Dev.mem_finish _ _ _ _ _ _ _).trans (Dev.mem_modQp _ _ _ _)
  case moves =>
    obtain ⟨u, hu⟩ := Dev.copyRun_moves (n := field c.desc 0x18 8) e hsrc hdst hfree hcup
    refine ⟨u, ?_⟩
    rintro z w hz hw hbad
    have hz : z = (s.dev.setCups u).read r.f e (field c.desc 8 8) (field c.desc 0x18 8) := hz
    have hacc : s.dev.Accessed (s.dev.setCups u) := Dev.accessed_setCups _ _
    have hread : s.dev.Accessed z.2 := hz ▸ hacc.trans (Dev.accessed_read _ _ _ _ _)
    have hraced : z.2.Raced w.2 := hw ▸ Dev.raced_writeRaced _ _ _ _ _
    refine ⟨fun hq => by rw [hw, Dev.writeRaced_quiet (hread.quiet hq)], ?_⟩
    rw [plainPiece, Dev.moveAll_plain _ _ _ hn hapart (hz ▸ hbad), ← hz, ← hw] at hu
    obtain ⟨y, hy⟩ := Dev.finish_marked w.2 (((hraced.cmd r).trans (hread.cmd r)).trans hcmd) hmarks (z.1.marks.join w.1)
      (field c.desc 0x18 8) (s.dev.whiskOf r.f false (field c.desc 0x10 8)).toList
    have hrun : s.dev.copy r e = (w.2.mark r (z.1.marks.join w.1)).finish r stSuccess (field c.desc 0x18 8) 0 0
        (s.dev.whiskOf r.f false (field c.desc 0x10 8)).toList := by
      rw [hcopy, if_neg hn, plainPiece, hu]
    rw [← hrun] at hy
    refine ⟨_, y, exec_copy r e s, ?_, hy⟩
    rw [State.onDev_dev, hrun]
    exact (Dev.mem_finish _ _ _ _ _ _ _).trans (Dev.mem_modQp _ _ _ _)

end Sys2Proof.Machine
end

section
/-!
PROOF. PROGRAM_LOAD and PROGRAM_UNLOAD (R318, R358).
-/

namespace Sys2Proof.Machine

theorem exec_programLoad (r : CmdRef) (e : Env) (s : State) :
    exec (.programLoad r e) s = .next (s.onDev (fun d => d.programLoad r e)) := rfl

theorem exec_programUnload (r : CmdRef) (s : State) :
    exec (.programUnload r) s = .next (s.onDev (fun d => d.programUnload r)) := rfl

/-! PROGRAM_LOAD. -/

theorem validateImage_ne_poisoned (ft : Nat) (b : Bytes) (n : Nat) : validateImage ft b n ≠ stPoisoned := by
  unfold validateImage
  split_ifs <;> decide

section
variable {d : Dev} {r : CmdRef} {c : Cmd} (hc : d.Ready r 0x20 c) (e : Env)
include hc

theorem Dev.programLoad_unaligned (hal : field c.desc 8 8 % 64 ≠ 0) : d.programLoad r e = d.finish r stInvalidField := by
  rw [Dev.programLoad, Dev.withCmd_of hc]
  exact if_pos (Or.inr hal)

variable (hhdr : hdrOk c.desc 0 [(8, 16)] = true) (hal : field c.desc 8 8 % 64 = 0)
include hhdr hal

theorem Dev.programLoad_range (hr : d.ownedRange r.f (field c.desc 8 8) (field c.desc 0x10 8) = false) :
    d.programLoad r e = d.finish r stAddrRange := by
  rw [Dev.programLoad, Dev.withCmd_of hc]
  simp only [Cmd.f, hhdr, hal, hr, Bool.not_true, Bool.not_false, Bool.false_eq_true, ne_eq, not_true_eq_false, or_self,
    if_false, if_true]

variable (hr : d.ownedRange r.f (field c.desc 8 8) (field c.desc 0x10 8) = true) {z : Rd × Dev}
  (hz : z = d.read r.f e (field c.desc 8 8) (field c.desc 0x10 8)) (hm : z.1.marks.clear = true)
include hr hz hm

theorem Dev.programLoad_invalid (hv : validateImage d.trust.ftLevel z.1.bytes (field c.desc 0x10 8) ≠ stSuccess) :
    d.programLoad r e = z.2.finish r (validateImage d.trust.ftLevel z.1.bytes (field c.desc 0x10 8)) := by
  subst hz
  rw [Dev.programLoad, Dev.withCmd_of hc]
  simp only [Cmd.f, hhdr, hal, hr, hm, Bool.not_true, Bool.false_eq_true, ne_eq, not_true_eq_false, or_self, if_false]
  exact if_pos hv

variable (hv : validateImage d.trust.ftLevel z.1.bytes (field c.desc 0x10 8) = stSuccess) {q : Part}
  (hq : z.2.part r.f = some q)
include hv hq

theorem Dev.programLoad_full (hfull : 256 ≤ q.progs.length) : d.programLoad r e = z.2.finish r stProgSpace := by
  subst hz
  rw [Dev.programLoad, Dev.withCmd_of hc]
  simp only [Cmd.f, hhdr, hal, hr, hm, hv, hq, Bool.not_true, Bool.false_eq_true, ne_eq, not_true_eq_false, or_self, if_false]
  exact if_pos (Or.inl hfull)

theorem Dev.programLoad_loads (hroom : q.progs.length < 256) (hnext : q.nextHandle < 2 ^ 32) :
    d.programLoad r e = (z.2.putPart r.f { q with
      progs := kset q.progs q.nextHandle { addr := field c.desc 8 8, size := field c.desc 0x10 8, image := z.1.bytes }
      nextHandle := q.nextHandle + 1 }).finish r stSuccess 0 q.nextHandle := by
  subst hz
  rw [Dev.programLoad, Dev.withCmd_of hc]
  simp only [Cmd.f, hhdr, hal, hr, hm, hv, hq, Bool.not_true, Bool.false_eq_true, ne_eq, not_true_eq_false, or_self, if_false]
  exact if_neg (not_or.mpr ⟨Nat.not_le.mpr hroom, Nat.not_le.mpr hnext⟩)

end

/-- Nothing may write the image of a loaded program (R318). -/
theorem Dev.writable_image {d : Dev} {p h i : Nat} {q : Part} {g : Prog} (hq : d.part p = some q) (hg : kfind q.progs h = some g)
    (hi : i < g.size) : d.writable p (g.addr + i) 1 = false := by
  have hprot := Part.protected_prog q g.addr i g.size h g hg rfl rfl hi
  simp [Dev.writable, hq, hprot]

/-! PROGRAM_UNLOAD. -/

/-- A program in use: a context that is not FREE names it, or a run does (R358). -/
theorem Dev.progUsed_of {d : Dev} {p h : Nat} {x : Part}
    (hused : (∃ y ∈ d.ctxs, x.recBase ≤ y.1 ∧ y.1 < x.recBase + x.recCount ∧ y.2.cstate ≠ 0 ∧ y.2.prog = h) ∨
      ∃ y ∈ d.runs, y.2.part = p ∧ y.2.prog = h) : d.progUsed p x h = true := by
  rw [Dev.progUsed, Bool.or_eq_true, List.any_eq_true, List.any_eq_true]
  rcases hused with ⟨y, hy, hlo, hhi, hstate, hprog⟩ | ⟨y, hy, hpart, hprog⟩
  · exact .inl ⟨y, hy, by simp [hlo, hhi, hstate, hprog]⟩
  · exact .inr ⟨y, hy, by simp [hpart, hprog]⟩

section
variable {d : Dev} {r : CmdRef} {c : Cmd} {p : Part} (hc : d.Ready r 0x21 c) (hhdr : hdrOk c.desc 0 [(8, 4)] = true)
  (hp : d.part r.f = some p)
include hc hhdr hp

theorem Dev.programUnload_ordered :
    d.programUnload r = if (kfind p.progs (field c.desc 8 4)).isNone then d.finish r stProgUnknown
      else if d.progUsed r.f p (field c.desc 8 4) then d.finish r stProgBusy
      else (d.putPart r.f { p with progs := kdel p.progs (field c.desc 8 4) }).finish r stSuccess := by
  rw [Dev.programUnload, Dev.withCmd_of hc]
  simp only [hhdr, hp, Cmd.f, Bool.not_true, Bool.false_eq_true, if_false]
  rfl

end

/-- Settles O21: PROGRAM_LOAD by its outcomes, the image's protection by `Dev.writable_image`, PROGRAM_UNLOAD by
`Dev.programUnload_ordered`. -/
theorem programLoadUnload : Obligations.ProgramLoadUnload := by
  unfold Obligations.ProgramLoadUnload
  intro s r c e p hp
  refine ⟨fun a n hc hhdr ha hn => ?load, fun h hc hhdr hh => ?unload⟩
  case load =>
    subst ha hn
    have hcmd := Dev.ready_cmd hc
    have hends {d : Dev} (hd : d.cmd r = some c) {st : Nat} (hst : st ≠ stPoisoned) (n : Nat) :
        (d.finish r st 0 n).Ended r st 0 n 0 := Dev.ended_finish d hd (Dev.ready_marks hc) hst 0 n 0 []
    refine ⟨fun hal => ⟨_, exec_programLoad r e s, ?_⟩, fun hal hr => ⟨_, exec_programLoad r e s, ?_⟩,
      fun z hz hal hr hm => ⟨fun hv => ⟨_, exec_programLoad r e s, ?_⟩, fun hv q hq =>
        ⟨fun hfull => ⟨_, exec_programLoad r e s, ?_⟩, fun hroom hnext => ⟨_, exec_programLoad r e s, ?_⟩⟩⟩⟩
    · rw [State.onDev_dev, Dev.programLoad_unaligned hc e hal]
      exact hends hcmd (by decide) 0
    · rw [State.onDev_dev, Dev.programLoad_range hc e hhdr hal hr]
      exact hends hcmd (by decide) 0
    all_goals
      have hzcmd : z.2.cmd r = some c := (hz ▸ (Dev.accessed_read s.dev _ _ _ _).cmd r).trans hcmd
    · rw [State.onDev_dev, Dev.programLoad_invalid hc e hhdr hal hr hz hm hv]
      exact hends hzcmd (validateImage_ne_poisoned _ _ _) 0
    · rw [State.onDev_dev, Dev.programLoad_full hc e hhdr hal hr hz hm hv hq hfull]
      exact hends hzcmd (by decide) 0
    · rw [State.onDev_dev, Dev.programLoad_loads hc e hhdr hal hr hz hm hv hq hroom hnext]
      have hpart := (Dev.part_finish (z.2.putPart r.f { q with
        progs := kset q.progs q.nextHandle { addr := field c.desc 8 8, size := field c.desc 0x10 8, image := z.1.bytes }
        nextHandle := q.nextHandle + 1 }) r stSuccess 0 q.nextHandle 0 [] r.f).trans (Dev.part_putPart _ _ _)
      have hprot (i : Nat) (hi : i < field c.desc 0x10 8) := Dev.writable_image (i := i) hpart (kfind_kset_self _ _ _) hi
      exact ⟨hends ((Dev.cmd_putPart _ _ _ _).trans hzcmd) (by decide) q.nextHandle, hpart, hprot⟩
  case unload =>
    subst hh
    have hcmd := Dev.ready_cmd hc
    have hends {d : Dev} (hd : d.cmd r = some c) {st : Nat} (hst : st ≠ stPoisoned) : (d.finish r st).Ended r st 0 0 0 :=
      Dev.ended_finish d hd (Dev.ready_marks hc) hst 0 0 0 []
    have hunload := Dev.programUnload_ordered hc hhdr hp
    refine ⟨fun hg => ⟨_, exec_programUnload r s, ?_⟩, fun g hg => ⟨fun hused => ⟨_, exec_programUnload r s, ?_⟩,
      fun hfree => ⟨_, exec_programUnload r s, ?_⟩⟩⟩
    · rw [State.onDev_dev, hunload, if_pos (by simp [hg])]
      exact hends hcmd (by decide)
    · rw [State.onDev_dev, hunload, if_neg (by simp [hg]), if_pos (Dev.progUsed_of hused)]
      exact ⟨hends hcmd (by decide), (Dev.part_finish _ _ _ _ _ _ _ _).trans hp⟩
    · rw [State.onDev_dev, hunload, if_neg (by simp [hg]), if_neg (by simp [hfree])]
      exact ⟨hends ((Dev.cmd_putPart _ _ _ _).trans hcmd) (by decide),
        (Dev.part_finish _ _ _ _ _ _ _ _).trans (Dev.part_putPart _ _ _)⟩

end Sys2Proof.Machine
end

section
/-!
PROOF. The start of a GRAPH_RUN (R112, R354, R360).
-/

namespace Sys2Proof.Machine

theorem exec_graphRun (r : CmdRef) (s : State) : exec (.graphRun r) s = .next (s.onDev (fun d => d.graphRun r)) := rfl

theorem exec_commandStart (r : CmdRef) (s : State) : exec (.commandStart r) s = .next (s.onDev (fun d => d.commandStart r)) := rfl

/-- A command whose cores are all among `l` names no core outside it. -/
theorem any_not_contains_false {a l : List Nat} (h : ∀ g ∈ a, g ∈ l) : ¬ a.any (fun g => !l.contains g) = true := by
  rw [List.any_eq_true]
  rintro ⟨g, hg, hout⟩
  simp [h g hg] at hout

theorem any_not_contains_true {a l : List Nat} (h : ∃ g ∈ a, g ∉ l) : a.any (fun g => !l.contains g) = true := by
  obtain ⟨g, hg, hout⟩ := h
  exact List.any_eq_true.mpr ⟨g, hg, by simp [hout]⟩

/-- COMMAND_START runs a GRAPH_RUN (R354). -/
theorem Dev.commandStart_graph {d : Dev} {r : CmdRef} {c : Cmd} (hc : d.Ready r 0x23 c) : d.commandStart r = d.graphRun r := by
  obtain ⟨hstart, hop, hok, -⟩ := hc
  simp only [Dev.commandStart, hstart, hok, hop, if_true]

/-! What a change of one command leaves alone. -/

theorem Dev.modCmd_shape (d : Dev) (r : CmdRef) (g : Cmd → Cmd) : ∃ x, d.modCmd r g = d.setQps x := Dev.modQp_shape _ _ _ _

theorem Dev.finish_shape (d : Dev) (r : CmdRef) (st r0 r1 det : Nat) (dies : List Nat) :
    ∃ x, d.finish r st r0 r1 det dies = d.setQps x := Dev.modQp_shape _ _ _ _

/-! GRAPH_RUN. -/

theorem Cmd.graph_fields {c : Cmd} (hhdr : hdrOk c.desc 0 [(8, 0x30)] = true)
    (hcores : setBits 128 (field c.desc 0x10 16) ≠ []) (hinst : field c.desc 0x20 8 % 32 = 0)
    (hlist : field c.desc 0x28 8 % 32 = 0) :
    ¬ ((!hdrOk c.desc 0 [(8, 0x30)]) = true ∨ c.coreSet.isEmpty = true ∨ c.f 0x20 8 % 32 ≠ 0 ∨
    c.f 0x28 8 % 32 ≠ 0) := by
  rintro (h | h | h | h)
  · rw [hhdr] at h; cases h
  · exact hcores (List.isEmpty_iff.mp h)
  · exact h hinst
  · exact h hlist

section
variable {d : Dev} {r : CmdRef} {c : Cmd} {p : Part} (hc : d.Ready r 0x23 c) (hp : d.part r.f = some p)
  (hhdr : hdrOk c.desc 0 [(8, 0x30)] = true)
include hc hp hhdr

omit hp hhdr in
theorem Dev.graphRun_unaligned (h : setBits 128 (field c.desc 0x10 16) = [] ∨ field c.desc 0x20 8 % 32 ≠ 0 ∨
    field c.desc 0x28 8 % 32 ≠ 0) : d.graphRun r = d.finish r stInvalidField := by
  rw [Dev.graphRun, Dev.withCmd_of hc]
  refine if_pos (Or.inr ?_)
  exact h.imp_left (fun hnone => by rw [Cmd.coreSet, Cmd.f, hnone]; rfl)

variable (hcores : setBits 128 (field c.desc 0x10 16) ≠ []) (hinst : field c.desc 0x20 8 % 32 = 0)
  (hlist : field c.desc 0x28 8 % 32 = 0)
include hcores hinst hlist

theorem Dev.graphRun_unknown (hg : kfind p.progs (field c.desc 8 4) = none) : d.graphRun r = d.finish r stProgUnknown := by
  rw [Dev.graphRun, Dev.withCmd_of hc]
  dsimp only
  rw [if_neg (Cmd.graph_fields hhdr hcores hinst hlist), hp]
  dsimp only
  rw [Cmd.f, hg]

/-- The checks of R360 behind the program, and the start. -/
theorem Dev.graphRun_program {pg : Prog} (hg : kfind p.progs (field c.desc 8 4) = some pg) :
    d.graphRun r = if (parseImage pg.image).layers ≤ field c.desc 0x0C 2 ∨
        (layerProgs pg.image (field c.desc 0x0C 2)).length ≤ field c.desc 0x0E 2 then d.finish r stInvalidField
      else if (setBits 128 (field c.desc 0x10 16)).any (fun g => !p.cores.contains g) then d.finish r stNotOwned
      else d.graphStart r c pg := by
  rw [Dev.graphRun, Dev.withCmd_of hc]
  dsimp only
  rw [if_neg (Cmd.graph_fields hhdr hcores hinst hlist), hp]
  dsimp only
  rw [Cmd.f, hg]
  rfl

end

/-- Settles O22: `Dev.graphRun_program` leads to the checks of R112 (`Dev.graphCheck_cases`) and the start
(`Dev.launch_run`). -/
theorem graphRunStarts : Obligations.GraphRunStarts := by
  unfold Obligations.GraphRunStarts
  intro s r c p hc hp hhdr
  have hcmd := Dev.ready_cmd hc
  have hends {st : Nat} (hst : st ≠ stPoisoned) : (s.dev.finish r st).Ended r st 0 0 0 :=
    Dev.ended_finish _ hcmd (Dev.ready_marks hc) hst 0 0 0 []
  refine ⟨?start, fun hbad => ⟨_, exec_graphRun r s, ?invalid⟩, fun hcores hinst hlist =>
    ⟨fun hg => ⟨_, exec_graphRun r s, ?unknown⟩, fun pg hg => ?program⟩⟩
  case start =>
    rw [exec_commandStart, exec_graphRun, State.onDev, Dev.commandStart_graph hc]; rfl
  case invalid =>
    rw [State.onDev_dev, Dev.graphRun_unaligned hc hbad]
    exact hends (by decide)
  case unknown =>
    rw [State.onDev_dev, Dev.graphRun_unknown hc hp hhdr hcores hinst hlist hg]
    exact hends (by decide)
  case program =>
    have hrun := Dev.graphRun_program hc hp hhdr hcores hinst hlist hg
    refine ⟨fun hbeyond => ⟨_, exec_graphRun r s, ?_⟩, fun hlayer hindex =>
      ⟨fun hout => ⟨_, exec_graphRun r s, ?_⟩, fun howned => ?checked⟩⟩
    · rw [State.onDev_dev, hrun, if_pos hbeyond]
      exact hends (by decide)
    all_goals
      rw [if_neg (by omega)] at hrun
    · rw [State.onDev_dev, hrun, if_pos (any_not_contains_true hout)]
      exact hends (by decide)
    case checked =>
      rw [if_neg (any_not_contains_false howned), Dev.graphStart] at hrun
      obtain ⟨hturned, hpassed⟩ := Dev.graphCheck_cases (pg := pg) hcmd
      refine ⟨fun d hd => ?turned, fun g hg => ⟨fun hbusy => ?waits, fun hearly hfree => ?starts⟩⟩
      case turned =>
        rw [hd] at hrun
        obtain ⟨y, hy, hphase⟩ := hturned d hd
        exact ⟨_, y, exec_graphRun r s, hrun, (congrArg (fun d => d.cmd r) hrun).trans hy, hphase⟩
      case waits =>
        rw [hg] at hrun
        dsimp only at hrun
        rw [if_pos (by rcases hbusy with h | h <;> simp [h])] at hrun
        rw [exec_graphRun]
        exact State.next_same hrun
      case starts =>
        rw [hg] at hrun
        dsimp only at hrun
        rw [if_neg (by simp [hearly, hfree])] at hrun
        obtain ⟨hacc, hrcmd, hpart, hrlayer, hrindex, hseed, hlimit⟩ := hpassed g hg
        obtain ⟨x, hx, hnext, hqps, hxcmd, hxpart, hxlayer, hxindex, hxseed, hxlimit, -, -, hhot⟩ :=
          Dev.launch_run g.dev g.run pg (tileAt pg.image (c.f 0x0C 2) (c.f 0x0E 2)).pot
        rw [hacc.nextRun] at hx hnext
        have hlcmd : (g.dev.launch g.run pg (tileAt pg.image (c.f 0x0C 2) (c.f 0x0E 2)).pot).cmd r = some c :=
          (Dev.cmd_congr (congrArg (fun m => kfind m (qpKey r.f r.q)) hqps)).trans ((hacc.cmd r).trans hcmd)
        generalize g.dev.launch g.run pg (tileAt pg.image (c.f 0x0C 2) (c.f 0x0E 2)).pot = d1 at *
        have hrcmd1 := Dev.cmd_modCmd d1 r (g := fun c => { c with phase := .running }) (by intro c; rfl)
        obtain ⟨q, hq⟩ := Dev.modCmd_shape d1 r (fun c => { c with phase := .running })
        rw [hlcmd, ← hrun] at hrcmd1
        rw [hq] at hrun
        refine ⟨_, _, x, exec_graphRun r s, hrcmd1, rfl, ?_⟩
        rw [State.onDev_dev, hrun]
        exact ⟨hx, hnext, hxcmd.trans hrcmd, hxpart.trans hpart, hxlayer.trans hrlayer, hxindex.trans hrindex,
          hxseed.trans hseed, hxlimit.trans hlimit, hhot⟩

end Sys2Proof.Machine
end

section
/-!
PROOF. How a PACK ends (R257 to R259, R358, R449, R472).
-/

namespace Sys2Proof.Machine

theorem exec_pack (r : CmdRef) (e : Env) (s : State) : exec (.pack r e) s = .next (s.onDev (fun d => d.pack r e)) := rfl

section
variable {d : Dev} {r : CmdRef} {c : Cmd} {p : Part} (hc : d.Ready r 0x22 c) (hp : d.part r.f = some p)
  (hhdr : hdrOk c.desc 0 [(8, 24)] = true) (e : Env)
include hc

theorem Dev.pack_noCores (h : setBits 128 (field c.desc 0x10 16) = []) : d.pack r e = d.finish r stInvalidField := by
  rw [Dev.pack, Dev.withCmd_of hc]
  exact if_pos (Or.inr (by rw [Cmd.coreSet, Cmd.f, h]; rfl))

include hp hhdr

/-- The checks of R358 and R257 on a PACK that names cores, in their order. -/
theorem Dev.pack_cores (h : setBits 128 (field c.desc 0x10 16) ≠ []) :
    d.pack r e = if (setBits 128 (field c.desc 0x10 16)).any (fun g => !p.cores.contains g) then d.finish r stNotOwned
      else if !d.ownedRange r.f (field c.desc 8 8) 64 then d.finish r stAddrRange
      else
        let z := d.read r.f e (field c.desc 8 8) 64
        let x := parsePackRec z.1.bytes
        if !z.1.marks.clear then (z.2.mark r z.1.marks).finish r stSuccess
        else if !packRecOk z.1.bytes then d.finish r stInvalidField
        else if x.sfmt < 5 ∧ (!x.runs.all (fun s => d.ownedRange r.f s.1 s.2) ∨ !d.writable r.f x.dst x.dstBytes) then
          d.finish r stAddrRange
        else if !x.formatOk then d.finish r stWeightFormat
        else if c.coreSet.any d.coreFenced then (d.mark r (.cause caFenced)).finish r stSuccess
        else if d.earlierOnCores r c.coreSet || !d.coresFree c.coreSet then d
        else c.coreSet.foldl (fun d g => d.leaveCore g) (z.2.packRun r e x c.coreSet) := by
  have hfields : ¬ ((!hdrOk c.desc 0 [(8, 24)]) = true ∨ c.coreSet.isEmpty = true) := by
    rintro (hbad | hnone)
    · rw [hhdr] at hbad; cases hbad
    · exact h (List.isEmpty_iff.mp hnone)
  rw [Dev.pack, Dev.withCmd_of hc]
  dsimp only
  rw [if_neg hfields, hp]
  rfl

end

/-! The passes. -/

section
variable (d : Dev) (r : CmdRef) (e : Env) (x : PackRec) (cores : List Nat) (hcup : ∀ j, d.cupShut r.f j = false)
include hcup

/-- A PACK whose time limit runs out ends late (R110). -/
theorem Dev.packRun_expired (he : e.expired = true) :
    ∃ u, d.packRun r e x cores = (d.setCups u).packLate r x ((cores.map (· / 8)).eraseDups) := by
  obtain ⟨-, u, hu⟩ := Dev.packCross_shape d r.f (x.dealtRuns cores) hcup
  refine ⟨u, ?_⟩
  rw [Dev.packRun]
  dsimp only
  rw [hu, he, Bool.or_true, if_pos rfl]

variable (he : e.expired = false)
include he

/-- The first pass reads the source, after the charges for crossing the package; what it reads decides (R257, R258). -/
theorem Dev.packRun_reads :
    ∃ u, ∀ q, q = (d.setCups u).packRead r.f e x → q.2.1.clear = true →
      (q.1.ok x = false → d.packRun r e x cores = q.2.2.finish r stWeightFormat) ∧
      (q.1.ok x = true → x.dstBytes < x.need → d.packRun r e x cores = q.2.2.finish r stPackSpace) ∧
      (q.1.ok x = true → x.need ≤ x.dstBytes → ∃ v, d.packRun r e x cores = (q.2.2.setCups v).packWrite r e x
        (packTables x (x.order.map (fun k => (k, q.1.tileElems x k.1 k.2.1 k.2.2)))) ((cores.map (· / 8)).eraseDups)) := by
  obtain ⟨hopen, u, hu⟩ := Dev.packCross_shape d r.f (x.dealtRuns cores) hcup
  refine ⟨u, fun q hq hm => ?_⟩
  rw [Dev.packRun]
  dsimp only
  rw [hopen, hu, he, Bool.or_false, if_neg Bool.false_ne_true, ← hq, hm, Bool.not_true, if_neg Bool.false_ne_true]
  refine ⟨fun hok => ?_, fun hok hsmall => ?_, fun hok hfits => ?_⟩
  · rw [hok, Bool.not_false, if_pos rfl]
  · rw [hok, Bool.not_true, if_neg Bool.false_ne_true, if_pos hsmall]
  · have hread : d.Accessed q.2.2 := hq ▸ (Dev.accessed_setCups d u).trans (Dev.accessed_packRead _ _ _ _)
    have hcupq (j : Nat) : q.2.2.cupShut r.f j = false := (hread.cupShut r.f j).trans (hcup j)
    rw [hok, Bool.not_true, if_neg Bool.false_ne_true, if_neg (Nat.not_lt.mpr hfits)]
    obtain ⟨hopen2, v, hv⟩ := Dev.packCross_shape q.2.2 r.f _ hcupq
    exact ⟨v, by rw [hopen2, hv, if_neg Bool.false_ne_true]⟩

end

theorem Dev.cmd_leaveCores (l : List Nat) (d : Dev) (r : CmdRef) :
    (l.foldl (fun d g => d.leaveCore g) d).cmd r = d.cmd r ∧ (l.foldl (fun d g => d.leaveCore g) d).mem = d.mem := by
  obtain ⟨x, hx⟩ := Dev.leaveCores_shape l d
  rw [hx]
  exact ⟨rfl, rfl⟩

/-- Settles O23: `Dev.pack_cores` gives the checks in their order, `Dev.packRun_expired` and `Dev.packRun_reads` the passes. -/
theorem packEnds : Obligations.PackEnds := by
  unfold Obligations.PackEnds
  intro s r c e p hc hp hhdr
  have hcmd := Dev.ready_cmd hc
  have hmarks := Dev.ready_marks hc
  have hends {d : Dev} (hd : d.cmd r = some c) {st : Nat} (hst : st ≠ stPoisoned) : (d.finish r st).Ended r st 0 0 0 :=
    Dev.ended_finish _ hd hmarks hst 0 0 0 []
  refine ⟨fun hnone => ⟨_, exec_pack r e s, ?none⟩, fun hcores => ?cores⟩
  case none =>
    rw [State.onDev_dev, Dev.pack_noCores hc e hnone]
    exact hends hcmd (by decide)
  case cores =>
    have hpack := Dev.pack_cores hc hp hhdr e hcores
    refine ⟨fun hout => ⟨_, exec_pack r e s, ?_⟩, fun howned => ⟨fun hrange => ⟨_, exec_pack r e s, ?_⟩,
      fun z x hrange hz hx hm => ⟨fun hbad => ⟨_, exec_pack r e s, ?_⟩,
        fun hrec hfmt hsfmt hruns hdst hfence hearly hfree hcup => ?run⟩⟩⟩
    · rw [State.onDev_dev, hpack, if_pos (any_not_contains_true hout)]
      exact hends hcmd (by decide)
    all_goals
      rw [if_neg (any_not_contains_false howned)] at hpack
    · rw [State.onDev_dev, hpack, if_pos (by simp [hrange])]
      exact hends hcmd (by decide)
    all_goals
      rw [if_neg (by simp [hrange])] at hpack
      dsimp only at hpack
      rw [← hz, ← hx, if_neg (by simp [hm])] at hpack
    · rw [State.onDev_dev, hpack, if_pos (by simp [hbad])]
      exact hends hcmd (by decide)
    case run =>
      rw [if_neg (by simp [hrec]), if_neg (by simp [hruns, hdst]), if_neg (by simp [hfmt]), if_neg (by simp [hfence]),
        if_neg (by simp [hearly, hfree])] at hpack
      have hread : s.dev.Accessed z.2 := hz ▸ Dev.accessed_read _ _ _ _ _
      have hzcmd := (hread.cmd r).trans hcmd
      have hzcup (j : Nat) := (hread.cupShut r.f j).trans (hcup j)
      have hleft {d : Dev} (hd : z.2.packRun r e x c.coreSet = d) :
          (s.dev.pack r e).cmd r = d.cmd r ∧ (s.dev.pack r e).mem = d.mem := by
        rw [hpack, hd]; exact Dev.cmd_leaveCores _ _ _
      refine ⟨fun he => ?late, fun he => ?passes⟩
      case late =>
        obtain ⟨u, hu⟩ := Dev.packRun_expired z.2 r e x c.coreSet hzcup he
        obtain ⟨y, hy, hphase, hst⟩ := Dev.packLate_ends (z.2.setCups u) hzcmd x ((c.coreSet.map (· / 8)).eraseDups)
        exact ⟨_, y, exec_pack r e s, (hleft hu).1.trans hy, hphase, hst hmarks⟩
      case passes =>
        obtain ⟨u, hu⟩ := Dev.packRun_reads z.2 r e x c.coreSet hzcup he
        refine ⟨u, fun q hq hqm => ?_⟩
        obtain ⟨hbad, hsmall, hwrite⟩ := hu q hq hqm
        have hqcmd : q.2.2.cmd r = some c := by
          rw [hq]; exact ((Dev.accessed_packRead _ _ _ _).cmd r).trans hzcmd
        refine ⟨fun hok => ⟨_, exec_pack r e s, ?_⟩, fun hok hlt => ⟨_, exec_pack r e s, ?_⟩, fun hok hle => ?written⟩
        · obtain ⟨y, hy, hrest⟩ := hends hqcmd (show stWeightFormat ≠ stPoisoned by decide)
          exact ⟨y, (hleft (hbad hok)).1.trans hy, hrest⟩
        · obtain ⟨y, hy, hrest⟩ := hends hqcmd (show stPackSpace ≠ stPoisoned by decide)
          exact ⟨y, (hleft (hsmall hok hlt)).1.trans hy, hrest⟩
        case written =>
          obtain ⟨v, hv⟩ := hwrite hok hle
          obtain ⟨y, hy, hphase⟩ := Dev.packWrite_ends (q.2.2.setCups v) hqcmd e x
            (packTables x (x.order.map (fun k => (k, q.1.tileElems x k.1 k.2.1 k.2.2)))) ((c.coreSet.map (· / 8)).eraseDups)
          refine ⟨v, _, y, exec_pack r e s, (hleft hv).1.trans hy, hphase, ?_⟩
          rintro w rfl
          exact ⟨(hleft hv).2, (hleft hv).1⟩

end Sys2Proof.Machine
end

section
/-!
PROOF. The life of contexts (R315, R324, R326, R327, R364).
-/

namespace Sys2Proof.Machine

theorem exec_ctxCreate (r : CmdRef) (s : State) : exec (.ctxCreate r) s = .next (s.onDev (fun d => d.ctxCreate r)) := rfl

theorem exec_ctxRetire (r : CmdRef) (s : State) : exec (.ctxRetire r) s = .next (s.onDev (fun d => d.ctxRetire r)) := rfl

/-! CTX_CREATE. -/

/-- Context `i` keeps everything but its residence; of the others at most one loses its entry, and no command changes. -/
structure Dev.Enters (i : Nat) (d d' : Dev) : Prop where
  mine : ∃ b, d'.ctx i = { d.ctx i with resident := b }
  others : ∃ v : Option Nat, ∀ k, k ≠ i → d'.ctx k = if v = some k then { d.ctx k with resident := false } else d.ctx k
  cmds : ∀ r, d'.cmd r = d.cmd r

theorem Dev.enters_same {i : Nat} {d d' : Dev} (hctx : ∀ k, d'.ctx k = d.ctx k) (hcmd : ∀ r, d'.cmd r = d.cmd r) :
    Dev.Enters i d d' :=
  ⟨⟨(d.ctx i).resident, hctx i⟩, ⟨none, fun k _ => by rw [if_neg nofun]; exact hctx k⟩, hcmd⟩

/-- A free entry is taken without a victim. -/
theorem Dev.enters_free (i p : Nat) (d : Dev) (y : Part) :
    Dev.Enters i d ((d.putPart p y).putCtx i { (d.putPart p y).ctx i with resident := true }) :=
  ⟨⟨true, Dev.ctx_putCtx _ _ _⟩, ⟨none, fun k hk => by rw [if_neg nofun]; exact Dev.ctx_putCtx_ne _ hk _⟩,
    fun r => (Dev.cmd_putCtx _ _ _ r).trans (Dev.cmd_putPart _ _ _ r)⟩

/-- A victim gives its entry up. -/
theorem Dev.enters_victim (i p v : Nat) (d : Dev) (y : Part) :
    Dev.Enters i d (((d.putPart p y).putCtx v { d.ctx v with resident := false }).putCtx i
      { ((d.putPart p y).putCtx v { d.ctx v with resident := false }).ctx i with resident := true }) := by
  have hput (k : Nat) : ((d.putPart p y).putCtx v { d.ctx v with resident := false }).ctx k =
      if k = v then { d.ctx v with resident := false } else d.ctx k := by
    split
    next h => rw [h, Dev.ctx_putCtx]
    next h => rw [Dev.ctx_putCtx_ne _ h]; rfl
  refine ⟨⟨true, ?_⟩, ⟨some v, fun k hk => ?_⟩, fun r => ?_⟩
  · rw [Dev.ctx_putCtx, hput]
    split
    next h => rw [h]
    next => rfl
  · rw [Dev.ctx_putCtx_ne _ hk, hput]
    by_cases h : k = v
    · rw [if_pos h, if_pos (by rw [h]), h]
    · rw [if_neg h, if_neg (by simpa using Ne.symm h)]
  · rw [Dev.cmd_putCtx, Dev.cmd_putCtx, Dev.cmd_putPart]

theorem Dev.enters_pinIn (d : Dev) (p i : Nat) : Dev.Enters i d (d.pinIn p i) := by
  rw [Dev.pinIn]
  split
  next => exact Dev.enters_same (fun _ => rfl) (fun _ => rfl)
  next x _ =>
    dsimp only
    split
    next => exact Dev.enters_free i p d _
    next =>
      split
      next v _ => exact Dev.enters_victim i p v d _
      next => exact Dev.enters_same (fun _ => rfl) (fun r => Dev.cmd_putPart _ _ _ r)

/-- The record that a CTX_CREATE without an import gives (R326). -/
def Dev.madeCtx (d : Dev) (r : CmdRef) (c : Cmd) (x : Part) (i : Nat) : Ctx :=
  let y := d.newCtx r c i 0 (c.f 0x10 8) (c.f 0x30 8)
  { y with bucket := if y.cstate = 2 then d.bucketFor r.f x y else 0 }

/-- The device after the record is stored: a runnable context waits for residence, and a pinned one takes it. -/
def Dev.enterCtx (d : Dev) (r : CmdRef) (c : Cmd) (x : Part) (i : Nat) : Dev :=
  let d1 := d.putCtx i (d.madeCtx r c x i)
  let d2 := if (d.madeCtx r c x i).cstate = 2 then d1.modPart r.f (fun p => p.park i) else d1
  if bit c.opflags 0 then d2.pinIn r.f i else d2

section
variable {d : Dev} {r : CmdRef} {c : Cmd} {x : Part} (hc : d.Ready r 0x25 c) (hx : d.part r.f = some x)
  (hhdr : hdrOk c.desc 3 [(8, 0x38)] = true) (himp : bit (byteAt c.desc 2) 1 = false) (hsrc : field c.desc 0x38 8 = 0)
  (htarget : field c.desc 0x30 8 < 2 ^ 48)
include hc hx hhdr himp hsrc htarget

/-- CTX_CREATE without an import: its checks in their order, and the new record (R326, R364). -/
theorem Dev.ctxCreate_fresh : d.ctxCreate r =
    if field c.desc 8 4 < x.recBase ∨ x.recBase + x.recCount ≤ field c.desc 8 4 then d.finish r stInvalidField
    else if (kfind x.progs (field c.desc 0x0C 4)).isNone then d.finish r stProgUnknown
    else if (d.ctx (field c.desc 8 4)).cstate ≠ 0 then d.finish r stCtxSpace
    else if bit (byteAt c.desc 2) 0 ∧ x.quota / 2 ≤ d.pinCount x (field c.desc 8 4 % 2) then d.finish r stCtxPinLimit
    else (d.enterCtx r c x (field c.desc 8 4)).finish r stSuccess 0
      ((d.newCtx r c (field c.desc 8 4) 0 (field c.desc 0x10 8) (field c.desc 0x30 8)).handle (field c.desc 8 4)) := by
  have himp' : bit c.opflags 1 = false := himp
  have hmax : ¬ stepMax < c.f 0x30 8 := by
    have : field c.desc 0x30 8 ≤ 2 ^ 48 - 1 := by omega
    exact Nat.not_lt.mpr this
  have hrange : (!hdrOk c.desc 3 [(8, 0x38)] ∨ c.f 0x08 4 < x.recBase ∨ x.recBase + x.recCount ≤ c.f 0x08 4 ∨
      bit c.opflags 1 != (c.f 0x38 8 != 0) ∨ (bit c.opflags 1 && (c.f 0x10 8 != 0 || c.f 0x30 8 != 0)) ∨
      stepMax < c.f 0x30 8) ↔ (field c.desc 8 4 < x.recBase ∨ x.recBase + x.recCount ≤ field c.desc 8 4) := by
    simp only [hhdr, himp', Cmd.f, hsrc, Bool.not_true, Bool.false_eq_true, false_or, bne_self_eq_false, Bool.false_and]
    exact ⟨fun h => by rcases h with h | h | h; exacts [.inl h, .inr h, absurd h hmax], fun h => h.elim .inl (fun h => .inr (.inl h))⟩
  rw [Dev.ctxCreate, Dev.withCmd_of hc, hx]
  dsimp only
  rw [if_congr hrange rfl rfl]
  simp only [himp', Bool.false_eq_true, if_false, Bool.false_and, Dev.readList, List.foldl_nil]
  rfl

end

/-- The new record stands under its index; of the others at most one, a victim of a pinned context, changes (R324, R326). -/
theorem Dev.enterCtx_facts (d : Dev) (r : CmdRef) (c : Cmd) (x : Part) (i : Nat) :
    ∃ b v, (bit c.opflags 0 = false → v = none) ∧
      (d.enterCtx r c x i).ctx i = { d.madeCtx r c x i with resident := b } ∧
      (∀ k, k ≠ i → (d.enterCtx r c x i).ctx k = if v = some k then { d.ctx k with resident := false } else d.ctx k) ∧
      ∀ q, (d.enterCtx r c x i).cmd q = d.cmd q := by
  have hmade : (d.putCtx i (d.madeCtx r c x i)).ctx i = d.madeCtx r c x i := Dev.ctx_putCtx _ _ _
  have hrest (k : Nat) (hk : k ≠ i) : (d.putCtx i (d.madeCtx r c x i)).ctx k = d.ctx k := Dev.ctx_putCtx_ne _ hk _
  have hparked : ∃ e : Dev, (∀ k, e.ctx k = (d.putCtx i (d.madeCtx r c x i)).ctx k) ∧ (∀ q, e.cmd q = d.cmd q) ∧
      d.enterCtx r c x i = if bit c.opflags 0 then e.pinIn r.f i else e := by
    refine ⟨_, fun k => ?_, fun q => ?_, rfl⟩
    · split
      · rw [Dev.ctx, Dev.ctxs_modPart]; rfl
      · rfl
    · split
      · rw [Dev.cmd_modPart, Dev.cmd_putCtx]
      · rw [Dev.cmd_putCtx]
  obtain ⟨e, hctx, hcmd, heq⟩ := hparked
  rw [heq]
  cases hpin : bit c.opflags 0 with
  | false =>
    refine ⟨(d.madeCtx r c x i).resident, none, fun _ => rfl, ?_, fun k hk => ?_, hcmd⟩
    · exact (hctx i).trans hmade
    · rw [if_neg nofun]; exact (hctx k).trans (hrest k hk)
  | true =>
    obtain ⟨⟨b, hb⟩, ⟨v, hv⟩, hc⟩ := Dev.enters_pinIn e r.f i
    refine ⟨b, v, nofun, hb.trans (by rw [hctx, hmade]), fun k hk => (hv k hk).trans (by rw [hctx, hrest k hk]),
      fun q => (hc q).trans (hcmd q)⟩

/-! CTX_RETIRE. -/

/-- Contexts marked for retirement keep their step (R327). -/
theorem Dev.foldl_retire : ∀ (l : List Nat) (d : Dev) (i : Nat),
    ((l.foldl (fun d i => d.putCtx i { d.ctx i with retire := true }) d).ctx i).step = (d.ctx i).step ∧
      (i ∈ l ∨ (d.ctx i).retire = true →
        ((l.foldl (fun d i => d.putCtx i { d.ctx i with retire := true }) d).ctx i).retire = true)
  | [], _, _ => ⟨rfl, fun h => h.resolve_left (List.not_mem_nil)⟩
  | j :: l, d, i => by
    obtain ⟨hstep, hret⟩ := Dev.foldl_retire l (d.putCtx j { d.ctx j with retire := true }) i
    rw [List.foldl_cons]
    by_cases h : i = j
    · subst h
      rw [Dev.ctx_putCtx] at hstep hret
      exact ⟨hstep, fun _ => hret (.inr rfl)⟩
    · rw [Dev.ctx_putCtx_ne _ h] at hstep hret
      exact ⟨hstep, fun hi => hret (hi.imp_left fun hm => (List.mem_cons.mp hm).resolve_left h)⟩

/-- The contexts of a CTX_RETIRE whose step is in flight (R327). -/
def Dev.lateOf (d : Dev) (x : Part) (ids : List Nat) : List Nat := (ids.filter (fun i => d.inStep x i)).eraseDups

/-- The contexts of a CTX_RETIRE that go FREE at once. -/
def Dev.freeAtOnce (d : Dev) (x : Part) (ids : List Nat) : List Nat :=
  ids.filter (fun i => !(d.lateOf x ids).contains i && (d.ctx i).cstate != 0)

section
variable {d : Dev} {r : CmdRef} {c : Cmd} {x : Part} (hc : d.Ready r 0x26 c) (hx : d.part r.f = some x)
  (hhdr : hdrOk c.desc 0 [(8, 12)] = true) (hlo : 1 ≤ field c.desc 0x10 4) (hhi : field c.desc 0x10 4 ≤ 65536)
  (hal : field c.desc 8 8 % 4 = 0) {z : List Bytes × Marks × Dev}
  (hz : z = d.readList r.f [(field c.desc 8 8, 4 * field c.desc 0x10 4)]) (hm : z.2.1.clear = true)
include hc hx hhdr hlo hhi hal hz hm

theorem Dev.ctxRetire_stale {k : Nat}
    (hk : (handles (z.1.headD [])).findIdx? (fun h => (z.2.2.byHandle x h).isNone) = some k) :
    d.ctxRetire r = z.2.2.finish r stCtxStale 0 0 k := by
  subst hz
  have hfields : ¬ ((!hdrOk c.desc 0 [(8, 12)]) = true ∨ c.f 0x10 4 = 0 ∨ 65536 < c.f 0x10 4 ∨ c.f 8 8 % 4 ≠ 0) := by
    simp only [hhdr, Cmd.f, hal, Bool.not_true, Bool.false_eq_true, false_or, ne_eq, not_true_eq_false, or_false]
    omega
  rw [← findIdx_map] at hk
  rw [Dev.ctxRetire, Dev.withCmd_of hc, hx]
  dsimp only
  rw [if_neg hfields, if_neg (by rw [Cmd.f, Cmd.f, hm]; exact Bool.false_ne_true)]
  simp only [Cmd.f, hk]

theorem Dev.ctxRetire_known {ids : List Nat} (hids : (handles (z.1.headD [])).map (z.2.2.byHandle x) = ids.map some) :
    d.ctxRetire r =
      let d1 := (d.freeAtOnce x ids).foldl (fun d i => d.freeCtx i) z.2.2
      let d2 := (d.lateOf x ids).foldl (fun d i => d.putCtx i { d.ctx i with retire := true }) d1
      if (d.lateOf x ids).isEmpty then d2.finish r stSuccess
      else d2.modCmd r (fun c => { c with phase := .running, retiring := d.lateOf x ids }) := by
  subst hz
  have hfields : ¬ ((!hdrOk c.desc 0 [(8, 12)]) = true ∨ c.f 0x10 4 = 0 ∨ 65536 < c.f 0x10 4 ∨ c.f 8 8 % 4 ≠ 0) := by
    simp only [hhdr, Cmd.f, hal, Bool.not_true, Bool.false_eq_true, false_or, ne_eq, not_true_eq_false, or_false]
    omega
  obtain ⟨hnone, hall⟩ := findIdx_isNone_of_map _ _ _ hids
  rw [Dev.ctxRetire, Dev.withCmd_of hc, hx]
  dsimp only
  rw [if_neg hfields, if_neg (by rw [Cmd.f, Cmd.f, hm]; exact Bool.false_ne_true)]
  simp only [Cmd.f, hnone, hall]
  rfl

end

/-- Settles O24: creation by `Dev.ctxCreate_fresh` and `Dev.enterCtx_facts`, retirement by `Dev.ctxRetire_known` and the
folds over the contexts that it frees or marks. -/
theorem contextLifecycle : Obligations.ContextLifecycle := by
  unfold Obligations.ContextLifecycle
  refine ⟨?create, ?retire⟩
  case create =>
    rintro s r c x i hc hx hhdr rfl himp hsrc htarget
    have hcmd := Dev.ready_cmd hc
    have hmarks := Dev.ready_marks hc
    have hends {st : Nat} (hst : st ≠ stPoisoned) : (s.dev.finish r st).Ended r st 0 0 0 :=
      Dev.ended_finish _ hcmd hmarks hst 0 0 0 []
    have hcreate := Dev.ctxCreate_fresh hc hx hhdr himp hsrc htarget
    refine ⟨fun hout => ⟨_, exec_ctxCreate r s, ?outside⟩, fun hlo hhi => ⟨fun hprog => ⟨_, exec_ctxCreate r s, ?unknown⟩,
      fun hprog => ⟨fun htaken => ⟨_, exec_ctxCreate r s, ?taken⟩, fun hfree hpin hfull => ⟨_, exec_ctxCreate r s, ?limit⟩,
        fun hfree hpin gen hgen => ?made⟩⟩⟩
    case outside =>
      rw [State.onDev_dev, hcreate, if_pos hout]
      exact hends (by decide)
    all_goals
      rw [if_neg (by omega)] at hcreate
    case unknown =>
      rw [State.onDev_dev, hcreate, if_pos (by simp [hprog])]
      exact hends (by decide)
    all_goals
      rw [if_neg (by simp [Option.isSome_iff_ne_none.mp hprog])] at hcreate
    case taken =>
      rw [State.onDev_dev, hcreate, if_pos htaken]
      exact ⟨hends (by decide), Dev.ctxs_finish _ _ _ _ _ _ _⟩
    all_goals
      rw [if_neg (by simp [hfree])] at hcreate
    case limit =>
      rw [State.onDev_dev, hcreate, if_pos ⟨hpin, hfull⟩]
      exact ⟨hends (by decide), Dev.ctxs_finish _ _ _ _ _ _ _⟩
    case made =>
      rw [if_neg (fun h => Nat.not_le.mpr (hpin h.1) h.2)] at hcreate
      obtain ⟨b, v, hunpinned, hmine, hothers, hcmds⟩ := Dev.enterCtx_facts s.dev r c x (field c.desc 8 4)
      have hnew (seed target : Nat) : (s.dev.newCtx r c (field c.desc 8 4) 0 seed target).gen = gen := by
        rw [hgen]; unfold Dev.newCtx; cases kfind s.dev.ctxs (field c.desc 8 4) <;> rfl
      have hlt : gen < 4096 := by
        rw [hgen]; cases kfind s.dev.ctxs (field c.desc 8 4) with
        | none => decide
        | some y => exact Nat.mod_lt _ (by decide)
      have hhandle : (s.dev.newCtx r c (field c.desc 8 4) 0 (field c.desc 0x10 8) (field c.desc 0x30 8)).handle (field c.desc 8 4) =
          gen * 2 ^ 20 + field c.desc 8 4 := by
        rw [Ctx.handle, hnew, Nat.mod_eq_of_lt hlt]; rfl
      have hstate : (s.dev.madeCtx r c x (field c.desc 8 4)).cstate = if field c.desc 0x30 8 = 0 then 1 else 2 := by
        change (if 0 < field c.desc 0x30 8 then 2 else 1) = _
        split_ifs <;> omega
      rw [hhandle] at hcreate
      refine ⟨_, { s.dev.madeCtx r c x (field c.desc 8 4) with resident := b }, exec_ctxCreate r s, ?_, ?_, 
        hnew (field c.desc 0x10 8) (field c.desc 0x30 8), hstate,
        rfl, rfl, rfl, rfl, rfl, rfl, rfl, rfl, rfl, v, hunpinned, fun k hk => ?_⟩
      all_goals
        rw [State.onDev_dev, hcreate]
      · exact Dev.ended_finish _ ((hcmds r).trans hcmd) hmarks (by decide) 0 _ 0 []
      · rw [Dev.ctx_finish]; exact hmine
      · rw [Dev.ctx_finish]; exact hothers k hk
  case retire =>
    intro s r c x z l hc hx hhdr hlo hhi hal hz hm hl
    subst hl
    have hacc : s.dev.Accessed z.2.2 := hz ▸ Dev.accessed_readList _ _ _
    have hcmd := (hacc.cmd r).trans (Dev.ready_cmd hc)
    have hwait := Dev.ready_waiting hc
    have hmarks := Dev.ready_marks hc
    have hctx (k : Nat) : z.2.2.ctx k = s.dev.ctx k := by rw [Dev.ctx, Dev.ctx, hacc.ctxs]
    have hhandle (w : Nat) : z.2.2.byHandle x w = s.dev.byHandle x w := Dev.byHandle_ctxs hacc.ctxs x w
    refine ⟨fun k hk => ⟨_, exec_ctxRetire r s, ?stale⟩, fun ids hids hfree => ⟨_, exec_ctxRetire r s, ?free⟩,
      fun ids hids hlate => ?late⟩
    case stale =>
      rw [State.onDev_dev, Dev.ctxRetire_stale hc hx hhdr hlo hhi hal hz hm (k := k) (by simpa only [hhandle] using hk)]
      exact ⟨Dev.ended_finish _ hcmd hmarks (by decide) 0 0 k [], (Dev.ctxs_finish _ _ _ _ _ _ _).trans hacc.ctxs⟩
    all_goals
      have hids' : (handles (z.1.headD [])).map (z.2.2.byHandle x) = ids.map some := by
        rw [← hids]; exact List.map_congr_left fun w _ => hhandle w
      have hretire := Dev.ctxRetire_known hc hx hhdr hlo hhi hal hz hm hids'
      have hfreed := Dev.touches_foldl (fun d i => d.freeCtx i) (fun d i => d.ctx i) Dev.touches_freeCtx
        (s.dev.freeAtOnce x ids) z.2.2
      dsimp only at hretire
    case free =>
      have hnone : s.dev.lateOf x ids = [] := by
        rw [Dev.lateOf, List.filter_eq_nil_iff.mpr (by simpa using hfree)]; rfl
      rw [hnone] at hretire
      rw [State.onDev_dev, hretire]
      refine ⟨Dev.touchesAll_finish hfreed hcmd hwait hmarks 0 (by decide), fun i hi => ?_, fun k hk => ?_⟩
      · rw [List.isEmpty_nil, if_pos rfl, Dev.ctx_finish, List.foldl_nil]
        by_cases hi' : i ∈ s.dev.freeAtOnce x ids
        · exact Dev.foldl_free _ _ i hi'
        · rw [hfreed.others i hi', hctx]
          by_contra hne
          exact hi' (List.mem_filter.mpr ⟨hi, by simp [hnone, hne]⟩)
      · rw [List.isEmpty_nil, if_pos rfl, Dev.ctx_finish, List.foldl_nil, hfreed.others k (fun h => hk (List.mem_of_mem_filter h)),
          hctx]
    case late =>
      obtain ⟨i0, hi0, hstep0⟩ := hlate
      have hmem0 : i0 ∈ s.dev.lateOf x ids := List.mem_eraseDups.mpr (List.mem_filter.mpr ⟨hi0, hstep0⟩)
      rw [if_neg (by rw [List.isEmpty_iff]; exact List.ne_nil_of_mem hmem0)] at hretire
      have hmarked := Dev.touches_foldl (fun d i => d.putCtx i { d.ctx i with retire := true })
        (fun d i => { d.ctx i with retire := true }) (fun d i => Dev.touches_putCtx d i _) (s.dev.lateOf x ids)
        ((s.dev.freeAtOnce x ids).foldl (fun d i => d.freeCtx i) z.2.2)
      obtain ⟨m, hm1⟩ := hfreed.cmds r c hcmd hwait
      obtain ⟨n, hn⟩ := hmarked.cmds r _ hm1 hwait
      have hrun := Dev.cmd_modCmd ((s.dev.lateOf x ids).foldl (fun d i => d.putCtx i { d.ctx i with retire := true })
        ((s.dev.freeAtOnce x ids).foldl (fun d i => d.freeCtx i) z.2.2)) r
        (g := fun c => { c with phase := .running, retiring := s.dev.lateOf x ids }) (by intro c; rfl)
      rw [hn, ← hretire] at hrun
      refine ⟨_, _, exec_ctxRetire r s, hrun, rfl, rfl, fun i hi hstep => ?_⟩
      have hmem : i ∈ s.dev.lateOf x ids := List.mem_eraseDups.mpr (List.mem_filter.mpr ⟨hi, hstep⟩)
      obtain ⟨hsame, hret⟩ := Dev.foldl_retire (s.dev.lateOf x ids)
        ((s.dev.freeAtOnce x ids).foldl (fun d i => d.freeCtx i) z.2.2) i
      have hkept : i ∉ s.dev.freeAtOnce x ids := fun h => by
        have := (List.mem_filter.mp h).2
        simp [hmem] at this
      rw [hfreed.others i hkept, hctx] at hsame
      obtain ⟨q, hq⟩ := Dev.modCmd_shape ((s.dev.lateOf x ids).foldl (fun d i => d.putCtx i { d.ctx i with retire := true })
        ((s.dev.freeAtOnce x ids).foldl (fun d i => d.freeCtx i) z.2.2)) r
        (fun c => { c with phase := .running, retiring := s.dev.lateOf x ids })
      rw [hq] at hretire
      rw [State.onDev_dev, hretire]
      exact ⟨hret (.inl hmem), hsame⟩

end Sys2Proof.Machine
end

section
/-!
PROOF. ROLLOUT_STEP (R320, R361, R362).
-/

namespace Sys2Proof.Machine

theorem exec_rolloutStep (r : CmdRef) (s : State) :
    exec (.rolloutStep r) s = .next (s.onDev (fun d => d.rolloutStep r)) := rfl

/-- The fields of a ROLLOUT_STEP whose list has a length that R361 allows. -/
structure Cmd.Rolls (c : Cmd) : Prop where
  hdr : hdrOk c.desc 7 [(8, 5), (0x10, 0x28)] = true
  stages : byteAt c.desc 0x0C ≤ 8
  list : field c.desc 0x10 8 % 4 = 0
  table : byteAt c.desc 0x0C = 0 ↔ field c.desc 0x20 8 = 0
  input : field c.desc 0x28 8 % 8 = 0

theorem Dev.rolloutStep_count {d : Dev} {r : CmdRef} {c : Cmd} (hc : d.Ready r 0x24 c)
    (h : field c.desc 0x18 4 = 0 ∨ 65536 < field c.desc 0x18 4) : d.rolloutStep r = d.finish r stInvalidField := by
  rw [Dev.rolloutStep, Dev.withCmd_of hc]
  refine if_pos (Or.inr (Or.inr ?_))
  rcases h with h | h
  · exact .inl h
  · exact .inr (.inl h)

/-- The reads of a ROLLOUT_STEP: its list of handles and its stage table (R361). -/
def Dev.rollReads (d : Dev) (r : CmdRef) (c : Cmd) : List Bytes × Marks × Dev :=
  d.readList r.f ((c.f 0x10 8, 4 * c.f 0x18 4) ::
    (if byteAt c.desc 0x0C = 0 then [] else [(c.f 0x20 8, 32 * byteAt c.desc 0x0C)]))

/-- Reserved parts of the stage table and of its records for each core (R571). -/
def Dev.rollReserved (d : Dev) (r : CmdRef) (c : Cmd) (tab : Bytes) : Bool :=
  (List.range (byteAt c.desc 0x0C)).any (fun k => !zeroAt tab (32 * k + 4) 4 || field tab (32 * k + 0x18) 8 % 32 != 0
    || (parseStageEnt tab k).cores.any (fun g => !zeroAt (d.peek r.f g.2 96) 0x4C 20))

/-- A stage table that the command brings replaces the program's (R361). -/
def Dev.rollTable (d : Dev) (r : CmdRef) (c : Cmd) (pg : Prog) (tab : Bytes) : Dev :=
  if byteAt c.desc 0x0C = 0 then d else d.modPart r.f (fun y =>
    { y with progs := kset y.progs (c.f 8 4) { pg with stages := (List.range (byteAt c.desc 0x0C)).map (parseStageEnt tab) } })

section
variable {d : Dev} {r : CmdRef} {c : Cmd} {x : Part} (hc : d.Ready r 0x24 c) (hx : d.part r.f = some x) (h : c.Rolls)
  (hlo : 1 ≤ field c.desc 0x18 4) (hhi : field c.desc 0x18 4 ≤ 65536)
include h hlo hhi

omit hc hx in
theorem Cmd.Rolls.fields : ¬ ((!hdrOk c.desc 7 [(8, 5), (0x10, 0x28)]) = true ∨ 8 < byteAt c.desc 0x0C ∨ c.f 0x18 4 = 0 ∨
    65536 < c.f 0x18 4 ∨ c.f 0x10 8 % 4 ≠ 0 ∨ ((byteAt c.desc 0x0C == 0) != (c.f 0x20 8 == 0)) = true ∨ c.f 0x28 8 % 8 ≠ 0) := by
  obtain ⟨hhdr, hstages, hlist, htable, hinput⟩ := h
  rintro (h | h | h | h | h | h | h)
  · rw [hhdr] at h; cases h
  · omega
  · exact absurd h (Nat.ne_of_gt hlo)
  · exact absurd h (Nat.not_lt.mpr hhi)
  · exact h hlist
  · simp [Cmd.f, htable] at h
  · exact h hinput

include hc hx

theorem Dev.rolloutStep_unknown (hg : kfind x.progs (field c.desc 8 4) = none) :
    d.rolloutStep r = d.finish r stProgUnknown := by
  rw [Dev.rolloutStep, Dev.withCmd_of hc]
  dsimp only
  rw [if_neg (h.fields hlo hhi), hx]
  dsimp only
  rw [Cmd.f, hg]

variable {pg : Prog} (hg : kfind x.progs (field c.desc 8 4) = some pg) (hm : (d.rollReads r c).2.1.clear = true)
  (hres : (d.rollReads r c).2.2.rollReserved r c ((d.rollReads r c).1.getD 1 []) = false)
include hg hm hres

/-- What becomes of a ROLLOUT_STEP whose lists are read: the first check of R362 that fails, or the raised targets. -/
theorem Dev.rolloutStep_outcomes {l : List (Option Nat)} (hl : l = (handles ((d.rollReads r c).1.headD [])).map (fun w =>
      ((d.rollReads r c).2.2.byHandle x w).filter (fun i => (d.ctx i).cstate != 0))) :
    (∀ k, l.findIdx? Option.isNone = some k → d.rolloutStep r = (d.rollReads r c).2.2.finish r stCtxStale 0 0 k) ∧
    ∀ ids : List Nat, l = ids.map some →
      (∀ k, ids.findIdx? (fun i => (d.ctx i).prog != field c.desc 8 4) = some k →
        d.rolloutStep r = (d.rollReads r c).2.2.finish r stCtxProgram 0 0 k) ∧
      (ids.findIdx? (fun i => (d.ctx i).prog != field c.desc 8 4) = none →
        (∀ e, Dev.rollFails x pg c ((d.rollReads r c).1.getD 1 []) = some e →
          d.rolloutStep r = (d.rollReads r c).2.2.finish r e) ∧
        (Dev.rollFails x pg c ((d.rollReads r c).1.getD 1 []) = none →
          d.rolloutStep r = (((d.rollReads r c).2.2.rollTable r c pg ((d.rollReads r c).1.getD 1 [])).rollAll r c ids).1.finish r
            stSuccess (((d.rollReads r c).2.2.rollTable r c pg ((d.rollReads r c).1.getD 1 [])).rollAll r c ids).2)) := by
  have hg' : kfind x.progs (c.f 8 4) = some pg := hg
  rw [Dev.rolloutStep, Dev.withCmd_of hc]
  dsimp only
  rw [if_neg (h.fields hlo hhi), hx]
  dsimp only
  rw [hg']
  dsimp only
  unfold Dev.rollReads at hm hres hl ⊢
  generalize d.readList r.f _ = z at hm hres hl ⊢
  unfold Dev.rollReserved at hres
  rw [hm, Bool.not_true, if_neg Bool.false_ne_true, hres, if_neg Bool.false_ne_true, ← hl]
  refine ⟨fun k hk => by rw [hk], fun ids hids => ?_⟩
  have hnone : l.findIdx? Option.isNone = none := by
    rw [hids, List.findIdx?_map]; simp [List.findIdx?_eq_none_iff]
  have hall : l.filterMap id = ids := by
    rw [hids, List.filterMap_map]; simp
  rw [hnone, hall]
  dsimp only
  refine ⟨fun k hk => ?_, fun hprog => ⟨fun e he => ?_, fun hok => ?_⟩⟩
  · rw [show ids.findIdx? (fun i => (d.ctx i).prog != c.f 8 4) = some k from hk]
  · rw [show ids.findIdx? (fun i => (d.ctx i).prog != c.f 8 4) = none from hprog]
    dsimp only
    rw [he]
  · rw [show ids.findIdx? (fun i => (d.ctx i).prog != c.f 8 4) = none from hprog]
    dsimp only
    rw [hok]
    rfl

end

theorem Dev.rollTable_same (d : Dev) (r : CmdRef) (c : Cmd) (pg : Prog) (tab : Bytes) :
    (d.rollTable r c pg tab).ctxs = d.ctxs ∧ ∀ q, (d.rollTable r c pg tab).cmd q = d.cmd q := by
  rw [Dev.rollTable]
  split
  · exact ⟨rfl, fun _ => rfl⟩
  · exact ⟨Dev.ctxs_modPart _ _ _, fun q => Dev.cmd_modPart _ _ _ q⟩

/-- The checks on the stage table end no command with the status of a failed unit (R362). -/
theorem Dev.rollFails_ne_poisoned {x : Part} {pg : Prog} {c : Cmd} {tab : Bytes} {e : Nat}
    (h : Dev.rollFails x pg c tab = some e) : e ≠ stPoisoned := by
  unfold Dev.rollFails at h
  dsimp only at h
  split_ifs at h <;> cases h <;> decide

/-- What R362 makes of a context's fields. -/
structure Ctx.Rolled (r : CmdRef) (c : Cmd) (x y : Ctx) : Prop where
  step : y.step = x.step
  target : y.target = min (x.target + field c.desc 0x1C 4) (2 ^ 48 - 1)
  pair : y.qp = r.q
  tag : y.tag = c.tag
  sem : y.inputSem = field c.desc 0x28 8
  base : y.inputBase = field c.desc 0x30 8

/-- One context of a ROLLOUT_STEP as `Dev.rollOne` leaves it. -/
theorem Dev.rollOne_rolled (d : Dev) (r : CmdRef) (c : Cmd) (i : Nat) :
    Ctx.Rolled r c (d.ctx i) ((d.rollOne r c i).1.ctx i) := by
  obtain ⟨v, htouch, hstep, htarget, hqp, htag, hsem, hbase⟩ := Dev.rollOne_touches d r c i
  have hcore := htouch.mine
  exact ⟨(congrArg Ctx.step hcore).trans hstep, (congrArg Ctx.target hcore).trans htarget, (congrArg Ctx.qp hcore).trans hqp,
    (congrArg Ctx.tag hcore).trans htag, (congrArg Ctx.inputSem hcore).trans hsem, (congrArg Ctx.inputBase hcore).trans hbase⟩

/-- The contexts of a ROLLOUT_STEP: each is rolled, the others are as they were, and the command may still end. -/
theorem Dev.rollAll_facts (r : CmdRef) (c : Cmd) (ids : List Nat) (d : Dev) :
    Dev.TouchesAll ids d (d.rollAll r c ids).1 ∧
      (ids.Nodup → ∀ i ∈ ids, Ctx.Rolled r c (d.ctx i) ((d.rollAll r c ids).1.ctx i)) := by
  choose v hv using fun d i => Dev.rollOne_touches d r c i
  have htouch (d : Dev) (i : Nat) : Dev.Touches i (v d i) d (d.rollOne r c i).1 := (hv d i).1
  rw [Dev.rollAll_one]
  exact ⟨Dev.touches_foldl (fun d i => (d.rollOne r c i).1) v htouch ids d,
    Dev.touches_foldl_rel (fun d i => (d.rollOne r c i).1) v htouch (Ctx.Rolled r c) (fun d i => Dev.rollOne_rolled d r c i) ids d⟩

/-- Handles of live records pass the filter of R362. -/
theorem map_filter_live {α : Type} {f : α → Option Nat} {p : Nat → Bool} {l : List α} {ids : List Nat}
    (hids : l.map f = ids.map some) (hlive : ∀ i ∈ ids, p i = true) : l.map (fun w => (f w).filter p) = ids.map some := by
  calc l.map (fun w => (f w).filter p) = (l.map f).map (Option.filter p) := by rw [List.map_map]; rfl
    _ = ids.map some := by
      rw [hids, List.map_map]
      exact List.map_congr_left fun i hi => by simp [Option.filter, hlive i hi]

/-- Settles O25: `Dev.rolloutStep_outcomes` gives the check that fails; the fold over the contexts raises each target
(`Dev.rollOne_rolled`). -/
theorem rolloutStepTargets : Obligations.RolloutStepTargets := by
  unfold Obligations.RolloutStepTargets
  rintro s r c x n hc hx hhdr rfl hstages hlist htable hinput
  have hcmd := Dev.ready_cmd hc
  have hmarks := Dev.ready_marks hc
  have hends {d : Dev} (hd : d.cmd r = some c) {st : Nat} (hst : st ≠ stPoisoned) (k : Nat) :
      (d.finish r st 0 0 k).Ended r st 0 0 k := Dev.ended_finish _ hd hmarks hst 0 0 k []
  have hfields : c.Rolls := ⟨hhdr, hstages, hlist, htable, hinput⟩
  refine ⟨fun hbad => ⟨_, exec_rolloutStep r s, ?count⟩, fun hlo hhi => ⟨fun hg => ⟨_, exec_rolloutStep r s, ?unknown⟩,
    fun pg z tab hg hz htab hm hzero l hl => ?checked⟩⟩
  case count =>
    rw [State.onDev_dev, Dev.rolloutStep_count hc hbad]
    exact hends hcmd (by decide) 0
  case unknown =>
    rw [State.onDev_dev, Dev.rolloutStep_unknown hc hx hfields hlo hhi hg]
    exact hends hcmd (by decide) 0
  case checked =>
    have hz : z = s.dev.rollReads r c := hz
    subst hz htab hl
    have hres : (s.dev.rollReads r c).2.2.rollReserved r c ((s.dev.rollReads r c).1.getD 1 []) = false := by
      rw [Dev.rollReserved, List.any_eq_false]
      intro k hk
      obtain ⟨h4, hal, hinst⟩ := hzero k (List.mem_range.mp hk)
      simp only [h4, hal, Bool.not_true, bne_self_eq_false, Bool.false_or, List.any_eq_true, not_exists, not_and]
      intro g hg'
      simp [hinst g hg']
    have hacc : s.dev.Accessed (s.dev.rollReads r c).2.2 := Dev.accessed_readList _ _ _
    have hzcmd := (hacc.cmd r).trans hcmd
    have hctx (k : Nat) : (s.dev.rollReads r c).2.2.ctx k = s.dev.ctx k := by rw [Dev.ctx, Dev.ctx, hacc.ctxs]
    have hhandle (w : Nat) : (s.dev.rollReads r c).2.2.byHandle x w = s.dev.byHandle x w := Dev.byHandle_ctxs hacc.ctxs x w
    obtain ⟨hstale, hknown⟩ := Dev.rolloutStep_outcomes hc hx hfields hlo hhi hg hm hres rfl
    refine ⟨fun k hk => ⟨_, exec_rolloutStep r s, ?_⟩, fun ids hids hlive => ?_⟩
    · rw [State.onDev_dev, hstale k (by rw [findIdx_map]; simpa only [hhandle] using hk)]
      exact hends hzcmd (by decide) k
    · obtain ⟨hprog, hall⟩ := hknown ids (map_filter_live
        ((List.map_congr_left fun w _ => hhandle w).trans hids) fun i hi => by simp [hlive i hi])
      refine ⟨fun k hk => ⟨_, exec_rolloutStep r s, ?_⟩, fun hsame => ?_⟩
      · rw [State.onDev_dev, hprog k hk]
        exact hends hzcmd (by decide) k
      · obtain ⟨hfails, hrolls⟩ := hall (List.findIdx?_eq_none_iff.mpr fun i hi => by simp [hsame i hi])
        refine ⟨fun e he => ⟨_, exec_rolloutStep r s, ?_⟩, fun hok => ⟨_,
          (((s.dev.rollReads r c).2.2.rollTable r c pg ((s.dev.rollReads r c).1.getD 1 [])).rollAll r c ids).2,
          exec_rolloutStep r s, ?_⟩⟩
        · rw [State.onDev_dev, hfails e he]
          exact hends hzcmd (Dev.rollFails_ne_poisoned he) 0
        · obtain ⟨htabctxs, htabcmd⟩ := Dev.rollTable_same (s.dev.rollReads r c).2.2 r c pg ((s.dev.rollReads r c).1.getD 1 [])
          obtain ⟨htouch, hrolled⟩ := Dev.rollAll_facts r c ids
            ((s.dev.rollReads r c).2.2.rollTable r c pg ((s.dev.rollReads r c).1.getD 1 []))
          have htab (i : Nat) : ((s.dev.rollReads r c).2.2.rollTable r c pg ((s.dev.rollReads r c).1.getD 1 [])).ctx i =
              s.dev.ctx i := by rw [← hctx i, Dev.ctx, Dev.ctx, htabctxs]
          rw [State.onDev_dev, hrolls hok]
          refine ⟨Dev.touchesAll_finish htouch ((htabcmd r).trans hzcmd) (Dev.ready_waiting hc) hmarks _ (by decide),
            fun i hi => ?_, fun i hi hnodup => ?_⟩
          · rw [Dev.ctx_finish, htouch.others i hi, htab]
          · obtain ⟨hstep, htarget, hpair, htag, hsem, hbase⟩ := hrolled hnodup i hi
            rw [Dev.ctx_finish]
            rw [htab] at hstep htarget
            exact ⟨hstep, htarget, hpair, htag, hsem, hbase⟩

end Sys2Proof.Machine
end

section
/-!
PROOF. Residency decisions, swaps and batches (R130, R132, R322, R323, R325).
-/

namespace Sys2Proof.Machine

theorem exec_residencyDecision (p j : Nat) (s : State) :
    exec (.residencyDecision p j) s = .next (s.onDev (fun d => d.residency p j)) := rfl

theorem exec_swap (p j : Nat) (s : State) : exec (.swap p j) s = .next (s.onDev (fun d => d.swapEnd p j)) := rfl

theorem exec_contextJoin (i : Nat) (s : State) : exec (.contextJoin i) s = .next (s.onDev (fun d => d.contextJoin i)) := rfl

theorem exec_batchWindow (p b : Nat) (s : State) :
    exec (.batchWindow p b) s = .next (s.onDev (fun d => d.batchWindow p b)) := rfl

/-! Residence. -/

section
variable {d : Dev} {p j i : Nat} {x : Part} (hx : d.part p = some x)
include hx

theorem Dev.residency_none (h : x.parked.find? (fun e => e.1 == j) = none) : d.residency p j = d := by
  simp only [Dev.residency, hx, h]

variable (h : x.parked.find? (fun e => e.1 == j) = some (j, i))
include h

/-- A free entry takes the oldest parked context (R322). -/
theorem Dev.residency_free (hfree : d.entriesUsed x j < x.quota / 2) :
    d.residency p j = (d.putPart p { x with parked := x.parked.filter (fun e => e.2 != i)
                                            starve := x.starve.filter (· != j) }).putCtx i { d.ctx i with resident := true } := by
  simp only [Dev.residency, hx, h, if_pos hfree]

/-- Without one a swap begins (R322). -/
theorem Dev.residency_swap (hfull : x.quota / 2 ≤ d.entriesUsed x j) {v : Nat} (hv : d.victim x j = some v) :
    d.residency p j = d.putPart p { x with parked := x.parked.filter (fun e => e.2 != i), starve := x.starve.filter (· != j)
                                           moves := x.moves ++ [{ parity := j, cand := some i, victim := some v }] } := by
  simp only [Dev.residency, hx, h, if_neg (Nat.not_lt.mpr hfull), hv]

end

/-- The device once the victim of a swap has moved out; one that became runnable waits for residence again (R323). -/
def Dev.movedOut (d : Dev) (p v : Nat) (x : Part) (m : Move) : Dev :=
  let d1 := d.putPart p { x with moves := x.moves.erase m }
  let d2 := d1.putCtx v { d1.ctx v with resident := false, readyAt := d1.jdAo v }
  if (d1.ctx v).cstate = 2 then d2.modPart p (fun y => y.park v) else d2

theorem Dev.movedOut_contexts (d : Dev) (p v : Nat) (x : Part) (m : Move) :
    (d.movedOut p v x m).ctx v = { d.ctx v with resident := false, readyAt := d.jdAo v } ∧
      ∀ k, k ≠ v → (d.movedOut p v x m).ctx k = d.ctx k := by
  have hctxs : (d.movedOut p v x m).ctxs = ((d.putPart p { x with moves := x.moves.erase m }).putCtx v
      { d.ctx v with resident := false, readyAt := d.jdAo v }).ctxs := by
    rw [Dev.movedOut]
    dsimp only
    split
    · exact Dev.ctxs_modPart _ _ _
    · rfl
  have hctx (k : Nat) := congrArg (fun m => kget m k ({} : Ctx)) hctxs
  exact ⟨(hctx v).trans (Dev.ctx_putCtx _ _ _), fun k hk => (hctx k).trans (Dev.ctx_putCtx_ne _ hk _)⟩

theorem Dev.swapEnd_eq {d : Dev} {p j i v : Nat} {x : Part} {m : Move} (hx : d.part p = some x)
    (hm : x.moves.find? (fun m => m.parity == j) = some m) (hi : m.cand = some i) (hv : m.victim = some v) :
    d.swapEnd p j = (d.movedOut p v x m).putCtx i { (d.movedOut p v x m).ctx i with resident := true } := by
  rw [Dev.swapEnd, hx]
  dsimp only
  rw [hm]
  dsimp only
  rw [hi, hv]
  rfl

/-! Batches. -/

theorem Dev.batchWindow_closes {d : Dev} {p b : Nat} {x : Part} {z : Batch} (hx : d.part p = some x)
    (hz : kfind x.batches b = some z) (hopen : z.closed = false) (hsome : z.ctxs ≠ []) :
    d.batchWindow p b = d.closeBatch p b := by
  simp [Dev.batchWindow, hx, hz, hopen, hsome]

/-- The forming batch with context `i` in it. -/
def Ctx.joined (c : Ctx) (b i : Nat) (z : Batch) : Batch :=
  { prog := c.prog, point := c.point, bucket := c.bucket, ctxs := z.ctxs ++ [i], root := b }

/-- The device once context `i` has entered the forming batch `b` (R325). -/
def Dev.entered (d : Dev) (p b i : Nat) (z : Batch) : Dev :=
  (d.putCtx i { d.ctx i with cstate := 3 }).modPart p (fun y =>
    { y with batches := kset y.batches b ((d.ctx i).joined b i z), nextBatch := max y.nextBatch (b + 1) })

theorem Dev.entered_facts {d : Dev} {p b i : Nat} {x : Part} (z : Batch) (hx : d.part p = some x)
    (hres : (d.ctx i).resident = true) :
    (∃ y, (d.entered p b i z).part p = some y ∧ kfind y.batches b = some ((d.ctx i).joined b i z)) ∧
      (d.entered p b i z).ctxs = (d.putCtx i { d.ctx i with cstate := 3 }).ctxs := by
  have hpart : (d.putCtx i { d.ctx i with cstate := 3 }).part p = some x :=
    (Dev.part_putCtx_res d i { d.ctx i with cstate := 3 } hres p).trans hx
  refine ⟨⟨{ x with batches := kset x.batches b ((d.ctx i).joined b i z), nextBatch := max x.nextBatch (b + 1) }, ?_,
    kfind_kset_self _ _ _⟩, Dev.ctxs_modPart _ _ _⟩
  rw [Dev.entered, Dev.modPart_some _ hpart, Dev.part_putPart]

section
variable {d : Dev} {p b i n : Nat} {x : Part} {pg : Prog} {st : Stage} {z : Batch} (hpart : d.ctxPart i = some (p, x))
  (hrun : (d.ctx i).cstate = 2) (hres : (d.ctx i).resident = true) (hsus : x.suspended = false) (hrec : x.reclaim = .none)
  (hleave : x.leaving i = false) (hpg : kfind x.progs (d.ctx i).prog = some pg)
  (hst : pg.stages[(d.ctx i).point]? = some st) (hinput : d.inputBlocks p x (d.ctx i) = false)
  (hn : n = st.band pg.image * (d.stageCores st).length)
  (hfit : x.batches.find? (fun e => !e.2.closed && e.2.prog == (d.ctx i).prog && e.2.point == (d.ctx i).point
        && e.2.bucket == (d.ctx i).bucket) = some (b, z))
  (hroom : (z.ctxs.length + 1) * (parseRollout pg.image).rows ≤ n)
include hpart hrun hres hsus hrec hleave hpg hst hinput hn hfit hroom

/-- A runnable context whose batch has room enters it, and the batch closes where it is then full (R130, R325). -/
theorem Dev.contextJoin_enters : d.contextJoin i =
    if n ≤ (z.ctxs.length + 1) * (parseRollout pg.image).rows then (d.entered p b i z).closeBatch p b
    else d.entered p b i z := by
  subst hn
  have hgo : ¬ ((d.ctx i).cstate ≠ 2 ∨ (!(d.ctx i).resident) = true ∨ x.suspended = true ∨ x.reclaim ≠ .none ∨
      x.leaving i = true) := by
    simp [hrun, hres, hsus, hrec, hleave]
  simp only [Dev.contextJoin, hpart, if_neg hgo, hpg, Option.bind_some, hst, Option.map_some, hinput, Bool.false_eq_true,
    if_false, Dev.joinBatch, hfit, if_neg (Nat.not_lt.mpr hroom)]
  rfl

end

/-- Settles O26: residence by `Dev.residency_free`, `Dev.residency_swap` and `Dev.swapEnd_contexts`, batches by
`Dev.contextJoin_enters` and `Dev.closeBatch_facts`. -/
theorem residencyAndBatches : Obligations.ResidencyAndBatches := by
  unfold Obligations.ResidencyAndBatches
  refine ⟨fun s p j i x hx => ⟨fun hnone => ?none, fun hi => ⟨fun hfree => ?free, fun hfull v hv => ?swap⟩,
      fun m v hm hc hv hne => ?swapped⟩,
    fun s p b i x => ⟨fun pg st n z hcp hx hrun hres hsus hrec hleave hpg hst hinput hn hfit hroom => ?join,
      fun z hx hz hopen hsome => ?window⟩⟩
  case none =>
    rw [exec_residencyDecision]
    exact State.next_same (Dev.residency_none hx hnone)
  case free =>
    refine ⟨_, { x with parked := x.parked.filter (fun e => e.2 != i), starve := x.starve.filter (· != j) },
      exec_residencyDecision p j s, ?_, rfl, rfl, ?_, fun k hk => ?_⟩
    all_goals
      rw [State.onDev_dev, Dev.residency_free hx hi hfree]
    · rw [Dev.part_putCtx_res _ _ _ rfl, Dev.part_putPart]
    · exact Dev.ctx_putCtx _ _ _
    · exact Dev.ctx_putCtx_ne _ hk _
  case swap =>
    refine ⟨_, { x with parked := x.parked.filter (fun e => e.2 != i), starve := x.starve.filter (· != j)
                        moves := x.moves ++ [{ parity := j, cand := some i, victim := some v }] },
      exec_residencyDecision p j s, ?_, ?_, rfl, rfl⟩
    all_goals
      rw [State.onDev_dev, Dev.residency_swap hx hi hfull hv]
    · exact Dev.part_putPart _ _ _
    · rfl
  case swapped =>
    obtain ⟨hout, hrest⟩ := Dev.movedOut_contexts s.dev p v x m
    refine ⟨_, exec_swap p j s, ?_⟩
    rw [State.onDev_dev, Dev.swapEnd_eq hx hm hc hv, Dev.ctx_putCtx, hrest i hne.symm, Dev.ctx_putCtx_ne _ hne]
    exact ⟨rfl, hout, fun k hk hkv => (Dev.ctx_putCtx_ne _ hk _).trans (hrest k hkv)⟩
  case join =>
    have hjoin := Dev.contextJoin_enters hcp hrun hres hsus hrec hleave hpg hst hinput hn hfit hroom
    obtain ⟨⟨y, hy, hw⟩, hctxs⟩ := Dev.entered_facts (b := b) z hx hres
    have hentered (k : Nat) : (s.dev.entered p b i z).ctx k = (s.dev.putCtx i { s.dev.ctx i with cstate := 3 }).ctx k := by
      rw [Dev.ctx, hctxs]; rfl
    by_cases hfull : n ≤ (z.ctxs.length + 1) * (parseRollout pg.image).rows
    · obtain ⟨y', w', hy', hw', hclosed, hprog, hpoint, hbucket, hsame⟩ := Dev.closeBatch_facts _ p b y _ hy hw
      rw [if_pos hfull] at hjoin
      have hctx (k : Nat) : ((s.dev.entered p b i z).closeBatch p b).ctx k =
          (s.dev.putCtx i { s.dev.ctx i with cstate := 3 }).ctx k := by
        rw [← hentered, Dev.ctx, Dev.ctx, hsame]
      refine ⟨_, y', w', exec_contextJoin i s, ?_, fun k hk => ?_, ?_, hw', hprog, hpoint, hbucket, fun hlt => ?_, fun _ => hclosed⟩
      · rw [State.onDev_dev, hjoin, hctx]; exact Dev.ctx_putCtx _ _ _
      · rw [State.onDev_dev, hjoin, hctx]; exact Dev.ctx_putCtx_ne _ hk _
      · rw [State.onDev_dev, hjoin]; exact hy'
      · omega
    · rw [if_neg hfull] at hjoin
      refine ⟨_, y, _, exec_contextJoin i s, ?_, fun k hk => ?_, ?_, hw, rfl, rfl, rfl, fun _ => ⟨rfl, rfl⟩, fun heq => ?_⟩
      · rw [State.onDev_dev, hjoin, hentered]; exact Dev.ctx_putCtx _ _ _
      · rw [State.onDev_dev, hjoin, hentered]; exact Dev.ctx_putCtx_ne _ hk _
      · rw [State.onDev_dev, hjoin]; exact hy
      · omega
  case window =>
    obtain ⟨y, w, hy, hw, hclosed, hprog, hpoint, -, hctxs⟩ := Dev.closeBatch_facts s.dev p b x z hx hz
    refine ⟨_, y, w, exec_batchWindow p b s, ?_, hw, hclosed, hprog, hpoint, ?_⟩
    · rw [State.onDev_dev, Dev.batchWindow_closes hx hz hopen hsome]; exact hy
    · rw [State.onDev_dev, Dev.batchWindow_closes hx hz hopen hsome]; exact hctxs

end Sys2Proof.Machine
end

section
/-!
PROOF. How passes start, and what their end does to contexts (R173, R174, R319).
-/

namespace Sys2Proof.Machine

theorem exec_passStart (p b : Nat) (s : State) : exec (.passStart p b) s = .next (s.onDev (fun d => d.passStart p b)) := rfl

theorem exec_passComplete (rid : Nat) (s : State) :
    exec (.passComplete rid) s = .next (s.onDev (fun d => d.passComplete rid)) := rfl

/-! PASS_START. -/

section
variable {d : Dev} {p b : Nat} {x : Part} {z : Batch} {pg : Prog} {st : Stage} (hx : d.part p = some x)
  (hz : kfind x.batches b = some z) (hpg : kfind x.progs z.prog = some pg) (hclosed : z.closed = true)
  (hidle : z.running = false) (hsus : x.suspended = false) (hrec : x.reclaim = .none) (hst : pg.stages[z.point]? = some st)
include hx hz hpg hclosed hidle hsus hrec hst

theorem Dev.passStart_waits (h : d.stageReady p x z pg.stages.length (parseRollout pg.image).feedback = false ∨
    d.inputsWait p x z = true) : d.passStart p b = d := by
  have hnot : (!d.stageReady p x z pg.stages.length (parseRollout pg.image).feedback || d.inputsWait p x z) = true := by
    rcases h with h | h <;> simp [h]
  simp only [Dev.passStart, hx, hz, hpg, hclosed, hidle, hsus, hrec, hst, hnot, Bool.not_true, Bool.false_or, bne_self_eq_false,
    Bool.false_eq_true, if_false, if_true]

variable (hready : d.stageReady p x z pg.stages.length (parseRollout pg.image).feedback = true)
  (hinput : d.inputsWait p x z = false) {cores : List (Nat × Nat)} {x0 : Run} {twins : List Nat} {g : PassGo}
  (hcores : cores = st.cores.filter (fun g => !d.coreFenced g.1)) (hsome : cores ≠ [])
  (hx0 : x0 = { part := p, prog := z.prog, layer := st.first, last := st.last, batch := b, stage := z.point,
                limitMs := (d.fn p).sch.limitMs, ctxs := z.ctxs })
  (htwins : twins = Run.twins x0 pg.image (cores.map (·.1))) (hgood : twins.any d.coreFenced = false)
  (hfree : d.coresFree (cores.map (·.1) ++ twins) = true) (hgo : d.passCheck p x z pg x0 cores = .inr g)
include hready hinput hcores hsome hx0 htwins hgood hfree hgo

/-- A pass that its checks let through is launched (R173). -/
theorem Dev.passStart_launches : ∃ pot m, d.passStart p b = (g.dev.launch g.run pg pot).setParts m := by
  have hrun : d.passStart p b = d.passGo p b x z pg x0 cores
      (((x0.programs pg.image).map (fun w => (tileAt pg.image w.1 w.2).pot)).foldl max 0) := by
    have hnot : (cores.isEmpty || twins.any d.coreFenced) = false := by
      rw [hgood, Bool.or_false, Bool.eq_false_iff]
      exact fun h => hsome (List.isEmpty_iff.mp h)
    subst hx0 htwins hcores
    simp only [Dev.passStart, hx, hz, hpg, hclosed, hidle, hsus, hrec, hst, hready, hinput, hnot, hfree, Bool.not_true,
      Bool.false_or, bne_self_eq_false, Bool.false_eq_true, if_false]
  rw [hrun, Dev.passGo, hgo]
  obtain ⟨m, hm⟩ := Dev.modPart_shape (g.dev.launch g.run pg
    (((x0.programs pg.image).map (fun w => (tileAt pg.image w.1 w.2).pot)).foldl max 0)) p _
  exact ⟨_, m, hm⟩

end

/-! PASS_COMPLETE. -/

/-- The device once a run has left, and its entry no longer runs. -/
def Dev.passOut (d : Dev) (rid : Nat) (x : Run) : Dev :=
  (d.dropRun rid).modPart x.part (fun y =>
    { y with batches := y.batches.map (fun e => if e.1 = x.batch then (e.1, { e.2 with running := false }) else e) })

/-- The entry of a pass still holds a context. -/
def Dev.passHolds (d : Dev) (x : Run) (i : Nat) : Bool :=
  match d.part x.part with
  | some y => y.holds x.batch i
  | none => false

/-- Contexts of a successful pass whose norms were held back. -/
def Dev.passHold (d : Dev) (x : Run) : Dev :=
  (x.held.filter (d.passHolds x)).foldl (fun d i => d.putCtx i { d.ctx i with normHold := true }) d

/-- What the end of a pass does to its contexts: they fail, advance or have done a step (R319). -/
def Dev.passEnd (d : Dev) (x : Run) (g : Prog) : Dev :=
  if !stOk (x.marks.final stSuccess).1 then
    d.failCtxs x.part ((x.ctxs.filter (d.passHolds x)).map (fun i => (i, (x.marks.final stSuccess).1)))
  else if x.stage + 1 < g.stages.length then
    let dn := (d.passHold x).modPart x.part (fun y =>
      { y with batches := y.batches.map (fun e => if e.1 = x.batch then (e.1, { e.2 with point := x.stage + 1 }) else e) })
    let da := x.ctxs.foldl (fun d i => d.advance x.part x.batch i (x.stage + 1)) dn
    if x.stage = 0 then da.pipeline x.part x.batch g.stages.length (parseRollout g.image).feedback else da
  else x.ctxs.foldl (fun d i => d.stepped x.part x.batch i) (d.passHold x)

/-- A partition that is suspended or reclaimed then frees what no pass of it holds any more (R332, R334). -/
def Dev.afterPass (d : Dev) (p : Nat) : Dev :=
  match d.part p with
  | some y => if y.suspended || y.reclaim != .none then d.freeStuck p else d
  | none => d

theorem Dev.steady_afterPass (d : Dev) (p : Nat) : d.Steady (d.afterPass p) := by
  rw [Dev.afterPass]
  split
  · split
    · exact Dev.steady_freeStuck d p
    · exact .rfl d
  · exact .rfl d

section
variable {d : Dev} {rid : Nat} {x : Run} (hx : d.run rid = some x)
include hx

theorem Dev.passRelease_stuck (hstuck : d.stuck x.release = true) (hm : x.marks = {}) : d.passRelease rid = d := by
  have hclear : x.marks.clear = true := by rw [hm]; rfl
  simp only [Dev.passRelease, hx, hstuck, hclear, Bool.and_self, if_true]

theorem Dev.passRelease_eq (hgo : d.stuck x.release = false) {g : Prog} (hg : d.runProg x = some g) :
    d.passRelease rid = ((d.passOut rid x).passEnd x g).afterPass x.part := by
  rw [Dev.passRelease, hx]
  dsimp only
  rw [hgo, hg, if_neg (by simp)]
  rfl

variable (hcmd : x.cmd = none)
include hcmd

theorem Dev.passComplete_ended (hend : x.ended = true) : d.passComplete rid = d.passRelease rid := by
  simp only [Dev.passComplete, hx, hcmd, hend, Option.isSome_none, Bool.false_eq_true, if_false, if_true]

theorem Dev.passComplete_busy (hend : x.ended = false) (htodo : ∃ c ∈ x.cores, c.todo ≠ []) : d.passComplete rid = d := by
  have hany : x.cores.any (fun c => !c.todo.isEmpty) = true := by
    obtain ⟨c, hc, hne⟩ := htodo
    exact List.any_eq_true.mpr ⟨c, hc, by simpa using hne⟩
  simp only [Dev.passComplete, hx, hcmd, hend, hany, Option.isSome_none, Bool.false_eq_true, if_false, if_true]

end

/-! What the operations on contexts do to their progress. -/

/-- A field of a context that none of the operations on it changes is as before after all of them. -/
theorem Dev.foldl_field {α : Type} (π : Ctx → α) (hπ : ∀ c : Ctx, π c.core = π c) (f : Dev → Nat → Dev) (v : Dev → Nat → Ctx)
    (h : ∀ d i, Dev.Touches i (v d i) d (f d i)) (hv : ∀ d i, π (v d i) = π (d.ctx i)) :
    ∀ (l : List Nat) (d : Dev) (i : Nat), π ((l.foldl f d).ctx i) = π (d.ctx i)
  | [], _, _ => rfl
  | j :: l, d, i => by
    have hone : π ((f d j).ctx i) = π (d.ctx i) := by
      by_cases e : i = j
      · subst e
        rw [← hπ, (h d i).mine, hπ, hv]
      · rw [(h d j).others i e]
    rw [List.foldl_cons, Dev.foldl_field π hπ f v h hv l (f d j) i, hone]

theorem Dev.keeps_foldl {p b i : Nat} (f : Dev → Nat → Dev) (h : ∀ d j, Dev.Keeps p b i d (f d j)) :
    ∀ (l : List Nat) (d : Dev), Dev.Keeps p b i d (l.foldl f d)
  | [], _ => Dev.keeps_parts rfl
  | j :: l, d => (h d j).trans (Dev.keeps_foldl f h l (f d j))

/-- Contexts that fail together keep their progress, and the runs stay. -/
theorem Dev.failCtxs_keeps (d : Dev) (p st : Nat) (l : List Nat) :
    (∀ i, ((d.failCtxs p (l.map (fun i => (i, st)))).ctx i).step = (d.ctx i).step ∧
      ((d.failCtxs p (l.map (fun i => (i, st)))).ctx i).point = (d.ctx i).point ∧
      ((d.failCtxs p (l.map (fun i => (i, st)))).ctx i).target = (d.ctx i).target) ∧
    (d.failCtxs p (l.map (fun i => (i, st)))).runs = d.runs := by
  choose v hv using fun (d : Dev) i => Dev.touches_failOne d p i st
  have htouch := fun d i => (hv d i).1
  rw [Dev.failCtxs, List.foldl_map]
  exact ⟨fun i => ⟨Dev.foldl_field Ctx.step (fun _ => rfl) _ v htouch (fun d i => (hv d i).2.1) l d i,
    Dev.foldl_field Ctx.point (fun _ => rfl) _ v htouch (fun d i => (hv d i).2.2.1) l d i,
    Dev.foldl_field Ctx.target (fun _ => rfl) _ v htouch (fun d i => (hv d i).2.2.2) l d i⟩,
    (Dev.touches_foldl _ v htouch l d).runs⟩

/-- Progress of the contexts `ids` through operations that raise no target: the others keep theirs. -/
structure Dev.Progressed (ids : List Nat) (d d' : Dev) : Prop where
  target : ∀ i, (d'.ctx i).target = (d.ctx i).target
  others : ∀ i, i ∉ ids → d'.ctx i = d.ctx i
  runs : d'.runs = d.runs

/-- The last stage: each context that its entry holds has done a step (R319). -/
theorem Dev.stepped_progress (d : Dev) (p b : Nat) (ids : List Nat) :
    Dev.Progressed ids d (ids.foldl (fun d i => d.stepped p b i) d) ∧
      ∀ i x z, ids.count i = 1 → d.part p = some x → kfind x.batches b = some z → z.ctxs.contains i = true →
        ((ids.foldl (fun d i => d.stepped p b i) d).ctx i).step = min ((d.ctx i).step + 1) stepMax ∧
        ((ids.foldl (fun d i => d.stepped p b i) d).ctx i).point = 0 ∧
        ((ids.foldl (fun d i => d.stepped p b i) d).ctx i).lastStatus = 0 := by
  choose v htouch htarget hvalue using fun (d : Dev) i => Dev.touches_stepped d p b i
  have hall := Dev.touches_foldl _ v htouch ids d
  refine ⟨⟨Dev.foldl_field Ctx.target (fun _ => rfl) _ v htouch htarget ids d, hall.others, hall.runs⟩,
    fun i x z hcount hx hz hmem => ?_⟩
  obtain ⟨D, hctx, hkeeps, hend⟩ := Dev.foldl_meets _ v htouch p b i (fun d j hj => Dev.keeps_stepped hj d) ids d hcount
  obtain ⟨y, hy, hkeep⟩ := hkeeps x hx
  obtain ⟨w, hw, hwmem, -⟩ := hkeep z hz hmem
  have hcore : ((ids.foldl (fun d i => d.stepped p b i) d).ctx i).core =
      ({ D.ctx i with step := min ((D.ctx i).step + 1) stepMax, point := 0, lastStatus := 0 } : Ctx).core := by
    rw [hend, (htouch D i).mine, hvalue D i y w hy hw hwmem]
  refine ⟨(congrArg Ctx.step hcore).trans ?_, congrArg Ctx.point hcore, congrArg Ctx.lastStatus hcore⟩
  rw [← hctx]; rfl

/-- Another stage: a context that has no earlier step under way stands before the next (R319). -/
theorem Dev.advance_progress (d : Dev) (p b k : Nat) (ids : List Nat) :
    Dev.Progressed ids d (ids.foldl (fun d i => d.advance p b i k) d) ∧
      ∀ i x z, ids.count i = 1 → d.part p = some x → kfind x.batches b = some z → z.ctxs.contains i = true →
        x.before z i = 0 → ((ids.foldl (fun d i => d.advance p b i k) d).ctx i).step = (d.ctx i).step ∧
        ((ids.foldl (fun d i => d.advance p b i k) d).ctx i).point = k := by
  choose v htouch htarget hvalue using fun (d : Dev) i => Dev.touches_advance d p b i k
  have hall := Dev.touches_foldl _ v htouch ids d
  refine ⟨⟨Dev.foldl_field Ctx.target (fun _ => rfl) _ v htouch htarget ids d, hall.others, hall.runs⟩,
    fun i x z hcount hx hz hmem hbefore => ?_⟩
  obtain ⟨D, hctx, hkeeps, hend⟩ := Dev.foldl_meets _ v htouch p b i (fun d j hj => Dev.keeps_advance hj d k) ids d hcount
  obtain ⟨y, hy, hkeep⟩ := hkeeps x hx
  obtain ⟨w, hw, hwmem, hwbefore⟩ := hkeep z hz hmem
  have hcore : ((ids.foldl (fun d i => d.advance p b i k) d).ctx i).core = ({ D.ctx i with point := k } : Ctx).core := by
    rw [hend, (htouch D i).mine, hvalue D i y w hy hw hwmem (hwbefore.trans hbefore)]
  refine ⟨(congrArg Ctx.step hcore).trans ?_, congrArg Ctx.point hcore⟩
  rw [← hctx]; rfl

theorem Dev.pipeline_same (d : Dev) (p b stages delay : Nat) :
    (d.pipeline p b stages delay).ctxs = d.ctxs ∧ (d.pipeline p b stages delay).runs = d.runs := by
  rw [Dev.pipeline]
  split
  · exact ⟨rfl, rfl⟩
  · split
    · exact ⟨rfl, rfl⟩
    · dsimp only
      split
      · exact ⟨rfl, rfl⟩
      · exact ⟨rfl, rfl⟩

/-- An entry whose flags or point change holds what it held. -/
theorem Part.keeps_edit (b i c : Nat) (x : Part) {g : Batch → Batch} (hctxs : ∀ z, (g z).ctxs = z.ctxs)
    (hroot : ∀ z, (g z).root = z.root) (hord : ∀ z, (g z).ord = z.ord) :
    Part.Keeps b i x { x with batches := x.batches.map (fun e => if e.1 = c then (e.1, g e.2) else e) } := by
  refine Part.keeps_map (fun e => if e.1 = c then (e.1, g e.2) else e) (fun _ => true) (by simp) (fun e => ?_) (fun e => ?_)
    fun _ _ => rfl
  · split <;> rfl
  · split
    · exact ⟨by rw [hctxs], hroot _, hord _⟩
    · exact ⟨rfl, rfl, rfl⟩

/-! The end of a pass. -/

/-- What the end of a pass keeps whatever its outcome: the targets, and the progress of contexts outside it. -/
structure Dev.PassEnded (x : Run) (d d' : Dev) : Prop where
  runs : d'.runs = d.runs
  target : ∀ i, (d'.ctx i).target = (d.ctx i).target
  others : ∀ i, i ∉ x.ctxs → (d'.ctx i).step = (d.ctx i).step ∧ (d'.ctx i).point = (d.ctx i).point

theorem Dev.Steady.fields {d e : Dev} (h : d.Steady e) (i : Nat) : (e.ctx i).step = (d.ctx i).step ∧
    (e.ctx i).point = (d.ctx i).point ∧ (e.ctx i).target = (d.ctx i).target ∧ (e.ctx i).lastStatus = (d.ctx i).lastStatus := by
  have hmark := h.1 i
  simp only [Ctx.mark, Prod.mk.injEq] at hmark
  exact hmark

theorem Dev.passHold_same (d : Dev) (x : Run) : d.Steady (d.passHold x) ∧ ∀ p b i, Dev.Keeps p b i d (d.passHold x) := by
  have hone (d : Dev) (i : Nat) : d.Steady (d.putCtx i { d.ctx i with normHold := true }) :=
    Dev.steady_of (Dev.touches_putCtx d i { d.ctx i with normHold := true }) rfl
  rw [Dev.passHold]
  exact ⟨Dev.steady_foldl _ hone _ d, fun p b i => Dev.keeps_foldl _ (fun d j => Dev.keeps_putCtx p b i d j _) _ d⟩

theorem Dev.passEnd_failed {d : Dev} {x : Run} (g : Prog) (hbad : stOk (x.marks.final stSuccess).1 = false) :
    Dev.PassEnded x d (d.passEnd x g) ∧
      ∀ i, ((d.passEnd x g).ctx i).step = (d.ctx i).step ∧ ((d.passEnd x g).ctx i).point = (d.ctx i).point := by
  obtain ⟨hkeep, hruns⟩ := Dev.failCtxs_keeps d x.part (x.marks.final stSuccess).1 (x.ctxs.filter (d.passHolds x))
  rw [Dev.passEnd, if_pos (by rw [hbad]; rfl)]
  exact ⟨⟨hruns, fun i => (hkeep i).2.2, fun i _ => ⟨(hkeep i).1, (hkeep i).2.1⟩⟩, fun i => ⟨(hkeep i).1, (hkeep i).2.1⟩⟩

/-- A pass on the last stage (R319). -/
theorem Dev.passEnd_last {d : Dev} {x : Run} {g : Prog} (hok : stOk (x.marks.final stSuccess).1 = true)
    (hlast : g.stages.length ≤ x.stage + 1) : Dev.PassEnded x d (d.passEnd x g) ∧
      ∀ i q w, x.ctxs.count i = 1 → d.part x.part = some q → kfind q.batches x.batch = some w → w.ctxs.contains i = true →
        ((d.passEnd x g).ctx i).step = min ((d.ctx i).step + 1) stepMax ∧ ((d.passEnd x g).ctx i).point = 0 ∧
          ((d.passEnd x g).ctx i).lastStatus = 0 := by
  obtain ⟨hsteady, hkeeps⟩ := Dev.passHold_same d x
  obtain ⟨hprog, hstep⟩ := Dev.stepped_progress (d.passHold x) x.part x.batch x.ctxs
  rw [Dev.passEnd, if_neg (by simp [hok]), if_neg (Nat.not_lt.mpr hlast)]
  refine ⟨⟨hprog.runs.trans hsteady.2, fun i => (hprog.target i).trans (hsteady.fields i).2.2.1, fun i hi => ?_⟩,
    fun i q w hcount hq hw hmem => ?_⟩
  · rw [hprog.others i hi]
    exact ⟨(hsteady.fields i).1, (hsteady.fields i).2.1⟩
  · obtain ⟨q', hq', hkeep⟩ := hkeeps x.part x.batch i q hq
    obtain ⟨w', hw', hmem', -⟩ := hkeep w hw hmem
    rw [← (hsteady.fields i).1]
    exact hstep i q' w' hcount hq' hw' hmem'

/-- A pass on another stage (R174, R319). -/
theorem Dev.passEnd_next {d : Dev} {x : Run} {g : Prog} (hok : stOk (x.marks.final stSuccess).1 = true)
    (hmore : x.stage + 1 < g.stages.length) : Dev.PassEnded x d (d.passEnd x g) ∧
      ∀ i q w, x.ctxs.count i = 1 → d.part x.part = some q → kfind q.batches x.batch = some w → w.ctxs.contains i = true →
        q.before w i = 0 → ((d.passEnd x g).ctx i).step = (d.ctx i).step ∧ ((d.passEnd x g).ctx i).point = x.stage + 1 := by
  obtain ⟨hheld, hkeeps⟩ := Dev.passHold_same d x
  generalize hdn : (d.passHold x).modPart x.part (fun y =>
    { y with batches := y.batches.map (fun e => if e.1 = x.batch then (e.1, { e.2 with point := x.stage + 1 }) else e) }) = dn
  have hsteady : d.Steady dn := hheld.trans (by
    obtain ⟨m, hm⟩ := Dev.modPart_shape (d.passHold x) x.part (fun y =>
      { y with batches := y.batches.map (fun e => if e.1 = x.batch then (e.1, { e.2 with point := x.stage + 1 }) else e) })
    rw [← hdn, hm]
    exact Dev.steady_same rfl rfl)
  have hkeep (i : Nat) : Dev.Keeps x.part x.batch i d dn := (hkeeps _ _ i).trans
    (hdn ▸ Dev.keeps_modPart _ _ _ _ _ _ fun y => Part.keeps_edit x.batch i x.batch y (g := fun z => { z with point := x.stage + 1 })
      (fun _ => rfl) (fun _ => rfl) fun _ => rfl)
  obtain ⟨hprog, hpoint⟩ := Dev.advance_progress dn x.part x.batch (x.stage + 1) x.ctxs
  have hend : (d.passEnd x g).ctxs = (x.ctxs.foldl (fun d i => d.advance x.part x.batch i (x.stage + 1)) dn).ctxs ∧
      (d.passEnd x g).runs = (x.ctxs.foldl (fun d i => d.advance x.part x.batch i (x.stage + 1)) dn).runs := by
    rw [Dev.passEnd, if_neg (by simp [hok]), if_pos hmore]
    dsimp only
    rw [hdn]
    split
    · exact Dev.pipeline_same _ _ _ _ _
    · exact ⟨rfl, rfl⟩
  have hctx (i : Nat) : (d.passEnd x g).ctx i = (x.ctxs.foldl (fun d i => d.advance x.part x.batch i (x.stage + 1)) dn).ctx i := by
    rw [Dev.ctx, hend.1]; rfl
  refine ⟨⟨hend.2.trans (hprog.runs.trans hsteady.2), fun i => ?_, fun i hi => ?_⟩, fun i q w hcount hq hw hmem hbefore => ?_⟩
  · rw [hctx, hprog.target i]; exact (hsteady.fields i).2.2.1
  · rw [hctx, hprog.others i hi]
    exact ⟨(hsteady.fields i).1, (hsteady.fields i).2.1⟩
  · obtain ⟨q', hq', hkept⟩ := hkeep i q hq
    obtain ⟨w', hw', hmem', hbefore'⟩ := hkept w hw hmem
    rw [hctx, ← (hsteady.fields i).1]
    exact hpoint i q' w' hcount hq' hw' hmem' (hbefore'.trans hbefore)

theorem Dev.passOut_facts (d : Dev) (rid : Nat) (x : Run) : (∀ i, (d.passOut rid x).ctx i = d.ctx i) ∧
    (d.passOut rid x).run rid = none ∧ ∀ i, Dev.Keeps x.part x.batch i d (d.passOut rid x) := by
  obtain ⟨m, hm⟩ := Dev.modPart_shape (d.dropRun rid) x.part (fun y =>
    { y with batches := y.batches.map (fun e => if e.1 = x.batch then (e.1, { e.2 with running := false }) else e) })
  refine ⟨fun i => ?_, ?_, fun i => ?_⟩
  · rw [Dev.passOut, hm]; rfl
  · rw [Dev.passOut, hm]; exact kfind_kdel_self _ _
  · have hdrop : Dev.Keeps x.part x.batch i d (d.dropRun rid) := Dev.keeps_parts rfl
    exact hdrop.trans (Dev.keeps_modPart _ _ _ _ _ _ fun y => Part.keeps_edit x.batch i x.batch y
      (g := fun z => { z with running := false }) (fun _ => rfl) (fun _ => rfl) fun _ => rfl)

/-- A pass whatever its outcome keeps targets and the contexts outside it. -/
theorem Dev.passEnd_ended (d : Dev) (x : Run) (g : Prog) : Dev.PassEnded x d (d.passEnd x g) := by
  cases hok : stOk (x.marks.final stSuccess).1 with
  | false => exact (Dev.passEnd_failed g hok).1
  | true =>
    rcases Nat.lt_or_ge (x.stage + 1) g.stages.length with hmore | hlast
    · exact (Dev.passEnd_next hok hmore).1
    · exact (Dev.passEnd_last hok hlast).1

/-- Settles O27: the start by `Dev.passStart_launches` and `Dev.launch_run`, the end by the outcome of `Dev.passEnd`. -/
theorem passesStep : Obligations.PassesStep := by
  unfold Obligations.PassesStep
  intro s p b rid x z pg
  refine ⟨fun st hx hz hpg hclosed hidle hsus hrec hst => ⟨fun hwait => ?waits,
      fun x0 cores twins g hready hinput hcores hsome hx0 htwins hgood hfree hgo => ?starts⟩,
    fun y hy hcmd => ⟨fun hend htodo => ?busy, fun hend hstuck hm => ?stuck, fun g hend hgo hg hstep => ?ends⟩⟩
  case waits =>
    rw [exec_passStart]
    exact State.next_same (Dev.passStart_waits hx hz hpg hclosed hidle hsus hrec hst hwait)
  case starts =>
    obtain ⟨pot, m, hrun⟩ := Dev.passStart_launches hx hz hpg hclosed hidle hsus hrec hst hready hinput hcores hsome hx0 htwins
      hgood hfree hgo
    obtain ⟨hgcmd, hgpart, hgbatch, hgstage, hglayer, hglast, hglimit⟩ := Dev.passCheck_run hgo
    obtain ⟨y, hy, -, -, hycmd, hypart, hylayer, -, -, hylimit, ⟨hylast, hystage, hybatch, -⟩, -, hhot⟩ :=
      Dev.launch_run g.dev g.run pg pot
    subst hx0
    refine ⟨_, y, exec_passStart p b s, ?_, hycmd.trans hgcmd, hypart.trans hgpart, hybatch.trans hgbatch,
      hystage.trans hgstage, hylayer.trans hglayer, hylast.trans hglast, hylimit.trans hglimit, fun k hk => ?_⟩
    · rw [State.onDev_dev, hrun]; exact hy
    · rw [State.onDev_dev, hrun]; exact hhot k hk
  case busy =>
    rw [exec_passComplete]
    exact State.next_same (Dev.passComplete_busy hy hcmd hend htodo)
  case stuck =>
    rw [exec_passComplete]
    exact State.next_same ((Dev.passComplete_ended hy hcmd hend).trans (Dev.passRelease_stuck hy hstuck hm))
  case ends =>
    obtain ⟨hout, hgone, hkeeps⟩ := Dev.passOut_facts s.dev rid y
    have hended := Dev.passEnd_ended (s.dev.passOut rid y) y g
    have hafter := Dev.steady_afterPass ((s.dev.passOut rid y).passEnd y g) y.part
    have hrun : s.dev.passComplete rid = ((s.dev.passOut rid y).passEnd y g).afterPass y.part :=
      (Dev.passComplete_ended hy hcmd hend).trans (Dev.passRelease_eq hy hgo hg)
    have hsteps (i : Nat) := hafter.fields i
    refine ⟨_, exec_passComplete rid s, ?_, fun i hi => ?_, fun i hcount => ⟨?_, fun hbad => ?_,
      fun q w hq hw hmem hm => ⟨fun hlast => ?_, fun hmore hbefore => ?_⟩⟩⟩
    all_goals
      rw [State.onDev_dev, hrun]
    · rw [Dev.run, hafter.2, hended.runs]; exact hgone
    · rw [(hsteps i).1, (hsteps i).2.1, (hsteps i).2.2.1, (hended.others i hi).1, (hended.others i hi).2, hended.target, hout]
      exact ⟨rfl, rfl, rfl⟩
    · rw [(hsteps i).2.2.1, hended.target, hout]
    · rw [(hsteps i).1, (hsteps i).2.1, ((Dev.passEnd_failed g hbad).2 i).1, ((Dev.passEnd_failed g hbad).2 i).2, hout]
      exact ⟨rfl, rfl⟩
    all_goals
      have hok : stOk (y.marks.final stSuccess).1 = true := by rw [hm]; rfl
      obtain ⟨q', hq', hkeep⟩ := hkeeps i q hq
      obtain ⟨w', hw', hmem', hbefore'⟩ := hkeep w hw hmem
    · obtain ⟨-, hdone⟩ := Dev.passEnd_last (d := s.dev.passOut rid y) hok hlast
      obtain ⟨hs, hp, hl⟩ := hdone i q' w' hcount hq' hw' hmem'
      have hlt := hstep i (List.count_pos_iff.mp (by omega))
      rw [(hsteps i).1, (hsteps i).2.1, (hsteps i).2.2.2, hs, hp, hl, hout]
      exact ⟨by rw [Nat.min_eq_left]; exact hlt, rfl, rfl⟩
    · obtain ⟨-, hdone⟩ := Dev.passEnd_next (d := s.dev.passOut rid y) hok hmore
      obtain ⟨hs, hp⟩ := hdone i q' w' hcount hq' hw' hmem' (hbefore'.trans hbefore)
      rw [(hsteps i).1, (hsteps i).2.1, hs, hp, hout]
      exact ⟨rfl, rfl⟩

end Sys2Proof.Machine
end

section
/-!
PROOF. The cap, the mode and what a pass of the power loop sheds (R453 to R455).
-/

namespace Sys2Proof.Machine

theorem exec_pwrCap_live {s : State} (h : s.dev.regsLive = true) (w : Nat) :
    exec (.pwrCap w) s = .next (s.onDev (fun d => d.writeCap w)) := by
  have harm : exec (.pwrCap w) s = execPwrCap w s := rfl
  rw [harm, execPwrCap, State.onReg_live h]

theorem exec_pwrMode_live {s : State} (h : s.dev.regsLive = true) (m : Nat) :
    exec (.pwrMode m) s = .next (s.onDev (fun d => d.writeMode m)) := by
  have harm : exec (.pwrMode m) s = execPwrMode m s := rfl
  rw [harm, execPwrMode, State.onReg_live h]

theorem exec_powerLoop (a b c e f : Nat) (s : State) : exec (.powerLoop a b c e f) s =
    .next (s.onDev (fun d => d.powerLoop { arrays := a, periph := b, pots := c, mem := e, io := f })) := rfl

@[simp] theorem Dev.pwr_capEvent (d : Dev) (x : Pwr) (source : Nat) : (d.capEvent x source).pwr = x := Dev.pwr_event _ _

theorem capOk_iff (w : Nat) : capOk w = true ↔ 400 ≤ w ∧ w ≤ 1200 := by simp [capOk]

theorem Dev.writeCap_in {d : Dev} {w : Nat} (hlow : 400 ≤ w) (hhigh : w ≤ 1200) :
    (d.writeCap w).pwr = { d.pwr with cap := w } := by
  rw [Dev.writeCap, if_pos ((capOk_iff w).mpr ⟨hlow, hhigh⟩), Dev.pwr_capEvent]

theorem Dev.writeCap_out {d : Dev} {w : Nat} (h : w < 400 ∨ 1200 < w) : d.writeCap w = d := by
  rw [Dev.writeCap, if_neg (fun hok => by have := (capOk_iff w).mp hok; omega)]

theorem Dev.writeMode_in {d : Dev} {m : Nat} (h : m < 4) : (d.writeMode m).pwr = { d.pwr with mode := m } := by
  rw [Dev.writeMode, if_pos h, Dev.pwr_capEvent]

theorem Dev.writeMode_out {d : Dev} {m : Nat} (h : 4 ≤ m) : d.writeMode m = d := by
  rw [Dev.writeMode, if_neg (by omega)]

/-- The levers and the withholding of starts that a pass of the loop leaves. -/
theorem Dev.powerLoop_pwr (d : Dev) (x : Demand) {r : Levers × Nat}
    (hr : x.shed d.pwr.mode (x.total - d.pwr.allowed) = r) : ∃ at', (d.powerLoop x).pwr =
      { d.pwr with clk := r.1.clk, mem := r.1.mem, link := r.1.link, duty := r.1.duty, withhold := decide (0 < r.2),
                   limitedAt := at' } := by
  unfold Dev.powerLoop
  rw [hr]
  extract_lets _ _ _ due _ d1
  obtain ⟨at', hat⟩ : ∃ at', at' = if due then some (d.aoOf dieCd) else d.pwr.limitedAt := ⟨_, rfl⟩
  have hd1 : d1.pwr = { d.pwr with clk := r.1.clk, mem := r.1.mem, link := r.1.link, duty := r.1.duty,
                                   withhold := decide (0 < r.2), limitedAt := at' } := by
    rw [hat]
    rfl
  refine ⟨at', ?_⟩
  split
  · exact (Dev.pwr_event _ _).trans hd1
  · exact hd1

/-- Settles O28: the writes by case, and the loop by what a mode's shedding leaves (`Demand.shed_facts`). -/
theorem powerBudget : Obligations.PowerBudget := by
  unfold Obligations.PowerBudget
  intro s w m a b c e f x need hlive
  refine ⟨rfl, fun hlow hhigh => ?capIn, fun hout => ?capOut, fun hm => ?modeIn, fun hm => ?modeOut, fun hx hneed => ?loop⟩
  case capIn => exact ⟨_, exec_pwrCap_live hlive w, Dev.writeCap_in hlow hhigh⟩
  case capOut =>
    rw [exec_pwrCap_live hlive]
    exact State.next_same (Dev.writeCap_out hout)
  case modeIn => exact ⟨_, exec_pwrMode_live hlive m, Dev.writeMode_in hm⟩
  case modeOut =>
    rw [exec_pwrMode_live hlive]
    exact State.next_same (Dev.writeMode_out hm)
  case loop =>
    subst hx
    obtain ⟨hclkLow, hclkHigh, hdutyLow, hdutyHigh, hdutyClk, hfull, hrest⟩ :=
      Demand.shed_facts { arrays := a, periph := b, pots := c, mem := e, io := f } s.dev.pwr.mode need
    obtain ⟨at', hpwr⟩ := Dev.powerLoop_pwr s.dev { arrays := a, periph := b, pots := c, mem := e, io := f } rfl
    rw [← hneed] at hpwr
    refine ⟨_, exec_powerLoop a b c e f s, ?_⟩
    rw [State.onDev_dev, hpwr]
    refine ⟨hclkLow, hclkHigh, hdutyLow, hdutyHigh, hdutyClk, rfl, rfl, fun hzero => ?_, ?_⟩
    · rw [hfull hzero]
      exact ⟨rfl, rfl, rfl, rfl⟩
    · rw [decide_eq_true_iff, hrest]
      omega

end Sys2Proof.Machine
end

section
/-!
PROOF. What PWR_CUP_DATA answers, and what a boundary leaves in a cup (R444, R448 to R451, R560).
-/

namespace Sys2Proof.Machine

theorem exec_pwrCupData_live {s : State} (h : s.dev.regsLive = true) (v : Nat) :
    exec (.pwrCupData v) s = .next (s.onDev (fun d => d.cupData v)) := by
  have harm : exec (.pwrCupData v) s = execPwrCupData v s := rfl
  rw [harm, execPwrCupData, State.onReg_live h]

theorem exec_cupPeriodBoundary (die : Nat) (s : State) :
    exec (.cupPeriodBoundary die) s = .next (s.onDev (fun d => d.cupBoundary die)) := rfl

/-- The device with the answer of a write to PWR_CUP_DATA. -/
def Dev.cupAnswer (d : Dev) (n : Nat) : Dev := d.setPwr { d.pwr with cupResult := n }

/-- A write to PWR_CUP_DATA that its fields turn away (R560). -/
def cupMalformed (off v : Nat) : Prop := off % 2 ≠ 0 ∨ 0x60 < off ∨ 1024 < v % 2048 ∨ bits v 14 11 ≠ 0 ∨ 65535 < v

theorem cupMalformed_iff (off v : Nat) : cupMalformed off v ↔
    (!cupOffOk off || bits v 14 11 != 0 || decide (1024 < v % 2048) || decide (65535 < v)) = true := by
  simp only [cupMalformed, cupOffOk, Bool.or_eq_true, Bool.not_and, Bool.not_eq_true', bne_iff_ne, decide_eq_true_eq,
    beq_eq_false_iff_ne, decide_eq_false_iff_not]
  omega

theorem Dev.cupData_noPart {d : Dev} (h : d.part d.pwr.selPart = none) (v : Nat) : d.cupData v = d.cupAnswer 4 := by
  unfold Dev.cupData
  rw [h]
  rfl

section
variable {d : Dev} {x : Part} (hx : d.part d.pwr.selPart = some x) (v : Nat)
include hx

theorem Dev.cupData_malformed (h : cupMalformed d.pwr.selOff v) : d.cupData v = d.cupAnswer 4 := by
  unfold Dev.cupData
  rw [hx]
  dsimp only
  rw [if_pos ((cupMalformed_iff _ _).mp h)]
  rfl

variable (hok : ¬ cupMalformed d.pwr.selOff v)
include hok

theorem Dev.cupData_overflow (h : shareMax d.pwr.selOff < d.shareSum d.pwr.selPart d.pwr.selOff + v % 2048) :
    d.cupData v = d.cupAnswer 2 := by
  unfold Dev.cupData
  rw [hx]
  dsimp only
  rw [if_neg (fun hb => hok ((cupMalformed_iff _ _).mpr hb)), if_pos h]
  rfl

variable (hfits : d.shareSum d.pwr.selPart d.pwr.selOff + v % 2048 ≤ shareMax d.pwr.selOff)
include hfits

theorem Dev.cupData_tooSmall (hmem : d.pwr.selOff < 0x20)
    (hless : v % 2048 < memShareMin (d.rowsOn d.pwr.selPart (d.pwr.selOff / 2))) : d.cupData v = d.cupAnswer 3 := by
  unfold Dev.cupData
  rw [hx]
  dsimp only
  rw [if_neg (fun hb => hok ((cupMalformed_iff _ _).mpr hb)), if_neg (by omega), if_pos ⟨hmem, hless⟩]
  rfl

theorem Dev.cupData_accepted (hmin : d.pwr.selOff < 0x20 →
    memShareMin (d.rowsOn d.pwr.selPart (d.pwr.selOff / 2)) ≤ v % 2048) : d.cupData v =
    (d.putPart d.pwr.selPart
      { x with cupsNew := x.cupsNew.filter (fun e => e.1 != d.pwr.selOff) ++ [(d.pwr.selOff, v)] }).cupAnswer 1 := by
  unfold Dev.cupData
  rw [hx]
  dsimp only
  rw [if_neg (fun hb => hok ((cupMalformed_iff _ _).mpr hb)), if_neg (by omega),
    if_neg (fun hc => absurd (hmin hc.1) (by omega))]
  rfl

end

/-! CUP_PERIOD_BOUNDARY. -/

/-- What a boundary brings into force is the last accepted entry of the cup (R450). -/
theorem Part.cupsDue_facts {x : Part} {die k r : Nat} (hk : (k, r) ∈ cupsOn die) (hnodup : (x.cupsNew.map (·.1)).Nodup) :
    kget (x.cupsDue die).cups (cupOff k) 0 = x.cupLast (cupOff k) ∧
    (x.cupsDue die).cupsNew.find? (fun e => e.1 == cupOff k) = none := by
  have hmine {e : Nat × Nat} (he : e.1 = cupOff k) : (cupsOn die).any (fun j => cupOff j.1 == e.1) = true :=
    List.any_eq_true.mpr ⟨(k, r), hk, by simp [he]⟩
  constructor
  · refine (kget_foldl_kset _ _ _ (hnodup.sublist (List.filter_sublist.map _))).trans ?_
    have hsame : (x.cupsNew.filter (fun e => (cupsOn die).any (fun j => cupOff j.1 == e.1))).find?
        (fun e => e.1 == cupOff k) = x.cupsNew.find? (fun e => e.1 == cupOff k) := by
      rw [List.find?_filter]
      congr 1
      funext e
      by_cases he : e.1 = cupOff k
      · rw [Bool.eq_iff_iff]
        simp [hmine he]
      · simp [he]
    rw [hsame]
    unfold Part.cupLast
    cases x.cupsNew.find? (fun e => e.1 == cupOff k) <;> rfl
  · refine List.find?_eq_none.mpr fun e he hkey => ?_
    have hout := (List.mem_filter.mp he).2
    dsimp only at hout
    rw [hmine (by simpa using hkey)] at hout
    exact absurd hout (by decide)

/-- The cups of a die that a boundary refills, each with its grant. -/
def cupRefills (ps : KMap Part) (die per : Nat) : List (Nat × Nat × Nat) :=
  ps.flatMap (fun e => (cupsOn die).map (fun k => (e.1, k.1, cupGrant (kget e.2.cups (cupOff k.1) 0 % 2048) k.2 per)))

theorem cupKey_inj {p q j k : Nat} (hp : 1 ≤ p) (hp' : p ≤ 16) (hq : 1 ≤ q) (hq' : q ≤ 16) (h : cupKey p j = cupKey q k) :
    p = q ∧ j = k := by
  unfold cupKey at h
  omega

/-- A boundary refills each cup of each partition once. -/
theorem cupRefills_nodup {ps : KMap Part} (hps : (ps.map (·.1)).Pairwise (· < ·)) (hrange : ∀ e ∈ ps, 1 ≤ e.1 ∧ e.1 ≤ 16)
    {die : Nat} (hdie : die < 20) (per : Nat) : ((cupRefills ps die per).map (fun z => cupKey z.1 z.2.1)).Nodup := by
  rw [cupRefills, List.map_flatMap, List.nodup_flatMap]
  constructor
  · intro e he
    obtain ⟨h1, h16⟩ := hrange e he
    rw [List.map_map]
    have hkeys : ((cupsOn die).map (·.1)).map (cupKey e.1) =
        (cupsOn die).map ((fun z => cupKey z.1 z.2.1) ∘
          (fun k => (e.1, k.1, cupGrant (kget e.2.cups (cupOff k.1) 0 % 2048) k.2 per))) := by
      rw [List.map_map]
      rfl
    rw [← hkeys]
    exact (cupsOn_nodup hdie).map (fun j k h => (cupKey_inj h1 h16 h1 h16 h).2)
  · refine ((List.pairwise_map.mp hps).imp_of_mem fun {a b} ha hb hlt => ?_)
    intro key hka hkb
    obtain ⟨za, hza, rfl⟩ := List.mem_map.mp hka
    obtain ⟨zb, hzb, hkey⟩ := List.mem_map.mp hkb
    obtain ⟨j, -, rfl⟩ := List.mem_map.mp hza
    obtain ⟨k, -, rfl⟩ := List.mem_map.mp hzb
    exact absurd (cupKey_inj (hrange b hb).1 (hrange b hb).2 (hrange a ha).1 (hrange a ha).2 hkey).1 (by omega)

/-- The device with the entries that are due at a boundary of a die in force. -/
def Dev.cupsInForce (d : Dev) (die : Nat) : Dev := d.setParts (d.parts.map (fun e => (e.1, e.2.cupsDue die)))

theorem Dev.cupBoundary_facts (d : Dev) {die : Nat} (hdie : die < 20) :
    (d.cupBoundary die).parts = (d.cupsInForce die).parts ∧
    (d.cupBoundary die).cupsOf die = (refills (d.aoOf die) ({ d.cupsOf die with period := d.pwr.cupPeriod }, [])
      (cupRefills (d.cupsInForce die).parts die d.pwr.cupPeriod)).1 := by
  unfold Dev.cupBoundary
  rw [if_neg (by omega)]
  extract_lets d1 src c0 r
  have hr : r = refills (d.aoOf die) (c0, []) (cupRefills d1.parts die d.pwr.cupPeriod) := refills_nested _ _ _ _ _
  have hreports := cups_foldl_event (fun e => { e with unit := unit24 die uiDie }) r.2 (d1.putCups die r.1)
  refine ⟨hreports.parts, ?_⟩
  have hcups : (List.foldl (fun (d : Dev) e => d.event { e with unit := unit24 die uiDie }) (d1.putCups die r.1) r.2).cupsOf die = r.1 := by
    unfold Dev.cupsOf
    rw [hreports.cups]
    exact kget_kset_self _ _ _ _
  rw [hcups, hr]
  rfl

/-- Settles O29: the answers by case, and the boundary by the refills of the die's cups, whose keys differ. -/
theorem cupGrants : Obligations.CupGrants := by
  unfold Obligations.CupGrants
  intro s v die p off x
  refine ⟨fun hlive hp hoff hx => ?_, fun hlive hx => ⟨_, exec_pwrCupData_live hlive v, Dev.cupData_noPart hx v⟩,
    fun k r sh g hdie _ hx hparts hk hsh hg => ?_⟩
  · subst hp hoff
    refine ⟨fun hbad => ⟨_, exec_pwrCupData_live hlive v, Dev.cupData_malformed hx v hbad⟩,
      fun heven hlast hshare hzero hwidth => ?_⟩
    have hok : ¬ cupMalformed s.dev.pwr.selOff v := by unfold cupMalformed; omega
    refine ⟨fun hover => ⟨_, exec_pwrCupData_live hlive v, Dev.cupData_overflow hx v hok hover⟩, fun hfits =>
      ⟨fun hmem hless => ⟨_, exec_pwrCupData_live hlive v, Dev.cupData_tooSmall hx v hok hfits hmem hless⟩, fun hmin => ?_⟩⟩
    have hrun := Dev.cupData_accepted hx v hok hfits hmin
    refine ⟨_, { x with cupsNew := x.cupsNew.filter (fun e => e.1 != s.dev.pwr.selOff) ++ [(s.dev.pwr.selOff, v)] },
      exec_pwrCupData_live hlive v, ?_⟩
    rw [State.onDev_dev, hrun]
    refine ⟨rfl, Dev.part_putPart _ _ _, rfl, by simp, fun o ho n => by simp [ho]⟩
  · obtain ⟨hsorted, hall⟩ := hparts
    have hmem := kfind_mem_of _ _ _ hx
    have hx' : (s.dev.cupsInForce die).part p = some (x.cupsDue die) := by
      unfold Dev.part at hx
      show kfind (s.dev.parts.map (fun e => (e.1, e.2.cupsDue die))) p = _
      rw [kfind_map_val (fun _ (y : Part) => y.cupsDue die), hx]
      rfl
    obtain ⟨hshare, hnone⟩ := Part.cupsDue_facts hk (hall _ hmem).2.2
    have hlast : sh = x.cupLast (cupOff k) := hsh
    obtain ⟨hpartsAt, hcupsAt⟩ := Dev.cupBoundary_facts s.dev hdie
    have hkeys : ((s.dev.cupsInForce die).parts.map (·.1)) = s.dev.parts.map (·.1) := by
      show ((s.dev.parts.map (fun e => (e.1, e.2.cupsDue die))).map (·.1)) = _
      rw [List.map_map]
      rfl
    have hnodup := cupRefills_nodup (ps := (s.dev.cupsInForce die).parts) (by rw [hkeys]; exact hsorted)
      (fun e he => by
        obtain ⟨e', he', rfl⟩ := List.mem_map.mp he
        exact ⟨(hall e' he').1, (hall e' he').2.1⟩) hdie s.dev.pwr.cupPeriod
    obtain ⟨hper, -, hat⟩ := refills_facts (s.dev.aoOf die) (cupKey p k) _
      ({ s.dev.cupsOf die with period := s.dev.pwr.cupPeriod }, []) hnodup
    have hmine : (p, k, cupGrant (kget (x.cupsDue die).cups (cupOff k) 0 % 2048) r s.dev.pwr.cupPeriod) ∈
        cupRefills (s.dev.cupsInForce die).parts die s.dev.pwr.cupPeriod :=
      List.mem_flatMap.mpr ⟨(p, x.cupsDue die), kfind_mem_of _ _ _ hx', List.mem_map.mpr ⟨(k, r), hk, rfl⟩⟩
    have hfull := hat _ hmine rfl
    rw [← hcupsAt, hshare, ← hlast] at hfull
    simp only [CupCnt.at, Prod.mk.injEq] at hfull
    obtain ⟨hunits, hdrawn, hdry⟩ := hfull
    refine ⟨_, x.cupsDue die, exec_cupPeriodBoundary die s, ?_⟩
    rw [State.onDev_dev]
    refine ⟨by rw [hcupsAt, hper], ?_, hshare.trans hlast.symm, hnone, hunits.trans (by rw [hg]; rfl), hdrawn, by simpa using hdry⟩
    rw [Dev.part, hpartsAt]
    exact hx'

end Sys2Proof.Machine
end

section
/-!
PROOF. Calibration, samples of the input, and what temperatures and the coolant set (R278, R457 to R460, R464, R525, R534,
R540).
-/

namespace Sys2Proof.Machine

theorem exec_calibration (gains : List Nat) (o : Int) (s : State) :
    exec (.calibration gains o) s = .next (s.onDev (fun d => d.calibrate gains o)) := rfl

theorem exec_disagreeTimeout (e m : Nat) (s : State) :
    exec (.disagreeTimeout e m) s = .next (s.onDev (fun d => d.disagree e m)) := rfl

theorem exec_agreeTimeout (e m : Nat) (s : State) : exec (.agreeTimeout e m) s = .next (s.onDev (fun d => d.agree e m)) := rfl

theorem exec_inputSample (v i : Nat) (s : State) : exec (.inputSample v i) s = .next (s.onDev (fun d => d.inputSample v i)) := rfl

theorem exec_inputSenseTimeout (e : Nat) (s : State) :
    exec (.inputSenseTimeout e) s = .next (s.onDev (fun d => d.senseTimeout e)) := rfl

theorem exec_trivetTelemetryTimeout (k : Nat) (s : State) :
    exec (.trivetTelemetryTimeout k) s = .next (s.onDev (fun d => d.trivetTimeout k)) := rfl

theorem exec_inputOutOfRange (v : Nat) (s : State) :
    exec (.inputOutOfRange v) s = .next (s.onDev (fun d => if v < 4400 ∨ 6000 < v then d.alert 3 else d)) := rfl

theorem exec_thermalSample (x : Sensor) (t : Int) (s : State) :
    exec (.thermalSample [(x, t)]) s = .next (s.onDev (fun d => d.thermOne x t)) := rfl

theorem exec_coolantSample (a b : Int) (s : State) : exec (.coolantSample a b) s =
    .next (s.onDev (fun d => d.setSense { d.sense with inlet := a, outlet := b })) := rfl

theorem exec_coolantRise (s : State) : exec .coolantRise s =
    .next (s.onDev (fun d => if 150 < d.sense.outlet - d.sense.inlet then d.alert 5 else d)) := rfl

/-! Calibration and disagreement. -/

section
variable {d : Dev} (hagree : d.pwr.disagree = false) (hseen : d.pwr.inputLost = false)
include hagree hseen

theorem Dev.calibrate_runs (gains : List Nat) (o : Int) : (d.calibrate gains o).sense = { d.sense with
      gains := (List.range 16).map (fun k =>
        if bit d.pwr.trivetLost k then d.sense.gains.getD k 1000 else max 800 (min 1250 (gains.getD k 1000)))
      offset := o } := by
  unfold Dev.calibrate
  rw [hagree, hseen]
  rfl

theorem Dev.disagree_noted {e m : Nat} (h : 15 * m < 100 * absDiff e m) :
    (d.disagree e m).pwr = { d.pwr with disagree := true, guard := true } := by
  have hfar : ¬ 20 * absDiff e m ≤ 3 * m := by omega
  unfold Dev.disagree
  rw [hagree, hseen, if_neg (by simpa using hfar)]
  exact Dev.pwr_event _ _

end

theorem Dev.calibrate_frozen {d : Dev} (h : d.pwr.disagree = true ∨ d.pwr.inputLost = true) (gains : List Nat) (o : Int) :
    d.calibrate gains o = d := by
  unfold Dev.calibrate
  rw [if_pos (by simpa using h)]

theorem Dev.disagree_close {e m : Nat} (h : 100 * absDiff e m ≤ 15 * m) (d : Dev) : d.disagree e m = d := by
  have hnear : 20 * absDiff e m ≤ 3 * m := by omega
  unfold Dev.disagree
  rw [if_pos (by simp [hnear])]

theorem Dev.agree_noted {d : Dev} {e m : Nat} (hdis : d.pwr.disagree = true) (h : 10 * absDiff e m ≤ m) :
    (d.agree e m).pwr = { d.pwr with disagree := false, guard := false } := by
  unfold Dev.agree
  rw [hdis, if_neg (by simpa using h)]
  exact Dev.pwr_event _ _

/-! The input. -/

/-- The device with a sample of the input noted, and the measurement good again where it was lost. -/
def Dev.inputSeen (d : Dev) (v i : Nat) : Dev :=
  if d.pwr.inputLost then
    ((d.setSense { d.sense with inputV := v, inputI := i }).setPwr { d.pwr with inputLost := false }).event
      { code := evInputRestored, unit := unit24 dieCd uiDie }
  else d.setSense { d.sense with inputV := v, inputI := i }

theorem Dev.inputSeen_facts (d : Dev) (v i : Nat) : (d.inputSeen v i).pwr = { d.pwr with inputLost := false } ∧
    (d.inputSeen v i).sense = { d.sense with inputV := v, inputI := i } ∧ (d.inputSeen v i).mod = d.mod := by
  unfold Dev.inputSeen
  split
  · exact ⟨Dev.pwr_event _ _, (Dev.reports_event _ _).sense, (Dev.reports_event _ _).mod⟩
  · rename_i h
    have hseen : d.pwr.inputLost = false := by simpa using h
    rw [← hseen]
    exact ⟨rfl, rfl, rfl⟩

theorem Dev.inputSample_valid {v i : Nat} (h : v * i ≤ 15000000) (d : Dev) :
    d.inputSample v i = (d.inputSeen v i).addPower (v * i) 1 := by
  unfold Dev.inputSample
  extract_lets _ d0 d1
  rw [if_neg (by omega)]
  rfl

theorem Dev.inputSample_invalid {v i : Nat} (h : 15000000 < v * i) (d : Dev) :
    d.inputSample v i = (d.setSense { d.sense with inputV := v, inputI := i }).inputLoss := by
  unfold Dev.inputSample
  dsimp only
  rw [if_pos h]

theorem Dev.inputSample_facts (d : Dev) (v i : Nat) :
    (d.inputSample v i).sense.inputV = v ∧ (d.inputSample v i).sense.inputI = i ∧
    (v * i ≤ 15000000 → (d.inputSample v i).pwr.inputLost = false ∧ (d.inputSample v i).mod.alert = d.mod.alert ∧
      (d.sense.energy + (d.pwr.energyPart + v * i) / 100000 < 2 ^ 64 →
        (d.inputSample v i).sense.energy * 100000 + (d.inputSample v i).pwr.energyPart =
          d.sense.energy * 100000 + d.pwr.energyPart + v * i)) ∧
    (15000000 < v * i → (d.inputSample v i).pwr.inputLost = true ∧ (d.inputSample v i).sense.energy = d.sense.energy ∧
      (d.pwr.inputLost = false → bit (d.inputSample v i).mod.alert 4 = true)) := by
  by_cases h : 15000000 < v * i
  · obtain ⟨hpwr, hsense, halert⟩ := Dev.inputLoss_facts (d.setSense { d.sense with inputV := v, inputI := i })
    rw [Dev.inputSample_invalid h, hpwr, hsense]
    exact ⟨rfl, rfl, fun hle => absurd h (by omega), fun _ => ⟨rfl, rfl, halert⟩⟩
  · obtain ⟨hpwr, hsense, hmod⟩ := Dev.inputSeen_facts d v i
    obtain ⟨hlost, -, hmod', hv, hi, henergy⟩ := Dev.addPower_facts (d.inputSeen v i) (v * i) 1
    rw [hpwr, hsense, Nat.mul_one] at henergy
    rw [Dev.inputSample_valid (by omega), hv, hi, hlost, hmod', hpwr, hsense, hmod]
    exact ⟨rfl, rfl, fun _ => ⟨rfl, rfl, henergy⟩, fun hlt => absurd hlt h⟩

theorem Dev.senseTimeout_facts (d : Dev) (e : Nat) : (d.senseTimeout e).pwr.inputLost = true ∧
    (d.senseTimeout e).pwr.energyEst = true ∧ (d.sense.energy + (d.pwr.energyPart + 11000 * e) / 100000 < 2 ^ 64 →
      (d.senseTimeout e).sense.energy * 100000 + (d.senseTimeout e).pwr.energyPart =
        d.sense.energy * 100000 + d.pwr.energyPart + 11000 * e) := by
  obtain ⟨hpwr, hsense, -⟩ := Dev.inputLoss_facts d
  have hpart : d.inputLoss.pwr.energyPart = d.pwr.energyPart := by rw [hpwr]
  have hlostNow : d.inputLoss.pwr.inputLost = true := by rw [hpwr]
  have hrun : d.senseTimeout e =
      (d.inputLoss.setPwr { d.inputLoss.pwr with energyEst := true }).addPower (e * 1100) 10 := rfl
  obtain ⟨hlost, hest, -, -, -, henergy⟩ :=
    Dev.addPower_facts (d.inputLoss.setPwr { d.inputLoss.pwr with energyEst := true }) (e * 1100) 10
  rw [← hrun] at hlost hest henergy
  simp only [Dev.setPwr_pwr, Dev.setPwr_sense, hsense, hpart, hlostNow] at hlost hest henergy
  rw [show e * 1100 * 10 = 11000 * e by omega] at henergy
  exact ⟨hlost, hest, henergy⟩

theorem Dev.trivetTimeout_noted {d : Dev} {k : Nat} (hk : k < 16) (hseen : bit d.pwr.trivetLost k = false) :
    (d.trivetTimeout k).pwr = { d.pwr with trivetLost := d.pwr.trivetLost + 2 ^ k } := by
  unfold Dev.trivetTimeout
  rw [if_neg (by rw [hseen]; simpa using hk)]
  exact Dev.pwr_event _ _

/-! Heat. -/

theorem Dev.thermCritical_new {d : Dev} {x : Sensor} {t : Int} (hlimit : (sensLimits x).2.2 ≤ t)
    (hnew : d.sense.critical.contains (sensCode x) = false) : d.thermCritical x t =
    (((d.setSense { d.sense with critical := insertSorted (sensCode x) d.sense.critical }).raise
      { code := evThermalCritical, unit := sensUnit x, cause := caFenced, payload := thermPayload (sensDie x) t }).alert
        2).thermFence x := by
  unfold Dev.thermCritical
  dsimp only
  rw [if_pos hlimit, hnew]
  rfl

theorem Dev.thermOne_skillet {k : Nat} (hk : k < 16) (d : Dev) (t : Int) : d.thermOne (.skillet k) t =
    ((d.thermWarn (.skillet k) t).thermThrottle (.skillet k) t).thermCritical (.skillet k) t := by
  unfold Dev.thermOne
  rw [if_pos (by simpa [sensOk] using hk)]
  rfl

/-- The sensor lists and the skillet after the warning and throttle limits of a skillet. -/
theorem Dev.thermLow_facts (d : Dev) (k : Nat) (t : Int) : ∃ w h,
    ((d.thermWarn (.skillet k) t).thermThrottle (.skillet k) t).sense = { d.sense with warned := w, throttled := h } ∧
    (950 < t → k ∈ w) ∧ (t ≤ 950 → w = d.sense.warned.filter (· != k)) ∧
    (1000 < t → k ∈ h ∧
      ((d.thermWarn (.skillet k) t).thermThrottle (.skillet k) t).skillet k = (d.skillet k).cool) ∧
    (t ≤ 970 → (k ∈ d.sense.throttled → k ∉ h ∧
        ((d.thermWarn (.skillet k) t).thermThrottle (.skillet k) t).skillet k = { d.skillet k with clk := 19, duty := 100 }) ∧
      (k ∉ d.sense.throttled → h = d.sense.throttled ∧
        ((d.thermWarn (.skillet k) t).thermThrottle (.skillet k) t).skillets = d.skillets)) := by
  obtain ⟨w, hw, hwSk, -, hwarn, hcool⟩ := Dev.thermWarn_facts d (.skillet k) t
  obtain ⟨h, hh, hhot, hend⟩ := Dev.thermThrottle_facts (d.thermWarn (.skillet k) t) k t
  have hsk : (d.thermWarn (.skillet k) t).skillet k = d.skillet k := by rw [Dev.skillet, hwSk]; rfl
  rw [hw, hsk, hwSk] at hend
  rw [hsk] at hhot
  rw [hw] at hh
  exact ⟨w, h, hh, hwarn, hcool, hhot, hend⟩

section
variable {k : Nat} (hk : k < 16) (d : Dev) (t : Int)
include hk

theorem Dev.thermOne_below (h : t < 1100) : d.thermOne (.skillet k) t =
    ((d.thermWarn (.skillet k) t).thermThrottle (.skillet k) t).setSense
      { ((d.thermWarn (.skillet k) t).thermThrottle (.skillet k) t).sense with
        critical := ((d.thermWarn (.skillet k) t).thermThrottle (.skillet k) t).sense.critical.filter (· != k) } := by
  rw [Dev.thermOne_skillet hk]
  exact Dev.thermCritical_below _ _ _ h

theorem Dev.thermOne_cool (hcool : t ≤ 850) (hwarned : d.sense.warned = []) (hthrottled : d.sense.throttled = [])
    (hcritical : d.sense.critical = []) :
    (d.thermOne (.skillet k) t).skillets = d.skillets ∧ (d.thermOne (.skillet k) t).sense = d.sense := by
  obtain ⟨w, h, hsense, -, hw, -, hend⟩ := Dev.thermLow_facts d k t
  obtain ⟨hh, hskillets⟩ := (hend (by omega)).2 (by rw [hthrottled]; exact List.not_mem_nil)
  have hwsame : w = d.sense.warned := by rw [hw (by omega), hwarned]; rfl
  rw [Dev.thermOne_below hk d t (by omega)]
  refine ⟨hskillets, ?_⟩
  rw [Dev.setSense_sense, hsense, hcritical, hwsame, hh, List.filter_nil, ← hcritical]

theorem Dev.thermOne_hot (hlow : 1000 < t) (hhigh : t < 1100) : k ∈ (d.thermOne (.skillet k) t).sense.throttled ∧
    k ∈ (d.thermOne (.skillet k) t).sense.warned ∧ (d.thermOne (.skillet k) t).skillet k = (d.skillet k).cool := by
  obtain ⟨w, h, hsense, hw, -, hhot, -⟩ := Dev.thermLow_facts d k t
  obtain ⟨hh, hskillet⟩ := hhot hlow
  rw [Dev.thermOne_below hk d t hhigh, Dev.setSense_sense, hsense]
  exact ⟨hh, hw (by omega), hskillet⟩

theorem Dev.thermOne_over (hwas : k ∈ d.sense.throttled) (hcool : t ≤ 970) :
    k ∉ (d.thermOne (.skillet k) t).sense.throttled ∧
    (d.thermOne (.skillet k) t).skillet k = { d.skillet k with clk := 19, duty := 100 } := by
  obtain ⟨w, h, hsense, -, -, -, hend⟩ := Dev.thermLow_facts d k t
  obtain ⟨hh, hskillet⟩ := (hend hcool).1 hwas
  rw [Dev.thermOne_below hk d t (by omega), Dev.setSense_sense, hsense]
  exact ⟨hh, hskillet⟩

theorem Dev.thermOne_critical (hhot : 1100 ≤ t) (hnew : k ∉ d.sense.critical) :
    bit (d.thermOne (.skillet k) t).mod.alert 2 = true ∧ k ∈ (d.thermOne (.skillet k) t).sense.critical := by
  obtain ⟨w, h, hsense, -⟩ := Dev.thermLow_facts d k t
  rw [Dev.thermOne_skillet hk]
  generalize (d.thermWarn (.skillet k) t).thermThrottle (.skillet k) t = D at hsense
  have hnew' : D.sense.critical.contains k = false := by
    rw [hsense]
    simpa using hnew
  rw [Dev.thermCritical_new hhot hnew']
  dsimp only [sensCode, Dev.thermFence, sensDie]
  rw [Dev.fenceDie, if_pos hk]
  obtain ⟨hkept, halert⟩ := Dev.fenced_fenceSkillet (((D.setSense { D.sense with critical := insertSorted k D.sense.critical }).raise
    { code := evThermalCritical, unit := sensUnit (.skillet k), cause := caFenced, payload := thermPayload k t }).alert 2) k 2
  refine ⟨halert (Dev.bit_alert _ _), ?_⟩
  obtain ⟨m, o, hshape, -⟩ := Dev.alert_shape ((D.setSense { D.sense with critical := insertSorted k D.sense.critical }).raise
    { code := evThermalCritical, unit := sensUnit (.skillet k), cause := caFenced, payload := thermPayload k t }) 2
  have hraise := Dev.reports_raise (D.setSense { D.sense with critical := insertSorted k D.sense.critical })
    { code := evThermalCritical, unit := sensUnit (.skillet k), cause := caFenced, payload := thermPayload k t }
    (sensUnit (.skillet k))
  rw [hkept, hshape]
  show k ∈ (Dev.raise _ _ _).sense.critical
  rw [hraise.sense]
  exact (mem_insertSorted _ _ _).mpr (.inl rfl)

end

theorem Dev.thermOne_stack {k : Nat} (hk : k < 16) (d : Dev) {t : Int} (h : t < 1000) :
    (d.thermOne (.stack k) t).stack k = { d.stack k with
      temp := t, hot := if 850 < t then true else if t ≤ 830 then false else (d.stack k).hot } := by
  have hdram : (d.thermOne (.stack k) t).dram = (d.thermRefresh (.stack k) t).dram := by
    obtain ⟨w, -, -, hwarn, -⟩ := Dev.thermWarn_facts (d.thermRefresh (.stack k) t) (.stack k) t
    unfold Dev.thermOne
    rw [if_pos (by simpa [sensOk] using hk), Dev.thermCritical_below _ _ _ h, Dev.setSense_dram, Dev.thermThrottle_stack, hwarn]
  rw [Dev.stack, hdram]
  exact kget_kset_self _ _ _ _

/-- Settles O30: each row by its case, energy by `Dev.addPower_facts`, heat by what each limit of a sensor does. -/
theorem sensingAndHeat : Obligations.SensingAndHeat := by
  unfold Obligations.SensingAndHeat
  refine ⟨fun s e m v i k gains o => ⟨fun hagree hseen => ?calibrated, fun hfrozen => ?frozen, fun hagree hseen hfar => ?far,
      fun hnear => ?near, fun hdis hback => ?back, ?sample, ?timeout, fun hk hseen => ?trivet, fun hout => ?outside,
      fun hlow hhigh => ?inside⟩,
    fun s k c a b hk => ⟨fun hcool hw ht hc => ?cool, fun hlow hhigh => ?hot, fun hwas hcool => ?ended, fun hlow hhigh => ?stackHot,
      fun hcool => ?stackCool, fun hhot hnew => ?critical, ?coolant, fun hrise => ?rise, fun hno => ?noRise⟩⟩
  case calibrated =>
    refine ⟨_, exec_calibration gains o s, ?_⟩
    rw [State.onDev_dev, Dev.calibrate_runs hagree hseen]
    refine ⟨rfl, fun n hn hlow hhigh => ?_⟩
    have hclamp : max 800 (min 1250 (gains.getD n 1000)) = gains.getD n 1000 := by omega
    simp [List.getD_eq_getElem?_getD, hn] at hclamp ⊢
    rw [hclamp]
  case frozen =>
    rw [exec_calibration]
    exact State.next_same (Dev.calibrate_frozen hfrozen gains o)
  case far => exact ⟨_, exec_disagreeTimeout e m s, Dev.disagree_noted hagree hseen hfar⟩
  case near =>
    rw [exec_disagreeTimeout]
    exact State.next_same (Dev.disagree_close hnear s.dev)
  case back => exact ⟨_, exec_agreeTimeout e m s, Dev.agree_noted hdis hback⟩
  case sample => exact ⟨_, exec_inputSample v i s, Dev.inputSample_facts s.dev v i⟩
  case timeout => exact ⟨_, exec_inputSenseTimeout e s, Dev.senseTimeout_facts s.dev e⟩
  case trivet => exact ⟨_, exec_trivetTelemetryTimeout k s, Dev.trivetTimeout_noted hk hseen⟩
  case outside =>
    refine ⟨_, exec_inputOutOfRange v s, ?_⟩
    rw [State.onDev_dev, if_pos hout]
    exact Dev.bit_alert _ _
  case inside =>
    rw [exec_inputOutOfRange]
    exact State.next_same (if_neg (by omega))
  case cool => exact ⟨_, exec_thermalSample (.skillet k) c s, Dev.thermOne_cool hk s.dev c hcool hw ht hc⟩
  case hot =>
    obtain ⟨hthrottled, hwarned, hskillet⟩ := Dev.thermOne_hot hk s.dev c hlow hhigh
    refine ⟨_, exec_thermalSample (.skillet k) c s, hthrottled, hwarned, fun hfast => ?_, fun hslow => ?_⟩
    · rw [State.onDev_dev, hskillet, Skillet.cool, if_pos hfast]
      exact ⟨rfl, rfl⟩
    · rw [State.onDev_dev, hskillet, Skillet.cool, if_neg (by omega)]
      exact ⟨rfl, rfl⟩
  case ended =>
    obtain ⟨hgone, hskillet⟩ := Dev.thermOne_over hk s.dev c hwas hcool
    refine ⟨_, exec_thermalSample (.skillet k) c s, hgone, ?_⟩
    rw [State.onDev_dev, hskillet]
    exact ⟨rfl, rfl⟩
  case stackHot =>
    refine ⟨_, exec_thermalSample (.stack k) c s, ?_⟩
    rw [State.onDev_dev, Dev.thermOne_stack hk _ hhigh]
    exact if_pos hlow
  case stackCool =>
    refine ⟨_, exec_thermalSample (.stack k) c s, ?_⟩
    rw [State.onDev_dev, Dev.thermOne_stack hk _ (by omega)]
    exact (if_neg (by omega)).trans (if_pos hcool)
  case critical => exact ⟨_, exec_thermalSample (.skillet k) c s, Dev.thermOne_critical hk s.dev c hhot hnew⟩
  case coolant => exact ⟨_, exec_coolantSample a b s, rfl⟩
  case rise =>
    refine ⟨_, exec_coolantRise s, ?_⟩
    rw [State.onDev_dev, if_pos hrise]
    exact Dev.bit_alert _ _
  case noRise =>
    rw [exec_coolantRise]
    exact State.next_same (if_neg (by omega))

end Sys2Proof.Machine
end

section
/-!
PROOF. How PART_CREATE answers (R330, R331, R357).
-/

namespace Sys2Proof.Machine

theorem exec_partCreate (r : CmdRef) (spec : HostRead) (s : State) :
    exec (.partCreate r spec) s = .next (s.onDev (fun d => d.partCreate r spec)) := rfl

/-- A command whose host read fails ends with HOST_ACCESS. -/
theorem Dev.ended_hostAccess {d : Dev} {r : CmdRef} {c : Cmd} (h : d.cmd r = some c) (hm : c.marks = {}) :
    ((d.mark r (.fail stHostAccess)).finish r stSuccess).Ended r stHostAccess 0 0 0 := by
  have hmark := Dev.cmd_mark d h (.fail stHostAccess)
  rw [hm, Marks.join_nil] at hmark
  exact ⟨_, Dev.cmd_finish _ hmark stSuccess 0 0 0 [], rfl, rfl, rfl, rfl, rfl⟩

/-- Noting a mark and ending a command change nothing but the pairs. -/
theorem Dev.mark_finish_shape (d : Dev) (r : CmdRef) (m : Marks) (st : Nat) :
    ∃ x, (d.mark r m).finish r st = d.setQps x := by
  obtain ⟨x, hx⟩ := Dev.modCmd_shape d r (fun c => { c with marks := c.marks.join m })
  obtain ⟨y, hy⟩ := Dev.finish_shape (d.mark r m) r st 0 0 0 []
  refine ⟨y, hy.trans ?_⟩
  rw [Dev.mark, hx]
  rfl

theorem Dev.admitFails_status {d : Dev} {x : PartSpec} {st : Nat} (h : d.admitFails x = some st) : st = stCoreBusy := by
  rcases ite_eq_or h with ⟨-, h⟩ | ⟨-, h⟩
  · exact (Option.some.inj h).symm
  · cases h

theorem Dev.admitFails2_status {d : Dev} {p : Nat} {x : PartSpec} {st : Nat} (h : d.admitFails2 p x = some st) :
    st ≠ stPoisoned := by
  rcases ite_eq_or h with ⟨-, h⟩ | ⟨-, h⟩
  · cases h; decide
  rcases ite_eq_or h with ⟨-, h⟩ | ⟨-, h⟩
  · cases h; decide
  rcases ite_eq_or h with ⟨-, h⟩ | ⟨-, h⟩
  · cases h; decide
  rcases ite_eq_or h with ⟨-, h⟩ | ⟨-, h⟩
  · cases h; decide
  · cases h

/-- An admission fails with a status of its own, never POISONED (R331). -/
theorem Dev.admitPart_status {d : Dev} {p : Nat} {b : Bytes} {job st : Nat} (h : d.admitPart p b job = .inr st) :
    st ≠ stPoisoned := by
  unfold Dev.admitPart at h
  dsimp only at h
  rcases ite_eq_or h with ⟨-, h⟩ | ⟨-, h⟩
  · cases h; decide
  split at h
  next hfails =>
    cases h
    rw [Dev.admitFails_status hfails]
    decide
  split at h
  · cases h; decide
  split at h
  · cases h; decide
  split at h
  · cases h; decide
  split at h
  next hfails =>
    cases h
    exact Dev.admitFails2_status hfails
  rcases ite_eq_or h with ⟨-, h⟩ | ⟨-, h⟩
  · cases h; decide
  · cases h

theorem Dev.admitPart_badSpec (d : Dev) (p : Nat) {b : Bytes} (job : Nat) (h : specOk b = false) :
    d.admitPart p b job = .inr stInvalidField := by
  unfold Dev.admitPart
  dsimp only
  rw [if_pos (by rw [h]; rfl)]

theorem Dev.admitPart_coreBusy {d : Dev} (p : Nat) {b : Bytes} (job : Nat) (hspec : specOk b = true)
    (h : ∃ g ∈ setBits 128 (field b 0 16), (d.core g).retired = true ∨ bit d.regs.drain (g / 8) = true ∨
      ∃ e ∈ d.parts, g ∈ e.2.cores) : d.admitPart p b job = .inr stCoreBusy := by
  have hfails : d.admitFails (parseSpec b) = some stCoreBusy := by
    refine if_pos (List.any_eq_true.mpr ?_)
    obtain ⟨g, hg, hbad⟩ := h
    refine ⟨g, hg, ?_⟩
    simpa [Dev.draining, or_assoc] using hbad
  unfold Dev.admitPart
  dsimp only
  rw [if_neg (by rw [hspec]; decide), hfails]

theorem Dev.findRecords_free {d : Dev} {n lo : Nat} (h : d.findRecords n = some lo) :
    lo + n ≤ 2 ^ 20 ∧ ∀ e ∈ d.parts, lo + n ≤ e.2.recBase ∨ e.2.recBase + e.2.recCount ≤ lo := by
  have hfree := List.find?_some h
  simpa using hfree

section
variable {d : Dev} {r : CmdRef} {c : Cmd} (hc : d.Ready r 0x04 c)
include hc

theorem Dev.partCreate_taken (spec : HostRead)
    (h : byteAt c.desc 8 = 0 ∨ 16 < byteAt c.desc 8 ∨ (d.part (byteAt c.desc 8)).isSome = true) :
    d.partCreate r spec = d.finish r stInvalidField := by
  unfold Dev.partCreate
  rw [Dev.withCmd_of hc]
  exact if_pos (.inr h)

variable (hhdr : hdrOk c.desc 0 [(8, 1), (0x10, 8)] = true) (hlow : 1 ≤ byteAt c.desc 8) (hhigh : byteAt c.desc 8 ≤ 16)
  (hnone : d.part (byteAt c.desc 8) = none)
include hhdr hlow hhigh hnone

omit hc in
theorem Dev.partCreate_passes : ¬ (!hdrOk c.desc 0 [(8, 1), (0x10, 8)] ∨ byteAt c.desc 8 = 0 ∨ 16 < byteAt c.desc 8 ∨
    (d.part (byteAt c.desc 8)).isSome) := by
  simp [hhdr, hnone]
  omega

theorem Dev.partCreate_failed : d.partCreate r .failed = (d.mark r (.fail stHostAccess)).finish r stSuccess := by
  unfold Dev.partCreate
  rw [Dev.withCmd_of hc]
  exact if_neg (Dev.partCreate_passes hhdr hlow hhigh hnone)

theorem Dev.partCreate_refuses {b : Bytes} {st : Nat} (h : d.admitPart (byteAt c.desc 8) (padTo 512 b) 0 = .inr st) :
    d.partCreate r (.ok b) = d.finish r st := by
  unfold Dev.partCreate
  rw [Dev.withCmd_of hc]
  refine (if_neg (Dev.partCreate_passes hhdr hlow hhigh hnone)).trans ?_
  dsimp only [Dev.withHost]
  rw [h]

theorem Dev.partCreate_admits {b : Bytes} {e : Dev} (h : d.admitPart (byteAt c.desc 8) (padTo 512 b) 0 = .inl e) :
    d.partCreate r (.ok b) = e.finish r stSuccess 0 (byteAt c.desc 8) := by
  unfold Dev.partCreate
  rw [Dev.withCmd_of hc]
  refine (if_neg (Dev.partCreate_passes hhdr hlow hhigh hnone)).trans ?_
  dsimp only [Dev.withHost]
  rw [h]

end

/-- Settles O31: the failures by `Dev.admitPart_status`, the admission by what `Dev.admitPart_ok` says of the new partition. -/
theorem partitionAdmission : Obligations.PartitionAdmission := by
  unfold Obligations.PartitionAdmission
  intro s r c p b hc hhdr hp
  subst hp
  have hcmd := Dev.ready_cmd hc
  have hmarks := Dev.ready_marks hc
  refine ⟨fun htaken => ?taken, fun hlow hhigh hnone => ⟨?failed, fun hspec => ?spec, fun hspec hbusy => ?busy,
    fun st hst => ?refused, fun d hd => ?admitted⟩⟩
  case taken =>
    refine ⟨_, exec_partCreate r _ s, ?_⟩
    rw [State.onDev_dev, Dev.partCreate_taken hc _ htaken]
    exact Dev.ended_finish _ hcmd hmarks (by decide) 0 0 0 []
  case failed =>
    obtain ⟨x, hx⟩ := Dev.mark_finish_shape s.dev r (.fail stHostAccess) stSuccess
    refine ⟨_, exec_partCreate r _ s, ?_⟩
    rw [State.onDev_dev, Dev.partCreate_failed hc hhdr hlow hhigh hnone]
    exact ⟨Dev.ended_hostAccess hcmd hmarks, by rw [hx]; rfl⟩
  case spec =>
    refine ⟨_, exec_partCreate r _ s, ?_⟩
    rw [State.onDev_dev, Dev.partCreate_refuses hc hhdr hlow hhigh hnone (Dev.admitPart_badSpec _ _ _ hspec)]
    exact Dev.ended_finish _ hcmd hmarks (by decide) 0 0 0 []
  case busy =>
    obtain ⟨x, hx⟩ := Dev.finish_shape s.dev r stCoreBusy 0 0 0 []
    refine ⟨_, exec_partCreate r _ s, ?_⟩
    rw [State.onDev_dev, Dev.partCreate_refuses hc hhdr hlow hhigh hnone (Dev.admitPart_coreBusy _ _ hspec hbusy)]
    exact ⟨Dev.ended_finish _ hcmd hmarks (by decide) 0 0 0 [], by rw [hx]; rfl⟩
  case refused =>
    obtain ⟨x, hx⟩ := Dev.finish_shape s.dev r st 0 0 0 []
    refine ⟨_, exec_partCreate r _ s, ?_⟩
    rw [State.onDev_dev, Dev.partCreate_refuses hc hhdr hlow hhigh hnone hst]
    exact ⟨Dev.ended_finish _ hcmd hmarks (Dev.admitPart_status hst) 0 0 0 [], by rw [hx]; rfl, by rw [hx]; rfl, by rw [hx]; rfl⟩
  case admitted =>
    obtain ⟨y, hparts, hqps, hmem, hcores, hrecs, hquota, hpairs, hsus, hreclaim, hprogs, -, hfound⟩ := Dev.admitPart_ok hd
    obtain ⟨x, hx⟩ := Dev.finish_shape d r stSuccess 0 (byteAt c.desc 8) 0 []
    obtain ⟨hroom, hapart⟩ := Dev.findRecords_free hfound
    have hcmd' : d.cmd r = some c := (Dev.cmd_congr (by rw [Dev.qp, hqps]; rfl)).trans hcmd
    have hpart (q : Nat) : (d.finish r stSuccess 0 (byteAt c.desc 8)).part q = kfind (kset s.dev.parts (byteAt c.desc 8) y) q := by
      rw [hx, ← hparts]
      rfl
    refine ⟨_, y, exec_partCreate r _ s, ?_⟩
    rw [State.onDev_dev, Dev.partCreate_admits hc hhdr hlow hhigh hnone hd]
    refine ⟨Dev.ended_finish _ hcmd' hmarks (by decide) 0 _ 0 [], ?_, hcores, hrecs, hquota, hpairs, hsus, hreclaim, hprogs, ?_,
      fun e he => ?_, fun q hq => ?_, ?_⟩
    · rw [hpart, kfind_kset_self]
    · rw [hrecs]; exact hroom
    · rw [hrecs]; exact hapart e he
    · rw [hpart, kfind_kset_ne hq]; rfl
    · rw [hx]; exact hmem

end Sys2Proof.Machine
end

section
/-!
PROOF. PART_SUSPEND and PART_RESUME (R332, R333).
-/

namespace Sys2Proof.Machine

theorem exec_partSuspend (r : CmdRef) (s : State) : exec (.partSuspend r) s = .next (s.onDev (fun d => d.partSuspend r)) := rfl

theorem exec_partResume (r : CmdRef) (saved : HostRead) (s : State) :
    exec (.partResume r saved) s = .next (s.onDev (fun d => d.partResume r saved)) := rfl

theorem Dev.channelsHalted_none {d : Dev} {f : Nat} (h : d.channelsOf f = []) : d.channelsHalted f = true := by
  rw [Dev.channelsHalted, h]
  rfl

theorem Dev.freeChannels_none {d : Dev} {f : Nat} (h : d.channelsOf f = []) : d.freeChannels f = d := by
  rw [Dev.freeChannels, h]
  rfl

/-- A command of an administrative opcode stands in the pair of the physical function, which no partition's pairs share. -/
theorem Dev.admin_key {d : Dev} {r : CmdRef} {op : Nat} {c : Cmd} (h : d.Ready r op c) (hlow : 4 ≤ op) (hhigh : op ≤ 7) :
    qpKey r.f r.q = 0 := by
  obtain ⟨hq, hf⟩ := Dev.pf_admin h hlow hhigh
  rw [hq, hf]
  rfl

/-- The device once a suspension has begun: nothing of the partition starts, what has not started is held. -/
def Dev.suspending (d : Dev) (p : Nat) (x : Part) : Dev := (d.putPart p { x with suspended := true }).modPairs p Qp.hold

section
variable {d : Dev} {r : CmdRef} {c : Cmd} {x : Part} (hc : d.Ready r 0x05 c)
  (hhdr : hdrOk c.desc 0 [(8, 1), (0x10, 8)] = true) (hlow : 1 ≤ byteAt c.desc 8) (hhigh : byteAt c.desc 8 ≤ 16)

include hc hhdr hlow hhigh in
theorem Dev.partSuspend_refused (h : d.part (byteAt c.desc 8) = none ∨
    (d.part (byteAt c.desc 8) = some x ∧ x.reclaim ≠ .none)) : d.partSuspend r = d.finish r stNoPartition := by
  unfold Dev.partSuspend
  rw [Dev.runningCmd_of_ready hc]
  dsimp only
  rw [Dev.withCmd_of hc]
  refine (if_neg (by simp [hhdr]; omega)).trans ?_
  rcases h with hnone | ⟨hx, hreclaim⟩
  · rw [hnone]
  · rw [hx]
    exact if_pos hreclaim

variable (hx : d.part (byteAt c.desc 8) = some x) (hreclaim : x.reclaim = .none)
  (hchannels : d.channelsOf (byteAt c.desc 8) = []) (hretire : ∀ e ∈ d.ctxs, e.2.retire = false)

include hc hhdr hlow hhigh hx hreclaim hchannels hretire in
theorem Dev.partSuspend_begins : d.partSuspend r =
    if (d.suspending (byteAt c.desc 8) x).still (byteAt c.desc 8) then
      (d.suspending (byteAt c.desc 8) x).suspendEnd r (byteAt c.desc 8) (c.f 0x10 8)
    else (d.suspending (byteAt c.desc 8) x).modCmd r (fun c => { c with phase := .running }) := by
  have hheld : ((d.suspending (byteAt c.desc 8) x).holdChannels (byteAt c.desc 8)).freeStuck (byteAt c.desc 8) =
      d.suspending (byteAt c.desc 8) x := by
    rw [Dev.holdChannels_none (d.suspending _ x) _ hchannels, Dev.freeStuck_none (d.suspending _ x) _ hretire]
  rw [← hheld]
  unfold Dev.partSuspend
  rw [Dev.runningCmd_of_ready hc]
  dsimp only
  rw [Dev.withCmd_of hc]
  refine (if_neg (by simp [hhdr]; omega)).trans ?_
  rw [hx]
  exact if_neg (not_not_intro hreclaim)

include hchannels in
theorem Dev.suspending_still (hruns : d.runsOf (byteAt c.desc 8) = false)
    (hempty : ∀ e ∈ d.qps, e.1 / 128 = byteAt c.desc 8 → e.2.cmds = []) :
    (d.suspending (byteAt c.desc 8) x).still (byteAt c.desc 8) = true := by
  have hhalted : (d.suspending (byteAt c.desc 8) x).channelsHalted (byteAt c.desc 8) = true :=
    Dev.channelsHalted_none hchannels
  have hruns' : (d.suspending (byteAt c.desc 8) x).runsOf (byteAt c.desc 8) = false := hruns
  have hbusy : (d.suspending (byteAt c.desc 8) x).busyPairs (byteAt c.desc 8) = false := by
    refine List.any_eq_false.mpr fun e he => ?_
    obtain ⟨e', he', rfl⟩ := List.mem_map.mp he
    by_cases hmine : e'.1 / 128 = byteAt c.desc 8
    · simp [hmine, Qp.hold, hempty e' he' hmine]
    · simp [hmine]
  rw [Dev.still, hruns', hbusy, hhalted]
  rfl

theorem Dev.suspending_moving (hruns : d.runsOf (byteAt c.desc 8) = true) :
    (d.suspending (byteAt c.desc 8) x).still (byteAt c.desc 8) = false := by
  have hruns' : (d.suspending (byteAt c.desc 8) x).runsOf (byteAt c.desc 8) = true := hruns
  rw [Dev.still, hruns']
  rfl

include hc hlow in
theorem Dev.suspending_cmd : (d.suspending (byteAt c.desc 8) x).cmd r = some c := by
  have hkey := Dev.admin_key hc (by omega) (by omega)
  rw [Dev.suspending, Dev.cmd_modPairs_ne _ _ _ _ (by rw [hkey]; omega)]
  exact (Dev.cmd_putPart d _ _ r).trans (Dev.ready_cmd hc)

theorem Dev.suspending_part : (d.suspending (byteAt c.desc 8) x).part (byteAt c.desc 8) = some { x with suspended := true } :=
  Dev.part_putPart d _ _

end

/-- The end of a suspension: success, and no context of the partition is resident. -/
theorem Dev.suspendEnd_facts {d : Dev} {r : CmdRef} {c : Cmd} {p : Nat} {x : Part} (hc : d.cmd r = some c)
    (hm : c.marks = {}) (hx : d.part p = some x) (addr : Nat) : (d.suspendEnd r p addr).Ended r stSuccess 0 0 0 ∧
    (∃ y, (d.suspendEnd r p addr).part p = some y ∧ y.suspended = x.suspended) ∧
    ∀ i, x.recBase ≤ i → i < x.recBase + x.recCount → ((d.suspendEnd r p addr).ctx i).resident = false := by
  obtain ⟨hctxs, hcmds, y, hy, hsus⟩ := Dev.parkAll_facts d p x hx
  unfold Dev.suspendEnd
  dsimp only
  obtain ⟨o, ho⟩ := Dev.emits_shape (fun e : Nat × Qp => .hostWrite (addr + 16 * e.1) e.2.saved) ((d.parkAll p).pairsOf p) (d.parkAll p)
  rw [ho]
  have hcmd : ({ d.parkAll p with out := o } : Dev).cmd r = some c := (hcmds r).trans hc
  obtain ⟨q, hq⟩ := Dev.finish_shape { d.parkAll p with out := o } r stSuccess 0 0 0 []
  refine ⟨Dev.ended_finish _ hcmd hm (by decide) 0 0 0 [], ⟨y, ?_, hsus⟩, fun i hlow hhigh => ?_⟩
  · rw [hq]; exact hy
  · rw [hq]; exact hctxs i hlow hhigh

section
variable {d : Dev} {r : CmdRef} {c : Cmd} (hc : d.Ready r 0x06 c)
  (hhdr : hdrOk c.desc 0 [(8, 1), (0x10, 8)] = true) (hlow : 1 ≤ byteAt c.desc 8) (hhigh : byteAt c.desc 8 ≤ 16)
include hc hhdr hlow hhigh

theorem Dev.partResume_noPart (saved : HostRead) (hnone : d.part (byteAt c.desc 8) = none) :
    d.partResume r saved = d.finish r stNoPartition := by
  unfold Dev.partResume
  rw [Dev.withCmd_of hc]
  refine (if_neg (by simp [hhdr]; omega)).trans ?_
  rw [hnone]

theorem Dev.partResume_empty {x : Part} (b : Bytes) (hx : d.part (byteAt c.desc 8) = some x) (hreclaim : x.reclaim = .none)
    (hsus : x.suspended = true) (hchannels : d.channelsOf (byteAt c.desc 8) = []) (hpairs : d.pairsOf (byteAt c.desc 8) = []) :
    d.partResume r (.ok b) = (d.putPart (byteAt c.desc 8) { x with suspended := false }).finish r stSuccess := by
  have hpairs' : (d.putPart (byteAt c.desc 8) { x with suspended := false }).pairsOf (byteAt c.desc 8) = [] := hpairs
  have hchannels' : (d.putPart (byteAt c.desc 8) { x with suspended := false }).channelsOf (byteAt c.desc 8) = [] := hchannels
  unfold Dev.partResume
  rw [Dev.withCmd_of hc]
  refine (if_neg (by simp [hhdr]; omega)).trans ?_
  rw [hx]
  refine (if_neg (not_not_intro hreclaim)).trans ((if_neg (by rw [hsus]; decide)).trans ?_)
  dsimp only [Dev.withHost]
  rw [hpairs', List.foldl_nil, Dev.freeChannels_none hchannels']

end

/-- Settles O32: the refusals by case, the suspension by `Dev.suspendEnd_facts` where all stands still. -/
theorem partitionSuspends : Obligations.PartitionSuspends := by
  unfold Obligations.PartitionSuspends
  intro s r c p b x hhdr hp hlow hhigh
  subst hp
  refine ⟨fun hc hnot => ?refused, fun hc hx hreclaim hchannels hretire => ⟨fun hruns hempty => ?still, fun hruns => ?moving⟩,
    fun hc hnone => ?noPart, fun hc hx hreclaim hsus hchannels hpairs => ?resumed⟩
  case refused =>
    refine ⟨_, exec_partSuspend r s, ?_⟩
    rw [State.onDev_dev, Dev.partSuspend_refused hc hhdr hlow hhigh hnot]
    exact Dev.ended_finish _ (Dev.ready_cmd hc) (Dev.ready_marks hc) (by decide) 0 0 0 []
  case still =>
    obtain ⟨hended, ⟨y, hy, hysus⟩, hctxs⟩ := Dev.suspendEnd_facts (Dev.suspending_cmd hc hlow (x := x)) (Dev.ready_marks hc)
      Dev.suspending_part (c.f 0x10 8)
    refine ⟨_, y, exec_partSuspend r s, ?_⟩
    rw [State.onDev_dev, Dev.partSuspend_begins hc hhdr hlow hhigh hx hreclaim hchannels hretire,
      if_pos (Dev.suspending_still hchannels hruns hempty)]
    exact ⟨hended, hy, hysus, hctxs⟩
  case moving =>
    refine ⟨_, { x with suspended := true }, { c with phase := .running }, exec_partSuspend r s, ?_⟩
    rw [State.onDev_dev, Dev.partSuspend_begins hc hhdr hlow hhigh hx hreclaim hchannels hretire,
      if_neg (by rw [Dev.suspending_moving hruns]; decide)]
    refine ⟨?_, rfl, ?_, rfl, fun q z hq hz => ?_⟩
    · rw [Dev.cmd_modCmd _ _ (by intro c; rfl), Dev.suspending_cmd hc hlow]
      rfl
    · rw [Dev.part_modCmd]
      exact Dev.suspending_part
    · have hkey := Dev.admin_key hc (by omega) (by omega)
      have hmine : qpKey (byteAt c.desc 8) q / 128 = byteAt c.desc 8 := by unfold qpKey; omega
      rw [Dev.qps_modCmd_ne _ _ (by rw [hkey]; unfold qpKey; omega), Dev.suspending, Dev.qp_modPairs]
      show (s.dev.qp (byteAt c.desc 8) q).map _ = _
      rw [hz, Option.map_some, if_pos hmine]
  case noPart =>
    refine ⟨_, exec_partResume r _ s, ?_⟩
    rw [State.onDev_dev, Dev.partResume_noPart hc hhdr hlow hhigh _ hnone]
    exact Dev.ended_finish _ (Dev.ready_cmd hc) (Dev.ready_marks hc) (by decide) 0 0 0 []
  case resumed =>
    obtain ⟨q, hq⟩ := Dev.finish_shape (s.dev.putPart (byteAt c.desc 8) { x with suspended := false }) r stSuccess 0 0 0 []
    refine ⟨_, exec_partResume r _ s, ?_⟩
    rw [State.onDev_dev, Dev.partResume_empty hc hhdr hlow hhigh b hx hreclaim hsus hchannels hpairs]
    have hcmd : (s.dev.putPart (byteAt c.desc 8) { x with suspended := false }).cmd r = some c :=
      (Dev.cmd_putPart s.dev _ _ r).trans (Dev.ready_cmd hc)
    refine ⟨Dev.ended_finish _ hcmd (Dev.ready_marks hc) (by decide) 0 0 0 [], ?_⟩
    rw [hq]
    exact Dev.part_putPart _ _ _

end Sys2Proof.Machine
end

section
/-!
PROOF. The stages of a reclaim (R334, R337, R389, R514).
-/

namespace Sys2Proof.Machine

theorem exec_partReclaim (r : CmdRef) (s : State) : exec (.partReclaim r) s = .next (s.onDev (fun d => d.partReclaim r)) := rfl

theorem exec_scrub (p : Nat) (s : State) : exec (.scrub p) s = .next (s.onDev (fun d => d.scrub p)) := rfl

theorem exec_reCarve (p : Nat) (s : State) : exec (.reCarve p) s = .next (s.onDev (fun d => d.reCarve p)) := rfl

theorem exec_handOver (p : Nat) (s : State) : exec (.handOver p) s = .next (s.onDev (fun d => d.handOver p)) := rfl

/-! Quiesce. -/

/-- The device once a reclaim has begun, where no channel moves and no context waits for its retire. -/
def Dev.quiescing (d : Dev) (p : Nat) (x : Part) (r : CmdRef) (q : Nat) : Dev :=
  ((d.closeWindows p).putPart p { x with reclaim := .quiesce, reclaimBy := some r, recipient := q }).modPairs p
    (fun z => z.abortWaiting.1)

theorem Dev.quiesce_eq {d : Dev} {p : Nat} {x : Part} (hx : d.part p = some x) (hchannels : d.channelsOf p = [])
    (hretire : ∀ e ∈ d.ctxs, e.2.retire = false) (r : CmdRef) (q : Nat) :
    d.quiesce p (some r) q = d.quiescing p x r q := by
  have hmod : (d.closeWindows p).modPart p (fun x => { x with reclaim := .quiesce, reclaimBy := some r, recipient := q }) =
      (d.closeWindows p).putPart p { x with reclaim := .quiesce, reclaimBy := some r, recipient := q } :=
    Dev.modPart_some (d.closeWindows p) hx _
  unfold Dev.quiesce
  dsimp only
  rw [hmod]
  exact (congrArg (Dev.freeStuck · p) (Dev.holdChannels_none (d.quiescing p x r q) p hchannels)).trans
    (Dev.freeStuck_none (d.quiescing p x r q) p hretire)

section
variable {d : Dev} {r : CmdRef} {c : Cmd} {x : Part} (hc : d.Ready r 0x07 c) (hhdr : hdrOk c.desc 0 [(8, 2)] = true)
  (hlow : 1 ≤ byteAt c.desc 8) (hhigh : byteAt c.desc 8 ≤ 16) (hq : byteAt c.desc 9 ≤ 16)
include hc

theorem Dev.partReclaim_itself (hself : byteAt c.desc 9 = byteAt c.desc 8) : d.partReclaim r = d.finish r stInvalidField := by
  unfold Dev.partReclaim
  rw [Dev.withCmd_of hc]
  exact if_pos (.inr (.inr (.inr (.inr hself))))

variable (hx : d.part (byteAt c.desc 8) = some x) (hne : byteAt c.desc 9 ≠ byteAt c.desc 8)
include hhdr hlow hhigh hq hx hne

theorem Dev.partReclaim_refused (h : x.reclaim ≠ .none ∨ (byteAt c.desc 9 ≠ 0 ∧ d.part (byteAt c.desc 9) = none)) :
    d.partReclaim r = d.finish r stNoPartition := by
  unfold Dev.partReclaim
  rw [Dev.withCmd_of hc]
  refine (if_neg (by simp [hhdr]; omega)).trans ?_
  rw [hx]
  exact if_pos (by simpa using h)

theorem Dev.partReclaim_begins (hreclaim : x.reclaim = .none)
    (hrecipient : byteAt c.desc 9 = 0 ∨ (d.part (byteAt c.desc 9)).isSome = true)
    (hchannels : d.channelsOf (byteAt c.desc 8) = []) (hretire : ∀ e ∈ d.ctxs, e.2.retire = false) :
    d.partReclaim r =
      (d.quiescing (byteAt c.desc 8) x r (byteAt c.desc 9)).modCmd r (fun c => { c with phase := .running }) := by
  rw [← Dev.quiesce_eq hx hchannels hretire]
  unfold Dev.partReclaim
  rw [Dev.withCmd_of hc]
  refine (if_neg (by simp [hhdr]; omega)).trans ?_
  rw [hx]
  refine if_neg ?_
  rintro (h | ⟨hsome, hnone⟩)
  · exact h hreclaim
  · rcases hrecipient with h | h
    · exact hsome h
    · rw [Option.isNone_iff_eq_none] at hnone
      rw [hnone] at h
      cases h

end

/-! Scrub. -/

theorem Dev.scrub_waits {d : Dev} {p : Nat} {x : Part} (hx : d.part p = some x)
    (h : x.reclaim ≠ .quiesce ∨ d.quiet p x = false) : d.scrub p = d := by
  unfold Dev.scrub
  rw [hx]
  exact if_pos (by simpa using h)

/-- The device with the regions of a partition cleared. -/
def Dev.scrubRegions (d : Dev) (p : Nat) : Dev :=
  (d.regions.filter (fun e => e.2.part == p)).foldl (fun d e => d.fillRegion e.2) d

theorem Dev.scrub_runs {d : Dev} {p : Nat} {x : Part} (hx : d.part p = some x) (hquiesce : x.reclaim = .quiesce)
    (hquiet : d.quiet p x = true) : d.scrub p = (((d.scrubRegions p).clearPots x).clearMcast p).putPart p
      { x with reclaim := .scrubbed, tier := x.tier.freed } := by
  unfold Dev.scrub
  rw [hx]
  exact if_neg (by simp [hquiesce, hquiet])

/-- Every byte of a region of the partition reads as after a reset (R334); a lost stack is left out (R337). -/
theorem Dev.scrub_mem {d : Dev} {p n : Nat} (x : Part) {g : Region} (hg : (n, g) ∈ d.regions) (hpart : g.part = p) {k i : Nat}
    (hk : k ∈ setBits 16 g.mask) (hout : d.stackOut k = false) (hlow : g.rowBase * 2 ^ 22 ≤ i)
    (hhigh : i < (g.rowBase + g.size / ((setBits 16 g.mask).length * 2 ^ 22)) * 2 ^ 22) :
    mget (((d.scrubRegions p).clearPots x).clearMcast p).mem (k * 2 ^ 37 + i) = memDefault := by
  obtain ⟨-, -, -, hcleared⟩ := Dev.fillRegions_facts (d.regions.filter (fun e => e.2.part == p)) d
  rw [show (2 : Nat) ^ 22 = 4194304 by norm_num] at hlow hhigh
  exact Dev.clearPots_facts x x.pot (d.scrubRegions p) _
    (hcleared (n, g) (List.mem_filter.mpr ⟨hg, by simpa using hpart⟩) k hk hout i hlow hhigh)

/-! Re-carve. -/

theorem Dev.reCarve_waits {d : Dev} {p : Nat} {x : Part} (hx : d.part p = some x) (h : x.reclaim ≠ .scrubbed) :
    d.reCarve p = d := by
  unfold Dev.reCarve
  rw [hx]
  exact if_pos h

/-- A record once its partition is carved: free, with its generation. -/
def Part.carvedCtx (x : Part) (i : Nat) (y : Ctx) : Ctx :=
  if x.recBase ≤ i ∧ i < x.recBase + x.recCount then { gen := y.gen } else y

/-- The context table with the records of a partition free. -/
def Part.carvedCtxs (x : Part) (m : KMap Ctx) : KMap Ctx := m.map (fun e => (e.1, x.carvedCtx e.1 e.2))

theorem Part.carvedCtxs_eq (x : Part) (m : KMap Ctx) :
    m.map (fun e => if x.recBase ≤ e.1 ∧ e.1 < x.recBase + x.recCount then (e.1, { gen := e.2.gen }) else e) =
      x.carvedCtxs m := by
  refine List.map_congr_left fun e _ => ?_
  unfold Part.carvedCtx
  split <;> rfl

theorem Part.kget_carvedCtxs (x : Part) (m : KMap Ctx) (i : Nat) :
    kget (x.carvedCtxs m) i {} = x.carvedCtx i (kget m i {}) := by
  rw [kget, Part.carvedCtxs, kfind_map_val x.carvedCtx, kget]
  cases kfind m i with
  | some y => rfl
  | none => exact (ite_self _).symm

theorem Dev.reCarve_runs {d : Dev} {p : Nat} {x : Part} (hx : d.part p = some x) (hscrubbed : x.reclaim = .scrubbed)
    (hchannels : d.channelsOf p = []) : d.reCarve p =
      ((d.setCtxs (x.carvedCtxs d.ctxs)).modPairs p (fun q => { q with deferred := [] })).putPart p
        { x with reclaim := .carved, jsb := [], jsets := [], parked := [], starve := [], moves := [], batches := [],
                 hist := [], progs := [] } := by
  unfold Dev.reCarve
  rw [hx]
  refine (if_neg (not_not_intro hscrubbed)).trans ?_
  dsimp only
  rw [Part.carvedCtxs_eq, hchannels]
  rfl

/-! Hand-over. -/

theorem Dev.handOver_waits {d : Dev} {p : Nat} {x : Part} (hx : d.part p = some x) (h : x.reclaim ≠ .carved) :
    d.handOver p = d := by
  unfold Dev.handOver
  rw [hx]
  exact if_pos h

theorem Dev.cmd_giveNumbers (d : Dev) (p : Nat) (r : CmdRef) : (d.giveNumbers p).cmd r = d.cmd r := by
  have hpairs : (d.giveNumbers p).qp r.f r.q = (d.qp r.f r.q).map (fun x => if qpKey r.f r.q / 128 = p then
      { x with given := true } else x) := Dev.qp_modPairs d p (fun x => { x with given := true }) r.f r.q
  rw [Dev.cmd, hpairs, Dev.cmd]
  cases d.qp r.f r.q with
  | none => rfl
  | some x =>
    rw [Option.map_some]
    split <;> rfl

/-- What a hand-over keeps: the pairs but for their numbers, and the pod. -/
def Dev.HandedOver (d d' : Dev) (p : Nat) : Prop := d'.qps = (d.giveNumbers p).qps ∧ d'.fab = d.fab

/-- The hand-over ends the command of its reclaim. -/
theorem Dev.handOver_runs {d e : Dev} {p : Nat} {x : Part} {r : CmdRef} {c : Cmd} (hx : d.part p = some x)
    (hcarved : x.reclaim = .carved) (hby : x.reclaimBy = some r) (hc : d.cmd r = some c) (hm : c.marks = {})
    (hlocals : d.fab.pod.locals = []) (he : d.handResources p x = e) (hkept : d.HandedOver e p) :
    (d.handOver p).Ended r stSuccess 0 0 0 ∧ (d.handOver p).parts = e.parts ∧ (d.handOver p).regions = e.regions := by
  obtain ⟨hqps, hfab⟩ := hkept
  obtain ⟨q, hq⟩ := Dev.finish_shape e r stSuccess 0 0 0 []
  have hpod : (e.finish r stSuccess).fab.pod.locals = [] := by
    rw [hq]
    show e.fab.pod.locals = []
    rw [hfab, hlocals]
  have hcmd : e.cmd r = some c := by
    rw [Dev.cmd, Dev.qp, hqps]
    exact (Dev.cmd_giveNumbers d p r).trans hc
  have hrun : d.handOver p = (e.finish r stSuccess).setPod
      { (e.finish r stSuccess).fab.pod with locals := [] } := by
    unfold Dev.handOver
    rw [hx]
    refine (if_neg (not_not_intro hcarved)).trans ?_
    dsimp only
    rw [he, hby]
    dsimp only
    rw [hpod]
    rfl
  rw [hrun]
  exact ⟨Dev.ended_finish e hcmd hm (by decide) 0 0 0 [], by rw [hq]; rfl, by rw [hq]; rfl⟩

/-- What a partition holds goes back to the free pool. -/
theorem Dev.handResources_pool {d : Dev} {p : Nat} {x : Part} (h : d.heir x.recipient = false) :
    d.HandedOver (d.handResources p x) p ∧ (d.handResources p x).parts = kdel d.parts p ∧
    (d.handResources p x).regions = d.regions.filter (fun e => e.2.part != p) := by
  unfold Dev.handResources
  dsimp only
  rw [h]
  exact ⟨⟨rfl, rfl⟩, rfl, rfl⟩

/-- The recipient of a hand-over, with the cups, the cores and the stockpot shares that it is given. -/
def Dev.endowed (d : Dev) (x y : Part) : Part :=
  { y.addCups x with
    cores := (x.cores.filter (fun g => !d.draining (g / 8))).foldl (fun l g => insertSorted g l) y.cores
    pot := y.pot ++ x.pot.filter (fun e => !d.draining e.1) }

/-- The device of a hand-over once the regions have a new owner. -/
def Dev.regionsGiven (d : Dev) (p : Nat) (x : Part) : Dev :=
  ((d.giveNumbers p).setCrock { d.crock with
    free := d.crock.free ++ (x.tier.cframes.filter (fun f => !d.crock.bad.contains f)) }).giveRegions p x.recipient

theorem Dev.handResources_gives {d : Dev} {p : Nat} {x w : Part} (h : d.heir x.recipient = true)
    (hw : (d.regionsGiven p x).part x.recipient = some w) : ∃ c o, d.handResources p x =
      { d.regionsGiven p x with
        parts := kdel (kset (d.regionsGiven p x).parts x.recipient (d.endowed x w)) p, cnt := c, ovf := o } := by
  obtain ⟨c, o, hzero⟩ := Dev.zeroUnits_shape (x.cores.filter (fun g => !d.draining (g / 8)))
    ((d.regionsGiven p x).putPart x.recipient (d.endowed x w))
  refine ⟨c, o, ?_⟩
  have hmod : (d.regionsGiven p x).modPart x.recipient (d.endowed x) =
      (d.regionsGiven p x).putPart x.recipient (d.endowed x w) := Dev.modPart_some _ hw _
  rw [← hmod] at hzero
  have hrun : d.handResources p x = ((x.cores.filter (fun g => !d.draining (g / 8))).foldl (fun d g => d.zeroUnit (unitCore g))
      ((d.regionsGiven p x).modPart x.recipient (d.endowed x))).setParts
        (kdel ((x.cores.filter (fun g => !d.draining (g / 8))).foldl (fun d g => d.zeroUnit (unitCore g))
          ((d.regionsGiven p x).modPart x.recipient (d.endowed x))).parts p) := by
    unfold Dev.handResources
    exact if_pos h
  rw [hrun, hzero, hmod]
  rfl

/-- What a partition holds goes to the recipient: its cores, but for those of draining skillets. -/
theorem Dev.handResources_heir {d : Dev} {p : Nat} {x y : Part} (h : d.heir x.recipient = true)
    (hy : d.part x.recipient = some y) : d.HandedOver (d.handResources p x) p ∧
    ∃ m z, (d.handResources p x).parts = kdel m p ∧ kfind m x.recipient = some z ∧
      ∀ g, g ∈ z.cores ↔ g ∈ y.cores ∨ (g ∈ x.cores ∧ bit d.regs.drain (g / 8) = false) := by
  obtain ⟨⟨regs, parts, hshape⟩, w, hw, hcores⟩ := Dev.giveRegions_facts x.recipient y _
    ((d.giveNumbers p).setCrock { d.crock with
      free := d.crock.free ++ (x.tier.cframes.filter (fun f => !d.crock.bad.contains f)) }) hy (d.regionsGiven p x) rfl
  obtain ⟨c, o, hrun⟩ := Dev.handResources_gives h hw
  rw [hrun]
  refine ⟨⟨?_, ?_⟩, _, d.endowed x w, rfl, kfind_kset_self _ _ _, fun g => ?_⟩
  · show (d.regionsGiven p x).qps = _
    rw [hshape]
    rfl
  · show (d.regionsGiven p x).fab = _
    rw [hshape]
    rfl
  · rw [Dev.endowed, mem_foldl_insertSorted, hcores, List.mem_filter, Bool.not_eq_true']
    rfl

theorem Dev.heir_iff {d : Dev} {q : Nat} : d.heir q = true ↔ q ≠ 0 ∧ ∃ y, d.part q = some y ∧ y.reclaim = .none := by
  unfold Dev.heir
  cases d.part q with
  | none => simp
  | some y => simp

/-- Settles O33: each stage by its own case; what a hand-over leaves is told by `Dev.handOver_runs`. -/
theorem partitionReclaims : Obligations.PartitionReclaims := by
  unfold Obligations.PartitionReclaims
  intro s r c p q x hx
  refine ⟨fun hc hhdr hp hq hlow hhigh hqhigh => ?quiesce, fun hnot => ?scrubWaits, fun hquiesce hquiet => ?scrub,
    fun hnot => ?carveWaits, fun hscrubbed hchannels => ?carve, fun hnot => ?handWaits, fun hcarved hby hc hm hlocals =>
      ⟨fun hnone => ?pool, fun y hsome hne hy hfree => ?heir⟩⟩
  case quiesce =>
    subst hp hq
    have hcmd := Dev.ready_cmd hc
    refine ⟨fun hself => ?_, fun hne hnot => ?_, fun hne hreclaim hrecipient hchannels hretire => ?_⟩
    · refine ⟨_, exec_partReclaim r s, ?_⟩
      rw [State.onDev_dev, Dev.partReclaim_itself hc hself]
      exact Dev.ended_finish _ hcmd (Dev.ready_marks hc) (by decide) 0 0 0 []
    · refine ⟨_, exec_partReclaim r s, ?_⟩
      rw [State.onDev_dev, Dev.partReclaim_refused hc hhdr hlow hhigh hqhigh hx hne hnot]
      exact Dev.ended_finish _ hcmd (Dev.ready_marks hc) (by decide) 0 0 0 []
    · have hkey := Dev.admin_key hc (by omega) (by omega)
      refine ⟨_, { x with reclaim := .quiesce, reclaimBy := some r, recipient := byteAt c.desc 9 }, { c with phase := .running },
        exec_partReclaim r s, ?_⟩
      rw [State.onDev_dev, Dev.partReclaim_begins hc hhdr hlow hhigh hqhigh hx hne hreclaim hrecipient hchannels hretire]
      refine ⟨?_, rfl, ?_, rfl, rfl, rfl, fun n z hn hz => ?_⟩
      · rw [Dev.cmd_modCmd _ _ (by intro c; rfl), Dev.quiescing, Dev.cmd_modPairs_ne _ _ _ _ (by rw [hkey]; omega),
          Dev.cmd_putPart]
        show (s.dev.cmd r).map _ = _
        rw [hcmd]
        rfl
      · rw [Dev.part_modCmd]
        exact Dev.part_putPart _ _ _
      · have hmine : qpKey (byteAt c.desc 8) n / 128 = byteAt c.desc 8 := by unfold qpKey; omega
        rw [Dev.qps_modCmd_ne _ _ (by rw [hkey]; unfold qpKey; omega), Dev.quiescing, Dev.qp_modPairs]
        show (s.dev.qp (byteAt c.desc 8) n).map _ = _
        rw [hz, Option.map_some, if_pos hmine]
  case scrubWaits =>
    rw [exec_scrub]
    exact State.next_same (Dev.scrub_waits hx hnot)
  case scrub =>
    refine ⟨_, { x with reclaim := .scrubbed, tier := x.tier.freed }, exec_scrub p s, ?_⟩
    rw [State.onDev_dev, Dev.scrub_runs hx hquiesce hquiet]
    exact ⟨Dev.part_putPart _ _ _, rfl, rfl, fun n g i hg hpart k hk hout hlow hhigh =>
      Dev.scrub_mem x hg hpart hk hout hlow hhigh⟩
  case carveWaits =>
    rw [exec_reCarve]
    exact State.next_same (Dev.reCarve_waits hx hnot)
  case carve =>
    have hctx (i : Nat) : (s.dev.reCarve p).ctx i = x.carvedCtx i (s.dev.ctx i) := by
      rw [Dev.reCarve_runs hx hscrubbed hchannels]
      exact Part.kget_carvedCtxs x s.dev.ctxs i
    refine ⟨_, { x with reclaim := .carved, jsb := [], jsets := [], parked := [], starve := [], moves := [], batches := [],
                        hist := [], progs := [] }, exec_reCarve p s, ?_, rfl, rfl, rfl, rfl, fun i hlow hhigh => ?_, fun i hout => ?_⟩
    · rw [State.onDev_dev, Dev.reCarve_runs hx hscrubbed hchannels]
      exact Dev.part_putPart _ _ _
    · rw [State.onDev_dev, hctx, Part.carvedCtx, if_pos ⟨hlow, hhigh⟩]
      exact ⟨rfl, rfl⟩
    · rw [State.onDev_dev, hctx, Part.carvedCtx, if_neg (by omega)]
  case handWaits =>
    rw [exec_handOver]
    exact State.next_same (Dev.handOver_waits hx hnot)
  case pool =>
    have hno : s.dev.heir x.recipient = false := by
      rw [Bool.eq_false_iff]
      rintro hheir
      obtain ⟨hzero, y, hy, -⟩ := Dev.heir_iff.mp hheir
      rcases hnone with h | h
      · exact hzero h
      · rw [h] at hy; cases hy
    obtain ⟨hkept, hparts, hregions⟩ := Dev.handResources_pool (p := p) hno
    obtain ⟨hended, hparts', hregions'⟩ := Dev.handOver_runs hx hcarved hby hc hm hlocals rfl hkept
    rw [hparts] at hparts'
    rw [hregions] at hregions'
    refine ⟨_, exec_handOver p s, ?_, hended, fun e he => ?_, fun m hne => ?_⟩
    · rw [State.onDev_dev, Dev.part, hparts', kfind_kdel_self]
    · rw [State.onDev_dev, hregions'] at he
      simpa using (List.mem_filter.mp he).2
    · rw [State.onDev_dev, Dev.part, hparts', kfind_kdel_ne hne]
      rfl
  case heir =>
    obtain ⟨hkept, m, z, hparts, hz, hcores⟩ := Dev.handResources_heir (p := p) (Dev.heir_iff.mpr ⟨hsome, y, hy, hfree⟩) hy
    obtain ⟨hended, hparts', -⟩ := Dev.handOver_runs hx hcarved hby hc hm hlocals rfl hkept
    rw [hparts] at hparts'
    refine ⟨_, z, exec_handOver p s, ?_, hended, ?_, hcores⟩
    · rw [State.onDev_dev, Dev.part, hparts', kfind_kdel_self]
    · rw [State.onDev_dev, Dev.part, hparts', kfind_kdel_ne hne, hz]

end Sys2Proof.Machine
end

section
/-!
PROOF. The scoreboard operations of cores and of the junction dies (R66, R107 to R109).
-/

namespace Sys2Proof.Machine

theorem exec_tilePass (g : Nat) (f : Option PassFault) (e : Env) (s : State) :
    exec (.tilePass g f e) s = .next (s.onDev (fun d => d.tilePass g f e)) := rfl

theorem exec_junctionSet (p : Nat) (s : State) : exec (.junctionSet p) s = .next (s.onDev (fun d => d.junctionSet p)) := rfl

section
variable {d : Dev} {g rid : Nat} {x : Run} {c : CoreRun} {p : Part} {pg : Prog} {w v : Work} {l : List Work} {o : SbD}
  (f : Option PassFault) (e : Env) (hrun : d.runOn g = some (rid, x)) (hcore : x.coreAt g = some c)
  (hpart : d.part x.part = some p) (hprog : d.runProg x = some pg) (hdone : c.done = false) (hwaits : x.waits = false)
  (htodo : c.todo = w :: v :: l)
  (hplain : ∀ i ∈ x.layers pg.image, (parseLayer pg.image i).escalate = false)
include hrun hcore hpart hprog hdone hwaits htodo hplain

/-- A core whose operation is done, and whose next work waits for its tile, has done no more than that. -/
theorem Dev.tilePass_operates {m : KMap Nat} {js : List JSet}
    (hjob : ∀ j, d.jobFor x c e v = some j → j.awaits c = true) (hv : v.sb = none)
    (hstep : sbRun p.jsb (sbOf pg.image) (w :: v :: l) c [] = sbRun p.jsb (sbOf pg.image) (v :: l) { c with sb := m } js) :
    ∃ y z, (d.tilePass g f e).run rid = some y ∧ y.coreAt g = some { c with todo := v :: l, sb := m } ∧
      (d.tilePass g f e).part x.part = some z ∧ z.jsets = p.jsets ++ js ∧ z.jsb = p.jsb := by
  rw [sbRun_stop _ _ _ _ _ _ hv, ← htodo] at hstep
  refine Dev.tilePass_sb f e hrun hcore hpart hprog hdone hwaits hstep ⟨rfl, rfl, rfl⟩ rfl hdone ?_
    (sbRun_stop _ _ _ _ _ _ hv) hplain
  intro w' rest j hw' _ hj
  obtain rfl : v = w' := (List.cons.inj hw').1
  exact hjob j hj

/-- A core whose WAIT is not met stays as it is. -/
theorem Dev.tilePass_stays (hw : w.sb.isSome = true)
    (hstep : sbRun p.jsb (sbOf pg.image) (w :: v :: l) c [] = ({ c with todo := w :: v :: l }, [], true)) :
    ∃ y, (d.tilePass g f e).run rid = some y ∧ y.coreAt g = some c := by
  have hsame : { c with todo := w :: v :: l } = c := by rw [← htodo]
  rw [hsame, ← htodo] at hstep
  obtain ⟨y, z, hy, hcore', -⟩ := Dev.tilePass_sb f e hrun hcore hpart hprog hdone hwaits hstep ⟨rfl, rfl, rfl⟩ rfl hdone
    (fun w' rest j hw' hnone => by
      rw [htodo] at hw'
      obtain rfl : w = w' := (List.cons.inj hw').1
      rw [hnone] at hw
      cases hw) hstep hplain
  exact ⟨y, hy, hcore'⟩

end

/-! A core count that overflows. -/

theorem Run.coreAt_kill {x : Run} {g : Nat} {c : CoreRun} (h : x.coreAt g = some c) (m : Marks) :
    (x.kill m).coreAt g = some { c with todo := [], done := true } := by
  unfold Run.coreAt Run.kill
  rw [List.find?_map]
  exact congrArg (Option.map _) h

theorem Dev.sbAdvance_done {d : Dev} {g rid : Nat} {x : Run} {c : CoreRun} (h1 : d.runOn g = some (rid, x))
    (h2 : x.coreAt g = some c) (h3 : c.done = true) : d.sbAdvance g = d := by
  unfold Dev.sbAdvance
  rw [h1]
  dsimp only
  rw [h2]
  cases d.part x.part with
  | none => rfl
  | some p =>
    cases d.runProg x with
    | none => rfl
    | some pg => exact if_pos (by rw [h3]; rfl)

/-- A SET beyond 65,535 ends the command on every core (R107). -/
theorem Dev.tilePass_overflows {d : Dev} {g rid : Nat} {x : Run} {c c' : CoreRun} {p : Part} {pg : Prog} (f : Option PassFault)
    (e : Env) (hrun : d.runOn g = some (rid, x)) (hcore : x.coreAt g = some c) (hpart : d.part x.part = some p)
    (hprog : d.runProg x = some pg) (hdone : c.done = false) (hwaits : x.waits = false)
    (hplain : ∀ i ∈ x.layers pg.image, (parseLayer pg.image i).escalate = false)
    (hstep : sbRun p.jsb (sbOf pg.image) c.todo c [] = (c', [], false)) (hsame : c'.core = c.core) (hrank : c'.rank = c.rank) :
    ∃ y, (d.tilePass g f e).run rid = some y ∧ y.marks = x.marks.join (.fail stScoreboardOverflow) ∧
      ∀ k ∈ y.cores, k.done = true ∧ k.todo = [] := by
  obtain ⟨b, hadvance⟩ := Dev.sbAdvance_of hrun hcore hpart hprog hdone hwaits
  obtain ⟨late, hlate⟩ := Run.waited_late (x.putCore c') g b
  rw [hstep] at hadvance
  dsimp only at hadvance
  rw [if_neg (by decide), hlate] at hadvance
  obtain ⟨X, hX⟩ : ∃ X : Run, X = ({ x.putCore c' with late := late } : Run).kill (.fail stScoreboardOverflow) := ⟨_, rfl⟩
  rw [← hX] at hadvance
  have hXcore : X.coreAt g = some { c' with todo := [], done := true } := by
    rw [hX]
    exact Run.coreAt_kill (x := { x.putCore c' with late := late }) (Run.coreAt_putCore hcore hsame hrank) _
  have hXrun : (d.sbAdvance g).runOn g = some (rid, X) := by
    rw [hadvance]
    exact Dev.runOn_putRun (d := d.putPart x.part _) hrun (by rw [hX]; rfl) (by rw [hXcore]; rfl)
  have hXfind : (d.sbAdvance g).run rid = some X := by rw [hadvance]; exact Dev.run_putRun _ _ _
  have hXprog : (d.sbAdvance g).runProg X = some pg := by
    have hp : (d.sbAdvance g).part X.part = some { p with jsets := p.jsets ++ [] } := by
      rw [hadvance, hX]
      exact Dev.part_putPart _ _ _
    have hXid : X.prog = x.prog := by rw [hX]; rfl
    rw [Dev.runProg, hpart] at hprog
    rw [Dev.runProg, hp, hXid]
    exact hprog
  have hXlayers : X.layers pg.image = x.layers pg.image := by rw [hX]; rfl
  obtain ⟨r, j, hjudge, hfind⟩ := Dev.judge_plain hXfind hXprog (by rw [hXlayers]; exact hplain)
  have hall : d.tilePass g f e = (d.sbAdvance g).setRuns r := by
    unfold Dev.tilePass
    rw [hrun]
    dsimp only
    rw [Dev.workOn_waits f e hXrun hXcore (.inl rfl), Dev.sbAdvance_done hXrun hXcore rfl, hjudge]
  rw [hall]
  refine ⟨_, hfind, by rw [hX]; rfl, fun k hk => ?_⟩
  rw [hX] at hk
  obtain ⟨k', -, rfl⟩ := List.mem_map.mp hk
  exact ⟨rfl, rfl⟩

/-! Junction dies. -/

theorem Dev.junctionSet_oldest {d : Dev} {n : Nat} {p : Part} {j : JSet} {js : List JSet} (hp : d.part n = some p)
    (h : p.jsets = j :: js) : d.junctionSet n =
      d.putPart n { p with jsets := js, jsb := kset p.jsb j.idx ((kget p.jsb j.idx 0 + j.value) % 2 ^ 32) } := by
  unfold Dev.junctionSet
  rw [Dev.modPart_some d hp, h]
  rfl

theorem Dev.junctionSet_none {d : Dev} {n : Nat} {p : Part} (hp : d.part n = some p) (h : p.jsets = []) :
    d.junctionSet n = d.putPart n p := by
  unfold Dev.junctionSet
  rw [Dev.modPart_some d hp, h]

theorem junctionMet_serial {count epoch value : Nat} (hcount : count < 2 ^ 32) (hepoch : epoch < 2 ^ 32) (hvalue : value < 2 ^ 16) :
    junctionMet count epoch value =
      decide (0 ≤ (BitVec.ofNat 32 count - BitVec.ofNat 32 (epoch + value)).toInt) := by
  unfold junctionMet
  rw [decide_eq_decide, BitVec.toInt_eq_toNat_cond, BitVec.toNat_sub, BitVec.toNat_ofNat, BitVec.toNat_ofNat]
  split <;> omega

/-- Settles O34: the operation at the head of the work by `sbRun_head`, and the comparison by its value modulo 2^32. -/
theorem runEventsAct : Obligations.RunEventsAct := by
  unfold Obligations.RunEventsAct
  refine ⟨fun s g rid f e x c p pg w v l o n => ⟨fun hrun hcore hpart hprog hdone hwaits htodo hjob hw ho hv hplain hn => ?_,
    fun j js hp hjs => ⟨_, exec_junctionSet n s, ?_, fun m hm => ?_⟩, fun hp hjs => ⟨_, exec_junctionSet n s, ?_⟩⟩,
    fun count epoch value => junctionMet_serial⟩
  · have hhead := sbRun_head p.jsb (sbOf pg.image) w (v :: l) c [] hw ho
    rw [← hn] at hhead
    have hpass {m : KMap Nat} {js : List JSet} := Dev.tilePass_operates (m := m) (js := js) f e hrun hcore hpart hprog hdone
      hwaits htodo hplain hjob hv
    have hstay := Dev.tilePass_stays f e hrun hcore hpart hprog hdone hwaits htodo hplain hw
    refine ⟨fun hop hscope hfits => ?_, fun hop hscope hover => ?_, fun hop hscope => ?_, fun hop hscope hmet => ?_,
      fun hop hscope hmet => ?_, fun hop hnot => ?_⟩
    · rw [if_pos hop, if_pos hscope, if_neg (by omega)] at hhead
      obtain ⟨y, z, hy, hcore', -⟩ := hpass hhead
      exact ⟨_, y, exec_tilePass g f e s, hy, hcore'⟩
    · rw [if_pos hop, if_pos hscope, if_pos hover, ← htodo] at hhead
      obtain ⟨y, hy⟩ := Dev.tilePass_overflows f e hrun hcore hpart hprog hdone hwaits hplain hhead rfl rfl
      exact ⟨_, y, exec_tilePass g f e s, hy⟩
    · rw [if_pos hop, if_neg hscope] at hhead
      obtain ⟨y, z, hy, hcore', hz⟩ := hpass (m := c.sb) hhead
      exact ⟨_, y, z, exec_tilePass g f e s, hy, hcore', hz⟩
    · rw [if_neg hop, if_pos hscope, if_pos hmet] at hhead
      obtain ⟨y, z, hy, hcore', -⟩ := hpass hhead
      exact ⟨_, y, exec_tilePass g f e s, hy, hcore'⟩
    · rw [if_neg hop, if_neg hscope, if_pos hmet] at hhead
      obtain ⟨y, z, hy, hcore', -⟩ := hpass (m := c.sb) hhead
      exact ⟨_, y, exec_tilePass g f e s, hy, hcore'⟩
    · rw [if_neg hop] at hhead
      have hstopped : sbRun p.jsb (sbOf pg.image) (w :: v :: l) c [] = ({ c with todo := w :: v :: l }, [], true) := by
        rcases hnot with ⟨hscope, hless⟩ | ⟨hscope, hunmet⟩
        · rw [hhead, if_pos hscope, if_neg (by omega)]
        · rw [hhead, if_neg hscope, hunmet, if_neg (by decide)]
      obtain ⟨y, hy, hcore'⟩ := hstay hstopped
      exact ⟨_, y, exec_tilePass g f e s, hy, hcore'⟩
  · rw [State.onDev_dev, Dev.junctionSet_oldest hp hjs]
    exact Dev.part_putPart _ _ _
  · rw [State.onDev_dev, Dev.junctionSet_oldest hp hjs]
    exact kfind_kset_ne hm _ _
  · rw [State.onDev_dev, Dev.junctionSet_none hp hjs]
    exact Dev.part_putPart _ _ _

end Sys2Proof.Machine
end

section
/-!
PROOF. COMMAND_END and COMMAND_TIME_LIMIT (R97, R110, R111, R120, R355).
-/

namespace Sys2Proof.Machine

theorem exec_commandEnd (rid : Nat) (s : State) : exec (.commandEnd rid) s = .next (s.onDev (fun d => d.commandEnd rid)) := rfl

theorem exec_commandTimeLimit (rid : Nat) (s : State) :
    exec (.commandTimeLimit rid) s = .next (s.onDev (fun d => d.timeLimit rid)) := rfl

section
variable {d : Dev} {rid : Nat} {x : Run} (hx : d.run rid = some x)
include hx

theorem Dev.commandEnd_waits (h : (∃ c ∈ x.cores, c.todo ≠ []) ∨ x.stalled = true) : d.commandEnd rid = d := by
  unfold Dev.commandEnd
  rw [hx]
  refine if_pos ?_
  rcases h with ⟨c, hc, htodo⟩ | hstalled
  · have hany : x.cores.any (fun c => !c.todo.isEmpty) = true := List.any_eq_true.mpr ⟨c, hc, by simpa using htodo⟩
    rw [hany, Bool.or_true]
  · rw [hstalled, Bool.or_true, Bool.true_or]

theorem Dev.timeLimit_posted (hdone : ∀ c ∈ x.cores, c.todo = []) (hstalled : x.stalled = false) : d.timeLimit rid = d := by
  unfold Dev.timeLimit
  rw [hx]
  refine if_pos ?_
  have hall : x.cores.all (fun c => c.todo.isEmpty) = true := List.all_eq_true.mpr fun c hc => by rw [hdone c hc]; rfl
  rw [hstalled, hall]
  simp

variable (hended : x.ended = false)
include hended

theorem Dev.commandEnd_ends (hdone : ∀ c ∈ x.cores, c.todo = []) (hstalled : x.stalled = false) :
    d.commandEnd rid = d.endRun rid := by
  unfold Dev.commandEnd
  rw [hx]
  refine if_neg ?_
  have hany : x.cores.any (fun c => !c.todo.isEmpty) = false := List.any_eq_false.mpr fun c hc => by simp [hdone c hc]
  rw [hended, hstalled, hany]
  decide

/-- The time limit ends a run that it touches on every core, its outputs undefined. -/
theorem Dev.timeLimit_ends (h : (∃ c ∈ x.cores, c.todo ≠ []) ∨ x.stalled = true) :
    ∃ l, d.timeLimit rid = ((d.putRun rid (x.kill (.fail stTimeLimit))).blurRuns x l).endRun rid := by
  unfold Dev.timeLimit
  rw [hx]
  refine ⟨_, if_neg ?_⟩
  rw [hended, Bool.false_or]
  rcases h with ⟨c, hc, htodo⟩ | hstalled
  · have hall : x.cores.all (fun c => c.todo.isEmpty) = false := by
      rw [Bool.eq_false_iff]
      exact fun hall => htodo (List.isEmpty_iff.mp (List.all_eq_true.mp hall c hc))
    simp [hall]
  · simp [hstalled]

end

/-- The device at the close of a run whose cores have all stopped: its outputs settled, its memory as it was unless all of
them are bad. -/
theorem Dev.endRun_closes {d : Dev} {rid : Nat} {x : Run} (h : d.run rid = some x) (hdone : ∀ c ∈ x.workers, c.done = true)
    (hnorms : x.norms = []) : ∃ e : Dev, d.endRun rid = (e.closeRun rid).grantAll ∧ e.runs = d.runs ∧ e.qps = d.qps ∧ e.ctxs = d.ctxs ∧
      (x.allBad = false → e.mem = d.mem) := by
  obtain ⟨m, hm⟩ := Dev.endRun_stopped h hdone hnorms
  have hsettle := Dev.settle_accessed (d.setParts m) rid
  refine ⟨_, hm, hsettle.runs, hsettle.qps, hsettle.ctxs, fun hgood => ?_⟩
  have hx : (d.setParts m).run rid = some x := h
  unfold Dev.settleOutputs
  rw [hx]
  dsimp only
  rw [hgood]
  rfl

/-- The close of a GRAPH_RUN: the run is gone, its command has the status of its marks. -/
theorem Dev.closeRun_command {d : Dev} {rid : Nat} {x : Run} {r : CmdRef} {k : Cmd} (h : d.run rid = some x)
    (hcmd : x.cmd = some r) (hk : d.cmd r = some k) (hm : k.marks = {}) : (d.closeRun rid).grantAll.run rid = none ∧
    ((∀ i y, d.run i = some y → y.stalled = false ∨ y.ended = true) → (d.closeRun rid).grantAll.mem = d.mem) ∧
    ∀ z, (Marks.join {} x.marks).final (if x.empty then stEmptyOutput else stSuccess) = (z, 0) →
      (d.closeRun rid).grantAll.Ended r z 0 0 0 := by
  obtain ⟨y, j, c, -, hclose⟩ := Dev.closeRun_shape h
  rw [hcmd] at hclose
  dsimp only at hclose
  obtain ⟨q, hq⟩ : ∃ q, ((((d.putRun rid y).setJds j).setCores c).mark r x.marks).finish r
      (if x.empty then stEmptyOutput else stSuccess) 0 0 0 x.dies = (((d.putRun rid y).setJds j).setCores c).setQps q := by
    obtain ⟨q1, h1⟩ := Dev.modCmd_shape (((d.putRun rid y).setJds j).setCores c) r (fun c => { c with marks := c.marks.join x.marks })
    obtain ⟨q2, h2⟩ := Dev.finish_shape ((((d.putRun rid y).setJds j).setCores c).mark r x.marks) r
      (if x.empty then stEmptyOutput else stSuccess) 0 0 0 x.dies
    refine ⟨q2, h2.trans ?_⟩
    rw [Dev.mark, h1]
    rfl
  have hruns : (d.closeRun rid).runs = kdel (kset d.runs rid y) rid := by rw [hclose, hq]; rfl
  have hmem : (d.closeRun rid).mem = d.mem := by rw [hclose, hq]; rfl
  have hgrant := Dev.grantAll_acc (d.closeRun rid)
  refine ⟨Dev.grantAll_none (by rw [Dev.run, hruns, kfind_kdel_self]), fun hstill => ?_, fun z hz => ?_⟩
  · rw [Dev.grantAll_same, hmem]
    intro i w hw
    by_cases hi : i = rid
    · rw [hi, Dev.run, hruns, kfind_kdel_self] at hw
      cases hw
    · rw [Dev.run, hruns, kfind_kdel_ne hi, kfind_kset_ne hi] at hw
      exact hstill i w hw
  · have hend := Dev.ended_marked (((d.putRun rid y).setJds j).setCores c) (m := x.marks) hk hm hz x.dies
    obtain ⟨k', hk', hrest⟩ := hend
    refine ⟨k', ?_, hrest⟩
    have hqps : (d.closeRun rid).grantAll.qps = (d.closeRun rid).qps := hgrant.qps
    rw [Dev.cmd, Dev.qp, hqps, hclose]
    exact hk'

/-- The close of a pass: it waits, ended, for PASS_COMPLETE. -/
theorem Dev.closeRun_pass {d : Dev} {rid : Nat} {x : Run} (h : d.run rid = some x) (hcmd : x.cmd = none) :
    ∃ y, (d.closeRun rid).grantAll.run rid = some y ∧ y.ended = true ∧ y.ctxs = x.ctxs ∧ y.marks = x.marks ∧
      (∀ c ∈ y.cores, c.done = true) ∧ (d.closeRun rid).grantAll.ctxs = d.ctxs := by
  obtain ⟨y, j, c, hy, hclose⟩ := Dev.closeRun_shape h
  rw [hcmd] at hclose
  dsimp only at hclose
  have hrun : (d.closeRun rid).run rid = some y := by rw [hclose]; exact kfind_kset_self _ _ _
  have hctxs : (d.closeRun rid).ctxs = d.ctxs := by rw [hclose]; rfl
  refine ⟨y, Dev.grantAll_run hrun (.inr (by rw [hy])), by rw [hy], by rw [hy], by rw [hy], fun c hc => ?_,
    (Dev.grantAll_acc (d.closeRun rid)).ctxs.trans hctxs⟩
  rw [hy] at hc
  obtain ⟨c', -, rfl⟩ := List.mem_map.mp hc
  rfl

/-- Settles O35: by the close of a run (`Dev.closeRun_command`, `Dev.closeRun_pass`), of which the time limit's is one with
every core stopped. -/
theorem runsEnd : Obligations.RunsEnd := by
  unfold Obligations.RunsEnd
  intro s rid x r k hx hended
  refine ⟨fun hwait => ?waits, fun hdone hstalled => ?posted, fun hdone hstalled hstop hnorms hgood =>
    ⟨fun hcmd hk hm => ?command, fun hcmd => ?pass⟩, fun hlate hnorms hmarks => ?limit⟩
  case waits =>
    rw [exec_commandEnd]
    exact State.next_same (Dev.commandEnd_waits hx hwait)
  case posted =>
    rw [exec_commandTimeLimit]
    exact State.next_same (Dev.timeLimit_posted hx hdone hstalled)
  case command =>
    obtain ⟨e, he, hruns, hqps, -, hmem⟩ := Dev.endRun_closes hx hstop hnorms
    have hxe : e.run rid = some x := by rw [Dev.run, hruns]; exact hx
    have hke : e.cmd r = some k := by rw [Dev.cmd, Dev.qp, hqps]; exact hk
    obtain ⟨hgone, hstill, hend⟩ := Dev.closeRun_command hxe hcmd hke hm
    refine ⟨_, exec_commandEnd rid s, ?_⟩
    rw [State.onDev_dev, Dev.commandEnd_ends hx hended hdone hstalled, he]
    refine ⟨hgone, fun h => (hstill fun i y hy => h i y ?_).trans (hmem hgood), fun hnone => hend _ ?_, fun hover => hend _ ?_⟩
    · rw [Dev.run, ← hruns]; exact hy
    · rw [hnone]; rfl
    · rw [hover]; rfl
  case pass =>
    obtain ⟨e, he, hruns, -, hctxs, -⟩ := Dev.endRun_closes hx hstop hnorms
    have hxe : e.run rid = some x := by rw [Dev.run, hruns]; exact hx
    obtain ⟨y, hy, hyended, hyctxs, hymarks, hycores, hyrec⟩ := Dev.closeRun_pass hxe hcmd
    refine ⟨_, y, exec_commandEnd rid s, ?_⟩
    rw [State.onDev_dev, Dev.commandEnd_ends hx hended hdone hstalled, he]
    exact ⟨hy, hyended, hyctxs, hymarks, hycores, hyrec.trans hctxs⟩
  case limit =>
    obtain ⟨l, hl⟩ := Dev.timeLimit_ends hx hended hlate
    have hblur := Dev.accessed_blurRuns (s.dev.putRun rid (x.kill (.fail stTimeLimit))) x l
    have hkilled : ((s.dev.putRun rid (x.kill (.fail stTimeLimit))).blurRuns x l).run rid = some (x.kill (.fail stTimeLimit)) := by
      rw [Dev.run, hblur.runs]
      exact Dev.run_putRun _ _ _
    have hstop : ∀ c ∈ (x.kill (.fail stTimeLimit)).workers, c.done = true := by
      intro c hc
      obtain ⟨c', -, rfl⟩ := List.mem_map.mp (List.mem_filter.mp hc).1
      rfl
    obtain ⟨e, he, hruns, hqps, hctxs, -⟩ := Dev.endRun_closes hkilled hstop hnorms
    have hxe : e.run rid = some (x.kill (.fail stTimeLimit)) := by rw [Dev.run, hruns]; exact hkilled
    have hmarks' : (x.kill (.fail stTimeLimit)).marks = .fail stTimeLimit := by
      show x.marks.join (.fail stTimeLimit) = _
      rw [hmarks]
      rfl
    refine ⟨fun hcmd hk hm => ?_, fun hcmd => ?_⟩
    · have hke : e.cmd r = some k := by rw [Dev.cmd, Dev.qp, hqps, hblur.qps]; exact hk
      obtain ⟨hgone, -, hend⟩ := Dev.closeRun_command hxe hcmd hke hm
      refine ⟨_, exec_commandTimeLimit rid s, ?_⟩
      rw [State.onDev_dev, hl, he]
      exact ⟨hgone, hend _ (by rw [hmarks']; split <;> rfl)⟩
    · obtain ⟨y, hy, hyended, -, hymarks, -, hyrec⟩ := Dev.closeRun_pass hxe hcmd
      refine ⟨_, y, exec_commandTimeLimit rid s, ?_⟩
      rw [State.onDev_dev, hl, he]
      exact ⟨hy, hyended, hymarks.trans hmarks', hyrec.trans (hctxs.trans hblur.ctxs)⟩

end Sys2Proof.Machine
end

section
/-!
PROOF. Subscriptions, arrivals and freed entries of the multicast engines (R104, R105).
-/

namespace Sys2Proof.Machine

theorem exec_subscribe (g : Nat) (s : State) : exec (.subscribe g) s = .next (s.onDev (fun d => d.subscribe g)) := rfl

theorem exec_multicastTileArrive (j part prog tile : Nat) (bad : List Nat) (s : State) :
    exec (.multicastTileArrive j part prog tile bad) s = .next (s.onDev (fun d => d.tileArrive j part prog tile bad)) := rfl

theorem exec_multicastEntryFree (j part prog tile : Nat) (s : State) : exec (.multicastEntryFree j part prog tile) s =
    .next (s.onDev (fun d => d.putJd j { d.jd j with mcast := (d.jd j).mcast.filter (fun m =>
      !(m.part == part && m.prog == prog && m.tile == tile && m.arrived)) })) := rfl

/-- An entry of the store is that of a tile of a program. -/
def Mcast.isOf (part prog tile : Nat) (m : Mcast) : Bool := m.part == part && m.prog == prog && m.tile == tile

theorem Mcast.isOf_iff {part prog tile : Nat} {m : Mcast} :
    m.isOf part prog tile = true ↔ m.part = part ∧ m.prog = prog ∧ m.tile = tile := by
  simp [Mcast.isOf, and_assoc]

theorem Mcast.find_isOf {l : List Mcast} {part prog tile : Nat} {m : Mcast} (hm : m ∈ l) (hpart : m.part = part)
    (hprog : m.prog = prog) (htile : m.tile = tile) (hone : ∀ z ∈ l, z.part = part → z.prog = prog → z.tile = tile → z = m) :
    l.find? (Mcast.isOf part prog tile) = some m :=
  find_unique hm (Mcast.isOf_iff.mpr ⟨hpart, hprog, htile⟩) fun z hz h => by
    obtain ⟨h1, h2, h3⟩ := Mcast.isOf_iff.mp h
    exact hone z hz h1 h2 h3

/-- The store once a core has the tile of an entry. -/
def Jd.serve (y : Jd) (part prog tile g : Nat) : Jd :=
  { y with mcast := y.mcast.map (fun m => if m.isOf part prog tile then { m with served := insertSorted g m.served } else m) }

/-- The store once a core waits for the tile of an entry. -/
def Jd.wait (y : Jd) (part prog tile g : Nat) : Jd :=
  { y with mcast := y.mcast.map (fun m => if m.isOf part prog tile then { m with subs := insertSorted g m.subs } else m) }

section
variable {d : Dev} {g rid : Nat} {x : Run} {c : CoreRun} (hrun : d.runOn g = some (rid, x)) (hcore : x.coreAt g = some c)
include hrun hcore

theorem Dev.subscribe_holds (h : c.done = true ∨ x.waits = true ∨ 2 ≤ c.subs.length + c.got.length) : d.subscribe g = d := by
  unfold Dev.subscribe
  rw [hrun]
  dsimp only
  rw [hcore]
  exact if_pos (by simpa [or_assoc] using h)

variable (hdone : c.done = false) (hwaits : x.waits = false) (hsubs : c.subs = []) (hgot : c.got = [])
  {tile pl : Nat} {w : Job} {gen : GenD} (hahead : x.tilesAhead d c 1 = [(tile, w, gen, pl)]) {j : Nat}
  (hj : j = (d.jdFor (x.prog % 2)).1)
include hdone hwaits hsubs hgot hahead hj

theorem Dev.subscribe_here {m : Mcast} (hfind : (d.jd j).mcast.find? (Mcast.isOf x.part x.prog tile) = some m)
    (harrived : m.arrived = true) : d.subscribe g =
      (d.putRun rid ((x.putCore { c with got := [tile] }).sawTile tile g)).putJd j ((d.jd j).serve x.part x.prog tile g) := by
  subst hj
  have hmine : (d.jd (d.jdFor (x.prog % 2)).1).mcast.find? (fun m => m.part == x.part && m.prog == x.prog && m.tile == tile) =
      some m := hfind
  unfold Dev.subscribe
  simp only [hrun, hcore, hsubs, hgot, hdone, hwaits, List.length_nil, Nat.add_zero, Nat.zero_add, hahead,
    List.getElem?_cons_zero, hmine, harrived, Bool.or_self, Bool.false_or, List.nil_append, if_true]
  rfl

theorem Dev.subscribe_joins {m : Mcast} (hfind : (d.jd j).mcast.find? (Mcast.isOf x.part x.prog tile) = some m)
    (harrived : m.arrived = false) : d.subscribe g =
      (d.putRun rid ((x.putCore { c with subs := [tile] }).sawTile tile g)).putJd j ((d.jd j).wait x.part x.prog tile g) := by
  subst hj
  have hmine : (d.jd (d.jdFor (x.prog % 2)).1).mcast.find? (fun m => m.part == x.part && m.prog == x.prog && m.tile == tile) =
      some m := hfind
  unfold Dev.subscribe
  simp only [hrun, hcore, hsubs, hgot, hdone, hwaits, List.length_nil, Nat.add_zero, Nat.zero_add, hahead,
    List.getElem?_cons_zero, hmine, harrived, Bool.or_self, Bool.false_or, List.nil_append]
  rfl

theorem Dev.subscribe_misses (hfind : (d.jd j).mcast.find? (Mcast.isOf x.part x.prog tile) = none)
    (hfull : 1024 ≤ (d.jd j).mcast.length ∨ x.lostTile tile g = true) : d.subscribe g =
      (d.putRun rid ((x.putCore { c with subs := [tile] }).sawTile tile g)).missTile x.part x.prog tile g := by
  subst hj
  have hmine : (d.jd (d.jdFor (x.prog % 2)).1).mcast.find? (fun m => m.part == x.part && m.prog == x.prog && m.tile == tile) =
      none := hfind
  unfold Dev.subscribe
  simp only [hrun, hcore, hsubs, hgot, hdone, hwaits, List.length_nil, Nat.add_zero, Nat.zero_add, hahead,
    List.getElem?_cons_zero, hmine, Bool.or_self, Bool.false_or, List.nil_append]
  exact if_pos (hfull.imp_right Or.inr)

end

theorem Run.coreAt_take {x : Run} {g : Nat} {c : CoreRun} (h : x.coreAt g = some c) (tile : Nat) (bad : List Nat) :
    Run.coreAt { x with cores := x.cores.map (fun c => c.take tile bad g) } g = some (c.take tile bad g) := by
  have hkeys : (fun c : CoreRun => c.core == g && decide (c.rank < 65536)) ∘ (fun c : CoreRun => c.take tile bad g) =
      (fun c => c.core == g && decide (c.rank < 65536)) := by
    funext c
    unfold CoreRun.take
    rw [Function.comp_apply]
    split <;> rfl
  unfold Run.coreAt at h ⊢
  rw [List.find?_map, hkeys, h, Option.map_some]

/-- The core of a run whose subscription missed: the tile is its own to fetch. -/
theorem CoreRun.take_missed {x : Run} {g tile : Nat} {c : CoreRun} (h : x.coreAt g = some c) (hsubs : c.subs = [tile])
    (hgot : c.got = []) : c.take tile [g] g = { c with subs := [], got := [tile + 2 ^ 40] } := by
  have hg : c.core = g := by
    have hfound := List.find?_some h
    simp only [Bool.and_eq_true, beq_iff_eq] at hfound
    exact hfound.1
  rw [CoreRun.take, if_pos ⟨hg, by rw [hsubs]; simp⟩, hsubs, hgot]
  simp

theorem Dev.missTile_run {d : Dev} {rid tile g : Nat} {x : Run} (hx : d.run rid = some x) (hended : x.ended = false) :
    (d.missTile x.part x.prog tile g).run rid = some { x with cores := x.cores.map (fun c => c.take tile [g] g) } := by
  have hruns := Dev.copy_runs d x.part x.prog tile g [g]
  rw [if_pos (by simp)] at hruns
  have hval : d.runs.map (Run.takeAll x.part x.prog tile [g] g) =
      d.runs.map (fun e => (e.1, (Run.takeAll x.part x.prog tile [g] g e).2)) := by
    refine List.map_congr_left fun e _ => ?_
    unfold Run.takeAll
    split <;> rfl
  rw [Dev.run, hruns, hval, kfind_map_val (fun i y => (Run.takeAll x.part x.prog tile [g] g (i, y)).2)]
  rw [Dev.run] at hx
  rw [hx, Option.map_some, Run.takeAll, if_pos ⟨rfl, rfl, by rw [hended]; rfl⟩]

/-! Arrivals. -/

/-- An entry that has arrived: every subscriber is served. -/
def Mcast.delivered (m : Mcast) : Mcast := { m with arrived := true, served := m.subs, subs := [] }

theorem Dev.deliverAll_jds (part prog tile : Nat) (l : List Nat) (d : Dev) :
    (l.foldl (fun d g => if ([] : List Nat).contains g then d.missTile part prog tile g else d.deliver part prog tile g) d).jds =
      d.jds := by
  induction l generalizing d with
  | nil => rfl
  | cons g l ih => exact (ih _).trans rfl

/-- The store once the tile of an entry is here. -/
def Jd.arrive (y : Jd) (part prog tile : Nat) : Jd :=
  { y with mcast := y.mcast.map (fun z => if z.isOf part prog tile && !z.arrived then z.delivered else z) }

theorem Dev.tileArrive_delivers {d : Dev} {j part prog tile : Nat} {m : Mcast} (bad : List Nat)
    (hfind : (d.jd j).mcast.find? (fun z => z.isOf part prog tile && !z.arrived) = some m) :
    d.tileArrive j part prog tile bad = m.subs.foldl (fun d g =>
      if bad.contains g then d.missTile part prog tile g else d.deliver part prog tile g)
        (d.putJd j ((d.jd j).arrive part prog tile)) := by
  have hmine : (d.jd j).mcast.find? (fun m => m.part == part && m.prog == prog && m.tile == tile && !m.arrived) = some m := hfind
  unfold Dev.tileArrive
  simp only [hmine]
  rfl

/-- Settles O36: each outcome of a subscription by its case, and an arrival by the copies to all its subscribers. -/
theorem multicastDelivers : Obligations.MulticastDelivers := by
  unfold Obligations.MulticastDelivers
  intro s g rid j part prog tile bad x c m
  refine ⟨fun hrun hcore hholds => ?holds, fun w gen pl hrun hcore hdone hwaits hsubs hgot hahead hj =>
      ⟨fun hm hpart hprog htile hone => ⟨fun harrived => ?here, fun harrived => ?joins⟩, fun hnone hfull hended => ?misses⟩,
    fun hm hpart hprog htile harrived hsorted hone => ?arrives, ?frees⟩
  case holds =>
    rw [exec_subscribe]
    exact State.next_same (Dev.subscribe_holds hrun hcore hholds)
  case here =>
    refine ⟨_, (x.putCore { c with got := [tile] }).sawTile tile g, exec_subscribe g s, ?_⟩
    rw [State.onDev_dev, Dev.subscribe_here hrun hcore hdone hwaits hsubs hgot hahead hj
      (Mcast.find_isOf hm hpart hprog htile hone) harrived]
    exact ⟨Dev.run_putRun _ _ _, Run.coreAt_putCore hcore rfl rfl, rfl⟩
  case joins =>
    refine ⟨_, (x.putCore { c with subs := [tile] }).sawTile tile g, { m with subs := insertSorted g m.subs }, exec_subscribe g s, ?_⟩
    rw [State.onDev_dev, Dev.subscribe_joins hrun hcore hdone hwaits hsubs hgot hahead hj
      (Mcast.find_isOf hm hpart hprog htile hone) harrived, Dev.jd_putJd]
    refine ⟨Dev.run_putRun _ _ _, Run.coreAt_putCore hcore rfl rfl, List.mem_map.mpr ⟨m, hm, ?_⟩, htile, harrived,
      fun n => mem_insertSorted n g m.subs⟩
    exact if_pos (Mcast.isOf_iff.mpr ⟨hpart, hprog, htile⟩)
  case misses =>
    have hfind : (s.dev.jd j).mcast.find? (Mcast.isOf x.part x.prog tile) = none :=
      List.find?_eq_none.mpr fun z hz h => hnone z hz (Mcast.isOf_iff.mp h)
    have hwaiting : (x.putCore { c with subs := [tile] }).coreAt g = some { c with subs := [tile] } :=
      Run.coreAt_putCore hcore rfl rfl
    have hmissed := Dev.missTile_run (d := s.dev.putRun rid ((x.putCore { c with subs := [tile] }).sawTile tile g)) (tile := tile)
      (g := g) (Dev.run_putRun _ _ _) hended
    refine ⟨_, { (x.putCore { c with subs := [tile] }).sawTile tile g with
      cores := ((x.putCore { c with subs := [tile] }).sawTile tile g).cores.map (fun c => c.take tile [g] g) },
      exec_subscribe g s, ?_, ?_⟩
    · rw [State.onDev_dev, Dev.subscribe_misses hrun hcore hdone hwaits hsubs hgot hahead hj hfind hfull]
      exact hmissed
    · refine (Run.coreAt_take (x := (x.putCore { c with subs := [tile] }).sawTile tile g) hwaiting tile [g]).trans ?_
      rw [CoreRun.take_missed hwaiting rfl hgot, ← hsubs]
  case arrives =>
    have hfind : (s.dev.jd j).mcast.find? (fun z => z.isOf part prog tile && !z.arrived) = some m :=
      find_unique hm (by rw [Mcast.isOf_iff.mpr ⟨hpart, hprog, htile⟩, harrived]; rfl) fun z hz h => by
        rw [Bool.and_eq_true] at h
        obtain ⟨h1, h2, h3⟩ := Mcast.isOf_iff.mp h.1
        exact hone z hz h1 h2 h3
    refine ⟨_, exec_multicastTileArrive j part prog tile bad s, fun hbad => ⟨m.delivered, ?_, htile, rfl, rfl, rfl⟩, ?_⟩
    · subst hbad
      rw [State.onDev_dev, Dev.tileArrive_delivers [] hfind, Dev.jd, Dev.deliverAll_jds, ← Dev.jd, Dev.jd_putJd]
      refine List.mem_map.mpr ⟨m, hm, if_pos ?_⟩
      rw [Mcast.isOf_iff.mpr ⟨hpart, hprog, htile⟩, harrived]
      rfl
    · rw [State.onDev_dev, Dev.tileArrive_delivers bad hfind]
      exact Dev.copies_runs part prog tile bad m.subs _ (hsorted.imp (fun h => Nat.ne_of_lt h))
  case frees =>
    refine ⟨_, exec_multicastEntryFree j part prog tile s, rfl, fun z => ?_⟩
    rw [State.onDev_dev, Dev.jd_putJd, List.mem_filter, Bool.not_eq_true', Bool.eq_false_iff]
    simp only [Bool.and_eq_true, beq_iff_eq, and_assoc, ne_eq]

end Sys2Proof.Machine
end

section
/-!
PROOF. Enabling and disabling a function's admin pair, and the function-level reset (R377, R511, R549).
-/

namespace Sys2Proof.Machine

theorem exec_ctlFuncCtlEn_live {s : State} {f : Nat} (h : s.dev.fnLive f = true) (en : Bool) :
    exec (.ctlFuncCtlEn f en) s = .next (s.onDev (fun d => d.setEn f en)) := by
  have harm : exec (.ctlFuncCtlEn f en) s = execCtlFuncCtlEn f en s := rfl
  rw [harm, execCtlFuncCtlEn, State.onFn_live h]

theorem exec_functionLevelReset (f : Nat) (s : State) :
    exec (.functionLevelReset f) s = .next (s.onDev (fun d => if d.fnThere f then d.flr f else d)) := rfl

/-! The enable bit. -/

/-- The settings of a function that its admin pair needs. -/
def FnView.ringsSet (v : FnView) : Prop := v.sqLog2 ≠ 0 ∧ v.cqLog2 ≠ 0 ∧ v.sqBase ≠ 0 ∧ v.cqBase ≠ 0

/-- The admin pair of a function as its enabling makes it. -/
def FnView.adminPair (v : FnView) (num k : Nat) : Qp :=
  { num := num, sqBase := v.sqBase, cqBase := v.cqBase, sqSize := 2 ^ v.sqLog2, cqSize := 2 ^ v.cqLog2, nextK := k, sigFrom := k }

section
variable {d : Dev} {f : Nat} (hup : d.up = true)
include hup

theorem Dev.setEn_same {en : Bool} (h : (d.fn f).en = en) : d.setEn f en = d := by
  unfold Dev.setEn
  dsimp only
  rw [hup, h]
  cases en <;> rfl

theorem Dev.setEn_incomplete (hoff : (d.fn f).en = false)
    (h : (d.fn f).sqLog2 = 0 ∨ (d.fn f).cqLog2 = 0 ∨ (d.fn f).sqBase = 0 ∨ (d.fn f).cqBase = 0) :
    d.setEn f true = d.putFn f { d.fn f with cfgErr := true } := by
  unfold Dev.setEn
  dsimp only
  rw [hup, hoff]
  exact if_pos h

/-- A function that is enabled has an empty admin pair of the sizes and bases that it set. -/
theorem Dev.setEn_makes (hoff : (d.fn f).en = false) (h : (d.fn f).ringsSet) : ∃ num k, d.setEn f true =
    (d.putFn f { d.fn f with en := true, ready := true, cfgErr := false, adminErr := false }).putQp f 0
      ((d.fn f).adminPair num k) := by
  obtain ⟨h1, h2, h3, h4⟩ := h
  have hset : ¬ ((d.fn f).sqLog2 = 0 ∨ (d.fn f).cqLog2 = 0 ∨ (d.fn f).sqBase = 0 ∨ (d.fn f).cqBase = 0) := by
    rintro (h | h | h | h)
    · exact h1 h
    · exact h2 h
    · exact h3 h
    · exact h4 h
  unfold Dev.setEn
  dsimp only
  rw [hup, hoff]
  exact ⟨_, _, (if_neg (by decide)).trans ((if_pos rfl).trans ((if_neg (by decide)).trans (if_neg hset)))⟩

theorem Dev.setEn_off (hon : (d.fn f).en = true) : d.setEn f false =
    if (((d.putFn f { d.fn f with en := false }).shutPair f 0).qp f 0).isNone then
      ((d.putFn f { d.fn f with en := false }).shutPair f 0).modFn f (fun v => { v with ready := false })
    else (d.putFn f { d.fn f with en := false }).shutPair f 0 := by
  unfold Dev.setEn
  dsimp only
  rw [hup, hon]
  rfl

/-- A function that is disabled: its admin pair keeps the commands that run, and is gone where none does. -/
theorem Dev.setEn_shuts {x : Qp} (hon : (d.fn f).en = true) (hx : d.qp f 0 = some x) :
    ((d.setEn f false).fn f).en = false ∧ (∀ m, 0 < m → m < 128 → (d.setEn f false).qp f m = d.qp f m) ∧
    (d.setEn f false).qp f 0 = x.left ∧
    ((d.setEn f false).fn f).ready = if x.left.isNone then false else (d.fn f).ready := by
  obtain ⟨m, hreports, hother, hpair, -⟩ := Dev.shutPair_facts (d.putFn f { d.fn f with en := false }) f 0
  obtain ⟨int, evt, hview⟩ := hreports.view f
  have hview' : ((d.putFn f { d.fn f with en := false }).shutPair f 0).fn f = { d.fn f with en := false, int := int, evt := evt } := by
    rw [hview]
    exact congrArg (fun v : FnView => { v with int := int, evt := evt }) (Dev.fn_putFn d f _)
  have hqp (n : Nat) : ((d.putFn f { d.fn f with en := false }).shutPair f 0).qp f n = kfind m (qpKey f n) := by
    rw [Dev.qp, hreports.qps]
    rfl
  have hleft : kfind m (qpKey f 0) = x.left := by
    rw [hpair]
    exact congrArg (·.bind Qp.left) hx
  rw [Dev.setEn_off hup hon, hqp 0, hleft]
  have hkeep (n : Nat) (hn : 0 < n) : kfind m (qpKey f n) = d.qp f n := hother _ (by unfold qpKey; omega)
  by_cases hnone : x.left.isNone
  · rw [if_pos hnone, if_pos hnone, Dev.fn_modFn, hview']
    refine ⟨rfl, fun n hn _ => ?_, ?_, rfl⟩
    · exact (hqp n).trans (hkeep n hn)
    · exact (hqp 0).trans hleft
  · rw [if_neg hnone, if_neg hnone, hview']
    exact ⟨rfl, fun n hn _ => (hqp n).trans (hkeep n hn), (hqp 0).trans hleft, rfl⟩

end

/-- Settles O37: the enable bit by its cases, the reset by `Dev.flr_facts`. -/
theorem functionEnable : Obligations.FunctionEnable := by
  unfold Obligations.FunctionEnable
  intro s f q n x v hv
  subst hv
  refine ⟨fun hlive hup => ⟨fun hon => ?same, fun hoff => ?same', fun hoff hmissing => ?incomplete,
      fun hoff h1 h2 h3 h4 => ?makes, fun hon hx => ?shuts⟩, fun hgone => ?gone, fun hthere => ?reset⟩
  case same =>
    rw [exec_ctlFuncCtlEn_live hlive]
    exact State.next_same (Dev.setEn_same hup hon)
  case same' =>
    rw [exec_ctlFuncCtlEn_live hlive]
    exact State.next_same (Dev.setEn_same hup hoff)
  case incomplete =>
    refine ⟨_, exec_ctlFuncCtlEn_live hlive true, ?_⟩
    rw [State.onDev_dev, Dev.setEn_incomplete hup hoff hmissing]
    exact ⟨Dev.fn_putFn _ _ _, rfl⟩
  case makes =>
    obtain ⟨num, k, hrun⟩ := Dev.setEn_makes hup hoff ⟨h1, h2, h3, h4⟩
    refine ⟨_, (s.dev.fn f).adminPair num k, exec_ctlFuncCtlEn_live hlive true, ?_⟩
    rw [State.onDev_dev, hrun]
    exact ⟨Dev.fn_putFn _ _ _, Dev.qp_putQp _ _ _ _, rfl, rfl, rfl, rfl, rfl, rfl, rfl, rfl, rfl, rfl⟩
  case shuts =>
    obtain ⟨hen, hother, hpair, hready⟩ := Dev.setEn_shuts hup hon hx
    refine ⟨_, exec_ctlFuncCtlEn_live hlive false, ?_⟩
    rw [State.onDev_dev]
    refine ⟨hen, hother, fun hidle => ?_, fun hbusy => ?_⟩
    · rw [hready, hpair, Qp.left_none hidle]
      exact ⟨rfl, rfl⟩
    · rw [hready, hpair, Qp.left_some hbusy]
      exact ⟨rfl, _, rfl, rfl, rfl, Qp.shut_cmds x⟩
  case gone =>
    rw [exec_functionLevelReset]
    exact State.next_same (if_neg (by rw [hgone]; decide))
  case reset =>
    have hf : f ≠ 0x1F := by
      rintro rfl
      revert hthere
      simp [Dev.fnThere]
    obtain ⟨hview, hviews, hparts, hctxs, hmem, hruns, hpairs, hmine, hdma, -⟩ := Dev.flr_facts s.dev hf
    refine ⟨_, exec_functionLevelReset f s, ?_⟩
    rw [State.onDev_dev, if_pos hthere]
    refine ⟨hview, hviews, hparts, hctxs, hmem, hruns, hpairs, fun hq hx hidle => ?_, fun hq hx hbusy => ?_, fun hn hown _ => ?_,
      fun hn hother => ?_⟩
    · rw [hmine q hq x hx, Qp.left_none hidle]
    · rw [hmine q hq x hx, Qp.left_some hbusy]
      exact ⟨_, rfl, rfl, rfl, Qp.shut_cmds x⟩
    · rw [hdma n, if_pos ⟨List.mem_range.mpr hn, hown⟩]
      exact ⟨rfl, rfl, rfl, rfl, rfl⟩
    · rw [hdma n, if_neg (fun h => hother h.2)]

end Sys2Proof.Machine
end

section
/-!
PROOF. The 56 V input, the breaker and the enable pin (R521 to R524, R531).
-/

namespace Sys2Proof.Machine

theorem exec_hsEnMate (s : State) : exec .hsEnMate s = .next (s.onDev (fun d =>
    d.setMod { d.mod with hsEn := true, breakerFree := d.mod.breakerFree || !d.mod.hsEn })) := rfl

theorem exec_hsEnBreak (s : State) : exec .hsEnBreak s =
    .next (s.onDev (fun d => d.powerOff.setMod { d.powerOff.mod with hsEn := false })) := rfl

theorem exec_inputRise (s : State) : exec .inputRise s =
    .next (s.onDev (fun d => if d.mod.mayRun then d.setMod { d.mod with converter := true } else d)) := rfl

theorem exec_inputFall (v : Nat) (s : State) : exec (.inputFall v) s = .next (s.onDev (fun d => d.inputFall v)) := rfl

theorem exec_overvoltage (v : Nat) (s : State) : exec (.overvoltage v) s = .next (s.onDev (fun d =>
    if 6200 < v then d.powerOff.setMod { d.powerOff.mod with overvolt := true } else d)) := rfl

theorem exec_overvoltageRestart (s : State) : exec .overvoltageRestart s = .next (s.onDev (fun d =>
    if d.mod.overvolt then d.setMod { d.mod with overvolt := false, converter := { d.mod with overvolt := false }.mayRun }
    else d)) := rfl

theorem exec_breakerOpen (s : State) : exec .breakerOpen s = .next (s.onDev (fun d =>
    d.powerOff.setMod { d.powerOff.mod with breaker := true, breakerFree := false, breakerSeen := true })) := rfl

theorem exec_breakerClose (s : State) : exec .breakerClose s = .next (s.onDev (fun d =>
    if d.mod.breaker && d.mod.breakerFree then d.setMod { d.mod with breaker := false, breakerFree := false } else d)) := rfl

theorem exec_packageRailOutOfWindow (s : State) : exec .packageRailOutOfWindow s =
    .next (s.onDev (fun d => d.setMod { d.mod with pwrgd := false })) := rfl

theorem Mod.mayRun_iff (m : Mod) : m.mayRun = true ↔ m.hsEn = true ∧ m.breaker = false ∧ m.overvolt = false := by
  simp [Mod.mayRun, and_assoc]

theorem Dev.inputFall_high {d : Dev} {v : Nat} (h : 4200 ≤ v) : d.inputFall v = d := by
  unfold Dev.inputFall
  dsimp only
  rw [if_neg (by omega), if_neg (by omega)]

/-- Below 42 V power is lost; below 20 V the breaker is free to close as well. -/
theorem Dev.inputFall_low {d : Dev} {v : Nat} (h : v < 4200) : d.inputFall v =
    d.powerOff.setMod { d.powerOff.mod with breakerFree := d.mod.breakerFree || decide (v < 2000) } := by
  unfold Dev.inputFall
  dsimp only
  rw [if_pos h]
  by_cases hfree : v < 2000
  · rw [if_pos hfree, decide_eq_true hfree, Bool.or_true]
  · rw [if_neg hfree, decide_eq_false hfree, Bool.or_false]
    rfl

/-- Settles O39: each row by its case; what `Dev.powerOff` leaves is flash and the module's latches. -/
theorem inputPower : Obligations.InputPower := by
  unfold Obligations.InputPower
  intro s v
  refine ⟨⟨_, exec_hsEnMate s, rfl⟩, ⟨_, exec_hsEnBreak s, rfl, rfl, rfl, rfl, rfl, rfl, rfl, rfl, rfl⟩,
    fun hpin hclosed hvolt => ?rise, fun hnot => ?held, fun hhigh => ?stays, fun hlow => ?falls, fun hin => ?within,
    fun hout => ?above, fun hover => ?restart, fun hnone => ?calm,
    ⟨_, exec_breakerOpen s, rfl, rfl, rfl, rfl, rfl, rfl⟩, fun hopen hfree => ?close, fun hnot => ?shut,
    ⟨_, exec_packageRailOutOfWindow s, rfl⟩⟩
  case rise =>
    refine ⟨_, exec_inputRise s, ?_⟩
    rw [State.onDev_dev, if_pos ((Mod.mayRun_iff _).mpr ⟨hpin, hclosed, hvolt⟩)]
  case held =>
    rw [exec_inputRise]
    refine State.next_same (if_neg fun hrun => ?_)
    obtain ⟨hpin, hclosed, hvolt⟩ := (Mod.mayRun_iff _).mp hrun
    rw [hpin, hclosed, hvolt] at hnot
    simp at hnot
  case stays =>
    rw [exec_inputFall]
    exact State.next_same (Dev.inputFall_high hhigh)
  case falls =>
    refine ⟨_, exec_inputFall v s, ?_⟩
    rw [State.onDev_dev, Dev.inputFall_low hlow]
    exact ⟨rfl, rfl, rfl, rfl, rfl, rfl⟩
  case within =>
    rw [exec_overvoltage]
    exact State.next_same (if_neg (by omega))
  case above =>
    refine ⟨_, exec_overvoltage v s, ?_⟩
    rw [State.onDev_dev, if_pos hout]
    exact ⟨rfl, rfl, rfl, rfl, rfl⟩
  case restart =>
    refine ⟨_, exec_overvoltageRestart s, ?_⟩
    rw [State.onDev_dev, if_pos hover]
    exact ⟨rfl, Bool.and_true _⟩
  case calm =>
    rw [exec_overvoltageRestart]
    exact State.next_same (if_neg (by rw [hnone]; decide))
  case close =>
    refine ⟨_, exec_breakerClose s, ?_⟩
    rw [State.onDev_dev, if_pos (by rw [hopen, hfree]; rfl)]
    rfl
  case shut =>
    rw [exec_breakerClose]
    refine State.next_same (if_neg fun hboth => ?_)
    rw [Bool.and_eq_true] at hboth
    rw [hboth.1, hboth.2] at hnot
    simp at hnot

end Sys2Proof.Machine
end

section
/-!
PROOF. Power-on, the resets, and where a bring-up stops (R490, R507, R510, R511, R532).
-/

namespace Sys2Proof.Machine

theorem exec_mrstLow (s : State) : exec .mrstLow s = .next (s.onDev (fun d =>
    if d.mod.converter && !d.mod.mrstLow then (d.wiped false).setMod { (d.wiped false).mod with mrstLow := true } else d)) := rfl

theorem exec_ctlDevReset (n : Nat) (go : Bool) (b : BringUp) (s : State) : exec (.ctlDevReset n go b) s = .next (s.onDev (fun d =>
    if d.mod.converter && !d.mod.mrstLow && go && n == 0xA55A then (d.deviceReset b).knownAnswer b else d)) := rfl

theorem exec_powerOnReset (b : BringUp) (s : State) : exec (.powerOnReset b) s =
    .next (s.onDev (fun d => if d.mod.converter then (d.wiped true).bringUp b else d)) := rfl

/-! The known-answer layers. -/

theorem Dev.bootUnits_layers (d : Dev) (b : BringUp) (l : List (Nat × EngineJob)) (x : Slot) (io : Img) :
    d.bootUnits { b with layers := l } x io = d.bootUnits b x io := rfl

theorem Dev.bootStage1_layers (d : Dev) (b : BringUp) (l : List (Nat × EngineJob)) (x : Slot) (man rec fw : Img) :
    d.bootStage1 { b with layers := l } x man rec fw = d.bootStage1 b x man rec fw := by
  unfold Dev.bootStage1
  simp only [Dev.bootUnits_layers]

theorem Dev.bootStage0_layers (d : Dev) (b : BringUp) (l : List (Nat × EngineJob)) (slot : Nat) :
    d.bootStage0 { b with layers := l } slot = d.bootStage0 b slot := by
  unfold Dev.bootStage0
  simp only [Dev.bootStage1_layers]

theorem Dev.boot_layers (d : Dev) (b : BringUp) (l : List (Nat × EngineJob)) : d.boot { b with layers := l } = d.boot b := by
  unfold Dev.boot
  simp only [Dev.bootStage0_layers]

theorem Dev.knownAnswer_none (d : Dev) {b : BringUp} (h : b.layers = []) : d.knownAnswer b = d := by
  unfold Dev.knownAnswer
  rw [h, List.foldl_nil, ite_self]

theorem exec_mrstRise (b : BringUp) (s : State) : exec (.mrstRise b) s = .next (s.onDev (fun d =>
    if d.mod.converter && d.mod.mrstLow then (d.setMod { d.mod with mrstLow := false }).bringUp b else d)) := rfl

/-- Each reset that lets the device sequence run begins it on a device with everything but flash, pins and counts at reset. -/
theorem exec_boots {s : State} {c : Instr} {b : BringUp} (hconv : s.dev.mod.converter = true) (hlayers : b.layers = [])
    (hc : (c = .powerOnReset b ∧ s.dev.mod.mrstLow = false) ∨
      (c = .mrstRise b ∧ ∃ s0 : State, s0.dev.mod.converter = true ∧ s0.dev.mod.mrstLow = false ∧ exec .mrstLow s0 = .next s) ∨
      (c = .ctlDevReset 0xA55A true b ∧ s.dev.mod.mrstLow = false)) :
    ∃ t D, exec c s = .next t ∧ t.dev = D.boot b ∧ s.dev.Fresh D := by
  rcases hc with ⟨rfl, hhigh⟩ | ⟨rfl, s0, hconv0, hhigh0, hs⟩ | ⟨rfl, hhigh⟩
  · refine ⟨_, s.dev.wiped true, exec_powerOnReset b s, ?_, [], [], (s.dev.wiped true).mod, rfl, hhigh, rfl, rfl⟩
    rw [State.onDev_dev, if_pos hconv]
    exact Dev.knownAnswer_none _ hlayers
  · rw [exec_mrstLow] at hs
    injection hs with hs
    have hdev : s.dev = (s0.dev.wiped false).setMod { (s0.dev.wiped false).mod with mrstLow := true } := by
      rw [← hs, State.onDev_dev]
      exact if_pos (by rw [hconv0, hhigh0]; rfl)
    refine ⟨_, s.dev.setMod { s.dev.mod with mrstLow := false }, exec_mrstRise b s, ?_, s.dev.ao, s.dev.saf.clean,
      { s.dev.mod with mrstLow := false }, ?_, rfl, ?_, ?_⟩
    · rw [State.onDev_dev, if_pos (by rw [hconv, hdev]; rfl)]
      exact Dev.knownAnswer_none _ hlayers
    · rw [hdev]; rfl
    · rw [hdev]; rfl
    · rw [hdev]; rfl
  · refine ⟨_, s.dev.wiped false, exec_ctlDevReset 0xA55A true b s, ?_, s.dev.ao, s.dev.saf.clean, (s.dev.wiped false).mod, rfl,
      hhigh, rfl, rfl⟩
    rw [State.onDev_dev, if_pos (by rw [hconv, hhigh]; rfl)]
    exact Dev.knownAnswer_none _ hlayers

/-! The device sequence. -/

/-- The device at step 1: the boot is counted, and the slot that boots is chosen (R500). -/
def Dev.booting (d : Dev) : Dev :=
  (d.setFlash { d.flash.choose.2.2 with bootCount := d.flash.choose.2.2.bootCount + 1 }).setTrust
    { d.trust with bootSlot := d.flash.choose.1, trial := d.flash.choose.2.1 }

section
variable {d : Dev} {b : BringUp} (hhigh : d.mod.mrstLow = false)
include hhigh

theorem Dev.boot_stops {st die idx : Nat} (h : b.stopAt = some (st, die, idx)) :
    d.boot b = ((d.booting.atStep (min st 12)).failUnit (unit24 die idx)).alert 1 := by
  unfold Dev.boot
  rw [if_neg (by rw [hhigh]; decide)]
  dsimp only
  rw [h]
  rfl

theorem Dev.boot_recovers (h : b.stopAt = none) (hrec : b.mrec = true ∨ b.identityOk = false) :
    d.boot b = d.booting.recover 1 (if b.mrec then 5 else 4) 0 := by
  unfold Dev.boot
  rw [if_neg (by rw [hhigh]; decide)]
  dsimp only
  rw [h]
  dsimp only
  by_cases hm : b.mrec = true
  · rw [if_pos hm, if_pos hm]
    rfl
  · have hid : b.identityOk = false := hrec.resolve_left hm
    rw [if_neg hm, if_neg hm, hid]
    rfl

theorem Dev.boot_good : d.boot .good = d.booting.bootStage0 .good d.flash.choose.1 := by
  unfold Dev.boot
  rw [if_neg (by rw [hhigh]; decide)]
  rfl

end

/-- The choice of a slot changes only what stands of a trial. -/
theorem Flash.choose_shape (f : Flash) : ∃ p t u, f.choose.2.2 = { f with pending := p, trialFail := t, trialStarted := u } := by
  unfold Flash.choose
  split
  · split
    · exact ⟨_, _, _, rfl⟩
    · exact ⟨_, _, _, rfl⟩
  · exact ⟨_, _, _, rfl⟩

/-- The flash of a device that boots holds the images, records and counters that it held. -/
theorem Dev.booting_flash (d : Dev) : ∃ p t u n, d.booting.flash =
    { d.flash with pending := p, trialFail := t, trialStarted := u, bootCount := n } := by
  obtain ⟨p, t, u, h⟩ := Flash.choose_shape d.flash
  refine ⟨p, t, u, d.flash.choose.2.2.bootCount + 1, ?_⟩
  show ({ d.flash.choose.2.2 with bootCount := d.flash.choose.2.2.bootCount + 1 } : Flash) = _
  rw [h]

theorem Dev.failUnit_first {d : Dev} (h : d.trust.failDie = 0xFF) (u : Nat) :
    d.failUnit u = d.setTrust { d.trust with failDie := u / 0x10000, failUnit := u % 0x10000 } := if_pos h

/-- A bring-up that stops leaves the device at that step, the unit named. -/
theorem Dev.Fresh.stops {d D : Dev} (hD : d.Fresh D) {b : BringUp} {st die idx : Nat} (h : b.stopAt = some (st, die, idx))
    (hidx : idx < 65536) : (D.boot b).trust.step = min st 12 ∧ (D.boot b).trust.failDie = die ∧ (D.boot b).mem = [] ∧
      (D.boot b).parts = [] ∧ bit (D.boot b).mod.alert 1 = true ∧ ((D.boot b).mod.pwrgd = true ↔ 4 ≤ st) := by
  obtain ⟨a, cl, m, hshape, hhigh, hdown, -⟩ := hD
  have hhigh' : D.mod.mrstLow = false := by rw [hshape]; exact hhigh
  have hdown' : D.mod.pwrgd = false := by rw [hshape]; exact hdown
  have hnone : (D.booting.atStep (min st 12)).trust.failDie = 0xFF := by
    rw [Dev.atStep_of, hshape]
    rfl
  have hrun : D.boot b = (((D.booting.atStep (min st 12)).setTrust { (D.booting.atStep (min st 12)).trust with
      failDie := unit24 die idx / 0x10000, failUnit := unit24 die idx % 0x10000 })).alert 1 := by
    rw [Dev.boot_stops hhigh' h, Dev.failUnit_first hnone]
  have hbit : bit (D.boot b).mod.alert 1 = true := by rw [hrun]; exact Dev.bit_alert _ _
  obtain ⟨w, o, halert, -⟩ := Dev.alert_shape ((D.booting.atStep (min st 12)).setTrust { (D.booting.atStep (min st 12)).trust with
      failDie := unit24 die idx / 0x10000, failUnit := unit24 die idx % 0x10000 }) 1
  have hdie : unit24 die idx / 0x10000 = die := by unfold unit24; omega
  rw [halert, Dev.atStep_of, hdie] at hrun
  refine ⟨by rw [hrun]; rfl, by rw [hrun]; rfl, ?_, ?_, hbit, ?_⟩
  · rw [hrun, hshape]; rfl
  · rw [hrun, hshape]; rfl
  · have hpower : (D.boot b).mod.pwrgd = (D.mod.pwrgd || decide (4 ≤ min st 12)) := by rw [hrun]; rfl
    rw [hpower, hdown', Bool.false_or, decide_eq_true_iff]
    omega

theorem Dev.Fresh.recovers {d D : Dev} (hD : d.Fresh D) {b : BringUp} (h : b.stopAt = none)
    (hrec : b.mrec = true ∨ b.identityOk = false) : (D.boot b).trust.recovery = true ∧
      (D.boot b).trust.cause = (if b.mrec then 5 else 4) ∧ (D.boot b).mod.pwrgd = true ∧ bit (D.boot b).mod.alert 7 = true ∧
      (D.boot b).mem = [] ∧ (D.boot b).parts = [] := by
  obtain ⟨a, cl, m, hshape, hhigh, -⟩ := hD
  have hhigh' : D.mod.mrstLow = false := by rw [hshape]; exact hhigh
  obtain ⟨e, he⟩ : ∃ e : Dev, e = (D.booting.setTrust { D.booting.trust with
      step := 1, recovery := true, cause := if b.mrec then 5 else 4, reason := 0 }).setMod { D.booting.mod with pwrgd := true } := ⟨_, rfl⟩
  have hrun : D.boot b = e.alert 7 := by rw [Dev.boot_recovers hhigh' h hrec, he]; rfl
  obtain ⟨w, o, halert, -⟩ := Dev.alert_shape e 7
  have hbit : bit (D.boot b).mod.alert 7 = true := by rw [hrun]; exact Dev.bit_alert _ _
  rw [halert, he] at hrun
  exact ⟨by rw [hrun]; rfl, by rw [hrun]; rfl, by rw [hrun]; rfl, hbit, by rw [hrun, hshape]; rfl, by rw [hrun, hshape]; rfl⟩

/-- The slot and the record that boot verify, and every skillet has microcode that does. -/
structure Flash.Boots (f : Flash) (slot n : Nat) (man rec fw io : Img) : Prop where
  recordUsed : f.recordUsed = some n
  used : (f.record n).used = true
  manifest : (f.slot slot).image 1 = some man
  record : (f.record n).image 2 = some rec
  firmware : (f.slot slot).image 3 = some fw
  ioFirmware : (f.slot slot).image 5 = some io
  manSigned : man.signed [] = true
  recSigned : rec.signed man.body = true
  fwSigned : fw.signed man.body = true
  ioSigned : io.signed man.body = true
  recFresh : rec.fresh f (confOf rec.body).floors = true
  manFresh : man.fresh f (confOf rec.body).floors = true
  fwFresh : fw.fresh f (confOf rec.body).floors = true
  ioFresh : io.fresh f (confOf rec.body).floors = true
  identity : field rec.body 0 2 = 0xB0
  microcode : ∀ k, k < 16 → ∃ i, (f.slot slot).microcode k = some i ∧ i.signed (f.slot slot).manifest = true ∧
    i.fresh f (confOf rec.body).floors = true

theorem Dev.Fresh.boots {d D : Dev} (hD : d.Fresh D) {n : Nat} {man rec fw io : Img}
    (h : d.flash.Boots d.flash.choose.1 n man rec fw io) :
    (D.boot .good).trust.step = 13 ∧ (D.boot .good).trust.recovery = false ∧ (D.boot .good).trust.failDie = 0xFF ∧
      (D.boot .good).trust.bootSlot = d.flash.choose.1 ∧ (D.boot .good).trust.ftLevel = fw.ft ∧
      (D.boot .good).mod.pwrgd = true ∧ (D.boot .good).conf = confOf rec.body ∧ (D.boot .good).mem = [] ∧
      (D.boot .good).parts = [] ∧ (D.boot .good).qps = [] ∧ (D.boot .good).fns = [] ∧
      (D.boot .good).flash.fwCtr = d.flash.fwCtr ∧ (D.boot .good).flash.slotA = d.flash.slotA ∧
      (D.boot .good).flash.slotB = d.flash.slotB := by
  obtain ⟨a, cl, m, hshape, hhigh, -⟩ := hD
  have hhigh' : D.mod.mrstLow = false := by rw [hshape]; exact hhigh
  have hflash' : D.flash = d.flash := by rw [hshape]
  obtain ⟨p, t, u, c, hflash⟩ := Dev.booting_flash D
  rw [hflash'] at hflash
  have hboots : D.booting.flash.Boots d.flash.choose.1 n man rec fw io := by
    rw [hflash]
    exact ⟨h.1, h.2, h.3, h.4, h.5, h.6, h.7, h.8, h.9, h.10, h.11, h.12, h.13, h.14, h.15, h.16⟩
  obtain ⟨dr, cr, fb, sk, co, md, o, tr, hstage, htrust, hpower⟩ := Dev.bootStage0_good D.booting d.flash.choose.1 n
    hboots.recordUsed hboots.used hboots.manifest hboots.record hboots.firmware hboots.manSigned hboots.recSigned hboots.fwSigned
    hboots.recFresh hboots.manFresh hboots.fwFresh hboots.identity hboots.ioFirmware hboots.ioSigned hboots.ioFresh
    hboots.microcode
  have hrun := Dev.boot_good (d := D) hhigh'
  rw [hflash', hstage] at hrun
  have hbooting : D.booting.trust = { bootSlot := d.flash.choose.1, trial := d.flash.choose.2.1 } := by
    rw [← hflash', hshape]
    rfl
  rw [hbooting] at htrust
  have hflash2 : (D.boot .good).flash = D.booting.flash := by rw [hrun]
  have htr : (D.boot .good).trust = tr := by rw [hrun]
  rw [htr, hflash2, hflash, htrust]
  refine ⟨rfl, rfl, rfl, rfl, rfl, by rw [hrun]; exact hpower, by rw [hrun], ?_, ?_, ?_, ?_, rfl, rfl, rfl⟩
  · rw [hrun, hshape]; rfl
  · rw [hrun, hshape]; rfl
  · rw [hrun, hshape]; rfl
  · rw [hrun, hshape]; rfl

/-- Settles O40: every reset that lets the device sequence run begins it on a fresh device (`exec_boots`). -/
theorem resetsBringUp : Obligations.ResetsBringUp := by
  unfold Obligations.ResetsBringUp
  intro s b c st die idx n x man rec fw io hconv
  refine ⟨fun hhigh => ?low, fun hlow => ⟨?lowSame, ?heldReset⟩, fun hkey => ?wrongKey, fun hhigh => ?noRise, fun hlow => ?heldPower,
    fun t hhigh hrun => ?layers, fun hc hlayers => ⟨fun hstop hidx => ?stops, fun hstop hrec => ?recovers, fun hgood hx h1 h2 h3 h4
      h5 h6 h7 h8 h9 h10 h11 h12 h13 h14 h15 h16 => ?boots⟩⟩
  case low =>
    refine ⟨_, exec_mrstLow s, ?_⟩
    rw [State.onDev_dev, if_pos (by rw [hconv, hhigh]; rfl)]
    exact ⟨rfl, rfl, rfl, rfl, rfl, rfl, rfl, rfl⟩
  case lowSame =>
    rw [exec_mrstLow]
    exact State.next_same (if_neg (by simp [hlow]))
  case heldReset =>
    rw [exec_ctlDevReset]
    exact State.next_same (if_neg (by simp [hlow]))
  case wrongKey =>
    rw [exec_ctlDevReset]
    exact State.next_same (if_neg (by simp [hkey]))
  case noRise =>
    rw [exec_mrstRise]
    exact State.next_same (if_neg (by simp [hhigh]))
  case heldPower =>
    have hboot : (s.dev.wiped true).boot b = s.dev.wiped true := if_pos hlow
    have hrun : (s.dev.wiped true).bringUp b = s.dev.wiped true := by
      rw [Dev.bringUp, hboot]
      exact if_neg (show ¬ (decide (10 ≤ 0) || false) = true by decide)
    refine ⟨_, exec_powerOnReset b s, ?_⟩
    rw [State.onDev_dev, if_pos hconv, hrun]
    exact ⟨rfl, rfl, rfl, rfl⟩
  case layers =>
    rw [exec_powerOnReset] at hrun ⊢
    injection hrun with hrun
    subst hrun
    have hnone : (s.dev.wiped true).bringUp { b with layers := [] } = (s.dev.wiped true).boot b := by
      rw [Dev.bringUp, Dev.knownAnswer_none _ rfl, Dev.boot_layers]
    simp only [State.onDev, if_pos hconv, hnone]
    rfl
  case stops =>
    obtain ⟨t, D, hrun, hdev, hfresh⟩ := exec_boots hconv hlayers hc
    exact ⟨t, hrun, by rw [hdev]; exact hfresh.stops hstop hidx⟩
  case recovers =>
    obtain ⟨t, D, hrun, hdev, hfresh⟩ := exec_boots hconv hlayers hc
    exact ⟨t, hrun, by rw [hdev]; exact hfresh.recovers hstop hrec⟩
  case boots =>
    obtain ⟨t, D, hrun, hdev, hfresh⟩ := exec_boots hconv hlayers hc
    obtain ⟨p, r, u, hchoose⟩ := Flash.choose_shape s.dev.flash
    have hslot : x = s.dev.flash.slot s.dev.flash.choose.1 := by rw [hx, hchoose]; rfl
    subst hslot hgood
    exact ⟨t, hrun, by rw [hdev]; exact hfresh.boots ⟨h1, h2, h3, h4, h5, h6, h7, h8, h9, h10, h11, h12, h13, h14, h15, h16⟩⟩

end Sys2Proof.Machine
end

section
/-!
PROOF. The conventional reset, the host link, and the management header's status, alert and cap (R376, R453, R511, R512, R519,
R534 to R536).
-/

namespace Sys2Proof.Machine

theorem exec_conventionalReset (s : State) : exec .conventionalReset s = .next (s.onDev Dev.convReset) := rfl

theorem exec_perstDeassertion (sp w : Nat) (s : State) : exec (.perstDeassertion sp w) s = .next (s.onDev (fun d =>
    d.setMod (if d.hostUp then { d.mod with perst := false }.trained sp w else { d.mod with perst := false }))) := rfl

theorem exec_hostLinkRetrain (sp w : Nat) (s : State) : exec (.hostLinkRetrain sp w) s =
    .next (s.onDev (fun d => if d.hostUp && !d.mod.perst then d.setMod (d.mod.trained sp w) else d)) := rfl

theorem exec_sriovReenable (s : State) : exec .sriovReenable s =
    .next (s.onDev (fun d => if d.hostUp && !d.trust.recovery then d.setMod { d.mod with sriov := true } else d)) := rfl

theorem exec_i3cDynamicAddress (a : Nat) (s : State) : exec (.i3cDynamicAddress a) s = .next (s.onDev (fun d =>
    if d.mod.converter && decide (a < 128) then d.setMod { d.mod with dynAddr := a } else d)) := rfl

theorem exec_getStatus (s : State) : exec .getStatus s = .next (s.onDev (fun d => d.i3c 0 d.statusBytes)) := rfl

theorem exec_clearAlert (m : Nat) (s : State) : exec (.clearAlert m) s = .next (s.onDev (fun d =>
    if d.mod.converter then
      (d.setMod { d.mod with alert := alertClear d.mod.alert m }).i3c 0 (leBytes 4 (alertClear d.mod.alert m))
    else d)) := rfl

theorem exec_setCap (w : Nat) (s : State) : exec (.setCap w) s =
    .next (s.onDev (fun d => if d.mod.converter then d.setCap w else d)) := rfl

/-- The answer to GET_CAP (R536). -/
def Dev.capBytes (d : Dev) : Bytes :=
  leBytes 2 d.pwr.cap ++ leBytes 2 d.pwr.capMgmt ++ leBytes 2 d.pwr.effCap ++ leBytes 1 d.pwr.mode

theorem exec_getCap (s : State) : exec .getCap s =
    .next (s.onDev (fun d => if d.trust.recovery then d.i3c 3 [] else d.i3c 0 d.capBytes)) := rfl

/-! The host link. -/

/-- The module with the host link down and no virtual function (R512). -/
def Mod.linkDown (m : Mod) : Mod :=
  { m with perst := true, sriov := false, linkSpeed := 0, linkWidth := 0, flit := false, ptm := false }

/-- The device with its host link down (R512). -/
def Dev.linkDown (d : Dev) : Dev := d.setMod d.mod.linkDown

theorem Dev.linkDown_keeps (d : Dev) : (∀ f, d.linkDown.fn f = d.fn f) ∧ d.linkDown.parts = d.parts ∧ d.linkDown.ctxs = d.ctxs ∧
    d.linkDown.mem = d.mem ∧ d.linkDown.fab = d.fab ∧ d.linkDown.crock = d.crock ∧ d.linkDown.trust = d.trust ∧
    d.linkDown.mod = d.mod.linkDown ∧ ∀ f q, d.linkDown.qp f q = d.qp f q :=
  ⟨fun _ => rfl, rfl, rfl, rfl, rfl, rfl, rfl, rfl, fun _ _ => rfl⟩

theorem Dev.convReset_eq (d : Dev) : d.convReset = ((List.range 17).foldl Dev.flr d).linkDown := rfl

theorem mem_functions {f : Nat} : f ∈ List.range 17 ↔ f ≤ 16 := by rw [List.mem_range]; omega

/-- A conventional reset resets the 17 functions and takes the link down. -/
theorem Dev.convReset_facts (d : Dev) : d.convReset.mod = d.mod.linkDown ∧
    (∀ f, f ≤ 16 → d.convReset.fn f = {}) ∧ d.convReset.parts = d.parts ∧ d.convReset.ctxs = d.ctxs ∧ d.convReset.mem = d.mem ∧
    d.convReset.fab = d.fab ∧ d.convReset.crock = d.crock ∧ d.convReset.trust = d.trust ∧
    ∀ f q x, q < 128 → f ≤ 16 → d.qp f q = some x → (∀ c ∈ x.cmds, c.phase ≠ .running) → d.convReset.qp f q = none := by
  obtain ⟨hparts, hctxs, hmem, hfab, hcrock, htrust, hmod, hviews, -, hpairs⟩ :=
    Dev.flrs_facts (List.range 17) d (fun f hf => by
      have := mem_functions.mp hf
      omega)
  obtain ⟨kfn, kparts, kctxs, kmem, kfab, kcrock, ktrust, kmod, kqp⟩ := Dev.linkDown_keeps ((List.range 17).foldl Dev.flr d)
  rw [hmod] at kmod
  rw [Dev.convReset_eq]
  exact ⟨kmod, fun f hf => (kfn f).trans (hviews f (.inl (mem_functions.mpr hf))), kparts.trans hparts, kctxs.trans hctxs,
    kmem.trans hmem, kfab.trans hfab, kcrock.trans hcrock, ktrust.trans htrust,
    fun f q x hq hf hx hidle => (kqp f q).trans (hpairs f q x hq (mem_functions.mpr hf) hx hidle)⟩

theorem Dev.hostUp_iff (d : Dev) : d.hostUp = true ↔ d.trust.recovery = true ∨ 4 ≤ d.trust.step := by
  simp [Dev.hostUp]

/-! The management header. -/

theorem Dev.i3c_on {d : Dev} (h : d.mod.converter = true) (outcome : Nat) (b : Bytes) :
    d.i3c outcome b = d.setOut (d.out ++ [.i3c outcome b]) := if_pos h

theorem Dev.i3c_off {d : Dev} (h : d.mod.converter = false) (outcome : Nat) (b : Bytes) : d.i3c outcome b = d :=
  if_neg (by rw [h]; decide)

theorem bit_alertClear (w m : Nat) {i : Nat} (hi : i < 32) : bit (alertClear w m) i = (bit w i && (i == 0 || !bit m i)) := by
  unfold alertClear
  rw [bit_ofBits, decide_eq_true hi, Bool.true_and, Bool.eq_iff_iff, List.contains_iff_mem, List.mem_filter, mem_setBits_bit,
    Bool.and_eq_true]
  exact and_congr_left fun _ => ⟨fun h => h.2, fun h => ⟨hi, h⟩⟩

theorem Dev.setCap_recovery {d : Dev} (h : d.trust.recovery = true) (w : Nat) : d.setCap w = d.i3c 3 [] := if_pos h

theorem Dev.setCap_range {d : Dev} (h : d.trust.recovery = false) {w : Nat} (hw : w < 400 ∨ 1200 < w) : d.setCap w = d.i3c 1 [] := by
  have hbad : (!capOk w) = true := by
    rw [Bool.not_eq_true', Bool.eq_false_iff]
    exact fun hok => by have := (capOk_iff w).mp hok; omega
  unfold Dev.setCap
  rw [if_neg (by rw [h]; decide), if_pos hbad]

/-- SET_CAP within its range sets the cap of the management header and answers the effective cap. -/
theorem Dev.setCap_sets {d : Dev} (hconv : d.mod.converter = true) (h : d.trust.recovery = false) {w : Nat} (hlow : 400 ≤ w)
    (hhigh : w ≤ 1200) : (d.setCap w).pwr = { d.pwr with capMgmt := w } ∧
      Out.i3c 0 (leBytes 2 (d.setCap w).pwr.effCap) ∈ (d.setCap w).out := by
  have hreports := Dev.reports_event (d.setPwr { d.pwr with capMgmt := w }) {
    code := evCapChanged, unit := unit24 dieCd uiDie, payload := leBytes 2 d.pwr.effCap ++
      leBytes 2 ({ d.pwr with capMgmt := w } : Pwr).effCap ++ leBytes 1 d.pwr.mode ++ leBytes 1 1 }
  have hconv' : (d.capEvent { d.pwr with capMgmt := w } 1).mod.converter = true := by
    rw [Dev.capEvent, hreports.mod]
    exact hconv
  have hrun : d.setCap w = (d.capEvent { d.pwr with capMgmt := w } 1).i3c 0
      (leBytes 2 (d.capEvent { d.pwr with capMgmt := w } 1).pwr.effCap) := by
    unfold Dev.setCap
    rw [if_neg (by rw [h]; decide), if_neg (by rw [(capOk_iff w).mpr ⟨hlow, hhigh⟩]; decide)]
  rw [hrun, Dev.i3c_on hconv', Dev.setOut_pwr, Dev.pwr_capEvent]
  exact ⟨rfl, List.mem_append_right _ (List.mem_singleton.mpr rfl)⟩

/-- Settles O41: the reset by `Dev.flrs_facts`, the link and the header's messages by their cases. -/
theorem linkAndManagement : Obligations.LinkAndManagement := by
  unfold Obligations.LinkAndManagement
  refine ⟨fun s f sp w => ⟨?reset, fun hup => ?trains, fun hdown hnorm => ?waits, fun hup hperst => ?retrains, fun hperst => ?held,
      fun hup hnorm => ?sriov, fun hrec => ?noSriov⟩,
    fun s m w a => ⟨fun hconv ha => ?address, fun hoff => ⟨?off1, ?off2, ?off3, ?off4, ?off5⟩, fun hconv => ⟨?status, ?clear,
      fun hrec => ?recovery, fun hnorm hout => ?range, fun hnorm hlow hhigh => ?cap, fun hnorm => ?getCap⟩⟩⟩
  case reset =>
    obtain ⟨hmod, hviews, hparts, hctxs, hmem, hfab, hcrock, htrust, hpairs⟩ := Dev.convReset_facts s.dev
    refine ⟨_, exec_conventionalReset s, ?_⟩
    rw [State.onDev_dev, hmod]
    exact ⟨rfl, rfl, rfl, rfl, hviews f, hparts, hctxs, hmem, hfab, hcrock, htrust, hpairs f⟩
  case trains =>
    refine ⟨_, exec_perstDeassertion sp w s, ?_⟩
    rw [State.onDev_dev, if_pos ((Dev.hostUp_iff _).mpr hup.symm)]
    rfl
  case waits =>
    refine ⟨_, exec_perstDeassertion sp w s, ?_⟩
    rw [State.onDev_dev, if_neg]
    rw [Dev.hostUp_iff, hnorm]
    simpa using hdown
  case retrains =>
    refine ⟨_, exec_hostLinkRetrain sp w s, ?_⟩
    rw [State.onDev_dev, if_pos (by rw [(Dev.hostUp_iff _).mpr (.inr hup), hperst]; rfl)]
    rfl
  case held =>
    rw [exec_hostLinkRetrain]
    exact State.next_same (if_neg (by simp [hperst]))
  case sriov =>
    refine ⟨_, exec_sriovReenable s, ?_⟩
    rw [State.onDev_dev, if_pos (by rw [(Dev.hostUp_iff _).mpr (.inr hup), hnorm]; rfl)]
  case noSriov =>
    rw [exec_sriovReenable]
    exact State.next_same (if_neg (by simp [hrec]))
  case address =>
    refine ⟨_, exec_i3cDynamicAddress a s, ?_⟩
    rw [State.onDev_dev, if_pos (by simp [hconv, ha])]
  case off1 =>
    rw [exec_i3cDynamicAddress]
    exact State.next_same (if_neg (by simp [hoff]))
  case off2 =>
    rw [exec_getStatus]
    exact State.next_same (Dev.i3c_off hoff _ _)
  case off3 =>
    rw [exec_clearAlert]
    exact State.next_same (if_neg (by simp [hoff]))
  case off4 =>
    rw [exec_setCap]
    exact State.next_same (if_neg (by simp [hoff]))
  case off5 =>
    rw [exec_getCap]
    refine State.next_same ?_
    rw [Dev.i3c_off hoff, Dev.i3c_off hoff, ite_self]
  case status => exact ⟨_, exec_getStatus s, Dev.i3c_on hconv _ _⟩
  case clear =>
    have hcleared := Dev.i3c_on (d := s.dev.setMod { s.dev.mod with alert := alertClear s.dev.mod.alert m }) hconv 0
      (leBytes 4 (alertClear s.dev.mod.alert m))
    refine ⟨_, exec_clearAlert m s, ?_⟩
    rw [State.onDev_dev, if_pos hconv, hcleared]
    exact ⟨fun i hi => bit_alertClear _ _ hi, rfl⟩
  case recovery =>
    refine ⟨_, _, exec_setCap w s, exec_getCap s, ?_, ?_⟩
    · rw [State.onDev_dev, if_pos hconv, Dev.setCap_recovery hrec, Dev.i3c_on hconv]
    · rw [State.onDev_dev, if_pos hrec, Dev.i3c_on hconv]
  case range =>
    refine ⟨_, exec_setCap w s, ?_⟩
    rw [State.onDev_dev, if_pos hconv, Dev.setCap_range hnorm hout, Dev.i3c_on hconv]
  case cap =>
    refine ⟨_, exec_setCap w s, ?_⟩
    rw [State.onDev_dev, if_pos hconv]
    exact Dev.setCap_sets hconv hnorm hlow hhigh
  case getCap =>
    refine ⟨_, exec_getCap s, ?_⟩
    rw [State.onDev_dev, if_neg (by rw [hnorm]; decide), Dev.i3c_on hconv]
    rfl

end Sys2Proof.Machine
end

section
/-!
PROOF. The update commands, and images through the management header (R490 to R492, R498 to R503, R536, R537).
-/

namespace Sys2Proof.Machine

theorem exec_fwWrite (r : CmdRef) (img : HostRead) (ok : Bool) (s : State) :
    exec (.fwWrite r img ok) s = .next (s.onDev (fun d => d.fwWrite r img ok)) := rfl

theorem exec_fwActivate (r : CmdRef) (s : State) : exec (.fwActivate r) s = .next (s.onDev (fun d => d.fwActivate r)) := rfl

theorem exec_microcodeLoad (r : CmdRef) (img : HostRead) (failed : List Nat) (s : State) :
    exec (.microcodeLoad r img failed) s = .next (s.onDev (fun d => d.microcodeLoad r img failed)) := rfl

theorem exec_trialCommit (s : State) : exec .trialCommit s = .next (s.onDev Dev.trialCommit) := rfl

theorem exec_imageWrite_on {s : State} (h : s.dev.mod.converter = true) (off : Nat) (b : Bytes) :
    exec (.imageWrite off b) s = .next (s.onDev (fun _ => s.dev.imageWrite off b)) :=
  congrArg (fun d => Host.Outcome.next (s.onDev fun _ => d)) (if_pos h)

theorem exec_imageCommit_on {s : State} (h : s.dev.mod.converter = true) (target len : Nat) (ok : Bool) (bu : BringUp) :
    exec (.imageCommit target len ok bu) s = .next (s.onDev (fun _ => s.dev.imageCommit target len ok bu)) :=
  congrArg (fun d => Host.Outcome.next (s.onDev fun _ => d)) (if_pos h)

theorem exec_recoveryWrite_on {s : State} (h : s.dev.mod.converter = true) (off : Nat) (b : Bytes) :
    exec (.recoveryWrite off b) s = .next (s.onDev (fun _ => s.dev.recoveryWrite off b)) :=
  congrArg (fun d => Host.Outcome.next (s.onDev fun _ => d)) (if_pos h)

theorem exec_recoveryRun_on {s : State} (h : s.dev.mod.converter = true) (len : Nat) :
    exec (.recoveryRun len) s = .next (s.onDev (fun _ => s.dev.recoveryRun len)) :=
  congrArg (fun d => Host.Outcome.next (s.onDev fun _ => d)) (if_pos h)

/-! FW_WRITE. -/

/-- The outcome of verifying what FW_WRITE brings for a target. -/
def Dev.fwOutcome (d : Dev) (target : Nat) (b : Bytes) : Nat := if target = 0 then d.setOutcome b else d.recordOutcome b

theorem Dev.fwStore_bad {d : Dev} {target : Nat} {b : Bytes} (h : d.fwOutcome target b ≠ 0) (ok : Bool) :
    d.fwStore target b ok = (d, d.fwOutcome target b) := if_pos h

theorem Dev.fwStore_flashFails {d : Dev} {target : Nat} {b : Bytes} (h : d.fwOutcome target b = 0) :
    d.fwStore target b false = (d, 7) := (if_neg (fun hne => hne h)).trans (if_pos rfl)

theorem Dev.fwStore_slot {d : Dev} {target : Nat} {b : Bytes} (h : d.fwOutcome target b = 0) (ht : target = 0) :
    d.fwStore target b true = (d.setFlash (d.flash.putSlot (1 - d.flash.active) { valid := true, data := b }), 0) :=
  (if_neg (fun hne => hne h)).trans ((if_neg (by decide)).trans (if_pos ht))

theorem Dev.fwStore_record {d : Dev} {target : Nat} {b : Bytes} (h : d.fwOutcome target b = 0) (ht : target ≠ 0) :
    d.fwStore target b true = (d.setFlash (d.flash.putRecord d.flash.recordSpare { valid := true, data := b }), 0) :=
  (if_neg (fun hne => hne h)).trans ((if_neg (by decide)).trans (if_neg ht))

theorem Dev.fwStore_good {d : Dev} {target : Nat} {b : Bytes} (h : d.fwOutcome target b = 0) :
    ∃ f, d.fwStore target b true = (d.setFlash f, 0) ∧
      (target = 0 → f = d.flash.putSlot (1 - d.flash.active) { valid := true, data := b }) ∧
      (target = 1 → f = d.flash.putRecord d.flash.recordSpare { valid := true, data := b }) := by
  by_cases ht : target = 0
  · exact ⟨_, Dev.fwStore_slot h ht, fun _ => rfl, fun h1 => by omega⟩
  · exact ⟨_, Dev.fwStore_record h ht, fun h0 => absurd h0 ht, fun _ => rfl⟩

/-- An FW_WRITE whose fields are in order stores what the host read brings. -/
theorem Dev.fwWrite_stores {d : Dev} {r : CmdRef} {c : Cmd} (h : d.Ready r 0x10 c) (hh : hdrOk c.desc 0 [(8, 17)] = true)
    (hl : c.f 0x10 8 ≤ 67108864) (ht : byteAt c.desc 0x18 ≤ 1) (img : HostRead) (ok : Bool) :
    d.fwWrite r img ok = d.withHost r img (fun b =>
      (d.fwStore (byteAt c.desc 0x18) (b.take (c.f 0x10 8)) ok).1.finish r stSuccess 0
        (d.fwStore (byteAt c.desc 0x18) (b.take (c.f 0x10 8)) ok).2) :=
  (Dev.withCmd_of h _).trans (if_neg (by simp [hh]; omega))

/-! FW_ACTIVATE. -/

/-- A finish after a write of flash ends the command as it would without. -/
theorem Dev.ended_setFlash_finish (d : Dev) (f : Flash) {r : CmdRef} {c : Cmd} (h : d.cmd r = some c) (hm : c.marks = {})
    (r1 : Nat) : ((d.setFlash f).finish r stSuccess 0 r1).Ended r stSuccess 0 r1 0 :=
  Dev.ended_finish _ (show (d.setFlash f).cmd r = some c from h) hm (by decide) 0 r1 0 []

theorem Dev.fwActivate_invalid {d : Dev} {r : CmdRef} {c : Cmd} (h : d.Ready r 0x11 c) (hh : hdrOk c.desc 0 [(8, 1)] = true)
    (hn : byteAt c.desc 8 ≤ 1) (hv : (d.flash.slot (byteAt c.desc 8)).valid = false) :
    d.fwActivate r = d.finish r stSuccess 0 3 :=
  (Dev.withCmd_of h _).trans ((if_neg (by simp [hh]; omega)).trans (if_pos (by rw [hv]; rfl)))

/-- Flash once a slot is due at the next reset (R500). -/
def Flash.activated (f : Flash) (n : Nat) : Flash := { f with pending := some n, trialFail := false, trialStarted := false }

theorem Dev.fwActivate_valid {d : Dev} {r : CmdRef} {c : Cmd} (h : d.Ready r 0x11 c) (hh : hdrOk c.desc 0 [(8, 1)] = true)
    (hn : byteAt c.desc 8 ≤ 1) (hv : (d.flash.slot (byteAt c.desc 8)).valid = true) :
    d.fwActivate r = (d.setFlash (d.flash.activated (byteAt c.desc 8))).finish r stSuccess :=
  (Dev.withCmd_of h _).trans ((if_neg (by simp [hh]; omega)).trans (if_neg (by rw [hv]; decide)))

/-! MICROCODE_LOAD. -/

/-- The outcome of the checks of MICROCODE_LOAD on an image that parses (R502). -/
def Dev.microcodeOutcome (d : Dev) (i : Img) (sk : List Nat) : Nat :=
  if i.signed d.manifest = false then 1 else if i.fresh d.flash d.conf.floors = false then 2
  else if i.type ≠ 4 then 3 else if ∃ k ∈ sk, d.skilletInUse k = true then 5
  else if i.ft ≠ d.trust.ftLevel then 6 else 0

/-- What MICROCODE_LOAD does with an image that parses. -/
def Dev.microcodeWith (d : Dev) (r : CmdRef) (sk : List Nat) (i : Img) : Dev :=
  if !(i.signed d.manifest) then d.finish r stSuccess 0 1
  else if !(i.fresh d.flash d.conf.floors) then d.finish r stSuccess 0 2
  else if i.type ≠ 4 then d.finish r stSuccess 0 3
  else if sk.any d.skilletInUse then d.finish r stSuccess 0 5
  else if i.ft ≠ d.trust.ftLevel then d.finish r stSuccess 0 6
  else (sk.foldl (fun d k => d.loadMicrocode i [] k) d).finish r stSuccess

theorem Dev.microcodeLoad_noImage {d : Dev} {r : CmdRef} {c : Cmd} (h : d.Ready r 0x12 c)
    (hh : hdrOk c.desc 0 [(8, 18)] = true) {b : Bytes} (hp : parseImg (b.take (c.f 0x10 8)) = none) :
    d.microcodeLoad r (.ok b) [] = d.finish r stSuccess 0 1 := by
  unfold Dev.microcodeLoad
  rw [Dev.withCmd_of h]
  dsimp only [Dev.withHost]
  rw [if_neg (by rw [hh]; decide), hp]

theorem Dev.microcodeLoad_image {d : Dev} {r : CmdRef} {c : Cmd} (h : d.Ready r 0x12 c)
    (hh : hdrOk c.desc 0 [(8, 18)] = true) {b rest : Bytes} {i : Img} (hp : parseImg (b.take (c.f 0x10 8)) = some (i, rest)) :
    d.microcodeLoad r (.ok b) [] = d.microcodeWith r (setBits 16 (c.f 0x18 2)) i := by
  unfold Dev.microcodeLoad
  rw [Dev.withCmd_of h]
  dsimp only [Dev.withHost]
  rw [if_neg (by rw [hh]; decide), hp]
  rfl

/-- MICROCODE_LOAD ends with the outcome of its checks, and loads where all pass. -/
theorem Dev.microcodeWith_outcome (d : Dev) (r : CmdRef) (sk : List Nat) (i : Img) :
    (d.microcodeOutcome i sk ≠ 0 → d.microcodeWith r sk i = d.finish r stSuccess 0 (d.microcodeOutcome i sk)) ∧
    (d.microcodeOutcome i sk = 0 →
      d.microcodeWith r sk i = (sk.foldl (fun d k => d.loadMicrocode i [] k) d).finish r stSuccess) := by
  unfold Dev.microcodeWith Dev.microcodeOutcome
  by_cases hs : i.signed d.manifest = true
  case neg => simp [hs]
  by_cases hf : i.fresh d.flash d.conf.floors = true
  case neg => simp [hs, hf]
  by_cases ht : i.type = 4
  case neg => simp [hs, hf, ht]
  by_cases hu : ∃ k ∈ sk, d.skilletInUse k = true
  case pos => simp [hs, hf, ht, hu]
  by_cases hft : i.ft = d.trust.ftLevel
  · simp [hs, hf, ht, hu, hft]
  · simp [hs, hf, ht, hu, hft]

/-! The commit of a trial. -/

theorem Dev.trialCommit_not {d : Dev} (h : d.trust.trial = false ∨ d.trust.step ≠ 13) : d.trialCommit = d :=
  if_neg (by rcases h with h | h <;> simp [h])

/-- The flash after the commit of the slot that runs (R492, R500). -/
def Dev.committed (d : Dev) : Flash :=
  { d.flash with active := d.trust.bootSlot, pending := none, trialStarted := false }

theorem Dev.trialCommit_of {d : Dev} (h : d.trust.trial = true) (h13 : d.trust.step = 13) :
    d.trialCommit = (d.setFlash (d.committed.advance d.trust.bootSlot)).setTrust { d.trust with trial := false } :=
  if_pos (by simp [h, h13])

theorem Dev.committed_images (d : Dev) (n : Nat) : (d.committed.slot n).images = (d.flash.slot n).images := rfl

/-- A running maximum is at least its start and every element, and is one of them. -/
theorem foldl_max_svn (l : List Img) (a : Nat) : a ≤ l.foldl (fun a i => max a i.svn) a ∧
    (∀ z ∈ l, z.svn ≤ l.foldl (fun a i => max a i.svn) a) ∧
    (l.foldl (fun a i => max a i.svn) a = a ∨ ∃ z ∈ l, z.svn = l.foldl (fun a i => max a i.svn) a) := by
  induction l generalizing a with
  | nil => exact ⟨Nat.le_refl a, fun z hz => absurd hz List.not_mem_nil, .inl rfl⟩
  | cons x l ih =>
    obtain ⟨hle, hall, hone⟩ := ih (max a x.svn)
    rw [List.foldl_cons]
    refine ⟨Nat.le_trans (Nat.le_max_left ..) hle, ?_, ?_⟩
    · intro z hz
      rcases List.mem_cons.1 hz with rfl | hz
      · exact Nat.le_trans (Nat.le_max_right ..) hle
      · exact hall z hz
    · rcases hone with h | ⟨z, hz, h⟩
      · rcases Nat.le_total a x.svn with hax | hax
        · exact .inr ⟨x, List.mem_cons_self, by rw [h, Nat.max_eq_right hax]⟩
        · exact .inl (by rw [h, Nat.max_eq_left hax])
      · exact .inr ⟨z, List.mem_cons_of_mem _ hz, h⟩

/-- What the commit does to the firmware counter: it is the highest of itself and the numbers that advance it. -/
theorem Flash.advance_fwCtr (f : Flash) (n : Nat) : f.fwCtr ≤ (f.advance n).fwCtr ∧
    (∀ z ∈ (f.slot n).images, z.advance = true → z.svn ≤ (f.advance n).fwCtr) ∧
    ((f.advance n).fwCtr = f.fwCtr ∨ ∃ z ∈ (f.slot n).images, z.advance = true ∧ z.svn = (f.advance n).fwCtr) := by
  obtain ⟨hle, hall, hone⟩ := foldl_max_svn ((f.slot n).images.filter (·.advance)) f.fwCtr
  refine ⟨hle, fun z hz ha => hall z (List.mem_filter.2 ⟨hz, ha⟩), hone.imp_right ?_⟩
  rintro ⟨z, hz, h⟩
  exact ⟨z, (List.mem_filter.1 hz).1, (List.mem_filter.1 hz).2, h⟩

/-! Images through the management header. -/

/-- Where the boot ROM of recovery mode answers (R490). -/
theorem Dev.bootRom_iff (d : Dev) : (d.trust.recovery && !d.trust.imageRunning) = true ↔
    d.trust.recovery = true ∧ d.trust.imageRunning = false := by
  cases d.trust.recovery <;> cases d.trust.imageRunning <;> decide

theorem Dev.not_bootRom_iff (d : Dev) : ¬ (d.trust.recovery && !d.trust.imageRunning) = true ↔
    d.trust.recovery = false ∨ d.trust.imageRunning = true := by
  cases d.trust.recovery <;> cases d.trust.imageRunning <;> decide

theorem Dev.imageRuns_iff (d : Dev) : (!d.trust.recovery || d.trust.imageRunning) = true ↔
    d.trust.recovery = false ∨ d.trust.imageRunning = true := by
  cases d.trust.recovery <;> cases d.trust.imageRunning <;> decide

theorem Dev.not_imageRuns_iff (d : Dev) : ¬ (!d.trust.recovery || d.trust.imageRunning) = true ↔
    d.trust.recovery = true ∧ d.trust.imageRunning = false := by
  cases d.trust.recovery <;> cases d.trust.imageRunning <;> decide

/-- Whether a chunk of an image is refused: its length, or the limit of the image. -/
theorem chunkBad_iff (b : Bytes) (off m : Nat) : (!chunkOk b || decide (m < off + b.length)) = true ↔
    b = [] ∨ 240 < b.length ∨ m < off + b.length := by
  have hnil : b = [] ↔ b.length = 0 := List.length_eq_zero_iff.symm
  rw [hnil]
  simp only [chunkOk, Bool.or_eq_true, Bool.not_eq_true', Bool.and_eq_false_iff, decide_eq_false_iff_not, decide_eq_true_iff]
  omega

theorem not_chunkBad {b : Bytes} {off m : Nat} (h1 : 1 ≤ b.length) (h2 : b.length ≤ 240) (h3 : off + b.length ≤ m) :
    ¬ (!chunkOk b || decide (m < off + b.length)) = true := by
  rw [chunkBad_iff]
  rintro (rfl | h | h)
  · exact absurd h1 (by decide)
  · omega
  · omega

/-- The device after a chunk of the image that the firmware takes. -/
def Dev.staged (d : Dev) (off : Nat) (b : Bytes) : Dev :=
  (d.stageBytes d.trust.staged off b).2.setTrust
    { (d.stageBytes d.trust.staged off b).2.trust with staged := (d.stageBytes d.trust.staged off b).1 }

/-- The device after a chunk of the recovery image that the boot ROM takes. -/
def Dev.recStaged (d : Dev) (off : Nat) (b : Bytes) : Dev :=
  (d.stageBytes d.trust.recStaged off b).2.setTrust
    { (d.stageBytes d.trust.recStaged off b).2.trust with recStaged := (d.stageBytes d.trust.recStaged off b).1 }

theorem Dev.imageWrite_rom {d : Dev} (h : d.trust.recovery = true ∧ d.trust.imageRunning = false) (off : Nat) (b : Bytes) :
    d.imageWrite off b = d.i3c 3 [] := if_pos ((Dev.bootRom_iff d).2 h)

theorem Dev.imageWrite_bad {d : Dev} (h : d.trust.recovery = false ∨ d.trust.imageRunning = true) {off : Nat} {b : Bytes}
    (hb : b = [] ∨ 240 < b.length ∨ 67108864 < off + b.length) : d.imageWrite off b = d.i3c 1 [] :=
  (if_neg ((Dev.not_bootRom_iff d).2 h)).trans (if_pos ((chunkBad_iff b off _).2 hb))

theorem Dev.imageWrite_takes {d : Dev} (h : d.trust.recovery = false ∨ d.trust.imageRunning = true) {off : Nat} {b : Bytes}
    (h1 : 1 ≤ b.length) (h2 : b.length ≤ 240) (h3 : off + b.length ≤ 67108864) :
    d.imageWrite off b = (d.staged off b).i3c 0 [] :=
  (if_neg ((Dev.not_bootRom_iff d).2 h)).trans (if_neg (not_chunkBad h1 h2 h3))

theorem Dev.imageCommit_rom {d : Dev} (h : d.trust.recovery = true ∧ d.trust.imageRunning = false) (target len : Nat)
    (ok : Bool) (bu : BringUp) : d.imageCommit target len ok bu = d.i3c 3 [] := if_pos ((Dev.bootRom_iff d).2 h)

theorem Dev.imageCommit_bad {d : Dev} (h : d.trust.recovery = false ∨ d.trust.imageRunning = true) {target len : Nat}
    (hb : 1 < target ∨ d.trust.staged.length < len) (ok : Bool) (bu : BringUp) :
    d.imageCommit target len ok bu = d.i3c 1 [] :=
  (if_neg ((Dev.not_bootRom_iff d).2 h)).trans (if_pos hb)

theorem Dev.imageCommit_stores {d : Dev} (h : d.trust.recovery = false) {target len : Nat} (ht : target ≤ 1)
    (hl : len ≤ d.trust.staged.length) (ok : Bool) (bu : BringUp) : d.imageCommit target len ok bu =
      (d.fwStore target (d.trust.staged.take len) ok).1.i3c (d.fwStore target (d.trust.staged.take len) ok).2 [] :=
  (if_neg ((Dev.not_bootRom_iff d).2 (.inl h))).trans ((if_neg (by omega)).trans
    (if_neg (fun hr => absurd hr.2 (by rw [h]; decide))))

theorem Dev.recoveryWrite_image {d : Dev} (h : d.trust.recovery = false ∨ d.trust.imageRunning = true) (off : Nat) (b : Bytes) :
    d.recoveryWrite off b = d.i3c 3 [] := if_pos ((Dev.imageRuns_iff d).2 h)

theorem Dev.recoveryWrite_bad {d : Dev} (h : d.trust.recovery = true ∧ d.trust.imageRunning = false) {off : Nat} {b : Bytes}
    (hb : b = [] ∨ 240 < b.length ∨ 4194304 < off + b.length) : d.recoveryWrite off b = d.i3c 1 [] :=
  (if_neg ((Dev.not_imageRuns_iff d).2 h)).trans (if_pos ((chunkBad_iff b off _).2 hb))

theorem Dev.recoveryWrite_takes {d : Dev} (h : d.trust.recovery = true ∧ d.trust.imageRunning = false) {off : Nat} {b : Bytes}
    (h1 : 1 ≤ b.length) (h2 : b.length ≤ 240) (h3 : off + b.length ≤ 4194304) :
    d.recoveryWrite off b = (d.recStaged off b).i3c 0 [] :=
  (if_neg ((Dev.not_imageRuns_iff d).2 h)).trans (if_neg (not_chunkBad h1 h2 h3))

theorem Dev.recoveryRun_image {d : Dev} (h : d.trust.recovery = false ∨ d.trust.imageRunning = true) (len : Nat) :
    d.recoveryRun len = d.i3c 3 [] := if_pos ((Dev.imageRuns_iff d).2 h)

theorem Dev.recoveryRun_short {d : Dev} (h : d.trust.recovery = true ∧ d.trust.imageRunning = false) {len : Nat}
    (hl : d.trust.recStaged.length < len) : d.recoveryRun len = d.i3c 1 [] :=
  (if_neg ((Dev.not_imageRuns_iff d).2 h)).trans (if_pos hl)

theorem Dev.recoveryRun_starts {d : Dev} (h : d.trust.recovery = true ∧ d.trust.imageRunning = false) {len : Nat}
    (hl : len ≤ d.trust.recStaged.length) {i : Img} {rest : Bytes}
    (hp : parseImg (d.trust.recStaged.take len) = some (i, rest)) (ht : i.type = 6) (hs : i.signed d.manifest = true)
    (hf : i.fresh d.flash d.conf.floors = true) :
    d.recoveryRun len = (d.setTrust { d.trust with imageRunning := true }).i3c 0 [] := by
  unfold Dev.recoveryRun
  rw [if_neg ((Dev.not_imageRuns_iff d).2 h), if_neg (by omega), hp]
  simp [hs, hf, ht]

theorem imageCommands (s : State) (r : CmdRef) (c : Cmd) (b : Bytes) (ok : Bool) (o n : Nat) :
    (s.dev.Ready r 0x10 c → hdrOk c.desc 0 [(8, 17)] = true → c.f 0x10 8 ≤ 67108864 → byteAt c.desc 0x18 ≤ 1 →
      o = s.dev.fwOutcome (byteAt c.desc 0x18) (b.take (c.f 0x10 8)) →
      (∃ t, exec (.fwWrite r .failed ok) s = .next t ∧ t.dev.Ended r stHostAccess 0 0 0 ∧ t.dev.flash = s.dev.flash) ∧
      (o ≠ 0 → ∃ t, exec (.fwWrite r (.ok b) ok) s = .next t ∧ t.dev.Ended r stSuccess 0 o 0 ∧ t.dev.flash = s.dev.flash) ∧
      (o = 0 → ∃ t, exec (.fwWrite r (.ok b) false) s = .next t ∧ t.dev.Ended r stSuccess 0 7 0 ∧ t.dev.flash = s.dev.flash) ∧
      (o = 0 → ∃ t, exec (.fwWrite r (.ok b) true) s = .next t ∧ t.dev.Ended r stSuccess 0 0 0 ∧
        (byteAt c.desc 0x18 = 0 →
          t.dev.flash = s.dev.flash.putSlot (1 - s.dev.flash.active) { valid := true, data := b.take (c.f 0x10 8) }) ∧
        (byteAt c.desc 0x18 = 1 →
          t.dev.flash = s.dev.flash.putRecord s.dev.flash.recordSpare { valid := true, data := b.take (c.f 0x10 8) }))) ∧
    (s.dev.Ready r 0x11 c → hdrOk c.desc 0 [(8, 1)] = true → n = byteAt c.desc 8 → n ≤ 1 →
      ((s.dev.flash.slot n).valid = false → ∃ t, exec (.fwActivate r) s = .next t ∧ t.dev.Ended r stSuccess 0 3 0 ∧
        t.dev.flash = s.dev.flash) ∧
      ((s.dev.flash.slot n).valid = true → ∃ t, exec (.fwActivate r) s = .next t ∧ t.dev.Ended r stSuccess 0 0 0 ∧
        t.dev.flash = { s.dev.flash with pending := some n, trialFail := false, trialStarted := false })) := by
  refine ⟨?_, ?_⟩
  · intro h hh hl ht ho
    have hc := Dev.ready_cmd h
    have hm := h.2.2.2
    have hrun := Dev.fwWrite_stores h hh hl ht
    refine ⟨⟨_, exec_fwWrite r _ ok s, ?_, ?_⟩, fun hne => ⟨_, exec_fwWrite r _ ok s, ?_, ?_⟩,
      fun h0 => ⟨_, exec_fwWrite r _ false s, ?_, ?_⟩, fun h0 => ?_⟩
    · rw [State.onDev_dev, hrun]
      exact Dev.ended_hostAccess hc hm
    · rw [State.onDev_dev, hrun]
      exact (Dev.flash_finish ..).trans (Dev.flash_mark ..)
    · rw [State.onDev_dev, hrun]
      dsimp only [Dev.withHost]
      rw [Dev.fwStore_bad (ho ▸ hne), ← ho]
      exact Dev.ended_finish _ hc hm (by decide) 0 o 0 []
    · rw [State.onDev_dev, hrun]
      dsimp only [Dev.withHost]
      rw [Dev.fwStore_bad (ho ▸ hne)]
      exact Dev.flash_finish ..
    · rw [State.onDev_dev, hrun]
      dsimp only [Dev.withHost]
      rw [Dev.fwStore_flashFails (ho.symm.trans h0)]
      exact Dev.ended_finish _ hc hm (by decide) 0 7 0 []
    · rw [State.onDev_dev, hrun]
      dsimp only [Dev.withHost]
      rw [Dev.fwStore_flashFails (ho.symm.trans h0)]
      exact Dev.flash_finish ..
    · obtain ⟨f, hf, hslot, hrec⟩ := Dev.fwStore_good (ho.symm.trans h0)
      have hdev : s.dev.fwWrite r (.ok b) true = (s.dev.setFlash f).finish r stSuccess 0 0 := by
        rw [hrun]
        dsimp only [Dev.withHost]
        rw [hf]
      refine ⟨_, exec_fwWrite r _ true s, ?_, ?_, ?_⟩
      · rw [State.onDev_dev, hdev]
        exact Dev.ended_setFlash_finish _ f hc hm 0
      · intro h0
        rw [State.onDev_dev, hdev, ← hslot h0]
        exact Dev.flash_finish ..
      · intro h1
        rw [State.onDev_dev, hdev, ← hrec h1]
        exact Dev.flash_finish ..
  · intro h hh hn h1
    subst hn
    refine ⟨fun hv => ⟨_, exec_fwActivate r s, ?_, ?_⟩, fun hv => ⟨_, exec_fwActivate r s, ?_, ?_⟩⟩
    · rw [State.onDev_dev, Dev.fwActivate_invalid h hh h1 hv]
      exact Dev.ended_finish _ (Dev.ready_cmd h) h.2.2.2 (by decide) 0 3 0 []
    · rw [State.onDev_dev, Dev.fwActivate_invalid h hh h1 hv]
      exact Dev.flash_finish ..
    · rw [State.onDev_dev, Dev.fwActivate_valid h hh h1 hv]
      exact Dev.ended_setFlash_finish _ _ (Dev.ready_cmd h) h.2.2.2 0
    · rw [State.onDev_dev, Dev.fwActivate_valid h hh h1 hv]
      exact Dev.flash_finish ..

theorem microcodeCommand (s : State) (r : CmdRef) (c : Cmd) (b : Bytes) (o k : Nat) (i : Img) (rest : Bytes)
    (h : s.dev.Ready r 0x12 c) (hh : hdrOk c.desc 0 [(8, 18)] = true) :
      (parseImg (b.take (c.f 0x10 8)) = none → ∃ t, exec (.microcodeLoad r (.ok b) []) s = .next t ∧
        t.dev.Ended r stSuccess 0 1 0 ∧ t.dev.skillets = s.dev.skillets) ∧
      (parseImg (b.take (c.f 0x10 8)) = some (i, rest) →
        o = s.dev.microcodeOutcome i (setBits 16 (c.f 0x18 2)) →
        (o ≠ 0 → ∃ t, exec (.microcodeLoad r (.ok b) []) s = .next t ∧ t.dev.Ended r stSuccess 0 o 0 ∧
          t.dev.skillets = s.dev.skillets) ∧
        (o = 0 → (∀ k ∈ setBits 16 (c.f 0x18 2), (s.dev.skillet k).microcodeBad = false) →
          ∃ t, exec (.microcodeLoad r (.ok b) []) s = .next t ∧ t.dev.Ended r stSuccess 0 0 0 ∧
            (k ∈ setBits 16 (c.f 0x18 2) → (t.dev.skillet k).measure = i.digest) ∧
            (k ∉ setBits 16 (c.f 0x18 2) → t.dev.skillet k = s.dev.skillet k))) := by
  have hc := Dev.ready_cmd h
  have hm := h.2.2.2
  refine ⟨fun hp => ⟨_, exec_microcodeLoad r _ [] s, ?_, ?_⟩, fun hp ho => ?_⟩
  · rw [State.onDev_dev, Dev.microcodeLoad_noImage h hh hp]
    exact Dev.ended_finish _ hc hm (by decide) 0 1 0 []
  · rw [State.onDev_dev, Dev.microcodeLoad_noImage h hh hp]
    exact Dev.skillets_finish ..
  · subst ho
    have hrun := Dev.microcodeLoad_image h hh hp
    obtain ⟨hbad, hgood⟩ := Dev.microcodeWith_outcome s.dev r (setBits 16 (c.f 0x18 2)) i
    refine ⟨fun hne => ⟨_, exec_microcodeLoad r _ [] s, ?_, ?_⟩, fun h0 hk => ?_⟩
    · rw [State.onDev_dev, hrun, hbad hne]
      exact Dev.ended_finish _ hc hm (by decide) 0 _ 0 []
    · rw [State.onDev_dev, hrun, hbad hne]
      exact Dev.skillets_finish ..
    · obtain ⟨sk, co, he, hin, hout⟩ := Dev.loadMicrocodes_facts i _ s.dev hk
      refine ⟨_, exec_microcodeLoad r _ [] s, ?_, fun hmem => ?_, fun hmem => ?_⟩
      · rw [State.onDev_dev, hrun, hgood h0, he]
        exact Dev.ended_finish _ (show ((s.dev.setSkillets sk).setCores co).cmd r = some c from hc) hm (by decide) 0 0 0 []
      · rw [State.onDev_dev, hrun, hgood h0, he, Dev.skillet, Dev.skillets_finish]
        exact hin k hmem
      · rw [State.onDev_dev, hrun, hgood h0, he, Dev.skillet, Dev.skillets_finish]
        exact hout k hmem

theorem trialCommits (s : State) :
    (s.dev.trust.trial = false ∨ s.dev.trust.step ≠ 13 → exec .trialCommit s = .next s) ∧
    (s.dev.trust.trial = true → s.dev.trust.step = 13 → ∃ t, exec .trialCommit s = .next t ∧ t.dev.trust.trial = false ∧
      t.dev.flash.active = s.dev.trust.bootSlot ∧ t.dev.flash.pending = none ∧ s.dev.flash.fwCtr ≤ t.dev.flash.fwCtr ∧
      (∀ z ∈ (s.dev.flash.slot s.dev.trust.bootSlot).images, z.advance = true → z.svn ≤ t.dev.flash.fwCtr) ∧
      (t.dev.flash.fwCtr = s.dev.flash.fwCtr ∨ ∃ z ∈ (s.dev.flash.slot s.dev.trust.bootSlot).images,
        z.advance = true ∧ z.svn = t.dev.flash.fwCtr) ∧ t.dev.flash.recCtr = s.dev.flash.recCtr) := by
  refine ⟨fun h => ?_, fun h h13 => ?_⟩
  · rw [exec_trialCommit]
    exact State.next_same (Dev.trialCommit_not h)
  · obtain ⟨hle, hall, hone⟩ := s.dev.committed.advance_fwCtr s.dev.trust.bootSlot
    refine ⟨_, exec_trialCommit s, ?_⟩
    rw [State.onDev_dev, Dev.trialCommit_of h h13]
    exact ⟨rfl, rfl, rfl, hle, hall, hone, rfl⟩

/-! The chunks and commits of the management header, command by command. -/

theorem imageWrites (s : State) (off : Nat) (b : Bytes) (hv : s.dev.mod.converter = true)
    (h : s.dev.trust.recovery = false ∨ s.dev.trust.imageRunning = true) :
      (b = [] ∨ 240 < b.length ∨ 67108864 < off + b.length → ∃ t, exec (.imageWrite off b) s = .next t ∧
        t.dev = s.dev.setOut (s.dev.out ++ [.i3c 1 []])) ∧
      (1 ≤ b.length → b.length ≤ 240 → off + b.length ≤ 67108864 → ∃ t, exec (.imageWrite off b) s = .next t ∧
        slice t.dev.trust.staged off b.length = b ∧ t.dev.out = s.dev.out ++ [.i3c 0 []] ∧
        (off = 0 → t.dev.trust.staged = b) ∧
        (off ≠ 0 → off ≤ s.dev.trust.staged.length → t.dev.trust.staged.take off = s.dev.trust.staged.take off ∧
          t.dev.trust.staged.drop (off + b.length) = s.dev.trust.staged.drop (off + b.length))) := by
  refine ⟨fun hb => ⟨_, exec_imageWrite_on hv off b, ?_⟩, fun h1 h2 h3 => ⟨_, exec_imageWrite_on hv off b, ?_⟩⟩
  · rw [State.onDev_dev, Dev.imageWrite_bad h hb, Dev.i3c_on hv]
  · rw [State.onDev_dev, Dev.imageWrite_takes h h1 h2 h3, Dev.i3c_on (show (s.dev.staged off b).mod.converter = true from hv)]
    refine ⟨Dev.stageBytes_slice .., rfl, ?_, fun h0 hl => Dev.stageBytes_keep _ _ b h0 hl⟩
    rintro rfl
    exact Dev.stageBytes_zero ..

theorem recoveryWrites (s : State) (off : Nat) (b : Bytes) (hv : s.dev.mod.converter = true)
    (h : s.dev.trust.recovery = true ∧ s.dev.trust.imageRunning = false) :
      (1 ≤ b.length → b.length ≤ 240 → off + b.length ≤ 4194304 → ∃ t, exec (.recoveryWrite off b) s = .next t ∧
        slice t.dev.trust.recStaged off b.length = b ∧ t.dev.out = s.dev.out ++ [.i3c 0 []] ∧
        (off = 0 → t.dev.trust.recStaged = b)) ∧
      (4194304 < off + b.length → ∃ t, exec (.recoveryWrite off b) s = .next t ∧
        t.dev = s.dev.setOut (s.dev.out ++ [.i3c 1 []])) := by
  refine ⟨fun h1 h2 h3 => ⟨_, exec_recoveryWrite_on hv off b, ?_⟩, fun hb => ⟨_, exec_recoveryWrite_on hv off b, ?_⟩⟩
  · rw [State.onDev_dev, Dev.recoveryWrite_takes h h1 h2 h3,
      Dev.i3c_on (show (s.dev.recStaged off b).mod.converter = true from hv)]
    refine ⟨Dev.stageBytes_slice .., rfl, ?_⟩
    rintro rfl
    exact Dev.stageBytes_zero ..
  · rw [State.onDev_dev, Dev.recoveryWrite_bad h (.inr (.inr hb)), Dev.i3c_on hv]

/-- The management commands keep the device's module as it is when only flash changes. -/
theorem Dev.fwStore_i3c {d : Dev} (hv : d.mod.converter = true) (target o : Nat) (b : Bytes) (ok : Bool) :
    ((d.fwStore target b ok).1.i3c o []).flash = (d.fwStore target b ok).1.flash ∧
    ((d.fwStore target b ok).1.i3c o []).out = d.out ++ [.i3c o []] := by
  obtain ⟨f, hf⟩ := d.fwStore_shape target b ok
  rw [hf, Dev.i3c_on (show (d.setFlash f).mod.converter = true from hv)]
  exact ⟨rfl, rfl⟩

theorem imagesThroughHeader (s : State) (off len target : Nat) (b rest : Bytes) (ok : Bool) (bu : BringUp) (i : Img)
    (hv : s.dev.mod.converter = true) :
    (s.dev.trust.recovery = true → s.dev.trust.imageRunning = false →
      ∃ t u, exec (.imageWrite off b) s = .next t ∧ exec (.imageCommit target len ok bu) s = .next u ∧
        t.dev = s.dev.setOut (s.dev.out ++ [.i3c 3 []]) ∧ u.dev = s.dev.setOut (s.dev.out ++ [.i3c 3 []])) ∧
    (s.dev.trust.recovery = false ∨ s.dev.trust.imageRunning = true →
      1 < target ∨ s.dev.trust.staged.length < len → ∃ t, exec (.imageCommit target len ok bu) s = .next t ∧
        t.dev = s.dev.setOut (s.dev.out ++ [.i3c 1 []])) ∧
    (s.dev.trust.recovery = false → target ≤ 1 → len ≤ s.dev.trust.staged.length →
      ∃ t, exec (.imageCommit target len ok bu) s = .next t ∧
        t.dev.flash = (s.dev.fwStore target (s.dev.trust.staged.take len) ok).1.flash ∧
        t.dev.out = s.dev.out ++ [.i3c (s.dev.fwStore target (s.dev.trust.staged.take len) ok).2 []]) ∧
    (s.dev.trust.recovery = false ∨ s.dev.trust.imageRunning = true →
      ∃ t u, exec (.recoveryWrite off b) s = .next t ∧ exec (.recoveryRun len) s = .next u ∧
        t.dev = s.dev.setOut (s.dev.out ++ [.i3c 3 []]) ∧ u.dev = s.dev.setOut (s.dev.out ++ [.i3c 3 []])) ∧
    (s.dev.trust.recovery = true → s.dev.trust.imageRunning = false →
      (s.dev.trust.recStaged.length < len → ∃ t, exec (.recoveryRun len) s = .next t ∧
        t.dev = s.dev.setOut (s.dev.out ++ [.i3c 1 []])) ∧
      (len ≤ s.dev.trust.recStaged.length → parseImg (s.dev.trust.recStaged.take len) = some (i, rest) → i.type = 6 →
        i.signed s.dev.manifest = true → i.fresh s.dev.flash s.dev.conf.floors = true →
        ∃ t, exec (.recoveryRun len) s = .next t ∧ t.dev.trust = { s.dev.trust with imageRunning := true } ∧
          t.dev.out = s.dev.out ++ [.i3c 0 []])) := by
  refine ⟨fun h1 h2 => ⟨_, _, exec_imageWrite_on hv off b, exec_imageCommit_on hv target len ok bu, ?_, ?_⟩,
    fun h hb => ⟨_, exec_imageCommit_on hv target len ok bu, ?_⟩,
    fun h ht hl => ⟨_, exec_imageCommit_on hv target len ok bu, ?_⟩,
    fun h => ⟨_, _, exec_recoveryWrite_on hv off b, exec_recoveryRun_on hv len, ?_, ?_⟩,
    fun h1 h2 => ⟨fun hl => ⟨_, exec_recoveryRun_on hv len, ?_⟩, fun hl hp ht hs hf => ⟨_, exec_recoveryRun_on hv len, ?_⟩⟩⟩
  · rw [State.onDev_dev, Dev.imageWrite_rom ⟨h1, h2⟩, Dev.i3c_on hv]
  · rw [State.onDev_dev, Dev.imageCommit_rom ⟨h1, h2⟩, Dev.i3c_on hv]
  · rw [State.onDev_dev, Dev.imageCommit_bad h hb, Dev.i3c_on hv]
  · rw [State.onDev_dev, Dev.imageCommit_stores h ht hl]
    exact Dev.fwStore_i3c hv ..
  · rw [State.onDev_dev, Dev.recoveryWrite_image h, Dev.i3c_on hv]
  · rw [State.onDev_dev, Dev.recoveryRun_image h, Dev.i3c_on hv]
  · rw [State.onDev_dev, Dev.recoveryRun_short ⟨h1, h2⟩ hl, Dev.i3c_on hv]
  · rw [State.onDev_dev, Dev.recoveryRun_starts ⟨h1, h2⟩ hl hp ht hs hf,
      Dev.i3c_on (show (s.dev.setTrust { s.dev.trust with imageRunning := true }).mod.converter = true from hv)]
    exact ⟨rfl, rfl⟩

/-- Settles O42: the update commands by the outcome of their checks, and each command of the management header by its mode. -/
theorem imagesUpdate : Obligations.ImagesUpdate := by
  unfold Obligations.ImagesUpdate
  refine ⟨fun s r c b ok o n k i rest => ?_, fun s off len target b rest ok bu i hv => ?_⟩
  · obtain ⟨hwrite, hactivate⟩ := imageCommands s r c b ok o n
    exact ⟨hwrite, hactivate, microcodeCommand s r c b o k i rest, trialCommits s⟩
  · obtain ⟨hrom, hbad, hstores, himage, hrun⟩ := imagesThroughHeader s off len target b rest ok bu i hv
    refine ⟨hrom, fun h => ?_, hstores, himage, fun h1 h2 => ?_⟩
    · obtain ⟨hno, htakes⟩ := imageWrites s off b hv h
      exact ⟨hno, htakes, hbad h⟩
    · obtain ⟨htakes, hno⟩ := recoveryWrites s off b hv ⟨h1, h2⟩
      obtain ⟨hshort, hstarts⟩ := hrun h1 h2
      exact ⟨htakes, hno, hshort, hstarts⟩

end Sys2Proof.Machine
end

section
/-!
PROOF. Attestation reports, certificate reads and the SPDM answers (R493 to R498).
-/

namespace Sys2Proof.Machine

theorem exec_attestReport (r : CmdRef) (img : HostRead) (s : State) :
    exec (.attestReport r img) s = .next (s.onDev (fun d => d.attest r img)) := rfl

theorem exec_certRead (r : CmdRef) (s : State) : exec (.certRead r) s = .next (s.onDev (fun d => d.certRead r)) := rfl

/-! The report. -/

theorem padTo_exact {n : Nat} {b : Bytes} (h : b.length = n) : padTo n b = b := by
  unfold padTo
  rw [List.take_of_length_le (Nat.le_of_eq h), h, Nat.sub_self, List.replicate_zero, List.append_nil]

/-- The 88 bytes of the block that are signed. -/
def Dev.reportHead (d : Dev) (nonce : Bytes) : Bytes :=
  leBytes 4 0x4E474953 ++ leBytes 2 7 ++ leBytes 2 0 ++ leBytes 2 0 ++ leBytes 2 0 ++ leBytes 2 0xFFFF
    ++ leBytes 2 0 ++ leBytes 8 (d.reportBody nonce).length ++ padTo 64 (Config.sha512 (d.reportBody nonce))

theorem Dev.report_eq (d : Dev) (nonce : Bytes) : d.report nonce =
    d.reportHead nonce ++ padTo 64 (Config.aliasSign d.aliasSalt 0 (Config.sha512 (d.reportHead nonce)))
      ++ padTo 3309 (Config.aliasSign d.aliasSalt 1 (Config.sha512 (d.reportHead nonce))) ++ repByte 123 0
      ++ d.reportBody nonce := rfl

theorem Dev.length_reportHead (d : Dev) (nonce : Bytes) : (d.reportHead nonce).length = 88 := by
  simp only [Dev.reportHead, List.length_append, leBytes_length, length_padTo]

/-- The body of a report follows its 3,584 bytes of signature block. -/
theorem Dev.drop_report (d : Dev) (nonce : Bytes) : (d.report nonce).drop 3584 = d.reportBody nonce := by
  rw [Dev.report_eq, List.drop_left']
  simp only [List.length_append, Dev.length_reportHead, length_padTo, repByte, List.length_replicate]

theorem slice_append_right {a b : Bytes} {off n : Nat} (h : a.length ≤ off) :
    slice (a ++ b) off n = slice b (off - a.length) n := by
  unfold slice
  rw [List.drop_append, List.drop_of_length_le h, List.nil_append]

theorem slice_append_left {a b : Bytes} {n : Nat} (h : a.length = n) : slice (a ++ b) 0 n = a := by
  unfold slice
  rw [List.drop_zero, List.take_left' h]

/-- The measurements of a report stand from byte 64 on, 64 bytes each. -/
theorem Dev.slice_measurements (d : Dev) {i : Nat} (h1 : 1 ≤ i) (h21 : i ≤ 21) :
    slice ((List.range 21).flatMap (fun j => d.measurement (j + 1))) (64 * (i - 1)) 64 = d.measurement i := by
  have h := slice_flatMap (fun j => d.measurement (j + 1)) 64 (fun j => d.length_measurement (j + 1)) (i - 1) 21 (by omega)
  rwa [show i - 1 + 1 = i by omega] at h

theorem Dev.reportBody_fields (d : Dev) {b : Bytes} (hb : b.length = 32) : (d.reportBody b).take 32 = b ∧
    slice (d.reportBody b) 32 8 = leBytes 8 d.flash.bootCount ∧
    (d.reportBody b).getD 46 0 = (leBytes 1 d.flash.active).getD 0 0 ∧
    ∀ i, 1 ≤ i → i ≤ 21 → slice (d.reportBody b) (64 * i) 64 = d.measurement i := by
  obtain ⟨z, hz, he⟩ := d.reportBody_parts b hb
  have hboot : (leBytes 8 d.flash.bootCount).length = 8 := leBytes_length 8 _
  have hctr : ((d.measurement 22).take 6).length = 6 := by rw [List.length_take, Dev.length_measurement]; rfl
  have hact : (leBytes 1 d.flash.active).length = 1 := leBytes_length 1 _
  rw [he]
  refine ⟨List.take_left' hb, ?_, ?_, fun i h1 h21 => ?_⟩
  · rw [slice_append_right (by omega), hb]
    exact slice_append_left hboot
  · rw [List.getD_append_right _ _ _ _ (by omega), List.getD_append_right _ _ _ _ (by omega),
      List.getD_append_right _ _ _ _ (by omega), hb, hboot, hctr]
    exact List.getD_append _ _ _ _ (by omega)
  · rw [slice_append_right (by omega), slice_append_right (by omega), slice_append_right (by omega),
      slice_append_right (by omega), slice_append_right (by omega), hb, hboot, hctr, hact, hz,
      show 64 * i - 32 - 8 - 6 - 1 - 17 = 64 * (i - 1) by omega]
    exact d.slice_measurements h1 h21

/-- A fenced skillet measures zero (R496). -/
theorem Dev.measurement_fenced (d : Dev) {k : Nat} (hk : k < 16) (hf : (d.skillet k).fenced = true) :
    d.measurement (k + 6) = List.replicate 64 0 := by
  have hfen : (d.skillet (k + 6 - 6)).fenced = true := by rwa [Nat.add_sub_cancel]
  exact (if_neg (by omega)).trans ((if_neg (by omega)).trans ((if_pos (by omega)).trans (if_pos hfen)))

/-! The two commands. -/

theorem Dev.attest_reports {d : Dev} {r : CmdRef} {c : Cmd} (h : d.Ready r 0x13 c) (hh : hdrOk c.desc 0 [(8, 16)] = true)
    {b : Bytes} (hb : b.length = 32) :
    d.attest r (.ok b) = (d.emitOut (.hostWrite (c.f 0x10 8) (d.report b))).finish r stSuccess := by
  unfold Dev.attest
  rw [Dev.withCmd_of h]
  dsimp only [Dev.withHost]
  rw [if_neg (by rw [hh]; decide), padTo_exact hb]

/-- What CERT_READ sends: at most LEN bytes of the chain that it names. -/
def Dev.certBytes (d : Dev) (c : Cmd) : Bytes :=
  (Config.certChain (byteAt c.desc 8) d.aliasSalt).take (c.f 0x18 4)

theorem Dev.certRead_sends {d : Dev} {r : CmdRef} {c : Cmd} (h : d.Ready r 0x14 c)
    (hh : hdrOk c.desc 0 [(8, 1), (0x10, 12)] = true) (h1 : byteAt c.desc 8 ≤ 1) (hl : c.f 0x18 4 ≤ 65536) :
    d.certRead r = (d.emitOut (.hostWrite (c.f 0x10 8) (d.certBytes c))).finish r stSuccess :=
  (Dev.withCmd_of h _).trans (if_neg (by simp [hh]; omega))

/-- A finish after something left the device: the command has ended, and that is what left. -/
theorem Dev.emitOut_finish (d : Dev) (o : Out) {r : CmdRef} {c : Cmd} (h : d.cmd r = some c) (hm : c.marks = {}) :
    ((d.emitOut o).finish r stSuccess).Ended r stSuccess 0 0 0 ∧ ((d.emitOut o).finish r stSuccess).out = d.out ++ [o] :=
  ⟨Dev.ended_finish _ (show (d.emitOut o).cmd r = some c from h) hm (by decide) 0 0 0 [], Dev.out_finish ..⟩

theorem attestCommands (s : State) (r : CmdRef) (c : Cmd) (b : Bytes) :
    (s.dev.Ready r 0x13 c → hdrOk c.desc 0 [(8, 16)] = true → b.length = 32 → ∃ t, exec (.attestReport r (.ok b)) s = .next t ∧
      t.dev.Ended r stSuccess 0 0 0 ∧ t.dev.out = s.dev.out ++ [.hostWrite (c.f 0x10 8) (s.dev.report b)] ∧
      (s.dev.report b).drop 3584 = s.dev.reportBody b) ∧
    (s.dev.Ready r 0x14 c → hdrOk c.desc 0 [(8, 1), (0x10, 12)] = true → byteAt c.desc 8 ≤ 1 → c.f 0x18 4 ≤ 65536 →
      ∃ t, exec (.certRead r) s = .next t ∧ t.dev.Ended r stSuccess 0 0 0 ∧
        t.dev.out = s.dev.out ++ [.hostWrite (c.f 0x10 8) (s.dev.certBytes c)]) := by
  refine ⟨fun h hh hb => ?_, fun h hh h1 hl => ?_⟩
  · obtain ⟨hend, hout⟩ := s.dev.emitOut_finish (.hostWrite (c.f 0x10 8) (s.dev.report b)) (Dev.ready_cmd h) h.2.2.2
    rw [← Dev.attest_reports h hh hb] at hend hout
    exact ⟨_, exec_attestReport r _ s, hend, hout, s.dev.drop_report b⟩
  · obtain ⟨hend, hout⟩ := s.dev.emitOut_finish (.hostWrite (c.f 0x10 8) (s.dev.certBytes c)) (Dev.ready_cmd h) h.2.2.2
    rw [← Dev.certRead_sends h hh h1 hl] at hend hout
    exact ⟨_, exec_certRead r s, hend, hout⟩

/-! SPDM. -/

theorem Dev.spdmUp_iff (d : Dev) (t : Nat) : d.spdmUp t = true ↔ t < 2 ∧ 6 ≤ d.trust.step ∧ d.trust.recovery = false := by
  simp [Dev.spdmUp, and_assoc]

theorem Dev.spdmUp_silent {d : Dev} {t : Nat} (h : d.trust.step < 6 ∨ d.trust.recovery = true ∨ 2 ≤ t) :
    ¬ d.spdmUp t = true := by
  rw [Dev.spdmUp_iff]
  rintro ⟨ht, hs, hr⟩
  rcases h with h | h | h
  · omega
  · rw [hr] at h
    exact absurd h (by decide)
  · omega

/-- An answer stands on its transport in the state that it leads to, and changes the state of no other. -/
theorem Dev.spdmAt_say (d : Dev) {t : Nat} (ht : t < 2) (hl : d.trust.spdm.length = 2) (st code : Nat) (data : Bytes) :
    (d.spdmSay t st code data).spdmAt t = st ∧ (d.spdmSay t st code data).spdmAt (1 - t) = d.spdmAt (1 - t) := by
  refine ⟨?_, ?_⟩
  · show (d.trust.spdm.set t st).getD t 0 = st
    rw [List.getD_eq_getElem?_getD, List.getElem?_set_self (by omega)]
    rfl
  · show (d.trust.spdm.set t st).getD (1 - t) 0 = d.trust.spdm.getD (1 - t) 0
    rw [List.getD_eq_getElem?_getD, List.getD_eq_getElem?_getD, List.getElem?_set_ne (by omega)]

theorem Dev.out_spdmAsk {d : Dev} {t : Nat} (h : d.spdmUp t = true) (code : Nat) (data : Bytes) :
    (d.spdmAsk t code data).out = d.out ++ [.spdm t (Config.spdmAnswer (d.spdmAt t) code data)] := by
  unfold Dev.spdmAsk
  rw [if_pos h]
  rfl

theorem spdmSilent (s : State) (b : Bytes) (t0 off len idx k : Nat) (hno : ¬ s.dev.spdmUp t0 = true) :
    exec (.getVersion t0 b) s = .next s ∧ exec (.getCapabilities t0 b) s = .next s ∧
    exec (.negotiateAlgorithms t0 b) s = .next s ∧ exec (.getDigests t0) s = .next s ∧
    exec (.getCertificate t0 k off len) s = .next s ∧ exec (.challenge t0 b) s = .next s ∧
    exec (.getMeasurements t0 idx) s = .next s ∧ exec (.vendorDefinedRequest t0 b) s = .next s := by
  refine ⟨?_, ?_, ?_, ?_, ?_, ?_, ?_, ?_⟩
  all_goals exact State.next_same (if_neg hno)

/-- The three requests that settle a connection, each in its turn. -/
theorem spdmConnects (s : State) (b : Bytes) (t0 : Nat) (hup : s.dev.spdmUp t0 = true) (ht : t0 < 2)
    (hl : s.dev.trust.spdm.length = 2) :
    (∃ t, exec (.getVersion t0 b) s = .next t ∧ t.dev.spdmAt t0 = 1 ∧ t.dev.spdmAt (1 - t0) = s.dev.spdmAt (1 - t0)) ∧
    (s.dev.spdmAt t0 = 1 → ∃ t, exec (.getCapabilities t0 b) s = .next t ∧ t.dev.spdmAt t0 = 2 ∧
      t.dev.spdmAt (1 - t0) = s.dev.spdmAt (1 - t0)) ∧
    (s.dev.spdmAt t0 = 2 → ∃ t, exec (.negotiateAlgorithms t0 b) s = .next t ∧ t.dev.spdmAt t0 = 3 ∧
      t.dev.spdmAt (1 - t0) = s.dev.spdmAt (1 - t0)) := by
  refine ⟨⟨_, rfl, ?_⟩, fun h1 => ⟨_, rfl, ?_⟩, fun h2 => ⟨_, rfl, ?_⟩⟩
  · rw [State.onDev_dev, if_pos hup]
    exact s.dev.spdmAt_say ht hl 1 0x84 b
  · rw [State.onDev_dev, if_pos hup, if_pos h1]
    exact s.dev.spdmAt_say ht hl 2 0xE1 b
  · rw [State.onDev_dev, if_pos hup, if_pos h2]
    exact s.dev.spdmAt_say ht hl 3 0xE3 b

/-- The requests that a settled connection answers. -/
theorem spdmAnswers (s : State) (b : Bytes) (t0 off len idx k : Nat) (hup : s.dev.spdmUp t0 = true) :
    (∃ t, exec (.getDigests t0) s = .next t ∧ t.dev.out = s.dev.out ++
      [.spdm t0 (Config.spdmAnswer (s.dev.spdmAt t0) 0x81 (Config.sha512 (Config.certChain 0 s.dev.aliasSalt)))]) ∧
    (∃ t, exec (.getCertificate t0 k off len) s = .next t ∧ t.dev.out = s.dev.out ++
      [.spdm t0 (Config.spdmAnswer (s.dev.spdmAt t0) 0x82 (leBytes 1 k ++
        (if k = 0 then slice (Config.certChain 0 s.dev.aliasSalt) off len else [])))]) ∧
    (∃ t, exec (.challenge t0 b) s = .next t ∧ t.dev.out = s.dev.out ++
      [.spdm t0 (Config.spdmAnswer (s.dev.spdmAt t0) 0x83 (b ++ Config.aliasSign s.dev.aliasSalt 0
        (Config.sha512 (b ++ (List.range 22).flatMap (fun i => s.dev.measurement (i + 1))))))]) ∧
    (1 ≤ idx → idx ≤ 22 → ∃ t, exec (.getMeasurements t0 idx) s = .next t ∧ t.dev.out = s.dev.out ++
      [.spdm t0 (Config.spdmAnswer (s.dev.spdmAt t0) 0xE0 (leBytes 1 idx ++ s.dev.measurement idx))]) ∧
    (∃ t, exec (.vendorDefinedRequest t0 b) s = .next t ∧ t.dev.out = s.dev.out ++ [.spdm t0 (s.dev.report b)]) := by
  refine ⟨⟨_, rfl, Dev.out_spdmAsk hup ..⟩, ⟨_, rfl, Dev.out_spdmAsk hup ..⟩, ⟨_, rfl, Dev.out_spdmAsk hup ..⟩,
    fun h1 h22 => ⟨_, rfl, ?_⟩, ⟨_, rfl, ?_⟩⟩
  · rw [State.onDev_dev, if_neg (show ¬ idx = 0xFF by omega), if_pos ⟨h1, h22⟩]
    exact Dev.out_spdmAsk hup ..
  · rw [State.onDev_dev, if_pos hup]
    rfl

/-- Settles O43: the layout of the report, the two commands, and the SPDM requests where SPDM runs and where it does not. -/
theorem attestation : Obligations.Attestation := by
  unfold Obligations.Attestation
  intro s r c b t0 off len idx k
  obtain ⟨hattest, hcert⟩ := attestCommands s r c b
  refine ⟨hattest, fun hb => ⟨s.dev.length_reportBody b hb, s.dev.reportBody_fields hb⟩,
    fun hk hf => s.dev.measurement_fenced hk hf, hcert, fun h => spdmSilent s b t0 off len idx k (Dev.spdmUp_silent h),
    fun h6 hr ht hl => ?_⟩
  have hup := (s.dev.spdmUp_iff t0).2 ⟨ht, h6, hr⟩
  obtain ⟨hversion, hcaps, halgs⟩ := spdmConnects s b t0 hup ht hl
  exact ⟨hversion, hcaps, halgs, spdmAnswers s b t0 off len idx k hup⟩

end Sys2Proof.Machine
end

section
/-!
PROOF. Clock faults, sleep and wake of a core (R462, R463, R475, R477).
-/

namespace Sys2Proof.Machine

theorem exec_clockMonitorFault (die dom mhz : Nat) (s : State) :
    exec (.clockMonitorFault die dom mhz) s = .next (s.onDev (fun d => d.clockFault die dom mhz)) := rfl

theorem exec_coreIdleCool (g : Nat) (s : State) : exec (.coreIdleCool g) s = .next (s.onDev (fun d =>
    if coreOk g && d.coreIdle g && (d.core g).clk == .warm && decide (d.pwr.idleCool < d.pwr.idleCold) then
      d.modCore g (fun x => { x with clk := .cool }) else d)) := rfl

theorem exec_coreIdleCold (g : Nat) (s : State) : exec (.coreIdleCold g) s = .next (s.onDev (fun d =>
    if coreOk g && d.coreIdle g && ((d.core g).clk == .warm || (d.core g).clk == .cool) then
      d.modCore g (fun x => { x with clk := .cold }) else d)) := rfl

theorem exec_coreWake (g : Nat) (s : State) : exec (.coreWake g) s = .next (s.onDev (fun d =>
    if coreOk g && !(d.core g).retired && !d.coreFenced g then d.modCore g (fun x => { x with clk := .hot }) else d)) := rfl

theorem coreOk_iff (g : Nat) : coreOk g = true ↔ g < 128 := decide_eq_true_iff

/-- The last counted fault of a core is at most 3,600 s old (R475). -/
def Dev.faultRecent (d : Dev) (g : Nat) : Prop :=
  ∃ n, (d.core g).lastFault = some n ∧ d.aoOf (g / 8) ≤ n + 180000000000

theorem Dev.not_faultRecent {d : Dev} {g : Nat} (h : ¬ d.faultRecent g) (n : Nat) (hn : (d.core g).lastFault = some n) :
    n + 180000000000 < d.aoOf (g / 8) := by
  by_contra hlt
  exact h ⟨n, hn, by omega⟩

/-- What a counted fault of a core in service does, the first and the second within 3,600 s alike. -/
structure Dev.Counted (d e : Dev) (g ca : Nat) : Prop where
  self : (e.core g).fenced = (d.core g).fenced ∧ (e.core g).lastFault = some (d.aoOf (g / 8))
  cold : (d.core g).clk = .cold → (e.core g).clk = .cold
  alert : bit d.mod.alert 1 = true → bit e.mod.alert 1 = true
  others : ∀ h, h ≠ g → e.core h = d.core h
  skillets : e.skillets = d.skillets
  dead : ∀ i y, (i, y) ∈ d.runs → y.Dead ca → ∃ y, (i, y) ∈ e.runs ∧ y.Dead ca
  first : ¬ d.faultRecent g → (e.core g).retired = false ∧ e.flash = d.flash
  second : d.faultRecent g → (e.core g).retired = true ∧ g ∈ e.flash.retired ∧ bit e.mod.alert 6 = true ∧
    ∀ p x, d.coreOwner g = some p → e.part p = some x → g ∉ x.cores

theorem Dev.counted_first {d : Dev} {g : Nat} (hr : (d.core g).retired = false) (hno : ¬ d.faultRecent g) (ca : Nat) :
    d.Counted (d.countFault g ca) g ca := by
  rw [Dev.countFault_first d g ca (Dev.not_faultRecent hno)]
  have hcore := Dev.core_modCore d g (fun c => { c with lastFault := some (d.aoOf (g / 8)) })
  constructor
  case self => rw [hcore]; exact ⟨rfl, rfl⟩
  case cold => intro h; rw [hcore]; exact h
  case alert => exact fun h => h
  case others => exact fun h hn => Dev.core_modCore_ne d hn _
  case skillets => rfl
  case dead => exact fun i y hy hd => ⟨y, hy, hd⟩
  case first => intro _; rw [hcore]; exact ⟨hr, rfl⟩
  case second => exact fun h => absurd h hno

theorem Dev.counted_second {d : Dev} {g : Nat} (hr : (d.core g).retired = false) (hrec : d.faultRecent g) (ca : Nat) :
    d.Counted (d.countFault g ca) g ca := by
  obtain ⟨n, hn, hle⟩ := hrec
  rw [Dev.countFault_second d g ca n hn hle]
  have hcore := Dev.core_modCore d g (fun c => { c with lastFault := some (d.aoOf (g / 8)) })
  obtain ⟨hself, hothers, hsk, hflash, hbit, hkeep, hdead, hpart⟩ := Dev.retireCore_facts
    (d.modCore g (fun c => { c with lastFault := some (d.aoOf (g / 8)) })) g 0 ca ca 1 (by rw [hcore]; exact hr)
  rw [hcore] at hself
  constructor
  case self => rw [hself]; exact ⟨rfl, rfl⟩
  case cold => intro _; rw [hself]
  case alert => exact hkeep
  case others => exact fun h hne => (hothers h hne).trans (Dev.core_modCore_ne d hne _)
  case skillets => exact hsk
  case dead => exact hdead
  case first => exact fun hno => absurd ⟨n, hn, hle⟩ hno
  case second => intro _; rw [hself]; exact ⟨rfl, hflash, hbit, hpart⟩

theorem Dev.countFault_counted {d : Dev} {g : Nat} (hr : (d.core g).retired = false) (ca : Nat) :
    d.Counted (d.countFault g ca) g ca := by
  by_cases h : d.faultRecent g
  · exact Dev.counted_second hr h ca
  · exact Dev.counted_first hr h ca

theorem coreClockFault (s : State) (die dom mhz g : Nat) (h16 : die < 16) (h8 : dom < 8) (hg : g = 8 * die + dom)
    (hf : (s.dev.core g).fenced = false) (hr : (s.dev.core g).retired = false) :
    ∃ t, exec (.clockMonitorFault die dom mhz) s = .next t ∧ (t.dev.core g).fenced = true ∧ (t.dev.core g).clk = .cold ∧
      (t.dev.core g).lastFault = some (s.dev.aoOf die) ∧ bit t.dev.mod.alert 1 = true ∧
      (∀ h, h ≠ g → t.dev.core h = s.dev.core h) ∧ t.dev.skillets = s.dev.skillets ∧
      ((∀ n, (s.dev.core g).lastFault = some n → n + 180000000000 < s.dev.aoOf die) → (t.dev.core g).retired = false ∧
        t.dev.flash = s.dev.flash) ∧
      (∀ n, (s.dev.core g).lastFault = some n → s.dev.aoOf die ≤ n + 180000000000 → (t.dev.core g).retired = true ∧
        g ∈ t.dev.flash.retired ∧ bit t.dev.mod.alert 6 = true ∧
        ∀ p x, s.dev.coreOwner g = some p → t.dev.part p = some x → g ∉ x.cores) ∧
      (∀ e ∈ s.dev.runs, e.2.ended = false → e.2.onCore g = true → ∃ y, (e.1, y) ∈ t.dev.runs ∧ caFenced ∈ y.marks.causes ∧
        ∀ c ∈ y.cores, c.done = true ∧ c.todo = []) := by
  obtain ⟨D, hD, hcore, hne, hsk, hao, hfl, hpart, hal, hruns⟩ := s.dev.clockFault_core die dom mhz g h16 h8 hg hf
  have hdie : g / 8 = die := by omega
  have hnow : D.aoOf (g / 8) = s.dev.aoOf die := by rw [hdie]; unfold Dev.aoOf; rw [hao]
  have hrec : D.faultRecent g ↔ ∃ n, (s.dev.core g).lastFault = some n ∧ s.dev.aoOf die ≤ n + 180000000000 := by
    unfold Dev.faultRecent
    rw [hnow, hcore]
  have hc := Dev.countFault_counted (d := D) (g := g) (by rw [hcore]; exact hr) caFenced
  rw [← hD] at hc
  obtain ⟨hself, hcold, halert, hothers, hsks, hdead, hfirst, hsecond⟩ := hc
  refine ⟨_, exec_clockMonitorFault die dom mhz s, ?_⟩
  rw [State.onDev_dev]
  refine ⟨by rw [hself.1, hcore], hcold (by rw [hcore]), by rw [hself.2, hnow], halert hal,
    fun h hn => (hothers h hn).trans (hne h hn), hsks.trans hsk, fun hall => ?_, fun n hn hle => ?_, fun e he hl ho => ?_⟩
  · obtain ⟨hret, hflash⟩ := hfirst (fun hr => by
      obtain ⟨n, hn, hle⟩ := hrec.1 hr
      have := hall n hn
      omega)
    exact ⟨hret, hflash.trans hfl⟩
  · obtain ⟨hret, hmem, hbit, hown⟩ := hsecond (hrec.2 ⟨n, hn, hle⟩)
    refine ⟨hret, hmem, hbit, fun p x hp => hown p x ?_⟩
    unfold Dev.coreOwner at hp ⊢
    rwa [hpart]
  · obtain ⟨y, hy, hyd⟩ := hruns e he hl ho
    exact hdead e.1 y hy hyd

/-- Settles O44: a clock fault by whether the core's last counted fault is recent, sleep and wake by their conditions. -/
theorem coreFaults : Obligations.CoreFaults := by
  unfold Obligations.CoreFaults
  intro s die dom mhz g
  refine ⟨coreClockFault s die dom mhz g, fun hg hi => ⟨fun hw hlt => ⟨_, exec_coreIdleCool g s, ?_⟩,
    fun hw => ⟨_, exec_coreIdleCold g s, ?_⟩⟩, fun hi => ⟨?_, ?_⟩, fun hg hr hf => ⟨_, exec_coreWake g s, ?_⟩, fun h => ?_⟩
  · exact State.core_only s (if_pos (by rw [(coreOk_iff g).2 hg, hi, hw, decide_eq_true hlt]; rfl))
  · exact State.core_only s (if_pos (by
      rw [(coreOk_iff g).2 hg, hi]
      rcases hw with hw | hw <;> rw [hw] <;> rfl))
  · exact State.next_same (if_neg (by rw [hi]; simp))
  · exact State.next_same (if_neg (by rw [hi]; simp))
  · exact State.core_only s (if_pos (by rw [(coreOk_iff g).2 hg, hr, hf]; rfl))
  · exact State.next_same (if_neg (by rcases h with h | h <;> rw [h] <;> simp))

end Sys2Proof.Machine
end

section
/-!
PROOF. What the fences take out of service, and what is a safe stop (R28, R472, R474).
-/

namespace Sys2Proof.Machine

theorem exec_railMonitorFault (die rail mv : Nat) (s : State) :
    exec (.railMonitorFault die rail mv) s = .next (s.onDev (fun d => d.railFault die rail mv)) := rfl

theorem exec_lockstepMismatch (s : State) : exec .lockstepMismatch s = .next (s.onDev (fun d => d.safeStopNow 0)) := rfl

theorem exec_junctionCompareMismatch {j : Nat} (hj : j < 2) (s : State) :
    exec (.junctionCompareMismatch j) s = .next (s.onDev (fun _ => s.dev.fenceJd j 3)) :=
  congrArg (fun d => Host.Outcome.next (s.onDev fun _ => d)) (if_pos hj)

/-! The clocks and rails of the dies, by the unit that each takes out of service. -/

theorem clockDomOk_skillet {die dom : Nat} (h : die < 16) (hd : dom ≤ 10) : clockDomOk die dom = true :=
  (if_pos h).trans (decide_eq_true hd)

theorem clockDomOk_io {i dom : Nat} (h : i < 4) (hd : dom ≤ 4) (h1 : dom ≠ 1) : clockDomOk (16 + i) dom = true := by
  unfold clockDomOk
  rw [if_neg (by omega)]
  by_cases h0 : 16 + i = 16
  · rw [if_pos h0]
    exact decide_eq_true hd
  · rw [if_neg h0, if_pos (by omega), decide_eq_true hd]
    simpa using h1

theorem Dev.clockFault_skillet (d : Dev) {die : Nat} (h : die < 16) (mhz : Nat) : ∃ E : Dev, d.Reports E ∧
    d.clockFault die 8 mhz = ((E.catchHeld die).soil die).fenceSkillet die 0 := by
  obtain ⟨E, hE, he⟩ := d.clockFault_eq die 8 mhz (clockDomOk_skillet h (by decide))
  exact ⟨E, hE, he.trans ((if_pos h).trans ((if_neg (by decide)).trans (if_pos rfl)))⟩

theorem Dev.clockFault_stackCtl (d : Dev) {die : Nat} (h : die < 16) (mhz : Nat) : ∃ E : Dev, d.Reports E ∧
    d.clockFault die 9 mhz = (E.catchHeld die).fenceStackCtl die 0 := by
  obtain ⟨E, hE, he⟩ := d.clockFault_eq die 9 mhz (clockDomOk_skillet h (by decide))
  exact ⟨E, hE, he.trans ((if_pos h).trans ((if_neg (by decide)).trans ((if_neg (by decide)).trans (if_pos rfl))))⟩

theorem Dev.clockFault_engine (d : Dev) {die : Nat} (h : die < 16) (mhz : Nat) : ∃ E : Dev, d.Reports E ∧
    d.clockFault die 10 mhz = (E.catchHeld die).fenceEngine die 0 := by
  obtain ⟨E, hE, he⟩ := d.clockFault_eq die 10 mhz (clockDomOk_skillet h (by decide))
  exact ⟨E, hE, he.trans ((if_pos h).trans ((if_neg (by decide)).trans ((if_neg (by decide)).trans (if_neg (by decide)))))⟩

/-- A fault of an I/O die's clock of domain `dom`. -/
theorem Dev.clockFault_io (d : Dev) {i dom : Nat} (h : i < 4) (hok : clockDomOk (16 + i) dom = true) (mhz : Nat) :
    ∃ E : Dev, d.Reports E ∧ d.clockFault (16 + i) dom mhz =
      if dom < 2 then ((E.catchHeld (16 + i)).soil (16 + i)).fenceIod i 0
      else if dom = 2 then (E.catchHeld (16 + i)).fenceCrockPort i 0
      else (E.catchHeld (16 + i)).fenceFabPort (2 * i + (dom - 3)) 0 := by
  obtain ⟨E, hE, he⟩ := d.clockFault_eq (16 + i) dom mhz hok
  refine ⟨E, hE, he.trans ((if_neg (by omega)).trans ((if_pos (by omega)).trans ?_))⟩
  rw [Nat.add_sub_cancel_left]

theorem Dev.clockFault_control (d : Dev) {dom : Nat} (h : dom ≤ 1) (mhz : Nat) : ∃ E : Dev, d.Reports E ∧
    d.clockFault 22 dom mhz = ((E.catchHeld 22).soil 22).safeStopNow 1 := by
  obtain ⟨E, hE, he⟩ := d.clockFault_eq 22 dom mhz (decide_eq_true h)
  exact ⟨E, hE, he⟩

theorem Dev.railFault_skillet (d : Dev) {die rail : Nat} (h : die < 16) (hr : rail ≤ 2) (mv : Nat) :
    ∃ E : Dev, (d.soil die).Reports E ∧ d.railFault die rail mv =
      (if die < 16 ∧ rail = 2 then E.setSaf { E.saf with dramBad := insertSorted die E.saf.dramBad } else E).fenceSkillet die 1 := by
  obtain ⟨E, hE, he⟩ := d.railFault_eq die rail mv ((if_pos h).trans (decide_eq_true hr))
  exact ⟨E, hE, he.trans (if_pos h)⟩

theorem Dev.railFault_io (d : Dev) {i rail : Nat} (h : i < 4) (hr : rail ≤ 1) (mv : Nat) :
    ∃ E : Dev, (d.soil (16 + i)).Reports E ∧ d.railFault (16 + i) rail mv = E.fenceIod i 1 := by
  obtain ⟨E, hE, he⟩ := d.railFault_eq (16 + i) rail mv
    ((if_neg (by omega)).trans ((if_pos (by omega)).trans (decide_eq_true hr)))
  rw [if_neg (by omega)] at he
  refine ⟨E, hE, he.trans ((if_neg (by omega)).trans ((if_pos (by omega)).trans ?_))⟩
  rw [Nat.add_sub_cancel_left]

theorem Dev.railFault_control (d : Dev) {rail : Nat} (h : rail ≤ 1) (mv : Nat) : ∃ E : Dev, (d.soil 22).Reports E ∧
    d.railFault 22 rail mv = E.safeStopNow 2 := by
  obtain ⟨E, hE, he⟩ := d.railFault_eq 22 rail mv (decide_eq_true h)
  exact ⟨E, hE, he⟩

/-! A skillet. -/

/-- What the fence of a skillet takes out of service, and what it leaves (R472). -/
def Dev.SkilletFenced (d e : Dev) (die : Nat) : Prop :=
  e.skillet die = { d.skillet die with fenced := true } ∧ bit e.mod.alert 1 = true ∧
  (∀ h, h / 8 = die → e.core h = { d.core h with clk := .cold, testing := false }) ∧
  (∀ h, h / 8 ≠ die → e.core h = d.core h) ∧ (∀ h, h ≠ die → e.skillet h = d.skillet h) ∧
  (∀ x ∈ d.runs, x.2.ended = false → x.2.onSkillet die = true → ∃ y, (x.1, y) ∈ e.runs ∧ y.Dead caFenced)

/-- The fence of a skillet, after steps that leave cores, skillets and live runs as they are. -/
theorem Dev.skilletFenced_of {d b : Dev} {die : Nat} (hf : (d.skillet die).fenced = false) (hc : b.cores = d.cores)
    (hs : b.skillets = d.skillets) (hr : ∀ x ∈ d.runs, x.2.ended = false → x ∈ b.runs) (r : Nat) :
    d.SkilletFenced (b.fenceSkillet die r) die := by
  have hcore := fun g => Dev.core_of hc g
  have hsk := fun k => Dev.skillet_of hs k
  obtain ⟨hself, hbit, hon, hoff, hother, hruns, _⟩ := b.fenceSkillet_facts die r (by rw [hsk]; exact hf)
  refine ⟨by rw [hself, hsk], hbit, fun h hh => by rw [hon h hh, hcore], fun h hh => (hoff h hh).trans (hcore h),
    fun h hh => (hother h hh).trans (hsk h), fun x hx hl ho => hruns x (hr x hx hl) hl ho⟩

theorem skilletFences (s : State) (die rail mhz mv : Nat) (h : die < 16) (hr : rail ≤ 2)
    (hf : (s.dev.skillet die).fenced = false) : ∃ t u, exec (.clockMonitorFault die 8 mhz) s = .next t ∧
      exec (.railMonitorFault die rail mv) s = .next u ∧ (rail = 2 → die ∈ u.dev.saf.dramBad) ∧
      ∀ v, v = t ∨ v = u → s.dev.SkilletFenced v.dev die := by
  obtain ⟨E, hE, hclock⟩ := s.dev.clockFault_skillet h mhz
  obtain ⟨F, hF, hrail⟩ := s.dev.railFault_skillet h hr mv
  have hbase := Dev.skilletFenced_of (b := if die < 16 ∧ rail = 2 then
      F.setSaf { F.saf with dramBad := insertSorted die F.saf.dramBad } else F) hf
    (by split <;> exact hF.cores) (by split <;> exact hF.skillets)
    (by intro x hx _; split <;> exact hF.runs ▸ hx) 1
  rw [← hrail] at hbase
  refine ⟨_, _, exec_clockMonitorFault die 8 mhz s, exec_railMonitorFault die rail mv s, fun h2 => ?_, ?_⟩
  · rw [State.onDev_dev, hrail, if_pos ⟨h, h2⟩, (Dev.fenceSkillet_facts _ die 1 ?_).2.2.2.2.2.2]
    · exact mem_insertSorted_self die _
    · exact (congrArg Skillet.fenced (Dev.skillet_of hF.skillets die)).trans hf
  · rintro v (rfl | rfl)
    · rw [State.onDev_dev, hclock]
      have hruns : ∀ x ∈ s.dev.runs, x.2.ended = false → x ∈ (E.catchHeld die).runs :=
        fun x hx hl => Dev.catchHeld_mem E die (by rw [hE.runs]; exact hx) hl
      exact Dev.skilletFenced_of (b := (E.catchHeld die).soil die) hf hE.cores hE.skillets hruns 0
    · exact hbase

/-! The stack controller, the engine and the ports of a die. -/

theorem Dev.fenceStackCtl_facts (d : Dev) (k r : Nat) : (d.fenceStackCtl k r).skillet k = { d.skillet k with ctlFenced := true } ∧
    (d.fenceStackCtl k r).cores = d.cores := by
  by_cases h : (d.skillet k).ctlFenced = true
  · rw [Dev.fenceStackCtl, if_pos h]
    exact ⟨by rw [← h], rfl⟩
  · rw [Dev.fenceStackCtl, if_neg h, Dev.skillet_of (Dev.fenceRec_skillets ..), Dev.fenceRec_cores]
    exact ⟨Dev.skillet_modSkillet .., rfl⟩

theorem Dev.fenceEngine_facts (d : Dev) (k r : Nat) :
    (d.fenceEngine k r).skillet k = { d.skillet k with engineFenced := true } ∧ (d.fenceEngine k r).cores = d.cores := by
  by_cases h : (d.skillet k).engineFenced = true
  · rw [Dev.fenceEngine, if_pos h]
    exact ⟨by rw [← h], rfl⟩
  · rw [Dev.fenceEngine, if_neg h, Dev.skillet_of (Dev.fenceRec_skillets ..), Dev.fenceRec_cores]
    exact ⟨Dev.skillet_modSkillet .., rfl⟩

theorem Dev.fenceCrockPort_facts (d : Dev) {i : Nat} (hi : i < 4) (hf : (d.cport i).fenced = false) (r : Nat) :
    (d.fenceCrockPort i r).cport i = { d.cport i with fenced := true, st := 0 } := by
  rw [Dev.fenceCrockPort, if_neg (by rw [hf]; decide), Dev.cport_of (Dev.fenceRec_crock ..)]
  exact Dev.cport_putCport d hi _

theorem skilletUnits (s : State) (die mhz : Nat) (h : die < 16) :
    ∃ t u, exec (.clockMonitorFault die 9 mhz) s = .next t ∧ exec (.clockMonitorFault die 10 mhz) s = .next u ∧
      t.dev.skillet die = { s.dev.skillet die with ctlFenced := true } ∧ t.dev.cores = s.dev.cores ∧
      u.dev.skillet die = { s.dev.skillet die with engineFenced := true } ∧ u.dev.cores = s.dev.cores := by
  obtain ⟨E, hE, hctl⟩ := s.dev.clockFault_stackCtl h mhz
  obtain ⟨F, hF, heng⟩ := s.dev.clockFault_engine h mhz
  obtain ⟨hsk, hco⟩ := (E.catchHeld die).fenceStackCtl_facts die 0
  obtain ⟨hsk', hco'⟩ := (F.catchHeld die).fenceEngine_facts die 0
  rw [← hctl, Dev.skillet_of (show (E.catchHeld die).skillets = s.dev.skillets from hE.skillets)] at hsk
  rw [← heng, Dev.skillet_of (show (F.catchHeld die).skillets = s.dev.skillets from hF.skillets)] at hsk'
  rw [← hctl] at hco
  rw [← heng] at hco'
  exact ⟨_, _, exec_clockMonitorFault die 9 mhz s, exec_clockMonitorFault die 10 mhz s, hsk, hco.trans hE.cores,
    hsk', hco'.trans hF.cores⟩

theorem ioPorts (s : State) (i mhz : Nat) (h : i < 4) :
    ∃ t u v, exec (.clockMonitorFault (16 + i) 2 mhz) s = .next t ∧ exec (.clockMonitorFault (16 + i) 3 mhz) s = .next u ∧
      exec (.clockMonitorFault (16 + i) 4 mhz) s = .next v ∧
      ((s.dev.cport i).fenced = false → t.dev.cport i = { s.dev.cport i with fenced := true, st := 0 }) ∧
      ((s.dev.port (2 * i)).fenced = false → (u.dev.port (2 * i)).fenced = true ∧ (u.dev.port (2 * i)).st = 0 ∧
        (u.dev.port (2 * i)).replay = [] ∧ u.dev.port (2 * i + 1) = s.dev.port (2 * i + 1)) ∧
      ((s.dev.port (2 * i + 1)).fenced = false → (v.dev.port (2 * i + 1)).fenced = true ∧ (v.dev.port (2 * i + 1)).st = 0 ∧
        (v.dev.port (2 * i + 1)).replay = [] ∧ v.dev.port (2 * i) = s.dev.port (2 * i)) := by
  obtain ⟨E, hE, hcrock⟩ := s.dev.clockFault_io h (clockDomOk_io h (by decide : 2 ≤ 4) (by decide)) mhz
  obtain ⟨F, hF, hfab0⟩ := s.dev.clockFault_io h (clockDomOk_io h (by decide : 3 ≤ 4) (by decide)) mhz
  obtain ⟨G, hG, hfab1⟩ := s.dev.clockFault_io h (clockDomOk_io h (by decide : 4 ≤ 4) (by decide)) mhz
  have hcp := Dev.cport_of (show (E.catchHeld (16 + i)).crock = s.dev.crock from hE.crock) i
  have hp0 := fun p => Dev.port_of (show (F.catchHeld (16 + i)).fab = s.dev.fab from hF.fab) p
  have hp1 := fun p => Dev.port_of (show (G.catchHeld (16 + i)).fab = s.dev.fab from hG.fab) p
  refine ⟨_, _, _, exec_clockMonitorFault (16 + i) 2 mhz s, exec_clockMonitorFault (16 + i) 3 mhz s,
    exec_clockMonitorFault (16 + i) 4 mhz s, fun hf => ?_, fun hf => ?_, fun hf => ?_⟩
  · rw [State.onDev_dev, hcrock, ← hcp]
    exact Dev.fenceCrockPort_facts _ h (by rw [hcp]; exact hf) 0
  · obtain ⟨hfen, hst, hrep, hne⟩ := (F.catchHeld (16 + i)).fenceFabPort_facts (p := 2 * i) (by omega)
      (by rw [hp0]; exact hf) 0
    rw [State.onDev_dev, hfab0]
    exact ⟨hfen, hst, hrep, (hne (2 * i + 1) (by omega)).trans (hp0 _)⟩
  · obtain ⟨hfen, hst, hrep, hne⟩ := (G.catchHeld (16 + i)).fenceFabPort_facts (p := 2 * i + 1) (by omega)
      (by rw [hp1]; exact hf) 0
    rw [State.onDev_dev, hfab1]
    exact ⟨hfen, hst, hrep, (hne (2 * i) (by omega)).trans (hp1 _)⟩

/-! An I/O die. -/

theorem ioDieFences (s : State) (i rail mhz mv : Nat) (h1 : 1 ≤ i) (h4 : i < 4) (hr : rail ≤ 1)
    (hf : i ∉ s.dev.saf.iodFenced) : ∃ t u, exec (.clockMonitorFault (16 + i) 0 mhz) s = .next t ∧
      exec (.railMonitorFault (16 + i) rail mv) s = .next u ∧ ∀ v, v = t ∨ v = u → i ∈ v.dev.saf.iodFenced ∧
        (v.dev.port (2 * i)).st = 0 ∧ (v.dev.port (2 * i + 1)).st = 0 ∧ (v.dev.cport i).st = 0 ∧
        (∀ c, c < 32 → (v.dev.dma (32 * i + c)).xfer = none) ∧ v.dev.saf.safeStop = s.dev.saf.safeStop := by
  obtain ⟨E, hE, hclock⟩ := s.dev.clockFault_io h4 (clockDomOk_io h4 (by decide : 0 ≤ 4) (by decide)) mhz
  obtain ⟨F, hF, hrail⟩ := s.dev.railFault_io h4 hr mv
  rw [if_pos (by decide)] at hclock
  have hsE : ((E.catchHeld (16 + i)).soil (16 + i)).saf = { s.dev.saf with
    railBad := insertSorted (16 + i) s.dev.saf.railBad } := by rw [← hE.saf]; rfl
  have hsF : F.saf = { s.dev.saf with railBad := insertSorted (16 + i) s.dev.saf.railBad } := hF.saf
  refine ⟨_, _, exec_clockMonitorFault (16 + i) 0 mhz s, exec_railMonitorFault (16 + i) rail mv s, ?_⟩
  rintro v (rfl | rfl)
  · obtain ⟨hmem, hp0, hp1, hcp, hdma, hsafe⟩ := ((E.catchHeld (16 + i)).soil (16 + i)).fenceIod_facts i 0 h1 h4
      (by rw [hsE]; exact hf)
    rw [State.onDev_dev, hclock]
    exact ⟨hmem, hp0, hp1, hcp, hdma, by rw [hsafe, hsE]⟩
  · obtain ⟨hmem, hp0, hp1, hcp, hdma, hsafe⟩ := F.fenceIod_facts i 1 h1 h4 (by rw [hsF]; exact hf)
    rw [State.onDev_dev, hrail]
    exact ⟨hmem, hp0, hp1, hcp, hdma, by rw [hsafe, hsF]⟩

/-! Safe stop. -/

/-- The package has come to a safe stop, and says so (R474). -/
def Dev.Stopped (d : Dev) : Prop := d.saf.safeStop = true ∧ bit d.mod.alert 0 = true

theorem Dev.clockFault_iod0 (d : Dev) {dom : Nat} (h : dom ≤ 1) (mhz : Nat) (hs : d.saf.safeStop = false) :
    (d.clockFault 16 dom mhz).Stopped := by
  obtain ⟨E, hE, he⟩ := d.clockFault_io (i := 0) (by decide) (dom := dom)
    ((if_neg (by decide)).trans ((if_pos rfl).trans (decide_eq_true (by omega)))) mhz
  rw [if_pos (by omega)] at he
  rw [show (16 : Nat) = 16 + 0 from rfl, he]
  exact Dev.safeStopNow_facts _ 4 (by show E.saf.safeStop = false; rw [hE.saf]; exact hs)

theorem Dev.clockFault_cd (d : Dev) {dom : Nat} (h : dom ≤ 1) (mhz : Nat) (hs : d.saf.safeStop = false) :
    (d.clockFault 22 dom mhz).Stopped := by
  obtain ⟨E, hE, he⟩ := d.clockFault_control h mhz
  rw [he]
  exact Dev.safeStopNow_facts _ 1 (by show E.saf.safeStop = false; rw [hE.saf]; exact hs)

theorem Dev.railFault_iod0 (d : Dev) {rail : Nat} (h : rail ≤ 1) (mv : Nat) (hs : d.saf.safeStop = false) :
    (d.railFault 16 rail mv).Stopped := by
  obtain ⟨E, hE, he⟩ := d.railFault_io (i := 0) (by decide) h mv
  rw [show (16 : Nat) = 16 + 0 from rfl, he]
  exact Dev.safeStopNow_facts _ 4 (by rw [hE.saf]; exact hs)

theorem Dev.railFault_cd (d : Dev) {rail : Nat} (h : rail ≤ 1) (mv : Nat) (hs : d.saf.safeStop = false) :
    (d.railFault 22 rail mv).Stopped := by
  obtain ⟨E, hE, he⟩ := d.railFault_control h mv
  rw [he]
  exact Dev.safeStopNow_facts _ 2 (by rw [hE.saf]; exact hs)

theorem safeStops (s : State) (rail mhz mv : Nat) (hr : rail ≤ 1) (hs : s.dev.saf.safeStop = false) :
    ∃ t0 t1 u0 u1 v0 v1 w, exec (.clockMonitorFault 16 0 mhz) s = .next t0 ∧
      exec (.clockMonitorFault 16 1 mhz) s = .next t1 ∧ exec (.clockMonitorFault 22 0 mhz) s = .next u0 ∧
      exec (.clockMonitorFault 22 1 mhz) s = .next u1 ∧ exec (.railMonitorFault 16 rail mv) s = .next v0 ∧
      exec (.railMonitorFault 22 rail mv) s = .next v1 ∧ exec .lockstepMismatch s = .next w ∧
      ∀ z ∈ [t0, t1, u0, u1, v0, v1, w], z.dev.Stopped := by
  refine ⟨_, _, _, _, _, _, _, exec_clockMonitorFault 16 0 mhz s, exec_clockMonitorFault 16 1 mhz s,
    exec_clockMonitorFault 22 0 mhz s, exec_clockMonitorFault 22 1 mhz s, exec_railMonitorFault 16 rail mv s,
    exec_railMonitorFault 22 rail mv s, exec_lockstepMismatch s, ?_⟩
  simp only [List.forall_mem_cons]
  exact ⟨s.dev.clockFault_iod0 (by decide) mhz hs, s.dev.clockFault_iod0 (by decide) mhz hs,
    s.dev.clockFault_cd (by decide) mhz hs, s.dev.clockFault_cd (by decide) mhz hs, s.dev.railFault_iod0 hr mv hs,
    s.dev.railFault_cd hr mv hs, s.dev.safeStopNow_facts 0 hs, fun z hz => absurd hz List.not_mem_nil⟩

/-! The junction dies. -/

theorem junctionFences (s : State) (j : Nat) (hj : j < 2) (hf : (s.dev.jd j).fenced = false) :
    ∃ t, exec (.junctionCompareMismatch j) s = .next t ∧
      ((s.dev.jd (1 - j)).fenced = false → (t.dev.jd j).fenced = true ∧ (t.dev.jd (1 - j)).fenced = false ∧
        t.dev.saf.safeStop = s.dev.saf.safeStop) ∧
      ((s.dev.jd (1 - j)).fenced = true → t.dev.saf.safeStop = true) := by
  refine ⟨_, exec_junctionCompareMismatch hj s, fun ho => ?_, fun ho => ?_⟩
  · obtain ⟨hself, hother, hsaf⟩ := s.dev.fenceJd_facts j 3 hf ho hj
    rw [State.onDev_dev]
    exact ⟨hself, hother, by rw [hsaf]⟩
  · rw [State.onDev_dev, Dev.fenceJd, if_neg (by rw [hf]; decide), if_pos ho]
    exact Dev.safeStopNow_set _ 5

/-- Settles O45: a fence by the unit whose clock or rail fails, and the faults that are a safe stop. -/
theorem fencesAct : Obligations.FencesAct := by
  unfold Obligations.FencesAct
  intro s die rail mhz mv k i j
  refine ⟨skilletFences s die rail mhz mv, skilletUnits s die mhz, ioPorts s i mhz, ioDieFences s i rail mhz mv,
    safeStops s rail mhz mv, fun hs => ?_, junctionFences s j, fun hj hf => ?_⟩
  · rw [exec_lockstepMismatch]
    exact State.next_same (if_pos hs)
  · rw [exec_junctionCompareMismatch hj]
    exact State.next_same (if_pos hf)

end Sys2Proof.Machine
end

section
/-!
PROOF. Patrol, retraining, channel repair and loss of a stack (R284, R286, R288 to R292, R517, R518).
-/

namespace Sys2Proof.Machine

theorem exec_patrol (t n : Nat) (got : SectorRead) (s : State) :
    exec (.patrol t n got) s = .next (s.onDev (fun d => d.patrol t n got)) := rfl

theorem exec_retrainStart (t p : Nat) (s : State) :
    exec (.retrainStart t p) s = .next (s.onDev (fun d => d.retrainStart t p)) := rfl

theorem exec_retrainEnd {t : Nat} (ht : t < 16) (ok : Bool) (s : State) :
    exec (.retrainEnd t ok) s = .next (s.onDev (fun _ => s.dev.retrainEnd t ok)) :=
  congrArg (fun d => Host.Outcome.next (s.onDev fun _ => d)) (if_pos (decide_eq_true ht))

theorem exec_channelRetire (t c : Nat) (s : State) :
    exec (.channelRetire t c) s = .next (s.onDev (fun d => d.channelRetire t c)) := rfl

theorem exec_repairCopyDone {t : Nat} (ht : t < 16) (lost : List Nat) (s : State) :
    exec (.repairCopyDone ⟨t, lost⟩) s = .next (s.onDev (fun _ => s.dev.repairDone t lost)) :=
  congrArg (fun d => Host.Outcome.next (s.onDev fun _ => d)) (if_pos (decide_eq_true ht))

theorem exec_memRepairCtlStart {s : State} (h : s.dev.regsLive = true) (t c : Nat) :
    exec (.memRepairCtlStart t c) s = .next (s.onDev (fun d => d.repairRequest t c)) := by
  have harm : exec (.memRepairCtlStart t c) s = execMemRepairCtlStart t c s := rfl
  rw [harm, execMemRepairCtlStart, State.onReg_live h]

theorem exec_memRetrainCtlRequest {s : State} (h : s.dev.regsLive = true) (t p : Nat) :
    exec (.memRetrainCtlRequest t p) s = .next (s.onDev (fun d => d.retrainRequest t p)) := by
  have harm : exec (.memRetrainCtlRequest t p) s = execMemRetrainCtlRequest t p s := rfl
  rw [harm, execMemRetrainCtlRequest, State.onReg_live h]

theorem stackOk_of {t : Nat} (h : t < 16) : stackOk t = true := decide_eq_true h

/-- A stack in service is served: the first check of its rows. -/
theorem Dev.stackServed {d : Dev} {t : Nat} (h : t < 16) (ho : d.stackOut t = false) : ¬ (!stackOk t || d.stackOut t) = true := by
  rw [stackOk_of h, ho]
  decide

/-! Patrol. -/

theorem Dev.patrolled_row {d : Dev} {t off : Nat} (h : off / 4194304 < 30720)
    (hm : (d.stack t).moved (d.mapOfRow t (off / 4194304)).2 off = false) : d.patrolled t off = some off :=
  (if_pos h).trans (if_neg (by rw [hm]; decide))

theorem Dev.patrol_none {d : Dev} {t n : Nat} (h : t < 16) (ho : d.stackOut t = false) (hp : d.patrolled t (64 * n) = none)
    (got : SectorRead) : d.patrol t n got = d := by
  rw [Dev.patrol, if_neg (Dev.stackServed h ho), hp]

theorem Dev.patrol_bad {d : Dev} {t n o : Nat} (h : t < 16) (ho : d.stackOut t = false)
    (hp : d.patrolled t (64 * n) = some o) (hb : (d.stack t).bad o = true) (got : SectorRead) : d.patrol t n got = d := by
  rw [Dev.patrol, if_neg (Dev.stackServed h ho), hp]
  exact if_pos hb

theorem Dev.patrol_clean {d : Dev} {t n : Nat} (h : t < 16) (ho : d.stackOut t = false) : d.patrol t n .clean = d := by
  cases hp : d.patrolled t (64 * n) with
  | none => exact Dev.patrol_none h ho hp .clean
  | some o =>
    rw [Dev.patrol, if_neg (Dev.stackServed h ho), hp]
    exact ite_self d

theorem Dev.patrol_oneByte {d : Dev} {t n o : Nat} (h : t < 16) (ho : d.stackOut t = false)
    (hp : d.patrolled t (64 * n) = some o) (hb : (d.stack t).bad o = false) :
    d.patrol t n .oneByte = d.corrected t o (d.mapOfRow t (o / 4194304)).2 := by
  rw [Dev.patrol, if_neg (Dev.stackServed h ho), hp]
  exact if_neg (by rw [hb]; decide)

theorem Dev.patrol_uncorrectable {d : Dev} {t n o : Nat} (h : t < 16) (ho : d.stackOut t = false)
    (hp : d.patrolled t (64 * n) = some o) (hb : (d.stack t).bad o = false) : d.patrol t n .uncorrectable =
      d.uncorrectable (d.mapOfRow t (o / 4194304)).1 t o (d.mapOfRow t (o / 4194304)).2 := by
  rw [Dev.patrol, if_neg (Dev.stackServed h ho), hp]
  exact if_neg (by rw [hb]; decide)

theorem Dev.corrected_eq (d : Dev) (t o : Nat) (b : Bool) : ∃ z,
    d.corrected t o b = (d.modStack t (fun x => { x with shaky := z })).count (unit24 t 0x1FF) 0 1 := ⟨_, rfl⟩

/-- A sector that an entry of the poison list covers is bad. -/
theorem Stack.bad_of_mem {x : Stack} {o : Nat} (h : { addr := o, log2 := 6 } ∈ x.poison) : x.bad o = true := by
  have hc : PoisonEnt.covers { addr := o, log2 := 6 } o = true := by simp [PoisonEnt.covers]
  rw [Stack.bad, List.any_eq_true.2 ⟨_, h, hc⟩]
  rfl

theorem patrols (s : State) (t n o : Nat) (got : SectorRead) (h : t < 16) (ho : s.dev.stackOut t = false)
    (hp : s.dev.patrolled t (64 * n) = some o) :
    ((s.dev.stack t).bad o = true → exec (.patrol t n got) s = .next s) ∧
    ((s.dev.stack t).bad o = false →
      (∃ u z, exec (.patrol t n .oneByte) s = .next u ∧
        u.dev = (s.dev.modStack t (fun x => { x with shaky := z })).count (unit24 t 0x1FF) 0 1) ∧
      (o % 64 = 0 → (s.dev.stack t).poison.length < 4096 →
        (s.dev.stack t).moved (s.dev.mapOfRow t (o / 4194304)).2 o = false → ∃ u, exec (.patrol t n .uncorrectable) s = .next u ∧
        { addr := o, log2 := 6 } ∈ (u.dev.stack t).poison ∧ (∀ e ∈ (s.dev.stack t).poison, e ∈ (u.dev.stack t).poison) ∧
        (u.dev.stack t).bad o = true ∧ u.dev.mem = s.dev.mem)) := by
  refine ⟨fun hb => ?_, fun hb => ⟨?_, fun h64 hl hm => ⟨_, exec_patrol t n _ s, ?_⟩⟩⟩
  · rw [exec_patrol]
    exact State.next_same (Dev.patrol_bad h ho hp hb got)
  · obtain ⟨z, hz⟩ := s.dev.corrected_eq t o (s.dev.mapOfRow t (o / 4194304)).2
    exact ⟨_, z, exec_patrol t n _ s, (Dev.patrol_oneByte h ho hp hb).trans hz⟩
  · have hbase : o / 64 * 64 = o := by omega
    have hcov : (s.dev.stack t).poison.any (fun e => e.covers o) = false := (Bool.or_eq_false_iff.1 hb).1
    obtain ⟨hmem, hkeep, hsame⟩ := s.dev.uncorrectable_entry (s.dev.mapOfRow t (o / 4194304)).1 t o
      (s.dev.mapOfRow t (o / 4194304)).2 hl (by rw [hbase]; exact hm) (by rw [hbase]; exact hcov)
    rw [hbase] at hmem
    rw [State.onDev_dev, Dev.patrol_uncorrectable h ho hp hb]
    exact ⟨hmem, hkeep, Stack.bad_of_mem hmem, hsame⟩

/-! Retraining. -/

/-- A request that waits, or a second since the last training, is grounds to retrain (R286, R518). -/
theorem Dev.trainDue_of {d : Dev} {t p : Nat} (h : (d.stack t).queued = some p ∨
    (kget (d.stack t).trained p (0, 0)).1 + 50000000 ≤ d.aoOf t ∨ d.trainDue t p = true) : d.trainDue t p = true := by
  rcases h with h | h | h
  · simp [Dev.trainDue, h]
  · simp [Dev.trainDue, trainPeriod, h]
  · exact h

theorem Dev.retrainStart_not {d : Dev} {t p : Nat} (h : (d.stack t).retrain ≠ none ∨ d.trainDue t p = false) :
    d.retrainStart t p = d := by
  refine if_pos ?_
  rcases h with h | h
  · rw [Option.isSome_iff_ne_none.2 h]
    simp
  · rw [h]
    simp

/-- The stack when a retraining of a pseudo-channel of it has started. -/
def Stack.trains (x : Stack) (p : Nat) : Stack :=
  { x with retrain := some p, retrainTries := 0, queued := if x.queued = some p then none else x.queued }

theorem Dev.retrainStart_goes {d : Dev} {t p : Nat} (h : t < 16) (ho : d.stackOut t = false) (hp : p < 64)
    (hr : (d.stack t).retrain = none) (hc : (d.stack t).repaired ≠ some (p / 2)) (hd : d.trainDue t p = true) :
    d.retrainStart t p = d.putStack t ((d.stack t).trains p) := by
  refine if_neg ?_
  rw [stackOk_of h, ho, hr, hd, decide_eq_false (by omega), beq_eq_false_iff_ne.2 hc]
  decide

theorem retrainStarts (s : State) (t p : Nat) (h : t < 16) (ho : s.dev.stackOut t = false) (hp : p < 64)
    (hr : (s.dev.stack t).retrain = none) (hc : (s.dev.stack t).repaired ≠ some (p / 2)) (hd : s.dev.trainDue t p = true) :
    ∃ u, exec (.retrainStart t p) s = .next u ∧ (u.dev.stack t).retrain = some p ∧ (u.dev.stack t).retrainTries = 0 ∧
      (∀ k, k ≠ t → u.dev.stack k = s.dev.stack k) := by
  refine ⟨_, exec_retrainStart t p s, ?_⟩
  rw [State.onDev_dev, Dev.retrainStart_goes h ho hp hr hc hd, Dev.stack_putStack]
  exact ⟨rfl, rfl, fun k hk => Dev.stack_putStack_ne _ hk _⟩

/-- The stack when the retraining of a pseudo-channel has ended and its result is kept (R271). -/
def Dev.trainedStack (d : Dev) (t p : Nat) : Stack :=
  { d.stack t with retrain := none, retrainTries := 0,
                   trained := kset (d.stack t).trained p (d.aoOf t, (d.stack t).temp) }

theorem Dev.retrainEnd_good {d : Dev} {t p : Nat} (h : (d.stack t).retrain = some p) : ∃ z, d.retrainEnd t true =
    d.putStack t { d.trainedStack t p with shaky := z } := by
  refine ⟨(d.stack t).shaky.filter (·.1 != p), ?_⟩
  rw [Dev.retrainEnd]
  dsimp only
  rw [h]
  rfl

theorem Dev.retrainEnd_again {d : Dev} {t p : Nat} (h : (d.stack t).retrain = some p) (h0 : (d.stack t).retrainTries = 0) :
    d.retrainEnd t false = d.putStack t { d.stack t with retrainTries := 1 } := by
  rw [Dev.retrainEnd]
  split
  next hn => rw [h] at hn; cases hn
  next q hq =>
    obtain rfl : p = q := Option.some.inj (h.symm.trans hq)
    exact (if_neg (by decide)).trans (if_pos h0)

theorem Dev.retrainEnd_fails {d : Dev} {t p : Nat} (h : (d.stack t).retrain = some p) (h0 : (d.stack t).retrainTries ≠ 0) :
    ∃ D : Dev, d.retrainEnd t false = D.channelFails t (p / 2) ∧ D.stack t = d.trainedStack t p := by
  refine ⟨(d.putStack t (d.trainedStack t p)).raise { code := evRetrainFail, unit := unit24 t (uiPch p) }, ?_, ?_⟩
  · rw [Dev.retrainEnd]
    dsimp only
    rw [h]
    exact (if_neg (by decide)).trans (if_neg h0)
  · rw [Dev.stack_of (Dev.reports_raise _ _ _).dram, Dev.stack_putStack]

theorem Dev.channelFails_first {d : Dev} {t : Nat} (h : (d.stack t).repaired = none) (c : Nat) :
    d.channelFails t c = d.putStack t { d.stack t with marked := insertSorted c (d.stack t).marked } := by
  rw [Dev.channelFails]
  split
  next r hr => rw [h] at hr; cases hr
  next => rfl

theorem Dev.channelFails_repaired {d : Dev} {t r : Nat} (h : (d.stack t).repaired = some r) (c : Nat) :
    d.channelFails t c = if r = c then d else d.loseStack t := by
  rw [Dev.channelFails, h]

theorem retrainEnds (s : State) (t p : Nat) (h : t < 16) (hr : (s.dev.stack t).retrain = some p) :
    (∃ u z, exec (.retrainEnd t true) s = .next u ∧ u.dev.stack t = { s.dev.stack t with
      retrain := none, retrainTries := 0, shaky := z,
      trained := kset (s.dev.stack t).trained p (s.dev.aoOf t, (s.dev.stack t).temp) }) ∧
    ((s.dev.stack t).retrainTries = 0 → ∃ u, exec (.retrainEnd t false) s = .next u ∧
      u.dev.stack t = { s.dev.stack t with retrainTries := 1 }) ∧
    ((s.dev.stack t).retrainTries ≠ 0 → ∃ u, exec (.retrainEnd t false) s = .next u ∧
      ((s.dev.stack t).repaired = none → p / 2 ∈ (u.dev.stack t).marked ∧ (u.dev.stack t).retrain = none ∧
        (u.dev.stack t).lost = (s.dev.stack t).lost) ∧
      (∀ r, (s.dev.stack t).repaired = some r →
        (r ≠ p / 2 → (u.dev.stack t).lost = true) ∧ (r = p / 2 → (u.dev.stack t).lost = (s.dev.stack t).lost))) := by
  refine ⟨?_, fun h0 => ⟨_, exec_retrainEnd h false s, ?_⟩, fun h0 => ⟨_, exec_retrainEnd h false s, ?_⟩⟩
  · obtain ⟨z, hz⟩ := Dev.retrainEnd_good hr
    refine ⟨_, z, exec_retrainEnd h true s, ?_⟩
    rw [State.onDev_dev, hz]
    exact Dev.stack_putStack ..
  · rw [State.onDev_dev, Dev.retrainEnd_again hr h0]
    exact Dev.stack_putStack ..
  · obtain ⟨D, hD, hst⟩ := Dev.retrainEnd_fails hr h0
    rw [State.onDev_dev, hD]
    refine ⟨fun hn => ?_, fun r hsome => ⟨fun hne => ?_, fun heq => ?_⟩⟩
    · rw [Dev.channelFails_first (by rw [hst]; exact hn), Dev.stack_putStack, hst]
      exact ⟨mem_insertSorted_self _ _, rfl, rfl⟩
    · rw [Dev.channelFails_repaired (by rw [hst]; exact hsome), if_neg hne]
      exact Dev.loseStack_lost D t
    · rw [Dev.channelFails_repaired (by rw [hst]; exact hsome), if_pos heq, hst]
      rfl

/-! Repair of a channel. -/

theorem Dev.channelRetire_not {d : Dev} {t c : Nat} (h : (d.stack t).due c = false) : d.channelRetire t c = d :=
  if_pos (by rw [h]; simp)

theorem Dev.channelRetire_due {d : Dev} {t c : Nat} (h : t < 16) (hc : c < 32) (ho : d.stackOut t = false)
    (hd : (d.stack t).due c = true) : d.channelRetire t c =
      if (d.stack t).repaired.isSome then (if (d.stack t).repaired = some c then d else d.loseStack t)
      else d.startRepair t c := by
  refine if_neg ?_
  rw [stackOk_of h, ho, hd, decide_eq_false (by omega)]
  decide

theorem Dev.startRepair_facts (d : Dev) (t c : Nat) : ((d.startRepair t c).stack t).repairing = true ∧
    ((d.startRepair t c).stack t).repaired = some c ∧
    (d.startRepair t c).flash.repaired = d.flash.repaired ++ [(t, c)] ∧ (d.startRepair t c).regs = d.regs := by
  rw [Dev.startRepair, Dev.stack_modStack]
  exact ⟨rfl, rfl, rfl, rfl⟩

theorem channelRetires (s : State) (t c : Nat) (h : t < 16) (ho : s.dev.stackOut t = false) (hc : c < 32) :
    ((s.dev.stack t).due c = false → exec (.channelRetire t c) s = .next s) ∧
    ((s.dev.stack t).due c = true → (s.dev.stack t).repaired = none → ∃ u, exec (.channelRetire t c) s = .next u ∧
      (u.dev.stack t).repairing = true ∧ (u.dev.stack t).repaired = some c ∧
      u.dev.flash.repaired = s.dev.flash.repaired ++ [(t, c)]) ∧
    ((s.dev.stack t).due c = true → (∃ x, x ≠ c ∧ (s.dev.stack t).repaired = some x) → ∃ u, exec (.channelRetire t c) s = .next u ∧
      (u.dev.stack t).lost = true ∧ t ∈ u.dev.flash.lost) := by
  refine ⟨fun hd => ?_, fun hd hn => ⟨_, exec_channelRetire t c s, ?_⟩, fun hd hx => ⟨_, exec_channelRetire t c s, ?_⟩⟩
  · rw [exec_channelRetire]
    exact State.next_same (Dev.channelRetire_not hd)
  · obtain ⟨hrep, hch, hfl, _⟩ := s.dev.startRepair_facts t c
    rw [State.onDev_dev, Dev.channelRetire_due h hc ho hd, hn, if_neg (by decide)]
    exact ⟨hrep, hch, hfl⟩
  · obtain ⟨x, hne, hx⟩ := hx
    rw [State.onDev_dev, Dev.channelRetire_due h hc ho hd, hx, if_pos Option.isSome_some, if_neg (fun he => hne (Option.some.inj he))]
    exact s.dev.loseStack_facts t (Dev.stackOut_false ho)

theorem Dev.repairDone_idle {d : Dev} {t : Nat} (h : (d.stack t).repairing = false) (lost : List Nat) :
    d.repairDone t lost = d := by
  have hnone : ∀ (f : Nat → Bool) (l : List Nat), l.filter (fun o => (d.stack t).repairing && f o) = [] := by
    intro f l
    rw [h]
    exact List.filter_false l
  rw [Dev.repairDone]
  dsimp only
  rw [hnone, List.foldl_nil, h]

theorem repairCopies (s : State) (t c : Nat) (lost : List Nat) (h : t < 16) (hrep : (s.dev.stack t).repairing = true)
    (hch : (s.dev.stack t).repaired = some c) : ∃ u, exec (.repairCopyDone ⟨t, lost⟩) s = .next u ∧
      (u.dev.stack t).repairing = false ∧ (u.dev.stack t).repaired = some c ∧ u.dev.mem = s.dev.mem ∧
      (lost = [] → (∀ e ∈ (s.dev.stack t).poison, e.addr % 64 = 0) → ∀ o, o % 64 = 0 → (s.dev.stack t).bad o = true →
        (u.dev.stack t).bad o = true) := by
  obtain ⟨hdone, hkeep, hmem, hstack⟩ := s.dev.repairDone_facts t c lost hrep hch
  refine ⟨_, exec_repairCopyDone h lost s, hdone, hkeep, hmem, fun hl h64 o ho hb => ?_⟩
  rw [State.onDev_dev, hstack hl]
  exact Dev.repairDone_bad (s.dev.stack t) (fun a => s.dev.inChannel t c a) h64 o ho hb

/-! The requests of the register block. -/

/-- The device after the status of a repair request. -/
def Dev.repairAnswers (d : Dev) (t c st : Nat) : Dev :=
  d.setRegs { d.regs with repairStack := t, repairCh := c, repairStatus := st }

theorem Dev.repairRequest_eq {d : Dev} {t c : Nat} (h : t < 16) (hc : c < 32) (ho : d.stackOut t = false) :
    d.repairRequest t c =
      if (d.stack t).repairing then d.repairAnswers t c 5
      else if (d.stack t).repaired.isSome then d.repairAnswers t c 4
      else (d.repairAnswers t c 1).startRepair t c := by
  have hno : ¬ (!stackOk t || decide (32 ≤ c)) = true := by
    rw [stackOk_of h, decide_eq_false (by omega)]
    decide
  exact (if_neg hno).trans (if_neg (by rw [ho]; decide))

theorem Dev.repairAnswers_facts (d : Dev) (t c st : Nat) : (d.repairAnswers t c st).regs.repairStack = t ∧
    (d.repairAnswers t c st).regs.repairCh = c ∧ (d.repairAnswers t c st).regs.repairStatus = st ∧
    (d.repairAnswers t c st).stack t = d.stack t := ⟨rfl, rfl, rfl, rfl⟩

theorem repairRequests (s : State) (t c : Nat) (h : t < 16) (ho : s.dev.stackOut t = false)
    (hl : s.dev.regsLive = true) (hc : c < 32) : ∃ u, exec (.memRepairCtlStart t c) s = .next u ∧ u.dev.regs.repairStack = t ∧
      u.dev.regs.repairCh = c ∧
      ((s.dev.stack t).repairing = true → u.dev.regs.repairStatus = 5 ∧ u.dev.stack t = s.dev.stack t) ∧
      ((s.dev.stack t).repairing = false → (s.dev.stack t).repaired ≠ none →
        u.dev.regs.repairStatus = 4 ∧ u.dev.stack t = s.dev.stack t) ∧
      ((s.dev.stack t).repairing = false → (s.dev.stack t).repaired = none → u.dev.regs.repairStatus = 1 ∧
        (u.dev.stack t).repairing = true ∧ (u.dev.stack t).repaired = some c) := by
  refine ⟨_, exec_memRepairCtlStart hl t c, ?_⟩
  rw [State.onDev_dev, Dev.repairRequest_eq h hc ho]
  cases hrep : (s.dev.stack t).repairing with
  | true =>
    rw [if_pos rfl]
    exact ⟨rfl, rfl, fun _ => ⟨rfl, rfl⟩, fun hf => absurd hf (by decide), fun hf => absurd hf (by decide)⟩
  | false =>
    rw [if_neg (by decide)]
    cases hch : (s.dev.stack t).repaired with
    | some x =>
      rw [if_pos Option.isSome_some]
      exact ⟨rfl, rfl, fun hf => absurd hf (by decide), fun _ _ => ⟨rfl, rfl⟩, fun _ hn => absurd hn (by simp)⟩
    | none =>
      obtain ⟨hr, hk, _, hregs⟩ := (s.dev.repairAnswers t c 1).startRepair_facts t c
      rw [if_neg (by decide), hregs]
      exact ⟨rfl, rfl, fun hf => absurd hf (by decide), fun _ hn => absurd rfl hn, fun _ _ => ⟨rfl, hr, hk⟩⟩

/-- The device after the registers of a retraining request. -/
def Dev.retrainAsked (d : Dev) (t p : Nat) : Dev :=
  d.setRegs { d.regs with retrainStack := t, retrainPch := p, retrainIgnored := (d.stack t).queued.isSome }

theorem Dev.retrainRequest_eq {d : Dev} {t p : Nat} (h : t < 16) (hp : p < 64) : d.retrainRequest t p =
    if (d.stack t).queued.isSome then d.retrainAsked t p
    else (d.retrainAsked t p).modStack t (fun x => { x with queued := some p }) :=
  if_neg (by rw [stackOk_of h, decide_eq_false (by omega)]; decide)

theorem retrainRequests (s : State) (t p : Nat) (h : t < 16) (hl : s.dev.regsLive = true) (hp : p < 64) :
    ∃ u, exec (.memRetrainCtlRequest t p) s = .next u ∧ u.dev.regs.retrainStack = t ∧
      u.dev.regs.retrainPch = p ∧
      ((s.dev.stack t).queued = none → u.dev.regs.retrainIgnored = false ∧ (u.dev.stack t).queued = some p) ∧
      ((s.dev.stack t).queued ≠ none → u.dev.regs.retrainIgnored = true ∧ u.dev.stack t = s.dev.stack t) := by
  refine ⟨_, exec_memRetrainCtlRequest hl t p, ?_⟩
  rw [State.onDev_dev, Dev.retrainRequest_eq h hp]
  cases hq : (s.dev.stack t).queued with
  | some x =>
    rw [if_pos Option.isSome_some]
    exact ⟨rfl, rfl, fun hn => absurd hn (by simp), fun _ => ⟨congrArg Option.isSome hq, rfl⟩⟩
  | none =>
    rw [if_neg (by decide), Dev.stack_modStack]
    exact ⟨rfl, rfl, fun _ => ⟨congrArg Option.isSome hq, rfl⟩, fun hn => absurd rfl hn⟩

/-- Settles O47: patrol by what the sector holds and how it reads, retraining by its tries, repair by the stack's first channel. -/
theorem stackService : Obligations.StackService := by
  unfold Obligations.StackService
  intro s t c p n lost got h ho
  refine ⟨fun hrow hm => Dev.patrolled_row hrow hm, fun hp => ?_, fun o hp => patrols s t n o got h ho hp,
    fun hp hr hc hd => retrainStarts s t p h ho hp hr hc (Dev.trainDue_of hd), fun hr => ?_, retrainEnds s t p h,
    channelRetires s t c h ho, repairCopies s t c lost h, fun hr => ?_, repairRequests s t c h ho, retrainRequests s t p h⟩
  · rw [exec_patrol]
    rcases hp with hp | rfl
    · exact State.next_same (Dev.patrol_none h ho hp got)
    · exact State.next_same (Dev.patrol_clean h ho)
  · rw [exec_retrainStart]
    exact State.next_same (Dev.retrainStart_not hr)
  · rw [exec_repairCopyDone h]
    exact State.next_same (Dev.repairDone_idle hr lost)

end Sys2Proof.Machine
end

section
/-!
PROOF. Presence, ports, late requests and retraining of the crock (R296, R307, R309 to R313, R519).
-/

namespace Sys2Proof.Machine

theorem exec_crockPresent (caps : List Nat) (links : List (Nat × Nat)) (s : State) :
    exec (.crockPresent ⟨caps, links⟩) s = .next (s.onDev (fun d => d.crockPresent caps links)) := rfl

theorem exec_crockLinkDown (i : Nat) (s : State) : exec (.crockLinkDown i) s = .next (s.onDev (fun d => d.crockDown i)) := rfl

theorem exec_crockPortRetrained (i : Nat) (ok : Bool) (w v : Nat) (s : State) :
    exec (.crockPortRetrained i ok w v) s = .next (s.onDev (fun d => d.crockRetrained i ok w v)) := rfl

theorem exec_memCrockCtlRetrain {s : State} (h : s.dev.regsLive = true) (mask : Nat) :
    exec (.memCrockCtlRetrain mask) s = .next (s.onDev (fun d => d.crockRetrain mask)) := by
  have harm : exec (.memCrockCtlRetrain mask) s = execMemCrockCtlRetrain mask s := rfl
  rw [harm, execMemCrockCtlRetrain, State.onReg_live h]

theorem exec_crockRequestLate (u : CrockUser) (a : Nat) (s : State) :
    exec (.crockRequestLate u a) s = .next (s.onDev (fun d => d.crockMiss u a stTierTimeout)) := rfl

theorem exec_crockAccessFailed (u : CrockUser) (a : Nat) (s : State) :
    exec (.crockAccessFailed u a) s = .next (s.onDev (fun d => d.crockMiss u a stTierError)) := rfl

/-! Presence. -/

/-- An expander answers on a port that may train (R295, R296). -/
def portFound (caps : List Nat) (links : List (Nat × Nat)) (i : Nat) (x : CrockPort) : Bool :=
  caps.getD i 0 != 0 && !x.fenced && crockLinkOk (links.getD i (16, 6)).1 (links.getD i (16, 6)).2

/-- The port after the look for its expander. -/
def portAfter (caps : List Nat) (links : List (Nat × Nat)) (i : Nat) (x : CrockPort) : CrockPort :=
  if portFound caps links i x then { x with st := 2, width := (links.getD i (16, 6)).1, speed := (links.getD i (16, 6)).2 }
  else { x with st := 0 }

/-- The bring-up has looked for the expanders. -/
def Dev.crockAsked (d : Dev) : Dev := d.setCrock { d.crock with asked := true }

/-- The device after the look at its four ports. -/
def Dev.portsFound (d : Dev) (caps : List Nat) (links : List (Nat × Nat)) : Dev :=
  (List.range 4).foldl (fun d i => d.putCport i (portAfter caps links i (d.cport i))) d.crockAsked

/-- The crock is there, each port counted with a capacity (R296, R307). -/
def Dev.crockHas (d : Dev) (cap : Nat) : Dev :=
  d.setCrock { d.crock with present := true, capGib := cap, frames := 4 * cap * 512 - 64, fresh := 0,
                            spare := (List.range 64).map (fun i => 4 * cap * 512 - 64 + i) }

theorem Dev.crockPresent_looks {d : Dev} {caps : List Nat} (hp : d.crock.present = false) (ha : d.crock.asked = false)
    (hs : 7 ≤ d.trust.step) (hl : caps.length = 4) (links : List (Nat × Nat)) : d.crockPresent caps links =
      if (List.range 4).any (fun i => !portFound caps links i (d.cport i)) then d.portsFound caps links
      else (d.portsFound caps links).crockHas (minOr 0 caps) := by
  refine if_neg ?_
  rw [hp, ha, hl, decide_eq_false (by omega)]
  decide

theorem Dev.crockPresent_not {d : Dev} (h : d.crock.present = true ∨ d.crock.asked = true) (caps : List Nat)
    (links : List (Nat × Nat)) : d.crockPresent caps links = d := by
  refine if_pos ?_
  rcases h with h | h <;> rw [h] <;> simp

theorem Dev.portsFound_facts (d : Dev) (caps : List Nat) (links : List (Nat × Nat)) :
    (d.portsFound caps links).crock.present = d.crock.present ∧ (d.portsFound caps links).crock.asked = true ∧
    ∀ k, k < 4 → (d.portsFound caps links).cport k = portAfter caps links k (d.cport k) := by
  obtain ⟨⟨x, hx⟩, hin, _⟩ := Dev.foldPorts (portAfter caps links) (List.range 4) d.crockAsked List.nodup_range
    (fun i hi => List.mem_range.1 hi)
  refine ⟨?_, ?_, fun k hk => hin k (List.mem_range.2 hk)⟩
  · rw [Dev.portsFound, hx]
    rfl
  · rw [Dev.portsFound, hx]
    rfl

theorem getD_mem_of_lt {l : List Nat} {k : Nat} (h : k < l.length) : l.getD k 0 ∈ l := by
  rw [List.getD_eq_getElem l 0 h]
  exact List.getElem_mem h

theorem portFound_of {caps : List Nat} {links : List (Nat × Nat)} {k : Nat} {x : CrockPort} (hc : caps.getD k 0 ≠ 0)
    (hf : x.fenced = false) (hl : crockLinkOk (links.getD k (16, 6)).1 (links.getD k (16, 6)).2 = true) :
    portFound caps links k x = true := by
  rw [portFound, hf, hl, bne_iff_ne.2 hc]
  rfl

theorem crockFound (s : State) (caps : List Nat) (links : List (Nat × Nat)) (cap : Nat) (hp : s.dev.crock.present = false)
    (ha : s.dev.crock.asked = false) (hs : 7 ≤ s.dev.trust.step) (hl : caps.length = 4) (hne : ∀ x ∈ caps, x ≠ 0)
    (hup : ∀ k, k < 4 → (s.dev.cport k).fenced = false ∧
      crockLinkOk (links.getD k (16, 6)).1 (links.getD k (16, 6)).2 = true) (hcap : cap ∈ caps) (hmin : ∀ x ∈ caps, cap ≤ x) :
    ∃ t, exec (.crockPresent ⟨caps, links⟩) s = .next t ∧ t.dev.crock.present = true ∧ t.dev.crock.capGib = cap ∧
      t.dev.crock.frames = 4 * cap * 512 - 64 ∧ t.dev.crock.spare.length = 64 ∧
      ∀ k, k < 4 → (t.dev.cport k).st = 2 ∧ (t.dev.cport k).width = (links.getD k (16, 6)).1 ∧
        (t.dev.cport k).speed = (links.getD k (16, 6)).2 := by
  have hall : ∀ k, k < 4 → portFound caps links k (s.dev.cport k) = true := fun k hk =>
    portFound_of (hne _ (getD_mem_of_lt (by omega))) (hup k hk).1 (hup k hk).2
  have hany : ¬ (List.range 4).any (fun i => !portFound caps links i (s.dev.cport i)) = true := by
    rw [List.any_eq_true]
    rintro ⟨k, hk, hno⟩
    rw [hall k (List.mem_range.1 hk)] at hno
    exact absurd hno (by decide)
  obtain ⟨_, _, hports⟩ := s.dev.portsFound_facts caps links
  refine ⟨_, exec_crockPresent caps links s, ?_⟩
  rw [State.onDev_dev, Dev.crockPresent_looks hp ha hs hl, if_neg hany, minOr_eq cap caps 0 hcap hmin]
  refine ⟨rfl, rfl, rfl, by simp [Dev.crockHas], fun k hk => ?_⟩
  have hk2 : ((s.dev.portsFound caps links).crockHas cap).cport k = _ := hports k hk
  rw [hk2, portAfter, if_pos (hall k hk)]
  exact ⟨rfl, rfl, rfl⟩

theorem crockMissing (s : State) (caps : List Nat) (links : List (Nat × Nat)) (hp : s.dev.crock.present = false)
    (ha : s.dev.crock.asked = false) (hs : 7 ≤ s.dev.trust.step) (hl : caps.length = 4) (h0 : 0 ∈ caps) :
    ∃ t, exec (.crockPresent ⟨caps, links⟩) s = .next t ∧ t.dev.crock.present = false ∧ t.dev.crock.asked = true := by
  obtain ⟨k, hk, hk0⟩ := List.getElem_of_mem h0
  have hany : (List.range 4).any (fun i => !portFound caps links i (s.dev.cport i)) = true := by
    refine List.any_eq_true.2 ⟨k, List.mem_range.2 (by omega), ?_⟩
    rw [portFound, List.getD_eq_getElem caps 0 hk, hk0]
    rfl
  obtain ⟨hpres, hasked, _⟩ := s.dev.portsFound_facts caps links
  refine ⟨_, exec_crockPresent caps links s, ?_⟩
  rw [State.onDev_dev, Dev.crockPresent_looks hp ha hs hl, if_pos hany]
  exact ⟨hpres.trans hp, hasked⟩

/-! Ports. -/

theorem Dev.crockDown_not {d : Dev} {i : Nat} (h : (d.cport i).st ≠ 2) : d.crockDown i = d :=
  if_neg (by rw [beq_eq_false_iff_ne.2 h]; simp)

theorem crockLinkDowns (s : State) (i : Nat) (hi : i < 4) (h : (s.dev.cport i).st = 2) :
    ∃ t, exec (.crockLinkDown i) s = .next t ∧
      t.dev.cport i = { s.dev.cport i with st := 1 } ∧ ∀ k, k ≠ i → t.dev.cport k = s.dev.cport k := by
  have hgo : s.dev.crockDown i = (s.dev.putCport i { s.dev.cport i with st := 1 }).dropMoves :=
    if_pos (by rw [iodOk, decide_eq_true hi, h]; rfl)
  refine ⟨_, exec_crockLinkDown i s, ?_⟩
  rw [State.onDev_dev, hgo]
  exact ⟨((Dev.accessed_dropMoves _).cport i).trans (Dev.cport_putCport _ hi _),
    fun k hk => ((Dev.accessed_dropMoves _).cport k).trans (Dev.cport_putCport_ne _ hk _)⟩

theorem crockLinkOk_of {w v : Nat} (hw : w = 16 ∨ w = 8) (hv : v = 6 ∨ v = 5) : crockLinkOk w v = true := by
  rcases hw with rfl | rfl <;> rcases hv with rfl | rfl <;> decide

theorem crockRetrains (s : State) (i w v : Nat) (hi : i < 4) (h1 : (s.dev.cport i).st = 1)
    (hf : (s.dev.cport i).fenced = false) (hw : w = 16 ∨ w = 8) (hv : v = 6 ∨ v = 5) :
    ∃ t u, exec (.crockPortRetrained i true w v) s = .next t ∧ exec (.crockPortRetrained i false w v) s = .next u ∧
      t.dev.cport i = { s.dev.cport i with st := 2, width := w, speed := v } ∧
      u.dev.cport i = { s.dev.cport i with st := 0 } := by
  have hlive : ¬ (!(iodOk i && (s.dev.cport i).st == 1 && !(s.dev.cport i).fenced)) = true := by
    rw [iodOk, decide_eq_true hi, h1, hf]
    decide
  have hgood : s.dev.crockRetrained i true w v =
      s.dev.putCport i { s.dev.cport i with st := 2, width := w, speed := v } :=
    (if_neg hlive).trans (if_pos (crockLinkOk_of hw hv))
  have hbad : s.dev.crockRetrained i false w v = s.dev.putCport i { s.dev.cport i with st := 0 } :=
    (if_neg hlive).trans (if_neg (show ¬ (false && crockLinkOk w v) = true from Bool.false_ne_true))
  refine ⟨_, _, exec_crockPortRetrained i true w v s, exec_crockPortRetrained i false w v s, ?_, ?_⟩
  · rw [State.onDev_dev, hgood]
    exact Dev.cport_putCport _ hi _
  · rw [State.onDev_dev, hbad]
    exact Dev.cport_putCport _ hi _

/-! Late and failed requests. -/

theorem Dev.crockMiss_live {d : Dev} {u : CrockUser} (h : d.userLive u = true) (a st : Nat) :
    d.crockMiss u a st = d.crockFails u a st := if_pos h

theorem Dev.crockMiss_coming {d : Dev} {u : CrockUser} (hn : d.userLive u = false) (h : d.userComing u = true) (a st : Nat) :
    d.crockMiss u a st = d.setCrock { d.crock with due := d.crock.due ++ [(a, st)] } :=
  (if_neg (by rw [hn]; decide)).trans (if_pos h)

theorem Dev.crockMiss_none {d : Dev} {u : CrockUser} (hn : d.userLive u = false) (h : d.userComing u = false) (a st : Nat) :
    d.crockMiss u a st = d :=
  (if_neg (by rw [hn]; decide)).trans (if_neg (by rw [h]; decide))

theorem Dev.userLive_command {d : Dev} {r : CmdRef} {c : Cmd} (h : d.cmd r = some c) :
    d.userLive (.command r) = (c.phase == .running) := by
  rw [Dev.userLive, h]

theorem Dev.userComing_command {d : Dev} {r : CmdRef} {c : Cmd} (h : d.cmd r = some c) :
    d.userComing (.command r) = (c.phase == .waiting) := by
  rw [Dev.userComing, h]

/-- A running command takes the tier status of its request (R311). -/
theorem Dev.crockFails_command {d : Dev} {r : CmdRef} {c : Cmd} (h : d.cmd r = some c) (hr : c.phase = .running) (a st : Nat) :
    (d.crockFails (.command r) a st).cmd r = some { c with marks := c.marks.join (.fail st) } := by
  have hcmd : (d.crockEvent r.f a st).cmd r = some c := ((Dev.accessed_crockEvent d r.f a st).cmd r).trans h
  have hgo : d.crockFails (.command r) a st = (d.crockEvent r.f a st).mark r (.fail st) := by
    rw [Dev.crockFails]
    dsimp only [Dev.userPart]
    rw [hcmd]
    exact if_pos hr
  rw [hgo]
  exact Dev.cmd_mark _ hcmd _

theorem Dev.crockEvent_keeps (d : Dev) (p a st : Nat) : (d.crockEvent p a st).parts = d.parts ∧
    (d.crockEvent p a st).mem = d.mem := by
  rw [Dev.crockEvent, (Dev.reports_raise _ _ _).parts, (Dev.reports_raise _ _ _).mem]
  exact ⟨rfl, rfl⟩

/-- A promotion whose request fails is abandoned: the page stays in the crock (R303, R311). -/
theorem Dev.crockFails_promotion {d : Dev} {p pg tf cf k : Nat} {x : Part} (h : d.part p = some x)
    (hm : x.tier.st pg = .moving tf cf true k) (a st : Nat) : ∃ y, (d.crockFails (.migration p pg) a st).part p = some y ∧
      y.tier.st pg = .crock cf ∧ y.tier.frames = x.tier.frames ++ [tf] ∧ (d.crockFails (.migration p pg) a st).mem = d.mem := by
  obtain ⟨hparts, hkeep⟩ := d.crockEvent_keeps p a st
  have hpart : (d.crockEvent p a st).part p = some x := by
    rw [Dev.part, hparts]
    exact h
  have hgo : d.crockFails (.migration p pg) a st = (d.crockEvent p a st).abandon p pg false := by
    rw [Dev.crockFails]
    dsimp only [Dev.userPart]
    rw [hpart]
    dsimp only
    rw [hm]
    rfl
  obtain ⟨y, hy, hst, hfr, _, hmem⟩ := Dev.abandon_facts (d.crockEvent p a st) p pg tf cf k true false x hpart hm
  rw [hgo]
  exact ⟨y, hy, hst, hfr rfl, hmem.trans hkeep⟩

theorem Dev.userLive_migration {d : Dev} {p pg tf cf k : Nat} {b : Bool} {x : Part} (h : d.part p = some x)
    (hm : x.tier.st pg = .moving tf cf b k) : d.userLive (.migration p pg) = true := by
  rw [Dev.userLive, h]
  dsimp only
  rw [hm]

theorem crockRunning (s : State) (a : Nat) (r : CmdRef) (c : Cmd) (h : s.dev.cmd r = some c) (hr : c.phase = .running) :
    ∃ t u, exec (.crockRequestLate (.command r) a) s = .next t ∧ exec (.crockAccessFailed (.command r) a) s = .next u ∧
      t.dev.cmd r = some { c with marks := c.marks.join (.fail stTierTimeout) } ∧
      u.dev.cmd r = some { c with marks := c.marks.join (.fail stTierError) } := by
  have hlive : s.dev.userLive (.command r) = true := (Dev.userLive_command h).trans (by rw [hr]; rfl)
  refine ⟨_, _, exec_crockRequestLate _ a s, exec_crockAccessFailed _ a s, ?_, ?_⟩
  · rw [State.onDev_dev, Dev.crockMiss_live hlive]
    exact Dev.crockFails_command h hr a _
  · rw [State.onDev_dev, Dev.crockMiss_live hlive]
    exact Dev.crockFails_command h hr a _

theorem crockWaiting (s : State) (a : Nat) (r : CmdRef) (c : Cmd) (h : s.dev.cmd r = some c) (hw : c.phase = .waiting) :
    ∃ t u, exec (.crockRequestLate (.command r) a) s = .next t ∧ exec (.crockAccessFailed (.command r) a) s = .next u ∧
      t.dev = s.dev.setCrock { s.dev.crock with due := s.dev.crock.due ++ [(a, stTierTimeout)] } ∧
      u.dev = s.dev.setCrock { s.dev.crock with due := s.dev.crock.due ++ [(a, stTierError)] } := by
  have hlive : s.dev.userLive (.command r) = false := (Dev.userLive_command h).trans (by rw [hw]; rfl)
  have hcome : s.dev.userComing (.command r) = true := (Dev.userComing_command h).trans (by rw [hw]; rfl)
  exact ⟨_, _, exec_crockRequestLate _ a s, exec_crockAccessFailed _ a s, Dev.crockMiss_coming hlive hcome a _,
    Dev.crockMiss_coming hlive hcome a _⟩

theorem crockNobody (s : State) (a : Nat) (r : CmdRef) (h : s.dev.cmd r = none) :
    exec (.crockRequestLate (.command r) a) s = .next s ∧ exec (.crockAccessFailed (.command r) a) s = .next s := by
  have hlive : s.dev.userLive (.command r) = false := by rw [Dev.userLive, h]
  have hcome : s.dev.userComing (.command r) = false := by rw [Dev.userComing, h]
  rw [exec_crockRequestLate, exec_crockAccessFailed]
  exact ⟨State.next_same (Dev.crockMiss_none hlive hcome a _), State.next_same (Dev.crockMiss_none hlive hcome a _)⟩

/-- Settles O48: presence by the four answers, a port by its state, a failed request by what its user is doing. -/
theorem crockPorts : Obligations.CrockPorts := by
  unfold Obligations.CrockPorts
  intro s caps links i w v mask a p pg cap r c
  refine ⟨fun hp ha hs hl hne hup hcap hmin => crockFound s caps links cap hp ha hs hl hne hup hcap hmin, fun h => ?_,
    fun hp ha hs hl h0 => crockMissing s caps links hp ha hs hl h0, crockLinkDowns s i, fun h => ?_,
    fun hi h1 hf hw hv => crockRetrains s i w v hi h1 hf hw hv,
    fun hl => ⟨_, exec_memCrockCtlRetrain hl mask, s.dev.crockRetrain_ports mask i⟩,
    fun h hr => crockRunning s a r c h hr, fun h hw => crockWaiting s a r c h hw, crockNobody s a r,
    fun x tf cf k hx hm => ?_⟩
  · rw [exec_crockPresent]
    exact State.next_same (Dev.crockPresent_not h caps links)
  · rw [exec_crockLinkDown]
    exact State.next_same (Dev.crockDown_not h)
  · obtain ⟨y, hy, hst, hfr, hmem⟩ := Dev.crockFails_promotion hx hm a stTierTimeout
    refine ⟨_, y, exec_crockRequestLate _ a s, ?_⟩
    rw [State.onDev_dev, Dev.crockMiss_live (Dev.userLive_migration hx hm)]
    exact ⟨hy, hst, hfr, hmem⟩

end Sys2Proof.Machine
end

section
/-!
PROOF. Promotion, demotion and migration of pages between stacks and crock (R302 to R304, R306, R308).
-/

namespace Sys2Proof.Machine

theorem exec_tierPromotion (p pg : Nat) (s : State) :
    exec (.tierPromotion p pg) s = .next (s.onDev (fun d => d.tierPromotion p pg)) := rfl

theorem exec_tierDemotion (p : Nat) (s : State) :
    exec (.tierDemotion p) s = .next (s.onDev (fun d => d.tierDemotion p)) := rfl

theorem exec_migrationChunk (p pg : Nat) (ok : Bool) (s : State) :
    exec (.migrationChunk p pg ok) s = .next (s.onDev (fun d => d.migrationChunk p pg ok)) := rfl

theorem exec_agingPeriod (p : Nat) (s : State) :
    exec (.agingPeriod p) s = .next (s.onDev (fun d => d.agingPeriod p)) := rfl

/-- A page that is not ZERO stands in the page table. -/
theorem Tier.mem_page_of_st {t : Tier} {pg f : Nat} (h : t.st pg = .stack f) : (pg, PageSt.stack f) ∈ t.page := by
  cases hk : kfind t.page pg with
  | none => rw [Tier.st, kget, hk] at h; cases h
  | some v =>
    rw [Tier.st, kget, hk] at h
    obtain rfl : v = .stack f := h
    exact kfind_mem_of t.page pg _ hk

/-! Promotion. -/

/-- A page is due for promotion: a prefetch, a hint, or a second access names it (R302). -/
def Tier.promotes (t : Tier) (pg : Nat) : Bool := t.queue.contains pg || t.hints.contains pg || t.twice.contains pg

theorem Tier.promotes_iff (t : Tier) (pg : Nat) : t.promotes pg = true ↔ pg ∈ t.queue ∨ pg ∈ t.hints ∨ pg ∈ t.twice := by
  simp [Tier.promotes, or_assoc]

/-- The tier once a frame is taken for a promotion. -/
def Tier.promoting (t : Tier) (pg tf cf : Nat) (rest : List Nat) : Tier :=
  { t with frames := rest, page := kset t.page pg (.moving tf cf true 0), queue := t.queue.filter (· != pg),
           hints := t.hints.filter (· != pg), twice := t.twice.filter (· != pg) }

/-- The tier once the prefetch of a page is dropped. -/
def Tier.dropped (t : Tier) (pg : Nat) : Tier := { t with queue := t.queue.filter (· != pg) }

theorem Dev.tierPromotion_not {d : Dev} {p pg cf : Nat} {x : Part} (h : d.part p = some x) (hs : x.tier.st pg = .crock cf)
    (hn : d.tierBusy = true ∨ x.tier.promotes pg = false) : d.tierPromotion p pg = d := by
  rw [Dev.tierPromotion, h]
  dsimp only
  rw [hs]
  refine if_pos ?_
  rcases hn with hn | hn
  · rw [hn]
    rfl
  · rw [Tier.promotes] at hn
    rw [hn]
    simp

theorem Dev.tierPromotion_takes {d : Dev} {p pg cf tf : Nat} {rest : List Nat} {x : Part} (h : d.part p = some x)
    (hs : x.tier.st pg = .crock cf) (hb : d.tierBusy = false) (hdue : x.tier.promotes pg = true)
    (hf : x.tier.frames = tf :: rest) :
    d.tierPromotion p pg = d.putPart p { x with tier := x.tier.promoting pg tf cf rest } := by
  rw [Dev.tierPromotion, h]
  dsimp only
  rw [Tier.promotes] at hdue
  rw [hs]
  dsimp only
  rw [if_neg (by rw [hb, hdue]; decide), hf]
  rfl

theorem Dev.tierPromotion_full {d : Dev} {p pg cf : Nat} {x : Part} (h : d.part p = some x)
    (hs : x.tier.st pg = .crock cf) (hb : d.tierBusy = false) (hdue : x.tier.promotes pg = true) (hf : x.tier.frames = []) :
    d.tierPromotion p pg = if x.tier.queue.contains pg
      then (d.putPart p { x with tier := x.tier.dropped pg }).count (unitPart p) 0 1 else d := by
  rw [Dev.tierPromotion, h]
  dsimp only
  rw [Tier.promotes] at hdue
  rw [hs]
  dsimp only
  rw [if_neg (by rw [hb, hdue]; decide)]
  split
  next => rfl
  next tf rest hcons => rw [hf] at hcons; cases hcons

theorem promotionTakes (s : State) (p pg tf cf : Nat) (x : Part) (rest : List Nat) (hx : s.dev.part p = some x)
    (hb : s.dev.tierBusy = false) (hs : x.tier.st pg = .crock cf) (hdue : x.tier.promotes pg = true)
    (hf : x.tier.frames = tf :: rest) : ∃ t y, exec (.tierPromotion p pg) s = .next t ∧ t.dev.part p = some y ∧
      y.tier.st pg = .moving tf cf true 0 ∧ y.tier.frames = rest ∧ (∀ g, g ≠ pg → y.tier.st g = x.tier.st g) ∧
      t.dev.mem = s.dev.mem := by
  refine ⟨_, { x with tier := x.tier.promoting pg tf cf rest }, exec_tierPromotion p pg s, ?_⟩
  rw [State.onDev_dev, Dev.tierPromotion_takes hx hs hb hdue hf]
  exact ⟨Dev.part_putPart .., Tier.st_kset .., rfl, fun g hg => Tier.st_kset_ne x.tier hg _, rfl⟩

theorem not_mem_filter_ne (l : List Nat) (a : Nat) : a ∉ l.filter (· != a) := by
  intro h
  exact absurd (List.mem_filter.1 h).2 (by simp)

theorem promotionFull (s : State) (p pg cf : Nat) (x : Part) (hx : s.dev.part p = some x)
    (hb : s.dev.tierBusy = false) (hs : x.tier.st pg = .crock cf) (hdue : x.tier.promotes pg = true)
    (hf : x.tier.frames = []) : ∃ t y, exec (.tierPromotion p pg) s = .next t ∧ t.dev.part p = some y ∧
      y.tier.st pg = .crock cf ∧ pg ∉ y.tier.queue := by
  by_cases hq : x.tier.queue.contains pg = true
  · refine ⟨_, { x with tier := x.tier.dropped pg }, exec_tierPromotion p pg s, ?_⟩
    rw [State.onDev_dev, Dev.tierPromotion_full hx hs hb hdue hf, if_pos hq, Dev.part, (Dev.reports_count _ _ _ _).parts]
    exact ⟨Dev.part_putPart .., hs, not_mem_filter_ne _ _⟩
  · refine ⟨_, x, exec_tierPromotion p pg s, ?_⟩
    rw [State.onDev_dev, Dev.tierPromotion_full hx hs hb hdue hf, if_neg hq]
    exact ⟨hx, hs, fun hm => hq (List.contains_iff_mem.2 hm)⟩

/-! Demotion. -/

/-- The page that a hint has named for demotion, with its frame (R302). -/
def Dev.hinted (d : Dev) (t : Tier) : Option (Nat × Nat) :=
  t.demote.findSome? (fun pg => match t.st pg with
    | .stack f => if d.demotable t pg f then some (pg, f) else none
    | _ => none)

/-- A demotion where nothing keeps the engine and a crock frame is free: the hinted page, else the sweep's victim. -/
def Dev.demotes (d : Dev) (p : Nat) (x : Part) (cf : Nat) (crest : List Nat) : Dev :=
  match d.hinted x.tier with
  | some (pg, f) => d.putPart p { x with tier := x.tier.demoting pg f cf crest }
  | none =>
    if 8 ≤ x.tier.frames.length then d
    else
      match d.sweepTier x.tier with
      | (t1, some (pg, f)) => d.putPart p { x with tier := t1.demoting pg f cf crest }
      | (t1, none) => d.putPart p { x with tier := t1 }

theorem Dev.tierDemotion_busy {d : Dev} {p : Nat} {x : Part} (h : d.part p = some x)
    (hn : d.tierBusy = true ∨ x.tier.cframes = []) : d.tierDemotion p = d := by
  rw [Dev.tierDemotion, h]
  dsimp only
  cases hc : x.tier.cframes with
  | nil => rfl
  | cons cf crest => exact if_pos (hn.resolve_right (fun h => by rw [hc] at h; cases h))

theorem Dev.tierDemotion_goes {d : Dev} {p cf : Nat} {crest : List Nat} {x : Part} (h : d.part p = some x)
    (hb : d.tierBusy = false) (hc : x.tier.cframes = cf :: crest) : d.tierDemotion p = d.demotes p x cf crest := by
  rw [Dev.tierDemotion, h]
  dsimp only
  rw [hc]
  dsimp only
  rw [if_neg (by rw [hb]; decide)]
  rfl

/-- What a demotion may do to a page: from a stack frame into a crock frame that is free, of a page that may go. -/
def Dev.mayDemote (d : Dev) (t u : Tier) : Prop :=
  ∀ g, u.st g ≠ t.st g → ∃ f c, (g, PageSt.stack f) ∈ t.page ∧ u.st g = .moving f c false 0 ∧
    c ∈ t.cframes ∧ g ∉ t.pinned ∧ g ∉ t.window ∧ d.framePoisoned t f = false

theorem Dev.demotable_iff (d : Dev) (t : Tier) (pg f : Nat) : d.demotable t pg f = true ↔
    pg ∉ t.pinned ∧ pg ∉ t.window ∧ d.framePoisoned t f = false := by
  simp [Dev.demotable, and_assoc]

theorem Dev.mayDemote_demoting {d : Dev} {t t1 : Tier} {pg f cf : Nat} {crest : List Nat} (ht : t1.page = t.page)
    (hp : (pg, PageSt.stack f) ∈ t.page) (hd : d.demotable t pg f = true) (hc : t.cframes = cf :: crest) :
    d.mayDemote t (t1.demoting pg f cf crest) := by
  intro g hg
  by_cases hne : g = pg
  · subst hne
    exact ⟨f, cf, hp, Tier.st_kset .., by rw [hc]; exact List.mem_cons_self, (d.demotable_iff t g f).1 hd⟩
  · refine absurd ((Tier.st_kset_ne t1 hne _).trans ?_) hg
    rw [Tier.st, ht]
    rfl

theorem Dev.hinted_some {d : Dev} {t : Tier} {pg f : Nat} (h : d.hinted t = some (pg, f)) :
    (pg, PageSt.stack f) ∈ t.page ∧ d.demotable t pg f = true := by
  obtain ⟨a, _, ha⟩ := List.exists_of_findSome?_eq_some h
  split at ha
  next q hq =>
    split at ha
    next hd =>
      cases ha
      exact ⟨Tier.mem_page_of_st hq, hd⟩
    next => cases ha
  next => cases ha

theorem Dev.hinted_only {d : Dev} {t : Tier} {pg f : Nat} (h : t.demote = [pg]) (hs : t.st pg = .stack f)
    (hd : d.demotable t pg f = true) : d.hinted t = some (pg, f) := by
  simp [Dev.hinted, h, hs, hd]

theorem Dev.hinted_none {d : Dev} {t : Tier} (h : t.demote = []) : d.hinted t = none := by
  rw [Dev.hinted, h]
  rfl

theorem Dev.demotes_hinted {d : Dev} {x : Part} {pg f : Nat} (h : d.hinted x.tier = some (pg, f)) (p cf : Nat)
    (crest : List Nat) : d.demotes p x cf crest = d.putPart p { x with tier := x.tier.demoting pg f cf crest } := by
  rw [Dev.demotes, h]

theorem Dev.demotes_enough {d : Dev} {x : Part} (h : d.hinted x.tier = none) (h8 : 8 ≤ x.tier.frames.length) (p cf : Nat)
    (crest : List Nat) : d.demotes p x cf crest = d := by
  rw [Dev.demotes, h]
  exact if_pos h8

/-- The sweep leaves another tier, whose pages are as they were but for the victim. -/
theorem Dev.demotes_sweeps {d : Dev} {p cf : Nat} {crest : List Nat} {x : Part} (hc : x.tier.cframes = cf :: crest)
    (h : d.hinted x.tier = none) (h8 : ¬ 8 ≤ x.tier.frames.length) :
    ∃ u, d.demotes p x cf crest = d.putPart p { x with tier := u } ∧ d.mayDemote x.tier u := by
  obtain ⟨⟨a, n, hswept⟩, hvictim⟩ := d.sweepTier_facts x.tier
  have hpage : (d.sweepTier x.tier).1.page = x.tier.page := by rw [hswept]
  rw [Dev.demotes, h]
  dsimp only
  rw [if_neg h8]
  split
  next t1 pg f heq =>
    rw [heq] at hpage hvictim
    obtain ⟨hp, hd⟩ := hvictim pg f rfl
    exact ⟨_, rfl, Dev.mayDemote_demoting hpage hp hd hc⟩
  next t1 heq =>
    rw [heq] at hpage
    refine ⟨t1, rfl, fun g hg => absurd ?_ hg⟩
    rw [Tier.st, hpage]
    rfl

/-- What a demotion leaves of the partition: another tier, whose pages moved only as they may. -/
theorem Dev.tierDemotion_facts {d : Dev} {p : Nat} {x : Part} (h : d.part p = some x) :
    ∃ y, (d.tierDemotion p).part p = some y ∧ (d.tierDemotion p).mem = d.mem ∧ d.mayDemote x.tier y.tier := by
  have hsame : d.mayDemote x.tier x.tier := fun g hg => absurd rfl hg
  by_cases hb : d.tierBusy = true ∨ x.tier.cframes = []
  · rw [Dev.tierDemotion_busy h hb]
    exact ⟨x, h, rfl, hsame⟩
  · rw [not_or] at hb
    obtain ⟨hfree, hne⟩ := hb
    obtain ⟨cf, crest, hc⟩ := List.exists_cons_of_ne_nil hne
    rw [Dev.tierDemotion_goes h (Bool.eq_false_iff.2 hfree) hc]
    cases hh : d.hinted x.tier with
    | some z =>
      obtain ⟨hp, hd⟩ := Dev.hinted_some hh
      rw [Dev.demotes_hinted hh]
      exact ⟨_, Dev.part_putPart .., rfl, Dev.mayDemote_demoting rfl hp hd hc⟩
    | none =>
      by_cases h8 : 8 ≤ x.tier.frames.length
      · rw [Dev.demotes_enough hh h8]
        exact ⟨x, h, rfl, hsame⟩
      · obtain ⟨u, hu, hmay⟩ := Dev.demotes_sweeps (p := p) hc hh h8
        rw [hu]
        exact ⟨_, Dev.part_putPart .., rfl, hmay⟩

theorem demotionHinted (s : State) (p pg tf cf : Nat) (x : Part) (rest : List Nat) (hx : s.dev.part p = some x)
    (hb : s.dev.tierBusy = false) (hc : x.tier.cframes = cf :: rest) (hdem : x.tier.demote = [pg])
    (hs : x.tier.st pg = .stack tf) (hd : s.dev.demotable x.tier pg tf = true) :
    ∃ t y, exec (.tierDemotion p) s = .next t ∧ t.dev.part p = some y ∧
      y.tier.st pg = .moving tf cf false 0 ∧ y.tier.cframes = rest ∧ pg ∉ y.tier.accessed ∧ pg ∉ y.tier.twice := by
  refine ⟨_, { x with tier := x.tier.demoting pg tf cf rest }, exec_tierDemotion p s, ?_⟩
  rw [State.onDev_dev, Dev.tierDemotion_goes hx hb hc, Dev.demotes_hinted (Dev.hinted_only hdem hs hd)]
  exact ⟨Dev.part_putPart .., Tier.st_kset .., rfl, not_mem_filter_ne _ _, not_mem_filter_ne _ _⟩

theorem Dev.tierDemotion_enough {d : Dev} {p : Nat} {x : Part} (h : d.part p = some x) (h8 : 8 ≤ x.tier.frames.length)
    (hdem : x.tier.demote = []) : d.tierDemotion p = d := by
  by_cases hb : d.tierBusy = true ∨ x.tier.cframes = []
  · exact Dev.tierDemotion_busy h hb
  · rw [not_or] at hb
    obtain ⟨cf, crest, hc⟩ := List.exists_cons_of_ne_nil hb.2
    rw [Dev.tierDemotion_goes h (Bool.eq_false_iff.2 hb.1) hc, Dev.demotes_enough (Dev.hinted_none hdem) h8]

/-! The chunks of a migration. -/

theorem demotionChunk (s : State) (p pg tf cf k : Nat) (x : Part) (hx : s.dev.part p = some x)
    (hm : x.tier.st pg = .moving tf cf false k) (hcups : ∀ i, i < 4 → s.dev.cupShut p (36 + i) = false)
    (hup : s.dev.crockUp = true) (hread : (s.dev.frameBytes x.tier tf (4096 * k) 4096).2 = true) :
    ∃ t y, exec (.migrationChunk p pg true) s = .next t ∧ t.dev.part p = some y ∧
      t.dev.mem = crockPut s.dev.mem (cf * 2097152 + 4096 * k) (s.dev.frameBytes x.tier tf (4096 * k) 4096).1 ∧
      (k < 511 → y.tier.st pg = .moving tf cf false (k + 1)) ∧
      (511 ≤ k → y.tier.st pg = .crock cf ∧ y.tier.frames = x.tier.frames ++ [tf]) := by
  obtain ⟨hmem, hpart⟩ := Dev.migrationChunk_goes s.dev p pg tf cf k false x x.tier
    ({}, (s.dev.chargeChunk p x.tier tf (4096 * k)).setMem
      (crockPut s.dev.mem (cf * pageBytes + 4096 * k) (s.dev.frameBytes x.tier tf (4096 * k) 4096).1))
    hx hm hcups hup ((if_neg (by decide)).trans (if_pos hread)).symm rfl ((s.dev.chargeChunk_part p p _ _ _).trans hx)
  refine ⟨_, _, exec_migrationChunk p pg true s, hpart, hmem, fun hk => ?_, fun hk => ?_⟩
  · rw [if_pos (by omega)]
    exact Tier.st_kset ..
  · rw [if_neg (by omega), if_neg (by decide)]
    exact ⟨Tier.st_kset .., rfl⟩

theorem promotionChunk (s : State) (p pg tf cf k : Nat) (x : Part) (r : Marks × Dev) (hx : s.dev.part p = some x)
    (hm : x.tier.st pg = .moving tf cf true k) (hcups : ∀ i, i < 4 → s.dev.cupShut p (36 + i) = false)
    (hup : s.dev.crockUp = true) (hr : r = (s.dev.chargeChunk p x.tier tf (4096 * k)).putFrame p x.tier tf (4096 * k)
      (crockGet s.dev.mem (cf * 2097152 + 4096 * k) 4096)) (hclear : r.1.clear = true) :
    ∃ t y, exec (.migrationChunk p pg true) s = .next t ∧ t.dev.part p = some y ∧ t.dev.mem = r.2.mem ∧
      (k < 511 → y.tier.st pg = .moving tf cf true (k + 1)) ∧
      (511 ≤ k → y.tier.st pg = .stack tf ∧ cf ∈ y.tier.cframes) := by
  have hacc : (s.dev.chargeChunk p x.tier tf (4096 * k)).Accessed r.2 := by
    rw [hr]
    exact Dev.accessed_putFrame ..
  obtain ⟨u, hu⟩ := hacc.tier p
  rw [Dev.chargeChunk_part, hx] at hu
  obtain ⟨hmem, hpart⟩ := Dev.migrationChunk_goes s.dev p pg tf cf k true x u r hx hm hcups hup
    (hr.trans (if_pos rfl).symm) hclear hu
  refine ⟨_, _, exec_migrationChunk p pg true s, hpart, hmem, fun hk => ?_, fun hk => ?_⟩
  · rw [if_pos (by omega)]
    exact Tier.st_kset ..
  · rw [if_neg (by omega), if_pos rfl]
    exact ⟨Tier.st_kset .., List.mem_append_right _ List.mem_cons_self⟩

/-! Aging. -/

/-- The tier at the end of an aging period: the accesses of CROCK pages are counted afresh (R302). -/
def Tier.aged (t : Tier) : Tier :=
  { t with
    twice := []
    accessed := t.accessed.filter (fun pg => match t.st pg with
      | .crock _ => false
      | _ => true) }

theorem Tier.mem_aged {t : Tier} {g f : Nat} (h : t.st g = .stack f) : g ∈ t.aged.accessed ↔ g ∈ t.accessed := by
  unfold Tier.aged
  rw [List.mem_filter, h]
  exact and_iff_left rfl

theorem agingEnds (s : State) (p : Nat) (x : Part) (hx : s.dev.part p = some x) :
    ∃ t y, exec (.agingPeriod p) s = .next t ∧ t.dev.part p = some y ∧ y.tier.twice = [] ∧ y.tier.page = x.tier.page ∧
      ∀ g f, x.tier.st g = .stack f → (g ∈ y.tier.accessed ↔ g ∈ x.tier.accessed) := by
  have hgo : s.dev.agingPeriod p = s.dev.putPart p { x with tier := x.tier.aged } :=
    Dev.modPart_some s.dev hx (fun y => { y with tier := y.tier.aged })
  refine ⟨_, { x with tier := x.tier.aged }, exec_agingPeriod p s, ?_⟩
  rw [State.onDev_dev, hgo]
  exact ⟨Dev.part_putPart .., rfl, rfl, fun g f h => Tier.mem_aged h⟩

/-- Settles O49: a promotion by the free frames, a demotion by hint and sweep, a migration by its chunks. -/
theorem tierMoves : Obligations.TierMoves := by
  unfold Obligations.TierMoves
  intro s p pg tf cf k x rest hx
  refine ⟨fun hb => ⟨?_, fun hs => ?_⟩, fun hb hs => ⟨fun hdue => ?_, fun hq hh ht => ?_⟩, ?_,
    fun hb hc hdem hs hd => demotionHinted s p pg tf cf x rest hx hb hc hdem hs hd, fun h8 hdem => ?_,
    fun promote hm hcups => ?_, fun hm hcups hup hread => demotionChunk s p pg tf cf k x hx hm hcups hup hread,
    fun r hm hcups hup hr hclear => promotionChunk s p pg tf cf k x r hx hm hcups hup hr hclear, agingEnds s p x hx⟩
  · rw [exec_tierDemotion]
    exact State.next_same (Dev.tierDemotion_busy hx (.inl hb))
  · rw [exec_tierPromotion]
    exact State.next_same (Dev.tierPromotion_not hx hs (.inl hb))
  · have hdue2 := (x.tier.promotes_iff pg).2 hdue
    exact ⟨promotionTakes s p pg tf cf x rest hx hb hs hdue2, promotionFull s p pg cf x hx hb hs hdue2⟩
  · rw [exec_tierPromotion]
    refine State.next_same (Dev.tierPromotion_not hx hs (.inr ?_))
    rw [Bool.eq_false_iff, Ne, x.tier.promotes_iff]
    rintro (h | h | h)
    · exact hq h
    · exact hh h
    · exact ht h
  · obtain ⟨y, hy, hmem, hmay⟩ := Dev.tierDemotion_facts hx
    exact ⟨_, y, exec_tierDemotion p s, hy, hmem, hmay⟩
  · rw [exec_tierDemotion]
    exact State.next_same (Dev.tierDemotion_enough hx h8 hdem)
  · obtain ⟨y, hy, hmem, hst⟩ := Dev.migrationChunk_fails s.dev p pg tf cf k promote x hx hm hcups
    exact ⟨_, y, exec_migrationChunk p pg false s, hy, hmem, hst⟩

end Sys2Proof.Machine
end

section
/-!
PROOF. Flits, link NAKs, replay and training of a fabric port (R416 to R418, R519, R565).
-/

namespace Sys2Proof.Machine

theorem exec_flitReceive (p : Nat) (flit : Bytes) (s : State) :
    exec (.flitReceive p flit) s = .next (s.onDev (fun d => d.flitReceive p flit)) := rfl

theorem exec_replayTimer (p : Nat) (s : State) : exec (.replayTimer p) s =
    .next (s.onDev (fun d => if p < 8 ∧ (d.port p).st = 2 then d.replayPort p 2 else d)) := rfl

theorem exec_portTrainingDone (p : Nat) (ok : Bool) (cr : List Nat) (s : State) :
    exec (.portTrainingDone p ok cr) s = .next (s.onDev (fun d => d.portTrained p ok cr)) := rfl

theorem exec_fabPortCtlRetrain {s : State} (h : s.dev.regsLive = true) (p : Nat) :
    exec (.fabPortCtlRetrain p) s = .next (s.onDev (fun d => d.portRetrain p)) := by
  have harm : exec (.fabPortCtlRetrain p) s = execFabPortCtlRetrain p s := rfl
  rw [harm, execFabPortCtlRetrain, State.onReg_live h]

/-- The injection controls after a write of the count (R565). -/
def Inj.counted (i : Inj) (v : Nat) : Inj := { i with limit := v % 65536, injected := 0 }

theorem exec_fabInjCount {s : State} (h : s.dev.regsLive = true) (p v : Nat) :
    exec (.fabInjCount p v) s = .next (s.onDev (fun d => d.modInj p (fun x => x.counted v))) := by
  have harm : exec (.fabInjCount p v) s = execFabInjCount p v s := rfl
  rw [harm, execFabInjCount, State.onReg_live h]
  rfl

/-! A flit arrives. -/

/-- The device once a port has heard what a flit acknowledges and grants, and offers again what waited (R417, R419). -/
def Dev.heardOn (d : Dev) (p : Nat) (b : Bytes) : Dev := (d.putPort p ((d.port p).heard b)).portFlush p

theorem Dev.flitReceive_off {d : Dev} {p : Nat} (h : (d.port p).st ≠ 2) (flit : Bytes) : d.flitReceive p flit = d :=
  if_pos (.inr h)

theorem Dev.flitReceive_bad {d : Dev} {p : Nat} {flit b : Bytes} (hp : p < 8) (hb : b = padTo 256 flit)
    (h : (d.port p).st = 2) (hc : field b 0xFC 4 ≠ lcrc (b.take 0xFC)) : d.flitReceive p flit = d.sayIdle p 2 := by
  subst hb
  exact (if_neg (by omega)).trans (if_pos hc)

theorem Dev.flitReceive_idle {d : Dev} {p : Nat} {flit b : Bytes} (hp : p < 8) (hb : b = padTo 256 flit)
    (h : (d.port p).st = 2) (hc : field b 0xFC 4 = lcrc (b.take 0xFC)) (h0 : byteAt b 1 / 16 = 0) :
    d.flitReceive p flit = d.heardOn p b := by
  subst hb
  refine (if_neg (by omega)).trans ((if_neg (by rw [hc]; simp)).trans ((if_neg (by rw [h0]; decide)).trans ?_))
  rw [h0]
  rfl

/-- What a data flit does on a port that has heard it (R416, R420). -/
def Dev.dataFlit (d : Dev) (p : Nat) (b : Bytes) : Dev :=
  if field b 0 2 % 4096 = (d.port p).expect then
    ((d.putPort p ({ d.port p with expect := (field b 0 2 % 4096 + 1) % 4096, nakSent := false }.giveBack
      (byteAt b 0x0A % 4))).takePart p (slice b 8 244)).sayIdle p 0
  else if ahead 12 (field b 0 2 % 4096) (d.port p).expect then
    if (d.port p).nakSent then d.putPort p ({ d.port p with nakSent := true }.giveBack (byteAt b 0x0A % 4))
    else (d.putPort p ({ d.port p with nakSent := true }.giveBack (byteAt b 0x0A % 4))).sayIdle p 2
  else d.putPort p ((d.port p).giveBack (byteAt b 0x0A % 4))

theorem Dev.flitReceive_data {d : Dev} {p : Nat} {flit b : Bytes} (hp : p < 8) (hb : b = padTo 256 flit)
    (h : (d.port p).st = 2) (hc : field b 0xFC 4 = lcrc (b.take 0xFC)) (h1 : byteAt b 1 / 16 = 1) :
    d.flitReceive p flit = (d.heardOn p b).dataFlit p b := by
  subst hb
  refine (if_neg (by omega)).trans ((if_neg (by rw [hc]; simp)).trans ((if_neg (by rw [h1]; decide)).trans ?_))
  rw [h1]
  rfl

/-- What hearing a flit leaves of the port and of the fabric. -/
theorem Dev.heardOn_facts (d : Dev) {p : Nat} (hp : p < 8) (b : Bytes) :
    ((d.heardOn p b).port p).expect = (d.port p).expect ∧ ((d.heardOn p b).port p).nakSent = (d.port p).nakSent ∧
    (d.heardOn p b).fab.srcs = d.fab.srcs := by
  obtain ⟨hexp, hnak, _, _⟩ := (d.putPort p ((d.port p).heard b)).portFlush_keeps hp
  obtain ⟨_, hsrcs, _⟩ := (Dev.deals_portFlush (d.putPort p ((d.port p).heard b)) p).fab
  rw [Dev.port_putPort d hp] at hexp hnak
  exact ⟨hexp, hnak, hsrcs⟩

/-- Where nothing waits at the port, hearing a flit changes the port alone, and nothing leaves. -/
theorem Dev.heardOn_quiet {d : Dev} {p : Nat} (hp : p < 8) (hw : (d.port p).waiting = []) (b : Bytes) :
    (d.heardOn p b).port p = (d.port p).heard b ∧ (d.heardOn p b).out = d.out := by
  have hport := Dev.port_putPort d hp ((d.port p).heard b)
  have hwait : ((d.putPort p ((d.port p).heard b)).port p).waiting = [] := by
    rw [hport]
    exact hw
  rw [Dev.heardOn, Dev.portFlush_none _ hwait, hport, Dev.port_putPort _ hp]
  refine ⟨?_, rfl⟩
  have heq : ((d.port p).heard b).waiting = [] := hw
  rw [← heq]

theorem Dev.dataFlit_next {d : Dev} {p : Nat} {b : Bytes} (hp : p < 8) (h : field b 0 2 % 4096 = (d.port p).expect) :
    ((d.dataFlit p b).port p).expect = ((d.port p).expect + 1) % 4096 ∧ ((d.dataFlit p b).port p).nakSent = false := by
  have hport : (d.dataFlit p b).port p =
      Port.giveBack { d.port p with expect := (field b 0 2 % 4096 + 1) % 4096, nakSent := false } (byteAt b 0x0A % 4) := by
    rw [Dev.dataFlit, if_pos h]
    exact (Dev.port_takePart _ p p _).trans (Dev.port_putPort d hp _)
  rw [hport, h]
  exact ⟨rfl, rfl⟩

/-- A data flit that is not the next one changes its port alone. -/
theorem Dev.dataFlit_other {d : Dev} {p : Nat} {b : Bytes} (hp : p < 8) (h : field b 0 2 % 4096 ≠ (d.port p).expect) :
    ((d.dataFlit p b).port p).expect = (d.port p).expect ∧ (d.dataFlit p b).fab.srcs = d.fab.srcs ∧
    (ahead 12 (field b 0 2 % 4096) (d.port p).expect = false ∨ (d.port p).nakSent = true → (d.dataFlit p b).out = d.out) := by
  rw [Dev.dataFlit, if_neg h]
  by_cases ha : ahead 12 (field b 0 2 % 4096) (d.port p).expect = true
  · rw [if_pos ha]
    by_cases hn : (d.port p).nakSent = true
    · rw [if_pos hn, Dev.port_putPort d hp]
      exact ⟨rfl, rfl, fun _ => rfl⟩
    · rw [if_neg hn]
      have hport := Dev.port_putPort d hp (Port.giveBack { d.port p with nakSent := true } (byteAt b 0x0A % 4))
      refine ⟨(congrArg Port.expect hport).trans rfl, rfl, fun hq => ?_⟩
      rcases hq with hq | hq
      · rw [ha] at hq
        cases hq
      · exact absurd hq hn
  · rw [if_neg ha, Dev.port_putPort d hp]
    exact ⟨rfl, rfl, fun _ => rfl⟩

theorem goodFlits (s : State) (p : Nat) (flit b : Bytes) (hp : p < 8) (hb : b = padTo 256 flit)
    (h : (s.dev.port p).st = 2) (hc : field b 0xFC 4 = lcrc (b.take 0xFC)) : ∃ t, exec (.flitReceive p flit) s = .next t ∧
      (byteAt b 1 / 16 = 0 → (s.dev.port p).waiting = [] → t.dev.port p = (s.dev.port p).heard b ∧ t.dev.out = s.dev.out) ∧
      (byteAt b 1 / 16 = 1 → field b 0 2 % 4096 = (s.dev.port p).expect →
        (t.dev.port p).expect = ((s.dev.port p).expect + 1) % 4096 ∧ (t.dev.port p).nakSent = false) ∧
      (byteAt b 1 / 16 = 1 → field b 0 2 % 4096 ≠ (s.dev.port p).expect → (t.dev.port p).expect = (s.dev.port p).expect ∧
        t.dev.fab.srcs = s.dev.fab.srcs) ∧
      (byteAt b 1 / 16 = 1 → field b 0 2 % 4096 ≠ (s.dev.port p).expect →
        (ahead 12 (field b 0 2 % 4096) (s.dev.port p).expect = false ∨ (s.dev.port p).nakSent = true) →
        (s.dev.port p).waiting = [] → t.dev.out = s.dev.out) := by
  obtain ⟨hexp, hnak, hsrcs⟩ := s.dev.heardOn_facts hp b
  refine ⟨_, exec_flitReceive p flit s, fun h0 hw => ?_, fun h1 hn => ?_, fun h1 hn => ?_, fun h1 hn hq hw => ?_⟩
  · rw [State.onDev_dev, Dev.flitReceive_idle hp hb h hc h0]
    exact Dev.heardOn_quiet hp hw b
  · rw [State.onDev_dev, Dev.flitReceive_data hp hb h hc h1, ← hexp]
    exact Dev.dataFlit_next hp (hn.trans hexp.symm)
  · obtain ⟨hsame, hkeep, _⟩ := Dev.dataFlit_other (d := s.dev.heardOn p b) hp (by rw [hexp]; exact hn)
    rw [State.onDev_dev, Dev.flitReceive_data hp hb h hc h1]
    exact ⟨hsame.trans hexp, hkeep.trans hsrcs⟩
  · obtain ⟨_, _, hout⟩ := Dev.dataFlit_other (d := s.dev.heardOn p b) hp (by rw [hexp]; exact hn)
    rw [hexp, hnak] at hout
    rw [State.onDev_dev, Dev.flitReceive_data hp hb h hc h1]
    exact (hout hq).trans (Dev.heardOn_quiet hp hw b).2

/-! Replay. -/

/-- One flit of a replay leaves again (R417). -/
def Dev.resend (d : Dev) (p : Nat) (e : Bytes) : Dev :=
  (d.putPort p ((d.port p).launch (seqOf e) (e.drop 2)).1).emitFlits p ((d.port p).launch (seqOf e) (e.drop 2)).2

/-- A replay changes the injector of its port at most. -/
theorem Dev.resends_keep {p : Nat} (hp : p < 8) (l : List Bytes) (d : Dev) :
    ∃ i, (l.foldl (fun d e => d.resend p e) d).port p = { d.port p with inj := i } := by
  induction l generalizing d with
  | nil => exact ⟨(d.port p).inj, rfl⟩
  | cons e l ih =>
    obtain ⟨i, hi⟩ := ih (d.resend p e)
    obtain ⟨j, hj⟩ := Port.launch_keeps (d.port p) (seqOf e) (e.drop 2)
    refine ⟨i, hi.trans ?_⟩
    rw [Dev.resend, Dev.port_emitFlits, Dev.port_putPort d hp, hj]

/-- The device after the record of a replay, whose fabric is as it was. -/
def Dev.replayTold (d : Dev) (p cause : Nat) (o : Bytes) : Dev :=
  d.fabEvent evLinkReplay p 0 (leBytes 1 p ++ leBytes 2 (seqOf o) ++ leBytes 1 cause)

theorem Dev.replayPort_none {d : Dev} {p : Nat} (h : (d.port p).replay = []) (cause : Nat) : d.replayPort p cause = d := by
  rw [Dev.replayPort, h]

theorem Dev.replayPort_some {d : Dev} {p : Nat} {o : Bytes} {l : List Bytes} (h : (d.port p).replay = o :: l) (cause : Nat) :
    d.replayPort p cause =
      if 8 ≤ (d.port p).replays + 1 then (d.replayTold p cause o).retrainPort p
      else if ((d.replayTold p cause o).putPort p { d.port p with replays := (d.port p).replays + 1 }).saf.safeStop then
        (d.replayTold p cause o).putPort p { d.port p with replays := (d.port p).replays + 1 }
      else (d.port p).replay.foldl (fun d e => d.resend p e)
        ((d.replayTold p cause o).putPort p { d.port p with replays := (d.port p).replays + 1 }) := by
  rw [Dev.replayPort]
  split
  next hn => rw [h] at hn; cases hn
  next a r hr =>
    obtain ⟨rfl, rfl⟩ := List.cons.inj (h.symm.trans hr)
    rfl

theorem Dev.replayPort_again {d : Dev} {p : Nat} (hp : p < 8) (h : (d.port p).replay ≠ []) (h7 : (d.port p).replays < 7)
    (cause : Nat) : ∃ i, (d.replayPort p cause).port p = { d.port p with replays := (d.port p).replays + 1, inj := i } := by
  obtain ⟨o, l, hl⟩ := List.exists_cons_of_ne_nil h
  rw [Dev.replayPort_some hl, if_neg (by omega)]
  by_cases hs : ((d.replayTold p cause o).putPort p { d.port p with replays := (d.port p).replays + 1 }).saf.safeStop = true
  · rw [if_pos hs, Dev.port_putPort _ hp]
    exact ⟨(d.port p).inj, rfl⟩
  · rw [if_neg hs]
    obtain ⟨i, hi⟩ := Dev.resends_keep hp (d.port p).replay
      ((d.replayTold p cause o).putPort p { d.port p with replays := (d.port p).replays + 1 })
    rw [Dev.port_putPort _ hp] at hi
    exact ⟨i, hi⟩

theorem Dev.retrainPort_port (d : Dev) {p : Nat} (hp : p < 8) :
    (d.retrainPort p).port p = { d.port p with st := 1, replay := [], replays := 0 } :=
  (Dev.port_of (Dev.reports_fabEvent _ _ _ _ _).fab p).trans (Dev.port_putPort d hp _)

theorem Dev.replayPort_eighth {d : Dev} {p : Nat} (hp : p < 8) (h : (d.port p).replay ≠ []) (h7 : 7 ≤ (d.port p).replays)
    (cause : Nat) : ((d.replayPort p cause).port p).st = 1 ∧ ((d.replayPort p cause).port p).replay = [] := by
  obtain ⟨o, l, hl⟩ := List.exists_cons_of_ne_nil h
  rw [Dev.replayPort_some hl, if_pos (by omega), Dev.retrainPort_port _ hp]
  exact ⟨rfl, rfl⟩

theorem replayTimers (s : State) (p : Nat) (hp : p < 8) (h : (s.dev.port p).st = 2) :
    ((s.dev.port p).replay = [] → exec (.replayTimer p) s = .next s) ∧
    ((s.dev.port p).replay ≠ [] → ∃ t, exec (.replayTimer p) s = .next t ∧
      ((s.dev.port p).replays < 7 → (t.dev.port p).replays = (s.dev.port p).replays + 1 ∧ (t.dev.port p).st = 2 ∧
        (t.dev.port p).replay = (s.dev.port p).replay) ∧
      (7 ≤ (s.dev.port p).replays → (t.dev.port p).st = 1 ∧ (t.dev.port p).replay = [])) := by
  have hon : p < 8 ∧ (s.dev.port p).st = 2 := ⟨hp, h⟩
  refine ⟨fun hn => ?_, fun hn => ⟨_, exec_replayTimer p s, fun h7 => ?_, fun h7 => ?_⟩⟩
  · rw [exec_replayTimer]
    exact State.next_same ((if_pos hon).trans (Dev.replayPort_none hn 2))
  · obtain ⟨i, hi⟩ := Dev.replayPort_again hp hn h7 2
    rw [State.onDev_dev, if_pos hon, hi]
    exact ⟨rfl, h, rfl⟩
  · rw [State.onDev_dev, if_pos hon]
    exact Dev.replayPort_eighth hp hn h7 2

/-! Training. -/

theorem Dev.portTrained_not {d : Dev} {p : Nat} (h : (d.port p).st ≠ 1 ∨ (d.port p).fenced = true) (ok : Bool) (cr : List Nat) :
    d.portTrained p ok cr = d := if_pos (.inr h)

/-- A port that has trained (R418). -/
def Port.up (x : Port) (cr : List Nat) : Port :=
  { x with st := 2, fails := 0, expect := 0, nakSent := false, next := 0, replay := [], replays := 0
           credits := (List.range 4).map (fun c => min 255 (cr.getD c 0))
           lastCredit := [0, 0, 0, 0], returned := [0, 0, 0, 0] }

theorem Dev.training {d : Dev} {p : Nat} (hp : p < 8) (h1 : (d.port p).st = 1) (hf : (d.port p).fenced = false) :
    ¬ (8 ≤ p ∨ (d.port p).st ≠ 1 ∨ (d.port p).fenced = true) := by
  rw [hf]
  simp [h1]
  omega

theorem Dev.portTrained_up {d : Dev} {p : Nat} (hp : p < 8) (h1 : (d.port p).st = 1) (hf : (d.port p).fenced = false)
    (cr : List Nat) : d.portTrained p true cr =
      ((d.putPort p ((d.port p).up cr)).fabEvent evLinkUp p 0 (leBytes 1 p)).portFlush p :=
  (if_neg (Dev.training hp h1 hf)).trans (if_pos rfl)

theorem Dev.portTrained_fails {d : Dev} {p : Nat} (hp : p < 8) (h1 : (d.port p).st = 1) (hf : (d.port p).fenced = false)
    (cr : List Nat) : d.portTrained p false cr =
      if (d.port p).fails + 1 < 3 then d.putPort p { d.port p with fails := (d.port p).fails + 1 }
      else ((d.putPort p { d.port p with fails := 3 }).portDown p).fabEvent evLinkDown p 0 (leBytes 1 p) :=
  (if_neg (Dev.training hp h1 hf)).trans (if_neg (by decide))

theorem portTrainings (s : State) (p : Nat) (cr : List Nat) (hp : p < 8) (h1 : (s.dev.port p).st = 1)
    (hf : (s.dev.port p).fenced = false) :
    (∃ t, exec (.portTrainingDone p true cr) s = .next t ∧ (t.dev.port p).st = 2 ∧ (t.dev.port p).fails = 0 ∧
      (t.dev.port p).expect = 0 ∧ ((s.dev.port p).waiting = [] → (t.dev.port p).next = 0 ∧ (t.dev.port p).replay = [])) ∧
    (∃ t, exec (.portTrainingDone p false cr) s = .next t ∧
      ((s.dev.port p).fails < 2 → t.dev.port p = { s.dev.port p with fails := (s.dev.port p).fails + 1 }) ∧
      (2 ≤ (s.dev.port p).fails → (t.dev.port p).st = 0 ∧ (t.dev.port p).replay = [])) := by
  refine ⟨⟨_, exec_portTrainingDone p true cr s, ?_⟩, ⟨_, exec_portTrainingDone p false cr s, fun h2 => ?_, fun h2 => ?_⟩⟩
  · have hport : ((s.dev.putPort p ((s.dev.port p).up cr)).fabEvent evLinkUp p 0 (leBytes 1 p)).port p =
        (s.dev.port p).up cr :=
      (Dev.port_of (Dev.reports_fabEvent _ _ _ _ _).fab p).trans (Dev.port_putPort _ hp _)
    obtain ⟨hexp, _, hst, hfails⟩ := Dev.portFlush_keeps
      ((s.dev.putPort p ((s.dev.port p).up cr)).fabEvent evLinkUp p 0 (leBytes 1 p)) hp
    rw [hport] at hexp hst hfails
    rw [State.onDev_dev, Dev.portTrained_up hp h1 hf]
    refine ⟨hst, hfails, hexp, fun hw => ?_⟩
    rw [Dev.portFlush_none _ (by rw [hport]; exact hw), Dev.port_putPort _ hp, hport]
    exact ⟨rfl, rfl⟩
  · rw [State.onDev_dev, Dev.portTrained_fails hp h1 hf, if_pos (by omega)]
    exact Dev.port_putPort _ hp _
  · obtain ⟨hst, hrep, _⟩ := Dev.portDown_facts (s.dev.putPort p { s.dev.port p with fails := 3 }) hp
    rw [State.onDev_dev, Dev.portTrained_fails hp h1 hf, if_neg (by omega),
      Dev.port_of (Dev.reports_fabEvent _ _ _ _ _).fab p]
    exact ⟨hst, hrep⟩

theorem portRegisters (s : State) (p v : Nat) (hp : p < 8) (hl : s.dev.regsLive = true) :
    ∃ t u, exec (.fabPortCtlRetrain p) s = .next t ∧ exec (.fabInjCount p v) s = .next u ∧
      ((s.dev.port p).fenced = false → t.dev.port p = { s.dev.port p with st := 1, replay := [], replays := 0 }) ∧
      ((s.dev.port p).fenced = true → t.dev = s.dev) ∧
      (s.dev.injLive = true → u.dev.port p = { s.dev.port p with inj := (s.dev.port p).inj.counted v }) ∧
      (s.dev.injLive = false → u.dev = s.dev) := by
  refine ⟨_, _, exec_fabPortCtlRetrain hl p, exec_fabInjCount hl p v, fun hf => ?_, fun hf => ?_, fun hi => ?_, fun hi => ?_⟩
  · rw [State.onDev_dev, Dev.portRetrain, if_pos ⟨hp, by rw [hf]; rfl⟩]
    exact Dev.port_putPort _ hp _
  · rw [State.onDev_dev, Dev.portRetrain, if_neg (by rw [hf]; simp)]
  · rw [State.onDev_dev, Dev.modInj, if_pos ⟨hi, hp⟩]
    exact Dev.port_putPort _ hp _
  · rw [State.onDev_dev, Dev.modInj, if_neg (by rw [hi]; simp)]

/-- Settles O50: a flit by its check, type and number, a replay and a training by how many there were. -/
theorem fabricLink : Obligations.FabricLink := by
  unfold Obligations.FabricLink
  intro s p v flit b cr hp hb
  refine ⟨fun h => ⟨?_, ?_⟩, fun h hc => ⟨_, exec_flitReceive p flit s, ?_⟩,
    fun h hc => goodFlits s p flit b hp hb h hc, fun x e l r hr he hl hx => hx ▸ (s.dev.port p).heard_acks b e l r hr he hl,
    replayTimers s p hp, portTrainings s p cr hp, fun h ok => ?_, portRegisters s p v hp⟩
  · rw [exec_flitReceive]
    exact State.next_same (Dev.flitReceive_off h flit)
  · rw [exec_replayTimer]
    exact State.next_same (if_neg (fun hon => h hon.2))
  · rw [State.onDev_dev, Dev.flitReceive_bad hp hb h hc]
    rfl
  · rw [exec_portTrainingDone]
    exact State.next_same (Dev.portTrained_not h ok cr)

end Sys2Proof.Machine
end

section
/-!
PROOF. Messages that have arrived whole: writes, signals, read requests and responses, and the windows (R421, R423, R424,
R427, R428, R564).
-/

namespace Sys2Proof.Machine

theorem exec_fabWinCfg {s : State} (h : s.dev.regsLive = true) (n v : Nat) :
    exec (.fabWinCfg n v) s = .next (s.onDev (fun d => d.winCfg n v)) := by
  have harm : exec (.fabWinCfg n v) s = execFabWinCfg n v s := rfl
  rw [harm, execFabWinCfg, State.onReg_live h]

theorem exec_readResp (src msg : Nat) (s : State) :
    exec (.readResp src msg) s = .next (s.onDev (fun d => d.readResp src msg)) := rfl

/-! What a row does with a message that passes its window. -/

/-- A WRITE lands, commits and is acknowledged (R423). -/
def Dev.takeWrite (d : Dev) (src msg : Nat) (w : Window) (f b : Bytes) (bad : List (Nat × Nat)) : Dev :=
  ((d.landMarked w.part (w.base + tpWoff f) b bad).commitMsg src msg).sayAck src msg

/-- A SIGNAL is stored, what waits for it looks again, and it is acknowledged (R423). -/
def Dev.takeSignal (d : Dev) (src msg : Nat) (w : Window) (f b : Bytes) : Dev :=
  (((d.landMarked w.part (w.base + tpWoff f) (padTo 8 b) []).inputWake w.part).commitMsg src msg).sayAck src msg

/-- The response to a READ_REQ (R427, R428). -/
def Dev.respond (d : Dev) (src : Nat) (w : Window) (f b : Bytes) : Msg :=
  { dst := src, id := 0, op := 2, window := 0xFFFF, woff := field b 4 4 * 65536, job := tpJob f
    data := (d.read w.part Env.clean (w.base + tpWoff f) (field b 0 4)).1.bytes
    poison := poisonFlits (field b 0 4) (d.read w.part Env.clean (w.base + tpWoff f) (field b 0 4)).1.bad }

/-- A READ_REQ reads its window, commits, is acknowledged and answered (R427). -/
def Dev.takeRead (d : Dev) (src msg : Nat) (w : Window) (f b : Bytes) : Dev :=
  (((((d.read w.part Env.clean (w.base + tpWoff f) (field b 0 4)).2.commitMsg src msg).sayAck src msg).sendMsg
    (d.respond src w f b)).2)

theorem exec_write (src msg : Nat) (s : State) : exec (.write src msg) s =
    .next (s.onDev (fun d => d.onWindow src msg 0 List.length (fun w f b bad => d.takeWrite src msg w f b bad))) := rfl

theorem exec_fabricSignal (src msg : Nat) (s : State) : exec (.fabricSignal src msg) s =
    .next (s.onDev (fun d => d.onWindow src msg 3 List.length (fun w f b _ => d.takeSignal src msg w f b))) := rfl

theorem exec_readReq (src msg : Nat) (s : State) : exec (.readReq src msg) s =
    .next (s.onDev (fun d => d.onWindow src msg 1 readLen (fun w f b _ => d.takeRead src msg w f b))) := rfl

theorem writes (s : State) (src msg : Nat) (f : Bytes) (l : List Bytes) (w : Window)
    (hw : w = kget s.dev.fab.wins (tpWindow f) {}) (h : s.dev.arrived src msg 0 = some (f :: l)) :
    ∃ t, exec (.write src msg) s = .next t ∧ t.dev.arrived src msg 0 = none ∧
      (w.passes 0 (tpJob f) (tpWoff f) (msgData (f :: l)).1.length = true → t.dev.mem =
        (s.dev.landMarked w.part (w.base + tpWoff f) (msgData (f :: l)).1 (msgData (f :: l)).2).mem) ∧
      (w.passes 0 (tpJob f) (tpWoff f) (msgData (f :: l)).1.length = false → t.dev.mem = s.dev.mem) := by
  subst hw
  refine ⟨_, exec_write src msg s, ?_⟩
  rw [State.onDev_dev, Dev.onWindow_some s.dev h]
  split
  next hp =>
    obtain ⟨hgone, hmem, _⟩ := Dev.acked_gone (s.dev.landMarked (kget s.dev.fab.wins (tpWindow f) {}).part
      ((kget s.dev.fab.wins (tpWindow f) {}).base + tpWoff f) (msgData (f :: l)).1 (msgData (f :: l)).2) src msg 0
    exact ⟨hgone, fun _ => hmem, fun hn => absurd hp (by rw [hn]; decide)⟩
  next hp =>
    obtain ⟨hmem, _, hgone⟩ := s.dev.refuseMsg_facts src msg f 0
    exact ⟨hgone, fun hn => absurd hn hp, fun _ => hmem⟩

theorem fabricSignals (s : State) (src msg : Nat) (f : Bytes) (l : List Bytes) (w : Window)
    (hw : w = kget s.dev.fab.wins (tpWindow f) {}) (h : s.dev.arrived src msg 3 = some (f :: l)) :
    ∃ t, exec (.fabricSignal src msg) s = .next t ∧ t.dev.arrived src msg 3 = none ∧
      (w.passes 3 (tpJob f) (tpWoff f) (msgData (f :: l)).1.length = false → t.dev.mem = s.dev.mem) ∧
      (w.passes 3 (tpJob f) (tpWoff f) (msgData (f :: l)).1.length = true →
        (∀ e ∈ s.dev.ctxs, e.2.cstate = 4 → e.2.block ≠ 1) →
        t.dev.mem = (s.dev.landMarked w.part (w.base + tpWoff f) (padTo 8 (msgData (f :: l)).1) []).mem) := by
  subst hw
  refine ⟨_, exec_fabricSignal src msg s, ?_⟩
  rw [State.onDev_dev, Dev.onWindow_some s.dev h]
  split
  next hp =>
    obtain ⟨D, hD⟩ : ∃ D : Dev, D = s.dev.landMarked (kget s.dev.fab.wins (tpWindow f) {}).part
      ((kget s.dev.fab.wins (tpWindow f) {}).base + tpWoff f) (padTo 8 (msgData (f :: l)).1) [] := ⟨_, rfl⟩
    have hctxs : D.ctxs = s.dev.ctxs := by
      rw [hD]
      exact (Dev.raced_landMarked _ _ _ _ _).acc.ctxs
    obtain ⟨hgone, hmem, _⟩ := Dev.acked_gone (D.inputWake (kget s.dev.fab.wins (tpWindow f) {}).part) src msg 3
    rw [Dev.takeSignal, ← hD]
    refine ⟨hgone, fun hn => absurd hp (by rw [hn]; decide), fun _ hblock => hmem.trans ?_⟩
    rw [Dev.inputWake_none D _ (by rw [hctxs]; exact hblock)]
  next hp =>
    obtain ⟨hmem, _, hgone⟩ := s.dev.refuseMsg_facts src msg f 3
    exact ⟨hgone, fun _ => hmem, fun hn => absurd hn hp⟩

/-- A read request that passes is answered (R427): the response stands among the messages. -/
theorem Dev.takeRead_facts (d : Dev) (src msg : Nat) (w : Window) (f b : Bytes) :
    (d.takeRead src msg w f b).arrived src msg 1 = none ∧ ∃ i y, { d.respond src w f b with id := i, sent := y } ∈
      (d.takeRead src msg w f b).fab.msgs := by
  obtain ⟨D, hD⟩ : ∃ D : Dev, D = ((d.read w.part Env.clean (w.base + tpWoff f) (field b 0 4)).2.commitMsg src msg).sayAck
    src msg := ⟨_, rfl⟩
  obtain ⟨⟨y, hy⟩, hsrcs, _⟩ := D.sendMsg_mem (d.respond src w f b)
  rw [Dev.takeRead, ← hD]
  refine ⟨(Dev.arrived_of hsrcs src msg 1).trans ?_, _, y, hy⟩
  rw [hD]
  exact (Dev.acked_gone _ src msg 1).1

theorem readRequests (s : State) (src msg : Nat) (f : Bytes) (l : List Bytes) (w : Window)
    (hw : w = kget s.dev.fab.wins (tpWindow f) {}) (h : s.dev.arrived src msg 1 = some (f :: l)) :
    ∃ t, exec (.readReq src msg) s = .next t ∧ t.dev.arrived src msg 1 = none ∧
      (w.passes 1 (tpJob f) (tpWoff f) (readLen (msgData (f :: l)).1) = false → t.dev.mem = s.dev.mem ∧
        t.dev.fab.msgs = s.dev.fab.msgs) ∧
      (w.passes 1 (tpJob f) (tpWoff f) (readLen (msgData (f :: l)).1) = true → ∃ m ∈ t.dev.fab.msgs, m.dst = src ∧ m.op = 2 ∧
        m.woff = field (msgData (f :: l)).1 4 4 * 65536 ∧
        m.data = (s.dev.read w.part Env.clean (w.base + tpWoff f) (field (msgData (f :: l)).1 0 4)).1.bytes) := by
  subst hw
  refine ⟨_, exec_readReq src msg s, ?_⟩
  rw [State.onDev_dev, Dev.onWindow_some s.dev h]
  split
  next hp =>
    obtain ⟨hgone, i, y, hy⟩ := s.dev.takeRead_facts src msg (kget s.dev.fab.wins (tpWindow f) {}) f (msgData (f :: l)).1
    exact ⟨hgone, fun hn => absurd hp (by rw [hn]; decide), fun _ => ⟨_, hy, rfl, rfl, rfl, rfl⟩⟩
  next hp =>
    obtain ⟨hmem, hmsgs, hgone⟩ := s.dev.refuseMsg_facts src msg f 1
    exact ⟨hgone, fun _ => ⟨hmem, hmsgs⟩, fun hn => absurd hn hp⟩

/-! Responses. -/

theorem Dev.readResp_none {d : Dev} {src msg : Nat} (h : d.arrived src msg 2 = none) : d.readResp src msg = d := by
  rw [Dev.readResp, h]

theorem find_tag_none {l : List ReadTag} {n : Nat} (h : ∀ z ∈ l, z.tag ≠ n) : l.find? (fun t => t.tag == n) = none :=
  List.find?_eq_none.2 (fun z hz he => h z hz (beq_iff_eq.1 he))

theorem Dev.readResp_stray {d : Dev} {src msg : Nat} {f : Bytes} {l : List Bytes} (h : d.arrived src msg 2 = some (f :: l))
    (ht : ∀ z ∈ d.fab.tags, z.tag ≠ tpWoff f / 65536) : d.readResp src msg = (d.commitMsg src msg).sayAck src msg := by
  obtain ⟨_, _, htags⟩ := d.acked_gone src msg 2
  rw [Dev.readResp, h]
  dsimp only
  rw [htags, find_tag_none ht]

/-- The tag once a response has landed. -/
def ReadTag.grown (t : ReadTag) (n : Nat) : ReadTag := { t with landed := t.landed + n }

/-- The last response of a read of the stacks that no command waits for (R427). -/
theorem Dev.readResp_last {d : Dev} {src msg : Nat} {f : Bytes} {l : List Bytes} {z : ReadTag}
    (h : d.arrived src msg 2 = some (f :: l)) (ht : d.fab.tags.find? (fun t => t.tag == tpWoff f / 65536) = some z)
    (hc : z.cmd = none) (hp : z.pot = false) (hl : z.len ≤ z.landed + (msgData (f :: l)).1.length) :
    d.readResp src msg = (((d.commitMsg src msg).sayAck src msg).landMarked z.part (z.addr + z.landed)
      ((msgData (f :: l)).1.take (z.len - z.landed)) (msgData (f :: l)).2).dropTag
        (z.grown ((msgData (f :: l)).1.take (z.len - z.landed)).length) := by
  obtain ⟨_, _, htags⟩ := d.acked_gone src msg 2
  obtain ⟨tag, dst, id, part, addr, len, landed, pot, entry, cmd⟩ := z
  obtain rfl : cmd = none := hc
  obtain rfl : pot = false := hp
  rw [Dev.readResp, h]
  dsimp only
  rw [htags, ht]
  refine if_pos ?_
  dsimp only at hl ⊢
  rw [List.length_take]
  omega

theorem Dev.dropTag_free {d : Dev} {t : ReadTag} (h : t.cmd = none) :
    d.dropTag t = d.setFab { d.fab with tags := d.fab.tags.filter (fun x => x.tag != t.tag) } := by
  rw [Dev.dropTag, h]

theorem readResponses (s : State) (src msg : Nat) (f : Bytes) (l : List Bytes)
    (h : s.dev.arrived src msg 2 = some (f :: l)) : ∃ t, exec (.readResp src msg) s = .next t ∧
      ((∀ z ∈ s.dev.fab.tags, z.tag ≠ tpWoff f / 65536) → t.dev.mem = s.dev.mem ∧ t.dev.arrived src msg 2 = none) ∧
      (∀ z, s.dev.fab.tags.find? (fun t => t.tag == tpWoff f / 65536) = some z → z.cmd = none → z.pot = false →
        z.len ≤ z.landed + (msgData (f :: l)).1.length →
        t.dev.mem = (((s.dev.commitMsg src msg).sayAck src msg).landMarked z.part (z.addr + z.landed) ((msgData (f :: l)).1.take (z.len - z.landed))
          (msgData (f :: l)).2).mem ∧ (∀ y ∈ t.dev.fab.tags, y.tag ≠ z.tag) ∧ t.dev.arrived src msg 2 = none) := by
  obtain ⟨hgone, hmem, _⟩ := s.dev.acked_gone src msg 2
  refine ⟨_, exec_readResp src msg s, fun ht => ?_, fun z ht hc hp hl => ?_⟩
  · rw [State.onDev_dev, Dev.readResp_stray h ht]
    exact ⟨hmem, hgone⟩
  · have hraced := Dev.raced_landMarked ((s.dev.commitMsg src msg).sayAck src msg) z.part (z.addr + z.landed)
      ((msgData (f :: l)).1.take (z.len - z.landed)) (msgData (f :: l)).2
    rw [State.onDev_dev, Dev.readResp_last h ht hc hp hl, Dev.dropTag_free (t := z.grown _) hc]
    refine ⟨rfl, fun y hy => ?_, ?_⟩
    · exact bne_iff_ne.1 (List.mem_filter.1 hy).2
    · exact (Dev.arrived_of (congrArg Fab.srcs hraced.fab) src msg 2).trans hgone

/-! Windows. -/

/-- What the check of R421 asks of a message: the window is open, the job is its own, the permission is given, the range fits. -/
theorem Window.passes_iff (w : Window) (op p h v : Nat) (permit : Bool)
    (hop : w.passes op p h v = (w.part != 0 && p != 0 && p == w.job && permit && decide (h + v ≤ w.size))) :
    w.passes op p h v = true ↔ w.part ≠ 0 ∧ p ≠ 0 ∧ p = w.job ∧ permit = true ∧ h + v ≤ w.size := by
  rw [hop]
  simp [and_assoc]

theorem Window.passes_facts {w : Window} {op p h v : Nat} {permit : Bool}
    (hop : w.passes op p h v = (w.part != 0 && p != 0 && p == w.job && permit && decide (h + v ≤ w.size)))
    (hp : w.passes op p h v = true) : w.part ≠ 0 ∧ p = w.job ∧ p ≠ 0 ∧ permit = true ∧ h + v ≤ w.size := by
  obtain ⟨h1, h2, h3, h4, h5⟩ := (w.passes_iff op p h v permit hop).1 hp
  exact ⟨h1, h3, h2, h4, h5⟩

/-- The device with a window of its own. -/
def Dev.putWin (d : Dev) (h : Nat) (x : Window) : Dev := d.setFab { d.fab with wins := kset d.fab.wins h x }

theorem Dev.win_putWin (d : Dev) (h : Nat) (x : Window) : kget (d.putWin h x).fab.wins h {} = x := kget_kset_self ..

/-- The window with the permissions of a configuration write (R564). -/
def Window.permits (w : Window) (v : Nat) : Window := { w with read := bit v 8, write := bit v 9, signal := bit v 10 }

theorem Dev.winCfg_none {d : Dev} {h v : Nat} (hh : h < 1024) (hv : v % 32 = 0) : d.winCfg h v =
    d.putWin h { (kget d.fab.wins h {}).permits v with part := 0, job := 0 } :=
  (if_neg (by omega)).trans (if_pos hv)

theorem Dev.winCfg_nobody {d : Dev} {h v : Nat} (hh : h < 1024) (hv : v % 32 ≠ 0) (hp : d.part (v % 32) = none) :
    d.winCfg h v = d.putWin h { (kget d.fab.wins h {}).permits v with part := 0, reject := true } := by
  refine (if_neg (by omega)).trans ((if_neg hv).trans ?_)
  rw [hp]
  rfl

theorem Dev.winCfg_part {d : Dev} {h v : Nat} {x : Part} (hh : h < 1024) (hv : v % 32 ≠ 0) (hp : d.part (v % 32) = some x) :
    d.winCfg h v = if x.job = 0 ∨ (kget d.fab.wins h {}).size = 0 ∨
        !d.ownedRange (v % 32) (kget d.fab.wins h {}).base (kget d.fab.wins h {}).size
      then d.putWin h { (kget d.fab.wins h {}).permits v with part := 0, reject := true }
      else d.putWin h { (kget d.fab.wins h {}).permits v with part := v % 32, reject := false, job := x.job } := by
  refine (if_neg (by omega)).trans ((if_neg hv).trans ?_)
  rw [hp]
  rfl

theorem Dev.winCfg_shape (d : Dev) {h : Nat} (hh : h < 1024) (v : Nat) : ∃ x, d.winCfg h v = d.putWin h x := by
  by_cases hv : v % 32 = 0
  · exact ⟨_, Dev.winCfg_none hh hv⟩
  · cases hp : d.part (v % 32) with
    | none => exact ⟨_, Dev.winCfg_nobody hh hv hp⟩
    | some x =>
      rw [Dev.winCfg_part hh hv hp]
      split <;> exact ⟨_, rfl⟩

theorem windowConfigs (s : State) (h v : Nat) (w : Window) (x : Part) (hl : s.dev.regsLive = true) (hh : h < 1024)
    (hw : w = kget s.dev.fab.wins h {}) : ∃ t, exec (.fabWinCfg h v) s = .next t ∧
      (∀ k, k ≠ h → kget t.dev.fab.wins k {} = kget s.dev.fab.wins k {}) ∧
      (v % 32 = 0 → (kget t.dev.fab.wins h {}).part = 0 ∧ (kget t.dev.fab.wins h {}).job = 0) ∧
      (s.dev.part (v % 32) = some x → v % 32 ≠ 0 →
        (x.job ≠ 0 → w.size ≠ 0 → s.dev.ownedRange (v % 32) w.base w.size = true → kget t.dev.fab.wins h {} =
          { w with read := bit v 8, write := bit v 9, signal := bit v 10, part := v % 32, reject := false, job := x.job }) ∧
        (x.job = 0 ∨ w.size = 0 ∨ s.dev.ownedRange (v % 32) w.base w.size = false →
          (kget t.dev.fab.wins h {}).part = 0 ∧ (kget t.dev.fab.wins h {}).reject = true)) := by
  subst hw
  refine ⟨_, exec_fabWinCfg hl h v, fun k hk => ?_, fun hv => ?_, fun hp hv => ⟨fun hj hs ho => ?_, fun hn => ?_⟩⟩
  · obtain ⟨y, hy⟩ := s.dev.winCfg_shape hh v
    rw [State.onDev_dev, hy]
    exact kget_put_ne s.dev h k hk y
  · rw [State.onDev_dev, Dev.winCfg_none hh hv, Dev.win_putWin]
    exact ⟨rfl, rfl⟩
  · rw [State.onDev_dev, Dev.winCfg_part hh hv hp, if_neg (by rw [ho]; simp [hj, hs]), Dev.win_putWin]
    rfl
  · rw [State.onDev_dev, Dev.winCfg_part hh hv hp, if_pos (hn.imp_right (Or.imp_right (fun hf => by rw [hf]; rfl))),
      Dev.win_putWin]
    exact ⟨rfl, rfl⟩

/-- Settles O51: a message by whether it has come whole and passes its window, a response by its tag, a window by its partition. -/
theorem fabricMessages : Obligations.FabricMessages := by
  unfold Obligations.FabricMessages
  intro s src msg h v p f l w x
  refine ⟨fun hn => ?_, fun hn => ?_, fun hn => ?_, fun hn => ?_,
    fun hw => ⟨writes s src msg f l w hw, fabricSignals s src msg f l w hw, readRequests s src msg f l w hw⟩,
    Window.passes_facts rfl, Window.passes_facts rfl, Window.passes_facts rfl, readResponses s src msg f l,
    fun hl hh hw => windowConfigs s h v w x hl hh hw⟩
  · rw [exec_write]
    exact State.next_same (Dev.onWindow_none _ hn _ _)
  · rw [exec_readReq]
    exact State.next_same (Dev.onWindow_none _ hn _ _)
  · rw [exec_readResp]
    exact State.next_same (Dev.readResp_none hn)
  · rw [exec_fabricSignal]
    exact State.next_same (Dev.onWindow_none _ hn _ _)

end Sys2Proof.Machine
end

section
/-!
PROOF. Acknowledgements, refusals, retransmission and failure of messages and read tags (R423, R425, R427).
-/

namespace Sys2Proof.Machine

theorem exec_ack (src msg : Nat) (s : State) : exec (.ack src msg) s = .next (s.onDev (fun d => d.ackMsg src msg)) := rfl

theorem exec_refuse (src msg : Nat) (s : State) :
    exec (.refuse src msg) s = .next (s.onDev (fun d => d.refused src msg)) := rfl

theorem exec_e2eTimeout (dst id : Nat) (s : State) :
    exec (.e2eTimeout dst id) s = .next (s.onDev (fun d => d.e2eTimeout dst id)) := rfl

theorem exec_readTagTimeout (tag : Nat) (s : State) :
    exec (.readTagTimeout tag) s = .next (s.onDev (fun d => d.tagTimeout tag)) := rfl

/-- The management probe of an unreachable destination (R425). -/
def probeMsg (dst : Nat) : Msg :=
  { dst := dst, id := 0, op := 6, window := 0, woff := 0, job := 0, data := leBytes 1 0 }

theorem exec_unreachableProbe (dst : Nat) (s : State) : exec (.unreachableProbe dst) s = .next (s.onDev (fun d =>
    if (d.dest dst).unreachable then (d.sendMsg (probeMsg dst)).2 else d)) := rfl

/-- The message in flight to a destination with a number. -/
def Dev.msgAt (d : Dev) (dst id : Nat) : Option Msg := d.fab.msgs.find? (fun m => m.dst == dst && m.id == id)

theorem Dev.msgAt_some {d : Dev} {dst id : Nat} {m : Msg} (h : d.msgAt dst id = some m) :
    m ∈ d.fab.msgs ∧ m.dst = dst ∧ m.id = id := by
  have hk := List.find?_some h
  rw [Bool.and_eq_true, beq_iff_eq, beq_iff_eq] at hk
  exact ⟨List.mem_of_find?_eq_some h, hk.1, hk.2⟩

/-! Acknowledgement. -/

theorem Dev.ackMsg_none {d : Dev} {src msg : Nat} (h : d.arrived src msg 4 = none) : d.ackMsg src msg = d := by
  rw [Dev.ackMsg, h]

/-- An ACK of one number (R423). -/
theorem Dev.ackMsg_one {d : Dev} {src msg : Nat} {f : Bytes} (h : d.arrived src msg 4 = some [f])
    (h4 : 4 ≤ (tpPayload f).length) (h8 : (tpPayload f).length < 8) :
    d.ackMsg src msg = (d.commitMsg src msg).acked src (field (tpPayload f) 0 4) := by
  rw [Dev.ackMsg, h]
  dsimp only
  rw [msgData_one, field_cut _ h4 h8]
  rfl

theorem acks (s : State) (src msg id : Nat) (f : Bytes) (m : Msg) (h : s.dev.arrived src msg 4 = some [f])
    (h4 : 4 ≤ (tpPayload f).length) (h8 : (tpPayload f).length < 8) (hid : id = field (tpPayload f) 0 4)
    (hm : s.dev.msgAt src id = some m) :
    ∃ t, exec (.ack src msg) s = .next t ∧ (∀ z ∈ t.dev.fab.msgs, ¬(z.dst = src ∧ z.id = id)) ∧
      (t.dev.dest src).unreachable = false ∧ t.dev.arrived src msg 4 = none := by
  subst hid
  obtain ⟨hgone, hreach, hsrcs⟩ := Dev.acked_facts (s.dev.commitMsg src msg) src (field (tpPayload f) 0 4) m hm
  refine ⟨_, exec_ack src msg s, ?_⟩
  rw [State.onDev_dev, Dev.ackMsg_one h h4 h8]
  exact ⟨hgone, hreach, (Dev.arrived_of hsrcs src msg 4).trans (s.dev.arrived_commit src msg 4)⟩

/-! Refusal. -/

theorem Dev.refused_none {d : Dev} {src msg : Nat} (h : d.arrived src msg 5 = none) : d.refused src msg = d := by
  rw [Dev.refused, h]

theorem Dev.refused_some {d : Dev} {src msg : Nat} {f : Bytes} {m : Msg} (h : d.arrived src msg 5 = some [f])
    (hm : d.msgAt src (field (tpPayload f) 0 4) = some m) :
    d.refused src msg = (d.commitMsg src msg).failMsg m (field (tpPayload f) 4 2) := by
  have hm2 : (d.commitMsg src msg).fab.msgs.find? (fun m => m.dst == src && m.id == field (tpPayload f) 0 4) = some m := hm
  rw [Dev.refused, h]
  dsimp only
  rw [msgData_one, hm2]

/-- A command that carries the cause of a failed message and waits for it no more. -/
def Cmd.loses (c : Cmd) (cause dst id : Nat) : Cmd :=
  { c with marks := c.marks.join (.cause cause), await := c.await.filter (fun x => !(x.1 == dst && x.2 == id)) }

/-- The command of a failed message carries the cause and waits for it no more; one that waits for others goes on. -/
theorem Dev.cmd_failMsg {d : Dev} {m : Msg} {r : CmdRef} {c : Cmd} (hr : m.cmd = some r) (hc : d.cmd r = some c)
    (ho : ∃ z ∈ c.await, ¬(z.1 = m.dst ∧ z.2 = m.id)) (ht : ∀ z ∈ d.fab.tags, z.dst ≠ m.dst) (cause : Nat) :
    (d.failMsg m cause).cmd r = some (c.loses cause m.dst m.id) := by
  obtain ⟨D, hD⟩ : ∃ D : Dev, D = (d.setFab { d.fab with msgs := d.fab.msgs.filter (fun x =>
    !(x.dst == m.dst && x.id == m.id)) }).fabEvent evMsgFailed 0 cause (leBytes 1 m.dst ++ leBytes 4 m.id ++ leBytes 2 cause) :=
    ⟨_, rfl⟩
  have hrep : (d.setFab { d.fab with msgs := d.fab.msgs.filter (fun x => !(x.dst == m.dst && x.id == m.id)) }).Reports D := by
    rw [hD]
    exact Dev.reports_fabEvent ..
  have htags : D.fab.tags.find? (fun t => m.op == 1 && t.dst == m.dst && t.msg == m.id) = none := by
    rw [List.find?_eq_none, hrep.fab]
    intro z hz hk
    have hz2 := ht z hz
    simp [hz2] at hk
  have hgo : d.failMsg m cause = (((D.mark r (.cause cause)).unawait r m.dst m.id).settleCmd r).sendHeld m.dst := by
    rw [Dev.failMsg]
    dsimp only
    rw [← hD, htags, hr]
  have hcmd : ((D.mark r (.cause cause)).unawait r m.dst m.id).cmd r = some (c.loses cause m.dst m.id) := by
    have hmark : (D.mark r (.cause cause)).cmd r = some { c with marks := c.marks.join (.cause cause) } :=
      Dev.cmd_mark D ((hrep.accessed.cmd r).trans hc) _
    rw [Dev.unawait, Dev.cmd_modCmd _ r (by intro c; rfl), hmark]
    rfl
  have hwaits : (c.await.filter (fun x => !(x.1 == m.dst && x.2 == m.id))).isEmpty = false := by
    obtain ⟨z, hz, hne⟩ := ho
    rw [List.isEmpty_eq_false_iff]
    exact List.ne_nil_of_mem (List.mem_filter.2 ⟨hz, by simpa [← not_and_or] using hne⟩)
  have hsettle : ((D.mark r (.cause cause)).unawait r m.dst m.id).settleCmd r =
      (D.mark r (.cause cause)).unawait r m.dst m.id := by
    rw [Dev.settleCmd, hcmd]
    exact if_neg (fun h => by
      have hempty : (c.await.filter (fun x => !(x.1 == m.dst && x.2 == m.id))).isEmpty = true := h.2.1
      rw [hwaits] at hempty
      cases hempty)
  rw [hgo, hsettle, ((Dev.mails_sendHeld _ _).sent).cmd, hcmd]

theorem mem_causes_join (x : Marks) (ca : Nat) : ca ∈ (x.join (.cause ca)).causes := by
  simp [Marks.join, Marks.cause]

theorem refusals (s : State) (src msg id : Nat) (f : Bytes) (m : Msg) (r : CmdRef) (c : Cmd)
    (h : s.dev.arrived src msg 5 = some [f]) (hid : id = field (tpPayload f) 0 4) (hm : s.dev.msgAt src id = some m)
    (hr : m.cmd = some r) (hc : s.dev.cmd r = some c) (ho : ∃ z ∈ c.await, ¬(z.1 = src ∧ z.2 = id))
    (ht : ∀ z ∈ s.dev.fab.tags, z.dst ≠ src) :
    ∃ t k, exec (.refuse src msg) s = .next t ∧ (∀ z ∈ t.dev.fab.msgs, ¬(z.dst = src ∧ z.id = id)) ∧ t.dev.cmd r = some k ∧
      field (tpPayload f) 4 2 ∈ k.marks.causes ∧ (src, id) ∉ k.await := by
  obtain ⟨_, hdst, hmid⟩ := Dev.msgAt_some hm
  subst hid
  obtain ⟨hgone, _⟩ := Dev.failMsg_fab (s.dev.commitMsg src msg) m (field (tpPayload f) 4 2)
  have hcmd := Dev.cmd_failMsg (d := s.dev.commitMsg src msg) hr hc (by rw [hdst, hmid]; exact ho)
    (by rw [hdst]; exact ht) (field (tpPayload f) 4 2)
  rw [hdst, hmid] at hgone hcmd
  refine ⟨_, c.loses (field (tpPayload f) 4 2) src (field (tpPayload f) 0 4), exec_refuse src msg s, ?_⟩
  rw [State.onDev_dev, Dev.refused_some h hm]
  refine ⟨hgone, hcmd, mem_causes_join _ _, fun hmem => ?_⟩
  exact absurd (List.mem_filter.1 hmem).2 (by simp)

/-! Expiry of a message. -/

theorem Dev.e2eTimeout_none {d : Dev} {dst id : Nat} (h : d.msgAt dst id = none) : d.e2eTimeout dst id = d := by
  rw [Dev.msgAt] at h
  rw [Dev.e2eTimeout, h]

theorem Dev.e2eTimeout_held {d : Dev} {dst id : Nat} {m : Msg} (h : d.msgAt dst id = some m) (hs : m.sent = false) :
    d.e2eTimeout dst id = d := by
  rw [Dev.msgAt] at h
  rw [Dev.e2eTimeout, h]
  exact if_pos (by rw [hs]; rfl)

/-- The device with one more expiry of a message counted. -/
def Dev.expired (d : Dev) (dst id : Nat) : Dev :=
  d.setFab { d.fab with msgs := d.fab.msgs.map (fun x =>
    if x.dst = dst ∧ x.id = id then { x with expiries := x.expiries + 1 } else x) }

theorem Dev.e2eTimeout_again {d : Dev} {dst id : Nat} {m : Msg} (h : d.msgAt dst id = some m) (hs : m.sent = true)
    (h3 : m.expiries < 3) :
    d.e2eTimeout dst id = (d.expired dst id).dealMsg (d.partOfJob m.job) (d.headOf m) m.data m.poison := by
  rw [Dev.msgAt] at h
  rw [Dev.e2eTimeout, h]
  exact (if_neg (by rw [hs]; decide)).trans (if_pos (by omega))

theorem Dev.e2eTimeout_fourth {d : Dev} {dst id : Nat} {m : Msg} (h : d.msgAt dst id = some m) (hs : m.sent = true)
    (h3 : 3 ≤ m.expiries) :
    d.e2eTimeout dst id = (d.putDest dst { d.dest dst with unreachable := true }).failMsg m caFenced := by
  rw [Dev.msgAt] at h
  rw [Dev.e2eTimeout, h]
  exact (if_neg (by rw [hs]; decide)).trans (if_neg (by omega))

theorem Dev.dest_putDest (d : Dev) (n : Nat) (x : Dest) : (d.putDest n x).dest n = x := kget_kset_self ..

theorem expiries (s : State) (dst id : Nat) (m : Msg) (hm : s.dev.msgAt dst id = some m) :
    (m.sent = false → exec (.e2eTimeout dst id) s = .next s) ∧
    (m.sent = true → m.expiries < 3 → ∃ t, exec (.e2eTimeout dst id) s = .next t ∧
      { m with expiries := m.expiries + 1 } ∈ t.dev.fab.msgs ∧ t.dev.dest dst = s.dev.dest dst) ∧
    (m.sent = true → 3 ≤ m.expiries → ∃ t, exec (.e2eTimeout dst id) s = .next t ∧
      (∀ z ∈ t.dev.fab.msgs, ¬(z.dst = dst ∧ z.id = id)) ∧ (t.dev.dest dst).unreachable = true) := by
  obtain ⟨hmem, hdst, hid⟩ := Dev.msgAt_some hm
  refine ⟨fun hs => ?_, fun hs h3 => ⟨_, exec_e2eTimeout dst id s, ?_⟩, fun hs h3 => ⟨_, exec_e2eTimeout dst id s, ?_⟩⟩
  · rw [exec_e2eTimeout]
    exact State.next_same (Dev.e2eTimeout_held hm hs)
  · obtain ⟨hdests, _, hmsgs, _⟩ := (Dev.deals_dealMsg (s.dev.expired dst id) (s.dev.partOfJob m.job) (s.dev.headOf m)
      m.data m.poison).fab
    rw [State.onDev_dev, Dev.e2eTimeout_again hm hs h3, Dev.dest, hdests, hmsgs]
    exact ⟨List.mem_map.2 ⟨m, hmem, if_pos ⟨hdst, hid⟩⟩, rfl⟩
  · obtain ⟨hgone, hkeep⟩ := Dev.failMsg_fab (s.dev.putDest dst { s.dev.dest dst with unreachable := true }) m caFenced
    rw [State.onDev_dev, Dev.e2eTimeout_fourth hm hs h3, hkeep, Dev.dest_putDest]
    rw [hdst, hid] at hgone
    exact ⟨hgone, rfl⟩

/-! Expiry of a read tag. -/

theorem Dev.tagTimeout_none {d : Dev} {tag : Nat} (h : ∀ z ∈ d.fab.tags, z.tag ≠ tag) : d.tagTimeout tag = d := by
  rw [Dev.tagTimeout, find_tag_none h]

theorem Dev.tagTimeout_ends {d : Dev} {tag : Nat} {z : ReadTag} (h : d.fab.tags.find? (fun t => t.tag == tag) = some z) :
    ∀ y ∈ (d.tagTimeout tag).fab.tags, y.tag ≠ tag := by
  have hfound := List.find?_some h
  have htag : z.tag = tag := beq_iff_eq.1 hfound
  rw [Dev.tagTimeout, h]
  dsimp only
  rw [Dev.fab_failTag, ← htag]
  exact fun y hy => bne_iff_ne.1 (List.mem_filter.1 hy).2

/-- Settles O52: an answer by the message that it names, an expiry by how many there were. -/
theorem fabricFailures : Obligations.FabricFailures := by
  unfold Obligations.FabricFailures
  intro s src msg dst id tag f m r c
  refine ⟨fun hn => ?_, fun hn => ?_, fun h h4 h8 hid hm => acks s src msg id f m h h4 h8 hid hm,
    fun h hid hm hr hc ho ht => refusals s src msg id f m r c h hid hm hr hc ho ht, fun hn => ?_,
    fun hm => expiries s dst id m hm, fun hn => ?_, fun z hz => ⟨_, exec_readTagTimeout tag s, Dev.tagTimeout_ends hz⟩,
    fun hu => ?_, fun hu => ?_⟩
  · rw [exec_ack]
    exact State.next_same (Dev.ackMsg_none hn)
  · rw [exec_refuse]
    exact State.next_same (Dev.refused_none hn)
  · rw [exec_e2eTimeout]
    exact State.next_same (Dev.e2eTimeout_none hn)
  · rw [exec_readTagTimeout]
    exact State.next_same (Dev.tagTimeout_none hn)
  · obtain ⟨⟨y, hy⟩, _, _⟩ := s.dev.sendMsg_mem (probeMsg dst)
    refine ⟨_, exec_unreachableProbe dst s, ?_⟩
    rw [State.onDev_dev, if_pos hu]
    exact ⟨_, hy, rfl, rfl, rfl⟩
  · rw [exec_unreachableProbe]
    exact State.next_same (if_neg (by rw [hu]; decide))

end Sys2Proof.Machine
end

section
/-!
PROOF. The pod ring: its tail, its reset, ADMIT, RECLAIM, and a module that does not confirm (R434 to R436).
-/

namespace Sys2Proof.Machine

theorem exec_fabPodTail {s : State} (h : s.dev.regsLive = true) (v : Nat) :
    exec (.fabPodTail v true) s = .next (s.onDev (fun d => d.podTail v)) := by
  have harm : exec (.fabPodTail v true) s = execFabPodTail v true s := rfl
  rw [harm, execFabPodTail, State.onReg_live h]
  rfl

theorem exec_fabPodTail_narrow {s : State} (h : s.dev.regsLive = true) (v : Nat) :
    exec (.fabPodTail v false) s = .next s := by
  have harm : exec (.fabPodTail v false) s = execFabPodTail v false s := rfl
  rw [harm, execFabPodTail, State.onReg_live h]
  exact State.next_same (if_neg Bool.false_ne_true)

theorem exec_fabPodCtlReset {s : State} (h : s.dev.regsLive = true) :
    exec .fabPodCtlReset s = .next (s.onDev Dev.podReset) := by
  have harm : exec .fabPodCtlReset s = execFabPodCtlReset s := rfl
  rw [harm, execFabPodCtlReset, State.onReg_live h]

theorem exec_podAdmit (entry spec prefer : HostRead) (s : State) :
    exec (.podAdmit entry spec prefer) s = .next (s.onDev (fun d => d.podAdmit entry spec prefer)) := rfl

theorem exec_reclaim (entry : HostRead) (s : State) :
    exec (.reclaim entry) s = .next (s.onDev (fun d => d.podReclaim entry)) := rfl

theorem exec_podReclaimTimeout (job m : Nat) (s : State) :
    exec (.podReclaimTimeout job m) s = .next (s.onDev (fun d => d.podConfirm job m 0)) := rfl

/-! Tail and reset. -/

theorem Dev.podTail_not {d : Dev} (h : d.fab.pod.acting = false ∨ d.fab.pod.err = true) (v : Nat) : d.podTail v = d := by
  refine if_pos ?_
  rcases h with h | h <;> rw [h] <;> simp

theorem Dev.setPod_self (d : Dev) : d.setPod d.fab.pod = d := rfl

theorem Dev.podTail_inside {d : Dev} {v : Nat} (ha : d.fab.pod.acting = true) (he : d.fab.pod.err = false)
    (hv : v < 2 ^ d.fab.pod.log2) : d.podTail v = d.setPod { d.fab.pod with tail := v } := by
  by_cases ht : v = d.fab.pod.tail
  · refine (if_pos (by simp [ht])).trans ?_
    rw [ht, Dev.setPod_self]
  · exact (if_neg (by simp [ha, he, ht])).trans (if_neg (by omega))

theorem Dev.podTail_outside {d : Dev} {v : Nat} (ha : d.fab.pod.acting = true) (he : d.fab.pod.err = false)
    (hv : 2 ^ d.fab.pod.log2 ≤ v) (ht : v ≠ d.fab.pod.tail) : d.podTail v = d.setPod { d.fab.pod with err := true } :=
  (if_neg (by simp [ha, he, ht])).trans (if_pos hv)

theorem podTails (s : State) (v : Nat) (hl : s.dev.regsLive = true) :
    ((s.dev.fab.pod.acting = false ∨ s.dev.fab.pod.err = true) → exec (.fabPodTail v true) s = .next s) ∧
    exec (.fabPodTail v false) s = .next s ∧
    (s.dev.fab.pod.acting = true → s.dev.fab.pod.err = false →
      (v < 2 ^ s.dev.fab.pod.log2 → ∃ t, exec (.fabPodTail v true) s = .next t ∧
        t.dev.fab = { s.dev.fab with pod := { s.dev.fab.pod with tail := v } } ∧ t.dev = { s.dev with fab := t.dev.fab }) ∧
      (2 ^ s.dev.fab.pod.log2 ≤ v → v ≠ s.dev.fab.pod.tail → ∃ t, exec (.fabPodTail v true) s = .next t ∧
        t.dev.fab = { s.dev.fab with pod := { s.dev.fab.pod with err := true } })) := by
  rw [exec_fabPodTail hl]
  refine ⟨fun h => State.next_same (Dev.podTail_not h v), exec_fabPodTail_narrow hl v,
    fun ha he => ⟨fun hv => ⟨_, rfl, ?_⟩, fun hv ht => ⟨_, rfl, ?_⟩⟩⟩
  · rw [State.onDev_dev, Dev.podTail_inside ha he hv]
    exact ⟨rfl, rfl⟩
  · rw [State.onDev_dev, Dev.podTail_outside ha he hv ht]
    rfl

theorem Dev.podReset_not {d : Dev} (h : d.fab.pod.acting = false) : d.podReset = d := if_pos (by rw [h]; rfl)

/-- The pod ring after its reset. -/
def Pod.afresh (x : Pod) : Pod := { x with err := false, head := 0, tail := 0, req := none }

theorem Dev.podReset_idle {d : Dev} (h : d.fab.pod.acting = true) (hn : d.fab.pod.req = none) :
    d.podReset = d.setPod d.fab.pod.afresh := by
  refine (if_neg (by rw [h]; decide)).trans ?_
  dsimp only
  split
  next q hq => rw [hn] at hq; cases hq
  next => rfl

theorem Dev.podReset_aborts {d : Dev} {q : PodReq} (h : d.fab.pod.acting = true) (hq : d.fab.pod.req = some q) :
    d.podReset = (d.podWrite q.slot stAborted 0).setPod d.fab.pod.afresh := by
  refine (if_neg (by rw [h]; decide)).trans ?_
  dsimp only
  split
  next q' hq' =>
    obtain rfl : q = q' := Option.some.inj (hq.symm.trans hq')
    rfl
  next hn => rw [hq] at hn; cases hn

theorem podResets (s : State) (q : PodReq) (hl : s.dev.regsLive = true) :
    (s.dev.fab.pod.acting = false → exec .fabPodCtlReset s = .next s) ∧
    (s.dev.fab.pod.acting = true → ∃ t, exec .fabPodCtlReset s = .next t ∧
      t.dev.fab.pod = { s.dev.fab.pod with err := false, head := 0, tail := 0, req := none } ∧
      (s.dev.fab.pod.req = none → t.dev.out = s.dev.out) ∧
      (s.dev.fab.pod.req = some q → t.dev.out = s.dev.out ++ [.hostWrite (s.dev.fab.pod.base + 64 * q.slot + 0x38)
        (leBytes 2 stAborted ++ leBytes 1 1 ++ repByte 3 0 ++ leBytes 2 0)])) := by
  rw [exec_fabPodCtlReset hl]
  refine ⟨fun h => State.next_same (Dev.podReset_not h), fun h => ⟨_, rfl, ?_⟩⟩
  rw [State.onDev_dev]
  cases hr : s.dev.fab.pod.req with
  | none =>
    rw [Dev.podReset_idle h hr]
    exact ⟨rfl, fun _ => rfl, fun hn => (by cases hn)⟩
  | some q' =>
    rw [Dev.podReset_aborts h hr]
    refine ⟨rfl, fun hn => (by cases hn), fun hq => ?_⟩
    obtain rfl : q' = q := Option.some.inj hq
    rfl

/-! The next entry. -/

/-- The pod ring once its next entry is taken. -/
def Pod.taken (x : Pod) : Pod := { x with head := (x.head + 1) % 2 ^ x.log2 }

/-- The device once the next entry of the ring is taken. -/
def Dev.podTaken (d : Dev) : Dev := d.setPod d.fab.pod.taken

theorem Dev.podAdmit_not {d : Dev} (h : d.podReady = false) (entry spec prefer : HostRead) :
    d.podAdmit entry spec prefer = d := if_pos (by rw [h]; rfl)

theorem Dev.podReclaim_not {d : Dev} (h : d.podReady = false) (entry : HostRead) : d.podReclaim entry = d :=
  if_pos (by rw [h]; rfl)

theorem Dev.podIsReady {d : Dev} (h : d.podReady = true) : ¬ (!d.podReady) = true := by
  rw [h]
  decide

theorem Dev.podAdmit_failed {d : Dev} (h : d.podReady = true) (spec prefer : HostRead) :
    d.podAdmit .failed spec prefer = d.setPod { d.fab.pod with err := true } := if_neg (Dev.podIsReady h)

theorem Dev.podReclaim_failed {d : Dev} (h : d.podReady = true) :
    d.podReclaim .failed = d.setPod { d.fab.pod with err := true } := if_neg (Dev.podIsReady h)

theorem Dev.podAdmit_other {d : Dev} (h : d.podReady = true) {raw : Bytes} (hb : byteAt (padTo 64 raw) 0 = 2)
    (spec prefer : HostRead) : d.podAdmit (.ok raw) spec prefer = d := (if_neg (Dev.podIsReady h)).trans (if_pos hb)

theorem Dev.podReclaim_other {d : Dev} (h : d.podReady = true) {raw : Bytes} (hb : byteAt (padTo 64 raw) 0 ≠ 2) :
    d.podReclaim (.ok raw) = d := (if_neg (Dev.podIsReady h)).trans (if_pos hb)

/-! ADMIT. -/

theorem Dev.podAdmit_malformed {d : Dev} (h : d.podReady = true) {raw : Bytes} (hb : byteAt (padTo 64 raw) 0 ≠ 2)
    (hok : podEntryOk (padTo 64 raw) = false) (spec prefer : HostRead) :
    d.podAdmit (.ok raw) spec prefer = d.podTaken.podWrite d.fab.pod.head stInvalidField 0 :=
  (if_neg (Dev.podIsReady h)).trans ((if_neg hb).trans (if_pos (by rw [hok]; rfl)))

/-- The request of an ADMIT entry (R435). -/
def Dev.admitReq (d : Dev) (b sp pr : Bytes) : PodReq :=
  { reclaim := false, job := d.freeJob, want := if byteAt b 1 = 0 then 256 else byteAt b 1, spec := padTo 512 sp
    result := field b 0x18 8, slot := d.fab.pod.head
    todo := d.candidates (parseSpec (padTo 512 sp)) (field (if field b 0x10 8 = 0 then [] else pr) 0 32)
    last := stCoreBusy }

theorem Dev.admitReq_asks (d : Dev) (b sp pr : Bytes) : (d.admitReq b sp pr).job = d.freeJob ∧
    (d.admitReq b sp pr).spec = padTo 512 sp ∧ (d.admitReq b sp pr).got = [] := by
  simp only [Dev.admitReq, and_self]

theorem Dev.podAdmit_asks {d : Dev} (h : d.podReady = true) {raw sp pr : Bytes} (hb : byteAt (padTo 64 raw) 0 ≠ 2)
    (hok : podEntryOk (padTo 64 raw) = true) (hs : specOk (padTo 512 sp) = true) :
    d.podAdmit (.ok raw) (.ok sp) (.ok pr) =
      Dev.podNext 300 (d.podTaken.setPod { d.podTaken.fab.pod with req := some (d.admitReq (padTo 64 raw) sp pr) }) := by
  refine (if_neg (Dev.podIsReady h)).trans ((if_neg hb).trans ((if_neg (by rw [hok]; decide)).trans ?_))
  have hpr : (if field (padTo 64 raw) 0x10 8 = 0 then HostRead.ok [] else .ok pr) =
      .ok (if field (padTo 64 raw) 0x10 8 = 0 then [] else pr) := (apply_ite HostRead.ok _ [] pr).symm
  rw [hpr]
  exact if_neg (by rw [hs]; decide)

theorem podAdmits (s : State) (m : Nat) (raw sp pr : Bytes) (l : List Nat) (h : s.dev.podReady = true)
    (hb : byteAt (padTo 64 raw) 0 ≠ 2) (hok : podEntryOk (padTo 64 raw) = true) (hs : specOk (padTo 512 sp) = true)
    (hn : byteAt (padTo 64 raw) 1 ≠ 0) (hl : l = s.dev.candidates (parseSpec (padTo 512 sp))
      (field (if field (padTo 64 raw) 0x10 8 = 0 then [] else pr) 0 32)) :
    (l = [] → ∃ t, exec (.podAdmit (.ok raw) (.ok sp) (.ok pr)) s = .next t ∧ t.dev.fab.pod =
      { s.dev.fab.pod with head := (s.dev.fab.pod.head + 1) % 2 ^ s.dev.fab.pod.log2, req := none } ∧
      t.dev.out = s.dev.out ++ [.hostWrite (s.dev.fab.pod.base + 64 * s.dev.fab.pod.head + 0x38)
        (leBytes 2 stCoreBusy ++ leBytes 1 1 ++ repByte 3 0 ++ leBytes 2 0)]) ∧
    (∀ r, l = m :: r → m ≠ s.dev.conf.module → ∃ t z, exec (.podAdmit (.ok raw) (.ok sp) (.ok pr)) s = .next t ∧
      t.dev.fab.pod.req = some z ∧ z.asked = some m ∧ z.todo = r ∧ z.job = s.dev.freeJob ∧ z.got = [] ∧
      z.want = byteAt (padTo 64 raw) 1 ∧
      ((s.dev.dest m).unreachable = false → ∃ y ∈ t.dev.fab.msgs, y.dst = m ∧ y.op = 6 ∧
        y.data = Config.mgmtWire (.enrol s.dev.freeJob (padTo 512 sp)))) := by
  obtain ⟨q, hq⟩ : ∃ q, q = s.dev.admitReq (padTo 64 raw) sp pr := ⟨_, rfl⟩
  have hwant : q.want = byteAt (padTo 64 raw) 1 := by
    rw [hq]
    exact if_neg hn
  have htodo : q.todo = l := by rw [hq, hl]; rfl
  obtain ⟨hjob, hspec, hgot⟩ := s.dev.admitReq_asks (padTo 64 raw) sp pr
  rw [← hq] at hjob hspec hgot
  obtain ⟨D, hD⟩ : ∃ D : Dev, D = s.dev.podTaken.setPod { s.dev.podTaken.fab.pod with req := some q } := ⟨_, rfl⟩
  have hreq : D.fab.pod.req = some q := by rw [hD]; rfl
  have hrun : s.dev.podAdmit (.ok raw) (.ok sp) (.ok pr) = Dev.podNext 300 D := by
    rw [hD, hq]
    exact Dev.podAdmit_asks h hb hok hs
  refine ⟨fun hnil => ⟨_, exec_podAdmit _ _ _ s, ?_⟩, fun r hcons hm =>
    ⟨_, { q with todo := r, asked := some m }, exec_podAdmit _ _ _ s, ?_⟩⟩
  · rw [State.onDev_dev, hrun, D.podNext_out (by decide) hreq hgot (by rw [hwant]; exact hn) (htodo.trans hnil), hD, hq]
    exact ⟨rfl, rfl⟩
  · have hlen : q.got.length ≠ q.want := by
      rw [hgot, hwant]
      exact Ne.symm hn
    rw [State.onDev_dev, hrun, D.podNext_ask (by decide) hreq hlen (htodo.trans hcons) (by rw [hD]; exact hm),
      Dev.pod_sayMgmt]
    refine ⟨rfl, rfl, rfl, hjob, hgot, hwant, fun hu => ?_⟩
    obtain ⟨y, hy, hdst, hop, hdata⟩ := Dev.sayMgmt_mem (D.setPod { D.fab.pod with req := some { q with todo := r, asked := some m } }) m
      (Config.mgmtWire (.enrol q.job q.spec)) (by rw [hD]; exact hu)
    exact ⟨y, hy, hdst, hop, by rw [hdata, hjob, hspec]⟩

/-! RECLAIM. -/

theorem Dev.podReclaim_unknown {d : Dev} (h : d.podReady = true) {raw : Bytes} (hb : byteAt (padTo 64 raw) 0 = 2)
    (hok : podEntryOk (padTo 64 raw) = true) (hj : kfind d.fab.pod.jobs (field (padTo 64 raw) 2 2) = none) :
    d.podReclaim (.ok raw) = d.podTaken.podWrite d.fab.pod.head stNoPartition 0 := by
  have hj2 : kfind d.podTake.2.fab.pod.jobs (field (padTo 64 raw) 2 2) = none := hj
  refine (if_neg (Dev.podIsReady h)).trans ((if_neg (fun hn => hn hb)).trans ((if_neg (by rw [hok]; decide)).trans ?_))
  dsimp only
  rw [hj2]
  rfl

/-- The request of a RECLAIM entry of a job on one module (R436). -/
def Dev.reclaimReq (d : Dev) (b : Bytes) (m : Nat) : PodReq :=
  { reclaim := true, job := field b 2 2, want := 1, spec := [], result := field b 0x18 8, slot := d.fab.pod.head, todo := [m] }

theorem Dev.podReclaim_one {d : Dev} (h : d.podReady = true) {raw : Bytes} {m vf : Nat} (hb : byteAt (padTo 64 raw) 0 = 2)
    (hok : podEntryOk (padTo 64 raw) = true) (hj : kfind d.fab.pod.jobs (field (padTo 64 raw) 2 2) = some [(m, vf)]) :
    d.podReclaim (.ok raw) = (d.podTaken.setPod { d.podTaken.fab.pod with req := some (d.reclaimReq (padTo 64 raw) m) }).askReclaim
      (field (padTo 64 raw) 2 2) m := by
  have hj2 : kfind d.podTake.2.fab.pod.jobs (field (padTo 64 raw) 2 2) = some [(m, vf)] := hj
  refine (if_neg (Dev.podIsReady h)).trans ((if_neg (fun hn => hn hb)).trans ((if_neg (by rw [hok]; decide)).trans ?_))
  dsimp only
  rw [hj2]
  rfl

theorem podReclaims (s : State) (m vf : Nat) (raw : Bytes) (h : s.dev.podReady = true) (hb : byteAt (padTo 64 raw) 0 = 2)
    (hok : podEntryOk (padTo 64 raw) = true) :
    (kfind s.dev.fab.pod.jobs (field (padTo 64 raw) 2 2) = none → ∃ t, exec (.reclaim (.ok raw)) s = .next t ∧
      t.dev.out = s.dev.out ++ [.hostWrite (s.dev.fab.pod.base + 64 * s.dev.fab.pod.head + 0x38)
        (leBytes 2 stNoPartition ++ leBytes 1 1 ++ repByte 3 0 ++ leBytes 2 0)]) ∧
    (kfind s.dev.fab.pod.jobs (field (padTo 64 raw) 2 2) = some [(m, vf)] → m ≠ s.dev.conf.module →
      m ∉ s.dev.fab.pod.lostMods → (s.dev.dest m).unreachable = false →
      ∃ t z, exec (.reclaim (.ok raw)) s = .next t ∧ t.dev.fab.pod.req = some z ∧ z.reclaim = true ∧ z.todo = [m] ∧
        z.job = field (padTo 64 raw) 2 2 ∧ ∃ y ∈ t.dev.fab.msgs, y.dst = m ∧ y.op = 6 ∧
          y.data = Config.mgmtWire (.reclaim (field (padTo 64 raw) 2 2))) := by
  refine ⟨fun hj => ⟨_, exec_reclaim _ s, ?_⟩, fun hj hm hlost hu =>
    ⟨_, s.dev.reclaimReq (padTo 64 raw) m, exec_reclaim _ s, ?_⟩⟩
  · rw [State.onDev_dev, Dev.podReclaim_unknown h hb hok hj]
    rfl
  · obtain ⟨D, hD⟩ : ∃ D : Dev, D = s.dev.podTaken.setPod
      { s.dev.podTaken.fab.pod with req := some (s.dev.reclaimReq (padTo 64 raw) m) } := ⟨_, rfl⟩
    rw [State.onDev_dev, Dev.podReclaim_one h hb hok hj, ← hD,
      D.askReclaim_far (by rw [hD]; exact hm) (by rw [hD]; exact hlost), Dev.pod_sayMgmt]
    exact ⟨by rw [hD]; rfl, rfl, rfl, rfl, D.sayMgmt_mem m _ (by rw [hD]; exact hu)⟩

/-! A module that does not confirm. -/

theorem Dev.podConfirm_idle {d : Dev} (h : d.fab.pod.req = none) (job m vf : Nat) : d.podConfirm job m vf = d := by
  rw [Dev.podConfirm, h]

theorem podGivesUp (s : State) (v m : Nat) (q : PodReq) (hq : s.dev.fab.pod.req = some q) (hr : q.reclaim = true)
    (hj : q.job = v) (ht : q.todo = [m]) :
    ∃ t, exec (.podReclaimTimeout v m) s = .next t ∧ t.dev.fab.pod.req = none ∧ kfind t.dev.fab.pod.jobs v = none ∧
      (v, m) ∈ t.dev.fab.pod.owed ∧
      t.dev.out = s.dev.out ++ [.hostWrite q.result (resultBytes (q.got ++ [(m, 0)])),
        .hostWrite (s.dev.fab.pod.base + 64 * q.slot + 0x38) (leBytes 2 stPoisoned ++ leBytes 1 1 ++ repByte 3 0 ++ leBytes 2 0)] := by
  subst hj
  obtain ⟨hnone, hjobs, howed, hout⟩ := s.dev.podConfirm_last m 0 hq hr ht
  have hzero : (q.got ++ [(m, 0)]).any (fun e => e.2 == 0) = true :=
    List.any_eq_true.2 ⟨(m, 0), List.mem_append_right _ List.mem_cons_self, rfl⟩
  rw [if_pos hzero] at hout
  exact ⟨_, exec_podReclaimTimeout q.job m s, hnone, hjobs, howed rfl, hout⟩

/-- Settles O53: the registers of the ring, then an entry by its operation, its form and what the pod table says of its job. -/
theorem podRing : Obligations.PodRing := by
  unfold Obligations.PodRing
  intro s v m vf raw sp pr q l
  refine ⟨fun hl => ?_, fun h => ⟨?_, ?_⟩, fun h => ⟨⟨_, _, exec_podAdmit _ _ _ s, exec_reclaim _ s, ?_, ?_⟩,
    fun hb => ⟨?_, fun hok => ⟨_, exec_podAdmit _ _ _ s, ?_⟩, podAdmits s m raw sp pr l h hb⟩,
    fun hb => ⟨?_, fun hok => (podReclaims s m vf raw h hb hok).1, fun hok => (podReclaims s m vf raw h hb hok).2⟩⟩,
    fun h => ?_, podGivesUp s v m q⟩
  · obtain ⟨hno, hnarrow, htail⟩ := podTails s v hl
    obtain ⟨hidle, hreset⟩ := podResets s q hl
    exact ⟨hno, hnarrow, htail, hidle, hreset⟩
  · rw [exec_podAdmit]
    exact State.next_same (Dev.podAdmit_not h _ _ _)
  · rw [exec_reclaim]
    exact State.next_same (Dev.podReclaim_not h _)
  · rw [State.onDev_dev, Dev.podAdmit_failed h]
    rfl
  · rw [State.onDev_dev, Dev.podReclaim_failed h]
    rfl
  · rw [exec_reclaim]
    exact State.next_same (Dev.podReclaim_other h hb)
  · rw [State.onDev_dev, Dev.podAdmit_malformed h hb hok]
    exact ⟨rfl, rfl⟩
  · rw [exec_podAdmit]
    exact State.next_same (Dev.podAdmit_other h hb _ _)
  · rw [exec_podReclaimTimeout]
    exact State.next_same (Dev.podConfirm_idle h v m 0)

end Sys2Proof.Machine
end

section
/-!
PROOF. Heartbeats and their loss, takeover, admission and reclaim between modules (R433, R435 to R437).
-/

namespace Sys2Proof.Machine

theorem exec_heartbeatSend (s : State) : exec .heartbeatSend s = .next (s.onDev Dev.heartbeatSend) := rfl

/-- What a heartbeat does to the module that it reaches. -/
def Dev.hears (d : Dev) (src : Nat) (b : Beat) : Dev :=
  if d.fab.pod.acting then d.beatAtManager src b else d.setPod { d.fab.pod with mgrLost := false, curMgr := some src }

theorem exec_heartbeat (src msg : Nat) (b : Beat) (s : State) : exec (.heartbeat src msg b) s =
    .next (s.onDev (fun d => d.onMgmt src msg (fun d => d.hears src b))) := rfl

theorem exec_mgmt (src msg : Nat) (m : MgmtMsg) (s : State) : exec (.mgmt src msg m) s =
    .next (s.onDev (fun d => d.onMgmt src msg (fun d => d.podMsg src m))) := rfl

theorem exec_heartbeatTimeout (m : Nat) (s : State) :
    exec (.heartbeatTimeout m) s = .next (s.onDev (fun d => d.beatTimeout m)) := rfl

/-- The manager's heartbeat is lost (R437). -/
def Dev.managerSilent (d : Dev) : Dev :=
  (d.setPod { d.fab.pod with mgrLost := true }).fabEvent evManagerLost 0 0 (leBytes 1 d.manager)

theorem exec_managerHeartbeatTimeout (s : State) : exec .managerHeartbeatTimeout s = .next (s.onDev (fun d =>
    if !d.up || d.fab.pod.acting || d.fab.pod.mgrLost then d else d.managerSilent)) := rfl

/-- The job table of this module's own partitions. -/
def Dev.ownJobs (d : Dev) : KMap (List (Nat × Nat)) :=
  (d.parts.filter (fun e => e.2.job != 0)).foldl (fun m e =>
    kset m e.2.job (kget m e.2.job [] ++ [(d.conf.module, e.1)])) []

/-- The standby takes over (R437). -/
def Dev.takesOver (d : Dev) : Dev :=
  (d.setPod { d.fab.pod with acting := true, mgrLost := false, curMgr := none, beats := [], lostMods := []
                             jobs := d.ownJobs, req := none, owed := [] }).fabEvent evManagerTakeover 0 0
    (leBytes 1 d.conf.module)

theorem exec_standbyTakeover (s : State) : exec .standbyTakeover s = .next (s.onDev (fun d =>
    if d.conf.role ≠ 2 ∨ !d.fab.pod.mgrLost ∨ d.fab.pod.acting then d else d.takesOver)) := rfl

/-! Heartbeats go out. -/

theorem Dev.heartbeatSend_off {d : Dev} (h : d.up = false) : d.heartbeatSend = d := if_pos (by rw [h]; rfl)

theorem Dev.heartbeatSend_member {d : Dev} (h : d.up = true) (ha : d.fab.pod.acting = false) :
    d.heartbeatSend = d.sayMgmt d.manager (Config.beatWire d.beat) :=
  (if_neg (by rw [h]; decide)).trans (if_neg (by rw [ha]; decide))

theorem Dev.heartbeatSend_manager {d : Dev} (h : d.up = true) (ha : d.fab.pod.acting = true) : d.heartbeatSend =
    (List.range 256).foldl (fun d m => if m = d.conf.module then d else d.sayMgmt m (Config.beatWire d.beat)) d :=
  (if_neg (by rw [h]; decide)).trans (if_pos ha)

theorem heartbeatsSent (s : State) (h : s.dev.up = true) :
    (s.dev.fab.pod.acting = false → (s.dev.dest s.dev.manager).unreachable = false → ∃ t, exec .heartbeatSend s = .next t ∧
      ∃ z ∈ t.dev.fab.msgs, z.dst = s.dev.manager ∧ z.op = 6 ∧ z.data = Config.beatWire s.dev.beat) ∧
    (s.dev.fab.pod.acting = true → ∃ t, exec .heartbeatSend s = .next t ∧ ∀ k, k < 256 → k ≠ s.dev.conf.module →
      (s.dev.dest k).unreachable = false → ∃ z ∈ t.dev.fab.msgs, z.dst = k ∧ z.op = 6) := by
  refine ⟨fun ha hu => ⟨_, exec_heartbeatSend s, ?_⟩, fun ha => ⟨_, exec_heartbeatSend s, ?_⟩⟩
  · rw [State.onDev_dev, Dev.heartbeatSend_member h ha]
    exact s.dev.sayMgmt_mem _ _ hu
  · rw [State.onDev_dev, Dev.heartbeatSend_manager h ha]
    intro k hk hne hu
    exact (Dev.beats_out s.dev.conf.module (fun d => Config.beatWire d.beat) (List.range 256) s.dev rfl).2 k
      (List.mem_range.2 hk) hne hu

/-! A heartbeat arrives. -/

/-- The device once a management message is committed and acknowledged. -/
def Dev.mgmtTaken (d : Dev) (src msg : Nat) : Dev := (d.commitMsg src msg).sayAck src msg

theorem Dev.mgmtTaken_facts (d : Dev) (src msg : Nat) : (d.mgmtTaken src msg).fab.pod = d.fab.pod ∧
    (d.mgmtTaken src msg).arrived src msg 6 = none ∧ (d.mgmtTaken src msg).parts = d.parts :=
  ⟨Dev.pod_sayAck d src msg, (d.acked_gone src msg 6).1, (Dev.sent_sayCtl (d.commitMsg src msg) _ _ _).parts⟩

/-- What the modules of a heartbeat still owe, and the jobs that it reports beside those. -/
def Pod.heldBy (x : Pod) (src : Nat) (b : Beat) : List (Nat × Nat) :=
  b.jobs.filter (fun e => e.2 != 0 && !(x.owed.filter (fun e => e.2 == src)).any (fun o => o.1 == e.2))

/-- The pod as the manager knows it after a heartbeat (R433, R436, R437). -/
def Pod.afterBeat (x : Pod) (src : Nat) (b : Beat) : Pod :=
  { x with beats := kset x.beats src b, lostMods := x.lostMods.filter (· != src), owed := x.owed.filter (fun e => e.2 != src)
           jobs := (x.heldBy src b).foldl (fun m e =>
             let l := kget m e.2 []
             if l.any (fun z => z.1 == src) then m else kset m e.2 (l ++ [(src, e.1)])) x.jobs }

theorem Dev.beatAtManager_facts (d : Dev) (src : Nat) (b : Beat) :
    (d.beatAtManager src b).fab.pod = d.fab.pod.afterBeat src b ∧ (d.beatAtManager src b).fab.srcs = d.fab.srcs := by
  obtain ⟨hpod, hsrcs⟩ := Dev.sayMgmts_pod src (fun e => Config.mgmtWire (.reclaim e.1))
    (d.fab.pod.owed.filter (fun e => e.2 == src)) (d.setPod (d.fab.pod.afterBeat src b))
  exact ⟨hpod, hsrcs⟩

/-- A job that a heartbeat reports for the first time stands in the table (R437). -/
theorem Pod.jobs_afterBeat {x : Pod} {src p job : Nat} {b : Beat} (hb : b.jobs = [(p, job)]) (h0 : job ≠ 0)
    (ho : ∀ e ∈ x.owed, e.2 ≠ src) (hj : ∀ e ∈ kget x.jobs job [], e.1 ≠ src) :
    (src, p) ∈ kget (x.afterBeat src b).jobs job [] := by
  have howed : x.owed.filter (fun e => e.2 == src) = [] := by
    rw [List.filter_eq_nil_iff]
    exact fun e he hk => ho e he (beq_iff_eq.1 hk)
  have hheld : x.heldBy src b = [(p, job)] := by simp [Pod.heldBy, hb, howed, h0]
  have hnew : ¬ (kget x.jobs job []).any (fun z => z.1 == src) = true := by
    rw [List.any_eq_true]
    rintro ⟨e, he, hk⟩
    exact hj e he (beq_iff_eq.1 hk)
  rw [Pod.afterBeat, hheld]
  dsimp only [List.foldl_cons, List.foldl_nil]
  rw [if_neg hnew, kget_kset_self]
  exact List.mem_append_right _ List.mem_cons_self

theorem Dev.hears_manager {d : Dev} (h : d.fab.pod.acting = true) (src : Nat) (b : Beat) :
    d.hears src b = d.beatAtManager src b := if_pos h

theorem Dev.hears_member {d : Dev} (h : d.fab.pod.acting = false) (src : Nat) (b : Beat) :
    d.hears src b = d.setPod { d.fab.pod with mgrLost := false, curMgr := some src } := if_neg (by rw [h]; decide)

/-- A heartbeat that has come leads the module to what it hears of it. -/
theorem Dev.heartbeat_taken {d : Dev} {src msg : Nat} (h : d.arrived src msg 6 ≠ none) (b : Beat) :
    d.onMgmt src msg (fun d => d.hears src b) = (d.mgmtTaken src msg).hears src b := Dev.onMgmt_some d h _

theorem heartbeatHeard (s : State) (src msg p job : Nat) (b : Beat) (h : s.dev.arrived src msg 6 ≠ none) :
    (s.dev.fab.pod.acting = false → ∃ t, exec (.heartbeat src msg b) s = .next t ∧
      t.dev.fab.pod = { s.dev.fab.pod with mgrLost := false, curMgr := some src } ∧ t.dev.arrived src msg 6 = none) ∧
    (s.dev.fab.pod.acting = true → ∃ t, exec (.heartbeat src msg b) s = .next t ∧ kfind t.dev.fab.pod.beats src = some b ∧
      src ∉ t.dev.fab.pod.lostMods ∧ (∀ e ∈ t.dev.fab.pod.owed, e.2 ≠ src) ∧ t.dev.arrived src msg 6 = none) ∧
    (s.dev.fab.pod.acting = true → b.jobs = [(p, job)] → job ≠ 0 → (∀ e ∈ s.dev.fab.pod.owed, e.2 ≠ src) →
      (∀ e ∈ kget s.dev.fab.pod.jobs job [], e.1 ≠ src) → ∃ t, exec (.heartbeat src msg b) s = .next t ∧
      (src, p) ∈ kget t.dev.fab.pod.jobs job []) := by
  obtain ⟨hpod, hgone, _⟩ := s.dev.mgmtTaken_facts src msg
  obtain ⟨hafter, hsrcs⟩ := (s.dev.mgmtTaken src msg).beatAtManager_facts src b
  rw [hpod] at hafter
  refine ⟨fun ha => ⟨_, exec_heartbeat src msg b s, ?_⟩, fun ha => ⟨_, exec_heartbeat src msg b s, ?_⟩,
    fun ha hb h0 ho hj => ⟨_, exec_heartbeat src msg b s, ?_⟩⟩
  · rw [State.onDev_dev, Dev.heartbeat_taken h, Dev.hears_member (by rw [hpod]; exact ha), hpod]
    exact ⟨rfl, hgone⟩
  · rw [State.onDev_dev, Dev.heartbeat_taken h, Dev.hears_manager (by rw [hpod]; exact ha), hafter]
    exact ⟨kfind_kset_self .., not_mem_filter_ne _ _, fun e he => bne_iff_ne.1 (List.mem_filter.1 he).2,
      (Dev.arrived_of hsrcs src msg 6).trans hgone⟩
  · rw [State.onDev_dev, Dev.heartbeat_taken h, Dev.hears_manager (by rw [hpod]; exact ha), hafter]
    exact Pod.jobs_afterBeat hb h0 ho hj

/-! Admission and reclaim on request. -/

theorem Dev.mgmt_taken {d : Dev} {src msg : Nat} (h : d.arrived src msg 6 ≠ none) (m : MgmtMsg) :
    d.onMgmt src msg (fun d => d.podMsg src m) = (d.mgmtTaken src msg).podMsg src m := Dev.onMgmt_some d h _

theorem Dev.podMsg_admits {d e : Dev} {src job p : Nat} {spec : Bytes} (hf : d.freeVf = some p)
    (ha : d.admitPart p (padTo 512 spec) job = .inl e) :
    d.podMsg src (.enrol job spec) = e.sayMgmt src (Config.mgmtWire (.admitted job p)) := by
  rw [Dev.podMsg, Dev.localAdmit, hf]
  dsimp only
  rw [ha]

theorem Dev.podMsg_refuses {d : Dev} {src job p st : Nat} {spec : Bytes} (hf : d.freeVf = some p)
    (ha : d.admitPart p (padTo 512 spec) job = .inr st) :
    d.podMsg src (.enrol job spec) = d.sayMgmt src (Config.mgmtWire (.admitRefused job st)) := by
  rw [Dev.podMsg, Dev.localAdmit, hf]
  dsimp only
  rw [ha]

theorem enrols (s : State) (src msg p job st : Nat) (spec : Bytes) (d1 : Dev) (h : s.dev.arrived src msg 6 ≠ none)
    (hd : d1 = (s.dev.commitMsg src msg).sayAck src msg) (hf : d1.freeVf = some p) :
    (∀ e, d1.admitPart p (padTo 512 spec) job = .inl e → (e.dest src).unreachable = false →
      ∃ t, exec (.mgmt src msg (.enrol job spec)) s = .next t ∧ t.dev.part p = e.part p ∧
        ∃ z ∈ t.dev.fab.msgs, z.dst = src ∧ z.op = 6 ∧ z.data = Config.mgmtWire (.admitted job p)) ∧
    (d1.admitPart p (padTo 512 spec) job = .inr st → (d1.dest src).unreachable = false →
      ∃ t, exec (.mgmt src msg (.enrol job spec)) s = .next t ∧ t.dev.parts = s.dev.parts ∧
        ∃ z ∈ t.dev.fab.msgs, z.dst = src ∧ z.op = 6 ∧ z.data = Config.mgmtWire (.admitRefused job st)) := by
  obtain rfl : d1 = s.dev.mgmtTaken src msg := hd
  obtain ⟨_, _, hparts⟩ := s.dev.mgmtTaken_facts src msg
  refine ⟨fun e ha hu => ⟨_, exec_mgmt src msg _ s, ?_⟩, fun ha hu => ⟨_, exec_mgmt src msg _ s, ?_⟩⟩
  · rw [State.onDev_dev, Dev.mgmt_taken h, Dev.podMsg_admits hf ha, Dev.part, (Dev.sent_sayMgmt _ _ _).parts]
    exact ⟨rfl, e.sayMgmt_mem src _ hu⟩
  · rw [State.onDev_dev, Dev.mgmt_taken h, Dev.podMsg_refuses hf ha, (Dev.sent_sayMgmt _ _ _).parts]
    exact ⟨hparts, Dev.sayMgmt_mem _ src _ hu⟩

theorem reclaimed (s : State) (src msg job : Nat) (q : PodReq) (h : s.dev.arrived src msg 6 ≠ none)
    (hq : s.dev.fab.pod.req = some q) (hr : q.reclaim = true) (hj : q.job = job) (ht : q.todo = [src])
    (hall : ∀ e ∈ q.got, e.2 ≠ 0) (hvf : s.dev.fab.pod.vfOf job src ≠ 0) :
    ∃ t, exec (.mgmt src msg (.reclaimed job)) s = .next t ∧ t.dev.fab.pod.req = none ∧
      kfind t.dev.fab.pod.jobs job = none ∧
      .hostWrite (s.dev.fab.pod.base + 64 * q.slot + 0x38) (leBytes 2 stSuccess ++ leBytes 1 1 ++ repByte 3 0 ++ leBytes 2 0)
        ∈ t.dev.out := by
  subst hj
  obtain ⟨hpod, _, _⟩ := s.dev.mgmtTaken_facts src msg
  obtain ⟨hnone, hjobs, _, hout⟩ := (s.dev.mgmtTaken src msg).podConfirm_last src (s.dev.fab.pod.vfOf q.job src)
    (by rw [hpod]; exact hq) hr ht
  have hgood : ¬ (q.got ++ [(src, s.dev.fab.pod.vfOf q.job src)]).any (fun e => e.2 == 0) = true := by
    rw [List.any_eq_true]
    rintro ⟨e, he, hk⟩
    rcases List.mem_append.1 he with he | he
    · exact hall e he (beq_iff_eq.1 hk)
    · obtain rfl := List.mem_singleton.1 he
      exact hvf (beq_iff_eq.1 hk)
  rw [if_neg hgood, hpod] at hout
  have hrun : (s.dev.mgmtTaken src msg).podMsg src (.reclaimed q.job) =
      (s.dev.mgmtTaken src msg).podConfirm q.job src (s.dev.fab.pod.vfOf q.job src) := by rw [Dev.podMsg, hpod]
  refine ⟨_, exec_mgmt src msg _ s, ?_⟩
  rw [State.onDev_dev, Dev.mgmt_taken h, hrun, hout]
  exact ⟨hnone, hjobs, List.mem_append_right _ (List.mem_cons_of_mem _ List.mem_cons_self)⟩

/-! The loss of a heartbeat. -/

theorem Dev.beatTimeout_not {d : Dev} {m : Nat} (h : d.fab.pod.acting = false ∨ kfind d.fab.pod.beats m = none ∨
    m ∈ d.fab.pod.lostMods) : d.beatTimeout m = d := by
  refine if_pos ?_
  rcases h with h | h | h
  · rw [h]
    rfl
  · rw [h]
    simp
  · simp [h]

/-- The pod once the manager has lost a module (R433). -/
def Pod.without (x : Pod) (m : Nat) : Pod := { x with beats := kdel x.beats m, lostMods := insertSorted m x.lostMods }

theorem Dev.beatTimeout_loses {d : Dev} {m : Nat} {b : Beat} (ha : d.fab.pod.acting = true)
    (hb : kfind d.fab.pod.beats m = some b) (hl : m ∉ d.fab.pod.lostMods) (hq : d.fab.pod.req = none) :
    d.beatTimeout m = (d.setPod (d.fab.pod.without m)).fabEvent evModuleLost 0 0 (leBytes 1 m) := by
  have hreq : ((d.setPod (d.fab.pod.without m)).fabEvent evModuleLost 0 0 (leBytes 1 m)).fab.pod.req = none := by
    rw [(Dev.reports_fabEvent _ _ _ _ _).fab]
    exact hq
  refine (if_neg (by simp [ha, hb, hl])).trans ?_
  dsimp only
  split
  next q' hq' => rw [Pod.without] at hreq; rw [hreq] at hq'; cases hq'
  next => rfl

theorem moduleLost (s : State) (m : Nat) (b : Beat) (ha : s.dev.fab.pod.acting = true)
    (hb : kfind s.dev.fab.pod.beats m = some b) (hl : m ∉ s.dev.fab.pod.lostMods) (hq : s.dev.fab.pod.req = none) :
    ∃ t, exec (.heartbeatTimeout m) s = .next t ∧ m ∈ t.dev.fab.pod.lostMods ∧
      kfind t.dev.fab.pod.beats m = none ∧ t.dev.fab.pod.jobs = s.dev.fab.pod.jobs := by
  refine ⟨_, exec_heartbeatTimeout m s, ?_⟩
  rw [State.onDev_dev, Dev.beatTimeout_loses ha hb hl hq, (Dev.reports_fabEvent _ _ _ _ _).fab]
  exact ⟨mem_insertSorted_self _ _, kfind_kdel_self _ _, rfl⟩

theorem managerLost (s : State) (hu : s.dev.up = true) (ha : s.dev.fab.pod.acting = false)
    (hm : s.dev.fab.pod.mgrLost = false) :
    ∃ t, exec .managerHeartbeatTimeout s = .next t ∧ t.dev.fab.pod = { s.dev.fab.pod with mgrLost := true } ∧
      t.dev.parts = s.dev.parts ∧ t.dev.fab.wins = s.dev.fab.wins := by
  refine ⟨_, exec_managerHeartbeatTimeout s, ?_⟩
  rw [State.onDev_dev, if_neg (by rw [hu, ha, hm]; decide), Dev.managerSilent, (Dev.reports_fabEvent _ _ _ _ _).fab,
    (Dev.reports_fabEvent _ _ _ _ _).parts]
  exact ⟨rfl, rfl, rfl⟩

theorem standbyTakesOver (s : State) (hr : s.dev.conf.role = 2) (hm : s.dev.fab.pod.mgrLost = true)
    (ha : s.dev.fab.pod.acting = false) : ∃ t, exec .standbyTakeover s = .next t ∧
      t.dev.fab.pod.acting = true ∧ t.dev.fab.pod.mgrLost = false ∧ t.dev.fab.pod.req = none ∧
      ∀ e ∈ s.dev.parts, e.2.job ≠ 0 → (s.dev.conf.module, e.1) ∈ kget t.dev.fab.pod.jobs e.2.job [] := by
  refine ⟨_, exec_standbyTakeover s, ?_⟩
  rw [State.onDev_dev, if_neg (by rw [hm, ha]; simp [hr]), Dev.takesOver, (Dev.reports_fabEvent _ _ _ _ _).fab]
  exact ⟨rfl, rfl, rfl, fun e he hj => (jobs_fold s.dev.conf.module _ []).2 e
    (List.mem_filter.2 ⟨he, bne_iff_ne.2 hj⟩)⟩

/-- Settles O54: each message by the role of the module that it reaches, and the loss of a heartbeat by whose it was. -/
theorem podMessages : Obligations.PodMessages := by
  unfold Obligations.PodMessages
  intro s src msg m p job st b x q spec d1
  refine ⟨fun h => ?_, heartbeatsSent s, fun h c => ⟨?_, ?_⟩, fun h => ?_, fun h => ?_,
    moduleLost s m b, managerLost s, fun h => ?_, standbyTakesOver s, fun h => ?_⟩
  · rw [exec_heartbeatSend]
    exact State.next_same (Dev.heartbeatSend_off h)
  · rw [exec_heartbeat]
    exact State.next_same (Dev.onMgmt_none _ h _)
  · rw [exec_mgmt]
    exact State.next_same (Dev.onMgmt_none _ h _)
  · obtain ⟨hmember, hmanager, hjobs⟩ := heartbeatHeard s src msg p job b h
    exact ⟨hmember, hmanager, hjobs, enrols s src msg p job st spec d1 h, reclaimed s src msg job q h⟩
  · rw [exec_heartbeatTimeout]
    exact State.next_same (Dev.beatTimeout_not h)
  · rw [exec_managerHeartbeatTimeout]
    exact State.next_same (if_pos (by rcases h with h | h | h <;> rw [h] <;> simp))
  · rw [exec_standbyTakeover]
    exact State.next_same (if_pos (h.imp_right (Or.imp_left (fun hn => by rw [hn]; rfl))))

end Sys2Proof.Machine
end

section
/-!
PROOF. The residue checker's expectation is the sum of the array's deltas, summed in another order; and the accumulator's
range is the number of its terms times their largest size.
-/
namespace Sys2Proof.Machine

theorem isum_mul_right (n : Nat) (a : Int) (f : Nat → Int) : isum n (fun i => f i * a) = isum n f * a := by
  rw [Int.mul_comm, ← isum_mul]
  exact isum_congr (fun i _ => Int.mul_comm _ _)

/-- One block of the residue: the sum over the columns of the block's dot products, each at its column's shift. -/
theorem residue_block (q : QRow) (t : Tile) (n kt b : Nat) (low : Bool) (wsh : Nat → Nat → Nat) (hb : b < 8)
    (hs : ∀ k, k < 256 → t.sum k = isum 256 (fun c => t.w n low k c * (2 ^ wsh c (k / 32) : Nat))) :
    isum 32 (fun i => q.q.getD (256 * kt + (32 * b + i)) 0 * t.sum (32 * b + i) *
        (2 ^ (q.x.getD (8 * kt + (32 * b + i) / 32) q.fl - q.fl) : Nat)) =
      isum 256 (fun c => isum 32 (fun i => q.q.getD (256 * kt + 32 * b + i) 0 * t.w n low (32 * b + i) c) *
        (2 ^ ((q.x.getD (8 * kt + b) q.fl - q.fl) + wsh c b) : Nat)) := by
  have hterm : ∀ i, i < 32 → q.q.getD (256 * kt + (32 * b + i)) 0 * t.sum (32 * b + i) *
        (2 ^ (q.x.getD (8 * kt + (32 * b + i) / 32) q.fl - q.fl) : Nat) =
      isum 256 (fun c => q.q.getD (256 * kt + 32 * b + i) 0 * t.w n low (32 * b + i) c *
        (2 ^ ((q.x.getD (8 * kt + b) q.fl - q.fl) + wsh c b) : Nat)) := by
    intro i hi
    have hdiv : (32 * b + i) / 32 = b := by omega
    rw [hs _ (by omega), hdiv, ← isum_mul, ← isum_mul_right, ← Nat.add_assoc]
    refine isum_congr (fun c _ => ?_)
    rw [Nat.pow_add]
    push_cast
    ring
  rw [isum_congr hterm, isum_swap]
  exact isum_congr (fun c _ => isum_mul_right 32 _ _)

theorem residueOf_eq (q : QRow) (t : Tile) (n kt : Nat) (low : Bool) (wsh : Nat → Nat → Nat)
    (hs : ∀ k, k < 256 → t.sum k = isum 256 (fun c => t.w n low k c * (2 ^ wsh c (k / 32) : Nat))) :
    residueOf q t kt = isum 256 (fun c => dotDelta q t n low (wsh c) kt c) := by
  calc residueOf q t kt
      = isum 8 (fun b => isum 32 (fun i => q.q.getD (256 * kt + (32 * b + i)) 0 * t.sum (32 * b + i) *
          (2 ^ (q.x.getD (8 * kt + (32 * b + i) / 32) q.fl - q.fl) : Nat))) :=
        isum_blocks 8 32 (fun k => q.q.getD (256 * kt + k) 0 * t.sum k * (2 ^ (q.x.getD (8 * kt + k / 32) q.fl - q.fl) : Nat))
    _ = isum 8 (fun b => isum 256 (fun c => isum 32 (fun i => q.q.getD (256 * kt + 32 * b + i) 0 * t.w n low (32 * b + i) c) *
          (2 ^ ((q.x.getD (8 * kt + b) q.fl - q.fl) + wsh c b) : Nat))) :=
        isum_congr (fun b hb => residue_block q t n kt b low wsh hb hs)
    _ = isum 256 (fun c => dotDelta q t n low (wsh c) kt c) := isum_swap 8 256 _

/-- The delta of one tile: 256 products of at most 127 by 128, each at most 16 places up. -/
theorem dotDelta_abs (q : QRow) (t : Tile) (n kt c : Nat) (low : Bool) (wsh : Nat → Nat)
    (hq : ∀ i, (q.q.getD i 0).natAbs ≤ 127) (hw : ∀ k, (t.w n low k c).natAbs ≤ 128)
    (hx : ∀ b, b < 8 → (q.x.getD (8 * kt + b) q.fl - q.fl) + wsh b ≤ 16) :
    (dotDelta q t n low wsh kt c).natAbs ≤ 8 * (32 * (127 * 128) * 2 ^ 16) := by
  rw [dotDelta_eq]
  refine isum_abs 8 _ _ (fun b hb => ?_)
  rw [Int.natAbs_mul, Int.natAbs_natCast]
  refine Nat.mul_le_mul (isum_abs 32 _ _ (fun i _ => ?_)) (Nat.pow_le_pow_right (by decide) (hx b hb))
  rw [Int.natAbs_mul]
  exact Nat.mul_le_mul (hq _) (hw _)

/-- Settles O59: the residue by exchanging the sums over rows and columns; the range by counting the terms of the sum. -/
theorem arrayExact : Obligations.ArrayExact := by
  refine ⟨fun j q t n kt low fw hs => residueOf_eq q t n kt low (j.wshift t fw) hs, ?_⟩
  intro j q ts n c m low fw hm hq hw hx
  have htile : ∀ kt, kt < m → (dotDelta q (ts kt) n low (j.wshift (ts kt) fw c) kt c).natAbs ≤ 8 * (32 * (127 * 128) * 2 ^ 16) :=
    fun kt _ => dotDelta_abs q (ts kt) n kt c low _ hq (hw kt) (hx kt)
  calc (isum m (fun kt => dotDelta q (ts kt) n low (j.wshift (ts kt) fw c) kt c)).natAbs
      ≤ m * (8 * (32 * (127 * 128) * 2 ^ 16)) := isum_abs m _ _ htile
    _ ≤ 256 * (8 * (32 * (127 * 128) * 2 ^ 16)) := Nat.mul_le_mul_right _ hm
    _ < 2 ^ 46 := by decide

end Sys2Proof.Machine
end

section
/-!
PROOF. What the quantizer leaves of each block, from what its two sweeps and its floor do; and stochastic rounding, as
the carry out of the low 16 bits.
-/
namespace Sys2Proof.Machine

theorem b2n_bit31 (x : Nat) (hx : x < 2 ^ 32) : b2n (bit x 31) = x / 2 ^ 31 := by
  unfold b2n bit
  have h2 : x / 2 ^ 31 = 0 ∨ x / 2 ^ 31 = 1 := by omega
  rcases h2 with h | h <;> rw [h] <;> rfl

/-- Block exponents: 0xFF of a non-finite block, the floor of a zero one, and within 8 of the floor otherwise. -/
theorem Blk.exp_range (l : List Blk) (h : ∀ b ∈ l, ∀ xb a, b = .fin xb a → xb ≤ 254) (b : Blk) (hb : b ∈ l) :
    (b.exp (floorOf l) = 0xFF ∧ l.any (· == .nonfinite) = true) ∨
      (floorOf l ≤ b.exp (floorOf l) ∧ b.exp (floorOf l) ≤ floorOf l + 8 ∧ b.exp (floorOf l) ≤ 254) := by
  obtain ⟨hfl, hspec⟩ := floorOf_spec l h
  cases b with
  | nonfinite => exact .inl ⟨rfl, List.any_eq_true.2 ⟨_, hb, rfl⟩⟩
  | zero => exact .inr ⟨Nat.le_refl _, Nat.le_add_right _ _, hfl⟩
  | fin xb a =>
    have h8 := hspec _ hb xb a rfl
    have h254 := h _ hb xb a rfl
    refine .inr ⟨Nat.le_max_right _ _, ?_, ?_⟩
    · show max xb (floorOf l) ≤ _
      omega
    · show max xb (floorOf l) ≤ _
      omega

theorem sweep1_blocks (p : QuantP) (ls : List (List F32)) :
    ∀ b ∈ (ls.map (sweep1 p)).map (·.1), ∃ xs, b = (sweep1 p xs).1 := by
  intro b hb
  obtain ⟨z, hz, rfl⟩ := List.mem_map.1 hb
  obtain ⟨xs, _, rfl⟩ := List.mem_map.1 hz
  exact ⟨xs, rfl⟩

/-- The row of the elements `bs` under the blocks `blks`. -/
def quantOf (three : Bool) (blks : List Blk) (bs : List (List F32)) : QRow :=
  { x := blks.map (Blk.exp (floorOf blks)), a4 := blks.map Blk.a4,
    q := ((bs.zip blks).map (fun z => sweep2 three (floorOf blks) z.2 z.1)).flatMap (·.1),
    fl := floorOf blks, nan := blks.any (· == .nonfinite) }

/-- A row that the quantizer gives is that of one of its parts, under blocks that sweep 1 gave. -/
theorem quantRow_rows (p : QuantP) (parts : List (List F32)) (r : QRow) (hr : r ∈ (quantRow p parts).1) :
    ∃ blks bs, (∀ b ∈ blks, ∃ xs, b = (sweep1 p xs).1) ∧ r = quantOf p.three blks bs := by
  obtain ⟨row, hrow, rfl⟩ := List.mem_map.1 hr
  obtain ⟨bs, _, rfl⟩ := List.mem_map.1 hrow
  refine ⟨_, bs, ?_, rfl⟩
  intro b hb
  obtain ⟨z, hz, rfl⟩ := List.mem_map.1 hb
  obtain ⟨i, _, rfl⟩ := List.mem_map.1 hz
  exact ⟨_, rfl⟩

theorem quantOf_mem (three : Bool) (blks : List Blk) (bs : List (List F32)) (v : Int) (hv : v ∈ (quantOf three blks bs).q) :
    ∃ b ∈ blks, ∃ xs, v ∈ (sweep2 three (floorOf blks) b xs).1 := by
  obtain ⟨w, hw, hv⟩ := List.mem_flatMap.1 hv
  obtain ⟨z, hz, rfl⟩ := List.mem_map.1 hw
  exact ⟨z.2, (List.of_mem_zip hz).2, z.1, hv⟩

theorem quantRow_range (p : QuantP) (parts : List (List F32)) (r : QRow) (hr : r ∈ (quantRow p parts).1) :
    (∀ v ∈ r.q, -127 ≤ v ∧ v ≤ 127) ∧ (p.mode = 2 → p.three = false → ∀ v ∈ r.q, -7 ≤ v ∧ v ≤ 7) ∧
    (∀ x ∈ r.x, (x = 0xFF ∧ r.nan = true) ∨ (r.fl ≤ x ∧ x ≤ r.fl + 8 ∧ x ≤ 254)) := by
  obtain ⟨blks, bs, hblks, rfl⟩ := quantRow_rows p parts r hr
  have hxb : ∀ b ∈ blks, ∀ xb a, b = .fin xb a → xb ≤ 254 := by
    intro b hb xb a he
    obtain ⟨xs, rfl⟩ := hblks b hb
    exact sweep1_xb p xs xb a he
  refine ⟨fun v hv => ?_, fun hm h3 v hv => ?_, fun x hx => ?_⟩
  · obtain ⟨b, _, xs, hv⟩ := quantOf_mem p.three blks bs v hv
    exact (sweep2_range p.three _ b xs v hv).1
  · obtain ⟨b, hb, xs, hv⟩ := quantOf_mem p.three blks bs v hv
    obtain ⟨ys, rfl⟩ := hblks b hb
    exact (sweep2_range p.three _ _ xs v hv).2 h3 (sweep1_a4 p ys hm h3)
  · obtain ⟨b, hb, rfl⟩ := List.mem_map.1 hx
    exact Blk.exp_range blks hxb b hb

theorem srBf16_nan (x : Nat) (h : f32IsNaN x = true) (r : Nat) : srBf16 x r = 0x7FC0 := if_pos h

theorem srBf16_inf (x : Nat) (h : f32IsInf x = true) (r : Nat) : srBf16 x r = x / 65536 := by
  have hnan : f32IsNaN x = false := by
    unfold f32IsInf at h
    unfold f32IsNaN
    split at h
    next heq => rw [heq]; rfl
    next => exact absurd h Bool.false_ne_true
  exact (if_neg (by rw [hnan]; exact Bool.false_ne_true)).trans (if_pos h)

/-- A finite value: its upper half, plus the carry of the low half and the random value, at most the greatest finite. -/
theorem srBf16_finite (x : Nat) (hx : x < 2 ^ 32) (h : f32IsFinite x = true) (r : Nat) (hr : r < 65536) :
    srBf16 x r = min (x / 65536 % 32768 + (if 65536 ≤ x % 65536 + r then 1 else 0)) 0x7F7F + x / 2 ^ 31 * 32768 := by
  obtain ⟨hnan, hinf⟩ := f32_finite_not x h
  have hexp : x / 2 ^ 23 % 256 ≠ 255 := f32_finite x h
  have hhalf : (x % 2 ^ 31 + r % 65536) / 65536 = x / 65536 % 32768 + (if 65536 ≤ x % 65536 + r then 1 else 0) := by
    split <;> omega
  have hmax : x / 65536 % 32768 + (if 65536 ≤ x % 65536 + r then 1 else 0) ≤ 0x7F80 := by
    split <;> omega
  unfold srBf16
  rw [if_neg (by rw [hnan]; exact Bool.false_ne_true), if_neg (by rw [hinf]; exact Bool.false_ne_true)]
  dsimp only
  rw [hhalf, b2n_bit31 x hx, Nat.add_comm]
  generalize x / 65536 % 32768 + (if 65536 ≤ x % 65536 + r then 1 else 0) = hi at hmax ⊢
  congr 1
  split <;> omega

/-- Below the greatest finite value, the result is the next one exactly where the carry comes. -/
theorem srBf16_up (x : Nat) (hx : x < 2 ^ 32) (h : f32IsFinite x = true) (hlt : x / 65536 % 32768 < 0x7F7F) (r : Nat) (hr : r < 65536) :
    (srBf16 x r == x / 65536 + 1) = decide (65536 - x % 65536 ≤ r) := by
  rw [srBf16_finite x hx h r hr, Bool.eq_iff_iff, beq_iff_eq, decide_eq_true_iff]
  split <;> omega

/-- Settles O60: the ranges block by block; the count as the number of values at or above the carry's threshold. -/
theorem roundingExact : Obligations.RoundingExact := by
  refine ⟨quantRow_range, fun x hx => ⟨srBf16_nan x, srBf16_inf x, fun h => ⟨srBf16_finite x hx h, fun hlt => ?_⟩⟩⟩
  rw [List.filter_congr (fun r hr => srBf16_up x hx h hlt r (List.mem_range.1 hr)), filter_range_ge]
  omega

end Sys2Proof.Machine
end

section
/-!
PROOF. A step's command and the tick of an empty queue; and the register writes, each through the branch of the bus write
that its offset takes.
-/
namespace Sys2Proof.Machine

/-- A table made of one entry for each of the keys `l`. -/
theorem kfind_of_keys {α : Type} (g : Nat → α) : ∀ (l : List Nat) (k : Nat), k ∈ l → kfind (l.map (fun d => (d, g d))) k = some (g k)
  | [], _, h => (by cases h)
  | a :: l, k, h => by
    by_cases hk : a = k
    · rw [← hk]; exact if_pos rfl
    · exact (if_neg hk).trans (kfind_of_keys g l k ((List.mem_cons.1 h).resolve_left (fun e => hk e.symm)))

theorem kget_tickAo (m : KMap Nat) (k : Nat) (hk : k < 23) : kget (tickAo m) k 0 = kget m k 0 + 1 := by
  unfold kget tickAo
  rw [kfind_of_keys (fun d => kget m d 0 + 1) dieCodes k (List.mem_range.2 hk)]
  rfl

/-- Settles O55: by the definition of the step; that every command answers is shown command by command. -/
theorem stepRunsCommand : Obligations.StepRunsCommand := by
  intro s c rest
  refine ⟨rfl, fun hp => ⟨tick s, ?_, hp, fun k hk => kget_tickAo _ k hk, rfl⟩, exec_next c s, fun _ _ => rfl⟩
  unfold step
  rw [hp]

/-- A 32-bit write where no 64-bit register responds, in either half. -/
theorem Dev.writeWord_plain (d : Dev) {f off : Nat} (v : Nat) (b : Bool) (h0 : d.reg64 f off = none)
    (h4 : off % 8 = 4 → d.reg64 f (off - 4) = none) : d.writeWord f off v b = d.write32 f off v b := by
  unfold Dev.writeWord
  rw [h0, if_neg (by rw [Option.isSome_none]; exact Bool.false_ne_true)]
  by_cases h : off % 8 = 4
  · rw [if_pos h, h4 h]
  · rw [if_neg h]

/-- The low half of a 64-bit register is held. -/
theorem Dev.writeWord_low (d : Dev) {f off cur : Nat} (v : Nat) (b : Bool) (h : d.reg64 f off = some cur) :
    d.writeWord f off v b = d.modFn f (fun x => { x with lowHeld := kset x.lowHeld off v }) :=
  if_pos (by rw [h]; rfl)

/-- The high half writes the register, with the low half that is held. -/
theorem Dev.writeWord_high (d : Dev) {f off cur : Nat} (v : Nat) (b : Bool) (h0 : d.reg64 f off = none) (h8 : off % 8 = 4)
    (h4 : d.reg64 f (off - 4) = some cur) : d.writeWord f off v b =
      (d.modFn f (fun x => { x with lowHeld := kdel x.lowHeld (off - 4) })).put64 f (off - 4)
        (2 ^ 32 * v + kget (d.fn f).lowHeld (off - 4) (cur % 2 ^ 32)) := by
  unfold Dev.writeWord
  rw [h0, if_neg (by rw [Option.isSome_none]; exact Bool.false_ne_true), if_pos h8, h4]

theorem Dev.busWrite_word (d : Dev) (f off v : Nat) (h : off % 4 = 0) :
    d.busWrite f off 4 v = d.writeWord f off (v % 2 ^ 32) true := if_pos ⟨rfl, h⟩

theorem Dev.busWrite_other (d : Dev) {f off w v : Nat} (h4 : ¬ (w = 4 ∧ off % 4 = 0)) (h8 : ¬ (w = 8 ∧ off % 8 = 0)) :
    d.busWrite f off w v = d := (if_neg h4).trans (if_neg h8)

/-- The device blocks have no 64-bit register for a virtual function. -/
theorem Dev.reg64_virtual (d : Dev) {f off : Nat} (hf : f ≠ 0) (h : 0x10000 ≤ off) : d.reg64 f off = none := by
  unfold Dev.reg64
  dsimp only
  rw [if_neg (by omega), if_neg (by omega), if_neg (by omega), if_neg (by omega), if_neg (by omega), if_pos hf]

/-- Below the event ring the admin rings' bases are the only 64-bit registers. -/
theorem Dev.reg64_admin (d : Dev) (f : Nat) {off : Nat} (h1 : off < 0x200) (h2 : off ≠ 0x10) (h3 : off ≠ 0x18) : d.reg64 f off = none := by
  unfold Dev.reg64
  dsimp only
  rw [if_neg h2, if_neg h3, if_neg (by omega), if_neg (by omega), if_neg (by omega)]
  split
  · rfl
  · rw [if_neg (by omega), if_neg (by omega), if_neg (by omega)]

theorem Dev.busWrite_virtual (d : Dev) {f off : Nat} (v : Nat) (hf : f ≠ 0) (h : 0x10000 ≤ off) (h4 : off % 4 = 0) :
    d.busWrite f off 4 v = d := by
  rw [d.busWrite_word f off v h4, d.writeWord_plain _ _ (d.reg64_virtual hf h) (fun _ => d.reg64_virtual hf (by omega))]
  unfold Dev.write32
  rw [if_neg (by omega), if_neg (by omega), if_neg hf]

theorem exec_registerWrite {s : State} {f : Nat} (h : s.dev.fnLive f = true) (off w v : Nat) :
    exec (.registerWrite f off w v) s = .next (s.onDev (fun d => d.busWrite f off w v)) := by
  have harm : exec (.registerWrite f off w v) s = execRegisterWrite f off w v s := rfl
  rw [harm, execRegisterWrite, State.onFn_live h]

theorem exec_schBucketStart {s : State} {f : Nat} (h : s.dev.fnLive f = true) (v : Nat) :
    exec (.schBucketStart f v) s = .next (s.onDev (fun d => d.modSch f (fun x => x.commit v))) := by
  have harm : exec (.schBucketStart f v) s = execSchBucketStart f v s := rfl
  rw [harm, execSchBucketStart, State.onFn_live h]

theorem exec_schSkilletDrain {s : State} (h : s.dev.regsLive = true) (v : Nat) :
    exec (.schSkilletDrain v) s = .next (s.onDev (fun d => d.writeDrain v)) := by
  have harm : exec (.schSkilletDrain v) s = execSchSkilletDrain v s := rfl
  rw [harm, execSchSkilletDrain, State.onReg_live h]

theorem exec_registerWrite_same {s : State} {f off w v : Nat} (h : s.dev.fnLive f = true) (hd : s.dev.busWrite f off w v = s.dev) :
    exec (.registerWrite f off w v) s = .next s := by
  rw [exec_registerWrite h]
  exact State.next_same hd

/-- The low half of the admin submission ring's base, or of its completion ring's, is held. -/
theorem Dev.busWrite_adminLow (d : Dev) {f off v : Nat} (hv : v < 2 ^ 32) (h : off = 0x10 ∨ off = 0x18) :
    (d.busWrite f off 4 v).fn f = { d.fn f with lowHeld := kset (d.fn f).lowHeld off v } := by
  obtain ⟨cur, hcur⟩ : ∃ cur, d.reg64 f off = some cur := by
    rcases h with rfl | rfl
    · exact ⟨_, rfl⟩
    · exact ⟨_, rfl⟩
  rw [d.busWrite_word f off v (by omega), Nat.mod_eq_of_lt hv, d.writeWord_low v true hcur, Dev.fn_modFn]

theorem FnView.sqBase_unless_en (x : FnView) (b : Nat) :
    (if x.en then x else { x with sqBase := b }).sqBase = if x.en then x.sqBase else b := by
  split
  · rfl
  · rfl

/-- The base of the admin submission ring after the write of its high half. -/
theorem Dev.sqBase_busWrite_high (d : Dev) {f v : Nat} (hv : v < 2 ^ 32) : ((d.busWrite f 0x14 4 v).fn f).sqBase =
    if (d.fn f).en then (d.fn f).sqBase
    else page4k (2 ^ 32 * v + kget (d.fn f).lowHeld 0x10 ((d.fn f).sqBase % 2 ^ 32)) := by
  have hput (e : Dev) (w : Nat) : e.put64 f 0x10 w = e.modFn f (fun x => if x.en then x else { x with sqBase := page4k w }) := rfl
  rw [d.busWrite_word f 0x14 v rfl, Nat.mod_eq_of_lt hv, d.writeWord_high v true (d.reg64_admin f (by decide) (by decide) (by decide)) rfl (cur := (d.fn f).sqBase) rfl, hput,
    Dev.fn_modFn, Dev.fn_modFn]
  exact FnView.sqBase_unless_en _ _

theorem page4k_halves {v l : Nat} (hv : v < 2 ^ 32) (hl : l < 2 ^ 32) : page4k (2 ^ 32 * v + l) = (v * 2 ^ 32 + l) / 4096 * 4096 := by
  unfold page4k
  rw [Nat.mod_eq_of_lt (by omega), Nat.mul_comm v]

theorem kget_lt {m : KMap Nat} {k n b : Nat} (hm : ∀ x, kfind m k = some x → x < b) (hn : n < b) : kget m k n < b := by
  unfold kget
  cases h : kfind m k with
  | none => exact hn
  | some x => exact hm x h

theorem Dev.busWrite_qsize (d : Dev) {f v : Nat} (h : (d.fn f).en = true) : (d.busWrite f 0x8 4 v).fn f = d.fn f := by
  have hview (w : Nat) : d.write32 f 0x8 w true = d.modFn f (fun x => x.setQsize w) := rfl
  rw [d.busWrite_word f 0x8 v rfl, d.writeWord_plain _ true (d.reg64_admin f (by decide) (by decide) (by decide)) (fun h => (by omega)), hview, Dev.fn_modFn]
  exact if_pos h

/-- The command time limit after its write: 1 to 50, or the reject bit (R550). -/
theorem Dev.busWrite_limit (d : Dev) {f v : Nat} (hv : v < 64) :
    ((d.busWrite f 0x100 4 v).fn f).sch = if 1 ≤ v ∧ v ≤ 50 then { (d.fn f).sch with limitMs := v } else { (d.fn f).sch with limitRej := true } := by
  have hview (w : Nat) : d.write32 f 0x100 w true = d.modSch f (fun x => x.setLimit w) := rfl
  have hbits : bits v 5 0 = v := by
    unfold bits
    omega
  rw [d.busWrite_word f 0x100 v rfl, d.writeWord_plain _ true (d.reg64_admin f (by decide) (by decide) (by decide)) (fun h => (by omega)), hview, Dev.modSch, Dev.fn_modFn,
    Nat.mod_eq_of_lt (by omega)]
  show (d.fn f).sch.setLimit v = _
  unfold SchRegs.setLimit
  rw [hbits]

/-- R515: the mask of drained skillets. -/
theorem Dev.draining_writeDrain (d : Dev) (v k : Nat) (hk : k < 16) : (d.writeDrain v).draining k = bit v k := by
  have hbit (x : Nat) : bit x k = x.testBit k := (Nat.testBit_eq_decide_div_mod_eq).symm
  show bit (v % 2 ^ 16) k = bit v k
  rw [hbit, hbit, Nat.testBit_mod_two_pow, decide_eq_true hk, Bool.true_and]

/-- Settles O38: each write through its own branch; the bucket starts by what their check means. -/
theorem registerWrites : Obligations.RegisterWrites := by
  intro s f off w v l hlive
  have hregs : s.dev.regsLive = true := (Bool.and_eq_true_iff.1 hlive).1
  refine ⟨?widths, ?virtual, ?low, ?high, ?qsize, ?limit, ?buckets, ?drain⟩
  case widths => exact fun h4 h8 => exec_registerWrite_same hlive (s.dev.busWrite_other h4 h8)
  case virtual => exact fun hf ho h4 => exec_registerWrite_same hlive (s.dev.busWrite_virtual v hf ho h4)
  case low => exact fun hv ho => ⟨_, exec_registerWrite hlive _ _ _, s.dev.busWrite_adminLow hv ho⟩
  case high =>
    refine fun hv => ⟨_, exec_registerWrite hlive _ _ _, fun hen => ?_, fun hen hb hlow => ?_⟩
    · exact (s.dev.sqBase_busWrite_high hv).trans (if_pos hen)
    · refine (s.dev.sqBase_busWrite_high hv).trans ((if_neg (by rw [hen]; exact Bool.false_ne_true)).trans ?_)
      exact page4k_halves hv (kget_lt hlow (Nat.mod_lt _ (by decide)))
  case qsize => exact fun hv hen => ⟨_, exec_registerWrite hlive _ _ _, s.dev.busWrite_qsize hen⟩
  case limit =>
    refine fun hv => ⟨_, exec_registerWrite hlive _ _ _, fun h1 h50 => ?_, fun h => ?_⟩
    · exact (s.dev.busWrite_limit hv).trans (if_pos ⟨h1, h50⟩)
    · exact (s.dev.busWrite_limit hv).trans (if_neg (by omega))
  case buckets =>
    intro hv hl h8
    have hsch : ((s.onDev (fun d => d.modSch f (fun x => x.commit v))).dev.fn f).sch = (s.dev.fn f).sch.commit v := by
      rw [State.onDev_dev, Dev.modSch, Dev.fn_modFn]
    have hcommit : (s.dev.fn f).sch.commit v =
        if bucketsOk l then { (s.dev.fn f).sch with buckets := l } else { (s.dev.fn f).sch with bucketRej := true } := by
      rw [hl]; rfl
    refine ⟨_, exec_schBucketStart hlive v, fun hok => ?_, fun hbad => ?_⟩
    · rw [hsch, hcommit, if_pos ((bucketsOk_iff h8).2 hok)]
    · rw [hsch, hcommit, if_neg (fun h => hbad ((bucketsOk_iff h8).1 h))]
  case drain => exact ⟨_, exec_schSkilletDrain hregs v, rfl, fun k hk => s.dev.draining_writeDrain v k hk⟩

end Sys2Proof.Machine
end

section
/-!
PROOF. The registers right after a power-on reset: the view of every function is the default one, and each register of it is
read once for all functions and all of its words.
-/
namespace Sys2Proof.Machine

theorem State.reset_ok : State.reset.ok :=
  ⟨rfl, fun _ he => (by cases he), ⟨List.Pairwise.nil, fun _ he => (by cases he)⟩, fun _ he => (by cases he)⟩

/-- A flag that no source has reads as 0 in every word. -/
theorem IntCtl.word_zero (c : IntCtl) (w : Nat) (g : IntSrc → Bool) (h : ∀ n, g (c.src n) = false) : c.word w g = 0 := by
  unfold IntCtl.word
  have hnil : (List.range 32).filter (fun b => srcValid (32 * w + b) && g (c.src (32 * w + b))) = [] :=
    List.filter_eq_nil_iff.2 (fun b _ => by rw [h, Bool.and_false]; exact Bool.false_ne_true)
  rw [hnil]
  rfl

theorem srcField_reset (n : Nat) (g : IntSrc → Nat) (h : g (IntSrc.at n) = 0) : ({} : IntCtl).srcField n g = 0 := by
  unfold IntCtl.srcField
  split
  · exact h
  · rfl

/-- Sources are sensed as levels at reset, but for those from 129 on. -/
theorem srcField_sense_reset (n : Nat) : ({} : IntCtl).srcField n (·.sense) = if 129 ≤ n ∧ n < 264 then 1 else 0 := by
  unfold IntCtl.srcField
  have hat : (({} : IntCtl).src n).sense = if 1 ≤ n ∧ n ≤ 128 then 0 else 1 := rfl
  have hvalid : srcValid n = true ↔ 1 ≤ n ∧ n ≤ 263 := by
    unfold srcValid
    rw [Bool.and_eq_true_iff, decide_eq_true_iff, decide_eq_true_iff]
  dsimp only
  rw [hat]
  by_cases h : 1 ≤ n ∧ n ≤ 263
  · rw [if_pos (hvalid.2 h)]
    split
    · rw [if_neg (by omega)]
    · rw [if_pos (by omega)]
  · rw [if_neg (fun hv => h (hvalid.1 hv)), if_neg (by omega)]

theorem Dev.readReg_view (d : Dev) (f : Nat) {off : Nat} (h : off < 0x8000) : d.readReg f off = d.readView f off := if_pos h

theorem Dev.readReg_block (d : Dev) {off : Nat} (h : 0xA000 ≤ off) : d.readReg 0 off = d.readBlock off := by
  unfold Dev.readReg
  rw [if_neg (by omega), if_neg (by omega), if_pos rfl]

/-- The three words of source flags, by their place in the view. -/
theorem Dev.readView_flags (d : Dev) (f : Nat) {w : Nat} (hw : w < 32) :
    d.readView f (0x800 + 4 * w) = (d.fn f).int.word w (·.en) ∧ d.readView f (0x880 + 4 * w) = (d.fn f).int.word w (·.pend) ∧
      d.readView f (0x900 + 4 * w) = (d.fn f).int.word w (·.insv) := by
  unfold Dev.readView
  dsimp only
  refine ⟨?_, ?_, ?_⟩
  · rw [if_neg (by omega), if_neg (by omega), if_neg (by omega), if_neg (by omega), if_neg (by omega), if_neg (by omega),
      if_pos (by omega), show (0x800 + 4 * w - 0x800) / 4 = w by omega]
  · rw [if_neg (by omega), if_neg (by omega), if_neg (by omega), if_neg (by omega), if_neg (by omega), if_neg (by omega),
      if_neg (by omega), if_pos (by omega), show (0x880 + 4 * w - 0x880) / 4 = w by omega]
  · rw [if_neg (by omega), if_neg (by omega), if_neg (by omega), if_neg (by omega), if_neg (by omega), if_neg (by omega),
      if_neg (by omega), if_neg (by omega), if_pos (by omega), show (0x900 + 4 * w - 0x900) / 4 = w by omega]

/-- The settings of a source, by their place in the view. -/
theorem Dev.readView_sources (d : Dev) (f : Nat) {n : Nat} (hn : n < 1024) :
    d.readView f (0x2000 + 4 * n) = (d.fn f).int.srcField n (·.prioNew) ∧ d.readView f (0x3000 + 4 * n) = (d.fn f).int.srcField n (·.vec) ∧
      d.readView f (0x1000 + 4 * n) = (d.fn f).int.srcField n (·.sense) := by
  unfold Dev.readView
  dsimp only
  refine ⟨?_, ?_, ?_⟩
  · rw [if_neg (by omega), if_neg (by omega), if_neg (by omega), if_neg (by omega), if_neg (by omega), if_neg (by omega),
      if_neg (by omega), if_neg (by omega), if_neg (by omega), if_neg (by omega), if_pos (by omega),
      show (0x2000 + 4 * n - 0x2000) / 4 = n by omega]
  · rw [if_neg (by omega), if_neg (by omega), if_neg (by omega), if_neg (by omega), if_neg (by omega), if_neg (by omega),
      if_neg (by omega), if_neg (by omega), if_neg (by omega), if_neg (by omega), if_neg (by omega), if_pos (by omega),
      show (0x3000 + 4 * n - 0x3000) / 4 = n by omega]
  · rw [if_neg (by omega), if_neg (by omega), if_neg (by omega), if_neg (by omega), if_neg (by omega), if_neg (by omega),
      if_neg (by omega), if_neg (by omega), if_neg (by omega), if_pos (by omega), show (0x1000 + 4 * n - 0x1000) / 4 = n by omega]

theorem reset_flags (f : Nat) {w : Nat} (hw : w < 32) : State.reset.dev.readReg f (0x800 + 4 * w) = 0 ∧
    State.reset.dev.readReg f (0x880 + 4 * w) = 0 ∧ State.reset.dev.readReg f (0x900 + 4 * w) = 0 := by
  obtain ⟨hen, hpend, hinsv⟩ := State.reset.dev.readView_flags f hw
  exact ⟨(Dev.readReg_view _ f (by omega)).trans (hen.trans (IntCtl.word_zero _ w _ (fun _ => rfl))),
    (Dev.readReg_view _ f (by omega)).trans (hpend.trans (IntCtl.word_zero _ w _ (fun _ => rfl))),
    (Dev.readReg_view _ f (by omega)).trans (hinsv.trans (IntCtl.word_zero _ w _ (fun _ => rfl)))⟩

theorem reset_sources (f : Nat) {n : Nat} (hn : n < 1024) : State.reset.dev.readReg f (0x2000 + 4 * n) = 0 ∧
    State.reset.dev.readReg f (0x3000 + 4 * n) = 0 ∧
    State.reset.dev.readReg f (0x1000 + 4 * n) = (if 129 ≤ n ∧ n < 264 then 1 else 0) := by
  obtain ⟨hprio, hvec, hsense⟩ := State.reset.dev.readView_sources f hn
  exact ⟨(Dev.readReg_view _ f (by omega)).trans (hprio.trans (srcField_reset n _ rfl)),
    (Dev.readReg_view _ f (by omega)).trans (hvec.trans (srcField_reset n _ rfl)),
    (Dev.readReg_view _ f (by omega)).trans (hsense.trans (srcField_sense_reset n))⟩

/-- CTL_FUNC_STATUS: a virtual function has no partition yet. -/
theorem reset_funcStatus (f : Nat) : State.reset.dev.readReg f 0x4 = if f = 0 then 0 else 16 := by
  by_cases hf : f = 0
  · rw [hf]; rfl
  · have hstatus : State.reset.dev.readReg f 0x4 = b2n (f != 0) * 16 := by
      show 0 + b2n (false && f == 0) * _ + 0 + 0 + b2n (f != 0 && true) * 16 = _
      rw [Bool.false_and, Bool.and_true, show b2n false = 0 from rfl, Nat.zero_mul]
      omega
    rw [hstatus, bne_iff_ne.2 hf, if_neg hf]
    rfl

/-- The registers of a function's view, the same for every function. -/
def viewResets : List (Nat × Nat) :=
  [(0x0, 0), (0x8, 0), (0x100, 50), (0x104, 20), (0x108, 0), (0x110, 0x20001), (0x114, 0x80004), (0x118, 0x200010),
    (0x11C, 0x800040), (0x208, 0), (0x20C, 0), (0x210, 0x10000), (0x218, 0)]

/-- Every function's view reads alike at reset, but for its status. -/
theorem reset_view_same (f : Nat) {off : Nat} (h4 : off ≠ 0x4) (h : off < 0x8000) :
    State.reset.dev.readReg f off = State.reset.dev.readReg 0 off := by
  rw [Dev.readReg_view _ _ h, Dev.readReg_view _ _ h]
  unfold Dev.readView
  dsimp only
  rw [if_neg h4, if_neg h4]
  rfl

theorem reset_view (f : Nat) : ∀ e ∈ viewResets, State.reset.dev.readReg f e.1 = e.2 := by
  have hzero : ∀ e ∈ viewResets, e.1 ≠ 0x4 ∧ e.1 < 0x8000 ∧ State.reset.dev.readReg 0 e.1 = e.2 := by decide
  intro e he
  obtain ⟨h4, h, hval⟩ := hzero e he
  exact (reset_view_same f h4 h).trans hval

/-- The owner of a channel, by its place in the device blocks. -/
theorem Dev.readBlock_owner (d : Dev) {c : Nat} (hc : c < 128) : d.readBlock (0x16000 + 4 * c) = (d.dma c).owner := by
  unfold Dev.readBlock
  dsimp only
  rw [if_neg (by omega), if_neg (by omega), if_neg (by omega), if_neg (by omega), if_neg (by omega), if_neg (by omega),
    if_pos (by omega), show (0x16000 + 4 * c - 0x16000) / 4 = c by omega]

/-- Settles O56: the named registers by evaluation, the repeated ones each from its place in its block. -/
theorem resetState : Obligations.ResetState := by
  refine ⟨rfl, rfl, State.reset_ok, rfl, by decide, by decide, by decide, fun f _ => ?functions, fun c hc => ?channels⟩
  case functions => exact ⟨reset_view f, reset_funcStatus f, fun w hw => reset_flags f hw, fun n hn => reset_sources f hn⟩
  case channels => exact ⟨rfl, rfl, rfl, rfl, (Dev.readReg_block _ (by omega)).trans (Dev.readBlock_owner _ hc)⟩

end Sys2Proof.Machine
end

section
/-!
PROOF. The relation that every change of the device is in: the rollback counters did not fall, and the canonical forms that
held still hold. Here are the relation and its rules for the updates of the device's tables; what each function of the model
does follows from them, in the order of the model.
-/
namespace Sys2Proof.Machine

/-! Tables in order. -/

theorem kset_sorted {α : Type} (k : Nat) (x : α) : ∀ (m : KMap α), (m.map (·.1)).Pairwise (· < ·) → ((kset m k x).map (·.1)).Pairwise (· < ·)
  | [], _ => List.pairwise_singleton _ _
  | (j, y) :: m, h => by
    obtain ⟨hj, hm⟩ := List.pairwise_cons.1 h
    unfold kset
    split
    next hlt => exact List.pairwise_cons.2 ⟨fun a ha => (List.mem_cons.1 ha).elim (fun e => e ▸ hlt) (fun ha => Nat.lt_trans hlt (hj a ha)), h⟩
    next hlt =>
      split
      next heq => exact List.pairwise_cons.2 ⟨fun a ha => heq ▸ hj a ha, hm⟩
      next hne =>
        refine List.pairwise_cons.2 ⟨fun a ha => ?_, kset_sorted k x m hm⟩
        obtain ⟨e, he, rfl⟩ := List.mem_map.1 ha
        rcases mem_kset m k x e he with rfl | he
        · show j < k
          omega
        · exact hj _ (List.mem_map_of_mem he)

theorem insertSorted_sorted (n : Nat) : ∀ (l : List Nat), l.Pairwise (· < ·) → (insertSorted n l).Pairwise (· < ·)
  | [], _ => List.pairwise_singleton _ _
  | x :: l, h => by
    obtain ⟨hx, hl⟩ := List.pairwise_cons.1 h
    unfold insertSorted
    split
    next hlt => exact List.pairwise_cons.2 ⟨fun a ha => (List.mem_cons.1 ha).elim (fun e => e ▸ hlt) (fun ha => Nat.lt_trans hlt (hx a ha)), h⟩
    next hlt =>
      split
      next => exact h
      next hne =>
        refine List.pairwise_cons.2 ⟨fun a ha => ?_, insertSorted_sorted n l hl⟩
        rcases (mem_insertSorted a n l).1 ha with rfl | ha
        · omega
        · exact hx a ha

/-! The forms, table by table. -/

/-- The interrupt controllers of these views are in order. -/
def ViewsInOrder (m : KMap FnView) : Prop := ∀ e ∈ m, e.2.int.ok

/-- A partition's number, and the cup entries that it awaits. -/
def PartInOrder (p : Nat) (x : Part) : Prop := 1 ≤ p ∧ p ≤ 16 ∧ (x.cupsNew.map (·.1)).Nodup

/-- Partitions listed once each, in order, and each in order. -/
def PartsInOrder (m : KMap Part) : Prop := (m.map (·.1)).Pairwise (· < ·) ∧ ∀ e ∈ m, PartInOrder e.1 e.2

/-- The multicast tables of these junction dies are in order. -/
def CastsInOrder (m : KMap Jd) : Prop := ∀ e ∈ m, ∀ z ∈ e.2.mcast, z.subs.Pairwise (· < ·)

/-- The canonical forms of `State.ok`, of the device. -/
def Dev.Canonical (d : Dev) : Prop := Memory.wf d.mem = true ∧ ViewsInOrder d.fns ∧ PartsInOrder d.parts ∧ CastsInOrder d.jds

theorem State.ok_iff (s : State) : s.ok ↔ s.dev.Canonical := Iff.rfl

/-- No rollback counter of `g` is below that of `f`. -/
def Flash.Grows (f g : Flash) : Prop := f.fwCtr ≤ g.fwCtr ∧ f.recCtr ≤ g.recCtr

theorem Flash.Grows.of_eq {f g : Flash} (hfw : g.fwCtr = f.fwCtr) (hrec : g.recCtr = f.recCtr) : f.Grows g :=
  ⟨Nat.le_of_eq hfw.symm, Nat.le_of_eq hrec.symm⟩

/-- From `d` to `d'` no rollback counter fell, and each canonical form that held still holds. -/
def Dev.Kept (d d' : Dev) : Prop :=
  d.flash.Grows d'.flash ∧ (Memory.wf d.mem = true → Memory.wf d'.mem = true) ∧ (ViewsInOrder d.fns → ViewsInOrder d'.fns)
    ∧ (PartsInOrder d.parts → PartsInOrder d'.parts) ∧ (CastsInOrder d.jds → CastsInOrder d'.jds)

namespace Dev.Kept
variable {d d' : Dev}

theorem counters (h : d.Kept d') : d.flash.Grows d'.flash := have ⟨c, _⟩ := h; c

theorem memory (h : d.Kept d') : Memory.wf d.mem = true → Memory.wf d'.mem = true := have ⟨_, m, _⟩ := h; m

theorem views (h : d.Kept d') : ViewsInOrder d.fns → ViewsInOrder d'.fns := have ⟨_, _, v, _⟩ := h; v

theorem partitions (h : d.Kept d') : PartsInOrder d.parts → PartsInOrder d'.parts := have ⟨_, _, _, p, _⟩ := h; p

theorem casts (h : d.Kept d') : CastsInOrder d.jds → CastsInOrder d'.jds := have ⟨_, _, _, _, j⟩ := h; j

theorem canonical (h : d.Kept d') (c : d.Canonical) : d'.Canonical :=
  have ⟨cmem, cfns, cparts, cjds⟩ := c
  ⟨h.memory cmem, h.views cfns, h.partitions cparts, h.casts cjds⟩

end Dev.Kept

theorem IntCtl.ok_default : ({} : IntCtl).ok := ⟨List.Pairwise.nil, fun _ h => (by cases h)⟩

theorem ViewsInOrder.fn {d : Dev} (h : ViewsInOrder d.fns) (f : Nat) : (d.fn f).int.ok := by
  unfold Dev.fn kget
  cases hf : kfind d.fns f with
  | none => exact IntCtl.ok_default
  | some v => exact h _ (kfind_mem_of _ _ _ hf)

theorem ViewsInOrder.kset {m : KMap FnView} (h : ViewsInOrder m) (f : Nat) {v : FnView} (hv : v.int.ok) : ViewsInOrder (kset m f v) := by
  intro e he
  rcases mem_kset m f v e he with rfl | he
  · exact hv
  · exact h e he

theorem PartsInOrder.part {d : Dev} (h : PartsInOrder d.parts) {p : Nat} {x : Part} (hx : d.part p = some x) : PartInOrder p x :=
  h.2 _ (kfind_mem_of _ _ _ hx)

theorem PartsInOrder.kset {m : KMap Part} (h : PartsInOrder m) {p : Nat} {x : Part} (hx : PartInOrder p x) : PartsInOrder (kset m p x) := by
  obtain ⟨hsorted, hall⟩ := h
  refine ⟨kset_sorted p x m hsorted, fun e he => ?_⟩
  rcases mem_kset m p x e he with rfl | he
  · exact hx
  · exact hall e he

theorem CastsInOrder.jd {d : Dev} (h : CastsInOrder d.jds) (j : Nat) : ∀ z ∈ (d.jd j).mcast, z.subs.Pairwise (· < ·) := by
  unfold Dev.jd kget
  cases hj : kfind d.jds j with
  | none => exact fun _ hz => (by cases hz)
  | some v => exact h _ (kfind_mem_of _ _ _ hj)

theorem CastsInOrder.kset {m : KMap Jd} (h : CastsInOrder m) (j : Nat) {v : Jd} (hv : ∀ z ∈ v.mcast, z.subs.Pairwise (· < ·)) : CastsInOrder (kset m j v) := by
  intro e he
  rcases mem_kset m j v e he with rfl | he
  · exact hv
  · exact h e he

/-! The rules of the relation. -/

namespace Dev.Kept

theorem refl (d : Dev) : d.Kept d := ⟨⟨Nat.le_refl _, Nat.le_refl _⟩, id, id, id, id⟩

variable {d₀ d : Dev}

theorem trans {d' : Dev} (h : d₀.Kept d) (h' : d.Kept d') : d₀.Kept d' :=
  have ⟨hfw, hrec⟩ := h.counters
  have ⟨hfw', hrec'⟩ := h'.counters
  ⟨⟨Nat.le_trans hfw hfw', Nat.le_trans hrec hrec'⟩, fun c => h'.memory (h.memory c), fun c => h'.views (h.views c),
    fun c => h'.partitions (h.partitions c), fun c => h'.casts (h.casts c)⟩

theorem ite {c : Prop} [Decidable c] {a b : Dev} (ha : d₀.Kept a) (hb : d₀.Kept b) : d₀.Kept (if c then a else b) := by
  split
  · exact ha
  · exact hb

theorem foldl {α : Type} {g : Dev → α → Dev} (h : d₀.Kept d) (hg : ∀ e a, d₀.Kept e → d₀.Kept (g e a)) (l : List α) : d₀.Kept (l.foldl g d) := by
  induction l generalizing d with
  | nil => exact h
  | cons a l ih => exact ih (hg d a h)

theorem foldl_snd {α β : Type} {g : β × Dev → α → β × Dev} {b : β} (h : d₀.Kept d)
    (hg : ∀ w a, d₀.Kept w.2 → d₀.Kept (g w a).2) (l : List α) : d₀.Kept (l.foldl g (b, d)).2 := by
  induction l generalizing b d with
  | nil => exact h
  | cons a l ih => exact ih (b := (g (b, d) a).1) (hg (b, d) a h)

theorem foldl_fst {α β : Type} {g : Dev × β → α → Dev × β} {b : β} (h : d₀.Kept d)
    (hg : ∀ w a, d₀.Kept w.1 → d₀.Kept (g w a).1) (l : List α) : d₀.Kept (l.foldl g (d, b)).1 := by
  induction l generalizing b d with
  | nil => exact h
  | cons a l ih => exact ih (b := (g (d, b) a).2) (hg (d, b) a h)

theorem foldl_snd_snd {α β γ : Type} {g : β × γ × Dev → α → β × γ × Dev} {b : β} {c : γ} (h : d₀.Kept d)
    (hg : ∀ w a, d₀.Kept w.2.2 → d₀.Kept (g w a).2.2) (l : List α) : d₀.Kept (l.foldl g (b, c, d)).2.2 := by
  induction l generalizing b c d with
  | nil => exact h
  | cons a l ih => exact ih (b := (g (b, c, d) a).1) (c := (g (b, c, d) a).2.1) (hg (b, c, d) a h)

theorem foldl_fst_snd {α β γ : Type} {g : (β × Dev) × γ → α → (β × Dev) × γ} {b : β} {c : γ} (h : d₀.Kept d)
    (hg : ∀ w a, d₀.Kept w.1.2 → d₀.Kept (g w a).1.2) (l : List α) : d₀.Kept (l.foldl g ((b, d), c)).1.2 := by
  induction l generalizing b c d with
  | nil => exact h
  | cons a l ih => exact ih (b := (g ((b, d), c) a).1.1) (c := (g ((b, d), c) a).2) (hg ((b, d), c) a h)

theorem of_snd {β : Type} {z : β × Dev} {b : β} (h : d₀.Kept z.2) (he : z = (b, d)) : d₀.Kept d := by
  rwa [he] at h

/-- Only memory, views, partitions, junction dies and flash count. -/
theorem of_eq {d' : Dev} (h : d₀.Kept d) (hflash : d'.flash = d.flash) (hmem : d'.mem = d.mem) (hfns : d'.fns = d.fns)
    (hparts : d'.parts = d.parts) (hjds : d'.jds = d.jds) : d₀.Kept d' := by
  have ⟨hc, hm, hv, hp, hj⟩ := h
  exact ⟨hflash ▸ hc, hmem ▸ hm, hfns ▸ hv, hparts ▸ hp, hjds ▸ hj⟩

/-- A memory made from that of another state on the way. -/
theorem setMem_from (h : d₀.Kept d) {e : Dev} {m : Mem} (h' : d₀.Kept e) (hm : Memory.wf e.mem = true → Memory.wf m = true) :
    d₀.Kept (d.setMem m) :=
  ⟨h.counters, fun c => hm (h'.memory c), h.views, h.partitions, h.casts⟩

theorem setMem (h : d₀.Kept d) {m : Mem} (hm : Memory.wf d.mem = true → Memory.wf m = true) : d₀.Kept (d.setMem m) :=
  h.setMem_from h hm

theorem setFns (h : d₀.Kept d) {m : KMap FnView} (hm : ViewsInOrder d.fns → ViewsInOrder m) : d₀.Kept (d.setFns m) :=
  ⟨h.counters, h.memory, fun c => hm (h.views c), h.partitions, h.casts⟩

theorem setParts (h : d₀.Kept d) {m : KMap Part} (hm : PartsInOrder d₀.parts → PartsInOrder d.parts → PartsInOrder m) :
    d₀.Kept (d.setParts m) :=
  ⟨h.counters, h.memory, h.views, fun c => hm c (h.partitions c), h.casts⟩

theorem setJds (h : d₀.Kept d) {m : KMap Jd} (hm : CastsInOrder d.jds → CastsInOrder m) : d₀.Kept (d.setJds m) :=
  ⟨h.counters, h.memory, h.views, h.partitions, fun c => hm (h.casts c)⟩

theorem setFlash (h : d₀.Kept d) {f : Flash} (hf : d.flash.Grows f) : d₀.Kept (d.setFlash f) :=
  h.trans ⟨hf, id, id, id, id⟩

theorem putFn (h : d₀.Kept d) (f : Nat) {v : FnView} (hv : (d.fn f).int.ok → v.int.ok) : d₀.Kept (d.putFn f v) :=
  h.setFns (fun c => c.kset f (hv (c.fn f)))

theorem modFn (h : d₀.Kept d) (f : Nat) {g : FnView → FnView} (hg : ∀ v, v.int.ok → (g v).int.ok) : d₀.Kept (d.modFn f g) :=
  h.putFn f (hg _)

theorem putPart (h : d₀.Kept d) {p : Nat} {x : Part} (hx : PartsInOrder d₀.parts → PartInOrder p x) : d₀.Kept (d.putPart p x) :=
  h.setParts (fun c c3 => c3.kset (hx c))

/-- The record of a partition that some state on the way has. -/
theorem part {e : Dev} {p : Nat} {x : Part} (h : d₀.Kept e) (hx : e.part p = some x) (c : PartsInOrder d₀.parts) : PartInOrder p x :=
  (h.partitions c).part hx

/-- A partition's record with the same cup entries awaited as some state on the way has. -/
theorem putPart_of (h : d₀.Kept d) {e : Dev} {p : Nat} {x y : Part} (h' : d₀.Kept e) (hx : e.part p = some x) (hy : y.cupsNew = x.cupsNew) :
    d₀.Kept (d.putPart p y) :=
  h.putPart (fun c => by
    have hp := h'.part hx c
    unfold PartInOrder at hp ⊢
    rwa [hy])

theorem modPart_of (h : d₀.Kept d) (p : Nat) {g : Part → Part} (hg : ∀ x, PartInOrder p x → PartInOrder p (g x)) : d₀.Kept (d.modPart p g) := by
  unfold Dev.modPart
  split
  next x hx => exact h.putPart (fun c => hg x (h.part hx c))
  next => exact h

theorem modPart (h : d₀.Kept d) (p : Nat) {g : Part → Part} (hg : ∀ x, (g x).cupsNew = x.cupsNew) : d₀.Kept (d.modPart p g) := by
  unfold Dev.modPart
  split
  next x hx => exact h.putPart_of h hx (hg x)
  next => exact h

theorem putJd_of (h : d₀.Kept d) (j : Nat) {x : Jd} (hx : CastsInOrder d.jds → ∀ z ∈ x.mcast, z.subs.Pairwise (· < ·)) : d₀.Kept (d.putJd j x) :=
  h.setJds (fun c => c.kset j (hx c))

theorem putJd (h : d₀.Kept d) (j : Nat) {x : Jd} (hx : x.mcast = (d.jd j).mcast) : d₀.Kept (d.putJd j x) :=
  h.putJd_of j (fun c z hz => c.jd j z (hx ▸ hz))

end Dev.Kept

end Sys2Proof.Machine
end

section
/-! PROOF. The shared operations: interrupts, events, counters, reports, charges. -/
namespace Sys2Proof.Machine

/-! A source's change keeps the controller in order. -/

theorem IntCtl.ok_setSrc {c : IntCtl} (h : c.ok) (n : Nat) (x : IntSrc) : (c.setSrc n x).ok := by
  unfold IntCtl.setSrc
  split
  next hv =>
    refine ⟨kset_sorted n _ _ h.1, fun e he => ?_⟩
    rcases mem_kset _ n _ e he with rfl | he
    · exact hv
    · exact h.2 e he
  next => exact h

theorem IntCtl.ok_setLine {c : IntCtl} (h : c.ok) (n : Nat) (hi : Bool) : (c.setLine n hi).ok := by
  unfold IntCtl.setLine
  dsimp only
  split
  · exact h
  · exact IntCtl.ok_setSrc h n _

theorem IntCtl.ok_setEnable {c : IntCtl} (h : c.ok) (n : Nat) (en : Bool) : (c.setEnable n en).ok := IntCtl.ok_setSrc h n _

theorem IntCtl.ok_setSense {c : IntCtl} (h : c.ok) (n mode : Nat) : (c.setSense n mode).ok := by
  unfold IntCtl.setSense
  dsimp only
  split
  · exact h
  · exact IntCtl.ok_setSrc h n _

theorem IntCtl.ok_setVector {c : IntCtl} (h : c.ok) (n v : Nat) : (c.setVector n v).ok := IntCtl.ok_setSrc h n _

theorem IntCtl.ok_setPrio {c : IntCtl} (h : c.ok) (n p : Nat) : (c.setPrio n p).ok := IntCtl.ok_setSrc h n _

theorem IntCtl.ok_take {c : IntCtl} (h : c.ok) (v : Nat) : (c.take v).1.ok := by
  unfold IntCtl.take
  dsimp only
  split
  · refine IntCtl.ok_setSrc ?_ _ _
    exact h
  · exact h

theorem IntCtl.ok_complete {c : IntCtl} (h : c.ok) (v n : Nat) : (c.complete v n).ok := by
  unfold IntCtl.complete
  dsimp only
  split
  · exact IntCtl.ok_setSrc h n _
  · exact h

theorem IntCtl.ok_unmask {c : IntCtl} (h : c.ok) (v : Nat) : (c.unmask v).1.ok := by
  unfold IntCtl.unmask
  dsimp only
  split
  · exact h
  · exact h

namespace Dev.Kept
variable {d₀ d : Dev}

/-! Updates of tables that the forms do not speak of. -/

theorem setAo (hk : d₀.Kept d) (x : KMap Nat) : d₀.Kept (d.setAo x) := hk
theorem setQps (hk : d₀.Kept d) (x : KMap Qp) : d₀.Kept (d.setQps x) := hk
theorem setCtxs (hk : d₀.Kept d) (x : KMap Ctx) : d₀.Kept (d.setCtxs x) := hk
theorem setRegions (hk : d₀.Kept d) (x : KMap Region) : d₀.Kept (d.setRegions x) := hk
theorem setRuns (hk : d₀.Kept d) (x : KMap Run) : d₀.Kept (d.setRuns x) := hk
theorem setCrock (hk : d₀.Kept d) (x : Crock) : d₀.Kept (d.setCrock x) := hk
theorem setFab (hk : d₀.Kept d) (x : Fab) : d₀.Kept (d.setFab x) := hk
theorem setPwr (hk : d₀.Kept d) (x : Pwr) : d₀.Kept (d.setPwr x) := hk
theorem setSense (hk : d₀.Kept d) (x : Sense) : d₀.Kept (d.setSense x) := hk
theorem setSaf (hk : d₀.Kept d) (x : Safety) : d₀.Kept (d.setSaf x) := hk
theorem setConf (hk : d₀.Kept d) (x : Conf) : d₀.Kept (d.setConf x) := hk
theorem setTrust (hk : d₀.Kept d) (x : Trust) : d₀.Kept (d.setTrust x) := hk
theorem setMod (hk : d₀.Kept d) (x : Mod) : d₀.Kept (d.setMod x) := hk
theorem setRegs (hk : d₀.Kept d) (x : DevRegs) : d₀.Kept (d.setRegs x) := hk
theorem setCnt (hk : d₀.Kept d) (x : KMap Nat) : d₀.Kept (d.setCnt x) := hk
theorem setOvf (hk : d₀.Kept d) (x : List Nat) : d₀.Kept (d.setOvf x) := hk
theorem setPotBad (hk : d₀.Kept d) (x : List (Nat × Nat)) : d₀.Kept (d.setPotBad x) := hk
theorem setFree (hk : d₀.Kept d) (x : Nat) : d₀.Kept (d.setFree x) := hk

theorem modCore (hk : d₀.Kept d) (g : Nat) (f : Core → Core) : d₀.Kept (d.modCore g f) := hk
theorem modSkillet (hk : d₀.Kept d) (k : Nat) (f : Skillet → Skillet) : d₀.Kept (d.modSkillet k f) := hk
theorem putStack (hk : d₀.Kept d) (t : Nat) (x : Stack) : d₀.Kept (d.putStack t x) := hk
theorem modStack (hk : d₀.Kept d) (t : Nat) (f : Stack → Stack) : d₀.Kept (d.modStack t f) := hk
theorem putDma (hk : d₀.Kept d) (c : Nat) (x : Dma) : d₀.Kept (d.putDma c x) := hk
theorem putQp (hk : d₀.Kept d) (f q : Nat) (x : Qp) : d₀.Kept (d.putQp f q x) := hk
theorem modQp (hk : d₀.Kept d) (f q : Nat) (g : Qp → Qp) : d₀.Kept (d.modQp f q g) := by
  unfold Dev.modQp
  split
  · exact hk
  · exact hk
theorem putRun (hk : d₀.Kept d) (r : Nat) (x : Run) : d₀.Kept (d.putRun r x) := hk
theorem dropRun (hk : d₀.Kept d) (r : Nat) : d₀.Kept (d.dropRun r) := hk
theorem putCups (hk : d₀.Kept d) (die : Nat) (x : CupCnt) : d₀.Kept (d.putCups die x) := hk
theorem putPort (hk : d₀.Kept d) (p : Nat) (x : Port) : d₀.Kept (d.putPort p x) := hk
theorem putCport (hk : d₀.Kept d) (i : Nat) (x : CrockPort) : d₀.Kept (d.putCport i x) := hk
theorem emitOut (hk : d₀.Kept d) (o : Out) : d₀.Kept (d.emitOut o) := hk

end Dev.Kept
end Sys2Proof.Machine
end

section
/-! PROOF. Interrupts, events, counters, reports, alerts and charges. -/
namespace Sys2Proof.Machine

namespace Dev.Kept
variable {d₀ d : Dev}

theorem withInt (hk : d₀.Kept d) (f : Nat) {g : IntCtl → IntCtl} (hg : ∀ c, c.ok → (g c).ok) : d₀.Kept (d.withInt f g) :=
  hk.putFn f (fun c => IntCtl.ok_commit (hg _ c))

theorem setLine (hk : d₀.Kept d) (f n : Nat) (hi : Bool) : d₀.Kept (d.setLine f n hi) :=
  hk.withInt f (fun _ c => IntCtl.ok_setLine c n hi)

theorem pulse (hk : d₀.Kept d) (f n : Nat) : d₀.Kept (d.pulse f n) := by
  unfold Dev.pulse
  exact (hk.setLine _ _ _).setLine _ _ _

theorem zeroUnit (hk : d₀.Kept d) (u : Nat) : d₀.Kept (d.zeroUnit u) := by
  unfold Dev.zeroUnit
  exact (hk.setCnt _).setOvf _

theorem addCount (hk : d₀.Kept d) (u i n : Nat) : d₀.Kept (d.addCount u i n).1 := by
  unfold Dev.addCount
  dsimp only
  split
  · exact ite ((hk.setCnt _).setOvf _) (hk.setCnt _)
  · exact hk.setCnt _

theorem writeRec (hk : d₀.Kept d) (f : Nat) (e : EvRec) : d₀.Kept (d.writeRec f e).1 := by
  unfold Dev.writeRec
  dsimp only
  split
  · exact hk.addCount _ _ _
  · split
    · refine ((hk.modFn _ ?_).addCount _ _ _).pulse _ _
      exact fun _ c => c
    · refine ((hk.emitOut _).modFn _ ?_).pulse _ _
      exact fun _ c => c

theorem record (n : Nat) (hk : d₀.Kept d) (e : EvRec) : d₀.Kept (Dev.record n d e) := by
  induction n generalizing d e with
  | zero => exact hk
  | succ n ih =>
    unfold Dev.record
    dsimp only
    refine foldl ?_ (fun _ a he => ih he a) _
    split
    · exact hk.writeRec 0 e
    · exact (hk.writeRec 0 e).writeRec e.part e

theorem event (hk : d₀.Kept d) (e : EvRec) : d₀.Kept (d.event e) := record 5 hk _

theorem count (hk : d₀.Kept d) (u i n : Nat) : d₀.Kept (d.count u i n) := by
  unfold Dev.count
  exact ite hk (foldl (hk.addCount _ _ _) (fun _ _ he => he.event _) _)

theorem putSuspects (hk : d₀.Kept d) (j : Nat) (l : List Suspect) : d₀.Kept (d.putSuspects j l) := by
  unfold Dev.putSuspects
  dsimp only
  refine hk.putJd _ ?_
  split
  · rfl
  · rfl

theorem suspectReport (hk : d₀.Kept d) (e : EvRec) (reporter : Nat) : d₀.Kept (d.suspectReport e reporter) := by
  unfold Dev.suspectReport
  exact ite ((hk.count _ _ _).putSuspects _ _) (ite (((hk.count _ _ _).putSuspects _ _).event _) (((hk.count _ _ _).count _ _ _).event _))

theorem raise (hk : d₀.Kept d) (e : EvRec) (reporter : Nat) : d₀.Kept (d.raise e reporter) := by
  unfold Dev.raise
  exact ite (hk.suspectReport _ _) (hk.event _)

theorem alert (hk : d₀.Kept d) (b : Nat) : d₀.Kept (d.alert b) := by
  unfold Dev.alert
  exact ite hk (ite ((hk.setMod _).emitOut _) (hk.setMod _))

theorem charge (hk : d₀.Kept d) (p die k n : Nat) : d₀.Kept (d.charge p die k n) := by
  unfold Dev.charge
  exact ite hk (hk.putCups _ _)

theorem chargeNow (hk : d₀.Kept d) (p die k n : Nat) : d₀.Kept (d.chargeNow p die k n) := by
  unfold Dev.chargeNow
  exact ite hk (ite ((hk.charge _ _ _ _).putCups _ _) (hk.charge _ _ _ _))

theorem freeBytes (hk : d₀.Kept d) (n : Nat) : d₀.Kept (d.freeBytes n).2 := by
  unfold Dev.freeBytes
  exact hk.setFree _

end Dev.Kept
end Sys2Proof.Machine
end

section
/-! PROOF. Reads, pages and writes of device memory and of the stockpots. -/
namespace Sys2Proof.Machine

namespace Dev.Kept
variable {d₀ d : Dev}

theorem uncorrectable (hk : d₀.Kept d) (p t off : Nat) (sector : Bool) : d₀.Kept (d.uncorrectable p t off sector) := by
  unfold Dev.uncorrectable
  exact ((hk.modStack _ _).count _ _ _).raise _ _

theorem corrected (hk : d₀.Kept d) (t off : Nat) (sector : Bool) : d₀.Kept (d.corrected t off sector) := by
  unfold Dev.corrected
  exact (hk.modStack _ _).count _ _ _

theorem rewrite (hk : d₀.Kept d) (e : Env) (t off : Nat) : d₀.Kept (d.rewrite e t off) := by
  unfold Dev.rewrite
  split
  · refine hk.setMem ?_
    exact mwrite_wf _ _ _
  · exact hk

theorem settleSector (hk : d₀.Kept d) (e : Env) (t off : Nat) (sector : Bool) : d₀.Kept (d.settleSector e t off sector) := by
  unfold Dev.settleSector
  exact ite ((hk.rewrite _ _ _).corrected _ _ _) hk

theorem crockEvent (hk : d₀.Kept d) (p a st : Nat) : d₀.Kept (d.crockEvent p a st) := by
  unfold Dev.crockEvent
  exact (hk.setCrock _).raise _ _

theorem readPiece (hk : d₀.Kept d) (p : Nat) (e : Env) (a n : Nat) : d₀.Kept (d.readPiece p e a n).2 := by
  unfold Dev.readPiece
  split
  · exact hk
  · exact hk
  · dsimp only
    split
    · exact hk
    · split
      · exact hk
      · split
        · exact hk.uncorrectable _ _ _ _
        · exact hk.settleSector _ _ _ _
  · split
    · exact ite hk (hk.crockEvent _ _ _)
    · exact hk

theorem touch (hk : d₀.Kept d) (p a n : Nat) : d₀.Kept (d.touch p a n) := by
  unfold Dev.touch
  split
  next _ _ hfound =>
    refine ite hk (ite hk (hk.putPart_of hk hfound ?_))
    exact rfl
  · exact hk

theorem chargeRun (hk : d₀.Kept d) (p a n : Nat) : d₀.Kept (d.chargeRun p a n) := by
  unfold Dev.chargeRun
  exact foldl hk (fun w a he => by
    split
    · exact he.charge _ _ _ _
    · exact he.charge _ _ _ _
    · exact he) _

theorem read (hk : d₀.Kept d) (p : Nat) (e : Env) (a n : Nat) : d₀.Kept (d.read p e a n).2 := by
  unfold Dev.read
  refine foldl_snd ?_ (fun w a he => ?_) _
  · exact (hk.touch _ _ _).chargeRun _ _ _
  · exact he.readPiece _ _ _ _

theorem fillStack (hk : d₀.Kept d) (t lo hi : Nat) : d₀.Kept (d.fillStack t lo hi) := by
  unfold Dev.fillStack
  refine ite hk ((hk.modStack _ _).setMem_from hk ?_)
  exact mclear_wf _ _ _

theorem fillFrame (hk : d₀.Kept d) (x : Tier) (frame : Nat) : d₀.Kept (d.fillFrame x frame) := by
  unfold Dev.fillFrame
  split
  · exact foldl hk (fun _ _ he => he.fillStack _ _ _) _
  · exact hk

theorem writeStack (hk : d₀.Kept d) (p : Nat) (e : Env) (t off : Nat) (sector : Bool) (bs : Bytes) :
    d₀.Kept (d.writeStack p e t off sector bs).2 := by
  unfold Dev.writeStack
  dsimp only
  split
  · exact hk
  · split
    · refine (hk.modStack _ _).setMem_from hk ?_
      exact mwrite_wf _ _ _
    · split
      · exact hk
      · split
        · exact hk.uncorrectable _ _ _ _
        · refine ((ite (hk.corrected _ _ _) hk).rewrite _ _ _).setMem ?_
          exact mwrite_wf _ _ _

theorem writeCrock (hk : d₀.Kept d) (p : Nat) (e : Env) (c : Nat) (bs : Bytes) : d₀.Kept (d.writeCrock p e c bs).2 := by
  unfold Dev.writeCrock
  split
  · exact ite hk (hk.crockEvent _ _ _)
  · refine hk.setMem ?_
    exact mwrite_wf _ _ _

theorem modTier (hk : d₀.Kept d) (p : Nat) (g : Tier → Tier) : d₀.Kept (d.modTier p g) := by
  unfold Dev.modTier
  refine hk.modPart _ ?_
  exact fun _ => rfl

theorem abandon (hk : d₀.Kept d) (p pg : Nat) (wr : Bool) : d₀.Kept (d.abandon p pg wr) := by
  unfold Dev.abandon
  split
  · exact hk
  next _ _ hfound =>
    dsimp only
    split
    · refine ite ?_ ?_
      · refine (hk.putPart_of hk hfound ?_).raise _ _
        exact rfl
      · refine ite ?_ ?_
        · refine (hk.putPart_of hk hfound ?_).raise _ _
          exact rfl
        · split
          · refine ((hk.putPart_of hk hfound ?_).setCrock _).raise _ _
            exact rfl
          · refine (((hk.putPart_of hk hfound ?_).setCrock _).raise _ _).raise _ _
            exact rfl
    · exact hk

theorem clearPiece (hk : d₀.Kept d) (t o : Nat) : d₀.Kept (d.clearPiece t o) := by
  unfold Dev.clearPiece
  exact ite (hk.modStack _ _) hk

theorem putFrame (hk : d₀.Kept d) (p : Nat) (t : Tier) (f off : Nat) (b : Bytes) : d₀.Kept (d.putFrame p t f off b).2 := by
  unfold Dev.putFrame
  refine foldl_snd ?_ (fun w a he => ?_) _
  · exact hk
  · split
    · exact (he.clearPiece _ _).writeStack _ _ _ _ _ _
    · exact he

theorem chargeChunk (hk : d₀.Kept d) (p : Nat) (t : Tier) (f off : Nat) : d₀.Kept (d.chargeChunk p t f off) := by
  unfold Dev.chargeChunk
  exact foldl (foldl hk (fun _ _ he => he.charge _ _ _ _) _) (fun w a he => by
    split
    · exact he.charge _ _ _ _
    · exact he) _

theorem moveChunk (hk : d₀.Kept d) (p pg : Nat) : d₀.Kept (d.moveChunk p pg) := by
  unfold Dev.moveChunk
  split
  · exact hk
  · dsimp only
    split
    · refine ite ?_ ?_
      · refine abandon ?_ _ _ _
        split
        · exact (hk.chargeChunk _ _ _ _).putFrame _ _ _ _ _
        · split
          · refine (hk.chargeChunk _ _ _ _).setMem_from hk ?_
            exact crockPut_wf _ _ _
          · exact hk.chargeChunk _ _ _ _
      · refine modTier ?_ _ _
        split
        · exact (hk.chargeChunk _ _ _ _).putFrame _ _ _ _ _
        · split
          · refine (hk.chargeChunk _ _ _ _).setMem_from hk ?_
            exact crockPut_wf _ _ _
          · exact hk.chargeChunk _ _ _ _
    · exact hk

theorem outgoing (hk : d₀.Kept d) (p : Nat) (x : Part) {z : Nat × Dev} (hx : d.part p = some x) (he : d.outgoing p x = some z) : d₀.Kept z.2 := by
  unfold Dev.outgoing at he
  split at he
  next =>
    obtain rfl := Option.some.inj he
    exact hk
  next =>
    split at he
    next =>
      obtain rfl := Option.some.inj he
      exact hk.putPart_of hk hx rfl
    next => cases he

theorem makeRoom (hk : d₀.Kept d) (p : Nat) : d₀.Kept (d.makeRoom p) := by
  unfold Dev.makeRoom
  split
  · exact hk
  · refine ite ?_ ?_
    · exact hk
    · split
      · exact hk
      next _ _ hfound => exact foldl (hk.outgoing _ _ (by assumption) hfound) (fun _ _ he => he.moveChunk _ _) _

theorem openZero (hk : d₀.Kept d) (p pg : Nat) {e : Dev} (he : d.openZero p pg = some e) : d₀.Kept e := by
  unfold Dev.openZero at he
  split at he
  next => cases he
  next =>
    dsimp only at he
    split at he
    next => cases he
    next =>
      split at he
      next => cases he
      next hx =>
        split at he
        next => cases he
        next =>
          obtain rfl := Option.some.inj he
          refine ((hk.makeRoom p).putPart_of (hk.makeRoom p) hx ?_).fillFrame _ _
          rfl

theorem clearPieces (hk : d₀.Kept d) (p a n : Nat) : d₀.Kept (d.clearPieces p a n) := by
  unfold Dev.clearPieces
  exact foldl hk (fun w a he => by
    split
    · exact he.clearPiece _ _
    · exact he) _

theorem writeAt (hk : d₀.Kept d) (p : Nat) (e : Env) (l : Loc) (bs : Bytes) : d₀.Kept (d.writeAt p e l bs).2 := by
  unfold Dev.writeAt
  split
  · exact hk.writeStack _ _ _ _ _ _
  · exact hk.writeCrock _ _ _ _
  · exact hk

theorem writeBoth (hk : d₀.Kept d) (p : Nat) (e : Env) (a : Nat) (l : Loc) (bs : Bytes) : d₀.Kept (d.writeBoth p e a l bs).2 := by
  unfold Dev.writeBoth
  dsimp only
  split
  · exact hk.writeAt _ _ _ _
  · split
    · exact (hk.writeAt _ _ _ _).writeAt _ _ _ _
    · exact ((hk.writeAt _ _ _ _).writeAt _ _ _ _).abandon _ _ _

theorem writePiece (hk : d₀.Kept d) (p : Nat) (e : Env) (a : Nat) (bs : Bytes) : d₀.Kept (d.writePiece p e a bs).2 := by
  unfold Dev.writePiece
  split
  · split
    · exact hk
    next _ _ hfound =>
      split
      · exact (hk.openZero _ _ hfound).writeStack _ _ _ _ _ _
      · exact hk.openZero _ _ hfound
  · exact hk.writeBoth _ _ _ _ _

theorem store (hk : d₀.Kept d) (p : Nat) (e : Env) (a : Nat) (bs : Bytes) : d₀.Kept (d.store p e a bs).2 := by
  unfold Dev.store
  refine foldl_snd ?_ (fun w a he => ?_) _
  · exact (hk.touch _ _ _).clearPieces _ _ _
  · exact he.writePiece _ _ _ _

theorem chargeWrite (hk : d₀.Kept d) (p a n : Nat) : d₀.Kept (d.chargeWrite p a n) := by
  unfold Dev.chargeWrite
  exact foldl hk (fun _ _ he => foldl he (fun _ _ he => he.charge _ _ _ _) _) _

theorem write (hk : d₀.Kept d) (p : Nat) (e : Env) (a : Nat) (bs : Bytes) : d₀.Kept (d.write p e a bs).2 := by
  unfold Dev.write
  exact (hk.chargeWrite _ _ _).store _ _ _ _

theorem landBytes (hk : d₀.Kept d) (p : Nat) (e : Env) (a : Nat) (bs : Bytes) : d₀.Kept (d.landBytes p e a bs).2 := by
  unfold Dev.landBytes
  exact (foldl hk (fun _ _ he => foldl he (fun _ _ he => he.chargeNow _ _ _ _) _) _).store _ _ _ _

theorem poisonSector (hk : d₀.Kept d) (t off : Nat) (sector : Bool) : d₀.Kept (d.poisonSector t off sector) := by
  unfold Dev.poisonSector
  exact hk.modStack _ _

theorem poisonRange (hk : d₀.Kept d) (p a n : Nat) : d₀.Kept (d.poisonRange p a n) := by
  unfold Dev.poisonRange
  exact foldl hk (fun w a he => by
    split
    · exact he.poisonSector _ _ _
    · split
      next _ _ hfound =>
        split
        · exact (he.openZero _ _ hfound).poisonSector _ _ _
        · exact he.openZero _ _ hfound
      · exact he
    · exact he) _

theorem potWrite (hk : d₀.Kept d) (key : Nat) (bs : Bytes) : d₀.Kept (d.potWrite key bs) := by
  unfold Dev.potWrite
  refine (hk.setPotBad _).setMem_from hk ?_
  exact mwrite_wf _ _ _

theorem potPut (hk : d₀.Kept d) (x : Part) (s off : Nat) (bs : Bytes) : d₀.Kept (d.potPut x s off bs).2 := by
  unfold Dev.potPut
  split
  · exact hk
  · refine foldl_fst ?_ (fun w a he => ?_) _
    · exact hk
    · exact he.potWrite _ _

theorem potPoison (hk : d₀.Kept d) (key n : Nat) : d₀.Kept (d.potPoison key n) := by
  unfold Dev.potPoison
  exact ite hk (hk.setPotBad _)

end Dev.Kept
end Sys2Proof.Machine
end

section
/-! PROOF. Queues, races, whisk and DMA. -/
namespace Sys2Proof.Machine

namespace Dev.Kept
variable {d₀ d : Dev}

theorem modCmd (hk : d₀.Kept d) (r : CmdRef) (g : Cmd → Cmd) : d₀.Kept (d.modCmd r g) := by
  unfold Dev.modCmd
  exact hk.modQp _ _ _

theorem finish (hk : d₀.Kept d) (r : CmdRef) (st : Nat) (r0 : Nat) (r1 : Nat) (detail : Nat) (dies : List Nat) :
    d₀.Kept (d.finish r st r0 r1 detail dies) := by
  unfold Dev.finish
  exact hk.modCmd _ _

theorem mark (hk : d₀.Kept d) (r : CmdRef) (m : Marks) : d₀.Kept (d.mark r m) := by
  unfold Dev.mark
  exact hk.modCmd _ _

theorem withCmd (hk : d₀.Kept d) (r : CmdRef) (op : Nat) {body : Cmd → Dev} (hb : ∀ c, d₀.Kept (body c)) : d₀.Kept (d.withCmd r op body) := by
  unfold Dev.withCmd
  split
  · refine ite ?_ hk
    split
    · exact hk.finish _ _ _ _ _ _
    · exact hb _
  · exact hk

theorem post (hk : d₀.Kept d) (f q : Nat) (r0 tag st r1 detail : Nat) (flags : Nat) (noInt : Bool) :
    d₀.Kept (d.post f q r0 tag st r1 detail flags noInt) := by
  unfold Dev.post
  split
  · exact hk
  · exact ite hk (ite ((hk.putQp _ _ _).emitOut _) (((hk.putQp _ _ _).emitOut _).setLine _ _ _))

theorem dropPair (hk : d₀.Kept d) (f q : Nat) : d₀.Kept (d.dropPair f q) := by
  unfold Dev.dropPair
  exact (hk.setQps _).setLine _ _ _

theorem retireCmd (hk : d₀.Kept d) (r : CmdRef) (c : Cmd) : d₀.Kept (d.retireCmd r c) := by
  unfold Dev.retireCmd
  dsimp only
  split
  · refine ite (ite (((hk.modQp _ _ _).dropPair _ _).modFn _ ?_) ((hk.modQp _ _ _).dropPair _ _)) (hk.modQp _ _ _)
    exact fun _ c => c
  · exact hk.modQp _ _ _

theorem release (hk : d₀.Kept d) (r : CmdRef) : d₀.Kept (d.release r) := by
  unfold Dev.release
  split
  · exact ite ((hk.post _ _ _ _ _ _ _ _ _).retireCmd _ _) hk
  · exact hk

theorem qpError (hk : d₀.Kept d) (f q cause : Nat) : d₀.Kept (d.qpError f q cause) := by
  unfold Dev.qpError
  split
  · exact hk
  · refine ite hk ((ite ((hk.putQp _ _ _).modFn _ ?_) (hk.putQp _ _ _)).raise _ _)
    exact fun _ c => c

theorem sqTail (hk : d₀.Kept d) (f q v : Nat) (word32 : Bool) : d₀.Kept (d.sqTail f q v word32) := by
  unfold Dev.sqTail
  split
  · exact hk
  · exact ite hk (ite (hk.qpError _ _ _) (hk.putQp _ _ _))

theorem cqHead (hk : d₀.Kept d) (f q v : Nat) (word32 : Bool) : d₀.Kept (d.cqHead f q v word32) := by
  unfold Dev.cqHead
  split
  · exact hk
  · exact ite hk (ite (hk.qpError _ _ _) (ite ((hk.putQp _ _ _).setLine _ _ _) (hk.putQp _ _ _)))

theorem fetch (hk : d₀.Kept d) (f q : Nat) (rd : HostRead) : d₀.Kept (d.fetch f q rd) := by
  unfold Dev.fetch
  split
  · exact hk
  · refine ite ?_ ?_
    · exact hk
    · split
      · exact hk.putQp _ _ _
      · exact hk.qpError _ _ _

theorem fence (hk : d₀.Kept d) (r : CmdRef) : d₀.Kept (d.fence r) := by
  unfold Dev.fence
  refine hk.withCmd _ _ (fun _ => ?_)
  refine ite ?_ ?_
  · exact hk.finish _ _ _ _ _ _
  · split
    · exact ite (hk.finish _ _ _ _ _ _) hk
    · exact hk

theorem qpCreate (hk : d₀.Kept d) (r : CmdRef) : d₀.Kept (d.qpCreate r) := by
  unfold Dev.qpCreate
  refine hk.withCmd _ _ (fun _ => ?_)
  refine ite (hk.finish _ _ _ _ _ _) (ite (hk.finish _ _ _ _ _ _) (ite (hk.finish _ _ _ _ _ _) (((hk.putQp _ _ _).withInt _ ?_).finish _ _ _ _ _ _)))
  exact fun _ c => IntCtl.ok_setEnable (IntCtl.ok_setVector c _ _) _ _

theorem shutPair (hk : d₀.Kept d) (f q : Nat) : d₀.Kept (d.shutPair f q) := by
  unfold Dev.shutPair
  split
  · exact hk
  · exact ite (hk.dropPair _ _) (hk.putQp _ _ _)

theorem qpDelete (hk : d₀.Kept d) (r : CmdRef) : d₀.Kept (d.qpDelete r) := by
  unfold Dev.qpDelete
  split
  · exact ite (hk.finish _ _ _ _ _ _) hk
  · refine hk.withCmd _ _ (fun _ => ?_)
    exact ite (hk.finish _ _ _ _ _ _) (ite (hk.finish _ _ _ _ _ _) (ite ((hk.shutPair _ _).finish _ _ _ _ _ _) ((hk.shutPair _ _).modCmd _ _)))

theorem qpFlush (hk : d₀.Kept d) (r : CmdRef) : d₀.Kept (d.qpFlush r) := by
  unfold Dev.qpFlush
  refine hk.withCmd _ _ (fun _ => ?_)
  dsimp only
  refine ite ?_ ?_
  · exact hk.finish _ _ _ _ _ _
  · split
    · exact hk.finish _ _ _ _ _ _
    · exact (hk.putQp _ _ _).finish _ _ _ _ _ _

theorem setEn (hk : d₀.Kept d) (f : Nat) (en : Bool) : d₀.Kept (d.setEn f en) := by
  unfold Dev.setEn
  refine ite hk (ite (ite hk (ite (hk.putFn _ ?_) ((hk.putFn _ ?_).putQp _ _ _))) (ite hk ?_))
  · exact id
  · exact id
  refine ite (((hk.putFn _ ?_).shutPair _ _).modFn _ ?_) ((hk.putFn _ ?_).shutPair _ _)
  · exact id
  · exact fun _ c => c
  · exact id

theorem resetChannel (hk : d₀.Kept d) (c : Nat) : d₀.Kept (d.resetChannel c) := by
  unfold Dev.resetChannel
  dsimp only
  split
  · exact hk.putDma _ _
  · exact (hk.putDma _ _).emitOut _

theorem flr (hk : d₀.Kept d) (f : Nat) : d₀.Kept (d.flr f) := by
  unfold Dev.flr
  refine foldl (foldl (hk.putFn _ ?_) (fun _ _ he => he.shutPair _ _) _) (fun _ _ he => ite (he.resetChannel _) he) _
  exact fun _ => IntCtl.ok_default

theorem postCtx (hk : d₀.Kept d) (f i : Nat) (deferred : Bool) : d₀.Kept (d.postCtx f i deferred) := by
  unfold Dev.postCtx
  exact hk.post _ _ _ _ _ _ _ _ _

theorem ctxCompletion (hk : d₀.Kept d) (i : Nat) : d₀.Kept (d.ctxCompletion i) := by
  unfold Dev.ctxCompletion
  split
  · exact hk
  · split
    · exact hk
    · exact ite (hk.postCtx _ _ _) (hk.putQp _ _ _)

theorem postDeferred (hk : d₀.Kept d) (f q : Nat) : d₀.Kept (d.postDeferred f q) := by
  unfold Dev.postDeferred
  split
  · exact hk
  · split
    · exact hk
    · exact ite ((hk.putQp _ _ _).postCtx _ _ _) hk

theorem raced (hk : d₀.Kept d) (p : Nat) (by_ : Option Nat) (a n : Nat) : d₀.Kept (d.raced p by_ a n) := by
  unfold Dev.raced
  exact foldl (ite hk (hk.setRuns _)) (fun _ _ he => (he.freeBytes _).store _ _ _ _) _

theorem writeRaced (hk : d₀.Kept d) (p : Nat) (e : Env) (a : Nat) (b : Bytes) : d₀.Kept (d.writeRaced p e a b).2 := by
  unfold Dev.writeRaced
  exact (hk.write _ _ _ _).raced _ _ _ _

theorem readRuns (hk : d₀.Kept d) (p : Nat) (e : Env) (l : List (Nat × Nat)) : d₀.Kept (d.readRuns p e l).2 := by
  unfold Dev.readRuns
  refine foldl_snd ?_ (fun w a he => ?_) _
  · exact hk
  · exact he.read _ _ _ _

theorem writeMarked (hk : d₀.Kept d) (p : Nat) (e : Env) (a : Nat) (b : Bytes) (bad : List (Nat × Nat)) : d₀.Kept (d.writeMarked p e a b bad).2 := by
  unfold Dev.writeMarked
  refine foldl_snd ?_ (fun w a he => ?_) _
  · exact hk
  · split
    · exact he.poisonRange _ _ _
    · exact he.write _ _ _ _

theorem blurOverlap (hk : d₀.Kept d) (srcs : List (Nat × Nat)) (u skip a : Nat) (b : Bytes) : d₀.Kept (d.blurOverlap srcs u skip a b).2 := by
  unfold Dev.blurOverlap
  dsimp only
  split
  · exact hk
  · exact hk.setFree _

theorem sideRead (hk : d₀.Kept d) (p : Nat) (e : Env) (pot : Bool) (a n : Nat) : d₀.Kept (d.sideRead p e pot a n).2 := by
  unfold Dev.sideRead
  split
  · exact hk.read _ _ _ _
  · split
    · exact hk
    · exact hk

theorem potMarked (hk : d₀.Kept d) (p a : Nat) (b : Bytes) (bad : List (Nat × Nat)) : d₀.Kept (d.potMarked p a b bad).2 := by
  unfold Dev.potMarked
  split
  · refine foldl_snd ?_ (fun w a he => ?_) _
    · exact hk
    · split
      · exact foldl he (fun _ _ he => he.potPoison _ _) _
      · exact he.potPut _ _ _ _
  · exact hk

theorem sideWrite (hk : d₀.Kept d) (p : Nat) (e : Env) (pot : Bool) (a : Nat) (b : Bytes) (bad : List (Nat × Nat)) :
    d₀.Kept (d.sideWrite p e pot a b bad).2 := by
  unfold Dev.sideWrite
  split
  · exact hk.potMarked _ _ _ _
  · exact (hk.writeMarked _ _ _ _ _).raced _ _ _ _

theorem blurSide (hk : d₀.Kept d) (p : Nat) (pot : Bool) (l : List (Nat × Nat)) : d₀.Kept (d.blurSide p pot l) := by
  unfold Dev.blurSide
  exact foldl hk (fun _ _ he => ite ((he.freeBytes _).potMarked _ _ _ _) (((he.freeBytes _).store _ _ _ _).raced _ _ _ _)) _

theorem dmaWriteBack (hk : d₀.Kept d) (c : Nat) (t : Xfer) (endCount : Bool) : d₀.Kept (d.dmaWriteBack c t endCount) := by
  unfold Dev.dmaWriteBack
  exact ite (((hk.putDma _ _).emitOut _).pulse _ _) ((hk.putDma _ _).emitOut _)

theorem dmaAbort (hk : d₀.Kept d) (c st : Nat) : d₀.Kept (d.dmaAbort c st) := by
  unfold Dev.dmaAbort
  split
  · exact hk.dmaWriteBack _ _ _
  · exact hk

theorem dmaError (hk : d₀.Kept d) (c : Nat) : d₀.Kept (d.dmaError c) := by
  unfold Dev.dmaError
  exact ite hk (((hk.dmaAbort _ _).putDma _ _).raise _ _)

theorem dmaTail (hk : d₀.Kept d) (f c v : Nat) (word32 : Bool) : d₀.Kept (d.dmaTail f c v word32) := by
  unfold Dev.dmaTail
  exact ite hk (ite (hk.dmaError _) (hk.putDma _ _))

theorem dmaStop (hk : d₀.Kept d) (f c : Nat) (stop : Bool) : d₀.Kept (d.dmaStop f c stop) := by
  unfold Dev.dmaStop
  exact ite hk (ite (ite (hk.putDma _ _) (hk.putDma _ _)) (hk.putDma _ _))

theorem dmaReset (hk : d₀.Kept d) (f c : Nat) : d₀.Kept (d.dmaReset f c) := by
  unfold Dev.dmaReset
  exact ite hk ((hk.dmaAbort _ _).putDma _ _)

theorem dmaSize (hk : d₀.Kept d) (f c log2 : Nat) : d₀.Kept (d.dmaSize f c log2) := by
  unfold Dev.dmaSize
  exact ite hk (hk.putDma _ _)

theorem dmaOwner (hk : d₀.Kept d) (c fn : Nat) : d₀.Kept (d.dmaOwner c fn) := by
  unfold Dev.dmaOwner
  exact ite hk (hk.putDma _ _)

theorem dmaWhisk (hk : d₀.Kept d) (p : Nat) (x : DmaD) : d₀.Kept (d.dmaWhisk p x).2 := by
  unfold Dev.dmaWhisk
  split
  · exact hk
  · split
    · exact hk
    · dsimp only
      split
      · exact hk.read _ _ _ _
      · split
        · exact hk.read _ _ _ _
        · exact hk.read _ _ _ _

theorem dmaBad (hk : d₀.Kept d) (c idx st : Nat) : d₀.Kept (d.dmaBad c idx st) := by
  unfold Dev.dmaBad
  exact (hk.count _ _ _).raise _ _

theorem dmaDescriptor (hk : d₀.Kept d) (c : Nat) (rd data : HostRead) : d₀.Kept (d.dmaDescriptor c rd data) := by
  unfold Dev.dmaDescriptor
  refine ite ?_ ?_
  · exact hk
  · split
    · dsimp only
      refine ite ?_ ?_
      · exact (hk.putDma _ _).putDma _ _
      · refine ite ?_ ?_
        · exact (hk.putDma _ _).putDma _ _
        · split
          · exact (hk.putDma _ _).putDma _ _
          · split
            · exact ((hk.putDma _ _).dmaWhisk _ _).putDma _ _
            · split
              · exact ((hk.putDma _ _).dmaWhisk _ _).putDma _ _
              · split
                · exact (((hk.putDma _ _).dmaWhisk _ _).putDma _ _).dmaBad _ _ _
                · exact (((hk.putDma _ _).dmaWhisk _ _).putDma _ _).dmaBad _ _ _
                · exact ((hk.putDma _ _).dmaWhisk _ _).putDma _ _
    · exact hk.dmaError _

theorem dmaSource (hk : d₀.Kept d) (p : Nat) (e : Env) (t : Xfer) (host : Bool) (i : Nat) (k : Piece) (so : Nat) :
    d₀.Kept (d.dmaSource p e t host i k so).2 := by
  unfold Dev.dmaSource
  split
  · exact hk
  · split
    · split
      · exact hk
      · exact hk.freeBytes _
      · exact hk
    · exact hk.readRuns _ _ _

theorem dmaSnap (hk : d₀.Kept d) (p : Nat) (e : Env) (t : Xfer) : d₀.Kept (d.dmaSnap p e t).2.2 := by
  unfold Dev.dmaSnap
  split
  · exact hk
  · dsimp only
    refine foldl_snd_snd ?_ (fun w a he => ?_) _
    · exact hk
    · exact he.readRuns _ _ _

theorem dmaSink (hk : d₀.Kept d) (p : Nat) (e : Env) (toPart : Bool) (a : Nat) (b : Bytes) (bad : List (Nat × Nat)) :
    d₀.Kept (d.dmaSink p e toPart a b bad).2 := by
  unfold Dev.dmaSink
  split
  · exact hk
  · split
    · exact hk.sideWrite _ _ _ _ _ _
    · split
      · exact hk
      · exact foldl hk (fun _ _ he => he.emitOut _) _

theorem dmaMove (hk : d₀.Kept d) (p : Nat) (e : Env) (t : Xfer) (lo hi : Nat) : d₀.Kept (d.dmaMove p e t lo hi).2 := by
  unfold Dev.dmaMove
  dsimp only
  refine foldl_fst_snd ?_ (fun w a he => ?_) _
  · exact hk
  · split
    · exact he
    · refine dmaSink ?_ _ _ _ _ _ _
      refine blurOverlap ?_ _ _ _ _ _
      split
      · exact (he.dmaSource _ _ _ _ _ _ _).freeBytes _
      · exact he.dmaSource _ _ _ _ _ _ _

theorem dmaCharge (hk : d₀.Kept d) (c : Nat) (y : DmaD) (n : Nat) : d₀.Kept (d.dmaCharge c y n) := by
  unfold Dev.dmaCharge
  refine ite (ite (hk.charge _ _ _ _) ((hk.charge _ _ _ _).charge _ _ _ _)) ?_
  exact (ite (hk.charge _ _ _ _) ((hk.charge _ _ _ _).charge _ _ _ _)).charge _ _ _ _

theorem dmaAdvance (hk : d₀.Kept d) (c : Nat) (e : Env) (t : Xfer) (hi : Nat) : d₀.Kept (d.dmaAdvance c e t hi) := by
  unfold Dev.dmaAdvance
  refine ite (((((hk.dmaCharge _ _ _).dmaSnap _ _ _).dmaMove _ _ _ _ _).putDma _ _).dmaBad _ _ _) ?_
  exact (((hk.dmaCharge _ _ _).dmaSnap _ _ _).dmaMove _ _ _ _ _).putDma _ _

theorem dmaWriteback (hk : d₀.Kept d) (c : Nat) (e : Env) : d₀.Kept (d.dmaWriteback c e) := by
  unfold Dev.dmaWriteback
  dsimp only
  split
  · exact hk
  · refine ite ?_ ?_
    · exact hk
    · split
      · exact (ite hk (hk.dmaAdvance _ _ _ _)).dmaWriteBack _ _ _
      · exact ite hk (hk.dmaAdvance _ _ _ _)

theorem dmaStopped (hk : d₀.Kept d) (c bytes : Nat) (e : Env) : d₀.Kept (d.dmaStopped c bytes e) := by
  unfold Dev.dmaStopped
  dsimp only
  refine ite ?_ ?_
  · exact hk
  · split
    · exact hk.putDma _ _
    · exact ite hk (ite hk ((hk.dmaAdvance _ _ _ _).putDma _ _))

theorem holdChannels (hk : d₀.Kept d) (f : Nat) : d₀.Kept (d.holdChannels f) := by
  unfold Dev.holdChannels
  exact foldl hk (fun _ _ he => ite (he.putDma _ _) (he.putDma _ _)) _

theorem freeChannels (hk : d₀.Kept d) (f : Nat) : d₀.Kept (d.freeChannels f) := by
  unfold Dev.freeChannels
  exact foldl hk (fun _ _ he => he.putDma _ _) _

end Dev.Kept
end Sys2Proof.Machine
end

section
/-! PROOF. Event rows, stacks and tiers. -/
namespace Sys2Proof.Machine

namespace Dev.Kept
variable {d₀ d : Dev}

theorem claim (hk : d₀.Kept d) (f v : Nat) : d₀.Kept (d.claim f v) := by
  unfold Dev.claim
  refine ((hk.withInt _ ?_).withInt _ ?_).emitOut _
  · exact fun _ c => IntCtl.ok_apply c
  · exact fun _ c => IntCtl.ok_take c v

theorem intEnable (hk : d₀.Kept d) (f w mask : Nat) : d₀.Kept (d.intEnable f w mask) := by
  unfold Dev.intEnable
  refine foldl hk (fun _ _ he => ite (he.withInt _ ?_) he) _
  exact fun _ c => IntCtl.ok_setEnable c _ _

theorem unmask (hk : d₀.Kept d) (f v : Nat) : d₀.Kept (d.unmask f v) := by
  have hput : d₀.Kept (d.modFn f (fun x => { x with int := ((d.fn f).int.unmask v).1 })) :=
    hk.putFn f (fun c => IntCtl.ok_unmask c v)
  unfold Dev.unmask
  exact ite (hput.emitOut _) hput

theorem modEvt (hk : d₀.Kept d) (f : Nat) (g : EvtRing → EvtRing) : d₀.Kept (d.modEvt f g) := by
  unfold Dev.modEvt
  refine hk.modFn _ ?_
  exact fun _ c => c

theorem summary (hk : d₀.Kept d) (x : Suspect) : d₀.Kept (d.summary x) := by
  unfold Dev.summary
  exact ite hk (hk.event _)

theorem suspectExpiry (hk : d₀.Kept d) (j u : Nat) : d₀.Kept (d.suspectExpiry j u) := by
  unfold Dev.suspectExpiry
  dsimp only
  split
  · exact hk
  · refine (hk.putJd _ ?_).summary _
    exact rfl

theorem postedFailed (hk : d₀.Kept d) (w : PostedWrite) : d₀.Kept (d.postedFailed w) := by
  unfold Dev.postedFailed
  split
  · exact hk.qpError _ _ _
  · exact ite hk (((hk.modEvt _ _).pulse _ _).count _ _ _)
  · exact ite (hk.dmaError _) hk
  · split
    · exact ite (hk.modCmd _ _) hk
    · exact hk

theorem logHealth (hk : d₀.Kept d) {g : Flash → Flash} (hg : ∀ f, (g f).fwCtr = f.fwCtr ∧ (g f).recCtr = f.recCtr) :
    d₀.Kept (d.logHealth g) := by
  obtain ⟨hfw, hrec⟩ := hg { d.flash with seq := d.flash.seq + 1 }
  exact hk.setFlash (.of_eq hfw hrec)

theorem loseStack (hk : d₀.Kept d) (t : Nat) : d₀.Kept (d.loseStack t) := by
  unfold Dev.loseStack
  refine ite hk ((ite (((hk.modStack _ _).logHealth ?_).setRegs _) ((hk.modStack _ _).logHealth ?_)).raise _ _)
  · exact fun _ => ⟨rfl, rfl⟩
  · exact fun _ => ⟨rfl, rfl⟩

theorem patrol (hk : d₀.Kept d) (t n : Nat) (got : SectorRead) : d₀.Kept (d.patrol t n got) := by
  unfold Dev.patrol
  refine ite ?_ ?_
  · exact hk
  · split
    · exact hk
    · dsimp only
      refine ite ?_ ?_
      · exact hk
      · split
        · exact hk
        · exact hk.corrected _ _ _
        · exact hk.uncorrectable _ _ _ _

theorem retrainStart (hk : d₀.Kept d) (t p : Nat) : d₀.Kept (d.retrainStart t p) := by
  unfold Dev.retrainStart
  exact ite hk (hk.putStack _ _)

theorem channelFails (hk : d₀.Kept d) (t c : Nat) : d₀.Kept (d.channelFails t c) := by
  unfold Dev.channelFails
  dsimp only
  split
  · exact ite hk (hk.loseStack _)
  · exact hk.putStack _ _

theorem retrainEnd (hk : d₀.Kept d) (t : Nat) (ok : Bool) : d₀.Kept (d.retrainEnd t ok) := by
  unfold Dev.retrainEnd
  dsimp only
  split
  · exact hk
  · exact ite (hk.putStack _ _) (ite (hk.putStack _ _) (((hk.putStack _ _).raise _ _).channelFails _ _))

theorem startRepair (hk : d₀.Kept d) (t c : Nat) : d₀.Kept (d.startRepair t c) := by
  unfold Dev.startRepair
  refine (hk.logHealth ?_).modStack _ _
  exact fun _ => ⟨rfl, rfl⟩

theorem channelRetire (hk : d₀.Kept d) (t c : Nat) : d₀.Kept (d.channelRetire t c) := by
  unfold Dev.channelRetire
  exact ite hk (ite (ite hk (hk.loseStack _)) (hk.startRepair _ _))

theorem repairDone (hk : d₀.Kept d) (t : Nat) (lost : List Nat) : d₀.Kept (d.repairDone t lost) := by
  unfold Dev.repairDone
  dsimp only
  split
  · exact (ite (((foldl hk (fun _ _ he => ite he (he.uncorrectable _ _ _ _)) _).putStack _ _).setRegs _)
        ((foldl hk (fun _ _ he => ite he (he.uncorrectable _ _ _ _)) _).putStack _ _)).raise _ _
  · exact foldl hk (fun _ _ he => ite he (he.uncorrectable _ _ _ _)) _

theorem repairRequest (hk : d₀.Kept d) (t c : Nat) : d₀.Kept (d.repairRequest t c) := by
  unfold Dev.repairRequest
  exact ite hk (ite (hk.setRegs _) (ite (hk.setRegs _) (ite (hk.setRegs _) ((hk.setRegs _).startRepair _ _))))

theorem retrainRequest (hk : d₀.Kept d) (t p : Nat) : d₀.Kept (d.retrainRequest t p) := by
  unfold Dev.retrainRequest
  exact ite hk (ite (hk.setRegs _) ((hk.setRegs _).modStack _ _))

theorem crockPresent (hk : d₀.Kept d) (caps : List Nat) (links : List (Nat × Nat)) : d₀.Kept (d.crockPresent caps links) := by
  unfold Dev.crockPresent
  exact ite hk (ite (foldl (hk.setCrock _) (fun _ _ he => he.putCport _ _) _) ((foldl (hk.setCrock _) (fun _ _ he => he.putCport _ _) _).setCrock _))

theorem dropMoves (hk : d₀.Kept d) : d₀.Kept d.dropMoves := by
  unfold Dev.dropMoves
  exact foldl hk (fun w a he => by
    split
    · exact (he.crockEvent _ _ _).abandon _ _ _
    · exact he) _

theorem crockDown (hk : d₀.Kept d) (i : Nat) : d₀.Kept (d.crockDown i) := by
  unfold Dev.crockDown
  exact ite ((hk.putCport _ _).dropMoves) hk

theorem crockRetrained (hk : d₀.Kept d) (i : Nat) (ok : Bool) (width speed : Nat) : d₀.Kept (d.crockRetrained i ok width speed) := by
  unfold Dev.crockRetrained
  exact ite hk (ite (hk.putCport _ _) (hk.putCport _ _))

theorem crockRetrain (hk : d₀.Kept d) (mask : Nat) : d₀.Kept (d.crockRetrain mask) := by
  unfold Dev.crockRetrain
  exact foldl hk (fun _ _ he => ite he (ite ((he.putCport _ _).dropMoves) (he.putCport _ _))) _

theorem tierPromotion (hk : d₀.Kept d) (p pg : Nat) : d₀.Kept (d.tierPromotion p pg) := by
  unfold Dev.tierPromotion
  split
  · exact hk
  next _ _ hfound =>
    dsimp only
    split
    · refine ite ?_ ?_
      · exact hk
      · split
        · refine ite ((hk.putPart_of hk hfound ?_).count _ _ _) hk
          exact rfl
        · refine hk.putPart_of hk hfound ?_
          exact rfl
    · refine ite (hk.putPart_of hk hfound ?_) hk
      exact rfl

theorem tierDemotion (hk : d₀.Kept d) (p : Nat) : d₀.Kept (d.tierDemotion p) := by
  unfold Dev.tierDemotion
  split
  · exact hk
  next _ _ hfound =>
    dsimp only
    split
    · exact hk
    · refine ite ?_ ?_
      · exact hk
      · split
        · refine hk.putPart_of hk hfound ?_
          exact rfl
        · refine ite ?_ ?_
          · exact hk
          · split
            · refine hk.putPart_of hk hfound ?_
              exact rfl
            · refine hk.putPart_of hk hfound ?_
              exact rfl

theorem agingPeriod (hk : d₀.Kept d) (p : Nat) : d₀.Kept (d.agingPeriod p) := by
  unfold Dev.agingPeriod
  exact hk.modTier _ _

theorem migrationChunk (hk : d₀.Kept d) (p pg : Nat) (ok : Bool) : d₀.Kept (d.migrationChunk p pg ok) := by
  unfold Dev.migrationChunk
  split
  · exact hk
  · split
    · exact ite hk (ite ((hk.crockEvent _ _ _).abandon _ _ _) (hk.moveChunk _ _))
    · exact hk

theorem crockFails (hk : d₀.Kept d) (u : CrockUser) (a st : Nat) : d₀.Kept (d.crockFails u a st) := by
  unfold Dev.crockFails
  dsimp only
  split
  · split
    · exact ite ((hk.crockEvent _ _ _).mark _ _) (hk.crockEvent _ _ _)
    · exact hk.crockEvent _ _ _
  · exact hk.crockEvent _ _ _
  · split
    · exact ite (hk.crockEvent _ _ _) (((hk.crockEvent _ _ _).putDma _ _).dmaBad _ _ _)
    · exact hk.crockEvent _ _ _
  · exact hk.crockEvent _ _ _
  · exact (hk.crockEvent _ _ _).abandon _ _ _

theorem crockMiss (hk : d₀.Kept d) (u : CrockUser) (a st : Nat) : d₀.Kept (d.crockMiss u a st) := by
  unfold Dev.crockMiss
  exact ite (hk.crockFails _ _ _) (ite (hk.setCrock _) hk)

end Dev.Kept
end Sys2Proof.Machine
end

section
/-! PROOF. Fences, faults, power, sensing and heat. -/
namespace Sys2Proof.Machine

/-- What falls due at a boundary leaves the rest awaited. -/
theorem PartInOrder.cupsDue {p : Nat} {x : Part} (h : PartInOrder p x) (die : Nat) : PartInOrder p (x.cupsDue die) := by
  obtain ⟨hlow, hhigh, hnodup⟩ := h
  exact ⟨hlow, hhigh, hnodup.sublist (List.filter_sublist.map _)⟩

theorem PartsInOrder.cupsDue {m : KMap Part} (h : PartsInOrder m) (die : Nat) :
    PartsInOrder (m.map (fun e => (e.1, e.2.cupsDue die))) := by
  obtain ⟨hsorted, hall⟩ := h
  refine ⟨by rwa [List.map_map], fun e he => ?_⟩
  obtain ⟨z, hz, rfl⟩ := List.mem_map.1 he
  exact (hall z hz).cupsDue die

/-- An entry accepted anew takes the place of the one awaited for its offset. -/
theorem PartInOrder.cupPut {p : Nat} {x : Part} (h : PartInOrder p x) (off v : Nat) :
    PartInOrder p { x with cupsNew := x.cupsNew.filter (fun e => e.1 != off) ++ [(off, v)] } := by
  obtain ⟨hlow, hhigh, hnodup⟩ := h
  refine ⟨hlow, hhigh, ?_⟩
  show ((x.cupsNew.filter (fun e => e.1 != off) ++ [(off, v)]).map (·.1)).Nodup
  rw [List.map_append, List.nodup_append]
  refine ⟨hnodup.sublist (List.filter_sublist.map _), List.nodup_singleton _, ?_⟩
  intro a ha b hb hab
  obtain ⟨e, he, rfl⟩ := List.mem_map.1 ha
  rw [List.mem_singleton.1 hb] at hab
  exact bne_iff_ne.1 (List.mem_filter.1 he).2 hab

namespace Dev.Kept
variable {d₀ d : Dev}

theorem killRuns (hk : d₀.Kept d) (sel : Run → Bool) (m : Marks) : d₀.Kept (d.killRuns sel m) := by
  unfold Dev.killRuns
  exact hk.setRuns _

theorem catchHeld (hk : d₀.Kept d) (die : Nat) : d₀.Kept (d.catchHeld die) := by
  unfold Dev.catchHeld
  exact (hk.setQps _).setRuns _

theorem retireCore (hk : d₀.Kept d) (g reason cause : Nat) : d₀.Kept (d.retireCore g reason cause) := by
  unfold Dev.retireCore
  refine ite hk ((((((hk.modCore _ _).logHealth ?_).killRuns _ _).modPart _ ?_).raise _ _).alert _)
  · exact fun _ => ⟨rfl, rfl⟩
  · exact fun _ => rfl

theorem countFault (hk : d₀.Kept d) (g cause : Nat) : d₀.Kept (d.countFault g cause) := by
  unfold Dev.countFault
  dsimp only
  split
  · exact ite ((hk.modCore _ _).retireCore _ _ _) (hk.modCore _ _)
  · exact hk.modCore _ _

theorem safeStopNow (hk : d₀.Kept d) (reason : Nat) : d₀.Kept (d.safeStopNow reason) := by
  unfold Dev.safeStopNow
  exact ite hk (((hk.setSaf _).alert _).raise _ _)

theorem fenceRec (hk : d₀.Kept d) (die idx reason : Nat) : d₀.Kept (d.fenceRec die idx reason) := by
  unfold Dev.fenceRec
  exact (hk.raise _ _).alert _

theorem fenceCore (hk : d₀.Kept d) (g reason : Nat) : d₀.Kept (d.fenceCore g reason) := by
  unfold Dev.fenceCore
  exact ite hk ((((hk.modCore _ _).killRuns _ _).fenceRec _ _ _).countFault _ _)

theorem fenceSkillet (hk : d₀.Kept d) (k reason : Nat) : d₀.Kept (d.fenceSkillet k reason) := by
  unfold Dev.fenceSkillet
  exact ite hk (((((foldl (hk.modSkillet _ _) (fun _ _ he => he.modCore _ _) _).killRuns _ _).potPoison _ _).catchHeld _).fenceRec _ _ _)

theorem fenceStackCtl (hk : d₀.Kept d) (k reason : Nat) : d₀.Kept (d.fenceStackCtl k reason) := by
  unfold Dev.fenceStackCtl
  exact ite hk ((hk.modSkillet _ _).fenceRec _ _ _)

theorem fenceEngine (hk : d₀.Kept d) (k reason : Nat) : d₀.Kept (d.fenceEngine k reason) := by
  unfold Dev.fenceEngine
  exact ite hk ((hk.modSkillet _ _).fenceRec _ _ _)

theorem portDown (hk : d₀.Kept d) (p : Nat) : d₀.Kept (d.portDown p) := by
  unfold Dev.portDown
  exact hk.putPort _ _

theorem fenceFabPort (hk : d₀.Kept d) (p reason : Nat) : d₀.Kept (d.fenceFabPort p reason) := by
  unfold Dev.fenceFabPort
  exact ite hk (((hk.portDown _).putPort _ _).fenceRec _ _ _)

theorem fenceCrockPort (hk : d₀.Kept d) (i reason : Nat) : d₀.Kept (d.fenceCrockPort i reason) := by
  unfold Dev.fenceCrockPort
  exact ite hk ((hk.putCport _ _).fenceRec _ _ _)

theorem fenceIod (hk : d₀.Kept d) (i reason : Nat) : d₀.Kept (d.fenceIod i reason) := by
  unfold Dev.fenceIod
  refine ite (hk.safeStopNow _) (ite hk ?_)
  exact ((foldl ((((hk.setSaf _).portDown _).portDown _).putCport _ _) (fun _ _ he => he.dmaAbort _ _) _).catchHeld _).fenceRec _ _ _

theorem markJd (hk : d₀.Kept d) (j : Nat) : d₀.Kept (d.markJd j) := by
  unfold Dev.markJd
  exact hk.setQps _

theorem missTile (hk : d₀.Kept d) (part prog tile g : Nat) : d₀.Kept (d.missTile part prog tile g) := by
  unfold Dev.missTile
  exact (hk.setRuns _).count _ _ _

theorem fenceJd (hk : d₀.Kept d) (j reason : Nat) : d₀.Kept (d.fenceJd j reason) := by
  have hput : d₀.Kept (d.putJd j { d.jd j with fenced := true, own := [], other := [], mcast := [] }) :=
    hk.putJd_of j (fun _ _ hz => (by cases hz))
  have hmiss := foldl hput (fun _ (m : Mcast) he => foldl he (fun _ g he => he.missTile m.part m.prog m.tile g) m.subs) (d.jd j).mcast
  unfold Dev.fenceJd
  exact ite hk (ite (hk.safeStopNow _) ((((hmiss.killRuns _ _).markJd _).catchHeld _).fenceRec _ _ _))

theorem fenceDie (hk : d₀.Kept d) (die reason : Nat) : d₀.Kept (d.fenceDie die reason) := by
  unfold Dev.fenceDie
  exact ite (hk.fenceSkillet _ _) (ite (hk.fenceIod _ _) (ite (hk.fenceJd _ _) (hk.safeStopNow _)))

theorem soil (hk : d₀.Kept d) (die : Nat) : d₀.Kept (d.soil die) := by
  unfold Dev.soil
  exact hk.setSaf _

theorem clockFault (hk : d₀.Kept d) (die dom mhz : Nat) : d₀.Kept (d.clockFault die dom mhz) := by
  unfold Dev.clockFault
  refine ite hk ?_
  refine ite ?_ ?_
  · refine ite (((hk.raise _ _).catchHeld _).fenceCore _ _) (ite ((((hk.raise _ _).catchHeld _).soil _).fenceSkillet _ _) ?_)
    exact ite (((hk.raise _ _).catchHeld _).fenceStackCtl _ _) (((hk.raise _ _).catchHeld _).fenceEngine _ _)
  refine ite ?_ ?_
  · refine ite ((((hk.raise _ _).catchHeld _).soil _).fenceIod _ _) (ite (((hk.raise _ _).catchHeld _).fenceCrockPort _ _) ?_)
    exact ((hk.raise _ _).catchHeld _).fenceFabPort _ _
  exact (((hk.raise _ _).catchHeld _).soil _).fenceDie _ _

theorem railFault (hk : d₀.Kept d) (die rail mv : Nat) : d₀.Kept (d.railFault die rail mv) := by
  unfold Dev.railFault
  exact ite hk ((ite (((hk.soil _).raise _ _).setSaf _) ((hk.soil _).raise _ _)).fenceDie _ _)

theorem restored (hk : d₀.Kept d) (die idx : Nat) : d₀.Kept (d.restored die idx) := by
  unfold Dev.restored
  exact (hk.setSaf _).raise _ _

theorem unitReturn (hk : d₀.Kept d) (u : FenceUnit) : d₀.Kept (d.unitReturn u) := by
  unfold Dev.unitReturn
  split
  · exact ite ((hk.modCore _ _).restored _ _) hk
  · exact ite ((foldl (ite (((hk.modSkillet _ _).modStack _ _).setSaf _) (hk.modSkillet _ _)) (fun _ _ he => he.modCore _ _) _).restored _ _) hk
  · exact ite ((hk.modSkillet _ _).restored _ _) hk
  · exact ite ((hk.modSkillet _ _).restored _ _) hk
  · exact hk
  · exact ite ((ite (hk.setSaf _) ((hk.setSaf _).putCport _ _)).restored _ _) hk
  · exact ite ((hk.putCport _ _).restored _ _) hk
  · exact ite ((hk.putPort _ _).restored _ _) hk

theorem testEnd (hk : d₀.Kept d) (g : Nat) (ok : Bool) (step : Nat) : d₀.Kept (d.testEnd g ok step) := by
  unfold Dev.testEnd
  exact ite hk (ite ((hk.modCore _ _).modCore _ _) (((hk.modCore _ _).raise _ _).retireCore _ _ _))

theorem mechFails (hk : d₀.Kept d) (m : Mechanism) : d₀.Kept (d.mechFails m) := by
  unfold Dev.mechFails
  split
  · exact ite (hk.loseStack _) hk
  · exact hk.fenceDie _ _
  · exact ite (hk.fenceJd _ _) hk
  · exact hk.safeStopNow _
  · exact hk.fenceDie _ _
  · exact hk.modSkillet _ _

theorem cupBoundary (hk : d₀.Kept d) (die : Nat) : d₀.Kept (d.cupBoundary die) := by
  have hset : d₀.Kept (d.setParts (d.parts.map (fun e => (e.1, e.2.cupsDue die)))) := hk.setParts (fun _ c => c.cupsDue die)
  unfold Dev.cupBoundary
  exact ite hk (foldl (hset.putCups _ _) (fun _ _ he => he.event _) _)

theorem cupData (hk : d₀.Kept d) (v : Nat) : d₀.Kept (d.cupData v) := by
  unfold Dev.cupData
  dsimp only
  split
  · exact hk.setPwr _
  next x hx =>
    refine ite (hk.setPwr _) (ite (hk.setPwr _) (ite (hk.setPwr _) ((hk.putPart (fun c => ?_)).setPwr _)))
    exact (hk.part hx c).cupPut _ _

theorem capEvent (hk : d₀.Kept d) (x : Pwr) (source : Nat) : d₀.Kept (d.capEvent x source) := by
  unfold Dev.capEvent
  exact (hk.setPwr _).event _

theorem writeCap (hk : d₀.Kept d) (w : Nat) : d₀.Kept (d.writeCap w) := by
  unfold Dev.writeCap
  exact ite (hk.capEvent _ _) hk

theorem writeMode (hk : d₀.Kept d) (m : Nat) : d₀.Kept (d.writeMode m) := by
  unfold Dev.writeMode
  exact ite (hk.capEvent _ _) hk

theorem powerLoop (hk : d₀.Kept d) (x : Demand) : d₀.Kept (d.powerLoop x) := by
  unfold Dev.powerLoop
  exact ite ((hk.setPwr _).event _) (hk.setPwr _)

theorem calibrate (hk : d₀.Kept d) (gains : List Nat) (offset : Int) : d₀.Kept (d.calibrate gains offset) := by
  unfold Dev.calibrate
  exact ite hk (hk.setSense _)

theorem disagree (hk : d₀.Kept d) (e m : Nat) : d₀.Kept (d.disagree e m) := by
  unfold Dev.disagree
  exact ite hk ((hk.setPwr _).event _)

theorem agree (hk : d₀.Kept d) (e m : Nat) : d₀.Kept (d.agree e m) := by
  unfold Dev.agree
  exact ite hk ((hk.setPwr _).event _)

theorem addPower (hk : d₀.Kept d) (p n : Nat) : d₀.Kept (d.addPower p n) := by
  unfold Dev.addPower
  exact ite (((hk.setSense _).setPwr _).event _) ((hk.setSense _).setPwr _)

theorem inputLoss (hk : d₀.Kept d) : d₀.Kept d.inputLoss := by
  unfold Dev.inputLoss
  exact ite hk (((hk.setPwr _).event _).alert _)

theorem inputSample (hk : d₀.Kept d) (v i : Nat) : d₀.Kept (d.inputSample v i) := by
  unfold Dev.inputSample
  exact ite ((hk.setSense _).inputLoss) ((ite (((hk.setSense _).setPwr _).event _) (hk.setSense _)).addPower _ _)

theorem senseTimeout (hk : d₀.Kept d) (est : Nat) : d₀.Kept (d.senseTimeout est) := by
  unfold Dev.senseTimeout
  exact (hk.inputLoss.setPwr _).addPower _ _

theorem trivetTimeout (hk : d₀.Kept d) (k : Nat) : d₀.Kept (d.trivetTimeout k) := by
  unfold Dev.trivetTimeout
  exact ite hk ((hk.setPwr _).event _)

theorem thermWarn (hk : d₀.Kept d) (x : Sensor) (t : Int) : d₀.Kept (d.thermWarn x t) := by
  unfold Dev.thermWarn
  exact ite (ite hk ((hk.setSense _).event _)) (hk.setSense _)

theorem thermStep (hk : d₀.Kept d) (x : Sensor) : d₀.Kept (d.thermStep x) := by
  unfold Dev.thermStep
  split
  · exact hk.modSkillet _ _
  · exact hk

theorem thermEnd (hk : d₀.Kept d) (x : Sensor) : d₀.Kept (d.thermEnd x) := by
  unfold Dev.thermEnd
  split
  · exact hk.modSkillet _ _
  · exact hk

theorem thermEvent (hk : d₀.Kept d) (x : Sensor) (t : Int) (start : Bool) : d₀.Kept (d.thermEvent x t start) := by
  unfold Dev.thermEvent
  exact hk.event _

theorem thermThrottle (hk : d₀.Kept d) (x : Sensor) (t : Int) : d₀.Kept (d.thermThrottle x t) := by
  unfold Dev.thermThrottle
  split
  · exact hk
  · refine ite ((ite hk ((hk.setSense _).thermEvent _ _ _)).thermStep _) ?_
    exact ite (ite (((hk.setSense _).thermEnd _).thermEvent _ _ _) (hk.thermStep _)) hk

theorem thermRefresh (hk : d₀.Kept d) (x : Sensor) (t : Int) : d₀.Kept (d.thermRefresh x t) := by
  unfold Dev.thermRefresh
  split
  · exact hk.modStack _ _
  · exact hk

theorem thermFence (hk : d₀.Kept d) (x : Sensor) : d₀.Kept (d.thermFence x) := by
  unfold Dev.thermFence
  split
  · exact hk.fenceStackCtl _ _
  · exact hk.fenceDie _ _

theorem thermCritical (hk : d₀.Kept d) (x : Sensor) (t : Int) : d₀.Kept (d.thermCritical x t) := by
  unfold Dev.thermCritical
  exact ite (ite hk ((((hk.setSense _).raise _ _).alert _).thermFence _)) (hk.setSense _)

theorem thermOne (hk : d₀.Kept d) (x : Sensor) (t : Int) : d₀.Kept (d.thermOne x t) := by
  unfold Dev.thermOne
  exact ite ((((hk.thermRefresh _ _).thermWarn _ _).thermThrottle _ _).thermCritical _ _) hk

end Dev.Kept
end Sys2Proof.Machine
end

section
/-! PROOF. Images, reset and bring-up. -/
namespace Sys2Proof.Machine

/-! What a change of flash does to the rollback counters. -/

theorem Flash.Grows.putSlot (f : Flash) (n : Nat) (x : Slot) : f.Grows (f.putSlot n x) := by
  unfold Flash.putSlot
  split
  · exact .of_eq rfl rfl
  · exact .of_eq rfl rfl

theorem Flash.Grows.putRecord (f : Flash) (n : Nat) (x : Slot) : f.Grows (f.putRecord n x) := by
  unfold Flash.putRecord
  split
  · exact .of_eq rfl rfl
  · exact .of_eq rfl rfl

theorem Flash.Grows.reinstate {f g : Flash} (h : f.Grows g) (b : Bytes) : f.Grows (g.reinstate b) := by
  unfold Flash.reinstate
  split
  · exact h
  · exact h

theorem Flash.Grows.choose (f : Flash) : f.Grows { f.choose.2.2 with bootCount := f.choose.2.2.bootCount + 1 } := by
  obtain ⟨p, t, u, h⟩ := f.choose_shape
  rw [h]
  exact .of_eq rfl rfl

theorem Flash.Grows.advance (f : Flash) (n : Nat) : f.Grows (f.advance n) := ⟨(f.advance_fwCtr n).1, Nat.le_refl _⟩

/-- The flash after a recovery record is applied: its counter rises to the record's version at most once. -/
theorem Flash.Grows.applyRecord (f : Flash) (n : Nat) (i : Img) : f.Grows (if (f.record n).used then f
    else
      let g := (f.putRecord n { f.record n with used := true }).reinstate i.body
      if i.advance then { g with recCtr := max g.recCtr i.svn } else g) := by
  have hput := (Flash.Grows.putRecord f n { f.record n with used := true }).reinstate i.body
  split
  · exact .of_eq rfl rfl
  · dsimp only
    split
    · exact ⟨hput.1, Nat.le_trans hput.2 (Nat.le_max_left _ _)⟩
    · exact hput

namespace Dev.Kept
variable {d₀ d : Dev}

theorem fwStore (hk : d₀.Kept d) (target : Nat) (b : Bytes) (flashOk : Bool) : d₀.Kept (d.fwStore target b flashOk).1 := by
  unfold Dev.fwStore
  dsimp only
  split
  · split
    · exact hk
    · split
      · exact hk
      · exact hk.setFlash (Flash.Grows.putSlot _ _ _)
  · split
    · exact hk
    · split
      · exact hk
      · exact hk.setFlash (Flash.Grows.putRecord _ _ _)

theorem withHost (hk : d₀.Kept d) (r : CmdRef) (h : HostRead) {body : Bytes → Dev} (hb : ∀ b, d₀.Kept (body b)) : d₀.Kept (d.withHost r h body) := by
  unfold Dev.withHost
  split
  · exact hb _
  · exact (hk.mark _ _).finish _ _ _ _ _ _
  · exact (hk.mark _ _).finish _ _ _ _ _ _

theorem fwWrite (hk : d₀.Kept d) (r : CmdRef) (img : HostRead) (flashOk : Bool) : d₀.Kept (d.fwWrite r img flashOk) := by
  unfold Dev.fwWrite
  refine hk.withCmd _ _ (fun _ => ?_)
  refine ite ?_ ?_
  · exact hk.finish _ _ _ _ _ _
  · refine hk.withHost _ _ (fun _ => ?_)
    exact (hk.fwStore _ _ _).finish _ _ _ _ _ _

theorem fwActivate (hk : d₀.Kept d) (r : CmdRef) : d₀.Kept (d.fwActivate r) := by
  unfold Dev.fwActivate
  refine hk.withCmd _ _ (fun _ => ?_)
  refine ite (hk.finish _ _ _ _ _ _) (ite (hk.finish _ _ _ _ _ _) ((hk.setFlash ?_).finish _ _ _ _ _ _))
  exact .of_eq rfl rfl

theorem loadMicrocode (hk : d₀.Kept d) (i : Img) (failed : List Nat) (k : Nat) : d₀.Kept (d.loadMicrocode i failed k) := by
  unfold Dev.loadMicrocode
  exact foldl (ite ((hk.modSkillet _ _).unitReturn _) (hk.modSkillet _ _))
      (fun _ _ he => ite he (ite ((he.raise _ _).retireCore _ _ _) (he.modCore _ _))) _

theorem microcodeLoad (hk : d₀.Kept d) (r : CmdRef) (img : HostRead) (failed : List Nat) : d₀.Kept (d.microcodeLoad r img failed) := by
  unfold Dev.microcodeLoad
  refine hk.withCmd _ _ (fun _ => ?_)
  dsimp only
  refine ite ?_ ?_
  · exact hk.finish _ _ _ _ _ _
  · refine hk.withHost _ _ (fun _ => ?_)
    split
    · exact hk.finish _ _ _ _ _ _
    · refine ite (hk.finish _ _ _ _ _ _) (ite (hk.finish _ _ _ _ _ _) (ite (hk.finish _ _ _ _ _ _) (ite (hk.finish _ _ _ _ _ _) ?_)))
      exact ite (hk.finish _ _ _ _ _ _) ((foldl hk (fun _ _ he => he.loadMicrocode _ _ _) _).finish _ _ _ _ _ _)

theorem attest (hk : d₀.Kept d) (r : CmdRef) (nonce : HostRead) : d₀.Kept (d.attest r nonce) := by
  unfold Dev.attest
  refine hk.withCmd _ _ (fun _ => ?_)
  refine ite ?_ ?_
  · exact hk.finish _ _ _ _ _ _
  · refine hk.withHost _ _ (fun _ => ?_)
    exact (hk.emitOut _).finish _ _ _ _ _ _

theorem certRead (hk : d₀.Kept d) (r : CmdRef) : d₀.Kept (d.certRead r) := by
  unfold Dev.certRead
  refine hk.withCmd _ _ (fun _ => ?_)
  exact ite (hk.finish _ _ _ _ _ _) ((hk.emitOut _).finish _ _ _ _ _ _)

theorem spdmSay (hk : d₀.Kept d) (t st code : Nat) (data : Bytes) : d₀.Kept (d.spdmSay t st code data) := by
  unfold Dev.spdmSay
  exact (hk.setTrust _).emitOut _

theorem spdmAsk (hk : d₀.Kept d) (t code : Nat) (data : Bytes) : d₀.Kept (d.spdmAsk t code data) := by
  unfold Dev.spdmAsk
  exact ite (hk.spdmSay _ _ _ _) hk

theorem wiped (hk : d₀.Kept d) (powerOn : Bool) : d₀.Kept (d.wiped powerOn) :=
  have ⟨hmem, hfns, hparts, hjds⟩ := State.reset_ok
  ⟨hk.counters, fun _ => hmem, fun _ => hfns, fun _ => hparts, fun _ => hjds⟩

theorem powerOff (hk : d₀.Kept d) : d₀.Kept d.powerOff := by
  unfold Dev.powerOff
  exact (hk.wiped _).setMod _

theorem recover (hk : d₀.Kept d) (step cause reason : Nat) : d₀.Kept (d.recover step cause reason) := by
  unfold Dev.recover
  exact ((hk.setTrust _).setMod _).alert _

theorem applyRecord (hk : d₀.Kept d) (n : Nat) (i : Img) : d₀.Kept (d.applyRecord n i) := by
  unfold Dev.applyRecord
  exact (hk.setFlash (Flash.Grows.applyRecord _ n i)).setConf _

theorem failUnit (hk : d₀.Kept d) (u24 : Nat) : d₀.Kept (d.failUnit u24) := by
  unfold Dev.failUnit
  exact ite (hk.setTrust _) hk

theorem bootFence (hk : d₀.Kept d) (u : FenceUnit) : d₀.Kept (d.bootFence u) := by
  unfold Dev.bootFence
  dsimp only
  refine failUnit ?_ _
  split
  · exact ite (hk.fenceCore _ _) hk
  · exact hk.fenceDie _ _
  · exact hk.fenceStackCtl _ _
  · exact hk.fenceEngine _ _
  · exact hk.fenceJd _ _
  · exact hk.fenceIod _ _
  · exact hk.fenceCrockPort _ _
  · exact hk.fenceFabPort _ _

theorem bootMicrocode (hk : d₀.Kept d) (x : Slot) (bad : List Nat) : d₀.Kept (d.bootMicrocode x bad) := by
  unfold Dev.bootMicrocode
  exact foldl hk (fun w a he => by
    split
    · exact ite (he.modSkillet _ _) (((he.modSkillet _ _).fenceSkillet _ _).failUnit _)
    · exact ((he.modSkillet _ _).fenceSkillet _ _).failUnit _) _

theorem bootStacks (hk : d₀.Kept d) (bad : List (Nat × Nat)) : d₀.Kept (d.bootStacks bad) := by
  unfold Dev.bootStacks
  refine foldl (foldl (foldl hk (fun _ _ he => he.modStack _ _) _) (fun _ _ he => he.modStack _ _) _)
      (fun _ _ he => ite he (ite ((he.loseStack _).failUnit _) ((((he.logHealth ?_).modStack _ _).raise _ _).failUnit _))) _
  exact fun _ => ⟨rfl, rfl⟩

theorem bootPorts (hk : d₀.Kept d) : d₀.Kept d.bootPorts := by
  unfold Dev.bootPorts
  exact foldl (foldl hk (fun _ _ he => ite he (he.putCport _ _)) _) (fun _ _ he => ite he (he.putPort _ _)) _

theorem bootCores (hk : d₀.Kept d) (engines cores : List Nat) : d₀.Kept (d.bootCores engines cores) := by
  unfold Dev.bootCores
  exact foldl (foldl (foldl (foldl hk (fun _ _ he => ite (he.modSkillet _ _) he) _) (fun _ _ he => he.modCore _ _) _) (fun _ _ he => he.modCore _ _)
      _) (fun _ _ he => ite (((he.raise _ _).retireCore _ _ _).failUnit _) he) _

theorem atStep (hk : d₀.Kept d) (n : Nat) : d₀.Kept (d.atStep n) := by
  unfold Dev.atStep
  exact ite ((hk.setTrust _).setMod _) (hk.setTrust _)

theorem breakerReport (hk : d₀.Kept d) : d₀.Kept d.breakerReport := by
  unfold Dev.breakerReport
  exact ite ((hk.setMod _).alert _) hk

theorem bootUnits (hk : d₀.Kept d) (b : BringUp) (x : Slot) (io : Img) : d₀.Kept (d.bootUnits b x io) := by
  unfold Dev.bootUnits
  exact (((((((foldl hk (fun _ _ he => he.bootFence _) _).setTrust _).bootMicrocode _ _).bootPorts).bootStacks _).bootCores _ _).atStep _).setFab _

theorem bootStage1 (hk : d₀.Kept d) (b : BringUp) (x : Slot) (man rec fw : Img) : d₀.Kept (d.bootStage1 b x man rec fw) := by
  unfold Dev.bootStage1
  dsimp only
  split
  · exact (((hk.setTrust _).atStep _).failUnit _).alert _
  · refine ite ((((hk.setTrust _).atStep _).failUnit _).alert _) (ite ((((hk.setTrust _).atStep _).failUnit _).alert _) ?_)
    exact (hk.setTrust _).bootUnits _ _ _

theorem bootStage0 (hk : d₀.Kept d) (b : BringUp) (slot : Nat) : d₀.Kept (d.bootStage0 b slot) := by
  unfold Dev.bootStage0
  dsimp only
  split
  · exact hk.recover _ _ _
  · exact ite (hk.recover _ _ _) (hk.recover _ _ _)
  · split
    · exact hk.recover _ _ _
    · refine ite ?_ ?_
      · exact hk.recover _ _ _
      · refine ite ?_ ?_
        · exact hk.recover _ _ _
        · refine ite ?_ ?_
          · exact hk.recover _ _ _
          · refine ite ?_ ?_
            · exact hk.recover _ _ _
            · refine ite ?_ ?_
              · exact hk.recover _ _ _
              · split
                · exact ((hk.applyRecord _ _).breakerReport).recover _ _ _
                · refine ite (((hk.applyRecord _ _).breakerReport).recover _ _ _) ?_
                  exact ite (((hk.applyRecord _ _).breakerReport).recover _ _ _) (((hk.applyRecord _ _).breakerReport).bootStage1 _ _ _ _ _)

theorem boot (hk : d₀.Kept d) (b : BringUp) : d₀.Kept (d.boot b) := by
  have hset : d₀.Kept (d.setFlash { d.flash.choose.2.2 with bootCount := d.flash.choose.2.2.bootCount + 1 }) :=
    hk.setFlash (Flash.Grows.choose d.flash)
  unfold Dev.boot
  refine ite hk ?_
  dsimp only
  split
  · exact (((hset.setTrust _).atStep _).failUnit _).alert _
  · exact ite ((hset.setTrust _).recover _ _ _) (ite ((hset.setTrust _).recover _ _ _) ((hset.setTrust _).bootStage0 _ _))

theorem deviceReset (hk : d₀.Kept d) (b : BringUp) : d₀.Kept (d.deviceReset b) := by
  unfold Dev.deviceReset
  exact (hk.wiped _).boot _

theorem inputFall (hk : d₀.Kept d) (v : Nat) : d₀.Kept (d.inputFall v) := by
  unfold Dev.inputFall
  exact ite ((ite hk.powerOff hk).setMod _) (ite hk.powerOff hk)

theorem convReset (hk : d₀.Kept d) : d₀.Kept d.convReset := by
  unfold Dev.convReset
  exact (foldl hk (fun _ _ he => he.flr _) _).setMod _

theorem trialCommit (hk : d₀.Kept d) : d₀.Kept d.trialCommit := by
  unfold Dev.trialCommit
  refine ite ((hk.setFlash ?_).setTrust _) hk
  exact Flash.Grows.advance { d.flash with active := d.trust.bootSlot, pending := none, trialStarted := false } _

theorem i3c (hk : d₀.Kept d) (outcome : Nat) (data : Bytes) : d₀.Kept (d.i3c outcome data) := by
  unfold Dev.i3c
  exact ite (hk.emitOut _) hk

theorem setCap (hk : d₀.Kept d) (w : Nat) : d₀.Kept (d.setCap w) := by
  unfold Dev.setCap
  exact ite (hk.i3c _ _) (ite (hk.i3c _ _) ((hk.capEvent _ _).i3c _ _))

theorem stageBytes (hk : d₀.Kept d) (old : Bytes) (off : Nat) (b : Bytes) : d₀.Kept (d.stageBytes old off b).2 := by
  unfold Dev.stageBytes
  exact hk.freeBytes _

theorem imageWrite (hk : d₀.Kept d) (off : Nat) (b : Bytes) : d₀.Kept (d.imageWrite off b) := by
  unfold Dev.imageWrite
  exact ite (hk.i3c _ _) (ite (hk.i3c _ _) (((hk.stageBytes _ _ _).setTrust _).i3c _ _))

theorem recoveryWrite (hk : d₀.Kept d) (off : Nat) (b : Bytes) : d₀.Kept (d.recoveryWrite off b) := by
  unfold Dev.recoveryWrite
  exact ite (hk.i3c _ _) (ite (hk.i3c _ _) (((hk.stageBytes _ _ _).setTrust _).i3c _ _))

theorem recoveryRun (hk : d₀.Kept d) (len : Nat) : d₀.Kept (d.recoveryRun len) := by
  unfold Dev.recoveryRun
  refine ite ?_ ?_
  · exact hk.i3c _ _
  · refine ite ?_ ?_
    · exact hk.i3c _ _
    · split
      · exact hk.i3c _ _
      · exact ite (hk.i3c _ _) (ite (hk.i3c _ _) (ite (hk.i3c _ _) ((hk.setTrust _).i3c _ _)))

end Dev.Kept
end Sys2Proof.Machine
end

section
/-! PROOF. The fabric: flits, messages, windows. -/
namespace Sys2Proof.Machine

namespace Dev.Kept
variable {d₀ d : Dev}

theorem emitFlits (hk : d₀.Kept d) (p : Nat) (l : List Bytes) : d₀.Kept (d.emitFlits p l) := by
  unfold Dev.emitFlits
  exact foldl hk (fun _ _ he => he.emitOut _) _

theorem portSend (hk : d₀.Kept d) (p : Nat) (tp : Bytes) : d₀.Kept (d.portSend p tp) := by
  unfold Dev.portSend
  exact ite (hk.putPort _ _) ((hk.putPort _ _).emitFlits _ _)

theorem portFlush (hk : d₀.Kept d) (p : Nat) : d₀.Kept (d.portFlush p) := by
  unfold Dev.portFlush
  exact foldl (hk.putPort _ _) (fun _ _ he => he.portSend _ _) _

theorem deal (hk : d₀.Kept d) (part : Nat) (tp : Bytes) : d₀.Kept (d.deal part tp) := by
  unfold Dev.deal
  dsimp only
  split
  · exact hk
  · exact ((hk.setFab _).charge _ _ _ _).portSend _ _

theorem dealMsg (hk : d₀.Kept d) (part : Nat) (h : MsgHead) (data : Bytes) (poison : List Nat) : d₀.Kept (d.dealMsg part h data poison) := by
  unfold Dev.dealMsg
  exact foldl hk (fun _ _ he => he.deal _ _) _

theorem putDest (hk : d₀.Kept d) (m : Nat) (x : Dest) : d₀.Kept (d.putDest m x) := by
  unfold Dev.putDest
  exact hk.setFab _

theorem putSrc (hk : d₀.Kept d) (m : Nat) (x : Src) : d₀.Kept (d.putSrc m x) := by
  unfold Dev.putSrc
  exact hk.setFab _

theorem transmit (hk : d₀.Kept d) (m : Msg) : d₀.Kept (d.transmit m) := by
  unfold Dev.transmit
  exact (hk.setFab _).dealMsg _ _ _ _

theorem sendHeld (hk : d₀.Kept d) (dst : Nat) : d₀.Kept (d.sendHeld dst) := by
  unfold Dev.sendHeld
  exact foldl hk (fun _ _ he => ite (he.transmit _) he) _

theorem sayCtl (hk : d₀.Kept d) (dst op : Nat) (data : Bytes) : d₀.Kept (d.sayCtl dst op data) := by
  unfold Dev.sayCtl
  exact (hk.putDest _ _).dealMsg _ _ _ _

theorem sendMsg (hk : d₀.Kept d) (m : Msg) : d₀.Kept (d.sendMsg m).2 := by
  unfold Dev.sendMsg
  exact ite (((hk.putDest _ _).setFab _).transmit _) ((hk.putDest _ _).setFab _)

theorem sayAck (hk : d₀.Kept d) (src msg : Nat) : d₀.Kept (d.sayAck src msg) := by
  unfold Dev.sayAck
  exact hk.sayCtl _ _ _

theorem sayRefuse (hk : d₀.Kept d) (src msg cause : Nat) : d₀.Kept (d.sayRefuse src msg cause) := by
  unfold Dev.sayRefuse
  exact hk.sayCtl _ _ _

theorem fabEvent (hk : d₀.Kept d) (code p cause : Nat) (payload : Bytes) : d₀.Kept (d.fabEvent code p cause payload) := by
  unfold Dev.fabEvent
  exact hk.raise _ _

theorem haloEnd (hk : d₀.Kept d) (p : Nat) (c : Cmd) : d₀.Kept (d.haloEnd p c) := by
  unfold Dev.haloEnd
  split
  · exact hk
  · exact hk.blurSide _ _ _

theorem settleCmd (hk : d₀.Kept d) (r : CmdRef) : d₀.Kept (d.settleCmd r) := by
  unfold Dev.settleCmd
  split
  · exact ite ((hk.haloEnd _ _).finish _ _ _ _ _ _) hk
  · exact hk

theorem haloLost (hk : d₀.Kept d) (r : CmdRef) (k : Nat) : d₀.Kept (d.haloLost r k) := by
  unfold Dev.haloLost
  exact hk.modCmd _ _

theorem unawait (hk : d₀.Kept d) (r : CmdRef) (dst id : Nat) : d₀.Kept (d.unawait r dst id) := by
  unfold Dev.unawait
  exact hk.modCmd _ _

theorem dropTag (hk : d₀.Kept d) (t : ReadTag) : d₀.Kept (d.dropTag t) := by
  unfold Dev.dropTag
  dsimp only
  split
  · exact ((hk.setFab _).modCmd _ _).settleCmd _
  · exact hk.setFab _

theorem failTag (hk : d₀.Kept d) (t : ReadTag) (cause : Nat) : d₀.Kept (d.failTag t cause) := by
  unfold Dev.failTag
  dsimp only
  refine dropTag ?_ _
  split
  · exact ((hk.blurSide _ _ _).mark _ _).haloLost _ _
  · exact hk.blurSide _ _ _

theorem failMsg (hk : d₀.Kept d) (m : Msg) (cause : Nat) : d₀.Kept (d.failMsg m cause) := by
  unfold Dev.failMsg
  dsimp only
  refine sendHeld ?_ _
  split
  · refine settleCmd ?_ _
    refine unawait ?_ _ _ _
    refine mark ?_ _ _
    split
    · exact ((hk.setFab _).fabEvent _ _ _ _).failTag _ _
    · exact (hk.setFab _).fabEvent _ _ _ _
  · split
    · exact ((hk.setFab _).fabEvent _ _ _ _).failTag _ _
    · exact (hk.setFab _).fabEvent _ _ _ _

theorem cmdSend (hk : d₀.Kept d) (r : CmdRef) (m : Msg) : d₀.Kept (d.cmdSend r m).2 := by
  unfold Dev.cmdSend
  split
  · exact hk.mark _ _
  · exact (hk.sendMsg _).modCmd _ _

theorem sayIdle (hk : d₀.Kept d) (p ftype : Nat) : d₀.Kept (d.sayIdle p ftype) := by
  unfold Dev.sayIdle
  exact hk.emitOut _

theorem retrainPort (hk : d₀.Kept d) (p : Nat) : d₀.Kept (d.retrainPort p) := by
  unfold Dev.retrainPort
  exact (hk.putPort _ _).fabEvent _ _ _ _

theorem replayPort (hk : d₀.Kept d) (p cause : Nat) : d₀.Kept (d.replayPort p cause) := by
  unfold Dev.replayPort
  dsimp only
  split
  · exact hk
  · refine ite ((hk.fabEvent _ _ _ _).retrainPort _) (ite ((hk.fabEvent _ _ _ _).putPort _ _) ?_)
    exact foldl ((hk.fabEvent _ _ _ _).putPort _ _) (fun _ _ he => (he.putPort _ _).emitFlits _ _) _

theorem takePart (hk : d₀.Kept d) (p : Nat) (tp : Bytes) : d₀.Kept (d.takePart p tp) := by
  unfold Dev.takePart
  exact ite (hk.fabEvent _ _ _ _) (ite hk (ite hk (ite hk (hk.putSrc _ _))))

theorem flitReceive (hk : d₀.Kept d) (p : Nat) (flit : Bytes) : d₀.Kept (d.flitReceive p flit) := by
  unfold Dev.flitReceive
  dsimp only
  refine ite ?_ ?_
  · exact hk
  · refine ite ?_ ?_
    · exact hk.sayIdle _ _
    · refine ite ?_ ?_
      · exact hk
      · split
        · exact (hk.putPort _ _).portFlush _
        · exact (((hk.putPort _ _).portFlush _).freeBytes _).replayPort _ _
        · refine ite (((((hk.putPort _ _).portFlush _).putPort _ _).takePart _ _).sayIdle _ _) ?_
          refine ite (ite (((hk.putPort _ _).portFlush _).putPort _ _) ((((hk.putPort _ _).portFlush _).putPort _ _).sayIdle _ _)) ?_
          exact ((hk.putPort _ _).portFlush _).putPort _ _

theorem portTrained (hk : d₀.Kept d) (p : Nat) (ok : Bool) (credits : List Nat) : d₀.Kept (d.portTrained p ok credits) := by
  unfold Dev.portTrained
  exact ite hk (ite (((hk.putPort _ _).fabEvent _ _ _ _).portFlush _) (ite (hk.putPort _ _) (((hk.putPort _ _).portDown _).fabEvent _ _ _ _)))

theorem portRetrain (hk : d₀.Kept d) (p : Nat) : d₀.Kept (d.portRetrain p) := by
  unfold Dev.portRetrain
  exact ite (hk.putPort _ _) hk

theorem commitMsg (hk : d₀.Kept d) (src msg : Nat) : d₀.Kept (d.commitMsg src msg) := by
  unfold Dev.commitMsg
  exact hk.putSrc _ _

theorem refuseMsg (hk : d₀.Kept d) (src msg : Nat) (f : Bytes) : d₀.Kept (d.refuseMsg src msg f) := by
  unfold Dev.refuseMsg
  exact ((hk.commitMsg _ _).sayRefuse _ _ _).fabEvent _ _ _ _

theorem landMarked (hk : d₀.Kept d) (p a : Nat) (b : Bytes) (bad : List (Nat × Nat)) : d₀.Kept (d.landMarked p a b bad) := by
  unfold Dev.landMarked
  exact (foldl hk (fun _ _ he => ite (he.poisonRange _ _ _) (he.landBytes _ _ _ _)) _).raced _ _ _ _

theorem onWindow (hk : d₀.Kept d) (src msg op : Nat) (len : Bytes → Nat) {body : Window → Bytes → Bytes → List (Nat × Nat) → Dev}
    (hb : ∀ w f z l, d₀.Kept (body w f z l)) : d₀.Kept (d.onWindow src msg op len body) := by
  unfold Dev.onWindow
  split
  · exact hk
  · split
    · exact hk
    · exact ite (hb _ _ _ _) (hk.refuseMsg _ _ _)

theorem readResp (hk : d₀.Kept d) (src msg : Nat) : d₀.Kept (d.readResp src msg) := by
  unfold Dev.readResp
  split
  · exact hk
  · dsimp only
    split
    · exact hk
    · split
      · exact (hk.commitMsg _ _).sayAck _ _
      · refine ite ?_ ?_
        · refine dropTag ?_ _
          split
          · refine ite (ite (((hk.commitMsg _ _).sayAck _ _).potMarked _ _ _ _) (((hk.commitMsg _ _).sayAck _ _).landMarked _ _ _ _)) ?_
            exact (ite (((hk.commitMsg _ _).sayAck _ _).potMarked _ _ _ _) (((hk.commitMsg _ _).sayAck _ _).landMarked _ _ _ _)).mark _ _
          · exact ite (((hk.commitMsg _ _).sayAck _ _).potMarked _ _ _ _) (((hk.commitMsg _ _).sayAck _ _).landMarked _ _ _ _)
        · refine setFab ?_ _
          split
          · refine ite (ite (((hk.commitMsg _ _).sayAck _ _).potMarked _ _ _ _) (((hk.commitMsg _ _).sayAck _ _).landMarked _ _ _ _)) ?_
            exact (ite (((hk.commitMsg _ _).sayAck _ _).potMarked _ _ _ _) (((hk.commitMsg _ _).sayAck _ _).landMarked _ _ _ _)).mark _ _
          · exact ite (((hk.commitMsg _ _).sayAck _ _).potMarked _ _ _ _) (((hk.commitMsg _ _).sayAck _ _).landMarked _ _ _ _)

theorem acked (hk : d₀.Kept d) (dst id : Nat) : d₀.Kept (d.acked dst id) := by
  unfold Dev.acked
  split
  · exact hk
  · dsimp only
    refine sendHeld ?_ _
    split
    · exact ((ite ((hk.setFab _).putDest _ _) (hk.setFab _)).unawait _ _ _).settleCmd _
    · exact ite ((hk.setFab _).putDest _ _) (hk.setFab _)

theorem ackMsg (hk : d₀.Kept d) (src msg : Nat) : d₀.Kept (d.ackMsg src msg) := by
  unfold Dev.ackMsg
  split
  · exact hk
  · exact foldl (hk.commitMsg _ _) (fun _ _ he => he.acked _ _) _

theorem refused (hk : d₀.Kept d) (src msg : Nat) : d₀.Kept (d.refused src msg) := by
  unfold Dev.refused
  split
  · exact hk
  · dsimp only
    split
    · exact hk.commitMsg _ _
    · exact (hk.commitMsg _ _).failMsg _ _

theorem e2eTimeout (hk : d₀.Kept d) (dst id : Nat) : d₀.Kept (d.e2eTimeout dst id) := by
  unfold Dev.e2eTimeout
  split
  · exact hk
  · exact ite hk (ite ((hk.setFab _).dealMsg _ _ _ _) ((hk.putDest _ _).failMsg _ _))

theorem tagTimeout (hk : d₀.Kept d) (tag : Nat) : d₀.Kept (d.tagTimeout tag) := by
  unfold Dev.tagTimeout
  split
  · exact hk
  · exact (hk.fabEvent _ _ _ _).failTag _ _

theorem winCfg (hk : d₀.Kept d) (h v : Nat) : d₀.Kept (d.winCfg h v) := by
  unfold Dev.winCfg
  refine ite ?_ ?_
  · exact hk
  · dsimp only
    refine ite ?_ ?_
    · exact hk.setFab _
    · split
      · exact hk.setFab _
      · exact ite (hk.setFab _) (hk.setFab _)

theorem closeWindows (hk : d₀.Kept d) (p : Nat) : d₀.Kept (d.closeWindows p) := by
  unfold Dev.closeWindows
  exact hk.setFab _

theorem modInj (hk : d₀.Kept d) (p : Nat) (g : Inj → Inj) : d₀.Kept (d.modInj p g) := by
  unfold Dev.modInj
  exact ite (hk.putPort _ _) hk

end Dev.Kept
end Sys2Proof.Machine
end

section
/-! PROOF. Partitions and pods. -/
namespace Sys2Proof.Machine

theorem cupOffsets_nodup : cupOffsets.Nodup := by decide

/-- A fresh partition's cup entries are listed once each, as its specification lists them. -/
theorem parseSpec_cups_nodup (b : Bytes) : ((parseSpec b).cups.map (·.1)).Nodup := by
  have hkeys : (parseSpec b).cups.map (·.1) = cupOffsets := by
    show (cupOffsets.map (fun o => (o, field b (0x100 + o) 2))).map (·.1) = cupOffsets
    rw [List.map_map]
    exact List.map_id _
  rw [hkeys]
  exact cupOffsets_nodup

/-- Entries made for some of the offsets, each under its own. -/
theorem filterMap_keys_nodup {g : Nat → Option (Nat × Nat)} (hg : ∀ o e, g o = some e → e.1 = o) :
    ∀ l : List Nat, l.Nodup → ((l.filterMap g).map (·.1)).Nodup ∧ ∀ k ∈ (l.filterMap g).map (·.1), k ∈ l
  | [], _ => ⟨List.nodup_nil, fun _ h => h⟩
  | o :: l, h => by
    obtain ⟨ho, hl⟩ := List.nodup_cons.1 h
    obtain ⟨hnodup, hmem⟩ := filterMap_keys_nodup hg l hl
    cases he : g o with
    | none =>
      rw [List.filterMap_cons_none he]
      exact ⟨hnodup, fun k hk => List.mem_cons_of_mem _ (hmem k hk)⟩
    | some e =>
      rw [List.filterMap_cons_some he, List.map_cons, hg o e he]
      exact ⟨List.nodup_cons.2 ⟨fun hin => ho (hmem o hin), hnodup⟩, fun k hk => List.mem_cons.2 ((List.mem_cons.1 hk).imp_right (hmem k))⟩

theorem Part.addCups_nodup (y x : Part) : ((y.addCups x).cupsNew.map (·.1)).Nodup := by
  unfold Part.addCups
  dsimp only
  refine (filterMap_keys_nodup ?_ cupOffsets cupOffsets_nodup).1
  intro o e he
  split at he
  · have hfound := List.find?_some he
    exact beq_iff_eq.1 hfound
  · obtain rfl := Option.some.inj he
    rfl

theorem PartsInOrder.kdel {m : KMap Part} (h : PartsInOrder m) (p : Nat) : PartsInOrder (kdel m p) :=
  ⟨h.1.sublist (List.filter_sublist.map _), fun e he => h.2 e (List.mem_filter.1 he).1⟩

theorem CastsInOrder.filter {m : KMap Jd} (h : CastsInOrder m) (q : Mcast → Bool) :
    CastsInOrder (m.map (fun e => (e.1, { e.2 with mcast := e.2.mcast.filter q }))) := by
  intro e he z hz
  obtain ⟨w, hw, rfl⟩ := List.mem_map.1 he
  exact h w hw z (List.mem_filter.1 hz).1

namespace Dev.Kept
variable {d₀ d : Dev}

theorem putCtx (hk : d₀.Kept d) (i : Nat) (c : Ctx) : d₀.Kept (d.putCtx i c) := by
  unfold Dev.putCtx
  dsimp only
  refine ite ?_ ?_
  · exact hk.setCtxs _
  · split
    · exact (hk.setCtxs _).store _ _ _ _
    · exact hk.setCtxs _

theorem modPairs (hk : d₀.Kept d) (f : Nat) (g : Qp → Qp) : d₀.Kept (d.modPairs f g) := by
  unfold Dev.modPairs
  exact hk.setQps _

theorem freeCtx (hk : d₀.Kept d) (i : Nat) : d₀.Kept (d.freeCtx i) := by
  unfold Dev.freeCtx
  dsimp only
  split
  · exact hk.putCtx _ _
  · refine ((hk.modPart _ ?_).putCtx _ _).modPairs _ _
    exact fun _ => rfl

theorem freeStuck (hk : d₀.Kept d) (p : Nat) : d₀.Kept (d.freeStuck p) := by
  unfold Dev.freeStuck
  split
  · exact hk
  · exact foldl hk (fun _ _ he => he.freeCtx _) _

theorem newRegion (hk : d₀.Kept d) (p base : Nat) (r : RegSpec) (kind : Nat) {z : Nat × Dev} (he : d.newRegion p base r kind = some z) :
    d₀.Kept z.2 := by
  unfold Dev.newRegion at he
  split at he
  · obtain rfl := Option.some.inj he
    exact hk
  · cases he

theorem newRegions (hk : d₀.Kept d) (p : Nat) (l : List RegSpec) (base : Nat) {z : List Nat × Nat × Dev}
    (he : Dev.newRegions d p l base = some z) : d₀.Kept z.2.2 := by
  induction l generalizing d base z with
  | nil =>
    obtain rfl := Option.some.inj he
    exact hk
  | cons r l ih =>
    unfold Dev.newRegions at he
    split at he
    · cases he
    next n d1 h1 =>
      obtain ⟨w, hw, rfl⟩ := Option.map_eq_some_iff.1 he
      have hd1 : d₀.Kept d1 := hk.newRegion p base r 0 h1
      exact ih (z := w) hd1 _ hw

theorem admitPart (hk : d₀.Kept d) {p : Nat} (hp : 1 ≤ p ∧ p ≤ 16) (b : Bytes) (job : Nat) {e : Dev} (he : d.admitPart p b job = .inl e) :
    d₀.Kept e := by
  unfold Dev.admitPart at he
  dsimp only at he
  split at he
  · cases he
  split at he
  · cases he
  split at he
  · cases he
  next h1 =>
  split at he
  · cases he
  next h2 =>
  split at he
  · cases he
  next tent d3 h3 =>
  split at he
  · cases he
  split at he
  · cases he
  have hd2 := (hk.newRegions p _ partBase h1).newRegion p _ _ 1 h2
  have hd3 : d₀.Kept d3 := by
    split at h3
    · obtain rfl := congrArg Prod.snd (Option.some.inj h3)
      exact hd2
    · exact hd2.newRegion p _ _ 2 h3
  obtain rfl := Sum.inl.inj he
  refine foldl (((hd3.setCrock _).putPart (fun _ => ?_)).modFn _ ?_) (fun _ _ he => he.zeroUnit _) _
  · exact ⟨hp.1, hp.2, parseSpec_cups_nodup b⟩
  · exact fun _ c => c

theorem partCreate (hk : d₀.Kept d) (r : CmdRef) (spec : HostRead) : d₀.Kept (d.partCreate r spec) := by
  unfold Dev.partCreate
  refine hk.withCmd _ _ (fun c => ?_)
  dsimp only
  split
  · exact hk.finish _ _ _ _ _ _
  next hchecks =>
    have hp : 1 ≤ byteAt c.desc 8 ∧ byteAt c.desc 8 ≤ 16 := by
      simp only [not_or] at hchecks
      omega
    refine hk.withHost _ _ (fun b => ?_)
    split
    next h => exact (hk.admitPart hp _ _ h).finish _ _ _ _ _ _
    next => exact hk.finish _ _ _ _ _ _

theorem parkAll (hk : d₀.Kept d) (p : Nat) : d₀.Kept (d.parkAll p) := by
  unfold Dev.parkAll
  split
  · exact hk
  · refine (foldl hk (fun _ _ he => he.putCtx _ _) _).modPart _ ?_
    exact fun _ => rfl

theorem suspendEnd (hk : d₀.Kept d) (r : CmdRef) (p addr : Nat) : d₀.Kept (d.suspendEnd r p addr) := by
  unfold Dev.suspendEnd
  exact (foldl (hk.parkAll _) (fun _ _ he => he.emitOut _) _).finish _ _ _ _ _ _

theorem partSuspend (hk : d₀.Kept d) (r : CmdRef) : d₀.Kept (d.partSuspend r) := by
  unfold Dev.partSuspend
  split
  · exact ite (hk.suspendEnd _ _ _) hk
  · refine hk.withCmd _ _ (fun _ => ?_)
    dsimp only
    refine ite ?_ ?_
    · exact hk.finish _ _ _ _ _ _
    · split
      · exact hk.finish _ _ _ _ _ _
      next _ _ hfound =>
        refine ite (hk.finish _ _ _ _ _ _) ?_
        refine ite (((((hk.putPart_of hk hfound ?_).modPairs _ _).holdChannels _).freeStuck _).suspendEnd _ _ _) ?_
        · exact rfl
        refine ((((hk.putPart_of hk hfound ?_).modPairs _ _).holdChannels _).freeStuck _).modCmd _ _
        exact rfl

theorem partResume (hk : d₀.Kept d) (r : CmdRef) (saved : HostRead) : d₀.Kept (d.partResume r saved) := by
  unfold Dev.partResume
  refine hk.withCmd _ _ (fun _ => ?_)
  dsimp only
  refine ite ?_ ?_
  · exact hk.finish _ _ _ _ _ _
  · split
    · exact hk.finish _ _ _ _ _ _
    next _ _ hfound =>
      refine ite ?_ ?_
      · exact hk.finish _ _ _ _ _ _
      · refine ite ?_ ?_
        · exact hk.finish _ _ _ _ _ _
        · refine hk.withHost _ _ (fun _ => ?_)
          refine ((foldl (hk.putPart_of hk hfound ?_) (fun _ _ he => he.putQp _ _ _) _).freeChannels _).finish _ _ _ _ _ _
          exact rfl

theorem quiesce (hk : d₀.Kept d) (p : Nat) (by' : Option CmdRef) (recipient : Nat) : d₀.Kept (d.quiesce p by' recipient) := by
  unfold Dev.quiesce
  refine ((((hk.closeWindows _).modPart _ ?_).modPairs _ _).holdChannels _).freeStuck _
  exact fun _ => rfl

theorem partReclaim (hk : d₀.Kept d) (r : CmdRef) : d₀.Kept (d.partReclaim r) := by
  unfold Dev.partReclaim
  refine hk.withCmd _ _ (fun _ => ?_)
  dsimp only
  refine ite ?_ ?_
  · exact hk.finish _ _ _ _ _ _
  · split
    · exact hk.finish _ _ _ _ _ _
    · exact ite (hk.finish _ _ _ _ _ _) ((hk.quiesce _ _ _).modCmd _ _)

theorem fillRegion (hk : d₀.Kept d) (g : Region) : d₀.Kept (d.fillRegion g) := by
  unfold Dev.fillRegion
  exact foldl hk (fun _ _ he => he.fillStack _ _ _) _

theorem clearPots (hk : d₀.Kept d) (x : Part) : d₀.Kept (d.clearPots x) := by
  unfold Dev.clearPots
  refine foldl hk (fun w a he => ?_) _
  exact (he.setPotBad _).setMem (mclear_wf _ _ _)

theorem clearMcast (hk : d₀.Kept d) (p : Nat) : d₀.Kept (d.clearMcast p) := hk.setJds (fun c => c.filter _)

theorem scrub (hk : d₀.Kept d) (p : Nat) : d₀.Kept (d.scrub p) := by
  unfold Dev.scrub
  split
  · exact hk
  next _ _ hfound =>
    refine ite hk ((((foldl hk (fun _ _ he => he.fillRegion _) _).clearPots _).clearMcast _).putPart_of hk hfound ?_)
    exact rfl

theorem reCarve (hk : d₀.Kept d) (p : Nat) : d₀.Kept (d.reCarve p) := by
  unfold Dev.reCarve
  split
  · exact hk
  next _ _ hfound =>
    refine ite hk (((foldl (hk.setCtxs _) (fun _ _ he => (he.dmaAbort _ _).putDma _ _) _).modPairs _ _).putPart_of hk hfound ?_)
    exact rfl

theorem giveRegions (hk : d₀.Kept d) (p q : Nat) : d₀.Kept (d.giveRegions p q) := by
  unfold Dev.giveRegions
  refine foldl hk (fun _ _ he => (he.setRegions _).modPart _ ?_) _
  exact fun _ => rfl

theorem giveNumbers (hk : d₀.Kept d) (p : Nat) : d₀.Kept (d.giveNumbers p) := by
  unfold Dev.giveNumbers
  exact hk.setQps _

theorem handResources (hk : d₀.Kept d) (p : Nat) (x : Part) : d₀.Kept (d.handResources p x) := by
  unfold Dev.handResources
  dsimp only
  refine ite ?_ ?_
  · refine (foldl ((((hk.giveNumbers _).setCrock _).giveRegions _ _).modPart_of _ ?_) (fun _ _ he => he.zeroUnit _) _).setParts (fun _ c => c.kdel p)
    exact fun y hy => ⟨hy.1, hy.2.1, y.addCups_nodup x⟩
  · exact (((hk.giveNumbers _).setCrock _).setRegions _).setParts (fun _ c => c.kdel p)

theorem setPod (hk : d₀.Kept d) (x : Pod) : d₀.Kept (d.setPod x) := by
  unfold Dev.setPod
  exact hk.setFab _

theorem sayMgmt (hk : d₀.Kept d) (dst : Nat) (data : Bytes) : d₀.Kept (d.sayMgmt dst data) := by
  unfold Dev.sayMgmt
  exact ite hk (hk.sendMsg _)

theorem heartbeatSend (hk : d₀.Kept d) : d₀.Kept d.heartbeatSend := by
  unfold Dev.heartbeatSend
  exact ite hk (ite (foldl hk (fun _ _ he => ite he (he.sayMgmt _ _)) _) (hk.sayMgmt _ _))

theorem podTail (hk : d₀.Kept d) (v : Nat) : d₀.Kept (d.podTail v) := by
  unfold Dev.podTail
  exact ite hk (ite (hk.setPod _) (hk.setPod _))

theorem podWrite (hk : d₀.Kept d) (slot st job : Nat) : d₀.Kept (d.podWrite slot st job) := by
  unfold Dev.podWrite
  exact hk.emitOut _

theorem podReset (hk : d₀.Kept d) : d₀.Kept d.podReset := by
  unfold Dev.podReset
  refine ite ?_ ?_
  · exact hk
  · dsimp only
    refine setPod ?_ _
    split
    · exact hk.podWrite _ _ _
    · exact hk

theorem podEnd (hk : d₀.Kept d) (q : PodReq) (st : Nat) (result : Bool) : d₀.Kept (d.podEnd q st result) := by
  unfold Dev.podEnd
  exact ((ite (hk.emitOut _) hk).podWrite _ _ _).setPod _

theorem podConfirm (hk : d₀.Kept d) (job m vf : Nat) : d₀.Kept (d.podConfirm job m vf) := by
  unfold Dev.podConfirm
  split
  · exact hk
  · exact ite hk (ite (((hk.setPod _).setPod _).podEnd _ _ _) (hk.setPod _))

theorem tellReclaimed (hk : d₀.Kept d) (job asker : Nat) : d₀.Kept (d.tellReclaimed job asker) := by
  unfold Dev.tellReclaimed
  exact ite (hk.podConfirm _ _ _) (hk.sayMgmt _ _)

theorem localReclaim (hk : d₀.Kept d) (job asker : Nat) : d₀.Kept (d.localReclaim job asker) := by
  unfold Dev.localReclaim
  split
  · exact hk.tellReclaimed _ _
  · exact (ite (hk.quiesce _ _ _) hk).setPod _

theorem askReclaim (hk : d₀.Kept d) (job m : Nat) : d₀.Kept (d.askReclaim job m) := by
  unfold Dev.askReclaim
  exact ite (hk.localReclaim _ _) (ite (hk.podConfirm _ _ _) (hk.sayMgmt _ _))

theorem handOver (hk : d₀.Kept d) (p : Nat) : d₀.Kept (d.handOver p) := by
  unfold Dev.handOver
  split
  · exact hk
  · refine ite ?_ ?_
    · exact hk
    · dsimp only
      refine foldl ?_ (fun w a he => ?_) _
      · refine setPod ?_ _
        split
        · exact (hk.handResources _ _).finish _ _ _ _ _ _
        · exact hk.handResources _ _
      · exact he.tellReclaimed _ _

theorem localAdmit (hk : d₀.Kept d) (job : Nat) (spec : Bytes) : d₀.Kept (d.localAdmit job spec).2 := by
  unfold Dev.localAdmit
  split
  · exact hk
  next p hfree =>
    have hp : 1 ≤ p ∧ p ≤ 16 := by
      obtain ⟨k, hk16, rfl⟩ := List.mem_map.1 (List.mem_of_find?_eq_some hfree)
      have := List.mem_range.1 hk16
      omega
    split
    next h => exact hk.admitPart hp _ _ h
    next => exact hk

theorem podNext (n : Nat) (hk : d₀.Kept d) : d₀.Kept (Dev.podNext n d) := by
  induction n generalizing d with
  | zero => exact hk
  | succ n ih =>
    unfold Dev.podNext
    split
    · exact hk
    · split
      · exact (hk.setPod _).podEnd _ _ _
      · split
        · dsimp only
          refine podEnd (foldl hk (fun w a he => ?_) _) _ _ _
          refine ite ?_ (he.sayMgmt _ _)
          split
          · exact ite (he.quiesce _ _ _) he
          · exact he
        · split
          · split
            next h => exact ih ((of_snd (hk.localAdmit _ _) h).setPod _)
            next h => exact ih ((of_snd (hk.localAdmit _ _) h).setPod _)
          · exact (hk.setPod _).sayMgmt _ _

theorem podTake (hk : d₀.Kept d) : d₀.Kept d.podTake.2 := by
  unfold Dev.podTake
  exact hk.setPod _

theorem podAdmit (hk : d₀.Kept d) (entry spec prefer : HostRead) : d₀.Kept (d.podAdmit entry spec prefer) := by
  unfold Dev.podAdmit
  refine ite ?_ ?_
  · exact hk
  · split
    · dsimp only
      refine ite ?_ ?_
      · exact hk
      · refine ite ?_ ?_
        · exact hk.podTake.podWrite _ _ _
        · split
          · exact ite (hk.podTake.podWrite _ _ _) ((hk.podTake.setPod _).podNext _)
          · exact hk.podTake.podWrite _ _ _
          · exact hk.podTake.podWrite _ _ _
          · exact hk.podTake.podWrite _ _ _
    · exact hk.setPod _

theorem podReclaim (hk : d₀.Kept d) (entry : HostRead) : d₀.Kept (d.podReclaim entry) := by
  unfold Dev.podReclaim
  refine ite ?_ ?_
  · exact hk
  · split
    · dsimp only
      refine ite ?_ ?_
      · exact hk
      · refine ite ?_ ?_
        · exact hk.podTake.podWrite _ _ _
        · split
          · exact hk.podTake.podWrite _ _ _
          · exact foldl (hk.podTake.setPod _) (fun _ _ he => he.askReclaim _ _) _
    · exact hk.setPod _

theorem onMgmt (hk : d₀.Kept d) (src msg : Nat) {body : Dev → Dev} (hb : ∀ e, d₀.Kept e → d₀.Kept (body e)) : d₀.Kept (d.onMgmt src msg body) := by
  unfold Dev.onMgmt
  split
  · exact hk
  · exact hb _ ((hk.commitMsg _ _).sayAck _ _)

theorem beatAtManager (hk : d₀.Kept d) (src : Nat) (b : Beat) : d₀.Kept (d.beatAtManager src b) := by
  unfold Dev.beatAtManager
  exact foldl (hk.setPod _) (fun _ _ he => he.sayMgmt _ _) _

theorem podMsg (hk : d₀.Kept d) (src : Nat) (m : MgmtMsg) : d₀.Kept (d.podMsg src m) := by
  unfold Dev.podMsg
  split
  · split
    next _ _ _ hfound => exact (of_snd (hk.localAdmit _ _) hfound).sayMgmt _ _
    next _ _ _ hfound => exact (of_snd (hk.localAdmit _ _) hfound).sayMgmt _ _
  · split
    · exact ite ((hk.setPod _).podNext _) hk
    · exact hk
  · split
    · exact ite ((hk.setPod _).podNext _) hk
    · exact hk
  · exact hk.localReclaim _ _
  · exact hk.podConfirm _ _ _

theorem beatTimeout (hk : d₀.Kept d) (m : Nat) : d₀.Kept (d.beatTimeout m) := by
  unfold Dev.beatTimeout
  dsimp only
  refine ite ?_ ?_
  · exact hk
  · split
    · refine ite (((hk.setPod _).fabEvent _ _ _ _).podConfirm _ _ _) (ite ((((hk.setPod _).fabEvent _ _ _ _).setPod _).podNext _) ?_)
      exact (hk.setPod _).fabEvent _ _ _ _
    · exact (hk.setPod _).fabEvent _ _ _ _

end Dev.Kept
end Sys2Proof.Machine
end

section
/-!
PROOF. What a core does while it works: an action keeps the forms when the device that it leaves is in the relation to the
device that it found. The rules follow the way actions are put together.
-/
namespace Sys2Proof.Machine

/-- The action leaves a device in the relation, from whatever it starts. -/
def CoreAct.Keeps {α : Type} (act : CoreAct α) : Prop := ∀ e : Ex, e.d.Kept (act e).2.d

namespace CoreAct
variable {α β : Type}

theorem keeps_pure (a : α) : Keeps (pure a) := fun e : Ex => Dev.Kept.refl e.d

theorem keeps_get : Keeps get := fun e : Ex => Dev.Kept.refl e.d

theorem keeps_modify {f : Ex → Ex} (h : ∀ e : Ex, e.d.Kept (f e).d) : Keeps (modify f) := h

theorem keeps_bind {act : CoreAct α} {f : α → CoreAct β} (h : Keeps act) (hf : ∀ a, Keeps (f a)) : Keeps (act >>= f) :=
  fun e : Ex => (h e).trans (hf _ _)

theorem keeps_ite {c : Prop} [Decidable c] {a b : CoreAct α} (ha : Keeps a) (hb : Keeps b) : Keeps (if c then a else b) := by
  split
  · exact ha
  · exact hb

theorem keeps_forM {f : α → CoreAct PUnit} (h : ∀ a, Keeps (f a)) : ∀ l : List α, Keeps (l.forM f)
  | [] => keeps_pure _
  | a :: l => keeps_bind (h a) (fun _ => keeps_forM h l)

theorem keeps_foldlM {f : β → α → CoreAct β} (h : ∀ b a, Keeps (f b a)) : ∀ (l : List α) (b : β), Keeps (l.foldlM f b)
  | [], _ => keeps_pure _
  | a :: l, b => by
    rw [List.foldlM_cons]
    exact keeps_bind (h b a) (fun _ => keeps_foldlM h l _)

theorem keeps_mapM {f : α → CoreAct β} (h : ∀ a, Keeps (f a)) : ∀ l : List α, Keeps (l.mapM f)
  | [] => keeps_pure _
  | a :: l => by
    rw [List.mapM_cons]
    exact keeps_bind (h a) (fun _ => keeps_bind (keeps_mapM h l) (fun _ => keeps_pure _))

/-- An action that reads its state and goes on from it. -/
theorem keeps_get_then {k : Ex → CoreAct α} (h : ∀ e : Ex, e.d.Kept (k e e).2.d) : Keeps (get >>= k) := h

/-- A new state is stored, and the action goes on. -/
theorem kept_set_then {e s : Ex} {k : PUnit → CoreAct α} (hs : e.d.Kept s.d) (hk : ∀ u, Keeps (k u)) :
    e.d.Kept ((set s >>= k : CoreAct α) e).2.d :=
  hs.trans (hk _ _)

end CoreAct

end Sys2Proof.Machine
end

section
/-! PROOF. What cores charge and write. -/
namespace Sys2Proof.Machine

namespace Dev.Kept
variable {d₀ d : Dev}

theorem crossCharge (hk : d₀.Kept d) (p k a : Nat) : d₀.Kept (d.crossCharge p k a).2 := by
  unfold Dev.crossCharge
  split
  · split
    · exact hk
    · exact (hk.charge _ _ _ _).charge _ _ _ _
  · exact (hk.charge _ _ _ _).charge _ _ _ _
  · exact hk

theorem putPlace (hk : d₀.Kept d) (x : Run) (place : Nat) (b : Bytes) : d₀.Kept (d.putPlace x place b) := by
  unfold Dev.putPlace
  dsimp only
  refine ite ?_ ?_
  · exact hk.store _ _ _ _
  · split
    · exact ite (hk.potPut _ _ _ _) hk
    · exact hk

theorem blurPot (hk : d₀.Kept d) (part g a n : Nat) : d₀.Kept (d.blurPot part g a n) := by
  unfold Dev.blurPot
  split
  · exact (hk.freeBytes _).potPut _ _ _ _
  · exact hk

end Dev.Kept
end Sys2Proof.Machine
end

section
/-! PROOF. A core reads and writes. -/
namespace Sys2Proof.Machine

/-! A core at work writes its outputs' places. -/

theorem Ex.kept_put {d₀ : Dev} {e : Ex} (hk : d₀.Kept e.d) (place : Nat) (b : Bytes) : d₀.Kept (e.put place b).d := by
  unfold Ex.put
  dsimp only
  split
  · exact hk
  · exact hk.putPlace _ _ _

theorem Ex.kept_blur {d₀ : Dev} {e : Ex} (hk : d₀.Kept e.d) (place n : Nat) : d₀.Kept (e.blur place n).d :=
  Ex.kept_put (e := { e with d := (e.d.freeBytes n).2 }) (hk.freeBytes n) place _

theorem Ex.kept_foldl_blur {d₀ : Dev} {e : Ex} (hk : d₀.Kept e.d) :
    ∀ l : List (Nat × Nat), d₀.Kept (l.foldl (fun e z => e.blur z.1 z.2) e).d
  | [] => hk
  | z :: l => Ex.kept_foldl_blur (Ex.kept_blur hk z.1 z.2) l

namespace CoreAct

theorem keeps_noteMarks (m : Marks) : Keeps (noteMarks m) := by
  unfold noteMarks
  dsimp only
  refine keeps_modify (fun e => ?_)
  split
  · exact (Dev.Kept.refl _)
  · exact (Dev.Kept.refl _)

theorem keeps_coreFault (j : Job) (ca : Nat) : Keeps (coreFault j ca) := by
  unfold coreFault
  dsimp only
  refine keeps_bind (keeps_noteMarks _) (fun _ => ?_)
  refine keeps_bind ?_ (fun _ => ?_)
  · refine keeps_modify (fun e => ?_)
    split
    · exact (Dev.Kept.refl _)
    · exact ((Dev.Kept.refl _)).raise _ _
  · refine keeps_modify (fun e => ?_)
    split
    · exact (Dev.Kept.refl _)
    · exact (Dev.Kept.refl _)

theorem keeps_countCore (j : Job) (i n : Nat) : Keeps (countCore j i n) := by
  unfold countCore
  refine keeps_modify (fun e => ?_)
  split
  · exact ((Dev.Kept.refl _)).count _ _ _
  · exact (Dev.Kept.refl _)

theorem keeps_memMarks (j : Job) (m : Marks) : Keeps (memMarks j m) := by
  unfold memMarks
  dsimp only
  refine keeps_bind (keeps_noteMarks _) (fun _ => ?_)
  exact keeps_ite (keeps_bind (keeps_coreFault _ _) (fun _ => keeps_modify (fun _ => Dev.Kept.refl _))) (keeps_pure _)

theorem keeps_coreCharge (j : Job) (a n : Nat) : Keeps (coreCharge j a n) := by
  unfold coreCharge
  dsimp only
  refine keeps_modify (fun e => ?_)
  refine Dev.Kept.foldl_snd ?_ (fun w a he => ?_) _
  · exact (Dev.Kept.refl _)
  · exact he.crossCharge _ _ _

theorem keeps_devRead (j : Job) (a n : Nat) (charged : Bool) : Keeps (devRead j a n charged) := by
  unfold devRead
  dsimp only
  refine keeps_ite ?_ ?_
  · refine keeps_bind (keeps_coreCharge _ _ _) (fun _ => ?_)
    refine keeps_get_then (fun e => ?_)
    refine kept_set_then ?_ (fun _ => ?_)
    · refine Dev.Kept.foldl_snd ?_ (fun w a he => ?_) _
      · exact Dev.Kept.ite ((((Dev.Kept.refl _)).touch _ _ _).chargeRun _ _ _) ((Dev.Kept.refl _))
      · exact he.readPiece _ _ _ _
    · exact keeps_bind (keeps_memMarks _ _) (fun _ => keeps_pure _)
  · refine keeps_get_then (fun e => ?_)
    refine kept_set_then ?_ (fun _ => ?_)
    · refine Dev.Kept.foldl_snd ?_ (fun w a he => ?_) _
      · exact Dev.Kept.ite ((((Dev.Kept.refl _)).touch _ _ _).chargeRun _ _ _) ((Dev.Kept.refl _))
      · exact he.readPiece _ _ _ _
    · exact keeps_bind (keeps_memMarks _ _) (fun _ => keeps_pure _)

theorem keeps_devWrite (j : Job) (a : Nat) (b : Bytes) : Keeps (devWrite j a b) := by
  unfold devWrite
  dsimp only
  refine keeps_bind (keeps_coreCharge _ _ _) (fun _ => ?_)
  refine keeps_get_then (fun e => ?_)
  refine kept_set_then ?_ (fun _ => ?_)
  · exact (((Dev.Kept.refl _)).write _ _ _ _).raced _ _ _ _
  · exact keeps_memMarks _ _

theorem keeps_bufByte (sp a : Nat) : Keeps (bufByte sp a) := by
  unfold bufByte
  refine keeps_get_then (fun e => ?_)
  cases kfind e.c.buf (sp * 2 ^ 32 + a) with
  | some b => exact Dev.Kept.refl e.d
  | none => exact kept_set_then ((Dev.Kept.refl e.d).freeBytes 1) (fun _ => keeps_pure _)

theorem keeps_spaceRead (j : Job) (sp a n : Nat) (charged : Bool) : Keeps (spaceRead j sp a n charged) := by
  unfold spaceRead
  dsimp only
  split
  · exact keeps_devRead _ _ _ _
  · refine keeps_bind keeps_get (fun _ => ?_)
    split
    · exact keeps_bind (keeps_memMarks _ _) (fun _ => keeps_pure _)
    · exact keeps_pure _
  · exact keeps_bind (keeps_mapM (fun _ => keeps_bufByte _ _) _) (fun _ => keeps_pure _)

theorem keeps_spaceWrite (j : Job) (sp a : Nat) (b : Bytes) : Keeps (spaceWrite j sp a b) := by
  unfold spaceWrite
  split
  · exact keeps_devWrite _ _ _
  · refine keeps_get_then (fun e => ?_)
    cases e.d.part j.part with
    | some x =>
      dsimp only
      split
      · exact kept_set_then ((Dev.Kept.refl e.d).potPut _ _ _ _) (fun _ => keeps_memMarks _ _)
      · exact keeps_memMarks _ _ _
    | none => exact Dev.Kept.refl e.d
  · exact keeps_modify (fun _ => Dev.Kept.refl _)

theorem keeps_quietRead (j : Job) (sp a n : Nat) : Keeps (quietRead j sp a n) := by
  unfold quietRead
  dsimp only
  refine keeps_bind keeps_get (fun _ => ?_)
  split
  · exact keeps_pure _
  · split
    · exact keeps_pure _
    · exact keeps_pure _
  · exact keeps_bind (keeps_mapM (fun _ => keeps_bufByte _ _) _) (fun _ => keeps_pure _)

theorem keeps_noteOperands (j : Job) (sp : Nat) (runs : List (Nat × Nat)) : Keeps (noteOperands j sp runs) := by
  unfold noteOperands
  exact keeps_modify (fun e => Ex.kept_foldl_blur (Dev.Kept.refl e.d) _)

theorem keeps_operandRead (j : Job) (sp a n es : Nat) (charged : Bool) : Keeps (operandRead j sp a n es charged) := by
  unfold operandRead
  dsimp only
  refine keeps_bind (keeps_spaceRead _ _ _ _ _) (fun _ => ?_)
  refine keeps_get_then (fun e => ?_)
  split
  · refine kept_set_then ?_ (fun _ => ?_)
    · exact ((Dev.Kept.refl _)).freeBytes _
    · exact keeps_pure _
  · exact (keeps_pure _) _

theorem keeps_loadElems (j : Job) (g : GenD) (l : List Nat) (seen : Bool) : Keeps (loadElems j g l seen) := by
  unfold loadElems
  dsimp only
  refine keeps_ite ?_ ?_
  · refine keeps_bind (keeps_noteOperands _ _ _) (fun _ => ?_)
    refine keeps_bind ?_ (fun _ => ?_)
    · refine keeps_mapM (fun _ => ?_) _
      exact keeps_bind (keeps_ite (keeps_operandRead _ _ _ _ _ _) (keeps_spaceRead _ _ _ _ _)) (fun _ => keeps_pure _)
    · exact keeps_pure _
  · refine keeps_bind ?_ (fun _ => ?_)
    · refine keeps_mapM (fun _ => ?_) _
      exact keeps_bind (keeps_ite (keeps_operandRead _ _ _ _ _ _) (keeps_spaceRead _ _ _ _ _)) (fun _ => keeps_pure _)
    · exact keeps_pure _

theorem keeps_storeElem (j : Job) (g : GenD) (es fmt : Nat) (z : Nat × Nat) : Keeps (storeElem j g es fmt z) := by
  unfold storeElem
  dsimp only
  refine keeps_bind keeps_get (fun e => ?_)
  refine keeps_bind (keeps_quietRead _ _ _ _) (fun _ => ?_)
  refine keeps_bind (keeps_modify (fun e => ?_)) (fun _ => ?_)
  · refine Ex.kept_foldl_blur ?_ _
    exact (Dev.Kept.refl e.d).of_eq rfl rfl rfl rfl rfl
  · exact keeps_ite (keeps_spaceWrite _ _ _ _) (keeps_pure _)

theorem keeps_storeElems (j : Job) (g : GenD) (es fmt : Nat) (l : List (Nat × Nat)) : Keeps (storeElems j g es fmt l) := by
  unfold storeElems
  dsimp only
  refine keeps_ite ?_ ?_
  · exact keeps_pure _
  · refine keeps_bind ?_ (fun _ => ?_)
    · refine keeps_foldlM (fun _ _ => ?_) _ _
      refine keeps_bind keeps_get (fun _ => ?_)
      refine keeps_ite ?_ ?_
      · refine keeps_bind (keeps_quietRead _ _ _ _) (fun _ => ?_)
        refine keeps_bind (keeps_modify (fun _ => Dev.Kept.refl _)) (fun _ => ?_)
        exact keeps_bind (keeps_spaceWrite _ _ _ _) (fun _ => keeps_pure _)
      · exact keeps_bind (keeps_forM (fun _ => keeps_storeElem _ _ _ _ _) _) (fun _ => keeps_pure _)
    · exact keeps_pure _

theorem keeps_rowElems (j : Job) (g : GenD) (pos axis tile n : Nat) : Keeps (rowElems j g pos axis tile n) := by
  unfold rowElems
  exact keeps_bind keeps_get (fun _ => keeps_bind (keeps_loadElems _ _ _ _) (fun _ => keeps_pure _))

theorem keeps_maskWord (j : Job) (g : GenD) (pos w : Nat) (rowMask : Bool) : Keeps (maskWord j g pos w rowMask) := by
  unfold maskWord
  dsimp only
  refine keeps_bind keeps_get (fun _ => ?_)
  refine keeps_bind (keeps_noteOperands _ _ _) (fun _ => ?_)
  exact keeps_bind (keeps_operandRead _ _ _ _ _ _) (fun _ => keeps_pure _)

theorem keeps_maskRows (j : Job) (g : GenD) (l : List Nat) : Keeps (maskRows j g l) := by
  unfold maskRows
  dsimp only
  refine keeps_bind ?_ (fun _ => ?_)
  · refine keeps_foldlM (fun _ _ => ?_) _ _
    split
    · refine keeps_bind (keeps_pure _) (fun _ => ?_)
      split
      · exact keeps_pure _
      · exact keeps_pure _
    · refine keeps_bind (keeps_maskWord _ _ _ _ _) (fun _ => ?_)
      split
      · exact keeps_pure _
      · exact keeps_pure _
  · exact keeps_pure _

theorem keeps_validRows (j : Job) : Keeps (validRows j) := by
  unfold validRows
  dsimp only
  refine keeps_foldlM (fun _ _ => ?_) _ _
  split
  · exact keeps_bind (keeps_maskRows _ _ _) (fun _ => keeps_pure _)
  · exact keeps_pure _

theorem keeps_colMask (j : Job) (pos : Nat) : Keeps (colMask j pos) := by
  unfold colMask
  refine keeps_foldlM (fun _ _ => ?_) _ _
  split
  · refine keeps_bind (keeps_maskWord _ _ _ _ _) (fun _ => ?_)
    split
    · exact keeps_pure _
    · exact keeps_pure _
  · exact keeps_pure _

theorem keeps_colMasks (j : Job) (rows : List Nat) : Keeps (colMasks j rows) := by
  unfold colMasks
  refine keeps_ite ?_ ?_
  · refine keeps_bind (keeps_mapM (fun _ => keeps_bind (keeps_colMask _ _) (fun _ => keeps_pure _)) _) (fun _ => ?_)
    exact keeps_pure _
  · exact keeps_bind (keeps_colMask _ _) (fun _ => keeps_pure _)

end CoreAct
end Sys2Proof.Machine
end

section
/-! PROOF. Bands, tiles and passes. -/
namespace Sys2Proof.Machine

namespace CoreAct

theorem keeps_vecElems (j : Job) (g : GenD) (pos axis : Nat) (tiles : List (Nat × Nat)) (live : List Bool) :
    Keeps (vecElems j g pos axis tiles live) := by
  unfold vecElems
  exact keeps_bind keeps_get (fun _ => keeps_bind (keeps_loadElems _ _ _ _) (fun _ => keeps_pure _))

theorem keeps_stageVecs (j : Job) (sts : List (StageD × Nat)) (rows : List Nat) (axis : Nat) (tiles : List (Nat × Nat)) (live : List Nat → List Bool) :
    Keeps (stageVecs j sts rows axis tiles live) := by
  unfold stageVecs
  dsimp only
  refine keeps_foldlM (fun _ _ => ?_) _ _
  split
  · refine keeps_bind (keeps_foldlM (fun _ _ => keeps_bind (keeps_vecElems _ _ _ _ _ _) (fun _ => keeps_pure _)) _ _) (fun _ => ?_)
    exact keeps_pure _
  · exact keeps_pure _

theorem keeps_stageIns (j : Job) (s : StageD × Nat) (vecs : StageVecs) (pos axis : Nat) (tiles : List (Nat × Nat)) (live : List Bool) (skip : List Nat) :
    Keeps (stageIns j s vecs pos axis tiles live skip) := by
  unfold stageIns
  dsimp only
  split
  · exact keeps_pure _
  · exact keeps_bind (keeps_rowElems _ _ _ _ _ _) (fun _ => keeps_pure _)
  · exact keeps_bind keeps_get (fun _ => keeps_bind (keeps_loadElems _ _ _ _) (fun _ => keeps_pure _))
  · exact keeps_pure _

theorem keeps_runStages (j : Job) (ft : Nat) (sts : List (StageD × Nat)) (all : List StageD) (vecs : StageVecs) (pos axis : Nat)
    (tiles : List (Nat × Nat)) (skip : List Nat) (el : Nat → Nat) (c : ChainRow) :
    Keeps (runStages j ft sts all vecs pos axis tiles skip el c) := by
  unfold runStages
  dsimp only
  refine keeps_foldlM (fun _ _ => ?_) _ _
  refine keeps_bind (keeps_stageIns _ _ _ _ _ _ _ _) (fun _ => ?_)
  exact keeps_bind keeps_get (fun _ => keeps_ite (keeps_pure _) (keeps_pure _))

theorem keeps_stagedElems (j : Job) (g : GenD) (l : List Nat) : Keeps (stagedElems j g l) := by
  unfold stagedElems
  dsimp only
  refine keeps_bind keeps_get (fun _ => ?_)
  refine keeps_bind (keeps_loadElems _ _ _ _) (fun _ => ?_)
  exact keeps_bind (keeps_modify (fun _ => Dev.Kept.refl _)) (fun _ => keeps_bind keeps_get (fun _ => keeps_pure _))

theorem keeps_actElems (j : Job) (g : GenD) (pos : Nat) : Keeps (actElems j g pos) := by
  unfold actElems
  dsimp only
  split
  · exact keeps_bind keeps_get (fun _ => keeps_bind (keeps_stagedElems _ _ _) (fun _ => keeps_pure _))
  · exact keeps_bind (keeps_mapM (fun _ => keeps_rowElems _ _ _ _ _ _) _) (fun _ => keeps_pure _)

theorem keeps_actSweep (j : Job) (g : GenD) (vecs : StageVecs) (pos : Nat) : Keeps (actSweep j g vecs pos) := by
  unfold actSweep
  dsimp only
  refine keeps_bind (keeps_actElems _ _ _) (fun _ => ?_)
  exact keeps_bind keeps_get (fun _ => keeps_bind (keeps_runStages _ _ _ _ _ _ _ _ _ _ _) (fun _ => keeps_pure _))

theorem keeps_actPlane (j : Job) (g : GenD) (vecs : StageVecs) (pos : Nat) : Keeps (actPlane j g vecs pos) := by
  unfold actPlane
  exact keeps_bind (keeps_actSweep _ _ _ _) (fun _ => keeps_bind (keeps_actSweep _ _ _ _) (fun _ => keeps_pure _))

theorem keeps_storedRun (j : Job) (g : GenD) (pos total first n : Nat) : Keeps (storedRun j g pos total first n) := by
  unfold storedRun
  dsimp only
  refine keeps_bind keeps_get (fun _ => ?_)
  refine keeps_bind (keeps_noteOperands _ _ _) (fun _ => ?_)
  exact keeps_bind (keeps_mapM (fun _ => keeps_operandRead _ _ _ _ _ _) _) (fun _ => keeps_pure _)

theorem keeps_storedPlane (j : Job) (g : GenD) (pos : Nat) : Keeps (storedPlane j g pos) := by
  unfold storedPlane
  exact keeps_storedRun _ _ _ _ _ _

theorem keeps_wordPlane (j : Job) (g : GenD) (pos : Nat) : Keeps (wordPlane j g pos) := by
  unfold wordPlane
  exact keeps_bind (keeps_actElems _ _ _) (fun _ => keeps_pure _)

theorem keeps_notePromotions (j : Job) (pos : Nat) (st : QStat) : Keeps (notePromotions j pos st) := by
  unfold notePromotions
  exact keeps_modify (fun _ => Dev.Kept.refl _)

theorem keeps_countQuant (j : Job) (st : QStat) : Keeps (countQuant j st) := by
  unfold countQuant
  refine keeps_bind (keeps_countCore _ _ _) (fun _ => ?_)
  exact keeps_bind (keeps_countCore _ _ _) (fun _ => keeps_countCore _ _ _)

theorem keeps_keepRow (pos : Nat) (rows : List QRow) (bad : Bool) : Keeps (keepRow pos rows bad) := by
  unfold keepRow
  exact keeps_modify (fun _ => Dev.Kept.refl _)

theorem keeps_prologueRow (j : Job) (vecs : StageVecs) (pos : Nat) : Keeps (prologueRow j vecs pos) := by
  unfold prologueRow
  dsimp only
  split
  · exact keeps_pure _
  · refine keeps_ite ?_ ?_
    · refine keeps_bind (keeps_wordPlane _ _ _) (fun _ => ?_)
      exact keeps_bind (keeps_countCore _ _ _) (fun _ => keeps_keepRow _ _ _)
    · refine keeps_ite ?_ ?_
      · refine keeps_bind (keeps_ite (keeps_bind (keeps_storedPlane _ _ _) (fun _ => keeps_pure _)) (keeps_actSweep _ _ _ _)) (fun _ => ?_)
        refine keeps_bind (keeps_countCore _ _ _) (fun _ => ?_)
        exact keeps_bind (keeps_keepRow _ _ _) (fun _ => keeps_modify (fun _ => Dev.Kept.refl _))
      · refine keeps_ite ?_ ?_
        · refine keeps_bind (keeps_mapM (fun _ => keeps_storedPlane _ _ _) _) (fun _ => ?_)
          refine keeps_bind (keeps_countCore _ _ _) (fun _ => ?_)
          refine keeps_bind (keeps_countQuant _ _) (fun _ => ?_)
          exact keeps_bind (keeps_notePromotions _ _ _) (fun _ => keeps_keepRow _ _ _)
        · refine keeps_bind (keeps_mapM (fun _ => keeps_actPlane _ _ _ _) _) (fun _ => ?_)
          refine keeps_bind (keeps_countCore _ _ _) (fun _ => ?_)
          refine keeps_bind (keeps_countQuant _ _) (fun _ => ?_)
          exact keeps_bind (keeps_notePromotions _ _ _) (fun _ => keeps_keepRow _ _ _)

theorem keeps_prologueBand (j : Job) : Keeps (prologueBand j) := by
  unfold prologueBand
  dsimp only
  refine keeps_bind (keeps_validRows _) (fun _ => ?_)
  refine keeps_bind (keeps_modify (fun _ => Dev.Kept.refl _)) (fun _ => ?_)
  exact keeps_bind (keeps_stageVecs _ _ _ _ _ _) (fun _ => keeps_forM (fun _ => keeps_prologueRow _ _ _) _)

theorem keeps_weightRead (j : Job) (a n : Nat) (charged : Bool) : Keeps (weightRead j a n charged) := by
  unfold weightRead
  exact keeps_bind (keeps_noteOperands _ _ _) (fun _ => keeps_operandRead _ _ _ _ _ _)

theorem keeps_headerRead (j : Job) (a : Nat) : Keeps (headerRead j a) := by
  unfold headerRead
  dsimp only
  refine keeps_bind keeps_get (fun _ => ?_)
  split
  · exact keeps_pure _
  · refine keeps_bind (keeps_weightRead _ _ _ _) (fun _ => ?_)
    exact keeps_bind (keeps_modify (fun _ => Dev.Kept.refl _)) (fun _ => keeps_pure _)

theorem keeps_tableRead (j : Job) (h gen : Nat) : Keeps (tableRead j h gen) := by
  unfold tableRead
  dsimp only
  refine keeps_bind keeps_get (fun _ => ?_)
  split
  · exact keeps_bind (keeps_modify (fun _ => Dev.Kept.refl _)) (fun _ => keeps_pure _)
  · refine keeps_bind (keeps_weightRead _ _ _ _) (fun _ => ?_)
    exact keeps_bind (keeps_modify (fun _ => Dev.Kept.refl _)) (fun _ => keeps_pure _)

theorem keeps_expandBlock (j : Job) (h a : Nat) (tables entry : Nat) (charged : Bool) : Keeps (expandBlock j h a tables entry charged) := by
  unfold expandBlock
  dsimp only
  refine keeps_ite ?_ ?_
  · exact keeps_pure _
  · split
    · exact keeps_pure _
    · exact keeps_bind (keeps_weightRead _ _ _ _) (fun _ => keeps_pure _)
    · refine keeps_bind (keeps_weightRead _ _ _ _) (fun _ => ?_)
      refine keeps_ite ?_ ?_
      · exact keeps_pure _
      · refine keeps_bind (keeps_tableRead _ _ _) (fun _ => ?_)
        refine keeps_ite ?_ ?_
        · exact keeps_pure _
        · refine keeps_ite ?_ ?_
          · exact keeps_pure _
          · refine keeps_ite ?_ ?_
            · exact keeps_pure _
            · split
              · exact keeps_ite (keeps_pure _) (keeps_pure _)
              · exact keeps_pure _

theorem keeps_expandTile (j : Job) (h : Nat) (p : PackD) (idx : Nat) (charged : Bool) : Keeps (expandTile j h p idx charged) := by
  unfold expandTile
  dsimp only
  refine keeps_bind (keeps_weightRead _ _ _ _) (fun _ => ?_)
  refine keeps_ite ?_ ?_
  · exact keeps_pure _
  · refine keeps_bind (keeps_mapM (fun _ => keeps_expandBlock _ _ _ _ _ _) _) (fun _ => ?_)
    refine keeps_bind (keeps_weightRead _ _ _ _) (fun _ => ?_)
    split
    · exact keeps_pure _
    · exact keeps_ite (keeps_pure _) (keeps_pure _)

theorem keeps_passTile (j : Job) (plane : Nat) : Keeps (passTile j plane) := by
  unfold passTile
  dsimp only
  split
  · exact keeps_pure _
  · refine keeps_bind keeps_get (fun _ => ?_)
    split
    · exact keeps_pure _
    · refine keeps_bind (keeps_headerRead _ _) (fun _ => ?_)
      refine keeps_bind (keeps_modify (fun _ => Dev.Kept.refl _)) (fun _ => ?_)
      refine keeps_bind (keeps_ite (keeps_expandTile _ _ _ _ _) (keeps_pure _)) (fun _ => ?_)
      split
      · refine keeps_ite ?_ ?_
        · refine keeps_bind (keeps_countCore _ _ _) (fun _ => ?_)
          refine keeps_bind (keeps_coreFault _ _) (fun _ => ?_)
          exact keeps_bind (keeps_modify (fun _ => Dev.Kept.refl _)) (fun _ => keeps_pure _)
        · exact keeps_bind (keeps_modify (fun _ => Dev.Kept.refl _)) (fun _ => keeps_pure _)
      · exact keeps_bind (keeps_modify (fun _ => Dev.Kept.refl _)) (fun _ => keeps_pure _)

theorem keeps_loadFw (j : Job) : Keeps (loadFw j) := by
  unfold loadFw
  dsimp only
  split
  · exact keeps_pure _
  · refine keeps_bind keeps_get (fun _ => ?_)
    exact keeps_bind (keeps_headerRead _ _) (fun _ => keeps_modify (fun _ => Dev.Kept.refl _))

theorem keeps_accRow (op : Nat) (key : Nat) (dl : List (Option Int)) : Keeps (accRow op key dl) := by
  unfold accRow
  exact keeps_modify (fun _ => Dev.Kept.refl _)

theorem keeps_poisonSets (sets l : List Nat) : Keeps (poisonSets sets l) := by
  unfold poisonSets
  exact keeps_modify (fun _ => Dev.Kept.refl _)

theorem keeps_poisonRows (j : Job) (l : List Nat) : Keeps (poisonRows j l) := by
  unfold poisonRows
  exact keeps_poisonSets _ _

theorem keeps_poisonBand (j : Job) : Keeps (poisonBand j) := by
  unfold poisonBand
  exact keeps_bind keeps_get (fun _ => keeps_poisonRows _ _)

theorem keeps_residueFault (j : Job) (sets : List Nat) (n : Nat) : Keeps (residueFault j sets n) := by
  unfold residueFault
  refine keeps_bind keeps_get (fun _ => ?_)
  exact keeps_bind (keeps_poisonSets _ _) (fun _ => keeps_bind (keeps_countCore _ _ _) (fun _ => keeps_coreFault _ _))

theorem keeps_noteCycles (j : Job) : Keeps (noteCycles j) := by
  unfold noteCycles
  dsimp only
  refine keeps_bind keeps_get (fun _ => ?_)
  exact keeps_bind (keeps_modify (fun _ => Dev.Kept.refl _)) (fun _ => keeps_countCore _ _ _)

theorem keeps_noteWait (j : Job) : Keeps (noteWait j) := by
  unfold noteWait
  dsimp only
  refine keeps_bind keeps_get (fun _ => ?_)
  split
  · exact keeps_bind (keeps_countCore _ _ _) (fun _ => keeps_modify (fun _ => Dev.Kept.refl _))
  · exact keeps_modify (fun _ => Dev.Kept.refl _)

theorem keeps_spillOut (j : Job) (g : Nat) : Keeps (spillOut j g) := by
  unfold spillOut
  dsimp only
  refine keeps_modify (fun e => ?_)
  split
  · exact (((Dev.Kept.refl _)).freeBytes _).potPut _ _ _ _
  · exact (Dev.Kept.refl _)

theorem keeps_spillIn (j : Job) (g : Nat) : Keeps (spillIn j g) := by
  unfold spillIn
  dsimp only
  refine keeps_bind keeps_get (fun _ => ?_)
  split
  · exact keeps_bind (keeps_memMarks _ _) (fun _ => keeps_modify (fun _ => Dev.Kept.refl _))
  · exact keeps_pure _

theorem keeps_spillBegin (j : Job) : Keeps (spillBegin j) := by
  unfold spillBegin
  dsimp only
  refine keeps_ite ?_ ?_
  · split
    · exact keeps_bind (keeps_spillOut _ _) (fun _ => keeps_forM (fun _ => keeps_spillIn _ _) _)
    · exact keeps_forM (fun _ => keeps_spillIn _ _) _
  · exact keeps_pure _

theorem keeps_spillEnd (j : Job) : Keeps (spillEnd j) := by
  unfold spillEnd
  exact keeps_ite (keeps_forM (fun _ => keeps_spillOut _ _) _) (keeps_pure _)

theorem keeps_tileBegin (j : Job) : Keeps (tileBegin j) := by
  unfold tileBegin
  dsimp only
  refine keeps_bind (keeps_loadFw _) (fun _ => ?_)
  refine keeps_bind keeps_get (fun _ => ?_)
  exact keeps_bind (keeps_colMasks _ _) (fun _ => keeps_modify (fun _ => Dev.Kept.refl _))

theorem keeps_dotPass (j : Job) (p : PassD) (hurt : Bool) : Keeps (dotPass j p hurt) := by
  unfold dotPass
  dsimp only
  refine keeps_bind (keeps_passTile _ _) (fun _ => ?_)
  refine keeps_bind keeps_get (fun _ => ?_)
  refine keeps_ite ?_ ?_
  · refine keeps_bind (keeps_poisonSets _ _) (fun _ => ?_)
    refine keeps_bind (keeps_mapM (fun _ => keeps_bind (keeps_forM (fun _ => keeps_accRow _ _ _) _) (fun _ => keeps_pure _)) _) (fun _ => ?_)
    exact keeps_ite (keeps_residueFault _ _ _) (keeps_pure _)
  · refine keeps_bind (keeps_mapM (fun _ => keeps_bind (keeps_forM (fun _ => keeps_accRow _ _ _) _) (fun _ => keeps_pure _)) _) (fun _ => ?_)
    exact keeps_ite (keeps_residueFault _ _ _) (keeps_pure _)

theorem keeps_distPass (j : Job) (wrong : Option (Nat × Int)) : Keeps (distPass j wrong) := by
  unfold distPass
  dsimp only
  refine keeps_bind (keeps_passTile _ _) (fun _ => ?_)
  refine keeps_bind keeps_get (fun _ => ?_)
  refine keeps_ite ?_ ?_
  · refine keeps_bind (keeps_poisonBand _) (fun _ => ?_)
    refine keeps_bind ?_ (fun _ => ?_)
    · refine keeps_forM (fun _ => ?_) _
      exact keeps_ite (keeps_bind (keeps_countCore _ _ _) (fun _ => keeps_accRow _ _ _)) (keeps_accRow _ _ _)
    · split
      · refine keeps_ite ?_ ?_
        · refine keeps_bind (keeps_poisonBand _) (fun _ => ?_)
          refine keeps_bind (keeps_countCore _ _ _) (fun _ => ?_)
          exact keeps_bind (keeps_coreFault _ _) (fun _ => keeps_modify (fun _ => ((Dev.Kept.refl _)).modCore _ _))
        · exact keeps_modify (fun _ => ((Dev.Kept.refl _)).modCore _ _)
      · exact keeps_modify (fun _ => ((Dev.Kept.refl _)).modCore _ _)
  · refine keeps_bind ?_ (fun _ => ?_)
    · refine keeps_forM (fun _ => ?_) _
      exact keeps_ite (keeps_bind (keeps_countCore _ _ _) (fun _ => keeps_accRow _ _ _)) (keeps_accRow _ _ _)
    · split
      · refine keeps_ite ?_ ?_
        · refine keeps_bind (keeps_poisonBand _) (fun _ => ?_)
          refine keeps_bind (keeps_countCore _ _ _) (fun _ => ?_)
          exact keeps_bind (keeps_coreFault _ _) (fun _ => keeps_modify (fun _ => ((Dev.Kept.refl _)).modCore _ _))
        · exact keeps_modify (fun _ => ((Dev.Kept.refl _)).modCore _ _)
      · exact keeps_modify (fun _ => ((Dev.Kept.refl _)).modCore _ _)

theorem keeps_storeRow (j : Job) (g : GenD) (pos : Nat) (tiles : List (Nat × Nat)) (el : Nat → Nat) (vals : List (Option Val)) (bad : Bool) :
    Keeps (storeRow j g pos tiles el vals bad) := by
  unfold storeRow
  dsimp only
  refine keeps_bind keeps_get (fun _ => ?_)
  exact keeps_bind (keeps_countCore _ _ _) (fun _ => keeps_forM (fun _ => keeps_storeElems _ _ _ _ _) _)

theorem keeps_mergeBytes (j : Job) (g : GenD) (fmt : Nat) (l : List (Nat × (Nat → Nat))) : Keeps (mergeBytes j g fmt l) := by
  unfold mergeBytes
  refine keeps_bind (keeps_mapM (fun _ => keeps_bind (keeps_spaceRead _ _ _ _ _) (fun _ => keeps_pure _)) _) (fun _ => ?_)
  exact keeps_storeElems _ _ _ _ _

theorem keeps_storeQuant (j : Job) (g : GenD) (pos : Nat) (q : QRow) (live : List Bool) (bad : Bool) : Keeps (storeQuant j g pos q live bad) := by
  unfold storeQuant
  dsimp only
  refine keeps_bind keeps_get (fun _ => ?_)
  refine keeps_forM (fun _ => ?_) _
  refine keeps_ite ?_ ?_
  · refine keeps_bind (keeps_mergeBytes _ _ _ _) (fun _ => ?_)
    exact keeps_bind (keeps_storeElems _ _ _ _ _) (fun _ => keeps_ite (keeps_mergeBytes _ _ _ _) (keeps_pure _))
  · refine keeps_bind (keeps_storeElems _ _ _ _ _) (fun _ => ?_)
    exact keeps_bind (keeps_storeElems _ _ _ _ _) (fun _ => keeps_ite (keeps_mergeBytes _ _ _ _) (keeps_pure _))

theorem keeps_quantRowOut (j : Job) (part : Nat) (s : StageD) (pos : Nat) (vals : List (Option Val)) (bad : Bool) :
    Keeps (quantRowOut j part s pos vals bad) := by
  unfold quantRowOut
  dsimp only
  refine keeps_bind (keeps_countCore _ _ _) (fun _ => ?_)
  exact keeps_bind (keeps_countCore _ _ _) (fun _ => keeps_forM (fun _ => keeps_storeQuant _ _ _ _ _ _) _)

theorem keeps_argRowOut (j : Job) (part : Nat) (s : StageD) (pos : Nat) (vals : List (Option Val)) (bad : Bool) :
    Keeps (argRowOut j part s pos vals bad) := by
  unfold argRowOut
  dsimp only
  refine keeps_bind keeps_get (fun _ => ?_)
  refine keeps_bind (keeps_forM (fun _ => keeps_bind keeps_get (fun _ => keeps_forM (fun _ => keeps_storeElems _ _ _ _ _) _)) _) (fun _ => ?_)
  refine keeps_ite ?_ ?_
  · split
    · exact keeps_bind keeps_get (fun _ => keeps_forM (fun _ => keeps_storeElems _ _ _ _ _) _)
    · exact keeps_pure _
  · exact keeps_pure _

theorem keeps_chainRow (j : Job) (sts : List (StageD × Nat)) (vecs : StageVecs) (part pos : Nat) (tiles : List (Nat × Nat)) (el : Nat → Nat) (vals : List (Option Val)) :
    Keeps (chainRow j sts vecs part pos tiles el vals) := by
  unfold chainRow
  dsimp only
  refine keeps_bind keeps_get (fun _ => ?_)
  refine keeps_bind (keeps_runStages _ _ _ _ _ _ _ _ _ _ _) (fun _ => ?_)
  exact keeps_bind (keeps_countCore _ _ _) (fun _ => keeps_pure _)

theorem keeps_holdRow (j : Job) (part pos : Nat) (f : Nat) (fresh : Bool) (c : ChainRow) (bad : Bool) : Keeps (holdRow j part pos f fresh c bad) := by
  unfold holdRow
  exact keeps_bind (keeps_countCore _ _ _) (fun _ => keeps_modify (fun _ => Dev.Kept.refl _))

theorem keeps_finishBand (j : Job) (part fuel : Nat) : ∀ l : List (StageD × Nat), Keeps (finishBand j part fuel l) := by
  induction fuel with
  | zero => exact fun _ => keeps_pure _
  | succ fuel ih =>
    intro l
    cases l with
    | nil => exact keeps_pure _
    | cons s more =>
      unfold finishBand
      dsimp only
      refine keeps_bind keeps_get (fun e => ?_)
      split
      · refine keeps_bind (keeps_stageVecs _ _ _ _ _ _) (fun _ => ?_)
        refine keeps_bind (keeps_forM (fun _ => ?_) _) (fun _ => ih _)
        refine keeps_bind keeps_get (fun _ => ?_)
        refine keeps_bind (keeps_chainRow _ _ _ _ _ _ _ _) (fun _ => ?_)
        split
        · exact keeps_forM (fun _ => keeps_storeRow _ _ _ _ _ _ _) _
        · exact keeps_holdRow _ _ _ _ _ _ _
      · refine keeps_forM (fun _ => ?_) _
        refine keeps_bind keeps_get (fun _ => ?_)
        split
        · exact keeps_quantRowOut _ _ _ _ _ _
        · exact keeps_argRowOut _ _ _ _ _ _

theorem keeps_epilogueRows (j : Job) (vecs : StageVecs) (vals : Nat → Nat → List (Option Val)) (el : Nat → Nat → Nat) (bad : Nat → Nat → Bool) :
    Keeps (epilogueRows j vecs vals el bad) := by
  unfold epilogueRows
  dsimp only
  refine keeps_bind keeps_get (fun _ => ?_)
  refine keeps_forM (fun _ => ?_) _
  refine keeps_forM (fun _ => ?_) _
  refine keeps_bind (keeps_chainRow _ _ _ _ _ _ _ _) (fun _ => ?_)
  split
  · exact keeps_forM (fun _ => keeps_storeRow _ _ _ _ _ _ _) _
  · exact keeps_holdRow _ _ _ _ _ _ _

theorem keeps_tileVecs (j : Job) (vals : Nat → List (Option Val)) : Keeps (tileVecs j vals) := by
  unfold tileVecs
  exact keeps_bind keeps_get (fun _ => keeps_stageVecs _ _ _ _ _ _)

theorem keeps_epilogueTile (j : Job) : Keeps (epilogueTile j) := by
  unfold epilogueTile
  dsimp only
  refine keeps_bind keeps_get (fun _ => ?_)
  refine keeps_bind (keeps_tileVecs _ _) (fun _ => ?_)
  refine keeps_bind (keeps_epilogueRows _ _ _ _ _) (fun _ => ?_)
  exact keeps_ite (keeps_forM (fun _ => keeps_finishBand _ _ _ _) _) (keeps_pure _)

theorem keeps_sramFault (j : Job) (rows keys : List Nat) : Keeps (sramFault j rows keys) := by
  unfold sramFault
  dsimp only
  refine keeps_bind (keeps_poisonRows _ _) (fun _ => ?_)
  refine keeps_bind (keeps_modify (fun _ => Dev.Kept.refl _)) (fun _ => ?_)
  exact keeps_bind (keeps_countCore _ _ _) (fun _ => keeps_coreFault _ _)

theorem keeps_applyFault (j : Job) (f : PassFault) (passes : Nat) : Keeps (applyFault j f passes) := by
  unfold applyFault
  dsimp only
  refine keeps_bind keeps_get (fun _ => ?_)
  split
  · exact keeps_ite (keeps_residueFault _ _ _) (keeps_pure _)
  · exact keeps_ite (keeps_sramFault _ _ _) (keeps_pure _)
  · exact keeps_ite (keeps_sramFault _ _ _) (keeps_pure _)
  · exact keeps_ite (keeps_sramFault _ _ _) (keeps_pure _)
  · exact keeps_ite (keeps_sramFault _ _ _) (keeps_ite (keeps_sramFault _ _ _) (keeps_pure _))
  · exact keeps_ite (keeps_bind (keeps_poisonBand _) (fun _ => keeps_coreFault _ _)) (keeps_pure _)
  · exact keeps_ite (keeps_bind (keeps_poisonBand _) (fun _ => keeps_coreFault _ _)) (keeps_pure _)
  · exact keeps_bind (keeps_modify (fun _ => Dev.Kept.refl _)) (fun _ => keeps_coreFault _ _)
  · exact keeps_bind (keeps_modify (fun _ => Dev.Kept.refl _)) (fun _ => keeps_coreFault _ _)
  · exact keeps_pure _
  · exact keeps_pure _
  · exact keeps_ite (keeps_modify (fun _ => Dev.Kept.refl _)) (keeps_pure _)

theorem keeps_onTwin (j : Job) {act : Job → CoreAct Unit} (hact : ∀ k, Keeps (act k)) : Keeps (onTwin j act) := by
  unfold onTwin
  refine keeps_get_then (fun e => ?_)
  cases e.x.twinOf j.g with
  | none => exact Dev.Kept.refl e.d
  | some t =>
    refine kept_set_then (Dev.Kept.refl e.d) (fun _ => ?_)
    exact keeps_bind (hact _) (fun _ => keeps_modify (fun _ => Dev.Kept.refl _))

theorem keeps_compareTwin (j : Job) : Keeps (compareTwin j) := by
  unfold compareTwin
  dsimp only
  refine keeps_bind keeps_get (fun _ => ?_)
  split
  · exact keeps_pure _
  · refine keeps_ite ?_ ?_
    · refine keeps_bind (keeps_poisonBand _) (fun _ => ?_)
      refine keeps_bind (keeps_modify (fun _ => (((Dev.Kept.refl _)).count _ _ _).count _ _ _)) (fun _ => ?_)
      exact keeps_coreFault _ _
    · exact keeps_pure _

theorem keeps_bandPass (j : Job) (flt : Option PassFault) : Keeps (bandPass j flt) := by
  unfold bandPass
  dsimp only
  refine keeps_ite ?_ ?_
  · refine keeps_ite ?_ ?_
    · refine keeps_bind (keeps_prologueBand _) (fun _ => ?_)
      refine keeps_bind (keeps_tileBegin _) (fun _ => ?_)
      refine keeps_bind (keeps_spillBegin _) (fun _ => ?_)
      refine keeps_ite ?_ ?_
      · split
        · exact keeps_bind (keeps_dotPass _ _ _) (fun _ => keeps_spillEnd _)
        · exact keeps_spillEnd _
      · exact keeps_bind (keeps_distPass _ _) (fun _ => keeps_spillEnd _)
    · refine keeps_bind (keeps_modify (fun _ => Dev.Kept.refl _)) (fun _ => ?_)
      refine keeps_bind (keeps_tileBegin _) (fun _ => ?_)
      refine keeps_bind (keeps_spillBegin _) (fun _ => ?_)
      refine keeps_ite ?_ ?_
      · split
        · exact keeps_bind (keeps_dotPass _ _ _) (fun _ => keeps_spillEnd _)
        · exact keeps_spillEnd _
      · exact keeps_bind (keeps_distPass _ _) (fun _ => keeps_spillEnd _)
  · refine keeps_bind (keeps_spillBegin _) (fun _ => ?_)
    refine keeps_ite ?_ ?_
    · split
      · exact keeps_bind (keeps_dotPass _ _ _) (fun _ => keeps_spillEnd _)
      · exact keeps_spillEnd _
    · exact keeps_bind (keeps_distPass _ _) (fun _ => keeps_spillEnd _)

theorem keeps_dotWork (j : Job) (flt : Option PassFault) : Keeps (dotWork j flt) := by
  unfold dotWork
  dsimp only
  refine keeps_bind (keeps_bandPass _ _) (fun _ => ?_)
  refine keeps_ite ?_ ?_
  · refine keeps_bind (keeps_onTwin _ (fun _ => keeps_bandPass _ _)) (fun _ => ?_)
    refine keeps_bind (keeps_noteCycles _) (fun _ => ?_)
    split
    · refine keeps_bind (keeps_applyFault _ _ _) (fun _ => ?_)
      refine keeps_ite ?_ ?_
      · refine keeps_bind (keeps_noteWait _) (fun _ => ?_)
        exact keeps_ite (keeps_bind (keeps_compareTwin _) (fun _ => keeps_epilogueTile _)) (keeps_epilogueTile _)
      · exact keeps_pure _
    · refine keeps_ite ?_ ?_
      · refine keeps_bind (keeps_noteWait _) (fun _ => ?_)
        exact keeps_ite (keeps_bind (keeps_compareTwin _) (fun _ => keeps_epilogueTile _)) (keeps_epilogueTile _)
      · exact keeps_pure _
  · refine keeps_bind (keeps_noteCycles _) (fun _ => ?_)
    split
    · refine keeps_bind (keeps_applyFault _ _ _) (fun _ => ?_)
      refine keeps_ite ?_ ?_
      · refine keeps_bind (keeps_noteWait _) (fun _ => ?_)
        exact keeps_ite (keeps_bind (keeps_compareTwin _) (fun _ => keeps_epilogueTile _)) (keeps_epilogueTile _)
      · exact keeps_pure _
    · refine keeps_ite ?_ ?_
      · refine keeps_bind (keeps_noteWait _) (fun _ => ?_)
        exact keeps_ite (keeps_bind (keeps_compareTwin _) (fun _ => keeps_epilogueTile _)) (keeps_epilogueTile _)
      · exact keeps_pure _

theorem keeps_queryRow (j : Job) (a : AttnD) (h pos : Nat) : Keeps (queryRow j a h pos) := by
  unfold queryRow
  dsimp only
  refine keeps_ite ?_ ?_
  · refine keeps_bind (keeps_storedRun _ _ _ _ _ _) (fun _ => ?_)
    refine keeps_bind (keeps_countCore _ _ _) (fun _ => ?_)
    exact keeps_bind (keeps_countQuant _ _) (fun _ => keeps_bind (keeps_notePromotions _ _ _) (fun _ => keeps_pure _))
  · refine keeps_bind (keeps_rowElems _ _ _ _ _ _) (fun _ => ?_)
    exact keeps_bind (keeps_countQuant _ _) (fun _ => keeps_bind (keeps_notePromotions _ _ _) (fun _ => keeps_pure _))

theorem keeps_ringPlane (j : Job) (g : GenD) (base : Nat) (r : RingD) (h : Nat) (value : Bool) (keys : List Key) :
    Keeps (ringPlane j g base r h value keys) := by
  unfold ringPlane
  exact keeps_mapM (fun _ => keeps_bind (keeps_loadElems _ _ _ _) (fun _ => keeps_pure _)) _

theorem keeps_spillRow (j : Job) (g : GenD) (npad i : Nat) (rows : List (List F32)) : Keeps (spillRow j g npad i rows) := by
  unfold spillRow
  dsimp only
  refine keeps_bind keeps_get (fun _ => ?_)
  split
  · exact keeps_pure _
  · refine keeps_bind (keeps_storeElems _ _ _ _ _) (fun _ => ?_)
    refine keeps_foldlM (fun _ _ => ?_) _ _
    refine keeps_bind (keeps_loadElems _ _ _ _) (fun _ => ?_)
    exact keeps_bind (keeps_storeElems _ _ _ _ _) (fun _ => keeps_pure _)

theorem keeps_attnWork (j0 : Job) (flt : Option PassFault) : Keeps (attnWork j0 flt) := by
  unfold attnWork
  dsimp only
  refine keeps_bind keeps_get (fun _ => ?_)
  refine keeps_bind (keeps_modify (fun _ => Dev.Kept.refl _)) (fun _ => ?_)
  refine keeps_bind ?_ (fun _ => ?_)
  · refine keeps_foldlM (fun _ _ => ?_) _ _
    split
    · exact keeps_bind (keeps_maskRows _ _ _) (fun _ => keeps_pure _)
    · exact keeps_pure _
  · refine keeps_bind (keeps_modify (fun _ => Dev.Kept.refl _)) (fun _ => ?_)
    refine keeps_bind (keeps_ringPlane _ _ _ _ _ _ _) (fun _ => ?_)
    refine keeps_bind (keeps_ringPlane _ _ _ _ _ _ _) (fun _ => ?_)
    refine keeps_ite ?_ ?_
    · refine keeps_bind (keeps_poisonBand _) (fun _ => ?_)
      refine keeps_bind ?_ (fun _ => ?_)
      · refine keeps_mapM (fun _ => ?_) _
        refine keeps_bind (keeps_queryRow _ _ _ _) (fun _ => ?_)
        refine keeps_ite ?_ ?_
        · refine keeps_bind (keeps_poisonRows _ _) (fun _ => ?_)
          refine keeps_bind keeps_get (fun _ => ?_)
          refine keeps_bind ?_ (fun _ => ?_)
          · split
            · exact keeps_bind (keeps_spillRow _ _ _ _ _) (fun _ => keeps_ite (keeps_poisonRows _ _) (keeps_pure _))
            · exact keeps_pure _
          · split
            · exact keeps_pure _
            · exact keeps_ite (keeps_pure _) (keeps_pure _)
        · refine keeps_bind keeps_get (fun _ => ?_)
          refine keeps_bind ?_ (fun _ => ?_)
          · split
            · exact keeps_bind (keeps_spillRow _ _ _ _ _) (fun _ => keeps_ite (keeps_poisonRows _ _) (keeps_pure _))
            · exact keeps_pure _
          · split
            · exact keeps_pure _
            · exact keeps_ite (keeps_pure _) (keeps_pure _)
      · refine keeps_bind (keeps_countCore _ _ _) (fun _ => ?_)
        split
        · refine keeps_bind (keeps_applyFault _ _ _) (fun _ => ?_)
          refine keeps_bind keeps_get (fun _ => ?_)
          refine keeps_bind (keeps_colMasks _ _) (fun _ => ?_)
          exact keeps_bind (keeps_tileVecs _ _) (fun _ => keeps_epilogueRows _ _ _ _ _)
        · refine keeps_bind keeps_get (fun _ => ?_)
          refine keeps_bind (keeps_colMasks _ _) (fun _ => ?_)
          exact keeps_bind (keeps_tileVecs _ _) (fun _ => keeps_epilogueRows _ _ _ _ _)
    · refine keeps_bind ?_ (fun _ => ?_)
      · refine keeps_mapM (fun _ => ?_) _
        refine keeps_bind (keeps_queryRow _ _ _ _) (fun _ => ?_)
        refine keeps_ite ?_ ?_
        · refine keeps_bind (keeps_poisonRows _ _) (fun _ => ?_)
          refine keeps_bind keeps_get (fun _ => ?_)
          refine keeps_bind ?_ (fun _ => ?_)
          · split
            · exact keeps_bind (keeps_spillRow _ _ _ _ _) (fun _ => keeps_ite (keeps_poisonRows _ _) (keeps_pure _))
            · exact keeps_pure _
          · split
            · exact keeps_pure _
            · exact keeps_ite (keeps_pure _) (keeps_pure _)
        · refine keeps_bind keeps_get (fun _ => ?_)
          refine keeps_bind ?_ (fun _ => ?_)
          · split
            · exact keeps_bind (keeps_spillRow _ _ _ _ _) (fun _ => keeps_ite (keeps_poisonRows _ _) (keeps_pure _))
            · exact keeps_pure _
          · split
            · exact keeps_pure _
            · exact keeps_ite (keeps_pure _) (keeps_pure _)
      · refine keeps_bind (keeps_countCore _ _ _) (fun _ => ?_)
        split
        · refine keeps_bind (keeps_applyFault _ _ _) (fun _ => ?_)
          refine keeps_bind keeps_get (fun _ => ?_)
          refine keeps_bind (keeps_colMasks _ _) (fun _ => ?_)
          exact keeps_bind (keeps_tileVecs _ _) (fun _ => keeps_epilogueRows _ _ _ _ _)
        · refine keeps_bind keeps_get (fun _ => ?_)
          refine keeps_bind (keeps_colMasks _ _) (fun _ => ?_)
          exact keeps_bind (keeps_tileVecs _ _) (fun _ => keeps_epilogueRows _ _ _ _ _)

theorem keeps_scanElems (j : Job) (g : GenD) (pos : Nat) (cols : List Nat) (seen : Bool) : Keeps (scanElems j g pos cols seen) := by
  unfold scanElems
  exact keeps_bind keeps_get (fun _ => keeps_bind (keeps_loadElems _ _ _ _) (fun _ => keeps_pure _))

theorem keeps_resetWord (j : Job) (s : ScanD) (pos : Nat) : Keeps (resetWord j s pos) := by
  unfold resetWord
  dsimp only
  split
  · exact keeps_pure _
  · refine keeps_bind keeps_get (fun _ => ?_)
    refine keeps_bind (keeps_noteOperands _ _ _) (fun _ => ?_)
    exact keeps_bind (keeps_operandRead _ _ _ _ _ _) (fun _ => keeps_pure _)

theorem keeps_scanStore (j : Job) (s : ScanD) (pos : Nat) (cols : List Nat) (hs : List F32) (bad : Bool) : Keeps (scanStore j s pos cols hs bad) := by
  unfold scanStore
  dsimp only
  refine keeps_bind keeps_get (fun _ => ?_)
  refine keeps_bind (keeps_storeElems _ _ _ _ _) (fun _ => ?_)
  refine keeps_ite ?_ ?_
  · split
    · exact keeps_modify (fun _ => Dev.Kept.refl _)
    · exact keeps_pure _
  · exact keeps_pure _

end CoreAct
end Sys2Proof.Machine
end

section
/-! PROOF. Scans, samples and boxes. -/
namespace Sys2Proof.Machine

theorem CoreAct.keeps_rowCols (j : Job) (g : GenD) (pos : Nat) (cols : List Nat) : CoreAct.Keeps (sampleTile.rowCols j g pos cols) := by
  unfold sampleTile.rowCols
  refine keeps_bind keeps_get (fun _ => ?_)
  exact keeps_bind (keeps_loadElems _ _ _ _) (fun _ => keeps_pure _)

namespace CoreAct

theorem keeps_scanStream (j : Job) (s : ScanD) (pos : Nat) (cols : List Nat) (steps : List Nat) (first : Bool) :
    Keeps (scanStream j s pos cols steps first) := by
  unfold scanStream
  dsimp only
  refine keeps_bind keeps_get (fun _ => ?_)
  refine keeps_bind (keeps_resetWord _ _ _) (fun _ => ?_)
  refine keeps_bind ?_ (fun _ => ?_)
  · refine keeps_mapM (fun _ => ?_) _
    refine keeps_bind (keeps_scanElems _ _ _ _ _) (fun _ => ?_)
    exact keeps_bind (keeps_scanElems _ _ _ _ _) (fun _ => keeps_pure _)
  · refine keeps_bind ?_ (fun _ => ?_)
    · split
      · exact keeps_scanElems _ _ _ _ _
      · exact keeps_pure _
    · refine keeps_bind (keeps_ite (keeps_scanElems _ _ _ _ _) (keeps_pure _)) (fun _ => ?_)
      refine keeps_ite ?_ ?_
      · refine keeps_bind (keeps_poisonRows _ _) (fun _ => ?_)
        exact keeps_bind keeps_get (fun _ => keeps_bind (keeps_modify (fun _ => Dev.Kept.refl _)) (fun _ => keeps_pure _))
      · exact keeps_bind keeps_get (fun _ => keeps_bind (keeps_modify (fun _ => Dev.Kept.refl _)) (fun _ => keeps_pure _))

theorem keeps_scanWork (j : Job) (flt : Option PassFault) : Keeps (scanWork j flt) := by
  unfold scanWork
  dsimp only
  refine keeps_ite ?_ ?_
  · refine keeps_ite ?_ ?_
    · refine keeps_bind (keeps_validRows _) (fun _ => ?_)
      refine keeps_bind (keeps_modify (fun _ => Dev.Kept.refl _)) (fun _ => ?_)
      split
      · refine keeps_bind (keeps_applyFault _ _ _) (fun _ => ?_)
        refine keeps_bind keeps_get (fun _ => ?_)
        refine keeps_bind (keeps_colMasks _ _) (fun _ => ?_)
        refine keeps_bind ?_ (fun _ => ?_)
        · refine keeps_mapM (fun _ => ?_) _
          refine keeps_ite ?_ ?_
          · exact keeps_bind (keeps_poisonRows _ _) (fun _ => keeps_bind (keeps_scanStream _ _ _ _ _ _) (fun _ => keeps_pure _))
          · exact keeps_bind (keeps_scanStream _ _ _ _ _ _) (fun _ => keeps_pure _)
        · refine keeps_ite ?_ ?_
          · refine keeps_bind (keeps_tileVecs _ _) (fun _ => ?_)
            refine keeps_bind keeps_get (fun _ => ?_)
            refine keeps_bind (keeps_forM (fun _ => keeps_epilogueRows _ _ _ _ _) _) (fun _ => ?_)
            exact keeps_ite (keeps_forM (fun _ => keeps_bind keeps_get (fun _ => keeps_scanStore _ _ _ _ _ _)) _) (keeps_pure _)
          · exact keeps_ite (keeps_forM (fun _ => keeps_bind keeps_get (fun _ => keeps_scanStore _ _ _ _ _ _)) _) (keeps_pure _)
      · refine keeps_bind keeps_get (fun _ => ?_)
        refine keeps_bind (keeps_colMasks _ _) (fun _ => ?_)
        refine keeps_bind ?_ (fun _ => ?_)
        · refine keeps_mapM (fun _ => ?_) _
          refine keeps_ite ?_ ?_
          · exact keeps_bind (keeps_poisonRows _ _) (fun _ => keeps_bind (keeps_scanStream _ _ _ _ _ _) (fun _ => keeps_pure _))
          · exact keeps_bind (keeps_scanStream _ _ _ _ _ _) (fun _ => keeps_pure _)
        · refine keeps_ite ?_ ?_
          · refine keeps_bind (keeps_tileVecs _ _) (fun _ => ?_)
            refine keeps_bind keeps_get (fun _ => ?_)
            refine keeps_bind (keeps_forM (fun _ => keeps_epilogueRows _ _ _ _ _) _) (fun _ => ?_)
            exact keeps_ite (keeps_forM (fun _ => keeps_bind keeps_get (fun _ => keeps_scanStore _ _ _ _ _ _)) _) (keeps_pure _)
          · exact keeps_ite (keeps_forM (fun _ => keeps_bind keeps_get (fun _ => keeps_scanStore _ _ _ _ _ _)) _) (keeps_pure _)
    · refine keeps_bind (keeps_modify (fun _ => Dev.Kept.refl _)) (fun _ => ?_)
      split
      · refine keeps_bind (keeps_applyFault _ _ _) (fun _ => ?_)
        refine keeps_bind keeps_get (fun _ => ?_)
        refine keeps_bind (keeps_colMasks _ _) (fun _ => ?_)
        refine keeps_bind ?_ (fun _ => ?_)
        · refine keeps_mapM (fun _ => ?_) _
          refine keeps_ite ?_ ?_
          · exact keeps_bind (keeps_poisonRows _ _) (fun _ => keeps_bind (keeps_scanStream _ _ _ _ _ _) (fun _ => keeps_pure _))
          · exact keeps_bind (keeps_scanStream _ _ _ _ _ _) (fun _ => keeps_pure _)
        · refine keeps_ite ?_ ?_
          · refine keeps_bind (keeps_tileVecs _ _) (fun _ => ?_)
            refine keeps_bind keeps_get (fun _ => ?_)
            refine keeps_bind (keeps_forM (fun _ => keeps_epilogueRows _ _ _ _ _) _) (fun _ => ?_)
            exact keeps_ite (keeps_forM (fun _ => keeps_bind keeps_get (fun _ => keeps_scanStore _ _ _ _ _ _)) _) (keeps_pure _)
          · exact keeps_ite (keeps_forM (fun _ => keeps_bind keeps_get (fun _ => keeps_scanStore _ _ _ _ _ _)) _) (keeps_pure _)
      · refine keeps_bind keeps_get (fun _ => ?_)
        refine keeps_bind (keeps_colMasks _ _) (fun _ => ?_)
        refine keeps_bind ?_ (fun _ => ?_)
        · refine keeps_mapM (fun _ => ?_) _
          refine keeps_ite ?_ ?_
          · exact keeps_bind (keeps_poisonRows _ _) (fun _ => keeps_bind (keeps_scanStream _ _ _ _ _ _) (fun _ => keeps_pure _))
          · exact keeps_bind (keeps_scanStream _ _ _ _ _ _) (fun _ => keeps_pure _)
        · refine keeps_ite ?_ ?_
          · refine keeps_bind (keeps_tileVecs _ _) (fun _ => ?_)
            refine keeps_bind keeps_get (fun _ => ?_)
            refine keeps_bind (keeps_forM (fun _ => keeps_epilogueRows _ _ _ _ _) _) (fun _ => ?_)
            exact keeps_ite (keeps_forM (fun _ => keeps_bind keeps_get (fun _ => keeps_scanStore _ _ _ _ _ _)) _) (keeps_pure _)
          · exact keeps_ite (keeps_forM (fun _ => keeps_bind keeps_get (fun _ => keeps_scanStore _ _ _ _ _ _)) _) (keeps_pure _)
  · split
    · refine keeps_bind (keeps_applyFault _ _ _) (fun _ => ?_)
      refine keeps_bind keeps_get (fun _ => ?_)
      refine keeps_bind (keeps_colMasks _ _) (fun _ => ?_)
      refine keeps_bind ?_ (fun _ => ?_)
      · refine keeps_mapM (fun _ => ?_) _
        refine keeps_ite ?_ ?_
        · exact keeps_bind (keeps_poisonRows _ _) (fun _ => keeps_bind (keeps_scanStream _ _ _ _ _ _) (fun _ => keeps_pure _))
        · exact keeps_bind (keeps_scanStream _ _ _ _ _ _) (fun _ => keeps_pure _)
      · refine keeps_ite ?_ ?_
        · refine keeps_bind (keeps_tileVecs _ _) (fun _ => ?_)
          refine keeps_bind keeps_get (fun _ => ?_)
          refine keeps_bind (keeps_forM (fun _ => keeps_epilogueRows _ _ _ _ _) _) (fun _ => ?_)
          exact keeps_ite (keeps_forM (fun _ => keeps_bind keeps_get (fun _ => keeps_scanStore _ _ _ _ _ _)) _) (keeps_pure _)
        · exact keeps_ite (keeps_forM (fun _ => keeps_bind keeps_get (fun _ => keeps_scanStore _ _ _ _ _ _)) _) (keeps_pure _)
    · refine keeps_bind keeps_get (fun _ => ?_)
      refine keeps_bind (keeps_colMasks _ _) (fun _ => ?_)
      refine keeps_bind ?_ (fun _ => ?_)
      · refine keeps_mapM (fun _ => ?_) _
        refine keeps_ite ?_ ?_
        · exact keeps_bind (keeps_poisonRows _ _) (fun _ => keeps_bind (keeps_scanStream _ _ _ _ _ _) (fun _ => keeps_pure _))
        · exact keeps_bind (keeps_scanStream _ _ _ _ _ _) (fun _ => keeps_pure _)
      · refine keeps_ite ?_ ?_
        · refine keeps_bind (keeps_tileVecs _ _) (fun _ => ?_)
          refine keeps_bind keeps_get (fun _ => ?_)
          refine keeps_bind (keeps_forM (fun _ => keeps_epilogueRows _ _ _ _ _) _) (fun _ => ?_)
          exact keeps_ite (keeps_forM (fun _ => keeps_bind keeps_get (fun _ => keeps_scanStore _ _ _ _ _ _)) _) (keeps_pure _)
        · exact keeps_ite (keeps_forM (fun _ => keeps_bind keeps_get (fun _ => keeps_scanStore _ _ _ _ _ _)) _) (keeps_pure _)

theorem keeps_sampleRow (j : Job) (pos : Nat) (xs : List (Option F32)) : Keeps (sampleRow j pos xs) := by
  unfold sampleRow
  refine keeps_get_then (fun e => ?_)
  dsimp only
  split
  · exact (keeps_bind (keeps_countCore _ _ _) (fun _ => keeps_pure _)) _
  · split
    · exact (keeps_pure _) _
    · generalize categorical e.d.trust.ftLevel (j.t.d8 2) (j.t.d32 8)
        (philoxU (j.keyOf e pos).1 (j.keyOf e pos).2 j.lay.layer (j.rowIn pos) 1 0) xs = i
      cases i with
      | some i => exact Dev.Kept.refl e.d
      | none => exact kept_set_then ((Dev.Kept.refl e.d).freeBytes 4) (fun _ => keeps_pure _)

theorem keeps_sampleTile (j : Job) : Keeps (sampleTile j) := by
  unfold sampleTile
  dsimp only
  refine keeps_bind keeps_get (fun _ => ?_)
  refine keeps_bind (keeps_colMasks _ _) (fun _ => ?_)
  refine keeps_forM (fun _ => ?_) _
  refine keeps_bind (keeps_rowCols _ _ _ _) (fun _ => ?_)
  refine keeps_bind (keeps_ite (keeps_rowCols _ _ _ _) (keeps_pure _)) (fun _ => ?_)
  refine keeps_ite ?_ ?_
  · refine keeps_bind (keeps_poisonRows _ _) (fun _ => ?_)
    refine keeps_bind keeps_get (fun _ => ?_)
    refine keeps_ite ?_ ?_
    · exact keeps_storeRow _ _ _ _ _ _ _
    · refine keeps_bind (keeps_modify (fun _ => Dev.Kept.refl _)) (fun _ => ?_)
      refine keeps_ite ?_ ?_
      · refine keeps_bind keeps_get (fun _ => ?_)
        refine keeps_bind (keeps_ite (keeps_pure _) (keeps_sampleRow _ _ _)) (fun _ => ?_)
        refine keeps_forM (fun _ => ?_) _
        split
        · exact keeps_storeElems _ _ _ _ _
        · exact keeps_pure _
      · exact keeps_pure _
  · refine keeps_bind keeps_get (fun _ => ?_)
    refine keeps_ite ?_ ?_
    · exact keeps_storeRow _ _ _ _ _ _ _
    · refine keeps_bind (keeps_modify (fun _ => Dev.Kept.refl _)) (fun _ => ?_)
      refine keeps_ite ?_ ?_
      · refine keeps_bind keeps_get (fun _ => ?_)
        refine keeps_bind (keeps_ite (keeps_pure _) (keeps_sampleRow _ _ _)) (fun _ => ?_)
        refine keeps_forM (fun _ => ?_) _
        split
        · exact keeps_storeElems _ _ _ _ _
        · exact keeps_pure _
      · exact keeps_pure _

theorem keeps_cropBox (j : Job) (pos : Nat) (cols : List Nat) (rowBad : Bool) : Keeps (cropBox j pos cols rowBad) := by
  unfold cropBox
  dsimp only
  refine keeps_bind keeps_get (fun _ => ?_)
  refine keeps_ite ?_ ?_
  · refine keeps_bind (keeps_countCore _ _ _) (fun _ => ?_)
    refine keeps_forM (fun _ => ?_) _
    refine keeps_bind ?_ (fun _ => ?_)
    · refine keeps_ite ?_ ?_
      · exact keeps_pure _
      · split
        · exact keeps_pure _
        · refine keeps_bind keeps_get (fun _ => ?_)
          exact keeps_bind (keeps_mapM (fun _ => keeps_loadElems _ _ _ _) _) (fun _ => keeps_pure _)
    · refine keeps_bind keeps_get (fun _ => ?_)
      exact keeps_bind (keeps_countCore _ _ _) (fun _ => keeps_forM (fun _ => keeps_storeElems _ _ _ _ _) _)
  · refine keeps_forM (fun _ => ?_) _
    refine keeps_bind ?_ (fun _ => ?_)
    · refine keeps_ite ?_ ?_
      · exact keeps_pure _
      · split
        · exact keeps_pure _
        · refine keeps_bind keeps_get (fun _ => ?_)
          exact keeps_bind (keeps_mapM (fun _ => keeps_loadElems _ _ _ _) _) (fun _ => keeps_pure _)
    · refine keeps_bind keeps_get (fun _ => ?_)
      exact keeps_bind (keeps_countCore _ _ _) (fun _ => keeps_forM (fun _ => keeps_storeElems _ _ _ _ _) _)

theorem keeps_vectorWork (j : Job) (flt : Option PassFault) : Keeps (vectorWork j flt) := by
  unfold vectorWork
  dsimp only
  refine keeps_ite ?_ ?_
  · refine keeps_bind (keeps_validRows _) (fun _ => ?_)
    refine keeps_bind (keeps_modify (fun _ => Dev.Kept.refl _)) (fun _ => ?_)
    split
    · refine keeps_bind (keeps_applyFault _ _ _) (fun _ => ?_)
      refine keeps_ite ?_ ?_
      · exact keeps_sampleTile _
      · refine keeps_bind keeps_get (fun _ => ?_)
        refine keeps_bind (keeps_colMasks _ _) (fun _ => ?_)
        exact keeps_forM (fun _ => keeps_bind keeps_get (fun _ => keeps_cropBox _ _ _ _)) _
    · refine keeps_ite ?_ ?_
      · exact keeps_sampleTile _
      · refine keeps_bind keeps_get (fun _ => ?_)
        refine keeps_bind (keeps_colMasks _ _) (fun _ => ?_)
        exact keeps_forM (fun _ => keeps_bind keeps_get (fun _ => keeps_cropBox _ _ _ _)) _
  · split
    · refine keeps_bind (keeps_applyFault _ _ _) (fun _ => ?_)
      refine keeps_ite ?_ ?_
      · exact keeps_sampleTile _
      · refine keeps_bind keeps_get (fun _ => ?_)
        refine keeps_bind (keeps_colMasks _ _) (fun _ => ?_)
        exact keeps_forM (fun _ => keeps_bind keeps_get (fun _ => keeps_cropBox _ _ _ _)) _
    · refine keeps_ite ?_ ?_
      · exact keeps_sampleTile _
      · refine keeps_bind keeps_get (fun _ => ?_)
        refine keeps_bind (keeps_colMasks _ _) (fun _ => ?_)
        exact keeps_forM (fun _ => keeps_bind keeps_get (fun _ => keeps_cropBox _ _ _ _)) _

theorem keeps_workOf (j : Job) (flt : Option PassFault) : Keeps (workOf j flt) := by
  unfold workOf
  split
  · exact keeps_dotWork _ _
  · exact keeps_scanWork _ _
  · exact keeps_attnWork _ _
  · exact keeps_vectorWork _ _

theorem keeps_sigWork (j : Job) (flt : Option PassFault) (kt : Nat) : Keeps (sigWork j flt kt) := by
  unfold sigWork
  exact keeps_bind (keeps_workOf _ _) (fun _ => keeps_modify (fun _ => Dev.Kept.refl _))

theorem keeps_signatureCheck (j : Job) : Keeps (signatureCheck j) := by
  unfold signatureCheck
  dsimp only
  refine keeps_bind keeps_get (fun _ => ?_)
  refine keeps_ite ?_ ?_
  · refine keeps_bind (keeps_countCore _ _ _) (fun _ => ?_)
    exact keeps_bind (keeps_coreFault _ _) (fun _ => keeps_modify (fun _ => Dev.Kept.refl _))
  · exact keeps_pure _

end CoreAct
end Sys2Proof.Machine
end

section
/-! PROOF. Runs and their cores. -/
namespace Sys2Proof.Machine

theorem Ex.kept_absorb {d₀ : Dev} {e : Ex} (hk : d₀.Kept e.d) (rid : Nat) (x0 : Run) : d₀.Kept (e.absorb rid x0) := by
  unfold Ex.absorb
  exact Dev.Kept.foldl (hk.putRun _ _) (fun _ _ he => he.countFault _ _) _

/-- What an action of a core leaves once it is absorbed. -/
theorem Ex.kept_run_absorb {d₀ : Dev} {act : CoreAct PUnit} (hact : CoreAct.Keeps act) {e : Ex} (hk : d₀.Kept e.d) (rid : Nat) (x0 : Run) :
    d₀.Kept ((act.run e).2.absorb rid x0) :=
  Ex.kept_absorb (hk.trans (hact e)) rid x0

/-! Multicast tables. -/

/-- The subscribers of each entry are listed once each, in order. -/
def SubsInOrder (l : List Mcast) : Prop := ∀ z ∈ l, z.subs.Pairwise (· < ·)

theorem SubsInOrder.map {l : List Mcast} (h : SubsInOrder l) {g : Mcast → Mcast}
    (hg : ∀ z, z.subs.Pairwise (· < ·) → (g z).subs.Pairwise (· < ·)) : SubsInOrder (l.map g) := by
  intro z hz
  obtain ⟨w, hw, rfl⟩ := List.mem_map.1 hz
  exact hg w (h w hw)

theorem SubsInOrder.concat {l : List Mcast} (h : SubsInOrder l) {m : Mcast} (hm : m.subs.Pairwise (· < ·)) : SubsInOrder (l ++ [m]) := by
  intro z hz
  rcases List.mem_append.1 hz with hz | hz
  · exact h z hz
  · obtain rfl := List.mem_singleton.1 hz
    exact hm

theorem SubsInOrder.filter {l : List Mcast} (h : SubsInOrder l) (q : Mcast → Bool) : SubsInOrder (l.filter q) :=
  fun z hz => h z (List.mem_filter.1 hz).1

/-- A junction die whose multicast table is made from that of some state on the way. -/
theorem Dev.Kept.putJd_from {d₀ d e : Dev} (h : d₀.Kept d) (h' : d₀.Kept e) (j : Nat) {x : Jd}
    (hx : SubsInOrder (e.jd j).mcast → SubsInOrder x.mcast) : d₀.Kept (d.putJd j x) :=
  ⟨h.counters, h.memory, h.views, h.partitions, fun c => (h.casts c).kset j (hx ((h'.casts c).jd j))⟩

namespace Dev.Kept
variable {d₀ d : Dev}

theorem prefetch (hk : d₀.Kept d) (part : Nat) (g : Prog) (l : Nat) : d₀.Kept (d.prefetch part g l) := by
  unfold Dev.prefetch
  split
  next _ _ _ _ _ hfound =>
    refine hk.putPart_of hk hfound ?_
    exact rfl
  · exact hk

theorem sbAdvance (hk : d₀.Kept d) (g : Nat) : d₀.Kept (d.sbAdvance g) := by
  unfold Dev.sbAdvance
  split
  · exact hk
  · split
    next _ _ _ _ _ _ _ hfound _ =>
      refine ite hk ((hk.putPart_of hk hfound ?_).putRun _ _)
      exact rfl
    · exact hk

theorem junctionSet (hk : d₀.Kept d) (p : Nat) : d₀.Kept (d.junctionSet p) := by
  unfold Dev.junctionSet
  refine hk.modPart _ (fun x => ?_)
  cases x.jsets with
  | nil => rfl
  | cons s l => rfl

theorem workOn (hk : d₀.Kept d) (g : Nat) (flt : Option PassFault) (env : Env) : d₀.Kept (d.workOn g flt env) := by
  unfold Dev.workOn
  split
  · exact hk
  next rid x _ =>
    split
    next c pg _ _ =>
      split
      · exact hk
      next w rest _ =>
        refine ite hk ?_
        split
        · exact hk
        next j _ => exact ite hk (Ex.kept_run_absorb (CoreAct.keeps_sigWork j flt _) hk rid x)
    · exact hk

theorem judgeLayer (hk : d₀.Kept d) (rid layer : Nat) : d₀.Kept (d.judgeLayer rid layer) := by
  unfold Dev.judgeLayer
  split
  · exact hk
  · split
    · exact hk
    · refine ite hk (ite (hk.putRun _ _) (ite (foldl (hk.putRun _ _) (fun _ _ he => he.count _ _ _) _) ?_))
      exact (foldl (hk.putRun _ _) (fun _ _ he => he.count _ _ _) _).raise _ _

theorem judge (hk : d₀.Kept d) (rid : Nat) : d₀.Kept (d.judge rid) := by
  unfold Dev.judge
  split
  · exact hk
  · split
    · exact foldl hk (fun _ _ he => he.judgeLayer _ _) _
    · exact hk

theorem tilePass (hk : d₀.Kept d) (g : Nat) (flt : Option PassFault) (env : Env) : d₀.Kept (d.tilePass g flt env) := by
  unfold Dev.tilePass
  split
  · exact hk
  · exact (((hk.sbAdvance _).workOn _ _ _).sbAdvance _).judge _

theorem subscribe (hk : d₀.Kept d) (g : Nat) : d₀.Kept (d.subscribe g) := by
  unfold Dev.subscribe
  split
  · exact hk
  · split
    · exact hk
    · dsimp only
      refine ite hk ?_
      split
      · exact hk
      · split
        · refine ite ((hk.putRun _ _).putJd_from hk _ (fun c => ?_)) ((hk.putRun _ _).putJd_from hk _ (fun c => ?_))
          · refine c.map (fun z hz => ?_)
            split
            · exact hz
            · exact hz
          · refine c.map (fun z hz => ?_)
            split
            · exact insertSorted_sorted g _ hz
            · exact hz
        · refine ite ((hk.putRun _ _).missTile _ _ _ _) ?_
          refine ((foldl hk (fun _ _ he => (he.touch _ _ _).chargeRun _ _ _) _).putRun _ _).putJd_from hk _ (fun c => ?_)
          exact c.concat (List.pairwise_singleton _ _)

theorem deliver (hk : d₀.Kept d) (part prog tile g : Nat) : d₀.Kept (d.deliver part prog tile g) := by
  unfold Dev.deliver
  exact hk.setRuns _

theorem tileArrive (hk : d₀.Kept d) (k part prog tile : Nat) (badLink : List Nat) : d₀.Kept (d.tileArrive k part prog tile badLink) := by
  unfold Dev.tileArrive
  dsimp only
  split
  · exact hk
  · refine foldl (hk.putJd_from hk _ (fun c => ?_)) (fun _ _ he => ite (he.missTile _ _ _ _) (he.deliver _ _ _ _)) _
    refine c.map (fun z hz => ?_)
    split
    · exact List.Pairwise.nil
    · exact hz

theorem endSets (hk : d₀.Kept d) (rid : Nat) : d₀.Kept (d.endSets rid) := by
  unfold Dev.endSets
  split
  · exact hk
  · split
    next _ _ _ _ hfound _ =>
      refine ite ((hk.putPart_of hk hfound ?_).putRun _ _) (hk.putPart_of hk hfound ?_)
      · exact rfl
      · exact rfl
    · exact hk

theorem signatures (hk : d₀.Kept d) (rid : Nat) : d₀.Kept (d.signatures rid) := by
  unfold Dev.signatures
  split
  · exact hk
  · refine foldl hk (fun w c he => ?_) _
    split
    · exact he
    next x _ =>
      split
      next j _ => exact Ex.kept_run_absorb (CoreAct.keeps_signatureCheck j) he rid x
      · exact he

theorem normsEnd (hk : d₀.Kept d) (rid : Nat) : d₀.Kept (d.normsEnd rid) := by
  unfold Dev.normsEnd
  split
  · exact hk
  · split
    · exact hk
    · dsimp only
      split
      · exact hk
      · exact ((foldl hk (fun _ _ he => he.count _ _ _) _).putRun _ _).raise _ _

theorem blurRuns (hk : d₀.Kept d) (x : Run) (l : List (Nat × Nat)) : d₀.Kept (d.blurRuns x l) := by
  unfold Dev.blurRuns
  exact foldl hk (fun _ _ he => (he.freeBytes _).putPlace _ _ _) _

theorem settleOutputs (hk : d₀.Kept d) (rid : Nat) : d₀.Kept (d.settleOutputs rid) := by
  unfold Dev.settleOutputs
  split
  · exact hk
  · exact ite (foldl hk (fun _ _ he => he.putPlace _ _ _) _) hk

theorem leaveCore (hk : d₀.Kept d) (g : Nat) : d₀.Kept (d.leaveCore g) := by
  unfold Dev.leaveCore
  exact ite hk (hk.modCore _ _)

theorem dropSubs (hk : d₀.Kept d) (x : Run) : d₀.Kept (d.dropSubs x) := by
  unfold Dev.dropSubs
  refine hk.setJds (fun c e he => ?_)
  obtain ⟨w, hw, rfl⟩ := List.mem_map.1 he
  refine SubsInOrder.map (c w hw) (fun z hz => ?_)
  split
  · exact hz.filter _
  · exact hz

theorem grant (hk : d₀.Kept d) (rid : Nat) : d₀.Kept (d.grant rid) := by
  unfold Dev.grant
  split
  · exact hk
  · refine ite ?_ ?_
    · exact hk
    · split
      · exact hk
      · exact (ite (foldl hk (fun _ _ he => he.blurPot _ _ _ _) _) hk).putRun _ _

theorem grantAll (hk : d₀.Kept d) : d₀.Kept d.grantAll := by
  unfold Dev.grantAll
  exact foldl hk (fun _ _ he => he.grant _) _

theorem closeRun (hk : d₀.Kept d) (rid : Nat) : d₀.Kept (d.closeRun rid) := by
  unfold Dev.closeRun
  split
  · exact hk
  · dsimp only
    split
    · exact foldl ((hk.putRun _ _).dropSubs _) (fun _ _ he => he.leaveCore _) _
    · exact (((foldl ((hk.putRun _ _).dropSubs _) (fun _ _ he => he.leaveCore _) _).mark _ _).finish _ _ _ _ _ _).dropRun _

theorem endRun (hk : d₀.Kept d) (rid : Nat) : d₀.Kept (d.endRun rid) := by
  unfold Dev.endRun
  exact (((((hk.endSets _).signatures _).normsEnd _).settleOutputs _).closeRun _).grantAll

theorem commandEnd (hk : d₀.Kept d) (rid : Nat) : d₀.Kept (d.commandEnd rid) := by
  unfold Dev.commandEnd
  split
  · exact hk
  · exact ite hk (hk.endRun _)

theorem timeLimit (hk : d₀.Kept d) (rid : Nat) : d₀.Kept (d.timeLimit rid) := by
  unfold Dev.timeLimit
  split
  · exact hk
  · exact ite hk (((hk.putRun _ _).blurRuns _ _).endRun _)

end Dev.Kept
end Sys2Proof.Machine
end

section
/-! PROOF. Programs, graphs, contexts and passes. -/
namespace Sys2Proof.Machine

theorem Part.park_cupsNew (x : Part) (i : Nat) : (x.park i).cupsNew = x.cupsNew := by
  unfold Part.park
  split
  · rfl
  · rfl

theorem Dev.Kept.setNextRun {d₀ d : Dev} (hk : d₀.Kept d) (n : Nat) : d₀.Kept { d with nextRun := n } :=
  hk.of_eq rfl rfl rfl rfl rfl

/-! Checks that turn something away, or let it go on. -/

theorem Dev.Kept.of_inl {α β : Type} {d₀ : Dev} {f : α → Dev} {g : β → Dev} {z : α ⊕ β} {a : α} (h : d₀.Kept (Sum.elim f g z)) (he : z = .inl a) :
    d₀.Kept (f a) := by
  rwa [he] at h

theorem Dev.Kept.of_inr {α β : Type} {d₀ : Dev} {f : α → Dev} {g : β → Dev} {z : α ⊕ β} {b : β} (h : d₀.Kept (Sum.elim f g z)) (he : z = .inr b) :
    d₀.Kept (g b) := by
  rwa [he] at h

theorem Dev.Kept.elim_ite {α β : Type} {d₀ : Dev} {f : α → Dev} {g : β → Dev} {c : Prop} [Decidable c] {a b : α ⊕ β}
    (ha : d₀.Kept (Sum.elim f g a)) (hb : d₀.Kept (Sum.elim f g b)) : d₀.Kept (Sum.elim f g (if c then a else b)) := by
  split
  · exact ha
  · exact hb

namespace Dev.Kept
variable {d₀ d : Dev}

theorem programLoad (hk : d₀.Kept d) (r : CmdRef) (e : Env) : d₀.Kept (d.programLoad r e) := by
  unfold Dev.programLoad
  refine hk.withCmd _ _ (fun _ => ?_)
  dsimp only
  refine ite ?_ ?_
  · exact hk.finish _ _ _ _ _ _
  · refine ite ?_ ?_
    · exact hk.finish _ _ _ _ _ _
    · refine ite ?_ ?_
      · exact ((hk.read _ _ _ _).mark _ _).finish _ _ _ _ _ _
      · refine ite ?_ ?_
        · exact (hk.read _ _ _ _).finish _ _ _ _ _ _
        · split
          · exact hk.read _ _ _ _
          next _ _ hfound =>
            refine ite ((hk.read _ _ _ _).finish _ _ _ _ _ _) (((hk.read _ _ _ _).putPart_of (hk.read _ _ _ _) hfound ?_).finish _ _ _ _ _ _)
            exact rfl

theorem programUnload (hk : d₀.Kept d) (r : CmdRef) : d₀.Kept (d.programUnload r) := by
  unfold Dev.programUnload
  refine hk.withCmd _ _ (fun _ => ?_)
  dsimp only
  refine ite ?_ ?_
  · exact hk.finish _ _ _ _ _ _
  · split
    · exact hk
    next _ _ hfound =>
      refine ite (hk.finish _ _ _ _ _ _) (ite (hk.finish _ _ _ _ _ _) ((hk.putPart_of hk hfound ?_).finish _ _ _ _ _ _))
      exact rfl

theorem readList (hk : d₀.Kept d) (p : Nat) (l : List (Nat × Nat)) : d₀.Kept (d.readList p l).2.2 := by
  unfold Dev.readList
  refine foldl_snd_snd ?_ (fun w a he => ?_) _
  · exact hk
  · exact he.read _ _ _ _

theorem launch (hk : d₀.Kept d) (x : Run) (pg : Prog) (pot : Nat) : d₀.Kept (d.launch x pg pot) := by
  unfold Dev.launch
  dsimp only
  refine grant (prefetch ?_ _ _ _) _
  refine setNextRun (putRun (foldl hk (fun _ _ he => ?_) _) _ _) _
  exact he.modCore _ _

theorem graphCheck (hk : d₀.Kept d) (r : CmdRef) (c : Cmd) (pg : Prog) : d₀.Kept (Sum.elim id GraphGo.dev (d.graphCheck r c pg)) := by
  have hfin : ∀ st x, d₀.Kept (d.finish r st 0 0 x) := fun st x => hk.finish _ _ _ _ _ _
  have hunread : ∀ e m m', d₀.Kept e → d₀.Kept ((e.mark r m).finish r stSuccess m') := fun e m m' he => (he.mark _ _).finish _ _ _ _ _ _
  unfold Dev.graphCheck
  dsimp only
  refine elim_ite ?_ ?_
  · split
    · exact elim_ite (hfin _ _) (hfin _ _)
    · exact hfin _ _
  refine elim_ite (hfin _ _) (elim_ite ?_ (elim_ite ?_ (elim_ite ?_ (elim_ite ?_ ?_))))
  · exact hunread _ _ _ ((hk.readList _ _).readList _ _)
  · split
    · exact elim_ite (hfin _ _) (hfin _ _)
    · exact hfin _ _
  · split
    · exact elim_ite (hfin _ _) (hfin _ _)
    · exact hfin _ _
  · split
    · exact elim_ite (hfin _ _) (hfin _ _)
    · exact hfin _ _
  have hread := fun l₁ l₂ l₃ l₄ l₅ =>
    ((((hk.readList r.f l₁).readList r.f l₂).readList r.f l₃).readList r.f l₄).readList r.f l₅
  refine elim_ite (hunread _ _ _ (hread _ _ _ _ _)) ?_
  split
  · exact hfin _ _
  · exact elim_ite (hfin _ _) (elim_ite ((hk.mark _ _).finish _ _ _ _ _ _) (hread _ _ _ _ _))

theorem graphStart (hk : d₀.Kept d) (r : CmdRef) (c : Cmd) (pg : Prog) : d₀.Kept (d.graphStart r c pg) := by
  have hcheck := hk.graphCheck r c pg
  unfold Dev.graphStart
  split
  next h => exact of_inl hcheck h
  next h => exact ite hk (((of_inr hcheck h).launch _ _ _).modCmd _ _)

theorem graphRun (hk : d₀.Kept d) (r : CmdRef) : d₀.Kept (d.graphRun r) := by
  unfold Dev.graphRun
  refine hk.withCmd _ _ (fun _ => ?_)
  dsimp only
  refine ite ?_ ?_
  · exact hk.finish _ _ _ _ _ _
  · split
    · exact hk
    · split
      · exact hk.finish _ _ _ _ _ _
      · exact ite (hk.finish _ _ _ _ _ _) (ite (hk.finish _ _ _ _ _ _) (hk.graphStart _ _ _))

theorem commandStart (hk : d₀.Kept d) (r : CmdRef) : d₀.Kept (d.commandStart r) := by
  unfold Dev.commandStart
  split
  · exact hk
  · split
    · exact hk.finish _ _ _ _ _ _
    · exact ite (hk.graphRun _) hk

theorem restCtx (hk : d₀.Kept d) (p i st blk : Nat) (g : Ctx → Ctx) : d₀.Kept (d.restCtx p i st blk g) := by
  unfold Dev.restCtx
  refine ite ((ite (hk.putCtx _ _) ((hk.putCtx _ _).modPart _ ?_)).ctxCompletion _) (ite (hk.putCtx _ _) ((hk.putCtx _ _).modPart _ ?_))
  · exact fun _ => rfl
  · exact fun _ => rfl

theorem faultCtx (hk : d₀.Kept d) (p i status : Nat) : d₀.Kept (d.faultCtx p i status) := by
  unfold Dev.faultCtx
  exact hk.restCtx _ _ _ _ _

theorem toRun (hk : d₀.Kept d) (p i : Nat) : d₀.Kept (d.toRun p i) := by
  unfold Dev.toRun
  split
  · exact hk
  · refine ite (hk.restCtx _ _ _ _ _) (ite (hk.restCtx _ _ _ _ _) (ite (hk.putCtx _ _) ((hk.putCtx _ _).modPart _ ?_)))
    exact fun y => y.park_cupsNew i

theorem settle (hk : d₀.Kept d) (p i : Nat) : d₀.Kept (d.settle p i) := by
  unfold Dev.settle
  exact ite (hk.restCtx _ _ _ _ _) (ite (hk.restCtx _ _ _ _ _) (hk.toRun _ _))

theorem inputWake (hk : d₀.Kept d) (p : Nat) : d₀.Kept (d.inputWake p) := by
  unfold Dev.inputWake
  split
  · exact hk
  · exact foldl hk (fun _ _ he => ite he (he.toRun _ _)) _

theorem rollOne (hk : d₀.Kept d) (r : CmdRef) (c : Cmd) (i : Nat) : d₀.Kept (d.rollOne r c i).1 := by
  unfold Dev.rollOne
  refine ite ((hk.putCtx _ _).faultCtx _ _ _) (ite (ite (hk.putCtx _ _) (((hk.putCtx _ _).putCtx _ _).settle _ _)) ?_)
  exact ite ((hk.putCtx _ _).settle _ _) (hk.putCtx _ _)

theorem rollAll (hk : d₀.Kept d) (r : CmdRef) (c : Cmd) (l : List Nat) : d₀.Kept (d.rollAll r c l).1 := by
  unfold Dev.rollAll
  refine foldl_fst ?_ (fun w a he => ?_) _
  · exact hk
  · exact he.rollOne _ _ _

theorem rolloutStep (hk : d₀.Kept d) (r : CmdRef) : d₀.Kept (d.rolloutStep r) := by
  unfold Dev.rolloutStep
  refine hk.withCmd _ _ (fun _ => ?_)
  dsimp only
  refine ite ?_ ?_
  · exact hk.finish _ _ _ _ _ _
  · split
    · exact hk
    · split
      · exact hk.finish _ _ _ _ _ _
      · refine ite ?_ ?_
        · exact ((hk.readList _ _).mark _ _).finish _ _ _ _ _ _
        · refine ite ?_ ?_
          · exact (hk.readList _ _).finish _ _ _ _ _ _
          · split
            · exact (hk.readList _ _).finish _ _ _ _ _ _
            · split
              · exact (hk.readList _ _).finish _ _ _ _ _ _
              · split
                · exact (hk.readList _ _).finish _ _ _ _ _ _
                · refine ((ite (hk.readList _ _) ((hk.readList _ _).modPart _ ?_)).rollAll _ _ _).finish _ _ _ _ _ _
                  exact fun _ => rfl

theorem pinIn (hk : d₀.Kept d) (p i : Nat) : d₀.Kept (d.pinIn p i) := by
  unfold Dev.pinIn
  split
  · exact hk
  next _ _ hfound =>
    dsimp only
    refine ite ?_ ?_
    · refine (hk.putPart_of hk hfound ?_).putCtx _ _
      exact rfl
    · split
      · refine ((hk.putPart_of hk hfound ?_).putCtx _ _).putCtx _ _
        exact rfl
      · refine hk.putPart_of hk hfound ?_
        exact rfl

theorem ctxCreate (hk : d₀.Kept d) (r : CmdRef) : d₀.Kept (d.ctxCreate r) := by
  unfold Dev.ctxCreate
  refine hk.withCmd _ _ (fun _ => ?_)
  split
  · exact hk
  · dsimp only
    refine ite (hk.finish _ _ _ _ _ _) (ite (hk.finish _ _ _ _ _ _) (ite (((hk.readList _ _).mark _ _).finish _ _ _ _ _ _) ?_))
    have hread := fun l => hk.readList r.f l
    refine ite ((hread _).finish _ _ _ _ _ _) (ite ((hread _).finish _ _ _ _ _ _) (ite ((hread _).finish _ _ _ _ _ _) ?_))
    have hput := fun l i c => (hread l).putCtx i c
    have hparked := fun l i c => (hput l i c).modPart r.f (fun y => y.park_cupsNew i)
    exact finish (ite (pinIn (ite (hparked _ _ _) (hput _ _ _)) _ _) (ite (hparked _ _ _) (hput _ _ _))) _ _ _ _ _ _

theorem ctxRetire (hk : d₀.Kept d) (r : CmdRef) : d₀.Kept (d.ctxRetire r) := by
  unfold Dev.ctxRetire
  refine hk.withCmd _ _ (fun _ => ?_)
  split
  · exact hk
  · dsimp only
    refine ite ?_ ?_
    · exact hk.finish _ _ _ _ _ _
    · refine ite ?_ ?_
      · exact ((hk.readList _ _).mark _ _).finish _ _ _ _ _ _
      · split
        · exact (hk.readList _ _).finish _ _ _ _ _ _
        · refine ite ?_ ?_
          · exact (foldl (foldl (hk.readList _ _) (fun _ _ he => he.freeCtx _) _) (fun _ _ he => he.putCtx _ _) _).finish _ _ _ _ _ _
          exact (foldl (foldl (hk.readList _ _) (fun _ _ he => he.freeCtx _) _) (fun _ _ he => he.putCtx _ _) _).modCmd _ _

theorem residency (hk : d₀.Kept d) (p j : Nat) : d₀.Kept (d.residency p j) := by
  unfold Dev.residency
  split
  · exact hk
  next _ _ hfound =>
    dsimp only
    split
    · exact hk
    · refine ite ?_ ?_
      · refine (hk.putPart_of hk hfound ?_).putCtx _ _
        exact rfl
      · split
        · refine hk.putPart_of hk hfound ?_
          exact rfl
        · refine ite (ite hk ((hk.putPart_of hk hfound ?_).raise _ _)) (hk.putPart_of hk hfound ?_)
          · exact rfl
          · exact rfl

theorem swapEnd (hk : d₀.Kept d) (p j : Nat) : d₀.Kept (d.swapEnd p j) := by
  unfold Dev.swapEnd
  split
  · exact hk
  next x hx =>
    split
    · exact hk
    next m _ =>
      have hput := hk.putPart_of (y := { x with moves := x.moves.erase m }) hk hx rfl
      have hout : ∀ v c, d₀.Kept (((d.putPart p { x with moves := x.moves.erase m }).putCtx v c).modPart p (fun y => y.park v)) :=
        fun v c => (hput.putCtx v c).modPart p (fun y => y.park_cupsNew v)
      dsimp only
      split
      · refine putCtx ?_ _ _
        split
        · exact ite (hout _ _) (hput.putCtx _ _)
        · exact hput
      · split
        · exact ite (hout _ _) (hput.putCtx _ _)
        · exact hput

theorem closeBatch (hk : d₀.Kept d) (p b : Nat) : d₀.Kept (d.closeBatch p b) := by
  unfold Dev.closeBatch
  refine hk.modPart _ (fun x => ?_)
  split
  · rfl
  · split
    · rfl
    · rfl

theorem joinBatch (hk : d₀.Kept d) (p : Nat) (x : Part) (i : Nat) (img : Bytes) (st : Stage) : d₀.Kept (d.joinBatch p x i img st) := by
  unfold Dev.joinBatch
  dsimp only
  split
  · refine ite (((hk.putCtx _ _).modPart _ ?_).closeBatch _ _) ((hk.putCtx _ _).modPart _ ?_)
    · exact fun _ => rfl
    · exact fun _ => rfl
  · refine ite (ite ((((hk.closeBatch _ _).putCtx _ _).modPart _ ?_).closeBatch _ _) (((hk.closeBatch _ _).putCtx _ _).modPart _ ?_)) ?_
    · exact fun _ => rfl
    · exact fun _ => rfl
    refine ite (((hk.putCtx _ _).modPart _ ?_).closeBatch _ _) ((hk.putCtx _ _).modPart _ ?_)
    · exact fun _ => rfl
    · exact fun _ => rfl

theorem contextJoin (hk : d₀.Kept d) (i : Nat) : d₀.Kept (d.contextJoin i) := by
  unfold Dev.contextJoin
  split
  · exact hk
  · dsimp only
    refine ite ?_ ?_
    · exact hk
    · split
      · exact hk
      · exact ite (hk.restCtx _ _ _ _ _) (hk.joinBatch _ _ _ _ _)

theorem batchWindow (hk : d₀.Kept d) (p b : Nat) : d₀.Kept (d.batchWindow p b) := by
  unfold Dev.batchWindow
  split
  · exact ite hk (hk.closeBatch _ _)
  · exact hk

theorem failCtxs (hk : d₀.Kept d) (p : Nat) (l : List (Nat × Nat)) : d₀.Kept (d.failCtxs p l) := by
  unfold Dev.failCtxs
  refine foldl hk (fun _ _ he => ite (he.freeCtx _) ((he.modPart _ ?_).faultCtx _ _ _)) _
  exact fun _ => rfl

theorem ringHeads (hk : d₀.Kept d) (p : Nat) (x : Part) (z : Batch) (ts : List TileProg) (ids : List Nat) : d₀.Kept (d.ringHeads p x z ts ids).2 := by
  unfold Dev.ringHeads
  split
  · exact hk
  · refine foldl_snd ?_ (fun w a he => ?_) _
    · exact hk
    · exact he.read _ _ _ _

theorem readBoxes (hk : d₀.Kept d) (p : Nat) (l : List (Nat × Nat × List (Nat × Nat))) : d₀.Kept (d.readBoxes p l).2.2 := by
  unfold Dev.readBoxes
  refine foldl_snd_snd ?_ (fun w a he => ?_) _
  · exact hk
  · exact he.readList _ _

theorem passRead (hk : d₀.Kept d) (x : Run) (img : Bytes) : d₀.Kept (Sum.elim Prod.snd PassGo.dev (d.passRead x img)) := by
  have hread := hk.readBoxes x.part (d.boxRuns x img)
  unfold Dev.passRead
  dsimp only
  refine elim_ite hk (elim_ite hk ?_)
  split
  · exact hread
  · exact elim_ite hread hread

theorem passCheck (hk : d₀.Kept d) (p : Nat) (x : Part) (z : Batch) (pg : Prog) (x0 : Run) (cores : List (Nat × Nat)) :
    d₀.Kept (Sum.elim id PassGo.dev (d.passCheck p x z pg x0 cores)) := by
  unfold Dev.passCheck
  dsimp only
  refine elim_ite ((hk.ringHeads _ _ _ _ _).failCtxs _ _) ?_
  have hread := fun ts bad l l' => ((((hk.ringHeads p x z ts x0.ctxs).failCtxs p bad).readList p l).readList p l')
  refine elim_ite ((hread _ _ _ _).failCtxs _ _) (elim_ite ((hread _ _ _ _).failCtxs _ _) ?_)
  have hgo := fun ts bad l l' x1 => (hread ts bad l l').passRead x1 pg.image
  split
  next w h => exact failCtxs (of_inl (a := w) (hgo _ _ _ _ _) h) _ _
  next g h => exact of_inr (b := g) (hgo _ _ _ _ _) h

theorem passGo (hk : d₀.Kept d) (p b : Nat) (x : Part) (z : Batch) (pg : Prog) (x0 : Run) (cores : List (Nat × Nat)) (pot : Nat) :
    d₀.Kept (d.passGo p b x z pg x0 cores pot) := by
  have hcheck := hk.passCheck p x z pg x0 cores
  unfold Dev.passGo
  split
  next h => exact of_inl hcheck h
  next h =>
    refine ((of_inr hcheck h).launch _ _ _).modPart _ (fun y => ?_)
    split
    · rfl
    · rfl

theorem passStart (hk : d₀.Kept d) (p b : Nat) : d₀.Kept (d.passStart p b) := by
  unfold Dev.passStart
  split
  · exact hk
  · split
    · exact hk
    · split
      · exact hk
      · refine ite ?_ ?_
        · exact hk
        · split
          · exact hk.failCtxs _ _
          · exact ite hk (ite (hk.failCtxs _ _) (ite hk (hk.passGo _ _ _ _ _ _ _ _)))

theorem stepped (hk : d₀.Kept d) (p b i : Nat) : d₀.Kept (d.stepped p b i) := by
  unfold Dev.stepped
  split
  · exact hk
  next _ _ hfound =>
    split
    · exact hk
    · refine ite hk (ite (ite (((hk.putPart_of hk hfound ?_).putCtx _ _).ctxCompletion _) ((hk.putPart_of hk hfound ?_).putCtx _ _)) ?_)
      · exact rfl
      · exact rfl
      refine ite (((hk.putPart_of hk hfound ?_).putCtx _ _).freeCtx _) ?_
      · exact rfl
      refine ite ?_ ?_
      · refine (ite (((hk.putPart_of hk hfound ?_).putCtx _ _).restCtx _ _ _ _ _) (((hk.putPart_of hk hfound ?_).putCtx _ _).settle _ _)).ctxCompletion _
        · exact rfl
        · exact rfl
      refine ite (((hk.putPart_of hk hfound ?_).putCtx _ _).restCtx _ _ _ _ _) (((hk.putPart_of hk hfound ?_).putCtx _ _).settle _ _)
      · exact rfl
      · exact rfl

theorem advance (hk : d₀.Kept d) (p b i point : Nat) : d₀.Kept (d.advance p b i point) := by
  unfold Dev.advance
  split
  · exact hk
  next _ _ hfound =>
    split
    · exact hk
    · refine ite hk (ite (ite (hk.putPart_of hk hfound ?_) hk) (ite (hk.putCtx _ _) (ite ((hk.putCtx _ _).freeCtx _) ?_)))
      · exact rfl
      refine ((hk.putCtx _ _).putPart_of hk hfound ?_).restCtx _ _ _ _ _
      exact rfl

theorem pipeline (hk : d₀.Kept d) (p b stages delay : Nat) : d₀.Kept (d.pipeline p b stages delay) := by
  unfold Dev.pipeline
  split
  · exact hk
  next _ _ hfound =>
    split
    · exact hk
    · refine ite hk (hk.putPart_of hk hfound ?_)
      exact rfl

theorem passRelease (hk : d₀.Kept d) (rid : Nat) : d₀.Kept (d.passRelease rid) := by
  unfold Dev.passRelease
  split
  · exact hk
  · refine ite ?_ ?_
    · exact hk
    · dsimp only
      split
      · refine ite ?_ ?_
        · refine (ite (((hk.dropRun _).modPart _ ?_).failCtxs _ _)
              (ite (ite ((foldl ((foldl ((hk.dropRun _).modPart _ ?_) (fun _ _ he => he.putCtx _ _) _).modPart _ ?_)
              (fun _ _ he => he.advance _ _ _ _) _).pipeline _ _ _ _)
              (foldl ((foldl ((hk.dropRun _).modPart _ ?_) (fun _ _ he => he.putCtx _ _) _).modPart _ ?_) (fun _ _ he => he.advance _ _ _ _) _))
              (foldl (foldl ((hk.dropRun _).modPart _ ?_) (fun _ _ he => he.putCtx _ _) _) (fun _ _ he => he.stepped _ _ _) _))).freeStuck _
          · exact fun _ => rfl
          · exact fun _ => rfl
          · exact fun _ => rfl
          · exact fun _ => rfl
          · exact fun _ => rfl
          · exact fun _ => rfl
        refine ite (((hk.dropRun _).modPart _ ?_).failCtxs _ _) ?_
        · exact fun _ => rfl
        refine ite ?_ ?_
        · refine ite ?_ ?_
          · refine (foldl ((foldl ((hk.dropRun _).modPart _ ?_) (fun _ _ he => he.putCtx _ _) _).modPart _ ?_) (fun _ _ he => he.advance _ _ _ _)
                _).pipeline _ _ _ _
            · exact fun _ => rfl
            · exact fun _ => rfl
          refine foldl ((foldl ((hk.dropRun _).modPart _ ?_) (fun _ _ he => he.putCtx _ _) _).modPart _ ?_) (fun _ _ he => he.advance _ _ _ _) _
          · exact fun _ => rfl
          · exact fun _ => rfl
        refine foldl (foldl ((hk.dropRun _).modPart _ ?_) (fun _ _ he => he.putCtx _ _) _) (fun _ _ he => he.stepped _ _ _) _
        exact fun _ => rfl
      · refine ite (((hk.dropRun _).modPart _ ?_).failCtxs _ _) ?_
        · exact fun _ => rfl
        refine ite ?_ ?_
        · refine ite ?_ ?_
          · refine (foldl ((foldl ((hk.dropRun _).modPart _ ?_) (fun _ _ he => he.putCtx _ _) _).modPart _ ?_) (fun _ _ he => he.advance _ _ _ _)
                _).pipeline _ _ _ _
            · exact fun _ => rfl
            · exact fun _ => rfl
          refine foldl ((foldl ((hk.dropRun _).modPart _ ?_) (fun _ _ he => he.putCtx _ _) _).modPart _ ?_) (fun _ _ he => he.advance _ _ _ _) _
          · exact fun _ => rfl
          · exact fun _ => rfl
        refine foldl (foldl ((hk.dropRun _).modPart _ ?_) (fun _ _ he => he.putCtx _ _) _) (fun _ _ he => he.stepped _ _ _) _
        exact fun _ => rfl

theorem passComplete (hk : d₀.Kept d) (rid : Nat) : d₀.Kept (d.passComplete rid) := by
  unfold Dev.passComplete
  split
  · exact hk
  · exact ite hk (ite (hk.passRelease _) (ite hk ((hk.endRun _).passRelease _)))

theorem sideCross (hk : d₀.Kept d) (p k : Nat) (pot : Bool) (a : Nat) : d₀.Kept (d.sideCross p k pot a).2 := by
  unfold Dev.sideCross
  split
  · split
    · split
      · exact hk
      · exact (hk.charge _ _ _ _).charge _ _ _ _
    · exact hk
  · exact hk.crossCharge _ _ _

end Dev.Kept
end Sys2Proof.Machine
end

section
/-! PROOF. Copies, engines, packs, signals, queries and registers. -/
namespace Sys2Proof.Machine

theorem Flash.Grows.trans {f g h : Flash} (hfg : f.Grows g) (hgh : g.Grows h) : f.Grows h :=
  ⟨Nat.le_trans hfg.1 hgh.1, Nat.le_trans hfg.2 hgh.2⟩

theorem Ex.kept_foldl {α : Type} {d₀ : Dev} {g : Ex → α → Ex} (hg : ∀ e a, d₀.Kept e.d → d₀.Kept (g e a).d) :
    ∀ (l : List α) {e : Ex}, d₀.Kept e.d → d₀.Kept (l.foldl g e).d
  | [], _, h => h
  | a :: l, e, h => Ex.kept_foldl hg l (hg e a h)

theorem Ex.kept_engineWorks {d₀ : Dev} {e : Ex} (hk : d₀.Kept e.d) (j : EngineJob) : d₀.Kept (engineWorks j e).d := by
  unfold engineWorks
  refine Ex.kept_foldl (fun e w he => ?_) _ hk
  split
  · exact he.trans (CoreAct.keeps_workOf _ _ _)
  · exact he

/-- An engine works on a view of the device of its own; what it leaves there goes back without the view's partitions. -/
theorem Dev.Kept.ofView {d₀ d e : Dev} {k : Nat} {image : Bytes} (hk : d₀.Kept d) (he : (d.engineView k image).Kept e) :
    d₀.Kept { e with parts := d.parts, regions := d.regions, runs := d.runs, cores := d.cores } :=
  ⟨hk.counters.trans he.counters, fun c => he.memory (hk.memory c), fun c => he.views (hk.views c), hk.partitions,
    fun c => he.casts (hk.casts c)⟩

theorem FnView.setQsize_int (x : FnView) (v : Nat) : (x.setQsize v).int = x.int := by
  unfold FnView.setQsize
  split
  · rfl
  · rfl

theorem FnView.setThr_int (x : FnView) (k i v : Nat) : (x.setThr k i v).int = x.int := by
  unfold FnView.setThr
  split
  · rfl
  · rfl

namespace Dev.Kept
variable {d₀ d : Dev}

theorem crossRuns (hk : d₀.Kept d) (p : Nat) (k : Option Nat) (pot : Bool) (l : List (Nat × Nat)) : d₀.Kept (d.crossRuns p k pot l).2 := by
  unfold Dev.crossRuns
  split
  · exact hk
  · refine foldl_snd ?_ (fun w a he => ?_) _
    · exact hk
    · exact he.sideCross _ _ _ _

theorem moveAll (hk : d₀.Kept d) (p : Nat) (e : Env) (sp dp : Bool) (l : List Piece) : d₀.Kept (d.moveAll p e sp dp l).2 := by
  unfold Dev.moveAll
  dsimp only
  refine foldl_snd ?_ (fun w a he => ?_) _
  · refine foldl_snd_snd ?_ (fun w a he => ?_) _
    · exact hk
    · refine foldl_snd ?_ (fun w a he => ?_) _
      · exact he
      · exact he.sideRead _ _ _ _ _
  · exact (he.blurOverlap _ _ _ _ _).sideWrite _ _ _ _ _ _

theorem copyRun (hk : d₀.Kept d) (r : CmdRef) (e : Env) (sp dp : Bool) (l : List Piece) : d₀.Kept (d.copyRun r e sp dp l) := by
  unfold Dev.copyRun
  refine ite (hk.finish _ _ _ _ _ _) (ite ((hk.mark _ _).finish _ _ _ _ _ _) ?_)
  refine ite (((((hk.crossRuns _ _ _ _).crossRuns _ _ _ _).blurSide _ _ _).mark _ _).finish _ _ _ _ _ _) ?_
  exact ((((hk.crossRuns _ _ _ _).crossRuns _ _ _ _).moveAll _ _ _ _ _).mark _ _).finish _ _ _ _ _ _

theorem haloRead (hk : d₀.Kept d) (r : CmdRef) (pot : Bool) (job k : Nat) (h : HaloEnt) (c : Int × Nat × Nat) :
    d₀.Kept (d.haloRead r pot job k h c) := by
  unfold Dev.haloRead
  exact ite ((hk.mark _ _).haloLost _ _) (ite ((hk.mark _ _).haloLost _ _) (((hk.cmdSend _ _).setFab _).modCmd _ _))

theorem haloIssue (hk : d₀.Kept d) (r : CmdRef) (e : Env) (pot : Bool) (job : Nat) (x : PieceD) (local_ : Nat) (k : Nat) (h : HaloEnt) :
    d₀.Kept (d.haloIssue r e pot job x local_ k h) := by
  unfold Dev.haloIssue
  dsimp only
  split
  · exact foldl hk (fun _ _ he => he.haloRead _ _ _ _ _ _) _
  · refine ite ?_ ?_
    · refine foldl_snd ?_ (fun w a he => ?_) _
      · exact hk
      · exact he.sideWrite _ _ _ _ _ _
    · refine haloLost ?_ _ _
      refine mark ?_ _ _
      refine foldl_snd ?_ (fun w a he => ?_) _
      · exact hk
      · exact he.sideWrite _ _ _ _ _ _
  · exact ite (hk.moveAll _ _ _ _ _) (((hk.moveAll _ _ _ _ _).mark _ _).haloLost _ _)

theorem haloCopy (hk : d₀.Kept d) (r : CmdRef) (c : Cmd) (e : Env) (pot : Bool) : d₀.Kept (d.haloCopy r c e pot) := by
  unfold Dev.haloCopy
  dsimp only
  refine ite ?_ ?_
  · exact hk.finish _ _ _ _ _ _
  · refine ite ?_ ?_
    · exact ((hk.read _ _ _ _).mark _ _).finish _ _ _ _ _ _
    · split
      · exact (hk.read _ _ _ _).finish _ _ _ _ _ _
      · refine ite ((hk.read _ _ _ _).finish _ _ _ _ _ _) (ite ((((hk.read _ _ _ _).read _ _ _ _).mark _ _).finish _ _ _ _ _ _) ?_)
        refine ite (((hk.read _ _ _ _).read _ _ _ _).finish _ _ _ _ _ _) (ite (((hk.read _ _ _ _).read _ _ _ _).finish _ _ _ _ _ _) ?_)
        refine ite (((hk.read _ _ _ _).read _ _ _ _).finish _ _ _ _ _ _) (ite (((hk.read _ _ _ _).read _ _ _ _).finish _ _ _ _ _ _) ?_)
        refine ite ((((hk.read _ _ _ _).read _ _ _ _).mark _ _).finish _ _ _ _ _ _) ?_
        exact (foldl (((hk.read _ _ _ _).read _ _ _ _).modCmd _ _) (fun _ _ he => he.haloIssue _ _ _ _ _ _ _ _) _).settleCmd _

theorem copy (hk : d₀.Kept d) (r : CmdRef) (e : Env) : d₀.Kept (d.copy r e) := by
  unfold Dev.copy
  refine hk.withCmd _ _ (fun _ => ?_)
  dsimp only
  refine ite ?_ ?_
  · exact hk.finish _ _ _ _ _ _
  · refine ite ?_ ?_
    · exact ite (hk.finish _ _ _ _ _ _) (hk.copyRun _ _ _ _ _)
    · refine ite ?_ ?_
      · refine ite ?_ ?_
        · exact hk.finish _ _ _ _ _ _
        · refine ite ?_ ?_
          · exact ((hk.read _ _ _ _).mark _ _).finish _ _ _ _ _ _
          · split
            · exact (hk.read _ _ _ _).finish _ _ _ _ _ _
            · exact (hk.read _ _ _ _).copyRun _ _ _ _ _
      · exact hk.haloCopy _ _ _ _

theorem clearRows (hk : d₀.Kept d) (l : List FillRun) : d₀.Kept (d.clearRows l) := by
  unfold Dev.clearRows
  exact foldl hk (fun _ _ he => ite he (he.modStack _ _)) _

theorem fillCmd (hk : d₀.Kept d) (r : CmdRef) : d₀.Kept (d.fillCmd r) := by
  unfold Dev.fillCmd
  refine hk.withCmd _ _ (fun _ => ?_)
  refine ite (hk.finish _ _ _ _ _ _) (ite (hk.finish _ _ _ _ _ _) (ite (hk.finish _ _ _ _ _ _) ?_))
  exact (((hk.clearRows _).writeRaced _ _ _ _).mark _ _).finish _ _ _ _ _ _

theorem engineEnds (hk : d₀.Kept d) (k st : Nat) : d₀.Kept (d.engineEnds k st) := by
  unfold Dev.engineEnds
  exact hk.modSkillet _ _

theorem engineRun (hk : d₀.Kept d) (full : Bool) (k : Nat) (j : EngineJob) : d₀.Kept (d.engineRun full k j) := by
  unfold Dev.engineRun
  dsimp only
  refine ite hk (ite (hk.engineEnds _ _) (ite (hk.engineEnds _ _) (ite hk (engineEnds (ofView (k := k) (image := j.image) hk ?_) _ _))))
  refine Ex.kept_engineWorks ?_ j
  exact (foldl (refl _) (fun _ _ he => he.store _ _ _ _) _).readList _ _

theorem engineJobs (hk : d₀.Kept d) (full : Bool) (k : Nat) (l : List EngineJob) : d₀.Kept (d.engineJobs full k l) := by
  unfold Dev.engineJobs
  exact foldl (hk.modSkillet _ _) (fun _ _ he => he.engineRun _ _ _) _

theorem knownAnswer (hk : d₀.Kept d) (b : BringUp) : d₀.Kept (d.knownAnswer b) := by
  unfold Dev.knownAnswer
  exact ite (foldl hk (fun _ _ he => he.engineRun _ _ _) _) hk

theorem bringUp (hk : d₀.Kept d) (b : BringUp) : d₀.Kept (d.bringUp b) := by
  unfold Dev.bringUp
  exact (hk.boot _).knownAnswer _

theorem imageCommit (hk : d₀.Kept d) (target len : Nat) (flashOk : Bool) (b : BringUp) : d₀.Kept (d.imageCommit target len flashOk b) := by
  unfold Dev.imageCommit
  exact ite (hk.i3c _ _) (ite (hk.i3c _ _) (ite ((((hk.fwStore _ _ _).i3c _ _).deviceReset _).knownAnswer _) ((hk.fwStore _ _ _).i3c _ _)))

theorem references (hk : d₀.Kept d) (g : Nat) (work : List EngineJob) : d₀.Kept (d.references g work) := by
  unfold Dev.references
  split
  · exact hk.engineJobs _ _ _
  · exact hk

theorem packRead (hk : d₀.Kept d) (p : Nat) (e : Env) (r : PackRec) : d₀.Kept (d.packRead p e r).2.2 := by
  unfold Dev.packRead
  dsimp only
  refine foldl_snd_snd ?_ (fun w a he => ?_) _
  · exact hk
  · exact he.read _ _ _ _

theorem packCross (hk : d₀.Kept d) (p : Nat) (l : List (Nat × Nat × Nat)) : d₀.Kept (d.packCross p l).2 := by
  unfold Dev.packCross
  refine foldl_snd ?_ (fun w a he => ?_) _
  · exact hk
  · refine foldl_snd ?_ (fun w a he => ?_) _
    · exact he
    · exact he.crossCharge _ _ _

theorem writeList (hk : d₀.Kept d) (p : Nat) (e : Env) (l : List (Nat × Bytes)) : d₀.Kept (d.writeList p e l).2 := by
  unfold Dev.writeList
  refine foldl_snd ?_ (fun w a he => ?_) _
  · exact hk
  · split
    · exact he
    · exact he.writeRaced _ _ _ _

theorem packWrite (hk : d₀.Kept d) (r : CmdRef) (e : Env) (x : PackRec) (tables : List (List Nat)) (dies : List Nat) :
    d₀.Kept (d.packWrite r e x tables dies) := by
  unfold Dev.packWrite
  refine ite ((((((hk.writeRaced _ _ _ _).packRead _ _ _).writeList _ _ _).writeRaced _ _ _ _).mark _ _).finish _ _ _ _ _ _) ?_
  exact ((((hk.writeRaced _ _ _ _).packRead _ _ _).writeList _ _ _).mark _ _).finish _ _ _ _ _ _

theorem packLate (hk : d₀.Kept d) (r : CmdRef) (x : PackRec) (dies : List Nat) : d₀.Kept (d.packLate r x dies) := by
  unfold Dev.packLate
  exact (((hk.freeBytes _).writeList _ _ _).mark _ _).finish _ _ _ _ _ _

theorem packRun (hk : d₀.Kept d) (r : CmdRef) (e : Env) (x : PackRec) (cores : List Nat) : d₀.Kept (d.packRun r e x cores) := by
  unfold Dev.packRun
  refine ite ((hk.packCross _ _).packLate _ _ _) (ite ((((hk.packCross _ _).packRead _ _ _).mark _ _).finish _ _ _ _ _ _) ?_)
  refine ite (((hk.packCross _ _).packRead _ _ _).finish _ _ _ _ _ _) (ite (((hk.packCross _ _).packRead _ _ _).finish _ _ _ _ _ _) ?_)
  refine ite ((((hk.packCross _ _).packRead _ _ _).packCross _ _).packLate _ _ _) ?_
  exact (((hk.packCross _ _).packRead _ _ _).packCross _ _).packWrite _ _ _ _ _

theorem pack (hk : d₀.Kept d) (r : CmdRef) (e : Env) : d₀.Kept (d.pack r e) := by
  unfold Dev.pack
  refine hk.withCmd _ _ (fun _ => ?_)
  dsimp only
  refine ite ?_ ?_
  · exact hk.finish _ _ _ _ _ _
  · split
    · exact hk
    · refine ite (hk.finish _ _ _ _ _ _) (ite (hk.finish _ _ _ _ _ _) (ite (((hk.read _ _ _ _).mark _ _).finish _ _ _ _ _ _) ?_))
      refine ite (hk.finish _ _ _ _ _ _) (ite (hk.finish _ _ _ _ _ _) (ite (hk.finish _ _ _ _ _ _) ?_))
      exact ite ((hk.mark _ _).finish _ _ _ _ _ _) (ite hk (foldl ((hk.read _ _ _ _).packRun _ _ _ _) (fun _ _ he => he.leaveCore _) _))

theorem signalStore (hk : d₀.Kept d) (r : CmdRef) (c : Cmd) : d₀.Kept (d.signalStore r c) := by
  unfold Dev.signalStore
  dsimp only
  split
  · exact ite (hk.finish _ _ _ _ _ _) ((((hk.writeRaced _ _ _ _).mark _ _).inputWake _).finish _ _ _ _ _ _)
  · exact (hk.emitOut _).finish _ _ _ _ _ _
  · exact ite (((hk.modCmd _ _).mark _ _).settleCmd _) (((hk.modCmd _ _).cmdSend _ _).settleCmd _)

theorem signal (hk : d₀.Kept d) (r : CmdRef) : d₀.Kept (d.signal r) := by
  unfold Dev.signal
  split
  · split
    · exact hk.finish _ _ _ _ _ _
    · exact ite (hk.finish _ _ _ _ _ _) (ite hk (ite (hk.finish _ _ _ _ _ _) (hk.signalStore _ _)))
  · exact hk

theorem wait (hk : d₀.Kept d) (r : CmdRef) (e : Env) : d₀.Kept (d.wait r e) := by
  unfold Dev.wait
  refine hk.withCmd _ _ (fun _ => ?_)
  refine ite (hk.finish _ _ _ _ _ _) (ite (hk.finish _ _ _ _ _ _) (ite (((hk.read _ _ _ _).mark _ _).finish _ _ _ _ _ _) ?_))
  exact ite ((hk.read _ _ _ _).finish _ _ _ _ _ _) hk

theorem pinPages (hk : d₀.Kept d) (p : Nat) (l : List Nat) : d₀.Kept (d.pinPages p l) := by
  unfold Dev.pinPages
  refine foldl hk (fun w a he => ?_) _
  split
  · exact he
  · split
    · cases hopen : w.openZero p a with
      | none => exact he
      | some e => exact he.openZero p a hopen
    · exact ite he (he.modTier _ _)
    · exact he

theorem pinOn (hk : d₀.Kept d) (r : CmdRef) (l : List Nat) : d₀.Kept (d.pinOn r l) := by
  unfold Dev.pinOn
  exact ite ((hk.pinPages _ _).finish _ _ _ _ _ _) ((hk.pinPages _ _).modCmd _ _)

theorem regSchedule (hk : d₀.Kept d) (r : CmdRef) (c : Cmd) (x : Part) : d₀.Kept (d.regSchedule r c x) := by
  unfold Dev.regSchedule
  dsimp only
  split
  · exact hk.finish _ _ _ _ _ _
  · refine ite (hk.finish _ _ _ _ _ _) (ite (((hk.read _ _ _ _).mark _ _).finish _ _ _ _ _ _) ?_)
    refine ite ((hk.read _ _ _ _).finish _ _ _ _ _ _) (ite ((hk.read _ _ _ _).finish _ _ _ _ _ _) ?_)
    refine ite ((((hk.read _ _ _ _).read _ _ _ _).mark _ _).finish _ _ _ _ _ _) ?_
    refine ite (((hk.read _ _ _ _).read _ _ _ _).finish _ _ _ _ _ _) (ite (((hk.read _ _ _ _).read _ _ _ _).finish _ _ _ _ _ _) ?_)
    refine (((hk.read _ _ _ _).read _ _ _ _).modPart _ ?_).finish _ _ _ _ _ _
    exact fun _ => rfl

theorem tierAct (hk : d₀.Kept d) (r : CmdRef) {x : Part} (hx : d.part r.f = some x) (act : Nat) (l : List Nat) :
    d₀.Kept (d.tierAct r x act l) := by
  have hput : ∀ y, d₀.Kept (d.putPart r.f { x with tier := y }) := fun y => hk.putPart_of hk hx rfl
  unfold Dev.tierAct
  dsimp only
  split
  · exact (hput _).finish _ _ _ _ _ _
  · exact (hput _).finish _ _ _ _ _ _
  · exact ite (hk.finish _ _ _ _ _ _) ((hput _).pinOn _ _)
  · exact (hput _).finish _ _ _ _ _ _
  · exact (hput _).finish _ _ _ _ _ _

theorem tierHint (hk : d₀.Kept d) (r : CmdRef) : d₀.Kept (d.tierHint r) := by
  unfold Dev.tierHint
  split
  · exact hk.pinOn _ _
  · refine hk.withCmd _ _ (fun _ => ?_)
    refine ite (hk.finish _ _ _ _ _ _) ?_
    split
    · exact hk
    next x hx =>
      refine ite (hk.regSchedule _ _ _) ?_
      split
      · exact hk.finish _ _ _ _ _ _
      · exact hk.tierAct r hx _ _

theorem qCounters (hk : d₀.Kept d) (u : Nat) (clear : Bool) : d₀.Kept (d.qCounters u clear).2 := by
  unfold Dev.qCounters
  exact ite (hk.zeroUnit _) hk

theorem answer (hk : d₀.Kept d) (f item arg : Nat) {z : Bytes × Dev} (hz : d.answer f item arg = .inl z) : d₀.Kept z.2 := by
  have hgo : ∀ {z' : Bytes × Dev}, (.inl z' : (Bytes × Dev) ⊕ Nat) = .inl z → d₀.Kept z'.2 → d₀.Kept z.2 := fun h hk' =>
    Sum.inl.inj h ▸ hk'
  unfold Dev.answer at hz
  dsimp only at hz
  split at hz
  · split at hz
    · cases hz
    · exact hgo hz hk
  · split at hz
    · cases hz
    · split at hz
      · exact hgo hz hk
      · cases hz
  · split at hz
    · exact hgo hz hk
    · cases hz
  · split at hz
    · exact hgo hz hk
    · cases hz
  · split at hz
    · cases hz
    · split at hz
      · cases hz
      · exact hgo hz (hk.qCounters _ _)
  · split at hz
    · cases hz
    · exact hgo hz hk
  · cases hz

theorem query (hk : d₀.Kept d) (r : CmdRef) : d₀.Kept (d.query r) := by
  unfold Dev.query
  refine hk.withCmd _ _ (fun _ => ?_)
  dsimp only
  refine ite (hk.finish _ _ _ _ _ _) ?_
  split
  · exact hk.finish _ _ _ _ _ _
  next z hz =>
    have hanswer := hk.answer _ _ _ hz
    exact finish (ite hanswer (hanswer.emitOut _)) _ _ _ _ _ _

theorem queryTime (hk : d₀.Kept d) (r : CmdRef) (ptm out back : Nat) : d₀.Kept (d.queryTime r ptm out back) := by
  unfold Dev.queryTime
  refine hk.withCmd _ _ (fun _ => ?_)
  exact ite (hk.finish _ _ _ _ _ _) ((hk.emitOut _).finish _ _ _ _ _ _)

theorem modSch (hk : d₀.Kept d) (f : Nat) (g : SchRegs → SchRegs) : d₀.Kept (d.modSch f g) := by
  unfold Dev.modSch
  refine hk.modFn _ ?_
  exact fun _ c => c

theorem writeDrain (hk : d₀.Kept d) (mask : Nat) : d₀.Kept (d.writeDrain mask) := by
  unfold Dev.writeDrain
  exact hk.setRegs _

theorem writeView (hk : d₀.Kept d) (f off v : Nat) (word32 : Bool) : d₀.Kept (d.writeView f off v word32) := by
  unfold Dev.writeView
  refine ite (hk.setEn _ _) (ite (hk.modFn _ ?_) ?_)
  · intro x c
    rwa [x.setQsize_int]
  refine ite (hk.modSch _ _) (ite (hk.modSch _ _) (ite (hk.modSch _ _) (ite (hk.modSch _ _) ?_)))
  refine ite (hk.modEvt _ _) (ite (ite (hk.modEvt _ _) hk) (ite (hk.modEvt _ _) ?_))
  refine ite (hk.withInt _ ?_) (ite (hk.intEnable _ _ _) ?_)
  · exact fun _ c => c
  refine ite (hk.withInt _ ?_) (ite (hk.withInt _ ?_) (ite (hk.withInt _ ?_) (ite (hk.withInt _ ?_) hk)))
  · exact fun _ c => IntCtl.ok_setSense c _ _
  · exact fun _ c => IntCtl.ok_setPrio c _ _
  · exact fun _ c => IntCtl.ok_setVector c _ _
  · exact fun _ c => IntCtl.ok_complete c _ _

theorem dmaCfg (hk : d₀.Kept d) (f c v : Nat) : d₀.Kept (d.dmaCfg f c v) := by
  unfold Dev.dmaCfg
  exact ite (hk.putDma _ _) hk

theorem dmaCtl (hk : d₀.Kept d) (f c v : Nat) : d₀.Kept (d.dmaCtl f c v) := by
  unfold Dev.dmaCtl
  exact ite (ite (hk.dmaReset _ _) hk) ((ite (hk.dmaReset _ _) hk).dmaStop _ _ _)

theorem writeWindow (hk : d₀.Kept d) (f off v : Nat) (word32 : Bool) : d₀.Kept (d.writeWindow f off v word32) := by
  unfold Dev.writeWindow
  dsimp only
  split
  · exact hk.dmaSize _ _ _
  · exact hk.dmaTail _ _ _ _
  · exact hk.dmaCtl _ _ _
  · exact hk.dmaCfg _ _ _
  · exact hk

theorem writePwr (hk : d₀.Kept d) (off v : Nat) : d₀.Kept (d.writePwr off v) := by
  unfold Dev.writePwr
  split
  · exact hk.writeCap _
  · exact hk.writeMode _
  · exact ite (hk.setPwr _) hk
  · exact hk.setPwr _
  · exact hk.cupData _
  · exact ite (hk.setPwr _) hk
  · exact ite (hk.setPwr _) hk
  · exact hk.setPwr _
  · exact hk

theorem writeMemReg (hk : d₀.Kept d) (off v : Nat) : d₀.Kept (d.writeMemReg off v) := by
  unfold Dev.writeMemReg
  split
  · exact ite (hk.repairRequest _ _) (hk.setRegs _)
  · exact ite (hk.retrainRequest _ _) (hk.setRegs _)
  · exact ite (hk.setCrock _) hk
  · exact ite (hk.setCrock _) hk
  · exact hk.crockRetrain _
  · exact hk

theorem podSize (hk : d₀.Kept d) (v : Nat) : d₀.Kept (d.podSize v) := by
  unfold Dev.podSize
  exact ite (hk.setPod _) hk

theorem writeFabReg (hk : d₀.Kept d) (off v : Nat) (word32 : Bool) : d₀.Kept (d.writeFabReg off v word32) := by
  unfold Dev.writeFabReg
  refine ite (ite (hk.setFab _) hk) (ite (ite (hk.portRetrain _) hk) (ite (hk.podSize _) (ite (ite (hk.podTail _) hk) ?_)))
  exact ite (ite hk.podReset hk) (ite (hk.modInj _ _) hk)

theorem writeBlock (hk : d₀.Kept d) (off v : Nat) (word32 : Bool) : d₀.Kept (d.writeBlock off v word32) := by
  unfold Dev.writeBlock
  refine ite (hk.writePwr _ _) (ite (hk.writeMemReg _ _) (ite (hk.writeFabReg _ _ _) (ite (hk.dmaOwner _ _) (ite (hk.writeDrain _) ?_))))
  exact ite (hk.winCfg _ _) hk

theorem write32 (hk : d₀.Kept d) (f off v : Nat) (word32 : Bool) : d₀.Kept (d.write32 f off v word32) := by
  unfold Dev.write32
  exact ite (hk.writeView _ _ _ _) (ite (hk.writeWindow _ _ _ _) (ite (hk.writeBlock _ _ _) hk))

theorem modWin (hk : d₀.Kept d) (h : Nat) (g : Window → Window) : d₀.Kept (d.modWin h g) := by
  unfold Dev.modWin
  exact ite (hk.setFab _) hk

theorem put64 (hk : d₀.Kept d) (f off v : Nat) : d₀.Kept (d.put64 f off v) := by
  unfold Dev.put64
  dsimp only
  refine ite (hk.modFn _ ?_) (ite (hk.modFn _ ?_) (ite (hk.modEvt _ _) (ite (hk.modFn _ ?_) ?_)))
  · intro x c
    split
    · exact c
    · exact c
  · intro x c
    split
    · exact c
    · exact c
  · intro x c
    rwa [x.setThr_int]
  refine ite (ite (hk.putDma _ _) hk) (ite (ite (hk.setPod _) hk) ?_)
  exact ite (hk.modWin _ _) (ite hk (hk.modWin _ _))

theorem writeWord (hk : d₀.Kept d) (f off v : Nat) (word32 : Bool) : d₀.Kept (d.writeWord f off v word32) := by
  unfold Dev.writeWord
  refine ite ?_ ?_
  · refine hk.modFn _ ?_
    exact fun _ c => c
  · split
    · refine (hk.modFn _ ?_).put64 _ _ _
      exact fun _ c => c
    · exact hk.write32 _ _ _ _

theorem busWrite (hk : d₀.Kept d) (f off width v : Nat) : d₀.Kept (d.busWrite f off width v) := by
  unfold Dev.busWrite
  refine ite (hk.writeWord _ _ _ _) (ite (ite ((hk.modFn _ ?_).put64 _ _ _) ((hk.write32 _ _ _ _).write32 _ _ _ _)) hk)
  exact fun _ c => c

theorem tick (hk : d₀.Kept d) : d₀.Kept d.tick := by
  unfold Dev.tick
  exact (hk.setSaf _).setAo _

end Dev.Kept
end Sys2Proof.Machine
end

section
/-!
PROOF. Every command keeps what the relation says, and so does a step: no rollback counter falls, and the canonical forms stay.
-/
namespace Sys2Proof.Machine

namespace Dev.Kept

theorem of_onDev {f : Dev → Dev} {s t : State} (h : (.next (s.onDev f) : Host.Outcome State Fault Refusal) = .next t)
    (hf : ∀ d : Dev, d.Kept (f d)) : s.dev.Kept t.dev := by
  obtain rfl := Host.Outcome.next.inj h
  exact hf s.dev

theorem of_onReg {f : Dev → Dev} {s t : State} (h : (.next (s.onReg f) : Host.Outcome State Fault Refusal) = .next t)
    (hf : ∀ d : Dev, d.Kept (f d)) : s.dev.Kept t.dev :=
  of_onDev h (fun d => ite (hf d) (refl d))

theorem of_onFn {f : Nat} {g : Dev → Dev} {s t : State} (h : (.next (s.onFn f g) : Host.Outcome State Fault Refusal) = .next t)
    (hg : ∀ d : Dev, d.Kept (g d)) : s.dev.Kept t.dev :=
  of_onDev h (fun d => ite (hg d) (refl d))

end Dev.Kept

open Dev.Kept in
/-- Whatever command runs, the device that it leaves is in the relation to the device that it found. -/
theorem exec_kept {c : Instr} {s t : State} (h : exec c s = .next t) : s.dev.Kept t.dev := by
  cases c with
  | qpCreate _ => exact of_onDev h (fun d => (refl d).qpCreate _)
  | qpDelete _ => exact of_onDev h (fun d => (refl d).qpDelete _)
  | qpFlush _ => exact of_onDev h (fun d => (refl d).qpFlush _)
  | partCreate _ _ => exact of_onDev h (fun d => (refl d).partCreate _ _)
  | partSuspend _ => exact of_onDev h (fun d => (refl d).partSuspend _)
  | partResume _ _ => exact of_onDev h (fun d => (refl d).partResume _ _)
  | partReclaim _ => exact of_onDev h (fun d => (refl d).partReclaim _)
  | scrub _ => exact of_onDev h (fun d => (refl d).scrub _)
  | reCarve _ => exact of_onDev h (fun d => (refl d).reCarve _)
  | handOver _ => exact of_onDev h (fun d => (refl d).handOver _)
  | fwWrite _ _ _ => exact of_onDev h (fun d => (refl d).fwWrite _ _ _)
  | fwActivate _ => exact of_onDev h (fun d => (refl d).fwActivate _)
  | microcodeLoad _ _ _ => exact of_onDev h (fun d => (refl d).microcodeLoad _ _ _)
  | attestReport _ _ => exact of_onDev h (fun d => (refl d).attest _ _)
  | certRead _ => exact of_onDev h (fun d => (refl d).certRead _)
  | programLoad _ _ => exact of_onDev h (fun d => (refl d).programLoad _ _)
  | programUnload _ => exact of_onDev h (fun d => (refl d).programUnload _)
  | pack _ _ => exact of_onDev h (fun d => (refl d).pack _ _)
  | graphRun _ => exact of_onDev h (fun d => (refl d).graphRun _)
  | rolloutStep _ => exact of_onDev h (fun d => (refl d).rolloutStep _)
  | ctxCreate _ => exact of_onDev h (fun d => (refl d).ctxCreate _)
  | ctxRetire _ => exact of_onDev h (fun d => (refl d).ctxRetire _)
  | copy _ _ => exact of_onDev h (fun d => (refl d).copy _ _)
  | fill _ => exact of_onDev h (fun d => (refl d).fillCmd _)
  | fence _ => exact of_onDev h (fun d => (refl d).fence _)
  | signal _ => exact of_onDev h (fun d => (refl d).signal _)
  | wait _ _ => exact of_onDev h (fun d => (refl d).wait _ _)
  | tierHint _ => exact of_onDev h (fun d => (refl d).tierHint _)
  | query _ => exact of_onDev h (fun d => (refl d).query _)
  | queryTime _ _ _ _ => exact of_onDev h (fun d => (refl d).queryTime _ _ _ _)
  | sqTail _ _ _ _ => exact of_onFn h (fun d => (refl d).sqTail _ _ _ _)
  | cqHead _ _ _ _ => exact of_onFn h (fun d => (refl d).cqHead _ _ _ _)
  | dmaChTail _ _ _ _ => exact of_onFn h (fun d => (refl d).dmaTail _ _ _ _)
  | dmaChCtlStop _ _ _ => exact of_onFn h (fun d => (refl d).dmaStop _ _ _)
  | dmaChCtlReset _ _ => exact of_onFn h (fun d => (refl d).dmaReset _ _)
  | dmaChRingSize _ _ _ => exact of_onFn h (fun d => (refl d).dmaSize _ _ _)
  | dmaChOwner _ _ => exact of_onReg h (fun d => (refl d).dmaOwner _ _)
  | evtRingHead _ _ _ => exact of_onFn h (fun d => ite ((refl d).modEvt _ _) (refl d))
  | evtRingSizeEn _ _ _ => exact of_onFn h (fun d => (refl d).modEvt _ _)
  | evtIntClaim _ _ => exact of_onDev h (fun d => ite ((refl d).claim _ _) ((refl d).emitOut _))
  | evtIntComplete _ _ _ => exact of_onFn h (fun d => (refl d).withInt _ (fun _ c => IntCtl.ok_complete c _ _))
  | evtIntEnable _ _ _ => exact of_onFn h (fun d => (refl d).intEnable _ _ _)
  | evtIntSense _ _ _ => exact of_onFn h (fun d => ite ((refl d).withInt _ (fun _ c => IntCtl.ok_setSense c _ _)) (refl d))
  | evtIntVector _ _ _ => exact of_onFn h (fun d => ite ((refl d).withInt _ (fun _ c => IntCtl.ok_setVector c _ _)) (refl d))
  | evtIntPrio _ _ _ => exact of_onFn h (fun d => ite ((refl d).withInt _ (fun _ c => IntCtl.ok_setPrio c _ _)) (refl d))
  | evtIntThreshold _ _ => exact of_onFn h (fun d => ite ((refl d).withInt _ (fun _ c => c)) (refl d))
  | ctlFuncCtlEn _ _ => exact of_onFn h (fun d => (refl d).setEn _ _)
  | ctlDevReset _ _ _ => exact of_onDev h (fun d => ite (((refl d).deviceReset _).knownAnswer _) (refl d))
  | schBucketStart _ _ => exact of_onFn h (fun d => (refl d).modSch _ _)
  | pwrCap _ => exact of_onReg h (fun d => (refl d).writeCap _)
  | pwrMode _ => exact of_onReg h (fun d => (refl d).writeMode _)
  | pwrCupData _ => exact of_onReg h (fun d => (refl d).cupData _)
  | memRepairCtlStart _ _ => exact of_onReg h (fun d => (refl d).repairRequest _ _)
  | memRetrainCtlRequest _ _ => exact of_onReg h (fun d => (refl d).retrainRequest _ _)
  | memCrockCtlRetrain _ => exact of_onReg h (fun d => (refl d).crockRetrain _)
  | fabPortCtlRetrain _ => exact of_onReg h (fun d => (refl d).portRetrain _)
  | fabPodTail _ _ => exact of_onReg h (fun d => ite ((refl d).podTail _) (refl d))
  | fabPodCtlReset => exact of_onReg h (fun d => (refl d).podReset)
  | fabWinCfg _ _ => exact of_onReg h (fun d => (refl d).winCfg _ _)
  | fabInjCount _ _ => exact of_onReg h (fun d => (refl d).modInj _ _)
  | schSkilletDrain _ => exact of_onReg h (fun d => (refl d).writeDrain _)
  | registerWrite _ _ _ _ => exact of_onFn h (fun d => (refl d).busWrite _ _ _ _)
  | descriptorFetch _ _ _ => exact of_onDev h (fun d => (refl d).fetch _ _ _)
  | commandStart _ => exact of_onDev h (fun d => (refl d).commandStart _)
  | tilePass _ _ _ => exact of_onDev h (fun d => (refl d).tilePass _ _ _)
  | junctionSet _ => exact of_onDev h (fun d => (refl d).junctionSet _)
  | commandEnd _ => exact of_onDev h (fun d => (refl d).commandEnd _)
  | commandTimeLimit _ => exact of_onDev h (fun d => (refl d).timeLimit _)
  | completionRelease _ => exact of_onDev h (fun d => (refl d).release _)
  | msixUnmask _ _ => exact of_onFn h (fun d => (refl d).unmask _ _)
  | subscribe _ => exact of_onDev h (fun d => (refl d).subscribe _)
  | multicastTileArrive _ _ _ _ _ => exact of_onDev h (fun d => (refl d).tileArrive _ _ _ _ _)
  | multicastEntryFree _ _ _ _ => exact of_onDev h (fun d => (refl d).putJd_from (refl d) _ (fun c => c.filter _))
  | dmaDescriptor _ _ _ => exact of_onDev h (fun d => (refl d).dmaDescriptor _ _ _)
  | dmaWriteback _ _ => exact of_onDev h (fun d => (refl d).dmaWriteback _ _)
  | dmaStopped _ _ _ => exact of_onDev h (fun d => (refl d).dmaStopped _ _ _)
  | postedWriteFailed _ => exact of_onDev h (fun d => (refl d).postedFailed _)
  | contextJoin _ => exact of_onDev h (fun d => (refl d).contextJoin _)
  | batchWindow _ _ => exact of_onDev h (fun d => (refl d).batchWindow _ _)
  | passStart _ _ => exact of_onDev h (fun d => (refl d).passStart _ _)
  | passComplete _ => exact of_onDev h (fun d => (refl d).passComplete _)
  | deferredCompletion _ _ => exact of_onDev h (fun d => (refl d).postDeferred _ _)
  | residencyDecision _ _ => exact of_onDev h (fun d => (refl d).residency _ _)
  | swap _ _ => exact of_onDev h (fun d => (refl d).swapEnd _ _)
  | agingPeriod _ => exact of_onDev h (fun d => (refl d).agingPeriod _)
  | tierPromotion _ _ => exact of_onDev h (fun d => (refl d).tierPromotion _ _)
  | tierDemotion _ => exact of_onDev h (fun d => (refl d).tierDemotion _)
  | migrationChunk _ _ _ => exact of_onDev h (fun d => (refl d).migrationChunk _ _ _)
  | crockRequestLate _ _ => exact of_onDev h (fun d => (refl d).crockMiss _ _ _)
  | crockAccessFailed _ _ => exact of_onDev h (fun d => (refl d).crockMiss _ _ _)
  | crockLinkDown _ => exact of_onDev h (fun d => (refl d).crockDown _)
  | crockPortRetrained _ _ _ _ => exact of_onDev h (fun d => (refl d).crockRetrained _ _ _ _)
  | crockPresent _ => exact of_onDev h (fun d => (refl d).crockPresent _ _)
  | patrol _ _ _ => exact of_onDev h (fun d => (refl d).patrol _ _ _)
  | retrainStart _ _ => exact of_onDev h (fun d => (refl d).retrainStart _ _)
  | retrainEnd _ _ => exact of_onDev h (fun d => ite ((refl d).retrainEnd _ _) (refl d))
  | channelRetire _ _ => exact of_onDev h (fun d => (refl d).channelRetire _ _)
  | repairCopyDone _ => exact of_onDev h (fun d => ite ((refl d).repairDone _ _) (refl d))
  | flitReceive _ _ => exact of_onDev h (fun d => (refl d).flitReceive _ _)
  | replayTimer _ => exact of_onDev h (fun d => ite ((refl d).replayPort _ _) (refl d))
  | portTrainingDone _ _ _ => exact of_onDev h (fun d => (refl d).portTrained _ _ _)
  | write _ _ => exact of_onDev h (fun d => (refl d).onWindow _ _ _ _ (fun _ _ _ _ => (((refl d).landMarked _ _ _ _).commitMsg _ _).sayAck _ _))
  | readReq _ _ =>
    refine of_onDev h (fun d => ?_)
    exact (refl d).onWindow _ _ _ _ (fun _ _ _ _ => ((((refl d).read _ _ _ _).commitMsg _ _).sayAck _ _).sendMsg _)
  | readResp _ _ => exact of_onDev h (fun d => (refl d).readResp _ _)
  | fabricSignal _ _ =>
    refine of_onDev h (fun d => ?_)
    exact (refl d).onWindow _ _ _ _ (fun _ _ _ _ => ((((refl d).landMarked _ _ _ _).inputWake _).commitMsg _ _).sayAck _ _)
  | ack _ _ => exact of_onDev h (fun d => (refl d).ackMsg _ _)
  | refuse _ _ => exact of_onDev h (fun d => (refl d).refused _ _)
  | e2eTimeout _ _ => exact of_onDev h (fun d => (refl d).e2eTimeout _ _)
  | readTagTimeout _ => exact of_onDev h (fun d => (refl d).tagTimeout _)
  | unreachableProbe _ => exact of_onDev h (fun d => ite ((refl d).sendMsg _) (refl d))
  | heartbeatSend => exact of_onDev h (fun d => (refl d).heartbeatSend)
  | heartbeat _ _ _ => exact of_onDev h (fun d => (refl d).onMgmt _ _ (fun _ he => ite (he.beatAtManager _ _) (he.setPod _)))
  | mgmt _ _ _ => exact of_onDev h (fun d => (refl d).onMgmt _ _ (fun _ he => he.podMsg _ _))
  | heartbeatTimeout _ => exact of_onDev h (fun d => (refl d).beatTimeout _)
  | managerHeartbeatTimeout => exact of_onDev h (fun d => ite (refl d) (((refl d).setPod _).fabEvent _ _ _ _))
  | standbyTakeover => exact of_onDev h (fun d => ite (refl d) (((refl d).setPod _).fabEvent _ _ _ _))
  | podAdmit _ _ _ => exact of_onDev h (fun d => (refl d).podAdmit _ _ _)
  | reclaim _ => exact of_onDev h (fun d => (refl d).podReclaim _)
  | podReclaimTimeout _ _ => exact of_onDev h (fun d => (refl d).podConfirm _ _ _)
  | cupPeriodBoundary _ => exact of_onDev h (fun d => (refl d).cupBoundary _)
  | powerLoop _ _ _ _ _ => exact of_onDev h (fun d => (refl d).powerLoop _)
  | calibration _ _ => exact of_onDev h (fun d => (refl d).calibrate _ _)
  | disagreeTimeout _ _ => exact of_onDev h (fun d => (refl d).disagree _ _)
  | agreeTimeout _ _ => exact of_onDev h (fun d => (refl d).agree _ _)
  | inputSample _ _ => exact of_onDev h (fun d => (refl d).inputSample _ _)
  | inputSenseTimeout _ => exact of_onDev h (fun d => (refl d).senseTimeout _)
  | trivetTelemetryTimeout _ => exact of_onDev h (fun d => (refl d).trivetTimeout _)
  | inputOutOfRange _ => exact of_onDev h (fun d => ite ((refl d).alert _) (refl d))
  | thermalSample _ => exact of_onDev h (fun d => foldl (refl d) (fun _ _ he => he.thermOne _ _) _)
  | coolantSample _ _ => exact of_onDev h (fun d => (refl d).setSense _)
  | coolantRise => exact of_onDev h (fun d => ite ((refl d).alert _) (refl d))
  | coreIdleCool _ => exact of_onDev h (fun d => ite ((refl d).modCore _ _) (refl d))
  | coreIdleCold _ => exact of_onDev h (fun d => ite ((refl d).modCore _ _) (refl d))
  | coreWake _ => exact of_onDev h (fun d => ite ((refl d).modCore _ _) (refl d))
  | clockMonitorFault _ _ _ => exact of_onDev h (fun d => (refl d).clockFault _ _ _)
  | railMonitorFault _ _ _ => exact of_onDev h (fun d => (refl d).railFault _ _ _)
  | lockstepMismatch => exact of_onDev h (fun d => (refl d).safeStopNow _)
  | junctionCompareMismatch _ => exact of_onDev h (fun d => ite ((refl d).fenceJd _ _) (refl d))
  | unitReturn _ => exact of_onDev h (fun d => (refl d).unitReturn _)
  | selftestIdle _ => exact of_onDev h (fun d => ite (((refl d).references _ _).modCore _ _) (refl d))
  | selftestReserve _ => exact of_onDev h (fun d => ite (((refl d).references _ _).modCore _ _) (refl d))
  | selftestEnd _ _ _ => exact of_onDev h (fun d => (refl d).testEnd _ _ _)
  | selftestDeadline _ => exact of_onDev h (fun d => ite (((refl d).modCore _ _).raise _ _) (refl d))
  | mechanismTest _ _ => exact of_onDev h (fun d => ite (refl d) (((refl d).raise _ _).mechFails _))
  | suspectEntryExpiry _ _ => exact of_onDev h (fun d => ite ((refl d).suspectExpiry _ _) (refl d))
  | hsEnMate => exact of_onDev h (fun d => (refl d).setMod _)
  | hsEnBreak => exact of_onDev h (fun d => (refl d).powerOff.setMod _)
  | inputRise => exact of_onDev h (fun d => ite ((refl d).setMod _) (refl d))
  | inputFall _ => exact of_onDev h (fun d => (refl d).inputFall _)
  | overvoltage _ => exact of_onDev h (fun d => ite ((refl d).powerOff.setMod _) (refl d))
  | overvoltageRestart => exact of_onDev h (fun d => ite ((refl d).setMod _) (refl d))
  | breakerOpen => exact of_onDev h (fun d => (refl d).powerOff.setMod _)
  | breakerClose => exact of_onDev h (fun d => ite ((refl d).setMod _) (refl d))
  | powerOnReset _ => exact of_onDev h (fun d => ite (((refl d).wiped _).bringUp _) (refl d))
  | mrstLow => exact of_onDev h (fun d => ite (((refl d).wiped _).setMod _) (refl d))
  | mrstRise _ => exact of_onDev h (fun d => ite (((refl d).setMod _).bringUp _) (refl d))
  | conventionalReset => exact of_onDev h (fun d => (refl d).convReset)
  | functionLevelReset _ => exact of_onDev h (fun d => ite ((refl d).flr _) (refl d))
  | hostLinkRetrain _ _ => exact of_onDev h (fun d => ite ((refl d).setMod _) (refl d))
  | trialCommit => exact of_onDev h (fun d => (refl d).trialCommit)
  | i3cDynamicAddress _ => exact of_onDev h (fun d => ite ((refl d).setMod _) (refl d))
  | getStatus => exact of_onDev h (fun d => (refl d).i3c _ _)
  | clearAlert _ => exact of_onDev h (fun d => ite (((refl d).setMod _).i3c _ _) (refl d))
  | setCap _ => exact of_onDev h (fun d => ite ((refl d).setCap _) (refl d))
  | getCap => exact of_onDev h (fun d => ite ((refl d).i3c _ _) ((refl d).i3c _ _))
  | imageWrite _ _ => exact of_onDev h (fun d => ite ((refl d).imageWrite _ _) (refl d))
  | imageCommit _ _ _ _ => exact of_onDev h (fun d => ite ((refl d).imageCommit _ _ _ _) (refl d))
  | recoveryWrite _ _ => exact of_onDev h (fun d => ite ((refl d).recoveryWrite _ _) (refl d))
  | recoveryRun _ => exact of_onDev h (fun d => ite ((refl d).recoveryRun _) (refl d))
  | getVersion _ _ => exact of_onDev h (fun d => ite ((refl d).spdmSay _ _ _ _) (refl d))
  | getCapabilities _ _ => exact of_onDev h (fun d => ite ((refl d).spdmSay _ _ _ _) (refl d))
  | negotiateAlgorithms _ _ => exact of_onDev h (fun d => ite ((refl d).spdmSay _ _ _ _) (refl d))
  | getDigests _ => exact of_onDev h (fun d => (refl d).spdmAsk _ _ _)
  | getCertificate _ _ _ _ => exact of_onDev h (fun d => (refl d).spdmAsk _ _ _)
  | challenge _ _ => exact of_onDev h (fun d => (refl d).spdmAsk _ _ _)
  | getMeasurements _ _ => exact of_onDev h (fun d => (refl d).spdmAsk _ _ _)
  | vendorDefinedRequest _ _ => exact of_onDev h (fun d => ite ((refl d).emitOut _) (refl d))
  | perstDeassertion _ _ => exact of_onDev h (fun d => (refl d).setMod _)
  | sriovReenable => exact of_onDev h (fun d => ite ((refl d).setMod _) (refl d))
  | packageRailOutOfWindow => exact of_onDev h (fun d => (refl d).setMod _)

/-- Whatever a step does, the device that it leaves is in the relation to the device that it found. -/
theorem step_kept {s t : State} (h : step s = .next t) : s.dev.Kept t.dev := by
  unfold step at h
  split at h
  · exact Dev.Kept.of_onDev h (fun d => (Dev.Kept.refl d).tick)
  next c rest _ => exact exec_kept (s := { s with pending := rest }) h

/-- Settles O58: no step lowers a rollback counter, since no command does. -/
theorem countersNeverFall : Obligations.CountersNeverFall :=
  fun _ _ h => (step_kept h).counters

/-- Settles O57: every step keeps the canonical forms, table by table, since every command does. -/
theorem stepKeepsInvariant : Obligations.StepKeepsInvariant :=
  fun s t hs h => t.ok_iff.2 ((step_kept h).canonical (s.ok_iff.1 hs))

end Sys2Proof.Machine
end
